-- ==== Sys2Proof/Word.lean ====
section
/-! DEFINITION. The word types of the machine (R4, R55, R63, R65). -/

namespace Sys2Proof

/-- A byte of memory or of the loft (R4). -/
abbrev Byte := BitVec 8

/-- A 32-bit word: a general register, a temporary, an accumulator element (R63). -/
abbrev Word := BitVec 32

/-- A 64-bit word: an instruction word, a register pair, a virtual address (R55, R65, R290). -/
abbrev Dword := BitVec 64

end Sys2Proof
end

