-- ==== Sys2Proof/Config.lean ====
section
/-! DEFINITION. The values the spec leaves open: constants without a body, of which nothing can be
proved, and the sizes that the spec fixes for the module as shipped. -/

namespace Sys2Proof.Config

/-- Unspecified 32-bit values (R7, R184, R218), one for each use: the counter `State.fresh`, the
lane and the place of the operand. Log entry 6. -/
opaque freeWord : Nat → Nat → Nat → Word

/-- Choices among finitely many values that the spec admits (R45, R252, R258, R283), by the counter
`State.fresh` and a number of the place. Log entry 6. -/
opaque freeChoice : Nat → Nat → Nat

/-- Where EXP2 steps up (R119): the input, in the order of FP32 values, from which a result of at
least the given FP32 value is returned. Every function that R119 admits has this form.
Log entry 8. -/
opaque exp2Threshold : Word → Int

/-- The payload length of a section of a context frame in 64-bit words, by its tag and the serial number of the
workgroup; R327 gives the sections and what they hold, and no byte counts. Log entry 9. -/
opaque sectionWords : Nat → Nat → Nat

/-- A byte of a section's payload, by the serial number of the write, the tag and the place of the byte; R327 gives
no byte layout of it. Log entry 67. -/
opaque sectionByte : Nat → Nat → Nat → Byte

/-- The bytes of a snapshot list in the frame pool, by the number of its pages; R345 gives no layout. Log entry 9. -/
opaque snapBytes : Nat → Nat

/-- Which place of a frame pool a request tries first, by the next serial number and the number of runs
that are taken; R310 names no placement. Log entry 13. -/
opaque poolPlace : Nat → Nat → Nat

/-- Die-cache accesses and misses of a slot or of an engine's work (R330), by the counter `State.fresh`;
the spec gives no replacement and no division of requests. Log entry 10. -/
opaque l2Accesses : Nat → Nat
opaque l2Misses : Nat → Nat

/-- Gugar flits and Ultra Ethernet packets of an access or a message (R330), by the counter `State.fresh`; the spec
gives no format of either. Log entry 10. -/
opaque flits : Nat → Nat

/-- Whether the L1 serves a read of a private line (R298, R330), by the counter `State.fresh` and the line.
Log entry 10. -/
opaque l1Serves : Nat → Nat → Bool

/-- The Gugar port that carries requests to a package (R12, R241); the spec gives no routing.
Log entry 11. -/
opaque portOf : Nat → Nat

/-- The fused birth count of a cluster (R339). Log entry 18. -/
opaque birthCount : Nat → Nat

/-- Cores of a C-die, clusters of a C-die, cores of a cluster and C-dies (R11, R14). -/
def coresPerDie : Nat := 48
def clustersPerDie : Nat := 6
def coresPerCluster : Nat := 8
def dies : Nat := 4
def cores : Nat := 192

/-- Rig slots of a bay: 8 active and 24 pending (R28). -/
def activeSlots : Nat := 8
def pendingSlots : Nat := 24

/-- The tenure of the issue port in bay cycles (R30). -/
def tenureCycles : Nat := 7

/-- Commands held by the matrix engine, the attention front end and the copy engine (R244). -/
def matrixPlaces : Nat := 16
def attentionPlaces : Nat := 8
def copyPlaces : Nat := 256

/-- Entries of a replay list (R306). -/
def replayEntries : Nat := 1024

/-- Entries of an L1 TLB, a walk cache and a relay TLB (R294). -/
def l1TlbEntries : Nat := 2048
def walkEntries : Nat := 512
def relayTlbEntries : Nat := 1024

/-- In-flight pages and waiting requests of the migration arbiter (R309). -/
def arbiterEntries : Nat := 1024
def arbiterWaiting : Nat := 4096

/-- Entries of a slice's refusal queue (R236). -/
def refusalEntries : Nat := 1024

/-- Bytes of HBM of the module, 384 GiB, and of one C-die, 96 GiB (R2, R290). -/
def localBytes : Nat := 384 * 2 ^ 30
def dieBytes : Nat := 96 * 2 ^ 30

end Sys2Proof.Config
end

