-- ==== Sys2Proof/Machine/Map.lean ====
section
/-! DEFINITION. Sparse data by number: a list of pairs in one canonical form, keys strictly rising and
no entry equal to what an unlisted key reads as, so that equal maps are equal lists. Memory is such a
list of bytes. -/

namespace Sys2Proof.Machine

/-- A list of (key, value) pairs. -/
abbrev Map (α : Type) := List (Nat × α)

/-- The value at a key; an unlisted key reads as `d`. -/
def Map.get {α : Type} (d : α) (m : Map α) (k : Nat) : α :=
  match m with
  | [] => d
  | (k', v) :: r => if k' = k then v else Map.get d r k

/-- Put a value at a key in a rising list; the value `d` removes the entry. -/
def Map.set {α : Type} [DecidableEq α] (d : α) (m : Map α) (k : Nat) (v : α) : Map α :=
  match m with
  | [] => if v = d then [] else [(k, v)]
  | (k', v') :: r =>
    if k < k' then (if v = d then (k', v') :: r else (k, v) :: (k', v') :: r)
    else if k = k' then (if v = d then r else (k, v) :: r)
    else (k', v') :: Map.set d r k v

/-- The keys are all above a bound. -/
def Map.above {α : Type} (m : Map α) (k : Nat) : Bool :=
  match m with
  | [] => true
  | (k', _) :: _ => k < k'

/-- The canonical form. -/
def Map.wf {α : Type} [DecidableEq α] (d : α) (m : Map α) : Bool :=
  match m with
  | [] => true
  | (k, v) :: r => Map.above r k && (v != d) && Map.wf d r

/-- Memory by 52-bit physical address (R290), and the loft window by offset (R22). -/
abbrev Memory := Map Byte

/-- What a byte that nothing has written reads as. The spec gives no contents at power-on:
DESIGN CHOICE, unsafe, log entry 2. The loft window holds zero bytes at placement (R357). -/
def Memory.unlisted : Byte := 0#8

/-- Read one byte. -/
def Memory.read (m : Memory) (a : Nat) : Byte := Map.get Memory.unlisted m a

/-- Write one byte. -/
def Memory.write (m : Memory) (a : Nat) (v : Byte) : Memory := Map.set Memory.unlisted m a v

/-- The canonical form of memory. -/
def Memory.wf (m : Memory) : Bool := Map.wf Memory.unlisted m

/-- The `n` bytes from an address, the lowest address first (R4). -/
def Memory.readN (m : Memory) (a : Nat) : Nat → List Byte
  | 0 => []
  | n + 1 => Memory.read m a :: Memory.readN m (a + 1) n

/-- Write bytes from an address upward (R4). -/
def Memory.writeN (m : Memory) (a : Nat) : List Byte → Memory
  | [] => m
  | b :: bs => Memory.writeN (Memory.write m a b) (a + 1) bs

/-- Little-endian number of a list of bytes (R4). -/
def leNat : List Byte → Nat
  | [] => 0
  | b :: bs => b.toNat + 256 * leNat bs

/-- The `n` low bytes of a number, little-endian (R4). -/
def leBytes : Nat → Nat → List Byte
  | 0, _ => []
  | n + 1, v => BitVec.ofNat 8 v :: leBytes n (v / 256)

/-- Element `i` of a list replaced by its image. -/
def modifyAt {α : Type} (l : List α) (i : Nat) (f : α → α) : List α :=
  match l, i with
  | [], _ => []
  | x :: r, 0 => f x :: r
  | x :: r, i + 1 => x :: modifyAt r i f

/-- Bits [lo + n - 1 : lo] of a number. -/
def bits (w lo n : Nat) : Nat := w / 2 ^ lo % 2 ^ n

/-- Bit `i` of a number. -/
def bit (w i : Nat) : Bool := w / 2 ^ i % 2 == 1

/-- An entry with some bits set, and with a field replaced. -/
def setBits (e lo n v : Nat) : Nat := e - bits e lo n * 2 ^ lo + v % 2 ^ n * 2 ^ lo

end Sys2Proof.Machine
end

