-- ==== Sys2Proof/Syntax.lean ====
section
/-! DEFINITION. The syntax of the machine: one constructor of `Instr` for each row of the opcode table.
The first 154 constructors are instructions of Taled with decoded operands (R55 to R66).
The others are the steps that the machine takes by itself (file 95_what_each_step_holds.md): each names
the things it acts on. -/

namespace Sys2Proof

/-- The guard of bits [53:50]: predicate and negation (R55, R66). -/
structure Guard where
  pred : BitVec 3
  neg : Bool
  deriving DecidableEq, Repr

/-- A 9-bit operand code (R63): general register, accumulator column, temporary, predicate, inline
constant (code 400 + k), and the codes 464 + k that are illegal operands. -/
inductive Opnd where
  | g (r : BitVec 8)
  | a (j : BitVec 7)
  | t (r : BitVec 3)
  | p (r : BitVec 3)
  | c (k : BitVec 6)
  | bad (k : BitVec 6)
  deriving DecidableEq, Repr

/-- The type codes of R62. -/
inductive Ty where
  | i8 | i16 | i32 | i64 | w8 | w16 | w32 | w64 | f32 | bf16 | f16 | e4m3 | e5m2 | e3m2 | e2m1 | cb2
  deriving DecidableEq, Repr

/-- The rounding modes of R103. -/
inductive Rnd where
  | rne | rz | ru | rd | rs
  deriving DecidableEq, Repr

/-- The conditions of R136. -/
inductive Cond where
  | eq | ne | lt | le | gt | ge | un
  deriving DecidableEq, Repr

/-- The operation of PSET (R138). -/
inductive PredOp where
  | and | or | xor
  deriving DecidableEq, Repr

/-- The two directions of PMOV (R138). -/
inductive PmovForm where
  | get (d : Opnd)
  | put (a : Opnd)
  deriving DecidableEq, Repr

/-- The modes of SHFL (R150). -/
inductive ShflMode where
  | idx | up | down | xor
  deriving DecidableEq, Repr

/-- The modes of VOTE (R151). -/
inductive VoteMode where
  | all | any | bal
  deriving DecidableEq, Repr

/-- The operations of REDX and SCANX (R152). -/
inductive RedOp where
  | add | min | max | and | or | xor | fadd | fmin | fmax
  deriving DecidableEq, Repr

/-- The three forms of YIELD (R163). -/
inductive YieldForm where
  | phase (a b : Opnd)
  | token (k : BitVec 3)
  | wptr (a b : Opnd)
  deriving DecidableEq, Repr

/-- The scopes of R58 and R206. -/
inductive Scope where
  | wg | die | dev | dom | sys
  deriving DecidableEq, Repr

/-- The orders of R58. -/
inductive Order where
  | plain | acq | rel | acqrel
  deriving DecidableEq, Repr

/-- The space of an access with a SPACE bit (R58, R177). -/
inductive Space where
  | global | loft
  deriving DecidableEq, Repr

/-- The operations of a post (R230, R233). -/
inductive PostOp where
  | add | min | max | and | or | xor | exch
  deriving DecidableEq, Repr

/-- The special registers of R170, in the order of their numbers. -/
inductive SReg where
  | lane | team | rig | tid | wgid | nwg | launch | graph | phase | job | time | readfloor | rowprog
  | pkperm | cstk | cspill | aset | vf | core | die | bay | status | lfsr | tframe
  deriving DecidableEq, Repr

/-- The levels that a cancel names (R172, R326). -/
inductive Level where
  | launch | graph | phase | job
  deriving DecidableEq, Repr

/-- How an engine command completes (R60): through a token, or through the barrier slot in C. -/
inductive Completion where
  | tok (k : BitVec 3)
  | bar (c : Opnd)
  deriving DecidableEq, Repr

/-- The shape selectors nsel and ksel of an MMA opcode (R68). -/
inductive Sel3 where
  | s0 | s1 | s2
  deriving DecidableEq, Repr

/-- The functions of an atomic that arrives over the fabric (R192, R193, R241). -/
inductive FabOp where
  | add | min | max | and | or | xor | exch | fadd | cas
  deriving DecidableEq, Repr

/-- What an update that arrives over the fabric is: a plain atomic, one that is marked as helped (R237), or a memory step
of a post (R233). -/
inductive FabKind where
  | plain | helped | step
  deriving DecidableEq, Repr

/-- What arrives over the fabric: a write, an atomic or a memory step of a post, the update of an AINIT (R228), the
pointer advance of a ring (R288), and a relay stream (R335). The rules give no layout of flits and packets: log entry
97. -/
inductive FabReq where
  | write (pa : Nat) (data : List Byte)
  | atom (kind : FabKind) (pa : Nat) (op : FabOp) (ty : Ty) (len : Nat) (cmp : Nat) (val : Nat)
  | ainit (pa : Nat) (val : Nat)
  | advance (vf : Nat) (ident : Nat) (wgid : Nat) (chan : Nat) (n : Nat)
  | stream (k : Nat)
  deriving DecidableEq, Repr

/-- The instructions and steps of the machine, in the order of the opcode table. -/
inductive Instr where
  /-- IADD, opcode 0x000, R125. -/
  | iadd (gd : Guard) (ty : Ty) (d : Opnd) (a : Opnd) (b : Opnd)
  /-- IADD_I, opcode 0x001, R57, R125. -/
  | iaddI (gd : Guard) (d : Opnd) (a : Opnd) (imm : Word)
  /-- ISUB, opcode 0x002, R125. -/
  | isub (gd : Guard) (ty : Ty) (d : Opnd) (a : Opnd) (b : Opnd)
  /-- ISUB_I, opcode 0x003, R57, R125. -/
  | isubI (gd : Guard) (d : Opnd) (a : Opnd) (imm : Word)
  /-- IADDC, opcode 0x004, R126. -/
  | iaddc (gd : Guard) (ty : Ty) (d : Opnd) (a : Opnd) (b : Opnd) (c : Opnd)
  /-- IMUL, opcode 0x006, R125. -/
  | imul (gd : Guard) (ty : Ty) (d : Opnd) (a : Opnd) (b : Opnd)
  /-- IMUL_I, opcode 0x007, R57, R125. -/
  | imulI (gd : Guard) (d : Opnd) (a : Opnd) (imm : Word)
  /-- IMULH, opcode 0x008, R125. -/
  | imulh (gd : Guard) (ty : Ty) (d : Opnd) (a : Opnd) (b : Opnd)
  /-- IMAD, opcode 0x00A, R125. -/
  | imad (gd : Guard) (ty : Ty) (d : Opnd) (a : Opnd) (b : Opnd) (c : Opnd)
  /-- IDOT4, opcode 0x00C, R127. -/
  | idot4 (gd : Guard) (ty : Ty) (d : Opnd) (a : Opnd) (b : Opnd) (c : Opnd)
  /-- IDIV, opcode 0x00E, R128. -/
  | idiv (gd : Guard) (ty : Ty) (d : Opnd) (a : Opnd) (b : Opnd)
  /-- IREM, opcode 0x010, R128. -/
  | irem (gd : Guard) (ty : Ty) (d : Opnd) (a : Opnd) (b : Opnd)
  /-- IMIN, opcode 0x012, R129. -/
  | imin (gd : Guard) (ty : Ty) (d : Opnd) (a : Opnd) (b : Opnd)
  /-- IMIN_I, opcode 0x013, R57, R129. -/
  | iminI (gd : Guard) (d : Opnd) (a : Opnd) (imm : Word)
  /-- IMAX, opcode 0x014, R129. -/
  | imax (gd : Guard) (ty : Ty) (d : Opnd) (a : Opnd) (b : Opnd)
  /-- IMAX_I, opcode 0x015, R57, R129. -/
  | imaxI (gd : Guard) (d : Opnd) (a : Opnd) (imm : Word)
  /-- IABS, opcode 0x016, R129. -/
  | iabs (gd : Guard) (ty : Ty) (d : Opnd) (a : Opnd)
  /-- INEG, opcode 0x018, R129. -/
  | ineg (gd : Guard) (ty : Ty) (d : Opnd) (a : Opnd)
  /-- ISAT, opcode 0x01A, R129. -/
  | isat (gd : Guard) (ty : Ty) (d : Opnd) (a : Opnd)
  /-- SHL, opcode 0x020, R130. -/
  | shl (gd : Guard) (ty : Ty) (d : Opnd) (a : Opnd) (b : Opnd)
  /-- SHL_I, opcode 0x021, R57, R130. -/
  | shlI (gd : Guard) (d : Opnd) (a : Opnd) (imm : Word)
  /-- SHR, opcode 0x022, R130. -/
  | shr (gd : Guard) (ty : Ty) (d : Opnd) (a : Opnd) (b : Opnd)
  /-- SHR_I, opcode 0x023, R57, R130. -/
  | shrI (gd : Guard) (d : Opnd) (a : Opnd) (imm : Word)
  /-- SAR, opcode 0x024, R130. -/
  | sar (gd : Guard) (ty : Ty) (d : Opnd) (a : Opnd) (b : Opnd)
  /-- SAR_I, opcode 0x025, R57, R130. -/
  | sarI (gd : Guard) (d : Opnd) (a : Opnd) (imm : Word)
  /-- ROL, opcode 0x026, R130. -/
  | rol (gd : Guard) (ty : Ty) (d : Opnd) (a : Opnd) (b : Opnd)
  /-- ROL_I, opcode 0x027, R57, R130. -/
  | rolI (gd : Guard) (d : Opnd) (a : Opnd) (imm : Word)
  /-- ROR, opcode 0x028, R130. -/
  | ror (gd : Guard) (ty : Ty) (d : Opnd) (a : Opnd) (b : Opnd)
  /-- ROR_I, opcode 0x029, R57, R130. -/
  | rorI (gd : Guard) (d : Opnd) (a : Opnd) (imm : Word)
  /-- AND, opcode 0x030, R131. -/
  | andG (gd : Guard) (ty : Ty) (d : Opnd) (a : Opnd) (b : Opnd)
  /-- AND_I, opcode 0x031, R57, R131. -/
  | andI (gd : Guard) (d : Opnd) (a : Opnd) (imm : Word)
  /-- OR, opcode 0x032, R131. -/
  | orG (gd : Guard) (ty : Ty) (d : Opnd) (a : Opnd) (b : Opnd)
  /-- OR_I, opcode 0x033, R57, R131. -/
  | orI (gd : Guard) (d : Opnd) (a : Opnd) (imm : Word)
  /-- XOR, opcode 0x034, R131. -/
  | xorG (gd : Guard) (ty : Ty) (d : Opnd) (a : Opnd) (b : Opnd)
  /-- XOR_I, opcode 0x035, R57, R131. -/
  | xorI (gd : Guard) (d : Opnd) (a : Opnd) (imm : Word)
  /-- ANDN, opcode 0x036, R131. -/
  | andnG (gd : Guard) (ty : Ty) (d : Opnd) (a : Opnd) (b : Opnd)
  /-- ANDN_I, opcode 0x037, R57, R131. -/
  | andnI (gd : Guard) (d : Opnd) (a : Opnd) (imm : Word)
  /-- NOT, opcode 0x038, R131. -/
  | notG (gd : Guard) (ty : Ty) (d : Opnd) (a : Opnd)
  /-- POPC, opcode 0x040, R131. -/
  | popc (gd : Guard) (ty : Ty) (d : Opnd) (a : Opnd)
  /-- CLZ, opcode 0x042, R131. -/
  | clz (gd : Guard) (ty : Ty) (d : Opnd) (a : Opnd)
  /-- CTZ, opcode 0x044, R131. -/
  | ctz (gd : Guard) (ty : Ty) (d : Opnd) (a : Opnd)
  /-- BREV, opcode 0x046, R131. -/
  | brev (gd : Guard) (ty : Ty) (d : Opnd) (a : Opnd)
  /-- BFX, opcode 0x048, R132. -/
  | bfx (gd : Guard) (ty : Ty) (d : Opnd) (a : Opnd) (b : Opnd) (c : Opnd)
  /-- BFI, opcode 0x04A, R132. -/
  | bfi (gd : Guard) (ty : Ty) (d : Opnd) (a : Opnd) (b : Opnd) (c : Opnd)
  /-- LEA, opcode 0x050, R133. -/
  | lea (gd : Guard) (d : Opnd) (a : Opnd) (b : Opnd) (c : Opnd)
  /-- MOV, opcode 0x052, R134. -/
  | mov (gd : Guard) (ty : Ty) (d : Opnd) (a : Opnd)
  /-- MOVI, opcode 0x053, R134. -/
  | movi (gd : Guard) (d : Opnd) (imm : Word)
  /-- MOVH, opcode 0x055, R134. -/
  | movh (gd : Guard) (d : Opnd) (imm : Word)
  /-- SEL, opcode 0x058, R135. -/
  | sel (gd : Guard) (ty : Ty) (d : Opnd) (a : Opnd) (b : Opnd) (c : Opnd)
  /-- ICMP, opcode 0x05A, R136, R137. -/
  | icmp (gd : Guard) (ty : Ty) (cond : Cond) (pn : BitVec 3) (a : Opnd) (b : Opnd)
  /-- ICMP_I, opcode 0x05B, R57, R137. -/
  | icmpI (gd : Guard) (cond : Cond) (pn : BitVec 3) (a : Opnd) (imm : Word)
  /-- PSET, opcode 0x05C, R138. -/
  | pset (gd : Guard) (op : PredOp) (d : Opnd) (a : Opnd) (b : Opnd)
  /-- PMOV, opcode 0x05E, R138. -/
  | pmov (gd : Guard) (x : PmovForm)
  /-- FADD, opcode 0x100, R139. -/
  | fadd (gd : Guard) (rnd : Rnd) (d : Opnd) (a : Opnd) (b : Opnd)
  /-- FSUB, opcode 0x102, R139. -/
  | fsub (gd : Guard) (rnd : Rnd) (d : Opnd) (a : Opnd) (b : Opnd)
  /-- FMUL, opcode 0x104, R139. -/
  | fmul (gd : Guard) (rnd : Rnd) (d : Opnd) (a : Opnd) (b : Opnd)
  /-- FFMA, opcode 0x106, R139. -/
  | ffma (gd : Guard) (rnd : Rnd) (d : Opnd) (a : Opnd) (b : Opnd) (c : Opnd)
  /-- FMIN, opcode 0x108, R140. -/
  | fmin (gd : Guard) (d : Opnd) (a : Opnd) (b : Opnd)
  /-- FMAX, opcode 0x10A, R140. -/
  | fmax (gd : Guard) (d : Opnd) (a : Opnd) (b : Opnd)
  /-- FCMP, opcode 0x10C, R136, R137. -/
  | fcmp (gd : Guard) (cond : Cond) (pn : BitVec 3) (a : Opnd) (b : Opnd)
  /-- FCLASS, opcode 0x10E, R141. -/
  | fclass (gd : Guard) (d : Opnd) (a : Opnd)
  /-- FRND, opcode 0x110, R139. -/
  | frnd (gd : Guard) (rnd : Rnd) (d : Opnd) (a : Opnd)
  /-- FSCALE, opcode 0x112, R139. -/
  | fscale (gd : Guard) (rnd : Rnd) (d : Opnd) (a : Opnd) (b : Opnd)
  /-- HADD2, opcode 0x120, R142. -/
  | hadd2 (gd : Guard) (ty : Ty) (rnd : Rnd) (d : Opnd) (a : Opnd) (b : Opnd)
  /-- HMUL2, opcode 0x122, R142. -/
  | hmul2 (gd : Guard) (ty : Ty) (rnd : Rnd) (d : Opnd) (a : Opnd) (b : Opnd)
  /-- HFMA2, opcode 0x124, R142. -/
  | hfma2 (gd : Guard) (ty : Ty) (rnd : Rnd) (d : Opnd) (a : Opnd) (b : Opnd) (c : Opnd)
  /-- FDOT2, opcode 0x128, R143. -/
  | fdot2 (gd : Guard) (ty : Ty) (rnd : Rnd) (d : Opnd) (a : Opnd) (b : Opnd) (c : Opnd)
  /-- FDOT4, opcode 0x12A, R143. -/
  | fdot4 (gd : Guard) (ty : Ty) (rnd : Rnd) (d : Opnd) (a : Opnd) (b : Opnd) (c : Opnd)
  /-- CVT, opcode 0x140, R144. -/
  | cvt (gd : Guard) (dt : Ty) (sty : Ty) (rnd : Rnd) (d : Opnd) (a : Opnd)
  /-- CVTX, opcode 0x142, R145. -/
  | cvtx (gd : Guard) (dt : Ty) (rnd : Rnd) (d : Opnd) (a : Opnd) (b : Opnd)
  /-- PACK, opcode 0x144, R146. -/
  | pack (gd : Guard) (ty : Ty) (d : Opnd) (a : Opnd) (b : Opnd)
  /-- UNPACK, opcode 0x146, R146. -/
  | unpack (gd : Guard) (ty : Ty) (d : Opnd) (a : Opnd) (b : Opnd)
  /-- CBDEC, opcode 0x148, R147. -/
  | cbdec (gd : Guard) (d : Opnd) (a : Opnd) (b : Opnd)
  /-- EXP2, opcode 0x160, R148. -/
  | exp2 (gd : Guard) (d : Opnd) (a : Opnd)
  /-- LOG2, opcode 0x162, R148. -/
  | log2 (gd : Guard) (d : Opnd) (a : Opnd)
  /-- RCP, opcode 0x164, R148. -/
  | rcp (gd : Guard) (d : Opnd) (a : Opnd)
  /-- RSQ, opcode 0x166, R148. -/
  | rsq (gd : Guard) (d : Opnd) (a : Opnd)
  /-- SQRT, opcode 0x168, R148. -/
  | sqrt (gd : Guard) (d : Opnd) (a : Opnd)
  /-- SIN, opcode 0x16A, R148. -/
  | sin (gd : Guard) (d : Opnd) (a : Opnd)
  /-- COS, opcode 0x16C, R148. -/
  | cos (gd : Guard) (d : Opnd) (a : Opnd)
  /-- TANH, opcode 0x16E, R148. -/
  | tanh (gd : Guard) (d : Opnd) (a : Opnd)
  /-- SHFL, opcode 0x180, R150. -/
  | shfl (gd : Guard) (mode : ShflMode) (d : Opnd) (a : Opnd) (b : Opnd)
  /-- VOTE, opcode 0x182, R151. -/
  | vote (gd : Guard) (mode : VoteMode) (d : Opnd) (a : Opnd)
  /-- REDX, opcode 0x184, R152. -/
  | redx (gd : Guard) (ty : Ty) (op : RedOp) (d : Opnd) (a : Opnd)
  /-- SCANX, opcode 0x186, R153. -/
  | scanx (gd : Guard) (ty : Ty) (op : RedOp) (exc : Bool) (d : Opnd) (a : Opnd)
  /-- BCST, opcode 0x188, R154. -/
  | bcst (gd : Guard) (ty : Ty) (d : Opnd) (a : Opnd) (b : Opnd)
  /-- BRA, opcode 0x200, R156. -/
  | bra (gd : Guard) (ofs : Word)
  /-- BRX, opcode 0x202, R156. -/
  | brx (gd : Guard) (a : Opnd) (ofs : Word)
  /-- CALL, opcode 0x204, R157. -/
  | call (gd : Guard) (ofs : Word)
  /-- CALLX, opcode 0x206, R158. -/
  | callx (gd : Guard) (a : Opnd) (ofs : Word)
  /-- RET, opcode 0x208, R161. -/
  | ret (gd : Guard)
  /-- EXIT, opcode 0x20A, R162. -/
  | exit (gd : Guard)
  /-- YIELD, opcode 0x20C, R163. -/
  | yield (gd : Guard) (x : YieldForm)
  /-- TRAP, opcode 0x20E, R169. -/
  | trap (gd : Guard) (imm : Word)
  /-- TRET, opcode 0x210, R168. -/
  | tret (gd : Guard)
  /-- BRK, opcode 0x212, R169. -/
  | brk (gd : Guard) (imm : Word)
  /-- NOP, opcode 0x214, R164. -/
  | nop (gd : Guard)
  /-- LD, opcode 0x280, R186. -/
  | ld (gd : Guard) (ty : Ty) (tok : BitVec 3) (d : Opnd) (a : Opnd) (b : Opnd)
  /-- ST, opcode 0x281, R186. -/
  | st (gd : Guard) (ty : Ty) (d : Opnd) (a : Opnd) (b : Opnd)
  /-- LDL, opcode 0x282, R186. -/
  | ldl (gd : Guard) (ty : Ty) (tok : BitVec 3) (d : Opnd) (a : Opnd) (b : Opnd)
  /-- STL, opcode 0x283, R186. -/
  | stl (gd : Guard) (ty : Ty) (d : Opnd) (a : Opnd) (b : Opnd)
  /-- LDP, opcode 0x284, R187. -/
  | ldp (gd : Guard) (ty : Ty) (tok : BitVec 3) (d : Opnd) (a : Opnd) (b : Opnd)
  /-- LDA, opcode 0x285, R189. -/
  | lda (gd : Guard) (ty : Ty) (sc : Scope) (ord : Order) (tok : BitVec 3) (sp : Space) (d : Opnd) (a : Opnd) (b : Opnd)
  /-- STA, opcode 0x286, R189. -/
  | sta (gd : Guard) (ty : Ty) (sc : Scope) (ord : Order) (sp : Space) (d : Opnd) (a : Opnd) (b : Opnd)
  /-- PREF, opcode 0x287, R188. -/
  | pref (gd : Guard) (a : Opnd) (b : Opnd)
  /-- ATOM_ADD, opcode 0x288, R192. -/
  | atomAdd (gd : Guard) (ty : Ty) (sc : Scope) (ord : Order) (tok : BitVec 3) (sp : Space) (d : Opnd) (a : Opnd) (b : Opnd)
  /-- ATOM_MIN, opcode 0x289, R192. -/
  | atomMin (gd : Guard) (ty : Ty) (sc : Scope) (ord : Order) (tok : BitVec 3) (sp : Space) (d : Opnd) (a : Opnd) (b : Opnd)
  /-- ATOM_MAX, opcode 0x28A, R192. -/
  | atomMax (gd : Guard) (ty : Ty) (sc : Scope) (ord : Order) (tok : BitVec 3) (sp : Space) (d : Opnd) (a : Opnd) (b : Opnd)
  /-- ATOM_AND, opcode 0x28B, R192. -/
  | atomAnd (gd : Guard) (ty : Ty) (sc : Scope) (ord : Order) (tok : BitVec 3) (sp : Space) (d : Opnd) (a : Opnd) (b : Opnd)
  /-- ATOM_OR, opcode 0x28C, R192. -/
  | atomOr (gd : Guard) (ty : Ty) (sc : Scope) (ord : Order) (tok : BitVec 3) (sp : Space) (d : Opnd) (a : Opnd) (b : Opnd)
  /-- ATOM_XOR, opcode 0x28D, R192. -/
  | atomXor (gd : Guard) (ty : Ty) (sc : Scope) (ord : Order) (tok : BitVec 3) (sp : Space) (d : Opnd) (a : Opnd) (b : Opnd)
  /-- ATOM_EXCH, opcode 0x28E, R192. -/
  | atomExch (gd : Guard) (ty : Ty) (sc : Scope) (ord : Order) (tok : BitVec 3) (sp : Space) (d : Opnd) (a : Opnd) (b : Opnd)
  /-- ATOM_FADD, opcode 0x28F, R192. -/
  | atomFadd (gd : Guard) (sc : Scope) (ord : Order) (tok : BitVec 3) (sp : Space) (d : Opnd) (a : Opnd) (b : Opnd)
  /-- CAS, opcode 0x290, R193. -/
  | cas (gd : Guard) (ty : Ty) (sc : Scope) (ord : Order) (tok : BitVec 3) (sp : Space) (d : Opnd) (a : Opnd) (b : Opnd) (c : Opnd)
  /-- CASW, opcode 0x291, R193. -/
  | casw (gd : Guard) (sc : Scope) (ord : Order) (tok : BitVec 3) (sp : Space) (d : Opnd) (a : Opnd) (b : Opnd) (c : Opnd)
  /-- FENCE, opcode 0x292, R195. -/
  | fence (gd : Guard) (sc : Scope) (ord : Order)
  /-- TWAIT, opcode 0x298, R185. -/
  | twait (gd : Guard) (mask : BitVec 8)
  /-- TCNT, opcode 0x299, R185. -/
  | tcnt (gd : Guard) (tok : BitVec 3) (d : Opnd)
  /-- BINIT, opcode 0x2A0, R200. -/
  | binit (gd : Guard) (a : Opnd)
  /-- BEXP, opcode 0x2A1, R200. -/
  | bexp (gd : Guard) (a : Opnd) (b : Opnd) (c : Opnd)
  /-- BARV, opcode 0x2A2, R200, R202. -/
  | barv (gd : Guard) (a : Opnd)
  /-- BTEST, opcode 0x2A3, R201. -/
  | btest (gd : Guard) (d : Opnd) (a : Opnd)
  /-- BFREE, opcode 0x2A4, R200. -/
  | bfree (gd : Guard) (a : Opnd)
  /-- AINIT, opcode 0x2B0, R228, R234. -/
  | ainit (gd : Guard) (a : Opnd) (b : Opnd)
  /-- APOST, opcode 0x2B1, R234. -/
  | apost (gd : Guard) (op : PostOp) (d : Opnd) (a : Opnd) (b : Opnd)
  /-- ASTEP, opcode 0x2B2, R234. -/
  | astep (gd : Guard) (d : Opnd) (a : Opnd)
  /-- ARES, opcode 0x2B3, R234. -/
  | ares (gd : Guard) (d : Opnd)
  /-- MOVS, opcode 0x2F0, R170. -/
  | movs (gd : Guard) (d : Opnd) (sr : SReg)
  /-- MOVSW, opcode 0x2F1, R170. -/
  | movsw (gd : Guard) (sr : SReg) (a : Opnd)
  /-- PKSET, opcode 0x2F2, R171. -/
  | pkset (gd : Guard) (a : Opnd) (b : Opnd)
  /-- CANCEL, opcode 0x2F3, R172. -/
  | cancel (gd : Guard) (lvl : Level) (hard : Bool) (a : Opnd)
  /-- ENQL, opcode 0x2F4, R173. -/
  | enql (gd : Guard) (a : Opnd) (b : Opnd)
  /-- EVSIG, opcode 0x2F5, R174. -/
  | evsig (gd : Guard) (a : Opnd) (b : Opnd)
  /-- CTRD, opcode 0x2F6, R175. -/
  | ctrd (gd : Guard) (d : Opnd) (a : Opnd)
  /-- MMA, opcode 0x300, R248, R250. -/
  | mma (gd : Guard) (ns : Sel3) (ks : Sel3) (tok : BitVec 3) (a : Opnd)
  /-- MMA_16BIT, opcode 0x309, R248, R250. -/
  | mma16 (gd : Guard) (ns : Sel3) (ks : Sel3) (tok : BitVec 3) (a : Opnd)
  /-- MOPF, opcode 0x312, R252. -/
  | mopf (gd : Guard)
  /-- MZERO, opcode 0x313, R253. -/
  | mzero (gd : Guard) (tok : BitVec 3) (a : Opnd)
  /-- ATT, opcode 0x318, R254 to R257. -/
  | att (gd : Guard) (exp : Bool) (abs : Bool) (acc : Bool) (tok : BitVec 3) (a : Opnd)
  /-- ATTFIN, opcode 0x319, R259. -/
  | attfin (gd : Guard) (tok : BitVec 3) (d : Opnd) (a : Opnd)
  /-- LATW, opcode 0x31A, R258. -/
  | latw (gd : Guard) (tok : BitVec 3) (a : Opnd)
  /-- KVLOOK, opcode 0x320, R260. -/
  | kvlook (gd : Guard) (tok : BitVec 3) (d : Opnd) (a : Opnd)
  /-- KVAPP, opcode 0x321, R261. -/
  | kvapp (gd : Guard) (cmp : Completion) (a : Opnd)
  /-- KVFORK, opcode 0x322, R262. -/
  | kvfork (gd : Guard) (cmp : Completion) (a : Opnd)
  /-- KVCOMMIT, opcode 0x323, R263. -/
  | kvcommit (gd : Guard) (cmp : Completion) (a : Opnd)
  /-- TOPK, opcode 0x324, R264. -/
  | topk (gd : Guard) (cmp : Completion) (a : Opnd)
  /-- CPY, opcode 0x340, R267. -/
  | cpy (gd : Guard) (cmp : Completion) (a : Opnd)
  /-- CPYT, opcode 0x341, R267, R268. -/
  | cpyt (gd : Guard) (conv : Bool) (cmp : Completion) (a : Opnd)
  /-- CPYC, opcode 0x342, R270. -/
  | cpyc (gd : Guard) (cmp : Completion) (a : Opnd)
  /-- CPYG, opcode 0x343, R269. -/
  | cpyg (gd : Guard) (cmp : Completion) (a : Opnd)
  /-- CPYS, opcode 0x344, R269. -/
  | cpys (gd : Guard) (cmp : Completion) (a : Opnd)
  /-- CHWP, opcode 0x345, R273. -/
  | chwp (gd : Guard) (d : Opnd) (a : Opnd)
  /-- RNGSND, opcode 0x348, R274. -/
  | rngsnd (gd : Guard) (pkg : Bool) (tok : BitVec 3) (a : Opnd)
  /-- RNGRCV, opcode 0x349, R274. -/
  | rngrcv (gd : Guard) (pkg : Bool) (cmp : Completion) (a : Opnd)
  /-- STRIDE_ISSUE, R29: the picker of a bay issues a stride. -/
  | strideIssue (core : Nat) (bay : Nat)
  /-- TENURE_END, R30: the tenure of the group at the port ends. -/
  | tenureEnd (core : Nat) (bay : Nat)
  /-- JOIN_HOLD_EXPIRY, R32: the held teams of a bay are released. -/
  | joinHoldExpiry (core : Nat) (bay : Nat)
  /-- WAKE, R34: a parked thread whose condition holds is unparked. -/
  | wake (wg : Nat) (rig : Nat) (lane : Nat)
  /-- PENDING_DEMOTION, R35: the rig of an active slot moves to the pending set. -/
  | pendingDemotion (core : Nat) (bay : Nat) (slot : Nat)
  /-- RIG_PROMOTE, R36: a ready pending rig takes a free slot. -/
  | rigPromote (core : Nat) (bay : Nat)
  /-- FORCED_DEMOTION, R36: the rig whose last issue is oldest gives its slot up. -/
  | forcedDemotion (core : Nat) (bay : Nat)
  /-- LOAD_LANDS, R184: the value of a load or atomic arrives. -/
  | loadLands (id : Nat)
  /-- RELEASE_WAIT_END, R195: device time has passed the bound a release waits for. -/
  | releaseWaitEnd (core : Nat) (bay : Nat)
  /-- FAULT_SWAP, R40, R181: a faulted workgroup is saved and its slots freed. -/
  | faultSwap (wg : Nat)
  /-- WORKGROUP_RESTORE, R305: a swapped workgroup is restored and replays. -/
  | workgroupRestore (wg : Nat)
  /-- WORKGROUP_PLACE, R26, R324: the next workgroup of a launch is placed. -/
  | workgroupPlace (launch : Nat) (core : Nat)
  /-- WORKGROUP_COMPLETE, R162: a workgroup whose work is done completes. -/
  | workgroupComplete (wg : Nat)
  /-- PREEMPT, R325: cores are marked for a waiting launch. -/
  | preempt (launch : Nat)
  /-- COMMAND_ACCEPT, R244, R246: an engine gives a command a place. -/
  | commandAccept (id : Nat)
  /-- COMMAND_COMPLETE, R244: an engine performs up to a number of units of a command and completes it. -/
  | commandComplete (id : Nat) (units : Nat)
  /-- COPY_CHUNK_DELIVER, R272: a channel delivers a chunk. -/
  | copyChunkDeliver (id : Nat) (count : Nat)
  /-- RING_BLOCK_ARRIVE, R287: a ring block lands in the pool. -/
  | ringBlockArrive (id : Nat)
  /-- RING_CREDIT_RETURN, R287: a credit returns to the sender. -/
  | ringCreditReturn (id : Nat)
  /-- READ_MISS_GRANT, R301: a home serves a read miss with a lease. -/
  | readMissGrant (load : Nat) (len : Nat) (viaL2 : Bool)
  /-- INVALIDATION, R302: a holder receives an invalidation. -/
  | invalidation (id : Nat)
  /-- TRANSLATION_INVALIDATION, R295: a translation sharer drops entries and acknowledges. -/
  | translationInvalidation (id : Nat)
  /-- SHARER_ACK_TIMEOUT, R351: a silent sharer is fenced with its core. -/
  | sharerAckTimeout (id : Nat)
  /-- SLICE_NO_RESPONSE, R304: a silent slice is reported to its buddy. -/
  | sliceNoResponse (die : Nat) (slice : Nat)
  /-- SLICE_TAKEOVER, R304: the buddy takes the slice over. -/
  | sliceTakeover (die : Nat) (slice : Nat)
  /-- TAKEOVER_LEASE_END, R304: the blanket lease after a takeover ends. -/
  | takeoverLeaseEnd (die : Nat) (slice : Nat)
  /-- MIGRATION_REQUEST, R309: the arbiter decides a device request. -/
  | migrationRequest (id : Nat)
  /-- MIGRATION_HOLD_EXPIRY, R309: a hold ends. -/
  | migrationHoldExpiry (frame : Nat) (host : Bool)
  /-- LINK_RESERVATION_EXPIRY, R236: a reservation of an object expires. -/
  | linkReservationExpiry (obj : Nat)
  /-- REFUSAL_ENTRY_EXPIRY, R236: an old refusal entry leaves its queue. -/
  | refusalEntryExpiry (slice : Nat) (post : Nat)
  /-- LINK_DECLARED_DEAD, R241, R242: a Gugar link is declared dead. -/
  | linkDeclaredDead (port : Nat)
  /-- LAUNCH_RECORD_TAKEN, R314: the dispatcher takes an armed record. -/
  | launchRecordTaken (vf : Nat) (queue : Nat)
  /-- ADMISSION_RESUME, R321: a held admission resumes. -/
  | admissionResume (launch : Nat)
  /-- SNAPSHOT, R345: a replayable launch write-protects its regions. -/
  | snapshot (launch : Nat)
  /-- LAUNCH_END, R322: a launch ends. -/
  | launchEnd (launch : Nat)
  /-- SLICE_END, R329: the slice of a cluster ends. -/
  | sliceEnd (cluster : Nat)
  /-- DRAIN_BUDGET_EXPIRY, R329: the drain budget has passed. -/
  | drainBudgetExpiry (cluster : Nat) (vf : Nat)
  /-- DRAIN_END, R329, R332: a drain ends. -/
  | drainEnd (cluster : Nat) (vf : Nat)
  /-- ROLLBACK, R347: a launch is rolled back and requeued. -/
  | rollback (launch : Nat)
  /-- UNCORRECTABLE_ERROR, R344: an ECC error poisons a sector. -/
  | uncorrectableError (pa : Nat)
  /-- AGEING_MEASURE, R339, R340: the monitor of a cluster measures. -/
  | ageingMeasure (cluster : Nat) (meas : Nat)
  /-- DIE_DEAD, R352: a die is found dead. -/
  | dieDead (die : Nat)
  /-- BLULYS_DECLARE_DEAD, R352: the Blulys controller declares a die dead. -/
  | blulysDeclareDead (die : Nat)
  /-- KILL, R354: the kill of a context reaches its completion point. -/
  | kill (vf : Nat) (ctx : Nat) (gen : Nat)
  /-- HOST_MEMORY_WRITE, R222, R342: a host write is performed. -/
  | hostMemoryWrite (pa : Nat) (data : List Byte)
  /-- HOST_MEMORY_READ, R343: a host read is completed. -/
  | hostMemoryRead (pa : Nat) (len : Nat)
  /-- FABRIC_RECEIVE, R241, R342, R343: a Gugar receive, of a source port with its request number, or an Ultra
  Ethernet receive is performed. -/
  | fabricReceive (link : Option (Nat × Nat)) (req : FabReq) (poisoned : Bool)
  /-- RELAY_START, R333, R334: RLCTL = 1. -/
  | relayStart (engine : Nat)
  /-- RELAY_ABORT, R333: RLCTL = 2. -/
  | relayAbort (engine : Nat)
  /-- RELAY_DRAIN_END, R334: the drain of a relayed job ends. -/
  | relayDrainEnd (engine : Nat)
  /-- RELAY_STREAM_RECEIVED, R335: a stream is checked and its job admitted or refused. -/
  | relayStreamReceived (idx : Nat)
  /-- RELAY_ACK, R335: the destination has admitted the job. -/
  | relayAck (engine : Nat)
  /-- HOST_SOFT_CANCEL, R326: a CANCEL write with HARD = 0. -/
  | hostSoftCancel (vf : Nat) (lvl : Level) (ident : Nat)
  /-- HOST_HARD_CANCEL, R326: a CANCEL write with HARD = 1. -/
  | hostHardCancel (vf : Nat) (lvl : Level) (ident : Nat)
  /-- MIGREQ_REQUEST, R309, R310: the host asks for a page. -/
  | migreqRequest (vf : Nat) (frame : Nat)
  /-- MIGREQ_MOVE_DONE, R309, R310: the host reports a move done. -/
  | migreqMoveDone (vf : Nat) (frame : Nat)
  /-- MIGRSP_READ, R310: the host reads a reply. -/
  | migrspRead (vf : Nat)
  /-- CTXT_WRITE, R311: a host store to a translation context. -/
  | ctxtWrite (vf : Nat) (ctx : Nat) (word : Nat) (val : Dword)
  /-- EVC_WRITE, R323: a host write to an event counter. -/
  | evcWrite (vf : Nat) (ctr : Nat) (val : Dword)
  /-- NQTAIL_WRITE, R312: the host consumes notifications. -/
  | nqtailWrite (fn : Nat) (val : Dword)
  /-- REGISTER_WRITE, R310, R313: a write to another register. -/
  | registerWrite (fn : Nat) (offset : Nat) (val : Dword)
  /-- START, R337: a start begins. -/
  | start (warm : Bool)
  /-- DIE_ENTERS_SERVICE, R338: a die enters service. -/
  | dieEntersService (die : Nat)
  /-- STORE_PERFORMED, R186, R301, R303: a store is performed at its home. -/
  | storePerformed (id : Nat)
  /-- LAUNCH_END_RESUME, R322: a held end resumes. -/
  | launchEndResume (launch : Nat)
  /-- TRAINING_FAILED, R337: the training of a die fails. -/
  | trainingFailed (die : Nat)
  /-- FENCE_CLEARED, R337: the fence of a die is cleared. -/
  | fenceCleared (die : Nat)
  /-- PCIE_LINK_UP, R338: a host link comes up. -/
  | pcieLinkUp (link : Nat)
  /-- PRE_COPY_ROUND_END, R334: a pre-copy round ends. -/
  | preCopyRoundEnd (engine : Nat)
  /-- RELAY_REFUSAL, R335: the destination refused the stream. -/
  | relayRefusal (engine : Nat)
  /-- SRAM_UNCORRECTABLE_ERROR, R343: an uncorrectable soft error is consumed. -/
  | sramUncorrectableError (wg : Nat)
  deriving DecidableEq, Repr

end Sys2Proof
end

