-- ==== Sys2Proof/Machine/Number.lean ====
section
/-! DEFINITION. The number formats and rounding (R93 to R107): exact values, their decoding from the
formats, and the one rounding function with its status bits. -/

namespace Sys2Proof

namespace Machine

/-- An exact value: NaN, an infinity, or ± (num / den) × 2 ^ exp with its sign kept for zero. -/
inductive Num where
  | nan
  | inf (neg : Bool)
  | fin (neg : Bool) (num den : Nat) (exp : Int)
  deriving DecidableEq, Repr

/-- A floating-point format (R93): fraction bits, bias, largest finite pattern, the infinity pattern if
it has one, the canonical NaN if it has one (R95), the place of the sign, and the smallest NaN pattern. -/
structure Fmt where
  frac : Nat
  bias : Nat
  maxBits : Nat
  inf : Option Nat
  nan : Option Nat
  sign : Nat
  firstNan : Nat
  deriving DecidableEq, Repr

/-- The formats of R93. -/
def Fmt.f32 : Fmt := ⟨23, 127, 0x7F7FFFFF, some 0x7F800000, some 0x7FC00000, 31, 0x7F800001⟩
def Fmt.bf16 : Fmt := ⟨7, 127, 0x7F7F, some 0x7F80, some 0x7FC0, 15, 0x7F81⟩
def Fmt.f16 : Fmt := ⟨10, 15, 0x7BFF, some 0x7C00, some 0x7E00, 15, 0x7C01⟩
def Fmt.e4m3 : Fmt := ⟨3, 7, 0x7E, none, some 0x7F, 7, 0x7F⟩
def Fmt.e5m2 : Fmt := ⟨2, 15, 0x7B, some 0x7C, some 0x7E, 7, 0x7D⟩
def Fmt.e3m2 : Fmt := ⟨2, 3, 0x1F, none, none, 5, 0x20⟩
def Fmt.e2m1 : Fmt := ⟨1, 1, 0x7, none, none, 3, 0x8⟩

end Machine

/-- The floating-point format of a type, if it is one. -/
def Ty.fmt? : Ty → Option Machine.Fmt
  | .f32 => some .f32
  | .bf16 => some .bf16
  | .f16 => some .f16
  | .e4m3 => some .e4m3
  | .e5m2 => some .e5m2
  | .e3m2 => some .e3m2
  | .e2m1 => some .e2m1
  | .i8 | .i16 | .i32 | .i64 | .w8 | .w16 | .w32 | .w64 | .cb2 => none

/-- The bits of an element of a type (R62, R93, R102). -/
def Ty.bits : Ty → Nat
  | .i8 | .w8 | .e4m3 | .e5m2 => 8
  | .i16 | .w16 | .bf16 | .f16 | .cb2 => 16
  | .i32 | .w32 | .f32 => 32
  | .i64 | .w64 => 64
  | .e3m2 => 6
  | .e2m1 => 4

/-- Whether an integer type is signed (R97). -/
def Ty.signed : Ty → Bool
  | .i8 | .i16 | .i32 | .i64 => true
  | _ => false

namespace Machine

/-- The value of a pattern of a format (R93). -/
def Num.ofBits (f : Fmt) (w : Nat) : Num :=
  let w := w % 2 ^ (f.sign + 1)
  let neg := w / 2 ^ f.sign == 1
  let m := w % 2 ^ f.sign
  if f.firstNan ≤ m then .nan
  else if f.inf == some m then .inf neg
  else
    let e := m / 2 ^ f.frac
    let fr := m % 2 ^ f.frac
    if e = 0 then .fin neg fr 1 (1 - f.bias - f.frac)
    else .fin neg (2 ^ f.frac + fr) 1 (e - f.bias - f.frac)

/-- A signed integer as an exact value. -/
def Num.ofInt (i : Int) : Num := .fin (i < 0) i.natAbs 1 0

def Num.isNan : Num → Bool
  | .nan => true
  | _ => false

def Num.isInf : Num → Bool
  | .inf _ => true
  | _ => false

def Num.isZero : Num → Bool
  | .fin _ n _ _ => n == 0
  | _ => false

def Num.negative : Num → Bool
  | .nan => false
  | .inf n => n
  | .fin n _ _ _ => n

/-- The value with the other sign. -/
def Num.negate : Num → Num
  | .nan => .nan
  | .inf n => .inf (!n)
  | .fin n a b e => .fin (!n) a b e

/-- The exact product; an infinity times zero is NaN (R116). -/
def Num.mul : Num → Num → Num
  | .nan, _ => .nan
  | _, .nan => .nan
  | .inf s, .inf t => .inf (s != t)
  | .inf s, .fin t n _ _ => if n = 0 then .nan else .inf (s != t)
  | .fin s n _ _, .inf t => if n = 0 then .nan else .inf (s != t)
  | .fin s n d e, .fin t m d' e' => .fin (s != t) (n * m) (d * d') (e + e')

/-- The exact quotient of finite values, the divisor not zero; other cases are not asked for. -/
def Num.div : Num → Num → Num
  | .fin s n d e, .fin t m d' e' => .fin (s != t) (n * d') (d * m) (e - e')
  | _, _ => .nan

/-- The signed numerator over a denominator, scaled to an exponent not above its own. -/
def scaledInt (neg : Bool) (n : Nat) (e lo : Int) : Int :=
  let m : Int := (n * 2 ^ (e - lo).toNat : Nat)
  if neg then -m else m

/-- The exact sum of two finite values; `zneg` is the sign of a zero sum of unlike signs (R96). -/
def finAdd (zneg : Bool) (s : Bool) (n d : Nat) (e : Int) (t : Bool) (m d' : Nat) (e' : Int) : Num :=
  let lo := min e e'
  let x := scaledInt s (n * d') e lo + scaledInt t (m * d) e' lo
  if x = 0 then .fin (if s = t then s else zneg) 0 1 0
  else .fin (x < 0) x.natAbs (d * d') lo

/-- The exact sum (R116): NaN for a NaN or infinities of opposite sign. -/
def Num.add (zneg : Bool) : Num → Num → Num
  | .nan, _ => .nan
  | _, .nan => .nan
  | .inf s, .inf t => if s = t then .inf s else .nan
  | .inf s, .fin _ _ _ _ => .inf s
  | .fin _ _ _ _, .inf t => .inf t
  | .fin s n d e, .fin t m d' e' => finAdd zneg s n d e t m d' e'

/-- The exact sum of a list (R116, R117): zero is negative only when every term is -0, or, where signs
differ, when the mode rounds down (R96). -/
def Num.sum (zneg : Bool) (l : List Num) : Num :=
  match l with
  | [] => .fin false 0 1 0
  | x :: r =>
    match r.foldl (Num.add zneg) x with
    | .fin s n d e =>
      if n = 0 then
        if l.all Num.negative then .fin true 0 1 0
        else if l.all (fun y => !y.negative) then .fin false 0 1 0
        else .fin zneg 0 1 0
      else .fin s n d e
    | y => y

/-- Bits of the sticky status word (R108). -/
def flagNV : Nat := 1
def flagDZ : Nat := 2
def flagOF : Nat := 4
def flagUF : Nat := 8
def flagNX : Nat := 16
def flagOD : Nat := 32

/-- The number of binary digits of a number. -/
def bitLen (n : Nat) : Nat := if n = 0 then 0 else Nat.log2 n + 1

/-- The exponent of the leading bit of num / den, for num and den not zero. -/
def leadExp (n d : Nat) : Int :=
  let k : Int := (bitLen n : Int) - bitLen d
  let big := if 0 ≤ k then d * 2 ^ k.toNat ≤ n else d ≤ n * 2 ^ (-k).toNat
  if big then k else k - 1

/-- The quotient n × 2 ^ e / (d × 2 ^ q) as numerator and denominator. -/
def alignTo (n d : Nat) (e q : Int) : Nat × Nat :=
  if q ≤ e then (n * 2 ^ (e - q).toNat, d) else (n, d * 2 ^ (q - e).toNat)

/-- Whether the mode rounds a magnitude with remainder r / d and low bit `odd` up (R103, R107). -/
def roundsUp (mode : Rnd) (neg odd : Bool) (r d : Nat) (rand : Nat) : Bool :=
  if r = 0 then false
  else match mode with
    | .rne => d < 2 * r || (d == 2 * r && odd)
    | .rz => false
    | .ru => !neg
    | .rd => neg
    | .rs => 2 ^ 32 ≤ r * 2 ^ 32 / d + rand

/-- The pattern of an overflow (R104). -/
def overflowBits (f : Fmt) (mode : Rnd) (neg : Bool) : Nat :=
  match f.inf with
  | none => f.maxBits
  | some i =>
    match mode with
    | .rne | .rs => i
    | .rz => f.maxBits
    | .ru => if neg then f.maxBits else i
    | .rd => if neg then i else f.maxBits

/-- Round a positive value n / d × 2 ^ e to a magnitude of a format, with its status bits (R104, R105). -/
def roundMag (f : Fmt) (mode : Rnd) (rand : Nat) (neg : Bool) (n d : Nat) (e : Int) : Nat × Nat :=
  let qmin : Int := 1 - f.bias - f.frac
  let q := max (leadExp n d + e - f.frac) qmin
  let (a, b) := alignTo n d e q
  let m := a / b
  let r := a % b
  let m' := if roundsUp mode neg (m % 2 == 1) r b rand then m + 1 else m
  let base := (q - qmin).toNat * 2 ^ f.frac
  let exact := r == 0
  if f.maxBits < base + m' then (overflowBits f mode neg, flagOF ||| flagNX)
  else
    let tiny := base + m < 2 ^ f.frac
    let beyond := f.maxBits ≤ base + m && !exact &&
      (mode == .rz || mode == .ru || mode == .rd)
    (base + m',
      (if exact then 0 else flagNX) ||| (if tiny && !exact then flagUF else 0) |||
        (if beyond then flagOF else 0))

/-- The sign bit of a format. -/
def Fmt.signBit (f : Fmt) (neg : Bool) : Nat := if neg then 2 ^ f.sign else 0

/-- The canonical NaN of a format; +0 where it has none (R95). -/
def Fmt.canonNan (f : Fmt) : Nat := f.nan.getD 0

/-- The helper round(x, F, mode) of R104 with the status bits of R105. A NaN gives the canonical NaN;
its sign and NV are the caller's. -/
def roundNum (f : Fmt) (mode : Rnd) (rand : Nat) (x : Num) : Nat × Nat :=
  match x with
  | .nan => (f.canonNan, 0)
  | .inf neg =>
    match f.inf with
    | some i => (f.signBit neg + i, 0)
    | none => (f.signBit neg + f.maxBits, flagOF ||| flagNX)
  | .fin neg n d e =>
    if n = 0 then (f.signBit neg, 0)
    else
      let (m, fl) := roundMag f mode rand neg n d e
      (f.signBit neg + m, fl)

/-- Rounding to FP32 in RNE without status, as the engines round (R117, R118). -/
def rne32 (x : Num) : Nat := (roundNum .f32 .rne 0 x).1

/-- Round a finite value to an integer in a mode: the integer and whether it is exact (R104). -/
def roundInt (mode : Rnd) (rand : Nat) (neg : Bool) (n d : Nat) (e : Int) : Int × Bool :=
  let (a, b) := alignTo n d e 0
  let m := a / b
  let m' := if roundsUp mode neg (m % 2 == 1) (a % b) b rand then m + 1 else m
  ((if neg then -(m' : Int) else m'), a % b == 0)

/-- The range of an integer type of `w` bits. -/
def intMin (signed : Bool) (w : Nat) : Int := if signed then -(2 ^ (w - 1) : Nat) else 0
def intMax (signed : Bool) (w : Nat) : Int := if signed then (2 ^ (w - 1) : Nat) - 1 else (2 ^ w : Nat) - 1

/-- The low `w` bits of an integer, two's complement (R97). -/
def wrapInt (w : Nat) (i : Int) : Nat := (i % (2 ^ w : Nat)).toNat

/-- The integer in the low `w` bits, read as the sign says (R97). -/
def toInt (signed : Bool) (w n : Nat) : Int :=
  let n := n % 2 ^ w
  if signed && 2 ^ (w - 1) ≤ n then (n : Int) - (2 ^ w : Nat) else n

/-- Round to an integer type: round in the mode, then clamp (R104, R105). -/
def roundToInt (signed : Bool) (w : Nat) (mode : Rnd) (rand : Nat) (x : Num) : Nat × Nat :=
  match x with
  | .nan => (0, flagNV)
  | .inf neg => (wrapInt w (if neg then intMin signed w else intMax signed w), flagOF ||| flagNX)
  | .fin neg n d e =>
    let (i, exact) := roundInt mode rand neg n d e
    let c := max (intMin signed w) (min (intMax signed w) i)
    (wrapInt w c, (if exact && c == i then 0 else flagNX) ||| (if c == i then 0 else flagOF))

/-- FP32 values by pattern. -/
def f32 (w : Nat) : Num := .ofBits .f32 w

/-- The order of FP32 values that are not NaN, with -0 equal to +0 (R137). -/
def ord32 (w : Nat) : Int :=
  let m : Int := (w % 2 ^ 31 : Nat)
  if w / 2 ^ 31 % 2 = 1 then -m else m

/-- The same with -0 below +0 (R140). -/
def ordTotal32 (w : Nat) : Int :=
  let m : Int := (w % 2 ^ 31 : Nat)
  if w / 2 ^ 31 % 2 = 1 then -m - 1 else m

def isNan32 (w : Nat) : Bool := 0x7F800000 < w % 2 ^ 31

/-- FMIN and FMAX (R140). -/
def fmin32 (a b : Nat) : Nat :=
  if isNan32 a && isNan32 b then 0x7FC00000
  else if isNan32 a then b
  else if isNan32 b then a
  else if ordTotal32 a ≤ ordTotal32 b then a else b

def fmax32 (a b : Nat) : Nat :=
  if isNan32 a && isNan32 b then 0x7FC00000
  else if isNan32 a then b
  else if isNan32 b then a
  else if ordTotal32 b ≤ ordTotal32 a then a else b

/-- One step of the linear feedback shift register (R106). -/
def lfsrStep (s : Word) : Word :=
  if s.getLsbD 0 then (s >>> 1) ^^^ 0x80200003#32 else s >>> 1

/-- The seed of a thread's register (R106). -/
def lfsrSeed (seed tid wgid : Nat) : Word :=
  let s := BitVec.ofNat 32 seed ^^^ BitVec.ofNat 32 (0x9E3779B9 * (tid + 1)) ^^^
    BitVec.ofNat 32 (0x85EBCA6B * wgid)
  if s = 0#32 then 1#32 else s

/-- The eight weights of a CB2 code, exact, without their scale (R102); `m j` is magnitude j. -/
def cb2Signs (code : Nat) : List Bool :=
  let s := (List.range 7).map fun j => bit code (8 + j)
  s ++ [s.foldl (· != ·) false]

def cb2Weight (grid : Nat) (code j : Nat) : Num :=
  let m := bits grid (4 * j) 4
  .fin ((cb2Signs code).getD j false) (2 * m + bits code 15 1) 1 (-1)

/-- The check value of a sector (R341). -/
def crcStep (c : Nat) : Nat :=
  if 2 ^ 15 ≤ c then (c * 2 % 2 ^ 16) ^^^ 0x8BB7 else c * 2

def crcByte (c : Nat) (x : Byte) : Nat :=
  crcStep (crcStep (crcStep (crcStep (crcStep (crcStep (crcStep (crcStep (c ^^^ (x.toNat * 256)))))))))

def crc16 (l : List Byte) : Nat := l.foldl crcByte 0

end Machine

end Sys2Proof
end

