-- ==== Sys2Proof/Machine/Special.lean ====
section
/-! DEFINITION. The special functions (R119, R148). RCP, RSQ and SQRT are exact before their one rounding.
LOG2, SIN, COS and TANH are computed in fixed point far beyond FP32 and rounded once (DEDUCED, log entry
12). EXP2 is a free function within the bounds of R119 (log entry 8). -/

namespace Sys2Proof.Machine

/-- Fraction bits of the fixed point. -/
def fixBits : Nat := 320

/-- floor(π / 2 × 2 ^ 640). PRESUMED: the constant is mathematics, not the manual. -/
def halfPi640 : Nat := 0x1921fb54442d18469898cc51701b839a252049c1114cf98e804177d4c76273644a29410f31c6809bbdf2a33679a748636605614dbe4be286e9fc26adadaa3848bc90b6aecc4bcfd8de89885d34c6fdad6

/-- floor(ln 2 × 2 ^ 256). -/
def ln2Fix256 : Nat := 0xb17217f7d1cf79abc9e3b39803f2f6af40f343267298b62d8a0d175b8baafa2b

/-- The integer square root, by bits from the highest of `k`. -/
def isqrtFrom : Nat → Nat → Nat → Nat
  | 0, _, r => r
  | k + 1, n, r =>
    let r' := r + 2 ^ k
    if r' * r' ≤ n then isqrtFrom k n r' else isqrtFrom k n r

/-- floor(√n). -/
def isqrt (n : Nat) : Nat := isqrtFrom (bitLen n / 2 + 1) n 0

/-- A value known by its floor in units of 2 ^ e: exact, or strictly between two units. -/
def sticky (neg : Bool) (fl : Nat) (exact : Bool) (e : Int) : Num :=
  if exact then .fin neg fl 1 e else .fin neg (2 * fl + 1) 1 (e - 1)

/-- √(n × 2 ^ e). -/
def sqrtNum (n : Nat) (e : Int) : Num :=
  let odd := e % 2 = 1
  let n' := if odd then 2 * n else n
  let e' := if odd then e - 1 else e
  let big := n' * 2 ^ 80
  let r := isqrt big
  sticky false r (r * r == big) (e' / 2 - 40)

/-- 1 / √(n × 2 ^ e). -/
def rsqrtNum (n : Nat) (e : Int) : Num :=
  let odd := e % 2 = 1
  let n' := if odd then 2 * n else n
  let e' := if odd then e - 1 else e
  let big := 2 ^ 160
  let r := isqrt (big / n')
  sticky false r (r * r * n' == big) (-(e' / 2) - 80)

/-- The bits of log2 of x / 2 ^ fixBits, for a value in [1, 2), by repeated squaring. -/
def log2Bits : Nat → Nat → Nat → Nat
  | 0, _, acc => acc
  | k + 1, x, acc =>
    let y := x * x / 2 ^ fixBits
    if 2 ^ (fixBits + 1) ≤ y then log2Bits k (y / 2) (2 * acc + 1) else log2Bits k y (2 * acc)

/-- log2(n × 2 ^ e) for n not zero: exact at powers of two. -/
def log2Num (n : Nat) (e : Int) : Num :=
  let k := Nat.log2 n
  let whole : Int := e + k
  if n = 2 ^ k then .ofInt whole
  else
    let f := log2Bits 200 (n * 2 ^ (fixBits - k)) 0
    -- whole + (f + 1/2) × 2 ^ -200
    let num : Int := whole * (2 ^ 201 : Nat) + 2 * f + 1
    .fin (num < 0) num.natAbs 1 (-201)

/-- The power series Σ x^k / k! with terms taken `step` apart: the term, its index, the sums of the
terms added and of those subtracted. -/
def series (step : Nat) (alternate : Bool) (x : Nat) : Nat → Nat → Nat → Bool → Int → Int
  | 0, _, _, _, acc => acc
  | k + 1, term, i, neg, acc =>
    let acc' := if neg then acc - term else acc + term
    let t1 := term * x / 2 ^ fixBits / (i + 1)
    let t2 := if step = 2 then t1 * x / 2 ^ fixBits / (i + 2) else t1
    series step alternate x k t2 (i + step) (if alternate then !neg else neg) acc'

/-- exp of x / 2 ^ fixBits below 1, sin and cos of x / 2 ^ fixBits below 2. -/
def expFix (x : Nat) : Nat := (series 1 false x 70 (2 ^ fixBits) 0 false 0).toNat
def sinFix (x : Nat) : Nat := (series 2 true x 60 x 1 false 0).toNat
def cosFix (x : Nat) : Nat := (series 2 true x 60 (2 ^ fixBits) 0 false 0).toNat

/-- n × 2 ^ e reduced by π / 2: the quadrant and the rest in units of 2 ^ -fixBits. -/
def reducePi (n : Nat) (e : Int) : Nat × Nat :=
  let y := if 0 ≤ e + 640 then n * 2 ^ (e + 640).toNat else n / 2 ^ (-(e + 640)).toNat
  (y / halfPi640 % 4, y % halfPi640 / 2 ^ (640 - fixBits))

/-- A value just below ± n × 2 ^ e, where sin and tanh of a tiny argument lie. -/
def justBelow (neg : Bool) (n : Nat) (e : Int) : Num := .fin neg (n * 2 ^ 100 - 1) 1 (e - 100)

/-- sin and cos of ± n × 2 ^ e, n not zero. -/
def sinNum (neg : Bool) (n : Nat) (e : Int) : Num :=
  if leadExp n 1 + e < -60 then justBelow neg n e else
  let (q, r) := reducePi n e
  let v := if q % 2 = 0 then sinFix r else cosFix r
  sticky (neg != decide (2 ≤ q)) v false (-(fixBits : Int))

def cosNum (n : Nat) (e : Int) : Num :=
  let (q, r) := reducePi n e
  let v := if q % 2 = 0 then cosFix r else sinFix r
  sticky (q == 1 || q == 2) v false (-(fixBits : Int))

/-- Square a fixed-point number k times. -/
def squareTimes : Nat → Nat → Nat
  | 0, x => x
  | k + 1, x => squareTimes k (x * x / 2 ^ fixBits)

/-- tanh of ± n × 2 ^ e, n not zero: (E - 1) / (E + 1) with E = exp(2 |x|); beyond 16 it lies within
2 ^ -44 of 1. -/
def tanhNum (neg : Bool) (n : Nat) (e : Int) : Num :=
  if 4 ≤ leadExp n 1 + e then .fin neg (2 ^ 44 - 1) 1 (-44)
  else if leadExp n 1 + e < -60 then justBelow neg n e
  else
    let sh := e + 1 + fixBits - 8
    let y := if 0 ≤ sh then n * 2 ^ sh.toNat else n / 2 ^ (-sh).toNat
    let big := squareTimes 8 (expFix y)
    .fin neg (2 * (big - 2 ^ fixBits) + 1) (2 * (big + 2 ^ fixBits)) 0

/-- floor(2 ^ (23 + j)) for a fraction j = x / 2 ^ fixBits below 1. -/
def exp2Floor (x : Nat) : Nat :=
  min (2 ^ 24 - 1) (expFix (x * ln2Fix256 / 2 ^ 256) * 2 ^ 23 / 2 ^ fixBits)

/-- The FP32 pattern of 2 ^ k, for any integer k. -/
def pow2Bits (k : Int) : Nat := (roundMag .f32 .rz 0 false 1 1 k).1

/-- The largest candidate that the free threshold admits, else the lowest (R119). -/
def exp2Pick (x : Int) : List Nat → Nat → Nat
  | [], lo => lo
  | v :: r, lo => if Config.exp2Threshold (BitVec.ofNat 32 v) ≤ x then v else exp2Pick x r lo

/-- The candidates of a pattern's window, from the highest, between two bounds (R119): within 2 ulp of
the exact value, and between the exact powers of two that enclose it. -/
def exp2Window (b0 lo hi : Nat) : List Nat :=
  [b0 + 2, b0 + 1, b0, b0 - 1].filter fun v => lo ≤ v && v ≤ hi

/-- EXP2 of a finite value: the pattern and whether it is exact (R119, R148). -/
def exp2Fin (neg : Bool) (n : Nat) (e : Int) (x : Int) : Nat × Bool :=
  let (a, b) := alignTo n 1 e 0
  let exactInt := a % b == 0
  let fl : Int := if neg then (if exactInt then -(a / b : Nat) else -(a / b : Nat) - 1) else (a / b : Nat)
  if 128 ≤ fl then (0x7F800000, false)
  else if exactInt && -149 ≤ fl then (pow2Bits fl, true)
  else if fl < -150 then (0, false)
  else
    -- the fraction in units of 2 ^ -fixBits
    let fr := a % b * 2 ^ fixBits / b
    let fr' := if neg && !exactInt then 2 ^ fixBits - 1 - fr else fr
    let m := exp2Floor fr'
    let b0 := if -126 ≤ fl then (fl + 126).toNat * 2 ^ 23 + m else m / 2 ^ (-126 - fl).toNat
    let lo := if fl < -149 then 0 else pow2Bits fl
    let hi := if 127 ≤ fl then 0x7F800000 else if fl < -150 then 0 else pow2Bits (fl + 1)
    let w := exp2Window b0 lo hi
    (exp2Pick x w (w.getLastD b0), false)

/-- The EXP2 function of R119 on FP32 patterns, with the status of R148. -/
def exp2Word (a : Nat) : Nat × Nat :=
  match f32 a with
  | .nan => (0x7FC00000, 0)
  | .inf neg => (if neg then 0 else 0x7F800000, 0)
  | .fin neg n _ e =>
    if n = 0 then (0x3F800000, 0)
    else
      let (v, exact) := exp2Fin neg n e (ord32 a)
      (v, if exact then 0
        else flagNX ||| (if v = 0x7F800000 then flagOF else 0) |||
          (if v < 0x00800000 then flagUF else 0))

/-- LOG2 (R148). -/
def log2Word (a : Nat) : Nat × Nat :=
  match f32 a with
  | .nan => (0x7FC00000, 0)
  | .inf neg => if neg then (0x7FC00000, flagNV) else (0x7F800000, 0)
  | .fin neg n _ e =>
    if n = 0 then (0xFF800000, flagDZ)
    else if neg then (0x7FC00000, flagNV)
    else
      let (v, fl) := roundNum .f32 .rne 0 (log2Num n e)
      (v, fl &&& flagNX)

/-- RCP (R148). -/
def rcpWord (a : Nat) : Nat × Nat :=
  match f32 a with
  | .nan => (0x7FC00000, 0)
  | .inf neg => (if neg then 0x80000000 else 0, 0)
  | .fin neg n _ e =>
    if n = 0 then (if neg then 0xFF800000 else 0x7F800000, flagDZ)
    else roundNum .f32 .rne 0 (.fin neg 1 n (-e))

/-- RSQ (R148). -/
def rsqWord (a : Nat) : Nat × Nat :=
  match f32 a with
  | .nan => (0x7FC00000, 0)
  | .inf neg => if neg then (0x7FC00000, flagNV) else (0, 0)
  | .fin neg n _ e =>
    if n = 0 then (if neg then 0xFF800000 else 0x7F800000, 0)
    else if neg then (0x7FC00000, flagNV)
    else
      let (v, fl) := roundNum .f32 .rne 0 (rsqrtNum n e)
      (v, fl &&& flagNX)

/-- SQRT (R148). -/
def sqrtWord (a : Nat) : Nat × Nat :=
  match f32 a with
  | .nan => (0x7FC00000, 0)
  | .inf neg => if neg then (0x7FC00000, flagNV) else (0x7F800000, 0)
  | .fin neg n _ e =>
    if n = 0 then (a, 0)
    else if neg then (0x7FC00000, flagNV)
    else
      let (v, fl) := roundNum .f32 .rne 0 (sqrtNum n e)
      (v, fl &&& flagNX)

/-- SIN (R148). -/
def sinWord (a : Nat) : Nat × Nat :=
  match f32 a with
  | .nan => (0x7FC00000, 0)
  | .inf _ => (0x7FC00000, flagNV)
  | .fin neg n _ e =>
    if n = 0 then (a, 0)
    else
      let (v, fl) := roundNum .f32 .rne 0 (sinNum neg n e)
      (v, fl &&& (flagNX ||| flagUF))

/-- COS (R148). -/
def cosWord (a : Nat) : Nat × Nat :=
  match f32 a with
  | .nan => (0x7FC00000, 0)
  | .inf _ => (0x7FC00000, flagNV)
  | .fin _ n _ e =>
    if n = 0 then (0x3F800000, 0)
    else
      let (v, fl) := roundNum .f32 .rne 0 (cosNum n e)
      (v, fl &&& flagNX)

/-- TANH (R148). -/
def tanhWord (a : Nat) : Nat × Nat :=
  match f32 a with
  | .nan => (0x7FC00000, 0)
  | .inf neg => (if neg then 0xBF800000 else 0x3F800000, 0)
  | .fin neg n _ e =>
    if n = 0 then (a, 0)
    else
      let (v, fl) := roundNum .f32 .rne 0 (tanhNum neg n e)
      (v, (fl ||| flagNX) &&& (flagNX ||| flagUF))

end Sys2Proof.Machine
end

