-- ==== Sys2Proof/WellFormed.lean ====
section
/-! DEFINITION. Which terms of the syntax an instruction word can carry: the types, conditions, orders,
modifiers and operand codes that each entry admits (R61, R122, R179, and the entries of the opcodes). -/

namespace Sys2Proof

/-- The integer types of 32 and 64 bits (R125). -/
def Ty.isIW32or64 : Ty → Bool
  | .i32 | .i64 | .w32 | .w64 => true
  | _ => false

/-- .W32 and .W64. -/
def Ty.isW : Ty → Bool
  | .w32 | .w64 => true
  | _ => false

/-- .I32 and .I64. -/
def Ty.isI : Ty → Bool
  | .i32 | .i64 => true
  | _ => false

/-- .I8 and .W8 (R127). -/
def Ty.isByteInt : Ty → Bool
  | .i8 | .w8 => true
  | _ => false

/-- The types of ISAT (R129). -/
def Ty.isNarrowInt : Ty → Bool
  | .i8 | .i16 | .w8 | .w16 => true
  | _ => false

/-- .F16 and .BF16 (R142, R143). -/
def Ty.isHalf : Ty → Bool
  | .f16 | .bf16 => true
  | _ => false

/-- .E4M3 and .E5M2 (R143). -/
def Ty.isFp8 : Ty → Bool
  | .e4m3 | .e5m2 => true
  | _ => false

/-- The destinations of CVTX (R145). -/
def Ty.isCvtxDest : Ty → Bool
  | .bf16 | .f16 | .e4m3 | .e5m2 | .e3m2 | .e2m1 => true
  | _ => false

/-- The element types of PACK and UNPACK (R146). -/
def Ty.isPackable : Ty → Bool
  | .i8 | .w8 | .e4m3 | .e5m2 | .i16 | .w16 | .bf16 | .f16 | .cb2 | .e2m1 | .e3m2 => true
  | _ => false

/-- The types of plain loads and stores (R178, R179). -/
def Ty.isMem : Ty → Bool
  | .e3m2 | .e2m1 | .cb2 => false
  | _ => true

/-- The types of LDA and STA (R179). -/
def Ty.isSync : Ty → Bool
  | .i32 | .w32 | .i64 | .w64 | .f32 => true
  | _ => false

/-- Whether a reduction agrees with a type (R152). -/
def RedOp.admits (op : RedOp) (ty : Ty) : Bool :=
  match op with
  | .fadd | .fmin | .fmax => ty == .f32
  | .add | .min | .max | .and | .or | .xor => ty.isIW32or64

/-- Whether an order includes a release part. -/
def Order.hasRel : Order → Bool
  | .rel | .acqrel => true
  | .plain | .acq => false

/-- Whether an order includes an acquire part. -/
def Order.hasAcq : Order → Bool
  | .acq | .acqrel => true
  | .plain | .rel => false

/-- The special registers that MOVSW writes (R170). -/
def SReg.writable : SReg → Bool
  | .aset | .status | .lfsr => true
  | _ => false

/-- An operand code above 463 is one of 464 to 511. -/
def Opnd.wf : Opnd → Bool
  | .bad k => k.toNat < 48
  | _ => true

def PmovForm.wf : PmovForm → Bool
  | .get d => d.wf
  | .put a => a.wf

def YieldForm.wf : YieldForm → Bool
  | .phase a b => a.wf && b.wf
  | .token _ => true
  | .wptr a b => a.wf && b.wf

def Completion.wf : Completion → Bool
  | .tok _ => true
  | .bar c => c.wf

/-- The terms that a word can carry. The steps that the machine takes by itself have no words, so
nothing is asked of their arguments. -/
def Instr.wf : Instr → Bool
  | .iadd _ ty d a b => ty.isIW32or64 && d.wf && a.wf && b.wf
  | .iaddI _ d a _ => d.wf && a.wf
  | .isub _ ty d a b => ty.isIW32or64 && d.wf && a.wf && b.wf
  | .isubI _ d a _ => d.wf && a.wf
  | .iaddc _ ty d a b c => ty.isW && d.wf && a.wf && b.wf && c.wf
  | .imul _ ty d a b => ty.isIW32or64 && d.wf && a.wf && b.wf
  | .imulI _ d a _ => d.wf && a.wf
  | .imulh _ ty d a b => ty.isIW32or64 && d.wf && a.wf && b.wf
  | .imad _ ty d a b c => ty.isIW32or64 && d.wf && a.wf && b.wf && c.wf
  | .idot4 _ ty d a b c => ty.isByteInt && d.wf && a.wf && b.wf && c.wf
  | .idiv _ ty d a b => ty.isIW32or64 && d.wf && a.wf && b.wf
  | .irem _ ty d a b => ty.isIW32or64 && d.wf && a.wf && b.wf
  | .imin _ ty d a b => ty.isIW32or64 && d.wf && a.wf && b.wf
  | .iminI _ d a _ => d.wf && a.wf
  | .imax _ ty d a b => ty.isIW32or64 && d.wf && a.wf && b.wf
  | .imaxI _ d a _ => d.wf && a.wf
  | .iabs _ ty d a => ty.isI && d.wf && a.wf
  | .ineg _ ty d a => ty.isI && d.wf && a.wf
  | .isat _ ty d a => ty.isNarrowInt && d.wf && a.wf
  | .shl _ ty d a b => ty.isW && d.wf && a.wf && b.wf
  | .shlI _ d a _ => d.wf && a.wf
  | .shr _ ty d a b => ty.isW && d.wf && a.wf && b.wf
  | .shrI _ d a _ => d.wf && a.wf
  | .sar _ ty d a b => ty.isI && d.wf && a.wf && b.wf
  | .sarI _ d a _ => d.wf && a.wf
  | .rol _ ty d a b => ty.isW && d.wf && a.wf && b.wf
  | .rolI _ d a _ => d.wf && a.wf
  | .ror _ ty d a b => ty.isW && d.wf && a.wf && b.wf
  | .rorI _ d a _ => d.wf && a.wf
  | .andG _ ty d a b => ty.isW && d.wf && a.wf && b.wf
  | .andI _ d a _ => d.wf && a.wf
  | .orG _ ty d a b => ty.isW && d.wf && a.wf && b.wf
  | .orI _ d a _ => d.wf && a.wf
  | .xorG _ ty d a b => ty.isW && d.wf && a.wf && b.wf
  | .xorI _ d a _ => d.wf && a.wf
  | .andnG _ ty d a b => ty.isW && d.wf && a.wf && b.wf
  | .andnI _ d a _ => d.wf && a.wf
  | .notG _ ty d a => ty.isW && d.wf && a.wf
  | .popc _ ty d a => ty.isW && d.wf && a.wf
  | .clz _ ty d a => ty.isW && d.wf && a.wf
  | .ctz _ ty d a => ty.isW && d.wf && a.wf
  | .brev _ ty d a => ty.isW && d.wf && a.wf
  | .bfx _ ty d a b c => ty.isIW32or64 && d.wf && a.wf && b.wf && c.wf
  | .bfi _ ty d a b c => ty.isW && d.wf && a.wf && b.wf && c.wf
  | .lea _ d a b c => d.wf && a.wf && b.wf && c.wf
  | .mov _ ty d a => ty.isW && d.wf && a.wf
  | .movi _ d _ => d.wf
  | .movh _ d _ => d.wf
  | .sel _ ty d a b c => ty.isW && d.wf && a.wf && b.wf && c.wf
  | .icmp _ ty cond _ a b => (ty.isIW32or64 && cond != .un) && a.wf && b.wf
  | .icmpI _ cond _ a _ => cond != .un && a.wf
  | .pset _ _ d a b => d.wf && a.wf && b.wf
  | .pmov _ x => x.wf
  | .fadd _ _ d a b => d.wf && a.wf && b.wf
  | .fsub _ _ d a b => d.wf && a.wf && b.wf
  | .fmul _ _ d a b => d.wf && a.wf && b.wf
  | .ffma _ _ d a b c => d.wf && a.wf && b.wf && c.wf
  | .fmin _ d a b => d.wf && a.wf && b.wf
  | .fmax _ d a b => d.wf && a.wf && b.wf
  | .fcmp _ _ _ a b => a.wf && b.wf
  | .fclass _ d a => d.wf && a.wf
  | .frnd _ _ d a => d.wf && a.wf
  | .fscale _ _ d a b => d.wf && a.wf && b.wf
  | .hadd2 _ ty _ d a b => ty.isHalf && d.wf && a.wf && b.wf
  | .hmul2 _ ty _ d a b => ty.isHalf && d.wf && a.wf && b.wf
  | .hfma2 _ ty _ d a b c => ty.isHalf && d.wf && a.wf && b.wf && c.wf
  | .fdot2 _ ty _ d a b c => ty.isHalf && d.wf && a.wf && b.wf && c.wf
  | .fdot4 _ ty _ d a b c => ty.isFp8 && d.wf && a.wf && b.wf && c.wf
  | .cvt _ dt sty _ d a => (dt != .cb2 && sty != .cb2) && d.wf && a.wf
  | .cvtx _ dt _ d a b => dt.isCvtxDest && d.wf && a.wf && b.wf
  | .pack _ ty d a b => ty.isPackable && d.wf && a.wf && b.wf
  | .unpack _ ty d a b => ty.isPackable && d.wf && a.wf && b.wf
  | .cbdec _ d a b => d.wf && a.wf && b.wf
  | .exp2 _ d a => d.wf && a.wf
  | .log2 _ d a => d.wf && a.wf
  | .rcp _ d a => d.wf && a.wf
  | .rsq _ d a => d.wf && a.wf
  | .sqrt _ d a => d.wf && a.wf
  | .sin _ d a => d.wf && a.wf
  | .cos _ d a => d.wf && a.wf
  | .tanh _ d a => d.wf && a.wf
  | .shfl _ _ d a b => d.wf && a.wf && b.wf
  | .vote _ _ d a => d.wf && a.wf
  | .redx _ ty op d a => op.admits ty && d.wf && a.wf
  | .scanx _ ty op _ d a => op.admits ty && d.wf && a.wf
  | .bcst _ ty d a b => ty.isW && d.wf && a.wf && b.wf
  | .bra _ ofs => ofs.toNat % 8 == 0
  | .brx _ a ofs => ofs.toNat % 8 == 0 && a.wf
  | .call _ ofs => ofs.toNat % 8 == 0
  | .callx _ a ofs => ofs.toNat % 8 == 0 && a.wf
  | .ret _ => true
  | .exit _ => true
  | .yield _ x => x.wf
  | .trap _ _ => true
  | .tret _ => true
  | .brk _ _ => true
  | .nop _ => true
  | .ld _ ty _ d a b => ty.isMem && d.wf && a.wf && b.wf
  | .st _ ty d a b => ty.isMem && d.wf && a.wf && b.wf
  | .ldl _ ty _ d a b => ty.isMem && d.wf && a.wf && b.wf
  | .stl _ ty d a b => ty.isMem && d.wf && a.wf && b.wf
  | .ldp _ ty _ d a b => ty.isMem && d.wf && a.wf && b.wf
  | .lda _ ty _ ord _ _ d a b => (ty.isSync && !ord.hasRel) && d.wf && a.wf && b.wf
  | .sta _ ty _ ord _ d a b => (ty.isSync && !ord.hasAcq) && d.wf && a.wf && b.wf
  | .pref _ a b => a.wf && b.wf
  | .atomAdd _ ty _ _ _ _ d a b => ty.isIW32or64 && d.wf && a.wf && b.wf
  | .atomMin _ ty _ _ _ _ d a b => ty.isIW32or64 && d.wf && a.wf && b.wf
  | .atomMax _ ty _ _ _ _ d a b => ty.isIW32or64 && d.wf && a.wf && b.wf
  | .atomAnd _ ty _ _ _ _ d a b => ty.isIW32or64 && d.wf && a.wf && b.wf
  | .atomOr _ ty _ _ _ _ d a b => ty.isIW32or64 && d.wf && a.wf && b.wf
  | .atomXor _ ty _ _ _ _ d a b => ty.isIW32or64 && d.wf && a.wf && b.wf
  | .atomExch _ ty _ _ _ _ d a b => ty.isIW32or64 && d.wf && a.wf && b.wf
  | .atomFadd _ _ _ _ _ d a b => d.wf && a.wf && b.wf
  | .cas _ ty _ _ _ _ d a b c => ty.isW && d.wf && a.wf && b.wf && c.wf
  | .casw _ _ _ _ _ d a b c => d.wf && a.wf && b.wf && c.wf
  | .fence _ _ ord => ord != .plain
  | .twait _ mask => mask != 0#8
  | .tcnt _ _ d => d.wf
  | .binit _ a => a.wf
  | .bexp _ a b c => a.wf && b.wf && c.wf
  | .barv _ a => a.wf
  | .btest _ d a => d.wf && a.wf
  | .bfree _ a => a.wf
  | .ainit _ a b => a.wf && b.wf
  | .apost _ _ d a b => d.wf && a.wf && b.wf
  | .astep _ d a => d.wf && a.wf
  | .ares _ d => d.wf
  | .movs _ d _ => d.wf
  | .movsw _ sr a => sr.writable && a.wf
  | .pkset _ a b => a.wf && b.wf
  | .cancel _ _ _ a => a.wf
  | .enql _ a b => a.wf && b.wf
  | .evsig _ a b => a.wf && b.wf
  | .ctrd _ d a => d.wf && a.wf
  | .mma _ _ _ _ a => a.wf
  | .mma16 _ _ _ _ a => a.wf
  | .mopf _ => true
  | .mzero _ _ a => a.wf
  | .att _ exp abs _ _ a => (!(exp && abs)) && a.wf
  | .attfin _ _ d a => d.wf && a.wf
  | .latw _ _ a => a.wf
  | .kvlook _ _ d a => d.wf && a.wf
  | .kvapp _ cmp a => cmp.wf && a.wf
  | .kvfork _ cmp a => cmp.wf && a.wf
  | .kvcommit _ cmp a => cmp.wf && a.wf
  | .topk _ cmp a => cmp.wf && a.wf
  | .cpy _ cmp a => cmp.wf && a.wf
  | .cpyt _ _ cmp a => cmp.wf && a.wf
  | .cpyc _ cmp a => cmp.wf && a.wf
  | .cpyg _ cmp a => cmp.wf && a.wf
  | .cpys _ cmp a => cmp.wf && a.wf
  | .chwp _ d a => d.wf && a.wf
  | .rngsnd _ _ _ a => a.wf
  | .rngrcv _ _ cmp a => cmp.wf && a.wf
  | .strideIssue _ _ => true
  | .tenureEnd _ _ => true
  | .joinHoldExpiry _ _ => true
  | .wake _ _ _ => true
  | .pendingDemotion _ _ _ => true
  | .rigPromote _ _ => true
  | .forcedDemotion _ _ => true
  | .loadLands _ => true
  | .releaseWaitEnd _ _ => true
  | .faultSwap _ => true
  | .workgroupRestore _ => true
  | .workgroupPlace _ _ => true
  | .workgroupComplete _ => true
  | .preempt _ => true
  | .commandAccept _ => true
  | .commandComplete _ _ => true
  | .copyChunkDeliver _ _ => true
  | .ringBlockArrive _ => true
  | .ringCreditReturn _ => true
  | .readMissGrant _ _ _ => true
  | .invalidation _ => true
  | .translationInvalidation _ => true
  | .sharerAckTimeout _ => true
  | .sliceNoResponse _ _ => true
  | .sliceTakeover _ _ => true
  | .takeoverLeaseEnd _ _ => true
  | .migrationRequest _ => true
  | .migrationHoldExpiry _ _ => true
  | .linkReservationExpiry _ => true
  | .refusalEntryExpiry _ _ => true
  | .linkDeclaredDead _ => true
  | .launchRecordTaken _ _ => true
  | .admissionResume _ => true
  | .snapshot _ => true
  | .launchEnd _ => true
  | .sliceEnd _ => true
  | .drainBudgetExpiry _ _ => true
  | .drainEnd _ _ => true
  | .rollback _ => true
  | .uncorrectableError _ => true
  | .ageingMeasure _ _ => true
  | .dieDead _ => true
  | .blulysDeclareDead _ => true
  | .kill _ _ _ => true
  | .hostMemoryWrite _ _ => true
  | .hostMemoryRead _ _ => true
  | .fabricReceive _ _ _ => true
  | .relayStart _ => true
  | .relayAbort _ => true
  | .relayDrainEnd _ => true
  | .relayStreamReceived _ => true
  | .relayAck _ => true
  | .hostSoftCancel _ _ _ => true
  | .hostHardCancel _ _ _ => true
  | .migreqRequest _ _ => true
  | .migreqMoveDone _ _ => true
  | .migrspRead _ => true
  | .ctxtWrite _ _ _ _ => true
  | .evcWrite _ _ _ => true
  | .nqtailWrite _ _ => true
  | .registerWrite _ _ _ => true
  | .start _ => true
  | .dieEntersService _ => true
  | .storePerformed _ => true
  | .launchEndResume _ => true
  | .trainingFailed _ => true
  | .fenceCleared _ => true
  | .pcieLinkUp _ => true
  | .preCopyRoundEnd _ => true
  | .relayRefusal _ => true
  | .sramUncorrectableError _ => true

end Sys2Proof
end

