-- ==== Sys2Proof/Decode.lean ====
section
/-! DEFINITION. The instruction words of Taled (R55 to R69): a decoder that is total on 64-bit words and
rejects by name, and after it an encoder written from the same tables. -/

namespace Sys2Proof

/-- Why a word is no instruction: its opcode is unassigned, its opcode is a magic (R69), or a reserved
field is not zero or a modifier is not admitted (R61). -/
inductive Reject where
  | unassigned
  | magic
  | reserved
  deriving DecidableEq, Repr

/-- The result of decoding a word. -/
inductive Decoded where
  | ok (i : Instr)
  | reject (r : Reject)
  deriving DecidableEq, Repr

/-- The fields of formats G, I and B (R56, R57, R59), each as the number it holds. -/
structure Fields where
  opc : Nat
  guard : Nat
  d : Nat
  a : Nat
  b : Nat
  c : Nat
  mod : Nat
  imm : Nat
  deriving DecidableEq, Repr

/-- Bits [lo + n - 1 : lo] of a number. -/
def bitsAt (w lo n : Nat) : Nat := w / 2 ^ lo % 2 ^ n

/-- The fields of a word. -/
def fieldsOf (w : Nat) : Fields :=
  ⟨w / 2 ^ 54, bitsAt w 50 4, bitsAt w 41 9, bitsAt w 32 9, bitsAt w 23 9, bitsAt w 14 9,
    w % 2 ^ 14, w % 2 ^ 32⟩

/-- The guard in bits [53:50] (R55). -/
def Guard.ofCode (n : Nat) : Guard := ⟨BitVec.ofNat 3 (n / 2), n % 2 == 1⟩

/-- The operand that a 9-bit code names (R63). -/
def Opnd.ofCode (n : Nat) : Opnd :=
  if n < 256 then .g (BitVec.ofNat 8 n)
  else if n < 384 then .a (BitVec.ofNat 7 (n - 256))
  else if n < 392 then .t (BitVec.ofNat 3 (n - 384))
  else if n < 400 then .p (BitVec.ofNat 3 (n - 392))
  else if n < 464 then .c (BitVec.ofNat 6 (n - 400))
  else .bad (BitVec.ofNat 6 (n - 464))

/-- The value of `Ty` that a code names, if it names one. -/
def Ty.ofCode? : Nat → Option Ty
  | 0 => some .i8
  | 1 => some .i16
  | 2 => some .i32
  | 3 => some .i64
  | 4 => some .w8
  | 5 => some .w16
  | 6 => some .w32
  | 7 => some .w64
  | 8 => some .f32
  | 9 => some .bf16
  | 10 => some .f16
  | 11 => some .e4m3
  | 12 => some .e5m2
  | 13 => some .e3m2
  | 14 => some .e2m1
  | 15 => some .cb2
  | _ => none

/-- The value of `Rnd` that a code names, if it names one. -/
def Rnd.ofCode? : Nat → Option Rnd
  | 0 => some .rne
  | 1 => some .rz
  | 2 => some .ru
  | 3 => some .rd
  | 4 => some .rs
  | _ => none

/-- The value of `Cond` that a code names, if it names one. -/
def Cond.ofCode? : Nat → Option Cond
  | 0 => some .eq
  | 1 => some .ne
  | 2 => some .lt
  | 3 => some .le
  | 4 => some .gt
  | 5 => some .ge
  | 6 => some .un
  | _ => none

/-- The value of `PredOp` that a code names, if it names one. -/
def PredOp.ofCode? : Nat → Option PredOp
  | 0 => some .and
  | 1 => some .or
  | 2 => some .xor
  | _ => none

/-- The value of `ShflMode` that a code names, if it names one. -/
def ShflMode.ofCode? : Nat → Option ShflMode
  | 0 => some .idx
  | 1 => some .up
  | 2 => some .down
  | 3 => some .xor
  | _ => none

/-- The value of `VoteMode` that a code names, if it names one. -/
def VoteMode.ofCode? : Nat → Option VoteMode
  | 0 => some .all
  | 1 => some .any
  | 2 => some .bal
  | _ => none

/-- The value of `RedOp` that a code names, if it names one. -/
def RedOp.ofCode? : Nat → Option RedOp
  | 0 => some .add
  | 1 => some .min
  | 2 => some .max
  | 3 => some .and
  | 4 => some .or
  | 5 => some .xor
  | 6 => some .fadd
  | 7 => some .fmin
  | 8 => some .fmax
  | _ => none

/-- The value of `Scope` that a code names, if it names one. -/
def Scope.ofCode? : Nat → Option Scope
  | 0 => some .wg
  | 1 => some .die
  | 2 => some .dev
  | 3 => some .dom
  | 4 => some .sys
  | _ => none

/-- The value of `Order` that a code names, if it names one. -/
def Order.ofCode? : Nat → Option Order
  | 0 => some .plain
  | 1 => some .acq
  | 2 => some .rel
  | 3 => some .acqrel
  | _ => none

/-- The value of `Space` that a code names, if it names one. -/
def Space.ofCode? : Nat → Option Space
  | 0 => some .global
  | 1 => some .loft
  | _ => none

/-- The value of `PostOp` that a code names, if it names one. -/
def PostOp.ofCode? : Nat → Option PostOp
  | 0 => some .add
  | 1 => some .min
  | 2 => some .max
  | 3 => some .and
  | 4 => some .or
  | 5 => some .xor
  | 6 => some .exch
  | _ => none

/-- The value of `SReg` that a code names, if it names one. -/
def SReg.ofCode? : Nat → Option SReg
  | 0 => some .lane
  | 1 => some .team
  | 2 => some .rig
  | 3 => some .tid
  | 4 => some .wgid
  | 5 => some .nwg
  | 6 => some .launch
  | 7 => some .graph
  | 8 => some .phase
  | 9 => some .job
  | 10 => some .time
  | 11 => some .readfloor
  | 12 => some .rowprog
  | 13 => some .pkperm
  | 14 => some .cstk
  | 15 => some .cspill
  | 16 => some .aset
  | 17 => some .vf
  | 18 => some .core
  | 19 => some .die
  | 20 => some .bay
  | 21 => some .status
  | 22 => some .lfsr
  | 23 => some .tframe
  | _ => none

/-- The value of `Level` that a code names, if it names one. -/
def Level.ofCode? : Nat → Option Level
  | 0 => some .launch
  | 1 => some .graph
  | 2 => some .phase
  | 3 => some .job
  | _ => none

/-- The value of `Sel3` that a code names, if it names one. -/
def Sel3.ofCode? : Nat → Option Sel3
  | 0 => some .s0
  | 1 => some .s1
  | 2 => some .s2
  | _ => none

/-- The two forms of PMOV, by MOD [0] (R138). -/
def PmovForm.ofFields (f : Fields) : PmovForm :=
  if f.mod % 2 = 0 then .get (.ofCode f.d) else .put (.ofCode f.a)

/-- The three forms of YIELD, by MOD [1:0] (R163). -/
def YieldForm.ofFields? (f : Fields) : Option YieldForm :=
  match f.mod % 4 with
  | 0 => some (.phase (.ofCode f.a) (.ofCode f.b))
  | 1 => some (.token (BitVec.ofNat 3 (f.mod / 4)))
  | 2 => some (.wptr (.ofCode f.a) (.ofCode f.b))
  | _ => none

/-- The completion of an engine command, by CK (R60). -/
def Completion.ofFields (f : Fields) : Completion :=
  if f.mod / 2 ^ 13 = 0 then .tok (BitVec.ofNat 3 (f.mod / 2 ^ 10)) else .bar (.ofCode f.c)

/-- Opcodes 0x000 to 0x0FF. -/
def buildInteger (f : Fields) : Option Instr :=
  match f.opc with
  | 0x000 => (Ty.ofCode? (f.mod / 1024 % 16)).bind fun ty => some (.iadd (.ofCode f.guard) ty (.ofCode f.d) (.ofCode f.a) (.ofCode f.b))
  | 0x001 => some (.iaddI (.ofCode f.guard) (.ofCode f.d) (.ofCode f.a) (BitVec.ofNat 32 f.imm))
  | 0x002 => (Ty.ofCode? (f.mod / 1024 % 16)).bind fun ty => some (.isub (.ofCode f.guard) ty (.ofCode f.d) (.ofCode f.a) (.ofCode f.b))
  | 0x003 => some (.isubI (.ofCode f.guard) (.ofCode f.d) (.ofCode f.a) (BitVec.ofNat 32 f.imm))
  | 0x004 => (Ty.ofCode? (f.mod / 1024 % 16)).bind fun ty => some (.iaddc (.ofCode f.guard) ty (.ofCode f.d) (.ofCode f.a) (.ofCode f.b) (.ofCode f.c))
  | 0x006 => (Ty.ofCode? (f.mod / 1024 % 16)).bind fun ty => some (.imul (.ofCode f.guard) ty (.ofCode f.d) (.ofCode f.a) (.ofCode f.b))
  | 0x007 => some (.imulI (.ofCode f.guard) (.ofCode f.d) (.ofCode f.a) (BitVec.ofNat 32 f.imm))
  | 0x008 => (Ty.ofCode? (f.mod / 1024 % 16)).bind fun ty => some (.imulh (.ofCode f.guard) ty (.ofCode f.d) (.ofCode f.a) (.ofCode f.b))
  | 0x00A => (Ty.ofCode? (f.mod / 1024 % 16)).bind fun ty => some (.imad (.ofCode f.guard) ty (.ofCode f.d) (.ofCode f.a) (.ofCode f.b) (.ofCode f.c))
  | 0x00C => (Ty.ofCode? (f.mod / 1024 % 16)).bind fun ty => some (.idot4 (.ofCode f.guard) ty (.ofCode f.d) (.ofCode f.a) (.ofCode f.b) (.ofCode f.c))
  | 0x00E => (Ty.ofCode? (f.mod / 1024 % 16)).bind fun ty => some (.idiv (.ofCode f.guard) ty (.ofCode f.d) (.ofCode f.a) (.ofCode f.b))
  | 0x010 => (Ty.ofCode? (f.mod / 1024 % 16)).bind fun ty => some (.irem (.ofCode f.guard) ty (.ofCode f.d) (.ofCode f.a) (.ofCode f.b))
  | 0x012 => (Ty.ofCode? (f.mod / 1024 % 16)).bind fun ty => some (.imin (.ofCode f.guard) ty (.ofCode f.d) (.ofCode f.a) (.ofCode f.b))
  | 0x013 => some (.iminI (.ofCode f.guard) (.ofCode f.d) (.ofCode f.a) (BitVec.ofNat 32 f.imm))
  | 0x014 => (Ty.ofCode? (f.mod / 1024 % 16)).bind fun ty => some (.imax (.ofCode f.guard) ty (.ofCode f.d) (.ofCode f.a) (.ofCode f.b))
  | 0x015 => some (.imaxI (.ofCode f.guard) (.ofCode f.d) (.ofCode f.a) (BitVec.ofNat 32 f.imm))
  | 0x016 => (Ty.ofCode? (f.mod / 1024 % 16)).bind fun ty => some (.iabs (.ofCode f.guard) ty (.ofCode f.d) (.ofCode f.a))
  | 0x018 => (Ty.ofCode? (f.mod / 1024 % 16)).bind fun ty => some (.ineg (.ofCode f.guard) ty (.ofCode f.d) (.ofCode f.a))
  | 0x01A => (Ty.ofCode? (f.mod / 1024 % 16)).bind fun ty => some (.isat (.ofCode f.guard) ty (.ofCode f.d) (.ofCode f.a))
  | 0x020 => (Ty.ofCode? (f.mod / 1024 % 16)).bind fun ty => some (.shl (.ofCode f.guard) ty (.ofCode f.d) (.ofCode f.a) (.ofCode f.b))
  | 0x021 => some (.shlI (.ofCode f.guard) (.ofCode f.d) (.ofCode f.a) (BitVec.ofNat 32 f.imm))
  | 0x022 => (Ty.ofCode? (f.mod / 1024 % 16)).bind fun ty => some (.shr (.ofCode f.guard) ty (.ofCode f.d) (.ofCode f.a) (.ofCode f.b))
  | 0x023 => some (.shrI (.ofCode f.guard) (.ofCode f.d) (.ofCode f.a) (BitVec.ofNat 32 f.imm))
  | 0x024 => (Ty.ofCode? (f.mod / 1024 % 16)).bind fun ty => some (.sar (.ofCode f.guard) ty (.ofCode f.d) (.ofCode f.a) (.ofCode f.b))
  | 0x025 => some (.sarI (.ofCode f.guard) (.ofCode f.d) (.ofCode f.a) (BitVec.ofNat 32 f.imm))
  | 0x026 => (Ty.ofCode? (f.mod / 1024 % 16)).bind fun ty => some (.rol (.ofCode f.guard) ty (.ofCode f.d) (.ofCode f.a) (.ofCode f.b))
  | 0x027 => some (.rolI (.ofCode f.guard) (.ofCode f.d) (.ofCode f.a) (BitVec.ofNat 32 f.imm))
  | 0x028 => (Ty.ofCode? (f.mod / 1024 % 16)).bind fun ty => some (.ror (.ofCode f.guard) ty (.ofCode f.d) (.ofCode f.a) (.ofCode f.b))
  | 0x029 => some (.rorI (.ofCode f.guard) (.ofCode f.d) (.ofCode f.a) (BitVec.ofNat 32 f.imm))
  | 0x030 => (Ty.ofCode? (f.mod / 1024 % 16)).bind fun ty => some (.andG (.ofCode f.guard) ty (.ofCode f.d) (.ofCode f.a) (.ofCode f.b))
  | 0x031 => some (.andI (.ofCode f.guard) (.ofCode f.d) (.ofCode f.a) (BitVec.ofNat 32 f.imm))
  | 0x032 => (Ty.ofCode? (f.mod / 1024 % 16)).bind fun ty => some (.orG (.ofCode f.guard) ty (.ofCode f.d) (.ofCode f.a) (.ofCode f.b))
  | 0x033 => some (.orI (.ofCode f.guard) (.ofCode f.d) (.ofCode f.a) (BitVec.ofNat 32 f.imm))
  | 0x034 => (Ty.ofCode? (f.mod / 1024 % 16)).bind fun ty => some (.xorG (.ofCode f.guard) ty (.ofCode f.d) (.ofCode f.a) (.ofCode f.b))
  | 0x035 => some (.xorI (.ofCode f.guard) (.ofCode f.d) (.ofCode f.a) (BitVec.ofNat 32 f.imm))
  | 0x036 => (Ty.ofCode? (f.mod / 1024 % 16)).bind fun ty => some (.andnG (.ofCode f.guard) ty (.ofCode f.d) (.ofCode f.a) (.ofCode f.b))
  | 0x037 => some (.andnI (.ofCode f.guard) (.ofCode f.d) (.ofCode f.a) (BitVec.ofNat 32 f.imm))
  | 0x038 => (Ty.ofCode? (f.mod / 1024 % 16)).bind fun ty => some (.notG (.ofCode f.guard) ty (.ofCode f.d) (.ofCode f.a))
  | 0x040 => (Ty.ofCode? (f.mod / 1024 % 16)).bind fun ty => some (.popc (.ofCode f.guard) ty (.ofCode f.d) (.ofCode f.a))
  | 0x042 => (Ty.ofCode? (f.mod / 1024 % 16)).bind fun ty => some (.clz (.ofCode f.guard) ty (.ofCode f.d) (.ofCode f.a))
  | 0x044 => (Ty.ofCode? (f.mod / 1024 % 16)).bind fun ty => some (.ctz (.ofCode f.guard) ty (.ofCode f.d) (.ofCode f.a))
  | 0x046 => (Ty.ofCode? (f.mod / 1024 % 16)).bind fun ty => some (.brev (.ofCode f.guard) ty (.ofCode f.d) (.ofCode f.a))
  | 0x048 => (Ty.ofCode? (f.mod / 1024 % 16)).bind fun ty => some (.bfx (.ofCode f.guard) ty (.ofCode f.d) (.ofCode f.a) (.ofCode f.b) (.ofCode f.c))
  | 0x04A => (Ty.ofCode? (f.mod / 1024 % 16)).bind fun ty => some (.bfi (.ofCode f.guard) ty (.ofCode f.d) (.ofCode f.a) (.ofCode f.b) (.ofCode f.c))
  | 0x050 => some (.lea (.ofCode f.guard) (.ofCode f.d) (.ofCode f.a) (.ofCode f.b) (.ofCode f.c))
  | 0x052 => (Ty.ofCode? (f.mod / 1024 % 16)).bind fun ty => some (.mov (.ofCode f.guard) ty (.ofCode f.d) (.ofCode f.a))
  | 0x053 => some (.movi (.ofCode f.guard) (.ofCode f.d) (BitVec.ofNat 32 f.imm))
  | 0x055 => some (.movh (.ofCode f.guard) (.ofCode f.d) (BitVec.ofNat 32 f.imm))
  | 0x058 => (Ty.ofCode? (f.mod / 1024 % 16)).bind fun ty => some (.sel (.ofCode f.guard) ty (.ofCode f.d) (.ofCode f.a) (.ofCode f.b) (.ofCode f.c))
  | 0x05A => (Ty.ofCode? (f.mod / 1024 % 16)).bind fun ty => (Cond.ofCode? (f.d / 64)).bind fun cond => some (.icmp (.ofCode f.guard) ty cond (BitVec.ofNat 3 f.d) (.ofCode f.a) (.ofCode f.b))
  | 0x05B => (Cond.ofCode? (f.d / 64)).bind fun cond => some (.icmpI (.ofCode f.guard) cond (BitVec.ofNat 3 f.d) (.ofCode f.a) (BitVec.ofNat 32 f.imm))
  | 0x05C => (PredOp.ofCode? (f.mod % 4)).bind fun op => some (.pset (.ofCode f.guard) op (.ofCode f.d) (.ofCode f.a) (.ofCode f.b))
  | 0x05E => some (.pmov (.ofCode f.guard) (.ofFields f))
  | _ => none

/-- Opcodes 0x100 to 0x17F. -/
def buildFloat (f : Fields) : Option Instr :=
  match f.opc with
  | 0x100 => (Rnd.ofCode? (f.mod / 128 % 8)).bind fun rnd => some (.fadd (.ofCode f.guard) rnd (.ofCode f.d) (.ofCode f.a) (.ofCode f.b))
  | 0x102 => (Rnd.ofCode? (f.mod / 128 % 8)).bind fun rnd => some (.fsub (.ofCode f.guard) rnd (.ofCode f.d) (.ofCode f.a) (.ofCode f.b))
  | 0x104 => (Rnd.ofCode? (f.mod / 128 % 8)).bind fun rnd => some (.fmul (.ofCode f.guard) rnd (.ofCode f.d) (.ofCode f.a) (.ofCode f.b))
  | 0x106 => (Rnd.ofCode? (f.mod / 128 % 8)).bind fun rnd => some (.ffma (.ofCode f.guard) rnd (.ofCode f.d) (.ofCode f.a) (.ofCode f.b) (.ofCode f.c))
  | 0x108 => some (.fmin (.ofCode f.guard) (.ofCode f.d) (.ofCode f.a) (.ofCode f.b))
  | 0x10A => some (.fmax (.ofCode f.guard) (.ofCode f.d) (.ofCode f.a) (.ofCode f.b))
  | 0x10C => (Cond.ofCode? (f.d / 64)).bind fun cond => some (.fcmp (.ofCode f.guard) cond (BitVec.ofNat 3 f.d) (.ofCode f.a) (.ofCode f.b))
  | 0x10E => some (.fclass (.ofCode f.guard) (.ofCode f.d) (.ofCode f.a))
  | 0x110 => (Rnd.ofCode? (f.mod / 128 % 8)).bind fun rnd => some (.frnd (.ofCode f.guard) rnd (.ofCode f.d) (.ofCode f.a))
  | 0x112 => (Rnd.ofCode? (f.mod / 128 % 8)).bind fun rnd => some (.fscale (.ofCode f.guard) rnd (.ofCode f.d) (.ofCode f.a) (.ofCode f.b))
  | 0x120 => (Ty.ofCode? (f.mod / 1024 % 16)).bind fun ty => (Rnd.ofCode? (f.mod / 128 % 8)).bind fun rnd => some (.hadd2 (.ofCode f.guard) ty rnd (.ofCode f.d) (.ofCode f.a) (.ofCode f.b))
  | 0x122 => (Ty.ofCode? (f.mod / 1024 % 16)).bind fun ty => (Rnd.ofCode? (f.mod / 128 % 8)).bind fun rnd => some (.hmul2 (.ofCode f.guard) ty rnd (.ofCode f.d) (.ofCode f.a) (.ofCode f.b))
  | 0x124 => (Ty.ofCode? (f.mod / 1024 % 16)).bind fun ty => (Rnd.ofCode? (f.mod / 128 % 8)).bind fun rnd => some (.hfma2 (.ofCode f.guard) ty rnd (.ofCode f.d) (.ofCode f.a) (.ofCode f.b) (.ofCode f.c))
  | 0x128 => (Ty.ofCode? (f.mod / 1024 % 16)).bind fun ty => (Rnd.ofCode? (f.mod / 128 % 8)).bind fun rnd => some (.fdot2 (.ofCode f.guard) ty rnd (.ofCode f.d) (.ofCode f.a) (.ofCode f.b) (.ofCode f.c))
  | 0x12A => (Ty.ofCode? (f.mod / 1024 % 16)).bind fun ty => (Rnd.ofCode? (f.mod / 128 % 8)).bind fun rnd => some (.fdot4 (.ofCode f.guard) ty rnd (.ofCode f.d) (.ofCode f.a) (.ofCode f.b) (.ofCode f.c))
  | 0x140 => (Ty.ofCode? (f.mod / 1024 % 16)).bind fun dt => (Ty.ofCode? (f.mod / 8 % 16)).bind fun sty => (Rnd.ofCode? (f.mod / 128 % 8)).bind fun rnd => some (.cvt (.ofCode f.guard) dt sty rnd (.ofCode f.d) (.ofCode f.a))
  | 0x142 => (Ty.ofCode? (f.mod / 1024 % 16)).bind fun dt => (Rnd.ofCode? (f.mod / 128 % 8)).bind fun rnd => some (.cvtx (.ofCode f.guard) dt rnd (.ofCode f.d) (.ofCode f.a) (.ofCode f.b))
  | 0x144 => (Ty.ofCode? (f.mod / 1024 % 16)).bind fun ty => some (.pack (.ofCode f.guard) ty (.ofCode f.d) (.ofCode f.a) (.ofCode f.b))
  | 0x146 => (Ty.ofCode? (f.mod / 1024 % 16)).bind fun ty => some (.unpack (.ofCode f.guard) ty (.ofCode f.d) (.ofCode f.a) (.ofCode f.b))
  | 0x148 => some (.cbdec (.ofCode f.guard) (.ofCode f.d) (.ofCode f.a) (.ofCode f.b))
  | 0x160 => some (.exp2 (.ofCode f.guard) (.ofCode f.d) (.ofCode f.a))
  | 0x162 => some (.log2 (.ofCode f.guard) (.ofCode f.d) (.ofCode f.a))
  | 0x164 => some (.rcp (.ofCode f.guard) (.ofCode f.d) (.ofCode f.a))
  | 0x166 => some (.rsq (.ofCode f.guard) (.ofCode f.d) (.ofCode f.a))
  | 0x168 => some (.sqrt (.ofCode f.guard) (.ofCode f.d) (.ofCode f.a))
  | 0x16A => some (.sin (.ofCode f.guard) (.ofCode f.d) (.ofCode f.a))
  | 0x16C => some (.cos (.ofCode f.guard) (.ofCode f.d) (.ofCode f.a))
  | 0x16E => some (.tanh (.ofCode f.guard) (.ofCode f.d) (.ofCode f.a))
  | _ => none

/-- Opcodes 0x180 to 0x1FF. -/
def buildLane (f : Fields) : Option Instr :=
  match f.opc with
  | 0x180 => (ShflMode.ofCode? (f.mod % 4)).bind fun mode => some (.shfl (.ofCode f.guard) mode (.ofCode f.d) (.ofCode f.a) (.ofCode f.b))
  | 0x182 => (VoteMode.ofCode? (f.mod % 4)).bind fun mode => some (.vote (.ofCode f.guard) mode (.ofCode f.d) (.ofCode f.a))
  | 0x184 => (Ty.ofCode? (f.mod / 1024 % 16)).bind fun ty => (RedOp.ofCode? (f.mod % 16)).bind fun op => some (.redx (.ofCode f.guard) ty op (.ofCode f.d) (.ofCode f.a))
  | 0x186 => (Ty.ofCode? (f.mod / 1024 % 16)).bind fun ty => (RedOp.ofCode? (f.mod % 16)).bind fun op => some (.scanx (.ofCode f.guard) ty op (f.mod / 16 % 2 == 1) (.ofCode f.d) (.ofCode f.a))
  | 0x188 => (Ty.ofCode? (f.mod / 1024 % 16)).bind fun ty => some (.bcst (.ofCode f.guard) ty (.ofCode f.d) (.ofCode f.a) (.ofCode f.b))
  | _ => none

/-- Opcodes 0x200 to 0x27F. -/
def buildControl (f : Fields) : Option Instr :=
  match f.opc with
  | 0x200 => some (.bra (.ofCode f.guard) (BitVec.ofNat 32 f.imm))
  | 0x202 => some (.brx (.ofCode f.guard) (.ofCode f.a) (BitVec.ofNat 32 f.imm))
  | 0x204 => some (.call (.ofCode f.guard) (BitVec.ofNat 32 f.imm))
  | 0x206 => some (.callx (.ofCode f.guard) (.ofCode f.a) (BitVec.ofNat 32 f.imm))
  | 0x208 => some (.ret (.ofCode f.guard))
  | 0x20A => some (.exit (.ofCode f.guard))
  | 0x20C => (YieldForm.ofFields? f).bind fun x => some (.yield (.ofCode f.guard) x)
  | 0x20E => some (.trap (.ofCode f.guard) (BitVec.ofNat 32 f.imm))
  | 0x210 => some (.tret (.ofCode f.guard))
  | 0x212 => some (.brk (.ofCode f.guard) (BitVec.ofNat 32 f.imm))
  | 0x214 => some (.nop (.ofCode f.guard))
  | _ => none

/-- Opcodes 0x280 to 0x297. -/
def buildMemory (f : Fields) : Option Instr :=
  match f.opc with
  | 0x280 => (Ty.ofCode? (f.mod / 1024 % 16)).bind fun ty => some (.ld (.ofCode f.guard) ty (BitVec.ofNat 3 (f.mod / 4 % 8)) (.ofCode f.d) (.ofCode f.a) (.ofCode f.b))
  | 0x281 => (Ty.ofCode? (f.mod / 1024 % 16)).bind fun ty => some (.st (.ofCode f.guard) ty (.ofCode f.d) (.ofCode f.a) (.ofCode f.b))
  | 0x282 => (Ty.ofCode? (f.mod / 1024 % 16)).bind fun ty => some (.ldl (.ofCode f.guard) ty (BitVec.ofNat 3 (f.mod / 4 % 8)) (.ofCode f.d) (.ofCode f.a) (.ofCode f.b))
  | 0x283 => (Ty.ofCode? (f.mod / 1024 % 16)).bind fun ty => some (.stl (.ofCode f.guard) ty (.ofCode f.d) (.ofCode f.a) (.ofCode f.b))
  | 0x284 => (Ty.ofCode? (f.mod / 1024 % 16)).bind fun ty => some (.ldp (.ofCode f.guard) ty (BitVec.ofNat 3 (f.mod / 4 % 8)) (.ofCode f.d) (.ofCode f.a) (.ofCode f.b))
  | 0x285 => (Ty.ofCode? (f.mod / 1024 % 16)).bind fun ty => (Scope.ofCode? (f.mod / 128 % 8)).bind fun sc => (Order.ofCode? (f.mod / 32 % 4)).bind fun ord => (Space.ofCode? (f.mod / 2 % 2)).bind fun sp => some (.lda (.ofCode f.guard) ty sc ord (BitVec.ofNat 3 (f.mod / 4 % 8)) sp (.ofCode f.d) (.ofCode f.a) (.ofCode f.b))
  | 0x286 => (Ty.ofCode? (f.mod / 1024 % 16)).bind fun ty => (Scope.ofCode? (f.mod / 128 % 8)).bind fun sc => (Order.ofCode? (f.mod / 32 % 4)).bind fun ord => (Space.ofCode? (f.mod / 2 % 2)).bind fun sp => some (.sta (.ofCode f.guard) ty sc ord sp (.ofCode f.d) (.ofCode f.a) (.ofCode f.b))
  | 0x287 => some (.pref (.ofCode f.guard) (.ofCode f.a) (.ofCode f.b))
  | 0x288 => (Ty.ofCode? (f.mod / 1024 % 16)).bind fun ty => (Scope.ofCode? (f.mod / 128 % 8)).bind fun sc => (Order.ofCode? (f.mod / 32 % 4)).bind fun ord => (Space.ofCode? (f.mod / 2 % 2)).bind fun sp => some (.atomAdd (.ofCode f.guard) ty sc ord (BitVec.ofNat 3 (f.mod / 4 % 8)) sp (.ofCode f.d) (.ofCode f.a) (.ofCode f.b))
  | 0x289 => (Ty.ofCode? (f.mod / 1024 % 16)).bind fun ty => (Scope.ofCode? (f.mod / 128 % 8)).bind fun sc => (Order.ofCode? (f.mod / 32 % 4)).bind fun ord => (Space.ofCode? (f.mod / 2 % 2)).bind fun sp => some (.atomMin (.ofCode f.guard) ty sc ord (BitVec.ofNat 3 (f.mod / 4 % 8)) sp (.ofCode f.d) (.ofCode f.a) (.ofCode f.b))
  | 0x28A => (Ty.ofCode? (f.mod / 1024 % 16)).bind fun ty => (Scope.ofCode? (f.mod / 128 % 8)).bind fun sc => (Order.ofCode? (f.mod / 32 % 4)).bind fun ord => (Space.ofCode? (f.mod / 2 % 2)).bind fun sp => some (.atomMax (.ofCode f.guard) ty sc ord (BitVec.ofNat 3 (f.mod / 4 % 8)) sp (.ofCode f.d) (.ofCode f.a) (.ofCode f.b))
  | 0x28B => (Ty.ofCode? (f.mod / 1024 % 16)).bind fun ty => (Scope.ofCode? (f.mod / 128 % 8)).bind fun sc => (Order.ofCode? (f.mod / 32 % 4)).bind fun ord => (Space.ofCode? (f.mod / 2 % 2)).bind fun sp => some (.atomAnd (.ofCode f.guard) ty sc ord (BitVec.ofNat 3 (f.mod / 4 % 8)) sp (.ofCode f.d) (.ofCode f.a) (.ofCode f.b))
  | 0x28C => (Ty.ofCode? (f.mod / 1024 % 16)).bind fun ty => (Scope.ofCode? (f.mod / 128 % 8)).bind fun sc => (Order.ofCode? (f.mod / 32 % 4)).bind fun ord => (Space.ofCode? (f.mod / 2 % 2)).bind fun sp => some (.atomOr (.ofCode f.guard) ty sc ord (BitVec.ofNat 3 (f.mod / 4 % 8)) sp (.ofCode f.d) (.ofCode f.a) (.ofCode f.b))
  | 0x28D => (Ty.ofCode? (f.mod / 1024 % 16)).bind fun ty => (Scope.ofCode? (f.mod / 128 % 8)).bind fun sc => (Order.ofCode? (f.mod / 32 % 4)).bind fun ord => (Space.ofCode? (f.mod / 2 % 2)).bind fun sp => some (.atomXor (.ofCode f.guard) ty sc ord (BitVec.ofNat 3 (f.mod / 4 % 8)) sp (.ofCode f.d) (.ofCode f.a) (.ofCode f.b))
  | 0x28E => (Ty.ofCode? (f.mod / 1024 % 16)).bind fun ty => (Scope.ofCode? (f.mod / 128 % 8)).bind fun sc => (Order.ofCode? (f.mod / 32 % 4)).bind fun ord => (Space.ofCode? (f.mod / 2 % 2)).bind fun sp => some (.atomExch (.ofCode f.guard) ty sc ord (BitVec.ofNat 3 (f.mod / 4 % 8)) sp (.ofCode f.d) (.ofCode f.a) (.ofCode f.b))
  | 0x28F => (Scope.ofCode? (f.mod / 128 % 8)).bind fun sc => (Order.ofCode? (f.mod / 32 % 4)).bind fun ord => (Space.ofCode? (f.mod / 2 % 2)).bind fun sp => some (.atomFadd (.ofCode f.guard) sc ord (BitVec.ofNat 3 (f.mod / 4 % 8)) sp (.ofCode f.d) (.ofCode f.a) (.ofCode f.b))
  | 0x290 => (Ty.ofCode? (f.mod / 1024 % 16)).bind fun ty => (Scope.ofCode? (f.mod / 128 % 8)).bind fun sc => (Order.ofCode? (f.mod / 32 % 4)).bind fun ord => (Space.ofCode? (f.mod / 2 % 2)).bind fun sp => some (.cas (.ofCode f.guard) ty sc ord (BitVec.ofNat 3 (f.mod / 4 % 8)) sp (.ofCode f.d) (.ofCode f.a) (.ofCode f.b) (.ofCode f.c))
  | 0x291 => (Scope.ofCode? (f.mod / 128 % 8)).bind fun sc => (Order.ofCode? (f.mod / 32 % 4)).bind fun ord => (Space.ofCode? (f.mod / 2 % 2)).bind fun sp => some (.casw (.ofCode f.guard) sc ord (BitVec.ofNat 3 (f.mod / 4 % 8)) sp (.ofCode f.d) (.ofCode f.a) (.ofCode f.b) (.ofCode f.c))
  | 0x292 => (Scope.ofCode? (f.mod / 128 % 8)).bind fun sc => (Order.ofCode? (f.mod / 32 % 4)).bind fun ord => some (.fence (.ofCode f.guard) sc ord)
  | _ => none

/-- Opcodes 0x298 to 0x2CF. -/
def buildToken (f : Fields) : Option Instr :=
  match f.opc with
  | 0x298 => some (.twait (.ofCode f.guard) (BitVec.ofNat 8 (f.mod % 256)))
  | 0x299 => some (.tcnt (.ofCode f.guard) (BitVec.ofNat 3 (f.mod % 8)) (.ofCode f.d))
  | 0x2A0 => some (.binit (.ofCode f.guard) (.ofCode f.a))
  | 0x2A1 => some (.bexp (.ofCode f.guard) (.ofCode f.a) (.ofCode f.b) (.ofCode f.c))
  | 0x2A2 => some (.barv (.ofCode f.guard) (.ofCode f.a))
  | 0x2A3 => some (.btest (.ofCode f.guard) (.ofCode f.d) (.ofCode f.a))
  | 0x2A4 => some (.bfree (.ofCode f.guard) (.ofCode f.a))
  | 0x2B0 => some (.ainit (.ofCode f.guard) (.ofCode f.a) (.ofCode f.b))
  | 0x2B1 => (PostOp.ofCode? (f.mod % 8)).bind fun op => some (.apost (.ofCode f.guard) op (.ofCode f.d) (.ofCode f.a) (.ofCode f.b))
  | 0x2B2 => some (.astep (.ofCode f.guard) (.ofCode f.d) (.ofCode f.a))
  | 0x2B3 => some (.ares (.ofCode f.guard) (.ofCode f.d))
  | _ => none

/-- Opcodes 0x2F0 to 0x2FF. -/
def buildSystem (f : Fields) : Option Instr :=
  match f.opc with
  | 0x2F0 => (SReg.ofCode? f.a).bind fun sr => some (.movs (.ofCode f.guard) (.ofCode f.d) sr)
  | 0x2F1 => (SReg.ofCode? f.d).bind fun sr => some (.movsw (.ofCode f.guard) sr (.ofCode f.a))
  | 0x2F2 => some (.pkset (.ofCode f.guard) (.ofCode f.a) (.ofCode f.b))
  | 0x2F3 => (Level.ofCode? (f.mod % 4)).bind fun lvl => some (.cancel (.ofCode f.guard) lvl (f.mod / 4 % 2 == 1) (.ofCode f.a))
  | 0x2F4 => some (.enql (.ofCode f.guard) (.ofCode f.a) (.ofCode f.b))
  | 0x2F5 => some (.evsig (.ofCode f.guard) (.ofCode f.a) (.ofCode f.b))
  | 0x2F6 => some (.ctrd (.ofCode f.guard) (.ofCode f.d) (.ofCode f.a))
  | _ => none

/-- Opcodes 0x300 to 0x33F. -/
def buildMatrix (f : Fields) : Option Instr :=
  match f.opc with
  | 0x300 => (Sel3.ofCode? ((f.opc - 0x300) / 3)).bind fun ns => (Sel3.ofCode? ((f.opc - 0x300) % 3)).bind fun ks => some (.mma (.ofCode f.guard) ns ks (BitVec.ofNat 3 (f.mod / 1024 % 8)) (.ofCode f.a))
  | 0x301 => (Sel3.ofCode? ((f.opc - 0x300) / 3)).bind fun ns => (Sel3.ofCode? ((f.opc - 0x300) % 3)).bind fun ks => some (.mma (.ofCode f.guard) ns ks (BitVec.ofNat 3 (f.mod / 1024 % 8)) (.ofCode f.a))
  | 0x302 => (Sel3.ofCode? ((f.opc - 0x300) / 3)).bind fun ns => (Sel3.ofCode? ((f.opc - 0x300) % 3)).bind fun ks => some (.mma (.ofCode f.guard) ns ks (BitVec.ofNat 3 (f.mod / 1024 % 8)) (.ofCode f.a))
  | 0x303 => (Sel3.ofCode? ((f.opc - 0x300) / 3)).bind fun ns => (Sel3.ofCode? ((f.opc - 0x300) % 3)).bind fun ks => some (.mma (.ofCode f.guard) ns ks (BitVec.ofNat 3 (f.mod / 1024 % 8)) (.ofCode f.a))
  | 0x304 => (Sel3.ofCode? ((f.opc - 0x300) / 3)).bind fun ns => (Sel3.ofCode? ((f.opc - 0x300) % 3)).bind fun ks => some (.mma (.ofCode f.guard) ns ks (BitVec.ofNat 3 (f.mod / 1024 % 8)) (.ofCode f.a))
  | 0x305 => (Sel3.ofCode? ((f.opc - 0x300) / 3)).bind fun ns => (Sel3.ofCode? ((f.opc - 0x300) % 3)).bind fun ks => some (.mma (.ofCode f.guard) ns ks (BitVec.ofNat 3 (f.mod / 1024 % 8)) (.ofCode f.a))
  | 0x306 => (Sel3.ofCode? ((f.opc - 0x300) / 3)).bind fun ns => (Sel3.ofCode? ((f.opc - 0x300) % 3)).bind fun ks => some (.mma (.ofCode f.guard) ns ks (BitVec.ofNat 3 (f.mod / 1024 % 8)) (.ofCode f.a))
  | 0x307 => (Sel3.ofCode? ((f.opc - 0x300) / 3)).bind fun ns => (Sel3.ofCode? ((f.opc - 0x300) % 3)).bind fun ks => some (.mma (.ofCode f.guard) ns ks (BitVec.ofNat 3 (f.mod / 1024 % 8)) (.ofCode f.a))
  | 0x308 => (Sel3.ofCode? ((f.opc - 0x300) / 3)).bind fun ns => (Sel3.ofCode? ((f.opc - 0x300) % 3)).bind fun ks => some (.mma (.ofCode f.guard) ns ks (BitVec.ofNat 3 (f.mod / 1024 % 8)) (.ofCode f.a))
  | 0x309 => (Sel3.ofCode? ((f.opc - 0x309) / 3)).bind fun ns => (Sel3.ofCode? ((f.opc - 0x309) % 3)).bind fun ks => some (.mma16 (.ofCode f.guard) ns ks (BitVec.ofNat 3 (f.mod / 1024 % 8)) (.ofCode f.a))
  | 0x30A => (Sel3.ofCode? ((f.opc - 0x309) / 3)).bind fun ns => (Sel3.ofCode? ((f.opc - 0x309) % 3)).bind fun ks => some (.mma16 (.ofCode f.guard) ns ks (BitVec.ofNat 3 (f.mod / 1024 % 8)) (.ofCode f.a))
  | 0x30B => (Sel3.ofCode? ((f.opc - 0x309) / 3)).bind fun ns => (Sel3.ofCode? ((f.opc - 0x309) % 3)).bind fun ks => some (.mma16 (.ofCode f.guard) ns ks (BitVec.ofNat 3 (f.mod / 1024 % 8)) (.ofCode f.a))
  | 0x30C => (Sel3.ofCode? ((f.opc - 0x309) / 3)).bind fun ns => (Sel3.ofCode? ((f.opc - 0x309) % 3)).bind fun ks => some (.mma16 (.ofCode f.guard) ns ks (BitVec.ofNat 3 (f.mod / 1024 % 8)) (.ofCode f.a))
  | 0x30D => (Sel3.ofCode? ((f.opc - 0x309) / 3)).bind fun ns => (Sel3.ofCode? ((f.opc - 0x309) % 3)).bind fun ks => some (.mma16 (.ofCode f.guard) ns ks (BitVec.ofNat 3 (f.mod / 1024 % 8)) (.ofCode f.a))
  | 0x30E => (Sel3.ofCode? ((f.opc - 0x309) / 3)).bind fun ns => (Sel3.ofCode? ((f.opc - 0x309) % 3)).bind fun ks => some (.mma16 (.ofCode f.guard) ns ks (BitVec.ofNat 3 (f.mod / 1024 % 8)) (.ofCode f.a))
  | 0x30F => (Sel3.ofCode? ((f.opc - 0x309) / 3)).bind fun ns => (Sel3.ofCode? ((f.opc - 0x309) % 3)).bind fun ks => some (.mma16 (.ofCode f.guard) ns ks (BitVec.ofNat 3 (f.mod / 1024 % 8)) (.ofCode f.a))
  | 0x310 => (Sel3.ofCode? ((f.opc - 0x309) / 3)).bind fun ns => (Sel3.ofCode? ((f.opc - 0x309) % 3)).bind fun ks => some (.mma16 (.ofCode f.guard) ns ks (BitVec.ofNat 3 (f.mod / 1024 % 8)) (.ofCode f.a))
  | 0x311 => (Sel3.ofCode? ((f.opc - 0x309) / 3)).bind fun ns => (Sel3.ofCode? ((f.opc - 0x309) % 3)).bind fun ks => some (.mma16 (.ofCode f.guard) ns ks (BitVec.ofNat 3 (f.mod / 1024 % 8)) (.ofCode f.a))
  | 0x312 => some (.mopf (.ofCode f.guard))
  | 0x313 => some (.mzero (.ofCode f.guard) (BitVec.ofNat 3 (f.mod / 1024 % 8)) (.ofCode f.a))
  | 0x318 => some (.att (.ofCode f.guard) (f.mod % 2 == 1) (f.mod / 2 % 2 == 1) (f.mod / 4 % 2 == 1) (BitVec.ofNat 3 (f.mod / 1024 % 8)) (.ofCode f.a))
  | 0x319 => some (.attfin (.ofCode f.guard) (BitVec.ofNat 3 (f.mod / 1024 % 8)) (.ofCode f.d) (.ofCode f.a))
  | 0x31A => some (.latw (.ofCode f.guard) (BitVec.ofNat 3 (f.mod / 1024 % 8)) (.ofCode f.a))
  | 0x320 => some (.kvlook (.ofCode f.guard) (BitVec.ofNat 3 (f.mod / 1024 % 8)) (.ofCode f.d) (.ofCode f.a))
  | 0x321 => some (.kvapp (.ofCode f.guard) (.ofFields f) (.ofCode f.a))
  | 0x322 => some (.kvfork (.ofCode f.guard) (.ofFields f) (.ofCode f.a))
  | 0x323 => some (.kvcommit (.ofCode f.guard) (.ofFields f) (.ofCode f.a))
  | 0x324 => some (.topk (.ofCode f.guard) (.ofFields f) (.ofCode f.a))
  | _ => none

/-- Opcodes 0x340 to 0x37F. -/
def buildCopy (f : Fields) : Option Instr :=
  match f.opc with
  | 0x340 => some (.cpy (.ofCode f.guard) (.ofFields f) (.ofCode f.a))
  | 0x341 => some (.cpyt (.ofCode f.guard) (f.mod % 2 == 1) (.ofFields f) (.ofCode f.a))
  | 0x342 => some (.cpyc (.ofCode f.guard) (.ofFields f) (.ofCode f.a))
  | 0x343 => some (.cpyg (.ofCode f.guard) (.ofFields f) (.ofCode f.a))
  | 0x344 => some (.cpys (.ofCode f.guard) (.ofFields f) (.ofCode f.a))
  | 0x345 => some (.chwp (.ofCode f.guard) (.ofCode f.d) (.ofCode f.a))
  | 0x348 => some (.rngsnd (.ofCode f.guard) (f.mod % 2 == 1) (BitVec.ofNat 3 (f.mod / 1024 % 8)) (.ofCode f.a))
  | 0x349 => some (.rngrcv (.ofCode f.guard) (f.mod % 2 == 1) (.ofFields f) (.ofCode f.a))
  | _ => none

/-- The instruction that the fields of a word name, its reserved fields not yet checked. -/
def build (f : Fields) : Option Instr :=
  if f.opc < 0x100 then buildInteger f
  else if f.opc < 0x180 then buildFloat f
  else if f.opc < 0x200 then buildLane f
  else if f.opc < 0x280 then buildControl f
  else if f.opc < 0x298 then buildMemory f
  else if f.opc < 0x2D0 then buildToken f
  else if f.opc < 0x300 then buildSystem f
  else if f.opc < 0x340 then buildMatrix f
  else buildCopy f

/-- A word of format G, M or E. -/
def wordG (opc guard d a b c mod : Nat) : Nat :=
  opc * 2 ^ 54 + guard * 2 ^ 50 + d * 2 ^ 41 + a * 2 ^ 32 + b * 2 ^ 23 + c * 2 ^ 14 + mod

/-- A word of format I or B. -/
def wordI (opc guard d a imm : Nat) : Nat :=
  opc * 2 ^ 54 + guard * 2 ^ 50 + d * 2 ^ 41 + a * 2 ^ 32 + imm

/-- The four guard bits (R55). -/
def Guard.code (g : Guard) : Nat := 2 * g.pred.toNat + g.neg.toNat

/-- The 9-bit code of an operand (R63). -/
def Opnd.code : Opnd → Nat
  | .g r => r.toNat
  | .a j => 256 + j.toNat
  | .t r => 384 + r.toNat
  | .p r => 392 + r.toNat
  | .c k => 400 + k.toNat
  | .bad k => 464 + k.toNat

/-- The code of each value of `Ty`. -/
def Ty.code : Ty → Nat
  | .i8 => 0
  | .i16 => 1
  | .i32 => 2
  | .i64 => 3
  | .w8 => 4
  | .w16 => 5
  | .w32 => 6
  | .w64 => 7
  | .f32 => 8
  | .bf16 => 9
  | .f16 => 10
  | .e4m3 => 11
  | .e5m2 => 12
  | .e3m2 => 13
  | .e2m1 => 14
  | .cb2 => 15

/-- The code of each value of `Rnd`. -/
def Rnd.code : Rnd → Nat
  | .rne => 0
  | .rz => 1
  | .ru => 2
  | .rd => 3
  | .rs => 4

/-- The code of each value of `Cond`. -/
def Cond.code : Cond → Nat
  | .eq => 0
  | .ne => 1
  | .lt => 2
  | .le => 3
  | .gt => 4
  | .ge => 5
  | .un => 6

/-- The code of each value of `PredOp`. -/
def PredOp.code : PredOp → Nat
  | .and => 0
  | .or => 1
  | .xor => 2

/-- The code of each value of `ShflMode`. -/
def ShflMode.code : ShflMode → Nat
  | .idx => 0
  | .up => 1
  | .down => 2
  | .xor => 3

/-- The code of each value of `VoteMode`. -/
def VoteMode.code : VoteMode → Nat
  | .all => 0
  | .any => 1
  | .bal => 2

/-- The code of each value of `RedOp`. -/
def RedOp.code : RedOp → Nat
  | .add => 0
  | .min => 1
  | .max => 2
  | .and => 3
  | .or => 4
  | .xor => 5
  | .fadd => 6
  | .fmin => 7
  | .fmax => 8

/-- The code of each value of `Scope`. -/
def Scope.code : Scope → Nat
  | .wg => 0
  | .die => 1
  | .dev => 2
  | .dom => 3
  | .sys => 4

/-- The code of each value of `Order`. -/
def Order.code : Order → Nat
  | .plain => 0
  | .acq => 1
  | .rel => 2
  | .acqrel => 3

/-- The code of each value of `Space`. -/
def Space.code : Space → Nat
  | .global => 0
  | .loft => 1

/-- The code of each value of `PostOp`. -/
def PostOp.code : PostOp → Nat
  | .add => 0
  | .min => 1
  | .max => 2
  | .and => 3
  | .or => 4
  | .xor => 5
  | .exch => 6

/-- The code of each value of `SReg`. -/
def SReg.code : SReg → Nat
  | .lane => 0
  | .team => 1
  | .rig => 2
  | .tid => 3
  | .wgid => 4
  | .nwg => 5
  | .launch => 6
  | .graph => 7
  | .phase => 8
  | .job => 9
  | .time => 10
  | .readfloor => 11
  | .rowprog => 12
  | .pkperm => 13
  | .cstk => 14
  | .cspill => 15
  | .aset => 16
  | .vf => 17
  | .core => 18
  | .die => 19
  | .bay => 20
  | .status => 21
  | .lfsr => 22
  | .tframe => 23

/-- The code of each value of `Level`. -/
def Level.code : Level → Nat
  | .launch => 0
  | .graph => 1
  | .phase => 2
  | .job => 3

/-- The code of each value of `Sel3`. -/
def Sel3.code : Sel3 → Nat
  | .s0 => 0
  | .s1 => 1
  | .s2 => 2

/-- D, A and MOD of PMOV (R138). -/
def PmovForm.dCode : PmovForm → Nat
  | .get d => d.code
  | .put _ => 0

def PmovForm.aCode : PmovForm → Nat
  | .get _ => 0
  | .put a => a.code

def PmovForm.modCode : PmovForm → Nat
  | .get _ => 0
  | .put _ => 1

/-- A, B and MOD of YIELD (R163). -/
def YieldForm.aCode : YieldForm → Nat
  | .phase a _ => a.code
  | .token _ => 0
  | .wptr a _ => a.code

def YieldForm.bCode : YieldForm → Nat
  | .phase _ b => b.code
  | .token _ => 0
  | .wptr _ b => b.code

def YieldForm.modCode : YieldForm → Nat
  | .phase _ _ => 0
  | .token k => 4 * k.toNat + 1
  | .wptr _ _ => 2

/-- C of an engine command, and its CK and TOK in their places in MOD (R60). -/
def Completion.cCode : Completion → Nat
  | .tok _ => 0
  | .bar c => c.code

def Completion.modCode : Completion → Nat
  | .tok k => 2 ^ 10 * k.toNat
  | .bar _ => 2 ^ 13

/-- The word of an instruction as a number. The steps that the machine takes by itself have none. -/
def encodeNat : Instr → Option Nat
  | .iadd gd ty d a b => some (wordG 0x000 gd.code d.code a.code b.code 0 (1024 * ty.code))
  | .iaddI gd d a imm => some (wordI 0x001 gd.code d.code a.code imm.toNat)
  | .isub gd ty d a b => some (wordG 0x002 gd.code d.code a.code b.code 0 (1024 * ty.code))
  | .isubI gd d a imm => some (wordI 0x003 gd.code d.code a.code imm.toNat)
  | .iaddc gd ty d a b c => some (wordG 0x004 gd.code d.code a.code b.code c.code (1024 * ty.code))
  | .imul gd ty d a b => some (wordG 0x006 gd.code d.code a.code b.code 0 (1024 * ty.code))
  | .imulI gd d a imm => some (wordI 0x007 gd.code d.code a.code imm.toNat)
  | .imulh gd ty d a b => some (wordG 0x008 gd.code d.code a.code b.code 0 (1024 * ty.code))
  | .imad gd ty d a b c => some (wordG 0x00A gd.code d.code a.code b.code c.code (1024 * ty.code))
  | .idot4 gd ty d a b c => some (wordG 0x00C gd.code d.code a.code b.code c.code (1024 * ty.code))
  | .idiv gd ty d a b => some (wordG 0x00E gd.code d.code a.code b.code 0 (1024 * ty.code))
  | .irem gd ty d a b => some (wordG 0x010 gd.code d.code a.code b.code 0 (1024 * ty.code))
  | .imin gd ty d a b => some (wordG 0x012 gd.code d.code a.code b.code 0 (1024 * ty.code))
  | .iminI gd d a imm => some (wordI 0x013 gd.code d.code a.code imm.toNat)
  | .imax gd ty d a b => some (wordG 0x014 gd.code d.code a.code b.code 0 (1024 * ty.code))
  | .imaxI gd d a imm => some (wordI 0x015 gd.code d.code a.code imm.toNat)
  | .iabs gd ty d a => some (wordG 0x016 gd.code d.code a.code 0 0 (1024 * ty.code))
  | .ineg gd ty d a => some (wordG 0x018 gd.code d.code a.code 0 0 (1024 * ty.code))
  | .isat gd ty d a => some (wordG 0x01A gd.code d.code a.code 0 0 (1024 * ty.code))
  | .shl gd ty d a b => some (wordG 0x020 gd.code d.code a.code b.code 0 (1024 * ty.code))
  | .shlI gd d a imm => some (wordI 0x021 gd.code d.code a.code imm.toNat)
  | .shr gd ty d a b => some (wordG 0x022 gd.code d.code a.code b.code 0 (1024 * ty.code))
  | .shrI gd d a imm => some (wordI 0x023 gd.code d.code a.code imm.toNat)
  | .sar gd ty d a b => some (wordG 0x024 gd.code d.code a.code b.code 0 (1024 * ty.code))
  | .sarI gd d a imm => some (wordI 0x025 gd.code d.code a.code imm.toNat)
  | .rol gd ty d a b => some (wordG 0x026 gd.code d.code a.code b.code 0 (1024 * ty.code))
  | .rolI gd d a imm => some (wordI 0x027 gd.code d.code a.code imm.toNat)
  | .ror gd ty d a b => some (wordG 0x028 gd.code d.code a.code b.code 0 (1024 * ty.code))
  | .rorI gd d a imm => some (wordI 0x029 gd.code d.code a.code imm.toNat)
  | .andG gd ty d a b => some (wordG 0x030 gd.code d.code a.code b.code 0 (1024 * ty.code))
  | .andI gd d a imm => some (wordI 0x031 gd.code d.code a.code imm.toNat)
  | .orG gd ty d a b => some (wordG 0x032 gd.code d.code a.code b.code 0 (1024 * ty.code))
  | .orI gd d a imm => some (wordI 0x033 gd.code d.code a.code imm.toNat)
  | .xorG gd ty d a b => some (wordG 0x034 gd.code d.code a.code b.code 0 (1024 * ty.code))
  | .xorI gd d a imm => some (wordI 0x035 gd.code d.code a.code imm.toNat)
  | .andnG gd ty d a b => some (wordG 0x036 gd.code d.code a.code b.code 0 (1024 * ty.code))
  | .andnI gd d a imm => some (wordI 0x037 gd.code d.code a.code imm.toNat)
  | .notG gd ty d a => some (wordG 0x038 gd.code d.code a.code 0 0 (1024 * ty.code))
  | .popc gd ty d a => some (wordG 0x040 gd.code d.code a.code 0 0 (1024 * ty.code))
  | .clz gd ty d a => some (wordG 0x042 gd.code d.code a.code 0 0 (1024 * ty.code))
  | .ctz gd ty d a => some (wordG 0x044 gd.code d.code a.code 0 0 (1024 * ty.code))
  | .brev gd ty d a => some (wordG 0x046 gd.code d.code a.code 0 0 (1024 * ty.code))
  | .bfx gd ty d a b c => some (wordG 0x048 gd.code d.code a.code b.code c.code (1024 * ty.code))
  | .bfi gd ty d a b c => some (wordG 0x04A gd.code d.code a.code b.code c.code (1024 * ty.code))
  | .lea gd d a b c => some (wordG 0x050 gd.code d.code a.code b.code c.code 0)
  | .mov gd ty d a => some (wordG 0x052 gd.code d.code a.code 0 0 (1024 * ty.code))
  | .movi gd d imm => some (wordI 0x053 gd.code d.code 0 imm.toNat)
  | .movh gd d imm => some (wordI 0x055 gd.code d.code 0 imm.toNat)
  | .sel gd ty d a b c => some (wordG 0x058 gd.code d.code a.code b.code c.code (1024 * ty.code))
  | .icmp gd ty cond pn a b => some (wordG 0x05A gd.code (64 * cond.code + pn.toNat) a.code b.code 0 (1024 * ty.code))
  | .icmpI gd cond pn a imm => some (wordI 0x05B gd.code (64 * cond.code + pn.toNat) a.code imm.toNat)
  | .pset gd op d a b => some (wordG 0x05C gd.code d.code a.code b.code 0 op.code)
  | .pmov gd x => some (wordG 0x05E gd.code x.dCode x.aCode 0 0 x.modCode)
  | .fadd gd rnd d a b => some (wordG 0x100 gd.code d.code a.code b.code 0 (8192 + 128 * rnd.code))
  | .fsub gd rnd d a b => some (wordG 0x102 gd.code d.code a.code b.code 0 (8192 + 128 * rnd.code))
  | .fmul gd rnd d a b => some (wordG 0x104 gd.code d.code a.code b.code 0 (8192 + 128 * rnd.code))
  | .ffma gd rnd d a b c => some (wordG 0x106 gd.code d.code a.code b.code c.code (8192 + 128 * rnd.code))
  | .fmin gd d a b => some (wordG 0x108 gd.code d.code a.code b.code 0 8192)
  | .fmax gd d a b => some (wordG 0x10A gd.code d.code a.code b.code 0 8192)
  | .fcmp gd cond pn a b => some (wordG 0x10C gd.code (64 * cond.code + pn.toNat) a.code b.code 0 8192)
  | .fclass gd d a => some (wordG 0x10E gd.code d.code a.code 0 0 8192)
  | .frnd gd rnd d a => some (wordG 0x110 gd.code d.code a.code 0 0 (8192 + 128 * rnd.code))
  | .fscale gd rnd d a b => some (wordG 0x112 gd.code d.code a.code b.code 0 (8192 + 128 * rnd.code))
  | .hadd2 gd ty rnd d a b => some (wordG 0x120 gd.code d.code a.code b.code 0 (1024 * ty.code + 128 * rnd.code))
  | .hmul2 gd ty rnd d a b => some (wordG 0x122 gd.code d.code a.code b.code 0 (1024 * ty.code + 128 * rnd.code))
  | .hfma2 gd ty rnd d a b c => some (wordG 0x124 gd.code d.code a.code b.code c.code (1024 * ty.code + 128 * rnd.code))
  | .fdot2 gd ty rnd d a b c => some (wordG 0x128 gd.code d.code a.code b.code c.code (1024 * ty.code + 128 * rnd.code))
  | .fdot4 gd ty rnd d a b c => some (wordG 0x12A gd.code d.code a.code b.code c.code (1024 * ty.code + 128 * rnd.code))
  | .cvt gd dt sty rnd d a => some (wordG 0x140 gd.code d.code a.code 0 0 (1024 * dt.code + 8 * sty.code + 128 * rnd.code))
  | .cvtx gd dt rnd d a b => some (wordG 0x142 gd.code d.code a.code b.code 0 (1024 * dt.code + 128 * rnd.code))
  | .pack gd ty d a b => some (wordG 0x144 gd.code d.code a.code b.code 0 (1024 * ty.code))
  | .unpack gd ty d a b => some (wordG 0x146 gd.code d.code a.code b.code 0 (1024 * ty.code))
  | .cbdec gd d a b => some (wordG 0x148 gd.code d.code a.code b.code 0 15360)
  | .exp2 gd d a => some (wordG 0x160 gd.code d.code a.code 0 0 8192)
  | .log2 gd d a => some (wordG 0x162 gd.code d.code a.code 0 0 8192)
  | .rcp gd d a => some (wordG 0x164 gd.code d.code a.code 0 0 8192)
  | .rsq gd d a => some (wordG 0x166 gd.code d.code a.code 0 0 8192)
  | .sqrt gd d a => some (wordG 0x168 gd.code d.code a.code 0 0 8192)
  | .sin gd d a => some (wordG 0x16A gd.code d.code a.code 0 0 8192)
  | .cos gd d a => some (wordG 0x16C gd.code d.code a.code 0 0 8192)
  | .tanh gd d a => some (wordG 0x16E gd.code d.code a.code 0 0 8192)
  | .shfl gd mode d a b => some (wordG 0x180 gd.code d.code a.code b.code 0 mode.code)
  | .vote gd mode d a => some (wordG 0x182 gd.code d.code a.code 0 0 mode.code)
  | .redx gd ty op d a => some (wordG 0x184 gd.code d.code a.code 0 0 (1024 * ty.code + op.code))
  | .scanx gd ty op exc d a => some (wordG 0x186 gd.code d.code a.code 0 0 (1024 * ty.code + op.code + 16 * exc.toNat))
  | .bcst gd ty d a b => some (wordG 0x188 gd.code d.code a.code b.code 0 (1024 * ty.code))
  | .bra gd ofs => some (wordI 0x200 gd.code 0 0 ofs.toNat)
  | .brx gd a ofs => some (wordI 0x202 gd.code 0 a.code ofs.toNat)
  | .call gd ofs => some (wordI 0x204 gd.code 0 0 ofs.toNat)
  | .callx gd a ofs => some (wordI 0x206 gd.code 0 a.code ofs.toNat)
  | .ret gd => some (wordG 0x208 gd.code 0 0 0 0 0)
  | .exit gd => some (wordG 0x20A gd.code 0 0 0 0 0)
  | .yield gd x => some (wordG 0x20C gd.code 0 x.aCode x.bCode 0 x.modCode)
  | .trap gd imm => some (wordI 0x20E gd.code 0 0 imm.toNat)
  | .tret gd => some (wordG 0x210 gd.code 0 0 0 0 0)
  | .brk gd imm => some (wordI 0x212 gd.code 0 0 imm.toNat)
  | .nop gd => some (wordG 0x214 gd.code 0 0 0 0 0)
  | .ld gd ty tok d a b => some (wordG 0x280 gd.code d.code a.code b.code 0 (1024 * ty.code + 4 * tok.toNat))
  | .st gd ty d a b => some (wordG 0x281 gd.code d.code a.code b.code 0 (1024 * ty.code))
  | .ldl gd ty tok d a b => some (wordG 0x282 gd.code d.code a.code b.code 0 (1024 * ty.code + 4 * tok.toNat))
  | .stl gd ty d a b => some (wordG 0x283 gd.code d.code a.code b.code 0 (1024 * ty.code))
  | .ldp gd ty tok d a b => some (wordG 0x284 gd.code d.code a.code b.code 0 (1024 * ty.code + 4 * tok.toNat))
  | .lda gd ty sc ord tok sp d a b => some (wordG 0x285 gd.code d.code a.code b.code 0 (1024 * ty.code + 128 * sc.code + 32 * ord.code + 4 * tok.toNat + 2 * sp.code))
  | .sta gd ty sc ord sp d a b => some (wordG 0x286 gd.code d.code a.code b.code 0 (1024 * ty.code + 128 * sc.code + 32 * ord.code + 2 * sp.code))
  | .pref gd a b => some (wordG 0x287 gd.code 0 a.code b.code 0 0)
  | .atomAdd gd ty sc ord tok sp d a b => some (wordG 0x288 gd.code d.code a.code b.code 0 (1024 * ty.code + 128 * sc.code + 32 * ord.code + 4 * tok.toNat + 2 * sp.code))
  | .atomMin gd ty sc ord tok sp d a b => some (wordG 0x289 gd.code d.code a.code b.code 0 (1024 * ty.code + 128 * sc.code + 32 * ord.code + 4 * tok.toNat + 2 * sp.code))
  | .atomMax gd ty sc ord tok sp d a b => some (wordG 0x28A gd.code d.code a.code b.code 0 (1024 * ty.code + 128 * sc.code + 32 * ord.code + 4 * tok.toNat + 2 * sp.code))
  | .atomAnd gd ty sc ord tok sp d a b => some (wordG 0x28B gd.code d.code a.code b.code 0 (1024 * ty.code + 128 * sc.code + 32 * ord.code + 4 * tok.toNat + 2 * sp.code))
  | .atomOr gd ty sc ord tok sp d a b => some (wordG 0x28C gd.code d.code a.code b.code 0 (1024 * ty.code + 128 * sc.code + 32 * ord.code + 4 * tok.toNat + 2 * sp.code))
  | .atomXor gd ty sc ord tok sp d a b => some (wordG 0x28D gd.code d.code a.code b.code 0 (1024 * ty.code + 128 * sc.code + 32 * ord.code + 4 * tok.toNat + 2 * sp.code))
  | .atomExch gd ty sc ord tok sp d a b => some (wordG 0x28E gd.code d.code a.code b.code 0 (1024 * ty.code + 128 * sc.code + 32 * ord.code + 4 * tok.toNat + 2 * sp.code))
  | .atomFadd gd sc ord tok sp d a b => some (wordG 0x28F gd.code d.code a.code b.code 0 (8192 + 128 * sc.code + 32 * ord.code + 4 * tok.toNat + 2 * sp.code))
  | .cas gd ty sc ord tok sp d a b c => some (wordG 0x290 gd.code d.code a.code b.code c.code (1024 * ty.code + 128 * sc.code + 32 * ord.code + 4 * tok.toNat + 2 * sp.code))
  | .casw gd sc ord tok sp d a b c => some (wordG 0x291 gd.code d.code a.code b.code c.code (128 * sc.code + 32 * ord.code + 4 * tok.toNat + 2 * sp.code))
  | .fence gd sc ord => some (wordG 0x292 gd.code 0 0 0 0 (128 * sc.code + 32 * ord.code))
  | .twait gd mask => some (wordG 0x298 gd.code 0 0 0 0 mask.toNat)
  | .tcnt gd tok d => some (wordG 0x299 gd.code d.code 0 0 0 tok.toNat)
  | .binit gd a => some (wordG 0x2A0 gd.code 0 a.code 0 0 0)
  | .bexp gd a b c => some (wordG 0x2A1 gd.code 0 a.code b.code c.code 0)
  | .barv gd a => some (wordG 0x2A2 gd.code 0 a.code 0 0 0)
  | .btest gd d a => some (wordG 0x2A3 gd.code d.code a.code 0 0 0)
  | .bfree gd a => some (wordG 0x2A4 gd.code 0 a.code 0 0 0)
  | .ainit gd a b => some (wordG 0x2B0 gd.code 0 a.code b.code 0 0)
  | .apost gd op d a b => some (wordG 0x2B1 gd.code d.code a.code b.code 0 op.code)
  | .astep gd d a => some (wordG 0x2B2 gd.code d.code a.code 0 0 0)
  | .ares gd d => some (wordG 0x2B3 gd.code d.code 0 0 0 0)
  | .movs gd d sr => some (wordG 0x2F0 gd.code d.code sr.code 0 0 0)
  | .movsw gd sr a => some (wordG 0x2F1 gd.code sr.code a.code 0 0 0)
  | .pkset gd a b => some (wordG 0x2F2 gd.code 0 a.code b.code 0 0)
  | .cancel gd lvl hard a => some (wordG 0x2F3 gd.code 0 a.code 0 0 (lvl.code + 4 * hard.toNat))
  | .enql gd a b => some (wordG 0x2F4 gd.code 0 a.code b.code 0 0)
  | .evsig gd a b => some (wordG 0x2F5 gd.code 0 a.code b.code 0 0)
  | .ctrd gd d a => some (wordG 0x2F6 gd.code d.code a.code 0 0 0)
  | .mma gd ns ks tok a => some (wordG (0x300 + 3 * ns.code + ks.code) gd.code 0 a.code 0 0 (1024 * tok.toNat))
  | .mma16 gd ns ks tok a => some (wordG (0x309 + 3 * ns.code + ks.code) gd.code 0 a.code 0 0 (1024 * tok.toNat))
  | .mopf gd => some (wordG 0x312 gd.code 0 0 0 0 0)
  | .mzero gd tok a => some (wordG 0x313 gd.code 0 a.code 0 0 (1024 * tok.toNat))
  | .att gd exp abs acc tok a => some (wordG 0x318 gd.code 0 a.code 0 0 (exp.toNat + 2 * abs.toNat + 4 * acc.toNat + 1024 * tok.toNat))
  | .attfin gd tok d a => some (wordG 0x319 gd.code d.code a.code 0 0 (1024 * tok.toNat))
  | .latw gd tok a => some (wordG 0x31A gd.code 0 a.code 0 0 (1024 * tok.toNat))
  | .kvlook gd tok d a => some (wordG 0x320 gd.code d.code a.code 0 0 (1024 * tok.toNat))
  | .kvapp gd cmp a => some (wordG 0x321 gd.code 0 a.code 0 cmp.cCode cmp.modCode)
  | .kvfork gd cmp a => some (wordG 0x322 gd.code 0 a.code 0 cmp.cCode cmp.modCode)
  | .kvcommit gd cmp a => some (wordG 0x323 gd.code 0 a.code 0 cmp.cCode cmp.modCode)
  | .topk gd cmp a => some (wordG 0x324 gd.code 0 a.code 0 cmp.cCode cmp.modCode)
  | .cpy gd cmp a => some (wordG 0x340 gd.code 0 a.code 0 cmp.cCode cmp.modCode)
  | .cpyt gd conv cmp a => some (wordG 0x341 gd.code 0 a.code 0 cmp.cCode (conv.toNat + cmp.modCode))
  | .cpyc gd cmp a => some (wordG 0x342 gd.code 0 a.code 0 cmp.cCode cmp.modCode)
  | .cpyg gd cmp a => some (wordG 0x343 gd.code 0 a.code 0 cmp.cCode cmp.modCode)
  | .cpys gd cmp a => some (wordG 0x344 gd.code 0 a.code 0 cmp.cCode cmp.modCode)
  | .chwp gd d a => some (wordG 0x345 gd.code d.code a.code 0 0 0)
  | .rngsnd gd pkg tok a => some (wordG 0x348 gd.code 0 a.code 0 0 (pkg.toNat + 1024 * tok.toNat))
  | .rngrcv gd pkg cmp a => some (wordG 0x349 gd.code 0 a.code 0 cmp.cCode (pkg.toNat + cmp.modCode))
  | .strideIssue _ _ => none
  | .tenureEnd _ _ => none
  | .joinHoldExpiry _ _ => none
  | .wake _ _ _ => none
  | .pendingDemotion _ _ _ => none
  | .rigPromote _ _ => none
  | .forcedDemotion _ _ => none
  | .loadLands _ => none
  | .releaseWaitEnd _ _ => none
  | .faultSwap _ => none
  | .workgroupRestore _ => none
  | .workgroupPlace _ _ => none
  | .workgroupComplete _ => none
  | .preempt _ => none
  | .commandAccept _ => none
  | .commandComplete _ _ => none
  | .copyChunkDeliver _ _ => none
  | .ringBlockArrive _ => none
  | .ringCreditReturn _ => none
  | .readMissGrant _ _ _ => none
  | .invalidation _ => none
  | .translationInvalidation _ => none
  | .sharerAckTimeout _ => none
  | .sliceNoResponse _ _ => none
  | .sliceTakeover _ _ => none
  | .takeoverLeaseEnd _ _ => none
  | .migrationRequest _ => none
  | .migrationHoldExpiry _ _ => none
  | .linkReservationExpiry _ => none
  | .refusalEntryExpiry _ _ => none
  | .linkDeclaredDead _ => none
  | .launchRecordTaken _ _ => none
  | .admissionResume _ => none
  | .snapshot _ => none
  | .launchEnd _ => none
  | .sliceEnd _ => none
  | .drainBudgetExpiry _ _ => none
  | .drainEnd _ _ => none
  | .rollback _ => none
  | .uncorrectableError _ => none
  | .ageingMeasure _ _ => none
  | .dieDead _ => none
  | .blulysDeclareDead _ => none
  | .kill _ _ _ => none
  | .hostMemoryWrite _ _ => none
  | .hostMemoryRead _ _ => none
  | .fabricReceive _ _ _ => none
  | .relayStart _ => none
  | .relayAbort _ => none
  | .relayDrainEnd _ => none
  | .relayStreamReceived _ => none
  | .relayAck _ => none
  | .hostSoftCancel _ _ _ => none
  | .hostHardCancel _ _ _ => none
  | .migreqRequest _ _ => none
  | .migreqMoveDone _ _ => none
  | .migrspRead _ => none
  | .ctxtWrite _ _ _ _ => none
  | .evcWrite _ _ _ => none
  | .nqtailWrite _ _ => none
  | .registerWrite _ _ _ => none
  | .start _ => none
  | .dieEntersService _ => none
  | .storePerformed _ => none
  | .launchEndResume _ => none
  | .trainingFailed _ => none
  | .fenceCleared _ => none
  | .pcieLinkUp _ => none
  | .preCopyRoundEnd _ => none
  | .relayRefusal _ => none
  | .sramUncorrectableError _ => none

/-- The 64-bit word of an instruction. -/
def encode (i : Instr) : Option Dword := (encodeNat i).map (BitVec.ofNat 64)

/-- The opcodes that R68 assigns, as ranges. -/
def assignedRanges : List (Nat × Nat) :=
  [(0x000, 0x004), (0x006, 0x008), (0x00A, 0x00A), (0x00C, 0x00C), (0x00E, 0x00E), (0x010, 0x010), (0x012, 0x016), (0x018, 0x018), 
   (0x01A, 0x01A), (0x020, 0x029), (0x030, 0x038), (0x040, 0x040), (0x042, 0x042), (0x044, 0x044), (0x046, 0x046), (0x048, 0x048), 
   (0x04A, 0x04A), (0x050, 0x050), (0x052, 0x053), (0x055, 0x055), (0x058, 0x058), (0x05A, 0x05C), (0x05E, 0x05E), (0x100, 0x100), 
   (0x102, 0x102), (0x104, 0x104), (0x106, 0x106), (0x108, 0x108), (0x10A, 0x10A), (0x10C, 0x10C), (0x10E, 0x10E), (0x110, 0x110), 
   (0x112, 0x112), (0x120, 0x120), (0x122, 0x122), (0x124, 0x124), (0x128, 0x128), (0x12A, 0x12A), (0x140, 0x140), (0x142, 0x142), 
   (0x144, 0x144), (0x146, 0x146), (0x148, 0x148), (0x160, 0x160), (0x162, 0x162), (0x164, 0x164), (0x166, 0x166), (0x168, 0x168), 
   (0x16A, 0x16A), (0x16C, 0x16C), (0x16E, 0x16E), (0x180, 0x180), (0x182, 0x182), (0x184, 0x184), (0x186, 0x186), (0x188, 0x188), 
   (0x200, 0x200), (0x202, 0x202), (0x204, 0x204), (0x206, 0x206), (0x208, 0x208), (0x20A, 0x20A), (0x20C, 0x20C), (0x20E, 0x20E), 
   (0x210, 0x210), (0x212, 0x212), (0x214, 0x214), (0x280, 0x292), (0x298, 0x299), (0x2A0, 0x2A4), (0x2B0, 0x2B3), (0x2F0, 0x2F6), 
   (0x300, 0x313), (0x318, 0x31A), (0x320, 0x324), (0x340, 0x345), (0x348, 0x349)]

/-- Whether R68 assigns an opcode. -/
def assigned (opc : Nat) : Bool := assignedRanges.any fun r => r.1 ≤ opc && opc ≤ r.2

/-- The decoder on numbers below 2 ^ 64: the fields name an instruction, and the word must be exactly
the word of that instruction, so every reserved field is zero (R61). -/
def decodeNat (w : Nat) : Decoded :=
  match build (fieldsOf w) with
  | some i => if i.wf && encodeNat i == some w then .ok i else .reject .reserved
  | none =>
    let opc := w / 2 ^ 54
    if 0x2D0 ≤ opc && opc < 0x2F0 then .reject .magic
    else if assigned opc then .reject .reserved
    else .reject .unassigned

/-- The decoder: checks 2 and 5 of R70. -/
def decode (w : Dword) : Decoded := decodeNat w.toNat

/-- The decoder as the host asks it: bit 0 of the opcode table is bit 0 of the one 64-bit word, which
the hardware stores little-endian (R4, R55). Every instruction is one word, so the bits above `_nbits`
are those of `w`. -/
def decodeTableWord (_nbits w : Nat) : Option Instr :=
  match decode (BitVec.ofNat 64 w) with
  | .ok i => some i
  | .reject _ => none

end Sys2Proof
end

