-- ==== Sys2Proof/Machine/State.lean ====
section
/-! DEFINITION. The state of the machine as plain data, the reasons a step can stop, and the state after
reset. Each field cites the rule that gives it; INVENTORY.md lists them. -/

namespace Sys2Proof.Machine

/-- Reasons a step stops the machine. -/
inductive Fault where
  /-- An access reached a physical address that R290 says does not exist: region 0b11, or a LOCAL offset
  at or above 384 GiB. Raised by `checkPa`. Safe: the spec gives such an address no behaviour. -/
  | noSuchAddress (pa : Nat)
  deriving DecidableEq, Repr

/-- Reasons an instruction has no meaning. -/
inductive Refusal where
  /-- The arm of `exec` for an instruction that is not modelled. Raised by `exec` alone. Safe. -/
  | notModelled (mnemonic : String)
  deriving DecidableEq, Repr

/-- A wake condition of YIELD (R34, R163). -/
inductive Wake where
  | phase (slot : Nat) (ph : Bool)
  | token (k : Nat)
  | wptr (chan : Nat) (val : Word)
  deriving DecidableEq, Repr

/-- Whether the thread of a lane exists, runs, is parked or has ended (R24, R34, R162). -/
inductive Life where
  | absent
  | running
  | parked (w : Wake)
  | exited
  deriving DecidableEq, Repr

/-- The row state of a row of a tile set (R253). -/
structure RowState where
  m : Word
  l : Word
  nan : Bool
  clmp : Bool
  deriving DecidableEq, Repr

/-- The reset value of a row state (R253). -/
def RowState.reset : RowState := ⟨0xFF800000#32, 0#32, false, false⟩

/-- One thread, or one physical lane under protected launch mode (R23, R349). -/
structure Thread where
  life : Life
  /-- Program counter (R23), and the slot at which a resumed stride goes on (R168, R50). -/
  pc : Dword
  slot : Option Nat
  /-- The thread was saved in the middle of a stride: it goes on at `slot` with no wait and no issue of its
  header (R50, R330), unlike one that TRET has sent back (R168). -/
  restored : Bool
  /-- The bay cycle at which the program counter became ready (R28). -/
  age : Nat
  /-- p0 to p7; p7 reads as 1 (R63). -/
  preds : BitVec 8
  /-- g0 to g255 (R63), t0 to t7 (R50). -/
  regs : Map Word
  temps : Map Word
  /-- On-chip return entries, the top first, and SPILLED (R159). -/
  stack : List Dword
  spilled : Nat
  /-- A refill load is outstanding (R160). -/
  refill : Bool
  inHandler : Bool
  /-- The stochastic register as it stood when the trap was delivered, which TRET brings back (R106, log entry 93). -/
  trapLfsr : Word
  /-- Thread counts of k0 to k7 (R183). -/
  tok : Map Nat
  status : Word
  lfsr : Word
  /-- %readfloor, and the latest publication time returned to the thread (R189, R195). -/
  readfloor : Nat
  seenPub : Nat
  /-- Row of each tile set: element (set, column) at key 128 × set + column (R63), its row state by set
  (R253), and the values that vector writes which no MOPF has ordered replaced, the latest first (R252). -/
  rows : Map Word
  rowst : Map RowState
  accOld : Map (List Word)
  deriving DecidableEq, Repr

/-- A lane that holds no thread (R24). -/
def Thread.absent : Thread :=
  { life := .absent, pc := 0#64, slot := none, restored := false, age := 0, preds := 0x80#8, regs := [], temps := [],
    stack := [], spilled := 0, refill := false, inHandler := false, trapLfsr := 0#32, tok := [], status := 0#32,
    lfsr := 1#32, readfloor := 0, seenPub := 0, rows := [], rowst := [], accOld := [] }

/-- A command on tile sets that has completed, the lanes whose threads have not waited for its token since, and
whether one of them has reached the tile sets meanwhile (R218). -/
structure AccWindow where
  sets : List Nat
  tok : Nat
  lanes : List Nat
  touched : Bool
  deriving DecidableEq, Repr

/-- A rig: its 64 lanes, rig counts (R183), %aset (R170), %rowprog (R251), its bay (R26), the bay cycle
of its last issue, that of its latest stride (R36, log entry 87), and the bay cycle at which it became ready
while pending (R36). -/
structure Rig where
  threads : List Thread
  tok : Map Nat
  /-- For each token, the latest publication time that the completed commands of it have read: a thread that
  waits for the token reads no older value after its wait (R215, R218). -/
  tokPub : Map Nat
  windows : List AccWindow
  /-- The lanes whose wake condition has held since they were parked (R34, R163). -/
  due : List Nat
  aset : Word
  rowprog : Word
  bay : Nat
  lastIssue : Nat
  ready : Option Nat
  deriving DecidableEq, Repr

/-- The kinds of a replay entry (R306). -/
inductive ReplayKind where
  | instr | spill | refill | tframe | cvtxe
  deriving DecidableEq, Repr

/-- An entry of a replay list (R306). `word` holds the instruction word of INSTR entries, `perm` the key
permissions of the issuing slot (R293). `pc` and `slot` are the place of the access, for a trap when it is
performed. -/
structure Replay where
  kind : ReplayKind
  rig : Nat
  lane : Nat
  word : Dword
  addr : Nat
  data : List Byte
  perm : Dword
  pc : Dword
  slot : Nat
  /-- The number of the slot that issued it (R182). -/
  issue : Nat
  /-- For a spill or a refill, the return stack and SPILLED as they were before the instruction (R160). -/
  stack : Option (List Dword × Nat)
  deriving DecidableEq, Repr

/-- Whether a workgroup runs, waits for its swap at the struck slot (R181) or, when a command stopped, at
the stride boundaries of its rigs (R246), is swapped out (R40), or is restored and waits for the places of
its stopped commands (R246). -/
inductive WgPhase where
  | running
  | swapPending
  | stopPending
  | swapped
  | resuming
  deriving DecidableEq, Repr

/-- A slice of a collective that the copy engine holds (R270). -/
structure Slice where
  coll : Nat
  rig : Nat
  cmd : Nat
  slc : Nat
  deriving DecidableEq, Repr

/-- A workgroup (R23, R40). -/
structure Workgroup where
  id : Nat
  launch : Nat
  wgid : Nat
  core : Nat
  rigs : List Rig
  loft : Memory
  /-- Publication times of the loft's words (R189). -/
  loftPub : Map Nat
  /-- The live barrier slots, by offset / 16 (R197). -/
  live : List Nat
  /-- For each barrier slot, by offset / 16, the floor that its arrivals and landings have brought with them and
  that an observer of a flip takes: of the current phase, and of those that have flipped (R216, R219). -/
  slotPub : Map (Nat × Nat)
  chans : Map Word
  pkperm : Dword
  slices : List Slice
  /-- The replay list, and the stores of trap frames and CVTX entries that a full list has turned away: they are taken
  again after the restore (R306). -/
  replay : List Replay
  again : List Replay
  phase : WgPhase
  /-- A hard cancel ended threads or stopped commands of it, so that it does not complete (R38, R326). -/
  ended : Bool
  /-- The watched table lines, and the virtual addresses that faulted on them (R305). -/
  watches : List Nat
  faults : List Nat
  /-- The context frame in the pool: its address, and the bytes as they were written (R327). -/
  frame : Option (Nat × List Byte)
  deriving DecidableEq, Repr

/-- A lane of a rig of a workgroup. -/
structure LaneRef where
  wg : Nat
  rig : Nat
  lane : Nat
  deriving DecidableEq, Repr

/-- One slot of an issuing stride: a word, a dictionary code that names nothing, or a filler (R47, R51). -/
inductive SlotWord where
  | word (w : Dword)
  | badCode
  | filler
  deriving DecidableEq, Repr

/-- A group of lanes that issues a stride together (R29, R30). -/
structure Group where
  lanes : List LaneRef
  /-- Code space (the dictionary slot) and header address. -/
  kslot : Nat
  pc : Dword
  ecls : Nat
  /-- Bytes of the stride (R47). -/
  size : Nat
  words : List SlotWord
  /-- The slot to issue, clocks spent on it, and whether it stalls (R30, R33, R47). -/
  slot : Nat
  clock : Nat
  stalled : Bool
  /-- The slot goes on at the next clock (R158). -/
  more : Bool
  /-- Bay cycles of the tenure, and the age at which the group rejoins (R30). -/
  tenure : Nat
  age : Nat
  /-- The stride has spent a clock (R47). -/
  spent : Bool
  /-- The lanes whose part of the slot is already done, while the slot is held (R158, R173, R245). -/
  served : List LaneRef
  /-- What a lane's instruction of several accesses has read so far (R234). -/
  work : List Nat
  /-- Number of the slot's first issue, by which its accesses are known (R182). -/
  issue : Nat
  /-- The lines that have counted as L1 misses of the slot, with their functions (R330). -/
  missed : List (Nat × Nat)
  /-- The temporaries of the lanes as they stood before the slot (R167). -/
  before : List (LaneRef × Map Word)
  deriving DecidableEq, Repr

/-- A team that arrived at a stride with the join hint: code space, header, the team, and the bay cycle at which it
became ready (R32). -/
structure Hold where
  kslot : Nat
  pc : Dword
  team : LaneRef
  since : Nat
  expired : Bool
  deriving DecidableEq, Repr

/-- A bay: active set, pending set, port, cut groups, join holds, and its cycle count (R28 to R32). -/
structure Bay where
  active : List (Option (Nat × Nat))
  pending : List (Option (Nat × Nat))
  port : Option Group
  cut : List Group
  holds : List Hold
  cycle : Nat
  deriving DecidableEq, Repr

/-- A dictionary slot: kernel image, code section, frame map, captured code and dictionary (R27, R44,
R51). The slot is free when no workgroup of the image is on the core. -/
structure KSlot where
  kimg : Nat
  base : Nat
  len : Nat
  heads : List Nat
  code : List Dword
  dict : List Dword
  deriving DecidableEq, Repr

/-- A latent-stage bank: launch that loaded it, its shape and format, WK and WV by row, and, while a LATW
is loading it, that command and the weights it replaces (R258). -/
structure Bank where
  launch : Nat
  dc : Nat
  dh : Nat
  fmt : Nat
  wk : List (List Nat)
  wv : List (List Nat)
  loading : Option Nat
  oldFmt : Nat
  oldWk : List (List Nat)
  oldWv : List (List Nat)
  deriving DecidableEq, Repr

/-- A core (R14). -/
structure Core where
  bays : List Bay
  binit : BitVec 16
  kslots : List (Option KSlot)
  banks : List (Option Bank)
  grids : List Nat
  fenced : Bool
  deriving DecidableEq, Repr

/-- A translation context instance (R294): virtual function, context number, generation. -/
structure CtxTag where
  vf : Nat
  ctx : Nat
  gen : Nat
  deriving DecidableEq, Repr

/-- A launch's copy of its translation context (R311). -/
structure CtxCopy where
  tag : CtxTag
  root : Nat
  objt : Nat
  dbm : Nat
  dlo : Nat
  dhi : Nat
  deriving DecidableEq, Repr

/-- Caches of data lines (R301): the L1 of a core, or the L2 of a die. -/
inductive Holder where
  | l1 (core : Nat)
  | l2 (die : Nat)
  deriving DecidableEq, Repr

/-- The home's latest grant to a holder of a line (R301). -/
structure Grant where
  holder : Holder
  line : Nat
  number : Nat
  start : Nat
  stop : Nat
  deriving DecidableEq, Repr

/-- The directory's record that a core has published a line under a scope narrower than dev (R226). -/
structure Narrow where
  core : Nat
  line : Nat
  scope : Scope
  deriving DecidableEq, Repr

/-- A cached copy of a line: its grant, lease and bytes, and whether a sector of it is bad (R301, R341). -/
structure Copy where
  holder : Holder
  line : Nat
  number : Nat
  start : Nat
  stop : Nat
  /-- Publication times of the line's 32 words (R189). -/
  pub : List Nat
  bytes : List Byte
  /-- Its bad sectors. -/
  bad : List Nat
  deriving DecidableEq, Repr

/-- An invalidation in flight: holder, line, grant number, and the start of that grant (R301, R302). -/
structure Inval where
  id : Nat
  holder : Holder
  line : Nat
  number : Nat
  start : Nat
  deriving DecidableEq, Repr

/-- Translation caches (R294): L1 TLB, L2 TLB and walk cache of a die, relay TLB. -/
inductive TUnit where
  | l1 (core : Nat)
  | l2 (die : Nat)
  | walk (die : Nat)
  | relay (engine : Nat)
  deriving DecidableEq, Repr

/-- A translation cache entry: the level and index it answers, the entry, and the table lines that it
was walked through (R294, R295). -/
structure TlbEntry where
  unit : TUnit
  tag : CtxTag
  level : Nat
  vpn : Nat
  entry : Nat
  entryPa : Nat
  lines : List Nat
  deriving DecidableEq, Repr

/-- A translation invalidation in flight (R295): the cache, the line, and when it was sent. -/
structure TInval where
  id : Nat
  unit : TUnit
  line : Nat
  sent : Nat
  deriving DecidableEq, Repr

/-- Page classes (R292, R298). -/
inductive PClass where
  | priv
  | shared
  | object
  | uncached
  deriving DecidableEq, Repr

/-- Where an access goes once translated: loft offset or physical address, with its class, the longest
lease its line may take and whether the lease has that very length (R177, R300, R301); and what it is bound to
(R295): the caches that held its translation, the table lines it depends on, whether the tables hold another
translation by now, and the address of the leaf, whose D bit a write sets (R297). -/
structure Place where
  loft : Bool
  addr : Nat
  cls : PClass
  lease : Nat
  fixed : Bool
  units : List TUnit
  lines : List Nat
  stale : Bool
  leaf : Option Nat
  deriving DecidableEq, Repr

/-- What a landing load writes (R183, R184, R189, R160). -/
inductive LoadKind where
  | reg (d : Nat) (ty : Ty)
  | block (d : Nat)
  | refill
  deriving DecidableEq, Repr

/-- A load or atomic whose value has not landed (R181 to R193). `issue` numbers the slot that it was issued in: the
lanes of one slot perform their accesses in ascending order (R182). -/
structure PendingLoad where
  id : Nat
  issue : Nat
  lane : LaneRef
  launch : Nat
  core : Nat
  kind : LoadKind
  tok : Option Nat
  len : Nat
  place : Place
  /-- %readfloor at issue, and whether landing raises it (R186, R189). -/
  floor : Nat
  acq : Bool
  /-- The value and its publication time, once it has been served. -/
  served : Option (List Byte × Nat)
  /-- The L1 did not serve it (R35). -/
  long : Bool
  /-- The access is an atomic (R242). -/
  atomic : Bool
  deriving DecidableEq, Repr

/-- A store that has not been performed (R186), with the virtual address of its first byte. `issue` numbers
the slot that it was issued in: of two lanes of one store the higher writes later (R182). A write of an engine command
on its way (R204, R210) names the command, with the token that the command counts and whether the bytes carry
poison. -/
structure PendingStore where
  id : Nat
  issue : Nat
  lane : LaneRef
  launch : Nat
  core : Nat
  place : Place
  va : Nat
  data : List Byte
  /-- The scope of the store (R205). -/
  scope : Scope
  cmd : Option Nat
  tok : Option Nat
  bad : Bool
  deriving DecidableEq, Repr

/-- The write-completion times of a performed write (R186, R295, R301): the thread that waits for them, its
launch, the invalidations not yet acknowledged, and the time reached at each scope. A write of an engine command
names the command's token, and the lanes that have waited for it: their releases wait for the write (R218). -/
structure Track where
  id : Nat
  lane : Option LaneRef
  launch : Option Nat
  tok : Option Nat
  waiters : List Nat
  core : Nat
  /-- One time at every scope, over every holder (R295). -/
  wide : Bool
  pending : List Nat
  tpending : List Nat
  bounds : List Nat
  deriving DecidableEq, Repr

/-- A dirty line of a home and its mirror copy, which carries the requester and the number of the latest request
that wrote it (R303). -/
structure Mirror where
  line : Nat
  core : Option Nat
  request : Nat
  deriving DecidableEq, Repr

/-- A record that was armed while its window was enabled: function, queue, slot number and address (R313,
R314). -/
structure Armed where
  vf : Nat
  queue : Nat
  idx : Nat
  slot : Nat
  deriving DecidableEq, Repr

/-- A response to a request that arrived over the fabric: source port, request number and data (R241). -/
structure Response where
  port : Nat
  number : Nat
  data : List Byte
  deriving DecidableEq, Repr

/-- An entry of a refusal queue, and a reservation of an object (R236). -/
structure RefusedLink where
  slice : Nat
  obj : Nat
  post : Nat
  time : Nat
  deriving DecidableEq, Repr

structure Reservation where
  obj : Nat
  post : Nat
  stop : Nat
  deriving DecidableEq, Repr

/-- A slice that has been reported or fenced (R304), with the end of its blanket lease. -/
structure SliceFault where
  die : Nat
  slice : Nat
  fenced : Bool
  since : Nat
  blanket : Option Nat
  deriving DecidableEq, Repr

/-- An in-flight page of the migration arbiter (R309): the side that won it, and the virtual function of its
request. -/
structure ArbEntry where
  frame : Nat
  hostWon : Bool
  vf : Nat
  holdHost : Option Nat
  holdDev : Option Nat
  moved : Bool
  /-- The entries that REMOTE made valid, with the value stored and the value to return to. -/
  remote : List (Nat × Nat × Nat)
  deriving DecidableEq, Repr

/-- A device request to the arbiter: the migratable entry, and who faulted (R309). -/
structure MigReq where
  id : Nat
  entryPa : Nat
  frame : Nat
  launch : Nat
  wgid : Nat
  va : Nat
  time : Nat
  waiting : Bool
  deriving DecidableEq, Repr

/-- A header of a token-table chain as captured at acceptance (R280). -/
structure TableHdr where
  addr : Nat
  nblk : Nat
  fork : Nat
  clen : Nat
  dc : Nat
  form : Nat
  depth : Nat
  deriving DecidableEq, Repr

/-- The engines that hold commands (R244). -/
inductive Engine where
  | matrix
  | attention
  | copy
  deriving DecidableEq, Repr

/-- An accepted engine command with all that it captured (R60, R244 to R247). -/
structure Cmd where
  id : Nat
  instr : Instr
  engine : Engine
  lane : LaneRef
  lanes : List Nat
  launch : Nat
  core : Nat
  perm : Dword
  block : List Word
  perLane : List (Nat × Word)
  /-- The descriptor or level record as read at acceptance, or the slot image that a KVAPP has read. -/
  desc : List Byte
  chain : List TableHdr
  set : Nat
  /-- The slot address of a KVAPP, or the channel that a collective is performed on (R261, R270). -/
  target : Nat
  /-- The named token, or the slot's address and tag (R198, R200). -/
  tok : Option Nat
  bar : Option (Nat × Nat)
  /-- Units performed so far: K-groups, elements, rows or bytes. -/
  progress : Nat
  /-- It has no place in its engine (R246); it is a slice of a collective that has not started (R270). -/
  stopped : Bool
  held : Bool
  cycle : Nat
  /-- An access by a thread reached the tile sets while the command was outstanding (R218). -/
  tainted : Bool
  /-- Bytes that have landed, of a KVAPP that starts again (R246, R261). -/
  landed : Nat
  /-- Units beyond `progress` whose writes are on their way, or have been performed and not been counted (R210); the
  additions to a score table that an ATT has yet to make: address, place and share (R257, R285). `spread` stands while
  a step puts writes on their way. -/
  ahead : Nat
  adds : List (Nat × Place × Nat)
  spread : Bool
  /-- The latest publication time that its acquires have read (R280, R287), and the runs of bytes that it has read
  ahead of its other accesses, with which they have no order (R210). -/
  pub : Nat
  early : Map (Option (List Byte))
  deriving DecidableEq, Repr

/-- A ring block on its way to the next member's pool, or a credit on its way back (R274, R287). -/
structure RingMsg where
  id : Nat
  credit : Bool
  /-- The leader of the command that sent it, its launch, core and permissions. -/
  lane : LaneRef
  launch : Nat
  core : Nat
  perm : Dword
  /-- The level record it updates, and for a block the pool address and the bytes. -/
  record : Nat
  pool : Nat
  data : List Byte
  /-- The 32-byte pieces of the block that carry poison (R343), and whether the block is in the pool. -/
  bad : List Nat
  landed : Bool
  blksz : Nat
  cmd : Nat
  pkg : Bool
  /-- The Gugar port of the link that it crosses (R241). -/
  port : Option Nat
  deriving DecidableEq, Repr

/-- The fields of a launch record (R316). -/
structure LaunchRec where
  kimg : Nat
  param : Nat
  plen : Nat
  part : Nat
  gx : Nat
  gy : Nat
  gz : Nat
  tpw : Nat
  nreg : Nat
  nacc : Nat
  loftb : Nat
  seed : Nat
  handler : Nat
  board : Nat
  save : Nat
  spilld : Nat
  queue : Nat
  prio : Nat
  repl : Bool
  prot : Bool
  ident : Nat
  graph : Nat
  phase : Nat
  job : Nat
  ctx : Nat
  pkperm : Nat
  gridt : Nat
  dep0 : Nat × Nat
  dep1 : Nat × Nat
  crec : Nat
  evctr : Nat
  ncow : Nat
  cowl : Nat
  deriving DecidableEq, Repr

/-- The status of a launch (R320), in the order of its codes. -/
inductive LStatus where
  | done | refusedRecord | refusedShape | refusedImage | queueFull | cancelled | unhandledTrap
  | engineFault | indeterminate | contextLost | contained
  deriving DecidableEq, Repr

/-- Where a launch stands: admission waits for a page (R321), it waits for its counters (R323), its
snapshot is being taken (R345), it runs, or its end waits for a page (R322). -/
inductive LStage where
  | admitting
  | waiting
  | snapshotting
  | running
  | ending
  deriving DecidableEq, Repr

/-- A page of a snapshot list: virtual page, leaf, its size and marked frame, and its copy (R345 to R347). -/
structure SnapPage where
  va : Nat
  leafPa : Nat
  size : Nat
  frame : Nat
  copy : Option Nat
  /-- Software has written into the leaf since the snapshot (R348). -/
  rewritten : Bool
  deriving DecidableEq, Repr

/-- A queue entry: a launch (R314 to R325, R345 to R348). -/
structure Launch where
  id : Nat
  vf : Nat
  rcd : LaunchRec
  /-- The raw record, as admission checks it (R320). -/
  raw : List Byte
  ctx : CtxCopy
  /-- The entry point, code section and dictionary of the image (R317). -/
  entry : Nat
  codeOfs : Nat
  codeLen : Nat
  dictOfs : Nat
  dictN : Nat
  grid : List Byte
  regions : List (Nat × Nat)
  stage : LStage
  order : Nat
  /-- Device time of admission: a parameter word published later is unspecified to LDP (R187). -/
  admitted : Nat
  /-- Device time at which its dependences held, the acquire with which its threads begin (R224, R323). -/
  readyAt : Nat
  nextWg : Nat
  wgdone : Nat
  status : LStatus
  cause : Nat
  faddr : Nat
  /-- No further workgroup is placed (R325, R326). -/
  noPlace : Bool
  /-- Its workgroups stop at their next boundary (R38). -/
  hard : Bool
  repl : Bool
  rollback : Option Bool
  rollbacks : Nat
  snap : List SnapPage
  /-- The place of the snapshot list in the frame pool (R345). -/
  snapAt : Option Nat
  snapTracks : List Nat
  watches : List Nat
  /-- The launch is ended as a relayed job, without raising counters (R335). -/
  quiet : Bool
  deriving DecidableEq, Repr

/-- A notification queue (R310, R312). -/
structure Nq where
  base : Nat
  size : Nat
  head : Nat
  tail : Nat
  held : List (List Byte)
  deriving DecidableEq, Repr

/-- Four counter slots: controls and counts (R330). -/
structure Counters where
  ctl : List Nat
  cnt : List Nat
  deriving DecidableEq, Repr

/-- A virtual function (R310, R311, R314, R323, R328, R330 to R332). -/
structure Vf where
  nq : Nq
  heads : Map Nat
  frameb : Nat
  framesz : Nat
  /-- The allocated runs of the frame pool, and frames that rollbacks returned to it (R310, R347). -/
  pool : List (Nat × Nat)
  spare : List (Nat × Nat)
  ctrs : Counters
  live : Bool
  holding : List Nat
  ctxt : Map Dword
  ctxGen : Map Nat
  evc : Map Dword
  migrsp : List (Nat × Nat)
  deriving DecidableEq, Repr

/-- The physical function's registers that are not held elsewhere (R313, R328). -/
structure Pf where
  winbase : Nat
  nq : Nq
  ctrs : Counters
  svc : Map Dword
  deriving DecidableEq, Repr

/-- A drain of a function on a cluster after its slice (R329): when the budget ends, and the overrun. -/
structure Drain where
  vf : Nat
  budgetEnd : Nat
  passed : Bool
  deriving DecidableEq, Repr

/-- The turn of a cluster (R328, R329): the function served, when its slice ends, drains, owed overruns. -/
structure Turn where
  vf : Option Nat
  stop : Nat
  drains : List Drain
  owed : Map Nat
  deriving DecidableEq, Repr

/-- A mark of pre-emption on a core for a waiting launch, with its victims (R325). -/
structure Mark where
  core : Nat
  launch : Nat
  victims : List Nat
  deriving DecidableEq, Repr

/-- The phases of a relay (R333, R334). -/
inductive RelayPhase where
  | idle
  | copying
  | draining
  | sent
  | done
  deriving DecidableEq, Repr

/-- What a relay stream carries (R327, R334): a page, the frame of a swapped workgroup with its stopped
commands, a queue entry, the event counters, the end, or a section with a tag that no reader knows. The
rules give no byte layout of the payloads: the contents stand for them (log entry 15). -/
inductive Body where
  | page (va : Nat) (data : List Byte)
  | frame (w : Workgroup) (cmds : List Cmd)
  | qentry (l : Launch)
  | evc (counters : Map Dword)
  | fin
  | other (tag : Nat)
  deriving DecidableEq, Repr

/-- A section of a relay stream, the section count of its nonce, and whether its GCM tag and check values pass at
the destination (R334, R335). -/
structure Sealed where
  body : Body
  nonce : Nat
  pass : Bool
  deriving DecidableEq, Repr

/-- A relay engine (R333, R334). -/
structure Relay where
  rljob : Nat
  rldest : Nat
  rlsess : Nat
  rlrounds : Nat
  rlthr : Nat
  phase : RelayPhase
  refused : Bool
  pages : Nat
  round : Nat
  roundPages : Nat
  sections : Nat
  stream : List Sealed
  phases : List Nat
  deriving DecidableEq, Repr

/-- The ageing registers of a cluster (R339). -/
structure Age where
  birth : Nat
  meas : Nat
  drift : Nat
  cap : Nat
  deriving DecidableEq, Repr

/-- The states of a C-die (R337, R338, R352). -/
inductive DieState where
  | untrained
  | inService
  | leftOut
  | fenced
  | dead
  deriving DecidableEq, Repr

/-- A C-die: its state and its count of failed starts (R336, R337). -/
structure Die where
  state : DieState
  fails : Nat
  deriving DecidableEq, Repr

/-- The CAP fields that are not derived from the dies (R336). -/
structure Bring where
  state : Nat
  warm : Bool
  hbmStacks : Nat
  lastOk : Bool
  /-- A training or a test has failed in this start (R337). -/
  failed : Bool
  links : List Nat
  deriving DecidableEq, Repr

/-- A die-use mask of a context generation (R353). -/
structure DieUse where
  tag : CtxTag
  mask : Nat
  deriving DecidableEq, Repr


/-- One move of the schedule: not before device time `at`, a bay takes a clock (`ev = none`) or a step
of the machine happens. The model's own: it resolves every order that the spec leaves open. Log entry 5. -/
structure Move where
  time : Nat
  core : Nat
  bay : Nat
  ev : Option Instr
  deriving DecidableEq, Repr

/-- The state of the machine. -/
structure State where
  /-- Device time in ticks (R17). One count serves the module: the skew of up to 4 ticks that the rule allows
  between the C-dies is none. Log entry 88. -/
  time : Nat
  wgs : List Workgroup
  cores : List Core
  /-- Memory by physical address, and the metadata of its 32-byte sectors by address / 32: check values,
  poison marks, helped marks (R290, R341, R344, R228). -/
  mem : Memory
  chk : Map Nat
  poison : Map Bool
  helped : Map Bool
  /-- Publication times of the values in memory, by word (R189). -/
  pub : Map Nat
  loads : List PendingLoad
  stores : List PendingStore
  tracks : List Track
  copies : List Copy
  grants : List Grant
  grantNo : BitVec 16
  /-- The lines that cores have published under a scope narrower than dev, and no wider acquire has taken since (R226). -/
  narrow : List Narrow
  invals : List Inval
  tlb : List TlbEntry
  tinvals : List TInval
  refusals : List RefusedLink
  resvs : List Reservation
  /-- Dirty lines of the homes in the order in which they became dirty (R303). -/
  dirty : List Mirror
  sliceFaults : List SliceFault
  arb : List ArbEntry
  migReqs : List MigReq
  /-- The pages with a fault record written and not resolved, by context (R312). -/
  reported : List (CtxCopy × Nat)
  armed : List Armed
  responses : List Response
  deadLinks : List Nat
  cmds : List Cmd
  ringMsgs : List RingMsg
  launches : List Launch
  vfs : List Vf
  pf : Pf
  msix : List (Nat × Nat)
  turns : List Turn
  marks : List Mark
  /-- Frames that a snapshot list protects, by frame address (R345, R346). -/
  snapMarks : List (Nat × Nat)
  relays : List Relay
  /-- Relay streams that have arrived: relay engine, function and sections (R335). -/
  inbox : List (Nat × Nat × List Sealed)
  age : List Age
  dieUse : List DieUse
  /-- The context generations that are being killed (R354). -/
  kills : List CtxTag
  dies : List Die
  bring : Bring
  /-- The model's own fields: the schedule, the bay that acts, the counter of free values, serial
  numbers, and why the machine stops (log entries 5, 6 and 7). -/
  moves : List Move
  focus : Nat × Nat
  fresh : Nat
  serial : Nat
  halt : Option Fault
  deriving DecidableEq, Repr

end Sys2Proof.Machine

namespace Sys2Proof.Config

/-- The relay streams that other modules send: relay engine, function and sections (R335). Log entry 15. -/
opaque arrivedStream : Nat → Nat × Nat × List Machine.Sealed

end Sys2Proof.Config

namespace Sys2Proof.Machine

/-- A bay with nothing in it. -/
def Bay.reset : Bay :=
  { active := List.replicate Config.activeSlots none, pending := List.replicate Config.pendingSlots none,
    port := none, cut := [], holds := [], cycle := 0 }

/-- A core with nothing in it. -/
def Core.reset : Core :=
  { bays := List.replicate 4 Bay.reset, binit := 0#16, kslots := List.replicate 4 none,
    banks := List.replicate 4 none, grids := [], fenced := false }

/-- NQSIZE is 4 after reset (R310); the other registers have no reset value: zero, log entry 3. -/
def Nq.reset : Nq := { base := 0, size := 4, head := 0, tail := 0, held := [] }

def Counters.reset : Counters := { ctl := [0, 0, 0, 0], cnt := [0, 0, 0, 0] }

def Vf.reset : Vf :=
  { nq := Nq.reset, heads := [], frameb := 0, framesz := 0, pool := [], spare := [], ctrs := Counters.reset,
    live := false, holding := [0, 0, 0, 0], ctxt := [], ctxGen := [], evc := [], migrsp := [] }

/-- The machine right after reset: no launch, no workgroup, no C-die in service (R336), CAP of every
cluster 76 (R339), every service record zero (R313). -/
def State.reset : State :=
  { time := 0, wgs := [], cores := List.replicate Config.cores Core.reset, mem := [], chk := [],
    poison := [], helped := [], pub := [], loads := [], stores := [], tracks := [], copies := [], grants := [],
    grantNo := 0#16, narrow := [], invals := [], tlb := [], tinvals := [], refusals := [], resvs := [], dirty := [],
    sliceFaults := [], arb := [], migReqs := [], reported := [], armed := [], responses := [], deadLinks := [], cmds := [], ringMsgs := [],
    launches := [], vfs := List.replicate 32 Vf.reset,
    pf := { winbase := 0, nq := Nq.reset, ctrs := Counters.reset, svc := [] }, msix := [],
    turns := List.replicate 24 { vf := none, stop := 0, drains := [], owed := [] }, marks := [],
    snapMarks := [],
    relays := List.replicate 2
      { rljob := 0, rldest := 0, rlsess := 0, rlrounds := 0, rlthr := 0, phase := .idle,
        refused := false, pages := 0, round := 0, roundPages := 0, sections := 0, stream := [],
        phases := [] },
    inbox := [], age := List.replicate 24 { birth := 0, meas := 0, drift := 0, cap := 76 },
    dieUse := [], kills := [], dies := List.replicate 4 { state := .untrained, fails := 0 },
    bring := { state := 0, warm := false, hbmStacks := 0, lastOk := false, failed := false, links := [] },
    moves := [], focus := (0, 0), fresh := 0, serial := 1, halt := none }

end Sys2Proof.Machine
end

