-- ==== Sys2Proof/Machine/Access.lean ====
section
/-! DEFINITION. Named reads and updates of the state: workgroups, rigs, threads, cores, bays, launches. -/

namespace Sys2Proof.Machine

/-- The workgroup with a serial number. -/
def State.wg? (s : State) (id : Nat) : Option Workgroup := s.wgs.find? fun w => w.id == id

/-- The rig of a lane. -/
def State.rig? (s : State) (wg rig : Nat) : Option Rig := (s.wg? wg).bind fun w => w.rigs[rig]?

/-- The thread of a lane; a lane of nothing holds no thread. -/
def State.thread (s : State) (l : LaneRef) : Thread :=
  ((s.rig? l.wg l.rig).bind fun r => r.threads[l.lane]?).getD Thread.absent

/-- Update a workgroup. -/
def State.setWg (s : State) (id : Nat) (f : Workgroup → Workgroup) : State :=
  { s with wgs := s.wgs.map fun w => if w.id == id then f w else w }

/-- Update a rig. -/
def State.setRig (s : State) (wg rig : Nat) (f : Rig → Rig) : State :=
  s.setWg wg fun w => { w with rigs := modifyAt w.rigs rig f }

/-- Update every rig, given its workgroup and number. -/
def State.mapRigs (s : State) (f : Nat → Nat → Rig → Rig) : State :=
  { s with wgs := s.wgs.map fun w => { w with rigs := w.rigs.mapIdx fun r q => f w.id r q } }

/-- Update a thread. -/
def State.setThread (s : State) (l : LaneRef) (f : Thread → Thread) : State :=
  s.setRig l.wg l.rig fun r => { r with threads := modifyAt r.threads l.lane f }

/-- Update the threads of several lanes, the lower ones first. -/
def State.setThreads (s : State) (ls : List LaneRef) (f : LaneRef → Thread → Thread) : State :=
  ls.foldl (fun s l => s.setThread l (f l)) s

/-- The core with a number. -/
def State.core (s : State) (c : Nat) : Core := s.cores[c]?.getD Core.reset

/-- Update a core. -/
def State.setCore (s : State) (c : Nat) (f : Core → Core) : State :=
  { s with cores := modifyAt s.cores c f }

/-- A bay of a core. -/
def State.bay (s : State) (c b : Nat) : Bay := (s.core c).bays[b]?.getD Bay.reset

/-- Update a bay. -/
def State.setBay (s : State) (c b : Nat) (f : Bay → Bay) : State :=
  s.setCore c fun k => { k with bays := modifyAt k.bays b f }

/-- The group that holds the issue port of the bay that acts. -/
def State.group? (s : State) : Option Group := (s.bay s.focus.1 s.focus.2).port

/-- Update the group that holds the issue port of the bay that acts. -/
def State.setGroup (s : State) (f : Group → Group) : State :=
  s.setBay s.focus.1 s.focus.2 fun b => { b with port := b.port.map f }

/-- The launch with a serial number. -/
def State.launch? (s : State) (id : Nat) : Option Launch := s.launches.find? fun l => l.id == id

/-- Update a launch. -/
def State.setLaunch (s : State) (id : Nat) (f : Launch → Launch) : State :=
  { s with launches := s.launches.map fun l => if l.id == id then f l else l }

/-- The launch of a workgroup. -/
def State.launchOf? (s : State) (wg : Nat) : Option Launch :=
  (s.wg? wg).bind fun w => s.launch? w.launch

/-- A virtual function. -/
def State.vf (s : State) (v : Nat) : Vf := s.vfs[v]?.getD Vf.reset

/-- Update a virtual function. -/
def State.setVf (s : State) (v : Nat) (f : Vf → Vf) : State := { s with vfs := modifyAt s.vfs v f }

/-- A fresh serial number. -/
def State.take (s : State) : Nat × State := (s.serial, { s with serial := s.serial + 1 })

/-- The die and the cluster of a core (R15). -/
def dieOf (core : Nat) : Nat := core / Config.coresPerDie
def clusterOf (core : Nat) : Nat := core / Config.coresPerCluster

/-- Registers per thread n, tile sets s and loft bytes b of a launch (R20); 0 without a launch. -/
def Launch.loft (l : Launch) : Nat := l.rcd.loftb

/-- Whether a workgroup's launch runs in protected mode (R349). -/
def State.prot (s : State) (wg : Nat) : Bool := ((s.launchOf? wg).map fun l => l.rcd.prot).getD false

/-- The visible lane of a physical lane (R349). -/
def visLane (prot : Bool) (lane : Nat) : Nat := if prot then lane / 2 else lane

/-- Visible lanes of a rig (R24, R349). -/
def visWidth (prot : Bool) : Nat := if prot then 32 else 64

/-- %tid of a lane (R24, R349). -/
def State.tidOf (s : State) (l : LaneRef) : Nat :=
  let p := s.prot l.wg
  visWidth p * l.rig + visLane p l.lane

/-- Bytes of a thread's save area (R319). -/
def saveStride (spilld : Nat) : Nat := 128 * ((128 + 8 * spilld + 127) / 128)

/-- %tframe of a lane (R319). -/
def State.tframe (s : State) (l : LaneRef) : Nat :=
  match s.wg? l.wg, s.launchOf? l.wg with
  | some w, some k =>
    (k.rcd.save + saveStride k.rcd.spilld * (w.wgid * k.rcd.tpw + s.tidOf l)) % 2 ^ 64
  | _, _ => 0

/-- %cspill of a lane (R159). -/
def State.cspill (s : State) (l : LaneRef) : Nat := (s.tframe l + 128) % 2 ^ 64

/-- Rig count of a token (R183). -/
def State.rigTok (s : State) (wg rig k : Nat) : Nat :=
  ((s.rig? wg rig).map fun r => Map.get 0 r.tok k).getD 0

/-- The value of a token as a thread sees it: rig count plus its own count (R183). -/
def State.tokView (s : State) (l : LaneRef) (k : Nat) : Nat :=
  s.rigTok l.wg l.rig k + Map.get 0 (s.thread l).tok k

/-- Change the thread count of a token. -/
def Thread.addTok (t : Thread) (k : Nat) (up : Bool) : Thread :=
  let v := Map.get 0 t.tok k
  { t with tok := Map.set 0 t.tok k (if up then v + 1 else v - 1) }

/-- Change the rig count of a token. -/
def Rig.addTok (r : Rig) (k : Nat) (up : Bool) : Rig :=
  let v := Map.get 0 r.tok k
  { r with tok := Map.set 0 r.tok k (if up then v + 1 else v - 1) }

/-- A live thread is one that exists and has not exited. -/
def Thread.alive (t : Thread) : Bool :=
  match t.life with
  | .running | .parked _ => true
  | .absent | .exited => false

/-- The lanes 0 to 63 of a rig. -/
def rigLanes (wg rig : Nat) : List LaneRef := (List.range 64).map fun i => ⟨wg, rig, i⟩

/-- The lanes of a rig that hold a live thread. -/
def State.liveLanes (s : State) (wg rig : Nat) : List LaneRef :=
  (rigLanes wg rig).filter fun l => (s.thread l).alive

/-- The lane numbers of some lanes in one rig. -/
def lanesIn (ls : List LaneRef) (wg rig : Nat) : List Nat :=
  (ls.filter fun l => l.wg == wg && l.rig == rig).map LaneRef.lane

/-- Stop the machine (log entry 7). -/
def State.stop (s : State) (f : Fault) : State :=
  { s with halt := some (s.halt.getD f) }

/-- The outcome of a meaning: the state it leaves, unless it reached an address that does not exist. -/
def conclude (s : State) : Host.Outcome State Fault Refusal :=
  match s.halt with
  | none => .next s
  | some f => .fault f

end Sys2Proof.Machine
end

