-- ==== Sys2Proof/Machine/Flags.lean ====
section
/-! DEFINITION. The sticky status word (R108), the stochastic register (R106, R107), and the status that
each kind of arithmetic records (R105, R116, R139). -/

namespace Sys2Proof

/-- Whether a zero sum of unlike signs is negative (R96). -/
def Rnd.zeroNeg : Rnd → Bool
  | .rd => true
  | .rne | .rz | .ru | .rs => false

namespace Machine

/-- Set status bits; the arithmetic instructions never clear one (R108). -/
def Thread.raise (t : Thread) (fl : Nat) : Thread :=
  { t with status := t.status ||| BitVec.ofNat 32 (fl % 64) }

/-- One draw from the register (R107): the new state is the random value. -/
def Thread.draw (t : Thread) (mode : Rnd) : Nat × Thread :=
  match mode with
  | .rs => ((lfsrStep t.lfsr).toNat, { t with lfsr := lfsrStep t.lfsr })
  | .rne | .rz | .ru | .rd => (0, t)

/-- Round the exact result of an operation: the canonical NaN for NaN, with NV when no operand was NaN
(R95, R108, R139), else the rounding of R104. -/
def roundResult (f : Fmt) (mode : Rnd) (rand : Nat) (anyNan : Bool) (x : Num) : Nat × Nat :=
  if x.isNan then (f.canonNan, if anyNan then 0 else flagNV) else roundNum f mode rand x

/-- The sum of exact terms as an instruction rounds it (R116). -/
def sumResult (f : Fmt) (mode : Rnd) (rand : Nat) (anyNan : Bool) (terms : List Num) : Nat × Nat :=
  roundResult f mode rand anyNan (Num.sum mode.zeroNeg terms)

/-- Write predicate i; p7 is never written (R63). -/
def Thread.setPred (t : Thread) (i : Nat) (v : Bool) : Thread :=
  if i = 7 then t
  else if v then { t with preds := t.preds ||| BitVec.ofNat 8 (2 ^ i) }
  else { t with preds := t.preds &&& ~~~(BitVec.ofNat 8 (2 ^ i)) }

/-- Read predicate i; p7 reads as true (R55, R63). -/
def Thread.pred (t : Thread) (i : Nat) : Bool := i == 7 || t.preds.getLsbD i

end Machine

/-- Whether a lane's guard is true (R66). -/
def Guard.holds (g : Guard) (t : Machine.Thread) : Bool := t.pred g.pred.toNat != g.neg

end Sys2Proof
end

