-- ==== Sys2Proof/Machine/Operands.lean ====
section
/-! DEFINITION. Operands: their legality against n and s (check 6 of R70), and every way of reading and
writing them (R63 to R65, R178, R184, R218, R243). -/

namespace Sys2Proof

/-! Legality. -/

/-- A 32-bit source (R63). -/
def Opnd.src (n s : Nat) : Opnd → Bool
  | .g r => decide (r.toNat < n)
  | .a _ => decide (0 < s)
  | .t _ => true
  | .p _ => true
  | .c _ => true
  | .bad _ => false

/-- A 64-bit source (R65). -/
def Opnd.src64 (n : Nat) : Opnd → Bool
  | .g r => decide (r.toNat % 2 = 0 ∧ r.toNat + 1 < n)
  | .a _ => false
  | .t r => decide (r.toNat % 2 = 0)
  | .p _ => true
  | .c _ => true
  | .bad _ => false

/-- A 32-bit destination (R63). -/
def Opnd.dst (n s : Nat) : Opnd → Bool
  | .g r => decide (r.toNat < n)
  | .a _ => decide (0 < s)
  | .t _ => true
  | .p _ => true
  | .c _ => false
  | .bad _ => false

/-- An even g or t code: a 64-bit destination, or a pair that holds an address (R65). -/
def Opnd.pair (n : Nat) : Opnd → Bool
  | .g r => decide (r.toNat % 2 = 0 ∧ r.toNat + 1 < n)
  | .t r => decide (r.toNat % 2 = 0)
  | .a _ | .p _ | .c _ | .bad _ => false

/-- A g code (R179). -/
def Opnd.greg (n : Nat) : Opnd → Bool
  | .g r => decide (r.toNat < n)
  | .a _ | .t _ | .p _ | .c _ | .bad _ => false

/-- A g code that is a multiple of `m` and starts `len` registers (R193, R243, R259). -/
def Opnd.block (n m len : Nat) : Opnd → Bool
  | .g r => decide (r.toNat % m = 0 ∧ r.toNat + len ≤ n)
  | .a _ | .t _ | .p _ | .c _ | .bad _ => false

/-- A g or t code (R234). -/
def Opnd.gort (n : Nat) : Opnd → Bool
  | .g r => decide (r.toNat < n)
  | .t _ => true
  | .a _ | .p _ | .c _ | .bad _ => false

/-- A predicate code (R138). -/
def Opnd.isPred : Opnd → Bool
  | .p _ => true
  | _ => false

/-- Whether a type's operands are pairs (R65, R121). -/
def Ty.wide : Ty → Bool
  | .i64 | .w64 => true
  | _ => false

/-- A source, a destination and a g destination of a type (R121, R179). -/
def Opnd.srcT (n s : Nat) (ty : Ty) (o : Opnd) : Bool := if ty.wide then o.src64 n else o.src n s
def Opnd.dstT (n s : Nat) (ty : Ty) (o : Opnd) : Bool := if ty.wide then o.pair n else o.dst n s
def Opnd.gdstT (n : Nat) (ty : Ty) (o : Opnd) : Bool := if ty.wide then o.block n 2 2 else o.greg n

/-- The width of a special register (R170). -/
def SReg.wide : SReg → Bool
  | .nwg | .time | .readfloor | .pkperm | .cspill | .tframe => true
  | _ => false

/-- The base of an access: a pair for global addresses, one register for loft addresses (R177). -/
def Opnd.base (n s : Nat) (sp : Space) (o : Opnd) : Bool :=
  match sp with
  | .global => o.pair n
  | .loft => o.src n s

/-- C of an engine command (R60). -/
def Completion.legal (n s : Nat) : Completion → Bool
  | .tok _ => true
  | .bar c => c.src n s

/-- D of CBDEC (R147). -/
def Opnd.cbDest (n : Nat) : Opnd → Bool
  | .g r => decide (r.toNat % 8 = 0 ∧ r.toNat + 7 < n)
  | .t r => r == 0#3
  | .a _ | .p _ | .c _ | .bad _ => false

/-- D of CVTX: a g, t or a code (R145). -/
def Opnd.cvtxDest (n s : Nat) : Opnd → Bool
  | .p _ => false
  | o => o.dst n s

/-- Check 6 of R70: the operand codes are legal for their use under register count `n` and tile-set
count `s`. The steps of the machine itself carry no operand codes. -/
def legal (n s : Nat) : Instr → Bool
  | .iadd _ ty d a b | .isub _ ty d a b | .imul _ ty d a b | .imulh _ ty d a b | .idiv _ ty d a b
  | .irem _ ty d a b | .imin _ ty d a b | .imax _ ty d a b | .andG _ ty d a b | .orG _ ty d a b
  | .xorG _ ty d a b | .andnG _ ty d a b => d.dstT n s ty && a.srcT n s ty && b.srcT n s ty
  | .iaddI _ d a _ | .isubI _ d a _ | .imulI _ d a _ | .iminI _ d a _ | .imaxI _ d a _
  | .shlI _ d a _ | .shrI _ d a _ | .sarI _ d a _ | .rolI _ d a _ | .rorI _ d a _
  | .andI _ d a _ | .orI _ d a _ | .xorI _ d a _ | .andnI _ d a _ => d.dst n s && a.src n s
  | .iaddc _ ty d a b c => d.dstT n s ty && a.srcT n s ty && b.srcT n s ty && c.src n s
  | .imad _ ty d a b c => d.dstT n s ty && a.srcT n s ty && b.srcT n s ty && c.srcT n s ty
  | .idot4 _ _ d a b c => d.dst n s && a.src n s && b.src n s && c.src n s
  | .iabs _ ty d a | .ineg _ ty d a | .notG _ ty d a | .brev _ ty d a | .mov _ ty d a =>
    d.dstT n s ty && a.srcT n s ty
  | .isat _ _ d a => d.dst n s && a.src n s
  | .shl _ ty d a b | .shr _ ty d a b | .sar _ ty d a b | .rol _ ty d a b | .ror _ ty d a b =>
    d.dstT n s ty && a.srcT n s ty && b.src n s
  | .popc _ ty d a | .clz _ ty d a | .ctz _ ty d a => d.dst n s && a.srcT n s ty
  | .bfx _ ty d a b c | .bfi _ ty d a b c => d.dstT n s ty && a.srcT n s ty && b.src n s && c.src n s
  | .lea _ d a b c => d.pair n && a.src64 n && b.src n s && c.src n s
  | .movi _ d _ => d.dst n s
  | .movh _ d _ => d.pair n
  | .sel _ ty d a b c => d.dstT n s ty && a.srcT n s ty && b.srcT n s ty && c.src n s
  | .icmp _ ty _ _ a b => a.srcT n s ty && b.srcT n s ty
  | .icmpI _ _ _ a _ => a.src n s
  | .pset _ _ d a b => d.isPred && a.isPred && b.isPred
  | .pmov _ x => match x with
    | .get d => d.dst n s
    | .put a => a.src n s
  | .fadd _ _ d a b | .fsub _ _ d a b | .fmul _ _ d a b | .fscale _ _ d a b => d.dst n s && a.src n s && b.src n s
  | .ffma _ _ d a b c => d.dst n s && a.src n s && b.src n s && c.src n s
  | .fmin _ d a b | .fmax _ d a b => d.dst n s && a.src n s && b.src n s
  | .fcmp _ _ _ a b => a.src n s && b.src n s
  | .fclass _ d a => d.dst n s && a.src n s
  | .frnd _ _ d a => d.dst n s && a.src n s
  | .hadd2 _ _ _ d a b | .hmul2 _ _ _ d a b => d.dst n s && a.src n s && b.src n s
  | .hfma2 _ _ _ d a b c | .fdot2 _ _ _ d a b c | .fdot4 _ _ _ d a b c =>
    d.dst n s && a.src n s && b.src n s && c.src n s
  | .cvt _ dt sty _ d a => d.dstT n s dt && a.srcT n s sty
  | .cvtx _ _ _ d a b => d.cvtxDest n s && a.src n s && b.src64 n
  | .pack _ _ d a b | .unpack _ _ d a b => d.dst n s && a.src n s && b.src n s
  | .cbdec _ d a b => d.cbDest n && a.src n s && b.src n s
  | .exp2 _ d a | .log2 _ d a | .rcp _ d a | .rsq _ d a | .sqrt _ d a | .sin _ d a | .cos _ d a
  | .tanh _ d a => d.dst n s && a.src n s
  | .shfl _ _ d a b => d.dst n s && a.src n s && b.src n s
  | .vote _ mode d a => (if mode = .bal then d.pair n else d.dst n s) && a.src n s
  | .redx _ ty _ d a | .scanx _ ty _ _ d a => d.dstT n s ty && a.srcT n s ty
  | .bcst _ ty d a b => d.dstT n s ty && a.srcT n s ty && b.src n s
  | .bra _ _ | .call _ _ | .ret _ | .exit _ | .trap _ _ | .tret _ | .brk _ _ | .nop _ => true
  | .brx _ a _ | .callx _ a _ => a.pair n
  | .yield _ x => match x with
    | .phase a b => a.src n s && b.src n s
    | .token _ => true
    | .wptr a b => a.src n s && b.src n s
  | .ld _ ty _ d a b => d.gdstT n ty && a.pair n && b.src n s
  | .st _ ty d a b => d.srcT n s ty && a.pair n && b.src n s
  | .ldl _ ty _ d a b | .ldp _ ty _ d a b => d.gdstT n ty && a.src n s && b.src n s
  | .stl _ ty d a b => d.srcT n s ty && a.src n s && b.src n s
  | .lda _ ty _ _ _ sp d a b => d.gdstT n ty && a.base n s sp && b.src n s
  | .sta _ ty _ _ sp d a b => d.srcT n s ty && a.base n s sp && b.src n s
  | .pref _ a b => a.pair n && b.src n s
  | .atomAdd _ ty _ _ _ sp d a b | .atomMin _ ty _ _ _ sp d a b | .atomMax _ ty _ _ _ sp d a b
  | .atomAnd _ ty _ _ _ sp d a b | .atomOr _ ty _ _ _ sp d a b | .atomXor _ ty _ _ _ sp d a b
  | .atomExch _ ty _ _ _ sp d a b => d.gdstT n ty && a.base n s sp && b.src n s
  | .atomFadd _ _ _ _ sp d a b => d.greg n && a.base n s sp && b.src n s
  | .cas _ ty _ _ _ sp d a b c => d.gdstT n ty && a.base n s sp && b.src n s && c.srcT n s ty
  | .casw _ _ _ _ sp d a b c => d.block n 8 8 && a.base n s sp && b.src n s && c.block n 8 8
  | .fence _ _ _ | .twait _ _ => true
  | .tcnt _ _ d => d.dst n s
  | .binit _ a | .barv _ a | .bfree _ a => a.src n s
  | .bexp _ a b c => a.src n s && b.src n s && c.src n s
  | .btest _ d a => d.dst n s && a.src n s
  | .ainit _ a b => a.pair n && b.src64 n
  | .apost _ _ d a b => d.gort n && a.pair n && b.src n s
  | .astep _ d a => d.gort n && a.pair n
  | .ares _ d => d.pair n
  | .movs _ d sr => if sr.wide then d.pair n else d.dst n s
  | .movsw _ _ a => a.src n s
  | .pkset _ a b | .evsig _ a b => a.src n s && b.src n s
  | .cancel _ _ _ a => a.src n s
  | .enql _ a b => a.src64 n && b.src n s
  | .ctrd _ d a => d.pair n && a.src n s
  | .mma _ _ _ _ a | .mma16 _ _ _ _ a => a.block n 8 16 && decide (0 < s)
  | .mopf _ => true
  | .mzero _ _ a => a.src n s
  | .att _ _ _ _ _ a => a.block n 8 16
  | .attfin _ _ d a => d.block n 4 4 && a.src n s
  | .latw _ _ a => a.block n 8 8
  | .kvlook _ _ d a => d.block n 4 4 && a.block n 8 8
  | .kvapp _ cmp a | .kvfork _ cmp a | .kvcommit _ cmp a => a.block n 8 8 && cmp.legal n s
  | .topk _ cmp a => a.block n 8 16 && cmp.legal n s
  | .cpy _ cmp a | .cpyt _ _ cmp a | .cpyc _ cmp a | .cpyg _ cmp a | .cpys _ cmp a =>
    a.pair n && cmp.legal n s
  | .chwp _ d a => d.dst n s && a.src n s
  | .rngsnd _ _ _ a => a.block n 8 8
  | .rngrcv _ _ cmp a => a.block n 8 8 && cmp.legal n s
  | _ => true

namespace Machine

/-! Reading. -/

/-- What a lane's reads depend on beside its thread: the tile set that %aset names, the registers whose
loads have not landed (R184), the tile sets of commands whose token it has not waited for (R218), and the numbers that
make an unspecified value free (log entry 6). -/
structure Env where
  lane : LaneRef
  aset : Nat
  unread : List Nat
  busy : List Nat
  fresh : Nat
  deriving DecidableEq, Repr

/-- The pattern of an inline constant (R64). -/
def inlineConst (k : Nat) : Word :=
  if k ≤ 32 then BitVec.ofNat 32 k
  else if k ≤ 48 then BitVec.ofNat 32 (2 ^ 32 - (k - 32))
  else ([0x3F000000, 0xBF000000, 0x3F800000, 0xBF800000, 0x40000000, 0xC0000000, 0x40800000, 0xC0800000,
    0x3E800000, 0x3FB8AA3B, 0x3F317218, 0x7F800000, 0xFF800000, 0x7F7FFFFF, 0x80000000].map
      (BitVec.ofNat 32)).getD (k - 49) 0#32

/-- A general register; unspecified while its load is outstanding (R184). -/
def Env.reg (e : Env) (t : Thread) (r : Nat) : Word :=
  if e.unread.contains r then Config.freeWord e.fresh e.lane.lane r else Map.get 0#32 t.regs r

/-- The key of an accumulator element. -/
def accKey (set col : Nat) : Nat := 128 * set + col

/-- An accumulator element of the lane's row; unspecified from the issue of a command on the set to the wait for it
(R218). -/
def Env.acc (e : Env) (t : Thread) (j : Nat) : Word :=
  if e.busy.contains e.aset then Config.freeWord e.fresh e.lane.lane (256 + j)
  else Map.get 0#32 t.rows (accKey e.aset j)

/-- A 32-bit source operand (R63, R64). -/
def Env.src (e : Env) (t : Thread) (o : Opnd) : Word :=
  match o with
  | .g r => e.reg t r.toNat
  | .a j => e.acc t j.toNat
  | .t r => Map.get 0#32 t.temps r.toNat
  | .p r => if t.pred r.toNat then 1#32 else 0#32
  | .c k => inlineConst k.toNat
  | .bad _ => 0#32

/-- A 64-bit source operand (R65). -/
def Env.src64 (e : Env) (t : Thread) (o : Opnd) : Dword :=
  match o with
  | .g r => e.reg t (r.toNat + 1) ++ e.reg t r.toNat
  | .t r => Map.get 0#32 t.temps (r.toNat + 1) ++ Map.get 0#32 t.temps r.toNat
  | .p r => if t.pred r.toNat then 1#64 else 0#64
  | .c k => if k.toNat ≤ 48 then (inlineConst k.toNat).signExtend 64 else (inlineConst k.toNat).setWidth 64
  | .a _ => 0#64
  | .bad _ => 0#64

/-- An operand of a type, as a number (R121). -/
def Env.srcT (e : Env) (t : Thread) (ty : Ty) (o : Opnd) : Nat :=
  if ty.wide then (e.src64 t o).toNat else (e.src t o).toNat

/-- The `len` registers from a g code (R193, R243). -/
def Env.regs (e : Env) (t : Thread) (o : Opnd) (len : Nat) : List Word :=
  match o with
  | .g r => (List.range len).map fun i => e.reg t (r.toNat + i)
  | .a _ | .t _ | .p _ | .c _ | .bad _ => []

/-! Writing. -/

/-- Write a general register. -/
def Thread.setReg (t : Thread) (r : Nat) (v : Word) : Thread := { t with regs := Map.set 0#32 t.regs r v }

/-- Write a temporary. -/
def Thread.setTemp (t : Thread) (r : Nat) (v : Word) : Thread := { t with temps := Map.set 0#32 t.temps r v }

/-- Write an accumulator element, keeping the values before writes that no MOPF has ordered, the latest first
(R252). -/
def Thread.setAcc (t : Thread) (set j : Nat) (v : Word) : Thread :=
  let k := accKey set j
  { t with
    rows := Map.set 0#32 t.rows k v
    accOld := Map.set [] t.accOld k (Map.get 0#32 t.rows k :: Map.get [] t.accOld k) }

/-- The row of a lane in tile sets whose result is unspecified (R218). -/
def Thread.spoil (t : Thread) (fresh lane : Nat) (sets : List Nat) : Thread :=
  let row (k : Nat) (m : Map Word) : Map Word :=
    (List.range 128).foldl (fun m j => Map.set 0#32 m (accKey k j) (Config.freeWord fresh lane (4096 + accKey k j))) m
  { t with rows := sets.foldl (fun m k => row k m) t.rows }

/-- Write a 32-bit destination (R63). -/
def Env.put (e : Env) (t : Thread) (o : Opnd) (v : Word) : Thread :=
  match o with
  | .g r => t.setReg r.toNat v
  | .a j => t.setAcc e.aset j.toNat v
  | .t r => t.setTemp r.toNat v
  | .p r => t.setPred r.toNat (v != 0#32)
  | .c _ => t
  | .bad _ => t

/-- Write a 64-bit destination: the even member holds bits [31:0] (R65). -/
def Env.put64 (_e : Env) (t : Thread) (o : Opnd) (v : Dword) : Thread :=
  match o with
  | .g r => (t.setReg r.toNat (v.extractLsb' 0 32)).setReg (r.toNat + 1) (v.extractLsb' 32 32)
  | .t r => (t.setTemp r.toNat (v.extractLsb' 0 32)).setTemp (r.toNat + 1) (v.extractLsb' 32 32)
  | .a _ | .p _ | .c _ | .bad _ => t

/-- Write a result of a type, given as a number (R121). -/
def Env.putT (e : Env) (t : Thread) (ty : Ty) (o : Opnd) (v : Nat) : Thread :=
  if ty.wide then e.put64 t o (BitVec.ofNat 64 v) else e.put t o (BitVec.ofNat 32 v)

/-- Write registers from a g code upward (R193, R259). -/
def Thread.putRegs (t : Thread) (d : Nat) : List Word → Thread
  | [] => t
  | v :: vs => (t.setReg d v).putRegs (d + 1) vs

end Machine

/-- The register number of a g code. -/
def Opnd.gnum : Opnd → Nat
  | .g r => r.toNat
  | .a _ | .t _ | .p _ | .c _ | .bad _ => 0

/-- Whether an operand is an accumulator. -/
def Opnd.isAcc : Opnd → Bool
  | .a _ => true
  | _ => false

end Sys2Proof
end

