-- ==== Sys2Proof/Machine/Memory.lean ====
section
/-! DEFINITION. Memory at its homes: regions, sectors with their check values, poison and helped marks
(R290, R341 to R344, R228), writes with the invalidations and write-completion times that follow
(R295, R301, R303), and the notification queues (R312). -/

namespace Sys2Proof.Machine

/-- The die that holds a LOCAL address (R290). -/
def dieOfPa (pa : Nat) : Nat := pa / Config.dieBytes

/-- The region of a physical address (R290): 0 LOCAL, 1 PEER, 2 HOST, 3 reserved. -/
def region (pa : Nat) : Nat := pa / 2 ^ 50 % 4

/-- Whether a physical address exists (R290). -/
def paExists (pa : Nat) : Bool :=
  match region pa with
  | 0 => decide (pa < Config.localBytes)
  | 1 => true
  | 2 => true
  | _ => false

/-- Stop at an address that does not exist (R290). -/
def checkPa (s : State) (pa : Nat) : State :=
  if paExists pa then s else s.stop (.noSuchAddress pa)

/-- Whether an access to an address can be made: held while its die trains, refused where its die is
fenced, left out or dead (R338, R352). -/
inductive Gate where
  | ok
  | held
  | refused
  deriving DecidableEq, Repr

def gate (s : State) (pa : Nat) : Gate :=
  if region pa = 0 then
    match (s.dies[dieOfPa pa]?).map Die.state with
    | some .inService => .ok
    | some .untrained => .held
    | some .leftOut | some .fenced | some .dead => .refused
    | none => .ok
  else .ok

/-- The slice of a line (R290). -/
def sliceOf (line : Nat) : Nat := line % 48

/-- The home die and slice of a LOCAL line, as one number. -/
def homeOf (line : Nat) : Nat := 48 * dieOfPa (128 * line) + sliceOf line

/-- The bytes of a sector. -/
def State.sector (s : State) (sec : Nat) : List Byte := Memory.readN s.mem (32 * sec) 32

/-- Whether a sector fails its check or carries the poison mark (R343). Check values are kept for
device memory. -/
def State.sectorBad (s : State) (sec : Nat) : Bool :=
  region (32 * sec) == 0 &&
    (Map.get false s.poison sec || crc16 (s.sector sec) != Map.get 0 s.chk sec)

/-- Whether a sector fails its check value alone (R343). -/
def State.sectorMismatch (s : State) (sec : Nat) : Bool :=
  region (32 * sec) == 0 && crc16 (s.sector sec) != Map.get 0 s.chk sec

/-- The sectors that a run of bytes touches. -/
def sectorsOf (pa len : Nat) : List Nat :=
  if len = 0 then []
  else (List.range ((pa + len - 1) / 32 - pa / 32 + 1)).map fun i => pa / 32 + i

/-- The bad sectors of a run of bytes. -/
def State.badSectors (s : State) (pa len : Nat) : List Nat :=
  (sectorsOf pa len).filter s.sectorBad

/-! A write at its home. -/

/-- Write bytes at physical addresses with their check values; marks, leases, translations and mirrors are the
caller's. -/
def State.rawWrite (s : State) (pa : Nat) (data : List Byte) : State :=
  let mem := Memory.writeN s.mem pa data
  let secs := sectorsOf pa data.length
  { s with
    mem := mem
    chk := secs.foldl
      (fun c sec =>
        if region (32 * sec) = 0 then Map.set 0 c sec (crc16 (Memory.readN mem (32 * sec) 32)) else c) s.chk }

/-- Whether a cache lies in the instance of a scope around a core (R206, R301). -/
def inInstance (sc : Scope) (core : Nat) (h : Holder) : Bool :=
  match sc, h with
  | .wg, .l1 c => c == core
  | .wg, .l2 d => d == dieOf core
  | .die, .l1 c => dieOf c == dieOf core
  | .die, .l2 d => d == dieOf core
  | .dev, _ => true
  | .dom, _ => true
  | .sys, _ => true

/-- The scopes from the narrowest. -/
def scopes : List Scope := [.wg, .die, .dev, .dom, .sys]

/-- The place of a scope in a track. -/
def scopeNum : Scope → Nat
  | .wg => 0
  | .die => 1
  | .dev => 2
  | .dom => 3
  | .sys => 4

/-- Who writes: the thread that waits for the write-completion time, the core, the launch, the token of an engine
command (R218), whether the write is an update, carries poison, or sets only A or D bits in a table (R228, R297,
R342). -/
structure Writer where
  lane : Option LaneRef
  core : Option Nat
  launch : Option Nat
  tok : Option Nat
  upd : Bool
  bad : Bool
  quiet : Bool
  deriving DecidableEq, Repr

/-- A write of the hardware, or from outside the module. -/
def Writer.hw (upd bad quiet : Bool) : Writer := ⟨none, none, none, none, upd, bad, quiet⟩

/-- The takeover of the slice that is a line's home (R304). -/
def State.takeover (s : State) (line : Nat) : Option SliceFault :=
  if region (128 * line) = 0 then
    s.sliceFaults.find? fun f => f.fenced && 48 * f.die + f.slice == homeOf line
  else none

/-- The blanket lease of a line, if one stands (R304). -/
def State.blanket (s : State) (line : Nat) : Option Nat := (s.takeover line).bind SliceFault.blanket

/-- The other holders of a line at its home (R301): the writing core's own caches are updated with it. -/
def State.otherHolders (s : State) (core : Option Nat) (line : Nat) : List Grant :=
  s.grants.filter fun g => g.line == line &&
    match core with
    | some c => g.holder != .l1 c && g.holder != .l2 (dieOf c)
    | none => true

/-- Invalidations for the holders whose lease ends more than 512 ticks from now (R301). -/
def mkInvals (serial : Nat) : List Grant → List Inval
  | [] => []
  | g :: gs => ⟨serial, g.holder, g.line, g.number, g.start⟩ :: mkInvals (serial + 1) gs

/-- Invalidations for the translation sharers of a line (R295). -/
def mkTInvals (serial line time : Nat) : List TUnit → List TInval
  | [] => []
  | u :: us => ⟨serial, u, line, time⟩ :: mkTInvals (serial + 1) line time us

/-- The places of the additions that a command has yet to make (R257). -/
def Cmd.bound (c : Cmd) : List Place := c.adds.map fun x => x.2.1

/-- The translation sharers of a line (R295): every cache with an entry walked through it or with an access on its
way through it, and after a takeover every translation cache that holds anything (R304). -/
def State.sharers (s : State) (line : Nat) : List TUnit :=
  let derived := if (s.takeover line).isSome then s.tlb else s.tlb.filter fun e => e.lines.contains line
  let bound := ((s.loads.filter fun p => p.served.isNone).map PendingLoad.place ++ s.stores.map PendingStore.place ++
      s.cmds.flatMap Cmd.bound).filter fun p => p.lines.contains line
  (derived.map TlbEntry.unit ++ bound.flatMap Place.units).eraseDups

/-- The directory's part of a write to a line: invalidations, and a track of its write-completion times
(R295, R301). A store to a line with translation sharers, and one with no storing thread, has one completion time
over every holder. A copy that was granted in this very tick is dropped with the writer's own, as a cache may do at
any time, so that no lease begins at the time of a write that it does not hold (R222). -/
def State.publishLine (s : State) (w : Writer) (id line : Nat) : State :=
  let others := s.otherHolders w.core line
  let far := others.filter fun g => s.time + 512 < g.stop
  let near := others.filter fun g => g.stop ≤ s.time + 512
  let invs := mkInvals s.serial far
  let n1 := s.serial + invs.length
  let units := if w.quiet then [] else s.sharers line
  let tinvs := mkTInvals n1 line s.time units
  let wide := !units.isEmpty || w.core.isNone
  let core := w.core.getD 0
  let floor := max s.time ((s.blanket line).getD 0)
  let bound (sc : Scope) : Nat :=
    near.foldl (fun t g => if !wide && !(inInstance sc core g.holder) then t else max t g.stop) floor
  { s with
    serial := n1 + tinvs.length
    invals := s.invals ++ invs
    tinvals := s.tinvals ++ tinvs
    copies := s.copies.filter fun c => !(c.line == line && (c.start == s.time ||
      match w.core with
      | some k => c.holder == .l1 k || c.holder == .l2 (dieOf k)
      | none => false))
    tracks := s.tracks ++
      [⟨id, w.lane, w.launch, w.tok, [], core, wide, invs.map Inval.id, tinvs.map TInval.id, scopes.map bound⟩] }

/-- The mirror's part of a write to a LOCAL line: it becomes dirty, its mirror copy names the request, and the
oldest of more than 2,048 dirty lines of a slice is written back (R303). -/
def State.mirrorLine (s : State) (w : Writer) (id line : Nat) : State :=
  if region (128 * line) ≠ 0 then s
  else
    let new : Mirror := ⟨line, w.core, id⟩
    if s.dirty.any fun m => m.line == line then
      { s with dirty := s.dirty.map fun m => if m.line == line then new else m }
    else
      let mine := s.dirty.filter fun m => homeOf m.line == homeOf line
      let d := if 2048 ≤ mine.length then s.dirty.erase (mine.headD new) else s.dirty
      { s with dirty := d ++ [new] }

/-- The line monitor of the launch windows (R313, R314): a record is armed while its window is enabled, at the
window's place of that time. Log entry 94. -/
def State.monitor (s : State) (pa : Nat) (data : List Byte) : State :=
  let arm := pa + data.length - 1
  if arm % 256 ≠ 255 ∨ data.isEmpty then s
  else
    let base := bits s.pf.winbase 23 29 * 2 ^ 23
    let ofs := arm - base
    let rest := s.armed.filter fun a => a.slot != arm - 255
    if bit s.pf.winbase 0 && decide (base ≤ arm ∧ ofs < 2 ^ 23) && data.getLast? == some 0xA5#8 then
      { s with armed := rest ++ [⟨ofs / 2 ^ 18, ofs / 4096 % 64, ofs / 256 % 16, arm - 255⟩] }
    else { s with armed := rest }

/-- Write within one sector at its home: merge, make the check value, set or clear the poison mark, keep or clear
the helped mark (R228, R342), and record the publication times (R189). -/
def State.putSector (s : State) (w : Writer) (bad : Bool) (pa : Nat) (data : List Byte) : State :=
  let sec := pa / 32
  let words := (List.range ((pa % 4 + data.length + 3) / 4)).map fun i => pa / 4 + i
  let s' := (s.monitor pa data).rawWrite pa data
  { s' with
    poison := if region pa = 0 then Map.set false s'.poison sec bad else s'.poison
    helped := if w.upd then s'.helped else Map.set false s'.helped sec false
    pub := words.foldl (fun p k => Map.set 0 p k s.time) s'.pub }

/-- What the write of a run of bytes does beside them: mirrors, invalidations, and its tracks (R295, R301,
R303). -/
def State.putLines (s : State) (w : Writer) (id pa len : Nat) : State :=
  if len = 0 then s
  else
    let lines := (List.range ((pa + len - 1) / 128 - pa / 128 + 1)).map fun i => pa / 128 + i
    lines.foldl (fun s line => (s.mirrorLine w id line).publishLine w id line) s

/-! Notification queues. -/

/-- A notification record (R312). -/
def notifyRecord (addr launch wgid job ctx acc kind : Nat) : List Byte :=
  leBytes 2 (kind + 256 * acc) ++ leBytes 6 0 ++ leBytes 4 ctx ++ leBytes 4 job ++ leBytes 4 wgid ++
    leBytes 4 launch ++ leBytes 8 addr

/-- A record of 32 bytes is a whole sector: it is written at its home as every write is (R228, R301, R303, R342).
A die out of service takes none (R352). -/
def State.putRecord (s : State) (pa : Nat) (r : List Byte) : State :=
  if gate s pa == .refused then s
  else
    let (id, s) := s.take
    (s.putSector (.hw false false false) false pa r).putLines (.hw false false false) id pa r.length

/-- Function numbers: virtual functions 0 to 31, and 32 for the physical function. -/
def pfNumber : Nat := 32

/-- The queue of a function. -/
def State.nq (s : State) (fn : Nat) : Nq := if fn = pfNumber then s.pf.nq else (s.vf fn).nq

def State.setNq (s : State) (fn : Nat) (q : Nq) : State :=
  if fn = pfNumber then { s with pf := { s.pf with nq := q } }
  else s.setVf fn fun v => { v with nq := q }

/-- Send an MSI-X vector of a function. -/
def State.sendMsix (s : State) (fn vec : Nat) : State := { s with msix := s.msix ++ [(fn, vec)] }

/-- A record for a queue's end, which waits for its turn. -/
def State.holdRecord (s : State) (fn : Nat) (r : List Byte) : State :=
  s.setNq fn { s.nq fn with held := (s.nq fn).held ++ [r] }

/-- The place of the next record of a queue, and whether the queue has no room (R312). -/
def Nq.next (q : Nq) : Nat := q.base + 32 * (q.head % 2 ^ q.size)
def Nq.full (q : Nq) : Bool := (q.head + 2 ^ 32 - q.tail) % 2 ^ 32 == 2 ^ q.size

/-- Write a queue's records in order while it has room, sending vector 0 after each (R312). A record waits for a die that
trains (R338), and an old sector in its place that fails its check is reported in turn (R342, R343). -/
def State.writeNq (s : State) (fn : Nat) : Nat → State
  | 0 => s
  | n + 1 =>
    let q := s.nq fn
    match q.held with
    | [] => s
    | r :: rs =>
      if q.full || gate s q.next == .held then s
      else
        let bad := gate s q.next == .ok && s.sectorMismatch (q.next / 32)
        let s := s.setNq fn { q with head := (q.head + 1) % 2 ^ 32, held := rs }
        let s := if bad then s.holdRecord pfNumber (notifyRecord (32 * (q.next / 32)) 0 0 0 0 0 0x13) else s
        State.writeNq ((s.putRecord q.next r).sendMsix fn 0) fn n

/-- Write the records that a queue can take: as many as it holds, and those on failed checks, of which each sector of
the physical function's queue gives one at most. -/
def State.pumpNq (s : State) (fn : Nat) : State :=
  let steps (q : Nq) : Nat := q.held.length + 2 ^ q.size
  let s := s.writeNq fn (steps (s.nq fn))
  if fn = pfNumber then s else s.writeNq pfNumber (steps (s.nq pfNumber))

/-- A notification to a function's queue (R312). -/
def State.notify (s : State) (fn : Nat) (record : List Byte) : State :=
  (s.holdRecord fn record).pumpNq fn

/-- A notification of the physical function that carries an address (R312). -/
def State.notifyPf (s : State) (kind addr : Nat) : State :=
  s.notify pfNumber (notifyRecord addr 0 0 0 0 0 kind)

/-- The notifications of failed checks of a run of bytes (R343). -/
def State.reportChecks (s : State) (pa len : Nat) : State :=
  ((sectorsOf pa len).filter s.sectorMismatch).foldl (fun s sec => s.notifyPf 0x13 (32 * sec)) s

/-- Whether every die that is not fenced is in service, and one is (R338). -/
def fullService (dies : List Die) : Bool :=
  (dies.all fun d => d.state == .inService || d.state == .fenced || d.state == .dead) &&
    dies.any fun d => d.state == .inService

/-- STATE becomes full, and vector 0 of every function is sent (R338). -/
def State.reachFull (s : State) : State :=
  if fullService s.dies && s.bring.state != 2 then
    let s := { s with bring := { s.bring with state := 2 } }
    (List.range (pfNumber + 1)).foldl (fun (s : State) fn => s.sendMsix fn 0) s
  else s

/-! Event counting (R330 to R332). -/

/-- Add to the counter slots of a function that count an event; a wrap sets OVF and interrupts. -/
def bumpCounters (c : Counters) (event n : Nat) : Counters × Bool :=
  (List.range 4).foldl (fun (acc : Counters × Bool) i =>
    let ctl := acc.1.ctl.getD i 0
    if bit ctl 31 && bits ctl 0 8 == event && decide (0 < n) then
      let v := acc.1.cnt.getD i 0 + n
      let wrapped := decide (2 ^ 48 ≤ v)
      let ctl' := if wrapped then setBits ctl 30 1 1 else ctl
      ({ ctl := acc.1.ctl.set i ctl', cnt := acc.1.cnt.set i (v % 2 ^ 48) }, acc.2 || (wrapped && bit ctl 29))
    else acc) (c, false)

/-- A count of the holding set after an event (R332). -/
def holdCount (f : Vf) (event n i : Nat) : Nat :=
  let ctl := f.ctrs.ctl.getD i 0
  if bit ctl 31 && bits ctl 0 8 == event then f.holding.getD i 0 + n else f.holding.getD i 0

/-- Count an event in the physical function's slots (R313, R331). -/
def State.countPf (s : State) (event n : Nat) : State :=
  let c := bumpCounters s.pf.ctrs event n
  let t := { s with pf := { s.pf with ctrs := c.1 } }
  if c.2 then t.sendMsix pfNumber 1 else t

/-- Count an event in the live slots of a virtual function, or in the holding set while its slots are saved
(R331, R332). -/
def State.countVf (s : State) (v event n : Nat) : State :=
  if (s.vf v).live then
    let c := bumpCounters (s.vf v).ctrs event n
    let t := s.setVf v fun f => { f with ctrs := c.1 }
    if c.2 then t.sendMsix v 1 else t
  else s.setVf v fun f => { f with holding := (List.range 4).map (holdCount f event n) }

/-- Count an event of a virtual function, in its own slots and in the physical function's; a fabric event counts
in the latter alone (R313, R331). -/
def State.count (s : State) (v event n : Nat) : State :=
  let t := s.countPf event n
  if 0x40 ≤ event then t else t.countVf v event n

/-- Count a fabric event of the module (R331). -/
def State.countFabric (s : State) (event : Nat) : State := s.count 0 event (Config.flits s.fresh)

/-- An access to another package sends its request over Gugar and receives the response (R12, R241, R330). -/
def State.countLink (s : State) (pa : Nat) : State :=
  if region pa = 1 then (s.countFabric 0x40).countFabric 0x41 else s

/-! Homes. -/

/-- Write within one sector at its home, whose old value is checked first; a part of it is merged with the old bytes,
whose failure stays as poison (R342, R343). -/
def State.writeSector (s : State) (w : Writer) (pa : Nat) (data : List Byte) : State :=
  let bad := w.bad || (data.length != 32 && s.sectorBad (pa / 32))
  (s.reportChecks (32 * (pa / 32)) 32).putSector w bad pa data

/-- Cut a run of bytes at sector boundaries; `fuel` bounds the pieces. -/
def cutSectors : Nat → Nat → List Byte → List (Nat × List Byte)
  | 0, _, _ => []
  | fuel + 1, pa, data =>
    if data.isEmpty then []
    else
      let n := 32 - pa % 32
      (pa, data.take n) :: cutSectors fuel (pa + n) (data.drop n)

/-- Bytes of the leaf of a page: the first entry of it, and all 16 of a 64 KiB group (R292). -/
def SnapPage.leafBytes (p : SnapPage) : Nat := if p.size = 2 ^ 16 then 128 else 8

/-- Software has written into the leaves of protected pages: the lists note it (R348). -/
def State.noteRewrite (s : State) (pa len : Nat) : State :=
  let hit (p : SnapPage) : Bool := decide (pa < p.leafPa + p.leafBytes ∧ p.leafPa < pa + len)
  if s.launches.any fun l => l.snap.any hit then
    { s with launches := s.launches.map fun l =>
        { l with snap := l.snap.map fun p => if hit p then { p with rewritten := true } else p } }
  else s

/-- A write performed at its home (R301, R303, R342), under the serial number `id`. -/
def State.homeWrite (s : State) (w : Writer) (id pa : Nat) (data : List Byte) : State :=
  let s := (checkPa s pa).countLink pa
  let s := if w.lane.isSome then s.noteRewrite pa data.length else s
  ((cutSectors (data.length + 1) pa data).foldl (fun s c => s.writeSector w c.1 c.2) s).putLines w id pa data.length

/-- A hardware write with no storing thread: its serial number is fresh and is returned. -/
def State.hwWrite (s : State) (upd quiet : Bool) (pa : Nat) (data : List Byte) : Nat × State :=
  let (id, s) := s.take
  (id, s.homeWrite (.hw upd false quiet) id pa data)

/-- A core and the L2 slice of its die drop their copies of a line, as they may at any time. -/
def State.dropCopies (s : State) (core line : Nat) : State :=
  { s with copies := s.copies.filter fun c =>
      !(c.line == line && (c.holder == Holder.l1 core || c.holder == Holder.l2 (dieOf core))) }

/-- The directory records that a core has published a line under a scope narrower than dev (R226). -/
def State.noteNarrow (s : State) (core line : Nat) (sc : Scope) : State :=
  let note : State :=
    if s.narrow.contains ⟨core, line, sc⟩ then s else { s with narrow := s.narrow ++ [⟨core, line, sc⟩] }
  match sc with
  | .wg => note
  | .die => note
  | .dev => s
  | .dom => s
  | .sys => s

/-- An acquire of a line by a core: the holders outside whose scope it lies are sent a forced publish (R226). What they
have published stands at the home already: log entry 98. -/
def State.forcePublish (s : State) (core line : Nat) : State :=
  { s with narrow := s.narrow.filter fun n => n.line != line || inInstance n.scope n.core (.l1 core) }

/-- Read bytes at their home. -/
def State.homeRead (s : State) (pa len : Nat) : List Byte := Memory.readN s.mem pa len

/-- A 64-bit number at an address. -/
def State.read64 (s : State) (pa : Nat) : Nat := leNat (s.homeRead pa 8)

/-- The publication time of the value in a run of bytes (R189). -/
def State.pubOf (s : State) (pa len : Nat) : Nat :=
  ((List.range ((pa % 4 + len + 3) / 4)).map fun i => Map.get 0 s.pub (pa / 4 + i)).foldl max 0

/-- Whether a track has passed its write-completion time at a scope (R186, R195, R295). -/
def State.trackDone (s : State) (sc : Scope) (t : Track) : Bool :=
  t.tpending.isEmpty &&
    t.pending.all (fun i =>
      match s.invals.find? fun v => v.id == i with
      | some v => !t.wide && !(inInstance sc t.core v.holder)
      | none => true) &&
    decide (t.bounds.getD (scopeNum sc) 0 < s.time)

/-- The lane number that stands for the engine commands of a rig in a track (R218). -/
def engineLane : Nat := 64

/-- Whether the context of a workgroup is being killed (R354). -/
def State.killed (s : State) (wg : Nat) : Bool := ((s.launchOf? wg).map fun l => s.kills.contains l.ctx.tag).getD false

/-- Whether every earlier store and atomic of a thread has passed its write-completion time at a scope, with the
writes of the commands of its rig whose token it has waited for (R195, R218). One in a context that is being killed waits
until it ends with it (R354). -/
def State.released (s : State) (l : LaneRef) (sc : Scope) : Bool :=
  !(s.killed l.wg) && s.stores.all (fun p => p.lane != l) &&
    s.tracks.all fun t =>
      match t.lane with
      | some m =>
        if m == l || (m.wg == l.wg && m.rig == l.rig && m.lane == engineLane && t.waiters.contains l.lane) then
          s.trackDone sc t
        else true
      | none => true

end Sys2Proof.Machine
end

