-- ==== Sys2Proof/Machine/Translate.lean ====
section
/-! DEFINITION. Translation (R290 to R300), copy-on-write of snapshots (R346), the frame pools (R310),
and the bookkeeping of page faults (R305, R309, R312). -/

namespace Sys2Proof.Machine

/-! Page-table entries (R292). -/

def pteV (e : Nat) : Bool := bit e 0
def pteW (e : Nat) : Bool := bit e 1
def pteX (e : Nat) : Bool := bit e 2
def pteKey (e : Nat) : Nat := bits e 5 5
def pteA (e : Nat) : Bool := bit e 10
def pteD (e : Nat) : Bool := bit e 11
def pteFrame (e : Nat) : Nat := bits e 12 40 * 4096
def pteSize (e : Nat) : Nat := bits e 52 2
def pteMig (e : Nat) : Bool := bit e 54
def pteTbl (e : Nat) : Bool := bit e 55
def pteOwner (e : Nat) : Nat := bits e 56 8

def pteClass (e : Nat) : PClass :=
  match bits e 3 2 with
  | 0 => .priv
  | 1 => .shared
  | 2 => .object
  | _ => .uncached

/-- An entry without its A and D bits, which hardware sets (R297). -/
def eraseAD (e : Nat) : Nat := setBits e 10 2 0

/-- Kinds of translated access (R293). `read` needs read permission; `write` W and write permission;
`rmw` W and both; `exec` X alone; `any` V alone. -/
inductive AccKind where
  | read
  | write
  | rmw
  | exec
  | any
  deriving DecidableEq, Repr

def AccKind.writes : AccKind → Bool
  | .write | .rmw => true
  | .read | .exec | .any => false

/-- The check of R293 on a leaf; `perm` holds the key permissions, read in bit 2k, write in bit 2k + 1. -/
def AccKind.allowed (k : AccKind) (perm : Dword) (e : Nat) : Bool :=
  let r := bit perm.toNat (2 * pteKey e)
  let w := bit perm.toNat (2 * pteKey e + 1)
  match k with
  | .read => r
  | .write => pteW e && w
  | .rmw => pteW e && r && w
  | .exec => pteX e
  | .any => true

/-- The result of a walk (R291, R292): a leaf with the table lines it depends on, the pointers walked (level, entry,
address) and whether one of them is a cached pointer that the tables no longer hold; an entry that is not present;
a malformed entry; or a die that does not answer yet. -/
inductive Walk where
  | leaf (e pa level : Nat) (lines : List Nat) (path : List (Nat × Nat × Nat)) (stale : Bool)
  | absent (e pa : Nat)
  | malformed
  | held
  deriving DecidableEq, Repr

/-- A table pointer (R292). -/
def pointerForm (e : Nat) : Bool := pteTbl e && e % 2 ^ 12 == 1 && bits e 52 3 == 0 && bits e 56 8 == 0

/-- Bytes of the page that a leaf at a level maps. -/
def pageBytes (level e : Nat) : Nat :=
  match level with
  | 2 => 2 ^ 30
  | 1 => 2 ^ 21
  | _ => if pteSize e = 1 then 2 ^ 16 else 2 ^ 12

/-- The fields that the 16 entries of a 64 KiB group share, and their frames (R292). -/
def groupForm (s : State) (pa : Nat) : Bool :=
  let base := pa / 128 * 128
  let es := (List.range 16).map fun i => s.read64 (base + 8 * i)
  let e0 := es.headD 0
  let key (e : Nat) := setBits (eraseAD e) 12 40 0
  decide (pteFrame e0 % 2 ^ 16 = 0) &&
    (List.range 16).all fun i =>
      key (es.getD i 0) == key e0 && pteFrame (es.getD i 0) == pteFrame e0 + 4096 * i

/-- A leaf (R292). -/
def leafForm (s : State) (pa level e : Nat) : Bool :=
  !pteTbl e && !pteMig e &&
    (match level with
      | 2 => pteSize e == 3
      | 1 => pteSize e == 2
      | 0 => pteSize e == 0 || (pteSize e == 1 && groupForm s pa)
      | _ => false) &&
    (pteSize e == 1 || pteFrame e % pageBytes level e == 0) &&
    (region (pteFrame e) == 0 || pteClass e == .uncached)

/-- The die whose walker and walk cache serve a table line: the unit's own, and for a relay engine the die that
holds the line (R294). -/
def walkDie (unit : TUnit) (die pa : Nat) : Nat :=
  match unit with
  | .relay _ => dieOfPa pa
  | .l1 _ | .l2 _ | .walk _ => die

/-- The entry a walk uses where a walk cache of the die holds another value than memory, and whether it is that
one: either may be used until the invalidation is acknowledged (R294, R295). Log entry 6. -/
def pickEntry (s : State) (tag : CtxTag) (die level va fresh : Nat) : Nat × Bool :=
  match s.tlb.find? fun t =>
      t.unit == .walk die && t.tag == tag && t.level == level && t.vpn == va / 2 ^ (12 + 9 * level) with
  | some t =>
    if t.entry ≠ fresh ∧ Config.freeChoice s.fresh (8 * va + level) % 2 = 0 then (t.entry, true) else (fresh, false)
  | none => (fresh, false)

/-- The walk through the levels given, from a table base (R291), with the entries that it reads. `pick` lets it use
cached pointers; `stale` says that it has used one. -/
def walkFrom (s : State) (tag : CtxTag) (unit : TUnit) (die va : Nat) (pick : Bool) :
    List Nat → Nat → List (Nat × Nat × Nat) → Bool → Walk × List Nat
  | [], _, _, _ => (.malformed, [])
  | level :: rest, base, path, stale =>
    let pa := base + 8 * bits va (12 + 9 * level) 9
    if region pa ≠ 0 then (.malformed, [])
    else match gate s pa with
      | .held => (.held, [])
      | .refused => (.malformed, [])
      | .ok =>
        let q := if pick then pickEntry s tag (walkDie unit die pa) level va (s.read64 pa) else (s.read64 pa, false)
        let e := q.1
        if !pteV e then (.absent e pa, [pa])
        else if pteTbl e then
          if pointerForm e then
            let r := walkFrom s tag unit die va pick rest (pteFrame e) (path ++ [(level, e, pa)]) (stale || q.2)
            (r.1, pa :: r.2)
          else (.malformed, [pa])
        else if leafForm s pa level e then
          (.leaf e pa level (path.map (fun p => p.2.2 / 128) ++ [pa / 128]) path stale, [pa])
        else (.malformed, [pa])

/-- The walk of an address through the tables as they stand, with the entries that it reads, under a launch's copy of
its context. -/
def walkAll (s : State) (ctx : CtxCopy) (unit : TUnit) (die va : Nat) : Walk × List Nat :=
  walkFrom s ctx.tag unit die va false [3, 2, 1, 0] ctx.root [] false

/-- The result of that walk. -/
def walk (s : State) (ctx : CtxCopy) (die va : Nat) : Walk := (walkAll s ctx (.l2 die) die va).1

/-- The bytes of address space that a translation cache's entry covers: one page, and a 64 KiB group fills one entry
(R294). -/
def TlbEntry.span (t : TlbEntry) : Nat :=
  if t.level = 0 ∧ pteSize t.entry = 1 ∧ !(pteTbl t.entry) then 2 ^ 16 else 2 ^ (12 + 9 * t.level)

/-- The leaf that an entry gives an address, and where it lies: the entry of a group that was walked stands for the
others of it. -/
def TlbEntry.leafFor (t : TlbEntry) (va : Nat) : Nat × Nat :=
  if t.span = 2 ^ 16 then
    let i := t.entryPa / 8 % 16
    let j := va / 4096 % 16
    (setBits t.entry 12 40 (bits t.entry 12 40 + j - i), t.entryPa / 128 * 128 + 8 * j)
  else (t.entry, t.entryPa)

/-- The cached leaf that covers an address: in the unit's TLB, else in the L2 TLB behind it (R294). -/
def cachedLeaf (s : State) (tag : CtxTag) (unit : TUnit) (die va : Nat) : Option TlbEntry :=
  let hits := s.tlb.filter fun t =>
    (t.unit == unit || t.unit == .l2 die) && t.tag == tag && decide (t.level ≤ 2) && !(pteTbl t.entry) &&
      t.vpn == va / t.span
  match hits.find? fun t => t.unit == unit with
  | some t => some t
  | none =>
    match unit with
    | .relay _ => none
    | .l1 _ | .l2 _ | .walk _ => hits.head?

/-- Whether the tables still hold the leaf that a cached entry was filled from: software has neither changed it nor
cleared its A or D bit, which hardware sets without a trace in the cache (R295 to R297). -/
def TlbEntry.current (s : State) (t : TlbEntry) (fresh : Walk) (va : Nat) : Bool :=
  let m := s.read64 t.entryPa
  (match fresh with
    | .leaf e pa _ _ _ _ => eraseAD e == eraseAD (t.leafFor va).1 && pa == (t.leafFor va).2
    | .absent _ _ | .malformed | .held => false) &&
    eraseAD m == eraseAD t.entry && pteA m && (!(pteD t.entry) || pteD m)

/-- What a translation finds: the walk's result, the table entries read, and the cached entry that served it. -/
structure Found where
  walk : Walk
  reads : List Nat
  hit : Option TlbEntry
  deriving DecidableEq, Repr

/-- The leaf that an access uses. A cached leaf or pointer that the tables no longer hold may serve until its
invalidation is acknowledged (R295), if `usable`; an access that it would make fail walks again (R296). -/
def lookup (s : State) (ctx : CtxCopy) (unit : TUnit) (die va : Nat) (usable : Nat → Bool) : Found :=
  let fresh := walkAll s ctx unit die va
  let again : Found :=
    match walkFrom s ctx.tag unit die va true [3, 2, 1, 0] ctx.root [] false with
    | (.leaf e pa level lines path stale, reads) =>
      if !stale || usable e then ⟨.leaf e pa level lines path stale, reads, none⟩ else ⟨fresh.1, fresh.2, none⟩
    | _ => ⟨fresh.1, fresh.2, none⟩
  match cachedLeaf s ctx.tag unit die va with
  | none => again
  | some t =>
    let f := t.leafFor va
    if t.current s fresh.1 va && usable f.1 then ⟨.leaf f.1 f.2 t.level t.lines [] false, [], some t⟩
    else if !(t.current s fresh.1 va) && usable f.1 && Config.freeChoice s.fresh (8 * va + 7) % 2 == 0 then
      ⟨.leaf f.1 f.2 t.level t.lines [] true, [], some t⟩
    else again

/-- The context spans a die (R353). -/
def State.useDie (s : State) (tag : CtxTag) (die : Nat) : State :=
  let bump (u : DieUse) : DieUse := { u with mask := u.mask ||| 2 ^ die }
  if s.dieUse.any fun u => u.tag == tag then
    { s with dieUse := s.dieUse.map fun u => if u.tag == tag then bump u else u }
  else { s with dieUse := s.dieUse ++ [⟨tag, 2 ^ die⟩] }

/-- A walk has read some entries: the context spans their dies (R353), and a sector that fails its check is reported
(R343). Its value is used as it stands: log entry 116. -/
def State.noteWalk (s : State) (tag : CtxTag) (reads : List Nat) : State :=
  reads.foldl (fun s a => (s.useDie tag (dieOfPa a)).reportChecks a 8) s

/-- Entries of a translation cache (R294); the spec gives the L2 TLB no number. -/
def TUnit.entries : TUnit → Option Nat
  | .l1 _ => some Config.l1TlbEntries
  | .l2 _ => none
  | .walk _ => some Config.walkEntries
  | .relay _ => some Config.relayTlbEntries

/-- Put an entry into its cache: it replaces the one for the same page, and in a full cache an entry of a free
choice (R294, log entry 6). -/
def State.putTlb (s : State) (n : TlbEntry) : State :=
  let rest := s.tlb.filter fun t => !(t.unit == n.unit && t.tag == n.tag && t.level == n.level && t.vpn == n.vpn)
  let mine := rest.filter fun t => t.unit == n.unit && decide (t.level ≤ 3)
  let full := (n.unit.entries.map fun k => decide (k ≤ mine.length)).getD false
  let out := if full then mine[Config.freeChoice s.fresh (n.vpn + 4) % mine.length]? else none
  { s with tlb := (match out with
      | some t => rest.erase t
      | none => rest) ++ [n] }

/-- An entry for a leaf. -/
def mkTlb (unit : TUnit) (tag : CtxTag) (level va e pa : Nat) (lines : List Nat) : TlbEntry :=
  let t : TlbEntry := ⟨unit, tag, level, 0, e, pa, lines⟩
  { t with vpn := va / t.span }

/-- Record a filled translation in the unit's TLB and the L2 TLB, and the pointers walked in the walk cache (R294),
with the die it reached (R353). A relay TLB fills from the walker itself. -/
def State.fillTlb (s : State) (ctx : CtxCopy) (unit : TUnit) (die va e pa level : Nat)
    (lines : List Nat) (path : List (Nat × Nat × Nat)) : State :=
  let s := s.putTlb (mkTlb unit ctx.tag level va e pa lines)
  let s := match unit with
    | .relay _ => s
    | .l1 _ | .l2 _ | .walk _ => s.putTlb (mkTlb (.l2 die) ctx.tag level va e pa lines)
  let s := path.foldl (fun s p => s.putTlb
    ⟨.walk (walkDie unit die p.2.2), ctx.tag, p.1, va / 2 ^ (12 + 9 * p.1), p.2.1, p.2.2,
      (path.takeWhile fun q => p.1 ≤ q.1).map fun q => q.2.2 / 128⟩) s
  if region (pteFrame e) = 0 then s.useDie ctx.tag (dieOfPa (pteFrame e)) else s

/-- The entry that stands for a leaf's page: the first of a 64 KiB group (R292). -/
def pageKey (e pa : Nat) : Nat := if pteSize e = 1 then pa / 128 * 128 else pa

/-- A hardware PTE store that changes the entries of a page alike: all 16 of a 64 KiB group (R292, R295). It is no
rewrite by software (R348). -/
def State.leafStore (s : State) (pa : Nat) (f : Nat → Nat → Nat) : State :=
  let e := s.read64 pa
  let base := pageKey e pa
  let n := if pteSize e = 1 then 16 else 1
  (s.hwWrite false false base ((List.range n).flatMap fun i => leBytes 8 (f i (s.read64 (base + 8 * i))))).2

/-- A hardware PTE store (R295). -/
def State.pteStore (s : State) (pa e : Nat) : State := (s.hwWrite false false pa (leBytes 8 e)).2

/-- A hardware setting of A or D (R297). -/
def State.pteOr (s : State) (pa mask : Nat) : State :=
  (s.hwWrite true true pa (leBytes 8 (s.read64 pa ||| mask))).2

/-! The frame pool of a virtual function (R310). -/

/-- Whether [a, a + n) meets an allocated run. -/
def poolMeets (l : List (Nat × Nat)) (a n : Nat) : Bool := l.any fun r => a < r.1 + r.2 && r.1 < a + n

/-- Take a run of the pool: a frame that a rollback returned, else the place that the free choice names if it
is free, else the lowest free aligned place among the pool's base and the ends of its runs. The spec names no
place: DESIGN CHOICE, log entry 13. -/
def State.poolAlloc (s : State) (v size align : Nat) : Option (Nat × State) :=
  let f := s.vf v
  if region f.frameb ≠ 0 ∨ Config.localBytes ≤ f.frameb then none
  else
    let up (a : Nat) := (a + align - 1) / align * align
    let cands := (f.frameb :: f.pool.map fun r => r.1 + r.2).map up
    let room (a : Nat) : Bool := f.frameb ≤ a && a + size ≤ f.frameb + f.framesz && !poolMeets f.pool a size
    let first := up f.frameb + align * (Config.poolPlace s.serial f.pool.length % (f.framesz / align + 1))
    match f.spare.find? fun r => r.2 == size && r.1 % align == 0 with
    | some r => some (r.1, s.setVf v fun f => { f with pool := f.pool ++ [r], spare := f.spare.erase r })
    | none =>
      match (if room first then [first] else cands.filter room) with
      | [] => none
      | a :: r =>
        let b := r.foldl min a
        some (b, s.setVf v fun f => { f with pool := f.pool ++ [(b, size)] })

/-- Return a run to the pool. -/
def State.poolFree (s : State) (v a : Nat) : State :=
  s.setVf v fun f =>
    { f with
      pool := f.pool.filter fun r => r.1 != a
      spare := f.spare ++ f.pool.filter fun r =>
        r.1 == a && !(f.frameb ≤ r.1 && r.1 + r.2 ≤ f.frameb + f.framesz) }

/-- A frame that a rollback replaced returns to the pool (R347). -/
def State.poolReturn (s : State) (v a size : Nat) : State :=
  if (s.vf v).pool.any fun r => r.1 == a then s.poolFree v a
  else s.setVf v fun f => { f with spare := f.spare ++ [(a, size)] }

/-! Snapshots (R345, R346, R348). -/

/-- Release a launch's snapshot: W ← 1 on each leaf that software has not rewritten, copies freed (R348). -/
def State.releaseSnap (s : State) (lid : Nat) : State :=
  match s.launch? lid with
  | none => s
  | some l =>
    let s := l.snap.foldl (fun s p =>
      let s := if p.rewritten then s else s.leafStore p.leafPa fun _ e => setBits e 1 1 1
      match p.copy with
      | some c => s.poolFree l.vf c
      | none => s) s
    let s := { s with snapMarks := s.snapMarks.filter fun m => m.2 != lid }
    let s := match l.snapAt with
      | some a => s.poolFree l.vf a
      | none => s
    s.setLaunch lid fun l => { l with snap := [], snapAt := none, snapTracks := [] }

/-- A launch can no longer be rolled back; its snapshot is released (R346, R348). -/
def State.unreplay (s : State) (lid : Nat) : State :=
  match s.launch? lid with
  | none => s
  | some l =>
    if l.repl then (s.releaseSnap lid).setLaunch lid fun l => { l with repl := false } else s

/-- A page's contents copied to a pool page, sector by sector: a sector that fails its check or is
poisoned is written poisoned (R346). -/
def State.copyPage (s : State) (src dst size : Nat) : State :=
  (List.range (size / 32)).foldl (fun s i =>
    let bad := s.sectorBad (src / 32 + i)
    let data := s.homeRead (src + 32 * i) 32
    let s := s.reportChecks (src + 32 * i) 32
    let (id, s) := s.take
    s.homeWrite (.hw false bad false) id (dst + 32 * i) data) s

/-- Whether a launch's snapshot list counts for a context: a host's write has none (R346). -/
def Launch.ofCtx (l : Launch) : Option CtxTag → Bool
  | some t => l.ctx.tag.vf == t.vf && l.ctx.tag.ctx == t.ctx
  | none => true

/-- The launches whose active snapshot list protects a page without a copy of it (R346). -/
def State.protectors (s : State) (tag : Option CtxTag) (key : Nat) : List (Nat × SnapPage) :=
  (s.launches.filter fun l => l.ofCtx tag).flatMap fun l =>
    (l.snap.filter fun p => p.leafPa == key && p.copy.isNone).map fun p => (l.id, p)

/-- Whether some active snapshot list of a context holds a page (R346). -/
def State.snapshotted (s : State) (tag : CtxTag) (key : Nat) : Bool :=
  s.launches.any fun l => l.ofCtx (some tag) && l.snap.any fun p => p.leafPa == key

/-- The frame of a page as its leaf names it now (R346). -/
def State.frameOf (s : State) (p : SnapPage) : Nat := pteFrame (s.read64 p.leafPa)

/-- Copy a protected page for one list; a full pool releases that launch's snapshot (R346). -/
def State.copyFor (s : State) (lid : Nat) (p : SnapPage) : State :=
  match s.launch? lid with
  | none => s
  | some l =>
    match s.poolAlloc l.vf p.size p.size with
    | none => s.unreplay lid
    | some (c, s) =>
      let s := s.copyPage (s.frameOf p) c p.size
      let s := s.useDie l.ctx.tag (dieOfPa c)
      let s := { s with snapMarks := s.snapMarks.filter fun m => !(m.1 == p.frame && m.2 == lid) }
      s.setLaunch lid fun l => { l with snap := l.snap.map fun q =>
        if q.leafPa == p.leafPa then { q with copy := some c } else q }

/-- The copy-on-write of R346: every list gets its copy, then W ← 1 once. -/
def State.copyOnWrite (s : State) (tag : Option CtxTag) (key : Nat) : State :=
  let s := (s.protectors tag key).foldl (fun s q => s.copyFor q.1 q.2) s
  if pteW (s.read64 key) then s else s.leafStore key fun _ e => setBits e 1 1 1

/-- The lists that protect a frame against writes by physical address: by its mark, or as the frame that a listed
page's leaf names now (R346). -/
def State.copyOnPhysical (s : State) (pa len : Nat) : State :=
  let meets (f size : Nat) : Bool := decide (pa < f + size ∧ f < pa + len)
  let hits := s.launches.flatMap fun l =>
    (l.snap.filter fun p => p.copy.isNone && (meets p.frame p.size || meets (s.frameOf p) p.size)).map SnapPage.leafPa
  hits.eraseDups.foldl (fun s key => s.copyOnWrite none key) s

/-! Declared objects (R300). -/

/-- An entry of the object table as a number of 512 bits. -/
def State.objEntry (s : State) (pa : Nat) : Nat := leNat (s.homeRead pa 64)

/-- Whether a valid entry keeps the constraints of the table (R300). -/
def objWellFormed (e : Nat) : Bool :=
  bit e 224 && bits e 240 272 == 0 && bits e 230 2 == 0 && bits e 0 7 == 0 && bits e 64 7 == 0 &&
    bits e 128 7 == 0 && bits e 192 7 == 0 && decide (1 ≤ bits e 96 32) && decide (1 ≤ bits e 160 32) &&
    decide (bits e 226 4 ≤ 5)

/-- Whether an offset lies in a row of a plane. -/
def inPlane (n1 str1 len0 r : Nat) : Bool :=
  if str1 = 0 then decide (r < len0) else decide (r - min (n1 - 1) (r / str1) * str1 < len0)

/-- Whether an address belongs to an entry (R300). -/
def objCovers (e va : Nat) : Bool :=
  let base := bits e 0 64
  let len0 := bits e 64 32
  let n1 := bits e 96 32
  let str1 := bits e 128 32
  let n2 := bits e 160 32
  let str2 := bits e 192 32
  if va < base then false
  else
    let off := va - base
    let hi := if str2 = 0 then 0 else min (n2 - 1) (off / str2)
    let span := (n1 - 1) * str1 + len0
    let lo := if str2 = 0 ∨ off < span then 0 else (off - span) / str2
    (List.range (hi + 1 - lo)).any fun k => inPlane n1 str1 len0 (off - (lo + k) * str2)

/-- The lowest entry that an address belongs to: its address and value (R300). -/
def State.findObject (s : State) (objt die va : Nat) : Option (Nat × Nat) :=
  let base := objt + 2 ^ 18 * die
  ((List.range 4096).map fun i => base + 64 * i).findSome? fun pa =>
    if bit (Memory.read s.mem (pa + 28)).toNat 0 then
      let e := s.objEntry pa
      if objWellFormed e && objCovers e va then some (pa, e) else none
    else none

/-- The class and lease of a line of an object page, whether the lease has that very length (R301), and the line of
the object's entry, of which the unit becomes a translation sharer; the touch claims the object or makes it shared
(R300). Byte 29 holds OWNER, byte 28 LEASE, SH and V. -/
def State.touchObject (s : State) (ctx : CtxCopy) (unit : TUnit) (core : Option Nat) (va pa : Nat) :
    State × PClass × Nat × Bool × List Nat :=
  if ctx.objt = 0 ∨ region pa ≠ 0 then (s, .shared, 2048, false, [])
  else match s.findObject ctx.objt (dieOfPa pa) va with
    | none => (s, .shared, 2048, false, [])
    | some (epa, e) =>
      let s := s.reportChecks epa 64
      let lease := 64 * 2 ^ bits e 226 4
      let line := [epa / 128]
      -- level 4: it answers no walk, and names the sharer of the line
      let share (s : State) : State := s.putTlb ⟨unit, ctx.tag, 4, epa, e, epa, line⟩
      if bit e 225 then (share s, .shared, lease, true, line)
      else
        let owner := bits e 232 8
        match core with
        | none => (share s, .shared, lease, true, line)
        | some c =>
          if owner = c then (share s, .priv, lease, true, line)
          else if owner = 0xFF then
            (share (s.hwWrite true false (epa + 29) [BitVec.ofNat 8 c]).2, .priv, lease, true, line)
          else
            let b := bits e 224 8 ||| 2
            (share (s.hwWrite true false (epa + 28) [BitVec.ofNat 8 b]).2, .shared, lease, true, line)

/-! Translation of one access. -/

/-- The result of a translation. -/
inductive XRes where
  | ok (p : Place) (leafPa : Nat)
  | fault (entry entryPa : Nat)
  | deny
  | high
  | held
  deriving DecidableEq, Repr

/-- The claim or reclassification of a private leaf by a core's unit (R299): the leaf it then has. -/
def State.claim (s : State) (core : Option Nat) (e pa : Nat) : State × Nat :=
  match core with
  | none => (s, e)
  | some c =>
    if pteClass e ≠ .priv ∨ pteOwner e = c then (s, e)
    else
      let f (x : Nat) : Nat := if pteOwner e = 0xFF then setBits x 56 8 c else setBits (setBits x 3 2 1) 56 8 0
      (s.leafStore pa fun _ x => f x, f e)

/-- A private leaf that a unit must claim or reclassify through the tables before it uses it (R299). -/
def mustClaim (core : Option Nat) (e : Nat) : Bool :=
  pteClass e == .priv && (core.map fun c => pteOwner e != c).getD (pteOwner e == 0xFF)

/-- Install what a walk has found (R294 to R297, R299): a walk that fills sets A; a hit in the L2 TLB fills the
unit's own; what the tables no longer hold, and an unclaimed page, is installed nowhere. -/
def State.install (s : State) (ctx : CtxCopy) (unit : TUnit) (die va e pa level : Nat) (lines : List Nat)
    (path : List (Nat × Nat × Nat)) (stale : Bool) (hit : Option TlbEntry) : State :=
  if stale || (pteClass e == .priv && pteOwner e == 0xFF) then s
  else match hit with
    | some t => if t.unit == unit then s else s.putTlb { t with unit := unit }
    | none =>
      let s := if pteA e then s else s.pteOr pa (2 ^ 10)
      s.fillTlb ctx unit die va (e ||| 2 ^ 10) pa level lines path

/-- Translate an address for one access of a kind (R290 to R299): form, claim, permission, copy-on-write, TLB fill
with the A bit, and the class of the line. `die` is the die of the unit, `core` the core whose unit it is, if a
core's. -/
def translate (s : State) (ctx : CtxCopy) (unit : TUnit) (die : Nat) (core : Option Nat) (perm : Dword)
    (kind : AccKind) (va : Nat) : State × XRes :=
  if 2 ^ 48 ≤ va then (s, .high)
  else
    let found := lookup s ctx unit die va fun e => kind.allowed perm e && !(mustClaim core e)
    let s := s.noteWalk ctx.tag found.reads
    match found.walk with
    | .held => (s, .held)
    | .malformed => (s, .deny)
    | .absent e pa => (s, .fault e pa)
    | .leaf e pa level lines path stale =>
      let (s, e) := if stale then (s, e) else s.claim core e pa
      let cow := kind.writes && !pteW e && s.snapshotted ctx.tag (pageKey e pa)
      let eff := if cow then setBits e 1 1 1 else e
      if !kind.allowed perm eff then (s, .deny)
      else
        let s := if cow then s.copyOnWrite (some ctx.tag) (pageKey e pa) else s
        let e := if cow then s.read64 pa else e
        let s := s.install ctx unit die va e pa level lines path stale found.hit
        let pa' := pteFrame e + va % (if level = 0 then 2 ^ 12 else pageBytes level e)
        match gate s pa' with
        | .held => (s, .held)
        | .refused => (s, .deny)
        | .ok =>
          let s := checkPa s pa'
          let (s, cls, lease, fixed, obj) := match pteClass e with
            | .object => s.touchObject ctx unit core va pa'
            | c => (s, c, 2048, false, [])
          let from' := match found.hit with
            | some t => [t.unit]
            | none => if stale then path.map fun p => TUnit.walk (walkDie unit die p.2.2) else []
          (s, .ok ⟨false, pa', cls, lease, fixed, (unit :: from').eraseDups, lines ++ obj, stale, some pa⟩ pa)

/-- Before a write is performed through a leaf with D = 0, the writing unit sets D in it, if the entry still is the
leaf of the bytes written (R297). -/
def State.setDirtyBit (s : State) (p : Place) : State :=
  match p.leaf with
  | none => s
  | some a =>
    let e := s.read64 a
    let size := match pteSize e with
      | 2 => 2 ^ 21
      | 3 => 2 ^ 30
      | _ => 2 ^ 12
    if pteV e && !(pteTbl e) && !(pteD e) && decide (pteFrame e ≤ p.addr ∧ p.addr < pteFrame e + size) then
      s.pteOr a (2 ^ 11)
    else s

/-! Page faults (R305). -/

/-- Request a page of the migration arbiter, or write one fault record for the page (R305, R309, R312). -/
def State.reportFault (s : State) (lid wgid va acc entry entryPa : Nat) : State :=
  match s.launch? lid with
  | none => s
  | some l =>
    if pteMig entry then
      let (id, s) := s.take
      { s with migReqs := s.migReqs ++ [⟨id, entryPa, pteFrame entry, lid, wgid, va, s.time, false⟩] }
    else
      let page := va / 4096
      if s.reported.any fun r => r.1.tag == l.ctx.tag && r.2 == page then s
      else
        let s := { s with reported := s.reported ++ [(l.ctx, page)] }
        s.notify l.vf (notifyRecord va l.rcd.ident wgid l.rcd.job l.rcd.ctx acc 1)

/-- The access bits of a fault record (R312): read, write, fetch. -/
def AccKind.accBits : AccKind → Nat
  | .read => 1
  | .write => 2
  | .rmw => 3
  | .exec => 4
  | .any => 1

/-- Watch the line of a page fault for a workgroup, report the fault, and change the phase (R305). -/
def State.watchFault (s : State) (wg va : Nat) (kind : AccKind) (entry entryPa : Nat)
    (next : WgPhase → WgPhase) : State :=
  match s.wg? wg with
  | none => s
  | some w =>
    let s := s.setWg wg fun w =>
      { w with
        watches := if w.watches.contains (entryPa / 128) then w.watches else w.watches ++ [entryPa / 128]
        faults := if w.faults.contains va then w.faults else w.faults ++ [va]
        phase := next w.phase }
    s.reportFault w.launch w.wgid va kind.accBits entry entryPa

/-- A workgroup that is not swapped out yet is to be swapped at its next slot (R181). -/
def WgPhase.struck : WgPhase → WgPhase
  | .swapped => .swapped
  | .running | .swapPending | .stopPending | .resuming => .swapPending

/-- A workgroup that runs is to be swapped at the stride boundaries of its rigs (R246). -/
def WgPhase.stopped : WgPhase → WgPhase
  | .running | .resuming => .stopPending
  | .swapPending => .swapPending
  | .stopPending => .stopPending
  | .swapped => .swapped

/-- Take a page fault of a lane of a workgroup (R181, R305). -/
def State.takeFault (s : State) (wg va : Nat) (kind : AccKind) (entry entryPa : Nat) : State :=
  s.watchFault wg va kind entry entryPa WgPhase.struck

/-- Take a page fault of an engine command of a workgroup (R246, R305). -/
def State.stopFault (s : State) (wg va : Nat) (kind : AccKind) (entry entryPa : Nat) : State :=
  s.watchFault wg va kind entry entryPa WgPhase.stopped

/-- Dirty tracking of a write to virtual addresses (R308): an OR at the bitmap byte of each unit. -/
def State.markDirty (s : State) (ctx : CtxCopy) (va len : Nat) : State :=
  if ctx.dbm = 0 ∨ len = 0 then s
  else
    let u0 := va / 4096
    let n := (va + len - 1) / 4096 - u0 + 1
    (List.range n).foldl (fun s i =>
      let u := u0 + i
      if ctx.dlo ≤ u ∧ u < ctx.dhi then
        let pa := ctx.dbm + (u - ctx.dlo) / 8
        let b := Memory.read s.mem pa ||| BitVec.ofNat 8 (2 ^ ((u - ctx.dlo) % 8))
        (s.hwWrite true false pa [b]).2
      else s) s

end Sys2Proof.Machine
end

