-- ==== Sys2Proof/Machine/Ops.lean ====
section
/-! DEFINITION. The operations that the meanings share: ends of launches, protected pairs, the issue of a
slot to its lanes, control transfer, taking an exception and returning from one, and the memory accesses
of a core. -/

namespace Sys2Proof.Machine

/-! Failures of a launch. -/

/-- A launch ends early with a status: a hard cancel of it, the first status kept (R325); a rollback that it waits for
is not made. -/
def State.failLaunch (s : State) (lid : Nat) (st : LStatus) (cause faddr : Nat) : State :=
  s.setLaunch lid fun l =>
    if l.status == .done then
      { l with status := st, cause := cause, faddr := faddr, noPlace := true, hard := true, rollback := none }
    else { l with noPlace := true, hard := true, rollback := none }

/-- A launch meets a cause of rollback: rolled back if replayable, the fourth counted cause and any cause
of an unreplayable launch end it with the status given (R344, R347, R350, R355). -/
def State.rollbackOr (s : State) (lid : Nat) (st : LStatus) : State :=
  match s.launch? lid with
  | none => s
  | some l =>
    if l.repl && l.status == .done then
      if 3 ≤ l.rollbacks then s.failLaunch lid .contained 0 0
      else s.setLaunch lid fun l => { l with rollback := some true, hard := true, noPlace := true }
    else s.failLaunch lid st 0 0

/-- A launch consumes a poisoned value (R344). -/
def State.consume (s : State) (lid : Nat) : State := s.rollbackOr lid .contained

/-- A protected pair disagrees (R350). -/
def State.pairMismatch (s : State) (wg : Nat) : State :=
  match s.launchOf? wg with
  | none => s
  | some l =>
    (s.notify pfNumber (notifyRecord 0 l.rcd.ident 0 l.rcd.job l.rcd.ctx 0 0x13)).rollbackOr l.id .contained

/-- The lanes that are in the middle of a stride: those of the groups that hold a port or were cut. -/
def State.midStride (s : State) (core : Nat) : List LaneRef :=
  (s.core core).bays.flatMap fun b =>
    ((b.port.map Group.lanes).getD []) ++ b.cut.flatMap Group.lanes

/-- Take the lanes of some workgroups out of every group. -/
def Bay.strip (y : Bay) (out : LaneRef → Bool) : Bay :=
  let cut (g : Group) : Group := { g with lanes := g.lanes.filter fun l => !(out l) }
  { y with port := y.port.map cut, cut := (y.cut.map cut).filter fun g => !g.lanes.isEmpty }

/-- The tile sets that a command works on (R250, R255, R259). -/
def Cmd.sets (c : Cmd) : List Nat :=
  match c.instr with
  | .mma _ _ _ _ _ | .mma16 _ _ _ _ _ | .mzero _ _ _ => [c.set]
  | .att _ e abs _ _ _ =>
    let dc := if bit (c.block.getD 5 0#32).toNat 18 then 512 else 256
    let n := if e then 1 else if abs then dc / 128 else dc / 256
    (List.range n).map fun i => c.set + i
  | .attfin _ _ _ _ => (List.range (bits (c.block.getD 0 0#32).toNat 3 2 + 1)).map fun i => c.set + i
  | _ => []

/-- Lanes of a rig find the tokens of a mask at zero: their threads read nothing older than the acquires of the
commands counted there have read (R215), and the tile sets of the commands are theirs again (R218). -/
def Rig.tokenWait (q : Rig) (fresh mask : Nat) (lanes : List Nat) : Rig :=
  let floor := (List.range 8).foldl (fun n k => if bit mask k then max n (Map.get 0 q.tokPub k) else n) 0
  let ends (v : AccWindow) (i : Nat) : Bool := bit mask v.tok && lanes.contains i && v.lanes.contains i
  let spoiled (i : Nat) : List Nat := (q.windows.filter fun v => v.touched && ends v i).flatMap AccWindow.sets
  if lanes.isEmpty then q
  else { q with
    windows := (q.windows.map fun v => { v with lanes := v.lanes.filter fun i => !(ends v i) }).filter fun v =>
      !v.lanes.isEmpty
    threads :=
      if floor = 0 ∧ q.windows.isEmpty then q.threads
      else q.threads.mapIdx fun i t =>
        if lanes.contains i then
          let u := t.spoil fresh i (spoiled i)
          { u with readfloor := max u.readfloor floor }
        else t }

/-- A write of an engine command whose token lanes have found at zero counts for their releases (R218). -/
def Track.waited (mask : Nat) (ls : List LaneRef) (t : Track) : Track :=
  match t.lane, t.tok with
  | some m, some k =>
    if m.lane == engineLane && bit mask k then
      { t with waiters := t.waiters ++ (lanesIn ls m.wg m.rig).filter fun i => !(t.waiters.contains i) }
    else t
  | _, _ => t

/-- The wait of lanes that observes the tokens of a mask at zero (R183, R210): their releases wait for the global
writes of the commands counted there, too (R218). -/
def State.tokenWait (s : State) (mask : Nat) (ls : List LaneRef) : State :=
  if mask = 0 then s
  else
    let s := { s with tracks := s.tracks.map (Track.waited mask ls) }
    s.mapRigs fun wg rig q => q.tokenWait s.fresh mask (lanesIn ls wg rig)

/-! Barrier slots and wakes (R34, R163, R196 to R200). -/

/-- The fields of a barrier slot as one number of 128 bits. -/
def Workgroup.slotBits (w : Workgroup) (a : Nat) : Nat := leNat (Memory.readN w.loft a 16)

def Workgroup.setSlot (w : Workgroup) (a v : Nat) : Workgroup :=
  { w with loft := Memory.writeN w.loft a (leBytes 16 v) }

/-- Whether the slot at an address is live (R197). -/
def Workgroup.isLive (w : Workgroup) (a : Nat) : Bool := w.live.contains (a / 16)

/-- The tag of a slot: MAGIC and GEN (R196). -/
def slotTag (v : Nat) : Nat := bits v 96 32

/-- Whether the wake condition of a parked thread holds, or has held since it was parked (R34, R163). -/
def State.wakeHolds (s : State) (l : LaneRef) (w : Wake) : Bool :=
  match s.wg? l.wg with
  | none => false
  | some g =>
    ((g.rigs[l.rig]?).map fun q => q.due.contains l.lane).getD false ||
      match w with
      | .phase a ph => !(g.isLive a) || (bit (g.slotBits a) 48 != ph)
      | .token k => s.tokView l k == 0
      | .wptr ch v => decide ((Map.get 0#32 g.chans ch - v).toNat < 2 ^ 31)

/-- What a thread observes as its wake condition holds: the completion that a token counts (R210), or the flip of a
phase with what its arrivals have brought along (R211, R219). -/
def State.observe (s : State) (l : LaneRef) (w : Wake) : State :=
  match w with
  | .token k => s.tokenWait (2 ^ k) [l]
  | .phase a _ =>
    match s.wg? l.wg with
    | some g =>
      if g.isLive a then
        s.setThread l fun t => { t with readfloor := max t.readfloor (Map.get (0, 0) g.slotPub (a / 16)).2 }
      else s
    | none => s
  | .wptr _ _ => s

/-- The parked lanes of a workgroup whose condition holds and has not been noted. -/
def State.newlyDue (s : State) (wg : Nat) : List (LaneRef × Wake) :=
  match s.wg? wg with
  | none => []
  | some g =>
    (List.range g.rigs.length).flatMap fun r =>
      (rigLanes wg r).filterMap fun l =>
        match (s.thread l).life with
        | .parked c =>
          if (((g.rigs[r]?).map Rig.due).getD []).contains l.lane || !(s.wakeHolds l c) then none else some (l, c)
        | .running | .absent | .exited => none

/-- A token of a workgroup has fallen, a slot or a write pointer of it has changed: the parked threads whose
condition holds now are to wake, whatever comes before their WAKE (R34, R200). -/
def State.noteWakes (s : State) (wg : Nat) : State :=
  (s.newlyDue wg).foldl (fun s x =>
    (s.observe x.1 x.2).setRig x.1.wg x.1.rig fun q => { q with due := q.due ++ [x.1.lane] }) s

/-- Give a barrier slot new bits, `floor` being what the arrival or the landing brings along (R211). -/
def State.putSlot (s : State) (wg a v floor : Nat) : State :=
  (s.setWg wg fun w =>
    let p := Map.get (0, 0) w.slotPub (a / 16)
    let now := max p.1 floor
    let flips := bit (w.slotBits a) 48 != bit v 48
    { w.setSlot a v with
      slotPub := Map.set (0, 0) w.slotPub (a / 16) (if flips then (0, max p.2 now) else (now, p.2)) }).noteWakes wg

/-- A command leaves its engine: the token that it counts falls (R244). What its acquires have read, and the tile
sets that it worked on, pass to the threads as they wait for the token (R215, R218). -/
def State.lowerToken (s : State) (c : Cmd) : State :=
  match c.tok with
  | some k =>
    let lanes := (s.liveLanes c.lane.wg c.lane.rig).map LaneRef.lane
    (s.setRig c.lane.wg c.lane.rig fun r =>
      { r.addTok k false with
        tokPub := if c.pub = 0 then r.tokPub else Map.set 0 r.tokPub k (max c.pub (Map.get 0 r.tokPub k))
        windows := if c.sets.isEmpty || lanes.isEmpty then r.windows else r.windows ++ [⟨c.sets, k, lanes, false⟩] }).noteWakes c.lane.wg
  | none => s

/-- Remove a command with its token. -/
def State.dropCmd (s : State) (c : Cmd) : State :=
  let s := s.lowerToken c
  { s with cmds := s.cmds.filter fun d => d.id != c.id }

/-- The kernels, grid tables and banks that a core still holds for its workgroups: a dictionary slot stays
while a resident workgroup of the image runs there (R27), a grid table and a bank while a workgroup of the
launch is resident, one that is swapped out included (R101, R258). -/
def State.tidy (s : State) (core : Nat) : State :=
  let here := s.wgs.filter fun w => w.core == core
  let lids := here.map Workgroup.launch
  let kimgs := (here.filter fun w => w.phase != .swapped).filterMap fun w =>
    (s.launch? w.launch).map fun l => l.rcd.kimg
  s.setCore core fun k =>
    { k with
      kslots := k.kslots.map fun q => q.bind fun q => if kimgs.contains q.kimg then some q else none
      grids := k.grids.filter lids.contains
      banks := k.banks.map fun b => b.map fun b => if lids.contains b.launch then b else { b with launch := 0 } }

/-- The groups of a core that hold lanes of a workgroup. -/
def State.groupsOf (s : State) (w : Workgroup) : List Group :=
  ((s.core w.core).bays.flatMap fun y => y.port.toList ++ y.cut).filter fun g => g.lanes.any fun l => l.wg == w.id

/-- Whether a slot of a group has retired for every lane that was to do its part: nothing of it is done while
something is left (R181). A replay list without room lets the swap come before that (R306). -/
def Group.retired (g : Group) (w : Workgroup) : Bool :=
  (g.served.isEmpty && g.work.isEmpty) || decide (Config.replayEntries ≤ w.replay.length)

/-- Whether a workgroup that is to be swapped stands at its boundary: between two slots after an access
faulted (R181), at a stride boundary of each rig after a command stopped (R246); its loads and atomics that
did not fault have landed. -/
def State.swapReady (s : State) (w : Workgroup) : Bool :=
  !(s.loads.any fun p => p.lane.wg == w.id) &&
    match w.phase with
    | .swapPending => (s.groupsOf w).all fun g => g.retired w
    | .stopPending => (s.groupsOf w).isEmpty
    | .running | .swapped | .resuming => false

/-- Whether a thread that is in no group stands in the middle of a stride all the same (R50): one that a swap has saved
there. One that TRET has sent back counts as at a boundary: log entry 111. -/
def Thread.inStride (t : Thread) : Bool := t.slot.isSome && t.restored

/-- What a workgroup has yet to perform before it runs again (R306). -/
def Workgroup.listed (w : Workgroup) : List Replay := w.replay ++ w.again

/-- A workgroup under a hard cancel as its threads end: those at a boundary, and all of one that `late` says would be
swapped now (R38, R326). What its strides still need, its replay list, stays until they end (R50). -/
def Workgroup.endThreads (w : Workgroup) (mid : List LaneRef) (cut late : Bool) : Workgroup :=
  let ends (r i : Nat) (t : Thread) : Bool := t.alive && (late || !(mid.contains ⟨w.id, r, i⟩ || t.inStride))
  { w with
    replay := if late then [] else w.replay
    again := if late then [] else w.again
    phase := if late then .running else match w.phase with
      | .stopPending => .running
      | .resuming => if w.listed.isEmpty then .running else .resuming
      | p => p
    ended := w.ended || cut || (w.rigs.mapIdx fun r q => (q.threads.mapIdx fun i t => ends r i t).contains true).contains true
    rigs := w.rigs.mapIdx fun r q =>
      { q with threads := q.threads.mapIdx fun i t => if ends r i t then { t with life := .exited } else t } }

/-- The lanes of killed contexts on a core whose slot waits: nothing ends that wait but the kill, with which their
threads end (R195, R354). -/
def State.stuckLanes (s : State) (core : Nat) : List LaneRef :=
  ((s.core core).bays.flatMap fun y => (y.port.toList ++ y.cut).filter Group.stalled).flatMap fun g =>
    g.lanes.filter fun l => s.killed l.wg

/-- A hard cancel takes effect on the launches under one: their threads that stand at a boundary end, their commands
stop, their workgroups that are swapped out or would be now count as ended, and their frames are discarded (R38,
R247, R326). A stride that runs goes on to its end. -/
def State.sweep (s : State) : State :=
  let hard := (s.launches.filter Launch.hard).map Launch.id
  let gone (w : Workgroup) : Bool := hard.contains w.launch
  if !(s.wgs.any gone) then s
  else
    let dead := (s.wgs.filter gone).map Workgroup.id
    let late := (s.wgs.filter fun w => gone w && w.phase == .swapPending && s.swapReady w).map Workgroup.id
    let out := s.wgs.filter fun w => gone w && w.phase == .swapped
    let s := out.foldl
      (fun s w => match w.frame, s.launch? w.launch with
        | some f, some l => s.poolFree l.vf f.1
        | _, _ => s) s
    let stuck := (List.range s.cores.length).flatMap s.stuckLanes
    let cut := (s.cmds.filter fun c => dead.contains c.lane.wg).map fun c => c.lane.wg
    let s := (s.cmds.filter fun c => dead.contains c.lane.wg).foldl State.dropCmd s
    let s := { s with
      cores := s.cores.map fun k =>
        { k with bays := k.bays.map fun y => y.strip fun l => late.contains l.wg || stuck.contains l }
      wgs := (s.wgs.filter fun w => !(gone w && w.phase == .swapped)).map fun w =>
        if gone w then w.endThreads ((s.midStride w.core).filter fun l => !(stuck.contains l)) (cut.contains w.id) (late.contains w.id) else w }
    (out.map Workgroup.core).eraseDups.foldl State.tidy s

/-- A lane's part of a held slot is done. -/
def State.serve (s : State) (l : LaneRef) : State :=
  s.setGroup fun g => if g.lanes.contains l then { g with served := g.served ++ [l] } else g

/-! Protected pairs (R349, R350). -/

/-- The lanes that receive a result of a lane: under protected mode both lanes of its pair. -/
def State.twins (s : State) (l : LaneRef) : List LaneRef :=
  if s.prot l.wg then [{ l with lane := l.lane / 2 * 2 }, { l with lane := l.lane / 2 * 2 + 1 }] else [l]

/-- The lanes that perform a compared point: every lane of an unprotected launch, and the primary of each
pair whose lanes agree. A pair that disagrees performs nothing at the slot, for which it is done (R350). -/
def State.agree {α : Type} [DecidableEq α] (s : State) (xs : List (LaneRef × α)) :
    State × List (LaneRef × α) :=
  xs.foldl (fun (acc : State × List (LaneRef × α)) x =>
    let l := x.1
    if !(acc.1.prot l.wg) then (acc.1, acc.2 ++ [x])
    else
      let mate : LaneRef := { l with lane := if l.lane % 2 = 0 then l.lane + 1 else l.lane - 1 }
      match xs.find? fun y => y.1 == mate with
      | some y =>
        if l.lane % 2 = 1 then acc
        else if y.2 = x.2 then (acc.1, acc.2 ++ [x])
        else (((acc.1.pairMismatch l.wg).serve l).serve mate, acc.2)
      | none => ((acc.1.pairMismatch l.wg).serve l, acc.2)) (s, [])

/-- The same for points that carry no value but the lanes themselves. -/
def State.agreeLanes (s : State) (ls : List LaneRef) : State × List LaneRef :=
  let r := s.agree (ls.map fun l => (l, ()))
  (r.1, r.2.map Prod.fst)

/-! The issue of a slot. -/

/-- n, s and b of a lane's launch (R20). -/
def State.limits (s : State) (wg : Nat) : Nat × Nat × Nat :=
  match s.launchOf? wg with
  | some l => (l.rcd.nreg, l.rcd.nacc, l.rcd.loftb)
  | none => (0, 0, 0)

/-- The destination registers that loads and commands have not written yet (R184, R259, R260). -/
def State.unread (s : State) (l : LaneRef) : List Nat :=
  (s.loads.flatMap fun p =>
    if (s.twins p.lane).contains l then
      match p.kind with
      | .reg d ty => if ty.wide then [d, d + 1] else [d]
      | .block d => (List.range 8).map fun i => d + i
      | .refill => []
    else []) ++
  s.cmds.flatMap fun c =>
    if c.lane.wg == l.wg && c.lane.rig == l.rig && c.lanes.contains l.lane then
      match c.instr with
      | .attfin _ _ d _ | .kvlook _ _ d _ => (List.range 4).map fun i => d.gnum + i
      | _ => []
    else []

/-- The tile sets of the completed commands of a rig that a lane's thread has not waited for (R218). -/
def State.windowSets (s : State) (l : LaneRef) : List Nat :=
  ((s.rig? l.wg l.rig).map fun q =>
    (q.windows.filter fun v => v.lanes.contains l.lane).flatMap AccWindow.sets).getD []

/-- What a lane's operands depend on beside its thread. -/
def State.env (s : State) (l : LaneRef) : Env :=
  { lane := l
    aset := ((s.rig? l.wg l.rig).map fun r => r.aset.toNat).getD 0
    unread := s.unread l
    busy := ((s.cmds.filter fun c => c.lane.wg == l.wg && c.lane.rig == l.rig).flatMap Cmd.sets) ++ s.windowSets l
    fresh := s.fresh }

/-- A slot of some lanes of a rig reaches the tile set `set` in the windows of completed commands: its rows are
unspecified, and stay so for each thread that has yet to wait (R218). -/
def Rig.touch (q : Rig) (fresh set : Nat) (lanes : List Nat) : Rig :=
  let hit (v : AccWindow) : Bool := v.sets.contains set && lanes.any v.lanes.contains
  if q.windows.any hit then
    { q with
      windows := q.windows.map fun v => if hit v then { v with touched := true } else v
      threads := q.threads.mapIdx fun i t => t.spoil fresh i [set] }
  else q

/-- Mark the commands whose tile sets the accumulator operands of a slot touch, and the completed ones that its
lanes have not waited for (R218). -/
def State.taint (s : State) (ls : List LaneRef) (ops : List Opnd) : State :=
  if ops.any Opnd.isAcc then
    let hit (c : Cmd) : Bool := ls.any fun l =>
      c.lane.wg == l.wg && c.lane.rig == l.rig && c.sets.contains (s.env l).aset
    let s := { s with cmds := s.cmds.map fun (c : Cmd) => if hit c then { c with tainted := true } else c }
    s.mapRigs fun wg rig q => q.touch s.fresh q.aset.toNat (lanesIn ls wg rig)
  else s

/-- Take a lane out of the group that holds the port: it has left the stride (R30). -/
def State.leave (s : State) (l : LaneRef) : State :=
  s.setGroup fun g => { g with lanes := g.lanes.filter (· != l) }

/-- The slot of the group is held and retried (R33). -/
def State.stall (s : State) : State := s.setGroup fun g => { g with stalled := true }

/-! Control transfer (R54). -/

/-- The dictionary slot of a code space on a core. -/
def State.kslot? (s : State) (core k : Nat) : Option KSlot := ((s.core core).kslots[k]?).join

/-- Whether an address is that of a stride header of the code section (R44, R54). -/
def KSlot.isHeader (k : KSlot) (pc : Nat) : Bool :=
  decide (k.base ≤ pc) && (pc - k.base) % 8 == 0 && k.heads.contains ((pc - k.base) / 8)

/-- Whether a lane of a group on a core may continue at an address (R54). -/
def State.validIn (s : State) (core : Nat) (g : Group) (pc : Nat) : Bool :=
  ((s.kslot? core g.kslot).map fun k => k.isHeader pc).getD false

/-- Whether a lane of the group may continue at an address (R54). -/
def State.validTarget (s : State) (pc : Nat) : Bool :=
  match s.group? with
  | none => false
  | some g => s.validIn s.focus.1 g pc

/-- The fall-through address of the group's stride (R47, R156). -/
def Group.fall (g : Group) : Nat := (g.pc.toNat + g.size) % 2 ^ 64

/-- The bay cycle of the bay that acts. -/
def State.cycle (s : State) : Nat := (s.bay s.focus.1 s.focus.2).cycle

/-- A lane's program counter becomes an address, ready in this bay cycle (R28, R54). -/
def State.goTo (s : State) (l : LaneRef) (pc : Nat) : State :=
  s.setThread l fun t => { t with pc := BitVec.ofNat 64 pc, slot := none, age := s.cycle }

/-! Memory accesses of a core. -/

/-- A place in the loft. -/
def loftPlace (a : Nat) : Place := ⟨true, a, .priv, 0, false, [], [], false, none⟩

/-- Translate a global access of a lane for its workgroup (R180, R293). -/
def State.coreAccess (s : State) (l : LaneRef) (kind : AccKind) (va : Nat) : State × XRes :=
  match s.wg? l.wg with
  | none => (s, .deny)
  | some w =>
    match s.launch? w.launch with
    | none => (s, .deny)
    | some k => translate s k.ctx (.l1 w.core) (dieOf w.core) (some w.core) w.pkperm kind va

/-- Send a store of a thread at a scope on its way (R186, R205), as part of the slot with a number (R182). -/
def State.addStoreOf (s : State) (issue : Nat) (sc : Scope) (l : LaneRef) (p : Place) (va : Nat) (data : List Byte) :
    State :=
  match s.wg? l.wg with
  | none => s
  | some w =>
    let (id, s) := s.take
    { s with stores := s.stores ++ [⟨id, issue, l, w.launch, w.core, p, va, data, sc, none, none, false⟩] }

/-- Send a store that belongs to no store slot: a plain one at wg scope (R205). -/
def State.addStore (s : State) (l : LaneRef) (p : Place) (va : Nat) (data : List Byte) : State :=
  s.addStoreOf s.fresh .wg l p va data

/-- Number the accesses of the slot that issues: a slot that is held keeps its number (R182). -/
def State.numberSlot (s : State) : State :=
  s.setGroup fun g => if g.served.isEmpty then { g with issue := s.fresh, missed := [] } else g

/-- The number of the slot that issues. -/
def State.slotIssue (s : State) : Nat := (s.group?.map Group.issue).getD s.fresh

/-- Whether a workgroup's replay list has no room: an access that faults is then taken again after the swap (R306). -/
def Workgroup.listFull (w : Workgroup) : Bool := decide (Config.replayEntries ≤ w.replay.length)

def State.replayFull (s : State) (wg : Nat) : Bool := ((s.wg? wg).map Workgroup.listFull).getD false

/-- Put an entry on a workgroup's replay list (R306), for a spill or a refill with the stack before it (R160). An access
whose slot is held asks for room first; the store of a trap frame or of a CVTX entry, whose slot goes on, waits beside
a full list with what it captured (log entry 99). -/
def State.addReplay (s : State) (l : LaneRef) (kind : ReplayKind) (word : Dword) (va : Nat)
    (data : List Byte) (stack : Option (List Dword × Nat) := none) : State :=
  let (pc, slot) := (s.group?.map fun g => (g.pc, g.slot)).getD (0#64, 0)
  s.setWg l.wg fun w =>
    let r : Replay := ⟨kind, l.rig, l.lane, word, va, data, w.pkperm, pc, slot, s.slotIssue, stack⟩
    if w.listFull then { w with again := w.again ++ [r] } else { w with replay := w.replay ++ [r] }

/-- A workgroup with an access that cannot be made yet is swapped like a faulted one. -/
def State.swapLater (s : State) (wg : Nat) : State :=
  s.setWg wg fun w => { w with phase := w.phase.struck }

/-! Taking an exception. -/

/-- The cause codes of R165. -/
def causeILLINS : Nat := 1
def causeILLOPD : Nat := 2
def causeSFRAME : Nat := 3
def causeFMTDIV : Nat := 4
def causeMISAL : Nat := 5
def causeLOFTB : Nat := 6
def causePKEY : Nat := 7
def causeBARMIS : Nat := 8
def causeBAREXC : Nat := 9
def causeOBJMIS : Nat := 10
def causeCSPILL : Nat := 11
def causeFORKD : Nat := 12
def causeSWTRAP : Nat := 16
def causeBREAK : Nat := 17

/-- What a trap records beside the place where it struck (R167): `header` for a trap at a header (R49),
`after` for TRAP and BRK, whose SLOT is the index after the instruction (R169). -/
structure TrapInfo where
  cause : Nat
  faddr : Nat
  imm : Nat
  header : Bool
  after : Bool
  deriving DecidableEq, Repr

/-- A trap with a cause and a faulting address. -/
def TrapInfo.of (cause faddr : Nat) : TrapInfo := ⟨cause, faddr, 0, false, false⟩

/-- The word of a slot. A dictionary code that names no entry has none: the frame of its trap records zero, log
entry 89. -/
def SlotWord.toWord : SlotWord → Dword
  | .word w => w
  | .badCode => 0#64
  | .filler => 0#64

/-- The word in the slot that the group is issuing. -/
def Group.word (g : Group) : Dword := (g.words.getD g.slot .filler).toWord

/-- The 128 bytes of a trap frame (R167). The layout has no field for the stochastic register, which is saved beside it
(R106): log entry 93. -/
def trapFrame (g : Group) (t : Thread) (i : TrapInfo) : List Byte :=
  let slot := if i.header then 0xFF else if i.after then g.slot + 1 else g.slot
  let temp (k : Nat) : List Byte := leBytes 4 (if i.header then 0 else (Map.get 0#32 t.temps k).toNat)
  leBytes 8 g.pc.toNat ++ leBytes 1 i.cause ++ leBytes 1 slot ++ leBytes 2 (if i.header then 1 else 0) ++
    leBytes 4 i.imm ++ leBytes 8 i.faddr ++ leBytes 8 (if i.header then 0 else g.word.toNat) ++
    (List.range 8).flatMap temp ++ leBytes 4 t.preds.toNat ++ leBytes 60 0

/-- Store the trap frame of a lane, of a protected pair that of the primary (R166, R350): whether it could be stored. A
page fault puts it on the replay list. -/
def State.storeFrame (s : State) (l : LaneRef) (data : List Byte) : State × Bool :=
  let va := s.tframe l
  match s.coreAccess l .write va with
  | (s, .ok p _) => (s.addStore l p va data, true)
  | (s, .fault e pa) => ((s.addReplay l .tframe 0#64 va data).takeFault l.wg va .write e pa, true)
  | (s, .held) => ((s.addReplay l .tframe 0#64 va data).swapLater l.wg, true)
  | (s, .deny) => (s, false)
  | (s, .high) => (s, false)

/-- Taking an exception (R166) in a stride `g` of a core: the frame at %tframe saves the header, slot,
cause, address, word, temporaries and predicates; the lane, with its shadow, enters its handler, unless it is in one
already or the launch names none, when the launch ends with UNHANDLED TRAP. Where the handler's own address fails R54,
the frame and the record name it as the refused target: log entry 105. -/
def State.trapIn (s : State) (core : Nat) (g : Group) (l : LaneRef) (i : TrapInfo) : State :=
  match s.launchOf? l.wg with
  | none => s
  | some k =>
    let t := s.thread l
    let frame := s.tframe l
    let enters (s : State) : State := s.setThreads (s.twins l) fun _ t =>
      { t with inHandler := true, trapLfsr := t.lfsr }
    let (s, stored) := s.storeFrame l (trapFrame g t i)
    if !stored then s.failLaunch k.id .unhandledTrap i.cause frame
    else if t.inHandler || k.rcd.handler == 0 then s.failLaunch k.id .unhandledTrap i.cause i.faddr
    else if s.validIn core g k.rcd.handler then
      (s.twins l).foldl (fun s m => s.goTo m k.rcd.handler) (enters s)
    else
      -- the handler's address fails R54: a trap while in_handler
      let i' : TrapInfo := ⟨causeSFRAME, k.rcd.handler, 0, i.header, false⟩
      ((enters s).storeFrame l (trapFrame g t i')).1.failLaunch k.id .unhandledTrap causeSFRAME k.rcd.handler

/-- Deliver traps to struck lanes of a stride; the two lanes of a protected pair must be struck alike, with the same
frame to store, which is stored once (R350). A pair that disagrees is not delivered: its launch is rolled back or
ends. -/
def State.strikeIn (s : State) (core : Nat) (g : Group) (xs : List (LaneRef × TrapInfo)) : State :=
  let frame (x : LaneRef × TrapInfo) : List Byte := if s.prot x.1.wg then trapFrame g (s.thread x.1) x.2 else []
  let (s, ok) := s.agree (xs.map fun x => (x.1, x.2, frame x))
  ok.foldl (fun s x => s.trapIn core g x.1 x.2.1) s

/-- Deliver traps in the stride that issues (R166): the struck lanes leave it (R30). -/
def State.strike (s : State) (xs : List (LaneRef × TrapInfo)) : State :=
  match s.group? with
  | none => s
  | some g => xs.foldl (fun s x => s.leave x.1) (s.strikeIn s.focus.1 g xs)

/-- Strike lanes alike. -/
def State.strikeAll (s : State) (ls : List LaneRef) (i : TrapInfo) : State :=
  s.strike (ls.map fun l => (l, i))

/-- Move a lane, with its shadow, to an address, out of its stride. -/
def State.moveTo (s : State) (l : LaneRef) (pc : Nat) : State :=
  (s.twins l).foldl (fun s m => (s.goTo m pc).leave m) s

/-- Strike a lane, with its shadow. -/
def State.strikePair (s : State) (l : LaneRef) (i : TrapInfo) : State :=
  s.strikeAll (s.twins l) i

/-- A lane whose instruction has consumed a poisoned value leaves its stride: its launch ends (R344). -/
def State.leavePair (s : State) (l : LaneRef) : State := (s.twins l).foldl State.leave s

/-- Check 6 of R70 for a lane. -/
def State.legalFor (s : State) (l : LaneRef) (i : Instr) : Bool :=
  let (n, ns, _) := s.limits l.wg
  legal n ns i

/-- Lanes in ascending order, each once (R182). -/
def ascending (ls : List LaneRef) : List LaneRef :=
  (List.range 64).flatMap fun i => (ls.filter fun l => l.lane == i).eraseDups

/-- Issue a slot: check 6 for each rig, then the lanes whose guard is true execute (R66, R70). Outside
an issue nothing happens. -/
def issue (i : Instr) (gd : Guard) (s : State) (f : State → List LaneRef → State) :
    Host.Outcome State Fault Refusal :=
  let s := { s with fresh := s.fresh + 1 }
  match s.group? with
  | none => conclude s
  | some g =>
    let s := s.strikeAll (g.lanes.filter fun l => !(s.legalFor l i)) (.of causeILLOPD 0)
    let ls := (g.lanes.filter fun l => s.legalFor l i).filter fun l =>
      gd.holds (s.thread l) && !(g.served.contains l)
    conclude (f s (ascending ls))

/-- A slot in which each lane changes its own thread alone (R8). In a protected launch the two lanes of a
pair must write the same accumulator element (R350). -/
def State.mapLanes (s : State) (ls : List LaneRef) (f : Env → Thread → Thread) : State :=
  let news := ls.map fun l => (l, f (s.env l) (s.thread l))
  let (s, ok) := if news.any (fun x => s.prot x.1.wg && x.2.rows != (s.thread x.1).rows) then
      let r := s.agree (news.map fun x => (x.1, x.2.rows))
      (r.1, r.2.flatMap fun y => r.1.twins y.1)
    else (s, ls)
  news.foldl (fun s x => if ok.contains x.1 then s.setThread x.1 (fun _ => x.2) else s) s

/-- A slot whose lanes only compute (R8, R66, R70): `ops` lists its operands. -/
def lanewise (i : Instr) (gd : Guard) (ops : List Opnd) (s : State) (f : Env → Thread → Thread) :
    Host.Outcome State Fault Refusal :=
  issue i gd s fun s ls => (s.taint ls ops).mapLanes ls f

/-! Barrier operations that engines and lanes share (R196 to R200). -/

/-- complete(S) of R200. -/
def slotComplete (v : Nat) : Nat :=
  if bit v 49 && bits v 0 32 == 0 && bits v 32 16 == 0 then
    setBits (setBits v 48 1 (1 - bits v 48 1)) 49 1 0
  else v

/-- land(n, tag) of R200 on a slot's bits, the slot being live under that tag. -/
def slotLand (v n : Nat) : Nat :=
  let byt := bits v 0 32
  if bit v 49 && decide (n ≤ byt) then slotComplete (setBits v 0 32 (byt - n))
  else
    let excess := if bit v 49 then n - byt else n
    let v := if bit v 49 then setBits v 0 32 0 else v
    let exc := min (bits v 64 32 + excess) 0xFFFFFFFF
    slotComplete (setBits (setBits v 64 32 exc) 50 1 1)

/-- A landing of a command on its slot (R200). -/
def State.land (s : State) (wg addr tag n pub : Nat) : State :=
  match s.wg? wg with
  | none => s
  | some w =>
    if w.isLive addr && slotTag (w.slotBits addr) == tag then s.putSlot wg addr (slotLand (w.slotBits addr) n) pub
    else s

/-- Whether bytes of the loft touch a live slot (R180, R198). -/
def Workgroup.touchesLive (w : Workgroup) (a len : Nat) : Bool :=
  w.live.any fun i => a < 16 * i + 16 && 16 * i < a + len

/-- Write bytes of the loft that no live slot holds (R271), with their publication time. -/
def Workgroup.copyIn (w : Workgroup) (time a : Nat) (data : List Byte) : Workgroup :=
  { w with
    loft := (List.range data.length).foldl
      (fun m i => if w.live.contains ((a + i) / 16) then m else Memory.write m (a + i) (data.getD i 0#8)) w.loft,
    loftPub := (List.range ((a % 4 + data.length + 3) / 4)).foldl
      (fun p i => Map.set 0 p (a / 4 + i) time) w.loftPub }

/-- Count the die-cache accesses and misses of a piece of work of a launch, in free amounts (R330, log
entry 10). -/
def State.countDie (s : State) (launch : Nat) : State :=
  match s.launch? launch with
  | none => s
  | some l => (s.count l.vf 0x11 (Config.l2Accesses s.fresh)).count l.vf 0x12 (Config.l2Misses s.fresh)

end Sys2Proof.Machine
end

