-- ==== Sys2Proof/Machine/Float.lean ====
section
/-! DEFINITION. The floating-point, packed, conversion and special-function instructions (R139 to R148),
but for CVTX, whose outlier lists lie in memory. -/

namespace Sys2Proof.Machine

/-! FP32 arithmetic (R139). -/

/-- d ← round(f(a, b), FP32, mode). -/
def fbinOp (i : Instr) (gd : Guard) (rnd : Rnd) (d a b : Opnd) (s : State) (f : Num → Num → Num) :
    Host.Outcome State Fault Refusal :=
  lanewise i gd [d, a, b] s fun e t =>
    let (r, t1) := t.draw rnd
    let x := f32 (e.src t a).toNat
    let y := f32 (e.src t b).toNat
    let v := roundResult .f32 rnd r (x.isNan || y.isNan) (f x y)
    (e.put t1 d (BitVec.ofNat 32 v.1)).raise v.2

/-- FADD (R139). -/
def execFadd (gd : Guard) (rnd : Rnd) (d a b : Opnd) (s : State) : Host.Outcome State Fault Refusal :=
  fbinOp (.fadd gd rnd d a b) gd rnd d a b s (Num.add rnd.zeroNeg)

/-- FSUB (R139). -/
def execFsub (gd : Guard) (rnd : Rnd) (d a b : Opnd) (s : State) : Host.Outcome State Fault Refusal :=
  fbinOp (.fsub gd rnd d a b) gd rnd d a b s fun x y => Num.add rnd.zeroNeg x y.negate

/-- FMUL (R139). -/
def execFmul (gd : Guard) (rnd : Rnd) (d a b : Opnd) (s : State) : Host.Outcome State Fault Refusal :=
  fbinOp (.fmul gd rnd d a b) gd rnd d a b s Num.mul

/-- FFMA (R116, R139): the product exact, one rounding. -/
def execFfma (gd : Guard) (rnd : Rnd) (d a b c : Opnd) (s : State) : Host.Outcome State Fault Refusal :=
  lanewise (.ffma gd rnd d a b c) gd [d, a, b, c] s fun e t =>
    let (r, t1) := t.draw rnd
    let x := f32 (e.src t a).toNat
    let y := f32 (e.src t b).toNat
    let z := f32 (e.src t c).toNat
    let v := roundResult .f32 rnd r (x.isNan || y.isNan || z.isNan) (Num.add rnd.zeroNeg (x.mul y) z)
    (e.put t1 d (BitVec.ofNat 32 v.1)).raise v.2

/-- a × 2 ^ b for FSCALE; counts beyond ± 1,000 round as 1,000 does in every mode. -/
def fscaleNum (x : Num) (b : Int) : Num :=
  match x with
  | .fin s n d e => if n = 0 then x else .fin s n d (e + max (-1000) (min 1000 b))
  | .nan => .nan
  | .inf s => .inf s

/-- FSCALE (R139): b is a signed integer. -/
def execFscale (gd : Guard) (rnd : Rnd) (d a b : Opnd) (s : State) : Host.Outcome State Fault Refusal :=
  lanewise (.fscale gd rnd d a b) gd [d, a, b] s fun e t =>
    let (r, t1) := t.draw rnd
    let x := f32 (e.src t a).toNat
    let v := roundResult .f32 rnd r x.isNan (fscaleNum x (e.src t b).toInt)
    (e.put t1 d (BitVec.ofNat 32 v.1)).raise v.2

/-- FRND (R139): NX when the result differs, never UF or OF; a zero keeps the sign of a. -/
def frndWord (rnd : Rnd) (rand a : Nat) : Nat × Nat :=
  match f32 a with
  | .nan => (0x7FC00000, 0)
  | .inf _ => (a, 0)
  | .fin neg n d e =>
    if n = 0 then (a, 0)
    else
      let (i, exact) := roundInt rnd rand neg n d e
      ((roundNum .f32 .rne 0 (.fin neg i.natAbs 1 0)).1, if exact then 0 else flagNX)

def execFrnd (gd : Guard) (rnd : Rnd) (d a : Opnd) (s : State) : Host.Outcome State Fault Refusal :=
  lanewise (.frnd gd rnd d a) gd [d, a] s fun e t =>
    let (r, t1) := t.draw rnd
    let v := frndWord rnd r (e.src t a).toNat
    (e.put t1 d (BitVec.ofNat 32 v.1)).raise v.2

/-- FMIN (R140). -/
def execFmin (gd : Guard) (d a b : Opnd) (s : State) : Host.Outcome State Fault Refusal :=
  lanewise (.fmin gd d a b) gd [d, a, b] s fun e t =>
    e.put t d (BitVec.ofNat 32 (fmin32 (e.src t a).toNat (e.src t b).toNat))

/-- FMAX (R140). -/
def execFmax (gd : Guard) (d a b : Opnd) (s : State) : Host.Outcome State Fault Refusal :=
  lanewise (.fmax gd d a b) gd [d, a, b] s fun e t =>
    e.put t d (BitVec.ofNat 32 (fmax32 (e.src t a).toNat (e.src t b).toNat))

/-- The conditions of FCMP (R137). -/
def fcmpF (c : Cond) (a b : Nat) : Bool :=
  if isNan32 a || isNan32 b then
    match c with
    | .ne | .un => true
    | .eq | .lt | .le | .gt | .ge => false
  else
    match c with
    | .eq => ord32 a == ord32 b
    | .ne => ord32 a != ord32 b
    | .lt => decide (ord32 a < ord32 b)
    | .le => decide (ord32 a ≤ ord32 b)
    | .gt => decide (ord32 b < ord32 a)
    | .ge => decide (ord32 b ≤ ord32 a)
    | .un => false

/-- FCMP (R137). -/
def execFcmp (gd : Guard) (cond : Cond) (pn : BitVec 3) (a b : Opnd) (s : State) :
    Host.Outcome State Fault Refusal :=
  lanewise (.fcmp gd cond pn a b) gd [a, b] s fun e t =>
    t.setPred pn.toNat (fcmpF cond (e.src t a).toNat (e.src t b).toNat)

/-- The bit that FCLASS sets (R141). -/
def fclassBit (a : Nat) : Nat :=
  let neg := bit a 31
  let m := a % 2 ^ 31
  if 0x7F800000 < m then 8
  else if m = 0x7F800000 then (if neg then 0 else 7)
  else if 0x00800000 ≤ m then (if neg then 1 else 6)
  else if 0 < m then (if neg then 2 else 5)
  else (if neg then 3 else 4)

/-- FCLASS (R141). -/
def execFclass (gd : Guard) (d a : Opnd) (s : State) : Host.Outcome State Fault Refusal :=
  lanewise (.fclass gd d a) gd [d, a] s fun e t =>
    e.put t d (BitVec.ofNat 32 (2 ^ fclassBit (e.src t a).toNat))

/-! Packed 16-bit and narrow dot products (R142, R143). -/

/-- Element `k` of `w` bits of a register, in a format. -/
def elemNum (f : Fmt) (w a k : Nat) : Num := .ofBits f (bits a (w * k) w)

/-- The format of a packed type. -/
def packFmt (ty : Ty) : Fmt := (ty.fmt?).getD .f32

/-- The two elements of a packed operation: element 0 draws before element 1 (R142). -/
def packed2 (e : Env) (t : Thread) (ty : Ty) (rnd : Rnd) (d : Opnd) (nan : Nat → Bool) (f : Nat → Num) : Thread :=
  let (r0, t0) := t.draw rnd
  let (r1, t1) := t0.draw rnd
  let v0 := roundResult (packFmt ty) rnd r0 (nan 0) (f 0)
  let v1 := roundResult (packFmt ty) rnd r1 (nan 1) (f 1)
  (e.put t1 d (BitVec.ofNat 32 (v0.1 + 2 ^ 16 * v1.1))).raise (v0.2 ||| v1.2)

/-- HADD2 (R142). -/
def execHadd2 (gd : Guard) (ty : Ty) (rnd : Rnd) (d a b : Opnd) (s : State) : Host.Outcome State Fault Refusal :=
  lanewise (.hadd2 gd ty rnd d a b) gd [d, a, b] s fun e t =>
    let x := elemNum (packFmt ty) 16 (e.src t a).toNat
    let y := elemNum (packFmt ty) 16 (e.src t b).toNat
    packed2 e t ty rnd d (fun k => (x k).isNan || (y k).isNan) fun k => Num.add rnd.zeroNeg (x k) (y k)

/-- HMUL2 (R142). -/
def execHmul2 (gd : Guard) (ty : Ty) (rnd : Rnd) (d a b : Opnd) (s : State) : Host.Outcome State Fault Refusal :=
  lanewise (.hmul2 gd ty rnd d a b) gd [d, a, b] s fun e t =>
    let x := elemNum (packFmt ty) 16 (e.src t a).toNat
    let y := elemNum (packFmt ty) 16 (e.src t b).toNat
    packed2 e t ty rnd d (fun k => (x k).isNan || (y k).isNan) fun k => (x k).mul (y k)

/-- HFMA2 (R142). -/
def execHfma2 (gd : Guard) (ty : Ty) (rnd : Rnd) (d a b c : Opnd) (s : State) :
    Host.Outcome State Fault Refusal :=
  lanewise (.hfma2 gd ty rnd d a b c) gd [d, a, b, c] s fun e t =>
    let x := elemNum (packFmt ty) 16 (e.src t a).toNat
    let y := elemNum (packFmt ty) 16 (e.src t b).toNat
    let z := elemNum (packFmt ty) 16 (e.src t c).toNat
    packed2 e t ty rnd d (fun k => (x k).isNan || (y k).isNan || (z k).isNan) fun k =>
      Num.add rnd.zeroNeg ((x k).mul (y k)) (z k)

/-- d ← round(c + Σ a_e × b_e, FP32, mode) over `n` elements of `w` bits (R116, R143). -/
def dotOp (e : Env) (t : Thread) (ty : Ty) (rnd : Rnd) (d a b c : Opnd) (w n : Nat) : Thread :=
  let (r, t1) := t.draw rnd
  let x := elemNum (packFmt ty) w (e.src t a).toNat
  let y := elemNum (packFmt ty) w (e.src t b).toNat
  let z := f32 (e.src t c).toNat
  let ks := List.range n
  let v := sumResult .f32 rnd r (z.isNan || ks.any fun k => (x k).isNan || (y k).isNan)
    (z :: ks.map fun k => (x k).mul (y k))
  (e.put t1 d (BitVec.ofNat 32 v.1)).raise v.2

/-- FDOT2 (R143). -/
def execFdot2 (gd : Guard) (ty : Ty) (rnd : Rnd) (d a b c : Opnd) (s : State) :
    Host.Outcome State Fault Refusal :=
  lanewise (.fdot2 gd ty rnd d a b c) gd [d, a, b, c] s fun e t => dotOp e t ty rnd d a b c 16 2

/-- FDOT4 (R143). -/
def execFdot4 (gd : Guard) (ty : Ty) (rnd : Rnd) (d a b c : Opnd) (s : State) :
    Host.Outcome State Fault Refusal :=
  lanewise (.fdot4 gd ty rnd d a b c) gd [d, a, b, c] s fun e t => dotOp e t ty rnd d a b c 8 4

/-! Conversions (R144, R146, R147). -/

/-- An element of a type as an exact value (R62, R97). -/
def elemOf (ty : Ty) (a : Nat) : Num :=
  match ty.fmt? with
  | some f => .ofBits f (a % 2 ^ ty.bits)
  | none => .ofInt (toInt ty.signed ty.bits a)

/-- A NaN converted to a type (R95, R108): the canonical NaN with the source's sign, or +0 with NV. -/
def cvtNan (dt : Ty) (neg : Bool) : Nat × Nat :=
  match dt.fmt? with
  | some f =>
    match f.nan with
    | some n => (f.signBit neg + n, 0)
    | none => (0, flagNV)
  | none => (0, flagNV)

/-- The element of type `dt` that CVT makes of an element of type `sty`, with its status (R109, R144). -/
def cvtElem (dt sty : Ty) (rnd : Rnd) (rand a : Nat) : Nat × Nat :=
  match elemOf sty a with
  | .nan => cvtNan dt (bit a (sty.bits - 1))
  | x =>
    match dt.fmt? with
    | some f => roundNum f rnd rand x
    | none =>
      match sty.fmt? with
      | some _ => roundToInt dt.signed dt.bits rnd rand x
      | none =>
        -- between integer types: clamp, and OF when it clamps
        let i := toInt sty.signed sty.bits a
        let c := max (intMin dt.signed dt.bits) (min (intMax dt.signed dt.bits) i)
        (wrapInt dt.bits c, if c = i then 0 else flagOF)

/-- An element placed in a register: copies of the sign above .I8 and .I16, else zero (R144). -/
def placeElem (dt : Ty) (v : Nat) : Nat :=
  match dt with
  | .i8 => wrapInt 32 (toInt true 8 v)
  | .i16 => wrapInt 32 (toInt true 16 v)
  | _ => v

/-- CVT (R144). -/
def execCvt (gd : Guard) (dt sty : Ty) (rnd : Rnd) (d a : Opnd) (s : State) : Host.Outcome State Fault Refusal :=
  lanewise (.cvt gd dt sty rnd d a) gd [d, a] s fun e t =>
    let (r, t1) := t.draw rnd
    let v := cvtElem dt sty rnd r (e.srcT t sty a)
    (e.putT t1 dt d (placeElem dt v.1)).raise v.2

/-- Positions of PACK and UNPACK (R146). -/
def packCount (ty : Ty) : Nat :=
  match ty.bits with
  | 16 => 2
  | 4 => 8
  | _ => 4

/-- PACK (R146): d is read first. -/
def execPack (gd : Guard) (ty : Ty) (d a b : Opnd) (s : State) : Host.Outcome State Fault Refusal :=
  lanewise (.pack gd ty d a b) gd [d, a, b] s fun e t =>
    let q := (e.src t b).toNat % packCount ty
    e.put t d (BitVec.ofNat 32 (setBits (e.src t d).toNat (ty.bits * q) ty.bits (e.src t a).toNat))

/-- UNPACK (R146). -/
def execUnpack (gd : Guard) (ty : Ty) (d a b : Opnd) (s : State) : Host.Outcome State Fault Refusal :=
  lanewise (.unpack gd ty d a b) gd [d, a, b] s fun e t =>
    let q := (e.src t b).toNat % packCount ty
    e.put t d (BitVec.ofNat 32 (placeElem ty (bits (e.src t a).toNat (ty.bits * q) ty.bits)))

/-- Entry g of a launch's grid table; zero where the record names none (R101). -/
def Launch.gridEntry (l : Launch) (g : Nat) : Nat := leNat ((l.grid.drop (4 * g)).take 4)

/-- The FP32 pattern and status of weight j of a code (R102, R147). -/
def cbWord (grid code scale j : Nat) : Nat × Nat :=
  let sc := Num.ofBits .bf16 scale
  roundResult .f32 .rne 0 sc.isNan ((cb2Weight grid code j).mul sc)

/-- CBDEC (R147). -/
def execCbdec (gd : Guard) (d a b : Opnd) (s : State) : Host.Outcome State Fault Refusal :=
  issue (.cbdec gd d a b) gd s fun s ls => (s.taint ls [a, b]).mapLanes ls fun e t =>
    let code := (e.src t a).toNat % 2 ^ 16
    let scale := (e.src t b).toNat % 2 ^ 16
    let grid := ((s.launchOf? e.lane.wg).map fun l => l.gridEntry (code % 256)).getD 0
    (List.range 8).foldl (fun t j =>
      let v := cbWord grid code scale j
      let t := match d with
        | .g r => t.setReg (r.toNat + j) (BitVec.ofNat 32 v.1)
        | .t _ => t.setTemp j (BitVec.ofNat 32 v.1)
        | .a _ | .p _ | .c _ | .bad _ => t
      t.raise v.2) t

/-! Special functions (R148). -/

/-- d ← f(a), with the status f gives. -/
def specialOp (i : Instr) (gd : Guard) (d a : Opnd) (s : State) (f : Nat → Nat × Nat) :
    Host.Outcome State Fault Refusal :=
  lanewise i gd [d, a] s fun e t =>
    let v := f (e.src t a).toNat
    (e.put t d (BitVec.ofNat 32 v.1)).raise v.2

/-- EXP2 (R119, R148). -/
def execExp2 (gd : Guard) (d a : Opnd) (s : State) : Host.Outcome State Fault Refusal :=
  specialOp (.exp2 gd d a) gd d a s exp2Word

/-- LOG2 (R148). -/
def execLog2 (gd : Guard) (d a : Opnd) (s : State) : Host.Outcome State Fault Refusal :=
  specialOp (.log2 gd d a) gd d a s log2Word

/-- RCP (R148). -/
def execRcp (gd : Guard) (d a : Opnd) (s : State) : Host.Outcome State Fault Refusal :=
  specialOp (.rcp gd d a) gd d a s rcpWord

/-- RSQ (R148). -/
def execRsq (gd : Guard) (d a : Opnd) (s : State) : Host.Outcome State Fault Refusal :=
  specialOp (.rsq gd d a) gd d a s rsqWord

/-- SQRT (R148). -/
def execSqrt (gd : Guard) (d a : Opnd) (s : State) : Host.Outcome State Fault Refusal :=
  specialOp (.sqrt gd d a) gd d a s sqrtWord

/-- SIN (R148). -/
def execSin (gd : Guard) (d a : Opnd) (s : State) : Host.Outcome State Fault Refusal :=
  specialOp (.sin gd d a) gd d a s sinWord

/-- COS (R148). -/
def execCos (gd : Guard) (d a : Opnd) (s : State) : Host.Outcome State Fault Refusal :=
  specialOp (.cos gd d a) gd d a s cosWord

/-- TANH (R148). -/
def execTanh (gd : Guard) (d a : Opnd) (s : State) : Host.Outcome State Fault Refusal :=
  specialOp (.tanh gd d a) gd d a s tanhWord

end Sys2Proof.Machine
end

