-- ==== Sys2Proof/Machine/Pipe.lean ====
section
/-! DEFINITION. Loads and stores on their way: how a store is performed, how a load is served and lands,
and the order that one thread's accesses to one place keep (R184 to R189, R205, R208, R301). -/

namespace Sys2Proof.Machine

/-- Whether two accesses, of `m` and of `n` bytes, share a location (R204). -/
def Place.meets (p : Place) (m : Nat) (q : Place) (n : Nat) : Bool :=
  p.loft == q.loft && decide (p.addr < q.addr + n) && decide (q.addr < p.addr + m)

/-- The lines of a run of bytes. -/
def linesOf (pa len : Nat) : List Nat :=
  (List.range ((pa + len - 1) / 128 - pa / 128 + 1)).map fun i => pa / 128 + i

/-- The cached copy of a line in a cache. -/
def State.copyOf (s : State) (h : Holder) (line : Nat) : Option Copy :=
  s.copies.find? fun c => c.holder == h && c.line == line

/-- A copy that serves a reader (R186, R301): %time is before its end, and its lease does not begin
below the reader's floor. -/
def State.validCopy (s : State) (h : Holder) (line floor : Nat) : Option Copy :=
  (s.copyOf h line).bind fun c => if s.time < c.stop && floor ≤ c.start then some c else none

/-- A load takes its value and publication time; a poisoned value is consumed by its launch and never
reaches the register (R343, R344). An acquire of a line makes its other holders publish it (R226). -/
def State.serveLoad (s : State) (p : PendingLoad) (data : List Byte) (pub : Nat) (bad : Bool) : State :=
  let s := if bad then s.consume p.launch else s
  let s := if p.acq && !p.place.loft then s.forcePublish p.core (p.place.addr / 128) else s
  { s with loads := s.loads.map fun q =>
      if q.id == p.id then { q with served := some (if bad then [] else data, pub) } else q }

/-- Serve a load at the loft, or at the home of its line; the core's own copies of the line, which may be
older, are dropped. -/
def State.serveNow (s : State) (p : PendingLoad) : State :=
  let a := p.place.addr
  if p.place.loft then
    match s.wg? p.lane.wg with
    | none => s
    | some w =>
      let pub := ((List.range ((a % 4 + p.len + 3) / 4)).map fun i => Map.get 0 w.loftPub (a / 4 + i)).foldl max 0
      s.serveLoad p (Memory.readN w.loft a p.len) pub false
  else
    let bad := !(s.badSectors a p.len).isEmpty
    let s := (s.reportChecks a p.len).countLink a
    let s := s.dropCopies p.core (a / 128)
    s.serveLoad p (s.homeRead a p.len) (s.pubOf a p.len) bad

/-- Serve a load from a copy of its line. -/
def State.serveCopy (s : State) (p : PendingLoad) (c : Copy) : State :=
  let o := p.place.addr % 128
  let words := (List.range ((o % 4 + p.len + 3) / 4)).map fun i => c.pub.getD (o / 4 + i) 0
  let bad := c.bad.any fun sec => (sectorsOf p.place.addr p.len).contains sec
  s.serveLoad p ((c.bytes.drop o).take p.len) (words.foldl max 0) bad

/-- Perform a store: in the loft, or at its home with the D bit of its leaf and the dirty bit of its unit (R186,
R297, R301, R308). A store
to a die that is out of service is dropped (R352), and so are bytes of a barrier slot that has become live since the
store was checked: log entry 106. -/
def State.performStore (s : State) (q : PendingStore) : State :=
  let rest := { s with stores := s.stores.filter fun r => r.id != q.id }
  if q.place.loft then rest.setWg q.lane.wg fun w => w.copyIn s.time q.place.addr q.data
  else match gate s q.place.addr with
    | .ok =>
      let s := (rest.setDirtyBit q.place).homeWrite ⟨some q.lane, some q.core, some q.launch, q.tok, false, q.bad, false⟩
        q.id q.place.addr q.data
      let s := if q.cmd.isSome then s else s.noteNarrow q.core (q.place.addr / 128) q.scope
      match s.launch? q.launch with
      | some l => s.markDirty l.ctx q.va q.data.length
      | none => s
    | .held => s
    | .refused => rest

/-- One access of a thread that is still on its way. -/
inductive OnWay where
  | load (p : PendingLoad)
  | store (q : PendingStore)
  deriving DecidableEq, Repr

def OnWay.id : OnWay → Nat
  | .load p => p.id
  | .store q => q.id

/-- Insertion by serial number. -/
def insertWay (x : OnWay) : List OnWay → List OnWay
  | [] => [x]
  | y :: r => if x.id < y.id then x :: y :: r else y :: insertWay x r

/-- Who makes an access: a thread in a slot with a number, or an engine command. -/
inductive Origin where
  | thread (l : LaneRef) (slots : List Nat)
  | cmd (id : Nat)
  deriving DecidableEq, Repr

/-- Whether accesses of these origins to one location happen in the order in which they were issued: those of one
thread, and those of the lanes of one slot (R182, R208). The writes of one command have no order but that of their
values (R210): two to one byte stand as the command made them. -/
def Origin.ordered : Origin → Origin → Bool
  | .thread l a, .thread m b => l == m || a.any b.contains
  | .cmd a, .cmd b => a == b
  | .thread _ _, .cmd _ => false
  | .cmd _, .thread _ _ => false

/-- What fixes the order of an access: its origin, and the bytes it touches. -/
structure Touch where
  origin : Origin
  place : Place
  len : Nat
  deriving DecidableEq, Repr

def PendingLoad.touch (p : PendingLoad) : Touch := ⟨.thread p.lane [p.issue], p.place, p.len⟩

def PendingStore.touch (q : PendingStore) : Touch :=
  ⟨match q.cmd with
    | some c => .cmd c
    | none => .thread q.lane [q.issue], q.place, q.data.length⟩

def OnWay.touch : OnWay → Touch
  | .load p => p.touch
  | .store q => q.touch

/-- An older access that happens before a younger one: they share a location, and their origins order them. -/
def Touch.before (x y : Touch) : Bool := x.origin.ordered y.origin && x.place.meets x.len y.place y.len

/-- The accesses that must happen before one of `ys`, the latest issued of the list first. -/
def needed : List OnWay → List Touch → List OnWay
  | [], _ => []
  | x :: r, ys => if ys.any x.touch.before then needed r (x.touch :: ys) ++ [x] else needed r ys

/-- The accesses that must happen before one issued with a serial number: of a thread, its own older ones that share
a location with it, and those of lower lanes of its slot (R182, R208). -/
def State.older (s : State) (x : Touch) (before : Nat) : List OnWay :=
  let ls := s.loads.filter fun q => q.served.isNone && q.id < before
  let ss := s.stores.filter fun q => q.id < before
  needed ((ls.map OnWay.load ++ ss.map OnWay.store).foldr insertWay []).reverse [x]

/-- Let the older accesses of an order happen first. -/
def State.settleAll (s : State) (xs : List OnWay) : State :=
  xs.foldl (fun s x =>
    match x with
    | .load q => s.serveNow q
    | .store q => s.performStore q) s

/-- Let a thread's older accesses to the bytes at a place happen first (R208). -/
def State.settle (s : State) (l : LaneRef) (p : Place) (len before : Nat) : State :=
  s.settleAll (s.older ⟨.thread l [], p, len⟩ before)

/-- The writes of a command that are on their way. -/
def State.writesOf (s : State) (cmd : Nat) : List PendingStore := s.stores.filter fun q => q.cmd == some cmd

/-- Let the writes of a command that are on their way happen (R207: each comes before its completion). -/
def State.settleCmd (s : State) (cmd : Nat) : State := (s.writesOf cmd).foldl State.performStore s

/-- Whether the L1 serves an access of a core (R35, R298): one to a private page or object as its contents of the
moment have it, a read of a shared line from a valid copy. Log entry 10. -/
def State.l1Serves (s : State) (core : Nat) (p : Place) (floor : Nat) (atomic : Bool) : Bool :=
  match p.cls with
  | .priv => Config.l1Serves s.fresh (p.addr / 128)
  | .shared | .object => !atomic && (s.validCopy (.l1 core) (p.addr / 128) floor).isSome
  | .uncached => false

/-- A load of a thread on its way (R186), as part of the slot with a number (R182), with its value if it is known at
once. -/
def State.addLoad (s : State) (issue : Nat) (l : LaneRef) (kind : LoadKind) (tok : Option Nat) (len : Nat) (p : Place)
    (acq : Bool) (served : Option (List Byte × Nat)) (atomic : Bool) : State :=
  match s.wg? l.wg with
  | none => s
  | some w =>
    let (id, s) := s.take
    let floor := (s.thread l).readfloor
    let long := !p.loft && !(s.l1Serves w.core p floor atomic)
    { s with loads := s.loads ++ [⟨id, issue, l, w.launch, w.core, kind, tok, len, p, floor, acq, served, long, atomic⟩] }

/-- The value that a load of a type writes (R178). -/
def loadValue (ty : Ty) (data : List Byte) : Nat :=
  match ty with
  | .i8 => wrapInt 32 (toInt true 8 (leNat data))
  | .i16 => wrapInt 32 (toInt true 16 (leNat data))
  | _ => leNat data

/-- Words of a block of bytes. -/
def wordsOf (data : List Byte) (n : Nat) : List Word :=
  (List.range n).map fun i => BitVec.ofNat 32 (leNat ((data.drop (4 * i)).take 4))

/-- What a landing writes into its thread (R160, R178, R184, R193). -/
def Thread.receive (t : Thread) (k : LoadKind) (data : List Byte) : Thread :=
  match k with
  | .reg d ty =>
    let v := loadValue ty data
    if ty.wide then (t.setReg d (BitVec.ofNat 32 v)).setReg (d + 1) (BitVec.ofNat 32 (v / 2 ^ 32))
    else t.setReg d (BitVec.ofNat 32 v)
  | .block d => t.putRegs d (wordsOf data 8)
  | .refill => { t with stack := t.stack ++ [BitVec.ofNat 64 (leNat data)], refill := false }

/-- The effect of a landing on one lane: nothing is written after EXIT (R162, R184) or from a poisoned
value (R344); the token falls and an acquire raises the read floor (R189). -/
def Thread.land (t : Thread) (p : PendingLoad) (data : List Byte) (pub : Nat) : Thread :=
  let t := match p.tok with
    | some k => t.addTok k false
    | none => t
  if !t.alive then { t with refill := false }
  else
    let t := if data.isEmpty then (if p.kind == .refill then { t with refill := false } else t) else t.receive p.kind data
    { t with seenPub := max t.seenPub pub, readfloor := if p.acq then max t.readfloor pub else t.readfloor }

/-- A served load lands in its lane, and in the shadow of it (R350). -/
def State.land1 (s : State) (p : PendingLoad) (data : List Byte) (pub : Nat) : State :=
  let s := { s with loads := s.loads.filter fun q => q.id != p.id }
  ((s.twins p.lane).foldl (fun s m => s.setThread m fun t => t.land p data pub) s).noteWakes p.lane.wg

/-- Let the accesses that must happen before a load happen: the thread's own older ones to its bytes, and those of lower
lanes of its slot (R182, R208). -/
def State.settleLoad (s : State) (p : PendingLoad) : State :=
  s.settleAll (s.older p.touch p.id)

/-- Serve a load that needs no grant: from the loft, from a valid copy in the core's L1, or at the home of
a private or uncached page (R186, R298, R301). -/
def State.serveIfReady (s : State) (p : PendingLoad) : State :=
  let s := s.settleLoad p
  if p.place.loft then s.serveNow p
  else match gate s p.place.addr with
    | .held => s
    | .refused => s.serveLoad p [] 0 false
    | .ok =>
      match p.place.cls with
      | .priv => s.serveNow p
      | .uncached => s.serveNow p
      | .shared | .object =>
        match s.validCopy (.l1 p.core) (p.place.addr / 128) p.floor with
        | some c => s.serveCopy p c
        | none => s

/-- LOAD_LANDS (R184): the value of a load or atomic arrives. A load that has not been served and needs
a grant waits for it. -/
def execLoadLands (id : Nat) (s : State) : Host.Outcome State Fault Refusal :=
  conclude (match s.loads.find? fun p => p.id == id with
    | none => s
    | some p =>
      let s := if p.served.isNone then s.serveIfReady p else s
      match (s.loads.find? fun q => q.id == id).bind PendingLoad.served with
      | none => s
      | some (data, pub) => s.land1 p data pub)

/-- STORE_PERFORMED (R182, R186, R301, R303): a store is performed, after the accesses that precede it. -/
def execStorePerformed (id : Nat) (s : State) : Host.Outcome State Fault Refusal :=
  conclude (match s.stores.find? fun q => q.id == id with
    | none => s
    | some q =>
      match (if q.place.loft then Gate.ok else gate s q.place.addr) with
      | .held => s
      | .ok => (s.settleAll (s.older q.touch q.id)).performStore q
      | .refused => (s.settleAll (s.older q.touch q.id)).performStore q)

/-! Grants (R301). -/

/-- A holder takes a line with a new grant. -/
def State.grant (s : State) (h : Holder) (line stop : Nat) : State :=
  let n := (s.grantNo + 1#16)
  let base := 128 * line
  let pub := (List.range 32).map fun i => Map.get 0 s.pub (32 * line + i)
  { s with
    grantNo := n
    grants := (s.grants.filter fun g => !(g.holder == h && g.line == line)) ++ [⟨h, line, n.toNat, s.time, stop⟩]
    copies := (s.copies.filter fun c => !(c.holder == h && c.line == line)) ++
      [⟨h, line, n.toNat, s.time, stop, pub, s.homeRead base 128, s.badSectors base 128⟩] }

/-- An L1 takes a line from the L2 slice of its die, under a lease that ends no later. -/
def State.grantFrom (s : State) (h : Holder) (c : Copy) (stop : Nat) : State :=
  let n := (s.grantNo + 1#16)
  { s with
    grantNo := n
    grants := (s.grants.filter fun g => !(g.holder == h && g.line == c.line)) ++
      [⟨h, c.line, n.toNat, c.start, min stop c.stop⟩]
    copies := (s.copies.filter fun d => !(d.holder == h && d.line == c.line)) ++
      [{ c with holder := h, number := n.toNat, stop := min stop c.stop }] }

/-- Whether a load issued from a serial number on counts as a miss of its L1 (R330). -/
def PendingLoad.missesL1 (start : Nat) (p : PendingLoad) : Bool :=
  decide (start ≤ p.id) && p.long && !p.atomic && p.place.cls != .uncached

/-- The L1 misses of the loads issued from a serial number on, one for each line and function (R330). -/
def State.missKeys (s : State) (start : Nat) : List (Nat × Nat) :=
  (((s.loads.filter (PendingLoad.missesL1 start)).filterMap fun p =>
    (s.launch? p.launch).map fun l => (l.vf, p.place.addr / 128))).eraseDups

/-- Count L1 misses (R330). -/
def State.countKeys (s : State) (keys : List (Nat × Nat)) : State := keys.foldl (fun s k => s.count k.1 0x10 1) s

def State.countL1 (s : State) (start : Nat) : State := s.countKeys (s.missKeys start)

/-- Count the L1 misses of a slot that has issued, each line once however often the slot was held (R330). -/
def State.countSlot (s : State) (start : Nat) : State :=
  let new := (s.missKeys start).filter fun k => !(((s.group?.map Group.missed).getD []).contains k)
  (s.countKeys new).setGroup fun g => { g with missed := g.missed ++ new }

/-- READ_MISS_GRANT (R301): a home serves a read miss with a lease of `len` ticks, at most 2,048 on a shared page
and the object's length on an object line; `viaL2` fills the L2 slice of the reader's die, or takes the line from a valid copy there. -/
def execReadMissGrant (load len : Nat) (viaL2 : Bool) (s : State) : Host.Outcome State Fault Refusal :=
  conclude (match s.loads.find? fun p => p.id == load with
    | none => s
    | some p =>
      let line := p.place.addr / 128
      let cached := !p.place.loft && (p.place.cls == .shared || p.place.cls == .object)
      if p.served.isSome || !cached || gate s p.place.addr != .ok then s
      else
        let s := s.settleLoad p
        let lease := s.time + (if p.place.fixed then p.place.lease else min len p.place.lease)
        let die := dieOf p.core
        let home := region p.place.addr == 0 && dieOfPa p.place.addr == die
        let s := (s.reportChecks (128 * line) 128).countLink (128 * line)
        let s :=
          if viaL2 && !home then
            match s.validCopy (.l2 die) line p.floor with
            | some c => s.grantFrom (.l1 p.core) c lease
            | none =>
              let s := s.grant (.l2 die) line lease
              match s.copyOf (.l2 die) line with
              | some c => s.grantFrom (.l1 p.core) c lease
              | none => s
          else (s.dropCopies p.core line).grant (.l1 p.core) line lease
        match s.copyOf (.l1 p.core) line with
        | some c => s.serveCopy p c
        | none => s)

end Sys2Proof.Machine
end

