-- ==== Sys2Proof/Machine/Frame.lean ====
section
/-! DEFINITION. Context frames (R306, R327, R355): the sections of a saved workgroup, the bytes of a replay list, and
how a frame is read back. The rules give no byte layout of the other payloads: their bytes are free values, and a
payload is readable as long as it holds the bytes that were written (log entry 67). -/

namespace Sys2Proof.Machine

/-- The codes of the kinds of a replay entry (R306). -/
def ReplayKind.code : ReplayKind → Nat
  | .instr => 0
  | .spill => 1
  | .refill => 2
  | .tframe => 3
  | .cvtxe => 4

/-- The 32 bytes of a replay entry (R306). WORD is zero for the kinds other than INSTR, and DATA where the registers
or the frame hold the datum. -/
def Replay.bytes (r : Replay) : List Byte :=
  leBytes 8 (r.lane + 2 ^ 8 * r.rig + 2 ^ 12 * r.kind.code) ++ leBytes 8 (if r.kind == .instr then r.word.toNat else 0) ++
    leBytes 8 r.addr ++ leBytes 8 (if r.data.length ≤ 8 then leNat r.data else 0)

/-- A section: TAG, VER and payload (R327). -/
structure Section where
  tag : Nat
  ver : Nat
  data : List Byte
  deriving DecidableEq, Repr

/-- The bytes of a section: its header, then its payload (R327). -/
def Section.bytes (x : Section) : List Byte := leBytes 2 x.tag ++ leBytes 2 x.ver ++ leBytes 4 x.data.length ++ x.data

/-- A section whose payload has free bytes, in the version that the rule gives. -/
def freeSection (serial wg tag ver : Nat) : Section :=
  ⟨tag, ver, (List.range (8 * Config.sectionWords tag wg)).map (Config.sectionByte serial tag)⟩

/-- The sections of a workgroup's frame, in the order of the rule (R327). -/
def State.frameSections (s : State) (w : Workgroup) : List Section :=
  let free (tag ver : Nat) : Section := freeSection s.serial w.id tag ver
  let l := s.limits w.id
  [free 1 1, free 2 2, free 3 1, free 4 1] ++ (if l.2.2 = 0 then [] else [free 5 1]) ++
    (if l.2.1 = 0 then [] else [free 6 1]) ++ [⟨7, 1, w.replay.flatMap Replay.bytes⟩, free 8 1, free 9 1, ⟨0xFF, 1, []⟩]

/-- The bytes of a workgroup's frame. -/
def State.frameBytes (s : State) (w : Workgroup) : List Byte := (s.frameSections w).flatMap Section.bytes

/-- A context frame for a workgroup from its function's pool: address, bytes, and the state with it taken (R327). A frame
on a die that trains waits for it (R338). -/
def State.frameFor (s : State) (w : Workgroup) : Option (Nat × List Byte × State) :=
  match s.launch? w.launch with
  | none => none
  | some l =>
    let bytes := s.frameBytes w
    match s.poolAlloc l.vf bytes.length 4096 with
    | none => none
    | some r => if gate s r.1 == .held then none else some (r.1, bytes, r.2)

/-- A context frame is written to the pool. A die out of service takes no bytes (R352). -/
def State.writeFrame (s : State) (a : Nat) (bytes : List Byte) : State :=
  match gate s a with
  | .ok => (s.hwWrite false false a bytes).2
  | .held => s
  | .refused => s

/-- The sections of a run of bytes, up to END; none if it runs out or a length is no multiple of 8 (R327). -/
def parseFrame : Nat → List Byte → Option (List Section)
  | 0, _ => none
  | n + 1, bs =>
    let len := leNat ((bs.drop 4).take 4)
    let x : Section := ⟨leNat (bs.take 2), leNat ((bs.drop 2).take 2), (bs.drop 8).take len⟩
    if bs.length < 8 + len ∨ len % 8 ≠ 0 then none
    else if x.tag = 0xFF then some [x]
    else (parseFrame n (bs.drop (8 + len))).map fun r => x :: r

/-- Whether a section can be read for the one that was written: the known prefix of a newer version, or a shorter
payload of an older one (R327). A replay list is read from its bytes, which have a layout (R306). -/
def Section.readsAs (x y : Section) : Bool :=
  x.tag == 7 || (if y.ver ≤ x.ver then y.data.isPrefixOf x.data else x.data.isPrefixOf y.data)

/-- The tags of the sections that a frame of a launch must have (R327). -/
def LaunchRec.needs (f : LaunchRec) : List Nat :=
  [1, 2, 3, 4, 0xFF] ++ (if f.loftb = 0 then [] else [5]) ++ (if f.nacc = 0 then [] else [6])

/-- The sections of a frame that was written as `written`, if FRAME is first and every required section is there and can
be read; a tag that was not written is skipped, and so is a section that is not required and cannot be read (R327,
R355). -/
def LaunchRec.readFrame (f : LaunchRec) (bytes written : List Byte) : Option (List Section) :=
  let parse (bs : List Byte) : Option (List Section) := parseFrame (bs.length / 8 + 1) bs
  match parse bytes, parse written with
  | some now, some old =>
    let ok (x : Section) : Bool := ((old.find? fun y => y.tag == x.tag).map x.readsAs).getD true
    let good := now.filter ok
    if (good.head?.map Section.tag) == some 1 && f.needs.all fun t => good.any fun x => x.tag == t then some good
    else none
  | _, _ => none

/-- The kind of a code; the others are reserved (R306). -/
def ReplayKind.ofCode? : Nat → Option ReplayKind
  | 0 => some .instr
  | 1 => some .spill
  | 2 => some .refill
  | 3 => some .tframe
  | 4 => some .cvtxe
  | _ => none

/-- A replay entry that software has changed, as its 32 bytes give it (R306). What they do not hold comes with the frame:
the permissions, the place of its lane, and the bytes of a trap frame. -/
def Workgroup.entryOf (w : Workgroup) (bs : List Byte) : Option Replay :=
  let e := leNat bs
  let rig := bits e 8 4
  let lane := bits e 0 6
  let t := ((w.rigs[rig]?).bind fun q => q.threads[lane]?).getD Thread.absent
  let frame := ((w.replay.find? fun r => r.kind == .tframe && r.rig == rig && r.lane == lane).map Replay.data).getD
    (List.replicate 128 0#8)
  (ReplayKind.ofCode? (bits e 12 4)).map fun k =>
    ⟨k, rig, lane, BitVec.ofNat 64 (bits e 64 64), bits e 128 64, if k == .tframe then frame else leBytes 8 (bits e 192 64),
      w.pkperm, t.pc, t.slot.getD 0, 0, none⟩

/-- The replay list that a payload gives (R306): the entries that stand there as they were written, and others from
their bytes. -/
def Workgroup.listFrom (w : Workgroup) (data : List Byte) : List Replay :=
  (List.range (data.length / 32)).filterMap fun i =>
    let bs := (data.drop (32 * i)).take 32
    match w.replay[i]? with
    | some r => if r.bytes = bs then some r else w.entryOf bs
    | none => w.entryOf bs

/-- A workgroup as its frame gives it: a THREAD section of version 1 has no %status and %lfsr, and optional sections
that are absent leave an empty replay list, no held slices and zero write pointers (R327). -/
def Workgroup.fromFrame (w : Workgroup) (now : List Section) (seed : Nat → Nat → Word) : Workgroup :=
  let has (t : Nat) : Bool := now.any fun x => x.tag == t
  let old := now.any fun x => x.tag == 2 && x.ver == 1
  { w with
    replay := ((now.find? fun x => x.tag == 7).map fun x => w.listFrom x.data).getD []
    slices := if has 8 then w.slices else []
    chans := if has 9 then w.chans else []
    rigs := if old then w.rigs.mapIdx fun r q =>
        { q with threads := q.threads.mapIdx fun i t => { t with status := 0#32, lfsr := seed r i } }
      else w.rigs }

/-- Whether a frame has an ENGINE section (R327). -/
def hasEngine (now : List Section) : Bool := now.any fun x => x.tag == 8

end Sys2Proof.Machine
end

