-- ==== Sys2Proof/Machine/Sched.lean ====
section
/-! DEFINITION. The bay scheduler (R28 to R36), the fetch and the checks of a stride (R44 to R51, R67 to
R70), and the clocks of its slots (R30, R47, R123). -/

namespace Sys2Proof.Machine

/-! Fetch. -/

/-- The class of a word's opcode: whether the stride's class admits it (R67). -/
def classAdmits (ecls opc : Nat) : Bool :=
  match ecls with
  | 0 => decide (opc ≤ 0x2CF)
  | 1 => decide (opc ≤ 0xFF) || decide (0x200 ≤ opc ∧ opc ≤ 0x27F) || decide (0x300 ≤ opc ∧ opc ≤ 0x33F)
  | 2 => decide (opc ≤ 0xFF) || decide (0x200 ≤ opc ∧ opc ≤ 0x27F) || decide (0x340 ≤ opc ∧ opc ≤ 0x37F)
  | _ => decide (opc ≤ 0x2CF) || decide (0x2F0 ≤ opc ∧ opc ≤ 0x2FF)

/-- The header checks of R46 and R49. -/
def headerOk (h : Nat) : Bool :=
  bits h 58 6 == 0x2D && bits h 0 42 == 0 && (!(bit h 51) || decide (bits h 52 4 ≤ 3))

/-- Body words of a header. -/
def headerWords (h : Nat) : Nat := bits h 52 4 + 1

/-- A word of the code section as the fetch unit may take it: the old or the new form of a changed word
(R45, log entry 6). -/
def State.codeWord (s : State) (k : KSlot) (va pa : Nat) : Nat :=
  let new := s.read64 pa
  match k.code[(va - k.base) / 8]? with
  | none => new
  | some old =>
    if old.toNat = new then new
    else if Config.freeChoice s.fresh va % 2 = 0 then old.toNat else new

/-- Where a code address lies, without any effect: used to see the wait mask before the issue (R28). -/
def State.peek (s : State) (wg va : Nat) : Option Nat :=
  match s.wg? wg with
  | none => none
  | some w =>
    match s.launch? w.launch with
    | none => none
    | some l =>
      match (lookup s l.ctx (.l1 w.core) (dieOf w.core) va pteX).walk with
      | .leaf e _ level _ _ _ =>
        if pteX e then some (pteFrame e + va % (if level = 0 then 2 ^ 12 else pageBytes level e)) else none
      | .absent _ _ => none
      | .malformed => none
      | .held => none

/-- The header that a thread waits at, if it can be seen. -/
def State.peekHeader (s : State) (wg : Nat) (k : KSlot) (pc : Nat) : Option Nat :=
  (s.peek wg pc).map fun pa => s.codeWord k pc pa

/-- Slots of a stride: body words, or dictionary codes expanded (R47, R51). -/
def slotsOf (k : KSlot) (packed : Bool) (body : List Nat) : List SlotWord :=
  if packed then
    body.flatMap fun w => (List.range 4).map fun q =>
      let c := bits w (16 * q) 16
      if c = 0xFFFF then .filler
      else if c < 1024 then .word (k.dict.getD c 0xFFC0000000000000#64) else .badCode
  else body.map fun w => .word (BitVec.ofNat 64 w)

/-- The engine that a command goes to (R244). -/
def engineOf (opc : Nat) : Option Engine :=
  if (0x300 ≤ opc ∧ opc ≤ 0x311) ∨ opc = 0x313 then some .matrix
  else if (0x318 ≤ opc ∧ opc ≤ 0x31A) ∨ (0x320 ≤ opc ∧ opc ≤ 0x324) then some .attention
  else if (0x340 ≤ opc ∧ opc ≤ 0x344) ∨ opc = 0x348 ∨ opc = 0x349 then some .copy
  else none

/-- Places of an engine (R244). -/
def Engine.places : Engine → Nat
  | .matrix => Config.matrixPlaces
  | .attention => Config.attentionPlaces
  | .copy => Config.copyPlaces

/-- Whether an engine of a core has a place for a command (R244). -/
def State.engineRoom (s : State) (core : Nat) (e : Engine) : Bool :=
  decide ((s.cmds.filter fun c => c.core == core && c.engine == e && !c.stopped).length < e.places)

/-! Candidates (R28, R29). -/

/-- A team that can issue: its age, active slot, team number, code space, program counter, resume slot and
the lanes that issue. -/
structure Cand where
  age : Nat
  slot : Nat
  team : Nat
  kslot : Nat
  pc : Nat
  resume : Option Nat
  lanes : List LaneRef
  join : Bool
  deriving DecidableEq, Repr

/-- The dictionary slot that holds a workgroup's kernel (R27). -/
def State.kslotOf (s : State) (w : Workgroup) : Option Nat :=
  match s.launch? w.launch with
  | none => none
  | some l => (s.core w.core).kslots.findIdx? fun k => (k.map fun k => k.kimg == l.rcd.kimg).getD false

/-- The tokens named by a mask are zero as a thread sees them (R183). -/
def State.tokensZero (s : State) (l : LaneRef) (mask : Nat) : Bool :=
  (List.range 8).all fun k => !(bit mask k) || s.tokView l k == 0

/-- The first engine command of a stride of class 1 or 2, in slot order (R28). -/
def State.firstEngine (s : State) (wg : Nat) (k : KSlot) (pc h : Nat) : Option Engine :=
  if bits h 56 2 ≠ 1 ∧ bits h 56 2 ≠ 2 then none
  else
    let body := (List.range (headerWords h)).filterMap fun i =>
      (s.peek wg (pc + 8 + 8 * i)).map fun pa => s.codeWord k (pc + 8 + 8 * i) pa
    (slotsOf k (bit h 51) body).findSome? fun w => engineOf (w.toWord.toNat / 2 ^ 54)

/-- Whether the tokens that a thread awaits at its header are zero (R35). -/
def State.tokensMet (s : State) (w : Workgroup) (k : KSlot) (l : LaneRef) : Bool :=
  let t := s.thread l
  t.inStride ||
    match s.peekHeader w.id k t.pc.toNat with
    | none => true
    | some h => s.tokensZero l (bits h 43 8)

/-- Whether a thread can issue its next stride (R28); one that was saved in the middle of a stride goes on with it,
whose header has issued (R50). -/
def State.canIssue (s : State) (w : Workgroup) (k : KSlot) (l : LaneRef) : Bool :=
  let t := s.thread l
  t.life == .running && (t.inStride ||
    match s.peekHeader w.id k t.pc.toNat with
    | none => true
    | some h =>
      s.tokensZero l (bits h 43 8) &&
        match s.firstEngine w.id k t.pc.toNat h with
        | some e => s.engineRoom w.core e
        | none => true)

/-- The lanes of the groups of a bay: they are in the middle of a stride. -/
def Bay.inGroups (b : Bay) : List LaneRef :=
  ((b.port.map Group.lanes).getD []) ++ b.cut.flatMap Group.lanes

/-- The oldest of some lanes; of equal ages the lowest program counter (R29). -/
def State.oldest (s : State) (ls : List LaneRef) : Option LaneRef :=
  ls.foldl (fun best l =>
    match best with
    | none => some l
    | some b =>
      let tb := s.thread b
      let tl := s.thread l
      if tl.age < tb.age ∨ (tl.age = tb.age ∧ tl.pc.toNat < tb.pc.toNat) then some l else best) none

/-- The candidate of a team, if it is ready (R28, R29). -/
def State.teamCand (s : State) (b : Bay) (slot : Nat) (w : Workgroup) (rig team : Nat) : Option Cand :=
  match s.kslotOf w with
  | none => none
  | some kn =>
    match s.kslot? w.core kn with
    | none => none
    | some k =>
      let lanes := (List.range 4).map fun i => (⟨w.id, rig, 4 * team + i⟩ : LaneRef)
      let can := lanes.filter fun l => !(b.inGroups.contains l) && s.canIssue w k l
      (s.oldest can).map fun o =>
        let t := s.thread o
        { age := t.age, slot := slot, team := team, kslot := kn, pc := t.pc.toNat, resume := t.slot
          lanes := can.filter fun l => (s.thread l).pc == t.pc && (s.thread l).slot == t.slot
          join := t.slot.isNone && ((s.peekHeader w.id k t.pc.toNat).map fun h => bit h 42).getD false }

/-- The candidates of a bay: the ready teams of its active set whose workgroups run. -/
def State.cands (s : State) (c b : Nat) : List Cand :=
  let bay := s.bay c b
  (List.range bay.active.length).flatMap fun i =>
    match (bay.active[i]?).join with
    | none => []
    | some (wg, rig) =>
      match s.wg? wg with
      | none => []
      | some w =>
        if w.phase ≠ .running then []
        else (List.range 16).filterMap fun t => s.teamCand bay i w rig t

/-- Older first; ties by rig slot, then by team (R29). -/
def Cand.before (x y : Cand) : Bool :=
  decide (x.age < y.age ∨ (x.age = y.age ∧ (x.slot < y.slot ∨ (x.slot = y.slot ∧ x.team < y.team))))

def Cand.sameKey (x y : Cand) : Bool := x.kslot == y.kslot && x.pc == y.pc && x.resume == y.resume

/-- Insertion into a list in the picker's order. -/
def insertCand (x : Cand) : List Cand → List Cand
  | [] => [x]
  | y :: r => if x.before y then x :: y :: r else y :: insertCand x r

def sortCands (l : List Cand) : List Cand := l.foldr insertCand []

/-- The team of a candidate, by its workgroup, its rig and its number. -/
def Cand.teamRef (x : Cand) : LaneRef :=
  match x.lanes with
  | l :: _ => { l with lane := l.lane / 4 }
  | [] => ⟨0, 0, 0⟩

/-- Whether a hold is of a candidate's key, and of its team. -/
def Hold.ofKey (h : Hold) (x : Cand) : Bool := h.kslot == x.kslot && h.pc.toNat == x.pc
def Hold.ofTeam (h : Hold) (x : Cand) : Bool := h.ofKey x && h.team == x.teamRef

/-- Whether a join hold keeps a key back (R32): fewer than 16 teams, and fewer than 32 bay cycles since
the first of them became ready. -/
def holdsBack (bay : Bay) (l : List Cand) (x : Cand) : Bool :=
  x.join && decide ((l.filter x.sameKey).length < 16) &&
    !(bay.holds.any fun h => h.ofKey x && (h.expired || decide (h.since + 32 ≤ bay.cycle)))

/-! The bay's clock. -/

/-- Whether a lane of a rig is ready: its wake condition holds, or the tokens that its thread awaits are zero (R35,
R36). In the middle of a stride it is ready as its group is: once the slot no longer stalls (R30). -/
def State.laneReady (s : State) (w : Workgroup) (k : KSlot) (y : Bay) (l : LaneRef) : Bool :=
  match (s.thread l).life with
  | .parked c => s.wakeHolds l c
  | .running =>
    match y.cut.find? fun g => g.lanes.contains l with
    | some g => !g.stalled
    | none => s.tokensMet w k l
  | .absent | .exited => false

/-- Whether a rig is ready: a parked thread's condition holds, or a team's awaited tokens are zero (R36). -/
def State.rigReady (s : State) (y : Bay) (wg rig : Nat) : Bool :=
  match s.wg? wg with
  | none => false
  | some w =>
    match (s.kslotOf w).bind fun k => s.kslot? w.core k with
    | none => false
    | some k => (rigLanes wg rig).any (s.laneReady w k y)

/-- Note the bay cycle at which each pending rig became ready (R36). -/
def State.noteReady (s : State) (c b : Nat) : State :=
  let bay := s.bay c b
  (bay.pending.filterMap id).foldl (fun s p =>
    match s.rig? p.1 p.2 with
    | none => s
    | some r =>
      if r.ready.isNone && s.rigReady bay p.1 p.2 then
        s.setRig p.1 p.2 fun r => { r with ready := some bay.cycle }
      else s) s

/-- The clock of a cluster: the furthest bay cycle of its cores in service (R16, R28). -/
def State.clusterCycle (s : State) (cl : Nat) : Nat :=
  (List.range Config.coresPerCluster).foldl (fun n i =>
    let k := s.core (Config.coresPerCluster * cl + i)
    if k.fenced then n else k.bays.foldl (fun n y => max n y.cycle) n) 0

/-- Whether a bay has had the current clock of its cluster while another bay has not: the bays of a cluster run on
one clock (R16). -/
def State.aheadOfCluster (s : State) (c b : Nat) : Bool :=
  let mine := (s.bay c b).cycle
  (List.range Config.coresPerCluster).any fun i =>
    let k := s.core (Config.coresPerCluster * clusterOf c + i)
    !k.fenced && k.bays.any fun y => decide (y.cycle < mine)

/-- A clock of a cluster counts for the function in service there (R330). -/
def State.countClock (s : State) (cl : Nat) : State :=
  match (s.turns[cl]?).bind Turn.vf with
  | some v => s.count v 1 1
  | none => s

/-- The join holds as a bay cycle ends: each team that has become ready for a key with the join hint is held from then
on, and one that is ready for it no more is not (R32). -/
def State.noteHolds (s : State) (c b : Nat) : State :=
  let y := s.bay c b
  let joins := (s.cands c b).filter Cand.join
  let old := y.holds.filter fun h => joins.any h.ofTeam
  let new := (joins.filter fun x => !(old.any fun h => h.ofTeam x)).map fun x =>
    (⟨x.kslot, BitVec.ofNat 64 x.pc, x.teamRef, y.cycle, false⟩ : Hold)
  if old == y.holds && new.isEmpty then s else s.setBay c b fun y => { y with holds := old ++ new }

/-- A bay cycle passes (R28). -/
def State.tick (s : State) (c b : Nat) : State :=
  let before := s.clusterCycle (clusterOf c)
  let s := ((s.noteHolds c b).setBay c b fun y => { y with cycle := y.cycle + 1 }).noteReady c b
  if before < s.clusterCycle (clusterOf c) then s.countClock (clusterOf c) else s

/-! STRIDE_ISSUE. -/

/-- The result of fetching a stride. -/
inductive Fetched where
  | ok (header : Nat) (body : List Nat)
  | fault
  | deny (va : Nat)
  | held
  /-- The word is poisoned, and its launch ends (R343, R344). -/
  | bad
  deriving DecidableEq, Repr

/-- Fetch one word for a workgroup (R45, R293). -/
def State.fetchWord (s : State) (l : LaneRef) (k : KSlot) (va : Nat) : State × Fetched :=
  match s.coreAccess l .exec va with
  | (s, .ok p _) =>
    let bad := s.badSectors p.addr 8
    let s := s.reportChecks p.addr 8
    if bad.isEmpty then (s, .ok (s.codeWord k va p.addr) [])
    else
      match s.wg? l.wg with
      | some w => (s.consume w.launch, .bad)
      | none => (s, .bad)
  | (s, .fault e pa) => (s.takeFault l.wg va .exec e pa, .fault)
  | (s, .deny) => (s, .deny va)
  | (s, .high) => (s, .deny va)
  | (s, .held) => (s, .held)

/-- Fetch the body words of a stride. -/
def State.fetchBody (s : State) (l : LaneRef) (k : KSlot) (va : Nat) : Nat → State × Fetched
  | 0 => (s, .ok 0 [])
  | n + 1 =>
    match s.fetchWord l k va with
    | (s, .ok w _) =>
      match State.fetchBody s l k (va + 8) n with
      | (s, .ok _ ws) => (s, .ok 0 (w :: ws))
      | r => r
    | r => r

/-- Count the strides and lanes of an issue (R330). -/
def State.countStride (s : State) (ls : List LaneRef) : State :=
  let rigs := (ls.map fun l => (l.wg, l.rig)).eraseDups
  rigs.foldl (fun s r =>
    match s.launchOf? r.1 with
    | none => s
    | some k =>
      let n := (ls.filter fun l => l.wg == r.1 && l.rig == r.2).length
      (s.count k.vf 2 1).count k.vf 3 n) s

/-- Put a picked stride on the port: fetch it, check its header (R49), clear the temporaries (R50). A
header that fails raises stride-frame fault, and a fetch without X protection-key violation with the address of the
word, as header traps. The header of a stride that resumes at a slot is checked again, log entry 90. The last issue
of a rig, which R36 compares, is that of its latest stride, log entry 87. -/
def State.startStride (s : State) (c b : Nat) (x : Cand) (lanes : List LaneRef) : State :=
  match s.kslot? c x.kslot, lanes with
  | some k, l0 :: _ =>
    let g0 : Group :=
      { lanes := lanes, kslot := x.kslot, pc := BitVec.ofNat 64 x.pc, ecls := 0, size := 16, words := [],
        slot := 0, clock := 0, stalled := false, more := false, tenure := 0, age := x.age, spent := false,
        served := [], work := [], issue := 0, missed := [], before := [] }
    let put (s : State) (g : Group) : State := s.setBay c b fun y => { y with port := some g }
    let headTrap (s : State) (ls : List LaneRef) (cause faddr : Nat) : State :=
      (put s g0).strikeAll ls ⟨cause, faddr, 0, true, false⟩
    -- a fetch that fails concerns the workgroup it was made for
    let own := lanes.filter fun l => l.wg == l0.wg
    let close (s : State) : State := (s.setBay c b fun y => { y with port := none }).tick c b
    match s.fetchWord l0 k x.pc with
    | (s, .fault) => s.tick c b
    | (s, .held) => s.tick c b
    | (s, .bad) => s.tick c b
    | (s, .deny va) => close (headTrap s own causePKEY va)
    | (s, .ok h _) =>
      if !headerOk h then close (headTrap s lanes causeSFRAME 0)
      else match s.fetchBody l0 k (x.pc + 8) (headerWords h) with
        | (s, .fault) => s.tick c b
        | (s, .held) => s.tick c b
        | (s, .bad) => s.tick c b
        | (s, .deny va) => close (headTrap s own causePKEY va)
        | (s, .ok _ body) =>
          let s := if x.resume.isNone then s.setThreads lanes fun _ t => { t with temps := [] } else s
          let afresh := lanes.filter fun l => !(s.thread l).restored
          let s := (s.countStride afresh).tokenWait (bits h 43 8) afresh
          let s := s.setThreads lanes fun _ t => { t with slot := none, restored := false }
          let cyc := (s.bay c b).cycle
          let s := lanes.foldl (fun s l => s.setRig l.wg l.rig fun r => { r with lastIssue := cyc }) s
          put (s.setBay c b fun y => { y with
              holds := y.holds.filter fun h => !(lanes.any fun l => h.team == { l with lane := l.lane / 4 }) })
            { g0 with
              ecls := bits h 56 2, size := 8 * (headerWords h + 1)
              words := slotsOf k (bit h 51) body, slot := x.resume.getD 0 }
  | _, _ => s.tick c b

/-- The active slot of a rig; 8 for a rig that is not active. -/
def Bay.slotOf (y : Bay) (wg rig : Nat) : Nat := (y.active.findIdx? fun r => r == some (wg, rig)).getD 8

/-- A cut group as the picker compares it: its age, its lowest slot and team (R29, R30). -/
def Bay.cutKey (y : Bay) (g : Group) : Cand :=
  match g.lanes with
  | l :: _ => ⟨g.age, y.slotOf l.wg l.rig, l.lane / 4, g.kslot, g.pc.toNat, some g.slot, [], false⟩
  | [] => ⟨g.age, 8, 0, g.kslot, g.pc.toNat, some g.slot, [], false⟩

/-- The cut groups that can go on: they do not stall, and their rigs are active (R30, R36). -/
def Bay.freeCuts (y : Bay) : List Group :=
  y.cut.filter fun g => !g.stalled && g.lanes.all fun l => y.slotOf l.wg l.rig < 8

/-- The cut group that goes before a candidate: of those that can go on, the first in the picker's order (R30). -/
def Bay.cutFirst (y : Bay) (x : Option Cand) : Option Group :=
  let best := y.freeCuts.foldl (fun (acc : Option Group) g =>
    match acc with
    | none => some g
    | some a => if (y.cutKey g).before (y.cutKey a) then some g else acc) none
  match best, x with
  | some g, some c => if (y.cutKey g).before c then some g else none
  | some g, none => some g
  | none, _ => none

/-- Split the cut groups so that a rig's lanes stand in groups of their own (R36). -/
def splitCut (cuts : List Group) (wg rig : Nat) : List Group :=
  cuts.flatMap fun g =>
    let mine := g.lanes.filter fun l => l.wg == wg && l.rig == rig
    let rest := g.lanes.filter fun l => !(l.wg == wg && l.rig == rig)
    if mine.isEmpty || rest.isEmpty then [g] else [{ g with lanes := rest }, { g with lanes := mine }]

/-- STRIDE_ISSUE (R29): the picker of a bay whose port is free issues one gathered stride, or lets a cut
group go on (R30), or issues nothing in this clock. -/
def execStrideIssue (core bay : Nat) (s : State) : Host.Outcome State Fault Refusal :=
  let s := { s with focus := (core, bay), fresh := s.fresh + 1 }
  let y := s.bay core bay
  if y.port.isSome || (s.core core).fenced then conclude s
  else
    let s := s.sweep
    let all := sortCands (s.cands core bay)
    let freeC := all.filter fun x => !(holdsBack y all x)
    -- the held group goes at once if no other key is ready (R32); a cut group that can go on is one, and another
    -- held key is none (log entry 103)
    let pick := match freeC with
      | x :: _ => some x
      | [] => if y.freeCuts.isEmpty then all.head? else none
    match y.cutFirst pick with
    | some g =>
      conclude (s.setBay core bay fun y =>
        { y with cut := y.cut.erase g, port := some { g with tenure := 0, stalled := false } })
    | none =>
      match pick with
      | none => conclude (s.tick core bay)
      | some x =>
        let team := (all.filter x.sameKey).take 16
        -- ascending active-set slot, then ascending lane (R60, R182)
        let lanes := (List.range 8).flatMap fun i => (List.range 16).flatMap fun n =>
          (team.filter fun c => c.slot == i && c.team == n).flatMap Cand.lanes
        -- its fetches reach the die cache, too (R330)
        let s := ((lanes.map LaneRef.wg).eraseDups.filterMap fun w => (s.wg? w).map Workgroup.launch).foldl State.countDie s
        conclude (s.startStride core bay x lanes)

/-- TENURE_END (R30): a tenure of 7 bay cycles ends; the group keeps its place and rejoins the selection. -/
def execTenureEnd (core bay : Nat) (s : State) : Host.Outcome State Fault Refusal :=
  conclude (s.setBay core bay fun y =>
    match y.port with
    | some g =>
      if Config.tenureCycles ≤ g.tenure then
        { y with port := none, cut := y.cut ++ [{ g with age := y.cycle }] }
      else y
    | none => y)

/-- JOIN_HOLD_EXPIRY (R32): holds of 32 bay cycles end. -/
def execJoinHoldExpiry (core bay : Nat) (s : State) : Host.Outcome State Fault Refusal :=
  conclude (s.setBay core bay fun y =>
    { y with holds := y.holds.map fun h => if h.since + 32 ≤ y.cycle then { h with expired := true } else h })

/-- WAKE (R34): a parked thread whose condition holds, or has held since it was parked, is unparked. -/
def execWake (wg rig lane : Nat) (s : State) : Host.Outcome State Fault Refusal :=
  let l : LaneRef := ⟨wg, rig, lane⟩
  conclude (match s.wg? wg, (s.thread l).life with
    | some w, .parked c =>
      if w.phase == .running && s.wakeHolds l c then
        let cyc := (s.bay w.core (((s.rig? wg rig).map Rig.bay).getD 0)).cycle
        let s := (s.observe l c).setThread l fun t => { t with life := .running, age := cyc }
        s.setRig wg rig fun q => { q with due := q.due.filter (· != lane) }
      else s
    | _, _ => s)

/-- A nonzero token that a thread waits on counts long-latency work (R35). -/
def State.longWork (s : State) (cyc : Nat) (l : LaneRef) (mask : Nat) : Bool :=
  (List.range 8).any fun k => bit mask k && decide (s.tokView l k ≠ 0) &&
    (s.loads.any (fun p => p.lane.wg == l.wg && p.lane.rig == l.rig && p.lane.lane / 4 == l.lane / 4 &&
        p.tok == some k && p.long) ||
      s.cmds.any fun c => c.lane.wg == l.wg && c.lane.rig == l.rig && c.tok == some k &&
        decide (c.cycle + 64 ≤ cyc))

/-- A live team has waited 64 bay cycles at a header on long-latency work (R35). -/
def State.teamWaits (s : State) (w : Workgroup) (k : KSlot) (cyc rig team : Nat) : Bool :=
  let live := ((List.range 4).map fun i => (⟨w.id, rig, 4 * team + i⟩ : LaneRef)).filter fun l =>
    (s.thread l).alive
  live.all (fun l => !(s.canIssue w k l) && decide ((s.thread l).age + 64 ≤ cyc)) &&
    (live.isEmpty || live.any fun l =>
      match s.peekHeader w.id k (s.thread l).pc.toNat with
      | some h => s.longWork cyc l (bits h 43 8)
      | none => false)

/-- Whether a rig may leave the active set at a stride boundary (R35). -/
def State.mayDemote (s : State) (bay : Bay) (wg rig : Nat) : Bool :=
  match s.wg? wg with
  | none => false
  | some w =>
    let live := s.liveLanes wg rig
    let atBoundary := !(bay.inGroups.any fun l => l.wg == wg && l.rig == rig) &&
      !(live.any fun l => (s.thread l).inStride)
    let parked := live.all fun l =>
      match (s.thread l).life with
      | .parked _ => true
      | .running | .absent | .exited => false
    let waits := match (s.kslotOf w).bind fun k => s.kslot? w.core k with
      | some k => (List.range 16).all fun t => s.teamWaits w k bay.cycle rig t
      | none => false
    atBoundary && !live.isEmpty && (parked || waits)

/-- The lowest free place of a list. -/
def freePlace {α : Type} (l : List (Option α)) : Option Nat := l.findIdx? Option.isNone

/-- PENDING_DEMOTION (R35): the rig of an active slot moves to the lowest free pending position. -/
def execPendingDemotion (core bay slot : Nat) (s : State) : Host.Outcome State Fault Refusal :=
  let y := s.bay core bay
  conclude (match (y.active[slot]?).join, freePlace y.pending with
    | some r, some i =>
      if s.mayDemote y r.1 r.2 then
        (s.setBay core bay fun y =>
          { y with active := y.active.set slot none, pending := y.pending.set i (some r) }).setRig r.1 r.2
            fun q => { q with ready := none }
      else s
    | _, _ => s)

/-- The pending rig that has been ready longest; ties by pending position (R36). -/
def State.longestReady (s : State) (y : Bay) : Option (Nat × Nat × Nat × Nat) :=
  (List.range y.pending.length).foldl (fun best i =>
    match (y.pending[i]?).join with
    | none => best
    | some r =>
      match (s.rig? r.1 r.2).bind Rig.ready with
      | none => best
      | some t =>
        match best with
        | none => some (i, r.1, r.2, t)
        | some b => if t < b.2.2.2 then some (i, r.1, r.2, t) else best) none

/-- Put a ready pending rig into an active slot: its ready threads, and its groups that can go on, take this bay
cycle as their age (R30, R36). -/
def State.promote (s : State) (core bay i slot wg rig : Nat) : State :=
  let y := s.bay core bay
  let cyc := y.cycle
  let ofRig (g : Group) : Bool := g.lanes.any fun l => l.wg == wg && l.rig == rig
  let s := s.setBay core bay fun y =>
    { y with
      pending := y.pending.set i none
      active := y.active.set slot (some (wg, rig))
      cut := y.cut.map fun g => if ofRig g && !g.stalled then { g with age := cyc } else g }
  let s := s.setRig wg rig fun q => { q with ready := none }
  match s.wg? wg with
  | none => s
  | some w =>
    match (s.kslotOf w).bind fun k => s.kslot? w.core k with
    | none => s
    | some k =>
      (rigLanes wg rig).foldl (fun s l =>
        if s.laneReady w k y l then s.setThread l fun t => { t with age := cyc } else s) s

/-- RIG_PROMOTE (R36): a ready pending rig takes a free slot of the active set. -/
def execRigPromote (core bay : Nat) (s : State) : Host.Outcome State Fault Refusal :=
  let s := s.noteReady core bay
  let y := s.bay core bay
  conclude (match s.longestReady y, freePlace y.active with
    | some (i, wg, rig, _), some slot => s.promote core bay i slot wg rig
    | _, _ => s)

/-- The active rig whose last issue is oldest; ties by the lower slot (R36). -/
def State.oldestIssue (s : State) (y : Bay) : Option (Nat × Nat × Nat) :=
  ((List.range y.active.length).foldl (fun (best : Option (Nat × Nat × Nat × Nat)) i =>
    match (y.active[i]?).join with
    | none => best
    | some r =>
      let t := ((s.rig? r.1 r.2).map Rig.lastIssue).getD 0
      match best with
      | none => some (i, r.1, r.2, t)
      | some b => if t < b.2.2.2 then some (i, r.1, r.2, t) else best) none).map
    fun b => (b.1, b.2.1, b.2.2.1)

/-- FORCED_DEMOTION (R36): after 1,024 bay cycles without a free slot, the rig ready longest takes the
place of the active rig whose last issue is oldest, once no group at the port contains a team of it. That rig takes
the lowest pending position that is free once the other has left its own (R28, log entry 95). -/
def execForcedDemotion (core bay : Nat) (s : State) : Host.Outcome State Fault Refusal :=
  let y := s.bay core bay
  conclude (match s.longestReady y, freePlace y.active, s.oldestIssue y with
    | some (i, wg, rig, t), none, some (slot, vw, vr) =>
      let atPort := ((y.port.map Group.lanes).getD []).any fun l => l.wg == vw && l.rig == vr
      if t + 1024 ≤ y.cycle && !atPort then
        let s := s.promote core bay i slot wg rig
        (s.setBay core bay fun y =>
          { y with
            pending := y.pending.set ((freePlace y.pending).getD i) (some (vw, vr))
            cut := splitCut y.cut vw vr }).setRig vw vr fun q => { q with ready := none }
      else s
    | _, _, _ => s)

/-! The clocks of a slot. -/

/-- Lanes per clock of an instruction's unit (R123). -/
def rateOf : Instr → Nat
  | .imul _ ty _ _ _ | .imulh _ ty _ _ _ => if ty.wide then 32 else 64
  | .imad _ ty _ _ _ _ => if ty.wide then 32 else 64
  | .idiv _ ty _ _ _ | .irem _ ty _ _ _ => if ty.wide then 8 else 16
  | .cbdec _ _ _ _ => 16
  | .exp2 _ _ _ | .log2 _ _ _ | .rcp _ _ _ | .rsq _ _ _ | .sqrt _ _ _ | .sin _ _ _ | .cos _ _ _
  | .tanh _ _ _ => 16
  | _ => 64

/-- Clocks of a slot that `k` lanes execute (R123). -/
def clocksOf (i : Instr) (k : Nat) : Nat := max 1 ((k + rateOf i - 1) / rateOf i)

/-- The guard bits of a word (R55): they stand alike in every format. -/
def wordGuard (w : Dword) : Guard := Guard.ofCode (bitsAt w.toNat 50 4)

/-- Whether an opcode is a control instruction that must stand last (R48). -/
def isControl (opc : Nat) : Bool := decide (0x200 ≤ opc ∧ opc ≤ 0x27F) && opc != 0x214

/-- The slots after a place that are not fillers. -/
def Group.restCount (g : Group) (i : Nat) : Nat :=
  ((g.words.drop i).filter fun w => w != .filler).length

/-- Checks 1 to 5 of R70 on the slot of a group: the instruction, or none for illegal-instruction. -/
def Group.check (g : Group) : Option Instr :=
  match g.words[g.slot]? with
  | some (.word w) =>
    let opc := w.toNat / 2 ^ 54
    match decode w with
    | .ok i =>
      if classAdmits g.ecls opc && (!(isControl opc) || g.restCount (g.slot + 1) == 0) then some i else none
    | .reject _ => none
  | some .badCode => none
  | some .filler => none
  | none => none

/-- The last slot of a stride that is not a filler (R54); 0 in a stride of fillers only, log entry 89. -/
def Group.lastSlot (g : Group) : Nat :=
  (List.range g.words.length).foldl (fun n i => if g.words.getD i .filler != .filler then i else n) 0

/-- The lanes that are still in a group take their temporaries as they stood before its slot (R167). -/
def State.undoTemps (s : State) (g : Group) : State :=
  (g.before.filter fun x => g.lanes.contains x.1).foldl (fun s x => s.setThread x.1 fun t => { t with temps := x.2 }) s

/-- The lanes left at the end of a stride fall through (R48); where the next frame is no stride of the
section they take a stride-frame fault at the last slot that is not a filler (R54), with the temporaries as they
stood before it (R167). The port is free again. -/
def State.endStride (s : State) (c b : Nat) : State :=
  match (s.bay c b).port with
  | none => s
  | some g =>
    let s :=
      if s.validTarget g.fall then g.lanes.foldl (fun s l => s.goTo l g.fall) s
      else
        ((s.undoTemps g).setGroup fun g => { g with slot := g.lastSlot }).strikeAll g.lanes (.of causeSFRAME 0)
    (s.setBay c b fun y => { y with port := none }).sweep

/-- After a slot has taken its clock: it is retried while it stalls or has more to do, else the group
goes on to the next slot, and the stride ends with its last slot that is not a filler (R30, R47). -/
def State.finishSlot (s : State) (c b : Nat) : State :=
  match (s.bay c b).port with
  | none => s.tick c b
  | some g =>
    let s := ((g.lanes.map LaneRef.wg).eraseDups.filterMap fun w => (s.wg? w).map Workgroup.launch).foldl State.countDie
      (s.tick c b)
    if g.lanes.isEmpty then s.setBay c b fun y => { y with port := none }
    else if g.stalled || g.more then
      s.setBay c b fun y => { y with port := y.port.map fun g => { g with tenure := g.tenure + 1, spent := true } }
    else if g.restCount (g.slot + 1) = 0 then s.endStride c b
    else
      s.setBay c b fun y => { y with port := y.port.map fun g =>
        { g with slot := g.slot + 1, clock := 0, served := [], work := [], tenure := g.tenure + 1, spent := true } }

/-- Whether a workgroup can be swapped now. -/
def State.canSwap (s : State) (wg : Nat) : Bool :=
  match s.wg? wg with
  | none => false
  | some w => s.swapReady w && (s.frameFor w).isSome

/-- Where the lanes of a group resume (R50, R181): at the struck slot, at the slot after it when their part of the slot
is done, or at the next header; where that is no stride of the section, they take the fault of R54. -/
def State.leaveAt (s : State) (c : Nat) (g : Group) (ls : List LaneRef) : State :=
  let past := ls.filter g.served.contains
  let s := s.setThreads (ls.filter fun l => !(g.served.contains l)) fun _ t =>
    { t with slot := some g.slot, restored := true }
  if g.restCount (g.slot + 1) ≠ 0 then
    s.setThreads past fun _ t => { t with slot := some (g.slot + 1), restored := true }
  else if s.validIn c g g.fall then
    s.setThreads past fun _ t => { t with pc := BitVec.ofNat 64 g.fall, slot := none }
  else
    (s.undoTemps { g with lanes := past }).strikeIn c { g with slot := g.lastSlot }
      (past.map fun l => (l, .of causeSFRAME 0))

/-- The lanes of a workgroup that awaits its swap stop at the slot of the group that holds the port; the lanes of
other workgroups go on (R33, R181). -/
def State.detach (s : State) (c b wg : Nat) : State :=
  match (s.bay c b).port with
  | none => s
  | some g =>
    let s := s.leaveAt c g (g.lanes.filter fun l => l.wg == wg)
    let rest := g.lanes.filter fun l => l.wg != wg
    s.setBay c b fun y => { y with port := if rest.isEmpty then none else some { g with lanes := rest } }

/-- What a bay does next. -/
inductive Act where
  /-- A step of the scheduler. -/
  | run (i : Instr)
  /-- The instruction in the slot, at its last clock. -/
  | slot (i : Instr)
  /-- A clock without an instruction, or a trap of the checks. -/
  | done (s : State)

/-- The next act of a bay and the state in which it happens: the tenure's end, the swap of a faulted
workgroup, the checks of R70, and the clocks of R123. -/
def State.bayAct (s : State) (c b : Nat) : State × Act :=
  let s := { s with focus := (c, b) }
  match (s.bay c b).port with
  | none => (s, .run (.strideIssue c b))
  | some g =>
    if Config.tenureCycles ≤ g.tenure then (s, .run (.tenureEnd c b))
    else
      match (g.lanes.map LaneRef.wg).find? fun w =>
          ((s.wg? w).map fun w => w.phase == .swapPending && g.retired w).getD false with
      | some w =>
        -- the swap itself waits for loads to land and for room in the pool (R181, R327)
        if s.canSwap w then (s, .run (.faultSwap w)) else (s, .done (s.detach c b w))
      | none =>
        if g.lanes.isEmpty then (s, .done (s.setBay c b fun y => { y with port := none }))
        else if g.restCount g.slot = 0 then (s, .done ((s.tick c b).endStride c b))
        else if g.words[g.slot]? = some .filler then
          (s, .done (s.setGroup fun g => { g with slot := g.slot + 1 }))
        else
          match g.check with
          | none =>
            (s, .done (((s.strikeAll g.lanes (.of causeILLINS 0)).setBay c b fun y =>
              { y with port := none }).tick c b))
          | some i =>
            let gd := wordGuard g.word
            let k := (g.lanes.filter fun l => s.legalFor l i && gd.holds (s.thread l)).length
            if g.clock + 1 < clocksOf i k then
              (s, .done ((s.setGroup fun g => { g with clock := g.clock + 1, tenure := g.tenure + 1,
                                                       spent := true }).tick c b))
            else
              let last := g.restCount (g.slot + 1) = 0 ∧ g.served.isEmpty
              (s.setGroup fun g =>
                { g with
                  stalled := false, more := false
                  before := if last then g.lanes.map fun l => (l, (s.thread l).temps) else g.before }, .slot i)

end Sys2Proof.Machine
end

