-- ==== Sys2Proof/Machine/Engine.lean ====
section
/-! DEFINITION. Engine commands (R243 to R247): their accesses to memory and the loft, the checks and the
acceptance of a slot's commands, and how a command ends. -/

namespace Sys2Proof

/-! What an instruction sends to an engine. -/

/-- The engine of a command (R244): MMA and MZERO go to the matrix engine, the attention and token-table
commands and TOPK to the attention front end, copies and ring commands to the copy engine. -/
def Instr.engine : Instr → Option Machine.Engine
  | .mma _ _ _ _ _ | .mma16 _ _ _ _ _ | .mzero _ _ _ => some .matrix
  | .att _ _ _ _ _ _ | .attfin _ _ _ _ | .latw _ _ _ | .kvlook _ _ _ _ | .kvapp _ _ _ | .kvfork _ _ _
  | .kvcommit _ _ _ | .topk _ _ _ => some .attention
  | .cpy _ _ _ | .cpyt _ _ _ _ | .cpyc _ _ _ | .cpyg _ _ _ | .cpys _ _ _ | .rngsnd _ _ _ _
  | .rngrcv _ _ _ _ => some .copy
  | _ => none

/-- How a command completes (R60). -/
def Instr.completion : Instr → Completion
  | .mma _ _ _ k _ | .mma16 _ _ _ k _ | .mzero _ k _ | .att _ _ _ _ k _ | .attfin _ k _ _ | .latw _ k _
  | .kvlook _ k _ _ | .rngsnd _ _ k _ => .tok k
  | .kvapp _ c _ | .kvfork _ c _ | .kvcommit _ c _ | .topk _ c _ | .cpy _ c _ | .cpyt _ _ c _
  | .cpyc _ c _ | .cpyg _ c _ | .cpys _ c _ | .rngrcv _ _ c _ => c
  | _ => .tok 0#3

/-- The operand of a command (field A). -/
def Instr.engineOpnd : Instr → Opnd
  | .mma _ _ _ _ a | .mma16 _ _ _ _ a | .mzero _ _ a | .att _ _ _ _ _ a | .attfin _ _ _ a | .latw _ _ a
  | .kvlook _ _ _ a | .rngsnd _ _ _ a | .kvapp _ _ a | .kvfork _ _ a | .kvcommit _ _ a | .topk _ _ a
  | .cpy _ _ a | .cpyt _ _ _ a | .cpyc _ _ a | .cpyg _ _ a | .cpys _ _ a | .rngrcv _ _ _ a => a
  | _ => .c 0#6

/-- Words of the operand block (R243); 0 for a command without one. -/
def Instr.blockLen : Instr → Nat
  | .mma _ _ _ _ _ | .mma16 _ _ _ _ _ | .att _ _ _ _ _ _ | .topk _ _ _ => 16
  | .latw _ _ _ | .kvlook _ _ _ _ | .kvapp _ _ _ | .kvfork _ _ _ | .kvcommit _ _ _ | .rngsnd _ _ _ _
  | .rngrcv _ _ _ _ => 8
  | _ => 0

/-- Whether the operand is the pair that addresses a descriptor (R243). -/
def Instr.isCopy : Instr → Bool
  | .cpy _ _ _ | .cpyt _ _ _ _ | .cpyc _ _ _ | .cpyg _ _ _ | .cpys _ _ _ => true
  | _ => false

/-- Whether a command carries a format word in each lane (R113). -/
def Instr.hasFormat : Instr → Bool
  | .mma _ _ _ _ _ | .mma16 _ _ _ _ _ | .att _ _ _ _ _ _ => true
  | _ => false

/-- The orders that the commands of one rig keep (R244): 1 for the accumulator port, 2 for the token tables
and banks, 0 for none. -/
def Instr.order : Instr → Nat
  | .mma _ _ _ _ _ | .mma16 _ _ _ _ _ | .mzero _ _ _ | .att _ _ _ _ _ _ | .attfin _ _ _ _ => 1
  | .latw _ _ _ | .kvapp _ _ _ | .kvfork _ _ _ | .kvcommit _ _ _ => 2
  | _ => 0

namespace Machine

/-- Whether a command is an MMA. -/
def Cmd.isMma (c : Cmd) : Bool := c.engine == .matrix && c.instr.blockLen == 16

/-! The fields of a block. -/

/-- Word `i` of the block. -/
def Cmd.w (c : Cmd) (i : Nat) : Nat := (c.block.getD i 0#32).toNat

/-- The pair at words `i` and `i + 1`. -/
def Cmd.pair (c : Cmd) (i : Nat) : Nat := c.w i + 2 ^ 32 * c.w (i + 1)

/-- The words from `i` up to the end of the block are zero (R243). -/
def Cmd.zeroFrom (c : Cmd) (i : Nat) : Bool := (c.block.drop i).all (· == 0#32)

/-- The executing lanes that own a row, with their rows: under protected mode the primaries, whose row is
the visible lane's (R247, R349). -/
def State.rowsOf (s : State) (c : Cmd) : List (Nat × LaneRef) :=
  let p := s.prot c.lane.wg
  (c.lanes.filter fun i => !p || i % 2 == 0).map fun i => (visLane p i, ⟨c.lane.wg, c.lane.rig, i⟩)

/-! Accesses (R246, R293). -/

/-- What an access of an engine comes to. -/
inductive Eng (α : Type) where
  | ok (a : α)
  | fault (va : Nat) (kind : AccKind) (entry entryPa : Nat)
  | deny (va : Nat)
  /-- Its die trains. -/
  | held
  /-- It consumes a poisoned value. -/
  | bad
  deriving DecidableEq, Repr

/-- Translate an access of a command; an address above 48 bits stops it as a failed check does (R290). -/
def State.engTranslate (s : State) (c : Cmd) (kind : AccKind) (va : Nat) : State × Eng Place :=
  match s.launch? c.launch with
  | none => (s, .deny va)
  | some k =>
    match translate s k.ctx (.l1 c.core) (dieOf c.core) (some c.core) c.perm kind va with
    | (s, .ok p _) => (s, .ok p)
    | (s, .fault e pa) => (s, .fault va kind e pa)
    | (s, .deny) => (s, .deny va)
    | (s, .high) => (s, .deny va)
    | (s, .held) => (s, .held)

/-- Run a step over a list, stopping at the first that does not succeed. -/
def engAll {α β : Type} (f : State → β → State × Eng α) : State → List β → State × Eng (List α)
  | s, [] => (s, .ok [])
  | s, x :: xs =>
    match f s x with
    | (s, .ok a) =>
      match engAll f s xs with
      | (s, .ok as) => (s, .ok (a :: as))
      | r => r
    | (s, .fault va k e pa) => (s, .fault va k e pa)
    | (s, .deny va) => (s, .deny va)
    | (s, .held) => (s, .held)
    | (s, .bad) => (s, .bad)

/-- Go on after a step that succeeds. -/
def engThen {α β : Type} (r : State × Eng α) (f : State → α → State × Eng β) : State × Eng β :=
  match r with
  | (s, .ok a) => f s a
  | (s, .fault va k e pa) => (s, .fault va k e pa)
  | (s, .deny va) => (s, .deny va)
  | (s, .held) => (s, .held)
  | (s, .bad) => (s, .bad)

/-- Cut a run of virtual addresses at page boundaries of 4 KiB; `fuel` bounds the pieces. -/
def cutPages : Nat → Nat → Nat → List (Nat × Nat)
  | 0, _, _ => []
  | fuel + 1, va, len =>
    if len = 0 then []
    else
      let n := min len (4096 - va % 4096)
      (va % 2 ^ 64, n) :: cutPages fuel (va + n) (len - n)

/-- The pages of a run of bytes. -/
def pagesOf (va len : Nat) : List (Nat × Nat) := cutPages (len / 4096 + 2) va len

/-- Translate a run of bytes: the address, place and length of each piece. -/
def State.engPlaces (s : State) (c : Cmd) (kind : AccKind) (va len : Nat) :
    State × Eng (List (Nat × Place × Nat)) :=
  engAll (fun s x => engThen (s.engTranslate c kind x.1) fun s p => (s, .ok (x.1, p, x.2))) s (pagesOf va len)

/-- The loft of a command's workgroup. -/
def State.loftOf (s : State) (c : Cmd) : Memory := ((s.wg? c.lane.wg).map Workgroup.loft).getD []

/-- The name of a run that a command has read ahead: one byte, or 8 that are aligned; the loft's stand above. -/
def runKey (loft one : Bool) (va : Nat) : Nat :=
  (if loft then 2 ^ 66 else 0) + (if one then 2 * va else 2 * (va / 8 * 8) + 1)

/-- The byte at an address as a command has it: one that it has read ahead, or the byte `b` of now (R210). A command
reads runs of 8 bytes whole, and the slots of a token table byte by byte (R281, R283). -/
def Cmd.seen (c : Cmd) (loft byBytes : Bool) (va : Nat) (b : Byte) : Byte :=
  match if byBytes then Map.get none c.early (runKey loft true va) else none, Map.get none c.early (runKey loft false va) with
  | some d, _ => d.headD b
  | none, some d => d.getD (va % 8) b
  | none, none => b

/-- The bytes at an address as a command has them. -/
def Cmd.seenAll (c : Cmd) (loft byBytes : Bool) (va : Nat) (data : List Byte) : List Byte :=
  if c.early.isEmpty then data else data.mapIdx fun i b => c.seen loft byBytes (va + i) b

/-- The core and the L2 slice of its die drop what they hold of the lines of some bytes, which an engine of the core
has read at their home: no thread of it reads an older value later (R212, R215). -/
def State.dropLines (s : State) (core pa len : Nat) : State :=
  let lines := (List.range ((pa + len + 127) / 128 - pa / 128)).map fun i => pa / 128 + i
  lines.foldl (fun s line => s.dropCopies core line) s

/-- Read bytes, with whether a sector of them is bad (R343). -/
def State.engPeek (s : State) (c : Cmd) (loft byBytes : Bool) (va len : Nat) : State × Eng (List Byte × Bool) :=
  if loft then (s, .ok (c.seenAll true byBytes va (Memory.readN (s.loftOf c) va len), false))
  else
    engThen (s.engPlaces c .read va len) fun s ps =>
      let bad := ps.any fun p => !(s.badSectors p.2.1.addr p.2.2).isEmpty
      let data := ps.flatMap fun p => s.homeRead p.2.1.addr p.2.2
      let s := ps.foldl (fun s p =>
        ((s.reportChecks p.2.1.addr p.2.2).countLink p.2.1.addr).dropLines c.core p.2.1.addr p.2.2) s
      (s, .ok (c.seenAll false byBytes va data, bad))

/-- Read bytes; a bad sector is consumed (R343). -/
def State.engRead (s : State) (c : Cmd) (loft : Bool) (va len : Nat) : State × Eng (List Byte) :=
  engThen (s.engPeek c loft false va len) fun s r => (s, if r.2 then .bad else .ok r.1)

/-- Read bytes of a slot of a token table (R283). -/
def State.engReadSlot (s : State) (c : Cmd) (va len : Nat) : State × Eng (List Byte) :=
  engThen (s.engPeek c false true va len) fun s r => (s, if r.2 then .bad else .ok r.1)

/-- Read bytes of one page as an acquire: with them the publication time of their values (R189, R280, R287). -/
def State.engAcquire (s : State) (c : Cmd) (va len : Nat) : State × Eng (List Byte × Nat) :=
  engThen (s.engTranslate c .read va) fun s p =>
    engThen (s.engRead c false va len) fun s d => (s, .ok (d, s.pubOf p.addr len))

/-- A command reads a run of bytes ahead of its other accesses (R210). The place is free: one that the command
never reads makes no difference. Log entry 96. -/
def State.readAhead (s : State) (c : Cmd) : State :=
  let va := Config.freeChoice s.fresh 0
  let loft := Config.freeChoice s.fresh 1 % 2 == 1
  let one := Config.freeChoice s.fresh 2 % 2 == 1
  let base := if one then va else va / 8 * 8
  let len := if one then 1 else 8
  let put (d : List Byte) : State :=
    { s with cmds := s.cmds.map fun e =>
        if e.id == c.id then { e with early := Map.set none e.early (runKey loft one va) (some d) } else e }
  if loft then put (Memory.readN (s.loftOf c) base len)
  else
    match (s.engTranslate c .read base).2 with
    | .ok p => if (s.badSectors p.addr len).isEmpty then (put (s.homeRead p.addr len)).dropLines c.core p.addr len else s
    | _ => s

/-- Check that a run of bytes can be written. -/
def State.engCheck (s : State) (c : Cmd) (loft : Bool) (kind : AccKind) (va len : Nat) : State × Eng Unit :=
  if loft then (s, .ok ())
  else engThen (s.engPlaces c kind va len) fun s _ => (s, .ok ())

/-- The writer that stands for a rig's commands (R218). -/
def Cmd.writer (c : Cmd) (upd bad : Bool) : Writer :=
  ⟨some ⟨c.lane.wg, c.lane.rig, engineLane⟩, some c.core, some c.launch, c.tok, upd, bad, false⟩

/-- A write of a command sets out: it is performed at a moment of its own (R210). -/
def State.sendWrite (s : State) (c : Cmd) (bad : Bool) (va : Nat) (p : Place) (data : List Byte) : State :=
  let (id, s) := s.take
  { s with stores := s.stores ++
      [{ id := id, issue := s.fresh, lane := ⟨c.lane.wg, c.lane.rig, engineLane⟩, launch := c.launch, core := c.core
         place := p, va := va, data := data, scope := .sys, cmd := some c.id, tok := c.tok, bad := bad }] }

/-- Write at a home for a command, with the D bit of the leaf and the dirty bit of its unit (R297, R308). -/
def State.engStore (s : State) (c : Cmd) (upd bad : Bool) (va : Nat) (p : Place) (data : List Byte) : State :=
  if c.spread && !upd then s.sendWrite c bad va p data
  else
    let (id, s) := s.take
    let s := (s.setDirtyBit p).homeWrite (c.writer upd bad) id p.addr data
    match s.launch? c.launch with
    | some k => s.markDirty k.ctx va data.length
    | none => s

/-- Write bytes: in the loft but for live barrier slots (R271), or at their homes. -/
def State.engWrite (s : State) (c : Cmd) (loft bad : Bool) (va : Nat) (data : List Byte) : State × Eng Unit :=
  if loft then
    (if c.spread then s.sendWrite c bad va (loftPlace va) data
      else s.setWg c.lane.wg fun w => w.copyIn s.time va data, .ok ())
  else
    engThen (s.engPlaces c .write va data.length) fun s ps =>
      ((ps.foldl (fun (acc : State × List Byte) p =>
        (acc.1.engStore c false bad p.1 p.2.1 (acc.2.take p.2.2), acc.2.drop p.2.2)) (s, data)).1, .ok ())

/-- A read and write of one entry at its atomic home (R191), once it is translated: the old number gives the new one.
As an update it leaves the helped mark of its sector (R228): log entry 110. -/
def State.engUpdateAt (s : State) (c : Cmd) (va : Nat) (p : Place) (len : Nat) (f : Nat → Nat) : State × Eng Nat :=
  let bad := !(s.badSectors p.addr len).isEmpty
  let s := s.reportChecks p.addr len
  if bad then (s, .bad)
  else
    let old := leNat (s.homeRead p.addr len)
    (s.engStore c true false va p (leBytes len (f old)), .ok old)

/-- A read and write of one entry at its atomic home. -/
def State.engUpdate (s : State) (c : Cmd) (va len : Nat) (f : Nat → Nat) : State × Eng Nat :=
  engThen (s.engTranslate c .rmw va) fun s p => s.engUpdateAt c va p len f

/-! How a command ends. -/

/-- A command leaves its engine, and its token falls (R244). -/
def State.finishCmd (s : State) (c : Cmd) : State := s.dropCmd c

/-- Count an event for a command's virtual function (R330). -/
def State.countCmd (s : State) (c : Cmd) (event n : Nat) : State :=
  match s.launch? c.launch with
  | some l => s.count l.vf event n
  | none => s

/-- Count a landing of a command that completes through a barrier slot (R200). -/
def State.landCmd (s : State) (c : Cmd) (n : Nat) : State :=
  match c.bar with
  | some (a, tag) => if n = 0 then s else s.land c.lane.wg a tag n c.pub
  | none => s

/-- The sum of two FP32 values, rounded once. -/
def addRne (a b : Nat) : Nat := rne32 (Num.add false (f32 a) (f32 b))

/-- One addition of an ATT.ACC to an entry of its score table, at the entry's home (R257, R285). -/
def State.attAdd (s : State) (c : Cmd) (x : Nat × Place × Nat) : State × Eng Unit :=
  engThen (s.engUpdateAt c x.1 x.2.1 4 fun old => addRne old x.2.2) fun s _ => (s, .ok ())

/-- A command at its restart point (R246): a copy at the first unit that has not been delivered, a token-table command
and a LATW at the beginning. One whose results are all written has nothing left to do but to complete. -/
def Cmd.restart (c : Cmd) : Cmd :=
  let c := { c with stopped := true, early := [], adds := [] }
  match c.instr with
  | .kvapp _ _ _ | .latw _ _ _ => { c with progress := 0, ahead := 0 }
  | .topk _ _ _ => c
  | _ => { c with ahead := 0 }

/-- A command stops at its restart point on a page fault, and gives its place up (R246). What it has sent out to write
is performed first, an ATT's additions with it. -/
def State.stopCmd (s : State) (c : Cmd) : State :=
  let s := s.settleCmd c.id
  let adds := ((s.cmds.find? fun d => d.id == c.id).map Cmd.adds).getD []
  let s := adds.foldl (fun s x =>
    match s.attAdd c x with
    | (s, .bad) => s.consume c.launch
    | (s, .ok _) => s
    | (s, .fault _ _ _ _) => s
    | (s, .deny _) => s
    | (s, .held) => s) s
  { s with cmds := s.cmds.map fun d => if d.id == c.id then d.restart else d }

/-- Replace a command. -/
def State.setCmd (s : State) (c : Cmd) : State :=
  { s with cmds := s.cmds.map fun d => if d.id == c.id then { c with spread := false } else d }

/-- A command whose access fails (R246), or which consumes a poisoned value (R344). What it has sent out to write is
performed: its writes stand. -/
def State.engineFail (s : State) (c : Cmd) {α : Type} : Eng α → State
  | .ok _ => s
  | .fault va k e pa => (s.stopCmd c).stopFault c.lane.wg va k e pa
  | .deny va => ((s.settleCmd c.id).finishCmd c).failLaunch c.launch .engineFault 0 va
  | .held => s
  | .bad => ((s.settleCmd c.id).finishCmd c).consume c.launch

/-- The units of a command whose writes have been on their way are done: what it completes is counted from them (R207,
R210). -/
def Cmd.caughtUp (c : Cmd) : Cmd := { c with progress := c.progress + c.ahead, ahead := 0 }

/-! Acceptance (R244, R245). -/

/-- The result of check 8 for a command. -/
inductive Acc (α : Type) where
  | ok (a : α)
  | trap (i : TrapInfo)
  | fault (va : Nat) (kind : AccKind) (entry entryPa : Nat)
  | held
  | bad
  deriving DecidableEq, Repr

/-- An access at acceptance: a failed check is a precise protection-key violation (R245). -/
def Eng.acc {α : Type} : Eng α → Acc α
  | .ok a => .ok a
  | .fault va k e pa => .fault va k e pa
  | .deny va => .trap (.of causePKEY va)
  | .held => .held
  | .bad => .bad

/-- Go on after a check that succeeds. -/
def accThen {α β : Type} (r : State × Acc α) (f : State → α → State × Acc β) : State × Acc β :=
  match r with
  | (s, .ok a) => f s a
  | (s, .trap i) => (s, .trap i)
  | (s, .fault va k e pa) => (s, .fault va k e pa)
  | (s, .held) => (s, .held)
  | (s, .bad) => (s, .bad)

/-- The first trap of a list of conditions. -/
def firstTrap : List (Bool × TrapInfo) → Option TrapInfo
  | [] => none
  | (b, i) :: r => if b then some i else firstTrap r

/-- A misalignment check of a value (R245, check 5). -/
def misaligned (v n : Nat) : Bool × TrapInfo := (v % n != 0, .of causeMISAL v)

/-- A loft range check (R245, check 6): `cnt` rows of `len` bytes, `str` apart. -/
def beyondLoft (b : Nat) (loft : Bool) (base str cnt len : Nat) : Bool × TrapInfo :=
  (loft && decide (0 < cnt ∧ 0 < len) && decide (b < base + (cnt - 1) * str + len), .of causeLOFTB base)

/-- The operand words that a command takes from its leader (R243). -/
def State.blockOf (s : State) (l : LaneRef) (i : Instr) : List Word :=
  let e := s.env l
  let t := s.thread l
  let a := i.engineOpnd
  if i.blockLen ≠ 0 then e.regs t a i.blockLen
  else if i.isCopy then
    let v := e.src64 t a
    [v.extractLsb' 0 32, v.extractLsb' 32 32]
  else [e.src t a]

/-- The format word of a lane (R113). -/
def State.formatOf (s : State) (l : LaneRef) (i : Instr) : Word :=
  ((s.env l).regs (s.thread l) i.engineOpnd 1).headD 0#32

/-- The command that a rig's lanes send; its completion is settled at acceptance. -/
def State.mkCmd (s : State) (i : Instr) (e : Engine) (l : LaneRef) (ls : List LaneRef) : Cmd :=
  let (launch, perm) := ((s.wg? l.wg).map fun w => (w.launch, w.pkperm)).getD (0, 0#64)
  { id := s.serial, instr := i, engine := e, lane := l, lanes := ls.map LaneRef.lane, launch := launch
    core := s.focus.1, perm := perm, block := s.blockOf l i
    perLane := ls.map fun m => (m.lane, ((s.env m).regs (s.thread m) i.engineOpnd 3).getD 2 0#32)
    desc := [], chain := [], set := (s.env l).aset, target := 0
    tok := match i.completion with
      | .tok k => some k.toNat
      | .bar _ => none
    bar := match i.completion with
      | .tok _ => none
      | .bar c => some (((s.env l).src (s.thread l) c).toNat, 0)
    progress := 0, stopped := false, held := false, cycle := s.cycle, tainted := false
    landed := 0, ahead := 0, adds := [], spread := false, pub := 0, early := [] }

/-- Check 7 of R245: the barrier slot in C. -/
def State.barTrap (s : State) (c : Cmd) : Option TrapInfo :=
  match c.bar, s.wg? c.lane.wg with
  | some (a, _), some w =>
    firstTrap [misaligned a 16, (decide ((s.limits w.id).2.2 < a + 16), .of causeLOFTB a),
      (!(w.isLive a), .of causeBARMIS a)]
  | _, _ => none

/-- An accepted command takes its place: its slot's tag is captured (R198), its token rises (R244), and %rowprog counts
the K-groups of a rig's latest MMA (R251). -/
def State.enter (s : State) (c : Cmd) : State :=
  let c := { c with bar := match c.bar, s.wg? c.lane.wg with
    | some (a, _), some w => some (a, slotTag (w.slotBits a))
    | _, _ => none }
  let s := { s with serial := s.serial + 1, cmds := s.cmds ++ [c] }
  s.setRig c.lane.wg c.lane.rig fun r =>
    let r := match c.tok with
      | some k => r.addTok k true
      | none => r
    if c.isMma then { r with rowprog := 0#32 } else r

/-- Whether the earlier accesses of a leader have been performed (R208). -/
def State.settled (s : State) (l : LaneRef) : Bool :=
  s.stores.all (fun q => q.lane != l) && s.loads.all fun p => p.lane != l || p.served.isSome

/-- A token of a rig at its limit in the view of a live thread (R33, R183). -/
def State.rigTokFull (s : State) (c : Cmd) : Bool :=
  match c.tok with
  | some k => (s.liveLanes c.lane.wg c.lane.rig).any fun l => decide (63 ≤ s.tokView l k)
  | none => false

/-- Whether the two lanes of each protected pair hold the same words (R350); a pair that does not sends
nothing. -/
def State.sameWords (s : State) (ls : List LaneRef) (f : LaneRef → List Word) : State × Bool :=
  if ls.all fun l => !(s.prot l.wg) then (s, true)
  else
    let r := s.agree (ls.map fun l => (l, f l))
    (r.1, r.2.length * 2 == ls.length)

/-- The leader with its shadow or primary. -/
def State.leaderPair (s : State) (ls : List LaneRef) (l : LaneRef) : List LaneRef :=
  ls.filter fun m => (s.twins l).contains m

/-- Mark the lanes of a rig done. -/
def State.serveAll (s : State) (ls : List LaneRef) : State := ls.foldl State.serve s

/-- What a kind of command checks: checks 4 to 6 on its block, check 8 with what it captures, and what
follows its acceptance. -/
structure EngineOp where
  check : State → Cmd → Option TrapInfo
  accept : State → Cmd → State × Acc Cmd
  after : State → Cmd → State := fun s _ => s

/-- The command of one rig (R244, R245): its own checks, a place in the engine, and acceptance. A command
that waits holds the port, and those of later rigs wait behind it. -/
def State.sendRig (s : State) (i : Instr) (e : Engine) (op : EngineOp) (ls : List LaneRef) : State :=
  match ls with
  | [] => s
  | l :: _ =>
    if (s.group?.map Group.stalled).getD false then s
    else
      let (s, same) := s.sameWords (s.leaderPair ls l) fun m => s.blockOf m i
      if !same then s.serveAll ls
      else
        let c := s.mkCmd i e l ls
        match op.check s c, s.barTrap c with
        | some j, _ => s.strikeAll ls j
        | none, some j => s.strikeAll ls j
        | none, none =>
          if !(s.engineRoom s.focus.1 e) || s.rigTokFull c || !(s.settled l) then s.stall
          else match op.accept s c with
            | (s, .ok c) => (op.after (s.enter c) c).serveAll ls
            | (s, .trap j) => s.strikeAll ls j
            | (s, .fault va k ent pa) => (s.takeFault l.wg va k ent pa).stall
            | (s, .held) => s.stall
            | (s, .bad) => (s.consume c.launch).serveAll ls

/-- The rigs of some lanes in the order of the group that issues (R60). -/
def State.rigOrder (s : State) (ls : List LaneRef) : List (List LaneRef) :=
  let inGroup := ((s.group?.map Group.lanes).getD []).filter ls.contains
  let rigs := (inGroup.map fun l => (l.wg, l.rig)).eraseDups
  rigs.map fun r => ls.filter fun l => l.wg == r.1 && l.rig == r.2

/-- Checks 2 and 3 of R245 on the rigs of an issue (R115): those that fail, with their trap. A rig that
diverges comes before a format that is not admitted. -/
def State.formatTraps (s : State) (i : Instr) (ok : Nat → Bool) (rigs : List (List LaneRef)) :
    List (List LaneRef × TrapInfo) :=
  let word (l : LaneRef) : Word := s.formatOf l i
  let split := rigs.filter fun ls => match ls with
    | [] => false
    | l :: r => r.any fun m => word m != word l
  if !split.isEmpty then split.map fun ls => (ls, .of causeFMTDIV 0)
  else (rigs.filter fun ls => match ls with
    | [] => false
    | l :: _ => !(ok (word l).toNat)).map fun ls => (ls, .of causeILLOPD 0)

/-- The rigs whose protected pairs agree on their format words; the others are done (R350). -/
def State.formatPairs (s : State) (i : Instr) (rigs : List (List LaneRef)) : State × List (List LaneRef) :=
  rigs.foldl (fun (acc : State × List (List LaneRef)) ls =>
    let (s, same) := acc.1.sameWords ls fun m => [acc.1.formatOf m i]
    if same then (s, acc.2 ++ [ls]) else (s.serveAll ls, acc.2)) (s, [])

/-- An engine slot (R60, R244, R245): `ok` admits a format word where the command has one. -/
def engineSlot (i : Instr) (gd : Guard) (ok : Nat → Bool) (op : EngineOp) (s : State) :
    Host.Outcome State Fault Refusal :=
  issue i gd s fun s ls =>
    let s := s.taint ls [i.engineOpnd]
    match i.engine with
    | none => s
    | some e =>
      let rigs := s.rigOrder ls
      let (s, rigs) := if i.hasFormat then s.formatPairs i rigs else (s, rigs)
      let traps := if i.hasFormat then s.formatTraps i ok rigs else []
      if !traps.isEmpty then traps.foldl (fun s x => s.strikeAll x.1 x.2) s
      else rigs.foldl (fun s ls => s.sendRig i e op ls) s

/-- No earlier command of the rig stands before a command in its order (R244). -/
def State.isFirst (s : State) (c : Cmd) : Bool :=
  let earlier := s.cmds.takeWhile fun d => d.id != c.id
  c.instr.order == 0 || earlier.all fun d =>
    !(d.lane.wg == c.lane.wg && d.lane.rig == c.lane.rig && d.instr.order == c.instr.order)

end Machine

end Sys2Proof
end

