-- ==== Sys2Proof/Machine/Matrix.lean ====
section
/-! DEFINITION. The matrix engine: MMA, MOPF and MZERO (R98 to R102, R113 to R117, R248 to R253). -/

namespace Sys2Proof

/-- N and K of an MMA (R92, R248). -/
def Instr.mmaShape : Instr → Nat × Nat
  | .mma _ ns ks _ _ => (32 * 2 ^ ns.code, 64 * 2 ^ ks.code)
  | .mma16 _ ns ks _ _ => (32 * 2 ^ ns.code, 32 * 2 ^ ks.code)
  | _ => (0, 0)

namespace Machine

/-! Formats (R113, R114). -/

/-- Whether a code is of the 8-, 6- and 4-bit class. -/
def isNarrow (code : Nat) : Bool := code == 3 || code == 4 || code == 5 || code == 6 || code == 9

/-- Whether a code is an 8-bit integer. -/
def isIntCode (code : Nat) : Bool := code == 7 || code == 8

/-- One operand's part of R114: CB2 is scaled, and only floating-point elements of 8 bits or fewer may be. -/
def scaleBitOk (code : Nat) (b : Bool) : Bool :=
  if code = 9 then b else !b || code == 3 || code == 4 || code == 5 || code == 6

/-- R114 for the 16-bit range or the other. -/
def mmaFormatOk (wide : Bool) (w : Nat) : Bool :=
  let af := bits w 0 4
  let bf := bits w 4 4
  let acc := bits w 8 4
  let scl := bits w 12 4
  let kinds :=
    if wide then af == bf && (af == 1 || af == 2) && acc == 0
    else (isNarrow af && isNarrow bf && acc == 0) || (isIntCode af && isIntCode bf && acc == 7)
  let scaled := (af != 9 && bit w 16) || (bf != 9 && bit w 17)
  bits w 18 14 == 0 && kinds && scaleBitOk af (bit w 16) && scaleBitOk bf (bit w 17) &&
    (if scaled then scl == 1 || scl == 2 else scl == 0)

/-- Bits of an element of a format code (R98). -/
def codeBits (code : Nat) : Nat :=
  match code with
  | 0 => 32
  | 1 | 2 => 16
  | 5 => 4
  | 6 => 6
  | _ => 8

/-- The value of an element of a format code (R93, R97). -/
def codeValue (code v : Nat) : Num :=
  match code with
  | 0 => f32 v
  | 1 => .ofBits .bf16 v
  | 2 => .ofBits .f16 v
  | 3 => .ofBits .e4m3 v
  | 4 => .ofBits .e5m2 v
  | 5 => .ofBits .e2m1 v
  | 6 => .ofBits .e3m2 v
  | 7 => .ofInt (toInt true 8 v)
  | _ => .ofInt v

/-- Bytes of `n` elements of a row (R98); a CB2 code covers eight weights. -/
def rowBytes (code n : Nat) : Nat :=
  if code = 9 then 2 * ((n + 7) / 8) else (n * codeBits code + 7) / 8

/-- An operand of an MMA: format code, space, base and stride, scale kind (0 none, 1 E8M0, 2 E4M3, 3 BF16)
with the base and stride of the scales (R99, R249). The scales lie in the operand's space. -/
structure MmaOpnd where
  code : Nat
  loft : Bool
  base : Nat
  str : Nat
  scale : Nat
  sbase : Nat
  sstr : Nat
  deriving DecidableEq, Repr

/-- Elements of a block and bytes of a scale (R99). -/
def MmaOpnd.blockLen (o : MmaOpnd) : Nat :=
  match o.scale with
  | 1 => 32
  | 2 => 16
  | _ => 128
def MmaOpnd.scaleBytes (o : MmaOpnd) : Nat := if o.scale = 3 then 2 else 1

/-- The scale kind of an operand (R114). -/
def scaleKind (w code : Nat) (b : Bool) : Nat := if code = 9 then 3 else if b then bits w 12 4 else 0

def Cmd.mmaA (c : Cmd) : MmaOpnd :=
  let code := bits (c.w 0) 0 4
  ⟨code, bit (c.w 1) 25, c.pair 2, c.w 6, scaleKind (c.w 0) code (bit (c.w 0) 16), c.pair 8, c.w 12⟩
def Cmd.mmaB (c : Cmd) : MmaOpnd :=
  let code := bits (c.w 0) 4 4
  ⟨code, bit (c.w 1) 26, c.pair 4, c.w 7, scaleKind (c.w 0) code (bit (c.w 0) 17), c.pair 10, c.w 13⟩

/-- The fields of SHAPE (R248). -/
def Cmd.mmaRows (c : Cmd) : Nat := bits (c.w 1) 0 8
def Cmd.mmaCols (c : Cmd) : Nat := bits (c.w 1) 8 8
def Cmd.mmaKlen (c : Cmd) : Nat := bits (c.w 1) 16 9
def Cmd.mmaColb (c : Cmd) : Nat := bits (c.w 1) 30 2

/-- Rows or columns of an operand that the clipped shape touches: none where it is empty (R249). -/
def Cmd.touched (c : Cmd) (n : Nat) : Nat :=
  if c.mmaRows = 0 ∨ c.mmaCols = 0 ∨ c.mmaKlen = 0 then 0 else n

/-- Checks 5 of R245 on an operand's scales. -/
def MmaOpnd.scaleAligned (o : MmaOpnd) : List (Bool × TrapInfo) :=
  if o.scale = 0 then [] else [misaligned o.sbase o.scaleBytes, misaligned o.sstr o.scaleBytes]

/-- Check 6 of R245 on an operand of which `cnt` rows are touched. -/
def MmaOpnd.loftRanges (o : MmaOpnd) (b cnt klen : Nat) : List (Bool × TrapInfo) :=
  [beyondLoft b o.loft o.base o.str cnt (rowBytes o.code klen)] ++
    (if o.scale = 0 then []
     else [beyondLoft b o.loft o.sbase o.sstr cnt ((klen + o.blockLen - 1) / o.blockLen * o.scaleBytes)])

/-- Checks 4 to 6 of an MMA (R245, R248, R249). -/
def mmaCheck (s : State) (c : Cmd) : Option TrapInfo :=
  let (n, k) := c.instr.mmaShape
  let (_, ns, b) := s.limits c.lane.wg
  firstTrap ([(bits (c.w 1) 27 3 != 0 || !(c.zeroFrom 14) || decide (64 < c.mmaRows) || decide (n < c.mmaCols) ||
      decide (k < c.mmaKlen) || decide (128 < 32 * c.mmaColb + n), .of causeOBJMIS 0),
    (decide (ns ≤ c.set), .of causeILLOPD 0),
    misaligned c.mmaA.base 16, misaligned c.mmaB.base 16, misaligned c.mmaA.str 16, misaligned c.mmaB.str 16] ++
    c.mmaA.scaleAligned ++ c.mmaB.scaleAligned ++ c.mmaA.loftRanges b (c.touched c.mmaRows) c.mmaKlen ++
    c.mmaB.loftRanges b (c.touched c.mmaCols) c.mmaKlen)

/-! The group update (R117, R250). -/

/-- The raw bytes of `nk` elements from element `k0` of a row, and of their scales, as numbers. -/
def State.mmaRaw (s : State) (c : Cmd) (o : MmaOpnd) (k0 nk idx : Nat) : State × Eng (Nat × Nat) :=
  engThen (s.engRead c o.loft (o.base + idx * o.str + rowBytes o.code k0) (rowBytes o.code nk)) fun s d =>
    if o.scale = 0 then (s, .ok (leNat d, 0))
    else
      let q0 := k0 / o.blockLen
      let nq := (k0 + nk - 1) / o.blockLen - q0 + 1
      engThen (s.engRead c o.loft (o.sbase + idx * o.sstr + q0 * o.scaleBytes) (nq * o.scaleBytes)) fun s e =>
        (s, .ok (leNat d, leNat e))

/-- The value of a scale (R99). -/
def scaleValue (kind v : Nat) : Num :=
  match kind with
  | 1 => if v = 0xFF then .nan else .fin false 1 1 ((v : Int) - 127)
  | 2 => .ofBits .e4m3 (v % 128)
  | _ => .ofBits .bf16 v

/-- Element `i` of a row of raw bytes, counted from `k0`, times its scale (R100, R102). -/
def MmaOpnd.value (o : MmaOpnd) (grid : Nat → Nat) (k0 : Nat) (raw : Nat × Nat) (i : Nat) : Num :=
  let x := if o.code = 9 then
      let code := bits raw.1 (16 * (i / 8)) 16
      cb2Weight (grid (code % 256)) code (i % 8)
    else codeValue o.code (bits raw.1 (codeBits o.code * i) (codeBits o.code))
  if o.scale = 0 then x
  else
    let q := (k0 + i) / o.blockLen - k0 / o.blockLen
    x.mul (scaleValue o.scale (bits raw.2 (8 * o.scaleBytes * q) (8 * o.scaleBytes)))

/-- The scaled value of a clipped element in a partly clipped group of `nk` elements from `k0`: +0 times the scale of
its block, where an element of the block is not clipped (R117, R249). -/
def MmaOpnd.clipped (o : MmaOpnd) (k0 nk : Nat) (raw : Nat × Nat) (i : Nat) : Num :=
  let zero : Num := .fin false 0 1 0
  let q := (k0 + i) / o.blockLen - k0 / o.blockLen
  if o.scale = 0 ∨ (k0 + nk - 1) / o.blockLen < (k0 + i) / o.blockLen then zero
  else zero.mul (scaleValue o.scale (bits raw.2 (8 * o.scaleBytes * q) (8 * o.scaleBytes)))

/-- The integer of element `i` (R97). -/
def MmaOpnd.int (o : MmaOpnd) (raw : Nat × Nat) (i : Nat) : Int := toInt (o.code == 7) 8 (bits raw.1 (8 * i) 8)

/-- acc + the exact sum of a group, with its two roundings (R117); clipped elements of a group are +0. -/
def groupAdd (acc : Nat) (terms : List Num) (clipped : Bool) : Nat :=
  addRne acc (rne32 (Num.sum false (if clipped then terms ++ [.fin false 0 1 0] else terms)))

/-- An accumulator element as a command reads it: each vector write that no MOPF has ordered is seen or not
(R252). -/
def Thread.accPick (t : Thread) (fresh lane key : Nat) : Word :=
  let now := Map.get 0#32 t.rows key
  let all := now :: Map.get [] t.accOld key
  all.getD (Config.freeChoice fresh (65536 * lane + key) % all.length) now

/-- A command writes an accumulator element. -/
def Thread.accPut (t : Thread) (key : Nat) (v : Word) : Thread :=
  { t with rows := Map.set 0#32 t.rows key v, accOld := Map.set [] t.accOld key [] }

/-- The result that a command leaves: unspecified where a thread reached its tile sets (R218). -/
def Cmd.result (c : Cmd) (fresh lane key : Nat) (v : Nat) : Word :=
  if c.tainted then Config.freeWord fresh lane (4096 + key) else BitVec.ofNat 32 v

/-- One element of an MMA: element `j` of a row, from the raw operands of its row and column. -/
def mmaElem (c : Cmd) (grid : Nat → Nat) (k0 nk fresh lane : Nat) (a : Nat × Nat) (t : Thread)
    (j : Nat) (b : Nat × Nat) : Thread :=
  let key := accKey c.set (32 * c.mmaColb + j)
  let acc := (t.accPick fresh lane key).toNat
  let v :=
    if isIntCode c.mmaA.code then
      wrapInt 32 (((List.range nk).map fun i => c.mmaA.int a i * c.mmaB.int b i).foldl (· + ·) (acc : Int))
    else
      groupAdd acc (((List.range nk).map fun i => (c.mmaA.value grid k0 a i).mul (c.mmaB.value grid k0 b i)) ++
        (List.range (32 - nk)).map fun i =>
          (c.mmaA.clipped k0 nk a (nk + i)).mul (c.mmaB.clipped k0 nk b (nk + i))) false
  t.accPut key (c.result fresh lane key v)

/-- Update the row of a lane, in both lanes of a protected pair (R349). -/
def State.setRow (s : State) (l : LaneRef) (f : Thread → Thread) : State :=
  let t := f (s.thread l)
  (s.twins l).foldl (fun s m => s.setThread m fun u =>
    { u with rows := t.rows, rowst := t.rowst, accOld := t.accOld }) s

/-- The grid table of a command's launch (R101). -/
def State.gridOf (s : State) (c : Cmd) (g : Nat) : Nat := ((s.launch? c.launch).map fun l => l.gridEntry g).getD 0

/-- One K-group of an MMA (R250). -/
def State.mmaGroup (s : State) (c : Cmd) : State × Eng Unit :=
  let k0 := 32 * c.progress
  let nk := min 32 (c.mmaKlen - k0)
  let rows := (s.rowsOf c).filter fun r => r.1 < c.mmaRows
  if rows.isEmpty ∨ c.mmaCols = 0 then (s, .ok ())
  else
    engThen (engAll (fun s (r : Nat × LaneRef) =>
        engThen (s.mmaRaw c c.mmaA k0 nk r.1) fun s a => (s, .ok (r.2, a))) s rows) fun s as =>
      engThen (engAll (fun s j => s.mmaRaw c c.mmaB k0 nk j) s (List.range c.mmaCols)) fun s bs =>
        let grid := s.gridOf c
        let fresh := s.fresh
        (as.foldl (fun s x => s.setRow x.1 fun t =>
          (bs.foldl (fun (acc : Thread × Nat) b =>
            (mmaElem c grid k0 nk fresh x.1.lane x.2 acc.1 acc.2 b, acc.2 + 1)) (t, 0)).1) s, .ok ())

/-- %rowprog counts the K-groups of the last MMA that the rig has sent (R251). -/
def State.noteGroup (s : State) (c : Cmd) : State :=
  let last := !(s.cmds.any fun d => d.isMma && d.lane.wg == c.lane.wg && d.lane.rig == c.lane.rig && decide (c.id < d.id))
  if last then s.setRig c.lane.wg c.lane.rig fun r => { r with rowprog := BitVec.ofNat 32 c.progress } else s

/-- Perform up to a number of K-groups of an MMA; true when it is complete (R250, R251). -/
def State.mmaRun (s : State) (c : Cmd) : Nat → State × Eng Bool
  | 0 => (s, .ok (decide (c.mmaKlen ≤ 32 * c.progress)))
  | n + 1 =>
    if c.mmaKlen ≤ 32 * c.progress then (s, .ok true)
    else
      let c' := { c with progress := c.progress + 1 }
      match s.mmaGroup c with
      | (s, .ok _) =>
        let s := ((s.setCmd c').countCmd c 0x20 1).noteGroup c'
        State.mmaRun s c' n
      | (s, .fault va k e pa) => (s, .fault va k e pa)
      | (s, .deny va) => (s, .deny va)
      | (s, .held) => (s, .held)
      | (s, .bad) => (s, .bad)

/-- MMA at acceptance reads nothing (R245). -/
def mmaOp : EngineOp := { check := mmaCheck, accept := fun s c => (s, .ok c) }

/-- MMA of 8-, 6- and 4-bit or integer inputs (R248, R250). -/
def execMma (gd : Guard) (ns ks : Sel3) (tok : BitVec 3) (a : Opnd) (s : State) :
    Host.Outcome State Fault Refusal :=
  engineSlot (.mma gd ns ks tok a) gd (mmaFormatOk false) mmaOp s

/-- MMA of 16-bit inputs (R248, R250). -/
def execMma16 (gd : Guard) (ns ks : Sel3) (tok : BitVec 3) (a : Opnd) (s : State) :
    Host.Outcome State Fault Refusal :=
  engineSlot (.mma16 gd ns ks tok a) gd (mmaFormatOk true) mmaOp s

/-- MOPF (R252): the rig's earlier vector writes to its tile sets have been written. -/
def execMopf (gd : Guard) (s : State) : Host.Outcome State Fault Refusal :=
  issue (.mopf gd) gd s fun s ls =>
    let rigs := (ls.map fun l => (l.wg, l.rig)).eraseDups
    rigs.foldl (fun s r => s.setRig r.1 r.2 fun q =>
      { q with threads := q.threads.map fun t => { t with accOld := [] } }) s

/-- MZERO's check of its tile set (R253). -/
def mzeroOp : EngineOp :=
  { check := fun s c => firstTrap [(decide ((s.limits c.lane.wg).2.1 ≤ c.w 0), .of causeILLOPD 0)]
    accept := fun s c => (s, .ok { c with set := c.w 0 }) }

/-- Reset a tile set in a row (R253). -/
def Thread.zeroSet (t : Thread) (set : Nat) : Thread :=
  { t with
    rows := t.rows.filter fun x => x.1 / 128 != set
    accOld := t.accOld.filter fun x => x.1 / 128 != set
    rowst := Map.set RowState.reset t.rowst set RowState.reset }

/-- Perform MZERO (R253): all 64 rows, the row state with them. -/
def State.mzeroPerform (s : State) (c : Cmd) : State × Eng Bool :=
  let fresh := s.fresh
  let s := s.setRig c.lane.wg c.lane.rig fun q => { q with threads := q.threads.map (·.zeroSet c.set) }
  let s := if c.tainted then
      (rigLanes c.lane.wg c.lane.rig).foldl (fun s l => s.setThread l fun t =>
        (List.range 128).foldl (fun t j =>
          let row := visLane (s.prot l.wg) l.lane
          t.accPut (accKey c.set j) (c.result fresh row (accKey c.set j) 0)) t) s
    else s
  (s, .ok true)

/-- MZERO (R253). -/
def execMzero (gd : Guard) (tok : BitVec 3) (a : Opnd) (s : State) : Host.Outcome State Fault Refusal :=
  engineSlot (.mzero gd tok a) gd (fun _ => true) mzeroOp s

end Machine

end Sys2Proof
end

