-- ==== Sys2Proof/Machine/TokenTable.lean ====
section
/-! DEFINITION. Token tables and the commands on them, and TOPK (R260 to R264, R275 to R284). -/

namespace Sys2Proof.Machine

/-! Headers and entries (R278 to R281). -/

def tblParent (h : Nat) : Nat := bits h 0 64

/-- A header's fields. -/
def tblHdr (va h : Nat) : TableHdr :=
  { addr := va, nblk := bits h 144 16, fork := bits h 64 32, clen := bits h 96 32, dc := bits h 136 1
    form := bits h 137 2, depth := bits h 128 8 }

/-- The magic of a header (R278). -/
def tblMagic : Nat := 0x4B56

/-- What makes a header misused by itself (R280). -/
def tblBad (h : Nat) : Bool :=
  let depth := bits h 128 8
  bits h 160 16 != tblMagic || bits h 139 5 != 0 || bits h 176 336 != 0 || bits h 137 2 == 3 ||
    decide (3 < depth) || (depth == 0 && (tblParent h != 0 || bits h 64 32 != 0)) ||
    (depth != 0 && tblParent h == 0) || decide (bits h 96 32 < bits h 64 32)

/-- What makes a parent misused beside its child (R280). -/
def parentBad (parent child : TableHdr) : Bool :=
  parent.depth + 1 != child.depth || parent.dc != child.dc || parent.form != child.form ||
    decide (parent.clen < child.fork)

/-- The chain of headers from a table up to its root, each read at acceptance as an acquire at sys (R280), and the
latest publication time of what was read; `fuel` is the four levels that a chain may have. -/
def State.readChain (s : State) (c : Cmd) : Nat → Nat → Option TableHdr → State × Acc (List TableHdr × Nat)
  | 0, va, _ => (s, .trap (.of causeOBJMIS va))
  | fuel + 1, va, child =>
    if va % 64 ≠ 0 then (s, .trap (.of causeMISAL va))
    else
      let r := s.engAcquire c va 64
      accThen (r.1, r.2.acc) fun s d =>
        let h := leNat d.1
        let t := tblHdr va h
        let odd := match child with
          | some ch => parentBad t ch
          | none => false
        if tblBad h || odd then (s, .trap (.of causeOBJMIS va))
        else if t.depth = 0 then (s, .ok ([t], d.2))
        else accThen (State.readChain s c fuel (tblParent h) (some t)) fun s r => (s, .ok (t :: r.1, max d.2 r.2))

/-- The named table of a command. -/
def Cmd.table (c : Cmd) : TableHdr := c.chain.headD ⟨0, 0, 0, 0, 0, 0, 0⟩

/-- Latent length, and whether slots carry a positional part (R275). -/
def TableHdr.len (h : TableHdr) : Nat := if h.dc = 1 then 512 else 256
def TableHdr.hasPos (h : TableHdr) : Bool := h.form == 1

/-- The slot size (R275). -/
def TableHdr.slotSize (h : TableHdr) : Nat := h.len + 64 + (if h.hasPos then 128 else 0)

/-- Whether an entry maps slot `o` of its block (R279, R281), and the address of the slot. -/
def entryMaps (e o : Nat) : Bool := bit e 0 && bits e 1 5 == 0 && decide (bits e 6 6 ≤ o)
def entrySlot (e o size : Nat) : Nat := bits e 12 52 * 4096 + o * size

/-- Where a position resolves in the levels from `v` up (R281): the slot's address and the level, or none
where no level maps it. -/
def State.resolve (s : State) (c : Cmd) (p size : Nat) : Nat → List TableHdr → State × Eng (Option (Nat × Nat))
  | _, [] => (s, .ok none)
  | v, h :: up =>
    let next (s : State) : State × Eng (Option (Nat × Nat)) :=
      if up.isEmpty ∨ h.fork ≤ p then (s, .ok none) else State.resolve s c p size (v + 1) up
    if p / 64 < h.nblk then
      engThen (s.engRead c false (h.addr + 64 + 8 * (p / 64)) 8) fun s d =>
        let e := leNat d
        if entryMaps e (p % 64) then (s, .ok (some (entrySlot e (p % 64) size, v))) else next s
    else next s

/-! KVLOOK (R260). -/

/-- The words +`i` and up are zero, and the table is aligned (R245, R280). -/
def tableCheck (top : Nat) (_s : State) (c : Cmd) : Option TrapInfo :=
  firstTrap [(!(c.zeroFrom top), .of causeOBJMIS 0), misaligned (c.pair 0) 64]

/-- Acceptance of a command that captures its table's chain. -/
def acceptChain (s : State) (c : Cmd) : State × Acc Cmd :=
  accThen (s.readChain c 4 (c.pair 0) none) fun s ch => (s, .ok { c with chain := ch.1, pub := ch.2 })

def kvlookOp : EngineOp := { check := tableCheck 3, accept := acceptChain }

/-- The four result words of one lane (R260). -/
def State.lookWords (s : State) (c : Cmd) (p : Nat) : State × Eng (List Word) :=
  let h := c.table
  if h.clen ≤ p then (s, .ok [0#32, 0#32, 0xFFFFFFFF#32, 0#32])
  else
    engThen (s.resolve c p h.slotSize 0 c.chain) fun s r =>
      match r with
      | some (a, v) => (s, .ok [BitVec.ofNat 32 a, BitVec.ofNat 32 (a / 2 ^ 32), BitVec.ofNat 32 v, 0#32])
      | none => (s, .ok [0#32, 0#32, 0xFFFFFFFE#32, 0#32])

/-- Write result registers of a command in a lane and its shadow, as a load writes them (R184). -/
def State.putResult (s : State) (l : LaneRef) (d : Nat) (ws : List Word) : State :=
  (s.twins l).foldl (fun s m => s.setThread m fun t => if t.alive then t.putRegs d ws else t) s

/-- Perform a KVLOOK: every lane is resolved before any register is written. -/
def State.kvlookPerform (s : State) (c : Cmd) (d : Nat) : State × Eng Bool :=
  let pos (l : LaneRef) : Nat := (((c.perLane.find? fun x => x.1 == l.lane).map Prod.snd).getD 0#32).toNat
  engThen (engAll (fun s (r : Nat × LaneRef) =>
      engThen (s.lookWords c (pos r.2)) fun s ws => (s, .ok (r.2, ws))) s (s.rowsOf c)) fun s rs =>
    (rs.foldl (fun s x => s.putResult x.1 d x.2) s, .ok true)

/-- KVLOOK (R260). -/
def execKvlook (gd : Guard) (tok : BitVec 3) (d a : Opnd) (s : State) : Host.Outcome State Fault Refusal :=
  engineSlot (.kvlook gd tok d a) gd (fun _ => true) kvlookOp s

/-! KVAPP (R261). The padding of a slot is neither read nor written (R276): the bytes copied are the latent
vector with its scale, and the positional part. -/

/-- The runs of a slot that hold data: offset and length. -/
def TableHdr.slotRuns (h : TableHdr) : List (Nat × Nat) :=
  (0, h.len + 2) :: (if h.hasPos then [(h.len + 64, 128)] else [])

/-- The offsets of a slot's data bytes, ascending. -/
def TableHdr.slotOffsets (h : TableHdr) : List Nat :=
  h.slotRuns.flatMap fun r => (List.range r.2).map fun i => r.1 + i

/-- The end of the last run. -/
def TableHdr.slotEnd (h : TableHdr) : Nat := h.slotRuns.foldl (fun m r => max m (r.1 + r.2)) 0

def kvappCheck (_s : State) (c : Cmd) : Option TrapInfo :=
  firstTrap [(bits (c.w 5) 1 31 != 0 || !(c.zeroFrom 6), .of causeOBJMIS 0), misaligned (c.pair 0) 64]

/-- Acceptance of KVAPP: the position lies at or beyond the committed length, and level 0 maps it. -/
def kvappAccept (s : State) (c : Cmd) : State × Acc Cmd :=
  accThen (acceptChain s c) fun s c =>
    let h := c.table
    let p := c.w 4
    if p < h.clen ∨ h.nblk ≤ p / 64 then (s, .trap (.of causeOBJMIS h.addr))
    else
      let r := s.engRead c false (h.addr + 64 + 8 * (p / 64)) 8
      accThen (r.1, r.2.acc) fun s d =>
        let e := leNat d
        if !(entryMaps e (p % 64)) then (s, .trap (.of causeOBJMIS h.addr))
        else
          let b := (s.limits c.lane.wg).2.2
          match firstTrap [beyondLoft b (bit (c.w 5) 0) (c.pair 2) 0 1 h.slotEnd] with
          | some i => (s, .trap i)
          | none => (s, .ok { c with target := entrySlot e (p % 64) h.slotSize })

def kvappOp : EngineOp := { check := kvappCheck, accept := kvappAccept }

/-- Read the slot image of a KVAPP, run by run. -/
def State.kvImage (s : State) (c : Cmd) : State × Eng (List Byte) :=
  engThen (engAll (fun s (r : Nat × Nat) => s.engRead c (bit (c.w 5) 0) (c.pair 2 + r.1) r.2) s c.table.slotRuns)
    fun s ds => (s, .ok ds.flatten)

/-- The bytes of an image that have been written land, each once, however often the command starts again (R246,
R261). -/
def State.kvLand (s : State) (c : Cmd) : State × Cmd :=
  let c' := { c with landed := max c.landed c.progress }
  ((s.setCmd c').landCmd c (c'.landed - c.landed), c')

/-- Write the next byte of an image (R283), or send its write out. -/
def State.kvByte (s : State) (c : Cmd) (o : Nat) (x : Byte) : State × Eng Cmd :=
  engThen (s.engWrite c false false (c.target + o) [x]) fun s _ =>
    if c.spread then
      let c' := { c with ahead := c.ahead + 1 }
      (s.setCmd c', .ok c')
    else
      let r := s.kvLand { c with progress := c.progress + 1 }
      (r.1, .ok r.2)

/-- Write the bytes of an image, up to a count of them, one at a time. -/
def State.kvBytes (s : State) (c : Cmd) : Nat → State × Eng Nat
  | 0 => (s, .ok c.progress)
  | n + 1 =>
    match c.table.slotOffsets[c.caughtUp.progress]?, c.desc[c.caughtUp.progress]? with
    | some o, some x => engThen (s.kvByte c o x) fun s c' => State.kvBytes s c' n
    | _, _ => (s, .ok c.progress)

/-- Perform a KVAPP up to a number of bytes: the image is read whole first; what is written lands. -/
def State.kvappPerform (s : State) (c : Cmd) (units : Nat) : State × Eng Bool :=
  engThen (if c.desc.isEmpty then
      engThen (s.kvImage c) fun s d =>
        let c' := { c with desc := d, progress := 0 }
        (s.setCmd c', .ok c')
    else (s, .ok c)) fun s c =>
    let r := if c.spread then (s, c) else s.kvLand c.caughtUp
    engThen (r.1.kvBytes r.2 units) fun s p => (s, .ok (decide (c.table.slotOffsets.length ≤ p)))

/-- KVAPP (R261). -/
def execKvapp (gd : Guard) (cmp : Completion) (a : Opnd) (s : State) : Host.Outcome State Fault Refusal :=
  engineSlot (.kvapp gd cmp a) gd (fun _ => true) kvappOp s

/-! KVFORK (R262). -/

def kvforkCheck (_s : State) (c : Cmd) : Option TrapInfo :=
  firstTrap [(!(c.zeroFrom 5), .of causeOBJMIS 0), misaligned (c.pair 0) 64, misaligned (c.pair 2) 64]

/-- Acceptance of KVFORK: a parent of depth 3 has no child, and the fork lies within its committed length. -/
def kvforkAccept (s : State) (c : Cmd) : State × Acc Cmd :=
  accThen (acceptChain s c) fun s c =>
    let h := c.table
    if h.depth = 3 then (s, .trap (.of causeFORKD h.addr))
    else if h.clen < c.w 4 then (s, .trap (.of causeOBJMIS h.addr))
    else (s, .ok c)

def kvforkOp : EngineOp := { check := kvforkCheck, accept := kvforkAccept }

/-- The header of a child (R262, R279). -/
def childHeader (h : TableHdr) (fork : Nat) : Nat :=
  h.addr + 2 ^ 64 * fork + 2 ^ 96 * fork + 2 ^ 128 * (h.depth + 1) + 2 ^ 136 * h.dc + 2 ^ 137 * h.form +
    2 ^ 160 * tblMagic

/-- A command has made its writes, `n` bytes: they land and it completes, or they have set out only (R210). -/
def State.written (s : State) (c : Cmd) (n : Nat) : State × Eng Bool :=
  if c.spread then (s.setCmd { c with ahead := 1 }, .ok false) else (s.landCmd c n, .ok true)

/-- Perform a KVFORK. -/
def State.kvforkPerform (s : State) (c : Cmd) : State × Eng Bool :=
  if c.ahead ≠ 0 then s.written c 64
  else
    engThen (s.engWrite c false false (c.pair 2) (leBytes 64 (childHeader c.table (c.w 4)))) fun s _ => s.written c 64

/-- KVFORK (R262). -/
def execKvfork (gd : Guard) (cmp : Completion) (a : Opnd) (s : State) : Host.Outcome State Fault Refusal :=
  engineSlot (.kvfork gd cmp a) gd (fun _ => true) kvforkOp s

/-! KVCOMMIT (R263, R282). -/

/-- Acceptance of KVCOMMIT: the new length is not below the current one. -/
def kvcommitAccept (s : State) (c : Cmd) : State × Acc Cmd :=
  accThen (acceptChain s c) fun s c =>
    if c.w 2 < c.table.clen then (s, .trap (.of causeOBJMIS c.table.addr)) else (s, .ok c)

def kvcommitOp : EngineOp := { check := tableCheck 3, accept := kvcommitAccept }

/-- Whether the writes of the commands of a rig have passed their write-completion times at sys. -/
def State.rigWritesDone (s : State) (c : Cmd) : Bool :=
  s.tracks.all fun t =>
    match t.lane with
    | some m => !(m.wg == c.lane.wg && m.rig == c.lane.rig && m.lane == engineLane) || s.trackDone .sys t
    | none => true

/-- Perform a KVCOMMIT: it waits for the write-completion times at sys of the leader's accesses and of its
rig's commands; the larger length stays (R263, R282). The four bytes of the length land. -/
def State.kvcommitPerform (s : State) (c : Cmd) : State × Eng Bool :=
  if !(s.released c.lane .sys) || !(s.rigWritesDone c) then (s, .ok false)
  else
    engThen (s.engUpdate c (c.table.addr + 12) 4 fun old => max old (c.w 2)) fun s _ =>
      (s.landCmd c 4, .ok true)

/-- KVCOMMIT (R263). -/
def execKvcommit (gd : Guard) (cmp : Completion) (a : Opnd) (s : State) : Host.Outcome State Fault Refusal :=
  engineSlot (.kvcommit gd cmp a) gd (fun _ => true) kvcommitOp s

/-! TOPK (R264). -/

def topkCheck (s : State) (c : Cmd) : Option TrapInfo :=
  let b := (s.limits c.lane.wg).2.2
  let n := c.w 6
  let k := c.w 7
  let out := bit (c.w 8) 1
  firstTrap [(bits (c.w 8) 2 30 != 0 || !(c.zeroFrom 9) || decide (n < 1 ∨ 4096 < n ∨ k < 1 ∨ 1024 < k ∨ n < k),
      .of causeOBJMIS 0),
    misaligned (c.pair 0) 4, misaligned (c.pair 2) 4, misaligned (c.pair 4) 4,
    beyondLoft b (bit (c.w 8) 0) (c.pair 0) 0 1 (4 * n), beyondLoft b out (c.pair 2) 0 1 (4 * k),
    beyondLoft b (out && c.pair 4 != 0) (c.pair 4) 0 1 (4 * k)]

/-- Whether score `x` of a lower index ranks at or above score `y` (R264): NaN lies below every number, and
-0 equals +0. -/
def ranksFirst (x y : Nat) : Bool :=
  if isNan32 y then true
  else if isNan32 x then false
  else decide (ord32 y ≤ ord32 x)

/-- Put a score of a higher index into a ranking. -/
def rankInsert (x : Nat × Nat) : List (Nat × Nat) → List (Nat × Nat)
  | [] => [x]
  | y :: r => if ranksFirst y.2 x.2 then y :: rankInsert x r else x :: y :: r

/-- The ranking of scores with their indexes. -/
def rank (scores : List Nat) : List (Nat × Nat) :=
  (scores.foldl (fun (acc : List (Nat × Nat) × Nat) v => (rankInsert (acc.2, v) acc.1, acc.2 + 1)) ([], 0)).1

/-- Perform a TOPK: the scores are read whole and the outputs translated before anything is written. -/
def State.topkPerform (s : State) (c : Cmd) : State × Eng Bool :=
  let n := c.w 6
  let k := c.w 7
  let out := bit (c.w 8) 1
  let vals := c.pair 4 != 0
  let len := if vals then 8 * k else 4 * k
  if c.ahead ≠ 0 then s.written c len
  else engThen (s.engRead c (bit (c.w 8) 0) (c.pair 0) (4 * n)) fun s d =>
    engThen (s.engCheck c out .write (c.pair 2) (4 * k)) fun s _ =>
      engThen (if vals then s.engCheck c out .write (c.pair 4) (4 * k) else (s, .ok ())) fun s _ =>
        let top := (rank ((wordsLe d n))).take k
        engThen (s.engWrite c out false (c.pair 2) (top.flatMap fun x => leBytes 4 x.1)) fun s _ =>
          engThen (if vals then s.engWrite c out false (c.pair 4) (top.flatMap fun x => leBytes 4 x.2)
            else (s, .ok ())) fun s _ => s.written c len
where
  /-- The 32-bit numbers of a run of bytes. -/
  wordsLe (d : List Byte) (n : Nat) : List Nat := (List.range n).map fun i => leNat ((d.drop (4 * i)).take 4)

def topkOp : EngineOp := { check := topkCheck, accept := fun s c => (s, .ok c) }

/-- TOPK (R264). -/
def execTopk (gd : Guard) (cmp : Completion) (a : Opnd) (s : State) : Host.Outcome State Fault Refusal :=
  engineSlot (.topk gd cmp a) gd (fun _ => true) topkOp s

end Sys2Proof.Machine
end

