-- ==== Sys2Proof/Machine/Attention.lean ====
section
/-! DEFINITION. The attention commands: ATT, ATTFIN and LATW (R118, R119, R254 to R259, R277). -/

namespace Sys2Proof.Machine

/-! The block of ATT (R254). -/

def Cmd.attExp (c : Cmd) : Bool :=
  match c.instr with
  | .att _ e _ _ _ _ => e
  | _ => false
def Cmd.attAbs (c : Cmd) : Bool :=
  match c.instr with
  | .att _ _ b _ _ _ => b
  | _ => false
def Cmd.attAcc (c : Cmd) : Bool :=
  match c.instr with
  | .att _ _ _ a _ _ => a
  | _ => false

def Cmd.attRows (c : Cmd) : Nat := bits (c.w 5) 0 7
def Cmd.attLoft (c : Cmd) : Bool := bit (c.w 5) 7
def Cmd.attNtok (c : Cmd) : Nat := bits (c.w 5) 8 8
def Cmd.attBank (c : Cmd) : Nat := bits (c.w 5) 16 2
def Cmd.attDc (c : Cmd) : Nat := if bit (c.w 5) 18 then 512 else 256
def Cmd.attDh (c : Cmd) : Nat := bits (c.w 5) 19 8

/-- Elements of a query and of a key, elements of a value, and tile sets of the mode (R255). -/
def Cmd.attQuery (c : Cmd) : Nat := if c.attExp then c.attDh else if c.attAbs then c.attDc else c.attDc / 2
def Cmd.attValue (c : Cmd) : Nat := c.attQuery
def Cmd.attSets (c : Cmd) : Nat := if c.attExp then 1 else if c.attAbs then c.attDc / 128 else c.attDc / 256

/-- The query's format code, and bytes of a query row. -/
def Cmd.attCode (c : Cmd) : Nat := bits (c.w 0) 0 4
def Cmd.attRowBytes (c : Cmd) : Nat := rowBytes c.attCode c.attQuery

/-- The admitted format words (R254): E4M3 or BF16 queries, E4M3 keys, FP32 accumulation. -/
def attFormatOk (w : Nat) : Bool := w == 0x33 || w == 0x31

/-- A bank of a command's core. -/
def State.bank (s : State) (c : Cmd) (i : Nat) : Option Bank := ((s.core c.core).banks[i]?).join

/-- A bank that an ATT.EXP may use (R258): loaded by its own launch with its DH and DC. -/
def State.bankFits (s : State) (c : Cmd) : Bool :=
  match s.bank c c.attBank with
  | some k => k.launch == c.launch && k.dh == c.attDh && k.dc == c.attDc
  | none => false

/-- Checks 4 to 6 of ATT (R245, R254, R255, R258). -/
def attCheck (s : State) (c : Cmd) : Option TrapInfo :=
  let (_, ns, b) := s.limits c.lane.wg
  firstTrap [(bits (c.w 5) 27 5 != 0 || !(c.zeroFrom 12) || decide (128 < c.attNtok) || decide (64 < c.attRows) ||
      (if c.attExp then decide (c.attDh < 1 ∨ 128 < c.attDh) || !(s.bankFits c) else c.attDh != 0),
      .of causeOBJMIS 0),
    (decide (ns < c.set + c.attSets), .of causeILLOPD 0),
    misaligned (c.pair 2) 16, misaligned (c.w 4) 16, misaligned (c.w 9) 2, misaligned (c.pair 10) 4,
    misaligned (c.pair 6) 64, beyondLoft b c.attLoft (c.pair 2) (c.w 4) c.attRows c.attRowBytes]

/-- Check 8 of ATT: the chain, its latent length and form, and the positional query in the loft (R254). -/
def attAccept (s : State) (c : Cmd) : State × Acc Cmd :=
  accThen (s.readChain c 4 (c.pair 6) none) fun s ch =>
    let c := { c with chain := ch.1, pub := ch.2 }
    let h := c.table
    let split := !c.attExp && !c.attAbs
    if h.len ≠ c.attDc ∨ (h.form == 2) ≠ split then (s, .trap (.of causeOBJMIS h.addr))
    else
      let b := (s.limits c.lane.wg).2.2
      match firstTrap [beyondLoft b (c.attLoft && h.hasPos) (c.pair 2 + c.w 9) (c.w 4) c.attRows 128] with
      | some i => (s, .trap i)
      | none => (s, .ok c)

def attOp : EngineOp := { check := attCheck, accept := attAccept }

/-! Reading the tokens (R255, R275, R281, R283). -/

/-- A live token of a block: its place in it, its position, key, value and positional part. -/
structure AttTok where
  idx : Nat
  pos : Nat
  key : List Num
  val : List Num
  pp : List Num

/-- Elements of a format code from raw bytes. -/
def elemsOf (code n : Nat) (data : List Byte) : List Num :=
  let v := leNat data
  (List.range n).map fun i => codeValue code (bits v (codeBits code * i) (codeBits code))

/-- The running sum of a list of products from +0, in groups of 32 (R117). -/
def dotGroups : Nat → List Num → Nat → Nat
  | 0, _, acc => acc
  | fuel + 1, ts, acc =>
    if ts.isEmpty then acc else dotGroups fuel (ts.drop 32) (groupAdd acc (ts.take 32) (decide (ts.length < 32)))

/-- The dot product of two vectors (R118). -/
def dot (x y : List Num) : Nat := dotGroups (x.length + 1) (List.zipWith Num.mul x y) 0

/-- A weight of a bank; while a LATW is loading it, either the old or the new one (R258). -/
def Bank.weight (k : Bank) (fresh which row col : Nat) : Num :=
  let new := ((if which = 0 then k.wk else k.wv).getD row []).getD col 0
  if k.loading.isSome && Config.freeChoice fresh (2 ^ 20 + 1024 * row + 2 * col + which) % 2 == 0 then
    codeValue k.oldFmt (((if which = 0 then k.oldWk else k.oldWv).getD row []).getD col 0)
  else codeValue k.fmt new

/-- The DH key or value elements of a latent vector (R255). -/
def Bank.project (k : Bank) (fresh which dh : Nat) (lat : List Num) : List Num :=
  (List.range dh).map fun n =>
    f32 (dot lat ((List.range lat.length).map fun r => k.weight fresh which r n))

/-- Key and value of a token from its scaled latent vector, by the mode (R255). -/
def State.attVectors (s : State) (c : Cmd) (lat : List Num) : List Num × List Num :=
  if c.attExp then
    match s.bank c c.attBank with
    | some k => (k.project s.fresh 0 c.attDh lat, k.project s.fresh 1 c.attDh lat)
    | none => ([], [])
  else if c.attAbs then (lat, lat)
  else (lat.take (c.attDc / 2), lat.drop (c.attDc / 2))

/-- Read one token of the block: none if it is masked (R256, R281). -/
def State.attToken (s : State) (c : Cmd) (j : Nat) : State × Eng (Option AttTok) :=
  let h := c.table
  let pos := c.w 8 + j
  if h.clen ≤ pos then (s, .ok none)
  else
    engThen (s.resolve c pos h.slotSize 0 c.chain) fun s r =>
      match r with
      | none => (s, .ok none)
      | some (a, _) =>
        engThen (s.engReadSlot c a (h.len + 2)) fun s d =>
          engThen (if h.hasPos then s.engReadSlot c (a + h.len + 64) 128 else (s, .ok [])) fun s p =>
            let sg := codeValue 1 (leNat (d.drop h.len))
            let lat := (elemsOf 3 h.len (d.take h.len)).map fun x => x.mul sg
            let kv := s.attVectors c lat
            (s, .ok (some ⟨j, pos, kv.1, kv.2, if h.hasPos then elemsOf 1 64 p else []⟩))

/-- Read the query and the positional query of a row. -/
def State.attRow (s : State) (c : Cmd) (r : Nat × LaneRef) :
    State × Eng (LaneRef × List Num × List Num) :=
  let base := c.pair 2 + r.1 * c.w 4
  engThen (s.engRead c c.attLoft base c.attRowBytes) fun s d =>
    engThen (if c.table.hasPos then s.engRead c c.attLoft (base + c.w 9) 128 else (s, .ok [])) fun s p =>
      (s, .ok (r.2, elemsOf c.attCode c.attQuery d, if c.table.hasPos then elemsOf 1 64 p else []))

/-! One row (R118, R256). -/

/-- The scaled score of a token. -/
def attScore (scale : Nat) (q qp : List Num) (k : AttTok) : Nat :=
  let s := dot q k.key
  let s := if k.pp.isEmpty then s else addRne s (dot qp k.pp)
  rne32 ((f32 s).mul (f32 scale))

/-- exp2 of a difference, rounded first (R118). -/
def expDiff (a b : Nat) : Nat := (exp2Word (rne32 (Num.add false (f32 a) (f32 b).negate))).1

/-- A product of FP32 values, rounded once. -/
def mulRne (a b : Nat) : Nat := rne32 ((f32 a).mul (f32 b))

/-- A column of a row after a block: scaled by alpha, then the four groups of 32 positions (R118). Masked
positions add +0. -/
def attColumn (alpha : Nat) (ps : List (AttTok × Nat)) (n acc : Nat) : Nat :=
  (List.range 4).foldl (fun acc g =>
    let mine := ps.filter fun x => x.1.idx / 32 == g
    groupAdd acc (mine.map fun x => (f32 x.2).mul (x.1.val.getD n .nan)) (decide (mine.length < 32)))
    (mulRne acc alpha)

/-- One row: its thread after the command, and the weights of its tokens if it was updated (R256, R257). -/
def attRowStep (c : Cmd) (scale fresh lane : Nat) (toks : List AttTok) (q qp : List Num) (t : Thread) :
    Thread × Option (Nat × List (AttTok × Nat)) :=
  let st := Map.get RowState.reset t.rowst c.set
  if st.nan then (t, none)
  else
    let raw := toks.map fun k => (k, attScore scale q qp k)
    let nan := raw.any fun x => isNan32 x.2
    let clmp := raw.any fun x => x.2 == 0x7F800000
    let st := { st with nan := nan, clmp := st.clmp || clmp }
    let z := raw.map fun x => (x.1, if x.2 = 0x7F800000 then 0x7F7FFFFF else x.2)
    let mnew := z.foldl (fun m x => fmax32 m x.2) st.m.toNat
    if nan || mnew == 0xFF800000 then ({ t with rowst := Map.set RowState.reset t.rowst c.set st }, none)
    else
      let alpha := expDiff st.m.toNat mnew
      let ps := z.map fun x => (x.1, expDiff x.2 mnew)
      let psum := ps.foldl (fun a x => addRne a x.2) 0
      let l := addRne (mulRne st.l.toNat alpha) psum
      let st := { st with m := BitVec.ofNat 32 mnew, l := BitVec.ofNat 32 l }
      let t := (List.range c.attValue).foldl (fun t n =>
        let key := accKey (c.set + n / 128) (n % 128)
        t.accPut key (c.result fresh lane key (attColumn alpha ps n (t.accPick fresh lane key).toNat))) t
      ({ t with rowst := Map.set RowState.reset t.rowst c.set st }, some (l, ps))

/-- p / l as an exact quotient, +0 when l = +∞ (R257). -/
def weightOf (p l : Nat) : Num := if (f32 l).isInf then .fin false 0 1 0 else (f32 p).div (f32 l)

/-- What the score entry of a token receives (R257). -/
def accShare (rows : List (Nat × List (AttTok × Nat))) (j : Nat) : Num :=
  Num.sum false (rows.filterMap fun r => (r.2.find? fun x => x.1.idx == j).map fun x => weightOf x.2 r.1)

/-- The addition that a token's score entry receives, translated; the old value of the entry is good (R246, R343). -/
def State.accEntry (s : State) (c : Cmd) (rows : List (Nat × List (AttTok × Nat))) (k : AttTok) :
    State × Eng (Nat × Place × Nat) :=
  let va := c.pair 10 + 4 * k.pos
  engThen (s.engTranslate c .rmw va) fun s p =>
    let bad := !(s.badSectors p.addr 4).isEmpty
    (s.reportChecks p.addr 4, if bad then .bad else .ok (va, p, rne32 (accShare rows k.idx)))

/-- The additions of .ACC that are left, each performed once at its entry's home (R257, R285). -/
def State.attAdds (s : State) (c : Cmd) : State × Eng Bool :=
  engThen (engAll (fun s x => s.attAdd c x) s c.adds) fun s _ => (s.countCmd c 0x21 1, .ok true)

/-- One of the additions that are left, whichever: they have no order (R210, R285). -/
def State.attAhead (s : State) (c : Cmd) : State × Eng Bool :=
  let i := Config.freeChoice s.fresh 5 % c.adds.length
  match c.adds[i]? with
  | none => (s, .ok false)
  | some x => engThen (s.attAdd c x) fun s _ => (s.setCmd { c with adds := c.adds.eraseIdx i }, .ok false)

/-- Perform an ATT (R256): every read and every translation first, then the rows, then the score table. A token whose
share is zero makes no access there (R257). An ATT whose rows are written has its additions left. -/
def State.attPerform (s : State) (c : Cmd) : State × Eng Bool :=
  if c.progress ≠ 0 then (if c.spread then s.attAhead c else s.attAdds c)
  else
  let rows := (s.rowsOf c).filter fun r => r.1 < c.attRows
  engThen (engAll (fun s j => s.attToken c j) s (List.range c.attNtok)) fun s ts =>
    let toks := ts.filterMap id
    engThen (engAll (fun s r => s.attRow c r) s rows) fun s qs =>
      let scale := mulRne (c.w 1) 0x3FB8AA3B
      let steps := qs.map fun x => (x.1, attRowStep c scale s.fresh x.1.lane toks x.2.1 x.2.2 (s.thread x.1))
      let ups := steps.filterMap fun x => x.2.2
      let scored := if c.attAcc then toks.filter fun k => !(accShare ups k.idx).isZero else []
      engThen (engAll (fun s k => s.accEntry c ups k) s scored) fun s adds =>
        let c' := { c with progress := 1, adds := adds }
        let s := (steps.foldl (fun s x => s.setRow x.1 fun _ => x.2.1) s).setCmd c'
        if c.spread then (s, .ok false) else s.attAdds c'

/-- ATT (R254 to R257). -/
def execAtt (gd : Guard) (exp abs acc : Bool) (tok : BitVec 3) (a : Opnd) (s : State) :
    Host.Outcome State Fault Refusal :=
  engineSlot (.att gd exp abs acc tok a) gd attFormatOk attOp s

/-! ATTFIN (R259). -/

/-- Checks of ATTFIN's group of tile sets. -/
def attfinOp : EngineOp :=
  { check := fun s c => firstTrap [(bits (c.w 0) 5 27 != 0, .of causeOBJMIS 0),
      (decide ((s.limits c.lane.wg).2.1 < bits (c.w 0) 0 3 + bits (c.w 0) 3 2 + 1), .of causeILLOPD 0)]
    accept := fun s c => (s, .ok { c with set := bits (c.w 0) 0 3 }) }

/-- A column over l, rounded once. -/
def divRne (a b : Nat) : Nat :=
  match f32 a, f32 b with
  | .nan, _ => 0x7FC00000
  | _, .nan => 0x7FC00000
  | .inf _, .inf _ => 0x7FC00000
  | .inf x, .fin y _ _ _ => rne32 (.inf (x != y))
  | .fin x _ _ _, .inf y => rne32 (.fin (x != y) 0 1 0)
  | .fin x n d e, y => rne32 ((Num.fin x n d e).div y)

/-- End a row of a group of sets: the thread, and the four result words. -/
def attfinRow (c : Cmd) (sets fresh lane : Nat) (t : Thread) : Thread × List Word :=
  let st := Map.get RowState.reset t.rowst c.set
  let empty := !st.nan && decide (st.l.toNat % 2 ^ 31 = 0)
  let keys := (List.range sets).flatMap fun k => (List.range 128).map fun j => accKey (c.set + k) j
  let t := keys.foldl (fun t key =>
    let v := if st.nan then 0x7FC00000
      else if empty then 0
      else divRne (t.accPick fresh lane key).toNat st.l.toNat
    t.accPut key (c.result fresh lane key v)) t
  let flags := (if st.nan then 1 else 0) + (if st.clmp then 2 else 0) + (if empty then 4 else 0)
  (t, [st.m, st.l, BitVec.ofNat 32 flags, 0#32])

/-- Perform an ATTFIN. -/
def State.attfinPerform (s : State) (c : Cmd) (d : Nat) : State × Eng Bool :=
  let sets := bits (c.w 0) 3 2 + 1
  let fresh := s.fresh
  ((s.rowsOf c).foldl (fun s r =>
    let x := attfinRow c sets fresh r.2.lane (s.thread r.2)
    (s.setRow r.2 fun _ => x.1).putResult r.2 d x.2) s, .ok true)

/-- ATTFIN (R259). -/
def execAttfin (gd : Guard) (tok : BitVec 3) (d a : Opnd) (s : State) : Host.Outcome State Fault Refusal :=
  engineSlot (.attfin gd tok d a) gd (fun _ => true) attfinOp s

/-! LATW (R258). -/

def Cmd.latBank (c : Cmd) : Nat := bits (c.w 4) 0 2
def Cmd.latDc (c : Cmd) : Nat := if bit (c.w 4) 2 then 512 else 256
def Cmd.latDh (c : Cmd) : Nat := bits (c.w 4) 3 8
def Cmd.latFmt (c : Cmd) : Nat := bits (c.w 4) 11 4

/-- Whether a launch has a workgroup on a core; one that is swapped out counts (R258). -/
def State.residentOn (s : State) (launch core : Nat) : Bool :=
  s.wgs.any fun w => w.launch == launch && w.core == core

/-- Whether a bank is held by another resident launch: one that loaded it, or has a LATW on it in flight. -/
def State.bankHeld (s : State) (c : Cmd) : Bool :=
  let other (l : Nat) : Bool := l != c.launch && s.residentOn l c.core
  ((s.bank c c.latBank).map fun k => other k.launch).getD false ||
    s.cmds.any fun d => d.core == c.core && d.latBank == c.latBank && other d.launch &&
      match d.instr with
      | .latw _ _ _ => true
      | _ => false

def latwCheck (s : State) (c : Cmd) : Option TrapInfo :=
  firstTrap [(bits (c.w 4) 15 17 != 0 || !(c.zeroFrom 6) || decide (c.latDh < 1 ∨ 128 < c.latDh) ||
      (c.latFmt != 3 && c.latFmt != 1) || s.bankHeld c, .of causeOBJMIS 0),
    misaligned (c.w 5) 16]

def latwOp : EngineOp := { check := latwCheck, accept := fun s c => (s, .ok c) }

/-- Read the rows of a weight matrix. -/
def State.latRows (s : State) (c : Cmd) (base : Nat) : State × Eng (List (List Nat)) :=
  engAll (fun s k =>
    engThen (s.engRead c false (base + k * c.w 5) (rowBytes c.latFmt c.latDh)) fun s d =>
      let v := leNat d
      (s, .ok ((List.range c.latDh).map fun i => bits v (codeBits c.latFmt * i) (codeBits c.latFmt)))) s
    (List.range c.latDc)

/-- Change a bank of a command's core. -/
def State.setBank (s : State) (c : Cmd) (f : Option Bank → Option Bank) : State :=
  s.setCore c.core fun k => { k with banks := modifyAt k.banks c.latBank f }

/-- The bank no longer changes: the load is over. -/
def State.latDone (s : State) (c : Cmd) : State :=
  s.setBank c fun b => b.map fun k => { k with loading := none, oldWk := [], oldWv := [] }

/-- Perform a LATW: it reads everything, then loads the bank, during which readers see each weight old or
new; with more than one unit it completes at once. -/
def State.latwPerform (s : State) (c : Cmd) (units : Nat) : State × Eng Bool :=
  if c.progress = 0 then
    engThen (s.latRows c (c.pair 0)) fun s wk =>
      engThen (s.latRows c (c.pair 2)) fun s wv =>
        let s := s.setBank c fun b =>
          let old := b.getD ⟨0, 0, 0, 3, [], [], none, 3, [], []⟩
          -- a load that starts again replaces the same weights
          let before := if old.loading == some c.id then (old.oldFmt, old.oldWk, old.oldWv) else (old.fmt, old.wk, old.wv)
          some ⟨c.launch, c.latDc, c.latDh, c.latFmt, wk, wv, some c.id, before.1, before.2.1, before.2.2⟩
        let s := s.setCmd { c with progress := 1 }
        if units < 2 then (s, .ok false) else (s.latDone c, .ok true)
  else (s.latDone c, .ok true)

/-- LATW (R258). -/
def execLatw (gd : Guard) (tok : BitVec 3) (a : Opnd) (s : State) : Host.Outcome State Fault Refusal :=
  engineSlot (.latw gd tok a) gd (fun _ => true) latwOp s

end Sys2Proof.Machine
end

