-- ==== Sys2Proof/Machine/Post.lean ====
section
/-! DEFINITION. Posts and helping (R227 to R242): the records, the guarded steps and the four instructions
that drive them. An instruction makes one access, or one update, at each clock, and `Group.work` keeps what
its lane has read. -/

namespace Sys2Proof.Machine

/-! Headers and records, each the number of its 32 bytes. -/

def hdrValue (h : Nat) : Nat := bits h 0 64
def hdrPrev (h : Nat) : Nat := bits h 64 64
def hdrTag (h : Nat) : Nat := bits h 128 64
def hdrPend (h : Nat) : Nat := bits h 192 64

/-- A header (R227). -/
def hdrMake (value prev tag pend : Nat) : Nat := value + 2 ^ 64 * prev + 2 ^ 128 * tag + 2 ^ 192 * pend

def recObj (q : Nat) : Nat := bits q 0 64
def recOpnd (q : Nat) : Nat := bits q 64 64
def recResult (q : Nat) : Nat := bits q 128 64
def recState (q : Nat) : Nat := bits q 192 2
def recOp (q : Nat) : Nat := bits q 197 3
def recSeq (q : Nat) : Nat := bits q 200 56

/-- The first 32 bytes of a record that a post writes (R230, R234). -/
def recMake (obj opnd seq op : Nat) : Nat := obj + 2 ^ 64 * opnd + 2 ^ 192 * (seq * 256 + op * 32 + 1)

/-- Whether a record read by a step is the pending post `p` (R230, R233): its reserved bits are zero. -/
def recPending (q p : Nat) : Bool := recState q == 1 && bits q 195 2 == 0 && recSeq q % 64 == p % 64

/-- The code of a post's operation (R230). -/
def postCode : PostOp → Nat
  | .add => 0
  | .min => 1
  | .max => 2
  | .and => 3
  | .or => 4
  | .xor => 5
  | .exch => 6

/-- f(v, op, x) (R233); code 7, which no APOST stores, names no operation, and leaves the value: log entry 107. -/
def postFn (v op x : Nat) : Nat :=
  match op with
  | 0 => (v + x) % 2 ^ 64
  | 1 => if toInt true 64 x < toInt true 64 v then x else v
  | 2 => if toInt true 64 v < toInt true 64 x then x else v
  | 3 => v &&& x
  | 4 => v ||| x
  | 5 => v ^^^ x
  | 6 => x
  | _ => v

/-- The operand of APOST as 64 bits (R234). -/
def postOpnd (op : PostOp) (b : Word) : Nat :=
  match op with
  | .add | .min | .max => wrapInt 64 b.toInt
  | .and | .or | .xor | .exch => b.toNat

/-- The status codes of R232. -/
def stEMPTY : Nat := 0
def stPENDING : Nat := 1
def stAPPLIED : Nat := 2
def stDONE : Nat := 3
def stRETRY : Nat := 4
def stINDET : Nat := 5

/-- What one clock of a lane's instruction comes to. -/
inductive PostRes where
  /-- The instruction goes on at the next clock with what it has read. -/
  | more (work : List Nat)
  /-- It is done, with a result to write. -/
  | done (d : Option Nat)
  | trap (i : TrapInfo)
  | fault (va : Nat) (kind : AccKind) (entry entryPa : Nat)
  /-- It waits: for write-completion times, or for a die that trains. -/
  | wait
  deriving DecidableEq, Repr

/-- The record of a lane's thread, or none in a launch without a board (R229). -/
def State.recordOf (s : State) (l : LaneRef) : Option Nat :=
  match s.wg? l.wg, s.launchOf? l.wg with
  | some w, some k =>
    if k.rcd.board = 0 then none
    else some ((k.rcd.board + 64 * (w.wgid * k.rcd.tpw + s.tidOf l)) % 2 ^ 64)
  | _, _ => none

/-- Whether a physical address lies behind a dead link (R241, R242). -/
def State.deadLink (s : State) (pa : Nat) : Bool :=
  region pa == 1 && s.deadLinks.contains (Config.portOf (bits pa 40 10))

/-- Whether the memory behind an address that would otherwise be granted has been lost (R239). -/
def State.lostMemory (s : State) (l : LaneRef) (kind : AccKind) (va : Nat) : Bool :=
  match s.wg? l.wg, s.launchOf? l.wg with
  | some w, some k =>
    match (lookup s k.ctx (.l1 w.core) (dieOf w.core) va fun _ => true).walk with
    | .leaf e _ level _ _ _ =>
      kind.allowed w.pkperm e &&
        gate s (pteFrame e + va % (if level = 0 then 2 ^ 12 else pageBytes level e)) == .refused
    | .absent _ _ => false
    | .malformed => false
    | .held => false
  | _, _ => false

/-- Translate an access of a post; `lost` is the fate of an access that cannot be answered. -/
def State.postAccess (s : State) (l : LaneRef) (kind : AccKind) (va : Nat) (lost : PostRes) :
    State × (Place ⊕ PostRes) :=
  match s.coreAccess l kind va with
  | (s, .ok p _) => if s.deadLink p.addr then (s, .inr lost) else (s, .inl p)
  | (s, .fault e pa) => (s, .inr (.fault va kind e pa))
  | (s, .deny) => (s, .inr (if s.lostMemory l kind va then lost else .trap (.of causePKEY va)))
  | (s, .high) => (s, .inr (.trap (.of causeOBJMIS va)))
  | (s, .held) => (s, .inr .wait)

/-- The launch and core of a lane. -/
def State.homeOfLane (s : State) (l : LaneRef) : Nat × Nat :=
  ((s.wg? l.wg).map fun w => (w.launch, w.core)).getD (0, 0)

/-- Raise a thread's read floor by a publication time (R189). -/
def State.acquire (s : State) (l : LaneRef) (pub : Nat) : State :=
  (s.twins l).foldl (fun s m => s.setThread m fun t =>
    { t with readfloor := max t.readfloor pub, seenPub := max t.seenPub pub }) s

/-- The old value of an access at its home, as an acquire (R233): none if the value is poisoned, when the
launch consumes it (R343). -/
def State.homeValue (s : State) (l : LaneRef) (p : Place) (len : Nat) : State × Option Nat :=
  let s := s.settle l p len s.serial
  let (launch, core) := s.homeOfLane l
  let bad := s.badSectors p.addr len
  let s := (s.reportChecks p.addr len).dropCopies core (p.addr / 128)
  if bad.isEmpty then (s.acquire l (s.pubOf p.addr len), some (leNat (s.homeRead p.addr len)))
  else (s.consume launch, none)

/-- A read of a post (R233). -/
def State.postRead (s : State) (l : LaneRef) (va len : Nat) (lost : PostRes) : State × (Nat ⊕ PostRes) :=
  match s.postAccess l .read va lost with
  | (s, .inr r) => (s, .inr r)
  | (s, .inl p) =>
    match s.homeValue l p len with
    | (s, some v) => (s, .inl v)
    | (s, none) => (s, .inr (.done none))

/-- Write bytes at a home as an update of a thread (R228, R297, R308). -/
def State.update (s : State) (l : LaneRef) (p : Place) (va : Nat) (data : List Byte) : State :=
  let (launch, core) := s.homeOfLane l
  let (id, s) := s.take
  let s := (s.setDirtyBit p).homeWrite ⟨some l, some core, some launch, none, true, false, false⟩ id p.addr data
  match s.launch? launch with
  | some k => s.markDirty k.ctx va data.length
  | none => s

/-- The update of a post at its home: whether it wrote, or none from a poisoned value. -/
def State.applyUpdate (s : State) (l : LaneRef) (p : Place) (va len : Nat)
    (f : State → Place → Nat → State × Option Nat) : State × Option Bool :=
  match s.homeValue l p len with
  | (s, none) => (s, none)
  | (s, some v) =>
    match f s p v with
    | (s, some v') => (s.update l p va (leBytes len v'), some true)
    | (s, none) => (s, some false)

/-- CAS and CASW of a post (R233): `f` gives the new bytes from the old number, or none for a compare that
fails. Over a link that is dead the update is applied once or not at all, and the lane learns nothing of it (R241,
R242). -/
def State.postUpdate (s : State) (l : LaneRef) (va len : Nat) (lost : PostRes)
    (f : State → Place → Nat → State × Option Nat) : State × (Bool ⊕ PostRes) :=
  match s.coreAccess l .rmw va with
  | (s, .ok p _) =>
    if s.deadLink p.addr then
      (if Config.freeChoice s.fresh (p.addr + 1) % 2 = 0 then (s.applyUpdate l p va len f).1 else s, .inr lost)
    else match s.applyUpdate l p va len f with
      | (s, some w) => (s, .inl w)
      | (s, none) => (s, .inr (.done none))
  | (s, .fault e pa) => (s, .inr (.fault va .rmw e pa))
  | (s, .deny) => (s, .inr (if s.lostMemory l .rmw va then lost else .trap (.of causePKEY va)))
  | (s, .high) => (s, .inr (.trap (.of causeOBJMIS va)))
  | (s, .held) => (s, .inr .wait)

/-! The reservation (R236). Objects are named by the physical address of their header. -/

/-- The refusal entries that are not older than 1 ms, and the reservations that stand. -/
def State.liveRefusals (s : State) : List RefusedLink := s.refusals.filter fun r => s.time ≤ r.time + 2000000

/-- Reserve an object's next link for its oldest queued id, from a time on. -/
def State.reserveAt (s : State) (obj time : Nat) : State :=
  let others := s.resvs.filter fun r => r.obj != obj
  match s.liveRefusals.find? fun r => r.obj == obj with
  | none => { s with resvs := others }
  | some r => { s with resvs := others ++ [⟨obj, r.post, time + 2000⟩] }

/-- Reservations of an object that have expired pass to the next queued ids, each from the end of the last, and the
expired ids are dropped; `n` bounds them. -/
def State.passOn (s : State) (obj : Nat) : Nat → State
  | 0 => s
  | n + 1 =>
    match s.resvs.find? fun r => r.obj == obj with
    | none => s
    | some r =>
      if s.time < r.stop then s
      else
        let s := { s with refusals := s.refusals.filter fun q => !(q.obj == obj && q.post == r.post) }
        State.passOn (s.reserveAt obj r.stop) obj n

/-- The reservations of an object as they stand now. -/
def State.resvNow (s : State) (obj : Nat) : State := s.passOn obj (s.refusals.length + 1)

/-- PEND of an object has become 0: the object's next link is reserved for its oldest queued id, expired reservations
being past (R236). -/
def State.reserve (s : State) (obj : Nat) : State := (s.resvNow obj).reserveAt obj s.time

/-- A refused link enters the queue of its slice, unless its id is queued or the queue is full; entries older than
1 ms have left it. -/
def State.queueLink (s : State) (obj post : Nat) : State :=
  let slice := homeOf (obj / 128)
  let mine := s.liveRefusals.filter fun r => r.slice == slice
  if (mine.any fun r => r.post == post) || Config.refusalEntries ≤ mine.length then s
  else { s with refusals := s.liveRefusals ++ [⟨slice, obj, post, s.time⟩] }

/-- Whether another id holds the reservation of an object. -/
def State.reservedFrom (s : State) (obj post : Nat) : Bool :=
  s.resvs.any fun r => r.obj == obj && r.post != post && decide (s.time < r.stop)

/-- A link that succeeds leaves the queue and uses its reservation. -/
def State.linkDone (s : State) (obj post : Nat) : State :=
  { s with
    refusals := s.refusals.filter fun r => !(r.obj == obj && r.post == post)
    resvs := s.resvs.filter fun r => !(r.obj == obj && r.post == post) }

/-- The home's part of a link of a post to an object whose PEND reads `v` (R234, R236): the new PEND, or a refusal. -/
def State.linkHome (s : State) (obj p v : Nat) : State × Option Nat :=
  let s := s.resvNow obj
  if v ≠ 0 then (if v = p then (s, none) else (s.queueLink obj p, none))
  else if s.reservedFrom obj p then (s.queueLink obj p, none)
  else (s.linkDone obj p, some p)

/-! Launches that cannot be replayed (R240, R348). -/

/-- A link of a launch to an object outside its copy-on-write regions (R240). -/
def State.noteLink (s : State) (lid va : Nat) : State :=
  match s.launch? lid with
  | none => s
  | some l => if l.regions.any fun r => r.1 ≤ va && va < r.1 + r.2 then s else s.unreplay lid

/-! The steps (R233). -/

/-- The update of a step, from the header and the record that the lane has read: whether it installed. A header whose
TAG a plain store has changed while its post is pending is installed again: log entry 109. -/
def State.stepAct (s : State) (l : LaneRef) (o h p q : Nat) (lost : PostRes) : State × (Bool ⊕ PostRes) :=
  if recPending q p then
    if hdrTag h ≠ p then
      s.postUpdate l o 32 lost fun s _ v =>
        (s, if v = h then some (hdrMake (postFn (hdrValue h) (recOp q) (recOpnd q)) (hdrValue h) p p) else none)
    else
      match s.postUpdate l (p / 64 * 64) 32 lost fun s _ v =>
          (s, if v = q then some (setBits (setBits q 128 64 (hdrPrev h)) 192 2 3) else none) with
      | (s, .inl _) => (s, .inl false)
      | r => r
  else if hdrTag h = p then
    match s.postUpdate l (o + 24) 8 lost fun s pl v =>
        if v = p then (s.reserve (pl.addr - 24), some 0) else (s, none) with
    | (s, .inl _) => (s, .inl false)
    | r => r
  else (s, .inl false)

/-- The read of a step: the record of the pending post, which must name the object (R233). -/
def State.stepRead (s : State) (l : LaneRef) (o p : Nat) (lost : PostRes) : State × (Nat ⊕ PostRes) :=
  match s.postRead l (p / 64 * 64) 32 lost with
  | (s, .inl q) => if recObj q = o then (s, .inl q) else (s, .inr (.trap (.of causeOBJMIS (p / 64 * 64))))
  | r => r

/-- The write-completion times that an update with a release part waits for (R189, R214). -/
def State.mayRelease (s : State) (l : LaneRef) : Bool := s.released l .sys

/-! The instructions (R234), clock by clock. -/

/-- The link (R234, R236): PENDING if it succeeds, else RETRY. One that is applied over a link that dies has succeeded
at its home, too (R240). -/
def State.linkStage (s : State) (l : LaneRef) (o p : Nat) (lost : PostRes) : State × PostRes :=
  if !(s.mayRelease l) then (s, .wait)
  else
    match s.postUpdate l (o + 24) 8 lost fun s pl v =>
        match s.linkHome (pl.addr - 24) p v with
        | (s, some v) => (s.noteLink (s.homeOfLane l).1 o, some v)
        | r => r with
    | (s, .inl true) => (s, .done (some stPENDING))
    | (s, .inl false) => (s, .done (some stRETRY))
    | (s, .inr r) => (s, r)

/-- APOST (R234): accesses 1 and 2, the header, the pending post's record, its step, and the link. -/
def State.apostStage (s : State) (l : LaneRef) (o : Nat) (op : PostOp) (x : Nat) (work : List Nat) :
    State × PostRes :=
  let lost := PostRes.done (some stINDET)
  match s.recordOf l with
  | none => (s, .trap (.of causeOBJMIS 0))
  | some rc =>
    if o % 32 ≠ 0 then (s, .trap (.of causeMISAL o))
    else match work with
      | [] =>
        match s.postRead l rc 32 lost with
        | (s, .inr r) => (s, r)
        | (s, .inl q) =>
          if recState q = 1 then
            if recObj q = o ∧ recOp q = postCode op ∧ recOpnd q = x then (s, .more [1, rc + recSeq q % 64])
            else (s, .trap (.of causeOBJMIS o))
          else
            let seq := (recSeq q + 1) % 2 ^ 56
            match s.postAccess l .write rc lost with
            | (s, .inr r) => (s, r)
            | (s, .inl p) =>
              (s.addStore l p rc (leBytes 32 (recMake o x seq (postCode op))), .more [1, rc + seq % 64])
      | [1, p] =>
        match s.postRead l o 32 lost with
        | (s, .inr r) => (s, r)
        | (s, .inl h) =>
          if hdrPend h = p then (s, .done (some stPENDING))
          else if hdrPend h = 0 then (s, .more [4, p])
          else (s, .more [2, p, h])
      | [2, p, h] =>
        match s.stepRead l o (hdrPend h) lost with
        | (s, .inr r) => (s, r)
        | (s, .inl q) => (s, .more [3, p, h, q])
      | [3, p, h, q] =>
        if !(s.mayRelease l) then (s, .wait)
        else match s.stepAct l o h (hdrPend h) q lost with
          | (s, .inr r) => (s, r)
          | (s, .inl _) => (s, .more [4, p])
      | [4, p] => s.linkStage l o p lost
      | _ => (s, .more [])

/-- ASTEP (R234). -/
def State.astepStage (s : State) (l : LaneRef) (o : Nat) (work : List Nat) : State × PostRes :=
  let lost := PostRes.done (some stINDET)
  match s.recordOf l with
  | none => (s, .trap (.of causeOBJMIS 0))
  | some rc =>
    if o % 32 ≠ 0 then (s, .trap (.of causeMISAL o))
    else match work with
      | [] =>
        match s.postRead l o 32 lost with
        | (s, .inr r) => (s, r)
        | (s, .inl h) => (s, .more (if hdrPend h = 0 then [4, hdrTag h] else [2, h]))
      | [2, h] =>
        match s.stepRead l o (hdrPend h) lost with
        | (s, .inr r) => (s, r)
        | (s, .inl q) => (s, .more [3, h, q])
      | [3, h, q] =>
        if !(s.mayRelease l) then (s, .wait)
        else match s.stepAct l o h (hdrPend h) q lost with
          | (s, .inr r) => (s, r)
          | (s, .inl inst) => (s, .more [4, if inst then hdrPend h else hdrTag h])
      | [4, tag] =>
        match s.postRead l (rc + 24) 8 lost with
        | (s, .inr r) => (s, r)
        | (s, .inl c) =>
          let st := bits c 0 2
          let seq := bits c 8 56
          (s, .done (some (
            if st = 3 then stDONE
            else if st = 0 ∧ seq = 0 then stEMPTY
            else if st = 1 ∧ tag = rc + seq % 64 then stAPPLIED
            else stPENDING)))
      | _ => (s, .more [])

/-- AINIT (R228). -/
def State.ainitStage (s : State) (l : LaneRef) (o v : Nat) : State × PostRes :=
  match s.recordOf l with
  | none => (s, .trap (.of causeOBJMIS 0))
  | some _ =>
    if o % 32 ≠ 0 then (s, .trap (.of causeMISAL o))
    else
      match s.postUpdate l o 32 (.trap (.of causeOBJMIS o)) fun s p h =>
          if hdrPend h = 0 then
            ({ s.reserve p.addr with helped := Map.set false s.helped (p.addr / 32) true }, some (hdrMake v 0 0 0))
          else (s, none) with
      | (s, .inl true) => (s, .done none)
      | (s, .inl false) => (s, .trap (.of causeOBJMIS o))
      | (s, .inr r) => (s, r)

/-- ARES (R234): RESULT of a post that is done. -/
def State.aresStage (s : State) (l : LaneRef) : State × PostRes :=
  match s.recordOf l with
  | none => (s, .trap (.of causeOBJMIS 0))
  | some rc =>
    match s.postRead l rc 32 (.trap (.of causeOBJMIS rc)) with
    | (s, .inr r) => (s, r)
    | (s, .inl q) =>
      if recState q = 3 then (s, .done (some (recResult q))) else (s, .trap (.of causeOBJMIS rc))

/-- One clock of a lane's A-family instruction. -/
def State.postStage (s : State) (l : LaneRef) (i : Instr) (work : List Nat) : State × PostRes :=
  let e := s.env l
  let t := s.thread l
  match i with
  | .ainit _ a b => s.ainitStage l (e.src64 t a).toNat (e.src64 t b).toNat
  | .apost _ op _ a b => s.apostStage l (e.src64 t a).toNat op (postOpnd op (e.src t b)) work
  | .astep _ _ a => s.astepStage l (e.src64 t a).toNat work
  | .ares _ _ => s.aresStage l
  | _ => (s, .done none)

/-- Write the result of a lane's A-family instruction (R234). -/
def State.postWrite (s : State) (l : LaneRef) (i : Instr) (d : Option Nat) : State :=
  match d with
  | none => s
  | some v =>
    (s.twins l).foldl (fun s m => s.setThread m fun t =>
      match i with
      | .apost _ _ d _ _ => (s.env m).put t d (BitVec.ofNat 32 v)
      | .astep _ d _ => (s.env m).put t d (BitVec.ofNat 32 v)
      | .ares _ d => (s.env m).put64 t d (BitVec.ofNat 64 v)
      | _ => t) s

/-- What a protected pair compares: the instruction's operands (R350). -/
def State.postPoint (s : State) (l : LaneRef) (i : Instr) : Nat × Nat :=
  let e := s.env l
  let t := s.thread l
  match i with
  | .ainit _ a b => ((e.src64 t a).toNat, (e.src64 t b).toNat)
  | .apost _ _ _ a b => ((e.src64 t a).toNat, (e.src t b).toNat)
  | .astep _ _ a => ((e.src64 t a).toNat, 0)
  | _ => (0, 0)

/-- Keep what a lane has read, and go on at the next clock. -/
def State.keepWork (s : State) (w : List Nat) (more : Bool) : State :=
  s.setGroup fun g => { g with work := w, more := more }

/-- A lane of a held slot is done, with its shadow. -/
def State.servePair (s : State) (l : LaneRef) : State := (s.twins l).foldl State.serve s

/-- An A-family slot (R234): the lanes act one at a time in ascending order, one access at a clock; a page
fault puts the lane's whole instruction on the replay list (R238). -/
def postSlot (i : Instr) (gd : Guard) (s : State) : Host.Outcome State Fault Refusal :=
  issue i gd s fun s ls =>
    let (s, ok) := s.agree (ls.map fun l => (l, s.postPoint l i))
    match s.group?, ok with
    | some g, x :: rest =>
      let l := x.1
      let next := !rest.isEmpty
      match s.postStage l i g.work with
      | (s, .more w) => s.keepWork w true
      | (s, .wait) => s.stall
      | (s, .done d) => ((s.postWrite l i d).servePair l).keepWork [] next
      | (s, .trap j) => (s.strikePair l j).keepWork [] next
      | (s, .fault va k e pa) =>
        if s.replayFull l.wg then ((s.takeFault l.wg va k e pa).keepWork [] false).stall
        else (((s.addReplay l .instr g.word va []).takeFault l.wg va k e pa).servePair l).keepWork [] next
    | _, _ => s

/-- AINIT (R228, R234). -/
def execAinit (gd : Guard) (a b : Opnd) (s : State) : Host.Outcome State Fault Refusal :=
  postSlot (.ainit gd a b) gd s

/-- APOST (R234). -/
def execApost (gd : Guard) (op : PostOp) (d a b : Opnd) (s : State) : Host.Outcome State Fault Refusal :=
  postSlot (.apost gd op d a b) gd s

/-- ASTEP (R234). -/
def execAstep (gd : Guard) (d a : Opnd) (s : State) : Host.Outcome State Fault Refusal :=
  postSlot (.astep gd d a) gd s

/-- ARES (R234). -/
def execAres (gd : Guard) (d : Opnd) (s : State) : Host.Outcome State Fault Refusal :=
  postSlot (.ares gd d) gd s

/-- LINK_RESERVATION_EXPIRY (R236): an expired reservation passes to the next queued id, and the expired
id is dropped from the queue. -/
def execLinkReservationExpiry (obj : Nat) (s : State) : Host.Outcome State Fault Refusal :=
  conclude (match s.resvs.find? fun r => r.obj == obj with
    | none => s
    | some r =>
      if s.time < r.stop then s else s.resvNow obj)

/-- REFUSAL_ENTRY_EXPIRY (R236): an entry older than 1 ms leaves its queue. -/
def execRefusalEntryExpiry (slice post : Nat) (s : State) : Host.Outcome State Fault Refusal :=
  conclude { s with refusals := s.refusals.filter fun r =>
    !(r.slice == slice && r.post == post && decide (r.time + 2000000 < s.time)) }

end Sys2Proof.Machine
end

