-- ==== Sys2Proof/Machine/MemOps.lean ====
section
/-! DEFINITION. Loads, stores, atomics, fences and tokens (R177 to R195), and the replay of an access
that faulted (R181, R306). -/

namespace Sys2Proof.Machine

/-! Addresses and checks (R177, R180). -/

/-- The address of a lane's access (R177). -/
def State.addrOf (s : State) (sp : Space) (a b : Opnd) (l : LaneRef) : Nat :=
  let e := s.env l
  let t := s.thread l
  match sp with
  | .global => wrapInt 64 (((e.src64 t a).toNat : Int) + (e.src t b).toInt)
  | .loft => wrapInt 32 (((e.src t a).toNat : Int) + (e.src t b).toInt)

/-- What the checks of R180 decide for a lane. -/
inductive Fate where
  | go (p : Place)
  | trap (i : TrapInfo)
  | fault (va : Nat) (entry entryPa : Nat)
  | held
  deriving DecidableEq, Repr

/-- The fate of a global access. -/
def State.globalFate (s : State) (l : LaneRef) (kind : AccKind) (va : Nat) : State × Fate :=
  match s.coreAccess l kind va with
  | (s, .ok p _) => (s, .go p)
  | (s, .fault e pa) => (s, .fault va e pa)
  | (s, .deny) => (s, .trap (.of causePKEY va))
  | (s, .high) => (s, .trap (.of causeOBJMIS va))
  | (s, .held) => (s, .held)

/-- The checks of R180 on an access of `len` bytes, which is also its alignment (R178). -/
def State.fate (s : State) (l : LaneRef) (sp : Space) (kind : AccKind) (va len : Nat) : State × Fate :=
  if va % len ≠ 0 then (s, .trap (.of causeMISAL va))
  else match sp with
    | .global => s.globalFate l kind va
    | .loft =>
      match s.wg? l.wg with
      | none => (s, .trap (.of causeLOFTB va))
      | some w =>
        if (s.limits l.wg).2.2 < va + len then (s, .trap (.of causeLOFTB va))
        else if kind.writes && w.touchesLive va len then (s, .trap (.of causeBARMIS va))
        else (s, .go (loftPlace va))

/-- Raise a token of a lane's thread, and of its shadow's (R183, R350). -/
def State.raiseTok (s : State) (l : LaneRef) (k : Nat) : State :=
  (s.twins l).foldl (fun s m => s.setThread m fun t => t.addTok k true) s

/-- Lower a token of a lane's thread, and of its shadow's. -/
def State.lowerTok (s : State) (l : LaneRef) (k : Nat) : State :=
  (s.twins l).foldl (fun s m => s.setThread m fun t => t.addTok k false) s

/-- A slot that would take a lane's view of a token above 63 holds the port (R183). -/
def State.tokFull (s : State) (ls : List LaneRef) (k : Nat) : Bool := ls.any fun l => 63 ≤ s.tokView l k

/-- The word in the slot that issues. -/
def State.slotWord (s : State) : Dword := (s.group?.map Group.word).getD 0#64

/-- A page fault of a lane goes on the replay list, and the lane's part of the slot is done; without room there the
access is taken again after the swap (R181, R306). -/
def State.faultLane (s : State) (l : LaneRef) (kind : AccKind) (data : List Byte) (addr va e pa : Nat) : State :=
  if s.replayFull l.wg then (s.takeFault l.wg va kind e pa).stall
  else ((s.addReplay l .instr s.slotWord addr data).takeFault l.wg va kind e pa).servePair l

/-- The fates of a lane that do not reach memory: a trap, a page fault with its replay entry, a wait. -/
def State.miss (s : State) (l : LaneRef) (kind : AccKind) (data : List Byte) : Fate → State
  | .go _ => s
  | .trap i => s.strikePair l i
  | .fault va e pa => s.faultLane l kind data va va e pa
  | .held => s.stall

/-! What an instruction accesses (R177 to R179). -/

/-- Whether an order has an acquire part, and a release part (R58). -/
def acqPart : Order → Bool
  | .acq | .acqrel => true
  | .plain | .rel => false

def relPart : Order → Bool
  | .rel | .acqrel => true
  | .plain | .acq => false

/-- The access of a memory instruction: space, kind, bytes, token, scope, order, address operands, data
operand and destination. `param` marks LDP, `block` CASW. -/
structure MemOp where
  sp : Space
  param : Bool
  kind : AccKind
  ty : Ty
  block : Bool
  tok : Option Nat
  sc : Scope
  ord : Order
  d : Opnd
  a : Opnd
  b : Opnd
  c : Opnd
  deriving DecidableEq, Repr

/-- Bytes of the access (R178). -/
def MemOp.len (m : MemOp) : Nat := if m.block then 32 else m.ty.bits / 8

/-- The access of an instruction that makes one. -/
def memOp : Instr → Option MemOp
  | .ld _ ty k d a b => some ⟨.global, false, .read, ty, false, some k.toNat, .wg, .plain, d, a, b, .c 0#6⟩
  | .ldl _ ty k d a b => some ⟨.loft, false, .read, ty, false, some k.toNat, .wg, .plain, d, a, b, .c 0#6⟩
  | .ldp _ ty k d a b => some ⟨.loft, true, .read, ty, false, some k.toNat, .wg, .plain, d, a, b, .c 0#6⟩
  | .lda _ ty sc o k sp d a b => some ⟨sp, false, .read, ty, false, some k.toNat, sc, o, d, a, b, .c 0#6⟩
  | .st _ ty d a b => some ⟨.global, false, .write, ty, false, none, .wg, .plain, d, a, b, .c 0#6⟩
  | .stl _ ty d a b => some ⟨.loft, false, .write, ty, false, none, .wg, .plain, d, a, b, .c 0#6⟩
  | .sta _ ty sc o sp d a b => some ⟨sp, false, .write, ty, false, none, sc, o, d, a, b, .c 0#6⟩
  | .atomAdd _ ty sc o k sp d a b | .atomMin _ ty sc o k sp d a b | .atomMax _ ty sc o k sp d a b
  | .atomAnd _ ty sc o k sp d a b | .atomOr _ ty sc o k sp d a b | .atomXor _ ty sc o k sp d a b
  | .atomExch _ ty sc o k sp d a b => some ⟨sp, false, .rmw, ty, false, some k.toNat, sc, o, d, a, b, .c 0#6⟩
  | .atomFadd _ sc o k sp d a b => some ⟨sp, false, .rmw, .f32, false, some k.toNat, sc, o, d, a, b, .c 0#6⟩
  | .cas _ ty sc o k sp d a b c => some ⟨sp, false, .rmw, ty, false, some k.toNat, sc, o, d, a, b, c⟩
  | .casw _ sc o k sp d a b c => some ⟨sp, false, .rmw, .w32, true, some k.toNat, sc, o, d, a, b, c⟩
  | _ => none

/-- The scope at which a release part waits; a loft access is performed at wg scope (R190). -/
def MemOp.waitScope (m : MemOp) : Option Scope :=
  if relPart m.ord then some (match m.sp with
    | .loft => .wg
    | .global => m.sc) else none

/-- What a landing writes. -/
def MemOp.dest (m : MemOp) : LoadKind := if m.block then .block m.d.gnum else .reg m.d.gnum m.ty

/-- The bytes that a store or atomic carries (R178, R193). -/
def State.memData (s : State) (m : MemOp) (l : LaneRef) : List Byte :=
  let e := s.env l
  let t := s.thread l
  match m.kind with
  | .write | .rmw =>
    if m.block then (e.regs t m.d 8).flatMap fun w => leBytes 4 w.toNat
    else leBytes m.len (e.srcT t m.ty m.d)
  | .read | .exec | .any => []

/-- The compare value of CAS and CASW (R193). -/
def State.memCompare (s : State) (m : MemOp) (l : LaneRef) : Nat :=
  let e := s.env l
  let t := s.thread l
  if m.block then leNat ((e.regs t m.c 8).flatMap fun w => leBytes 4 w.toNat) else e.srcT t m.ty m.c

/-- The new value that a function of an atomic gives, or none for a compare that fails (R192, R193). -/
def fabFn (op : FabOp) (ty : Ty) (cmp old x : Nat) : Option Nat :=
  let w := ty.bits
  match op with
  | .add => some ((old + x) % 2 ^ w)
  | .min => some (if toInt ty.signed w x < toInt ty.signed w old then x else old)
  | .max => some (if toInt ty.signed w old < toInt ty.signed w x then x else old)
  | .and => some (old &&& x)
  | .or => some (old ||| x)
  | .xor => some (old ^^^ x)
  | .exch => some x
  | .fadd =>
    let a := f32 old
    let b := f32 x
    some (roundResult .f32 .rne 0 (a.isNan || b.isNan) (Num.add false a b)).1
  | .cas => if old = cmp then some x else none

/-- The function of an atomic instruction. -/
def atomOp : Instr → FabOp
  | .atomAdd _ _ _ _ _ _ _ _ _ => .add
  | .atomMin _ _ _ _ _ _ _ _ _ => .min
  | .atomMax _ _ _ _ _ _ _ _ _ => .max
  | .atomAnd _ _ _ _ _ _ _ _ _ => .and
  | .atomOr _ _ _ _ _ _ _ _ _ => .or
  | .atomXor _ _ _ _ _ _ _ _ _ => .xor
  | .atomExch _ _ _ _ _ _ _ _ _ => .exch
  | .atomFadd _ _ _ _ _ _ _ _ => .fadd
  | _ => .cas

/-- The new value of an atomic, or none for a compare that fails (R192, R193). -/
def atomFn (i : Instr) (ty : Ty) (cmp old x : Nat) : Option Nat := fabFn (atomOp i) ty cmp old x

/-! Performing an access, at its issue or from the replay list. -/

/-- An atomic left unanswered by a dead link (R242): LOST in the thread's record, or the launch ends. The record is
one more access of the atomic, an update that comes after the thread's own older stores to it (R208) and needs an
update's permissions: log entry 112; where it cannot be made, the atomic takes its fate, log entry 99. -/
def State.loseAtomic (s : State) (l : LaneRef) (ok : Fate) : State × Fate :=
  match s.recordOf l with
  | none => (s.failLaunch (s.homeOfLane l).1 .indeterminate 0 0, ok)
  | some rc =>
    match s.coreAccess l .rmw (rc + 24) with
    | (s, .ok p _) =>
      let s := s.settle l p 1 s.serial
      (s.update l p (rc + 24) [Memory.read s.mem p.addr ||| 4#8], ok)
    | (s, .fault e pa) => (s, .fault (rc + 24) e pa)
    | (s, .deny) => (s, .trap (.of causePKEY (rc + 24)))
    | (s, .high) => (s, .trap (.of causeOBJMIS (rc + 24)))
    | (s, .held) => (s, .held)

/-- Whether the home refuses an atomic once (R237): the helped mark is set and a post is pending. -/
def State.refusesAtom (s : State) (sec : Nat) : Bool :=
  Map.get false s.helped sec && hdrPend (leNat (s.homeRead (32 * sec) 32)) != 0

/-- The help that an atomic gives a header whose post is pending (R194, R237): ASTEP's accesses 1 to 3. -/
def State.help (s : State) (l : LaneRef) (va : Nat) (p : Place) : State × Option PostRes :=
  let sec := p.addr / 32
  let o := va / 32 * 32
  if !(s.refusesAtom sec) then (s, none)
  else if !(s.mayRelease l) then (s, some .wait)
  else
    let lost := PostRes.done (some stINDET)
    match s.postRead l o 32 lost with
    | (s, .inr r) => (s, some r)
    | (s, .inl h) =>
      if hdrPend h = 0 then (s, none)
      else match s.stepRead l o (hdrPend h) lost with
        | (s, .inr r) => (s, some r)
        | (s, .inl q) =>
          match s.stepAct l o h (hdrPend h) q lost with
          | (s, .inr r) => (s, some r)
          | (s, .inl _) => (s, none)

/-- Raise the token that an access counts, unless it is counted already. -/
def State.countTok (s : State) (l : LaneRef) (m : MemOp) (counted : Bool) : State :=
  match m.tok with
  | some k => if counted then s else s.raiseTok l k
  | none => s

/-- Let the token of an access that is not performed fall, if it is counted already. -/
def State.uncountTok (s : State) (l : LaneRef) (m : MemOp) (counted : Bool) : State :=
  match m.tok with
  | some k => if counted then s.lowerTok l k else s
  | none => s

/-- An atomic at its home: its update, if it writes, and what the directory keeps of its scope and its acquire (R226).
A compare that fails has crossed the link all the same (R330). -/
def State.atomHome (s : State) (l : LaneRef) (i : Instr) (m : MemOp) (va : Nat) (p : Place) (cmp : Nat)
    (data : List Byte) : State :=
  let core := (s.homeOfLane l).2
  let s := if acqPart m.ord then s.forcePublish core (p.addr / 128) else s
  match atomFn i m.ty cmp (leNat (s.homeRead p.addr m.len)) (leNat data) with
  | some v => (s.update l p va (leBytes m.len v)).noteNarrow core (p.addr / 128) m.sc
  | none => s.countLink p.addr

/-- An atomic at a place (R191 to R194): the old value is on its way back to the thread. The thread's own older
accesses to the bytes come first (R208). Over a dead link it is applied once or not at all (R241, R242), and not where
the home would have refused it; a helping access to memory that is lost ends the atomic as a dead link does: log
entry 108. -/
def State.atomAt (s : State) (l : LaneRef) (i : Instr) (m : MemOp) (va : Nat) (p : Place)
    (data : List Byte) (counted : Bool) : State × Fate :=
  let len := m.len
  let cmp := s.memCompare m l
  let (launch, core) := s.homeOfLane l
  let ok := Fate.go p
  let lose (s : State) : State × Fate :=
    match s.loseAtomic l ok with
    | (s, .go _) => (s.uncountTok l m counted, ok)
    | r => r
  if p.loft then
    let s := s.settle l p len s.serial
    match s.wg? l.wg with
    | none => (s, ok)
    | some w =>
      let old := Memory.readN w.loft p.addr len
      let pub := ((List.range ((len + 3) / 4)).map fun j => Map.get 0 w.loftPub (p.addr / 4 + j)).foldl max 0
      let s := match atomFn i m.ty cmp (leNat old) (leNat data) with
        | some v => s.setWg l.wg fun w => w.copyIn s.time p.addr (leBytes len v)
        | none => s
      ((s.countTok l m counted).addLoad s.slotIssue l m.dest m.tok len p (acqPart m.ord) (some (old, pub)) true, ok)
  else if s.deadLink p.addr then
    -- the record first: an atomic that faults there has not been applied
    match lose s with
    | (s, .go q) =>
      let s := s.settle l p len s.serial
      (if Config.freeChoice s.fresh (p.addr + 1) % 2 = 0 && !(s.refusesAtom (p.addr / 32)) then s.atomHome l i m va p cmp data
        else s, .go q)
    | r => r
  else match (s.settle l p len s.serial).help l va p with
    | (s, some (.trap j)) => (s, .trap j)
    | (s, some (.fault fva _ e pa)) => (s, .fault fva e pa)
    | (s, some .wait) => (s, .held)
    | (s, some (.done (some _))) => lose s
    | (s, some (.done none)) => (s.uncountTok l m counted, ok)
    | (s, some (.more _)) => (s, .held)
    | (s, none) =>
      let bad := !(s.badSectors p.addr len).isEmpty
      let s := (s.reportChecks p.addr len).dropCopies core (p.addr / 128)
      if bad then ((s.uncountTok l m counted).consume launch, ok)
      else
        let old := s.homeRead p.addr len
        let pub := s.pubOf p.addr len
        ((((s.atomHome l i m va p cmp data).countTok l m counted)).addLoad s.slotIssue l m.dest m.tok len p (acqPart m.ord)
          (some (old, pub)) true, ok)

/-- Bytes that nothing fixes. -/
def State.freeBytes (s : State) (l : LaneRef) (len : Nat) : List Byte :=
  (leBytes 4 (Config.freeWord s.fresh l.lane 512).toNat ++ leBytes 4 (Config.freeWord s.fresh l.lane 513).toNat).take len

/-- LDP (R187): bit 31 selects the code section; a parameter byte written since the admission is
unspecified, and a code byte is the fetch unit's. The core keeps no older copy of what it has read (R212, R215). -/
def State.paramAt (s : State) (l : LaneRef) (m : MemOp) (a : Nat) (counted : Bool) : State × Fate :=
  match s.wg? l.wg, s.launchOf? l.wg with
  | some w, some k =>
    let code := bit a 31
    let ofs := a % 2 ^ 31
    let limit := if code then k.codeLen else k.rcd.plen
    let va := if code then k.rcd.kimg + k.codeOfs + ofs else k.rcd.param + ofs
    if a % m.len ≠ 0 then (s, .trap (.of causeMISAL a))
    else if limit < ofs + m.len then (s, .trap (.of causeOBJMIS a))
    else match s.globalFate l .read va with
      | (s, .go p) =>
        let s := s.settle l p m.len s.serial
        let bad := !(s.badSectors p.addr m.len).isEmpty
        let s := ((s.reportChecks p.addr m.len).countLink p.addr).dropCopies w.core (p.addr / 128)
        if bad then ((s.uncountTok l m counted).consume k.id, .go p)
        else
          let pub := s.pubOf p.addr m.len
          let raw := s.homeRead p.addr m.len
          let data :=
            if code then
              match (s.kslotOf w).bind fun n => s.kslot? w.core n with
              | some ks =>
                let word := s.codeWord ks (va / 8 * 8) (p.addr / 8 * 8)
                (leBytes 8 word).drop (va % 8) |>.take m.len
              | none => raw
            else if k.admitted < pub then s.freeBytes l m.len
            else raw
          ((s.countTok l m counted).addLoad s.slotIssue l m.dest m.tok m.len p false (some (data, pub)) false, .go p)
      | r => r
  | _, _ => (s, .trap (.of causeOBJMIS a))

/-- One lane's access with the address and data captured at issue (R180, R181), as part of the slot with a number
(R182); `counted` says that its token is raised already. -/
def State.perform (s : State) (l : LaneRef) (i : Instr) (m : MemOp) (issue va : Nat) (data : List Byte)
    (counted : Bool) : State × Fate :=
  if m.param then s.paramAt l m va counted
  else match s.fate l m.sp m.kind va m.len with
    | (s, .go p) =>
      match m.kind with
      | .read => ((s.countTok l m counted).addLoad issue l m.dest m.tok m.len p (acqPart m.ord) none false, .go p)
      | .write => (s.addStoreOf issue m.sc l p va data, .go p)
      | .rmw => s.atomAt l i m va p data counted
      | .exec => (s, .go p)
      | .any => (s, .go p)
    | r => r

/-- One lane of a memory slot: it performs, traps, waits, or goes on the replay list with its token raised
(R180, R181). -/
def State.memLane (s : State) (l : LaneRef) (i : Instr) (m : MemOp) (va : Nat) (data : List Byte) : State :=
  match s.perform l i m s.slotIssue va data false with
  | (s, .go _) => s.servePair l
  | (s, .trap j) => s.strikePair l j
  | (s, .fault fva e pa) =>
    (if s.replayFull l.wg then s else s.countTok l m false).faultLane l m.kind data va fva e pa
  | (s, .held) => s.stall

/-- Whether every executing lane has passed the write-completion times that a release part waits for. -/
def State.relReady (s : State) (m : MemOp) (ls : List LaneRef) : Bool :=
  match m.waitScope with
  | some sc => ls.all fun l => s.released l sc
  | none => true

/-- The slot that issues is held. -/
def State.stalledNow (s : State) : Bool := (s.group?.map Group.stalled).getD false

/-- A memory slot (R180): a token at its limit and a release part hold the port; the lanes then act in
ascending order, up to one that is held (R182). -/
def memSlot (i : Instr) (gd : Guard) (s : State) : Host.Outcome State Fault Refusal :=
  issue i gd s fun s ls =>
    match memOp i with
    | none => s
    | some m =>
      let s := (s.taint ls [m.d, m.a, m.b, m.c]).numberSlot
      let full := match m.tok with
        | some k => s.tokFull ls k
        | none => false
      if full || !(s.relReady m ls) then s.stall
      else
        let (s, ok) := s.agree (ls.map fun l =>
          (l, (s.addrOf m.sp m.a m.b l, s.memData m l, s.memCompare m l)))
        (ok.foldl (fun s x => if s.stalledNow then s else s.memLane x.1 i m x.2.1 x.2.2.1) s).countSlot s.serial

/-! The meanings. -/

/-- LD (R186). -/
def execLd (gd : Guard) (ty : Ty) (tok : BitVec 3) (d a b : Opnd) (s : State) :
    Host.Outcome State Fault Refusal :=
  memSlot (.ld gd ty tok d a b) gd s

/-- LDL (R186). -/
def execLdl (gd : Guard) (ty : Ty) (tok : BitVec 3) (d a b : Opnd) (s : State) :
    Host.Outcome State Fault Refusal :=
  memSlot (.ldl gd ty tok d a b) gd s

/-- LDP (R187). -/
def execLdp (gd : Guard) (ty : Ty) (tok : BitVec 3) (d a b : Opnd) (s : State) :
    Host.Outcome State Fault Refusal :=
  memSlot (.ldp gd ty tok d a b) gd s

/-- ST (R186). -/
def execSt (gd : Guard) (ty : Ty) (d a b : Opnd) (s : State) :
    Host.Outcome State Fault Refusal :=
  memSlot (.st gd ty d a b) gd s

/-- STL (R186). -/
def execStl (gd : Guard) (ty : Ty) (d a b : Opnd) (s : State) :
    Host.Outcome State Fault Refusal :=
  memSlot (.stl gd ty d a b) gd s

/-- LDA (R189). -/
def execLda (gd : Guard) (ty : Ty) (sc : Scope) (ord : Order) (tok : BitVec 3) (sp : Space) (d a b : Opnd) (s : State) :
    Host.Outcome State Fault Refusal :=
  memSlot (.lda gd ty sc ord tok sp d a b) gd s

/-- STA (R189). -/
def execSta (gd : Guard) (ty : Ty) (sc : Scope) (ord : Order) (sp : Space) (d a b : Opnd) (s : State) :
    Host.Outcome State Fault Refusal :=
  memSlot (.sta gd ty sc ord sp d a b) gd s

/-- ATOM.ADD (R192). -/
def execAtomAdd (gd : Guard) (ty : Ty) (sc : Scope) (ord : Order) (tok : BitVec 3) (sp : Space) (d a b : Opnd) (s : State) :
    Host.Outcome State Fault Refusal :=
  memSlot (.atomAdd gd ty sc ord tok sp d a b) gd s

/-- ATOM.MIN (R192). -/
def execAtomMin (gd : Guard) (ty : Ty) (sc : Scope) (ord : Order) (tok : BitVec 3) (sp : Space) (d a b : Opnd) (s : State) :
    Host.Outcome State Fault Refusal :=
  memSlot (.atomMin gd ty sc ord tok sp d a b) gd s

/-- ATOM.MAX (R192). -/
def execAtomMax (gd : Guard) (ty : Ty) (sc : Scope) (ord : Order) (tok : BitVec 3) (sp : Space) (d a b : Opnd) (s : State) :
    Host.Outcome State Fault Refusal :=
  memSlot (.atomMax gd ty sc ord tok sp d a b) gd s

/-- ATOM.AND (R192). -/
def execAtomAnd (gd : Guard) (ty : Ty) (sc : Scope) (ord : Order) (tok : BitVec 3) (sp : Space) (d a b : Opnd) (s : State) :
    Host.Outcome State Fault Refusal :=
  memSlot (.atomAnd gd ty sc ord tok sp d a b) gd s

/-- ATOM.OR (R192). -/
def execAtomOr (gd : Guard) (ty : Ty) (sc : Scope) (ord : Order) (tok : BitVec 3) (sp : Space) (d a b : Opnd) (s : State) :
    Host.Outcome State Fault Refusal :=
  memSlot (.atomOr gd ty sc ord tok sp d a b) gd s

/-- ATOM.XOR (R192). -/
def execAtomXor (gd : Guard) (ty : Ty) (sc : Scope) (ord : Order) (tok : BitVec 3) (sp : Space) (d a b : Opnd) (s : State) :
    Host.Outcome State Fault Refusal :=
  memSlot (.atomXor gd ty sc ord tok sp d a b) gd s

/-- ATOM.EXCH (R192). -/
def execAtomExch (gd : Guard) (ty : Ty) (sc : Scope) (ord : Order) (tok : BitVec 3) (sp : Space) (d a b : Opnd) (s : State) :
    Host.Outcome State Fault Refusal :=
  memSlot (.atomExch gd ty sc ord tok sp d a b) gd s

/-- ATOM.FADD (R192). -/
def execAtomFadd (gd : Guard) (sc : Scope) (ord : Order) (tok : BitVec 3) (sp : Space) (d a b : Opnd) (s : State) :
    Host.Outcome State Fault Refusal :=
  memSlot (.atomFadd gd sc ord tok sp d a b) gd s

/-- CAS (R193). -/
def execCas (gd : Guard) (ty : Ty) (sc : Scope) (ord : Order) (tok : BitVec 3) (sp : Space) (d a b c : Opnd) (s : State) :
    Host.Outcome State Fault Refusal :=
  memSlot (.cas gd ty sc ord tok sp d a b c) gd s

/-- CASW (R193). -/
def execCasw (gd : Guard) (sc : Scope) (ord : Order) (tok : BitVec 3) (sp : Space) (d a b c : Opnd) (s : State) :
    Host.Outcome State Fault Refusal :=
  memSlot (.casw gd sc ord tok sp d a b c) gd s

/-- PREF (R188): a prefetch whose check fails is dropped; whether the line arrives is not architected, so
a line that may be cached arrives or not. -/
def execPref (gd : Guard) (a b : Opnd) (s : State) : Host.Outcome State Fault Refusal :=
  issue (.pref gd a b) gd s fun s ls =>
    let s := s.taint ls [a, b]
    let (s, ok) := s.agree (ls.map fun l => (l, s.addrOf .global a b l))
    ok.foldl (fun s x =>
      match s.coreAccess x.1 .read x.2 with
      | (s, .ok p _) =>
        let core := (s.homeOfLane x.1).2
        let cached := p.cls == .shared || p.cls == .object
        if cached && (s.validCopy (.l1 core) (p.addr / 128) 0).isNone &&
            Config.freeChoice s.fresh (p.addr / 128) % 2 == 0 then
          (s.dropCopies core (p.addr / 128)).grant (.l1 core) (p.addr / 128) (s.time + p.lease)
        else s
      | (s, .fault _ _) => s
      | (s, .deny) => s
      | (s, .high) => s
      | (s, .held) => s) s

/-- FENCE (R195): the release part waits on device time; the acquire part raises the read floor to the
publication times that the thread's values carried. -/
def execFence (gd : Guard) (sc : Scope) (ord : Order) (s : State) : Host.Outcome State Fault Refusal :=
  issue (.fence gd sc ord) gd s fun s ls =>
    if relPart ord && !(ls.all fun l => s.released l sc) then s.stall
    else if acqPart ord then
      s.setThreads ls fun _ t => { t with readfloor := max t.readfloor t.seenPub }
    else s

/-- TWAIT (R185): the port is held until every executing lane sees every named token at zero. -/
def execTwait (gd : Guard) (mask : BitVec 8) (s : State) : Host.Outcome State Fault Refusal :=
  issue (.twait gd mask) gd s fun s ls =>
    if ls.all fun l => s.tokensZero l mask.toNat then s.tokenWait mask.toNat ls else s.stall

/-- TCNT (R185). -/
def execTcnt (gd : Guard) (tok : BitVec 3) (d : Opnd) (s : State) : Host.Outcome State Fault Refusal :=
  issue (.tcnt gd tok d) gd s fun s ls =>
    let v (l : LaneRef) : Word := BitVec.ofNat 32 (s.tokView l tok.toNat)
    (s.taint ls [d]).mapLanes ls fun e t => e.put t d (v e.lane)

/-- The scope at which an instruction waits for the write-completion times of its lanes (R33, R189, R192, R195, R202,
R173, R174, R214). -/
def releaseScope (i : Instr) : Option Scope :=
  match i with
  | .fence _ sc ord => if relPart ord then some sc else none
  | .barv _ _ => some .wg
  | .enql _ _ _ => some .dev
  | .evsig _ _ _ => some .sys
  | .ainit _ _ _ | .apost _ _ _ _ _ | .astep _ _ _ => some .sys
  | i => (memOp i).bind MemOp.waitScope

/-- Whether the release that the slot of a group waits for has passed its write-completion times. -/
def State.releasePast (s : State) (g : Group) : Bool :=
  match g.check.bind releaseScope with
  | some sc => g.lanes.all fun l => s.released l sc
  | none => false

/-- RELEASE_WAIT_END (R33, R195): device time has passed the write-completion bound that a release waits for, so its
slot no longer stalls, and its group rejoins the selection (R30). -/
def execReleaseWaitEnd (core bay : Nat) (s : State) : Host.Outcome State Fault Refusal :=
  conclude (s.setBay core bay fun y =>
    { y with cut := y.cut.map fun g => if s.releasePast g then { g with stalled := false } else g })

/-! CVTX (R110 to R112, R145). -/

/-- Whether an element is an outlier (R110): infinite, or its conversion overflows. -/
def isOutlier (dt : Ty) (rnd : Rnd) (rand a : Nat) : Bool :=
  let x := f32 a
  !x.isNan && (x.isInf || (cvtElem dt .f32 rnd rand a).2 / flagOF % 2 == 1)

/-- The largest finite value of a format with a sign (R111). -/
def maxWith (dt : Ty) (neg : Bool) : Nat :=
  match dt.fmt? with
  | some f => f.signBit neg + f.maxBits
  | none => 0

/-- A lane with an outlier: its descriptor, element index and value, and how it is placed. -/
structure Outlier where
  desc : Nat
  idx : Nat
  val : Nat
  deriving DecidableEq, Repr

/-- The checks of R112 on a lane's descriptor, which make no reservation. -/
inductive DescRes where
  | ok (p : Place)
  | all (i : TrapInfo)
  | lane (i : TrapInfo)
  | fault (entry entryPa : Nat)
  | held
  /-- The descriptor is poisoned, and the launch consumes it (R343). -/
  | bad
  deriving DecidableEq, Repr

/-- The checks of a descriptor. The order of a nonzero reserved field before a misaligned BASE, what FADDR holds, and
the permission that the access needs are the model's: log entry 92. -/
def State.descCheck (s : State) (l : LaneRef) (o : Outlier) : State × DescRes :=
  if o.desc % 32 ≠ 0 then (s, .all (.of causeMISAL o.desc))
  else match s.coreAccess l .rmw o.desc with
    | (s, .fault e pa) => (s, .fault e pa)
    | (s, .deny) => (s, .lane (.of causePKEY o.desc))
    | (s, .high) => (s, .lane (.of causeOBJMIS o.desc))
    | (s, .held) => (s, .held)
    | (s, .ok p _) =>
      let s := s.settle l p 32 s.serial
      let bad := !(s.badSectors p.addr 32).isEmpty
      let s := (s.reportChecks p.addr 32).dropCopies (s.homeOfLane l).2 (p.addr / 128)
      let v := leNat (s.homeRead p.addr 32)
      if bad then (s, .bad)
      else if bits v 160 96 ≠ 0 then (s, .all (.of causeOBJMIS o.desc))
      else if bits v 0 64 % 8 ≠ 0 then (s, .all (.of causeMISAL (bits v 0 64)))
      else (s, .ok p)

/-- The reservation of R111 at the descriptor's home: the element is kept, or dropped and limited. -/
def State.append (s : State) (l : LaneRef) (o : Outlier) (p : Place) : State × Bool × Option TrapInfo :=
  let v := leNat (s.homeRead p.addr 32)
  let count := bits v 96 32
  if count < bits v 64 32 then
    let s := s.update l { p with addr := p.addr + 12 } (o.desc + 12) (leBytes 4 (count + 1))
    let va := (bits v 0 64 + 8 * count) % 2 ^ 64
    let data := leBytes 4 o.idx ++ leBytes 4 o.val
    match s.coreAccess l .write va with
    | (s, .ok q _) => (s.addStore l q va data, true, none)
    | (s, .fault e pa) => ((s.addReplay l .cvtxe 0#64 va data).takeFault l.wg va .write e pa, true, none)
    | (s, .deny) => (s, true, some (.of causePKEY va))
    | (s, .high) => (s, true, some (.of causeOBJMIS va))
    | (s, .held) => ((s.addReplay l .cvtxe 0#64 va data).swapLater l.wg, true, none)
  else
    (s.update l { p with addr := p.addr + 16 } (o.desc + 16) (leBytes 4 (bits v 128 32 + 1)), false, none)

/-- The destination of a lane of CVTX (R111, R144): `kept` is the fate of its outlier. A kept one raises nothing and a
dropped one OD and OF alone: log entry 91. -/
def cvtxWrite (dt : Ty) (rnd : Rnd) (d a : Opnd) (kept : Option Bool) (e : Env) (t : Thread) : Thread :=
  let (r, t1) := t.draw rnd
  let x := (e.src t a).toNat
  match kept with
  | none =>
    let v := cvtElem dt .f32 rnd r x
    (e.putT t1 dt d (placeElem dt v.1)).raise v.2
  | some true => e.putT t1 dt d 0
  | some false => (e.putT t1 dt d (placeElem dt (maxWith dt (x / 2 ^ 31 % 2 == 1)))).raise (flagOD ||| flagOF)

/-- CVTX (R145): the checks of every outlier first, then the reservations in ascending lane order, then
the destinations. Which event comes first where lanes differ is the model's: log entry 92. -/
def execCvtx (gd : Guard) (dt : Ty) (rnd : Rnd) (d a b : Opnd) (s : State) : Host.Outcome State Fault Refusal :=
  issue (.cvtx gd dt rnd d a b) gd s fun s ls =>
    let s := s.taint ls [d, a, b]
    let view (l : LaneRef) : Option Outlier :=
      let e := s.env l
      let t := s.thread l
      let x := (e.src t a).toNat
      if isOutlier dt rnd (t.draw rnd).1 x then some ⟨(e.src64 t b).toNat, (e.src t d).toNat, x⟩ else none
    let (s, ok) := s.agree (ls.map fun l => (l, view l))
    let outs := ok.filterMap fun x => x.2.map fun o => (x.1, o)
    let (s, chk) := outs.foldl (fun (acc : State × List (LaneRef × Outlier × DescRes)) x =>
      let r := acc.1.descCheck x.1 x.2
      (r.1, acc.2 ++ [(x.1, x.2, r.2)])) (s, [])
    match chk.findSome? fun x => match x.2.2 with
        | .fault e pa => some (x.1, x.2.1.desc, e, pa)
        | .ok _ | .all _ | .lane _ | .held | .bad => none with
    | some (l, va, e, pa) => (s.takeFault l.wg va .rmw e pa).stall
    | none =>
      if chk.any fun x => x.2.2 == .held then s.stall
      else match chk.findSome? fun x => match x.2.2 with
          | .all i => some i
          | .ok _ | .lane _ | .fault _ _ | .held | .bad => none with
        | some i => ok.foldl (fun s x => s.strikePair x.1 i) s
        | none =>
          let (s, fates) := chk.foldl (fun (acc : State × List (LaneRef × Option Bool × Option TrapInfo)) x =>
            match x.2.2 with
            | .ok p =>
              let r := acc.1.append x.1 x.2.1 p
              (r.1, acc.2 ++ [(x.1, some r.2.1, r.2.2)])
            | .lane i => (acc.1, acc.2 ++ [(x.1, none, some i)])
            | .bad => (acc.1.consume (acc.1.homeOfLane x.1).1, acc.2 ++ [(x.1, none, none)])
            | .all _ | .fault _ _ | .held => acc) (s, [])
          let fateOf (l : LaneRef) : Option (Option Bool × Option TrapInfo) :=
            (fates.find? fun f => f.1 == l).map Prod.snd
          ok.foldl (fun s x =>
            match fateOf x.1 with
            | some (_, some i) => s.strikePair x.1 i
            | some (some kept, none) => s.mapLanes (s.twins x.1) (cvtxWrite dt rnd d a (some kept))
            | some (none, none) => s
            | none => s.mapLanes (s.twins x.1) (cvtxWrite dt rnd d a none)) s

/-! Replay (R305, R306). -/

/-- The virtual address that a replay entry translates first, if it is one of a global access. -/
def State.replayVa (s : State) (wg : Nat) (r : Replay) : Nat :=
  match r.kind, decode r.word with
  | .instr, .ok (.ldp _ _ _ _ _ _) =>
    match s.launchOf? wg with
    | some k => if bit r.addr 31 then k.rcd.kimg + k.codeOfs + r.addr % 2 ^ 31 else k.rcd.param + r.addr
    | none => r.addr
  | _, _ => r.addr

/-- Run an A-family instruction of a lane from its first access (R238); `fuel` bounds its clocks. -/
def State.runPost (s : State) (l : LaneRef) (i : Instr) : Nat → List Nat → State × PostRes
  | 0, _ => (s, .wait)
  | n + 1, w =>
    match s.postStage l i w with
    | (s, .more w') => State.runPost s l i n w'
    | r => r

/-- What becomes of a replay entry. -/
inductive Replayed where
  | gone
  | stays
  | struck (i : TrapInfo)
  | faults (va : Nat) (kind : AccKind) (entry entryPa : Nat)
  deriving DecidableEq, Repr

/-- The result of an access as a replay entry takes it. -/
def Fate.replayed (kind : AccKind) : Fate → Replayed
  | .go _ => .gone
  | .trap i => .struck i
  | .fault va e pa => .faults va kind e pa
  | .held => .stays

/-- A spill or a refill that is struck leaves the stack as it was before the instruction (R160). -/
def State.unspill (s : State) (l : LaneRef) (r : Replay) : State :=
  match r.stack with
  | some (st, n) => (s.twins l).foldl (fun s m => s.setThread m fun t =>
      { t with stack := st, spilled := n, refill := false }) s
  | none => s

/-- Perform a replay entry as its original access, once (R306). -/
def State.replay (s : State) (wg : Nat) (r : Replay) : State × Replayed :=
  let l : LaneRef := ⟨wg, r.rig, r.lane⟩
  match r.kind with
  | .instr =>
    match decode r.word with
    | .reject _ => (s, .gone)
    | .ok i =>
      match memOp i with
      | some m =>
        if !(s.relReady m [l]) then (s, .stays)
        else
          let data := if m.block then s.memData m l else r.data.take m.len
          match s.perform l i m r.issue r.addr data true with
          | (s, .trap j) => (s.uncountTok l m true, .struck j)
          | (s, f) => (s, f.replayed m.kind)
      | none =>
        match s.runPost l i 8 [] with
        | (s, .done d) => (s.postWrite l i d, .gone)
        | (s, .trap j) => (s, .struck j)
        | (s, .fault va k e pa) => (s, .faults va k e pa)
        | (s, .wait) => (s, .stays)
        | (s, .more _) => (s, .stays)
  | .spill =>
    match s.fate l .global .write r.addr 8 with
    | (s, .go p) => (s.addStore l p r.addr r.data, .gone)
    | (s, .trap i) => (s.unspill l r, .struck i)
    | (s, f) => (s, f.replayed .write)
  | .refill =>
    match s.fate l .global .read r.addr 8 with
    | (s, .go p) => (s.addLoad r.issue l .refill none 8 p false none false, .gone)
    | (s, .trap i) => (s.unspill l r, .struck i)
    | (s, f) => (s, f.replayed .read)
  | .tframe =>
    match s.fate l .global .write r.addr 128 with
    | (s, .go p) => (s.addStore l p r.addr r.data, .gone)
    | (s, .trap _) =>
      (s.failLaunch (s.homeOfLane l).1 .unhandledTrap (r.data.getD 8 0#8).toNat r.addr, .gone)
    | (s, f) => (s, f.replayed .write)
  | .cvtxe =>
    match s.fate l .global .write r.addr 8 with
    | (s, .go p) => (s.addStore l p r.addr r.data, .gone)
    | (s, f) => (s, f.replayed .write)

end Sys2Proof.Machine
end

