-- ==== Sys2Proof/Machine/Barrier.lean ====
section
/-! DEFINITION. The barrier instructions (R196 to R202). -/

namespace Sys2Proof.Machine

/-- The checks of R199 on a slot's address. -/
def State.slotCheck (s : State) (l : LaneRef) (a : Nat) : Option TrapInfo :=
  if a % 16 ≠ 0 then some (.of causeMISAL a)
  else if (s.limits l.wg).2.2 < a + 16 then some (.of causeLOFTB a)
  else none

/-- A barrier slot: each executing lane is one operation, in ascending order (R199), after its own earlier
loft accesses. `f` gives the state and the trap of one lane at the address of its slot. -/
def barrierSlot (i : Instr) (gd : Guard) (a b c : Opnd) (s : State)
    (f : State → LaneRef → Workgroup → Nat → Nat → Nat → State × Option TrapInfo) :
    Host.Outcome State Fault Refusal :=
  issue i gd s fun s ls =>
    let s := s.taint ls [a, b, c]
    let read (o : Opnd) (l : LaneRef) : Nat := ((s.env l).src (s.thread l) o).toNat
    let (s, ok) := s.agree (ls.map fun l => (l, (read a l, read b l, read c l)))
    ok.foldl (fun s x =>
      let l := x.1
      match s.slotCheck l x.2.1 with
      | some j => s.strikePair l j
      | none =>
        let s := s.settle l (loftPlace x.2.1) 16 s.serial
        match s.wg? l.wg with
        | none => s
        | some w =>
          match f s l w x.2.1 x.2.2.1 x.2.2.2 with
          | (s, none) => s
          | (s, some j) => s.strikePair l j) s

/-- The MAGIC of a live slot (R196). -/
def slotMagic : Nat := 0x5B2C

/-- A tag: MAGIC above GEN. -/
def tagOf (gen : Nat) : Nat := 65536 * slotMagic + gen

/-- The next generation whose tag no accepted command of the core holds for the slot's address (R200);
among more numbers than commands there is one. -/
def State.nextGen (s : State) (core a : Nat) : Nat → Nat → Nat
  | 0, c => (c + 1) % 65536
  | n + 1, c =>
    let c' := (c + 1) % 65536
    if s.cmds.any fun d => d.core == core && d.bar == some (a, tagOf c') then State.nextGen s core a n c' else c'

/-- BINIT of one lane (R200). -/
def binitLane (s : State) (l : LaneRef) (w : Workgroup) (a _b _c : Nat) : State × Option TrapInfo :=
  if w.isLive a then (s, some (.of causeBARMIS a))
  else
    let gen := s.nextGen w.core a s.cmds.length (s.core w.core).binit.toNat
    let s := s.setCore w.core fun k => { k with binit := BitVec.ofNat 16 gen }
    (s.setWg l.wg fun w =>
      { w.setSlot a (2 ^ 96 * tagOf gen) with
        live := w.live ++ [a / 16], slotPub := Map.set (0, 0) w.slotPub (a / 16) (0, 0) }, none)

/-- BINIT (R200). -/
def execBinit (gd : Guard) (a : Opnd) (s : State) : Host.Outcome State Fault Refusal :=
  barrierSlot (.binit gd a) gd a (.c 0#6) (.c 0#6) s binitLane

/-- BEXP of one lane (R200). -/
def bexpLane (s : State) (l : LaneRef) (w : Workgroup) (a b c : Nat) : State × Option TrapInfo :=
  let v := w.slotBits a
  if !(w.isLive a) || bit v 49 || decide (0xFFFF < c) then (s, some (.of causeBARMIS a))
  else
    let exc := bits v 64 32
    let use := min exc b
    let v := setBits (setBits v 0 32 (b - use)) 64 32 (exc - use)
    let v := setBits (setBits v 50 1 (if exc = use then 0 else 1)) 32 16 c
    (s.putSlot l.wg a (slotComplete (setBits v 49 1 1)) 0, none)

/-- BEXP (R200). -/
def execBexp (gd : Guard) (a b c : Opnd) (s : State) : Host.Outcome State Fault Refusal :=
  barrierSlot (.bexp gd a b c) gd a b c s bexpLane

/-- BARV of one lane (R200): the arrival brings along what its thread has acquired (R211, R216). -/
def barvLane (s : State) (l : LaneRef) (w : Workgroup) (a _b _c : Nat) : State × Option TrapInfo :=
  let v := w.slotBits a
  if !(w.isLive a) || !(bit v 49) || bits v 32 16 == 0 then (s, some (.of causeBARMIS a))
  else (s.putSlot l.wg a (slotComplete (setBits v 32 16 (bits v 32 16 - 1))) (s.thread l).readfloor, none)

/-- BARV (R200, R202): performed only once the earlier stores and atomics of its lanes have passed their
wg write-completion times. -/
def execBarv (gd : Guard) (a : Opnd) (s : State) : Host.Outcome State Fault Refusal :=
  let waits := match s.group? with
    | none => false
    | some g => (g.lanes.filter fun l => gd.holds (s.thread l) && s.legalFor l (.barv gd a)).any fun l =>
        !(s.released l .wg)
  if waits then issue (.barv gd a) gd s fun s _ => s.stall
  else barrierSlot (.barv gd a) gd a (.c 0#6) (.c 0#6) s barvLane

/-- BTEST (R201): on a live slot it observes the flips so far (R211, R219). -/
def execBtest (gd : Guard) (d a : Opnd) (s : State) : Host.Outcome State Fault Refusal :=
  barrierSlot (.btest gd d a) gd a (.c 0#6) (.c 0#6) s fun s l w a _ _ =>
    let v : Word := if w.isLive a then (if bit (w.slotBits a) 48 then 1#32 else 0#32) else 2#32
    let s := (s.taint (s.twins l) [d]).mapLanes (s.twins l) fun e t => e.put t d v
    ((s.twins l).foldl (fun s m => s.observe m (.phase a false)) s, none)

/-- BFREE of one lane (R200): the slot's PHASE yielders wake (R34, R163), and bytes that were never declared raise
barrier excess at retire. -/
def bfreeLane (s : State) (l : LaneRef) (w : Workgroup) (a _b _c : Nat) : State × Option TrapInfo :=
  if !(w.isLive a) then (s, some (.of causeBARMIS a))
  else
    let exc := bits (w.slotBits a) 64 32
    let s := (s.setWg l.wg fun w => { w.setSlot a 0 with live := w.live.filter (· != a / 16) }).noteWakes l.wg
    (s, if exc = 0 then none else some (.of causeBAREXC a))

/-- BFREE (R200). -/
def execBfree (gd : Guard) (a : Opnd) (s : State) : Host.Outcome State Fault Refusal :=
  barrierSlot (.bfree gd a) gd a (.c 0#6) (.c 0#6) s bfreeLane

end Sys2Proof.Machine
end

