-- ==== Sys2Proof/Machine/Control.lean ====
section
/-! DEFINITION. Control transfer, the call stack, traps and their return, yielding and ending
(R156 to R169). -/

namespace Sys2Proof.Machine

/-- A transfer of a lane: accepted under R54, or a stride-frame fault with the target in FADDR (R156). -/
def State.transfer (s : State) (l : LaneRef) (pc : Nat) : State :=
  if s.validTarget pc then s.moveTo l pc else s.strikePair l (.of causeSFRAME pc)

/-- A target at a signed offset (R156). -/
def plusOfs (base : Nat) (ofs : Word) : Nat := wrapInt 64 ((base : Int) + ofs.toInt)

/-- BRA (R156). -/
def execBra (gd : Guard) (ofs : Word) (s : State) : Host.Outcome State Fault Refusal :=
  issue (.bra gd ofs) gd s fun s ls =>
    let pc := ((s.group?.map Group.pc).getD 0#64).toNat
    let (s, ok) := s.agreeLanes ls
    ok.foldl (fun s l => s.transfer l (plusOfs pc ofs)) s

/-- The pair target of a lane (R156). -/
def State.pairTarget (s : State) (a : Opnd) (ofs : Word) (l : LaneRef) : Nat :=
  plusOfs ((s.env l).src64 (s.thread l) a).toNat ofs

/-- BRX (R156). -/
def execBrx (gd : Guard) (a : Opnd) (ofs : Word) (s : State) : Host.Outcome State Fault Refusal :=
  issue (.brx gd a ofs) gd s fun s ls =>
    let (s, ok) := s.agree (ls.map fun l => (l, s.pairTarget a ofs l))
    ok.foldl (fun s x => s.transfer x.1 x.2) s

/-! The call stack (R159, R160). -/

/-- The outcome of an access to a thread's stack. -/
inductive StackRes where
  | done
  | trap (i : TrapInfo)
  | held
  deriving DecidableEq, Repr

/-- Drop the bottom entry of a full stack. -/
def Thread.spillBottom (t : Thread) : Thread := { t with stack := t.stack.dropLast, spilled := t.spilled + 1 }

/-- push (R160): a full stack first spills its oldest entry. -/
def State.push (s : State) (l : LaneRef) (ret : Nat) : State × StackRes :=
  let both (s : State) (f : Thread → Thread) : State := (s.twins l).foldl (fun s m => s.setThread m f) s
  let put (t : Thread) : Thread := { t with stack := BitVec.ofNat 64 ret :: t.stack }
  let t := s.thread l
  if t.stack.length < 4 then (both s put, .done)
  else
    let va := (s.cspill l + 8 * t.spilled) % 2 ^ 64
    let depth := ((s.launchOf? l.wg).map fun k => k.rcd.spilld).getD 0
    let data := leBytes 8 (t.stack.getLastD 0#64).toNat
    let go (s : State) : State × StackRes := (both s fun t => put t.spillBottom, .done)
    if depth ≤ t.spilled then (s, .trap (.of causeCSPILL va))
    else if va % 8 ≠ 0 then (s, .trap (.of causeMISAL va))
    else match s.coreAccess l .write va with
      | (s, .ok p _) => go (s.addStore l p va data)
      | (s, .fault e pa) =>
        if s.replayFull l.wg then (s.takeFault l.wg va .write e pa, .held)
        else go ((s.addReplay l .spill 0#64 va data (some (t.stack, t.spilled))).takeFault l.wg va .write e pa)
      | (s, .deny) => (s, .trap (.of causePKEY va))
      | (s, .high) => (s, .trap (.of causeOBJMIS va))
      | (s, .held) => (s, .held)

/-- pop (R160): the top entry; a spilled entry is loaded back behind the others. -/
def State.pop (s : State) (l : LaneRef) : State × StackRes × Nat :=
  let both (s : State) (f : Thread → Thread) : State := (s.twins l).foldl (fun s m => s.setThread m f) s
  let t := s.thread l
  match t.stack with
  | [] => (s, .trap (.of causeCSPILL 0), 0)
  | ret :: _ =>
    let drop (t : Thread) : Thread := { t with stack := t.stack.drop 1 }
    let refill (t : Thread) : Thread := { drop t with spilled := t.spilled - 1, refill := true }
    if t.spilled = 0 then (both s drop, .done, ret.toNat)
    else
      let va := (s.cspill l + 8 * (t.spilled - 1)) % 2 ^ 64
      if va % 8 ≠ 0 then (s, .trap (.of causeMISAL va), 0)
      else match s.coreAccess l .read va with
        | (s, .ok p _) => ((both s refill).addLoad s.slotIssue l .refill none 8 p false none false, .done, ret.toNat)
        | (s, .fault e pa) =>
          if s.replayFull l.wg then (s.takeFault l.wg va .read e pa, .held, 0)
          else (((both s refill).addReplay l .refill 0#64 va [] (some (t.stack, t.spilled))).takeFault l.wg va .read e pa,
            .done, ret.toNat)
        | (s, .deny) => (s, .trap (.of causePKEY va), 0)
        | (s, .high) => (s, .trap (.of causeOBJMIS va), 0)
        | (s, .held) => (s, .held, 0)

/-- A lane whose refill has not landed holds CALL, CALLX and RET at their slot (R33, R160). -/
def State.refilling (s : State) (ls : List LaneRef) : Bool := ls.any fun l => (s.thread l).refill

/-- What a protected pair compares at a push: the entry to be spilled (R350). -/
def State.spillPoint (s : State) (l : LaneRef) : Option Dword :=
  let t := s.thread l
  if t.stack.length < 4 then none else t.stack.getLast?

/-- One lane of CALL or CALLX: the fall-through address is pushed, then the lane moves to its target; a target that
fails R54 leaves it there with the entry pushed (R156, R157, log entry 38). -/
def State.callLane (s : State) (l : LaneRef) (pc ret : Nat) : State :=
  match s.push l ret with
  | (s, .done) => s.transfer l pc
  | (s, .trap i) => s.strikePair l i
  | (s, .held) => s.stall

/-- CALL (R156, R157). -/
def execCall (gd : Guard) (ofs : Word) (s : State) : Host.Outcome State Fault Refusal :=
  issue (.call gd ofs) gd s fun s ls =>
    match s.group? with
    | none => s
    | some g =>
      if s.refilling ls then s.stall
      else
        let (s, ok) := s.agree (ls.map fun l => (l, s.spillPoint l))
        ok.foldl (fun s x => s.callLane x.1 (plusOfs g.pc.toNat ofs) g.fall) s

/-- CALLX (R156, R158): one clock for each distinct target, in ascending address; the lanes that are left
go on at the next clock. -/
def execCallx (gd : Guard) (a : Opnd) (ofs : Word) (s : State) : Host.Outcome State Fault Refusal :=
  issue (.callx gd a ofs) gd s fun s ls =>
    match s.group? with
    | none => s
    | some g =>
      if s.refilling ls then s.stall
      else
        let (s, ok) := s.agree (ls.map fun l => (l, (s.pairTarget a ofs l, s.spillPoint l)))
        match ok.map fun x => x.2.1 with
        | [] => s
        | t :: ts =>
          let first := ts.foldl min t
          let now := ok.filter fun x => x.2.1 == first
          -- the target is checked before the push (R158)
          let s :=
            if s.validTarget first then now.foldl (fun s x => s.callLane x.1 first g.fall) s
            else now.foldl (fun s x => s.strikePair x.1 (.of causeSFRAME first)) s
          if now.length < ok.length then s.setGroup fun g => { g with more := true } else s

/-- RET (R161): the entry is popped, then checked. -/
def execRet (gd : Guard) (s : State) : Host.Outcome State Fault Refusal :=
  issue (.ret gd) gd s fun s ls =>
    if s.refilling ls then s.stall
    else
      let s := s.numberSlot
      let (s, ok) := s.agree (ls.map fun l => (l, ((s.thread l).stack.head?, (s.thread l).spilled)))
      (ok.foldl (fun s x =>
        match s.pop x.1 with
        | (s, .done, pc) => s.transfer x.1 pc
        | (s, .trap i, _) => s.strikePair x.1 i
        | (s, .held, _) => s.stall) s).countSlot s.serial

/-- End a thread (R162). -/
def Thread.finish (t : Thread) : Thread := { t with life := .exited, inHandler := false, slot := none }

/-- EXIT (R162). -/
def execExit (gd : Guard) (s : State) : Host.Outcome State Fault Refusal :=
  issue (.exit gd) gd s fun s ls =>
    let (s, ok) := s.agreeLanes ls
    ok.foldl (fun s l =>
      (s.twins l).foldl (fun s m => (s.setThread m Thread.finish).leave m) s) s

/-! YIELD (R34, R163). -/

/-- The wake condition of a lane, or the trap of its operands (R163). -/
def State.yieldCond (s : State) (x : YieldForm) (l : LaneRef) : Wake ⊕ TrapInfo :=
  let e := s.env l
  let t := s.thread l
  let (_, _, b) := s.limits l.wg
  match x with
  | .token k => .inl (.token k.toNat)
  | .phase oa ob =>
    let a := (e.src t oa).toNat
    if a % 16 ≠ 0 then .inr (.of causeMISAL a)
    else if b ≤ a then .inr (.of causeLOFTB a)
    else .inl (.phase a ((e.src t ob).toNat % 2 == 1))
  | .wptr oa ob =>
    let a := (e.src t oa).toNat
    if 15 < a then .inr (.of causeILLOPD 0) else .inl (.wptr a (e.src t ob))

/-- YIELD (R34, R163): the lane continues at the fall-through address, parked unless its condition
already holds. -/
def execYield (gd : Guard) (x : YieldForm) (s : State) : Host.Outcome State Fault Refusal :=
  issue (.yield gd x) gd s fun s ls =>
    match s.group? with
    | none => s
    | some g =>
      let (s, ok) := s.agree (ls.map fun l => (l, s.yieldCond x l))
      ok.foldl (fun s c =>
        match c.2 with
        | .inr i => s.strikePair c.1 i
        | .inl w =>
          if !(s.validTarget g.fall) then s.strikePair c.1 (.of causeSFRAME 0)
          else
            let s := s.moveTo c.1 g.fall
            if s.wakeHolds c.1 w then (s.twins c.1).foldl (fun s m => s.observe m w) s
            else (s.twins c.1).foldl (fun s m => s.setThread m fun t => { t with life := .parked w }) s) s

/-- TRAP (R169). -/
def execTrap (gd : Guard) (imm : Word) (s : State) : Host.Outcome State Fault Refusal :=
  issue (.trap gd imm) gd s fun s ls => s.strikeAll ls ⟨causeSWTRAP, 0, imm.toNat, false, true⟩

/-- BRK (R169): without a handler its lanes fall through. -/
def execBrk (gd : Guard) (imm : Word) (s : State) : Host.Outcome State Fault Refusal :=
  issue (.brk gd imm) gd s fun s ls =>
    let has (l : LaneRef) : Bool := ((s.launchOf? l.wg).map fun k => k.rcd.handler != 0).getD false
    s.strikeAll (ls.filter has) ⟨causeBREAK, 0, imm.toNat, false, true⟩

/-- NOP (R164). -/
def execNop (gd : Guard) (s : State) : Host.Outcome State Fault Refusal :=
  issue (.nop gd) gd s fun s _ => s

/-! TRET (R168). -/

/-- A returning lane goes where its frame says (R168): the returned SLOT is `slot`, the temporaries
`temps`, and the stochastic register is that of the delivery (R106). A header that may not be fetched is recorded as a
header trap there (R49, R293). -/
def State.resume (s : State) (l : LaneRef) (pc slot : Nat) (temps : Map Word) : State :=
  let s0 := s
  let stays (s : State) : State := (s.setThreads (s.twins l) fun m _ => s0.thread m).stall
  let s := s.setThreads (s.twins l) fun _ t => { t with inHandler := false, lfsr := t.trapLfsr }
  if !(s.validTarget pc) then s.strikePair l (.of causeSFRAME pc)
  else if slot = 0xFF then s.moveTo l pc
  else
    match s.group? with
    | none => s
    | some g =>
      match s.kslot? s.focus.1 g.kslot with
      | none => s
      | some k =>
        match s.fetchWord l k pc with
        | (s, .fault) => stays s
        | (s, .held) => stays s
        | (s, .deny va) =>
          (s.strikeIn s.focus.1 { g with pc := BitVec.ofNat 64 pc }
            ((s.twins l).map fun m => (m, ⟨causePKEY, va, 0, true, false⟩))).leavePair l
        | (s, .bad) => s.leavePair l
        | (s, .ok h _) =>
          let n := if bit h 51 then 4 * headerWords h else headerWords h
          if n ≤ slot then s.transfer l (pc + 8 * (headerWords h + 1))
          else
            (s.moveTo l pc).setThreads (s.twins l) fun _ t => { t with temps := temps, slot := some slot }

/-- The temporaries of a trap frame (R167). -/
def frameTemps (f : Nat) : Map Word :=
  (List.range 8).foldl (fun m k => Map.set 0#32 m k (BitVec.ofNat 32 (bits f (256 + 32 * k) 32))) []

/-- One lane of TRET (R168). -/
def State.tretLane (s : State) (l : LaneRef) : State :=
  let va := s.tframe l
  if !(s.thread l).inHandler then s.strikePair l (.of causeILLINS 0)
  else match s.coreAccess l .read va with
    | (s, .fault e pa) => (s.takeFault l.wg va .read e pa).stall
    | (s, .deny) => s.strikePair l (.of causePKEY va)
    | (s, .high) => s.strikePair l (.of causeOBJMIS va)
    | (s, .held) => s.stall
    | (s, .ok p _) =>
      let s := s.settle l p 128 s.serial
      let bad := s.badSectors p.addr 128
      let s := s.reportChecks p.addr 128
      if !bad.isEmpty then
        match s.wg? l.wg with
        | some w => (s.consume w.launch).leavePair l
        | none => s
      else
        let f := leNat (s.homeRead p.addr 128)
        s.resume l (bits f 0 64) (bits f 72 8) (frameTemps f)

/-- TRET (R168). -/
def execTret (gd : Guard) (s : State) : Host.Outcome State Fault Refusal :=
  issue (.tret gd) gd s fun s ls =>
    let (s, ok) := s.agree (ls.map fun l => (l, (s.thread l).inHandler))
    ok.foldl (fun s x => s.tretLane x.1) s

end Sys2Proof.Machine
end

