-- ==== Sys2Proof/Machine/Launch.lean ====
section
/-! DEFINITION. Launches: the record and its admission (R314 to R321), readiness and event counters (R323),
cancels (R326), and the end of a launch (R322). -/

namespace Sys2Proof.Machine

/-! The record (R316), as the number of its 256 bytes. -/

def recFields (r : Nat) : LaunchRec :=
  { kimg := bits r 0 64, param := bits r 64 64, plen := bits r 128 32, part := bits r 160 32
    gx := bits r 192 32, gy := bits r 224 32, gz := bits r 256 32, tpw := bits r 288 16
    nreg := 8 * bits r 304 8, nacc := bits r 312 8, loftb := bits r 320 32, seed := bits r 352 32
    handler := bits r 384 64, board := bits r 448 64, save := bits r 512 64, spilld := bits r 576 16
    queue := bits r 592 6, prio := bits r 600 3, repl := bit r 603, prot := bit r 604
    ident := bits r 608 32, graph := bits r 640 32, phase := bits r 672 32, job := bits r 704 32
    ctx := bits r 736 32, pkperm := bits r 768 64, gridt := bits r 832 64
    dep0 := (bits r 1008 16, bits r 896 64), dep1 := (bits r 1136 16, bits r 1024 64)
    crec := bits r 1152 64, evctr := bits r 1216 16, ncow := bits r 1232 16, cowl := bits r 1280 64 }

/-- Reserved fields of a record are zero (R316). -/
def recReserved (r : Nat) : Bool :=
  bits r 598 2 == 0 && bits r 605 3 == 0 && bits r 960 48 == 0 && bits r 1088 48 == 0 &&
    bits r 1248 32 == 0 && bits r 1344 696 == 0

/-- An event counter that a record names: 0xFFFF for none, or below 4,096. -/
def ctrNamed (c : Nat) : Bool := c == 0xFFFF || decide (c < 4096)

/-- Check 1 of R320. -/
def recordOk (r : Nat) (f : LaunchRec) (queue : Option Nat) (ctxValid : Bool) : Bool :=
  recReserved r && (match queue with
    | some q => f.queue == q
    | none => true) && ctxValid &&
    f.kimg % 64 == 0 && f.param % 8 == 0 && f.board % 64 == 0 && f.save % 128 == 0 && f.gridt % 64 == 0 &&
    f.crec % 16 == 0 && f.cowl % 16 == 0 && decide (f.ncow ≤ 64) && decide (f.spilld ≤ 4096) &&
    decide (f.plen ≤ 0x7FFFFFFF) && ctrNamed f.dep0.1 && ctrNamed f.dep1.1 && ctrNamed f.evctr

/-- Granule counts of a partition word (R18). -/
def regGran (p : Nat) : Nat := bits p 0 7
def loftGran (p : Nat) : Nat := bits p 7 7
def accGran (p : Nat) : Nat := bits p 14 7

/-- Rigs of a workgroup (R24, R349). -/
def LaunchRec.rigs (f : LaunchRec) : Nat := let v := visWidth f.prot; (f.tpw + v - 1) / v

/-- Workgroups of the launch that one core can hold (R20). -/
def LaunchRec.perCore (f : LaunchRec) : Nat :=
  let w := f.rigs
  min (min (64 * regGran f.part / f.nreg / w) (if f.loftb = 0 then 128 else loftGran f.part * 16384 / f.loftb))
    (min (if f.nacc = 0 then 128 else accGran f.part / 2 / f.nacc / w) (128 / w))

/-- Check 2 of R320: R18 to R20, R24, R25, R349. -/
def shapeOk (f : LaunchRec) : Bool :=
  bits f.part 21 11 == 0 && decide (regGran f.part + loftGran f.part + accGran f.part ≤ 128) &&
    decide (8 ≤ f.nreg ∧ f.nreg ≤ 256) && f.tpw % 4 == 0 && decide (4 ≤ f.tpw) &&
    decide (f.tpw ≤ if f.prot then 512 else 1024) &&
    f.loftb % 256 == 0 && decide (f.loftb ≤ loftGran f.part * 16384) && decide (f.nacc ≤ 8) &&
    decide (1 ≤ f.perCore) && decide (1 ≤ f.gx ∧ 1 ≤ f.gy ∧ 1 ≤ f.gz) &&
    decide (f.gx * f.gy * f.gz ≤ 2 ^ 32)

/-- The grid's workgroups (R25). -/
def Launch.total (l : Launch) : Nat := l.rcd.gx * l.rcd.gy * l.rcd.gz

/-! Reads of the dispatcher (R293, R321). -/

/-- The unit at which the dispatcher translates; it lies on die 0. -/
def dispUnit : TUnit := .l2 0

/-- The result of a read of the dispatcher. -/
inductive DispRead where
  | ok (data : List Byte)
  | fault (va entry entryPa : Nat)
  | deny
  | held
  | bad
  deriving DecidableEq, Repr

/-- Read bytes at a virtual address, page by page of 4 KiB; `fuel` bounds the pages. A bad sector ends the
read, unless the bytes are taken without being used (`raw`). -/
def State.dispRead (s : State) (ctx : CtxCopy) (perm : Dword) (kind : AccKind) (raw : Bool) :
    Nat → Nat → Nat → State × DispRead
  | 0, _, _ => (s, .ok [])
  | fuel + 1, va, len =>
    if len = 0 then (s, .ok [])
    else
      let n := min len (4096 - va % 4096)
      match translate s ctx dispUnit 0 none perm kind va with
      | (s, .fault e pa) => (s, .fault va e pa)
      | (s, .deny) => (s, .deny)
      | (s, .high) => (s, .deny)
      | (s, .held) => (s, .held)
      | (s, .ok p _) =>
        let bad := !raw && !(s.badSectors p.addr n).isEmpty
        let s := (if raw then s else s.reportChecks p.addr n).countLink p.addr
        if bad then (s, .bad)
        else
          let data := s.homeRead p.addr n
          match State.dispRead s ctx perm kind raw fuel (va + n) (len - n) with
          | (s, .ok rest) => (s, .ok (data ++ rest))
          | r => r

/-- Read `len` bytes. -/
def State.dispBytes (s : State) (ctx : CtxCopy) (perm : Dword) (kind : AccKind) (va len : Nat) :
    State × DispRead :=
  s.dispRead ctx perm kind false (len / 4096 + 2) va len

/-! The image (R44, R317). -/

def imgMagic : Nat := 0x574C4B49

/-- A header with its MAGIC and its reserved fields (R317). -/
def imgHeaderOk (h : Nat) : Bool :=
  bits h 0 32 == imgMagic && bits h 144 16 == 0 && bits h 240 16 == 0 && bits h 288 32 == 0

/-- The rest of the header is well formed (R317). -/
def imgFormOk (h : Nat) : Bool :=
  bits h 32 32 % 8 == 0 && decide (bits h 32 32 ≤ 2 ^ 21) && bits h 64 32 % 8 == 0 && bits h 96 32 % 8 == 0 &&
    decide (bits h 128 16 ≤ 1024) && bits h 320 32 % 8 == 0 && bits h 384 32 % 8 == 0 && bits h 448 32 % 8 == 0

/-- 64-bit words of a run of bytes; `fuel` bounds them. -/
def dwordsOf : Nat → List Byte → List Dword
  | 0, _ => []
  | n + 1, data => if data.isEmpty then [] else BitVec.ofNat 64 (leNat (data.take 8)) :: dwordsOf n (data.drop 8)

/-- A word that carries the magic of a header (R44). -/
def magicWord (w : Dword) : Bool := bits w.toNat 58 6 == 0x2D || bits w.toNat 58 6 == 0x2E

/-- A well-formed pool header (R52). -/
def poolOk (w : Nat) : Bool := bits w 58 6 == 0x2E && bits w 56 2 == 0 && bits w 0 40 == 0

/-- The frame walk (R44): the indexes of the stride headers, or none where a frame fails it. -/
def frameWalk : Nat → Nat → List Dword → Option (List Nat)
  | 0, _, ws => if ws.isEmpty then some [] else none
  | fuel + 1, i, ws =>
    match ws with
    | [] => some []
    | h :: r =>
      if headerOk h.toNat then
        let n := headerWords h.toNat
        if r.length < n || (r.take n).any magicWord then none
        else (frameWalk fuel (i + 1 + n) (r.drop n)).map fun l => i :: l
      else if poolOk h.toNat then
        let n := bits h.toNat 40 16
        if r.length < n then none else frameWalk fuel (i + 1 + n) (r.drop n)
      else none

/-- The frame map of a code section. -/
def frameMap (code : List Dword) : Option (List Nat) := frameWalk (code.length + 1) 0 code

/-! Faults of the dispatcher (R321). -/

/-- Watch a table line for a launch and report its fault. -/
def State.watchLaunch (s : State) (lid va : Nat) (kind : AccKind) (e pa : Nat) : State :=
  (s.setLaunch lid fun l =>
    { l with watches := if l.watches.contains (pa / 128) then l.watches else l.watches ++ [pa / 128] }).reportFault
      lid 0 va kind.accBits e pa

/-! Event counters (R323). -/

/-- The value of an event counter of a virtual function. -/
def State.evc (s : State) (v c : Nat) : Nat := (Map.get 0#64 (s.vf v).evc c).toNat

/-- A dependence is met (R323). -/
def State.depMet (s : State) (v : Nat) (d : Nat × Nat) : Bool := d.1 == 0xFFFF || decide (d.2 ≤ s.evc v d.1)

/-- Launches of a function that are found ready leave the waiting stage; a replayable one takes its
snapshot first (R323, R345). The test is the acquire with which their threads begin (R224), at the device time of now:
log entry 100. -/
def State.latchReady (s : State) (v : Nat) : State :=
  { s with launches := s.launches.map fun l =>
      if l.vf == v && l.stage == .waiting && s.depMet v l.rcd.dep0 && s.depMet v l.rcd.dep1 then
        { l with stage := if l.repl then .snapshotting else .running, readyAt := s.time }
      else l }

/-- Set an event counter, and test the launches that may wait on it. -/
def State.setEvc (s : State) (v c val : Nat) : State :=
  (s.setVf v fun f => { f with evc := Map.set 0#64 f.evc c (BitVec.ofNat 64 val) }).latchReady v

/-- Add to an event counter (R174, R322). -/
def State.addEvc (s : State) (v c n : Nat) : State := s.setEvc v c (s.evc v c + n)

/-! The end of a launch (R322). -/

/-- Whether a CTX field names a valid context (R311, R320). -/
def State.ctxValid (s : State) (v ctx : Nat) : Bool :=
  decide (ctx < 64) && bit (Map.get 0#64 (s.vf v).ctxt (8 * ctx + 7)).toNat 0

/-- The status codes of R320. -/
def LStatus.code : LStatus → Nat
  | .done => 0
  | .refusedRecord => 1
  | .refusedShape => 2
  | .refusedImage => 3
  | .queueFull => 4
  | .cancelled => 5
  | .unhandledTrap => 6
  | .engineFault => 7
  | .indeterminate => 8
  | .contextLost => 9
  | .contained => 10

/-- The completion record (R322). -/
def Launch.completion (l : Launch) : List Byte :=
  leBytes 1 l.status.code ++ leBytes 1 (if l.status = .unhandledTrap then l.cause else 0) ++ leBytes 1 0 ++
    leBytes 5 l.wgdone ++
    leBytes 8 (if l.status = .unhandledTrap ∨ l.status = .engineFault then l.faddr else 0)

/-- Raise the counters of a launch that ends (R322, R323): those of its graph, phase and job, and EVCTR. -/
def State.raiseCounters (s : State) (l : Launch) : State :=
  let ids := ([l.rcd.graph, l.rcd.phase, l.rcd.job].map fun x => x % 4096).filter (· ≠ 4095)
  let all := ids ++ (if l.rcd.evctr = 0xFFFF then [] else [l.rcd.evctr])
  all.foldl (fun s c => s.addEvc l.vf c 1) s

/-- The rest of an end once the completion record is out of the way: the counters, the notification, and
the queue entry. -/
def State.retireLaunch (s : State) (lid : Nat) : State :=
  match s.launch? lid with
  | none => s
  | some l =>
    let s := if l.quiet then s else s.raiseCounters l
    let s := if l.status = .done then s
      else s.notify l.vf (notifyRecord 0 l.rcd.ident 0 l.rcd.job l.rcd.ctx 0 3)
    { s with launches := s.launches.filter fun k => k.id != lid
             marks := s.marks.filter fun m => m.launch != lid }

/-- End a launch (R322): its snapshot is released (R348), the completion record is written through its
context, and the rest follows; a page fault on the record makes the end wait. A record that was refused for
its context or for the alignment of CREC has no place for it. -/
def State.finishLaunch (s : State) (lid : Nat) : State :=
  let s := s.releaseSnap lid
  match s.launch? lid with
  | none => s
  | some l =>
    let s := s.setLaunch lid fun l => { l with stage := .ending }
    if l.rcd.crec = 0 ∨ l.rcd.crec % 16 ≠ 0 then s.retireLaunch lid
    else match translate s l.ctx dispUnit 0 none (BitVec.ofNat 64 l.rcd.pkperm) .write l.rcd.crec with
      | (s, .ok p _) =>
        ((((s.setDirtyBit p).hwWrite false false p.addr l.completion).2).markDirty l.ctx l.rcd.crec 16).retireLaunch lid
      | (s, .fault e pa) => s.watchLaunch lid l.rcd.crec .write e pa
      | (s, .deny) => s.retireLaunch lid
      | (s, .high) => s.retireLaunch lid
      | (s, .held) => s

/-- A launch ends at once with a status; one that was cancelled before keeps that status (R326). -/
def State.refuse (s : State) (lid : Nat) (st : LStatus) : State :=
  (s.setLaunch lid fun l => { l with status := if l.status = .done then st else l.status }).finishLaunch lid

/-! Admission (R320, R321). -/

/-- A copy-on-write region list (R316): base and length of each region, or none where an alignment fails. -/
def regionList : Nat → List Byte → Option (List (Nat × Nat))
  | 0, _ => some []
  | n + 1, data =>
    let b := leNat (data.take 8)
    let len := leNat ((data.drop 8).take 8)
    if b % 4096 ≠ 0 ∨ len % 4096 ≠ 0 then none
    else (regionList n (data.drop 16)).map fun r => (b, len) :: r

/-- What a check of admission comes to: it goes on, it waits for a page, or the launch is refused. -/
inductive Adm (α : Type) where
  | ok (a : α)
  | wait (va : Nat) (kind : AccKind) (entry entryPa : Nat)
  | hold
  | refuse (st : LStatus)
  | bad
  deriving DecidableEq, Repr

/-- A read of admission, whose failed permission check gives a status; a poisoned value is consumed by the
launch, which is rolled back or ends (R344). -/
def DispRead.adm (kind : AccKind) (st : LStatus) : DispRead → Adm (List Byte)
  | .ok d => .ok d
  | .fault va e pa => .wait va kind e pa
  | .deny => .refuse st
  | .held => .hold
  | .bad => .bad

/-- Check 2: with PART = 0 the image header gives the shape (R316, R320). -/
def State.admitShape (s : State) (l : Launch) : State × Adm LaunchRec :=
  let f := l.rcd
  let perm := BitVec.ofNat 64 f.pkperm
  if f.part ≠ 0 then (s, if shapeOk f then .ok f else .refuse .refusedShape)
  else
    let (s, r) := s.dispBytes l.ctx perm .exec f.kimg 64
    match r.adm .exec .refusedImage with
    | .ok d =>
      let h := leNat d
      if !imgHeaderOk h then (s, .refuse .refusedImage)
      else
        let f := { f with part := bits h 192 32, nreg := 8 * bits h 224 8, nacc := bits h 232 8, loftb := bits h 256 32 }
        (s, if shapeOk f then .ok f else .refuse .refusedShape)
    | .wait va k e pa => (s, .wait va k e pa)
    | .hold => (s, .hold)
    | .refuse st => (s, .refuse st)
    | .bad => (s, .bad)

/-- Check 3: the header, and the frame walk with its entry point and the dictionary (R44, R320). The
numbers are ENTRY, CODEOFS, CODELEN, DICTOFS and DICTN. -/
def State.admitImage (s : State) (l : Launch) : State × Adm (Nat × Nat × Nat × Nat × Nat) :=
  let perm := BitVec.ofNat 64 l.rcd.pkperm
  let (s, r) := s.dispBytes l.ctx perm .exec l.rcd.kimg 64
  match r.adm .exec .refusedImage with
  | .wait va k e pa => (s, .wait va k e pa)
  | .hold => (s, .hold)
  | .refuse st => (s, .refuse st)
  | .bad => (s, .bad)
  | .ok d =>
    let h := leNat d
    if !(imgHeaderOk h && imgFormOk h) then (s, .refuse .refusedImage)
    else
      let len := bits h 32 32
      let (s, r) := s.dispBytes l.ctx perm .exec (l.rcd.kimg + bits h 64 32) len
      match r.adm .exec .refusedImage with
      | .wait va k e pa => (s, .wait va k e pa)
      | .hold => (s, .hold)
      | .refuse st => (s, .refuse st)
      | .bad => (s, .bad)
      | .ok code =>
        let (s, r) := s.dispBytes l.ctx perm .exec (l.rcd.kimg + bits h 96 32) (8 * bits h 128 16)
        match r.adm .exec .refusedImage with
        | .wait va k e pa => (s, .wait va k e pa)
        | .hold => (s, .hold)
        | .refuse st => (s, .refuse st)
        | .bad => (s, .bad)
        | .ok dict =>
          let entry := bits h 160 32
          let heads := frameMap (dwordsOf (len / 8) code)
          let good := match heads with
            | some hs => entry % 8 == 0 && hs.contains (entry / 8)
            | none => false
          if good && !((dwordsOf (bits h 128 16) dict).any magicWord) then
            (s, .ok (entry, bits h 64 32, len, bits h 96 32, bits h 128 16))
          else (s, .refuse .refusedImage)

/-- Check 4: the region list and the grid table are read and captured (R320). A launch that a rollback has sent back
keeps the table that its queue entry holds (R101). -/
def State.admitLists (s : State) (l : Launch) : State × Adm (List (Nat × Nat) × List Byte) :=
  let perm := BitVec.ofNat 64 l.rcd.pkperm
  let (s, r) := s.dispBytes l.ctx perm .read l.rcd.cowl (16 * l.rcd.ncow)
  match r.adm .read .refusedRecord with
  | .wait va k e pa => (s, .wait va k e pa)
  | .hold => (s, .hold)
  | .refuse st => (s, .refuse st)
  | .bad => (s, .bad)
  | .ok list =>
    match regionList l.rcd.ncow list with
    | none => (s, .refuse .refusedRecord)
    | some regs =>
      let (s, r) := s.dispBytes l.ctx perm .read l.rcd.gridt (if l.rcd.gridt = 0 ∨ !l.grid.isEmpty then 0 else 1024)
      match r.adm .read .refusedRecord with
      | .wait va k e pa => (s, .wait va k e pa)
      | .hold => (s, .hold)
      | .refuse st => (s, .refuse st)
      | .bad => (s, .bad)
      | .ok grid => (s, .ok (regs, if l.grid.isEmpty then grid else l.grid))

/-- Apply a check's result: go on, wait with a watch, or end the launch. -/
def State.admStep {α : Type} (s : State) (lid : Nat) (r : Adm α) (k : State → α → State) : State :=
  match r with
  | .ok a => k s a
  | .wait va kind e pa => s.watchLaunch lid va kind e pa
  | .hold => s
  | .refuse st => s.refuse lid st
  | .bad => s.consume lid

/-- The checks of admission after check 1, from the start (R320, R321). -/
def State.runAdmission (s : State) (lid : Nat) : State :=
  match (s.countDie lid).launch? lid with
  | none => s
  | some l =>
    let (s, r) := (s.countDie lid).admitShape l
    s.admStep lid r fun s f =>
      let s := s.setLaunch lid fun l => { l with rcd := f }
      let l := { l with rcd := f }
      let (s, r) := s.admitImage l
      s.admStep lid r fun s img =>
        let (s, r) := s.admitLists l
        s.admStep lid r fun s lists =>
          (s.setLaunch lid fun l =>
            { l with
              entry := img.1, codeOfs := img.2.1, codeLen := img.2.2.1, dictOfs := img.2.2.2.1, dictN := img.2.2.2.2
              regions := lists.1, grid := lists.2, stage := .waiting, watches := [], admitted := s.time }).latchReady l.vf

/-- A launch's copy of its translation context (R311). -/
def State.ctxCopy (s : State) (v ctx : Nat) : CtxCopy :=
  let f := s.vf v
  let w (i : Nat) : Nat := (Map.get 0#64 f.ctxt (8 * ctx + i)).toNat
  ⟨⟨v, ctx, Map.get 0 f.ctxGen ctx⟩, w 0, w 1, w 2, w 3, w 4⟩

/-- A new queue entry for a record (R314, R315). -/
def State.newLaunch (s : State) (v : Nat) (f : LaunchRec) (raw : List Byte) : Nat × State :=
  let (id, s) := s.take
  (id, { s with launches := s.launches ++
    [{ id := id, vf := v, rcd := f, raw := raw, ctx := s.ctxCopy v f.ctx, entry := 0, codeOfs := 0, codeLen := 0
       dictOfs := 0, dictN := 0, grid := [], regions := [], stage := .admitting, order := id, admitted := s.time
       readyAt := s.time, nextWg := 0, wgdone := 0, status := .done, cause := 0, faddr := 0, noPlace := false, hard := false
       repl := f.repl, rollback := none, rollbacks := 0, snap := [], snapAt := none, snapTracks := []
       watches := [], quiet := false }] })

/-- Entries of a queue that are in use. -/
def State.queueUse (s : State) (v q : Nat) : Nat :=
  (s.launches.filter fun l => l.vf == v && l.rcd.queue == q).length

/-- Admit a record into a queue entry (R314, R320): `queue` is the window queue of a host's record. One that names no
valid context has no context to write a completion record through. -/
def State.admitRecord (s : State) (v : Nat) (f : LaunchRec) (raw : List Byte) (queue : Option Nat) : State :=
  let ok := recordOk (leNat raw) f queue (s.ctxValid v f.ctx)
  let f := { f with crec := if s.ctxValid v f.ctx then f.crec else 0 }
  let (id, s) := s.newLaunch v (match queue with
    | some q => { f with queue := q }
    | none => f) raw
  if ok then s.runAdmission id else s.refuse id .refusedRecord

/-- Whether any die is in service: launches are admitted from then on (R338). -/
def State.inService (s : State) : Bool := s.dies.any fun d => d.state == .inService

/-- The record at the head of a queue, if it is armed (R313, R314): it lies where its window lay as it was armed. -/
def State.headRecord (s : State) (vf queue : Nat) : Option Armed :=
  s.armed.find? fun a => a.vf == vf && a.queue == queue && a.idx == Map.get 0 (s.vf vf).heads queue

/-- Copy, disarm and admit an armed record (R314); one that is poisoned is consumed by its launch (R344). -/
def State.takeRecord (s : State) (a : Armed) : State :=
  let s := checkPa s a.slot
  let bad := !(s.badSectors a.slot 256).isEmpty
  let s := s.reportChecks a.slot 256
  let raw := s.homeRead a.slot 256
  let s := (s.hwWrite false false (a.slot + 255) [0#8]).2
  let s := s.setVf a.vf fun f => { f with heads := Map.set 0 f.heads a.queue ((a.idx + 1) % 16) }
  if bad then
    let (id, s) := s.newLaunch a.vf { recFields (leNat raw) with queue := a.queue, crec := 0 } raw
    s.refuse id .contained
  else s.admitRecord a.vf (recFields (leNat raw)) raw (some a.queue)

/-- LAUNCH_RECORD_TAKEN (R314): the armed record at the head of a queue is copied, disarmed and admitted, once a die is
in service (R338) and an entry of the queue is free. -/
def execLaunchRecordTaken (vf queue : Nat) (s : State) : Host.Outcome State Fault Refusal :=
  conclude (match s.headRecord vf queue with
    | none => s
    | some a =>
      if s.inService && gate s a.slot == .ok && Memory.read s.mem (a.slot + 255) == 0xA5#8 &&
          decide (s.queueUse vf queue < 64) then s.takeRecord a
      else s)

/-- ADMISSION_RESUME (R321): an admission that waited for a page runs again, unless its launch ends (R326). -/
def execAdmissionResume (launch : Nat) (s : State) : Host.Outcome State Fault Refusal :=
  conclude (match s.launch? launch with
    | some l => if l.stage == .admitting && !l.noPlace then s.runAdmission launch else s
    | none => s)

/-- LAUNCH_END (R322): all workgroups have completed, or an early end has drained. -/
def execLaunchEnd (launch : Nat) (s : State) : Host.Outcome State Fault Refusal :=
  conclude (match s.launch? launch with
    | none => s
    | some l =>
      let drained := !(s.wgs.any fun w => w.launch == launch)
      let finished := l.noPlace || (l.stage == .running && l.nextWg == l.total)
      if l.stage != .ending && drained && finished && l.rollback.isNone && !(s.kills.contains l.ctx.tag) then s.finishLaunch launch else s)

/-- LAUNCH_END_RESUME (R322): an end that waited for a page goes on. -/
def execLaunchEndResume (launch : Nat) (s : State) : Host.Outcome State Fault Refusal :=
  conclude (match s.launch? launch with
    | some l => if l.stage == .ending then s.finishLaunch launch else s
    | none => s)

/-! Cancels (R172, R326). -/

/-- The identity of a launch at a level. -/
def Launch.identAt (l : Launch) : Level → Nat
  | .launch => l.rcd.ident
  | .graph => l.rcd.graph
  | .phase => l.rcd.phase
  | .job => l.rcd.job

/-- Cancel the launches of a function that match (R326). The first status of a launch stays; hard wins
over soft. -/
def State.cancel (s : State) (v : Nat) (lvl : Level) (ident : Nat) (hard : Bool) (job : Option Nat) : State :=
  { s with launches := s.launches.map fun l =>
      let mine := match job with
        | some j => l.rcd.job == j
        | none => true
      if l.vf == v && l.identAt lvl == ident && mine && l.stage != .ending then
        { l with status := if l.status == .done then .cancelled else l.status, noPlace := true
                 hard := l.hard || hard || (l.rollback.isSome)
                 rollback := none }
      else l }

/-- HOST_SOFT_CANCEL (R326). -/
def execHostSoftCancel (vf : Nat) (lvl : Level) (ident : Nat) (s : State) : Host.Outcome State Fault Refusal :=
  conclude (s.cancel vf lvl ident false none)

/-- HOST_HARD_CANCEL (R326): threads at a boundary end at once. -/
def execHostHardCancel (vf : Nat) (lvl : Level) (ident : Nat) (s : State) : Host.Outcome State Fault Refusal :=
  conclude (s.cancel vf lvl ident true none).sweep

/-- EVC_WRITE (R323): a host write to an event counter. -/
def execEvcWrite (vf ctr : Nat) (val : Dword) (s : State) : Host.Outcome State Fault Refusal :=
  conclude (if vf < 32 ∧ ctr < 4096 then s.setEvc vf ctr val.toNat else s)

end Sys2Proof.Machine
end

