-- ==== Sys2Proof/Machine/Place.lean ====
section
/-! DEFINITION. Placement of workgroups and its ends: which core takes which workgroup (R18 to R27, R324,
R328, R334, R338, R340), the state of a placed workgroup (R357), completion (R162), and pre-emption (R325). -/

namespace Sys2Proof.Machine

/-! Which cores can take work. -/

/-- Whether a function is in service on a cluster: its turn lasts (R328). -/
def State.serves (s : State) (v cluster : Nat) : Bool := (s.turns[cluster]?).bind Turn.vf == some v

/-- A core of a die in service that is not fenced itself (R338, R351). -/
def State.coreAlive (s : State) (c : Nat) : Bool :=
  decide (c < Config.cores) && !(s.core c).fenced && ((s.dies[dieOf c]?).map Die.state) == some .inService

/-- A core on which workgroups may be placed: its cluster is not out of service under its cap (R340). -/
def State.coreOpen (s : State) (c : Nat) : Bool :=
  s.coreAlive c && ((s.age[clusterOf c]?).map fun a => decide (0 < a.cap)).getD false

/-- The workgroups that hold slots of a core: a workgroup swapped off has freed its share (R21). -/
def State.resident (s : State) (c : Nat) : List Workgroup :=
  s.wgs.filter fun w => w.core == c && w.phase != .swapped

/-- A sum over workgroups of a quantity of their launches. -/
def State.sumOf (s : State) (ws : List Workgroup) (f : LaunchRec → Nat) : Nat :=
  ws.foldl (fun n w => n + ((s.launch? w.launch).map fun l => f l.rcd).getD 0) 0

/-- How many workgroups of a launch R20 and R21 allow on a core beside some resident workgroups. `held`
lists the launches whose grid tables the core holds (R101). -/
def State.room (s : State) (l : Launch) (ws : List Workgroup) (held : List Nat) : Nat :=
  let f := l.rcd
  let recs := ws.filterMap fun w => (s.launch? w.launch).map Launch.rcd
  let kernels := ((recs.map LaunchRec.kimg) ++ [f.kimg]).eraseDups.length
  let grids := (held ++ if f.gridt = 0 then [] else [l.id]).eraseDups.length
  if recs.any (fun r => r.part != f.part) || decide (4 < kernels) || decide (4 < grids) then 0
  else
    let w := f.rigs
    let left (total used each : Nat) : Nat := if each = 0 then 128 else (total - used) / each
    min (min (left (64 * regGran f.part) (s.sumOf ws fun r => r.rigs * r.nreg) (w * f.nreg))
          (left (loftGran f.part * 16384) (s.sumOf ws LaunchRec.loftb) f.loftb))
      (min (left (accGran f.part / 2) (s.sumOf ws fun r => r.rigs * r.nacc) (w * f.nacc))
        (left 128 (s.sumOf ws LaunchRec.rigs) w))

/-- Whether a core takes a workgroup of a launch under R20 and R21. -/
def State.fits (s : State) (c : Nat) (l : Launch) : Bool :=
  decide (0 < s.room l (s.resident c) (s.core c).grids)

/-- Whether the stores that the work of a launch waits for have completed: those of its snapshot (R345), or of the pages
that came with it (R225). -/
def State.storesDone (s : State) (l : Launch) : Bool :=
  l.snapTracks.all fun i => s.tracks.all fun t => t.id != i || s.trackDone .sys t

/-- Whether a launch is ready and has workgroups to place, and its context generation is not being killed (R354). -/
def State.placeable (s : State) (l : Launch) : Bool :=
  l.stage == .running && !l.noPlace && decide (l.nextWg < l.total) && !(s.kills.contains l.ctx.tag) && s.storesDone l

/-- The launches of the job that a relay moves: [31:0] of RLJOB the job, [36:32] the function (R333). -/
def Relay.moves (r : Relay) (l : Launch) : Bool := bits r.rljob 0 32 == l.rcd.job && bits r.rljob 32 5 == l.vf

/-- Whether a relay has sent the job of a launch and waits for the answer (R334, R335). -/
def State.relaySent (s : State) (l : Launch) : Bool := s.relays.any fun r => r.phase == .sent && r.moves l

/-- Whether a relay holds a launch back: it drains the job and the launch's phase was not running, or has sent it
(R334). -/
def State.relayHolds (s : State) (l : Launch) : Bool :=
  s.relaySent l || s.relays.any fun r => r.phase == .draining && r.moves l && !(r.phases.contains l.rcd.phase)

/-- Whether a core is marked against a launch: it is a victim there (R325). -/
def State.markedOut (s : State) (c : Nat) (l : Launch) : Bool :=
  s.marks.any fun m => m.core == c && m.victims.contains l.id

/-- Whether a core can take a workgroup of a launch now (R324). -/
def State.takes (s : State) (c : Nat) (l : Launch) : Bool :=
  s.placeable l && !(s.relayHolds l) && s.coreOpen c && s.serves l.vf (clusterOf c) && !(s.markedOut c l) && s.fits c l

/-- The launch whose workgroup a core takes next: the highest PRIO, then the earliest admitted (R324). -/
def State.nextFor (s : State) (c : Nat) : Option Launch :=
  (s.launches.filter fun l => s.takes c l).foldl (fun (best : Option Launch) l =>
    match best with
    | none => some l
    | some b => if b.rcd.prio < l.rcd.prio ∨ (b.rcd.prio = l.rcd.prio ∧ l.order < b.order) then some l else best) none

/-! The kernel of a launch (R27, R44, R51). -/

/-- The stride headers that the loader's walk finds, up to a frame that fails it. -/
def headWalk : Nat → Nat → List Dword → List Nat
  | 0, _, _ => []
  | fuel + 1, i, ws =>
    match ws with
    | [] => []
    | h :: r =>
      if headerOk h.toNat then
        let n := headerWords h.toNat
        if r.length < n then [] else i :: headWalk fuel (i + 1 + n) (r.drop n)
      else if poolOk h.toNat then
        let n := bits h.toNat 40 16
        if r.length < n then [] else headWalk fuel (i + 1 + n) (r.drop n)
      else []

/-- The frame headers that the loader's walk reads, up to a frame that fails it. -/
def frameHeads : Nat → Nat → List Dword → List Nat
  | 0, _, _ => []
  | fuel + 1, i, ws =>
    match ws with
    | [] => []
    | h :: r =>
      let n := if headerOk h.toNat then headerWords h.toNat else if poolOk h.toNat then bits h.toNat 40 16 else r.length
      if r.length < n then [i] else i :: frameHeads fuel (i + 1 + n) (r.drop n)

/-- What the loader finds: the kernel, a page to wait for, or a poisoned sector. -/
inductive Load where
  | ok (k : KSlot)
  | wait (va entry entryPa : Nat)
  | held
  | bad
  deriving DecidableEq, Repr

/-- Read frame headers; false when one lies in a bad sector. -/
def State.readHeads (s : State) (ctx : CtxCopy) (perm : Dword) : List Nat → State × Bool
  | [] => (s, true)
  | a :: r =>
    match s.dispBytes ctx perm .exec a 8 with
    | (s, .bad) => (s, false)
    | (s, .ok _) => State.readHeads s ctx perm r
    | (s, .deny) => State.readHeads s ctx perm r
    | (s, .held) => State.readHeads s ctx perm r
    | (s, .fault _ _ _) => State.readHeads s ctx perm r

/-- The dispatcher loads a kernel for a dictionary slot: its code section with the frame map, and its
dictionary (R44, R51). The walk consumes the frame headers, and a body word is consumed when a stride fetches
it (R343). Words that fail their permission check are not loaded (log entry 14). -/
def State.loadKernel (s : State) (l : Launch) : State × Load :=
  let perm := BitVec.ofNat 64 l.rcd.pkperm
  let finish (s : State) (code dict : List Byte) : State × Load :=
    let ws := dwordsOf (l.codeLen / 8) code
    let ds := dwordsOf l.dictN dict
    (s, .ok ⟨l.rcd.kimg, l.rcd.kimg + l.codeOfs, l.codeLen, headWalk (ws.length + 1) 0 ws, ws,
      ds ++ List.replicate (1024 - ds.length) 0xFFC0000000000000#64⟩)
  let dictPart (s : State) (code : List Byte) : State × Load :=
    match s.dispBytes l.ctx perm .exec (l.rcd.kimg + l.dictOfs) (8 * l.dictN) with
    | (s, .ok d) => finish s code d
    | (s, .deny) => finish s code []
    | (s, .fault va e pa) => (s, .wait va e pa)
    | (s, .held) => (s, .held)
    | (s, .bad) => (s, .bad)
  let base := l.rcd.kimg + l.codeOfs
  match s.dispRead l.ctx perm .exec true (l.codeLen / 4096 + 2) base l.codeLen with
  | (s, .ok d) =>
    let ws := dwordsOf (l.codeLen / 8) d
    match s.readHeads l.ctx perm ((frameHeads (ws.length + 1) 0 ws).map fun i => base + 8 * i) with
    | (s, true) => dictPart s d
    | (s, false) => (s, .bad)
  | (s, .deny) => dictPart s []
  | (s, .fault va e pa) => (s, .wait va e pa)
  | (s, .held) => (s, .held)
  | (s, .bad) => (s, .bad)

/-- Make a launch's kernel resident on a core: it has its dictionary slot, or the loader fills a free one.
True when the slot stands. -/
def State.needKernel (s : State) (c : Nat) (l : Launch) : State × Bool :=
  if (s.core c).kslots.any fun k => (k.map fun k => k.kimg == l.rcd.kimg).getD false then (s, true)
  else match (s.countDie l.id).loadKernel l with
    | (s, .ok k) =>
      match freePlace (s.core c).kslots with
      | some i => (s.setCore c fun q => { q with kslots := q.kslots.set i (some k) }, true)
      | none => (s, false)
    | (s, .wait va e pa) => (s.watchLaunch l.id va .exec e pa, false)
    | (s, .held) => (s, false)
    | (s, .bad) => (s.consume l.id, false)

/-! Rigs in bays (R26). -/

/-- Rigs that a bay holds. -/
def Bay.rigs (y : Bay) : Nat := (y.active.filterMap id).length + (y.pending.filterMap id).length

/-- A rig enters a bay: its active set if that has room, else the pending set. -/
def Bay.enter (y : Bay) (r : Nat × Nat) : Bay :=
  match freePlace y.active, freePlace y.pending with
  | some i, _ => { y with active := y.active.set i (some r) }
  | none, some i => { y with pending := y.pending.set i (some r) }
  | none, none => y

/-- The bay with the fewest rigs, the lowest on a tie. -/
def Core.bayFor (k : Core) : Nat :=
  ((List.range k.bays.length).foldl (fun (best : Option (Nat × Nat)) i =>
    let n := ((k.bays[i]?).map Bay.rigs).getD 0
    match best with
    | none => some (i, n)
    | some b => if n < b.2 then some (i, n) else best) none).map Prod.fst |>.getD 0

/-- Give the rigs of a workgroup to the bays of its core, in rig order (R26). -/
def State.enterBays (s : State) (wg c : Nat) (n : Nat) : State :=
  (List.range n).foldl (fun s r =>
    let b := (s.core c).bayFor
    (s.setBay c b fun y => y.enter (wg, r)).setRig wg r fun q => { q with bay := b, ready := none }) s

/-- A workgroup leaves the bays of its core. -/
def State.leaveBays (s : State) (wg c : Nat) : State :=
  let out (r : Option (Nat × Nat)) : Option (Nat × Nat) := r.bind fun r => if r.1 == wg then none else some r
  s.setCore c fun k => { k with bays := k.bays.map fun y =>
    { y.strip fun l => l.wg == wg with active := y.active.map out, pending := y.pending.map out } }

/-! WORKGROUP_PLACE. -/

/-- A thread as it starts (R357, R106), with the acquire of its launch's dependences (R224). -/
def LaunchRec.newThread (f : LaunchRec) (wgid rig lane pc floor : Nat) : Thread :=
  let tid := visWidth f.prot * rig + visLane f.prot lane
  if tid < f.tpw then
    { Thread.absent with
      life := .running, pc := BitVec.ofNat 64 pc, lfsr := lfsrSeed f.seed tid wgid, readfloor := floor }
  else Thread.absent

/-- A rig as it starts (R357). -/
def LaunchRec.newRig (f : LaunchRec) (wgid pc floor rig : Nat) : Rig :=
  { threads := (List.range 64).map fun i => f.newThread wgid rig i pc floor
    tok := [], tokPub := [], windows := [], due := [], aset := 0#32, rowprog := 0#32, bay := 0, lastIssue := 0
    ready := none }

/-- A workgroup as it starts (R357). -/
def Launch.newWg (l : Launch) (id core : Nat) : Workgroup :=
  let pc := (l.rcd.kimg + l.codeOfs + l.entry) % 2 ^ 64
  { id := id, launch := l.id, wgid := l.nextWg, core := core
    rigs := (List.range l.rcd.rigs).map fun r => l.rcd.newRig l.nextWg pc l.readyAt r
    loft := [], loftPub := [], live := [], slotPub := [], chans := [], pkperm := BitVec.ofNat 64 l.rcd.pkperm, slices := []
    replay := [], again := [], phase := .running, ended := false, watches := [], faults := [], frame := none }

/-- The threads of a workgroup take the bay cycle of their placement as their age (R28). -/
def State.ageAll (s : State) (wg c : Nat) : State :=
  s.setWg wg fun w => { w with rigs := w.rigs.map fun q =>
    { q with
      lastIssue := (s.bay c q.bay).cycle
      threads := q.threads.map fun t => { t with age := (s.bay c q.bay).cycle } } }

/-- A core's latent stage holds the grid table of a launch that names one, with its workgroups (R101). -/
def State.holdGrid (s : State) (c : Nat) (l : Launch) : State :=
  s.setCore c fun k =>
    { k with grids := if l.rcd.gridt = 0 ∨ k.grids.contains l.id then k.grids else k.grids ++ [l.id] }

/-- WORKGROUP_PLACE (R26, R324): a core takes the next workgroup of the launch chosen for it. -/
def execWorkgroupPlace (launch core : Nat) (s : State) : Host.Outcome State Fault Refusal :=
  let s := { s with fresh := s.fresh + 1 }
  conclude (match s.nextFor core with
    | none => s
    | some l =>
      if l.id ≠ launch then s
      else match s.needKernel core l with
        | (s, false) => s
        | (s, true) =>
          let (id, s) := s.take
          let s := { s with wgs := s.wgs ++ [l.newWg id core] }
          let s := (s.holdGrid core l).enterBays id core l.rcd.rigs
          let s := (s.ageAll id core).useDie l.ctx.tag (dieOf core)
          let s := s.setLaunch launch fun l => { l with nextWg := l.nextWg + 1 }
          { s with marks := s.marks.filter fun m => !(m.launch == launch && l.nextWg + 1 == l.total) })

/-! WORKGROUP_COMPLETE. -/

/-- All threads of a workgroup have exited (R162). -/
def Workgroup.exited (w : Workgroup) : Bool := w.rigs.all fun q => q.threads.all fun t => !t.alive

/-- Held slices of a collective whose threads have all exited are dropped, with their tokens (R270). -/
def State.dropSlices (s : State) (wg : Nat) : State :=
  let s := (s.cmds.filter fun c => c.lane.wg == wg && c.held).foldl State.dropCmd s
  s.setWg wg fun w => { w with slices := [] }

/-- Whether a write of a workgroup, or of a command of it, has not passed its write-completion time at sys. -/
def State.writesPend (s : State) (w : Workgroup) : Bool :=
  s.stores.any (fun p => p.lane.wg == w.id && !p.place.loft) ||
    s.tracks.any fun t => (t.lane.map LaneRef.wg) == some w.id && !(s.trackDone .sys t)

/-- Whether operations of a workgroup are outstanding: loads and atomics, commands, ring blocks and credits, replay
entries (R162, R287), and the writes that its completion, a release at sys, waits for (R224). -/
def State.busy (s : State) (w : Workgroup) : Bool :=
  s.loads.any (fun p => p.lane.wg == w.id) || s.cmds.any (fun c => c.lane.wg == w.id) ||
    s.ringMsgs.any (fun m => m.lane.wg == w.id) || !w.listed.isEmpty || s.writesPend w

/-- Stores to the loft that are still on their way end with the loft (R162). -/
def State.dropLoftStores (s : State) (wg : Nat) : State :=
  { s with stores := s.stores.filter fun p => !(p.lane.wg == wg && p.place.loft) }

/-- WORKGROUP_COMPLETE (R162): every thread has exited and every counted operation has completed; the slots
are freed, and a workgroup that no cancel ended counts as completed (R322). -/
def execWorkgroupComplete (wg : Nat) (s : State) : Host.Outcome State Fault Refusal :=
  let s := s.sweep
  conclude (match s.wg? wg with
    | none => s
    | some w =>
      if !w.exited || w.phase != .running then s
      else
        let s := s.dropSlices wg
        if s.busy w then s
        else
          let s := (s.dropLoftStores wg).leaveBays wg w.core
          let s := { s with wgs := s.wgs.filter fun v => v.id != wg }
          let s := s.tidy w.core
          if w.ended then s else s.setLaunch w.launch fun l => { l with wgdone := l.wgdone + 1 })

/-! PREEMPT. -/

/-- The victims of a launch on a core: launches of its function with a lower PRIO that hold workgroups
there (R325). -/
def State.victims (s : State) (l : Launch) (c : Nat) : List Launch :=
  s.launches.filter fun v =>
    v.vf == l.vf && decide (v.rcd.prio < l.rcd.prio) && (s.resident c).any fun w => w.launch == v.id

/-- Room for a launch on a core once its victims have drained (R325). -/
def State.roomAfter (s : State) (l : Launch) (c : Nat) : Nat :=
  let out := (s.victims l c).map Launch.id
  let left := (s.resident c).filter fun w => !(out.contains w.launch)
  let swapped := (s.wgs.filter fun w => w.core == c && w.phase == .swapped).map Workgroup.launch
  s.room l left ((s.core c).grids.filter fun g => !(out.contains g) || swapped.contains g)

/-- Whether a core qualifies for a mark (R325). -/
def State.qualifies (s : State) (l : Launch) (c : Nat) : Bool :=
  s.coreOpen c && s.serves l.vf (clusterOf c) && !(s.victims l c).isEmpty && decide (0 < s.roomAfter l c)

/-- The highest PRIO among the victims on a core. -/
def State.victimPrio (s : State) (l : Launch) (c : Nat) : Nat :=
  (s.victims l c).foldl (fun n v => max n v.rcd.prio) 0

/-- The qualifying cores, the lowest victim PRIO first, then the lower core. -/
def State.markOrder (s : State) (l : Launch) : List Nat :=
  (List.range 8).flatMap fun p =>
    (List.range Config.cores).filter fun c => s.qualifies l c && s.victimPrio l c == p

/-- Mark cores until they can together hold what is left of a launch. -/
def State.markCores (s : State) (l : Launch) : List Nat → Nat → List Mark → List Mark
  | [], _, ms => ms
  | c :: r, left, ms =>
    if left = 0 then ms
    else s.markCores l r (left - s.roomAfter l c) (ms ++ [⟨c, l.id, (s.victims l c).map Launch.id⟩])

/-- PREEMPT (R325): a ready launch with workgroups that no core can take marks cores. -/
def execPreempt (launch : Nat) (s : State) : Host.Outcome State Fault Refusal :=
  conclude (match s.launch? launch with
    | none => s
    | some l =>
      if !(s.placeable l) || (List.range Config.cores).any fun c => s.takes c l then s
      else
        let mine := s.marks.filter fun m => m.launch == launch
        let have' := mine.foldl (fun n m => n + s.roomAfter l m.core) 0
        let more := (s.markOrder l).filter fun c => !(mine.any fun m => m.core == c)
        { s with marks := s.marks ++ s.markCores l more (l.total - l.nextWg - have') [] })

end Sys2Proof.Machine
end

