-- ==== Sys2Proof/Machine/Recovery.lean ====
section
/-! DEFINITION. Snapshots and rollbacks of replayable launches (R345, R347), and errors in the memory and in
a core's storage (R343, R344). -/

namespace Sys2Proof.Machine

/-! SNAPSHOT. -/

/-- What the snapshot logic finds in the regions of a launch. -/
inductive Pages where
  /-- The leaf pages: virtual page, the entry that stands for it, size. -/
  | ok (ps : List (Nat × Nat × Nat))
  | huge
  | held
  deriving DecidableEq, Repr

/-- The leaf pages that meet [va, stop); `fuel` bounds them. The walks read table lines (R353). -/
def State.regionPages (s : State) (ctx : CtxCopy) (stop : Nat) :
    Nat → Nat → List (Nat × Nat × Nat) → State × Pages
  | 0, _, acc => (s, .ok acc)
  | fuel + 1, va, acc =>
    if stop ≤ va ∨ 2 ^ 48 ≤ va then (s, .ok acc)
    else
      let w := walkAll s ctx (.l2 0) 0 va
      let s := s.noteWalk ctx.tag w.2
      match w.1 with
      | .held => (s, .held)
      | .absent _ _ => State.regionPages s ctx stop fuel ((va / 4096 + 1) * 4096) acc
      | .malformed => State.regionPages s ctx stop fuel ((va / 4096 + 1) * 4096) acc
      | .leaf e pa level _ _ _ =>
        if level = 2 then (s, .huge)
        else
          let n := pageBytes level e
          let p := (va / n * n, pageKey e pa, n)
          State.regionPages s ctx stop fuel ((va / n + 1) * n)
            (if acc.any fun q => q.2.1 == p.2.1 then acc else acc ++ [p])

/-- The leaf pages that meet the regions of a launch (R345). -/
def State.snapPages (s : State) (ctx : CtxCopy) : List (Nat × Nat) → List (Nat × Nat × Nat) → State × Pages
  | [], acc => (s, .ok acc)
  | r :: rest, acc =>
    match s.regionPages ctx (r.1 + r.2) (r.2 / 4096 + 1) r.1 acc with
    | (s, .ok acc) => State.snapPages s ctx rest acc
    | (s, .huge) => (s, .huge)
    | (s, .held) => (s, .held)

/-- Protect one page: W ← 0 where it is 1, the page listed and its frame marked. A page with W = 0 is listed
only if the launch's own list held it before a replay (R345, R347). -/
def State.protectPage (s : State) (old : List SnapPage) (acc : List SnapPage × List Nat)
    (p : Nat × Nat × Nat) : State × List SnapPage × List Nat :=
  let e := s.read64 p.2.1
  if pteW e then
    let id := s.serial
    let s := s.leafStore p.2.1 fun _ e => setBits e 1 1 0
    (s, acc.1 ++ [⟨p.1, p.2.1, p.2.2, pteFrame e, none, false⟩], acc.2 ++ [id])
  else
    match old.find? fun q => q.leafPa == p.2.1 with
    | some q => (s, acc.1 ++ [{ q with rewritten := false }], acc.2)
    | none => (s, acc.1, acc.2)

/-- A place for a launch's snapshot list in the frame pool of its function, in place of the one it has (R345). -/
def State.snapPlace (s : State) (l : Launch) (pages : Nat) : Option (Nat × State) :=
  let s := match l.snapAt with
    | some a => s.poolFree l.vf a
    | none => s
  s.poolAlloc l.vf (Config.snapBytes pages) 8

/-- SNAPSHOT (R345): a ready replayable launch protects its regions; its first placement waits for the stores,
on a replay also for those of the rollback (DEDUCED, log entry 21). The list lies in the frame pool.
A 1 GiB leaf makes it unreplayable, and so does a pool without room for the list (log entry 9). -/
def execSnapshot (launch : Nat) (s : State) : Host.Outcome State Fault Refusal :=
  conclude (match s.launch? launch with
    | none => s
    | some l =>
      if l.stage != .snapshotting then s
      else
        let direct (s : State) : State := (s.unreplay launch).setLaunch launch fun l => { l with stage := .running }
        match s.snapPages l.ctx l.regions [] with
        | (s, .held) => s
        | (s, .huge) => direct s
        | (s, .ok ps) =>
          match s.snapPlace l ps.length with
          | none => direct s
          | some (a, s) =>
            let (s, list, tracks) := ps.foldl (fun (a : State × List SnapPage × List Nat) p =>
              a.1.protectPage l.snap a.2 p) (s, [], [])
            let s := s.setLaunch launch fun l =>
              { l with snap := list, snapAt := some a, snapTracks := l.snapTracks ++ tracks, stage := .running }
            { s with snapMarks := (s.snapMarks.filter fun m => m.2 != launch) ++ list.map fun p => (p.frame, launch) })

/-! ROLLBACK. -/

/-- Whether nothing of a launch is left on a core or in flight, so that no access of it is bound to a
translation (R347). -/
def State.drained (s : State) (lid : Nat) : Bool :=
  !(s.wgs.any fun w => w.launch == lid) && !(s.cmds.any fun c => c.launch == lid) &&
    !(s.loads.any fun p => p.launch == lid) && !(s.stores.any fun p => p.launch == lid) &&
    !(s.ringMsgs.any fun m => m.launch == lid)

/-- A protected page of another list whose frame a rollback has replaced: it is the copy that its leaf names now. -/
def SnapPage.moved (leafPa frame : Nat) (p : SnapPage) : SnapPage :=
  if p.leafPa == leafPa && p.copy.isNone then { p with frame := frame } else p

/-- Restore one protected page: its leaf names the copy, write-protected, and the replaced frame returns to
the pool (R347). Other lists that protect the page, and their marks, follow it (R346). The store is named, since the
replay's placement waits for it. -/
def State.restorePage (s : State) (vf : Nat) (p : SnapPage) : State × SnapPage × List Nat :=
  match p.copy with
  | none => (s, p, [])
  | some c =>
    let old := pteFrame (s.read64 p.leafPa)
    let id := s.serial
    let s := s.leafStore p.leafPa fun i e => setBits (setBits e 12 40 (c / 4096 + i)) 1 1 0
    let s : State := { s with
      snapMarks := s.snapMarks.map fun m => if m.1 == old then (c, m.2) else m
      launches := s.launches.map fun l => { l with snap := l.snap.map (SnapPage.moved p.leafPa c) } }
    (s.poolReturn vf old p.size, { p with frame := c, copy := none, rewritten := false }, [id])

/-- The shape fields of a record as the queue entry holds them: with PART = 0 they come from the image again. -/
def Launch.asTaken (l : Launch) : LaunchRec :=
  let f := recFields (leNat l.raw)
  { l.rcd with part := f.part, nreg := f.nreg, nacc := f.nacc, loftb := f.loftb }

/-- The admission order at the head of a launch's queue. -/
def State.headOrder (s : State) (l : Launch) : Nat :=
  ((s.launches.filter fun k => k.vf == l.vf && k.rcd.queue == l.rcd.queue).map Launch.order).foldl min l.order

/-- Put a launch at the head of its queue: it goes before the others of its order (R324, R329). -/
def State.requeue (s : State) (lid : Nat) : State :=
  match s.launch? lid with
  | none => s
  | some l =>
    { s with launches := { l with order := s.headOrder l } :: s.launches.filter fun k => k.id != lid }

/-- ROLLBACK (R347): a launch whose work has stopped gets its pages back and is admitted again at the head of
its queue. -/
def execRollback (launch : Nat) (s : State) : Host.Outcome State Fault Refusal :=
  let s := { s with fresh := s.fresh + 1 }.sweep
  conclude (match s.launch? launch with
    | none => s
    | some l =>
      match l.rollback with
      | none => s
      | some counted =>
        if !(s.drained launch) then s
        else
          let (s, list, tracks) := l.snap.foldl (fun (a : State × List SnapPage × List Nat) p =>
            let r := a.1.restorePage l.vf p
            (r.1, a.2.1 ++ [r.2.1], a.2.2 ++ r.2.2)) (s, [], [])
          let s := s.setLaunch launch fun l =>
            { l with
              snap := list, snapTracks := tracks, rcd := l.asTaken, nextWg := 0, wgdone := 0, noPlace := false
              hard := false, rollback := none, rollbacks := l.rollbacks + (if counted then 1 else 0)
              stage := .admitting, watches := [], admitted := s.time }
          ({ s with marks := s.marks.filter fun m => m.launch != launch }.requeue launch).runAdmission launch)

/-! Errors (R343, R344). -/

/-- Poison a sector where the error is: in the memory of its home, or in one of the caches that hold a copy of its
line, which one is a free choice (log entry 101). -/
def State.poisonSector (s : State) (pa : Nat) : State :=
  let held := s.copies.filter fun c => c.line == pa / 128
  match held[Config.freeChoice s.fresh pa % (held.length + 1)]? with
  | some k =>
    { s with copies := s.copies.map fun c =>
        if c.holder == k.holder && c.line == k.line && !(c.bad.contains (pa / 32)) then { c with bad := c.bad ++ [pa / 32] }
        else c }
  | none => { s with poison := Map.set false s.poison (pa / 32) true }

/-- UNCORRECTABLE_ERROR (R344): an uncorrectable ECC error in HBM or in a cache poisons a sector and is reported. -/
def execUncorrectableError (pa : Nat) (s : State) : Host.Outcome State Fault Refusal :=
  let s := { s with fresh := s.fresh + 1 }
  conclude (if region pa ≠ 0 ∨ Config.localBytes ≤ pa then s else (s.poisonSector pa).notifyPf 0x14 pa)

/-- SRAM_UNCORRECTABLE_ERROR (R343): an uncorrectable soft error in a workgroup's registers, temporaries,
loft, tile sets or row state is consumed by its launch. -/
def execSramUncorrectableError (wg : Nat) (s : State) : Host.Outcome State Fault Refusal :=
  conclude (match s.wg? wg with
    | none => s
    | some w => if w.phase == .swapped then s else s.consume w.launch)

end Sys2Proof.Machine
end

