-- ==== Sys2Proof/Machine/Loss.lean ====
section
/-! DEFINITION. Containment: kills of contexts (R354), dead dies (R352), fenced sharers (R351), slices and their
takeover (R304), dead links (R241, R242), and the ageing monitor (R339, R340). -/

namespace Sys2Proof.Machine

/-! Kills. -/

/-- The kill of a context generation begins (R354): no workgroup of it is placed any more, its work stops as
under a hard cancel, and its snapshots are discarded with their copies. Its launches end with CONTAINED, whatever they
would have reported. -/
def State.startKill (s : State) (tag : CtxTag) : State :=
  if s.kills.contains tag then s
  else
    let mine := s.launches.filter fun l => l.ctx.tag == tag
    let s := mine.foldl (fun s l =>
      (l.snap.filterMap SnapPage.copy ++ l.snapAt.toList).foldl (fun s a => s.poolFree l.vf a) s) s
    let ids := mine.map Launch.id
    { s with
      kills := s.kills ++ [tag]
      snapMarks := s.snapMarks.filter fun m => !(ids.contains m.2)
      launches := s.launches.map fun l =>
        if l.ctx.tag == tag then
          { l with
            status := .contained, noPlace := true, hard := true, repl := false, rollback := none, snap := []
            snapAt := none, snapTracks := [] }
        else l }

/-- Threads of a core that runs no more end at once. -/
def State.endCore (s : State) (c : Nat) : State :=
  let dead := (s.wgs.filter fun w => w.core == c && w.phase != .swapped).map Workgroup.id
  let last (w : Workgroup) : Workgroup := if dead.contains w.id then w.endThreads [] true true else w
  let s : State := { s with wgs := s.wgs.map last }
  s.setCore c fun k => { k with bays := k.bays.map fun (y : Bay) => y.strip fun _ => true }

/-- Every access of a core is dropped (R351). -/
def State.dropAccesses (s : State) (c : Nat) : State :=
  { s with
    loads := s.loads.filter fun p => p.core != c
    stores := s.stores.filter fun p => p.core != c }

/-- KILL (R354): every unit has acknowledged the drop: what is left of the context in queues, homes and links
is gone, no write of it is performed any more, and its launches end with CONTAINED. -/
def execKill (vf ctx gen : Nat) (s : State) : Host.Outcome State Fault Refusal :=
  let s := s.sweep
  let tag : CtxTag := ⟨vf, ctx, gen⟩
  let ids := (s.launches.filter fun l => l.ctx.tag == tag).map Launch.id
  let ws := s.wgs.filter fun w => ids.contains w.launch
  conclude (if !(s.kills.contains tag) || !(ws.all Workgroup.exited) then s
    else
      let s := { s with
        loads := s.loads.filter fun p => !(ids.contains p.launch)
        stores := s.stores.filter fun p => !(ids.contains p.launch)
        cmds := s.cmds.filter fun c => !(ids.contains c.launch)
        ringMsgs := s.ringMsgs.filter fun m => !(ids.contains m.launch)
        migReqs := s.migReqs.filter fun r => !(ids.contains r.launch) }
      let s := ws.foldl (fun s w => s.leaveBays w.id w.core) s
      let s := { s with wgs := s.wgs.filter fun w => !(ids.contains w.launch) }
      let s := (ws.map Workgroup.core).eraseDups.foldl State.tidy s
      let s : State := { s with
        kills := s.kills.filter fun k => k != tag
        launches := s.launches.map fun l => if ids.contains l.id then { l with status := .contained } else l }
      ids.foldl State.finishLaunch s)

/-! Dead dies (R352). -/

/-- The acknowledgements of some translation caches are given (R295). -/
def State.acked (s : State) (p : TInval → Bool) : State :=
  let ids := (s.tinvals.filter p).map TInval.id
  { s with
    tinvals := s.tinvals.filter fun v => !(p v)
    tracks := s.tracks.map fun t => { t with tpending := t.tpending.filter fun i => !(ids.contains i) } }

/-- Whether a translation cache belongs to a die. -/
def TUnit.onDie (u : TUnit) (die : Nat) : Bool :=
  match u with
  | .l1 k => dieOf k == die
  | .l2 d | .walk d => d == die
  | .relay _ => false

/-- Whether a data cache belongs to a die. -/
def Holder.onDie (h : Holder) (die : Nat) : Bool :=
  match h with
  | .l1 k => dieOf k == die
  | .l2 d => d == die

/-- The contexts that span a die are killed, each generation by its own mask (R353, R354). -/
def State.killSpanning (s : State) (die : Nat) : State :=
  (s.dieUse.filter fun u => bit u.mask die).foldl (fun s u => s.startKill u.tag) s

/-- A die is dead (R352): its cores and caches are gone, the share of its mirror is freed, and it is reported. It may be
the last that the others have waited for (R338). -/
def State.dieDies (s : State) (die : Nat) : State :=
  if ((s.dies[die]?).map fun d => d.state == .dead).getD true then s
  else
    let s := { s with
      dies := modifyAt s.dies die fun d => { d with state := .dead }
      dirty := s.dirty.filter fun m => dieOfPa (128 * m.line) != die
      copies := s.copies.filter fun c => !(c.holder.onDie die)
      tlb := s.tlb.filter fun t => !(t.unit.onDie die)
      invals := s.invals.filter fun v => !(v.holder.onDie die) }
    let s := s.acked fun v => v.unit.onDie die
    let mine := (List.range Config.cores).filter fun c => dieOf c == die
    let s := mine.foldl State.endCore (s.killSpanning die)
    (s.notifyPf 0x11 die).reachFull

/-- DIE_DEAD (R352): a bridge and a probe over the others give no response for 20 µs each. -/
def execDieDead (die : Nat) (s : State) : Host.Outcome State Fault Refusal := conclude (s.dieDies die)

/-- BLULYS_DECLARE_DEAD (R352). -/
def execBlulysDeclareDead (die : Nat) (s : State) : Host.Outcome State Fault Refusal :=
  conclude (s.dieDies die)

/-! Fenced sharers (R351). -/

/-- A core is fenced: its number stays unused, its accesses are dropped, and every context with a workgroup on
it, running or swapped from it, is killed. -/
def State.fenceCore (s : State) (c : Nat) : State :=
  let tags := (s.wgs.filter fun w => w.core == c).filterMap fun w => (s.launch? w.launch).map fun l => l.ctx.tag
  let s := tags.eraseDups.foldl State.startKill s
  let s := ((s.setCore c fun k => { k with fenced := true }).endCore c).dropAccesses c
  State.acked { s with
    copies := s.copies.filter fun q => q.holder != Holder.l1 c
    invals := s.invals.filter fun v => v.holder != Holder.l1 c
    tlb := s.tlb.filter fun t => t.unit != TUnit.l1 c } fun v => v.unit == TUnit.l1 c

/-- A relay ends refused: the job resumes on the source (R335, R343, R351). -/
def State.relayRefused (s : State) (e : Nat) : State :=
  match s.relays[e]? with
  | none => s
  | some r =>
    let s := { s with relays := modifyAt s.relays e fun r =>
      { r with phase := .done, refused := true, stream := [], phases := [] } }
    s.notify pfNumber (notifyRecord e 0 0 (bits r.rljob 0 32) (bits r.rljob 32 5) 0 4)

/-- SHARER_ACK_TIMEOUT (R295, R351): a translation sharer has not acknowledged within 100 µs (200,000 ticks);
the acknowledgement is given on its behalf. A cache that a whole die reads through is fenced with the cores
of the die (log entry 16). -/
def execSharerAckTimeout (id : Nat) (s : State) : Host.Outcome State Fault Refusal :=
  conclude (match s.tinvals.find? fun v => v.id == id with
    | none => s
    | some v =>
      if s.time < v.sent + 200000 then s
      else
        let s := { s with tlb := s.tlb.filter fun t => t.unit != v.unit }.acked fun q => q.unit == v.unit
        match v.unit with
        | .l1 c => s.fenceCore c
        | .l2 d | .walk d => ((List.range Config.cores).filter fun c => dieOf c == d).foldl State.fenceCore s
        | .relay e =>
          match (s.relays[e]?).map Relay.phase with
          | some .copying | some .draining | some .sent => s.relayRefused e
          | some .idle | some .done | none => s)

/-! Slices (R304). -/

/-- SLICE_NO_RESPONSE (R304): a slice silent for 20 µs is reported to its buddy. -/
def execSliceNoResponse (die slice : Nat) (s : State) : Host.Outcome State Fault Refusal :=
  conclude (if 4 ≤ die ∨ 48 ≤ slice ∨ s.sliceFaults.any (fun f => f.die == die && f.slice == slice) then s
    else { s with sliceFaults := s.sliceFaults ++ [⟨die, slice, false, s.time, none⟩] })

/-- The buddy of a die (R10). -/
def buddyOf (die : Nat) : Nat := if die % 2 = 0 then die + 1 else die - 1

/-- SLICE_TAKEOVER (R304, R351): the slice did not answer the buddy's probe within 20 µs (40,000 ticks); the
buddy fences it and becomes the home of its lines, with a blanket lease on them. A request that the slice had performed has
left the requester here with its response, and one that it had not performed is still under way: both are applied once
(log entry 102). A buddy that cannot take over makes the slice's die dead. -/
def execSliceTakeover (die slice : Nat) (s : State) : Host.Outcome State Fault Refusal :=
  conclude (match s.sliceFaults.find? fun f => f.die == die && f.slice == slice && !f.fenced with
    | none => s
    | some f =>
      if s.time < f.since + 40000 then s
      else
        let b := buddyOf die
        let able := ((s.dies[b]?).map fun d => d.state == .inService).getD false &&
          !(s.sliceFaults.any fun g => g.die == b && g.slice == slice)
        if able then
          let s : State := { s with sliceFaults := s.sliceFaults.map fun (g : SliceFault) =>
            if g.die == die && g.slice == slice then { g with fenced := true, blanket := some (s.time + 2048) } else g }
          s.notifyPf 0x12 (48 * die + slice)
        else s.dieDies die)

/-- TAKEOVER_LEASE_END (R304): 2,048 ticks after the takeover the blanket lease ends. The lines go on to have every
translation cache as a sharer. -/
def execTakeoverLeaseEnd (die slice : Nat) (s : State) : Host.Outcome State Fault Refusal :=
  conclude { s with sliceFaults := s.sliceFaults.map fun (g : SliceFault) =>
    if g.die == die && g.slice == slice then
      { g with blanket := g.blanket.bind fun t => if t ≤ s.time then none else some t }
    else g }

/-! Links (R241, R242, R274). -/

/-- The port that an access to a physical address crosses. -/
def portOfPa (pa : Nat) : Option Nat := if region pa = 1 then some (Config.portOf (bits pa 40 10)) else none

/-- An atomic whose response was lost with its link ends at that access (R242): its request was applied once (R241).
Where LOST has no record that can be written, its launch ends with INDETERMINATE, log entry 99. -/
def State.loseLoad (s : State) (p : PendingLoad) : State :=
  let s : State := { s with loads := s.loads.filter fun q => q.id != p.id }
  let s : State := match p.tok with
    | some k => (s.twins p.lane).foldl (fun (s : State) m => s.setThread m fun t => t.addTok k false) s
    | none => s
  match s.loseAtomic p.lane (.go p.place) with
  | (s, .go _) => s
  | (s, .trap _) => s.failLaunch p.launch .indeterminate 0 0
  | (s, .fault _ _ _) => s.failLaunch p.launch .indeterminate 0 0
  | (s, .held) => s.failLaunch p.launch .indeterminate 0 0

/-- A ring message lost on its link (R274): its command completes. -/
def State.loseMsg (s : State) (m : RingMsg) : State :=
  let s := { s with ringMsgs := s.ringMsgs.filter fun q => q.id != m.id }
  match s.cmds.find? fun c => c.id == m.cmd with
  | some c => s.dropCmd c
  | none => s

/-- LINK_DECLARED_DEAD (R241, R242, R274): after 64 retries or 100 µs. Which responses have come in time is a free
choice. -/
def execLinkDeclaredDead (port : Nat) (s : State) : Host.Outcome State Fault Refusal :=
  let s := { s with fresh := s.fresh + 1 }
  conclude (if s.deadLinks.contains port then s
    else
      let s := { s with deadLinks := s.deadLinks ++ [port] }
      let lost := s.loads.filter fun p =>
        p.atomic && portOfPa p.place.addr == some port && Config.freeChoice s.fresh p.id % 2 == 0
      let s := lost.foldl State.loseLoad s
      (s.ringMsgs.filter fun m => m.port == some port && !m.landed).foldl State.loseMsg s)

/-! Ageing (R339, R340). -/

/-- DRIFT of a measurement (R339). -/
def ageDrift (birth meas : Nat) : Nat := if birth ≤ meas then 0 else min 255 (1000 * (birth - meas) / birth)

/-- CAP after a measurement (R340). -/
def ageCap (old drift : Nat) : Nat :=
  let c := min old (76 - (drift - 10) / 5)
  if c < 60 then 0 else c

/-- AGEING_MEASURE (R339, R340): a corrected count of one window. -/
def execAgeingMeasure (cluster meas : Nat) (s : State) : Host.Outcome State Fault Refusal :=
  conclude (match s.age[cluster]? with
    | none => s
    | some a =>
      let m := meas % 2 ^ 16
      let d := ageDrift a.birth m
      let cap := ageCap a.cap d
      let s := { s with age := modifyAt s.age cluster fun a => { a with meas := m, drift := d, cap := cap } }
      if cap = a.cap then s else s.notifyPf 0x10 cluster)

end Sys2Proof.Machine
end

