-- ==== Sys2Proof/Machine/Coherence.lean ====
section
/-! DEFINITION. Invalidations of data lines and of translations (R295, R296, R301, R302), and the migration
arbiter with the host's migration registers (R309, R310). -/

namespace Sys2Proof.Machine

/-! Invalidations. -/

/-- Whether a cache holds a line by the grant that an invalidation names: the named holder, and behind an L2 slice the
L1s of its die that took the line from it by that time (R301, R302). -/
def Inval.names (v : Inval) (h : Holder) (line number start : Nat) : Bool :=
  line == v.line &&
    ((h == v.holder && number == v.number) ||
      match v.holder, h with
      | .l2 d, .l1 c => dieOf c == d && decide (start ≤ v.start)
      | .l2 _, .l2 _ | .l1 _, _ => false)

/-- INVALIDATION (R302): the holder drops its copy of the named grant, if it has that one, and acknowledges. -/
def execInvalidation (id : Nat) (s : State) : Host.Outcome State Fault Refusal :=
  conclude (match s.invals.find? fun v => v.id == id with
    | none => s
    | some v =>
      { s with
        invals := s.invals.filter fun q => q.id != id
        copies := s.copies.filter fun c => !(v.names c.holder c.line c.number c.start)
        grants := s.grants.filter fun g => !(v.names g.holder g.line g.number g.start) })

/-- Whether an access is bound to an entry that an invalidation makes its cache drop: it was on its way when the line
was stored to, or uses a translation that the tables no longer hold (R294, R295). -/
def State.boundTo (s : State) (v : TInval) : Bool :=
  let dep (id : Nat) (p : Place) : Bool :=
    !p.loft && p.units.contains v.unit && p.lines.contains v.line && (p.stale || decide (id < v.id))
  s.loads.any (fun q => q.served.isNone && dep q.id q.place) || s.stores.any (fun q => dep q.id q.place) ||
    s.cmds.any fun c => c.bound.any (dep c.id)

/-- TRANSLATION_INVALIDATION (R295, R296): the sharer drops what it derived from the line, waits until every
access bound to it is performed, and acknowledges. After a takeover every entry counts as derived (R304). -/
def execTranslationInvalidation (id : Nat) (s : State) : Host.Outcome State Fault Refusal :=
  conclude (match s.tinvals.find? fun v => v.id == id with
    | none => s
    | some v =>
      let s := { s with tlb := s.tlb.filter fun t => !(t.unit == v.unit && t.lines.contains v.line) }
      if s.boundTo v then s else s.acked fun q => q.id == id)

/-! The migration arbiter (R309). -/

/-- 256 µs in ticks. -/
def holdTicks : Nat := 512000

/-- The answers of the arbiter, with their codes in MIGRSP (R310). -/
inductive Answer where
  | go
  | remote
  | busy
  deriving DecidableEq, Repr

def Answer.code : Answer → Nat
  | .go => 1
  | .remote => 2
  | .busy => 3

/-- The arbiter's decision on a page asked for by a side, for a virtual function, at a time, and the entry that it then
has. -/
def decideMove (e : Option ArbEntry) (frame : Nat) (host : Bool) (vf t : Nat) : Answer × ArbEntry :=
  match e with
  | none => (.go, ⟨frame, host, vf, none, none, false, []⟩)
  | some e =>
    if e.hostWon = host then (.go, e)
    else if host then
      (.remote, if ((e.holdHost.map fun h => decide (t < h)).getD false) then e else { e with holdHost := some (t + holdTicks) })
    else
      (.remote, if ((e.holdDev.map fun h => decide (t < h)).getD false) then e else { e with holdDev := some (t + holdTicks) })

/-- Put an entry of the arbiter. -/
def State.setArb (s : State) (e : ArbEntry) : State :=
  if s.arb.any fun a => a.frame == e.frame then
    { s with arb := s.arb.map fun a => if a.frame == e.frame then e else a }
  else { s with arb := s.arb ++ [e] }

/-- The entry is freed once the move is done and every hold has ended. -/
def State.freeArb (s : State) (frame : Nat) : State :=
  { s with arb := s.arb.filter fun e =>
    !(e.frame == frame && e.moved && e.holdHost.isNone && e.holdDev.isNone) }

/-- The leaf that REMOTE stores over a migratable entry: V ← 1, CLASS ← uncached, and MIG is zero, without
which no walk admits the leaf (R292, log entry 17). -/
def remoteLeaf (e : Nat) : Nat := setBits (setBits (setBits e 0 1 1) 3 2 3) 54 1 0

/-- REMOTE to the device: the faulting entry, if it still is the migratable one, maps the page where it lies. -/
def State.mapRemote (s : State) (frame entryPa : Nat) : State :=
  let old := s.read64 entryPa
  if pteV old || !(pteMig old) || pteFrame old != frame then s
  else
    let new := remoteLeaf old
    let s := s.pteStore entryPa new
    { s with arb := s.arb.map fun a =>
      if a.frame == frame then { a with remote := a.remote ++ [(entryPa, new, old)] } else a }

/-- GO to the device: a record for the host's migration service, once per entry (R309, R312). -/
def State.sendGo (s : State) (r : MigReq) (fresh : Bool) : State :=
  match s.launch? r.launch with
  | none => s
  | some l =>
    if fresh then s.notify l.vf (notifyRecord r.frame l.rcd.ident r.wgid l.rcd.job l.rcd.ctx 0 2) else s

/-- Decide a device request. -/
def State.decideDev (s : State) (r : MigReq) : State :=
  let old := s.arb.find? fun a => a.frame == r.frame
  let vf := ((s.launch? r.launch).map Launch.vf).getD 0
  let s := { s with migReqs := s.migReqs.filter fun q => q.id != r.id }
  match decideMove old r.frame false vf r.time with
  | (.remote, e) => (s.setArb e).mapRemote r.frame r.entryPa
  | (.go, e) => (s.setArb e).sendGo r old.isNone
  | (.busy, _) => s

/-- Whether a request for a page without an entry finds one: an entry is free, and no request waits for it. -/
def State.arbOpen (s : State) : Bool :=
  decide (s.arb.length < Config.arbiterEntries) && !(s.migReqs.any MigReq.waiting)

/-- The first waiting request, among those that `p` picks. -/
def State.firstWaiting (s : State) (id : Nat) (p : MigReq → Bool) : Bool :=
  ((s.migReqs.find? fun q => q.waiting && p q).map fun q => q.id == id).getD false

/-- MIGRATION_REQUEST (R309): a device request arrives and is decided; while every entry is in use one for a
new page waits, and waiting requests are decided in the order of their arrival, those for a page that has an entry by
now at once. -/
def execMigrationRequest (id : Nat) (s : State) : Host.Outcome State Fault Refusal :=
  conclude (match s.migReqs.find? fun r => r.id == id with
    | none => s
    | some r =>
      let known := s.arb.any fun a => a.frame == r.frame
      let full := decide (Config.arbiterEntries ≤ s.arb.length)
      let place := decide ((s.migReqs.filter MigReq.waiting).length < Config.arbiterWaiting)
      if r.waiting then
        if (known && s.firstWaiting id fun q => q.frame == r.frame) || (!full && s.firstWaiting id fun _ => true) then
          s.decideDev r
        else s
      else if known || s.arbOpen then s.decideDev { r with time := s.time }
      else if place then
        { s with migReqs := (s.migReqs.filter fun q => q.id != id) ++ [{ r with waiting := true, time := s.time }] }
      else s)

/-- MIGRATION_HOLD_EXPIRY (R309): a hold ends; at the end of the device's, each entry that still holds the
arbiter's value goes back to its migratable form. -/
def execMigrationHoldExpiry (frame : Nat) (host : Bool) (s : State) : Host.Outcome State Fault Refusal :=
  conclude (match s.arb.find? fun a => a.frame == frame with
    | none => s
    | some e =>
      let past (h : Option Nat) : Bool := (h.map fun t => decide (t ≤ s.time)).getD false
      if host then
        if past e.holdHost then (s.setArb { e with holdHost := none }).freeArb frame else s
      else if past e.holdDev then
        let s := e.remote.foldl (fun s r =>
          if eraseAD (s.read64 r.1) = eraseAD r.2.1 then s.pteStore r.1 r.2.2 else s) s
        (s.setArb { e with holdDev := none, remote := [] }).freeArb frame
      else s)

/-- The frame that a migration register names: [51:12] (R310). -/
def frameField (frame : Nat) : Nat := bits frame 12 40 * 4096

/-- MIGREQ_REQUEST (R309, R310): the host asks for a page; its reply waits in MIGRSP. A request that finds every
entry in use, or the free ones waited for, is not recorded. -/
def execMigreqRequest (vf frame : Nat) (s : State) : Host.Outcome State Fault Refusal :=
  let g := frameField frame
  let old := s.arb.find? fun a => a.frame == g
  conclude (if 32 ≤ vf then s
    else
      let reply (s : State) (a : Answer) : State := s.setVf vf fun f => { f with migrsp := f.migrsp ++ [(g, a.code)] }
      if old.isNone && !s.arbOpen then reply s .busy
      else
        let (a, e) := decideMove old g true vf s.time
        reply (s.setArb e) a)

/-- MIGREQ_MOVE_DONE (R309, R310): the winner's side reports the move done, through the register of the function that
asked; the entry is freed once no hold stands. -/
def execMigreqMoveDone (vf frame : Nat) (s : State) : Host.Outcome State Fault Refusal :=
  let g := frameField frame
  let done (a : ArbEntry) : ArbEntry := if a.frame == g && a.vf == vf then { a with moved := true } else a
  conclude (if 32 ≤ vf then s else { s with arb := s.arb.map done }.freeArb g)

/-- MIGRSP (R310): the reply to the oldest unread request, its frame and its code, or zero. -/
def State.migrspReg (s : State) (v : Nat) : Nat :=
  match (s.vf v).migrsp with
  | [] => 0
  | r :: _ => r.1 + r.2

/-- MIGRSP_READ (R310): the oldest unread reply is read: the register gives `State.migrspReg`, and the next reply
follows. -/
def execMigrspRead (vf : Nat) (s : State) : Host.Outcome State Fault Refusal :=
  conclude (s.setVf vf fun f => { f with migrsp := f.migrsp.drop 1 })

end Sys2Proof.Machine
end

