-- ==== Sys2Proof/Machine/Copy.lean ====
section
/-! DEFINITION. The copy engine: descriptors, CPY, CPYT, CPYC, CPYG, CPYS, the channels and CHWP (R265 to
R273). -/

namespace Sys2Proof.Machine

/-! The descriptor (R265), as the number of its 128 bytes. -/

def Cmd.dsc (c : Cmd) (lo n : Nat) : Nat := bits (leNat c.desc) lo n

def Cmd.dSrc (c : Cmd) : Nat := c.dsc 0 64
def Cmd.dDst (c : Cmd) : Nat := c.dsc 64 64
def Cmd.dChan (c : Cmd) : Nat := c.dsc 128 4
def Cmd.dSsp (c : Cmd) : Bool := c.dsc 133 1 == 1
def Cmd.dDsp (c : Cmd) : Bool := c.dsc 134 1 == 1
def Cmd.dEtype (c : Cmd) : Nat := c.dsc 135 4
def Cmd.dNdim (c : Cmd) : Nat := c.dsc 139 4
def Cmd.dSside (c : Cmd) : Bool := c.dsc 143 1 == 1
def Cmd.dColl (c : Cmd) : Nat := c.dsc 144 4
def Cmd.dSlc (c : Cmd) : Nat := c.dsc 148 4
def Cmd.dFill (c : Cmd) : Nat := c.dsc 160 32
def Cmd.dExt (c : Cmd) (d : Nat) : Nat := c.dsc (192 + 16 * d) 16
def Cmd.dStr (c : Cmd) (d : Nat) : Int := if d = 0 then 0 else toInt true 32 (c.dsc (384 + 32 * (d - 1)) 32)
def Cmd.dLimit (c : Cmd) : Nat := c.dsc 736 32
def Cmd.dLen (c : Cmd) : Nat := c.dsc 192 64
def Cmd.dIdx (c : Cmd) : Nat := c.dsc 192 64
def Cmd.dCount (c : Cmd) : Nat := c.dsc 256 32
def Cmd.dRowb (c : Cmd) : Nat := c.dsc 288 32
def Cmd.dRstr (c : Cmd) : Nat := c.dsc 320 32

/-- A field of CONV (R268). -/
def Cmd.conv (c : Cmd) (lo n : Nat) : Nat := c.dsc (768 + lo) n

/-- The element width in bytes (R266). -/
def Cmd.dWidth (c : Cmd) : Nat :=
  match Ty.ofCode? c.dEtype with
  | some ty => ty.bits / 8
  | none => 1

/-- The kinds of copies (R267 to R270). -/
inductive CopyKind where
  | bytes
  | tensor
  | conv
  | slice
  | gather
  | scatter
  deriving DecidableEq, Repr

def Cmd.kind (c : Cmd) : CopyKind :=
  match c.instr with
  | .cpyt _ v _ _ => if v then .conv else .tensor
  | .cpyc _ _ _ => .slice
  | .cpyg _ _ _ => .gather
  | .cpys _ _ _ => .scatter
  | _ => .bytes

def CopyKind.isTensor : CopyKind → Bool
  | .tensor | .conv | .slice => true
  | .bytes | .gather | .scatter => false
def CopyKind.isRows : CopyKind → Bool
  | .gather | .scatter => true
  | .bytes | .tensor | .conv | .slice => false

/-- What makes a descriptor misused (R266, R268). -/
def Cmd.descBad (c : Cmd) : Bool :=
  let k := c.kind
  let nd := c.dNdim
  let shape :=
    if k.isTensor then
      decide (11 < nd) || (List.range 12).any fun d => decide (nd < d) && (c.dExt d != 0 || c.dStr d != 0)
    else nd != 0 || c.dsc 384 352 != 0 || (if k.isRows then c.dsc 352 32 != 0 else c.dsc 256 128 != 0)
  c.dsc 132 1 != 0 || c.dsc 152 8 != 0 || decide (13 ≤ c.dEtype) || shape ||
    (k.isRows && c.dRowb % c.dWidth != 0) ||
    (!k.isRows && c.dLimit != 0) ||
    (k != .gather && k != .conv && c.dFill != 0) ||
    (!k.isTensor && c.dSside) ||
    (k != .slice && (c.dColl != 0 || c.dSlc != 0)) ||
    (if k = .conv then
      nd != 3 || c.dSside || c.conv 192 64 != 0 || c.conv 80 16 == 0 || c.conv 64 16 == 0 ||
        c.conv 112 16 == 0 || c.conv 96 16 == 0
    else c.dsc 768 256 != 0)

/-- The alignments of R266 and R269: CPY and CPYC have none. -/
def Cmd.descAlign (c : Cmd) : List (Bool × TrapInfo) :=
  let e := c.dWidth
  let bases := [misaligned c.dSrc e, misaligned c.dDst e]
  match c.kind with
  | .bytes | .slice => []
  | .tensor | .conv => bases ++ (List.range c.dNdim).map fun d => misaligned (wrapInt 64 (c.dStr (d + 1))) e
  | .gather | .scatter => bases ++ [misaligned c.dRstr e, misaligned c.dIdx 4]

/-- A signed range of the loft that a copy can touch, below b (R266). -/
def rangeBeyond (b : Nat) (loft : Bool) (lo hi : Int) : Bool × TrapInfo :=
  (loft && decide (lo < hi) && decide (lo < 0 ∨ (b : Int) < hi), .of causeLOFTB (wrapInt 32 lo))

/-- Elements of a tensor copy. -/
def Cmd.elements (c : Cmd) : Nat := ((List.range (c.dNdim + 1)).map c.dExt).foldl (· * ·) 1

/-- The lowest and highest byte offsets of the strided side. -/
def Cmd.strideLow (c : Cmd) : Int :=
  ((List.range c.dNdim).map fun d => min 0 (((c.dExt (d + 1) : Int) - 1) * c.dStr (d + 1))).foldl (· + ·) 0
def Cmd.strideHigh (c : Cmd) : Int :=
  ((List.range c.dNdim).map fun d => max 0 (((c.dExt (d + 1) : Int) - 1) * c.dStr (d + 1))).foldl (· + ·)
    (c.dExt 0 * c.dWidth : Nat)

/-- Units of a copy: bytes, elements or rows (R272). -/
def Cmd.copyTotal (c : Cmd) : Nat :=
  match c.kind with
  | .bytes => c.dLen
  | .tensor | .slice => c.elements
  | .conv => c.conv 160 32
  | .gather | .scatter => c.dCount

/-- Bytes of a unit. -/
def Cmd.unitBytes (c : Cmd) : Nat :=
  match c.kind with
  | .bytes => 1
  | .tensor | .slice => c.dWidth
  | .conv => c.dExt 0 * c.dWidth
  | .gather | .scatter => c.dRowb

/-- The loft ranges of R266. -/
def Cmd.descRanges (c : Cmd) (b : Nat) : List (Bool × TrapInfo) :=
  let n : Int := (c.copyTotal * c.unitBytes : Nat)
  let src : Int := c.dSrc
  let dst : Int := c.dDst
  match c.kind with
  | .bytes => [rangeBeyond b c.dSsp src (src + n), rangeBeyond b c.dDsp dst (dst + n)]
  | .tensor | .slice =>
    if c.elements = 0 then []
    else if c.dSside then
      [rangeBeyond b c.dSsp src (src + n), rangeBeyond b c.dDsp (dst + c.strideLow) (dst + c.strideHigh)]
    else [rangeBeyond b c.dSsp (src + c.strideLow) (src + c.strideHigh), rangeBeyond b c.dDsp dst (dst + n)]
  | .conv =>
    (if c.elements = 0 ∨ c.copyTotal = 0 then []
     else [rangeBeyond b c.dSsp (src + c.strideLow) (src + c.strideHigh)]) ++ [rangeBeyond b c.dDsp dst (dst + n)]
  | .gather =>
    [rangeBeyond b c.dDsp dst (dst + n)] ++
      (if c.dLimit = 0 then []
       else [rangeBeyond b c.dSsp src (src + ((c.dLimit - 1) * c.dRstr + c.dRowb : Nat))])
  | .scatter =>
    [rangeBeyond b c.dSsp src (src + n)] ++
      (if c.dLimit = 0 then []
       else [rangeBeyond b c.dDsp dst (dst + ((c.dLimit - 1) * c.dRstr + c.dRowb : Nat))])

/-! Acceptance (R245, R266, R270). -/

/-- The descriptor's alignment (R266). -/
def copyCheck (_s : State) (c : Cmd) : Option TrapInfo := firstTrap [misaligned (c.pair 0) 128]

/-- Check 8 of a copy: its descriptor is read as a plain read of the leader and checked. -/
def copyAccept (s : State) (c : Cmd) : State × Acc Cmd :=
  let r := s.engRead c false (c.pair 0) 128
  accThen (r.1, r.2.acc) fun s d =>
    let c := { c with desc := d }
    let c := { c with target := c.dChan, held := c.kind == .slice }
    let b := (s.limits c.lane.wg).2.2
    let other := ((s.wg? c.lane.wg).map fun w => w.slices.any fun x => x.coll == c.dColl && x.slc != c.dSlc).getD false
    match firstTrap ([(c.descBad || (c.kind == .slice && other), .of causeOBJMIS (c.pair 0))] ++ c.descAlign ++
        c.descRanges b) with
    | some i => (s, .trap i)
    | none => (s, .ok c)

def copyOp : EngineOp := { check := copyCheck, accept := copyAccept }

/-- Insertion of a slice in rig order. -/
def insertSlice (x : Slice) : List Slice → List Slice
  | [] => [x]
  | y :: r => if x.rig < y.rig then x :: y :: r else y :: insertSlice x r

/-- Start a collective (R270): its slices go in rig order to the end of the channel of the last one. -/
def State.startCollective (s : State) (c : Cmd) (slices : List Slice) : State :=
  let mine (d : Cmd) : Bool := slices.any fun x => x.cmd == d.id
  let order := (slices.foldr insertSlice []).filterMap fun x => s.cmds.find? fun d => d.id == x.cmd
  { s with cmds := (s.cmds.filter fun d => !(mine d)) ++
      order.map fun d => { d with held := false, target := c.dChan } }

/-- An accepted slice of a collective is held; the slice that completes the number starts it (R270). -/
def sliceAfter (s : State) (c : Cmd) : State :=
  let slice : Slice := ⟨c.dColl, c.lane.rig, c.id, c.dSlc⟩
  let held := (((s.wg? c.lane.wg).map Workgroup.slices).getD []).filter fun x => x.coll == c.dColl
  if held.length = c.dSlc then
    (s.setWg c.lane.wg fun w => { w with slices := w.slices.filter fun x => x.coll != c.dColl }).startCollective c
      (held ++ [slice])
  else s.setWg c.lane.wg fun w => { w with slices := w.slices ++ [slice] }

def sliceOp : EngineOp := { check := copyCheck, accept := copyAccept, after := sliceAfter }

/-! Performance (R267 to R272). -/

/-- Move bytes within one sector on each side, from global memory to global memory: a bad source sector
leaves the destination sector poisoned (R343). -/
def State.moveSector (s : State) (c : Cmd) (src dst n : Nat) : State × Eng Unit :=
  engThen (s.engTranslate c .read src) fun s p =>
    let bad := !(s.badSectors p.addr n).isEmpty
    s.engWrite c false bad dst (s.homeRead p.addr n)

/-- Move bytes sector by sector; `fuel` bounds the pieces. -/
def State.moveSectors (s : State) (c : Cmd) : Nat → Nat → Nat → Nat → State × Eng Unit
  | 0, _, _, _ => (s, .ok ())
  | fuel + 1, src, dst, len =>
    if len = 0 then (s, .ok ())
    else
      let n := min len (min (32 - src % 32) (32 - dst % 32))
      engThen (s.moveSector c src dst n) fun s _ => State.moveSectors s c fuel (src + n) (dst + n) (len - n)

/-- Write what a read of the bytes at `src` has come to: everything is translated before anything is written; a bad
source is consumed on its way into the loft, and leaves poison in global memory (R246, R343). -/
def moveRead (c : Cmd) (src : Nat) (dsp : Bool) (dst len : Nat) (r : State × Eng (List Byte × Bool)) :
    State × Eng Unit :=
  engThen r fun s r =>
    if r.2 && !dsp then
      engThen (s.engCheck c false .write dst len) fun s _ => s.moveSectors c (2 * len) src dst len
    else if r.2 then (s, .bad)
    else s.engWrite c dsp false dst r.1

/-- Move a run of bytes. -/
def State.moveBytes (s : State) (c : Cmd) (ssp : Bool) (src : Nat) (dsp : Bool) (dst len : Nat) :
    State × Eng Unit :=
  moveRead c src dsp dst len (s.engPeek c ssp false src len)

/-- The index along each dimension of element `p`, dimension 0 fastest (R267). -/
def Cmd.strided (c : Cmd) (p : Nat) : Int :=
  ((List.range (c.dNdim + 1)).foldl (fun (acc : Int × Nat) d =>
    let e := acc.2 % c.dExt d
    (acc.1 + (e : Int) * (if d = 0 then (c.dWidth : Int) else c.dStr d), acc.2 / c.dExt d)) (0, p)).1

/-- A row of fill elements (R265). -/
def Cmd.fillRow (c : Cmd) (elems : Nat) : List Byte :=
  (List.range elems).flatMap fun _ => leBytes c.dWidth c.dFill

/-- Row `r` of a convolution gather: the source of its pixel, or none for fill (R268). -/
def Cmd.convPixel (c : Cmd) (r : Nat) : Option Nat :=
  let p := c.conv 128 32 + r
  let ow := c.conv 112 16
  let oh := c.conv 96 16
  let n := p / (oh * ow)
  let q := p % (oh * ow)
  let y : Int := (q / ow * c.conv 64 16 : Nat) + toInt true 16 (c.conv 0 16) - (c.conv 32 16 : Nat)
  let x : Int := (q % ow * c.conv 80 16 : Nat) + toInt true 16 (c.conv 16 16) - (c.conv 48 16 : Nat)
  if c.dExt 3 ≤ n ∨ y < 0 ∨ (c.dExt 2 : Int) ≤ y ∨ x < 0 ∨ (c.dExt 1 : Int) ≤ x then none
  else some (wrapInt 64 ((c.dSrc : Int) + x * c.dStr 1 + y * c.dStr 2 + (n : Int) * c.dStr 3))

/-- Perform the next unit of a copy, or of CPY up to `left` bytes within a page on both sides: the units
done. -/
def State.copyUnit (s : State) (c : Cmd) (left : Nat) : State × Eng Nat :=
  let p := c.progress
  let e := c.dWidth
  let one (r : State × Eng Unit) : State × Eng Nat := engThen r fun s _ => (s, .ok 1)
  match c.kind with
  | .bytes =>
    let src := (c.dSrc + p) % 2 ^ 64
    let dst := (c.dDst + p) % 2 ^ 64
    let n := min (min left (c.dLen - p)) (min (4096 - src % 4096) (4096 - dst % 4096))
    engThen (s.moveBytes c c.dSsp src c.dDsp dst n) fun s _ => (s, .ok n)
  | .tensor | .slice =>
    let o := c.strided p
    let src := if c.dSside then c.dSrc + p * e else wrapInt 64 ((c.dSrc : Int) + o)
    let dst := if c.dSside then wrapInt 64 ((c.dDst : Int) + o) else c.dDst + p * e
    one (s.moveBytes c c.dSsp (src % 2 ^ 64) c.dDsp (dst % 2 ^ 64) e)
  | .conv =>
    let dst := (c.dDst + p * c.unitBytes) % 2 ^ 64
    match c.convPixel p with
    | some src => one (s.moveBytes c c.dSsp src c.dDsp dst c.unitBytes)
    | none => one (s.engWrite c c.dDsp false dst (c.fillRow (c.dExt 0)))
  | .gather =>
    engThen (s.engRead c false (c.dIdx + 4 * p) 4) fun s d =>
      let i := leNat d
      let dst := (c.dDst + p * c.dRowb) % 2 ^ 64
      if i < c.dLimit then one (s.moveBytes c c.dSsp ((c.dSrc + i * c.dRstr) % 2 ^ 64) c.dDsp dst c.dRowb)
      else one (s.engWrite c c.dDsp false dst (c.fillRow (c.dRowb / e)))
  | .scatter =>
    engThen (s.engRead c false (c.dIdx + 4 * p) 4) fun s d =>
      let i := leNat d
      let src := (c.dSrc + p * c.dRowb) % 2 ^ 64
      if i < c.dLimit then one (s.moveBytes c c.dSsp src c.dDsp ((c.dDst + i * c.dRstr) % 2 ^ 64) c.dRowb)
      else (s, .ok 1)

/-- Perform units one after another (R272): the state, the command, and how it stopped. -/
def State.copyUnits (s : State) (c : Cmd) : Nat → Nat → State × Cmd × Eng Unit
  | 0, _ => (s, c, .ok ())
  | fuel + 1, left =>
    if left = 0 ∨ c.copyTotal ≤ c.progress then (s, c, .ok ())
    else
      match s.copyUnit c left with
      | (s, .ok n) =>
        let c' := { c with progress := c.progress + n }
        State.copyUnits (s.setCmd c') c' fuel (left - n)
      | (s, .fault va k e pa) => (s, c, .fault va k e pa)
      | (s, .deny va) => (s, c, .deny va)
      | (s, .held) => (s, c, .held)
      | (s, .bad) => (s, c, .bad)

/-! Channels (R272). -/

/-- Whether a command is performed on a channel: an RNGRCV until its block is delivered (R274). -/
def Cmd.onChannel (c : Cmd) : Bool :=
  c.engine == .copy && !c.held &&
    match c.instr with
    | .rngsnd _ _ _ _ => false
    | .rngrcv _ _ _ _ => decide (c.progress < c.dsc 224 32)
    | _ => true

/-- Whether a command is the next of its channel. -/
def State.isHead (s : State) (c : Cmd) : Bool :=
  ((s.cmds.find? fun d => d.onChannel && d.lane.wg == c.lane.wg && d.target == c.target).map
    fun d => d.id == c.id).getD false

/-- The write pointer of a channel advances (R272). -/
def State.advance (s : State) (wg chan n : Nat) : State :=
  (s.setWg wg fun w =>
    { w with chans := Map.set 0#32 w.chans chan (Map.get 0#32 w.chans chan + BitVec.ofNat 32 n) }).noteWakes wg

/-- A chunk is in place: the pointer counts it, and it lands (R200, R272). -/
def State.delivered (s : State) (c : Cmd) (n : Nat) : State :=
  if n = 0 then s else ((s.advance c.lane.wg c.target n).countCmd c 0x30 n).landCmd c n

/-- Deliver a chunk of up to `count` units of a copy (R272), with the units whose writes have been on their way before.
A tensor copy with a zero extent completes at once (R267); any other waits for the earlier commands of its channel. -/
def State.copyDeliver (s : State) (c : Cmd) (count : Nat) : State :=
  if c.elements = 0 ∧ c.kind.isTensor then s.finishCmd c
  else if !(s.isHead c) then s
  else if c.copyTotal = 0 then s.finishCmd c
  else
    let (s, c', r) := (s.setCmd c.caughtUp).copyUnits c.caughtUp count count
    let s := s.delivered c' ((c'.progress - c.progress) * c'.unitBytes)
    match r with
    | .ok _ => if c'.copyTotal ≤ c'.progress then s.finishCmd c' else s
    | e => s.engineFail c' e

/-- Send out the writes of up to `count` more units of a copy, ahead of their delivery (R210). -/
def State.copyAhead (s : State) (c : Cmd) (count : Nat) : State :=
  let (s, c', r) := s.copyUnits { c.caughtUp with spread := true } count count
  let s := s.setCmd { c with ahead := c'.progress - c.progress }
  match r with
  | .ok _ => s
  | e => s.engineFail c e

/-! The meanings. -/

/-- CPY (R267). -/
def execCpy (gd : Guard) (cmp : Completion) (a : Opnd) (s : State) : Host.Outcome State Fault Refusal :=
  engineSlot (.cpy gd cmp a) gd (fun _ => true) copyOp s

/-- CPYT, and CPYT.CONV (R267, R268). -/
def execCpyt (gd : Guard) (conv : Bool) (cmp : Completion) (a : Opnd) (s : State) :
    Host.Outcome State Fault Refusal :=
  engineSlot (.cpyt gd conv cmp a) gd (fun _ => true) copyOp s

/-- CPYC (R270). -/
def execCpyc (gd : Guard) (cmp : Completion) (a : Opnd) (s : State) : Host.Outcome State Fault Refusal :=
  engineSlot (.cpyc gd cmp a) gd (fun _ => true) sliceOp s

/-- CPYG (R269). -/
def execCpyg (gd : Guard) (cmp : Completion) (a : Opnd) (s : State) : Host.Outcome State Fault Refusal :=
  engineSlot (.cpyg gd cmp a) gd (fun _ => true) copyOp s

/-- CPYS (R269). -/
def execCpys (gd : Guard) (cmp : Completion) (a : Opnd) (s : State) : Host.Outcome State Fault Refusal :=
  engineSlot (.cpys gd cmp a) gd (fun _ => true) copyOp s

/-- CHWP (R273): a channel number above 15 in any lane strikes the slot. -/
def execChwp (gd : Guard) (d a : Opnd) (s : State) : Host.Outcome State Fault Refusal :=
  issue (.chwp gd d a) gd s fun s ls =>
    let s := s.taint ls [d, a]
    let chan (l : LaneRef) : Nat := ((s.env l).src (s.thread l) a).toNat
    if ls.any fun l => decide (15 < chan l) then s.strikeAll ls (.of causeILLOPD 0)
    else
      let v (l : LaneRef) : Word := ((s.wg? l.wg).map fun w => Map.get 0#32 w.chans (chan l)).getD 0#32
      s.mapLanes ls fun e t => e.put t d (v e.lane)

end Sys2Proof.Machine
end

