-- ==== Sys2Proof/Machine/Ring.lean ====
section
/-! DEFINITION. Rings: RNGSND, RNGRCV, the blocks and credits on their way (R274, R286 to R289). -/

namespace Sys2Proof.Machine

/-! The level record (R286), as the number of its 128 bytes. -/

def ringNext (r : Nat) : Nat := bits r 0 64
def ringPrev (r : Nat) : Nat := bits r 64 64
def ringPool (r : Nat) : Nat := bits r 128 64
def ringSlots (r : Nat) : Nat := bits r 192 16
def ringAllow (r : Nat) : Nat := bits r 208 16
def ringBlksz (r : Nat) : Nat := bits r 224 32
def ringDchan (r : Nat) : Nat := bits r 256 4
def ringCchan (r : Nat) : Nat := bits r 260 4
def ringSent (r : Nat) : Nat := bits r 288 32
def ringCredits (r : Nat) : Nat := bits r 320 32
def ringArrived (r : Nat) : Nat := bits r 352 32
def ringReceived (r : Nat) : Nat := bits r 384 32
def ringOwnl (r : Nat) : Nat := bits r 448 32
def ringOwnwg (r : Nat) : Nat := bits r 480 32

/-- Byte offsets of the counters. -/
def ofsSent : Nat := 36
def ofsCredits : Nat := 40
def ofsArrived : Nat := 44
def ofsReceived : Nat := 48
def ofsDrops : Nat := 52

/-- The fields of a record in their ranges (R286, R287). -/
def ringFormBad (r : Nat) : Bool :=
  bits r 264 24 != 0 || bits r 512 512 != 0 || decide (ringSlots r < 1) ||
    decide (ringAllow r < 1 ∨ ringSlots r < ringAllow r) ||
    ringBlksz r % 64 != 0 || decide (ringBlksz r < 64 ∨ 1048576 < ringBlksz r) || ringPool r % 64 != 0

/-- Whether a ring command works between packages. -/
def Cmd.ringPkg (c : Cmd) : Bool :=
  match c.instr with
  | .rngsnd _ p _ _ | .rngrcv _ p _ _ => p
  | _ => false

/-- The address of its level record (R286). -/
def Cmd.ringRecord (c : Cmd) : Nat := c.pair 0 + (if c.ringPkg then 128 else 0)

/-- The record as read at acceptance. -/
def Cmd.ringRec (c : Cmd) : Nat := leNat c.desc

/-- Checks 4 and 5 of a ring command (R274, R287). -/
def ringCheck (_s : State) (c : Cmd) : Option TrapInfo :=
  firstTrap [(bits (c.w 4) 1 31 != 0 || !(c.zeroFrom 5), .of causeOBJMIS 0), misaligned (c.pair 0) 256]

/-- Whether the home of a member's record lies outside the package. -/
def State.outside (s : State) (c : Cmd) (va : Nat) : State × Acc Bool :=
  let r := s.engTranslate c .any va
  accThen (r.1, r.2.acc) fun s p => (s, .ok (region p.addr != 0))

/-- Read and check the level record (R287): it must name the issuing workgroup, and its neighbours must lie
where its level says; the buffer lies below b. -/
def ringRead (s : State) (c : Cmd) : State × Acc Cmd :=
  let va := c.ringRecord
  let r := s.engRead c false va 128
  accThen (r.1, r.2.acc) fun s d =>
    let c := { c with desc := d }
    let f := c.ringRec
    let own := match s.wg? c.lane.wg, s.launch? c.launch with
      | some w, some k => ringOwnl f == k.rcd.ident && ringOwnwg f == w.wgid
      | _, _ => false
    if ringFormBad f || !own then (s, .trap (.of causeOBJMIS va))
    else
      accThen (s.outside c (ringNext f)) fun s n =>
        accThen (s.outside c (ringPrev f)) fun s p =>
          if n ≠ c.ringPkg ∨ p ≠ c.ringPkg then (s, .trap (.of causeOBJMIS va))
          else
            match firstTrap [beyondLoft (s.limits c.lane.wg).2.2 (bit (c.w 4) 0) (c.pair 2) 0 1 (ringBlksz f)] with
            | some i => (s, .trap i)
            | none => (s, .ok c)

/-- Add one to a counter of a record, at its atomic home (R287). -/
def State.ringBump (s : State) (c : Cmd) (va : Nat) : State × Eng Nat :=
  s.engUpdate c va 4 fun v => (v + 1) % 2 ^ 32

/-- Acceptance of RNGSND: a send beyond the allowance is dropped (`target` = 1); else SENT rises and the
slot is kept in `set`. -/
def rngsndAccept (s : State) (c : Cmd) : State × Acc Cmd :=
  accThen (ringRead s c) fun s c =>
    let f := c.ringRec
    if ringAllow f ≤ (ringSent f + 2 ^ 32 - ringCredits f) % 2 ^ 32 then
      let r := s.ringBump c (c.ringRecord + ofsDrops)
      accThen (r.1, r.2.acc) fun s _ => (s, .ok { c with target := 1 })
    else
      let r := s.ringBump c (c.ringRecord + ofsSent)
      accThen (r.1, r.2.acc) fun s _ => (s, .ok { c with target := 0, set := ringSent f % ringSlots f })

/-- A dropped send completes with nothing sent. -/
def rngsndAfter (s : State) (c : Cmd) : State := if c.target = 1 then s.finishCmd c else s

/-- Acceptance of RNGRCV: its read of ARRIVED is an acquire (R287). Without an unread block it is misuse; else RECEIVED
rises, the slot is kept in `set`, and the channel is the data channel. -/
def rngrcvAccept (s : State) (c : Cmd) : State × Acc Cmd :=
  accThen (ringRead s c) fun s c =>
    let f := c.ringRec
    if ringReceived f = ringArrived f then (s, .trap (.of causeOBJMIS c.ringRecord))
    else
      let r := engThen (s.engAcquire c (c.ringRecord + ofsArrived) 4) fun s a =>
        engThen (s.ringBump c (c.ringRecord + ofsReceived)) fun s _ => (s, .ok a.2)
      accThen (r.1, r.2.acc) fun s pub =>
        (s, .ok { c with set := ringReceived f % ringSlots f, target := ringDchan f, pub := pub })

def rngsndOp : EngineOp := { check := ringCheck, accept := rngsndAccept, after := rngsndAfter }
def rngrcvOp : EngineOp := { check := ringCheck, accept := rngrcvAccept }

/-- RNGSND (R274). -/
def execRngsnd (gd : Guard) (pkg : Bool) (tok : BitVec 3) (a : Opnd) (s : State) :
    Host.Outcome State Fault Refusal :=
  engineSlot (.rngsnd gd pkg tok a) gd (fun _ => true) rngsndOp s

/-- RNGRCV (R274). -/
def execRngrcv (gd : Guard) (pkg : Bool) (cmp : Completion) (a : Opnd) (s : State) :
    Host.Outcome State Fault Refusal :=
  engineSlot (.rngrcv gd pkg cmp a) gd (fun _ => true) rngrcvOp s

/-! Performance of a send. -/

/-- The Gugar port that an access to a virtual address crosses (R12, R241). -/
def State.linkOf (s : State) (c : Cmd) (va : Nat) : Option Nat :=
  match s.launch? c.launch with
  | none => none
  | some l =>
    match walk s l.ctx (dieOf c.core) va with
    | .leaf e _ _ _ _ _ =>
      if region (pteFrame e) = 1 then some (Config.portOf (bits (pteFrame e) 40 10)) else none
    | .absent _ _ => none
    | .malformed => none
    | .held => none

/-- Whether an earlier send on the same record has not read its buffer yet: blocks go out in order. -/
def State.sendBehind (s : State) (c : Cmd) : Bool :=
  (s.cmds.takeWhile fun d => d.id != c.id).any fun d =>
    d.lane.wg == c.lane.wg && d.engine == .copy && d.ringRecord == c.ringRecord && d.progress == 0 &&
      match d.instr with
      | .rngsnd _ _ _ _ => true
      | _ => false

/-- Perform a RNGSND: the block is read from BUF and sets out for the next member's pool. The command
completes when the block has arrived; behind a dead link nothing arrives, and it completes now. -/
def State.rngsndPerform (s : State) (c : Cmd) : State × Eng Bool :=
  if c.progress ≠ 0 ∨ s.sendBehind c then (s, .ok false)
  else
    let f := c.ringRec
    let n := ringBlksz f / 32
    engThen (engAll (fun s i => s.engPeek c (bit (c.w 4) 0) false (c.pair 2 + 32 * i) 32) s (List.range n)) fun s ps =>
      engThen (s.engTranslate c .any (ringNext f)) fun s home =>
        if s.deadLink home.addr then (s, .ok true)
        else
          engThen (s.engRead c false (ringNext f + 16) 8) fun s d =>
            let (id, s) := s.take
            let bad := (List.range n).filter fun i => ((ps[i]?).map Prod.snd).getD false
            let msg : RingMsg :=
              { id := id, credit := false, lane := c.lane, launch := c.launch, core := c.core, perm := c.perm
                record := ringNext f, pool := (leNat d + c.set * ringBlksz f) % 2 ^ 64
                data := ps.flatMap Prod.fst, bad := bad, landed := false, blksz := ringBlksz f
                cmd := c.id, pkg := c.ringPkg, port := s.linkOf c (ringNext f) }
            (({ s with ringMsgs := s.ringMsgs ++ [msg] }).setCmd { c with progress := 1 }, .ok false)

/-! Performance of a receive, on its data channel. -/

/-- Move up to `left` bytes of a block from its slot to BUF; a slot without a translation is an engine
fault (R274). -/
def State.rcvUnit (s : State) (c : Cmd) (left : Nat) : State × Eng Nat :=
  let f := c.ringRec
  let src := (ringPool f + c.set * ringBlksz f + c.progress) % 2 ^ 64
  let dst := (c.pair 2 + c.progress) % 2 ^ 64
  let n := min (min left (ringBlksz f - c.progress)) (min (4096 - src % 4096) (4096 - dst % 4096))
  let read := match s.engPeek c false false src n with
    | (s, .fault va _ _ _) => (s, .deny va)
    | r => r
  engThen (moveRead c src (bit (c.w 4) 0) dst n read) fun s _ => (s, .ok n)

/-- Move bytes of a block one run after another. -/
def State.rcvUnits (s : State) (c : Cmd) : Nat → Nat → State × Cmd × Eng Unit
  | 0, _ => (s, c, .ok ())
  | fuel + 1, left =>
    if left = 0 ∨ ringBlksz c.ringRec ≤ c.progress then (s, c, .ok ())
    else
      match s.rcvUnit c left with
      | (s, .ok n) =>
        let c' := { c with progress := c.progress + n }
        State.rcvUnits (s.setCmd c') c' fuel (left - n)
      | (s, .fault va k e pa) => (s, c, .fault va k e pa)
      | (s, .deny va) => (s, c, .deny va)
      | (s, .held) => (s, c, .held)
      | (s, .bad) => (s, c, .bad)

/-- The credit of a slot whose last byte has been read sets out for the previous member (R274); behind a dead link
nothing arrives, and the command completes now. -/
def State.sendCredit (s : State) (c : Cmd) : State :=
  let f := c.ringRec
  let port := s.linkOf c (ringPrev f)
  if port.any s.deadLinks.contains then s.finishCmd c
  else
    let (id, s) := s.take
    { s with ringMsgs := s.ringMsgs ++
        [{ id := id, credit := true, lane := c.lane, launch := c.launch, core := c.core, perm := c.perm
           record := ringPrev f, pool := 0, data := [], bad := [], landed := false, blksz := ringBlksz f
           cmd := c.id, pkg := c.ringPkg, port := port }] }

/-- Deliver up to `count` bytes of a RNGRCV (R274). The command completes once its credit has been applied, which is an
access of it (R207). -/
def State.rcvDeliver (s : State) (c : Cmd) (count : Nat) : State :=
  if !(s.isHead c) then s
  else
    let (s, c', r) := (s.setCmd c.caughtUp).rcvUnits c.caughtUp count count
    let s := s.delivered c' (c'.progress - c.progress)
    match r with
    | .ok _ => if ringBlksz c'.ringRec ≤ c'.progress then s.sendCredit c' else s
    | e => s.engineFail c' e

/-- Send out the writes of up to `count` more bytes of a RNGRCV, ahead of their delivery (R210). -/
def State.rcvAhead (s : State) (c : Cmd) (count : Nat) : State :=
  let (s, c', r) := s.rcvUnits { c.caughtUp with spread := true } count count
  let s := s.setCmd { c with ahead := c'.progress - c.progress }
  match r with
  | .ok _ => s
  | e => s.engineFail c e

/-! Arrivals (R287, R288). -/

/-- The command, as far as translation needs it, that stands behind a message. -/
def RingMsg.asCmd (m : RingMsg) : Cmd :=
  { id := m.cmd, instr := .rngsnd ⟨7#3, false⟩ m.pkg 0#3 (.c 0#6), engine := .copy, lane := m.lane, lanes := []
    launch := m.launch, core := m.core, perm := m.perm, block := [], perLane := [], desc := [], chain := []
    set := 0, target := 0, tok := none, bar := none, progress := 0, stopped := false, held := false, cycle := 0
    tainted := false, landed := 0, ahead := 0, adds := [], spread := false, pub := 0, early := [] }

/-- A message is gone. -/
def State.dropMsg (s : State) (m : RingMsg) : State :=
  { s with ringMsgs := s.ringMsgs.filter fun x => x.id != m.id }

/-- The command behind a message. -/
def State.senderOf (s : State) (m : RingMsg) : Option Cmd := s.cmds.find? fun d => d.id == m.cmd

/-- The command that sent a block or a credit completes, if it is still there. -/
def State.finishSender (s : State) (m : RingMsg) : State :=
  match s.senderOf m with
  | some c => s.finishCmd c
  | none => s

/-- A ring access that fails ends the launch with ENGINE FAULT; one of the pool without a translation too (R274). -/
def State.ringFail (s : State) (m : RingMsg) {α : Type} : Eng α → State
  | .ok _ => s
  | .fault va _ _ _ => ((s.dropMsg m).finishSender m).failLaunch m.launch .engineFault 0 va
  | .deny va => ((s.dropMsg m).finishSender m).failLaunch m.launch .engineFault 0 va
  | .held => s
  | .bad => ((s.dropMsg m).finishSender m).consume m.launch

/-- An access to a record that fails: one whose page is not present stops the command, whose message waits with it
(R246). -/
def State.recordFail (s : State) (m : RingMsg) {α : Type} : Eng α → State
  | .fault va k e pa =>
    match s.senderOf m with
    | some c => (s.stopCmd c).stopFault m.lane.wg va k e pa
    | none => s.dropMsg m
  | e => s.ringFail m e

/-- Whether a message waits with its command, which has stopped (R246). -/
def State.msgWaits (s : State) (m : RingMsg) : Bool := ((s.senderOf m).map Cmd.stopped).getD false

/-- Advance a channel of the workgroup of a function that a launch identity and a number name, wherever it lies; an
advance for one that is not placed is discarded (R288). -/
def State.advanceNamed (s : State) (vf ident wgid chan n : Nat) : State :=
  match s.wgs.find? fun w => w.wgid == wgid &&
      ((s.launch? w.launch).map fun k => k.rcd.ident == ident && k.vf == vf).getD false with
  | some w => s.advance w.id chan n
  | none => s

/-- The pointer advance of a message (R288); that of one between packages goes to a workgroup of the other
package. -/
def State.ringAdvance (s : State) (m : RingMsg) (f chan : Nat) : State :=
  if m.pkg then s
  else s.advanceNamed (((s.launch? m.launch).map Launch.vf).getD 0) (ringOwnl f) (ringOwnwg f) chan m.blksz

/-- Write a block into the pool, piece by piece; everything is translated first. With `spread`, its writes set out. -/
def State.blockWrite (s : State) (m : RingMsg) (spread : Bool := false) : State × Eng Unit :=
  let c := { m.asCmd with spread := spread }
  engThen (s.engCheck c false .write m.pool m.data.length) fun s _ =>
    engThen (engAll (fun s i =>
      s.engWrite c false (m.bad.contains i) (m.pool + 32 * i) ((m.data.drop (32 * i)).take 32)) s
      (List.range (m.data.length / 32))) fun s _ => (s, .ok ())

/-- Whether a block is the next of its record (R274). -/
def State.blockTurn (s : State) (m : RingMsg) : Bool :=
  !(s.ringMsgs.any fun x => !x.credit && x.record == m.record && decide (x.id < m.id))

/-- A block lands in the pool. -/
def State.blockLand (s : State) (m : RingMsg) (spread : Bool) : State :=
  match s.blockWrite m spread with
  | (s, .ok _) => { s with ringMsgs := s.ringMsgs.map fun x => if x.id == m.id then { x with landed := true } else x }
  | (s, e) => s.ringFail m e

/-- The writes of the block that a RNGSND has read set out for the pool (R210). -/
def State.blockAhead (s : State) (c : Cmd) : State :=
  match s.ringMsgs.find? fun m => m.cmd == c.id && !m.credit && !m.landed with
  | some m => if s.blockTurn m then s.blockLand m true else s
  | none => s

/-- Whether the block is performed, and the writes of a message's rig have passed their write-completion times at the
scope of its level (R287). -/
def State.blockReleased (s : State) (m : RingMsg) : Bool :=
  let sc := if m.pkg then Scope.dom else Scope.dev
  (s.writesOf m.cmd).isEmpty &&
    s.tracks.all fun t => t.lane != some ⟨m.lane.wg, m.lane.rig, engineLane⟩ || s.trackDone sc t

/-- The block is in the pool and released: ARRIVED rises, the data pointer advances, and the sending command
completes. -/
def State.blockDone (s : State) (m : RingMsg) : State :=
  let c := m.asCmd
  match engThen (s.ringBump c (m.record + ofsArrived)) fun s _ => s.engRead c false m.record 128 with
  | (s, .ok d) => ((s.ringAdvance m (leNat d) (ringDchan (leNat d))).dropMsg m).finishSender m
  | (s, e) => s.recordFail m e

/-- RING_BLOCK_ARRIVE (R274, R287): a block lands in the pool, blocks of one record in order; once its bytes
are released, ARRIVED rises. -/
def execRingBlockArrive (id : Nat) (s : State) : Host.Outcome State Fault Refusal :=
  let s := { s with fresh := s.fresh + 1 }
  conclude (match s.ringMsgs.find? fun m => m.id == id && !m.credit with
    | none => s
    | some m =>
      if !(s.blockTurn m) || s.msgWaits m then s
      else if m.landed then (if s.blockReleased m then s.blockDone m else s)
      else s.blockLand m false)

/-- RING_CREDIT_RETURN (R274, R287): the sender's CREDITS rises, its credit pointer advances, and the RNGRCV
completes. -/
def execRingCreditReturn (id : Nat) (s : State) : Host.Outcome State Fault Refusal :=
  let s := { s with fresh := s.fresh + 1 }
  conclude (match s.ringMsgs.find? fun m => m.id == id && m.credit with
    | none => s
    | some m =>
      if s.msgWaits m then s
      else
        let c := m.asCmd
        match engThen (s.ringBump c (m.record + ofsCredits)) fun s _ => s.engRead c false m.record 128 with
        | (s, .ok d) => ((s.ringAdvance m (leNat d) (ringCchan (leNat d))).dropMsg m).finishSender m
        | (s, e) => s.recordFail m e)

end Sys2Proof.Machine
end

