-- ==== Sys2Proof/Machine/Command.lean ====
section
/-! DEFINITION. The events of engine commands: a place for a stopped command, performance with completion, and
the delivery of copies (R244 to R247, R272). -/

namespace Sys2Proof.Machine

/-- Whether a command can be performed: it has its place, its collective has started, no earlier command of
its order stands before it, and its workgroup is on its core (R244, R246, R270). -/
def State.canPerform (s : State) (c : Cmd) : Bool :=
  !c.stopped && !c.held && s.isFirst c &&
    ((s.wg? c.lane.wg).map fun w => w.phase != .swapped).getD false

/-- Perform a command: up to a number of units of one that has several, and true when it is complete. -/
def State.performCmd (s : State) (c : Cmd) (units : Nat) : State × Eng Bool :=
  match c.instr with
  | .mma _ _ _ _ _ | .mma16 _ _ _ _ _ => s.mmaRun c units
  | .mzero _ _ _ => s.mzeroPerform c
  | .att _ _ _ _ _ _ => s.attPerform c
  | .attfin _ _ d _ => s.attfinPerform c d.gnum
  | .latw _ _ _ => s.latwPerform c units
  | .kvlook _ _ d _ => s.kvlookPerform c d.gnum
  | .kvapp _ _ _ => s.kvappPerform c units
  | .kvfork _ _ _ => s.kvforkPerform c
  | .kvcommit _ _ _ => s.kvcommitPerform c
  | .topk _ _ _ => s.topkPerform c
  | .rngsnd _ _ _ _ => s.rngsndPerform c
  | _ => (s, .ok false)

/-- A command sends writes of up to a free number of its units out, to be performed each at a moment of its own (R210);
one that writes nothing, or nothing more, does nothing here. -/
def State.sendAhead (s : State) (c : Cmd) (units : Nat) : State :=
  let perform (s : State) : State :=
    match s.performCmd { c with spread := true } units with
    | (s, .ok _) => s
    | (s, e) => s.engineFail c e
  match c.instr with
  | .kvapp _ _ _ | .att _ _ _ _ _ _ => perform (s.countDie c.launch)
  | .kvfork _ _ _ | .topk _ _ _ => if c.ahead = 0 then perform (s.countDie c.launch) else s
  | .rngsnd _ _ _ _ => (s.countDie c.launch).blockAhead c
  | .cpy _ _ _ | .cpyt _ _ _ _ | .cpyc _ _ _ | .cpyg _ _ _ | .cpys _ _ _ => (s.countDie c.launch).copyAhead c units
  | .rngrcv _ _ _ _ => (s.countDie c.launch).rcvAhead c units
  | _ => s

/-- A command makes accesses with which its others have no order (R210): it reads a run of bytes ahead, or sends writes
out. Log entry 96. -/
def State.aside (s : State) (c : Cmd) : State :=
  if Config.freeChoice s.fresh 3 % 2 = 0 then s.readAhead c else s.sendAhead c (Config.freeChoice s.fresh 4)

/-- Whether the writes that a command has sent out have all been performed, now at the latest. -/
def State.caughtCmd (s : State) (c : Cmd) : State × Bool :=
  let s := s.settleCmd c.id
  (s, (s.writesOf c.id).isEmpty)

/-- COMMAND_COMPLETE (R244): an engine performs a command, and completes it when nothing of it is left; a
page fault stops it at its restart point, and a failed check ends its launch (R246). With no units, it makes some of the
command's accesses aside from the others (R210). -/
def execCommandComplete (id units : Nat) (s : State) : Host.Outcome State Fault Refusal :=
  let s := { s with fresh := s.fresh + 1 }
  conclude (match s.cmds.find? fun c => c.id == id with
    | none => s
    | some c =>
      if !(s.canPerform c) then s
      else if units = 0 then (if c.engine == .copy && c.onChannel then s else s.aside c)
      else match s.caughtCmd c with
        | (s, false) => s
        | (s, true) =>
          match (s.countDie c.launch).performCmd c units with
          | (s, .ok done) => if done then s.finishCmd c else s
          | (s, e) => s.engineFail c e)

/-- COPY_CHUNK_DELIVER (R272): a channel delivers a chunk of up to `count` bytes, elements or rows; with none, its
next command makes some of its accesses aside from the others (R210). -/
def execCopyChunkDeliver (id count : Nat) (s : State) : Host.Outcome State Fault Refusal :=
  let s := { s with fresh := s.fresh + 1 }
  conclude (match s.cmds.find? fun c => c.id == id with
    | none => s
    | some c =>
      if !(s.canPerform c) then s
      else if count = 0 then (if s.isHead c then s.aside c else s)
      else match s.caughtCmd c with
        | (s, false) => s
        | (s, true) =>
          match c.instr with
          | .cpy _ _ _ | .cpyt _ _ _ _ | .cpyc _ _ _ | .cpyg _ _ _ | .cpys _ _ _ => (s.countDie c.launch).copyDeliver c count
          | .rngrcv _ _ _ _ => (s.countDie c.launch).rcvDeliver c count
          | _ => s)

/-- A restored workgroup runs once its replay list is empty and every stopped command of it has its place
(R246, R305). -/
def State.goOn (s : State) (wg : Nat) : State :=
  let list := ((s.wg? wg).map Workgroup.listed).getD []
  if !list.isEmpty || s.cmds.any fun c => c.lane.wg == wg && c.stopped then s
  else s.setWg wg fun w => { w with phase := if w.phase == .resuming then .running else w.phase }

/-- COMMAND_ACCEPT (R246): a command that stopped takes a place in its engine again, in the order in which
the commands of its workgroup were accepted. The acceptance of a new command is part of its slot (R244). -/
def execCommandAccept (id : Nat) (s : State) : Host.Outcome State Fault Refusal :=
  conclude (match s.cmds.find? fun c => c.id == id with
    | none => s
    | some c =>
      let back := ((s.wg? c.lane.wg).map fun w => w.phase == .resuming && w.listed.isEmpty).getD false
      let behind := (s.cmds.takeWhile fun d => d.id != id).any fun d =>
        d.lane.wg == c.lane.wg && d.engine == c.engine && d.stopped
      if c.stopped && back && !behind && s.engineRoom c.core c.engine then
        (s.setCmd { c with stopped := false }).goOn c.lane.wg
      else s)

end Sys2Proof.Machine
end

