-- ==== Sys2Proof/Machine/Service.lean ====
section
/-! DEFINITION. Time slices of the clusters and the world switch (R328, R329), and the counters that follow it
(R331, R332). -/

namespace Sys2Proof.Machine

/-! Service records (R313, R328): dword 8v + i of SVC is dword i of function v. -/

def State.svc (s : State) (v i : Nat) : Nat := (Map.get 0#64 s.pf.svc (8 * v + i)).toNat

def State.clmask (s : State) (v : Nat) : Nat := bits (s.svc v 0) 0 24

/-- SLICE and BUDGET in µs. -/
def State.sliceUs (s : State) (v : Nat) : Nat := bits (s.svc v 1) 0 32
def State.budgetUs (s : State) (v : Nat) : Nat := bits (s.svc v 2) 0 32

/-- Ticks of a microsecond (R17). -/
def usTicks : Nat := 2000

/-- Whether a cluster may serve a function. -/
def State.mayServe (s : State) (v cluster : Nat) : Bool :=
  bit (s.clmask v) cluster && decide (0 < s.sliceUs v)

/-- Whether a function has a ready launch, or a workgroup swapped from a core of the cluster (R328). -/
def State.hasWork (s : State) (v cluster : Nat) : Bool :=
  s.launches.any (fun l => l.vf == v && (l.stage == .running || l.stage == .snapshotting)) ||
    s.wgs.any fun w => w.phase == .swapped && clusterOf w.core == cluster &&
      ((s.launch? w.launch).map fun l => l.vf == v).getD false

/-- The function that a cluster serves after `v`: ascending numbers, wrapping, passing over those without
work; after none, from the lowest (R328). -/
def State.nextVf (s : State) (cluster : Nat) (v : Option Nat) : Option Nat :=
  let start := (v.map (· + 1)).getD 0
  ((List.range 32).map fun i => (start + i) % 32).find? fun u => s.mayServe u cluster && s.hasWork u cluster

/-- Whether a function is in service on some cluster. -/
def State.servedAny (s : State) (v : Nat) : Bool := s.turns.any fun t => t.vf == some v

/-- Add the holding set to the counts, and empty it; a wrap sets OVF and interrupts (R332). -/
def State.addHolding (s : State) (v : Nat) : State :=
  let f := s.vf v
  let r := (List.range 4).foldl (fun (acc : Counters × Bool) i =>
    let n := acc.1.cnt.getD i 0 + f.holding.getD i 0
    let ctl := acc.1.ctl.getD i 0
    if 2 ^ 48 ≤ n then
      ({ ctl := acc.1.ctl.set i (setBits ctl 30 1 1), cnt := acc.1.cnt.set i (n % 2 ^ 48) }, acc.2 || bit ctl 29)
    else ({ acc.1 with cnt := acc.1.cnt.set i n }, acc.2)) (f.ctrs, false)
  let s := s.setVf v fun f => { f with ctrs := r.1, holding := [0, 0, 0, 0] }
  if r.2 then s.sendMsix v 1 else s

/-- Update a cluster's turn. -/
def State.setTurn (s : State) (c : Nat) (f : Turn → Turn) : State := { s with turns := modifyAt s.turns c f }

/-- What a function owes a cluster in ticks, and a change of it. -/
def Turn.owes (t : Turn) (v : Nat) : Nat := Map.get 0 t.owed v
def Turn.owe (t : Turn) (v n : Nat) : Turn := { t with owed := Map.set 0 t.owed v n }

/-- The overrun of a drain that ends now (R329). -/
def Drain.overrun (d : Drain) (now : Nat) : Nat := now - d.budgetEnd

/-- A function enters service on a cluster: its slice is shortened by what it owes there, and a drain of it
there is over (R329). -/
def Turn.enter (t : Turn) (v now slice : Nat) : Turn :=
  let back := (t.drains.filter fun d => d.vf == v).foldl (fun n d => n + d.overrun now) 0
  let debt := t.owes v + back
  { (t.owe v (debt - min debt slice)) with
    vf := some v, stop := now + (slice - min debt slice), drains := t.drains.filter fun d => d.vf != v }

/-- Load a function's slots when it enters service on its first cluster (R332). -/
def State.loadSlots (s : State) (v : Nat) : State :=
  if s.servedAny v && !(s.vf v).live then (s.setVf v fun f => { f with live := true }).addHolding v else s

/-- Save a function's slots when it has left service on its last cluster (R332). -/
def State.saveSlots (s : State) (v : Nat) : State :=
  if s.servedAny v then s else s.setVf v fun f => { f with live := false }

/-- Give a cluster's turn to a function. -/
def State.enterTurn (s : State) (c v : Nat) : State :=
  (s.setTurn c fun t => t.enter v s.time (usTicks * s.sliceUs v)).loadSlots v

/-- SLICE_END (R328, R329): a slice ends and the next one starts; a cluster that serves no function takes the
lowest-numbered one with work. -/
def execSliceEnd (cluster : Nat) (s : State) : Host.Outcome State Fault Refusal :=
  conclude (match s.turns[cluster]? with
    | none => s
    | some t =>
      match t.vf with
      | none =>
        match s.nextVf cluster none with
        | some b => s.enterTurn cluster b
        | none => s
      | some a =>
        if s.time < t.stop then s
        else
          let next := s.nextVf cluster (some a)
          if next = some a then s.enterTurn cluster a
          else
            let s := s.setTurn cluster fun t =>
              { t with
                vf := none
                drains := (t.drains.filter fun d => d.vf != a) ++ [⟨a, s.time + usTicks * s.budgetUs a, false⟩] }
            match next with
            | some b => ((s.setTurn cluster fun t => { t with vf := some b }).saveSlots a).enterTurn cluster b
            | none => s.saveSlots a)

/-- The workgroups of a function that run on a cluster. -/
def State.runningOn (s : State) (v cluster : Nat) : List Workgroup :=
  s.wgs.filter fun w => w.phase != .swapped && clusterOf w.core == cluster &&
    ((s.launch? w.launch).map fun l => l.vf == v).getD false

/-- DRAIN_BUDGET_EXPIRY (R329): the budget has passed; replayable launches with a workgroup still running on
the cluster are stopped and rolled back. -/
def execDrainBudgetExpiry (cluster vf : Nat) (s : State) : Host.Outcome State Fault Refusal :=
  conclude (match (s.turns[cluster]?).bind fun t => t.drains.find? fun d => d.vf == vf with
    | none => s
    | some d =>
      if s.time < d.budgetEnd || d.passed then s
      else
        let late := (s.runningOn vf cluster).map Workgroup.launch
        let s := s.setTurn cluster fun t =>
          { t with drains := t.drains.map fun d => if d.vf == vf then { d with passed := true } else d }
        { s with launches := s.launches.map fun l =>
          if late.contains l.id && l.repl && l.status == .done && l.rollback.isNone then
            { l with rollback := some false, hard := true, noPlace := true }
          else l })

/-- DRAIN_END (R329, R332): a drain has ended; the overrun is owed, and the holding set is added. -/
def execDrainEnd (cluster vf : Nat) (s : State) : Host.Outcome State Fault Refusal :=
  conclude (match (s.turns[cluster]?).bind fun t => t.drains.find? fun d => d.vf == vf with
    | none => s
    | some d =>
      if !(s.runningOn vf cluster).isEmpty then s
      else
        (s.setTurn cluster fun t =>
          { (t.owe vf (t.owes vf + d.overrun s.time)) with drains := t.drains.filter fun d => d.vf != vf }).addHolding vf)

end Sys2Proof.Machine
end

