-- ==== Sys2Proof/Machine/Host.lean ====
section
/-! DEFINITION. What comes from outside the module: memory reads and writes (R222, R342, R343, R346), the
register blocks of the functions (R310 to R313, R330, R336, R339, R353), and starts (R336 to R338). -/

namespace Sys2Proof.Machine

/-! Memory. -/

/-- A write from outside, at its home: snapshots are copied first (R346), the check value is made as the data
enters (R342). A write to a die that is dead, fenced or left out is dropped, and one to a die that trains is
held. -/
def State.outsideWrite (s : State) (pa : Nat) (data : List Byte) (bad : Bool) : State :=
  if data.isEmpty || !(paExists pa) || !(paExists (pa + data.length - 1)) then s
  else match gate s pa with
    | .ok =>
      let s := (s.copyOnPhysical pa data.length).noteRewrite pa data.length
      let (id, s) := s.take
      s.homeWrite (.hw false bad false) id pa data
    | .held => s
    | .refused => s

/-- HOST_MEMORY_WRITE (R222, R342): a PCI Express or CXL write is performed. Writes of other agents to memory
outside the module, which the module can read, are of this kind too. -/
def execHostMemoryWrite (pa : Nat) (data : List Byte) (s : State) : Host.Outcome State Fault Refusal :=
  conclude (s.outsideWrite pa data false)

/-- HOST_MEMORY_READ (R343): a host read is completed; a sector that fails its check is reported. -/
def execHostMemoryRead (pa len : Nat) (s : State) : Host.Outcome State Fault Refusal :=
  conclude (if region pa ≠ 0 ∨ Config.localBytes < pa + len then s
    else match gate s pa with
      | .ok => s.reportChecks pa len
      | .held => s
      | .refused => s)

/-- The new value of an atomic, or of a memory step of a post, that another package sends, from the old one: the link
and the unlink of a post go through the reservations of their object (R233, R236), and an atomic that is not marked as
helped is refused where a post is pending (R237). -/
def State.outsideFn (s : State) (kind : FabKind) (pa : Nat) (op : FabOp) (ty : Ty) (cmp val old : Nat) :
    State × Option Nat :=
  match kind with
  | .step =>
    if pa % 32 ≠ 24 then (s, fabFn op ty cmp old val)
    else if cmp = 0 then s.linkHome (pa - 24) val old
    else if old = cmp then (if val = 0 then s.reserve (pa - 24) else s, some val)
    else (s, none)
  | .plain => (s, if s.refusesAtom (pa / 32) then none else fabFn op ty cmp old val)
  | .helped => (s, fabFn op ty cmp old val)

/-- An update from another package at its home: the old value, which the response carries; a bad one is reported, and
nothing is written (R241, R343). -/
def State.outsideUpdate (s : State) (pa len : Nat) (f : State → Nat → State × Option Nat) : State × List Byte :=
  let old := s.homeRead pa len
  let bad := !(s.badSectors pa len).isEmpty
  let s := (s.copyOnPhysical pa len).reportChecks pa len
  if bad then (s, old)
  else match f s (leNat old) with
    | (s, some v) => (((s.noteRewrite pa len).hwWrite true false pa (leBytes len v)).2, old)
    | (s, none) => (s, old)

/-- An atomic or a memory step of a post of another package at its home. -/
def State.outsideAtom (s : State) (kind : FabKind) (pa : Nat) (op : FabOp) (ty : Ty) (len cmp val : Nat) :
    State × List Byte :=
  let refused := kind == .plain && s.refusesAtom (pa / 32)
  let r := s.outsideUpdate pa len fun s old => s.outsideFn kind pa op ty cmp val old
  (r.1, if refused then [] else r.2)

/-- The update of an AINIT of another package at its home (R228, R236). -/
def State.outsideAinit (s : State) (pa val : Nat) : State × List Byte :=
  s.outsideUpdate pa 32 fun s h =>
    if hdrPend h = 0 then
      ({ s.reserve pa with helped := Map.set false s.helped (pa / 32) true }, some (hdrMake (val % 2 ^ 64) 0 0 0))
    else (s, none)

/-- Perform a request that has arrived over the fabric, and give its response; none for one that cannot be performed yet
(R338) or names no address here. -/
def State.serveFabric (s : State) (req : FabReq) (poisoned : Bool) : State × Option (List Byte) :=
  match req with
  | .write pa data =>
    if region pa ≠ 0 ∨ gate s pa = .held then (s, none) else (s.outsideWrite pa data poisoned, some [])
  | .atom kind pa op ty len cmp val =>
    if region pa ≠ 0 ∨ Config.localBytes < pa + len ∨ !([4, 8, 32].contains len) ∨ pa % len ≠ 0 ∨ gate s pa ≠ .ok then (s, none)
    else
      let r := s.outsideAtom kind pa op ty len cmp val
      (r.1, some r.2)
  | .ainit pa val =>
    if region pa ≠ 0 ∨ Config.localBytes < pa + 32 ∨ pa % 32 ≠ 0 ∨ gate s pa ≠ .ok then (s, none)
    else
      let r := s.outsideAinit pa val
      (r.1, some r.2)
  | .advance vf ident wgid chan n => (s.advanceNamed vf ident wgid chan n, some [])
  | .stream k => ({ s with inbox := s.inbox ++ [Config.arrivedStream k] }, some [])

/-- The home keeps the response to a request of a source port, with those to its last 4,096 requests (R241). -/
def State.storeResponse (s : State) (port number : Nat) (data : List Byte) : State :=
  let mine := s.responses.filter fun r => r.port == port
  let out := if 4096 ≤ mine.length then mine.head? else none
  { s with responses := (s.responses.filter fun r => some r != out) ++ [⟨port, number, data⟩] }

/-- FABRIC_RECEIVE (R241, R288, R335, R342, R343): what Gugar, over a link with its source port and request number, or
Ultra Ethernet brings is performed. A request whose number has a stored response is a duplicate and is not applied
again; a flit that carries poison poisons the sectors it is written to. Flits and packets are counted (R331). The form of
the requests is the model's: log entry 97. -/
def execFabricReceive (link : Option (Nat × Nat)) (req : FabReq) (poisoned : Bool) (s : State) :
    Host.Outcome State Fault Refusal :=
  let s := { s with fresh := s.fresh + 1 }
  conclude (match link with
    | none => ((s.countFabric 0x43).serveFabric req poisoned).1
    | some (port, number) =>
      let s := (s.countFabric 0x41).countFabric 0x40
      if s.responses.any fun r => r.port == port && r.number == number then s
      else match s.serveFabric req poisoned with
        | (s, some data) => s.storeResponse port number data
        | (s, none) => s)

/-! Registers. -/

/-- CTXT_WRITE (R311): a host store to a dword of a translation context; reserved bits stay zero, and the
context number has a new generation. -/
def execCtxtWrite (vf ctx word : Nat) (val : Dword) (s : State) : Host.Outcome State Fault Refusal :=
  let v := if word = 7 then val &&& 1#64 else if word = 5 ∨ word = 6 then 0#64 else val
  conclude (if 32 ≤ vf ∨ 64 ≤ ctx ∨ 8 ≤ word then s
    else s.setVf vf fun f =>
      { f with
        ctxt := Map.set 0#64 f.ctxt (8 * ctx + word) v
        ctxGen := Map.set 0 f.ctxGen ctx (Map.get 0 f.ctxGen ctx + 1) })

/-- NQTAIL_WRITE (R310, R312): entries are consumed, and held records are written while there is room. -/
def execNqtailWrite (fn : Nat) (val : Dword) (s : State) : Host.Outcome State Fault Refusal :=
  conclude (if pfNumber < fn then s
    else (s.setNq fn { s.nq fn with tail := val.toNat % 2 ^ 32 }).pumpNq fn)

/-- A write to a counter control: OVF is cleared by writing 1 (R330). -/
def ctlWrite (old val : Nat) : Nat :=
  bits val 31 1 * 2 ^ 31 + (if bit old 30 && !(bit val 30) then 2 ^ 30 else 0) + bits val 29 1 * 2 ^ 29 + bits val 0 8

/-- A write to the registers that a virtual function and the physical function share (R310, R313): NQBASE,
NQSIZE, the counter controls and counts. A base that is not aligned to 4 KiB is cut down to it: log entry 104. -/
def State.nqWrite (s : State) (fn offset val : Nat) : State :=
  let q := s.nq fn
  if offset = 0x10 then s.setNq fn { q with base := val / 4096 * 4096 }
  else if offset = 0x18 then
    if 4 ≤ bits val 0 5 ∧ bits val 0 5 ≤ 16 then (s.setNq fn { q with size := bits val 0 5 }).pumpNq fn else s
  else s

def Counters.write (c : Counters) (offset val : Nat) : Counters :=
  if 0x100 ≤ offset ∧ offset < 0x120 then
    let i := (offset - 0x100) / 8
    { c with ctl := c.ctl.set i (ctlWrite (c.ctl.getD i 0) val) }
  else if 0x120 ≤ offset ∧ offset < 0x140 then { c with cnt := c.cnt.set ((offset - 0x120) / 8) (val % 2 ^ 48) }
  else c

/-- A CANCEL write (R326): reserved bits make it ignored. -/
def State.cancelWrite (s : State) (vf val : Nat) : State :=
  if bits val 3 29 ≠ 0 then s
  else
    let lvl : Level := match bits val 0 2 with
      | 0 => .launch
      | 1 => .graph
      | 2 => .phase
      | _ => .job
    (s.cancel vf lvl (bits val 32 32) (bit val 2) none).sweep

/-- A write to a register of a virtual function (R310); an offset that is not listed is ignored. A FRAMEB that is not
aligned to 4 KiB is cut down to it: log entry 104. -/
def State.vfWrite (s : State) (v offset val : Nat) : State :=
  if offset = 0x30 then s.cancelWrite v val
  else if offset = 0x38 then s.setVf v fun f => { f with frameb := val / 4096 * 4096 }
  else if offset = 0x40 then s.setVf v fun f => { f with framesz := val }
  else (s.nqWrite v offset val).setVf v fun f => { f with ctrs := f.ctrs.write offset val }

/-- A write to a register of a relay engine (R333). -/
def Relay.write (r : Relay) (offset val : Nat) : Relay :=
  if offset = 0 then { r with rljob := bits val 0 37 }
  else if offset = 0x08 then { r with rldest := val }
  else if offset = 0x10 then { r with rlsess := bits val 0 32 }
  else if offset = 0x18 then { r with rlrounds := val }
  else if offset = 0x20 then { r with rlthr := val }
  else r

/-- A dword of a service record keeps its reserved bits zero (R313). -/
def svcMask (i val : Nat) : Nat := if i = 0 then bits val 0 24 else if i ≤ 2 then bits val 0 32 else 0

/-- A write to a register of the physical function (R313). -/
def State.pfWrite (s : State) (offset val : Nat) : State :=
  if offset = 0x08 then
    { s with pf := { s.pf with winbase := bits val 23 29 * 2 ^ 23 + bits val 0 1 } }
  else if 0x1000 ≤ offset ∧ offset < 0x1800 then
    let k := (offset - 0x1000) / 8
    { s with pf := { s.pf with svc := Map.set 0#64 s.pf.svc k (BitVec.ofNat 64 (svcMask (k % 8) val)) } }
  else if 0x2000 ≤ offset ∧ offset < 0x2200 then
    { s with relays := modifyAt s.relays ((offset - 0x2000) / 256) fun r => r.write (offset % 256) val }
  else
    let s := s.nqWrite pfNumber offset val
    { s with pf := { s.pf with ctrs := s.pf.ctrs.write offset val } }

/-- REGISTER_WRITE (R310, R313): a 64-bit write to a register that no other step covers. -/
def execRegisterWrite (fn offset : Nat) (val : Dword) (s : State) : Host.Outcome State Fault Refusal :=
  conclude (if offset % 8 ≠ 0 ∨ pfNumber < fn then s
    else if fn = pfNumber then s.pfWrite offset val.toNat
    else s.vfWrite fn offset val.toNat)

/-! What the registers read as. -/

/-- Dies that count as fenced, and dies in service (R336, R352). -/
def State.fencedDies (s : State) : Nat := (s.dies.filter fun d => d.state == .fenced || d.state == .dead).length
def State.servingDies (s : State) : Nat := (s.dies.filter fun d => d.state == .inService).length

/-- CAP (R336). -/
def State.capReg (s : State) : Nat :=
  let fails := (List.range 4).foldl (fun n i => n + ((s.dies[i]?).map Die.fails).getD 0 % 4 * 4 ^ i) 0
  fails * 2 ^ 32 + s.bring.state * 2 ^ 30 + (if s.bring.warm then 2 ^ 29 else 0) + s.bring.hbmStacks * 2 ^ 16 +
    s.fencedDies * 2 ^ 12 + s.servingDies * 2 ^ 8

/-- AGE of a cluster (R339). -/
def Age.reg (a : Age) : Nat := a.birth * 2 ^ 32 + a.meas * 2 ^ 16 + a.drift * 2 ^ 8 + a.cap

/-- The die-use register of a context: the masks of the newest generation and of every one with a live launch
(R353). -/
def State.dieUseReg (s : State) (vf ctx : Nat) : Nat :=
  let newest := Map.get 0 (s.vf vf).ctxGen ctx
  (s.dieUse.filter fun u => u.tag.vf == vf && u.tag.ctx == ctx &&
    (u.tag.gen == newest || s.launches.any fun l => l.ctx.tag == u.tag)).foldl (fun m u => m ||| u.mask) 0

/-- RLSTS (R333). -/
def Relay.status (r : Relay) : Nat :=
  (match r.phase with
    | .idle => 0
    | .copying => 1
    | .draining => 2
    | .sent => 2
    | .done => 3) + (if r.refused then 4 else 0) + r.pages * 2 ^ 32

/-- The registers that a virtual function and the physical function share (R310, R313): CAP, the notification queue and
the counter slots. Reserved bits read zero, and so does an offset that is not listed. -/
def State.sharedReg (s : State) (fn : Nat) (c : Counters) (offset : Nat) : Nat :=
  let q := s.nq fn
  match offset with
  | 0x00 => s.capReg
  | 0x10 => q.base
  | 0x18 => q.size
  | 0x20 => q.head
  | 0x28 => q.tail
  | _ =>
    if 0x100 ≤ offset ∧ offset < 0x120 then c.ctl.getD ((offset - 0x100) / 8) 0
    else if 0x120 ≤ offset ∧ offset < 0x140 then c.cnt.getD ((offset - 0x120) / 8) 0
    else 0

/-- A register of a virtual function as the host reads it (R310): the WO registers CANCEL and MIGREQ read zero. -/
def State.vfReg (s : State) (v offset : Nat) : Nat :=
  let f := s.vf v
  if offset = 0x38 then f.frameb
  else if offset = 0x40 then f.framesz
  else if offset = 0x50 then s.migrspReg v
  else if 0x1000 ≤ offset ∧ offset < 0x2000 then (Map.get 0#64 f.ctxt ((offset - 0x1000) / 8)).toNat
  else if 0x8000 ≤ offset ∧ offset < 0x10000 then s.evc v ((offset - 0x8000) / 8)
  else s.sharedReg v f.ctrs offset

/-- A register of a relay engine as the host reads it (R333): the WO register RLCTL reads zero. -/
def Relay.reg (r : Relay) (offset : Nat) : Nat :=
  match offset with
  | 0x00 => r.rljob
  | 0x08 => r.rldest
  | 0x10 => r.rlsess
  | 0x18 => r.rlrounds
  | 0x20 => r.rlthr
  | 0x30 => r.status
  | _ => 0

/-- A register of the physical function as the host reads it (R313). -/
def State.pfReg (s : State) (offset : Nat) : Nat :=
  if offset = 0x08 then s.pf.winbase
  else if 0x1000 ≤ offset ∧ offset < 0x1800 then (Map.get 0#64 s.pf.svc ((offset - 0x1000) / 8)).toNat
  else if 0x2000 ≤ offset ∧ offset < 0x2200 then
    ((s.relays[(offset - 0x2000) / 256]?).map fun r => r.reg (offset % 256)).getD 0
  else if 0x3000 ≤ offset ∧ offset < 0x30C0 then ((s.age[(offset - 0x3000) / 8]?).map Age.reg).getD 0
  else if 0x4000 ≤ offset ∧ offset < 0x8000 then
    s.dieUseReg ((offset - 0x4000) / 512) ((offset - 0x4000) / 8 % 64)
  else s.sharedReg pfNumber s.pf.ctrs offset

/-- What a host read of a register returns (R6, R310, R313): a read of MIGRSP is also the event MIGRSP_READ. -/
def State.hostReg (s : State) (fn offset : Nat) : Nat :=
  if offset % 8 ≠ 0 then 0
  else if fn = pfNumber then s.pfReg offset
  else if fn < 32 then s.vfReg fn offset
  else 0

/-! Starts. -/

/-- A die at the beginning of a start: every die that is not fenced trains. -/
def Die.begin (d : Die) : Die := { d with state := if d.state = .fenced then .fenced else .untrained }

/-- START (R337): a start is warm when the last one succeeded and the stored training passes its check. The
module begins from its reset state; fences, FAILS, device time, and the schedule stand, and a warm start keeps
memory, which a cold one tests (log entry 18). -/
def execStart (warm : Bool) (s : State) : Host.Outcome State Fault Refusal :=
  let w := warm && s.bring.lastOk
  let r := State.reset
  conclude { r with
    time := s.time, fresh := s.fresh, serial := s.serial, moves := s.moves, halt := s.halt
    mem := if w then s.mem else r.mem
    chk := if w then s.chk else r.chk
    poison := if w then s.poison else r.poison
    helped := if w then s.helped else r.helped
    pub := if w then s.pub else r.pub
    age := (List.range 24).map fun c => { birth := Config.birthCount c % 2 ^ 16, meas := 0, drift := 0, cap := 76 }
    dies := s.dies.map Die.begin
    bring := { state := 0, warm := w, hbmStacks := 0, lastOk := false, failed := false, links := s.bring.links } }

/-- Write the records of every function's queue that have waited (R312, R338). -/
def State.pumpAll (s : State) : State := (List.range (pfNumber + 1)).foldl (fun (s : State) fn => s.pumpNq fn) s

/-- DIE_ENTERS_SERVICE (R337, R338): a die has trained; with the first the state is reduced, and with the last that
is not fenced it is full. A start in which a training failed is no success, so that the next one is cold. Records that
have waited for its memory are written. -/
def execDieEntersService (die : Nat) (s : State) : Host.Outcome State Fault Refusal :=
  conclude (if ((s.dies[die]?).map Die.state) != some .untrained then s
    else
      let dies := modifyAt s.dies die fun _ => { state := .inService, fails := 0 }
      let s := { s with
        dies := dies
        bring := { s.bring with
          state := 1, hbmStacks := s.bring.hbmStacks + 2, lastOk := fullService dies && !s.bring.failed } }
      s.reachFull.pumpAll)

/-- TRAINING_FAILED (R337): the die is left out and its count rises; at 3 it is fenced. With no die left the
start has failed. -/
def execTrainingFailed (die : Nat) (s : State) : Host.Outcome State Fault Refusal :=
  conclude (if ((s.dies[die]?).map Die.state) != some .untrained then s
    else
      let dies := modifyAt s.dies die fun d =>
        { state := if 2 ≤ d.fails then .fenced else .leftOut, fails := min 3 (d.fails + 1) }
      let none' := dies.all fun d => d.state != .untrained && d.state != .inService
      let s := { s with
        dies := dies
        bring := { s.bring with lastOk := false, failed := true, state := if none' then 3 else s.bring.state } }
      s.reachFull)

/-- FENCE_CLEARED (R337): a later start trains the die again; its count begins anew (log entry 18). -/
def execFenceCleared (die : Nat) (s : State) : Host.Outcome State Fault Refusal :=
  conclude (if ((s.dies[die]?).map Die.state) != some .fenced then s
    else { s with dies := modifyAt s.dies die fun _ => { state := .leftOut, fails := 0 } })

/-- PCIE_LINK_UP (R12, R338): one of the two host links comes up. -/
def execPcieLinkUp (link : Nat) (s : State) : Host.Outcome State Fault Refusal :=
  conclude (if 2 ≤ link ∨ s.bring.links.contains link then s
    else { s with bring := { s.bring with links := s.bring.links ++ [link] } })

end Sys2Proof.Machine
end

