-- ==== Sys2Proof/Machine/Integer.lean ====
section
/-! DEFINITION. The integer, logic, shift, move and comparison instructions (R125 to R138). Each pure
function takes the width and the operands as numbers below 2 ^ width and gives such a number. -/

namespace Sys2Proof.Machine

/-! The arithmetic. -/

/-- IADD, ISUB, IMUL, IMAD (R125): the same bits under .I and .W. -/
def iaddF (w a b : Nat) : Nat := (a + b) % 2 ^ w
def isubF (w a b : Nat) : Nat := (a + 2 ^ w - b % 2 ^ w) % 2 ^ w
def imulF (w a b : Nat) : Nat := a * b % 2 ^ w
def imadF (w a b c : Nat) : Nat := (a * b + c) % 2 ^ w

/-- IMULH (R125): the high half of the exact product. -/
def imulhF (sg : Bool) (w a b : Nat) : Nat := wrapInt w (toInt sg w a * toInt sg w b / (2 ^ w : Nat))

/-- IDOT4 (R127). -/
def byteAt (a e : Nat) : Nat := bits a (8 * e) 8
def idot4F (sg : Bool) (a b c : Nat) : Nat :=
  let p (e : Nat) : Int := toInt sg 8 (byteAt a e) * toInt sg 8 (byteAt b e)
  wrapInt 32 ((c : Int) + p 0 + p 1 + p 2 + p 3)

/-- IDIV and IREM (R128): result and status. -/
def idivF (sg : Bool) (w a b : Nat) : Nat × Nat :=
  if b = 0 then (2 ^ w - 1, flagDZ)
  else if sg && a == 2 ^ (w - 1) && b == 2 ^ w - 1 then (2 ^ (w - 1), flagOF)
  else (wrapInt w ((toInt sg w a).tdiv (toInt sg w b)), 0)

def iremF (sg : Bool) (w a b : Nat) : Nat × Nat :=
  if b = 0 then (a, flagDZ)
  else if sg && a == 2 ^ (w - 1) && b == 2 ^ w - 1 then (0, flagOF)
  else (wrapInt w ((toInt sg w a).tmod (toInt sg w b)), 0)

/-- IMIN and IMAX (R129). -/
def iminF (sg : Bool) (w a b : Nat) : Nat := if toInt sg w a ≤ toInt sg w b then a else b
def imaxF (sg : Bool) (w a b : Nat) : Nat := if toInt sg w b ≤ toInt sg w a then a else b

/-- IABS and INEG (R129): the most negative number stays, and sets OF. -/
def iabsF (w a : Nat) : Nat × Nat :=
  if a = 2 ^ (w - 1) then (a, flagOF) else (wrapInt w ((toInt true w a).natAbs : Int), 0)

def inegF (w a : Nat) : Nat × Nat :=
  if a = 2 ^ (w - 1) then (a, flagOF) else (wrapInt w (-(toInt true w a)), 0)

/-- ISAT (R129): a signed 32-bit value clamped to a narrow type, then extended. -/
def isatF (sg : Bool) (w a : Nat) : Nat × Nat :=
  let x := toInt true 32 a
  let c := max (intMin sg w) (min (intMax sg w) x)
  (wrapInt 32 c, if c = x then 0 else flagOF)

/-- Shifts and rotates by an unsigned count (R130). -/
def shlF (w a n : Nat) : Nat := if n < w then a * 2 ^ n % 2 ^ w else 0
def shrF (w a n : Nat) : Nat := if n < w then a / 2 ^ n else 0
def sarF (w a n : Nat) : Nat := wrapInt w (toInt true w a / (2 ^ min n (w - 1) : Nat))
def rolF (w a n : Nat) : Nat := (a * 2 ^ (n % w) + a / 2 ^ (w - n % w)) % 2 ^ w
def rorF (w a n : Nat) : Nat := (a / 2 ^ (n % w) + a * 2 ^ (w - n % w)) % 2 ^ w

/-- Logic and counting (R131). -/
def andF (_w a b : Nat) : Nat := a &&& b
def orF (_w a b : Nat) : Nat := a ||| b
def xorF (_w a b : Nat) : Nat := a ^^^ b
def notF (w a : Nat) : Nat := 2 ^ w - 1 - a % 2 ^ w
def andnF (w a b : Nat) : Nat := a &&& notF w b
def popcF (w a : Nat) : Nat := ((List.range w).filter fun i => bit a i).length
def clzF (w a : Nat) : Nat := w - bitLen (a % 2 ^ w)
def ctzF (w a : Nat) : Nat := ((List.range w).findIdx? fun i => bit a i).getD w
def brevF (w a : Nat) : Nat :=
  (List.range w).foldl (fun acc i => if bit a i then acc + 2 ^ (w - 1 - i) else acc) 0

/-- BFX and BFI (R132). -/
def bfxF (sg : Bool) (w a pos wid : Nat) : Nat :=
  if w ≤ pos ∨ wid = 0 then 0
  else
    let n := min wid (w - pos)
    wrapInt w (toInt sg n (a / 2 ^ pos % 2 ^ n))

def bfiF (w d a pos wid : Nat) : Nat :=
  if w ≤ pos ∨ wid = 0 then d
  else
    let n := min wid (w - pos)
    d - bits d pos n * 2 ^ pos + a % 2 ^ n * 2 ^ pos

/-- LEA (R133). -/
def leaF (a b s : Nat) : Nat := wrapInt 64 ((a : Int) + toInt true 32 b * (2 ^ (s % 64) : Nat))

/-- The integer conditions (R136, R137). -/
def icmpF (c : Cond) (sg : Bool) (w a b : Nat) : Bool :=
  let x := toInt sg w a
  let y := toInt sg w b
  match c with
  | .eq => x == y
  | .ne => x != y
  | .lt => decide (x < y)
  | .le => decide (x ≤ y)
  | .gt => decide (y < x)
  | .ge => decide (y ≤ x)
  | .un => false

/-- The predicate operations (R138). -/
def psetF (op : PredOp) (a b : Bool) : Bool :=
  match op with
  | .and => a && b
  | .or => a || b
  | .xor => a != b

/-! The shapes of the meanings. -/

/-- d ← f(a, b) at the type's width. -/
def binOp (i : Instr) (gd : Guard) (ty : Ty) (d a b : Opnd) (s : State) (f : Nat → Nat → Nat → Nat) :
    Host.Outcome State Fault Refusal :=
  lanewise i gd [d, a, b] s fun e t => e.putT t ty d (f ty.bits (e.srcT t ty a) (e.srcT t ty b))

/-- The same with status bits. -/
def binOpFl (i : Instr) (gd : Guard) (ty : Ty) (d a b : Opnd) (s : State) (f : Nat → Nat → Nat → Nat × Nat) :
    Host.Outcome State Fault Refusal :=
  lanewise i gd [d, a, b] s fun e t =>
    let r := f ty.bits (e.srcT t ty a) (e.srcT t ty b)
    (e.putT t ty d r.1).raise r.2

/-- d ← f(a, IMM) at 32 bits (R57). -/
def immOp (i : Instr) (gd : Guard) (d a : Opnd) (imm : Word) (s : State) (f : Nat → Nat → Nat → Nat) :
    Host.Outcome State Fault Refusal :=
  lanewise i gd [d, a] s fun e t => e.put t d (BitVec.ofNat 32 (f 32 (e.src t a).toNat imm.toNat))

/-- d ← f(a, n) with a 32-bit count n (R130). -/
def shiftOp (i : Instr) (gd : Guard) (ty : Ty) (d a b : Opnd) (s : State) (f : Nat → Nat → Nat → Nat) :
    Host.Outcome State Fault Refusal :=
  lanewise i gd [d, a, b] s fun e t => e.putT t ty d (f ty.bits (e.srcT t ty a) (e.src t b).toNat)

/-- d ← f(a) at the type's width. -/
def unOp (i : Instr) (gd : Guard) (ty : Ty) (d a : Opnd) (s : State) (f : Nat → Nat → Nat) :
    Host.Outcome State Fault Refusal :=
  lanewise i gd [d, a] s fun e t => e.putT t ty d (f ty.bits (e.srcT t ty a))

/-- d ← f(a) with status bits. -/
def unOpFl (i : Instr) (gd : Guard) (ty : Ty) (d a : Opnd) (s : State) (f : Nat → Nat → Nat × Nat) :
    Host.Outcome State Fault Refusal :=
  lanewise i gd [d, a] s fun e t =>
    let r := f ty.bits (e.srcT t ty a)
    (e.putT t ty d r.1).raise r.2

/-- A count of bits of a, in a 32-bit destination (R131). -/
def countOp (i : Instr) (gd : Guard) (ty : Ty) (d a : Opnd) (s : State) (f : Nat → Nat → Nat) :
    Host.Outcome State Fault Refusal :=
  lanewise i gd [d, a] s fun e t => e.put t d (BitVec.ofNat 32 (f ty.bits (e.srcT t ty a)))

/-! The meanings. -/

/-- IADD (R125). -/
def execIadd (gd : Guard) (ty : Ty) (d a b : Opnd) (s : State) :
    Host.Outcome State Fault Refusal :=
  binOp (.iadd gd ty d a b) gd ty d a b s iaddF

/-- IADD, I form (R57, R125). -/
def execIaddI (gd : Guard) (d a : Opnd) (imm : Word) (s : State) :
    Host.Outcome State Fault Refusal :=
  immOp (.iaddI gd d a imm) gd d a imm s iaddF

/-- ISUB (R125). -/
def execIsub (gd : Guard) (ty : Ty) (d a b : Opnd) (s : State) :
    Host.Outcome State Fault Refusal :=
  binOp (.isub gd ty d a b) gd ty d a b s isubF

/-- ISUB, I form (R57, R125). -/
def execIsubI (gd : Guard) (d a : Opnd) (imm : Word) (s : State) :
    Host.Outcome State Fault Refusal :=
  immOp (.isubI gd d a imm) gd d a imm s isubF

/-- IADDC (R126): after d, the carry goes to the predicate that C names. -/
def execIaddc (gd : Guard) (ty : Ty) (d a b c : Opnd) (s : State) : Host.Outcome State Fault Refusal :=
  lanewise (.iaddc gd ty d a b c) gd [d, a, b, c] s fun e t =>
    let sum := e.srcT t ty a + e.srcT t ty b + (e.src t c).toNat % 2
    let t' := e.putT t ty d (sum % 2 ^ ty.bits)
    match c with
    | .p r => t'.setPred r.toNat (decide (2 ^ ty.bits ≤ sum))
    | .g _ | .a _ | .t _ | .c _ | .bad _ => t'

/-- IMUL (R125). -/
def execImul (gd : Guard) (ty : Ty) (d a b : Opnd) (s : State) :
    Host.Outcome State Fault Refusal :=
  binOp (.imul gd ty d a b) gd ty d a b s imulF

/-- IMUL, I form (R57, R125). -/
def execImulI (gd : Guard) (d a : Opnd) (imm : Word) (s : State) :
    Host.Outcome State Fault Refusal :=
  immOp (.imulI gd d a imm) gd d a imm s imulF

/-- IMULH (R125). -/
def execImulh (gd : Guard) (ty : Ty) (d a b : Opnd) (s : State) :
    Host.Outcome State Fault Refusal :=
  binOp (.imulh gd ty d a b) gd ty d a b s (imulhF ty.signed)

/-- IMAD (R125). -/
def execImad (gd : Guard) (ty : Ty) (d a b c : Opnd) (s : State) : Host.Outcome State Fault Refusal :=
  lanewise (.imad gd ty d a b c) gd [d, a, b, c] s fun e t =>
    e.putT t ty d (imadF ty.bits (e.srcT t ty a) (e.srcT t ty b) (e.srcT t ty c))

/-- IDOT4 (R127). -/
def execIdot4 (gd : Guard) (ty : Ty) (d a b c : Opnd) (s : State) : Host.Outcome State Fault Refusal :=
  lanewise (.idot4 gd ty d a b c) gd [d, a, b, c] s fun e t =>
    e.put t d (BitVec.ofNat 32 (idot4F ty.signed (e.src t a).toNat (e.src t b).toNat (e.src t c).toNat))

/-- IDIV (R128). -/
def execIdiv (gd : Guard) (ty : Ty) (d a b : Opnd) (s : State) :
    Host.Outcome State Fault Refusal :=
  binOpFl (.idiv gd ty d a b) gd ty d a b s (idivF ty.signed)

/-- IREM (R128). -/
def execIrem (gd : Guard) (ty : Ty) (d a b : Opnd) (s : State) :
    Host.Outcome State Fault Refusal :=
  binOpFl (.irem gd ty d a b) gd ty d a b s (iremF ty.signed)

/-- IMIN (R129). -/
def execImin (gd : Guard) (ty : Ty) (d a b : Opnd) (s : State) :
    Host.Outcome State Fault Refusal :=
  binOp (.imin gd ty d a b) gd ty d a b s (iminF ty.signed)

/-- IMIN, I form: signed (R57, R129). -/
def execIminI (gd : Guard) (d a : Opnd) (imm : Word) (s : State) :
    Host.Outcome State Fault Refusal :=
  immOp (.iminI gd d a imm) gd d a imm s (iminF true)

/-- IMAX (R129). -/
def execImax (gd : Guard) (ty : Ty) (d a b : Opnd) (s : State) :
    Host.Outcome State Fault Refusal :=
  binOp (.imax gd ty d a b) gd ty d a b s (imaxF ty.signed)

/-- IMAX, I form: signed (R57, R129). -/
def execImaxI (gd : Guard) (d a : Opnd) (imm : Word) (s : State) :
    Host.Outcome State Fault Refusal :=
  immOp (.imaxI gd d a imm) gd d a imm s (imaxF true)

/-- IABS (R129). -/
def execIabs (gd : Guard) (ty : Ty) (d a : Opnd) (s : State) :
    Host.Outcome State Fault Refusal :=
  unOpFl (.iabs gd ty d a) gd ty d a s iabsF

/-- INEG (R129). -/
def execIneg (gd : Guard) (ty : Ty) (d a : Opnd) (s : State) :
    Host.Outcome State Fault Refusal :=
  unOpFl (.ineg gd ty d a) gd ty d a s inegF

/-- ISAT (R129). -/
def execIsat (gd : Guard) (ty : Ty) (d a : Opnd) (s : State) : Host.Outcome State Fault Refusal :=
  lanewise (.isat gd ty d a) gd [d, a] s fun e t =>
    let r := isatF ty.signed ty.bits (e.src t a).toNat
    (e.put t d (BitVec.ofNat 32 r.1)).raise r.2

/-- SHL (R130). -/
def execShl (gd : Guard) (ty : Ty) (d a b : Opnd) (s : State) :
    Host.Outcome State Fault Refusal :=
  shiftOp (.shl gd ty d a b) gd ty d a b s shlF

/-- SHL, I form (R57, R130). -/
def execShlI (gd : Guard) (d a : Opnd) (imm : Word) (s : State) :
    Host.Outcome State Fault Refusal :=
  immOp (.shlI gd d a imm) gd d a imm s shlF

/-- SHR (R130). -/
def execShr (gd : Guard) (ty : Ty) (d a b : Opnd) (s : State) :
    Host.Outcome State Fault Refusal :=
  shiftOp (.shr gd ty d a b) gd ty d a b s shrF

/-- SHR, I form (R57, R130). -/
def execShrI (gd : Guard) (d a : Opnd) (imm : Word) (s : State) :
    Host.Outcome State Fault Refusal :=
  immOp (.shrI gd d a imm) gd d a imm s shrF

/-- SAR (R130). -/
def execSar (gd : Guard) (ty : Ty) (d a b : Opnd) (s : State) :
    Host.Outcome State Fault Refusal :=
  shiftOp (.sar gd ty d a b) gd ty d a b s sarF

/-- SAR, I form (R57, R130). -/
def execSarI (gd : Guard) (d a : Opnd) (imm : Word) (s : State) :
    Host.Outcome State Fault Refusal :=
  immOp (.sarI gd d a imm) gd d a imm s sarF

/-- ROL (R130). -/
def execRol (gd : Guard) (ty : Ty) (d a b : Opnd) (s : State) :
    Host.Outcome State Fault Refusal :=
  shiftOp (.rol gd ty d a b) gd ty d a b s rolF

/-- ROL, I form (R57, R130). -/
def execRolI (gd : Guard) (d a : Opnd) (imm : Word) (s : State) :
    Host.Outcome State Fault Refusal :=
  immOp (.rolI gd d a imm) gd d a imm s rolF

/-- ROR (R130). -/
def execRor (gd : Guard) (ty : Ty) (d a b : Opnd) (s : State) :
    Host.Outcome State Fault Refusal :=
  shiftOp (.ror gd ty d a b) gd ty d a b s rorF

/-- ROR, I form (R57, R130). -/
def execRorI (gd : Guard) (d a : Opnd) (imm : Word) (s : State) :
    Host.Outcome State Fault Refusal :=
  immOp (.rorI gd d a imm) gd d a imm s rorF

/-- AND (R131). -/
def execAndG (gd : Guard) (ty : Ty) (d a b : Opnd) (s : State) :
    Host.Outcome State Fault Refusal :=
  binOp (.andG gd ty d a b) gd ty d a b s andF

/-- AND, I form (R57, R131). -/
def execAndI (gd : Guard) (d a : Opnd) (imm : Word) (s : State) :
    Host.Outcome State Fault Refusal :=
  immOp (.andI gd d a imm) gd d a imm s andF

/-- OR (R131). -/
def execOrG (gd : Guard) (ty : Ty) (d a b : Opnd) (s : State) :
    Host.Outcome State Fault Refusal :=
  binOp (.orG gd ty d a b) gd ty d a b s orF

/-- OR, I form (R57, R131). -/
def execOrI (gd : Guard) (d a : Opnd) (imm : Word) (s : State) :
    Host.Outcome State Fault Refusal :=
  immOp (.orI gd d a imm) gd d a imm s orF

/-- XOR (R131). -/
def execXorG (gd : Guard) (ty : Ty) (d a b : Opnd) (s : State) :
    Host.Outcome State Fault Refusal :=
  binOp (.xorG gd ty d a b) gd ty d a b s xorF

/-- XOR, I form (R57, R131). -/
def execXorI (gd : Guard) (d a : Opnd) (imm : Word) (s : State) :
    Host.Outcome State Fault Refusal :=
  immOp (.xorI gd d a imm) gd d a imm s xorF

/-- ANDN (R131). -/
def execAndnG (gd : Guard) (ty : Ty) (d a b : Opnd) (s : State) :
    Host.Outcome State Fault Refusal :=
  binOp (.andnG gd ty d a b) gd ty d a b s andnF

/-- ANDN, I form (R57, R131). -/
def execAndnI (gd : Guard) (d a : Opnd) (imm : Word) (s : State) :
    Host.Outcome State Fault Refusal :=
  immOp (.andnI gd d a imm) gd d a imm s andnF

/-- NOT (R131). -/
def execNotG (gd : Guard) (ty : Ty) (d a : Opnd) (s : State) :
    Host.Outcome State Fault Refusal :=
  unOp (.notG gd ty d a) gd ty d a s notF

/-- POPC (R131). -/
def execPopc (gd : Guard) (ty : Ty) (d a : Opnd) (s : State) :
    Host.Outcome State Fault Refusal :=
  countOp (.popc gd ty d a) gd ty d a s popcF

/-- CLZ (R131). -/
def execClz (gd : Guard) (ty : Ty) (d a : Opnd) (s : State) :
    Host.Outcome State Fault Refusal :=
  countOp (.clz gd ty d a) gd ty d a s clzF

/-- CTZ (R131). -/
def execCtz (gd : Guard) (ty : Ty) (d a : Opnd) (s : State) :
    Host.Outcome State Fault Refusal :=
  countOp (.ctz gd ty d a) gd ty d a s ctzF

/-- BREV (R131). -/
def execBrev (gd : Guard) (ty : Ty) (d a : Opnd) (s : State) :
    Host.Outcome State Fault Refusal :=
  unOp (.brev gd ty d a) gd ty d a s brevF

/-- BFX (R132). -/
def execBfx (gd : Guard) (ty : Ty) (d a b c : Opnd) (s : State) : Host.Outcome State Fault Refusal :=
  lanewise (.bfx gd ty d a b c) gd [d, a, b, c] s fun e t =>
    e.putT t ty d (bfxF ty.signed ty.bits (e.srcT t ty a) (e.src t b).toNat (e.src t c).toNat)

/-- BFI (R132): reads d before it writes it; a field outside the width leaves d as it was. -/
def execBfi (gd : Guard) (ty : Ty) (d a b c : Opnd) (s : State) : Host.Outcome State Fault Refusal :=
  lanewise (.bfi gd ty d a b c) gd [d, a, b, c] s fun e t =>
    let pos := (e.src t b).toNat
    let wid := (e.src t c).toNat
    if ty.bits ≤ pos ∨ wid = 0 then t
    else e.putT t ty d (bfiF ty.bits (e.srcT t ty d) (e.srcT t ty a) pos wid)

/-- LEA (R133). -/
def execLea (gd : Guard) (d a b c : Opnd) (s : State) : Host.Outcome State Fault Refusal :=
  lanewise (.lea gd d a b c) gd [d, a, b, c] s fun e t =>
    e.put64 t d (BitVec.ofNat 64 (leaF (e.src64 t a).toNat (e.src t b).toNat (e.src t c).toNat))

/-- MOV (R134). -/
def execMov (gd : Guard) (ty : Ty) (d a : Opnd) (s : State) : Host.Outcome State Fault Refusal :=
  lanewise (.mov gd ty d a) gd [d, a] s fun e t => e.putT t ty d (e.srcT t ty a)

/-- MOVI (R134). -/
def execMovi (gd : Guard) (d : Opnd) (imm : Word) (s : State) : Host.Outcome State Fault Refusal :=
  lanewise (.movi gd d imm) gd [d] s fun e t => e.put t d imm

/-- MOVH (R134): the odd member of the pair that D names. -/
def execMovh (gd : Guard) (d : Opnd) (imm : Word) (s : State) : Host.Outcome State Fault Refusal :=
  lanewise (.movh gd d imm) gd [d] s fun _ t =>
    match d with
    | .g r => t.setReg (r.toNat + 1) imm
    | .t r => t.setTemp (r.toNat + 1) imm
    | .a _ | .p _ | .c _ | .bad _ => t

/-- SEL (R135). -/
def execSel (gd : Guard) (ty : Ty) (d a b c : Opnd) (s : State) : Host.Outcome State Fault Refusal :=
  lanewise (.sel gd ty d a b c) gd [d, a, b, c] s fun e t =>
    e.putT t ty d (if e.src t c = 0#32 then e.srcT t ty b else e.srcT t ty a)

/-- ICMP (R137). -/
def execIcmp (gd : Guard) (ty : Ty) (cond : Cond) (pn : BitVec 3) (a b : Opnd) (s : State) :
    Host.Outcome State Fault Refusal :=
  lanewise (.icmp gd ty cond pn a b) gd [a, b] s fun e t =>
    t.setPred pn.toNat (icmpF cond ty.signed ty.bits (e.srcT t ty a) (e.srcT t ty b))

/-- ICMP, I form: signed at 32 bits (R57, R137). -/
def execIcmpI (gd : Guard) (cond : Cond) (pn : BitVec 3) (a : Opnd) (imm : Word) (s : State) :
    Host.Outcome State Fault Refusal :=
  lanewise (.icmpI gd cond pn a imm) gd [a] s fun e t =>
    t.setPred pn.toNat (icmpF cond true 32 (e.src t a).toNat imm.toNat)

/-- PSET (R138). -/
def execPset (gd : Guard) (op : PredOp) (d a b : Opnd) (s : State) : Host.Outcome State Fault Refusal :=
  lanewise (.pset gd op d a b) gd [d, a, b] s fun e t =>
    e.put t d (if psetF op (e.src t a != 0#32) (e.src t b != 0#32) then 1#32 else 0#32)

/-- PMOV (R138): .GET reads p7 as 1, .PUT writes p0 to p6. -/
def execPmov (gd : Guard) (x : PmovForm) (s : State) : Host.Outcome State Fault Refusal :=
  match x with
  | .get d => lanewise (.pmov gd x) gd [d] s fun e t => e.put t d ((t.preds ||| 0x80#8).setWidth 32)
  | .put a => lanewise (.pmov gd x) gd [a] s fun e t =>
    { t with preds := (e.src t a).setWidth 8 ||| 0x80#8 }

end Sys2Proof.Machine
end

