-- ==== Sys2Proof/Machine/Lane.lean ====
section
/-! DEFINITION. The instructions that combine lanes of one rig (R149 to R154). -/

namespace Sys2Proof.Machine

/-- What a participant brings to a cross-lane instruction: its %lane number, its a and its b. -/
structure Part where
  lane : Nat
  a : Nat
  b : Nat
  deriving DecidableEq, Repr

/-- Two lanes combine when they stand in one rig; under protected mode primaries combine with primaries
and shadows with shadows (R149, R349). -/
def State.combine (s : State) (l m : LaneRef) : Bool :=
  l.wg == m.wg && l.rig == m.rig && (!(s.prot l.wg) || l.lane % 2 == m.lane % 2)

/-- The participants of a lane's rig, in ascending lane order, with what each reads (R149). -/
def State.parts (s : State) (ls : List LaneRef) (ra rb : Env → Thread → Nat) (l : LaneRef) : List Part :=
  let mine := ls.filter (s.combine l)
  (List.range 64).filterMap fun i =>
    (mine.find? fun m => m.lane == i).map fun m =>
      ⟨visLane (s.prot m.wg) i, ra (s.env m) (s.thread m), rb (s.env m) (s.thread m)⟩

/-- The a of the participant with a lane number. -/
def partAt (ps : List Part) (i : Nat) : Option Nat := (ps.find? fun p => p.lane == i).map Part.a

/-- A cross-lane slot: every participant reads before any writes (R8, R149). `f` gives a lane's new
thread from the participants of its rig and its own lane number. -/
def crossLane (i : Instr) (gd : Guard) (ops : List Opnd) (s : State) (ra rb : Env → Thread → Nat)
    (f : List Part → Nat → Env → Thread → Thread) : Host.Outcome State Fault Refusal :=
  issue i gd s fun s ls =>
    let s := s.taint ls ops
    s.mapLanes ls fun e t => f (s.parts ls ra rb e.lane) (visLane (s.prot e.lane.wg) e.lane.lane) e t

/-- The source lane of SHFL (R150); lane arithmetic is exact, so a number below 0 names no lane. -/
def shflLane (mode : ShflMode) (l b : Nat) : Option Nat :=
  match mode with
  | .idx => some b
  | .up => if b ≤ l then some (l - b) else none
  | .down => some (l + b)
  | .xor => some (l ^^^ b)

/-- SHFL (R150). -/
def execShfl (gd : Guard) (mode : ShflMode) (d a b : Opnd) (s : State) : Host.Outcome State Fault Refusal :=
  crossLane (.shfl gd mode d a b) gd [d, a, b] s (fun e t => (e.src t a).toNat) (fun _ _ => 0)
    fun ps l e t =>
      let own := (e.src t a).toNat
      let src := (shflLane mode l (e.src t b).toNat).bind (partAt ps)
      e.put t d (BitVec.ofNat 32 (src.getD own))

/-- The mask of .BAL (R151). -/
def ballot (ps : List Part) : Nat := ps.foldl (fun m p => if p.a = 0 then m else m + 2 ^ p.lane) 0

/-- VOTE (R151). -/
def execVote (gd : Guard) (mode : VoteMode) (d a : Opnd) (s : State) : Host.Outcome State Fault Refusal :=
  crossLane (.vote gd mode d a) gd [d, a] s (fun e t => (e.src t a).toNat) (fun _ _ => 0)
    fun ps _ e t =>
      match mode with
      | .all => e.put t d (if ps.all fun p => p.a != 0 then 1#32 else 0#32)
      | .any => e.put t d (if ps.any fun p => p.a != 0 then 1#32 else 0#32)
      | .bal => e.put64 t d (BitVec.ofNat 64 (ballot ps))

/-- The reduction of values of a type, with its status (R152). -/
def reduce (op : RedOp) (ty : Ty) (vs : List Nat) : Nat × Nat :=
  let w := ty.bits
  match op with
  | .add => (vs.foldl (· + ·) 0 % 2 ^ w, 0)
  | .min => match vs with
    | [] => (wrapInt w (intMax ty.signed w), 0)
    | v :: r => (r.foldl (fun x y => if toInt ty.signed w y < toInt ty.signed w x then y else x) v, 0)
  | .max => match vs with
    | [] => (wrapInt w (intMin ty.signed w), 0)
    | v :: r => (r.foldl (fun x y => if toInt ty.signed w x < toInt ty.signed w y then y else x) v, 0)
  | .and => (vs.foldl (· &&& ·) (2 ^ w - 1), 0)
  | .or => (vs.foldl (· ||| ·) 0, 0)
  | .xor => (vs.foldl (· ^^^ ·) 0, 0)
  | .fadd =>
    if vs.isEmpty then (0x80000000, 0)
    else
      let xs := vs.map f32
      let (x, fl) := roundResult .f32 .rne 0 (xs.any Num.isNan) (Num.sum false xs)
      (x, fl)
  | .fmin => match vs with
    | [] => (0x7F800000, 0)
    | v :: r => (r.foldl fmin32 (fmin32 v v), 0)
  | .fmax => match vs with
    | [] => (0xFF800000, 0)
    | v :: r => (r.foldl fmax32 (fmax32 v v), 0)

/-- REDX (R152). -/
def execRedx (gd : Guard) (ty : Ty) (op : RedOp) (d a : Opnd) (s : State) : Host.Outcome State Fault Refusal :=
  crossLane (.redx gd ty op d a) gd [d, a] s (fun e t => e.srcT t ty a) (fun _ _ => 0)
    fun ps _ e t =>
      let r := reduce op ty (ps.map Part.a)
      (e.putT t ty d r.1).raise r.2

/-- SCANX (R153). -/
def execScanx (gd : Guard) (ty : Ty) (op : RedOp) (exc : Bool) (d a : Opnd) (s : State) :
    Host.Outcome State Fault Refusal :=
  crossLane (.scanx gd ty op exc d a) gd [d, a] s (fun e t => e.srcT t ty a) (fun _ _ => 0)
    fun ps l e t =>
      let mine := ps.filter fun p => if exc then decide (p.lane < l) else decide (p.lane ≤ l)
      let r := reduce op ty (mine.map Part.a)
      (e.putT t ty d r.1).raise r.2

/-- BCST (R154): the leader's b names the source lane. -/
def execBcst (gd : Guard) (ty : Ty) (d a b : Opnd) (s : State) : Host.Outcome State Fault Refusal :=
  crossLane (.bcst gd ty d a b) gd [d, a, b] s (fun e t => e.srcT t ty a) (fun e t => (e.src t b).toNat)
    fun ps _ e t =>
      let src := (ps.head?.map Part.b).bind (partAt ps)
      e.putT t ty d (src.getD (e.srcT t ty a))

end Sys2Proof.Machine
end

