-- ==== Sys2Proof/Machine/System.lean ====
section
/-! DEFINITION. The system instructions: special registers, key permissions, cancels, device-side launches,
event counters and performance counters (R170 to R175). -/

namespace Sys2Proof.Machine

/-- The value of a special register as a lane reads it (R170). -/
def State.special (s : State) (l : LaneRef) (r : SReg) : Nat :=
  let t := s.thread l
  let p := s.prot l.wg
  let w := s.wg? l.wg
  let k := s.launchOf? l.wg
  let rc := k.map Launch.rcd
  let rig := s.rig? l.wg l.rig
  let core := (w.map Workgroup.core).getD 0
  match r with
  | .lane => visLane p l.lane
  | .team => visLane p l.lane / (if p then 2 else 4)
  | .rig => l.rig
  | .tid => s.tidOf l
  | .wgid => (w.map Workgroup.wgid).getD 0
  | .nwg => (k.map Launch.total).getD 0
  | .launch => (rc.map LaunchRec.ident).getD 0
  | .graph => (rc.map LaunchRec.graph).getD 0
  | .phase => (rc.map LaunchRec.phase).getD 0
  | .job => (rc.map LaunchRec.job).getD 0
  | .time => s.time
  | .readfloor => t.readfloor
  | .rowprog => (rig.map fun q => q.rowprog.toNat).getD 0
  | .pkperm => (w.map fun w => w.pkperm.toNat).getD 0
  | .cstk => 65536 * t.spilled + t.stack.length + (if t.refill then 1 else 0)
  | .cspill => s.cspill l
  | .aset => (rig.map fun q => q.aset.toNat).getD 0
  | .vf => (k.map Launch.vf).getD 0
  | .core => core
  | .die => dieOf core
  | .bay => (rig.map Rig.bay).getD 0
  | .status => t.status.toNat
  | .lfsr => t.lfsr.toNat
  | .tframe => s.tframe l

/-- MOVS (R170). -/
def execMovs (gd : Guard) (d : Opnd) (sr : SReg) (s : State) : Host.Outcome State Fault Refusal :=
  issue (.movs gd d sr) gd s fun s ls =>
    (s.taint ls [d]).mapLanes ls fun e t =>
      let v := s.special e.lane sr
      if sr.wide then e.put64 t d (BitVec.ofNat 64 v) else e.put t d (BitVec.ofNat 32 v)

/-- The rigs of some lanes. -/
def rigsOf (ls : List LaneRef) : List (Nat × Nat) := (ls.map fun l => (l.wg, l.rig)).eraseDups

/-- The lanes of a rig among some lanes. -/
def ofRig (ls : List LaneRef) (r : Nat × Nat) : List LaneRef := ls.filter fun l => l.wg == r.1 && l.rig == r.2

/-- A write to %aset of a rig, from its lowest executing lane (R170). -/
def State.writeAset (s : State) (ls : List LaneRef) (a : Opnd) (r : Nat × Nat) : State :=
  match ofRig ls r with
  | [] => s
  | l :: _ =>
    let v := (s.env l).src (s.thread l) a
    if (s.limits r.1).2.1 ≤ v.toNat then s.strikeAll (ofRig ls r) (.of causeILLOPD 0)
    else s.setRig r.1 r.2 fun q => { q with aset := v }

/-- MOVSW (R170): %status keeps its reserved bits zero (R108), and a zero written to %lfsr stores 1. -/
def execMovsw (gd : Guard) (sr : SReg) (a : Opnd) (s : State) : Host.Outcome State Fault Refusal :=
  issue (.movsw gd sr a) gd s fun s ls =>
    let s := s.taint ls [a]
    match sr with
    | .aset => (rigsOf ls).foldl (fun s r => s.writeAset ls a r) s
    | .status => s.mapLanes ls fun e t => { t with status := e.src t a &&& 0x3F#32 }
    | .lfsr => s.mapLanes ls fun e t => { t with lfsr := if e.src t a = 0#32 then 1#32 else e.src t a }
    | .lane | .team | .rig | .tid | .wgid | .nwg | .launch | .graph | .phase | .job | .time | .readfloor
    | .rowprog | .pkperm | .cstk | .cspill | .vf | .core | .die | .bay | .tframe => s

/-- PKSET (R171): a bad value in any lane strikes every executing lane and changes nothing. -/
def execPkset (gd : Guard) (a b : Opnd) (s : State) : Host.Outcome State Fault Refusal :=
  issue (.pkset gd a b) gd s fun s ls =>
    let s := s.taint ls [a, b]
    let pair (l : LaneRef) : Nat × Nat :=
      (((s.env l).src (s.thread l) a).toNat, ((s.env l).src (s.thread l) b).toNat)
    if ls.any fun l => decide (31 < (pair l).1) || decide (3 < (pair l).2) then
      s.strikeAll ls (.of causeILLOPD 0)
    else
      ls.foldl (fun s l => s.setWg l.wg fun w =>
        { w with pkperm := BitVec.ofNat 64 (setBits w.pkperm.toNat (2 * (pair l).1) 2 (pair l).2) }) s

/-- The virtual function and the job of a lane's launch. -/
def State.owner (s : State) (l : LaneRef) : Nat × Nat :=
  ((s.launchOf? l.wg).map fun k => (k.vf, k.rcd.job)).getD (0, 0)

/-- CANCEL (R172): each lane's request in ascending order; an identity of another job is misuse. -/
def execCancel (gd : Guard) (lvl : Level) (hard : Bool) (a : Opnd) (s : State) :
    Host.Outcome State Fault Refusal :=
  issue (.cancel gd lvl hard a) gd s fun s ls =>
    let s := s.taint ls [a]
    let (s, ok) := s.agree (ls.map fun l => (l, (s.env l).src (s.thread l) a))
    ok.foldl (fun s x =>
      let (v, job) := s.owner x.1
      let id := x.2.toNat
      let hits := s.launches.filter fun k => k.vf == v && k.identAt lvl == id
      if hits.any fun k => k.rcd.job != job then s.strikePair x.1 (.of causeOBJMIS 0)
      else s.cancel v lvl id hard (some job)) s

/-- Whether a graph is owned by a job of a function (R315). -/
def State.ownsGraph (s : State) (v job graph : Nat) : Bool :=
  s.launches.any fun k => k.vf == v && k.rcd.graph == graph && k.rcd.job == job

/-- The record of an ENQL as the dispatcher admits it (R315): GRAPH, JOB and CTX are replaced. A full queue
refuses it. -/
def State.enqueue (s : State) (l : LaneRef) (graph : Nat) (raw : List Byte) : State :=
  match s.launchOf? l.wg with
  | none => s
  | some k =>
    let f := { recFields (leNat raw) with graph := graph, job := k.rcd.job, ctx := k.rcd.ctx }
    if s.queueUse k.vf f.queue < 64 then s.admitRecord k.vf f raw none
    else
      let (id, s) := s.newLaunch k.vf f raw
      s.refuse id .queueFull

/-- ENQL of one lane (R173): its checks, the record read at dev scope, the dispatcher's acceptance, and the
end of the issuing launch's replayability (R348). -/
def State.enqlLane (s : State) (l : LaneRef) (va graph : Nat) : State × Fate :=
  let (v, job) := s.owner l
  if va % 256 ≠ 0 then (s, .trap (.of causeMISAL va))
  else if !(s.ownsGraph v job graph) then (s, .trap (.of causeOBJMIS 0))
  else match s.globalFate l .read va with
    | (s, .go p) =>
      let s := s.settle l p 256 s.serial
      let (launch, core) := s.homeOfLane l
      let bad := !(s.badSectors p.addr 256).isEmpty
      let s := (s.reportChecks p.addr 256).dropCopies core (p.addr / 128)
      if bad then (s.consume launch, .go p)
      else ((s.enqueue l graph (s.homeRead p.addr 256)).unreplay launch, .go p)
    | r => r

/-- One lane of ENQL after those before it (R173). Once a lane of a workgroup has met a page fault, it and the later
ones of that workgroup stand on its replay list, where they enqueue in the same order; `late` lists those
workgroups. Lanes of other workgroups go on: log entry 115. -/
def State.enqlNext (s : State) (l : LaneRef) (va graph : Nat) (late : List Nat) : State × List Nat :=
  if s.stalledNow then (s, late)
  else if late.contains l.wg then
    (if s.replayFull l.wg then s.stall else (s.addReplay l .instr s.slotWord va []).servePair l, late)
  else
    match s.enqlLane l va graph with
    | (s, .go _) => (s.servePair l, late)
    | (s, .fault fva e pa) => (s.faultLane l .read [] va fva e pa, late ++ [l.wg])
    | (s, f) => (s.miss l .read [] f, late)

/-- ENQL (R173): the thread's earlier stores drain at dev scope, then each lane enqueues in ascending order. -/
def execEnql (gd : Guard) (a b : Opnd) (s : State) : Host.Outcome State Fault Refusal :=
  issue (.enql gd a b) gd s fun s ls =>
    let s := s.taint ls [a, b]
    if !(ls.all fun l => s.released l .dev) then s.stall
    else
      let (s, ok) := s.agree (ls.map fun l =>
        (l, ((s.env l).src64 (s.thread l) a, (s.env l).src (s.thread l) b)))
      (ok.foldl (fun (acc : State × List Nat) x => acc.1.enqlNext x.1 x.2.1.toNat x.2.2.toNat acc.2) (s, [])).1

/-- EVSIG (R174): earlier stores drain at sys scope; then each lane adds in ascending order. -/
def execEvsig (gd : Guard) (a b : Opnd) (s : State) : Host.Outcome State Fault Refusal :=
  issue (.evsig gd a b) gd s fun s ls =>
    let s := s.taint ls [a, b]
    if !(ls.all fun l => s.released l .sys) then s.stall
    else
      let (s, ok) := s.agree (ls.map fun l =>
        (l, ((s.env l).src (s.thread l) a, (s.env l).src (s.thread l) b)))
      ok.foldl (fun s x =>
        let (v, _) := s.owner x.1
        if 4096 ≤ x.2.1.toNat then s.strikePair x.1 (.of causeOBJMIS 0)
        else (s.addEvc v x.2.1.toNat x.2.2.toNat).unreplay (s.homeOfLane x.1).1) s

/-- CTRD (R175, R331): the live count, or the saved one of a function out of service. -/
def execCtrd (gd : Guard) (d a : Opnd) (s : State) : Host.Outcome State Fault Refusal :=
  issue (.ctrd gd d a) gd s fun s ls =>
    let s := s.taint ls [d, a]
    let slot (l : LaneRef) : Nat := ((s.env l).src (s.thread l) a).toNat
    let s' := s.strikeAll (ls.filter fun l => 3 < slot l) (.of causeILLOPD 0)
    s'.mapLanes (ls.filter fun l => slot l ≤ 3) fun e t =>
      let v := (s.owner e.lane).1
      e.put64 t d (BitVec.ofNat 64 ((s.vf v).ctrs.cnt.getD (slot e.lane) 0))

end Sys2Proof.Machine
end

