-- ==== Sys2Proof/Machine/Swap.lean ====
section
/-! DEFINITION. Fault swaps and restores of workgroups (R40, R181, R203, R246, R305, R306, R327, R355). -/

namespace Sys2Proof.Machine

/-! FAULT_SWAP. -/

/-- FAULT_SWAP (R40, R327): the context goes to a frame of the pool, the commands stop at their restart points
(R246), and the slots are freed. Without room in the pool the workgroup keeps its slots. A hard cancel that
has come first ends it instead (R38). -/
def execFaultSwap (wg : Nat) (s : State) : Host.Outcome State Fault Refusal :=
  let s := s.sweep
  conclude (match s.wg? wg with
    | none => s
    | some w =>
      if !(s.swapReady w) then s
      else match s.frameFor w with
        | none => s
        | some (a, bytes, s) =>
          let s := (s.groupsOf w).foldl (fun s g => s.leaveAt w.core g (g.lanes.filter fun l => l.wg == wg)) s
          let s := (s.cmds.filter fun c => c.lane.wg == wg).foldl State.stopCmd s
          let s := s.leaveBays wg w.core
          let s := s.setWg wg fun w => { w with phase := .swapped, frame := some (a, bytes) }
          let s := match s.launch? w.launch with
            | some l => s.useDie l.ctx.tag (dieOfPa a)
            | none => s
          (s.writeFrame a bytes).tidy w.core)

/-! WORKGROUP_RESTORE. -/

/-- Whether an address that faulted translates now, to a die that answers (R305, R338). -/
def State.translates (s : State) (w : Workgroup) (l : Launch) (va : Nat) : Bool :=
  match walk s l.ctx (dieOf w.core) va with
  | .absent _ _ => false
  | .held => false
  | .malformed => true
  | .leaf e _ _ _ _ _ => gate s (pteFrame e) != .held

/-- The walks of those addresses read table lines (R353). -/
def State.walkAgain (s : State) (w : Workgroup) (l : Launch) (vas : List Nat) : State :=
  vas.foldl (fun s va => s.noteWalk l.ctx.tag (walkAll s l.ctx (.l2 (dieOf w.core)) (dieOf w.core) va).2) s

/-- The place of a replay entry's access, for a trap. -/
def Replay.group (r : Replay) (kslot : Nat) : Group :=
  { lanes := [], kslot := kslot, pc := r.pc, ecls := 0, size := 16
    words := List.replicate r.slot .filler ++ [.word r.word], slot := r.slot, clock := 0, stalled := false
    more := false, tenure := 0, age := 0, spent := false, served := [], work := [], issue := 0, missed := [], before := [] }

/-- Perform an entry of a replay list; ENQL is its whole instruction (R306). -/
def State.replayAny (s : State) (wg : Nat) (r : Replay) : State × Replayed :=
  match r.kind, decode r.word with
  | .instr, .ok (.enql _ _ b) =>
    let l : LaneRef := ⟨wg, r.rig, r.lane⟩
    if !(s.released l .dev) then (s, .stays)
    else
      let graph := ((s.env l).src (s.thread l) b).toNat
      match s.enqlLane l r.addr graph with
      | (s, f) => (s, f.replayed .read)
  | _, _ => s.replay wg r

/-- Perform entries in order, until one cannot be performed yet or faults again: it stays on the list with
those after it (R306). -/
def State.replayList (s : State) (w : Workgroup) (kslot : Nat) : List Replay → State × List Replay
  | [] => (s, [])
  | r :: rest =>
    match s.replayAny w.id r with
    | (s, .gone) => State.replayList s w kslot rest
    | (s, .stays) => (s, r :: rest)
    | (s, .struck i) =>
      let s := s.strikeIn w.core (r.group kslot) ((s.twins ⟨w.id, r.rig, r.lane⟩).map fun m => (m, i))
      State.replayList s w kslot rest
    | (s, .faults va k e pa) => (s.takeFault w.id va k e pa, r :: rest)

/-- The replay of a workgroup on its core, after which it runs, or waits for its commands. What a full list has turned
away is taken again after the list (R306). -/
def State.replayAll (s : State) (wg : Nat) : State :=
  match s.wg? wg with
  | none => s
  | some w =>
    let s := s.setWg wg fun w => { w with replay := [], again := [] }
    let start := s.serial
    let (s, rest) := s.replayList w ((s.kslotOf w).getD 0) w.listed
    let s := s.setWg wg fun w =>
      let all := rest ++ w.listed
      { w with replay := all.take Config.replayEntries, again := all.drop Config.replayEntries }
    (s.countL1 start).goOn wg

/-- The stochastic register of a thread of a workgroup as R106 seeds it. -/
def Launch.seedOf (l : Launch) (wgid rig lane : Nat) : Word :=
  lfsrSeed l.rcd.seed (visWidth l.rcd.prot * rig + visLane l.rcd.prot lane) wgid

/-- A swapped workgroup as its frame in memory gives it, and whether its stopped commands are there, or none where the
frame is corrupt: a sector that fails its check or is poisoned, a die that is out of service, or a required section that
cannot be read (R327, R355). -/
def State.fromPool (s : State) (w : Workgroup) (l : Launch) : Option (Workgroup × Bool) :=
  w.frame.bind fun f =>
    if gate s f.1 == .refused || !(s.badSectors f.1 f.2.length).isEmpty then none
    else (l.rcd.readFrame (s.homeRead f.1 f.2.length) f.2).map fun now =>
      (w.fromFrame now (l.seedOf w.wgid), hasEngine now)

/-- A frame without an ENGINE section leaves no stopped command (R327). -/
def State.dropStopped (s : State) (wg : Nat) : State :=
  { s with cmds := s.cmds.filter fun c => !(c.lane.wg == wg && c.stopped) }

/-- A workgroup whose context has come back: its replay list is issued before it runs (R305), and the wake conditions
of its threads are tested afresh (R40). -/
def Workgroup.restored (w : Workgroup) : Workgroup :=
  { w with
    phase := .resuming, frame := none, watches := [], faults := []
    rigs := w.rigs.map fun q => { q with due := [] } }

/-- WORKGROUP_RESTORE (R40, R305, R328): a swapped workgroup whose faults translate returns to its core when
that has room and its function is in service there; a corrupt frame rolls its launch back or ends it (R355).
The replay list is issued first. A job that a relay has sent stays where it is (R334), and a job that
has come here waits for the stores of its pages (R225). -/
def execWorkgroupRestore (wg : Nat) (s : State) : Host.Outcome State Fault Refusal :=
  let s := { s with fresh := s.fresh + 1 }
  conclude (match s.wg? wg with
    | none => s
    | some w =>
      match s.launch? w.launch with
      | none => s
      | some l =>
        let vas := w.faults ++ w.listed.map fun r => s.replayVa wg r
        let free := s.coreAlive w.core && s.serves l.vf (clusterOf w.core) && s.fits w.core l && !l.hard && !(s.relaySent l) && s.storesDone l
        if w.phase == .resuming && !w.listed.isEmpty then s.replayAll wg
        else if w.phase != .swapped then s
        else
          let s := s.walkAgain w l vas
          if !free || !(vas.all fun va => s.translates w l va) then s
          else
            let at' := w.frame.getD (0, [])
            match s.fromPool w l with
            | none => (s.reportChecks at'.1 at'.2.length).rollbackOr l.id .contextLost
            | some (back, engine) =>
              match s.needKernel w.core l with
              | (s, false) => s
              | (s, true) =>
                let s := (s.poolFree l.vf at'.1).setWg wg fun _ => back.restored
                let s := if engine then s else s.dropStopped wg
                ((s.holdGrid w.core l).enterBays wg w.core w.rigs.length).replayAll wg)

end Sys2Proof.Machine
end

