-- ==== Sys2Proof/Machine/Relay.lean ====
section
/-! DEFINITION. The relay engines: pre-copy, drain, the stream and its admission at the destination (R333 to
R335, R308, R343). -/

namespace Sys2Proof.Machine

/-- Update a relay engine. -/
def State.setRelay (s : State) (e : Nat) (f : Relay → Relay) : State :=
  { s with relays := modifyAt s.relays e f }

/-- The notification of a relay's end (R312, R335). -/
def State.notifyRelay (s : State) (e job vf : Nat) : State :=
  s.notify pfNumber (notifyRecord e 0 0 job vf 0 4)

/-- Send a section over Ultra Ethernet. Its nonce is the session number and a count of the sections that either engine
has sent, which never begins anew, so that no nonce is used twice (R334, log entry 15). -/
def State.sendSection (s : State) (e : Nat) (b : Body) : State :=
  let n := (s.relays.map Relay.sections).foldl (· + ·) 0
  (s.setRelay e fun r =>
    { r with
      stream := r.stream ++ [⟨b, r.rlsess * 2 ^ 64 + n % 2 ^ 64, true⟩], sections := r.sections + 1 }).countFabric 0x42

/-- The unended launches of the job of a relay. -/
def State.jobLaunches (s : State) (r : Relay) : List Launch := s.launches.filter r.moves

/-! Pre-copy rounds (R308, R334). -/

/-- Send the unit of a set bit: false when a sector of it fails its check (R343). A unit without a present
leaf is not sent, and one on a die that trains waits with its bit set again (R338). -/
def State.sendPage (s : State) (e : Nat) (ctx : CtxCopy) (va : Nat) : State × Bool :=
  match translate s ctx (.relay e) 0 none 0#64 .any va with
  | (s, .ok p _) =>
    let bad := !(s.badSectors p.addr 4096).isEmpty
    let s := s.reportChecks p.addr 4096
    if bad then (s, false)
    else
      let data := s.homeRead p.addr 4096
      ((s.sendSection e (.page va data)).setRelay e fun r =>
        { r with pages := r.pages + 1, roundPages := r.roundPages + 1 }, true)
  | (s, .fault _ _) => (s, true)
  | (s, .deny) => (s, true)
  | (s, .high) => (s, true)
  | (s, .held) => (s.markDirty ctx va 1, true)

/-- Read and clear a word of a bitmap, and send the units of its bits; a word in a sector that fails its check aborts the
relay (R343). -/
def State.sendWord (s : State) (e : Nat) (ctx : CtxCopy) (k : Nat) : State × Bool :=
  let pa := ctx.dbm + 8 * k
  let bad := s.sectorBad (pa / 32)
  let s := s.reportChecks pa 8
  let w := s.read64 pa
  if bad then (s, false)
  else if w = 0 then (s, true)
  else
    let s := (s.hwWrite true false pa (leBytes 8 0)).2
    (List.range 64).foldl (fun (a : State × Bool) i =>
      if a.2 && bit w i && decide (ctx.dlo + 64 * k + i < ctx.dhi) then
        a.1.sendPage e ctx (4096 * (ctx.dlo + 64 * k + i))
      else a) (s, true)

/-- The contexts of a relay's job that have a bitmap. -/
def State.trackedCtxs (s : State) (r : Relay) : List CtxCopy :=
  ((s.jobLaunches r).map Launch.ctx).eraseDups.filter fun c => c.dbm != 0

/-- Whether the bitmaps of a relay's job have a set bit: a unit that waits for its die (R338). -/
def State.dirtyLeft (s : State) (r : Relay) : Bool :=
  (s.trackedCtxs r).any fun c => (List.range ((c.dhi - c.dlo + 63) / 64)).any fun k => s.read64 (c.dbm + 8 * k) != 0

/-- One round over the dirty bitmaps of the job's contexts. -/
def State.sendRound (s : State) (e : Nat) : State × Bool :=
  match s.relays[e]? with
  | none => (s, true)
  | some r =>
    (s.trackedCtxs r).foldl (fun (a : State × Bool) c =>
      (List.range ((c.dhi - c.dlo + 63) / 64)).foldl (fun (a : State × Bool) k =>
        if a.2 then a.1.sendWord e c k else a) a) (s, true)

/-- A round, after which the relay goes on or, with a sector that failed its check, is refused (R343). -/
def State.runRound (s : State) (e : Nat) : State :=
  match (s.setRelay e fun r => { r with roundPages := 0 }).sendRound e with
  | (s, true) => s
  | (s, false) => s.relayRefused e

/-- RELAY_START (R333, R334): a relay of a job begins with its first round. -/
def execRelayStart (engine : Nat) (s : State) : Host.Outcome State Fault Refusal :=
  conclude (match (s.relays[engine]?).map Relay.phase with
    | some .idle | some .done =>
      (s.setRelay engine fun r =>
        { r with
          phase := .copying, refused := false, pages := 0, round := 1, stream := []
          phases := [] }).runRound engine
    | some .copying | some .draining | some .sent | none => s)

/-- PRE_COPY_ROUND_END (R334): the last round sent few pages, or was the last allowed: the drain begins, and
only launches of phases that run are placed; else the next round follows. -/
def execPreCopyRoundEnd (engine : Nat) (s : State) : Host.Outcome State Fault Refusal :=
  conclude (match s.relays[engine]? with
    | none => s
    | some r =>
      if r.phase != .copying then s
      else if r.roundPages ≤ r.rlthr ∨ r.rlrounds ≤ r.round then
        let running := (s.jobLaunches r).filter fun l => l.stage == .running && decide (0 < l.nextWg)
        s.setRelay engine fun r => { r with phase := .draining, phases := (running.map fun l => l.rcd.phase).eraseDups }
      else (s.setRelay engine fun r => { r with round := r.round + 1 }).runRound engine)

/-- RELAY_ABORT (R333): RLCTL = 2; the job goes on here. -/
def execRelayAbort (engine : Nat) (s : State) : Host.Outcome State Fault Refusal :=
  conclude (s.setRelay engine fun r => { r with phase := .idle, stream := [], phases := [] })

/-! The drain's end. -/

/-- Whether no workgroup of the job is on a core and none of its commands or accesses is in flight. -/
def State.jobDrained (s : State) (r : Relay) : Bool :=
  let ids := (s.jobLaunches r).map Launch.id
  s.wgs.all (fun w => !(ids.contains w.launch) || w.phase == .swapped) &&
    s.cmds.all (fun c => !(ids.contains c.launch) || c.stopped) &&
    s.loads.all (fun p => !(ids.contains p.launch)) && s.stores.all (fun p => !(ids.contains p.launch)) &&
    s.ringMsgs.all fun m => !(ids.contains m.launch)

/-- Whether the frame of a swapped workgroup can be read as it is sent (R343). -/
def State.frameGood (s : State) (w : Workgroup) : Bool :=
  (w.frame.map fun f => gate s f.1 != .refused && (s.badSectors f.1 f.2.length).isEmpty).getD false

/-- The checks of the frames that a relay sends: each failed one is reported, and the relay is aborted (R343). -/
def State.checkFrames (s : State) (ws : List Workgroup) : State × Bool :=
  (ws.foldl (fun s w => (w.frame.map fun f => s.reportChecks f.1 f.2.length).getD s) s, ws.all s.frameGood)

/-- RELAY_DRAIN_END (R334): the last dirty pages, the frames, the queue entries, the counters and the end are
sent. While a last page waits for its die (R338), so do they. -/
def execRelayDrainEnd (engine : Nat) (s : State) : Host.Outcome State Fault Refusal :=
  conclude (match s.relays[engine]? with
    | none => s
    | some r =>
      if r.phase != .draining || !(s.jobDrained r) then s
      else match s.sendRound engine with
        | (s, false) => s.relayRefused engine
        | (s, true) =>
          if s.dirtyLeft r then s
          else
          let ls := s.jobLaunches r
          let ids := ls.map Launch.id
          let ws := s.wgs.filter fun w => ids.contains w.launch
          match s.checkFrames ws with
          | (s, false) => s.relayRefused engine
          | (s, true) =>
            let frames := ws.map fun w => Body.frame w (s.cmds.filter fun c => c.lane.wg == w.id)
            let bodies := frames ++ ls.map Body.qentry ++ [.evc (s.vf (bits r.rljob 32 5)).evc, .fin]
            (bodies.foldl (fun s b => s.sendSection engine b) s).setRelay engine fun r => { r with phase := .sent })

/-- The launches of a job that has moved end as under a hard cancel, without raising counters. -/
def State.moveAway (s : State) (r : Relay) : State :=
  { s with launches := s.launches.map fun l =>
      if r.moves l then
        { l with
          status := if l.status == .done then .cancelled else l.status
          noPlace := true, hard := true, rollback := none, quiet := true }
      else l }

/-- RELAY_ACK (R335): the destination has admitted the job: its launches end here as under a hard cancel,
without raising counters. -/
def execRelayAck (engine : Nat) (s : State) : Host.Outcome State Fault Refusal :=
  conclude (match s.relays[engine]? with
    | none => s
    | some r =>
      if r.phase != .sent then s
      else
        let s := (s.countFabric 0x43).moveAway r
        ((s.setRelay engine fun r => { r with phase := .done, stream := [], phases := [] }).notifyRelay
          engine (bits r.rljob 0 32) (bits r.rljob 32 5)).sweep)

/-- RELAY_REFUSAL (R335): the destination refused the stream; the job resumes here unchanged. -/
def execRelayRefusal (engine : Nat) (s : State) : Host.Outcome State Fault Refusal :=
  conclude (match (s.relays[engine]?).map Relay.phase with
    | some .copying | some .draining | some .sent => (s.countFabric 0x43).relayRefused engine
    | some .idle | some .done | none => s)

/-! The destination (R335). -/

/-- The parts of a stream. -/
def streamPages (l : List Sealed) : List (Nat × List Byte) :=
  l.filterMap fun x => match x.body with
    | .page va d => some (va, d)
    | .frame _ _ | .qentry _ | .evc _ | .fin | .other _ => none

def streamFrames (l : List Sealed) : List (Workgroup × List Cmd) :=
  l.filterMap fun x => match x.body with
    | .frame w cs => some (w, cs)
    | .page _ _ | .qentry _ | .evc _ | .fin | .other _ => none

def streamEntries (l : List Sealed) : List Launch :=
  l.filterMap fun x => match x.body with
    | .qentry k => some k
    | .page _ _ | .frame _ _ | .evc _ | .fin | .other _ => none

def streamCounters (l : List Sealed) : Option (Map Dword) :=
  l.findSome? fun x => match x.body with
    | .evc m => some m
    | .page _ _ | .frame _ _ | .qentry _ | .fin | .other _ => none

/-- Whether a frame of a stream has its queue entry in it, and every section that a frame of that launch must have
(R327, R355). -/
def frameCame (l : List Sealed) (f : Workgroup × List Cmd) : Bool :=
  match (streamEntries l).find? fun k => k.id == f.1.launch, f.1.frame with
  | some k, some (_, bytes) => (k.rcd.readFrame bytes bytes).isSome
  | _, _ => false

/-- Whether a stream passes its checks: every tag and check value, with the required end last, and a queue
entry for every frame, which is whole. -/
def streamOk (l : List Sealed) : Bool :=
  l.all Sealed.pass && (l.getLast?.map fun x => x.body == .fin).getD false && (streamFrames l).all (frameCame l)

/-- Write the pages of a stream through a context of the destination, with the snapshot copies, the D bits and the dirty
bits of every write (R297, R308, R346): the state, and the serial numbers of the writes; none where a page has no
place. -/
def State.landPages (s : State) (e : Nat) (ctx : CtxCopy) : List (Nat × List Byte) → List Nat → Option (State × List Nat)
  | [], ids => some (s, ids)
  | p :: rest, ids =>
    match translate s ctx (.relay e) 0 none 0#64 .any p.1 with
    | (s, .ok q _) =>
      let r := ((s.copyOnPhysical q.addr p.2.length).setDirtyBit q).hwWrite false false q.addr p.2
      State.landPages (r.2.markDirty ctx p.1 p.2.length) e ctx rest (ids ++ [r.1])
    | (_, .fault _ _) => none
    | (_, .deny) => none
    | (_, .high) => none
    | (_, .held) => none

/-- A thread that has come with its job: what was performed before the drain happens before all that it does from now on
(R225). Its times were those of another module. -/
def Thread.arrive (now : Nat) (t : Thread) : Thread := { t with readfloor := now, seenPub := 0, age := 0 }

/-- A workgroup that has come with its job, swapped out, with its frame in the pool here. -/
def Workgroup.arrive (now a : Nat) (bytes : List Byte) (w : Workgroup) : Workgroup :=
  { w with
    frame := some (a, bytes), phase := .swapped, watches := [], faults := [], loftPub := [], slotPub := []
    rigs := w.rigs.map fun q =>
      { q with tokPub := [], lastIssue := 0, ready := none, threads := q.threads.map (Thread.arrive now) } }

/-- Frames for the workgroups of a stream in the function's pool, written to dies that their context spans from then on
(R353). -/
def State.landFrames (s : State) (v : Nat) (tag : CtxTag) : List (Workgroup × List Cmd) → Option State
  | [] => some s
  | f :: rest =>
    let bytes := (f.1.frame.map Prod.snd).getD []
    match s.poolAlloc v bytes.length 4096 with
    | none => none
    | some (a, s) =>
      let s : State := { s with wgs := s.wgs ++ [f.1.arrive s.time a bytes], cmds := s.cmds ++ f.2 }
      State.landFrames ((s.useDie tag (dieOfPa a)).writeFrame a bytes) v tag rest

/-- Serial numbers of a stream moved out of the way of those in use here. -/
def Cmd.shift (k : Nat) (c : Cmd) : Cmd :=
  { c with id := c.id + k, launch := c.launch + k, lane := { c.lane with wg := c.lane.wg + k } }

def Workgroup.shift (k : Nat) (w : Workgroup) : Workgroup :=
  { w with
    id := w.id + k, launch := w.launch + k
    slices := w.slices.map fun x => { x with cmd := x.cmd + k } }

/-- A queue entry as the destination takes it: its record, its number of completed workgroups, and the number
of the next one after those that travel as frames. A replayable launch of which no workgroup has been placed takes its
snapshot here (R345); one with a snapshot there has none here (log entry 19). Its work waits for the stores of its pages
(R225). None if its queue has no free entry (log entry 77). -/
def State.landEntry (s : State) (v k : Nat) (tracks : List Nat) (frames : Nat) (l : Launch) : Option State :=
  if 64 ≤ s.queueUse v l.rcd.queue then none
  else
    some ({ s with launches := s.launches ++
      [{ l with
         id := l.id + k, vf := v, ctx := s.ctxCopy v l.rcd.ctx, stage := .admitting, order := s.serial
         nextWg := l.wgdone + frames, repl := l.repl && l.wgdone + frames == 0, rollback := none, snap := [], snapAt := none, snapTracks := tracks
         watches := [], quiet := false, hard := false, noPlace := false, admitted := s.time, readyAt := s.time }] }.runAdmission
      (l.id + k))

/-- The queue entries of a stream, in their order. -/
def State.landEntries (s : State) (v k : Nat) (tracks : List Nat) (l : List Sealed) : List Launch → Option State
  | [] => some s
  | q :: rest =>
    (s.landEntry v k tracks ((streamFrames l).filter fun f => f.1.launch == q.id).length q).bind fun s =>
      State.landEntries s v k tracks l rest

/-- The largest serial number of a stream. -/
def streamSpan (l : List Sealed) : Nat :=
  (streamFrames l).foldl (fun n f => f.2.foldl (fun n c => max n c.id) (max n f.1.id))
    ((streamEntries l).foldl (fun n k => max n k.id) 0) + 1

/-- Admit a stream that passed its checks: pages, frames, counters and queue entries; none where one of them has no
place, in which case nothing of it stands. -/
def State.admitStream (s : State) (e v : Nat) (l : List Sealed) : Option State :=
  let ctx := s.ctxCopy v (((streamEntries l).head?.map fun k => k.rcd.ctx).getD 0)
  let k := s.serial
  let s := { s with serial := s.serial + streamSpan l }
  (s.landPages e ctx (streamPages l) []).bind fun r =>
    (r.1.landFrames v ctx.tag ((streamFrames l).map fun f => (f.1.shift k, f.2.map (Cmd.shift k)))).bind fun s =>
      let s := match streamCounters l with
        | some m => m.foldl (fun (s : State) (c : Nat × Dword) => s.setEvc v c.1 c.2.toNat) s
        | none => s
      s.landEntries v k r.2 l (streamEntries l)

/-- Whether the memory that a stream needs is on a die that trains (R338): its pages, or the frame pool. -/
def State.streamHeld (s : State) (e v : Nat) (l : List Sealed) : Bool :=
  let ctx := s.ctxCopy v (((streamEntries l).head?.map fun k => k.rcd.ctx).getD 0)
  let f := s.vf v
  (streamPages l).any (fun p => (translate s ctx (.relay e) 0 none 0#64 .any p.1).2 == .held) ||
    (!(streamFrames l).isEmpty && (gate s f.frameb == .held || gate s (f.frameb + f.framesz - 1) == .held))

/-- RELAY_STREAM_RECEIVED (R335, R355): the destination checks a stream and admits its job, or discards it
whole; either end is notified. -/
def execRelayStreamReceived (idx : Nat) (s : State) : Host.Outcome State Fault Refusal :=
  let s := { s with fresh := s.fresh + 1 }
  conclude (match s.inbox[idx]? with
    | none => s
    | some (e, v, l) =>
      let job := ((streamEntries l).head?.map fun k => k.rcd.job).getD 0
      if streamOk l && decide (v < 32) && s.streamHeld e v l then s
      else
      let s := { s with inbox := s.inbox.eraseIdx idx }
      let s := if streamOk l && decide (v < 32) then (s.admitStream e v l).getD s else s
      (s.countFabric 0x42).notifyRelay e job v)

end Sys2Proof.Machine
end

