-- ==== Sys2Proof/Machine/Dispatch.lean ====
section
/-! DEFINITION. One arm for each constructor of `Instr`: a direct call of its meaning. -/

namespace Sys2Proof.Machine

/-- The meaning of an instruction or step. -/
def exec (i : Instr) (s : State) : Host.Outcome State Fault Refusal :=
  match i with
  | .iadd gd ty d a b => Sys2Proof.Machine.execIadd gd ty d a b s
  | .iaddI gd d a imm => Sys2Proof.Machine.execIaddI gd d a imm s
  | .isub gd ty d a b => Sys2Proof.Machine.execIsub gd ty d a b s
  | .isubI gd d a imm => Sys2Proof.Machine.execIsubI gd d a imm s
  | .iaddc gd ty d a b c => Sys2Proof.Machine.execIaddc gd ty d a b c s
  | .imul gd ty d a b => Sys2Proof.Machine.execImul gd ty d a b s
  | .imulI gd d a imm => Sys2Proof.Machine.execImulI gd d a imm s
  | .imulh gd ty d a b => Sys2Proof.Machine.execImulh gd ty d a b s
  | .imad gd ty d a b c => Sys2Proof.Machine.execImad gd ty d a b c s
  | .idot4 gd ty d a b c => Sys2Proof.Machine.execIdot4 gd ty d a b c s
  | .idiv gd ty d a b => Sys2Proof.Machine.execIdiv gd ty d a b s
  | .irem gd ty d a b => Sys2Proof.Machine.execIrem gd ty d a b s
  | .imin gd ty d a b => Sys2Proof.Machine.execImin gd ty d a b s
  | .iminI gd d a imm => Sys2Proof.Machine.execIminI gd d a imm s
  | .imax gd ty d a b => Sys2Proof.Machine.execImax gd ty d a b s
  | .imaxI gd d a imm => Sys2Proof.Machine.execImaxI gd d a imm s
  | .iabs gd ty d a => Sys2Proof.Machine.execIabs gd ty d a s
  | .ineg gd ty d a => Sys2Proof.Machine.execIneg gd ty d a s
  | .isat gd ty d a => Sys2Proof.Machine.execIsat gd ty d a s
  | .shl gd ty d a b => Sys2Proof.Machine.execShl gd ty d a b s
  | .shlI gd d a imm => Sys2Proof.Machine.execShlI gd d a imm s
  | .shr gd ty d a b => Sys2Proof.Machine.execShr gd ty d a b s
  | .shrI gd d a imm => Sys2Proof.Machine.execShrI gd d a imm s
  | .sar gd ty d a b => Sys2Proof.Machine.execSar gd ty d a b s
  | .sarI gd d a imm => Sys2Proof.Machine.execSarI gd d a imm s
  | .rol gd ty d a b => Sys2Proof.Machine.execRol gd ty d a b s
  | .rolI gd d a imm => Sys2Proof.Machine.execRolI gd d a imm s
  | .ror gd ty d a b => Sys2Proof.Machine.execRor gd ty d a b s
  | .rorI gd d a imm => Sys2Proof.Machine.execRorI gd d a imm s
  | .andG gd ty d a b => Sys2Proof.Machine.execAndG gd ty d a b s
  | .andI gd d a imm => Sys2Proof.Machine.execAndI gd d a imm s
  | .orG gd ty d a b => Sys2Proof.Machine.execOrG gd ty d a b s
  | .orI gd d a imm => Sys2Proof.Machine.execOrI gd d a imm s
  | .xorG gd ty d a b => Sys2Proof.Machine.execXorG gd ty d a b s
  | .xorI gd d a imm => Sys2Proof.Machine.execXorI gd d a imm s
  | .andnG gd ty d a b => Sys2Proof.Machine.execAndnG gd ty d a b s
  | .andnI gd d a imm => Sys2Proof.Machine.execAndnI gd d a imm s
  | .notG gd ty d a => Sys2Proof.Machine.execNotG gd ty d a s
  | .popc gd ty d a => Sys2Proof.Machine.execPopc gd ty d a s
  | .clz gd ty d a => Sys2Proof.Machine.execClz gd ty d a s
  | .ctz gd ty d a => Sys2Proof.Machine.execCtz gd ty d a s
  | .brev gd ty d a => Sys2Proof.Machine.execBrev gd ty d a s
  | .bfx gd ty d a b c => Sys2Proof.Machine.execBfx gd ty d a b c s
  | .bfi gd ty d a b c => Sys2Proof.Machine.execBfi gd ty d a b c s
  | .lea gd d a b c => Sys2Proof.Machine.execLea gd d a b c s
  | .mov gd ty d a => Sys2Proof.Machine.execMov gd ty d a s
  | .movi gd d imm => Sys2Proof.Machine.execMovi gd d imm s
  | .movh gd d imm => Sys2Proof.Machine.execMovh gd d imm s
  | .sel gd ty d a b c => Sys2Proof.Machine.execSel gd ty d a b c s
  | .icmp gd ty cond pn a b => Sys2Proof.Machine.execIcmp gd ty cond pn a b s
  | .icmpI gd cond pn a imm => Sys2Proof.Machine.execIcmpI gd cond pn a imm s
  | .pset gd op d a b => Sys2Proof.Machine.execPset gd op d a b s
  | .pmov gd x => Sys2Proof.Machine.execPmov gd x s
  | .fadd gd rnd d a b => Sys2Proof.Machine.execFadd gd rnd d a b s
  | .fsub gd rnd d a b => Sys2Proof.Machine.execFsub gd rnd d a b s
  | .fmul gd rnd d a b => Sys2Proof.Machine.execFmul gd rnd d a b s
  | .ffma gd rnd d a b c => Sys2Proof.Machine.execFfma gd rnd d a b c s
  | .fmin gd d a b => Sys2Proof.Machine.execFmin gd d a b s
  | .fmax gd d a b => Sys2Proof.Machine.execFmax gd d a b s
  | .fcmp gd cond pn a b => Sys2Proof.Machine.execFcmp gd cond pn a b s
  | .fclass gd d a => Sys2Proof.Machine.execFclass gd d a s
  | .frnd gd rnd d a => Sys2Proof.Machine.execFrnd gd rnd d a s
  | .fscale gd rnd d a b => Sys2Proof.Machine.execFscale gd rnd d a b s
  | .hadd2 gd ty rnd d a b => Sys2Proof.Machine.execHadd2 gd ty rnd d a b s
  | .hmul2 gd ty rnd d a b => Sys2Proof.Machine.execHmul2 gd ty rnd d a b s
  | .hfma2 gd ty rnd d a b c => Sys2Proof.Machine.execHfma2 gd ty rnd d a b c s
  | .fdot2 gd ty rnd d a b c => Sys2Proof.Machine.execFdot2 gd ty rnd d a b c s
  | .fdot4 gd ty rnd d a b c => Sys2Proof.Machine.execFdot4 gd ty rnd d a b c s
  | .cvt gd dt sty rnd d a => Sys2Proof.Machine.execCvt gd dt sty rnd d a s
  | .cvtx gd dt rnd d a b => Sys2Proof.Machine.execCvtx gd dt rnd d a b s
  | .pack gd ty d a b => Sys2Proof.Machine.execPack gd ty d a b s
  | .unpack gd ty d a b => Sys2Proof.Machine.execUnpack gd ty d a b s
  | .cbdec gd d a b => Sys2Proof.Machine.execCbdec gd d a b s
  | .exp2 gd d a => Sys2Proof.Machine.execExp2 gd d a s
  | .log2 gd d a => Sys2Proof.Machine.execLog2 gd d a s
  | .rcp gd d a => Sys2Proof.Machine.execRcp gd d a s
  | .rsq gd d a => Sys2Proof.Machine.execRsq gd d a s
  | .sqrt gd d a => Sys2Proof.Machine.execSqrt gd d a s
  | .sin gd d a => Sys2Proof.Machine.execSin gd d a s
  | .cos gd d a => Sys2Proof.Machine.execCos gd d a s
  | .tanh gd d a => Sys2Proof.Machine.execTanh gd d a s
  | .shfl gd mode d a b => Sys2Proof.Machine.execShfl gd mode d a b s
  | .vote gd mode d a => Sys2Proof.Machine.execVote gd mode d a s
  | .redx gd ty op d a => Sys2Proof.Machine.execRedx gd ty op d a s
  | .scanx gd ty op exc d a => Sys2Proof.Machine.execScanx gd ty op exc d a s
  | .bcst gd ty d a b => Sys2Proof.Machine.execBcst gd ty d a b s
  | .bra gd ofs => Sys2Proof.Machine.execBra gd ofs s
  | .brx gd a ofs => Sys2Proof.Machine.execBrx gd a ofs s
  | .call gd ofs => Sys2Proof.Machine.execCall gd ofs s
  | .callx gd a ofs => Sys2Proof.Machine.execCallx gd a ofs s
  | .ret gd => Sys2Proof.Machine.execRet gd s
  | .exit gd => Sys2Proof.Machine.execExit gd s
  | .yield gd x => Sys2Proof.Machine.execYield gd x s
  | .trap gd imm => Sys2Proof.Machine.execTrap gd imm s
  | .tret gd => Sys2Proof.Machine.execTret gd s
  | .brk gd imm => Sys2Proof.Machine.execBrk gd imm s
  | .nop gd => Sys2Proof.Machine.execNop gd s
  | .ld gd ty tok d a b => Sys2Proof.Machine.execLd gd ty tok d a b s
  | .st gd ty d a b => Sys2Proof.Machine.execSt gd ty d a b s
  | .ldl gd ty tok d a b => Sys2Proof.Machine.execLdl gd ty tok d a b s
  | .stl gd ty d a b => Sys2Proof.Machine.execStl gd ty d a b s
  | .ldp gd ty tok d a b => Sys2Proof.Machine.execLdp gd ty tok d a b s
  | .lda gd ty sc ord tok sp d a b => Sys2Proof.Machine.execLda gd ty sc ord tok sp d a b s
  | .sta gd ty sc ord sp d a b => Sys2Proof.Machine.execSta gd ty sc ord sp d a b s
  | .pref gd a b => Sys2Proof.Machine.execPref gd a b s
  | .atomAdd gd ty sc ord tok sp d a b => Sys2Proof.Machine.execAtomAdd gd ty sc ord tok sp d a b s
  | .atomMin gd ty sc ord tok sp d a b => Sys2Proof.Machine.execAtomMin gd ty sc ord tok sp d a b s
  | .atomMax gd ty sc ord tok sp d a b => Sys2Proof.Machine.execAtomMax gd ty sc ord tok sp d a b s
  | .atomAnd gd ty sc ord tok sp d a b => Sys2Proof.Machine.execAtomAnd gd ty sc ord tok sp d a b s
  | .atomOr gd ty sc ord tok sp d a b => Sys2Proof.Machine.execAtomOr gd ty sc ord tok sp d a b s
  | .atomXor gd ty sc ord tok sp d a b => Sys2Proof.Machine.execAtomXor gd ty sc ord tok sp d a b s
  | .atomExch gd ty sc ord tok sp d a b => Sys2Proof.Machine.execAtomExch gd ty sc ord tok sp d a b s
  | .atomFadd gd sc ord tok sp d a b => Sys2Proof.Machine.execAtomFadd gd sc ord tok sp d a b s
  | .cas gd ty sc ord tok sp d a b c => Sys2Proof.Machine.execCas gd ty sc ord tok sp d a b c s
  | .casw gd sc ord tok sp d a b c => Sys2Proof.Machine.execCasw gd sc ord tok sp d a b c s
  | .fence gd sc ord => Sys2Proof.Machine.execFence gd sc ord s
  | .twait gd mask => Sys2Proof.Machine.execTwait gd mask s
  | .tcnt gd tok d => Sys2Proof.Machine.execTcnt gd tok d s
  | .binit gd a => Sys2Proof.Machine.execBinit gd a s
  | .bexp gd a b c => Sys2Proof.Machine.execBexp gd a b c s
  | .barv gd a => Sys2Proof.Machine.execBarv gd a s
  | .btest gd d a => Sys2Proof.Machine.execBtest gd d a s
  | .bfree gd a => Sys2Proof.Machine.execBfree gd a s
  | .ainit gd a b => Sys2Proof.Machine.execAinit gd a b s
  | .apost gd op d a b => Sys2Proof.Machine.execApost gd op d a b s
  | .astep gd d a => Sys2Proof.Machine.execAstep gd d a s
  | .ares gd d => Sys2Proof.Machine.execAres gd d s
  | .movs gd d sr => Sys2Proof.Machine.execMovs gd d sr s
  | .movsw gd sr a => Sys2Proof.Machine.execMovsw gd sr a s
  | .pkset gd a b => Sys2Proof.Machine.execPkset gd a b s
  | .cancel gd lvl hard a => Sys2Proof.Machine.execCancel gd lvl hard a s
  | .enql gd a b => Sys2Proof.Machine.execEnql gd a b s
  | .evsig gd a b => Sys2Proof.Machine.execEvsig gd a b s
  | .ctrd gd d a => Sys2Proof.Machine.execCtrd gd d a s
  | .mma gd ns ks tok a => Sys2Proof.Machine.execMma gd ns ks tok a s
  | .mma16 gd ns ks tok a => Sys2Proof.Machine.execMma16 gd ns ks tok a s
  | .mopf gd => Sys2Proof.Machine.execMopf gd s
  | .mzero gd tok a => Sys2Proof.Machine.execMzero gd tok a s
  | .att gd exp abs acc tok a => Sys2Proof.Machine.execAtt gd exp abs acc tok a s
  | .attfin gd tok d a => Sys2Proof.Machine.execAttfin gd tok d a s
  | .latw gd tok a => Sys2Proof.Machine.execLatw gd tok a s
  | .kvlook gd tok d a => Sys2Proof.Machine.execKvlook gd tok d a s
  | .kvapp gd cmp a => Sys2Proof.Machine.execKvapp gd cmp a s
  | .kvfork gd cmp a => Sys2Proof.Machine.execKvfork gd cmp a s
  | .kvcommit gd cmp a => Sys2Proof.Machine.execKvcommit gd cmp a s
  | .topk gd cmp a => Sys2Proof.Machine.execTopk gd cmp a s
  | .cpy gd cmp a => Sys2Proof.Machine.execCpy gd cmp a s
  | .cpyt gd conv cmp a => Sys2Proof.Machine.execCpyt gd conv cmp a s
  | .cpyc gd cmp a => Sys2Proof.Machine.execCpyc gd cmp a s
  | .cpyg gd cmp a => Sys2Proof.Machine.execCpyg gd cmp a s
  | .cpys gd cmp a => Sys2Proof.Machine.execCpys gd cmp a s
  | .chwp gd d a => Sys2Proof.Machine.execChwp gd d a s
  | .rngsnd gd pkg tok a => Sys2Proof.Machine.execRngsnd gd pkg tok a s
  | .rngrcv gd pkg cmp a => Sys2Proof.Machine.execRngrcv gd pkg cmp a s
  | .strideIssue core bay => Sys2Proof.Machine.execStrideIssue core bay s
  | .tenureEnd core bay => Sys2Proof.Machine.execTenureEnd core bay s
  | .joinHoldExpiry core bay => Sys2Proof.Machine.execJoinHoldExpiry core bay s
  | .wake wg rig lane => Sys2Proof.Machine.execWake wg rig lane s
  | .pendingDemotion core bay slot => Sys2Proof.Machine.execPendingDemotion core bay slot s
  | .rigPromote core bay => Sys2Proof.Machine.execRigPromote core bay s
  | .forcedDemotion core bay => Sys2Proof.Machine.execForcedDemotion core bay s
  | .loadLands id => Sys2Proof.Machine.execLoadLands id s
  | .releaseWaitEnd core bay => Sys2Proof.Machine.execReleaseWaitEnd core bay s
  | .faultSwap wg => Sys2Proof.Machine.execFaultSwap wg s
  | .workgroupRestore wg => Sys2Proof.Machine.execWorkgroupRestore wg s
  | .workgroupPlace launch core => Sys2Proof.Machine.execWorkgroupPlace launch core s
  | .workgroupComplete wg => Sys2Proof.Machine.execWorkgroupComplete wg s
  | .preempt launch => Sys2Proof.Machine.execPreempt launch s
  | .commandAccept id => Sys2Proof.Machine.execCommandAccept id s
  | .commandComplete id units => Sys2Proof.Machine.execCommandComplete id units s
  | .copyChunkDeliver id count => Sys2Proof.Machine.execCopyChunkDeliver id count s
  | .ringBlockArrive id => Sys2Proof.Machine.execRingBlockArrive id s
  | .ringCreditReturn id => Sys2Proof.Machine.execRingCreditReturn id s
  | .readMissGrant load len viaL2 => Sys2Proof.Machine.execReadMissGrant load len viaL2 s
  | .invalidation id => Sys2Proof.Machine.execInvalidation id s
  | .translationInvalidation id => Sys2Proof.Machine.execTranslationInvalidation id s
  | .sharerAckTimeout id => Sys2Proof.Machine.execSharerAckTimeout id s
  | .sliceNoResponse die slice => Sys2Proof.Machine.execSliceNoResponse die slice s
  | .sliceTakeover die slice => Sys2Proof.Machine.execSliceTakeover die slice s
  | .takeoverLeaseEnd die slice => Sys2Proof.Machine.execTakeoverLeaseEnd die slice s
  | .migrationRequest id => Sys2Proof.Machine.execMigrationRequest id s
  | .migrationHoldExpiry frame host => Sys2Proof.Machine.execMigrationHoldExpiry frame host s
  | .linkReservationExpiry obj => Sys2Proof.Machine.execLinkReservationExpiry obj s
  | .refusalEntryExpiry slice post => Sys2Proof.Machine.execRefusalEntryExpiry slice post s
  | .linkDeclaredDead port => Sys2Proof.Machine.execLinkDeclaredDead port s
  | .launchRecordTaken vf queue => Sys2Proof.Machine.execLaunchRecordTaken vf queue s
  | .admissionResume launch => Sys2Proof.Machine.execAdmissionResume launch s
  | .snapshot launch => Sys2Proof.Machine.execSnapshot launch s
  | .launchEnd launch => Sys2Proof.Machine.execLaunchEnd launch s
  | .sliceEnd cluster => Sys2Proof.Machine.execSliceEnd cluster s
  | .drainBudgetExpiry cluster vf => Sys2Proof.Machine.execDrainBudgetExpiry cluster vf s
  | .drainEnd cluster vf => Sys2Proof.Machine.execDrainEnd cluster vf s
  | .rollback launch => Sys2Proof.Machine.execRollback launch s
  | .uncorrectableError pa => Sys2Proof.Machine.execUncorrectableError pa s
  | .ageingMeasure cluster meas => Sys2Proof.Machine.execAgeingMeasure cluster meas s
  | .dieDead die => Sys2Proof.Machine.execDieDead die s
  | .blulysDeclareDead die => Sys2Proof.Machine.execBlulysDeclareDead die s
  | .kill vf ctx gen => Sys2Proof.Machine.execKill vf ctx gen s
  | .hostMemoryWrite pa data => Sys2Proof.Machine.execHostMemoryWrite pa data s
  | .hostMemoryRead pa len => Sys2Proof.Machine.execHostMemoryRead pa len s
  | .fabricReceive link req poisoned => Sys2Proof.Machine.execFabricReceive link req poisoned s
  | .relayStart engine => Sys2Proof.Machine.execRelayStart engine s
  | .relayAbort engine => Sys2Proof.Machine.execRelayAbort engine s
  | .relayDrainEnd engine => Sys2Proof.Machine.execRelayDrainEnd engine s
  | .relayStreamReceived idx => Sys2Proof.Machine.execRelayStreamReceived idx s
  | .relayAck engine => Sys2Proof.Machine.execRelayAck engine s
  | .hostSoftCancel vf lvl ident => Sys2Proof.Machine.execHostSoftCancel vf lvl ident s
  | .hostHardCancel vf lvl ident => Sys2Proof.Machine.execHostHardCancel vf lvl ident s
  | .migreqRequest vf frame => Sys2Proof.Machine.execMigreqRequest vf frame s
  | .migreqMoveDone vf frame => Sys2Proof.Machine.execMigreqMoveDone vf frame s
  | .migrspRead vf => Sys2Proof.Machine.execMigrspRead vf s
  | .ctxtWrite vf ctx word val => Sys2Proof.Machine.execCtxtWrite vf ctx word val s
  | .evcWrite vf ctr val => Sys2Proof.Machine.execEvcWrite vf ctr val s
  | .nqtailWrite fn val => Sys2Proof.Machine.execNqtailWrite fn val s
  | .registerWrite fn offset val => Sys2Proof.Machine.execRegisterWrite fn offset val s
  | .start warm => Sys2Proof.Machine.execStart warm s
  | .dieEntersService die => Sys2Proof.Machine.execDieEntersService die s
  | .storePerformed id => Sys2Proof.Machine.execStorePerformed id s
  | .launchEndResume launch => Sys2Proof.Machine.execLaunchEndResume launch s
  | .trainingFailed die => Sys2Proof.Machine.execTrainingFailed die s
  | .fenceCleared die => Sys2Proof.Machine.execFenceCleared die s
  | .pcieLinkUp link => Sys2Proof.Machine.execPcieLinkUp link s
  | .preCopyRoundEnd engine => Sys2Proof.Machine.execPreCopyRoundEnd engine s
  | .relayRefusal engine => Sys2Proof.Machine.execRelayRefusal engine s
  | .sramUncorrectableError wg => Sys2Proof.Machine.execSramUncorrectableError wg s

end Sys2Proof.Machine
end

