-- ==== Sys2Proof/Machine/Settle.lean ====
section
/-! DEFINITION. What surrounds every step of the machine: before a clock of a bay its stalled slots are tried again, and
after a step page faults that have been resolved may be reported anew (R30, R33, R312); how an act of a bay ends; and the
state in which one given instruction word is the next to run. -/

namespace Sys2Proof.Machine

/-- Whether the slot of a stalled group would stall again, as a trial of it at the port shows (R30, R33). `run` runs an
instruction. -/
def State.stallsAgain (s : State) (run : Instr → State → Host.Outcome State Fault Refusal) (c b : Nat) (g : Group) : Bool :=
  match g.check with
  | none => false
  | some i =>
    match run i (State.setBay { s with focus := (c, b) } c b fun y =>
        { y with port := some { g with stalled := false, more := false } }) with
    | .next t => (t.group?.map Group.stalled).getD false
    | .fault _ => false
    | .refused _ => false

/-- A cut group whose slot no longer stalls rejoins the selection (R30). Log entry 31. -/
def State.retest (s : State) (run : Instr → State → Host.Outcome State Fault Refusal) (c b : Nat) : State :=
  if (s.bay c b).cut.any Group.stalled then
    s.setBay c b fun y =>
      { y with cut := y.cut.map fun g => if g.stalled then { g with stalled := s.stallsAgain run c b g } else g }
  else s

/-- A page whose entry is present now is no longer reported: a later fault on it is a new one (R312). -/
def State.settleReports (s : State) : State :=
  { s with reported := s.reported.filter fun r =>
      match walk s r.1 0 (4096 * r.2) with
      | .absent _ _ => true
      | .leaf _ _ _ _ _ _ => false
      | .malformed => false
      | .held => true }

/-- Continue with the next state of an outcome. -/
def andThen (r : Host.Outcome State Fault Refusal) (f : State → Host.Outcome State Fault Refusal) :
    Host.Outcome State Fault Refusal :=
  match r with
  | .next s => f s
  | .fault e => .fault e
  | .refused e => .refused e

/-- After an event. -/
def afterEvent (s : State) : Host.Outcome State Fault Refusal := .next s.settleReports

/-- After a slot's instruction: the slot ends, or is held. -/
def afterSlot (c b : Nat) (s : State) : Host.Outcome State Fault Refusal :=
  conclude (s.finishSlot c b).settleReports

/-- Instructions stand in slots; every other step of the machine is an event. -/
def isEvent (i : Instr) : Bool := (encode i).isNone

/-! One instruction, ready to run. -/

/-- The class of a stride that admits an opcode (R67). -/
def classFor (opc : Nat) : Nat :=
  if 0x300 ≤ opc ∧ opc ≤ 0x33F then 1
  else if 0x340 ≤ opc ∧ opc ≤ 0x37F then 2
  else if 0x2F0 ≤ opc ∧ opc ≤ 0x2FF then 3
  else 0

/-- A stride of one slot that holds a word, issued for the first rig of a workgroup (R29, R47), at the last of
the slot's clocks (R123). -/
def oneSlot (wg : Nat) (w : Dword) : Group :=
  { lanes := rigLanes wg 0, kslot := 0, pc := 0x10000#64, ecls := classFor (w.toNat / 2 ^ 54), size := 16
    words := [.word w], slot := 0, clock := 7, stalled := false, more := false, tenure := 0, age := 0
    spent := false, served := [], work := [], issue := 0, missed := [], before := [] }

/-- A launch of one workgroup of 64 threads with 64 registers each, a tile set and a loft of 4 KiB. -/
def oneLaunch (id : Nat) : Launch :=
  { id := id, vf := 0
    rcd := { recFields 0 with kimg := 0x10000, part := 0x000C0C30, gx := 1, gy := 1, gz := 1, tpw := 64, nreg := 64,
                              nacc := 1, loftb := 4096 }
    raw := [], ctx := ⟨⟨0, 0, 0⟩, 0, 0, 0, 0, 0⟩, entry := 0, codeOfs := 0, codeLen := 32, dictOfs := 0, dictN := 0
    grid := [], regions := [], stage := .running, order := id, admitted := 0, readyAt := 0, nextWg := 1, wgdone := 0
    status := .done, cause := 0, faddr := 0, noPlace := false, hard := false, repl := false, rollback := none
    rollbacks := 0, snap := [], snapAt := none, snapTracks := [], watches := [], quiet := false }

/-- The kernel of that launch: two strides of one slot. -/
def oneKernel (w : Dword) : KSlot :=
  { kimg := 0x10000, base := 0x10000, len := 32, heads := [0, 2]
    code := [0xB400000000000000#64, w, 0xB400000000000000#64, w], dict := [] }

/-- The state in which bay 0 of core 0 holds a stride with one given word at its port, and acts next: what a
launch, its placement and the issue of the stride come to (log entry 20). -/
def State.holding1 (s : State) (w : Dword) : State :=
  let lid := s.serial
  let id := s.serial + 1
  let l := oneLaunch lid
  let wg := { l.newWg id 0 with wgid := 0 }
  let s := { s with
    serial := s.serial + 2
    wgs := s.wgs ++ [{ wg with rigs := [l.rcd.newRig 0 0x10000 0 0] }]
    launches := s.launches ++ [l]
    dies := modifyAt s.dies 0 fun d => { d with state := .inService }
    moves := ⟨s.time, 0, 0, none⟩ :: s.moves
    halt := none }
  let s := s.setCore 0 fun k => { k with kslots := k.kslots.set 0 (some (oneKernel w)) }
  s.setBay 0 0 fun y => { y with active := y.active.set 0 (some (id, 0)), port := some (oneSlot id w), cut := [] }

end Sys2Proof.Machine
end

