-- ==== Sys2Proof/Machine/Step.lean ====
section
/-! DEFINITION. The step of the machine: the next move of the schedule happens. A move gives a bay its next
clock, or lets an event happen. With no move left, device time goes on alone. -/

namespace Sys2Proof.Machine

/-- The next clock of a bay. It waits until the other bays of the cluster, which run on the same clock, have had theirs
(R16). -/
def stepBay (c b : Nat) (s : State) : Host.Outcome State Fault Refusal :=
  if s.aheadOfCluster c b then conclude s
  else match (s.retest exec c b).bayAct c b with
  | (s, .run i) => exec i s
  | (s, .slot i) => andThen (exec i s) (afterSlot c b)
  | (_, .done s) => conclude s

/-- One event. Instructions happen in slots alone. -/
def stepEvent (i : Instr) (s : State) : Host.Outcome State Fault Refusal :=
  if isEvent i then andThen (exec i s) afterEvent else .next s

/-- One step of the machine. -/
def step (s : State) : Host.Outcome State Fault Refusal :=
  match s.halt with
  | some f => .fault f
  | none =>
    match s.moves with
    | [] => .next { s with time := s.time + 1 }
    | m :: rest =>
      let s := { s with moves := rest, time := max s.time m.time }
      match m.ev with
      | some i => stepEvent i s
      | none => stepBay m.core m.bay s

/-- The state in which the next step runs one given instruction word. The machine fetches strides of whole
words, so the word stands in the stride that holds the port of bay 0 of core 0. -/
def State.withFetchWord (s : State) (_nbits w : Nat) : State := s.holding1 (BitVec.ofNat 64 w)

end Sys2Proof.Machine
end

