-- ==== Sys2Proof/Safety.lean ====
section
/-! DEFINITION. What the claims mean by a machine in order: the canonical forms of the sparse data and the
serial numbers, which every step keeps, and runs. -/

namespace Sys2Proof

open Sys2Proof.Machine

/-- The device's memory and its metadata stand in canonical form. -/
def MemoryInOrder (s : State) : Prop :=
  Memory.wf s.mem = true ∧ Map.wf 0 s.chk = true ∧ Map.wf false s.poison = true ∧
    Map.wf false s.helped = true ∧ Map.wf 0 s.pub = true

/-- A loft stands in canonical form. -/
def LoftInOrder (w : Workgroup) : Prop := Memory.wf w.loft = true

/-- The frames of a relay stream: no workgroup twice, every loft in canonical form. -/
def StreamInOrder (l : List Sealed) : Prop :=
  ((streamFrames l).map fun f => f.1.id).Nodup ∧ ∀ f ∈ streamFrames l, LoftInOrder f.1

/-- What holds at reset and every step keeps: memory, its metadata and the lofts stand in canonical form, the
serial number of every workgroup, load and launch has been given out, no two workgroups share one, and the
streams that wait for a relay are in order. -/
structure Inv (s : State) : Prop where
  ids : (s.wgs.map Workgroup.id).Nodup
  wgs : ∀ w ∈ s.wgs, w.id < s.serial ∧ LoftInOrder w
  loads : ∀ p ∈ s.loads, p.id < s.serial
  launches : ∀ k ∈ s.launches, k.id < s.serial
  mem : MemoryInOrder s
  inbox : ∀ x ∈ s.inbox, StreamInOrder x.2.2

/-- A run of the machine that meets no fault and no refusal for `k` steps ends in a state. -/
def RunsTo (k : Nat) (s t : State) : Prop := Sys2Proof.core.run k s = .next t

end Sys2Proof
end

