-- ==== Sys2Proof/Certificates/Slice0/Obligations.lean ====
section
/-! DEFINITION. The statements about the model, and the terms that they are stated in. Where a statement
speaks of what an instruction computes, the formula is written out here on bit vectors, apart from the
model's own arithmetic. -/

namespace Sys2Proof.Spec

open Sys2Proof Sys2Proof.Machine

/-! The slot that issues. -/

/-- A lane of the group at the port executes its slot: its guard is true and its part is not done (R66). -/
def runs (s : State) (g : Group) (gd : Guard) (l : LaneRef) : Bool :=
  g.lanes.contains l && decide (l.lane < 64) && gd.holds (s.thread l) && !(g.served.contains l)

/-- The lanes that execute, in ascending order (R182). -/
def running (s : State) (g : Group) (gd : Guard) : List LaneRef :=
  ascending (g.lanes.filter fun l => gd.holds (s.thread l) && !(g.served.contains l))

/-- Instruction `i` stands in the slot of the group `g` at the port of the bay that acts, legal for every
lane of it (check 6 of R70). The bay has cleared the mark of a slot that it tries again (R33). -/
structure Ready (s : State) (g : Group) (i : Instr) : Prop where
  halt : s.halt = none
  group : s.group? = some g
  going : g.stalled = false
  inv : Inv s
  legal : ∀ l ∈ g.lanes, s.legalFor l i = true

/-- The same with one lane that executes, of a launch without protection. -/
structure One (s : State) (g : Group) (i : Instr) (gd : Guard) (l : LaneRef) : Prop
    extends Ready s g i where
  only : running s g gd = [l]
  plain : s.prot l.wg = false
  alive : (s.thread l).alive = true

/-- What a lane's operands are read from. -/
def view (s : State) (l : LaneRef) : Env := { s.env l with fresh := s.fresh + 1 }

/-- Some threads changed, each in its own place, and nothing else. -/
def each (s : State) (on : LaneRef → Bool) (f : LaneRef → Thread → Thread) : State :=
  { s with wgs := s.wgs.map fun w =>
    { w with rigs := w.rigs.mapIdx fun r q =>
      { q with threads := q.threads.mapIdx fun k t =>
        if (on ⟨w.id, r, k⟩) then f ⟨w.id, r, k⟩ t else t } } }

/-- The marks that an access to an accumulator leaves on the commands that work on the tile set (R218). -/
def touched (s : State) (ls : List LaneRef) (ops : List Opnd) (c : Cmd) : Cmd :=
  if ops.any Opnd.isAcc && ls.any (fun l => c.lane.wg == l.wg && c.lane.rig == l.rig &&
      c.sets.contains (((s.rig? l.wg l.rig).map fun q => q.aset.toNat).getD 0)) then
    { c with tainted := true }
  else c

/-- The same on a rig: the sets of a completed command that a lane has not waited for become unspecified (R218). -/
def touchedRig (s : State) (ls : List LaneRef) (ops : List Opnd) (wg rig : Nat) (q : Rig) : Rig :=
  if ops.any Opnd.isAcc then q.touch (s.fresh + 1) q.aset.toNat (lanesIn ls wg rig) else q

/-- The state in which the lanes of an instruction read its operands. -/
def reading (s : State) (ls : List LaneRef) (ops : List Opnd) : State :=
  { s with
    cmds := s.cmds.map (touched s ls ops)
    wgs := s.wgs.map fun w => { w with rigs := w.rigs.mapIdx (touchedRig s ls ops w.id) } }

/-- What an instruction does to the thread of each lane that executes it: its guard, its operands, what must
hold of a lane, the new thread, whether the lane leaves the stride, and what the two lanes of a protected pair must
have alike as they leave (R350). -/
structure Effect where
  gd : Guard
  ops : List Opnd
  ok : State → LaneRef → Bool := fun _ _ => true
  f : State → List LaneRef → LaneRef → Thread → Thread
  leaves : Bool := false
  point : State → LaneRef → List Nat := fun _ _ => []

/-- The state in which its lanes read their operands. -/
def Effect.start (x : Effect) (s : State) (g : Group) : State := reading s (running s g x.gd) x.ops

/-- The state after an instruction that only changes the threads of its lanes. -/
def Effect.result (x : Effect) (s : State) (g : Group) : State :=
  let s1 := x.start s g
  let t := each s1 (runs s g x.gd) (x.f s1 (running s g x.gd))
  let t := { t with fresh := s.fresh + 1 }
  if x.leaves then
    t.setBay s.focus.1 s.focus.2 fun y =>
      { y with port := some { g with lanes := g.lanes.filter fun l => !(runs s g x.gd l) } }
  else t

/-- The other lane of a protected pair (R349). -/
def mate (l : LaneRef) : LaneRef := { l with lane := if l.lane % 2 = 0 then l.lane + 1 else l.lane - 1 }

/-- What R350 asks of an effect in a protected launch. Where lanes leave the stride, the two lanes of every pair do
so alike. Else no lane writes an accumulator element, or the two lanes of every pair execute and write the same ones.
Unprotected lanes are free. -/
def pairsAgree (s : State) (g : Group) (x : Effect) : Prop :=
  let s1 := x.start s g
  let rows (l : LaneRef) : Map Word := (x.f s1 (running s g x.gd) l (s1.thread l)).rows
  if x.leaves then
    ∀ l, runs s g x.gd l = true → s.prot l.wg = true → runs s g x.gd (mate l) = true ∧ x.point s1 (mate l) = x.point s1 l
  else
    (∀ l, runs s g x.gd l = true → s.prot l.wg = true → rows l = (s1.thread l).rows) ∨
      ∀ l, runs s g x.gd l = true → s.prot l.wg = true →
        runs s g x.gd (mate l) = true ∧ rows (mate l) = rows l

/-- Every instruction of a table completes with the effect that the table gives it, and changes nothing else. -/
def Computes (table : Instr → Option Effect) : Prop :=
  ∀ (i : Instr) (x : Effect) (s : State) (g : Group), table i = some x → i.wf = true → Ready s g i →
    (∀ l, runs s g x.gd l = true → x.ok (x.start s g) l = true) → pairsAgree s g x →
    exec i s = .next (x.result s g)

/-- An instruction whose lanes compute alone. -/
def alone (gd : Guard) (ops : List Opnd) (f : Env → Thread → Thread) : Option Effect :=
  some { gd := gd, ops := ops, f := fun s _ l t => f (view s l) t }

/-! Integer formulas. -/

/-- d ← f(a) at the width of the type (R65, R121). -/
def op1 (e : Env) (t : Thread) (ty : Ty) (d a : Opnd) (f : {w : Nat} → BitVec w → BitVec w) : Thread :=
  if ty.wide then e.put64 t d (f (e.src64 t a)) else e.put t d (f (e.src t a))

/-- d ← f(a, b). -/
def op2 (e : Env) (t : Thread) (ty : Ty) (d a b : Opnd)
    (f : {w : Nat} → BitVec w → BitVec w → BitVec w) : Thread :=
  if ty.wide then e.put64 t d (f (e.src64 t a) (e.src64 t b)) else e.put t d (f (e.src t a) (e.src t b))

/-- d ← f(a, n), the count a 32-bit operand (R130). -/
def opShift (e : Env) (t : Thread) (ty : Ty) (d a b : Opnd) (f : {w : Nat} → BitVec w → Nat → BitVec w) :
    Thread :=
  if ty.wide then e.put64 t d (f (e.src64 t a) (e.src t b).toNat)
  else e.put t d (f (e.src t a) (e.src t b).toNat)

/-- Status bits set when a condition holds (R108). -/
def flagIf (c : Bool) (fl : Nat) (t : Thread) : Thread :=
  if c then { t with status := t.status ||| BitVec.ofNat 32 fl } else t

/-- Both widths of a condition on two operands. -/
def cond2 (e : Env) (t : Thread) (ty : Ty) (a b : Opnd) (f : {w : Nat} → BitVec w → BitVec w → Bool) : Bool :=
  if ty.wide then f (e.src64 t a) (e.src64 t b) else f (e.src t a) (e.src t b)

def signedTy : Ty → Bool
  | .i8 | .i16 | .i32 | .i64 => true
  | _ => false

/-- The high half of the product (R125). -/
def mulHigh (sg : Bool) {w : Nat} (a b : BitVec w) : BitVec w :=
  if sg then (a.signExtend (2 * w) * b.signExtend (2 * w)).extractLsb' w w
  else (a.setWidth (2 * w) * b.setWidth (2 * w)).extractLsb' w w

/-- The quotient and the remainder (R128). -/
def quot (sg : Bool) {w : Nat} (a b : BitVec w) : BitVec w :=
  if b = 0#w then BitVec.allOnes w else if sg then a.sdiv b else a / b
def rest (sg : Bool) {w : Nat} (a b : BitVec w) : BitVec w :=
  if b = 0#w then a else if sg then a.srem b else a % b

/-- A division by zero sets DZ, the most negative number divided by -1 OF (R128). -/
def divFlags (e : Env) (t : Thread) (ty : Ty) (a b : Opnd) (t' : Thread) : Thread :=
  flagIf (cond2 e t ty a b fun {w} _ y => y == 0#w) 2
    (flagIf (signedTy ty && cond2 e t ty a b fun {w} x y => x == BitVec.intMin w && y == BitVec.allOnes w) 4 t')

def least (sg : Bool) {w : Nat} (a b : BitVec w) : BitVec w :=
  if (if sg then a.sle b else a.ule b) then a else b
def most (sg : Bool) {w : Nat} (a b : BitVec w) : BitVec w :=
  if (if sg then b.sle a else b.ule a) then a else b

/-- The most negative number has no negation: OF (R129). -/
def negFlags (e : Env) (t : Thread) (ty : Ty) (a : Opnd) (t' : Thread) : Thread :=
  flagIf (cond2 e t ty a a fun {w} x _ => x == BitVec.intMin w) 4 t'

/-- The range of a narrow type (R129). -/
def narrowLo : Ty → Int
  | .i8 => -128
  | .i16 => -32768
  | _ => 0
def narrowHi : Ty → Int
  | .i8 => 127
  | .i16 => 32767
  | .w8 => 255
  | _ => 65535
def clampTo (ty : Ty) (x : Int) : Int := max (narrowLo ty) (min (narrowHi ty) x)

/-- Byte `k` of a word as the type reads it (R127). -/
def byteOf (sg : Bool) (a : Word) (k : Nat) : Int :=
  if sg then (a.extractLsb' (8 * k) 8).toInt else ((a.extractLsb' (8 * k) 8).toNat : Int)

/-- A sum with its carry (R126). -/
def sumC {w : Nat} (a b : BitVec w) (c : Bool) : BitVec (w + 1) :=
  a.setWidth (w + 1) + b.setWidth (w + 1) + (if c then 1#(w + 1) else 0#(w + 1))

/-- A write to the predicate that an operand names; p7 is never written (R63). -/
def putPred (t : Thread) (n : Nat) (v : Bool) : Thread :=
  if n = 7 then t
  else { t with preds := if v then t.preds ||| (1#8 <<< n) else t.preds &&& ~~~(1#8 <<< n) }

/-- Integer arithmetic: IADD to ISAT, with the I forms (R57, R125 to R129). -/
def integer : Instr → Option Effect
  | .iadd gd ty d a b => alone gd [d, a, b] fun e t => op2 e t ty d a b fun x y => x + y
  | .iaddI gd d a k => alone gd [d, a] fun e t => e.put t d (e.src t a + k)
  | .isub gd ty d a b => alone gd [d, a, b] fun e t => op2 e t ty d a b fun x y => x - y
  | .isubI gd d a k => alone gd [d, a] fun e t => e.put t d (e.src t a - k)
  | .iaddc gd ty d a b c => alone gd [d, a, b, c] fun e t =>
    let cin := (e.src t c).getLsbD 0
    let wide := sumC (e.src64 t a) (e.src64 t b) cin
    let slim := sumC (e.src t a) (e.src t b) cin
    let t' := if ty.wide then e.put64 t d (wide.setWidth 64) else e.put t d (slim.setWidth 32)
    match c with
    | .p r => putPred t' r.toNat (if ty.wide then wide.getLsbD 64 else slim.getLsbD 32)
    | _ => t'
  | .imul gd ty d a b => alone gd [d, a, b] fun e t => op2 e t ty d a b fun x y => x * y
  | .imulI gd d a k => alone gd [d, a] fun e t => e.put t d (e.src t a * k)
  | .imulh gd ty d a b => alone gd [d, a, b] fun e t => op2 e t ty d a b (mulHigh (signedTy ty))
  | .imad gd ty d a b c => alone gd [d, a, b, c] fun e t =>
    if ty.wide then e.put64 t d (e.src64 t a * e.src64 t b + e.src64 t c)
    else e.put t d (e.src t a * e.src t b + e.src t c)
  | .idot4 gd ty d a b c => alone gd [d, a, b, c] fun e t =>
    let p (k : Nat) : Int := byteOf (signedTy ty) (e.src t a) k * byteOf (signedTy ty) (e.src t b) k
    e.put t d (e.src t c + BitVec.ofInt 32 (p 0 + p 1 + p 2 + p 3))
  | .idiv gd ty d a b => alone gd [d, a, b] fun e t =>
    divFlags e t ty a b (op2 e t ty d a b (quot (signedTy ty)))
  | .irem gd ty d a b => alone gd [d, a, b] fun e t =>
    divFlags e t ty a b (op2 e t ty d a b (rest (signedTy ty)))
  | .imin gd ty d a b => alone gd [d, a, b] fun e t => op2 e t ty d a b (least (signedTy ty))
  | .iminI gd d a k => alone gd [d, a] fun e t => e.put t d (least true (e.src t a) k)
  | .imax gd ty d a b => alone gd [d, a, b] fun e t => op2 e t ty d a b (most (signedTy ty))
  | .imaxI gd d a k => alone gd [d, a] fun e t => e.put t d (most true (e.src t a) k)
  | .iabs gd ty d a => alone gd [d, a] fun e t => negFlags e t ty a (op1 e t ty d a BitVec.abs)
  | .ineg gd ty d a => alone gd [d, a] fun e t => negFlags e t ty a (op1 e t ty d a fun x => -x)
  | .isat gd ty d a => alone gd [d, a] fun e t =>
    let x := (e.src t a).toInt
    flagIf (clampTo ty x != x) 4 (e.put t d (BitVec.ofInt 32 (clampTo ty x)))
  | _ => none

/-- The length of a field of `wid` bits at `pos` that lies in `w` bits (R132). -/
def fieldLen (w pos wid : Nat) : Nat := if pos < w then min wid (w - pos) else 0

/-- The field extracted, with copies of its top bit when signed (R132). -/
def extractField (sg : Bool) {w : Nat} (a : BitVec w) (pos wid : Nat) : BitVec w :=
  let n := fieldLen w pos wid
  if n = 0 then 0#w
  else if sg then ((a >>> pos) <<< (w - n)).sshiftRight (w - n)
  else (a >>> pos) <<< (w - n) >>> (w - n)

/-- The field inserted (R132). -/
def insertField {w : Nat} (d a : BitVec w) (pos wid : Nat) : BitVec w :=
  let m := (BitVec.allOnes w >>> (w - fieldLen w pos wid)) <<< pos
  (d &&& ~~~m) ||| ((a <<< pos) &&& m)

/-- Shifts, rotates, logic, counts, bit fields and LEA (R130 to R133). -/
def bitwise : Instr → Option Effect
  | .shl gd ty d a b => alone gd [d, a, b] fun e t => opShift e t ty d a b fun x n => x <<< n
  | .shlI gd d a k => alone gd [d, a] fun e t => e.put t d (e.src t a <<< k.toNat)
  | .shr gd ty d a b => alone gd [d, a, b] fun e t => opShift e t ty d a b fun x n => x >>> n
  | .shrI gd d a k => alone gd [d, a] fun e t => e.put t d (e.src t a >>> k.toNat)
  | .sar gd ty d a b => alone gd [d, a, b] fun e t => opShift e t ty d a b fun x n => x.sshiftRight n
  | .sarI gd d a k => alone gd [d, a] fun e t => e.put t d ((e.src t a).sshiftRight k.toNat)
  | .rol gd ty d a b => alone gd [d, a, b] fun e t => opShift e t ty d a b fun x n => x.rotateLeft n
  | .rolI gd d a k => alone gd [d, a] fun e t => e.put t d ((e.src t a).rotateLeft k.toNat)
  | .ror gd ty d a b => alone gd [d, a, b] fun e t => opShift e t ty d a b fun x n => x.rotateRight n
  | .rorI gd d a k => alone gd [d, a] fun e t => e.put t d ((e.src t a).rotateRight k.toNat)
  | .andG gd ty d a b => alone gd [d, a, b] fun e t => op2 e t ty d a b fun x y => x &&& y
  | .andI gd d a k => alone gd [d, a] fun e t => e.put t d (e.src t a &&& k)
  | .orG gd ty d a b => alone gd [d, a, b] fun e t => op2 e t ty d a b fun x y => x ||| y
  | .orI gd d a k => alone gd [d, a] fun e t => e.put t d (e.src t a ||| k)
  | .xorG gd ty d a b => alone gd [d, a, b] fun e t => op2 e t ty d a b fun x y => x ^^^ y
  | .xorI gd d a k => alone gd [d, a] fun e t => e.put t d (e.src t a ^^^ k)
  | .andnG gd ty d a b => alone gd [d, a, b] fun e t => op2 e t ty d a b fun x y => x &&& ~~~y
  | .andnI gd d a k => alone gd [d, a] fun e t => e.put t d (e.src t a &&& ~~~k)
  | .notG gd ty d a => alone gd [d, a] fun e t => op1 e t ty d a fun x => ~~~x
  | .popc gd ty d a => alone gd [d, a] fun e t =>
    e.put t d (if ty.wide then (e.src64 t a).cpop.setWidth 32 else (e.src t a).cpop)
  | .clz gd ty d a => alone gd [d, a] fun e t =>
    e.put t d (if ty.wide then (e.src64 t a).clz.setWidth 32 else (e.src t a).clz)
  | .ctz gd ty d a => alone gd [d, a] fun e t =>
    e.put t d (if ty.wide then (e.src64 t a).ctz.setWidth 32 else (e.src t a).ctz)
  | .brev gd ty d a => alone gd [d, a] fun e t => op1 e t ty d a BitVec.reverse
  | .bfx gd ty d a b c => alone gd [d, a, b, c] fun e t =>
    let pos := (e.src t b).toNat
    let wid := (e.src t c).toNat
    if ty.wide then e.put64 t d (extractField (signedTy ty) (e.src64 t a) pos wid)
    else e.put t d (extractField (signedTy ty) (e.src t a) pos wid)
  | .bfi gd ty d a b c => alone gd [d, a, b, c] fun e t =>
    let pos := (e.src t b).toNat
    let wid := (e.src t c).toNat
    if fieldLen (if ty.wide then 64 else 32) pos wid = 0 then t
    else if ty.wide then e.put64 t d (insertField (e.src64 t d) (e.src64 t a) pos wid)
    else e.put t d (insertField (e.src t d) (e.src t a) pos wid)
  | .lea gd d a b c => alone gd [d, a, b, c] fun e t =>
    e.put64 t d (e.src64 t a + (e.src t b).signExtend 64 <<< ((e.src t c).toNat % 64))
  | _ => none

/-- The integer conditions (R136). -/
def holdsInt (c : Cond) (sg : Bool) {w : Nat} (a b : BitVec w) : Bool :=
  match c with
  | .eq => a == b
  | .ne => a != b
  | .lt => if sg then a.slt b else a.ult b
  | .le => if sg then a.sle b else a.ule b
  | .gt => if sg then b.slt a else b.ult a
  | .ge => if sg then b.sle a else b.ule a
  | .un => false

/-- Moves, selection, comparisons and predicates (R134 to R138). -/
def moves : Instr → Option Effect
  | .mov gd ty d a => alone gd [d, a] fun e t => op1 e t ty d a fun x => x
  | .movi gd d k => alone gd [d] fun e t => e.put t d k
  | .movh gd d k => alone gd [d] fun _ t =>
    match d with
    | .g r => { t with regs := Map.set 0#32 t.regs (r.toNat + 1) k }
    | .t r => { t with temps := Map.set 0#32 t.temps (r.toNat + 1) k }
    | _ => t
  | .sel gd ty d a b c => alone gd [d, a, b, c] fun e t =>
    op1 e t ty d (if e.src t c = 0#32 then b else a) fun x => x
  | .icmp gd ty c n a b => alone gd [a, b] fun e t =>
    putPred t n.toNat (cond2 e t ty a b (holdsInt c (signedTy ty)))
  | .icmpI gd c n a k => alone gd [a] fun e t => putPred t n.toNat (holdsInt c true (e.src t a) k)
  | .pset gd op d a b => alone gd [d, a, b] fun e t =>
    let x := e.src t a == 1#32
    let y := e.src t b == 1#32
    match d with
    | .p r => putPred t r.toNat (match op with
        | .and => x && y
        | .or => x || y
        | .xor => x ^^ y)
    | _ => t
  | .pmov gd (.get d) => alone gd [d] fun e t => e.put t d (0x80#32 ||| t.preds.setWidth 32)
  | .pmov gd (.put a) => alone gd [a] fun e t =>
    { t with preds := 0x80#8 ||| (e.src t a).extractLsb' 0 8 }
  | .nop gd => alone gd [] fun _ t => t
  | _ => none

/-! Rounding (R93, R103 to R107). -/

/-- The magnitude of a pattern without its sign, the exponent range taken as unbounded above (R93, R104). -/
def magnitude (f : Fmt) (m : Nat) : ℚ :=
  if m < 2 ^ f.frac then (2 : ℚ) ^ (1 - (f.bias : ℤ)) * ((m : ℚ) / 2 ^ f.frac)
  else (2 : ℚ) ^ (((m / 2 ^ f.frac : ℕ) : ℤ) - f.bias) * (1 + ((m % 2 ^ f.frac : ℕ) : ℚ) / 2 ^ f.frac)

/-- Whether the neighbour above is taken: `d` is the distance from the neighbour `lo` below in units of the gap
(R103, R107). -/
def takesUpper (mode : Rnd) (rand : Nat) (neg : Bool) (lo : Nat) (d : ℚ) : Prop :=
  match mode with
  | .rne => 1 / 2 < d ∨ (d = 1 / 2 ∧ lo % 2 = 1)
  | .rz => False
  | .ru => 0 < d ∧ neg = false
  | .rd => 0 < d ∧ neg = true
  | .rs => (2 : ℤ) ^ 32 ≤ ⌊d * 2 ^ 32⌋ + rand

/-- Pattern `m` is the positive value `x` rounded in a mode, the exponent range taken as unbounded above. -/
def roundsTo (f : Fmt) (mode : Rnd) (rand : Nat) (neg : Bool) (x : ℚ) (m : Nat) : Prop :=
  ∃ (lo : Nat) (d : ℚ), magnitude f lo ≤ x ∧ x < magnitude f (lo + 1) ∧
    d = (x - magnitude f lo) / (magnitude f (lo + 1) - magnitude f lo) ∧
    ((takesUpper mode rand neg lo d ∧ m = lo + 1) ∨ (¬takesUpper mode rand neg lo d ∧ m = lo))

/-- The result of an overflow, without its sign (R104). -/
def limitOf (f : Fmt) (mode : Rnd) (neg : Bool) : Nat :=
  match f.inf, mode with
  | none, _ => f.maxBits
  | some i, .rne | some i, .rs => i
  | some _, .rz => f.maxBits
  | some i, .ru => if neg then f.maxBits else i
  | some i, .rd => if neg then i else f.maxBits

/-- The formats of R93. -/
def formats : List Fmt := [.f32, .bf16, .f16, .e4m3, .e5m2, .e3m2, .e2m1]

/-! Floating point. The exact values and the one rounding function are the model's; `RoundingIsCorrect`
says what the rounding function does. -/

/-- A result rounded from an exact value, with its status (R104, R105, R108): the canonical NaN for NaN, and NV
when no operand was NaN. -/
def rounded (f : Fmt) (mode : Rnd) (rand : Nat) (ins : List Machine.Num) (x : Machine.Num) : Nat × Nat :=
  match x with
  | .nan => (f.nan.getD 0, if ins.any Machine.Num.isNan then 0 else 1)
  | y => roundNum f mode rand y

/-- Write a 32-bit result and set status bits. -/
def putFlags (e : Env) (t : Thread) (d : Opnd) (v : Nat × Nat) : Thread :=
  let t := e.put t d (BitVec.ofNat 32 v.1)
  { t with status := t.status ||| BitVec.ofNat 32 (v.2 % 64) }

/-- The random value of a rounding, and the stochastic register after it (R106, R107). -/
def drawn (mode : Rnd) (t : Thread) : Nat × Thread :=
  match mode with
  | .rs => ((lfsrStep t.lfsr).toNat, { t with lfsr := lfsrStep t.lfsr })
  | _ => (0, t)

/-- The value of an FP32 operand. -/
def fval (e : Env) (t : Thread) (a : Opnd) : Machine.Num := Machine.Num.ofBits .f32 (e.src t a).toNat

/-- d ← round(x, FP32, mode), x made of the operands (R139). -/
def fop (e : Env) (t : Thread) (mode : Rnd) (d : Opnd) (ins : List Machine.Num) (x : Machine.Num) : Thread :=
  let r := drawn mode t
  putFlags e r.2 d (rounded .f32 mode r.1 ins x)

/-- Whether a zero sum of unlike signs is -0 (R96). -/
def negZero (mode : Rnd) : Bool := mode == .rd

/-- a × 2 ^ b. -/
def scaled (x : Machine.Num) (b : Int) : Machine.Num :=
  match x with
  | .fin s n d e => .fin s n d (e + b)
  | y => y

/-- The order of FP32 patterns that are no NaN, the zeros equal (R136). -/
def floatKey (a : Word) : Int :=
  if a.getLsbD 31 then -((a &&& 0x7FFFFFFF#32).toNat : Int) else (a.toNat : Int)

def isNanWord (a : Word) : Bool := decide (0x7F800000 < (a &&& 0x7FFFFFFF#32).toNat)

/-- The conditions on FP32 values (R136, R137). -/
def holdsFloat (c : Cond) (a b : Word) : Bool :=
  let un := isNanWord a || isNanWord b
  match c with
  | .un => un
  | .ne => un || floatKey a != floatKey b
  | .eq => !un && floatKey a == floatKey b
  | .lt => !un && decide (floatKey a < floatKey b)
  | .le => !un && decide (floatKey a ≤ floatKey b)
  | .gt => !un && decide (floatKey b < floatKey a)
  | .ge => !un && decide (floatKey b ≤ floatKey a)

/-- FMIN and FMAX (R140): the number beside a NaN, canonical NaN for two, -0 below +0. -/
def floatLeast (a b : Word) : Word :=
  if isNanWord a then (if isNanWord b then 0x7FC00000#32 else b)
  else if isNanWord b then a
  else if floatKey a < floatKey b then a
  else if floatKey b < floatKey a then b
  else if a.getLsbD 31 then a else b
def floatMost (a b : Word) : Word :=
  if isNanWord a then (if isNanWord b then 0x7FC00000#32 else b)
  else if isNanWord b then a
  else if floatKey a < floatKey b then b
  else if floatKey b < floatKey a then a
  else if a.getLsbD 31 then b else a

/-- The class of an FP32 value as a bit (R141). -/
def classBit (a : Word) : Nat :=
  let m := (a &&& 0x7FFFFFFF#32).toNat
  let s := a.getLsbD 31
  if 0x7F800000 < m then 8
  else if m = 0x7F800000 then (if s then 0 else 7)
  else if 2 ^ 23 ≤ m then (if s then 1 else 6)
  else if m ≠ 0 then (if s then 2 else 5)
  else if s then 3 else 4

/-- FP32 arithmetic and comparison (R139 to R141, R137). -/
def float : Instr → Option Effect
  | .fadd gd m d a b => alone gd [d, a, b] fun e t =>
    let x := fval e t a
    let y := fval e t b
    fop e t m d [x, y] (Machine.Num.add (negZero m) x y)
  | .fsub gd m d a b => alone gd [d, a, b] fun e t =>
    let x := fval e t a
    let y := fval e t b
    fop e t m d [x, y] (Machine.Num.add (negZero m) x y.negate)
  | .fmul gd m d a b => alone gd [d, a, b] fun e t =>
    let x := fval e t a
    let y := fval e t b
    fop e t m d [x, y] (x.mul y)
  | .ffma gd m d a b c => alone gd [d, a, b, c] fun e t =>
    let x := fval e t a
    let y := fval e t b
    let z := fval e t c
    fop e t m d [x, y, z] (Machine.Num.add (negZero m) (x.mul y) z)
  | .fmin gd d a b => alone gd [d, a, b] fun e t => e.put t d (floatLeast (e.src t a) (e.src t b))
  | .fmax gd d a b => alone gd [d, a, b] fun e t => e.put t d (floatMost (e.src t a) (e.src t b))
  | .fcmp gd c n a b => alone gd [a, b] fun e t => putPred t n.toNat (holdsFloat c (e.src t a) (e.src t b))
  | .fclass gd d a => alone gd [d, a] fun e t => e.put t d (1#32 <<< classBit (e.src t a))
  | _ => none

/-- Element `k` of `w` bits of a register, as a value of its format (R142, R143). -/
def elem (ty : Ty) (w : Nat) (a : Word) (k : Nat) : Machine.Num :=
  Machine.Num.ofBits ((ty.fmt?).getD .f32) (a.extractLsb' (w * k) w).toNat

/-- A packed pair of 16-bit results: element 0 draws first (R142). -/
def pairOp (e : Env) (t : Thread) (ty : Ty) (m : Rnd) (d : Opnd) (ins : Nat → List Machine.Num) (x : Nat → Machine.Num) :
    Thread :=
  let f := (ty.fmt?).getD .f32
  let r0 := drawn m t
  let r1 := drawn m r0.2
  let v0 := rounded f m r0.1 (ins 0) (x 0)
  let v1 := rounded f m r1.1 (ins 1) (x 1)
  putFlags e r1.2 d (v0.1 + 65536 * v1.1, v0.2 ||| v1.2)

/-- c + the sum of n products, rounded once (R116, R143). -/
def dot (e : Env) (t : Thread) (ty : Ty) (m : Rnd) (d a b c : Opnd) (w n : Nat) : Thread :=
  let x (k : Nat) := elem ty w (e.src t a) k
  let y (k : Nat) := elem ty w (e.src t b) k
  let ks := List.range n
  fop e t m d (fval e t c :: ks.flatMap fun k => [x k, y k])
    (Machine.Num.sum (negZero m) (fval e t c :: ks.map fun k => (x k).mul (y k)))

/-- Packed 16-bit arithmetic and the narrow dot products (R142, R143). -/
def packed : Instr → Option Effect
  | .hadd2 gd ty m d a b => alone gd [d, a, b] fun e t =>
    let x (k : Nat) := elem ty 16 (e.src t a) k
    let y (k : Nat) := elem ty 16 (e.src t b) k
    pairOp e t ty m d (fun k => [x k, y k]) fun k => Machine.Num.add (negZero m) (x k) (y k)
  | .hmul2 gd ty m d a b => alone gd [d, a, b] fun e t =>
    let x (k : Nat) := elem ty 16 (e.src t a) k
    let y (k : Nat) := elem ty 16 (e.src t b) k
    pairOp e t ty m d (fun k => [x k, y k]) fun k => (x k).mul (y k)
  | .hfma2 gd ty m d a b c => alone gd [d, a, b, c] fun e t =>
    let x (k : Nat) := elem ty 16 (e.src t a) k
    let y (k : Nat) := elem ty 16 (e.src t b) k
    let z (k : Nat) := elem ty 16 (e.src t c) k
    pairOp e t ty m d (fun k => [x k, y k, z k]) fun k => Machine.Num.add (negZero m) ((x k).mul (y k)) (z k)
  | .fdot2 gd ty m d a b c => alone gd [d, a, b, c] fun e t => dot e t ty m d a b c 16 2
  | .fdot4 gd ty m d a b c => alone gd [d, a, b, c] fun e t => dot e t ty m d a b c 8 4
  | _ => none

/-- The number of elements that PACK and UNPACK find in a register (R146). -/
def positions (ty : Ty) : Nat :=
  match ty with
  | .i16 | .w16 | .bf16 | .f16 | .cb2 => 2
  | .e2m1 => 8
  | _ => 4

/-- The bits of an element. -/
def elemBits (ty : Ty) : Nat :=
  match ty with
  | .i8 | .w8 | .e4m3 | .e5m2 => 8
  | .i16 | .w16 | .bf16 | .f16 | .cb2 => 16
  | .e3m2 => 6
  | .e2m1 => 4
  | .i64 | .w64 => 64
  | _ => 32

/-- An element as a 32-bit register holds it: sign-extended for .I8 and .I16, else zero-extended (R144). -/
def spread (ty : Ty) (v : Nat) : Word :=
  match ty with
  | .i8 => (BitVec.ofNat 8 v).signExtend 32
  | .i16 => (BitVec.ofNat 16 v).signExtend 32
  | _ => BitVec.ofNat 32 v

/-- CVT's element: the exact value of the source rounded or clamped into the destination (R109, R144). -/
def converted (dt sty : Ty) (m : Rnd) (rand a : Nat) : Nat × Nat :=
  let x : Machine.Num := match sty.fmt? with
    | some f => Machine.Num.ofBits f (a % 2 ^ elemBits sty)
    | none => if signedTy sty then Machine.Num.ofInt (BitVec.ofNat (elemBits sty) a).toInt
              else Machine.Num.ofInt ((a % 2 ^ elemBits sty : Nat) : Int)
  match dt.fmt?, x with
  | some f, .nan =>
    match f.nan with
    | some n => ((if a / 2 ^ (elemBits sty - 1) % 2 = 1 then 2 ^ f.sign else 0) + n, 0)
    | none => (0, 1)
  | none, .nan => (0, 1)
  | some f, y => roundNum f m rand y
  | none, y =>
    match sty.fmt? with
    | some _ => roundToInt (signedTy dt) (elemBits dt) m rand y
    | none =>
      let v : Int := if signedTy sty then (BitVec.ofNat (elemBits sty) a).toInt else ((a % 2 ^ elemBits sty : Nat) : Int)
      let lo : Int := if signedTy dt then -(2 ^ (elemBits dt - 1) : Nat) else 0
      let hi : Int := if signedTy dt then (2 ^ (elemBits dt - 1) : Nat) - 1 else (2 ^ elemBits dt : Nat) - 1
      let c := max lo (min hi v)
      ((BitVec.ofInt (elemBits dt) c).toNat, if c = v then 0 else 4)

/-- An element is an outlier of CVTX (R110): infinite, or its conversion overflows. -/
def outlier (dt : Ty) (m : Rnd) (rand : Nat) (a : Word) : Bool :=
  !(isNanWord a) && ((a &&& 0x7FFFFFFF#32) == 0x7F800000#32 || (converted dt .f32 m rand a.toNat).2 / 4 % 2 == 1)

/-- The conversions that stay within the thread: CVT, PACK, UNPACK, and CVTX for an element that is no
outlier (R110, R144 to R146). -/
def conversion : Instr → Option Effect
  | .cvt gd dt sty m d a => alone gd [d, a] fun e t =>
    let r := drawn m t
    let v := converted dt sty m r.1 (if sty.wide then (e.src64 t a).toNat else (e.src t a).toNat)
    let t' := if dt.wide then e.put64 r.2 d (BitVec.ofNat 64 v.1) else e.put r.2 d (spread dt v.1)
    { t' with status := t'.status ||| BitVec.ofNat 32 (v.2 % 64) }
  | .cvtx gd dt m d a b =>
    some { gd := gd, ops := [d, a, b]
           ok := fun s l => !(s.prot l.wg) && !(outlier dt m (drawn m (s.thread l)).1 ((view s l).src (s.thread l) a))
           f := fun s _ l t =>
             let e := view s l
             let r := drawn m t
             let v := converted dt .f32 m r.1 (e.src t a).toNat
             putFlags e r.2 d ((spread dt v.1).toNat, v.2) }
  | .pack gd ty d a b => alone gd [d, a, b] fun e t =>
    let w := elemBits ty
    let q := (e.src t b).toNat % positions ty
    let m := (BitVec.allOnes 32 >>> (32 - w)) <<< (w * q)
    e.put t d ((e.src t d &&& ~~~m) ||| ((e.src t a <<< (w * q)) &&& m))
  | .unpack gd ty d a b => alone gd [d, a, b] fun e t =>
    let w := elemBits ty
    let q := (e.src t b).toNat % positions ty
    e.put t d (spread ty ((e.src t a).extractLsb' (w * q) w).toNat)
  | .cbdec gd d a b =>
    some { gd := gd, ops := [a, b]
           f := fun s _ l t =>
             let e := view s l
             let code := ((e.src t a).extractLsb' 0 16).toNat
             let scale := ((e.src t b).extractLsb' 0 16).toNat
             let grid := ((s.launchOf? l.wg).map fun k => leNat ((k.grid.drop (4 * (code % 256))).take 4)).getD 0
             (List.range 8).foldl (fun t j =>
               let sc := Machine.Num.ofBits .bf16 scale
               let v := rounded .f32 .rne 0 [sc] ((cb2Weight grid code j).mul sc)
               let t := match d with
                 | .g r => { t with regs := Map.set 0#32 t.regs (r.toNat + j) (BitVec.ofNat 32 v.1) }
                 | .t _ => { t with temps := Map.set 0#32 t.temps j (BitVec.ofNat 32 v.1) }
                 | _ => t
               { t with status := t.status ||| BitVec.ofNat 32 (v.2 % 64) }) t }
  | _ => none

/-- The integer that a rounding to an integer gives an FP32 value, with NX (R104, R139). -/
def toIntegral (m : Rnd) (rand : Nat) (a : Word) : Nat × Nat :=
  match Machine.Num.ofBits .f32 a.toNat with
  | .nan => (0x7FC00000, 0)
  | .inf _ => (a.toNat, 0)
  | .fin s n d e =>
    if n = 0 then (a.toNat, 0)
    else
      let r := roundInt m rand s n d e
      ((roundNum .f32 .rne 0 (.fin s r.1.natAbs 1 0)).1, if r.2 then 0 else 16)

/-- FRND, FSCALE and the special functions (R119, R139, R148); the functions of R148 are the model's, and
EXP2 is free within the bounds of R119 (log entries 8 and 12). -/
def special : Instr → Option Effect
  | .frnd gd m d a => alone gd [d, a] fun e t =>
    let r := drawn m t
    putFlags e r.2 d (toIntegral m r.1 (e.src t a))
  | .fscale gd m d a b => alone gd [d, a, b] fun e t =>
    let x := fval e t a
    fop e t m d [x] (if x.isZero then x else scaled x (max (-1000) (min 1000 (e.src t b).toInt)))
  | .exp2 gd d a => alone gd [d, a] fun e t => putFlags e t d (exp2Word (e.src t a).toNat)
  | .log2 gd d a => alone gd [d, a] fun e t => putFlags e t d (log2Word (e.src t a).toNat)
  | .rcp gd d a => alone gd [d, a] fun e t => putFlags e t d (rcpWord (e.src t a).toNat)
  | .rsq gd d a => alone gd [d, a] fun e t => putFlags e t d (rsqWord (e.src t a).toNat)
  | .sqrt gd d a => alone gd [d, a] fun e t => putFlags e t d (sqrtWord (e.src t a).toNat)
  | .sin gd d a => alone gd [d, a] fun e t => putFlags e t d (sinWord (e.src t a).toNat)
  | .cos gd d a => alone gd [d, a] fun e t => putFlags e t d (cosWord (e.src t a).toNat)
  | .tanh gd d a => alone gd [d, a] fun e t => putFlags e t d (tanhWord (e.src t a).toNat)
  | _ => none

/-! Lanes that combine (R149 to R154). -/

/-- The participants of a lane: the running lanes of its rig; under protection primaries with primaries and
shadows with shadows (R149, R349). They stand in ascending order. -/
def partners (s : State) (ls : List LaneRef) (l : LaneRef) : List LaneRef :=
  ls.filter fun m => m.wg == l.wg && m.rig == l.rig && (!(s.prot l.wg) || m.lane % 2 == l.lane % 2)

/-- The %lane number of a lane (R24, R349). -/
def laneNo (s : State) (l : LaneRef) : Nat := if s.prot l.wg then l.lane / 2 else l.lane

/-- The participant with a %lane number. -/
def withNo (s : State) (ps : List LaneRef) (n : Nat) : Option LaneRef := ps.find? fun m => laneNo s m == n

/-- What a lane reads from an operand. -/
def reads (s : State) (o : Opnd) (l : LaneRef) : Word := (view s l).src (s.thread l) o
def reads64 (s : State) (o : Opnd) (l : LaneRef) : Dword := (view s l).src64 (s.thread l) o

/-- The reduction of integers of a width (R152). -/
def foldInt (op : RedOp) (sg : Bool) {w : Nat} (vs : List (BitVec w)) : BitVec w :=
  match op with
  | .add => vs.foldl (· + ·) 0#w
  | .min => vs.foldl (least sg) (if sg then BitVec.intMax w else BitVec.allOnes w)
  | .max => vs.foldl (most sg) (if sg then BitVec.intMin w else 0#w)
  | .and => vs.foldl (· &&& ·) (BitVec.allOnes w)
  | .or => vs.foldl (· ||| ·) 0#w
  | .xor => vs.foldl (· ^^^ ·) 0#w
  | .fadd | .fmin | .fmax => 0#w

/-- The reduction of FP32 values, with its status: an exact sum rounded once (R117, R152). -/
def foldFloat (op : RedOp) (vs : List Word) : Nat × Nat :=
  match op with
  | .fmin => ((match vs with
      | [] => 0x7F800000#32
      | v :: r => r.foldl floatLeast (floatLeast v v)).toNat, 0)
  | .fmax => ((match vs with
      | [] => 0xFF800000#32
      | v :: r => r.foldl floatMost (floatMost v v)).toNat, 0)
  | _ =>
    if vs.isEmpty then (0x80000000, 0)
    else
      let xs := vs.map fun v => Machine.Num.ofBits .f32 v.toNat
      rounded .f32 .rne 0 xs (Machine.Num.sum false xs)

/-- d ← the reduction of the a of some lanes (R152, R153). -/
def reduceTo (s : State) (ty : Ty) (op : RedOp) (d a : Opnd) (ms : List LaneRef) (e : Env) (t : Thread) : Thread :=
  if ty.wide then e.put64 t d (foldInt op (signedTy ty) (ms.map (reads64 s a)))
  else match op with
    | .fadd | .fmin | .fmax => putFlags e t d (foldFloat op (ms.map (reads s a)))
    | _ => e.put t d (foldInt op (signedTy ty) (ms.map (reads s a)))

/-- The cross-lane instructions (R149 to R154). -/
def crossing : Instr → Option Effect
  | .shfl gd mode d a b =>
    some { gd := gd, ops := [d, a, b]
           f := fun s ls l t =>
             let n := laneNo s l
             let k := (reads s b l).toNat
             let src : Option Nat := match mode with
               | .idx => some k
               | .up => if k ≤ n then some (n - k) else none
               | .down => some (n + k)
               | .xor => some (n ^^^ k)
             let m := (src.bind (withNo s (partners s ls l))).getD l
             (view s l).put t d (reads s a m) }
  | .vote gd mode d a =>
    some { gd := gd, ops := [d, a]
           f := fun s ls l t =>
             let ps := partners s ls l
             let yes (m : LaneRef) : Bool := reads s a m != 0#32
             match mode with
             | .all => (view s l).put t d (if ps.all yes then 1#32 else 0#32)
             | .any => (view s l).put t d (if ps.any yes then 1#32 else 0#32)
             | .bal => (view s l).put64 t d
                 ((ps.filter yes).foldl (fun m p => m ||| (1#64 <<< laneNo s p)) 0#64) }
  | .redx gd ty op d a =>
    some { gd := gd, ops := [d, a]
           f := fun s ls l t => reduceTo s ty op d a (partners s ls l) (view s l) t }
  | .scanx gd ty op exc d a =>
    some { gd := gd, ops := [d, a]
           f := fun s ls l t =>
             let before := (partners s ls l).filter fun m =>
               decide (laneNo s m < laneNo s l) || (!exc && laneNo s m == laneNo s l)
             reduceTo s ty op d a before (view s l) t }
  | .bcst gd ty d a b =>
    some { gd := gd, ops := [d, a, b]
           f := fun s ls l t =>
             let ps := partners s ls l
             let src := (ps.head?.bind fun m => withNo s ps (reads s b m).toNat).getD l
             if ty.wide then (view s l).put64 t d (reads64 s a src) else (view s l).put t d (reads s a src) }
  | _ => none

/-! Control (R156 to R163). -/

/-- A thread at a new address, ready in this bay cycle (R28). -/
def arrive (s : State) (pc : Dword) (t : Thread) : Thread :=
  { t with pc := pc, slot := none, age := s.cycle }

/-- The stride header and the fall-through address of the group that issues (R47). -/
def headerPc (s : State) : Dword := (s.group?.map Group.pc).getD 0#64
def fallPc (s : State) : Dword := headerPc s + BitVec.ofNat 64 ((s.group?.map Group.size).getD 0)

/-- What YIELD's operands read (R163). -/
def yieldReads (s : State) (x : YieldForm) (l : LaneRef) : List Nat :=
  match x with
  | .phase a b => [(reads s a l).toNat, ((reads s b l).getLsbD 0).toNat]
  | .token k => [k.toNat]
  | .wptr a b => [(reads s a l).toNat, (reads s b l).toNat]

def offset (k : Word) : Dword := k.signExtend 64

/-- The wake condition that YIELD leaves a lane with (R34, R163). -/
def waitsFor (s : State) (x : YieldForm) (l : LaneRef) : Wake :=
  match x with
  | .phase a b => .phase (reads s a l).toNat ((reads s b l).getLsbD 0)
  | .token k => .token k.toNat
  | .wptr a b => .wptr (reads s a l).toNat (reads s b l)

/-- Its operands are in range (R163). -/
def yieldOk (s : State) (x : YieldForm) (l : LaneRef) : Bool :=
  match x with
  | .phase a _ => (reads s a l).toNat % 16 == 0 && decide ((reads s a l).toNat < (s.limits l.wg).2.2)
  | .token _ => true
  | .wptr a _ => decide ((reads s a l).toNat ≤ 15)

/-- Transfers of control to a valid stride, calls that need no spill and returns that need no refill, EXIT and
YIELD (R54, R156 to R163). -/
def control : Instr → Option Effect
  | .bra gd k =>
    some { gd := gd, ops := [], leaves := true
           ok := fun s _ => s.validTarget (headerPc s + offset k).toNat
           f := fun s _ _ t => arrive s (headerPc s + offset k) t }
  | .brx gd a k =>
    some { gd := gd, ops := [], leaves := true
           ok := fun s l => s.validTarget (reads64 s a l + offset k).toNat
           point := fun s l => [(reads64 s a l + offset k).toNat]
           f := fun s _ l t => arrive s (reads64 s a l + offset k) t }
  | .call gd k =>
    some { gd := gd, ops := [], leaves := true
           ok := fun s l => s.validTarget (headerPc s + offset k).toNat && !(s.thread l).refill &&
             decide ((s.thread l).stack.length < 4)
           f := fun s _ _ t => arrive s (headerPc s + offset k) { t with stack := fallPc s :: t.stack } }
  | .ret gd =>
    some { gd := gd, ops := [], leaves := true
           ok := fun s l => !(s.thread l).refill && (s.thread l).spilled == 0 &&
             match (s.thread l).stack with
             | [] => false
             | pc :: _ => s.validTarget pc.toNat
           point := fun s l => [((s.thread l).stack.headD 0#64).toNat]
           f := fun s _ _ t => arrive s (t.stack.headD 0#64) { t with stack := t.stack.tail } }
  | .exit gd =>
    some { gd := gd, ops := [], leaves := true
           f := fun _ _ _ t => { t with life := .exited, inHandler := false, slot := none } }
  | .yield gd x =>
    some { gd := gd, ops := [], leaves := true
           ok := fun s l => s.validTarget (fallPc s).toNat && yieldOk s x l && !(s.wakeHolds l (waitsFor s x l))
           point := fun s l => yieldReads s x l
           f := fun s _ l t => { arrive s (fallPc s) t with life := .parked (waitsFor s x l) } }
  | _ => none

/-! Tokens, fences and registers of the system (R170, R171, R175, R183, R185, R195, R273). -/

/-- A special register as a lane reads it (R170). -/
def specialValue (s : State) (l : LaneRef) : SReg → Nat
  | .lane => laneNo s l
  | .team => laneNo s l / (if s.prot l.wg then 2 else 4)
  | .rig => l.rig
  | .tid => (if s.prot l.wg then 32 else 64) * l.rig + laneNo s l
  | .wgid => ((s.wg? l.wg).map Workgroup.wgid).getD 0
  | .nwg => ((s.launchOf? l.wg).map fun k => k.rcd.gx * k.rcd.gy * k.rcd.gz).getD 0
  | .launch => ((s.launchOf? l.wg).map fun k => k.rcd.ident).getD 0
  | .graph => ((s.launchOf? l.wg).map fun k => k.rcd.graph).getD 0
  | .phase => ((s.launchOf? l.wg).map fun k => k.rcd.phase).getD 0
  | .job => ((s.launchOf? l.wg).map fun k => k.rcd.job).getD 0
  | .time => s.time
  | .readfloor => (s.thread l).readfloor
  | .rowprog => ((s.rig? l.wg l.rig).map fun q => q.rowprog.toNat).getD 0
  | .pkperm => ((s.wg? l.wg).map fun w => w.pkperm.toNat).getD 0
  | .cstk => 65536 * (s.thread l).spilled + (s.thread l).stack.length + (if (s.thread l).refill then 1 else 0)
  | .cspill => (s.tframe l + 128) % 2 ^ 64
  | .aset => ((s.rig? l.wg l.rig).map fun q => q.aset.toNat).getD 0
  | .vf => ((s.launchOf? l.wg).map Launch.vf).getD 0
  | .core => ((s.wg? l.wg).map Workgroup.core).getD 0
  | .die => ((s.wg? l.wg).map fun w => w.core / 48).getD 0
  | .bay => ((s.rig? l.wg l.rig).map Rig.bay).getD 0
  | .status => (s.thread l).status.toNat
  | .lfsr => (s.thread l).lfsr.toNat
  | .tframe => s.tframe l

/-- The special registers of two words. -/
def twoWords : SReg → Bool
  | .nwg | .time | .readfloor | .pkperm | .cspill | .tframe => true
  | _ => false

/-- Whether an order waits, and whether it reads later (R58). -/
def waits : Order → Bool
  | .rel | .acqrel => true
  | _ => false
def acquires : Order → Bool
  | .acq | .acqrel => true
  | _ => false

/-- The value of a token to a thread: its rig's count and its own (R183). -/
def tokenOf (s : State) (l : LaneRef) (k : Nat) : Nat :=
  ((s.rig? l.wg l.rig).map fun q => Map.get 0 q.tok k).getD 0 + Map.get 0 (s.thread l).tok k

/-- The registers of the system, FENCE and TWAIT when they need not wait, and the reads of tokens, channels
and counters. -/
def system : Instr → Option Effect
  | .movs gd d r =>
    some { gd := gd, ops := [d]
           f := fun s _ l t =>
             if twoWords r then (view s l).put64 t d (BitVec.ofNat 64 (specialValue s l r))
             else (view s l).put t d (BitVec.ofNat 32 (specialValue s l r)) }
  | .movsw gd .status a => alone gd [a] fun e t => { t with status := e.src t a &&& 0x3F#32 }
  | .movsw gd .lfsr a => alone gd [a] fun e t =>
    { t with lfsr := if e.src t a = 0#32 then 1#32 else e.src t a }
  | .fence gd sc o =>
    some { gd := gd, ops := []
           ok := fun s l => !(waits o) || s.released l sc
           f := fun _ _ _ t => if acquires o then { t with readfloor := max t.readfloor t.seenPub } else t }
  | .tcnt gd k d =>
    some { gd := gd, ops := [d]
           f := fun s _ l t => (view s l).put t d (BitVec.ofNat 32 (tokenOf s l k.toNat)) }
  | .chwp gd d a =>
    some { gd := gd, ops := [d, a]
           ok := fun s l => decide ((reads s a l).toNat ≤ 15)
           f := fun s _ l t =>
             (view s l).put t d (((s.wg? l.wg).map fun w => Map.get 0#32 w.chans (reads s a l).toNat).getD 0#32) }
  | .ctrd gd d a =>
    some { gd := gd, ops := [d, a]
           ok := fun s l => decide ((reads s a l).toNat ≤ 3)
           f := fun s _ l t =>
             let v := ((s.launchOf? l.wg).map Launch.vf).getD 0
             (view s l).put64 t d (BitVec.ofNat 64 ((s.vf v).ctrs.cnt.getD (reads s a l).toNat 0)) }
  | _ => none

/-! Accesses to memory of one lane (R177 to R194). -/

/-- The guard of an instruction that accesses memory. -/
def guardOf : Instr → Guard
  | .ld gd _ _ _ _ _ | .st gd _ _ _ _ | .ldl gd _ _ _ _ _ | .stl gd _ _ _ _ | .ldp gd _ _ _ _ _
  | .lda gd _ _ _ _ _ _ _ _ | .sta gd _ _ _ _ _ _ _ | .atomAdd gd _ _ _ _ _ _ _ _ | .atomMin gd _ _ _ _ _ _ _ _
  | .atomMax gd _ _ _ _ _ _ _ _ | .atomAnd gd _ _ _ _ _ _ _ _ | .atomOr gd _ _ _ _ _ _ _ _
  | .atomXor gd _ _ _ _ _ _ _ _ | .atomExch gd _ _ _ _ _ _ _ _ | .atomFadd gd _ _ _ _ _ _ _
  | .cas gd _ _ _ _ _ _ _ _ _ | .casw gd _ _ _ _ _ _ _ _ => gd
  | _ => ⟨7#3, false⟩

/-- The address of an access (R177): 64 bits in global memory, 32 in the loft. -/
def address (s : State) (m : MemOp) (l : LaneRef) : Nat :=
  match m.sp with
  | .global => (reads64 s m.a l + (reads s m.b l).signExtend 64).toNat
  | .loft => (reads s m.a l + reads s m.b l).toNat

/-- The bytes of the type, 32 for CASW (R178, R193). -/
def lengthOf (m : MemOp) : Nat := if m.block then 32 else elemBits m.ty / 8

/-- The eight words from a register, as one number (R193). -/
def blockOf (s : State) (o : Opnd) (l : LaneRef) : Nat :=
  leNat ((List.range 8).flatMap fun i => leBytes 4 ((view s l).reg (s.thread l) (o.gnum + i)).toNat)

/-- The number that a store or an atomic carries (R178, R193). -/
def carried (s : State) (m : MemOp) (l : LaneRef) (o : Opnd) : Nat :=
  if m.block then blockOf s o l
  else (if m.ty.wide then (reads64 s o l).toNat else (reads s o l).toNat) % 2 ^ (8 * lengthOf m)

/-- The state in which the access of the one lane happens: the slot has its number (R182). -/
def atSlot (s : State) (m : MemOp) (l : LaneRef) : State :=
  ({ s with fresh := s.fresh + 1 }.taint [l] [m.d, m.a, m.b, m.c]).numberSlot

/-- The number of the slot that issues (R182). -/
def slotNo (s : State) (g : Group) : Nat := if g.served.isEmpty then s.fresh + 1 else g.issue

/-- A place in the loft. -/
def inLoft (a : Nat) : Place := ⟨true, a, .priv, 0, false, [], [], false, none⟩

/-- The access passes the checks of R180 and reaches a place: `s1` is the state after its translation. -/
def reaches (s : State) (m : MemOp) (l : LaneRef) (s1 : State) (p : Place) : Prop :=
  address s m l % lengthOf m = 0 ∧
  match m.sp with
  | .global => ∃ q, (atSlot s m l).coreAccess l m.kind (address s m l) = (s1, .ok p q) ∧ s1.halt = none
  | .loft => s1 = atSlot s m l ∧ ∃ w, s.wg? l.wg = some w ∧ p = inLoft (address s m l) ∧
      address s m l + lengthOf m ≤ (s.limits l.wg).2.2 ∧
      (m.kind.writes = true → w.touchesLive (address s m l) (lengthOf m) = false)

/-- The slot need not wait: the token is below its limit (R183), and a release part finds the earlier writes
of its lane past their write-completion times, at wg scope in the loft (R189, R190). -/
def passes (s : State) (m : MemOp) (l : LaneRef) : Prop :=
  (∀ k, m.tok = some k → tokenOf s l k < 63) ∧
  (waits m.ord = true → s.released l (match m.sp with
    | .loft => .wg
    | .global => m.sc) = true)

/-- What stays of a workgroup when threads change. -/
def shell (w : Workgroup) : Workgroup :=
  { w with rigs := w.rigs.map fun q => { q with threads := [] } }

/-- A token of a thread one higher (R183). -/
def tokenUp (k : Option Nat) (t : Thread) : Thread :=
  match k with
  | some k => { t with tok := Map.set 0 t.tok k (Map.get 0 t.tok k + 1) }
  | none => t

/-- The two lanes of a protected pair that execute, and the state in which their access happens (R349, R350). -/
structure Pair (s : State) (g : Group) (i : Instr) (gd : Guard) (l : LaneRef) : Prop extends Ready s g i where
  only : running s g gd = [l, mate l]
  even : l.lane % 2 = 0
  guarded : s.prot l.wg = true
  alive : (s.thread l).alive = true ∧ (s.thread (mate l)).alive = true
def atPair (s : State) (m : MemOp) (l : LaneRef) : State :=
  ({ s with fresh := s.fresh + 1 }.taint [l, mate l] [m.d, m.a, m.b, m.c]).numberSlot

/-- The thread of the one lane as its access begins. -/
def threadOf (s : State) (m : MemOp) (l : LaneRef) : Thread := (atSlot s m l).thread l

/-- The entry through which a write goes has no failed check and an address that exists. -/
def leafFit (s : State) (p : Place) : Prop :=
  ∀ a, p.leaf = some a → a % 8 = 0 ∧ paExists a = true ∧ s.sectorBad (a / 32) = false

/-- Memory once a write through a leaf has set its D bit, if the entry is the leaf of the place still (R297). -/
def dirtied (s : State) (p : Place) : Memory :=
  match p.leaf with
  | none => s.mem
  | some a =>
    let e := leNat (Memory.readN s.mem a 8)
    let base := bits e 12 40 * 4096
    let size := if bits e 52 2 = 2 then 2 ^ 21 else if bits e 52 2 = 3 then 2 ^ 30 else 2 ^ 12
    if bit e 0 = true ∧ bit e 55 = false ∧ bit e 11 = false ∧ base ≤ p.addr ∧ p.addr < base + size then
      Memory.writeN s.mem a (leBytes 8 (e + 2 ^ 11))
    else s.mem

/-- From `s` to `t` the workgroups keep all but the threads, and of these only the one of `l` changes. -/
def threadOnly (s t : State) (l : LaneRef) (th : Thread) : Prop :=
  t.wgs.map shell = s.wgs.map shell ∧ t.thread l = th ∧ ∀ m, m ≠ l → t.thread m = s.thread m

/-- Where the data of an access goes, and whose it is. -/
def launchOf (s : State) (l : LaneRef) : Nat := ((s.wg? l.wg).map Workgroup.launch).getD 0
def coreOf (s : State) (l : LaneRef) : Nat := ((s.wg? l.wg).map Workgroup.core).getD 0

/-- No access of a thread is on its way. -/
def quiet (s : State) (l : LaneRef) : Prop :=
  (∀ p ∈ s.loads, p.lane = l → p.served.isSome = true) ∧ ∀ q ∈ s.stores, q.lane ≠ l

/-- The register or block that a landing writes (R184, R193). -/
def target (m : MemOp) : LoadKind := if m.block then .block m.d.gnum else .reg m.d.gnum m.ty

/-- What an atomic stores for the old number (R192, R193): none for a compare that fails. -/
def atomic (i : Instr) (sg : Bool) {w : Nat} (old x cmp : BitVec w) : Option (BitVec w) :=
  match i with
  | .atomAdd _ _ _ _ _ _ _ _ _ => some (old + x)
  | .atomMin _ _ _ _ _ _ _ _ _ => some (least sg old x)
  | .atomMax _ _ _ _ _ _ _ _ _ => some (most sg old x)
  | .atomAnd _ _ _ _ _ _ _ _ _ => some (old &&& x)
  | .atomOr _ _ _ _ _ _ _ _ _ => some (old ||| x)
  | .atomXor _ _ _ _ _ _ _ _ _ => some (old ^^^ x)
  | .atomExch _ _ _ _ _ _ _ _ _ => some x
  | .atomFadd _ _ _ _ _ _ _ _ =>
    let a := Machine.Num.ofBits .f32 old.toNat
    let b := Machine.Num.ofBits .f32 x.toNat
    some (BitVec.ofNat w (rounded .f32 .rne 0 [a, b] (Machine.Num.add false a b)).1)
  | _ => if old = cmp then some x else none

/-- The bytes that an atomic of a lane leaves where it found `old`. -/
def atomBytes (s : State) (i : Instr) (m : MemOp) (l : LaneRef) (old : List Byte) : List Byte :=
  let w := 8 * lengthOf m
  let n (v : Nat) : BitVec w := BitVec.ofNat w v
  match atomic i (signedTy m.ty) (n (leNat old)) (n (carried s m l m.d)) (n (carried s m l m.c)) with
  | some v => leBytes (lengthOf m) v.toNat
  | none => old

/-- Whether it stores at all (R193, R297). -/
def atomWrites (s : State) (i : Instr) (m : MemOp) (l : LaneRef) (old : List Byte) : Bool :=
  let w := 8 * lengthOf m
  let n (v : Nat) : BitVec w := BitVec.ofNat w v
  (atomic i (signedTy m.ty) (n (leNat old)) (n (carried s m l m.d)) (n (carried s m l m.c))).isSome

/-- The bytes of a sparse memory from an address, and the memory elsewhere. -/
def holdsBytes (m : Memory) (a : Nat) (d : List Byte) : Prop := ∀ k, k < d.length → Memory.read m (a + k) = d.getD k 0#8
def sameOutside (m m' : Memory) (a n : Nat) : Prop := ∀ x, (x < a ∨ a + n ≤ x) → Memory.read m' x = Memory.read m x

/-- The launch of a lane keeps no dirty bitmap (R308). -/
def noBitmap (s : State) (l : LaneRef) : Prop := ∀ k, s.launchOf? l.wg = some k → k.ctx.dbm = 0

end Sys2Proof.Spec

open Sys2Proof Sys2Proof.Machine Sys2Proof.Spec

/-- A load that passes its checks goes on its way (R177, R180, R183, R186, R189): LD, LDL and LDA, and of a protected
pair (R350). -/
def Obligations.LoadsIssue : Prop :=
  (∀ (i : Instr) (m : MemOp) (s : State) (g : Group) (l : LaneRef) (s1 : State) (p : Place),
    memOp i = some m → m.kind = .read → m.param = false → i.wf = true → One s g i (guardOf i) l →
    passes s m l → reaches s m l s1 p →
    ∃ t, exec i s = .next t ∧
      t.loads = s.loads ++ [{
        id := s1.serial, issue := slotNo s g, lane := l, launch := launchOf s l, core := coreOf s l, kind := target m
        tok := m.tok, len := lengthOf m, place := p, floor := (s.thread l).readfloor, acq := acquires m.ord, served := none
        long := !p.loft && !(s1.l1Serves (coreOf s l) p (s.thread l).readfloor false)
        atomic := false }] ∧
      t.stores = s.stores ∧ t.mem = s1.mem ∧ threadOnly (atSlot s m l) t l (tokenUp m.tok (threadOf s m l)) ∧
      (m.sp = .loft → t.mem = s.mem)) ∧
  (∀ (i : Instr) (m : MemOp) (s : State) (g : Group) (l : LaneRef) (s1 : State) (p : Place) (q : Nat),
    memOp i = some m → m.kind = .read → m.param = false → m.sp = .global → i.wf = true → Pair s g i (guardOf i) l →
    passes s m l → passes s m (mate l) → address s m (mate l) = address s m l → address s m l % lengthOf m = 0 →
    (atPair s m l).coreAccess l .read (address s m l) = (s1, .ok p q) → s1.halt = none →
    ∃ t v, exec i s = .next t ∧ t.loads = s.loads ++ [v] ∧ v.lane = l ∧ v.kind = target m ∧ v.tok = m.tok ∧
      v.len = lengthOf m ∧ v.place = p ∧ v.served = none ∧ t.stores = s.stores ∧ t.mem = s1.mem ∧
      (∀ n, (n = l ∨ n = mate l) → t.thread n = tokenUp m.tok ((atPair s m l).thread n)) ∧
      ∀ n, n ≠ l → n ≠ mate l → t.thread n = (atPair s m l).thread n) ∧
  ∀ (i : Instr) (m : MemOp) (s : State) (g : Group) (l : LaneRef) (k : Launch),
    memOp i = some m → (m.kind = .read ∨ m.kind = .write) → m.param = false → i.wf = true →
    Pair s g i (guardOf i) l → passes s m l → passes s m (mate l) →
    (address s m (mate l) ≠ address s m l ∨
      (m.kind = .write ∧ carried s m (mate l) m.d ≠ carried s m l m.d)) →
    s.launchOf? l.wg = some k → k.repl = false → k.status = .done →
    (s.pf.nq.head + 2 ^ 32 - s.pf.nq.tail) % 2 ^ 32 = 2 ^ s.pf.nq.size →
    ∃ t k' b, exec i s = .next t ∧ t.loads = s.loads ∧ t.stores = s.stores ∧ t.mem = s.mem ∧
      (∀ n, t.thread n = (atPair s m l).thread n) ∧ t.launchOf? l.wg = some k' ∧ k'.status = .contained ∧
      k'.noPlace = true ∧ k'.hard = true ∧ t.pf.nq.held = s.pf.nq.held ++ [b] ∧ b.take 2 = leBytes 2 0x13 ∧
      b.drop 24 = leBytes 8 0

/-- A store that passes its checks goes on its way (R177 to R182, R186, R189). ST, STL and STA. -/
def Obligations.StoresIssue : Prop :=
  ∀ (i : Instr) (m : MemOp) (s : State) (g : Group) (l : LaneRef) (s1 : State) (p : Place),
    memOp i = some m → m.kind = .write → i.wf = true → One s g i (guardOf i) l →
    passes s m l → reaches s m l s1 p →
    ∃ t, exec i s = .next t ∧
      t.stores = s.stores ++ [{
        id := s1.serial, issue := slotNo s g, lane := l, launch := launchOf s l, core := coreOf s l, place := p
        va := address s m l, data := leBytes (lengthOf m) (carried s m l m.d), scope := m.sc, cmd := none, tok := none
        bad := false }] ∧
      t.loads = s.loads ∧ t.mem = s1.mem ∧ t.wgs = (atSlot s m l).wgs ∧ (m.sp = .loft → t.mem = s.mem)

/-- An atomic on the loft (R190 to R193). -/
def Obligations.LoftAtomics : Prop :=
  ∀ (i : Instr) (m : MemOp) (s : State) (g : Group) (l : LaneRef) (s1 : State) (p : Place) (w : Workgroup),
    memOp i = some m → m.kind = .rmw → m.sp = .loft → i.wf = true → One s g i (guardOf i) l →
    passes s m l → reaches s m l s1 p → quiet s l → s.wg? l.wg = some w →
    ∃ t v pub, exec i s = .next t ∧ t.wg? l.wg = some v ∧
      holdsBytes v.loft (address s m l) (atomBytes s i m l (Memory.readN w.loft (address s m l) (lengthOf m))) ∧
      sameOutside w.loft v.loft (address s m l) (lengthOf m) ∧
      t.loads = s.loads ++ [{
        id := s.serial, issue := slotNo s g, lane := l, launch := launchOf s l, core := coreOf s l, kind := target m
        tok := m.tok, len := lengthOf m, place := p, floor := (s.thread l).readfloor, acq := acquires m.ord
        served := some (Memory.readN w.loft (address s m l) (lengthOf m), pub), long := false, atomic := true }] ∧
      t.thread l = tokenUp m.tok (threadOf s m l) ∧ (∀ n, n ≠ l → t.thread n = (atSlot s m l).thread n) ∧
      (∀ n, n ≠ l.wg → t.wg? n = s.wg? n) ∧ t.mem = s.mem ∧ t.stores = s.stores

/-- An atomic at the home of its line (R191 to R193). -/
def Obligations.GlobalAtomics : Prop :=
  ∀ (i : Instr) (m : MemOp) (s : State) (g : Group) (l : LaneRef) (s1 : State) (p : Place),
    memOp i = some m → m.kind = .rmw → m.sp = .global → i.wf = true → One s g i (guardOf i) l →
    passes s m l → reaches s m l s1 p → quiet s l → noBitmap s l →
    s1.deadLink p.addr = false → Map.get false s1.helped (p.addr / 32) = false →
    s1.badSectors p.addr (lengthOf m) = [] → leafFit s1 p →
    ∃ t v, exec i s = .next t ∧
      holdsBytes t.mem p.addr (atomBytes s i m l (Memory.readN s1.mem p.addr (lengthOf m))) ∧
      sameOutside (if atomWrites s i m l (Memory.readN s1.mem p.addr (lengthOf m)) then dirtied s1 p else s1.mem)
        t.mem p.addr (lengthOf m) ∧
      t.loads = s.loads ++ [v] ∧ v.lane = l ∧ v.kind = target m ∧ v.tok = m.tok ∧ v.acq = acquires m.ord ∧
      v.served = some (Memory.readN s1.mem p.addr (lengthOf m), s1.pubOf p.addr (lengthOf m)) ∧
      threadOnly (atSlot s m l) t l (tokenUp m.tok (threadOf s m l)) ∧ t.stores = s.stores


/-- LDP (R187) and PREF (R188). -/
def Obligations.ParameterLoadsAndPrefetch : Prop :=
  (∀ (gd : Guard) (ty : Ty) (k : BitVec 3) (d a b : Opnd) (m : MemOp) (s : State) (g : Group) (l : LaneRef)
    (n : Launch) (s1 : State) (p : Place) (q : Nat),
    memOp (.ldp gd ty k d a b) = some m → (Instr.ldp gd ty k d a b).wf = true →
    One s g (.ldp gd ty k d a b) gd l → passes s m l → quiet s l → s.launchOf? l.wg = some n →
    address s m l < 2 ^ 31 → address s m l % lengthOf m = 0 → address s m l + lengthOf m ≤ n.rcd.plen →
    (atSlot s m l).coreAccess l .read (n.rcd.param + address s m l) = (s1, .ok p q) → s1.halt = none →
    s1.badSectors p.addr (lengthOf m) = [] → s1.pubOf p.addr (lengthOf m) ≤ n.admitted →
    ∃ t v, exec (.ldp gd ty k d a b) s = .next t ∧ t.loads = s.loads ++ [v] ∧
      v.served = some (Memory.readN s1.mem p.addr (lengthOf m), s1.pubOf p.addr (lengthOf m)) ∧
      v.lane = l ∧ v.kind = .reg d.gnum ty ∧ v.tok = some k.toNat ∧
      threadOnly (atSlot s m l) t l (tokenUp (some k.toNat) (threadOf s m l)) ∧ t.mem = s1.mem ∧ t.stores = s.stores) ∧
  ∀ (gd : Guard) (a b : Opnd) (s : State) (g : Group) (l : LaneRef) (s1 : State) (r : XRes),
    One s g (.pref gd a b) gd l →
    ({ s with fresh := s.fresh + 1 }.taint [l] [a, b]).coreAccess l .read
      (reads64 s a l + (reads s b l).signExtend 64).toNat = (s1, r) → s1.halt = none →
    ∃ t, exec (.pref gd a b) s = .next t ∧ t.wgs = ({ s with fresh := s.fresh + 1 }.taint [l] [a, b]).wgs ∧ t.loads = s.loads ∧ t.stores = s.stores ∧
      t.mem = s1.mem ∧ t.cmds = s.cmds.map (touched s [l] [a, b])

namespace Sys2Proof.Spec

/-- The word or words that a load writes into a register (R178, R193). -/
def landed (t : Thread) (k : LoadKind) (data : List Byte) : Thread :=
  let v := leNat data
  match k with
  | .reg d .i8 => { t with regs := Map.set 0#32 t.regs d ((BitVec.ofNat 8 v).signExtend 32) }
  | .reg d .i16 => { t with regs := Map.set 0#32 t.regs d ((BitVec.ofNat 16 v).signExtend 32) }
  | .reg d ty =>
    if ty.wide then
      { t with regs := Map.set 0#32 (Map.set 0#32 t.regs d (BitVec.ofNat 32 v)) (d + 1) (BitVec.ofNat 32 (v / 2 ^ 32)) }
    else { t with regs := Map.set 0#32 t.regs d (BitVec.ofNat 32 v) }
  | .block d =>
    { t with regs := (List.range 8).foldl (fun r i =>
        Map.set 0#32 r (d + i) (BitVec.ofNat 32 (leNat ((data.drop (4 * i)).take 4)))) t.regs }
  | .refill => { t with stack := t.stack ++ [BitVec.ofNat 64 v], refill := false }

/-- A token of a thread one lower. -/
def tokenDown (k : Option Nat) (t : Thread) : Thread :=
  match k with
  | some k => { t with tok := Map.set 0 t.tok k (Map.get 0 t.tok k - 1) }
  | none => t

/-- No thread of a workgroup is parked: the landing wakes none (R34). -/
def nobodyParked (s : State) (wg : Nat) : Prop := ∀ l c, l.wg = wg → (s.thread l).life ≠ .parked c

/-- A thread holds what a landing gives it; as its own wake condition comes to hold it may take a higher read floor
(R211). -/
def gotIt (t u : Thread) : Prop :=
  t.regs = u.regs ∧ t.tok = u.tok ∧ t.stack = u.stack ∧ t.refill = u.refill ∧ t.life = u.life ∧ t.pc = u.pc ∧
    t.preds = u.preds ∧ t.temps = u.temps ∧ t.status = u.status ∧ t.seenPub = u.seenPub ∧ u.readfloor ≤ t.readfloor

/-- A thread after a landing (R184, R189): the token falls, the value is written unless the thread has ended,
and an acquire raises the read floor to the value's publication time. -/
def afterLanding (p : PendingLoad) (data : List Byte) (pub : Nat) (t : Thread) : Thread :=
  let t := tokenDown p.tok t
  if t.alive = false then { t with refill := false }
  else
    let t := landed t p.kind data
    { t with seenPub := max t.seenPub pub, readfloor := if p.acq then max t.readfloor pub else t.readfloor }

end Sys2Proof.Spec


/-- LOAD_LANDS (R184), of a served load and of one that needs no grant (R186, R298). -/
def Obligations.LoadsLand : Prop :=
  (∀ (s : State) (p : PendingLoad) (data : List Byte) (pub : Nat),
    s.halt = none → Inv s → s.loads.find? (fun q => q.id == p.id) = some p → p.served = some (data, pub) →
    data ≠ [] → s.prot p.lane.wg = false → (s.thread p.lane).life ≠ .absent →
    ∃ t, exec (.loadLands p.id) s = .next t ∧ t.loads = s.loads.filter (fun q => q.id != p.id) ∧
      gotIt (t.thread p.lane) (afterLanding p data pub (s.thread p.lane)) ∧ t.mem = s.mem ∧ t.stores = s.stores ∧
      (nobodyParked s p.lane.wg → threadOnly s t p.lane (afterLanding p data pub (s.thread p.lane)))) ∧
  ∀ (s : State) (p : PendingLoad),
    s.halt = none → Inv s → s.loads.find? (fun q => q.id == p.id) = some p → p.served = none →
    p.place.loft = false → (p.place.cls = .priv ∨ p.place.cls = .uncached) → 0 < p.len →
    gate s p.place.addr = .ok → s.older p.touch p.id = [] → s.badSectors p.place.addr p.len = [] →
    s.prot p.lane.wg = false → (s.thread p.lane).life ≠ .absent →
    ∃ t, exec (.loadLands p.id) s = .next t ∧ t.loads = s.loads.filter (fun q => q.id != p.id) ∧
      gotIt (t.thread p.lane) (afterLanding p (Memory.readN s.mem p.place.addr p.len) (s.pubOf p.place.addr p.len)
        (s.thread p.lane)) ∧ t.mem = s.mem ∧ t.stores = s.stores ∧
      (nobodyParked s p.lane.wg → threadOnly s t p.lane (afterLanding p (Memory.readN s.mem p.place.addr p.len)
        (s.pubOf p.place.addr p.len) (s.thread p.lane)))


/-- STORE_PERFORMED in global memory (R182, R186, R301, R342) and in the loft (R198). -/
def Obligations.StoresPerformed : Prop :=
  (∀ (s : State) (q : PendingStore),
    s.halt = none → Inv s → s.stores.find? (fun r => r.id == q.id) = some q → q.place.loft = false →
    gate s q.place.addr = .ok → paExists q.place.addr = true → q.data ≠ [] →
    (∀ a, q.place.addr / 32 ≤ a → a ≤ (q.place.addr + q.data.length - 1) / 32 → s.sectorBad a = false) →
    s.older q.touch q.id = [] → (∀ k, s.launch? q.launch = some k → k.ctx.dbm = 0) →
    leafFit s q.place →
    ∃ t, exec (.storePerformed q.id) s = .next t ∧ t.stores = s.stores.filter (fun r => r.id != q.id) ∧
      holdsBytes t.mem q.place.addr q.data ∧ sameOutside (dirtied s q.place) t.mem q.place.addr q.data.length ∧
      (∀ k, k < q.data.length → Map.get 0 t.pub ((q.place.addr + k) / 4) = s.time) ∧
      t.wgs = s.wgs ∧ t.loads = s.loads ∧ ∃ r ∈ t.tracks, r.id = q.id ∧ r.lane = some q.lane) ∧
  ∀ (s : State) (q : PendingStore) (w : Workgroup),
    s.halt = none → Inv s → s.stores.find? (fun r => r.id == q.id) = some q → q.place.loft = true →
    s.older q.touch q.id = [] → s.wg? q.lane.wg = some w →
    ∃ t v, exec (.storePerformed q.id) s = .next t ∧ t.stores = s.stores.filter (fun r => r.id != q.id) ∧
      t.wg? q.lane.wg = some v ∧ v.rigs = w.rigs ∧ (∀ n, n ≠ q.lane.wg → t.wg? n = s.wg? n) ∧ t.mem = s.mem ∧
      sameOutside w.loft v.loft q.place.addr q.data.length ∧
      ∀ k, k < q.data.length → Memory.read v.loft (q.place.addr + k) =
        if w.live.contains ((q.place.addr + k) / 16) then Memory.read w.loft (q.place.addr + k) else q.data.getD k 0#8

namespace Sys2Proof.Spec

/-! Exceptions (R165 to R169). -/

/-- The trap frame of R167, field by field: HEADER, CAUSE, SLOT, FLAGS, IMM, FADDR, WORD, the temporaries,
the predicates, and zero. -/
def frameBytes (pc : Dword) (cause slot : Nat) (imm : Word) (faddr : Nat) (word : Dword) (t : Thread) : List Byte :=
  leBytes 8 pc.toNat ++ [BitVec.ofNat 8 cause, BitVec.ofNat 8 slot, 0#8, 0#8] ++ leBytes 4 imm.toNat ++
    leBytes 8 faddr ++ leBytes 8 word.toNat ++
    ((List.range 8).flatMap fun k => leBytes 4 (Map.get 0#32 t.temps k).toNat) ++
    leBytes 4 t.preds.toNat ++ List.replicate 60 0#8

/-- The word in the slot that issues. -/
def slotWord (g : Group) : Dword :=
  match g.words.getD g.slot .filler with
  | .word w => w
  | _ => 0#64

/-- The lane has left the group at the port; the others stay. -/
def leftStride (t : State) (g : Group) (l : LaneRef) : Prop :=
  ∃ g', t.group? = some g' ∧ g'.lanes = g.lanes.filter (fun m => m != l) ∧ g'.pc = g.pc ∧ g'.slot = g.slot

/-- The lane's launch has a handler at a stride of the code section, the thread is not in it, and the frame's
place can be written from state `s0`: `s1` is the state after its translation. -/
def handled (s s0 : State) (l : LaneRef) (s1 : State) (h : Nat) (p : Place) : Prop :=
  (∃ k, s.launchOf? l.wg = some k ∧ k.rcd.handler = h) ∧ 0 < h ∧ h < 2 ^ 64 ∧ s.validTarget h = true ∧
    (s.thread l).inHandler = false ∧
    ∃ q, s0.coreAccess l .write (s.tframe l) = (s1, .ok p q) ∧ s1.halt = none

/-- The same as the slot begins. -/
def mayTrap (s : State) (l : LaneRef) (s1 : State) (h : Nat) (p : Place) : Prop :=
  handled s { s with fresh := s.fresh + 1 } l s1 h p

/-- A trap has been taken by a lane (R166): its frame is on its way to %tframe, it is in its handler at
HANDLER, its stochastic register is saved beside the frame (R106, log entry 93), and it has left the stride. -/
def entered (s t : State) (g : Group) (l : LaneRef) (s1 : State) (h : Nat) (p : Place) (frame : List Byte) : Prop :=
  (∃ q, t.stores = s.stores ++ [q] ∧ q.lane = l ∧ q.place = p ∧ q.va = s.tframe l ∧ q.data = frame) ∧
  threadOnly s t l { s.thread l with
    inHandler := true, pc := BitVec.ofNat 64 h, slot := none, age := s.cycle, trapLfsr := (s.thread l).lfsr } ∧
  leftStride t g l ∧ t.mem = s1.mem ∧ t.loads = s.loads

end Sys2Proof.Spec


/-- TRAP and BRK (R106, R166, R167, R169). That the stochastic register is saved beside the frame is log entry 93. -/
def Obligations.SoftwareTraps : Prop :=
  (∀ (i : Instr) (gd : Guard) (imm : Word) (cause : Nat) (s : State) (g : Group) (l : LaneRef) (s1 : State)
    (h : Nat) (p : Place),
    (i = .trap gd imm ∧ cause = 16) ∨ (i = .brk gd imm ∧ cause = 17) →
    One s g i gd l → mayTrap s l s1 h p →
    ∃ t, exec i s = .next t ∧
      entered s t g l s1 h p (frameBytes g.pc cause (g.slot + 1) imm 0 (slotWord g) (s.thread l))) ∧
  ∀ (gd : Guard) (imm : Word) (s : State) (g : Group), Ready s g (.brk gd imm) →
    (∀ l ∈ g.lanes, ∀ k, s.launchOf? l.wg = some k → k.rcd.handler = 0) →
    (∀ l ∈ g.lanes, s.prot l.wg = false) →
    exec (.brk gd imm) s = .next { s with fresh := s.fresh + 1 }

namespace Sys2Proof.Spec

/-- The check of R180 that an access of one lane fails, with the cause of its trap (R165), in the order of the checks:
`s1` is the state after the check. -/
def fails (s : State) (m : MemOp) (l : LaneRef) (cause : Nat) (s1 : State) : Prop :=
  let a := address s m l
  let n := lengthOf m
  if a % n ≠ 0 then cause = 5 ∧ s1 = atSlot s m l
  else match m.sp with
    | .loft => s1 = atSlot s m l ∧ ∃ w, s.wg? l.wg = some w ∧
        ((cause = 6 ∧ (s.limits l.wg).2.2 < a + n) ∨
          (cause = 8 ∧ a + n ≤ (s.limits l.wg).2.2 ∧ m.kind ≠ .read ∧
            ∃ k ∈ w.live, 16 * k < a + n ∧ a < 16 * k + 16))
    | .global => (cause = 7 ∧ (atSlot s m l).coreAccess l m.kind a = (s1, .deny)) ∨
        (cause = 10 ∧ (atSlot s m l).coreAccess l m.kind a = (s1, .high))

/-- The place of the next record of a notification queue (R312). -/
def recordSlot (q : Nq) : Nat := q.base + 32 * (q.head % 2 ^ q.size)

/-- A notification queue takes a record at once (R312, R338): nothing is held back, it has room, and its place is on no die
that trains and holds no failed check. -/
def hasRoom (s : State) (q : Nq) : Prop :=
  q.held = [] ∧ (q.head + 2 ^ 32 - q.tail) % 2 ^ 32 ≠ 2 ^ q.size ∧ gate s (recordSlot q) ≠ .held ∧
    s.sectorBad (recordSlot q / 32) = false

/-- A fault record of the page needs no memory: its entry is migratable, the page has been reported for the context
already, or the function's queue is full and the record is held, with none of the physical function's held (R305, R309,
R312). -/
def recordHeld (s : State) (k : Launch) (entry va : Nat) : Prop :=
  bit entry 54 = true ∨ (∃ r ∈ s.reported, r.1.tag = k.ctx.tag ∧ r.2 = va / 4096) ∨
    s.pf.nq.held = [] ∧ ((s.nq k.vf).head + 2 ^ 32 - (s.nq k.vf).tail) % 2 ^ 32 = 2 ^ (s.nq k.vf).size

end Sys2Proof.Spec


/-- Check 6 of R70, illegal operand; the traps of R180; a page fault (R181, R305, R306). -/
def Obligations.IllegalOperandTraps : Prop :=
  (∀ (i : Instr) (s : State) (g : Group) (l : LaneRef) (s1 : State) (h : Nat) (p : Place),
    (encode i).isSome = true → s.halt = none → Inv s → s.group? = some g → g.lanes = [l] →
    s.prot l.wg = false → (s.thread l).alive = true → s.legalFor l i = false → mayTrap s l s1 h p →
    ∃ t, exec i s = .next t ∧
      entered s t g l s1 h p (frameBytes g.pc 2 g.slot 0#32 0 (slotWord g) (s.thread l)) ∧
      t.cmds = s.cmds) ∧
  (∀ (i : Instr) (m : MemOp) (s : State) (g : Group) (l : LaneRef) (cause : Nat) (s1 s2 : State) (h : Nat) (p : Place),
    memOp i = some m → m.param = false → i.wf = true → One s g i (guardOf i) l → passes s m l →
    fails s m l cause s1 → s1.halt = none → handled s s1 l s2 h p →
    ∃ t, exec i s = .next t ∧
      entered s1 t g l s2 h p
        (frameBytes g.pc cause g.slot 0#32 (address s m l) (slotWord g) (threadOf s m l))) ∧
  ∀ (i : Instr) (m : MemOp) (s : State) (g : Group) (l : LaneRef) (s1 : State) (entry pa : Nat) (w : Workgroup)
    (k : Launch),
    memOp i = some m → m.param = false → m.sp = .global → i.wf = true → One s g i (guardOf i) l → passes s m l →
    address s m l % lengthOf m = 0 →
    (atSlot s m l).coreAccess l m.kind (address s m l) = (s1, .fault entry pa) → s1.halt = none →
    s.wg? l.wg = some w → w.phase = .running → w.replay.length < 1024 → s.launch? w.launch = some k →
    recordHeld s1 k entry (address s m l) →
    ∃ t v g', exec i s = .next t ∧ t.wg? l.wg = some v ∧ v.phase = .swapPending ∧
      v.replay = w.replay ++ [{
        kind := .instr, rig := l.rig, lane := l.lane, word := slotWord g, addr := address s m l
        data := if m.kind = .read then [] else leBytes (lengthOf m) (carried s m l m.d)
        perm := w.pkperm, pc := g.pc, slot := g.slot, issue := slotNo s g, stack := none }] ∧
      address s m l ∈ v.faults ∧ pa / 128 ∈ v.watches ∧
      t.thread l = tokenUp m.tok (threadOf s m l) ∧ (∀ n, n ≠ l → t.thread n = (atSlot s m l).thread n) ∧
      t.group? = some g' ∧ l ∈ g'.served ∧ g'.lanes = g.lanes ∧
      t.loads = s.loads ∧ t.stores = s.stores ∧ t.mem = s1.mem ∧
      (bit entry 54 = true → ∃ id, t.migReqs = s1.migReqs ++
        [⟨id, pa, bits entry 12 40 * 4096, w.launch, w.wgid, address s m l, s.time, false⟩])

/-- A trap without a handler (R166). -/
def Obligations.UnhandledTrapEnds : Prop :=
  ∀ (gd : Guard) (imm : Word) (s : State) (g : Group) (l : LaneRef) (k : Launch) (s1 : State) (p : Place) (q : Nat),
    One s g (.trap gd imm) gd l → s.launchOf? l.wg = some k → k.rcd.handler = 0 → k.status = .done →
    ({ s with fresh := s.fresh + 1 }).coreAccess l .write (s.tframe l) = (s1, .ok p q) → s1.halt = none →
    ∃ t k', exec (.trap gd imm) s = .next t ∧ t.launchOf? l.wg = some k' ∧ k'.status = .unhandledTrap ∧
      k'.cause = 16 ∧ k'.faddr = 0 ∧ k'.noPlace = true ∧ k'.hard = true

namespace Sys2Proof.Spec

/-- The fields of a trap frame in memory (R167). -/
def savedPc (f : List Byte) : Nat := leNat (f.take 8)
def savedSlot (f : List Byte) : Nat := (f.getD 9 0#8).toNat
def savedTemp (f : List Byte) (k : Nat) : Word := BitVec.ofNat 32 (leNat ((f.drop (32 + 4 * k)).take 4))

end Sys2Proof.Spec



/-- TRET (R50, R106, R168): to a header, into a stride, behind it, and outside a handler. That the stochastic register
comes back from beside the frame is log entry 93. -/
def Obligations.TrapReturns : Prop :=
  (∀ (gd : Guard) (s : State) (g : Group) (l : LaneRef) (s1 : State) (p : Place) (q : Nat),
    One s g (.tret gd) gd l → (s.thread l).inHandler = true → quiet s l →
    ({ s with fresh := s.fresh + 1 }).coreAccess l .read (s.tframe l) = (s1, .ok p q) → s1.halt = none →
    s1.badSectors p.addr 128 = [] →
    savedSlot (Memory.readN s1.mem p.addr 128) = 0xFF →
    s.validTarget (savedPc (Memory.readN s1.mem p.addr 128)) = true →
    ∃ t, exec (.tret gd) s = .next t ∧ t.mem = s1.mem ∧ t.loads = s.loads ∧ t.stores = s.stores ∧
      threadOnly s t l { s.thread l with
        inHandler := false, pc := BitVec.ofNat 64 (savedPc (Memory.readN s1.mem p.addr 128)), slot := none
        age := s.cycle, lfsr := (s.thread l).trapLfsr } ∧
      leftStride t g l) ∧
  (∀ (gd : Guard) (s : State) (g : Group) (l : LaneRef) (s1 s2 : State) (p : Place) (q : Nat) (k : KSlot)
    (header : Nat) (b : List Nat),
    One s g (.tret gd) gd l → (s.thread l).inHandler = true → quiet s l →
    ({ s with fresh := s.fresh + 1 }).coreAccess l .read (s.tframe l) = (s1, .ok p q) → s1.halt = none →
    s1.badSectors p.addr 128 = [] →
    s.validTarget (savedPc (Memory.readN s1.mem p.addr 128)) = true → s.kslot? s.focus.1 g.kslot = some k →
    (s1.setThread l fun t => { t with inHandler := false, lfsr := t.trapLfsr }).fetchWord l k
      (savedPc (Memory.readN s1.mem p.addr 128)) = (s2, .ok header b) → s2.halt = none →
    savedSlot (Memory.readN s1.mem p.addr 128) <
      (if bit header 51 then 4 else 1) * (bits header 52 4 + 1) →
    ∃ t, exec (.tret gd) s = .next t ∧ t.mem = s2.mem ∧ leftStride t g l ∧
      (t.thread l).inHandler = false ∧
      (t.thread l).pc = BitVec.ofNat 64 (savedPc (Memory.readN s1.mem p.addr 128)) ∧
      (t.thread l).slot = some (savedSlot (Memory.readN s1.mem p.addr 128)) ∧
      (∀ j, j < 8 → Map.get 0#32 (t.thread l).temps j = savedTemp (Memory.readN s1.mem p.addr 128) j) ∧
      (t.thread l).regs = (s.thread l).regs ∧ (t.thread l).lfsr = (s.thread l).trapLfsr ∧
      ∀ m, m ≠ l → t.thread m = s.thread m) ∧
  (∀ (gd : Guard) (s : State) (g : Group) (l : LaneRef) (s1 s2 : State) (p : Place) (q : Nat) (k : KSlot)
    (header : Nat) (b : List Nat) (f : List Byte),
    One s g (.tret gd) gd l → (s.thread l).inHandler = true → quiet s l →
    ({ s with fresh := s.fresh + 1 }).coreAccess l .read (s.tframe l) = (s1, .ok p q) → s1.halt = none →
    s1.badSectors p.addr 128 = [] → f = Memory.readN s1.mem p.addr 128 → savedSlot f ≠ 0xFF →
    s.validTarget (savedPc f) = true → s.kslot? s.focus.1 g.kslot = some k →
    (s1.setThread l fun t => { t with inHandler := false, lfsr := t.trapLfsr }).fetchWord l k (savedPc f) = (s2, .ok header b) →
    s2.halt = none → (if bit header 51 then 4 else 1) * (bits header 52 4 + 1) ≤ savedSlot f →
    s.validTarget (savedPc f + 8 * (bits header 52 4 + 2)) = true →
    ∃ t, exec (.tret gd) s = .next t ∧ t.mem = s2.mem ∧ leftStride t g l ∧
      t.thread l = { s.thread l with
        inHandler := false, pc := BitVec.ofNat 64 (savedPc f + 8 * (bits header 52 4 + 2)), slot := none
        age := s.cycle, lfsr := (s.thread l).trapLfsr } ∧
      ∀ m, m ≠ l → t.thread m = s.thread m) ∧
  ∀ (gd : Guard) (s : State) (g : Group) (l : LaneRef) (s1 : State) (h : Nat) (p : Place),
    One s g (.tret gd) gd l → mayTrap s l s1 h p →
    ∃ t, exec (.tret gd) s = .next t ∧
      entered s t g l s1 h p (frameBytes g.pc 1 g.slot 0#32 0 (slotWord g) (s.thread l))

/-- CALLX (R156, R158). -/
def Obligations.CallThroughRegister : Prop :=
  ∀ (gd : Guard) (a : Opnd) (k : Word) (s : State) (g : Group) (l : LaneRef),
    One s g (.callx gd a k) gd l → (s.thread l).refill = false → (s.thread l).stack.length < 4 →
    s.validTarget (reads64 s a l + offset k).toNat = true →
    ∃ t, exec (.callx gd a k) s = .next t ∧
      threadOnly s t l (arrive s (reads64 s a l + offset k)
        { s.thread l with stack := fallPc s :: (s.thread l).stack }) ∧
      leftStride t g l ∧ t.mem = s.mem ∧ t.loads = s.loads ∧ t.stores = s.stores


/-- A spill, a wait for a refill (R160) and a refill (R161). -/
def Obligations.StackSpillsAndRefills : Prop :=
  (∀ (i : Instr) (gd : Guard) (r1 : Opnd) (k : Word) (dest : Dword) (s : State) (g : Group) (l : LaneRef) (n : Launch)
    (s1 : State) (p : Place) (q : Nat) (a b c d : Dword),
    (i = .call gd k ∧ dest = headerPc s + offset k) ∨ (i = .callx gd r1 k ∧ dest = reads64 s r1 l + offset k) →
    One s g i gd l → (s.thread l).refill = false → (s.thread l).stack = [a, b, c, d] →
    s.launchOf? l.wg = some n → (s.thread l).spilled < n.rcd.spilld →
    ((s.cspill l + 8 * (s.thread l).spilled) % 2 ^ 64) % 8 = 0 →
    s.validTarget dest.toNat = true →
    ({ s with fresh := s.fresh + 1 }).coreAccess l .write ((s.cspill l + 8 * (s.thread l).spilled) % 2 ^ 64) =
      (s1, .ok p q) → s1.halt = none →
    ∃ t r, exec i s = .next t ∧ t.stores = s.stores ++ [r] ∧ r.lane = l ∧ r.place = p ∧
      r.data = leBytes 8 d.toNat ∧
      threadOnly s t l (arrive s dest
        { s.thread l with stack := [fallPc s, a, b, c], spilled := (s.thread l).spilled + 1 }) ∧
      leftStride t g l) ∧
  (∀ (i : Instr) (gd : Guard) (a : Opnd) (k : Word) (s : State) (g : Group),
    i = .call gd k ∨ i = .callx gd a k ∨ i = .ret gd → Ready s g i →
    (∃ l, runs s g gd l = true ∧ (s.thread l).refill = true) →
    exec i s = .next ({ s with fresh := s.fresh + 1 }.setBay s.focus.1 s.focus.2 fun y =>
      { y with port := some { g with stalled := true } })) ∧
  ∀ (gd : Guard) (s : State) (g : Group) (l : LaneRef) (s1 : State) (p : Place) (q : Nat) (a : Dword)
    (r : List Dword),
    One s g (.ret gd) gd l → (s.thread l).refill = false → (s.thread l).stack = a :: r →
    0 < (s.thread l).spilled → ((s.cspill l + 8 * ((s.thread l).spilled - 1)) % 2 ^ 64) % 8 = 0 →
    s.validTarget a.toNat = true →
    ({ s with fresh := s.fresh + 1 }).coreAccess l .read ((s.cspill l + 8 * ((s.thread l).spilled - 1)) % 2 ^ 64) =
      (s1, .ok p q) → s1.halt = none →
    ∃ t v, exec (.ret gd) s = .next t ∧ t.loads = s.loads ++ [v] ∧ v.lane = l ∧ v.kind = .refill ∧ v.tok = none ∧
      v.len = 8 ∧ v.place = p ∧ v.served = none ∧
      threadOnly s t l (arrive s a
        { s.thread l with stack := r, spilled := (s.thread l).spilled - 1, refill := true }) ∧
      leftStride t g l

namespace Sys2Proof.Spec

/-! Barriers (R196 to R202): the 128 bits of a slot, field by field. -/

structure Slot where
  expected : Nat
  arrivals : Nat
  phase : Bool
  armed : Bool
  early : Bool
  excess : Nat
  gen : Nat
  magic : Nat
  deriving DecidableEq, Repr

/-- The fields of a slot (R196). -/
def slotAt (m : Memory) (a : Nat) : Slot :=
  let v := leNat (Memory.readN m a 16)
  { expected := bits v 0 32, arrivals := bits v 32 16, phase := bit v 48, armed := bit v 49, early := bit v 50
    excess := bits v 64 32, gen := bits v 96 16, magic := bits v 112 16 }

/-- A slot completes when it is armed and nothing is expected any more: the phase turns (R200). -/
def Slot.settle (x : Slot) : Slot :=
  if x.armed && x.expected == 0 && x.arrivals == 0 then { x with phase := !x.phase, armed := false } else x

/-- A barrier instruction of one lane works on the slot of its workgroup at the address in A: the checks of
R199 pass, and no access of the thread is on its way. -/
structure AtBarrier (s : State) (g : Group) (i : Instr) (gd : Guard) (l : LaneRef) (w : Workgroup) (a : Nat) :
    Prop extends One s g i gd l where
  quiet : quiet s l
  wg : s.wg? l.wg = some w
  align : a % 16 = 0
  range : a + 16 ≤ (s.limits l.wg).2.2

/-- A thread that finds a live slot's phase: it has the flips so far behind it, with what their arrivals have
brought along (R211, R219). -/
def observes (w : Workgroup) (a : Nat) (t : Thread) : Thread :=
  if w.isLive a then { t with readfloor := max t.readfloor (Map.get (0, 0) w.slotPub (a / 16)).2 } else t

/-- Only the slot at `a`, and what the model notes of live slots, changes in the workgroup of a lane; where threads are
parked on what changes they are to wake (R34, R200). `ops` are the operands of the instruction. -/
def slotOnly (s t : State) (l : LaneRef) (w v : Workgroup) (a : Nat) (ops : List Opnd) : Prop :=
  t.wg? l.wg = some v ∧ (∀ m, gotIt (t.thread m) (s.thread m)) ∧ sameOutside w.loft v.loft a 16 ∧
    (∀ n, n ≠ l.wg → t.wg? n = s.wg? n) ∧ t.mem = s.mem ∧ t.loads = s.loads ∧ t.stores = s.stores ∧
    (ops.any Opnd.isAcc = false → nobodyParked s l.wg → v.rigs = w.rigs)

/-- The numbers after the BINIT counter of a core (R200). -/
def nthGen (s : State) (w : Workgroup) (k : Nat) : Nat := ((s.core w.core).binit.toNat + k) % 65536

/-- An accepted command of the core holds the tag of a generation for a slot's address (R200). -/
def tagHeld (s : State) (w : Workgroup) (a gen : Nat) : Prop :=
  ∃ c ∈ s.cmds, c.core = w.core ∧ c.bar = some (a, 65536 * 0x5B2C + gen)

end Sys2Proof.Spec

/-- BINIT (R200). -/
def Obligations.BarrierInit : Prop :=
  ∀ (gd : Guard) (a : Opnd) (s : State) (g : Group) (l : LaneRef) (w : Workgroup),
    AtBarrier s g (.binit gd a) gd l w (reads s a l).toNat → w.isLive (reads s a l).toNat = false →
    s.cmds.length < 65536 → w.core < s.cores.length →
    ∃ t v k gen, exec (.binit gd a) s = .next t ∧ slotOnly s t l w v (reads s a l).toNat [a] ∧
      slotAt v.loft (reads s a l).toNat = ⟨0, 0, false, false, false, 0, gen, 0x5B2C⟩ ∧
      v.live = w.live ++ [(reads s a l).toNat / 16] ∧ 1 ≤ k ∧ gen = nthGen s w k ∧
      (t.core w.core).binit.toNat = gen ∧ ¬ tagHeld s w (reads s a l).toNat gen ∧
      ∀ j, 1 ≤ j → j < k → tagHeld s w (reads s a l).toNat (nthGen s w j)


/-- BEXP and BARV (R200, R202), of a protected pair too (R350). -/
def Obligations.BarrierArming : Prop :=
  (∀ (gd : Guard) (a b c : Opnd) (s : State) (g : Group) (l : LaneRef) (w : Workgroup) (x : Slot),
    AtBarrier s g (.bexp gd a b c) gd l w (reads s a l).toNat → w.isLive (reads s a l).toNat = true →
    slotAt w.loft (reads s a l).toNat = x → x.armed = false → (reads s c l).toNat ≤ 0xFFFF →
    ∃ t v, exec (.bexp gd a b c) s = .next t ∧ slotOnly s t l w v (reads s a l).toNat [a, b, c] ∧ v.live = w.live ∧
      slotAt v.loft (reads s a l).toNat = Slot.settle { x with
        expected := (reads s b l).toNat - min x.excess (reads s b l).toNat
        arrivals := (reads s c l).toNat, armed := true
        early := decide (x.excess - min x.excess (reads s b l).toNat ≠ 0)
        excess := x.excess - min x.excess (reads s b l).toNat }) ∧
  (∀ (gd : Guard) (a : Opnd) (s : State) (g : Group) (l : LaneRef) (w : Workgroup) (x : Slot),
    AtBarrier s g (.barv gd a) gd l w (reads s a l).toNat → w.isLive (reads s a l).toNat = true →
    slotAt w.loft (reads s a l).toNat = x → x.armed = true → 0 < x.arrivals → g.served = [] →
    (∀ m ∈ g.lanes, gd.holds (s.thread m) = true → s.released m .wg = true) →
    ∃ t v, exec (.barv gd a) s = .next t ∧ slotOnly s t l w v (reads s a l).toNat [a] ∧ v.live = w.live ∧
      slotAt v.loft (reads s a l).toNat = Slot.settle { x with arrivals := x.arrivals - 1 }) ∧
  ∀ (gd : Guard) (a : Opnd) (s : State) (g : Group) (l : LaneRef) (w : Workgroup) (x : Slot),
    Pair s g (.barv gd a) gd l → reads s a (mate l) = reads s a l → quiet s l → s.wg? l.wg = some w →
    (reads s a l).toNat % 16 = 0 → (reads s a l).toNat + 16 ≤ (s.limits l.wg).2.2 →
    w.isLive (reads s a l).toNat = true → slotAt w.loft (reads s a l).toNat = x → x.armed = true → 0 < x.arrivals →
    g.served = [] → (∀ m ∈ g.lanes, gd.holds (s.thread m) = true → s.released m .wg = true) →
    ∃ t v, exec (.barv gd a) s = .next t ∧ slotOnly s t l w v (reads s a l).toNat [a] ∧ v.live = w.live ∧
      slotAt v.loft (reads s a l).toNat = Slot.settle { x with arrivals := x.arrivals - 1 }

/-- BTEST and BFREE (R200, R201). -/
def Obligations.BarrierTestAndFree : Prop :=
  (∀ (gd : Guard) (d a : Opnd) (s : State) (g : Group) (l : LaneRef) (w : Workgroup),
    AtBarrier s g (.btest gd d a) gd l w (reads s a l).toNat →
    exec (.btest gd d a) s = .next
      { each (reading (reading s [l] [a]) [l] [d]) (fun m => m == l) (fun m th =>
          observes w (reads s a l).toNat ((view s m).put th d
            (if w.isLive (reads s a l).toNat then
              (if (slotAt w.loft (reads s a l).toNat).phase then 1#32 else 0#32) else 2#32))) with
        fresh := s.fresh + 1 }) ∧
  ∀ (gd : Guard) (a : Opnd) (s : State) (g : Group) (l : LaneRef) (w : Workgroup),
    AtBarrier s g (.bfree gd a) gd l w (reads s a l).toNat → w.isLive (reads s a l).toNat = true →
    (slotAt w.loft (reads s a l).toNat).excess = 0 →
    ∃ t v, exec (.bfree gd a) s = .next t ∧ slotOnly s t l w v (reads s a l).toNat [a] ∧
      v.live = w.live.filter (fun k => k != (reads s a l).toNat / 16) ∧
      slotAt v.loft (reads s a l).toNat = ⟨0, 0, false, false, false, 0, 0, 0⟩

namespace Sys2Proof.Spec

/-! Posts (R227 to R238). Headers and records are read as their 64-bit fields. -/

def field (v i : Nat) : Nat := v / 2 ^ (64 * i) % 2 ^ 64

/-- The record of a thread (R229): 64 bytes per thread from BOARD. -/
def recordAddr (s : State) (l : LaneRef) (n : Launch) (w : Workgroup) : Nat :=
  (n.rcd.board + 64 * (w.wgid * n.rcd.tpw + specialValue s l .tid)) % 2 ^ 64

/-- One lane of an A-family instruction at a clock: its launch has a board, its thread has no access on its
way, and `work` is what the lane has read in earlier clocks. -/
structure AtPost (s : State) (g : Group) (i : Instr) (gd : Guard) (l : LaneRef) (n : Launch) (w : Workgroup)
    (work : List Nat) : Prop extends One s g i gd l where
  quiet : quiet s l
  launch : s.launchOf? l.wg = some n
  wg : s.wg? l.wg = some w
  board : n.rcd.board ≠ 0
  work : g.work = work

/-- An access of a post reaches a place whose memory is sound, behind no dead link. -/
def postReaches (s : State) (l : LaneRef) (k : AccKind) (va len : Nat) (s1 : State) (p : Place) : Prop :=
  (∃ q, ({ s with fresh := s.fresh + 1 }).coreAccess l k va = (s1, .ok p q)) ∧ s1.halt = none ∧
    s1.deadLink p.addr = false ∧ s1.badSectors p.addr len = []

/-- The thread of a lane after a read of a post, which is an acquire (R189, R233). -/
def acquired (s1 : State) (p : Place) (len : Nat) (t : Thread) : Thread :=
  { t with readfloor := max t.readfloor (s1.pubOf p.addr len), seenPub := max t.seenPub (s1.pubOf p.addr len) }

/-- The lane's instruction goes on at the next clock, with what it has read. -/
def goesOn (t : State) (work : List Nat) : Prop :=
  ∃ g, t.group? = some g ∧ g.more = true ∧ g.work = work

/-- The operation of R230 that APOST stores. -/
def operationCode : PostOp → Nat
  | .add => 0
  | .min => 1
  | .max => 2
  | .and => 3
  | .or => 4
  | .xor => 5
  | .exch => 6

/-- The 64-bit operand of APOST: b sign-extended for ADD, MIN and MAX, else zero-extended (R234). -/
def posted (s : State) (op : PostOp) (b : Opnd) (l : LaneRef) : Nat :=
  match op with
  | .add | .min | .max => ((reads s b l).signExtend 64).toNat
  | .and | .or | .xor | .exch => (reads s b l).toNat

/-- f(v, op, x) on 64-bit values (R233). -/
def postValue (v op x : Nat) : Nat :=
  if op = 0 then (v + x) % 2 ^ 64
  else if op = 1 then (if (BitVec.ofNat 64 x).slt (BitVec.ofNat 64 v) then x else v)
  else if op = 2 then (if (BitVec.ofNat 64 v).slt (BitVec.ofNat 64 x) then x else v)
  else if op = 3 then v &&& x
  else if op = 4 then v ||| x
  else if op = 5 then v ^^^ x
  else x

/-- The record `q` reads as the pending post `p`: STATE, the reserved bits and the sequence (R230, R233). -/
def recordOfPost (q p : Nat) : Prop := field q 3 % 4 = 1 ∧ field q 3 / 8 % 4 = 0 ∧ field q 3 / 256 % 64 = p % 64

/-- The clocks of one step (R233) of the pending post `P` = PEND of the header `h` in an instruction `i` on the object
in A: `pre` is what the instruction keeps through the step, and `last` what it keeps after it, according to whether the
step has installed.

* The record of P is read; it must name the object, else object misuse (10) is raised at it.
* Pending, and the tag is another: the header, if it is still h, becomes f(VALUE), VALUE, P, P (an operation that has a
  meaning; 0b111 is log entry 107).
* Pending, and the tag is P: the record, if it is still q, gets RESULT = PREV and STATE DONE.
* Done or reused, and the tag is P: PEND, if it is still P, becomes 0, and the object's next link is reserved for 1 µs
  for the oldest id in the queue.
* Done or reused, and another tag: nothing is updated.

A compare that fails writes nothing. -/
def StepClocks (i : Instr) (gd : Guard) (a : Opnd) (pre : List Nat) (last : Bool → Nat → Nat) : Prop :=
  (∀ (s : State) (g : Group) (l : LaneRef) (n : Launch) (w : Workgroup) (s1 : State) (p : Place) (h q rec : Nat),
    AtPost s g i gd l n w (2 :: (pre ++ [h])) → (reads64 s a l).toNat % 32 = 0 → rec = field h 3 / 64 * 64 →
    postReaches s l .read rec 32 s1 p → q = leNat (Memory.readN s1.mem p.addr 32) →
    (field q 0 = (reads64 s a l).toNat →
      ∃ t, exec i s = .next t ∧ goesOn t (3 :: (pre ++ [h, q])) ∧ t.mem = s1.mem ∧ t.stores = s.stores ∧
        threadOnly s t l (acquired s1 p 32 (s.thread l))) ∧
    ∀ (s2 : State) (hd : Nat) (p' : Place), field q 0 ≠ (reads64 s a l).toNat →
      handled s ((s1.dropCopies w.core (p.addr / 128)).setThread l (acquired s1 p 32)) l s2 hd p' →
      ∃ t, exec i s = .next t ∧
        entered { s with wgs := ((s1.dropCopies w.core (p.addr / 128)).setThread l (acquired s1 p 32)).wgs } t g l s2 hd p'
          (frameBytes g.pc 10 g.slot 0#32 rec (slotWord g) (acquired s1 p 32 (s.thread l)))) ∧
  ∀ (s : State) (g : Group) (l : LaneRef) (n : Launch) (w : Workgroup) (h q : Nat),
    AtPost s g i gd l n w (3 :: (pre ++ [h, q])) → noBitmap s l → s.released l .sys = true →
    (reads64 s a l).toNat % 32 = 0 →
    (∀ (s1 : State) (p : Place), recordOfPost q (field h 3) → field h 2 ≠ field h 3 →
      postReaches s l .rmw (reads64 s a l).toNat 32 s1 p → leafFit s1 p →
      (leNat (Memory.readN s1.mem p.addr 32) = h → field q 3 / 32 % 8 ≠ 7 →
        ∃ t, exec i s = .next t ∧ goesOn t [4, last true h] ∧
          Memory.readN t.mem p.addr 32 =
            leBytes 8 (postValue (field h 0) (field q 3 / 32 % 8) (field q 1)) ++ leBytes 8 (field h 0) ++
              leBytes 8 (field h 3) ++ leBytes 8 (field h 3) ∧
          sameOutside (dirtied s1 p) t.mem p.addr 32 ∧ t.helped = s.helped ∧
          threadOnly s t l (acquired s1 p 32 (s.thread l))) ∧
      (leNat (Memory.readN s1.mem p.addr 32) ≠ h →
        ∃ t, exec i s = .next t ∧ goesOn t [4, last false h] ∧ t.mem = s1.mem ∧
          threadOnly s t l (acquired s1 p 32 (s.thread l)))) ∧
    (∀ (s1 : State) (p : Place), recordOfPost q (field h 3) → field h 2 = field h 3 →
      postReaches s l .rmw (field h 3 / 64 * 64) 32 s1 p → leafFit s1 p →
      (leNat (Memory.readN s1.mem p.addr 32) = q →
        ∃ t, exec i s = .next t ∧ goesOn t [4, last false h] ∧
          Memory.readN t.mem p.addr 32 =
            leBytes 8 (field q 0) ++ leBytes 8 (field q 1) ++ leBytes 8 (field h 1) ++ leBytes 8 (field q 3 + 2) ∧
          sameOutside (dirtied s1 p) t.mem p.addr 32 ∧ threadOnly s t l (acquired s1 p 32 (s.thread l))) ∧
      (leNat (Memory.readN s1.mem p.addr 32) ≠ q →
        ∃ t, exec i s = .next t ∧ goesOn t [4, last false h] ∧ t.mem = s1.mem ∧
          threadOnly s t l (acquired s1 p 32 (s.thread l)))) ∧
    (∀ (s1 : State) (p : Place), ¬ recordOfPost q (field h 3) → field h 2 = field h 3 →
      postReaches s l .rmw ((reads64 s a l).toNat + 24) 8 s1 p → leafFit s1 p →
      (leNat (Memory.readN s1.mem p.addr 8) = field h 3 →
        ∃ t, exec i s = .next t ∧ goesOn t [4, last false h] ∧ Memory.readN t.mem p.addr 8 = leBytes 8 0 ∧
          sameOutside (dirtied s1 p) t.mem p.addr 8 ∧ threadOnly s t l (acquired s1 p 8 (s.thread l)) ∧
          ∀ r rest, s.refusals = r :: rest → r.obj = p.addr - 24 → s.time ≤ r.time + 2000000 →
            (∀ v ∈ s.resvs, v.obj ≠ r.obj) → ∃ v ∈ t.resvs, v.obj = r.obj ∧ v.post = r.post ∧ v.stop = s.time + 2000) ∧
      (leNat (Memory.readN s1.mem p.addr 8) ≠ field h 3 →
        ∃ t, exec i s = .next t ∧ goesOn t [4, last false h] ∧ t.mem = s1.mem ∧
          threadOnly s t l (acquired s1 p 8 (s.thread l)))) ∧
    (¬ recordOfPost q (field h 3) → field h 2 ≠ field h 3 →
      ∃ t, exec i s = .next t ∧ goesOn t [4, last false h] ∧ t.mem = s.mem ∧ threadOnly s t l (s.thread l))

end Sys2Proof.Spec

/-- AINIT (R228, R234). -/
def Obligations.PostInit : Prop :=
  ∀ (gd : Guard) (a b : Opnd) (s : State) (g : Group) (l : LaneRef) (n : Launch) (w : Workgroup) (s1 : State)
    (p : Place),
    AtPost s g (.ainit gd a b) gd l n w [] → noBitmap s l → (reads64 s a l).toNat % 32 = 0 → p.addr % 32 = 0 →
    postReaches s l .rmw (reads64 s a l).toNat 32 s1 p → leafFit s1 p →
    field (leNat (Memory.readN s1.mem p.addr 32)) 3 = 0 →
    ∃ t, exec (.ainit gd a b) s = .next t ∧
      Memory.readN t.mem p.addr 32 = leBytes 8 (reads64 s b l).toNat ++ List.replicate 24 0#8 ∧
      sameOutside (dirtied s1 p) t.mem p.addr 32 ∧ Map.get false t.helped (p.addr / 32) = true ∧
      threadOnly s t l (acquired s1 p 32 (s.thread l))

/-- The clocks of APOST before its link (R230, R231, R233, R234). A step on an operation of 0b111 is log entry 107, one
on a header whose TAG a store has changed is log entry 109. -/
def Obligations.PostRecord : Prop :=
  (∀ (gd : Guard) (op : PostOp) (d a b : Opnd) (p : Nat),
    StepClocks (.apost gd op d a b) gd a [p] fun _ _ => p) ∧
  (∀ (gd : Guard) (op : PostOp) (d a b : Opnd) (s : State) (g : Group) (l : LaneRef) (n : Launch) (w : Workgroup)
    (s1 : State) (p : Place) (id pend : Nat),
    AtPost s g (.apost gd op d a b) gd l n w [1, id] → (reads64 s a l).toNat % 32 = 0 → d.isAcc = false →
    postReaches s l .read (reads64 s a l).toNat 32 s1 p → pend = field (leNat (Memory.readN s1.mem p.addr 32)) 3 →
    ∃ t, exec (.apost gd op d a b) s = .next t ∧ t.mem = s1.mem ∧ t.stores = s.stores ∧
      (pend = id → ∃ th, th = acquired s1 p 32 (s.thread l) ∧ threadOnly s t l ((view s l).put th d 1#32)) ∧
      (pend ≠ id → threadOnly s t l (acquired s1 p 32 (s.thread l))) ∧
      (pend ≠ id → pend = 0 → goesOn t [4, id]) ∧
      (pend ≠ id → pend ≠ 0 → goesOn t [2, id, leNat (Memory.readN s1.mem p.addr 32)])) ∧
  (∀ (gd : Guard) (op : PostOp) (d a b : Opnd) (s : State) (g : Group) (l : LaneRef) (n : Launch) (w : Workgroup)
    (s1 : State) (p : Place) (q x : Nat),
    AtPost s g (.apost gd op d a b) gd l n w [] → (reads64 s a l).toNat % 32 = 0 →
    postReaches s l .read (recordAddr s l n w) 32 s1 p → q = leNat (Memory.readN s1.mem p.addr 32) →
    field q 3 % 4 = 1 → x = posted s op b l → field q 0 = (reads64 s a l).toNat → field q 1 = x →
    field q 3 / 32 % 8 = operationCode op →
    ∃ t, exec (.apost gd op d a b) s = .next t ∧ t.mem = s1.mem ∧ t.stores = s.stores ∧
      goesOn t [1, recordAddr s l n w + field q 3 / 256 % 64] ∧
      threadOnly s t l (acquired s1 p 32 (s.thread l))) ∧
  ∀ (gd : Guard) (op : PostOp) (d a b : Opnd) (s : State) (g : Group) (l : LaneRef) (n : Launch) (w : Workgroup)
    (s1 s2 : State) (p p' : Place) (q seq : Nat),
    AtPost s g (.apost gd op d a b) gd l n w [] → (reads64 s a l).toNat % 32 = 0 →
    postReaches s l .read (recordAddr s l n w) 32 s1 p →
    bits (leNat (Memory.readN s1.mem p.addr 32)) 192 2 ≠ 1 →
    seq = (bits (leNat (Memory.readN s1.mem p.addr 32)) 200 56 + 1) % 2 ^ 56 →
    ((s1.dropCopies w.core (p.addr / 128)).setThread l (acquired s1 p 32)).coreAccess l .write (recordAddr s l n w) =
      (s2, .ok p' q) → s2.halt = none → s2.deadLink p'.addr = false →
    ∃ t r g', exec (.apost gd op d a b) s = .next t ∧ t.stores = s.stores ++ [r] ∧ r.lane = l ∧ r.place = p' ∧
      r.data = leBytes 8 (reads64 s a l).toNat ++
        leBytes 8 (posted s op b l) ++ leBytes 8 0 ++ [BitVec.ofNat 8 (1 + 32 * operationCode op)] ++ leBytes 7 seq ∧
      t.group? = some g' ∧ g'.more = true ∧ g'.work = [1, recordAddr s l n w + seq % 64] ∧
      threadOnly s t l (acquired s1 p 32 (s.thread l))

/-- The last clock of APOST (R234, R236). -/
def Obligations.PostLink : Prop :=
  ∀ (gd : Guard) (op : PostOp) (d a b : Opnd) (s : State) (g : Group) (l : LaneRef) (n : Launch) (w : Workgroup)
    (s1 : State) (p : Place) (id : Nat),
    AtPost s g (.apost gd op d a b) gd l n w [4, id] → noBitmap s l → id < 2 ^ 64 → s.released l .sys = true →
    (reads64 s a l).toNat % 32 = 0 → postReaches s l .rmw ((reads64 s a l).toNat + 24) 8 s1 p →
    leafFit s1 p → n.repl = false → d.isAcc = false →
    (leNat (Memory.readN s1.mem p.addr 8) = 0 → (s1.resvNow (p.addr - 24)).reservedFrom (p.addr - 24) id = false →
      ∃ t th, exec (.apost gd op d a b) s = .next t ∧ Memory.readN t.mem p.addr 8 = leBytes 8 id ∧
        sameOutside (dirtied s1 p) t.mem p.addr 8 ∧ th = acquired s1 p 8 (s.thread l) ∧
        threadOnly s t l ((view s l).put th d 1#32)) ∧
    ((leNat (Memory.readN s1.mem p.addr 8) ≠ 0 ∧ leNat (Memory.readN s1.mem p.addr 8) ≠ id) ∨
        (leNat (Memory.readN s1.mem p.addr 8) = 0 ∧ (s1.resvNow (p.addr - 24)).reservedFrom (p.addr - 24) id = true) →
      ∃ t th, exec (.apost gd op d a b) s = .next t ∧ t.mem = s1.mem ∧ th = acquired s1 p 8 (s.thread l) ∧
        threadOnly s t l ((view s l).put th d 4#32) ∧
        ((s1.refusals.filter fun r => r.slice == homeOf ((p.addr - 24) / 128)).length < 1024 →
          ∃ r ∈ t.refusals, r.slice = homeOf ((p.addr - 24) / 128) ∧ r.post = id))


/-- The clocks of ASTEP (R232, R233, R234), and ARES (R230, R234). A step on an operation of 0b111 is log entry 107, one
on a header whose TAG a store has changed is log entry 109. -/
def Obligations.PostStatusAndResult : Prop :=
  (∀ (gd : Guard) (d a : Opnd),
    StepClocks (.astep gd d a) gd a [] fun inst h => if inst then field h 3 else field h 2) ∧
  (∀ (gd : Guard) (d a : Opnd) (s : State) (g : Group) (l : LaneRef) (n : Launch) (w : Workgroup) (s1 : State)
    (p : Place) (h : Nat),
    AtPost s g (.astep gd d a) gd l n w [] → (reads64 s a l).toNat % 32 = 0 →
    postReaches s l .read (reads64 s a l).toNat 32 s1 p → h = leNat (Memory.readN s1.mem p.addr 32) →
    ∃ t, exec (.astep gd d a) s = .next t ∧ t.mem = s1.mem ∧ t.stores = s.stores ∧
      goesOn t (if field h 3 = 0 then [4, field h 2] else [2, h]) ∧
      threadOnly s t l (acquired s1 p 32 (s.thread l))) ∧
  (∀ (gd : Guard) (d a : Opnd) (s : State) (g : Group) (l : LaneRef) (n : Launch) (w : Workgroup) (s1 : State)
    (p : Place) (tag ctl : Nat),
    AtPost s g (.astep gd d a) gd l n w [4, tag] → (reads64 s a l).toNat % 32 = 0 → d.isAcc = false →
    postReaches s l .read (recordAddr s l n w + 24) 8 s1 p → ctl = leNat (Memory.readN s1.mem p.addr 8) →
    ∃ t th, exec (.astep gd d a) s = .next t ∧ t.mem = s1.mem ∧ t.stores = s.stores ∧
      th = acquired s1 p 8 (s.thread l) ∧
      threadOnly s t l ((view s l).put th d
        (if ctl % 4 = 3 then 3#32
         else if ctl % 4 = 0 ∧ ctl / 256 = 0 then 0#32
         else if ctl % 4 = 1 ∧ tag = recordAddr s l n w + ctl / 256 % 64 then 2#32 else 1#32))) ∧
  ∀ (gd : Guard) (d : Opnd) (s : State) (g : Group) (l : LaneRef) (n : Launch) (w : Workgroup) (s1 : State)
    (p : Place),
    AtPost s g (.ares gd d) gd l n w [] → postReaches s l .read (recordAddr s l n w) 32 s1 p →
    bits (leNat (Memory.readN s1.mem p.addr 32)) 192 2 = 3 →
    ∃ t th, exec (.ares gd d) s = .next t ∧ t.mem = s1.mem ∧ t.stores = s.stores ∧
      th = acquired s1 p 32 (s.thread l) ∧
      threadOnly s t l ((view s l).put64 th d
        (BitVec.ofNat 64 (field (leNat (Memory.readN s1.mem p.addr 32)) 2)))

namespace Sys2Proof.Spec

end Sys2Proof.Spec

/-- Integer arithmetic (R125 to R129). -/
def Obligations.IntegerArithmetic : Prop := Computes integer

/-- Shifts, logic, counts and bit fields (R130 to R133). -/
def Obligations.ShiftsAndBitFields : Prop := Computes bitwise

/-- Moves, selection and predicates (R134 to R138). -/
def Obligations.MovesAndPredicates : Prop := Computes moves

/-- FP32 arithmetic (R139 to R141). -/
def Obligations.FloatArithmetic : Prop := Computes float

/-- Packed arithmetic (R142, R143). -/
def Obligations.PackedArithmetic : Prop := Computes packed

namespace Sys2Proof.Spec

/-- The state in which the one lane of a CVTX reads its operands. -/
def atCvtx (s : State) (l : LaneRef) (d a b : Opnd) : State := { s with fresh := s.fresh + 1 }.taint [l] [d, a, b]

/-- The descriptor of an outlier's list passes the checks of R112 at a place: `s1` is the state after its translation,
in which the descriptor holds the number `v`. The permission that the access asks for is log entry 92. -/
structure ListAt (s : State) (l : LaneRef) (d a b : Opnd) (s1 : State) (p : Place) (v : Nat) : Prop where
  aligned : (reads64 s b l).toNat % 32 = 0
  access : ∃ q, (atCvtx s l d a b).coreAccess l .rmw (reads64 s b l).toNat = (s1, .ok p q)
  going : s1.halt = none
  quiet : quiet s l
  sound : s1.badSectors p.addr 32 = []
  fit : leafFit s1 p
  holds : v = leNat (Memory.readN s1.mem p.addr 32)
  zero : bits v 160 96 = 0
  base : bits v 0 64 % 8 = 0

/-- A copy in the L1 of the core of a lane goes as an atomic acts at the home of a line (R212). -/
def homed (s : State) (l : LaneRef) (p : Place) : State := s.dropCopies (coreOf s l) (p.addr / 128)

/-- A word of the list's descriptor is written at its home. -/
def wordWritten (s1 : State) (u : Memory) (p : Place) (ofs value : Nat) : Prop :=
  holdsBytes u (p.addr + ofs) (leBytes 4 value) ∧
    sameOutside (dirtied s1 { p with addr := p.addr + ofs }) u (p.addr + ofs) 4

end Sys2Proof.Spec

/-- Conversions (R144 to R147), with the outliers of CVTX (R110 to R112). That a clamping CVT between integer types sets OF
alone is log entry 23, the status of an outlier log entry 91. What rounding to an integer is, `RoundingIsCorrect` says. -/
def Obligations.Conversions : Prop :=
  Computes conversion ∧
  (∀ (gd : Guard) (dt : Ty) (m : Rnd) (d a b : Opnd) (s : State) (g : Group) (l : LaneRef) (s1 s2 s3 : State)
    (p p2 : Place) (q v : Nat),
    (Instr.cvtx gd dt m d a b).wf = true → One s g (.cvtx gd dt m d a b) gd l → noBitmap s l →
    outlier dt m (drawn m (s.thread l)).1 (reads s a l) = true → ListAt s l d a b s1 p v →
    bits v 96 32 < bits v 64 32 →
    s2 = (homed s1 l p).update l { p with addr := p.addr + 12 } ((reads64 s b l).toNat + 12)
      (leBytes 4 (bits v 96 32 + 1)) →
    s2.coreAccess l .write ((bits v 0 64 + 8 * bits v 96 32) % 2 ^ 64) = (s3, .ok p2 q) → s3.halt = none →
    wordWritten s1 s2.mem p 12 (bits v 96 32 + 1) ∧
    ∃ t r, exec (.cvtx gd dt m d a b) s = .next t ∧ t.mem = s3.mem ∧ t.stores = s.stores ++ [r] ∧ r.lane = l ∧
      r.place = p2 ∧ r.data = leBytes 4 (reads s d l).toNat ++ leBytes 4 (reads s a l).toNat ∧ t.loads = s.loads ∧
      threadOnly (atCvtx s l d a b) t l
        ((view s l).put (drawn m ((atCvtx s l d a b).thread l)).2 d 0#32)) ∧
  ∀ (gd : Guard) (dt : Ty) (m : Rnd) (f : Fmt) (d a b : Opnd) (s : State) (g : Group) (l : LaneRef) (s1 : State)
    (p : Place) (v : Nat),
    (Instr.cvtx gd dt m d a b).wf = true → dt.fmt? = some f → One s g (.cvtx gd dt m d a b) gd l → noBitmap s l →
    outlier dt m (drawn m (s.thread l)).1 (reads s a l) = true → ListAt s l d a b s1 p v →
    bits v 64 32 ≤ bits v 96 32 →
    ∃ t, exec (.cvtx gd dt m d a b) s = .next t ∧ wordWritten s1 t.mem p 16 ((bits v 128 32 + 1) % 2 ^ 32) ∧
      t.stores = s.stores ∧ t.loads = s.loads ∧
      threadOnly (atCvtx s l d a b) t l (putFlags (view s l) (drawn m ((atCvtx s l d a b).thread l)).2 d
        ((spread dt ((if (reads s a l).getLsbD 31 then 2 ^ f.sign else 0) + f.maxBits)).toNat, 36))

namespace Sys2Proof.Spec

/-- The functions of one FP32 word, each with its status bits (R148). -/
def functions : List (Nat → Nat × Nat) :=
  [exp2Word, log2Word, rcpWord, rsqWord, sqrtWord, sinWord, cosWord, tanhWord]

/-- A finite FP32 word that is not zero, its sign and its magnitude (R93). -/
def finiteWord (a : Nat) : Prop := a < 2 ^ 32 ∧ 0 < a % 2 ^ 31 ∧ a % 2 ^ 31 < 0x7F800000
def signWord (a : Nat) : ℚ := if a < 2 ^ 31 then 1 else -1

/-- FP32 pattern `m` is the one nearest the positive root of `v`: the root lies within the midpoints to its
neighbours (R119). No root of an FP32 value or of its reciprocal is a midpoint. -/
def nearestRoot (v : ℚ) (m : Nat) : Prop :=
  0 < m ∧ ((magnitude .f32 (m - 1) + magnitude .f32 m) / 2) ^ 2 < v ∧
    v < ((magnitude .f32 m + magnitude .f32 (m + 1)) / 2) ^ 2

end Sys2Proof.Spec

/-- FRND, FSCALE and the special functions (R139, R148). The functions named in log entries 8 and 12 are the
model's choice within the bounds that the rules give. -/
def Obligations.SpecialFunctions : Prop :=
  Computes special ∧
  (∀ f ∈ functions, ∀ a : Nat, a < 2 ^ 32 → 0x7F800000 < a % 2 ^ 31 → f a = (0x7FC00000, 0)) ∧
  (exp2Word 0xFF800000 = (0, 0) ∧ exp2Word 0x7F800000 = (0x7F800000, 0) ∧
    ∀ (a : Nat) (k : Int), (finiteWord a ∨ a % 2 ^ 31 = 0) → a < 2 ^ 32 →
      signWord a * magnitude .f32 (a % 2 ^ 31) = k → -149 ≤ k → k ≤ 127 →
      ∃ m, exp2Word a = (m, 0) ∧ 0 < m ∧ m < 0x7F800000 ∧ magnitude .f32 m = 2 ^ k) ∧
  (log2Word 0 = (0xFF800000, 2) ∧ log2Word 0x80000000 = (0xFF800000, 2) ∧
    log2Word 0x7F800000 = (0x7F800000, 0) ∧ log2Word 0x3F800000 = (0, 0) ∧
    ∀ a : Nat, 0x80000000 < a → a ≤ 0xFF800000 → log2Word a = (0x7FC00000, 1)) ∧
  (rcpWord 0 = (0x7F800000, 2) ∧ rcpWord 0x80000000 = (0xFF800000, 2) ∧ rcpWord 0x7F800000 = (0, 0) ∧
    rcpWord 0xFF800000 = (0x80000000, 0) ∧
    ∀ a : Nat, finiteWord a → ∃ m, roundsTo .f32 .rne 0 (decide (2 ^ 31 ≤ a)) (1 / magnitude .f32 (a % 2 ^ 31)) m ∧
      (rcpWord a).1 = a / 2 ^ 31 * 2 ^ 31 + min m 0x7F800000) ∧
  (rsqWord 0 = (0x7F800000, 0) ∧ rsqWord 0x80000000 = (0xFF800000, 0) ∧ rsqWord 0x7F800000 = (0, 0) ∧
    (∀ a : Nat, 0x80000000 < a → a ≤ 0xFF800000 → rsqWord a = (0x7FC00000, 1)) ∧
    ∀ a : Nat, finiteWord a → a < 2 ^ 31 → ∃ m nx, rsqWord a = (m, if nx then 16 else 0) ∧
      nearestRoot (1 / magnitude .f32 a) m ∧ (nx = true ↔ magnitude .f32 m ^ 2 ≠ 1 / magnitude .f32 a)) ∧
  (sqrtWord 0 = (0, 0) ∧ sqrtWord 0x80000000 = (0x80000000, 0) ∧ sqrtWord 0x7F800000 = (0x7F800000, 0) ∧
    (∀ a : Nat, 0x80000000 < a → a ≤ 0xFF800000 → sqrtWord a = (0x7FC00000, 1)) ∧
    ∀ a : Nat, finiteWord a → a < 2 ^ 31 → ∃ m nx, sqrtWord a = (m, if nx then 16 else 0) ∧
      nearestRoot (magnitude .f32 a) m ∧ (nx = true ↔ magnitude .f32 m ^ 2 ≠ magnitude .f32 a)) ∧
  (sinWord 0 = (0, 0) ∧ sinWord 0x80000000 = (0x80000000, 0) ∧ sinWord 0x7F800000 = (0x7FC00000, 1) ∧
    sinWord 0xFF800000 = (0x7FC00000, 1)) ∧
  (cosWord 0 = (0x3F800000, 0) ∧ cosWord 0x80000000 = (0x3F800000, 0) ∧ cosWord 0x7F800000 = (0x7FC00000, 1) ∧
    cosWord 0xFF800000 = (0x7FC00000, 1)) ∧
  (tanhWord 0 = (0, 0) ∧ tanhWord 0x80000000 = (0x80000000, 0) ∧ tanhWord 0x7F800000 = (0x3F800000, 0) ∧
    tanhWord 0xFF800000 = (0xBF800000, 0))

/-- Cross-lane instructions (R149 to R154). -/
def Obligations.CrossLane : Prop := Computes crossing

/-- Control transfer (R156 to R163), of protected pairs too (R350). -/
def Obligations.ControlTransfer : Prop :=
  Computes control ∧
  ∀ (gd : Guard) (x : YieldForm) (s : State) (g : Group) (l : LaneRef),
    One s g (.yield gd x) gd l → s.validTarget (fallPc s).toNat = true → yieldOk s x l = true →
    s.wakeHolds l (waitsFor s x l) = true →
    ∃ t, exec (.yield gd x) s = .next t ∧ gotIt (t.thread l) (arrive s (fallPc s) (s.thread l)) ∧ leftStride t g l ∧
      (∀ m, m ≠ l → gotIt (t.thread m) (s.thread m)) ∧ t.mem = s.mem ∧ t.loads = s.loads ∧ t.stores = s.stores

/-- The registers of the system (R170, R171, R175, R185, R195, R273). That %time (R17) is one count of the whole module is
log entry 30, its cut to 64 bits log entry 88. -/
def Obligations.SystemRegisters : Prop :=
  Computes system ∧
  ∀ (gd : Guard) (m : BitVec 8) (s : State) (g : Group), Ready s g (.twait gd m) →
    (∀ l, runs s g gd l = true → ∀ k, k < 8 → m.getLsbD k = true → tokenOf s l k = 0) →
    ∃ t, exec (.twait gd m) s = .next t ∧ (∀ l, runs s g gd l = true → gotIt (t.thread l) (s.thread l)) ∧
      (∀ l, runs s g gd l = true → ∀ k q, k < 8 → m.getLsbD k = true → s.rig? l.wg l.rig = some q →
        Map.get 0 q.tokPub k ≤ (t.thread l).readfloor ∨ (s.thread l).life = .absent) ∧
      (∀ l, runs s g gd l = false → t.thread l = s.thread l) ∧ t.cores = s.cores ∧ t.mem = s.mem ∧
      t.loads = s.loads ∧ t.stores = s.stores ∧ t.cmds = s.cmds ∧ t.copies = s.copies

namespace Sys2Proof.Spec

/-! Engine commands (R60, R243 to R245). -/

/-- The checks of each kind of command on its words, what it reads at its acceptance, and the format words that
it admits (R113, R254). -/
def engineOps : Instr → Option (EngineOp × (Nat → Bool))
  | .mma _ _ _ _ _ => some (mmaOp, mmaFormatOk false)
  | .mma16 _ _ _ _ _ => some (mmaOp, mmaFormatOk true)
  | .mzero _ _ _ => some (mzeroOp, fun _ => true)
  | .att _ _ _ _ _ _ => some (attOp, attFormatOk)
  | .attfin _ _ _ _ => some (attfinOp, fun _ => true)
  | .latw _ _ _ => some (latwOp, fun _ => true)
  | .kvlook _ _ _ _ => some (kvlookOp, fun _ => true)
  | .kvapp _ _ _ => some (kvappOp, fun _ => true)
  | .kvfork _ _ _ => some (kvforkOp, fun _ => true)
  | .kvcommit _ _ _ => some (kvcommitOp, fun _ => true)
  | .topk _ _ _ => some (topkOp, fun _ => true)
  | .cpy _ _ _ | .cpyt _ _ _ _ | .cpyg _ _ _ | .cpys _ _ _ => some (copyOp, fun _ => true)
  | .cpyc _ _ _ => some (sliceOp, fun _ => true)
  | .rngsnd _ _ _ _ => some (rngsndOp, fun _ => true)
  | .rngrcv _ _ _ _ => some (rngrcvOp, fun _ => true)
  | _ => none

/-- The guard of a command. -/
def commandGuard : Instr → Guard
  | .mma gd _ _ _ _ | .mma16 gd _ _ _ _ | .mzero gd _ _ | .att gd _ _ _ _ _ | .attfin gd _ _ _ | .latw gd _ _
  | .kvlook gd _ _ _ | .kvapp gd _ _ | .kvfork gd _ _ | .kvcommit gd _ _ | .topk gd _ _ | .cpy gd _ _
  | .cpyt gd _ _ _ | .cpyc gd _ _ | .cpyg gd _ _ | .cpys gd _ _ | .rngsnd gd _ _ _ | .rngrcv gd _ _ _ => gd
  | _ => ⟨7#3, false⟩

/-- Register `k` after the one that an operand names. -/
def regAt (s : State) (o : Opnd) (k : Nat) (l : LaneRef) : Word := (view s l).reg (s.thread l) (o.gnum + k)

/-- The words that a command takes from its leader (R243): a block of registers, the pair that addresses a
descriptor, or one operand. -/
def commandWords (s : State) (i : Instr) (l : LaneRef) : List Word :=
  if i.blockLen ≠ 0 then (List.range i.blockLen).map fun k => regAt s i.engineOpnd k l
  else if i.isCopy then
    [(reads64 s i.engineOpnd l).extractLsb' 0 32, (reads64 s i.engineOpnd l).extractLsb' 32 32]
  else [reads s i.engineOpnd l]

/-- The address of the barrier slot of a command of the lanes `l :: r`. -/
def barAt (s : State) (i : Instr) (o : Opnd) (l : LaneRef) (r : List LaneRef) : Nat :=
  (reads (reading s (l :: r) [i.engineOpnd]) o l).toNat

/-- The slot in whose state a command of the lanes `ls` is checked. -/
def atCommand (s : State) (i : Instr) (ls : List LaneRef) : State :=
  { s with fresh := s.fresh + 1 }.taint ls [i.engineOpnd]

/-- The lanes `l :: r` of one rig send the command `i`, in a protected launch in pairs whose leader's words agree (R350);
nothing makes it wait, its format words agree and are admitted, its barrier slot is live, and its checks pass: `s1` is the state after what it
reads, and `c` the command with what it has captured. -/
structure Sends (s : State) (g : Group) (i : Instr) (e : Engine) (op : EngineOp) (ok : Nat → Bool)
    (l : LaneRef) (r : List LaneRef) (w : Workgroup) (s1 : State) (c : Cmd) : Prop extends Ready s g i where
  ops : engineOps i = some (op, ok)
  engine : i.engine = some e
  only : running s g (commandGuard i) = l :: r
  rig : ∀ m ∈ r, m.wg = l.wg ∧ m.rig = l.rig
  pair : s.prot l.wg = true → l.lane % 2 = 0 ∧ (∀ m ∈ l :: r, mate m ∈ l :: r) ∧
    commandWords (reading s (l :: r) [i.engineOpnd]) i (mate l) = commandWords (reading s (l :: r) [i.engineOpnd]) i l
  wg : s.wg? l.wg = some w
  format : i.hasFormat = true → ok (regAt s i.engineOpnd 0 l).toNat = true ∧
    ∀ m ∈ r, regAt s i.engineOpnd 0 m = regAt s i.engineOpnd 0 l
  room : (s.cmds.filter fun d => d.core == s.focus.1 && d.engine == e && !d.stopped).length < e.places
  token : ∀ k, i.completion = .tok k → ∀ n, n < 64 → (s.thread ⟨l.wg, l.rig, n⟩).alive = true →
    tokenOf s ⟨l.wg, l.rig, n⟩ k.toNat < 63
  quiet : quiet s l
  bar : ∀ o, i.completion = .bar o → barAt s i o l r % 16 = 0 ∧ barAt s i o l r + 16 ≤ (s.limits l.wg).2.2 ∧
    w.isLive (barAt s i o l r) = true
  check : op.check (atCommand s i (l :: r)) ((atCommand s i (l :: r)).mkCmd i e l (l :: r)) = none
  accept : op.accept (atCommand s i (l :: r)) ((atCommand s i (l :: r)).mkCmd i e l (l :: r)) = (s1, .ok c)
  halt1 : s1.halt = none

/-- The command `d` as it stands in its engine (R60, R198, R243, R244). -/
structure Accepted (s : State) (i : Instr) (e : Engine) (l : LaneRef) (r : List LaneRef) (w : Workgroup)
    (d : Cmd) : Prop where
  instr : d.instr = i
  engine : d.engine = e
  lane : d.lane = l
  lanes : d.lanes = (l :: r).map LaneRef.lane
  launch : d.launch = w.launch
  core : d.core = s.focus.1
  perm : d.perm = w.pkperm
  block : d.block = commandWords (reading s (l :: r) [i.engineOpnd]) i l
  tok : d.tok = match i.completion with
    | .tok k => some k.toNat
    | .bar _ => none
  bar : d.bar = match i.completion with
    | .tok _ => none
    | .bar o => some (barAt s i o l r, bits (leNat (Memory.readN w.loft (barAt s i o l r) 16)) 96 32)
  progress : d.progress = 0
  early : d.early = [] ∧ d.ahead = 0 ∧ d.adds = [] ∧ d.spread = false
  stopped : d.stopped = false

/-- A count of a rig's token one higher (R183, R244). -/
def rigTokenUp (i : Instr) (tok : Map Nat) : Map Nat :=
  match i.completion with
  | .tok k => Map.set 0 tok k.toNat (Map.get 0 tok k.toNat + 1)
  | .bar _ => tok

end Sys2Proof.Spec

/-- Acceptance (R60, R243 to R245). -/
def Obligations.CommandsAccepted : Prop :=
  ∀ (i : Instr) (e : Engine) (op : EngineOp) (ok : Nat → Bool) (s : State) (g : Group) (l : LaneRef)
    (r : List LaneRef) (w : Workgroup) (s1 : State) (c : Cmd),
    Sends s g i e op ok l r w s1 c → (∀ gd k a, i ≠ .cpyc gd k a) →
    (∀ gd p k a, i = .rngsnd gd p k a → c.target = 0) →
    ∃ t d, exec i s = .next t ∧ t.cmds = s1.cmds ++ [d] ∧ Accepted s i e l r w d ∧
      (∀ m, t.thread m = (atCommand s i (l :: r)).thread m) ∧
      (t.rig? l.wg l.rig).map Rig.tok = (s.rig? l.wg l.rig).map (fun q => rigTokenUp i q.tok) ∧
      (t.rig? l.wg l.rig).map Rig.rowprog = (s.rig? l.wg l.rig).map (fun q =>
        if e = .matrix ∧ i.blockLen = 16 then 0#32 else q.rowprog) ∧
      t.loads = s.loads ∧ t.stores = s.stores ∧ t.mem = s1.mem ∧
      ∃ g', t.group? = some g' ∧ g'.served = g.served ++ l :: r ∧ g'.lanes = g.lanes ∧ g'.stalled = false

/-- CPYC (R270). -/
def Obligations.CollectiveSlices : Prop :=
  ∀ (gd : Guard) (k : Completion) (a : Opnd) (s : State) (g : Group) (l : LaneRef) (r : List LaneRef)
    (w : Workgroup) (s1 : State) (c : Cmd) (coll slc chan : Nat) (others : List Slice),
    Sends s g (.cpyc gd k a) .copy sliceOp (fun _ => true) l r w s1 c → coll = bits (leNat c.desc) 144 4 →
    slc = bits (leNat c.desc) 148 4 → chan = bits (leNat c.desc) 128 4 →
    others = w.slices.filter (fun x => x.coll == coll) →
    ∃ t v, exec (.cpyc gd k a) s = .next t ∧ t.wg? l.wg = some v ∧
      (∀ m, t.thread m = (atCommand s (.cpyc gd k a) (l :: r)).thread m) ∧
      (others.length ≠ slc → v.slices = w.slices ++ [⟨coll, l.rig, s.serial, slc⟩] ∧
        ∃ d, t.cmds = s1.cmds ++ [d] ∧ Accepted s (.cpyc gd k a) .copy l r w d ∧ d.held = true) ∧
      (others.length = slc → v.slices = w.slices.filter (fun x => x.coll != coll) ∧
        (∃ d ∈ t.cmds, d.id = s.serial) ∧
        ∀ d ∈ t.cmds, (d.id = s.serial ∨ ∃ x ∈ others, x.cmd = d.id) → d.held = false ∧ d.target = chan)

namespace Sys2Proof.Spec

/-! The rest of the system instructions (R170 to R174, R252). -/

/-- The identity of a launch at a level (R172). -/
def identity (k : Launch) : Level → Nat
  | .launch => k.rcd.ident
  | .graph => k.rcd.graph
  | .phase => k.rcd.phase
  | .job => k.rcd.job

/-- A launch under a cancel (R172, R326). -/
def cancelled (hard : Bool) (k : Launch) : Launch :=
  { k with
    status := if k.status = .done then .cancelled else k.status, noPlace := true
    hard := k.hard || hard || k.rollback.isSome, rollback := none }

/-- The launches of a function after a cancel: those that match and have not ended (R326). -/
def afterCancel (s : State) (v : Nat) (lvl : Level) (n : Nat) (hard : Bool) (mine : Launch → Bool) : List Launch :=
  s.launches.map fun k =>
    if k.vf = v ∧ identity k lvl = n ∧ mine k = true ∧ k.stage ≠ .ending then cancelled hard k else k

/-- A counter raised (R323), and the launches whose dependences it meets. -/
def counterSet (s : State) (v c : Nat) (val : Dword) : State :=
  let evc := Map.set 0#64 (s.vf v).evc c val
  let met (d : Nat × Nat) : Bool :=
    d.1 == 0xFFFF || decide (d.2 ≤ (Map.get 0#64 (if v < s.vfs.length then evc else (s.vf v).evc) d.1).toNat)
  { s with
    vfs := s.vfs.mapIdx fun j f => if j = v then { f with evc := evc } else f
    launches := s.launches.map fun k =>
      if k.vf = v ∧ k.stage = .waiting ∧ met k.rcd.dep0 = true ∧ met k.rcd.dep1 = true then
        { k with stage := if k.repl then .snapshotting else .running, readyAt := s.time }
      else k }

/-- The workgroups with one of them changed. -/
def oneWg (s : State) (n : Nat) (f : Workgroup → Workgroup) : List Workgroup :=
  s.wgs.map fun w => if w.id = n then f w else w

/-- A workgroup with one rig changed. -/
def oneRig (n : Nat) (f : Rig → Rig) (w : Workgroup) : Workgroup :=
  { w with rigs := w.rigs.mapIdx fun r q => if r = n then f q else q }

/-- What the issue of a slot leaves beside its own effect. -/
def issued (s : State) (ls : List LaneRef) (ops : List Opnd) : State := { reading s ls ops with fresh := s.fresh + 1 }

end Sys2Proof.Spec

/-- The system instructions that write beyond their thread (R170 to R174, R252). -/
def Obligations.SystemWrites : Prop :=
  (∀ (gd : Guard) (a : Opnd) (s : State) (g : Group) (l : LaneRef),
    One s g (.movsw gd .aset a) gd l → (reads s a l).toNat < (s.limits l.wg).2.1 →
    exec (.movsw gd .aset a) s = .next { issued s [l] [a] with
      wgs := oneWg (issued s [l] [a]) l.wg (oneRig l.rig fun q => { q with aset := reads s a l }) }) ∧
  (∀ (gd : Guard) (a b : Opnd) (s : State) (g : Group) (l : LaneRef),
    One s g (.pkset gd a b) gd l → (reads s a l).toNat ≤ 31 → (reads s b l).toNat ≤ 3 →
    exec (.pkset gd a b) s = .next { issued s [l] [a, b] with
      wgs := oneWg (issued s [l] [a, b]) l.wg fun w => { w with
        pkperm := (w.pkperm &&& ~~~(3#64 <<< (2 * (reads s a l).toNat))) |||
          ((reads s b l).setWidth 64 <<< (2 * (reads s a l).toNat)) } }) ∧
  (∀ (gd : Guard) (s : State) (g : Group), Ready s g (.mopf gd) →
    exec (.mopf gd) s = .next { each s
      (fun m => (running s g gd).any fun n => n.wg == m.wg && n.rig == m.rig) (fun _ t => { t with accOld := [] }) with
        fresh := s.fresh + 1 }) ∧
  (∀ (gd : Guard) (lvl : Level) (hard : Bool) (a : Opnd) (s : State) (g : Group) (l : LaneRef) (n : Launch),
    One s g (.cancel gd lvl hard a) gd l → s.launchOf? l.wg = some n →
    (∀ k ∈ s.launches, k.vf = n.vf → identity k lvl = (reads s a l).toNat → k.rcd.job = n.rcd.job) →
    exec (.cancel gd lvl hard a) s = .next { issued s [l] [a] with
      launches := afterCancel s n.vf lvl (reads s a l).toNat hard fun _ => true }) ∧
  ∀ (gd : Guard) (a b : Opnd) (s : State) (g : Group) (l : LaneRef) (n : Launch),
    One s g (.evsig gd a b) gd l → s.launchOf? l.wg = some n → n.repl = false → s.released l .sys = true →
    (reads s a l).toNat < 4096 →
    exec (.evsig gd a b) s = .next (counterSet (issued s [l] [a, b]) n.vf (reads s a l).toNat
      (Map.get 0#64 (s.vf n.vf).evc (reads s a l).toNat + (reads s b l).setWidth 64))

namespace Sys2Proof.Spec

/-! Admission (R320, R321). -/

/-- The checks of admission after check 1 pass for the entry `id` of the launch `k`: `t` is the state after their
reads, `f` the record with its shape, and `img` and `lists` are what has been captured. -/
def Admits (s : State) (id : Nat) (k : Launch) (t : State) (f : LaunchRec) (img : Nat × Nat × Nat × Nat × Nat)
    (lists : List (Nat × Nat) × List Byte) : Prop :=
  ∃ s1 s2, (s.countDie id).admitShape k = (s1, .ok f) ∧
    (s1.setLaunch id fun x => { x with rcd := f }).admitImage { k with rcd := f } = (s2, .ok img) ∧
    s2.admitLists { k with rcd := f } = (t, .ok lists) ∧ t.halt = none

/-- A dependence is met (R323). -/
def depMet (s : State) (v : Nat) (d : Nat × Nat) : Bool :=
  d.1 == 0xFFFF || decide (d.2 ≤ (Map.get 0#64 (s.vf v).evc d.1).toNat)

/-- An admitted entry (R101, R320, R323): it waits, or is ready when its dependences are met. -/
def admitted (t : State) (k : Launch) (f : LaunchRec) (img : Nat × Nat × Nat × Nat × Nat)
    (lists : List (Nat × Nat) × List Byte) : Launch :=
  { k with
    rcd := f, entry := img.1, codeOfs := img.2.1, codeLen := img.2.2.1, dictOfs := img.2.2.2.1
    dictN := img.2.2.2.2, regions := lists.1, grid := lists.2, watches := [], admitted := t.time
    stage := if depMet t k.vf f.dep0 && depMet t k.vf f.dep1 then (if k.repl then .snapshotting else .running)
      else .waiting
    readyAt := if depMet t k.vf f.dep0 && depMet t k.vf f.dep1 then t.time else k.readyAt }

/-- A queue entry that has just been made for a record (R315). -/
def taken (s : State) (id v : Nat) (f : LaunchRec) (raw : List Byte) : Launch :=
  { id := id, vf := v, rcd := f, raw := raw, ctx := s.ctxCopy v f.ctx, entry := 0, codeOfs := 0, codeLen := 0
    dictOfs := 0, dictN := 0, grid := [], regions := [], stage := .admitting, order := id, admitted := s.time
    readyAt := s.time, nextWg := 0, wgdone := 0, status := .done, cause := 0, faddr := 0, noPlace := false
    hard := false, repl := f.repl, rollback := none, rollbacks := 0, snap := [], snapAt := none, snapTracks := []
    watches := [], quiet := false }

/-- Check 1 of R320 on the bits of a record (R316), for the window queue of a host's record. -/
def fitsRecord (r : Nat) (queue : Option Nat) : Prop :=
  (∀ q, queue = some q → bits r 592 6 = q) ∧
  bits r 598 2 = 0 ∧ bits r 605 3 = 0 ∧ bits r 960 48 = 0 ∧ bits r 1088 48 = 0 ∧ bits r 1248 32 = 0 ∧ bits r 1344 696 = 0 ∧
  bits r 0 64 % 64 = 0 ∧ bits r 64 64 % 8 = 0 ∧ bits r 448 64 % 64 = 0 ∧ bits r 512 64 % 128 = 0 ∧ bits r 832 64 % 64 = 0 ∧
  bits r 1152 64 % 16 = 0 ∧ bits r 1280 64 % 16 = 0 ∧ bits r 1232 16 ≤ 64 ∧ bits r 576 16 ≤ 4096 ∧
  bits r 128 32 ≤ 0x7FFFFFFF ∧ ∀ p, p = 1008 ∨ p = 1136 ∨ p = 1216 → bits r p 16 = 0xFFFF ∨ bits r p 16 < 4096

/-- Check 2 of R320: the partition word, the quantities and the grid (R18 to R20, R24, R25, R349). -/
def fitsShape (f : LaunchRec) : Prop :=
  let rigs := if f.prot then (f.tpw + 31) / 32 else (f.tpw + 63) / 64
  f.part < 2 ^ 21 ∧ bits f.part 0 7 + bits f.part 7 7 + bits f.part 14 7 ≤ 128 ∧
  8 ≤ f.nreg ∧ f.nreg ≤ 256 ∧ f.tpw % 4 = 0 ∧ 4 ≤ f.tpw ∧ f.tpw ≤ (if f.prot then 512 else 1024) ∧
  f.loftb % 256 = 0 ∧ f.loftb ≤ 16384 * bits f.part 7 7 ∧ f.nacc ≤ 8 ∧
  rigs * f.nreg ≤ 64 * bits f.part 0 7 ∧ rigs * f.nacc ≤ bits f.part 14 7 / 2 ∧
  1 ≤ f.gx ∧ 1 ≤ f.gy ∧ 1 ≤ f.gz ∧ f.gx * f.gy * f.gz ≤ 2 ^ 32

/-- A launch whose end has begun (R322): its snapshot is released. -/
def ending (s : State) (id : Nat) : State :=
  { s with
    snapMarks := s.snapMarks.filter fun m => m.2 != id
    launches := s.launches.map fun k =>
      if k.id = id then { k with snap := [], snapAt := none, snapTracks := [], stage := .ending } else k }

/-- A launch that is refused with a status: its end has begun (R320). -/
def turnedDown (s : State) (id : Nat) (st : LStatus) : State :=
  ending { s with launches := s.launches.map fun k => if k.id = id then { k with status := st } else k } id

/-- The completion record of a launch has a place that can be written, and the queue that its end is notified to, or held
for, takes its record elsewhere (R312, R322): `s` is the state as the end has begun, `s1` that after the translation. -/
structure Completes (s : State) (k : Launch) (s1 : State) (p : Place) : Prop where
  asked : k.rcd.crec % 16 = 0 ∧ k.rcd.crec ≠ 0
  plain : k.ctx.dbm = 0
  there : ∃ q, translate s k.ctx (.l2 0) 0 none (BitVec.ofNat 64 k.rcd.pkperm) .write k.rcd.crec = (s1, .ok p q)
  runs : s1.halt = none
  real : paExists p.addr = true
  sound : s1.badSectors p.addr 16 = []
  leaf : leafFit s1 p
  queues : (s1.nq k.vf).held = [] ∧ s1.pf.nq.held = []
  slot : s1.sectorBad (recordSlot (s1.nq k.vf) / 32) = false
  apart : recordSlot (s1.nq k.vf) + 32 ≤ p.addr ∨ p.addr + 16 ≤ recordSlot (s1.nq k.vf)

/-- The end of a launch waits for no page: it has no completion record, no place for one, or a record that can be written
or is denied (R322). -/
def canEnd (s : State) (k : Launch) : Prop :=
  k.rcd.crec = 0 ∨ k.rcd.crec % 16 ≠ 0 ∨ (∃ s1 p, Completes s k s1 p) ∨
    ∃ s1, translate s k.ctx (.l2 0) 0 none (BitVec.ofNat 64 k.rcd.pkperm) .write k.rcd.crec = (s1, .deny) ∧ s1.halt = none

/-- From `s` to `u` the launch has ended at once with a status (R320, R322): its entry is free, and a completion record that
can be written says the status, no cause, no completed workgroup and no address. -/
def Refuses (s : State) (k : Launch) (st : LStatus) (code : Nat) (u : State) : Prop :=
  (∀ x ∈ u.launches, x.id ≠ k.id) ∧
  ∀ s1 p, Completes (turnedDown s k.id st) k s1 p →
    Memory.readN u.mem p.addr 16 = BitVec.ofNat 8 code :: List.replicate 15 0#8

/-- ENQL of one lane can have its record read (R173): `s1` is the state after the translation, `raw` the record, `f` what
the dispatcher makes of it. -/
structure Enqueues (s : State) (g : Group) (l : LaneRef) (gd : Guard) (a b : Opnd) (w : Workgroup) (n : Launch)
    (s1 : State) (p : Place) (raw : List Byte) (f : LaunchRec) : Prop where
  one : One s g (.enql gd a b) gd l
  quiet : quiet s l
  wg : s.wg? l.wg = some w
  launch : s.launchOf? l.wg = some n
  repl : n.repl = false
  drained : s.released l .dev = true
  aligned : (reads64 s a l).toNat % 256 = 0
  owns : (s.launches.any fun k => k.vf == n.vf && k.rcd.graph == (reads s b l).toNat && k.rcd.job == n.rcd.job) = true
  there : ∃ q, (issued s [l] [a, b]).coreAccess l .read (reads64 s a l).toNat = (s1, .ok p q)
  runs : s1.halt = none
  sound : s1.badSectors p.addr 256 = []
  bytes : raw = Memory.readN s1.mem p.addr 256
  fields : f = { recFields (leNat raw) with graph := (reads s b l).toNat, job := n.rcd.job, ctx := n.rcd.ctx }

/-- The record has its queue entry. -/
def queued (s1 : State) (w : Workgroup) (n : Launch) (p : Place) (raw : List Byte) (f : LaunchRec) : State :=
  { s1.dropCopies w.core (p.addr / 128) with
    serial := s1.serial + 1, launches := s1.launches ++ [taken s1 s1.serial n.vf f raw] }

end Sys2Proof.Spec

/-- ENQL (R173, R315). -/
def Obligations.Enqueue : Prop :=
  ∀ (gd : Guard) (a b : Opnd) (s : State) (g : Group) (l : LaneRef) (w : Workgroup) (n : Launch) (s1 : State)
    (p : Place) (raw : List Byte) (f : LaunchRec),
    Enqueues s g l gd a b w n s1 p raw f →
    (∀ (t : State) (f' : LaunchRec) (img : Nat × Nat × Nat × Nat × Nat) (lists : List (Nat × Nat) × List Byte),
      s1.queueUse n.vf f.queue < 64 → fitsRecord (leNat raw) none → s1.ctxValid n.vf f.ctx = true →
      Admits (queued s1 w n p raw f) s1.serial (taken s1 s1.serial n.vf f raw) t f' img lists →
      ∃ u, exec (.enql gd a b) s = .next u ∧
        u.launch? s1.serial = some (admitted t (taken s1 s1.serial n.vf f raw) f' img lists) ∧
        (∀ m, u.thread m = (issued s [l] [a, b]).thread m) ∧ u.mem = t.mem) ∧
    ∀ st code, 64 ≤ s1.queueUse n.vf f.queue ∧ st = .queueFull ∧ code = 4 ∨
        s1.queueUse n.vf f.queue < 64 ∧ ¬fitsRecord (leNat raw) none ∧ s1.ctxValid n.vf f.ctx = true ∧
          st = .refusedRecord ∧ code = 1 →
      canEnd (turnedDown (queued s1 w n p raw f) s1.serial st) (taken s1 s1.serial n.vf f raw) →
      ∃ u, exec (.enql gd a b) s = .next u ∧
        Refuses (queued s1 w n p raw f) (taken s1 s1.serial n.vf f raw) st code u ∧
        ∀ m, u.thread m = (issued s [l] [a, b]).thread m

namespace Sys2Proof.Spec

/-! Bays (R28 to R36, R44 to R50). -/

/-- No launch is under a hard cancel. -/
def noHard (s : State) : Prop := ∀ k ∈ s.launches, k.hard = false

/-- The state in which the picker of a bay fetches a stride of some lanes: the bay acts, and the fetches of their
launches have been counted (R29, R330). -/
def fetching (s : State) (c b : Nat) (ls : List LaneRef) : State :=
  ((ls.map LaneRef.wg).eraseDups.filterMap fun w => (s.wg? w).map Workgroup.launch).foldl State.countDie
    { s with focus := (c, b), fresh := s.fresh + 1 }

/-- The wake condition of a parked lane of a workgroup (R163). -/
def meets (s : State) (w : Workgroup) (l : LaneRef) : Wake → Prop
  | .phase a ph => w.isLive a = false ∨ bit (leNat (Memory.readN w.loft a 16)) 48 ≠ ph
  | .token k => tokenOf s l k = 0
  | .wptr ch v => (Map.get 0#32 w.chans ch - v).toNat < 2 ^ 31

/-- The scope of the release that an instruction waits for (R173, R174, R189, R190, R195, R202, R214). -/
def waitsAt : Instr → Option Scope
  | .fence _ sc o => if waits o then some sc else none
  | .barv _ _ => some .wg
  | .enql _ _ _ => some .dev
  | .evsig _ _ _ | .ainit _ _ _ | .apost _ _ _ _ _ | .astep _ _ _ => some .sys
  | i => (memOp i).bind fun m => if waits m.ord then some (match m.sp with
    | .loft => .wg
    | .global => m.sc) else none

/-- Every lane of a group finds its writes past their write-completion times at the scope that its slot waits for. -/
def waitOver (s : State) (g : Group) : Bool :=
  match g.check.bind waitsAt with
  | some sc => g.lanes.all fun l => s.released l sc
  | none => false

/-- A stride of the fetched words, unpacked (R47). -/
def strideWords (body : List Nat) : List SlotWord := body.map fun w => .word (BitVec.ofNat 64 w)

end Sys2Proof.Spec

/-- STRIDE_ISSUE (R29, R46 to R50). -/
def Obligations.StrideIssue : Prop :=
  ∀ (s s1 s2 : State) (c b h : Nat) (x : Cand) (k : KSlot) (l : LaneRef) (r : List LaneRef) (body e : List Nat),
    s.halt = none → Inv s → noHard s → (s.bay c b).port = none → (s.bay c b).cut = [] →
    c < s.cores.length → b < (s.core c).bays.length → (s.core c).fenced = false →
    ({ s with focus := (c, b), fresh := s.fresh + 1 }).cands c b = [x] → x.join = false → x.resume = none →
    x.lanes = l :: r → x.lanes.Nodup → x.slot < 8 → x.team < 16 → s.kslot? c x.kslot = some k →
    (fetching s c b x.lanes).fetchWord l k x.pc = (s1, .ok h e) →
    headerOk h = true → bit h 51 = false → s1.fetchBody l k (x.pc + 8) (bits h 52 4 + 1) = (s2, .ok 0 body) →
    s2.halt = none →
    ∃ t g, exec (.strideIssue c b) s = .next t ∧ (t.bay c b).port = some g ∧ g.lanes = x.lanes ∧
      g.kslot = x.kslot ∧ g.pc = BitVec.ofNat 64 x.pc ∧ g.words = strideWords body ∧
      g.size = 8 * (bits h 52 4 + 2) ∧ g.slot = 0 ∧ g.ecls = bits h 56 2 ∧
      (∀ m ∈ x.lanes, gotIt (t.thread m) { s.thread m with temps := [] } ∧ (t.thread m).slot = none ∧
        (t.thread m).restored = false) ∧
      (bits h 43 8 = 0 → ∀ m ∈ x.lanes, t.thread m = { s.thread m with temps := [], slot := none, restored := false }) ∧
      (∀ m, m ∉ x.lanes → t.thread m = s.thread m) ∧ t.mem = s2.mem

/-- TENURE_END, JOIN_HOLD_EXPIRY, RELEASE_WAIT_END and WAKE (R30 to R34, R195). Which stalled groups rejoin the
selection, and when, is the model's choice: log entry 31. -/
def Obligations.BayWaitsEnd : Prop :=
  (∀ (s : State) (c b : Nat) (g : Group), s.halt = none → (s.bay c b).port = some g → 7 ≤ g.tenure →
    exec (.tenureEnd c b) s = .next (s.setBay c b fun y =>
      { y with port := none, cut := y.cut ++ [{ g with age := (s.bay c b).cycle }] })) ∧
  (∀ (s : State) (c b : Nat), s.halt = none →
    exec (.joinHoldExpiry c b) s = .next (s.setBay c b fun y =>
      { y with holds := y.holds.map fun h =>
          { h with expired := h.expired || decide (h.since + 32 ≤ (s.bay c b).cycle) } })) ∧
  (∀ (s : State) (c b : Nat), s.halt = none →
    exec (.releaseWaitEnd c b) s = .next (s.setBay c b fun y =>
      { y with cut := y.cut.map fun g => if waitOver s g then { g with stalled := false } else g })) ∧
  ∀ (s : State) (l : LaneRef) (w : Workgroup) (q : Rig) (c : Wake), s.halt = none → Inv s →
    s.wg? l.wg = some w → s.rig? l.wg l.rig = some q → w.phase = .running → (s.thread l).life = .parked c →
    (l.lane ∈ q.due ∨ meets s w l c) →
    ∃ t, exec (.wake l.wg l.rig l.lane) s = .next t ∧ (t.thread l).life = .running ∧
      (t.thread l).age = (s.bay w.core q.bay).cycle ∧
      gotIt (t.thread l) { s.thread l with life := .running } ∧
      (match c with
        | .phase a _ => (t.thread l).readfloor =
            (if w.isLive a then max (s.thread l).readfloor (Map.get (0, 0) w.slotPub (a / 16)).2 else (s.thread l).readfloor)
        | .token k => (t.thread l).readfloor = max (s.thread l).readfloor (Map.get 0 q.tokPub k)
        | .wptr _ _ => t.thread l = { s.thread l with life := .running, age := (s.bay w.core q.bay).cycle }) ∧
      (∀ m, m ≠ l → t.thread m = s.thread m) ∧
      (t.rig? l.wg l.rig).map Rig.due = some (q.due.filter fun n => n != l.lane) ∧
      t.cores = s.cores ∧ t.mem = s.mem ∧ t.loads = s.loads ∧ t.stores = s.stores ∧ t.cmds = s.cmds

/-- PENDING_DEMOTION, RIG_PROMOTE and FORCED_DEMOTION (R35, R36). The last issue of a rig is log entry 87, the place of
a demoted one log entry 95. -/
def Obligations.ActiveSet : Prop :=
  (∀ (s : State) (c b slot i wg rig : Nat) (w : Workgroup), s.halt = none →
    (s.bay c b).active[slot]? = some (some (wg, rig)) → (s.bay c b).pending[i]? = some none →
    (∀ j, j < i → (s.bay c b).pending[j]? ≠ some none) → s.wg? wg = some w →
    (∃ n, n < 64 ∧ (s.thread ⟨wg, rig, n⟩).alive = true) →
    (∀ n, n < 64 → (s.thread ⟨wg, rig, n⟩).alive = true → ∃ x, (s.thread ⟨wg, rig, n⟩).life = .parked x) →
    (∀ n, n < 64 → (s.thread ⟨wg, rig, n⟩).alive = true → (s.thread ⟨wg, rig, n⟩).inStride = false) →
    (∀ l ∈ (s.bay c b).inGroups, ¬(l.wg = wg ∧ l.rig = rig)) →
    ∃ t, exec (.pendingDemotion c b slot) s = .next t ∧
      (t.bay c b).active = (s.bay c b).active.set slot none ∧
      (t.bay c b).pending = (s.bay c b).pending.set i (some (wg, rig)) ∧ (t.rig? wg rig).bind Rig.ready = none ∧
      (∀ m, t.thread m = s.thread m) ∧ t.mem = s.mem) ∧
  (∀ (s : State) (c b slot i wg rig n : Nat), s.halt = none →
    (s.bay c b).active[slot]? = some none → (∀ j, j < slot → (s.bay c b).active[j]? ≠ some none) →
    (s.bay c b).pending[i]? = some (some (wg, rig)) →
    (∀ j, j ≠ i → ∀ r, (s.bay c b).pending[j]? ≠ some (some r)) → (s.rig? wg rig).bind Rig.ready = some n →
    ∃ t, exec (.rigPromote c b) s = .next t ∧
      (t.bay c b).active = (s.bay c b).active.set slot (some (wg, rig)) ∧
      (t.bay c b).pending = (s.bay c b).pending.set i none ∧ (t.rig? wg rig).bind Rig.ready = none ∧ t.mem = s.mem) ∧
  ∀ (s : State) (c b slot i j wg rig vw vr n : Nat), s.halt = none →
    (∀ j : Nat, (s.bay c b).active[j]? ≠ some none) → (s.bay c b).active[slot]? = some (some (vw, vr)) →
    (∀ j r, (s.bay c b).active[j]? = some (some r) → j ≠ slot →
      ((s.rig? vw vr).map Rig.lastIssue).getD 0 < ((s.rig? r.1 r.2).map Rig.lastIssue).getD 0) →
    (s.bay c b).pending[i]? = some (some (wg, rig)) →
    (∀ j, j ≠ i → ∀ r, (s.bay c b).pending[j]? ≠ some (some r)) → (s.rig? wg rig).bind Rig.ready = some n →
    n + 1024 ≤ (s.bay c b).cycle → ((s.bay c b).pending.set i none)[j]? = some none →
    (∀ k, k < j → ((s.bay c b).pending.set i none)[k]? ≠ some none) →
    (∀ g, (s.bay c b).port = some g → ∀ l ∈ g.lanes, ¬(l.wg = vw ∧ l.rig = vr)) →
    ∃ t, exec (.forcedDemotion c b) s = .next t ∧
      (t.bay c b).active = (s.bay c b).active.set slot (some (wg, rig)) ∧
      (t.bay c b).pending = ((s.bay c b).pending.set i none).set j (some (vw, vr)) ∧ t.mem = s.mem

namespace Sys2Proof.Spec

/-- A cache holds a line under the grant that an invalidation names, or, where that is an L2 slice, is an L1 of its die
that took the line by then (R301, R302). -/
def named (v : Inval) (h : Holder) (line number start : Nat) : Bool :=
  line == v.line && ((h == v.holder && number == v.number) ||
    match v.holder, h with
    | .l2 d, .l1 c => c / 48 == d && decide (start ≤ v.start)
    | _, _ => false)

/-- An access depends on what an invalidation of translations names: it was on its way before the store to the line, or
uses an old translation (R294, R295). -/
def bound (v : TInval) (id : Nat) (p : Place) : Prop :=
  p.loft = false ∧ v.unit ∈ p.units ∧ v.line ∈ p.lines ∧ (p.stale = true ∨ id < v.id)

end Sys2Proof.Spec

/-- READ_MISS_GRANT, INVALIDATION, TRANSLATION_INVALIDATION and SHARER_ACK_TIMEOUT (R295, R301, R302, R351). -/
def Obligations.Coherence : Prop :=
  (∀ (s : State) (id len : Nat) (p : PendingLoad), s.halt = none →
    s.loads.find? (fun q => q.id == id) = some p → p.served = none → p.place.loft = false →
    (p.place.cls = .shared ∨ p.place.cls = .object) → gate s p.place.addr = .ok →
    s.older p.touch p.id = [] → s.badSectors (128 * (p.place.addr / 128)) 128 = [] →
    p.place.addr % 128 + p.len ≤ 128 →
    ∃ t, exec (.readMissGrant id len false) s = .next t ∧
      t.loads = s.loads.map (fun q => if q.id = id then
        { q with served := some (Memory.readN s.mem p.place.addr p.len, s.pubOf p.place.addr p.len) } else q) ∧
      (⟨.l1 p.core, p.place.addr / 128, (s.grantNo + 1#16).toNat, s.time,
        s.time + if p.place.fixed then p.place.lease else min len p.place.lease⟩ : Grant) ∈ t.grants ∧ t.mem = s.mem ∧ t.wgs = s.wgs ∧ t.stores = s.stores) ∧
  (∀ (s : State) (id : Nat) (v : Inval), s.halt = none → s.invals.find? (fun q => q.id == id) = some v →
    exec (.invalidation id) s = .next { s with
      invals := s.invals.filter fun q => q.id != id
      copies := s.copies.filter fun c => !(named v c.holder c.line c.number c.start)
      grants := s.grants.filter fun g => !(named v g.holder g.line g.number g.start) }) ∧
  (∀ (s : State) (id : Nat) (v : TInval), s.halt = none → s.tinvals.find? (fun q => q.id == id) = some v →
    (∀ p ∈ s.loads, p.served = none → ¬bound v p.id p.place) → (∀ q ∈ s.stores, ¬bound v q.id q.place) →
    (∀ c ∈ s.cmds, ∀ x ∈ c.adds, ¬bound v c.id x.2.1) →
    exec (.translationInvalidation id) s = .next { s with
      tlb := s.tlb.filter fun e => !(e.unit == v.unit && e.lines.contains v.line)
      tinvals := s.tinvals.filter fun q => q.id != id
      tracks := s.tracks.map fun k => { k with tpending := k.tpending.filter fun i => i != id } }) ∧
  ∀ (s : State) (id c : Nat) (v : TInval), s.halt = none → s.tinvals.find? (fun q => q.id == id) = some v →
    v.unit = .l1 c → v.sent + 200000 ≤ s.time → c < s.cores.length →
    ∃ t, exec (.sharerAckTimeout id) s = .next t ∧ (t.core c).fenced = true ∧
      t.loads = s.loads.filter (fun p => p.core != c) ∧ t.stores = s.stores.filter (fun p => p.core != c) ∧
      t.copies = s.copies.filter (fun q => q.holder != .l1 c) ∧
      t.invals = s.invals.filter (fun q => q.holder != .l1 c) ∧ t.tlb = s.tlb.filter (fun e => e.unit != .l1 c) ∧
      t.tinvals = s.tinvals.filter (fun q => q.unit != .l1 c) ∧ t.mem = s.mem ∧
      ∀ w ∈ s.wgs, w.core = c → ∀ k, s.launch? w.launch = some k → k.ctx.tag ∈ t.kills

/-- Slices (R304), reservations (R236) and links (R241). Plain accesses over a dead link are log entry 53, the port of a
package log entry 11. -/
def Obligations.SlicesAndLinks : Prop :=
  (∀ (s : State) (d k : Nat), s.halt = none → d < 4 → k < 48 → (∀ f ∈ s.sliceFaults, ¬(f.die = d ∧ f.slice = k)) →
    exec (.sliceNoResponse d k) s =
      .next { s with sliceFaults := s.sliceFaults ++ [⟨d, k, false, s.time, none⟩] }) ∧
  (∀ (s : State) (d k b : Nat) (f : SliceFault), s.halt = none →
    s.sliceFaults.find? (fun f => f.die == d && f.slice == k && !f.fenced) = some f → f.since + 40000 ≤ s.time →
    b = (if d % 2 = 0 then d + 1 else d - 1) →
    (((s.dies[b]?).map Die.state = some .inService → (∀ g ∈ s.sliceFaults, ¬(g.die = b ∧ g.slice = k)) →
      exec (.sliceTakeover d k) s = .next (({ s with
        sliceFaults := s.sliceFaults.map fun g =>
          if g.die = d ∧ g.slice = k then { g with fenced := true, blanket := some (s.time + 2048) } else g } : State).notifyPf
            0x12 (48 * d + k))) ∧
    (((s.dies[b]?).map Die.state ≠ some .inService ∨ ∃ g ∈ s.sliceFaults, g.die = b ∧ g.slice = k) →
      exec (.sliceTakeover d k) s = exec (.dieDead d) s))) ∧
  (∀ (s : State) (d k : Nat), s.halt = none →
    exec (.takeoverLeaseEnd d k) s = .next { s with sliceFaults := s.sliceFaults.map fun g =>
      if g.die = d ∧ g.slice = k ∧ (g.blanket.any fun e => decide (e ≤ s.time)) = true then { g with blanket := none } else g }) ∧
  (∀ (s : State) (obj : Nat) (r : Reservation) (left : List RefusedLink), s.halt = none →
    s.resvs.find? (fun r => r.obj == obj) = some r → r.stop ≤ s.time →
    left = s.refusals.filter (fun q => !(q.obj == obj && q.post == r.post)) →
    (∀ q, left.find? (fun q => decide (s.time ≤ q.time + 2000000) && q.obj == obj) = some q → s.time < r.stop + 2000) →
    exec (.linkReservationExpiry obj) s = .next { s with
      refusals := left
      resvs := s.resvs.filter (fun r => r.obj != obj) ++
        match left.find? fun q => decide (s.time ≤ q.time + 2000000) && q.obj == obj with
        | some q => [⟨obj, q.post, r.stop + 2000⟩]
        | none => [] }) ∧
  (∀ (s : State) (k post : Nat), s.halt = none →
    exec (.refusalEntryExpiry k post) s = .next { s with
      refusals := s.refusals.filter fun r => !(r.slice == k && r.post == post && decide (r.time + 2000000 < s.time)) }) ∧
  ∀ (s : State) (port : Nat), s.halt = none → s.deadLinks.contains port = false →
    (∀ p ∈ s.loads, p.atomic = true → region p.place.addr = 1 → Config.portOf (bits p.place.addr 40 10) ≠ port) →
    (∀ m ∈ s.ringMsgs, m.port = some port → m.landed = true) →
    exec (.linkDeclaredDead port) s =
      .next { s with fresh := s.fresh + 1, deadLinks := s.deadLinks ++ [port] }

namespace Sys2Proof.Spec

/-- The page that a migration register names (R310). -/
def pageFrame (v : Nat) : Nat := v / 4096 % 2 ^ 40 * 4096

/-- A reply in MIGRSP (R310). -/
def replied (s : State) (v frame code : Nat) : List Vf :=
  s.vfs.mapIdx fun j f => if j = v then { f with migrsp := f.migrsp ++ [(frame, code)] } else f

/-- The arbiter after a hold of a page has ended: its entry is `e`, or freed (R309). -/
def holdEnded (l : List ArbEntry) (frame : Nat) (e : ArbEntry) : List ArbEntry :=
  if e.moved = true ∧ e.holdHost = none ∧ e.holdDev = none then l.filter fun a => a.frame != frame
  else l.map fun a => if a.frame = frame then e else a

/-- A hold as REMOTE leaves it (R309): one that stands is kept, else a new one runs for 256 µs. -/
def heldOn (t : Nat) : Option Nat → Option Nat
  | some x => if t < x then some x else some (t + 512000)
  | none => some (t + 512000)

/-- An entry that is migratable still, of a page (R292, R309): V = 0, MIG = 1, FRAME of the page. -/
def migratable (s : State) (pa frame : Nat) : Bool :=
  let e := leNat (Memory.readN s.mem pa 8)
  !bit e 0 && bit e 54 && decide (pageFrame e = frame)

end Sys2Proof.Spec

/-- The migration arbiter (R309, R310). Whose report ends a move, and that the leaf of REMOTE has MIG = 0, are the model's
choices: log entry 17. -/
def Obligations.MigrationArbiter : Prop :=
  (∀ (s : State) (r : MigReq) (n : Launch), s.halt = none → s.migReqs.find? (fun q => q.id == r.id) = some r →
    (∀ q ∈ s.migReqs, q.waiting = false) → (∀ a ∈ s.arb, a.frame ≠ r.frame) → s.arb.length < Config.arbiterEntries →
    s.launch? r.launch = some n →
    exec (.migrationRequest r.id) s = .next (({ s with
        migReqs := s.migReqs.filter fun q => q.id != r.id
        arb := s.arb ++ [⟨r.frame, false, n.vf, none, none, false, []⟩] } : State).notify n.vf
          (notifyRecord r.frame n.rcd.ident r.wgid n.rcd.job n.rcd.ctx 0 2))) ∧
  (∀ (s : State) (v x frame : Nat), s.halt = none → v < 32 → frame = pageFrame x →
    (∀ a ∈ s.arb, a.frame ≠ frame) →
    (s.arb.length < Config.arbiterEntries → (∀ q ∈ s.migReqs, q.waiting = false) → exec (.migreqRequest v x) s =
      .next { s with vfs := replied s v frame 1, arb := s.arb ++ [⟨frame, true, v, none, none, false, []⟩] }) ∧
    (Config.arbiterEntries ≤ s.arb.length ∨ (∃ q ∈ s.migReqs, q.waiting = true) → exec (.migreqRequest v x) s = .next { s with vfs := replied s v frame 3 })) ∧
  (∀ (s : State) (frame h : Nat) (e : ArbEntry), s.halt = none →
    s.arb.find? (fun a => a.frame == frame) = some e →
    (e.holdHost = some h → h ≤ s.time → exec (.migrationHoldExpiry frame true) s =
      .next { s with arb := holdEnded s.arb frame { e with holdHost := none } }) ∧
    (e.holdDev = some h → h ≤ s.time → e.remote = [] → exec (.migrationHoldExpiry frame false) s =
      .next { s with arb := holdEnded s.arb frame { e with holdDev := none, remote := [] } })) ∧
  (∀ (s : State) (v x : Nat), s.halt = none → v < 32 →
    exec (.migreqMoveDone v x) s = .next { s with
      arb := (s.arb.map fun a => if a.frame = pageFrame x ∧ a.vf = v then { a with moved := true } else a).filter fun a =>
        !(a.frame == pageFrame x && a.moved && a.holdHost.isNone && a.holdDev.isNone) }) ∧
  (∀ (s : State) (r : MigReq) (e : ArbEntry), s.halt = none → s.migReqs.find? (fun q => q.id == r.id) = some r →
    r.waiting = false → e ∈ s.arb → e.frame = r.frame → (∀ a ∈ s.arb, a.frame = r.frame → a = e) →
    (e.hostWon = false →
      exec (.migrationRequest r.id) s = .next { s with migReqs := s.migReqs.filter fun q => q.id != r.id }) ∧
    (e.hostWon = true → migratable s r.entryPa r.frame = false →
      exec (.migrationRequest r.id) s = .next { s with
        migReqs := s.migReqs.filter fun q => q.id != r.id
        arb := s.arb.map fun a => if a.frame = r.frame then { e with holdDev := heldOn s.time e.holdDev } else a }) ∧
    ∀ old new, e.hostWon = true → migratable s r.entryPa r.frame = true → r.entryPa % 8 = 0 →
      paExists r.entryPa = true → s.badSectors r.entryPa 8 = [] → old = leNat (Memory.readN s.mem r.entryPa 8) →
      new = old + 1 + 8 * (3 - bits old 3 2) - 2 ^ 54 →
      ∃ t, exec (.migrationRequest r.id) s = .next t ∧ holdsBytes t.mem r.entryPa (leBytes 8 new) ∧
        sameOutside s.mem t.mem r.entryPa 8 ∧ t.migReqs = s.migReqs.filter (fun q => q.id != r.id) ∧
        t.arb = s.arb.map (fun a => if a.frame = r.frame then
          { e with holdDev := heldOn s.time e.holdDev, remote := e.remote ++ [(r.entryPa, new, old)] } else a) ∧
        t.wgs = s.wgs ∧ t.vfs = s.vfs) ∧
  (∀ (s : State) (v x frame : Nat) (e : ArbEntry), s.halt = none → v < 32 → frame = pageFrame x → e ∈ s.arb →
    e.frame = frame → (∀ a ∈ s.arb, a.frame = frame → a = e) →
    (e.hostWon = true → exec (.migreqRequest v x) s = .next { s with vfs := replied s v frame 1 }) ∧
    (e.hostWon = false → exec (.migreqRequest v x) s = .next { s with
      vfs := replied s v frame 2
      arb := s.arb.map fun a => if a.frame = frame then { e with holdHost := heldOn s.time e.holdHost } else a })) ∧
  ∀ (s : State) (v : Nat), s.halt = none →
    exec (.migrspRead v) s = .next { s with
      vfs := s.vfs.mapIdx fun j f => if j = v then { f with migrsp := f.migrsp.drop 1 } else f }

namespace Sys2Proof.Spec

/-- A request from the fabric, over no link of Gugar or under a number that no stored response has (R241). -/
def isNew (s : State) : Option (Nat × Nat) → Prop
  | none => True
  | some x => ∀ r ∈ s.responses, ¬(r.port = x.1 ∧ r.number = x.2)

/-- The new number of an atomic of another package (R192, R193, R241). -/
def fabricNew (op : FabOp) (sg : Bool) {w : Nat} (old x cmp : BitVec w) : Option (BitVec w) :=
  match op with
  | .add => some (old + x)
  | .min => some (least sg old x)
  | .max => some (most sg old x)
  | .and => some (old &&& x)
  | .or => some (old ||| x)
  | .xor => some (old ^^^ x)
  | .exch => some x
  | .fadd =>
    let a := Machine.Num.ofBits .f32 old.toNat
    let b := Machine.Num.ofBits .f32 x.toNat
    some (BitVec.ofNat w (rounded .f32 .rne 0 [a, b] (Machine.Num.add false a b)).1)
  | .cas => if old = cmp then some x else none

/-- No page that a snapshot protects meets the bytes, where it stood at the snapshot or stands now (R346). -/
def unprotected (s : State) (pa len : Nat) : Prop :=
  ∀ k ∈ s.launches, ∀ p ∈ k.snap, p.copy = none →
    (p.frame + p.size ≤ pa ∨ pa + len ≤ p.frame) ∧ (s.frameOf p + p.size ≤ pa ∨ pa + len ≤ s.frameOf p)

end Sys2Proof.Spec

/-- HOST_MEMORY_WRITE, FABRIC_RECEIVE and HOST_MEMORY_READ (R222, R241, R342, R343). The form of a request from the
fabric is the model's choice: log entry 97. -/
def Obligations.OutsideMemory : Prop :=
  (∀ (i : Instr) (s : State) (pa : Nat) (data : List Byte) (bad : Bool) (link : Option (Nat × Nat)),
    (i = .hostMemoryWrite pa data ∧ bad = false ∨
      i = .fabricReceive link (.write pa data) bad ∧ region pa = 0 ∧ isNew s link) →
    s.halt = none → Inv s → data ≠ [] → paExists pa = true → paExists (pa + data.length - 1) = true →
    (bad = true → region (pa + data.length - 1) = 0) → gate s pa = .ok →
    unprotected s pa data.length →
    (∀ a, pa / 32 ≤ a → a ≤ (pa + data.length - 1) / 32 → s.sectorBad a = false) →
    ∃ t, exec i s = .next t ∧ holdsBytes t.mem pa data ∧ sameOutside s.mem t.mem pa data.length ∧
      (∀ k, k < data.length → Map.get 0 t.pub ((pa + k) / 4) = s.time) ∧
      (bad = true → ∀ k, k < data.length → Map.get false t.poison ((pa + k) / 32) = true) ∧
      t.wgs = s.wgs ∧ t.loads = s.loads ∧ t.stores = s.stores) ∧
  (∀ (s : State) (port number : Nat) (req : FabReq) (bad : Bool), s.halt = none →
    (∃ r ∈ s.responses, r.port = port ∧ r.number = number) →
    ∃ t, exec (.fabricReceive (some (port, number)) req bad) s = .next t ∧ t.mem = s.mem ∧ t.wgs = s.wgs ∧
      t.loads = s.loads ∧ t.stores = s.stores ∧ t.responses = s.responses) ∧
  (∀ (s : State) (port number pa len cmp val : Nat) (kind : FabKind) (op : FabOp) (ty : Ty) (bad : Bool), s.halt = none → Inv s →
    isNew s (some (port, number)) → region pa = 0 → pa + len ≤ Config.localBytes → pa % len = 0 →
    (elemBits ty = 8 * len ∧ (len = 4 ∨ len = 8) ∨ len = 32 ∧ op = .cas) →
    (kind = .plain ∧ (Map.get false s.helped (pa / 32) = false ∨
      leNat (Memory.readN s.mem (32 * (pa / 32) + 24) 8) = 0) ∨ kind = .helped) →
    cmp < 2 ^ (8 * len) → val < 2 ^ (8 * len) → gate s pa = .ok → unprotected s pa len → s.badSectors pa len = [] →
    ∃ t, exec (.fabricReceive (some (port, number)) (.atom kind pa op ty len cmp val) bad) s = .next t ∧
      holdsBytes t.mem pa (match fabricNew op (signedTy ty) (BitVec.ofNat (8 * len) (leNat (Memory.readN s.mem pa len)))
          (BitVec.ofNat (8 * len) val) (BitVec.ofNat (8 * len) cmp) with
        | some v => leBytes len v.toNat
        | none => Memory.readN s.mem pa len) ∧
      sameOutside s.mem t.mem pa len ∧ (⟨port, number, Memory.readN s.mem pa len⟩ : Response) ∈ t.responses ∧
      t.wgs = s.wgs ∧ t.loads = s.loads ∧ t.stores = s.stores) ∧
  (∀ (s : State) (port number pa len cmp val : Nat) (op : FabOp) (ty : Ty) (bad : Bool), s.halt = none → Inv s →
    isNew s (some (port, number)) → region pa = 0 → pa + len ≤ Config.localBytes → pa % len = 0 →
    (len = 4 ∨ len = 8 ∨ len = 32) → gate s pa = .ok → unprotected s pa len → s.badSectors pa len = [] →
    Map.get false s.helped (pa / 32) = true →
    leNat (Memory.readN s.mem (32 * (pa / 32) + 24) 8) ≠ 0 →
    ∃ t, exec (.fabricReceive (some (port, number)) (.atom .plain pa op ty len cmp val) bad) s = .next t ∧
      t.mem = s.mem ∧ (⟨port, number, []⟩ : Response) ∈ t.responses ∧
      t.wgs = s.wgs ∧ t.loads = s.loads ∧ t.stores = s.stores) ∧
  ∀ (s : State) (pa len : Nat), s.halt = none → region pa = 0 → gate s pa = .ok → pa + len ≤ Config.localBytes → s.badSectors pa len = [] →
    exec (.hostMemoryRead pa len) s = .next s

namespace Sys2Proof.Spec

/-- CAP (R336): FAILS of the four dies, STATE, WARM, and the counts of stacks, fenced dies and dies in service. -/
def capFields (s : State) : Nat :=
  let fails (d : Nat) : Nat := ((s.dies[d]?).map Die.fails).getD 0 % 4
  2 ^ 32 * (fails 0 + 4 * fails 1 + 16 * fails 2 + 64 * fails 3) + 2 ^ 30 * s.bring.state +
    2 ^ 29 * (if s.bring.warm then 1 else 0) + 2 ^ 16 * s.bring.hbmStacks +
    2 ^ 12 * (s.dies.countP fun d => d.state == .fenced || d.state == .dead) +
    2 ^ 8 * (s.dies.countP fun d => d.state == .inService)

/-- The counter slots of a function (R310, R313, R330). -/
def slotsOf (s : State) (v : Nat) : Counters := if v = 32 then s.pf.ctrs else (s.vf v).ctrs

end Sys2Proof.Spec

/-- Cancels (R326), contexts (R311), event counters (R323), queues (R312) and registers (R310, R313, R333, R336, R339,
R353). What FRAMEB holds after a write that is not aligned is log entry 104. -/
def Obligations.HostRegisters : Prop :=
  (∀ (s : State) (v : Nat) (lvl : Level) (n : Nat), s.halt = none →
    exec (.hostSoftCancel v lvl n) s = .next { s with launches := afterCancel s v lvl n false fun _ => true }) ∧
  (∀ (s : State) (v : Nat) (lvl : Level) (n : Nat), s.halt = none → Inv s →
    ∃ t, exec (.hostHardCancel v lvl n) s = .next t ∧ t.launches = afterCancel s v lvl n true (fun _ => true) ∧
      t.mem = s.mem ∧ t.loads = s.loads ∧ t.stores = s.stores ∧ t.copies = s.copies ∧ t.tlb = s.tlb ∧ t.pf = s.pf ∧
      (∀ w ∈ s.wgs, (∀ k ∈ t.launches, k.id = w.launch → k.hard = false) → w ∈ t.wgs) ∧
      (∀ c ∈ t.cmds, c ∈ s.cmds ∧ ∀ w ∈ s.wgs, w.id = c.lane.wg → ∀ k ∈ t.launches, k.id = w.launch → k.hard = false) ∧
      ∀ w ∈ t.wgs, ∀ k ∈ t.launches, t.launch? w.launch = some k → k.hard = true →
        ∀ r n, (t.thread ⟨w.id, r, n⟩).alive = true →
          (⟨w.id, r, n⟩ : LaneRef) ∈ s.midStride w.core ∨ (t.thread ⟨w.id, r, n⟩).inStride = true) ∧
  (∀ (s : State) (v c k : Nat) (x : Dword), s.halt = none → v < 32 → c < 64 → k < 8 →
    exec (.ctxtWrite v c k x) s = .next { s with
      vfs := s.vfs.mapIdx fun j f => if j = v then
        { f with ctxt := Map.set 0#64 f.ctxt (8 * c + k)
                   (if k = 7 then x &&& 1#64 else if k = 5 ∨ k = 6 then 0#64 else x)
                 ctxGen := Map.set 0 f.ctxGen c (Map.get 0 f.ctxGen c + 1) } else f }) ∧
  (∀ (s : State) (v c : Nat) (x : Dword), s.halt = none → v < 32 → c < 4096 →
    exec (.evcWrite v c x) s = .next (counterSet s v c x)) ∧
  (∀ (s : State) (v : Nat) (x : Dword), s.halt = none → v < 32 → v < s.vfs.length → (s.vf v).nq.held = [] →
    exec (.nqtailWrite v x) s = .next { s with
      vfs := s.vfs.mapIdx fun j f => if j = v then { f with nq := { f.nq with tail := x.toNat % 2 ^ 32 } } else f }) ∧
  (∀ (s : State) (v : Nat) (x : Dword), s.halt = none → v < 32 →
    exec (.registerWrite v 0x38 x) s = .next { s with
      vfs := s.vfs.mapIdx fun j f => if j = v then { f with frameb := x.toNat / 4096 * 4096 } else f } ∧
    exec (.registerWrite v 0x40 x) s = .next { s with
      vfs := s.vfs.mapIdx fun j f => if j = v then { f with framesz := x.toNat } else f }) ∧
  (∀ (s : State) (fn o v c : Nat),
    (o % 8 ≠ 0 → s.hostReg fn o = 0) ∧
    (v < 32 → s.hostReg v 0x30 = 0 ∧ s.hostReg v 0x48 = 0 ∧ s.hostReg v 0x38 = (s.vf v).frameb ∧
      s.hostReg v 0x40 = (s.vf v).framesz ∧ s.hostReg v 0x20 = (s.vf v).nq.head ∧
      s.hostReg v 0x50 = (match (s.vf v).migrsp with
        | [] => 0
        | r :: _ => r.1 + r.2) ∧
      (c < 512 → s.hostReg v (0x1000 + 8 * c) = (Map.get 0#64 (s.vf v).ctxt c).toNat) ∧
      (c < 4096 → s.hostReg v (0x8000 + 8 * c) = (Map.get 0#64 (s.vf v).evc c).toNat)) ∧
    ((v < 32 ∨ v = 32) →
      s.hostReg v 0x00 = capFields s ∧ s.hostReg v 0x10 = (s.nq v).base ∧ s.hostReg v 0x18 = (s.nq v).size ∧
      s.hostReg v 0x20 = (s.nq v).head ∧ s.hostReg v 0x28 = (s.nq v).tail ∧
      (c < 4 → s.hostReg v (0x100 + 8 * c) = (slotsOf s v).ctl.getD c 0 ∧
        s.hostReg v (0x120 + 8 * c) = (slotsOf s v).cnt.getD c 0)) ∧
    s.hostReg 32 0x08 = s.pf.winbase ∧
    (∀ r, c < 2 → s.relays[c]? = some r →
      s.hostReg 32 (0x2000 + 256 * c) = r.rljob ∧ s.hostReg 32 (0x2008 + 256 * c) = r.rldest ∧
      s.hostReg 32 (0x2010 + 256 * c) = r.rlsess ∧ s.hostReg 32 (0x2018 + 256 * c) = r.rlrounds ∧
      s.hostReg 32 (0x2020 + 256 * c) = r.rlthr ∧ s.hostReg 32 (0x2028 + 256 * c) = 0 ∧
      s.hostReg 32 (0x2030 + 256 * c) = 2 ^ 32 * r.pages + (if r.refused then 4 else 0) + (match r.phase with
        | .idle => 0
        | .copying => 1
        | .draining | .sent => 2
        | .done => 3)) ∧
    (v < 32 → c < 64 → ∀ d, bit (s.hostReg 32 (0x4000 + 512 * v + 8 * c)) d = true ↔
      ∃ u ∈ s.dieUse, u.tag.vf = v ∧ u.tag.ctx = c ∧ bit u.mask d = true ∧
        (u.tag.gen = Map.get 0 (s.vf v).ctxGen c ∨ ∃ k ∈ s.launches, k.ctx.tag = u.tag)) ∧
    (c < 256 → s.hostReg 32 (0x1000 + 8 * c) = (Map.get 0#64 s.pf.svc c).toNat) ∧
    ∀ a, s.age[c]? = some a → c < 24 →
      s.hostReg 32 (0x3000 + 8 * c) = a.birth * 2 ^ 32 + a.meas * 2 ^ 16 + a.drift * 2 ^ 8 + a.cap) ∧
  ∀ (s : State) (x : Dword), s.halt = none →
    exec (.registerWrite 32 0x08 x) s = .next { s with
      pf := { s.pf with winbase := x.toNat / 2 ^ 23 % 2 ^ 29 * 2 ^ 23 + x.toNat % 2 } } ∧
    ∀ v, v < 32 →
      exec (.registerWrite 32 (0x1000 + 64 * v) x) s = .next { s with
        pf := { s.pf with svc := Map.set 0#64 s.pf.svc (8 * v) (BitVec.ofNat 64 (x.toNat % 2 ^ 24)) } } ∧
      (∀ k, k = 1 ∨ k = 2 → exec (.registerWrite 32 (0x1000 + 64 * v + 8 * k) x) s = .next { s with
        pf := { s.pf with svc := Map.set 0#64 s.pf.svc (8 * v + k) (BitVec.ofNat 64 (x.toNat % 2 ^ 32)) } }) ∧
      ∀ k, 3 ≤ k → k < 8 → exec (.registerWrite 32 (0x1000 + 64 * v + 8 * k) x) s = .next { s with
        pf := { s.pf with svc := Map.set 0#64 s.pf.svc (8 * v + k) 0#64 } }

namespace Sys2Proof.Spec

/-- The dies with one of them changed. -/
def oneDie (s : State) (n : Nat) (d : Die) : List Die := s.dies.mapIdx fun j x => if j = n then d else x

/-- Every die that is not fenced or dead is in service, and one is (R338). -/
def allServe (l : List Die) : Bool :=
  (l.all fun d => d.state == .inService || d.state == .fenced || d.state == .dead) &&
    l.any fun d => d.state == .inService

/-- STATE of CAP after dies change (R336, R338): full when all serve, and vector 0 of every function is then sent if it
was not full. -/
def afterTraining (s t : State) (dies : List Die) (was other : Nat) : Prop :=
  t.dies = dies ∧ t.bring.state = (if allServe dies then 2 else other) ∧
    t.msix = s.msix ++ (if allServe dies ∧ was ≠ 2 then (List.range 33).map fun fn => (fn, 0) else []) ∧
    t.wgs = s.wgs ∧ t.launches = s.launches ∧ t.mem = s.mem

/-- The module as a start leaves it (R337): at reset but for the schedule, device time and the model's own counts, what
a warm start keeps, the birth counts of the clusters, the fences with the counts of failed starts, and the host links. -/
def started (s : State) (warm : Bool) : State :=
  let r := State.reset
  { r with
    time := s.time, fresh := s.fresh, serial := s.serial, moves := s.moves
    mem := if warm then s.mem else [], chk := if warm then s.chk else [], poison := if warm then s.poison else []
    helped := if warm then s.helped else [], pub := if warm then s.pub else []
    age := (List.range 24).map fun c => { birth := Config.birthCount c % 65536, meas := 0, drift := 0, cap := 76 }
    dies := s.dies.map fun d => { d with state := if d.state = .fenced then .fenced else .untrained }
    bring := { r.bring with warm := warm, links := s.bring.links } }

end Sys2Proof.Spec

/-- START, DIE_ENTERS_SERVICE, TRAINING_FAILED, FENCE_CLEARED and PCIE_LINK_UP (R336 to R338). What a start keeps
beside the fences, FAILS and a warm memory is the model's choice: log entry 18; that STATE is failed with no die left is log
entry 114. -/
def Obligations.Starts : Prop :=
  (∀ (s : State) (warm : Bool), s.halt = none → exec (.start warm) s = .next (started s (warm && s.bring.lastOk))) ∧
  (∀ (s : State) (n : Nat) (d : Die), s.halt = none → s.dies[n]? = some d → d.state = .untrained →
    (∀ fn, fn < 33 → (s.nq fn).held = []) →
    ∃ t, exec (.dieEntersService n) s = .next t ∧
      afterTraining s t (oneDie s n { state := .inService, fails := 0 }) 1 1 ∧
      t.bring.hbmStacks = s.bring.hbmStacks + 2) ∧
  (∀ (s : State) (n : Nat) (d : Die) (dies : List Die), s.halt = none → s.dies[n]? = some d → d.state = .untrained →
    dies = oneDie s n { state := if 2 ≤ d.fails then .fenced else .leftOut, fails := min 3 (d.fails + 1) } →
    ∃ t, exec (.trainingFailed n) s = .next t ∧
      afterTraining s t dies s.bring.state (if dies.all fun d => d.state != .untrained && d.state != .inService then 3
        else s.bring.state)) ∧
  (∀ (s : State) (n : Nat) (d : Die), s.halt = none → s.dies[n]? = some d → d.state = .fenced →
    exec (.fenceCleared n) s = .next { s with dies := oneDie s n { state := .leftOut, fails := 0 } }) ∧
  ∀ (s : State) (k : Nat), s.halt = none → k < 2 → k ∉ s.bring.links →
    exec (.pcieLinkUp k) s = .next { s with bring := { s.bring with links := s.bring.links ++ [k] } }

/-- Errors (R343, R344), ageing (R339, R340), dead dies (R352) and kills (R354). Where an uncorrectable error lies is
a free choice: log entry 101. -/
def Obligations.ErrorsAndKills : Prop :=
  (∀ (s : State) (pa : Nat), s.halt = none → region pa = 0 → pa < Config.localBytes →
    ∃ u : State, exec (.uncorrectableError pa) s = .next (u.notifyPf 0x14 pa) ∧
      (u = { s with fresh := s.fresh + 1, poison := Map.set false s.poison (pa / 32) true } ∨
        ∃ k ∈ s.copies, k.line = pa / 128 ∧ u = { s with
          fresh := s.fresh + 1
          copies := s.copies.map fun c =>
            if c.holder == k.holder && c.line == k.line && !(c.bad.contains (pa / 32)) then
              { c with bad := c.bad ++ [pa / 32] }
            else c }) ∧
      ((∀ k ∈ s.copies, k.line ≠ pa / 128) → u.copies = s.copies)) ∧
  (∀ (s : State) (w : Workgroup) (k : Launch), s.halt = none → s.wg? w.id = some w → w.phase ≠ .swapped →
    s.launch? w.launch = some k → k.status = .done →
    ∃ t k', exec (.sramUncorrectableError w.id) s = .next t ∧ t.launch? w.launch = some k' ∧ k'.hard = true ∧
      k'.noPlace = true ∧ t.mem = s.mem ∧ t.wgs = s.wgs ∧
      (k.repl = false → k'.status = .contained ∧ k'.rollback = k.rollback) ∧
      (k.repl = true → k.rollbacks < 3 → k'.status = .done ∧ k'.rollback = some true) ∧
      (k.repl = true → 3 ≤ k.rollbacks → k'.status = .contained)) ∧
  (∀ (s : State) (c m drift cap : Nat) (a : Age), s.halt = none → s.age[c]? = some a → m < 65536 →
    drift = (if a.birth ≤ m then 0 else min 255 (1000 * (a.birth - m) / a.birth)) →
    cap = (if min a.cap (76 - (drift - 10) / 5) < 60 then 0 else min a.cap (76 - (drift - 10) / 5)) →
    ∃ t, exec (.ageingMeasure c m) s = .next t ∧
      t.age = s.age.mapIdx (fun j x => if j = c then { x with meas := m, drift := drift, cap := cap } else x) ∧
      (cap = a.cap → t.mem = s.mem ∧ t.pf = s.pf ∧ t.msix = s.msix) ∧
      (cap ≠ a.cap → hasRoom s s.pf.nq →
        t.pf.nq.head = (s.pf.nq.head + 1) % 2 ^ 32 ∧ t.msix = s.msix ++ [(32, 0)])) ∧
  (∀ (s : State) (i : Instr) (d : Nat) (x : Die), s.halt = none → (i = .dieDead d ∨ i = .blulysDeclareDead d) →
    s.dies[d]? = some x → x.state ≠ .dead →
    ∃ t, exec i s = .next t ∧ t.dies = oneDie s d { x with state := .dead } ∧
      (∀ c ∈ t.copies, c ∈ s.copies ∧ c.holder.onDie d = false) ∧
      (∀ e ∈ t.tlb, e ∈ s.tlb ∧ e.unit.onDie d = false) ∧ (∀ v ∈ t.tinvals, v.unit.onDie d = false) ∧
      (∀ u ∈ s.dieUse, bit u.mask d = true → u.tag ∈ t.kills) ∧
      ∀ w ∈ t.wgs, dieOf w.core = d → w.core < 192 → w.phase ≠ .swapped → ∀ q ∈ w.rigs, ∀ th ∈ q.threads,
        th.alive = false) ∧
  ∀ (s : State) (tag : CtxTag) (ids : List Nat), s.halt = none → tag ∈ s.kills →
    ids = (s.launches.filter fun k => k.ctx.tag == tag).map Launch.id →
    (∀ k ∈ s.launches, k.ctx.tag = tag → k.rcd.crec = 0 ∧ k.snap = []) →
    (∀ w ∈ s.wgs, w.launch ∈ ids → ∀ q ∈ w.rigs, ∀ th ∈ q.threads, th.alive = false) →
    ∃ t, exec (.kill tag.vf tag.ctx tag.gen) s = .next t ∧ t.kills = s.kills.filter (fun k => k != tag) ∧
      t.loads = s.loads.filter (fun p => !(ids.contains p.launch)) ∧
      t.stores = s.stores.filter (fun p => !(ids.contains p.launch)) ∧ (∀ c ∈ t.cmds, c.launch ∉ ids) ∧
      (∀ w ∈ t.wgs, w.launch ∉ ids) ∧ ∀ k ∈ t.launches, k.id ∉ ids

namespace Sys2Proof.Spec

/-! Turns and launches (R314 to R329, R345, R347). -/

/-- The turns with one of them changed. -/
def oneTurn (s : State) (n : Nat) (f : Turn → Turn) : List Turn := s.turns.mapIdx fun j t => if j = n then f t else t

/-- The function after `v` in ascending order, wrapping, that the cluster may serve and that has work: ready
launches, or workgroups swapped from the cluster (R328). -/
def follows (s : State) (c : Nat) (v : Option Nat) (u : Nat) : Prop :=
  let may (u : Nat) : Prop := (Map.get 0#64 s.pf.svc (8 * u)).getLsbD c = true ∧ c < 24 ∧
    (Map.get 0#64 s.pf.svc (8 * u + 1)).toNat % 2 ^ 32 ≠ 0 ∧
    ((∃ k ∈ s.launches, k.vf = u ∧ (k.stage = .running ∨ k.stage = .snapshotting)) ∨
      ∃ w ∈ s.wgs, w.phase = .swapped ∧ w.core / 8 = c ∧ ∃ k, s.launch? w.launch = some k ∧ k.vf = u)
  let start := match v with
    | some a => a + 1
    | none => 0
  ∃ i, i < 32 ∧ u = (start + i) % 32 ∧ may u ∧ ∀ j, j < i → ¬may ((start + j) % 32)

/-- Ticks of a slice and of a budget (R17, R328, R329). -/
def sliceTicks (s : State) (v : Nat) : Nat := 2000 * ((Map.get 0#64 s.pf.svc (8 * v + 1)).toNat % 2 ^ 32)
def budgetTicks (s : State) (v : Nat) : Nat := 2000 * ((Map.get 0#64 s.pf.svc (8 * v + 2)).toNat % 2 ^ 32)

end Sys2Proof.Spec

/-- SLICE_END, DRAIN_BUDGET_EXPIRY and DRAIN_END (R328, R329). That a ready launch whose workgroups have all been placed
still counts as work, and the account of the overrun, are the model's readings: log entries 71 and 70. -/
def Obligations.ClusterTurns : Prop :=
  (∀ (s : State) (c u debt : Nat) (x : Turn), s.halt = none → s.turns[c]? = some x → x.vf = none →
    follows s c none u → (∀ d ∈ x.drains, d.vf ≠ u) → debt = min (Map.get 0 x.owed u) (sliceTicks s u) →
    ∃ t, exec (.sliceEnd c) s = .next t ∧ t.turns = oneTurn s c (fun x => { x with
      vf := some u, stop := s.time + (sliceTicks s u - debt)
      owed := Map.set 0 x.owed u (Map.get 0 x.owed u - debt) }) ∧ t.mem = s.mem ∧ t.wgs = s.wgs) ∧
  (∀ (s : State) (c a u debt : Nat) (x : Turn), s.halt = none → s.turns[c]? = some x → x.vf = some a →
    x.stop ≤ s.time → follows s c (some a) u → u ≠ a → (∀ d ∈ x.drains, d.vf ≠ u ∧ d.vf ≠ a) →
    debt = min (Map.get 0 x.owed u) (sliceTicks s u) →
    ∃ t, exec (.sliceEnd c) s = .next t ∧ t.turns = oneTurn s c (fun x => { x with
      vf := some u, stop := s.time + (sliceTicks s u - debt)
      owed := Map.set 0 x.owed u (Map.get 0 x.owed u - debt)
      drains := x.drains ++ [⟨a, s.time + budgetTicks s a, false⟩] }) ∧ t.mem = s.mem ∧ t.wgs = s.wgs) ∧
  (∀ (s : State) (c v : Nat) (x : Turn) (d : Drain), s.halt = none → s.turns[c]? = some x →
    x.drains.find? (fun d => d.vf == v) = some d → d.budgetEnd ≤ s.time → d.passed = false →
    exec (.drainBudgetExpiry c v) s = .next { s with
      turns := oneTurn s c fun x => { x with
        drains := x.drains.map fun d => if d.vf = v then { d with passed := true } else d }
      launches := s.launches.map fun k =>
        if (s.wgs.any fun w => w.launch == k.id && w.phase != .swapped && w.core / 8 == c &&
            ((s.launch? w.launch).map fun k => k.vf == v).getD false) && k.repl && k.status == .done &&
            k.rollback.isNone then
          { k with rollback := some false, hard := true, noPlace := true }
        else k }) ∧
  ∀ (s : State) (c v : Nat) (x : Turn) (d : Drain), s.halt = none → s.turns[c]? = some x →
    x.drains.find? (fun d => d.vf == v) = some d →
    (∀ w ∈ s.wgs, w.phase = .swapped ∨ w.core / 8 ≠ c ∨ ∀ k, s.launch? w.launch = some k → k.vf ≠ v) →
    ∃ t, exec (.drainEnd c v) s = .next t ∧ t.turns = oneTurn s c (fun x => { x with
      owed := Map.set 0 x.owed v (Map.get 0 x.owed v + (s.time - d.budgetEnd))
      drains := x.drains.filter fun d => d.vf != v }) ∧ t.mem = s.mem ∧ t.wgs = s.wgs

namespace Sys2Proof.Spec

/-- Slot `i` of queue `q` of the window of a function (R313, R314): 256 bytes. -/
def windowSlot (s : State) (v q i : Nat) : Nat :=
  s.pf.winbase / 2 ^ 23 % 2 ^ 29 * 2 ^ 23 + 2 ^ 18 * v + 4096 * q + 256 * i

/-- The armed record at the head of queue `q` of a function is taken (R314): `raw` is the record, `f` its fields, `s1` the
state once it is disarmed, and `s2` that with its queue entry, whose completion record counts with a valid context alone. -/
structure Takes (s : State) (v q i slot : Nat) (raw : List Byte) (f : LaunchRec) (s1 s2 : State) : Prop where
  runs : s.halt = none ∧ s1.halt = none
  inv : Inv s
  bound : v < 32 ∧ v < s.vfs.length ∧ q < 64
  serves : ∃ d ∈ s.dies, d.state = .inService
  head : i = Map.get 0 (s.vf v).heads q
  armed : s.armed.find? (fun a => a.vf == v && a.queue == q && a.idx == i) = some ⟨v, q, i, slot⟩
  place : slot % 256 = 0 ∧ paExists slot = true ∧ gate s slot = .ok
  byte : Memory.read s.mem (slot + 255) = 0xA5#8
  room : s.queueUse v q < 64
  sound : s.badSectors slot 256 = []
  bytes : raw = Memory.readN s.mem slot 256
  fields : f = { recFields (leNat raw) with
    queue := q, crec := if s.ctxValid v (recFields (leNat raw)).ctx then (recFields (leNat raw)).crec else 0 }
  disarmed : s1 = (s.hwWrite false false (slot + 255) [0#8]).2
  entry : s2 = { s1 with
    vfs := s1.vfs.mapIdx (fun j x => if j = v then { x with heads := Map.set 0 x.heads q ((i + 1) % 16) } else x)
    serial := s1.serial + 1, launches := s1.launches ++ [taken s s1.serial v f raw] }

/-- From the admission of a launch `k` in `s` the check that fails gives a status and its code; `s3` is the state after the
reads, and `k'` the launch, whose shape may have been taken from the image (R320). -/
def FailsCheck (s : State) (k : Launch) (s3 : State) (k' : Launch) (st : LStatus) (code : Nat) : Prop :=
  let perm := BitVec.ofNat 64 k.rcd.pkperm
  let s0 := s.countDie k.id
  s3.halt = none ∧
  (k.rcd.part ≠ 0 ∧ ¬fitsShape k.rcd ∧ s3 = s0 ∧ k' = k ∧ st = .refusedShape ∧ code = 2 ∨
  (k.rcd.part = 0 ∨ fitsShape k.rcd) ∧ k' = k ∧ st = .refusedImage ∧ code = 3 ∧
    (s0.dispBytes k.ctx perm .exec k.rcd.kimg 64 = (s3, .deny) ∨
      ∃ d, s0.dispBytes k.ctx perm .exec k.rcd.kimg 64 = (s3, .ok d) ∧ bits (leNat d) 0 32 ≠ 0x574C4B49) ∨
  ∃ s1 s2 f img, s0.admitShape k = (s1, .ok f) ∧ k' = { k with rcd := f } ∧
    (s1.setLaunch k.id fun x => { x with rcd := f }).admitImage { k with rcd := f } = (s2, .ok img) ∧
    s2.dispBytes k.ctx perm .read k.rcd.cowl (16 * k.rcd.ncow) = (s3, .deny) ∧ st = .refusedRecord ∧ code = 1)

end Sys2Proof.Spec

/-- Arming (R313, R314), LAUNCH_RECORD_TAKEN (R314) and ADMISSION_RESUME (R321), with the refusals of R320. That a record
is taken where its window lay as it was armed is log entry 94. -/
def Obligations.RecordsAdmitted : Prop :=
  (∀ (s : State) (v q i slot : Nat), s.halt = none → Inv s → v < 32 → q < 64 → i < 16 → s.pf.winbase % 2 = 1 →
    slot = windowSlot s v q i → paExists (slot + 255) = true → gate s (slot + 255) = .ok →
    unprotected s (slot + 255) 1 → s.sectorBad ((slot + 255) / 32) = false →
    ∃ t, exec (.hostMemoryWrite (slot + 255) [0xA5#8]) s = .next t ∧ ⟨v, q, i, slot⟩ ∈ t.armed ∧
      Memory.read t.mem (slot + 255) = 0xA5#8) ∧
  (∀ (s s1 s2 : State) (v q i slot : Nat) (raw : List Byte) (f : LaunchRec),
    Takes s v q i slot raw f s1 s2 →
    Memory.read s1.mem (slot + 255) = 0#8 ∧
    (∀ (t : State) (f' : LaunchRec) (img : Nat × Nat × Nat × Nat × Nat) (lists : List (Nat × Nat) × List Byte),
      fitsRecord (leNat raw) (some q) → s.ctxValid v f.ctx = true →
      Admits s2 s1.serial (taken s s1.serial v f raw) t f' img lists →
      ∃ u, exec (.launchRecordTaken v q) s = .next u ∧
        u.launch? s1.serial = some (admitted t (taken s s1.serial v f raw) f' img lists) ∧
        u.mem = t.mem ∧ Map.get 0 (u.vf v).heads q = (i + 1) % 16 ∧ u.wgs = s.wgs) ∧
    (¬fitsRecord (leNat raw) (some q) ∨ s.ctxValid v f.ctx = false →
      canEnd (turnedDown s2 s1.serial .refusedRecord) (taken s s1.serial v f raw) →
      ∃ u, exec (.launchRecordTaken v q) s = .next u ∧
        Refuses s2 (taken s s1.serial v f raw) .refusedRecord 1 u ∧
        Map.get 0 (u.vf v).heads q = (i + 1) % 16 ∧ u.wgs = s.wgs) ∧
    ∀ (s3 : State) (k : Launch) (st : LStatus) (code : Nat),
      fitsRecord (leNat raw) (some q) → s.ctxValid v f.ctx = true →
      FailsCheck s2 (taken s s1.serial v f raw) s3 k st code → canEnd (turnedDown s3 s1.serial st) k →
      ∃ u, exec (.launchRecordTaken v q) s = .next u ∧ Refuses s3 k st code u ∧
        Map.get 0 (u.vf v).heads q = (i + 1) % 16 ∧ u.wgs = s.wgs) ∧
  ∀ (s : State) (k : Launch), s.halt = none → s.launch? k.id = some k → (∀ x ∈ s.launches, x.id = k.id → x = k) →
    k.stage = .admitting → k.noPlace = false →
    (∀ (t : State) (f : LaunchRec) (img : Nat × Nat × Nat × Nat × Nat) (lists : List (Nat × Nat) × List Byte),
      Admits s k.id k t f img lists →
      ∃ u, exec (.admissionResume k.id) s = .next u ∧ u.launch? k.id = some (admitted t k f img lists) ∧
        u.wgs = s.wgs ∧ u.mem = t.mem) ∧
    ∀ (s3 : State) (k' : Launch) (st : LStatus) (code : Nat),
      FailsCheck s k s3 k' st code → k.status = .done → k.cause = 0 → k.wgdone = 0 → k.snap = [] → k.snapAt = none →
      canEnd (turnedDown s3 k.id st) k' →
      ∃ u, exec (.admissionResume k.id) s = .next u ∧ Refuses s3 k' st code u ∧ u.wgs = s.wgs

namespace Sys2Proof.Spec

/-- The graph, phase and job counters of a launch, and EVCTR (R322, R323). -/
def countersOf (k : Launch) : List Nat :=
  ([k.rcd.graph % 4096, k.rcd.phase % 4096, k.rcd.job % 4096].filter fun n => decide (n ≠ 4095)) ++
    (if k.rcd.evctr = 0xFFFF then [] else [k.rcd.evctr])

/-- Counters raised by one in turn. -/
def raised (s : State) (v : Nat) : List Nat → State
  | [] => s
  | c :: r => raised (counterSet s v c (Map.get 0#64 (s.vf v).evc c + 1#64)) v r

/-- A launch leaves its queue, with its marks of pre-emption (R322, R325). -/
def gone (s : State) (id : Nat) : State :=
  { s with launches := s.launches.filter fun k => k.id != id, marks := s.marks.filter fun m => m.launch != id }

end Sys2Proof.Spec

/-- LAUNCH_END and LAUNCH_END_RESUME (R322, R323). -/
def Obligations.LaunchesEnd : Prop :=
  (∀ (i : Instr) (s : State) (k : Launch), s.halt = none → s.launch? k.id = some k → k.status = .done →
    k.quiet = false → k.snap = [] → k.snapAt = none → k.rcd.crec = 0 →
    (i = .launchEnd k.id ∧ k.stage = .running ∧ k.nextWg = k.rcd.gx * k.rcd.gy * k.rcd.gz ∧ k.rollback = none ∧
        (∀ w ∈ s.wgs, w.launch ≠ k.id) ∧ k.ctx.tag ∉ s.kills ∨
      i = .launchEndResume k.id ∧ k.stage = .ending) →
    exec i s = .next (gone (raised (ending s k.id) k.vf (countersOf k)) k.id)) ∧
  ∀ (s s1 : State) (k : Launch) (p : Place) (q : Nat), s.halt = none → Inv s → s.launch? k.id = some k →
    k.status = .done → k.snap = [] → k.snapAt = none → k.rcd.crec % 16 = 0 → k.rcd.crec ≠ 0 → k.ctx.dbm = 0 → k.stage = .running →
    k.nextWg = k.rcd.gx * k.rcd.gy * k.rcd.gz → k.rollback = none → (∀ w ∈ s.wgs, w.launch ≠ k.id) →
    k.ctx.tag ∉ s.kills →
    translate (ending s k.id) k.ctx (.l2 0) 0 none (BitVec.ofNat 64 k.rcd.pkperm) .write k.rcd.crec = (s1, .ok p q) →
    s1.halt = none → paExists p.addr = true → s1.badSectors p.addr 16 = [] → leafFit s1 p →
    ∃ t, exec (.launchEnd k.id) s = .next t ∧ (∀ x ∈ t.launches, x.id ≠ k.id) ∧
      Memory.readN t.mem p.addr 16 = [0#8, 0#8, 0#8] ++ leBytes 5 k.wgdone ++ List.replicate 8 0#8 ∧
      sameOutside (dirtied s1 p) t.mem p.addr 16

namespace Sys2Proof.Spec

/-- A launch that a rollback puts back at the head of its queue (R347). -/
def rolledBack (s : State) (k : Launch) (counted : Bool) (order : Nat) : Launch :=
  { k with
    snap := [], snapTracks := [], rcd := k.asTaken, nextWg := 0, wgdone := 0, noPlace := false, hard := false
    rollback := none, rollbacks := k.rollbacks + (if counted then 1 else 0), order := order, stage := .admitting
    watches := [], admitted := s.time }

end Sys2Proof.Spec

/-- SNAPSHOT (R345) and ROLLBACK (R347). The bytes that a list takes in the pool are log entry 9. -/
def Obligations.SnapshotAndRollback : Prop :=
  (∀ (s s0 s1 : State) (k : Launch) (va pa n e a : Nat), s.halt = none → Inv s → s.launch? k.id = some k →
    k.stage = .snapshotting → s.snapPages k.ctx k.regions [] = (s0, .ok [(va, pa, n)]) →
    s0.snapPlace k 1 = some (a, s1) → e = s1.read64 pa →
    bit e 1 = true → bits e 52 2 ≠ 1 → paExists pa = true → s1.badSectors pa 8 = [] →
    ∃ t, exec (.snapshot k.id) s = .next t ∧ Memory.readN t.mem pa 8 = leBytes 8 (e - 2) ∧
      sameOutside s1.mem t.mem pa 8 ∧
      t.launch? k.id = some { k with
        snap := [⟨va, pa, n, bits e 12 40 * 4096, none, false⟩], snapAt := some a
        snapTracks := k.snapTracks ++ [s1.serial], stage := .running } ∧
      t.snapMarks = s.snapMarks.filter (fun m => m.2 != k.id) ++ [(bits e 12 40 * 4096, k.id)] ∧ t.wgs = s.wgs) ∧
  ∀ (s s1 t : State) (k : Launch) (counted : Bool) (f : LaunchRec) (img : Nat × Nat × Nat × Nat × Nat)
    (lists : List (Nat × Nat) × List Byte) (order : Nat),
    s.halt = none → s.launch? k.id = some k → k.rollback = some counted → k.snap = [] →
    (∀ w ∈ s.wgs, w.launch ≠ k.id ∧ ∀ x ∈ s.launches, x.id = w.launch → x.hard = false) →
    (∀ c ∈ s.cmds, c.launch ≠ k.id) → (∀ p ∈ s.loads, p.launch ≠ k.id) → (∀ q ∈ s.stores, q.launch ≠ k.id) →
    (∀ m ∈ s.ringMsgs, m.launch ≠ k.id) →
    order = ((s.launches.filter fun x => x.vf == k.vf && x.rcd.queue == k.rcd.queue).map Launch.order).foldl min
      k.order →
    s1 = { s with
      fresh := s.fresh + 1, marks := s.marks.filter fun m => m.launch != k.id
      launches := rolledBack s k counted order :: s.launches.filter fun x => x.id != k.id } →
    Admits s1 k.id (rolledBack s k counted order) t f img lists →
    ∃ u, exec (.rollback k.id) s = .next u ∧
      u.launch? k.id = some (admitted t (rolledBack s k counted order) f img lists) ∧ u.wgs = s.wgs ∧
      u.marks = s.marks.filter fun m => m.launch != k.id

namespace Sys2Proof.Spec

/-- A core holds the kernel of a launch (R27). -/
def holdsKernel (s : State) (c : Nat) (k : Launch) : Prop :=
  ∃ x, some x ∈ (s.core c).kslots ∧ x.kimg = k.rcd.kimg

/-- A launch of the job that a relay moves (R333). -/
def ofJob (r : Relay) (k : Launch) : Prop := k.rcd.job = bits r.rljob 0 32 ∧ k.vf = bits r.rljob 32 5

/-- The workgroups that hold slots of a core; one swapped off has freed its share (R21). -/
def residents (s : State) (c : Nat) : List Workgroup := s.wgs.filter fun w => w.core == c && w.phase != .swapped

/-- Rigs of a workgroup of a record (R24, R349). -/
def rigsOf (f : LaunchRec) : Nat := if f.prot then (f.tpw + 31) / 32 else (f.tpw + 63) / 64

/-- The records of the launches of some workgroups, and the sum over them of a quantity (R21). -/
def recsOf (s : State) (ws : List Workgroup) : List LaunchRec :=
  ws.filterMap fun w => (s.launch? w.launch).map Launch.rcd
def demand (s : State) (ws : List Workgroup) (q : LaunchRec → Nat) : Nat := ((recsOf s ws).map q).sum

/-- `n` further workgroups, each with `each` of a quantity, stay within a total. -/
def within (used each n total : Nat) : Prop := each = 0 ∨ used + n * each ≤ total

/-- A core that holds the workgroups `ws` and the grid tables of the launches `grids` can take `n` workgroups more of a
launch (R21): one partition word, four kernels, four grid tables, and the four sums. -/
def fitsBeside (s : State) (k : Launch) (ws : List Workgroup) (grids : List Nat) (n : Nat) : Prop :=
  let f := k.rcd
  (∀ r ∈ recsOf s ws, r.part = f.part) ∧
  ((recsOf s ws).map LaunchRec.kimg ++ [f.kimg]).eraseDups.length ≤ 4 ∧
  (grids ++ if f.gridt = 0 then [] else [k.id]).eraseDups.length ≤ 4 ∧
  within (demand s ws fun r => rigsOf r * r.nreg) (rigsOf f * f.nreg) n (64 * bits f.part 0 7) ∧
  within (demand s ws LaunchRec.loftb) f.loftb n (16384 * bits f.part 7 7) ∧
  within (demand s ws fun r => rigsOf r * r.nacc) (rigsOf f * f.nacc) n (bits f.part 14 7 / 2) ∧
  within (demand s ws rigsOf) (rigsOf f) n 128

/-- A core that may take new workgroups of a function: of a die in service, not fenced, in a cluster whose cap is above
zero, where the function has its turn (R324, R328, R338, R340, R351). -/
def coreServes (s : State) (c v : Nat) : Prop :=
  c < 192 ∧ (s.core c).fenced = false ∧ (s.dies[c / 48]?).map Die.state = some .inService ∧
    (∃ a, s.age[c / 8]? = some a ∧ 0 < a.cap) ∧ ∃ x, s.turns[c / 8]? = some x ∧ x.vf = some v

/-- A ready launch has workgroups to place (R322, R324, R354), and the stores before its first one have completed (R345). -/
def hasWork (s : State) (k : Launch) : Prop :=
  k.stage = .running ∧ k.noPlace = false ∧ k.nextWg < k.rcd.gx * k.rcd.gy * k.rcd.gz ∧ k.ctx.tag ∉ s.kills ∧
    ∀ i ∈ k.snapTracks, ∀ t ∈ s.tracks, t.id = i → s.trackDone .sys t = true

/-- No relay holds a launch back (R334): none has sent its job, and one that drains the job lets the phases go on that ran
as the drain began. -/
def relayLets (s : State) (k : Launch) : Prop :=
  ∀ r ∈ s.relays, ofJob r k → r.phase ≠ .sent ∧ (r.phase = .draining → k.rcd.phase ∈ r.phases)

/-- A core can take a workgroup of a launch now (R20, R21, R324, R325). -/
def mayTake (s : State) (c : Nat) (k : Launch) : Prop :=
  hasWork s k ∧ relayLets s k ∧ coreServes s c k.vf ∧ (∀ m ∈ s.marks, m.core = c → k.id ∉ m.victims) ∧
    fitsBeside s k (residents s c) (s.core c).grids 1

/-- The launch that a core takes a workgroup of (R324): of the highest PRIO, and of these the earliest admitted; one that a
rollback has put back at the head of its queue goes before the others of its order (R329, R347). -/
def chosen (s : State) (c : Nat) (k : Launch) : Prop :=
  ∃ xs ys, s.launches = xs ++ k :: ys ∧ mayTake s c k ∧
    (∀ l ∈ xs, mayTake s c l → l.rcd.prio < k.rcd.prio ∨ l.rcd.prio = k.rcd.prio ∧ k.order < l.order) ∧
    ∀ l ∈ ys, mayTake s c l → l.rcd.prio < k.rcd.prio ∨ l.rcd.prio = k.rcd.prio ∧ k.order ≤ l.order

/-- The victims of a launch on a core (R325): the launches of its function of lower PRIO that hold workgroups there. -/
def victimsOf (s : State) (k : Launch) (c : Nat) : List Launch :=
  s.launches.filter fun v =>
    v.vf == k.vf && decide (v.rcd.prio < k.rcd.prio) && (residents s c).any fun w => w.launch == v.id

/-- What a core holds once its victims have drained: workgroups, and grid tables of launches with a workgroup of the core
left, one swapped off included. -/
def leftOn (s : State) (k : Launch) (c : Nat) : List Workgroup :=
  (residents s c).filter fun w => !((victimsOf s k c).any fun v => v.id == w.launch)
def gridsLeft (s : State) (k : Launch) (c : Nat) : List Nat :=
  (s.core c).grids.filter fun g => !((victimsOf s k c).any fun v => v.id == g) ||
    s.wgs.any fun w => w.core == c && w.phase == .swapped && w.launch == g

/-- A core qualifies for a mark (R325). -/
def qualified (s : State) (k : Launch) (c : Nat) : Prop :=
  coreServes s c k.vf ∧ victimsOf s k c ≠ [] ∧ fitsBeside s k (leftOn s k c) (gridsLeft s k c) 1

/-- The order in which cores are marked (R325): by the highest PRIO among their victims, lowest first, then by number. -/
def topPrio (s : State) (k : Launch) (c : Nat) : Nat := ((victimsOf s k c).map fun v => v.rcd.prio).foldl max 0
def sooner (s : State) (k : Launch) (c d : Nat) : Prop :=
  topPrio s k c < topPrio s k d ∨ topPrio s k c = topPrio s k d ∧ c < d

/-- A thread as a placement starts it (R106, R224, R357), at the bay cycle `a`. Its read floor is the time of the acquire
of its launch's dependences (log entry 100), its latest publication time zero (log entry 3). -/
def startThread (k : Launch) (r n a : Nat) : Thread :=
  let tid := (if k.rcd.prot then 32 else 64) * r + (if k.rcd.prot then n / 2 else n)
  if tid < k.rcd.tpw then
    { Thread.absent with
      life := .running, pc := BitVec.ofNat 64 ((k.rcd.kimg + k.codeOfs + k.entry) % 2 ^ 64)
      lfsr := lfsrSeed k.rcd.seed tid k.nextWg, age := a, readfloor := k.readyAt }
  else { Thread.absent with age := a }

/-- A workgroup stands in no bay of a core. -/
def offCore (s : State) (wg c : Nat) : Prop :=
  ∀ y ∈ (s.core c).bays, (∀ r, some (wg, r) ∉ y.active ∧ some (wg, r) ∉ y.pending) ∧ ∀ l ∈ y.inGroups, l.wg ≠ wg

end Sys2Proof.Spec

/-- WORKGROUP_PLACE (R26, R324, R357), WORKGROUP_COMPLETE (R162, R224) and PREEMPT (R325). The publication time at
placement is log entry 3, the read floor log entry 100, the victims of a mark log entry 79. -/
def Obligations.Placement : Prop :=
  (∀ (s : State) (c : Nat) (k : Launch), s.halt = none → Inv s →
    chosen s c k → holdsKernel s c k → s.launch? k.id = some k →
    ∃ t w, exec (.workgroupPlace k.id c) s = .next t ∧ t.wg? s.serial = some w ∧ w.launch = k.id ∧
      w.wgid = k.nextWg ∧ w.core = c ∧ w.loft = [] ∧ w.live = [] ∧ w.chans = [] ∧ w.replay = [] ∧
      w.pkperm = BitVec.ofNat 64 k.rcd.pkperm ∧ w.phase = .running ∧ w.rigs.length = rigsOf k.rcd ∧
      (∀ q ∈ w.rigs, q.tok = [] ∧ q.aset = 0#32 ∧ q.rowprog = 0#32) ∧
      (∀ r n, r < rigsOf k.rcd → n < 64 → ∃ a, t.thread ⟨s.serial, r, n⟩ = startThread k r n a) ∧
      (∀ m, m ≠ s.serial → t.wg? m = s.wg? m) ∧
      t.launch? k.id = some { k with nextWg := k.nextWg + 1 } ∧
      (k.rcd.gridt ≠ 0 → c < s.cores.length → k.id ∈ (t.core c).grids) ∧ t.mem = s.mem) ∧
  (∀ (s : State) (c id : Nat), s.halt = none → (∀ k, chosen s c k → k.id ≠ id) →
    exec (.workgroupPlace id c) s = .next { s with fresh := s.fresh + 1 }) ∧
  (∀ (s : State) (w : Workgroup) (k : Launch), s.halt = none → noHard s → s.wg? w.id = some w → w.phase = .running →
    (∀ q ∈ w.rigs, ∀ th ∈ q.threads, th.alive = false) → (∀ p ∈ s.loads, p.lane.wg ≠ w.id) →
    (∀ d ∈ s.cmds, d.lane.wg ≠ w.id) → (∀ m ∈ s.ringMsgs, m.lane.wg ≠ w.id) → w.replay = [] → w.again = [] →
    (∀ q ∈ s.stores, q.lane.wg = w.id → q.place.loft = true) →
    (∀ k ∈ s.tracks, k.lane.map LaneRef.wg = some w.id → s.trackDone .sys k = true) →
    w.ended = false → s.launch? w.launch = some k →
    ∃ t, exec (.workgroupComplete w.id) s = .next t ∧ (∀ v ∈ t.wgs, v.id ≠ w.id) ∧
      (∀ n, n ≠ w.id → t.wg? n = s.wg? n) ∧ offCore t w.id w.core ∧
      t.launch? w.launch = some { k with wgdone := k.wgdone + 1 } ∧ t.mem = s.mem) ∧
  ∀ (s : State) (k : Launch) (cs : List Nat) (n : Nat → Nat), s.halt = none → s.launch? k.id = some k →
    hasWork s k → (∀ c, ¬mayTake s c k) → (∀ m ∈ s.marks, m.launch ≠ k.id) → 0 < k.rcd.tpw → k.rcd.prio < 8 →
    (∀ c ∈ cs, qualified s k c ∧ fitsBeside s k (leftOn s k c) (gridsLeft s k c) (n c) ∧
      ¬fitsBeside s k (leftOn s k c) (gridsLeft s k c) (n c + 1)) →
    cs.Pairwise (sooner s k) → (∀ d, qualified s k d → d ∉ cs → ∀ c ∈ cs, sooner s k c d) →
    (k.rcd.gx * k.rcd.gy * k.rcd.gz - k.nextWg ≤ (cs.map n).sum ∨ ∀ d, qualified s k d → d ∈ cs) →
    (cs ≠ [] → (cs.dropLast.map n).sum < k.rcd.gx * k.rcd.gy * k.rcd.gz - k.nextWg) →
    exec (.preempt k.id) s = .next { s with
      marks := s.marks ++ cs.map fun c => ⟨c, k.id, (victimsOf s k c).map Launch.id⟩ }

namespace Sys2Proof.Spec

/-- A section of a frame: TAG, VER and payload; its bytes (R327). -/
def partBytes (x : Nat × Nat × List Byte) : List Byte :=
  leBytes 2 x.1 ++ leBytes 2 x.2.1 ++ leBytes 4 x.2.2.length ++ x.2.2

/-- The 32 bytes of an entry of a replay list (R306): lane, rig and kind, the instruction word of an INSTR entry, the
address, and a datum of at most 8 bytes. -/
def entryBytes (r : Replay) : List Byte :=
  leBytes 1 r.lane ++ [BitVec.ofNat 8 (r.rig + 16 * (match r.kind with
    | .instr => 0
    | .spill => 1
    | .refill => 2
    | .tframe => 3
    | .cvtxe => 4))] ++ List.replicate 6 0#8 ++ leBytes 8 (if r.kind = .instr then r.word.toNat else 0) ++
    leBytes 8 r.addr ++ (if r.data.length ≤ 8 then r.data ++ List.replicate (8 - r.data.length) 0#8 else List.replicate 8 0#8)

/-- The tags of a frame in their order (R327): with the loft and the tile sets where the launch has them. -/
def frameTags (loft acc : Nat) : List Nat :=
  [1, 2, 3, 4] ++ (if loft = 0 then [] else [5]) ++ (if acc = 0 then [] else [6]) ++ [7, 8, 9, 0xFF]

/-- The sections are those of a frame of a workgroup whose launch has `loft` bytes of loft and `acc` tile sets, with a
replay list: in the order of R327, THREAD in version 2 and the others in version 1, each a multiple of 8 bytes long. -/
def isFrame (parts : List (Nat × Nat × List Byte)) (loft acc : Nat) (replay : List Replay) : Prop :=
  parts.map Prod.fst = frameTags loft acc ∧
    ∀ x ∈ parts, x.2.1 = (if x.1 = 2 then 2 else 1) ∧ x.2.2.length % 8 = 0 ∧
      (x.1 = 7 → x.2.2 = replay.flatMap entryBytes) ∧ (x.1 = 0xFF → x.2.2 = [])

end Sys2Proof.Spec

/-- FAULT_SWAP (R40, R181, R327) and WORKGROUP_RESTORE (R305, R328, R355). The payloads whose layout the rules do not
give have free bytes, and a restore takes their contents from the state: log entry 67. -/
def Obligations.SwapAndRestore : Prop :=
  (∀ (s s1 : State) (w : Workgroup) (k : Launch) (g : Group) (a : Nat) (bytes : List Byte), s.halt = none → Inv s →
    noHard s → s.wg? w.id = some w → s.launch? w.launch = some k →
    w.phase = .swapPending → (∀ p ∈ s.loads, p.lane.wg ≠ w.id) → (∀ d ∈ s.cmds, d.lane.wg ≠ w.id) →
    s.groupsOf w = [g] → g.work = [] → g.lanes.Nodup → g.served = [] →
    s.frameFor w = some (a, bytes, s1) → paExists a = true → s.badSectors a bytes.length = [] →
    (∀ r ∈ w.replay, r.lane < 64 ∧ r.rig < 16) → w.replay.length ≤ 1024 →
    (∃ parts, bytes = parts.flatMap partBytes ∧ isFrame parts k.rcd.loftb k.rcd.nacc w.replay) ∧
    ∃ t v, exec (.faultSwap w.id) s = .next t ∧ t.wg? w.id = some v ∧ v.phase = .swapped ∧
      v.frame = some (a, bytes) ∧ v.loft = w.loft ∧ v.replay = w.replay ∧ offCore t w.id w.core ∧
      (∀ l ∈ g.lanes, l.wg = w.id → (s.thread l).life ≠ .absent →
        t.thread l = { s.thread l with slot := some g.slot, restored := true }) ∧
      (∀ l, l ∉ g.lanes ∨ l.wg ≠ w.id → t.thread l = s.thread l) ∧
      (∀ x, x < a ∨ a + bytes.length ≤ x → Memory.read t.mem x = Memory.read s.mem x) ∧
      (gate s a = .ok → holdsBytes t.mem a bytes)) ∧
  ∀ (s : State) (w : Workgroup) (k : Launch) (a : Nat) (bytes : List Byte) (parts : List (Nat × Nat × List Byte)),
    s.halt = none → Inv s →
    s.wg? w.id = some w → s.launch? w.launch = some k → w.phase = .swapped → w.faults = [] → w.replay = [] →
    w.again = [] → k.hard = false → w.core < 192 → (s.core w.core).fenced = false →
    (s.dies[w.core / 48]?).map Die.state = some .inService → (∃ x, s.turns[w.core / 8]? = some x ∧ x.vf = some k.vf) →
    fitsBeside s k (residents s w.core) (s.core w.core).grids 1 → (∀ r ∈ s.relays, ofJob r k → r.phase ≠ .sent) →
    (∀ i ∈ k.snapTracks, ∀ t ∈ s.tracks, t.id = i → s.trackDone .sys t = true) →
    w.frame = some (a, bytes) → bytes = parts.flatMap partBytes → isFrame parts k.rcd.loftb k.rcd.nacc [] →
    (∀ x ∈ parts, x.2.2.length < 2 ^ 32) → holdsBytes s.mem a bytes →
    gate s a ≠ .refused → s.badSectors a bytes.length = [] → holdsKernel s w.core k →
    (∀ d ∈ s.cmds, d.lane.wg = w.id → d.stopped = false) →
    ∃ t v, exec (.workgroupRestore w.id) s = .next t ∧ t.wg? w.id = some v ∧ v.phase = .running ∧ v.frame = none ∧
      v.loft = w.loft ∧ v.chans = w.chans ∧ v.slices = w.slices ∧ v.live = w.live ∧ v.rigs.length = w.rigs.length ∧
      (∀ r n, t.thread ⟨w.id, r, n⟩ = s.thread ⟨w.id, r, n⟩) ∧ (∀ q ∈ v.rigs, q.due = []) ∧
      (k.rcd.gridt ≠ 0 → w.core < s.cores.length → k.id ∈ (t.core w.core).grids) ∧ t.mem = s.mem

namespace Sys2Proof.Spec

/-! The engines at work (R244 to R253, R267, R272, R274). -/

/-- A rig whose command has completed: the token that the command counts is one lower (R244). -/
def tokenFallen (c : Cmd) (tok : Map Nat) : Map Nat :=
  match c.tok with
  | some k => Map.set 0 tok k (Map.get 0 tok k - 1)
  | none => tok

/-- A command that can be performed: it has its place, no slice is awaited, it is first in its order, and its
workgroup is on its core (R244, R246, R270); it has read nothing ahead and has no write on its way (R210). -/
structure Performs (s : State) (c : Cmd) (w : Workgroup) : Prop where
  halt : s.halt = none
  inv : Inv s
  here : s.cmds.find? (fun d => d.id == c.id) = some c
  place : c.stopped = false
  start : c.held = false
  first : s.isFirst c = true
  wg : s.wg? c.lane.wg = some w
  core : w.phase ≠ .swapped
  early : c.early = [] ∧ c.ahead = 0 ∧ c.adds = [] ∧ c.spread = false
  sent : ∀ q ∈ s.stores, q.cmd ≠ some c.id

/-- A command is gone from its engine, and its token has fallen; memory and the accesses of threads stand. -/
structure CommandGone (s t : State) (c : Cmd) : Prop where
  cmds : t.cmds = s.cmds.filter fun d => d.id != c.id
  tok : (t.rig? c.lane.wg c.lane.rig).map Rig.tok =
    (s.rig? c.lane.wg c.lane.rig).map fun q => tokenFallen c q.tok
  mem : t.mem = s.mem
  loads : t.loads = s.loads
  stores : t.stores = s.stores

/-- A byte of a tensor as its format code reads it: 7 is I8, 8 is W8 (R97, R113). -/
def codeByte (code : Nat) (b : Byte) : Int := if code = 7 then b.toInt else (b.toNat : Int)

/-- The exact sum of the products of row `i` of A and column `j` of B, both in the loft (R97, R250). -/
def dotBytes (c : Cmd) (loft : Memory) (af bf klen i j : Nat) : Int :=
  ((List.range klen).map fun k =>
    codeByte af (Memory.read loft (c.pair 2 + i * (c.w 6) + k)) *
      codeByte bf (Memory.read loft (c.pair 4 + j * (c.w 7) + k))).sum

/-- The state in which a command is performed: its launch is counted (R330). -/
def performing (s : State) (c : Cmd) : State := ({ s with fresh := s.fresh + 1 } : State).countDie c.launch

/-- An access of a command within a page reaches a sound place whose die is in service (R246, R293); `s1` is the state
after its translation. A write sets the D bit of its leaf; no dirty bitmap is in force. -/
structure Touches (s : State) (c : Cmd) (k : AccKind) (va len : Nat) (s1 : State) (p : Place) : Prop where
  place : (performing s c).engTranslate c k va = (s1, .ok p)
  halt : s1.halt = none
  page : va < 2 ^ 64 ∧ 0 < len ∧ va % 4096 + len ≤ 4096
  here : gate s1 p.addr = .ok ∧ paExists p.addr = true ∧ paExists (p.addr + len - 1) = true
  sound : s1.badSectors p.addr len = []
  leaf : leafFit s1 p
  plain : ∀ x, s.launch? c.launch = some x → x.ctx.dbm = 0

/-- A thread after a completion: its token has fallen, and nothing of it but the rows that `u` has changes. -/
def rowsAs (s t : State) (wg : Nat) (l : LaneRef) (u : Thread) : Prop :=
  gotIt (t.thread l) u ∧ (t.thread l).rows = u.rows ∧ (t.thread l).rowst = u.rowst ∧
    (nobodyParked s wg → t.thread l = u)

/-- The exact products of row `i` of A and column `j` of B, both of 8-bit floating-point elements in the loft, one
K-group long, followed by the +0 of its clipped elements (R93, R117). -/
def termsOf (c : Cmd) (loft : Memory) (af bf : Fmt) (klen i j : Nat) : List Machine.Num :=
  ((List.range klen).map fun k =>
    (Machine.Num.ofBits af (Memory.read loft (c.pair 2 + i * (c.w 6) + k)).toNat).mul
      (Machine.Num.ofBits bf (Memory.read loft (c.pair 4 + j * (c.w 7) + k)).toNat)) ++
    List.replicate (32 - klen) (.fin false 0 1 0)

/-- The accumulator after a K-group: the exact sum rounded to FP32, added and rounded again, ties to even (R117). -/
def accAfter (acc : Nat) (terms : List Machine.Num) : Nat :=
  (rounded .f32 .rne 0 [] (Machine.Num.add false (.ofBits .f32 acc)
    (.ofBits .f32 (rounded .f32 .rne 0 [] (Machine.Num.sum false terms)).1))).1

/-- An 8-bit floating-point format and its code (R92). -/
def byteFmt (code : Nat) (f : Fmt) : Prop := code = 3 ∧ f = .e4m3 ∨ code = 4 ∧ f = .e5m2

/-- An MMA of one K-group with both operands in the loft, unscaled, of the format codes `af` and `bf` with the
accumulator code `acc` (R113, R248); every executing row has a thread and no unordered vector write. -/
structure OneGroup (s : State) (c : Cmd) (w : Workgroup) (af bf acc rows cols klen colb : Nat) : Prop
    extends Performs s c w where
  clean : c.tainted = false
  fresh : c.progress = 0
  lanes : c.lanes.Nodup
  plain : s.prot c.lane.wg = false
  format : c.w 0 = af + 16 * bf + 256 * acc
  shape : rows < 256 ∧ cols < 256 ∧ 0 < klen ∧ klen ≤ 32 ∧ colb < 4
  word : c.w 1 = rows + 2 ^ 8 * cols + 2 ^ 16 * klen + 2 ^ 25 + 2 ^ 26 + 2 ^ 30 * colb
  ready : ∀ i ∈ c.lanes, (s.thread ⟨c.lane.wg, c.lane.rig, i⟩).life ≠ .absent ∧
    Map.wf 0#32 (s.thread ⟨c.lane.wg, c.lane.rig, i⟩).rows = true ∧
    (s.thread ⟨c.lane.wg, c.lane.rig, i⟩).accOld = []

/-- After such an MMA: the elements of the clipped shape hold `f`, given their row, column and old value, and nothing
else of the state has changed but that the command is gone and %rowprog is 1, if it counts for this MMA: the last one that the
rig has had accepted (R251). -/
def groupDone (s t : State) (c : Cmd) (rows cols colb : Nat) (f : Nat → Nat → Word → Word) : Prop :=
  CommandGone s t c ∧
  (t.rig? c.lane.wg c.lane.rig).map Rig.rowprog = (s.rig? c.lane.wg c.lane.rig).map (fun q =>
    if s.cmds.any fun d => d.isMma && d.lane.wg == c.lane.wg && d.lane.rig == c.lane.rig && decide (c.id < d.id) then
      q.rowprog
    else 1#32) ∧
  ∀ l, ∃ u : Thread, rowsAs s t c.lane.wg l u ∧ u = { s.thread l with rows := u.rows } ∧
    if l.wg = c.lane.wg ∧ l.rig = c.lane.rig ∧ l.lane ∈ c.lanes ∧ l.lane < rows then
      (∀ j, j < cols → Map.get 0#32 u.rows (128 * c.set + (32 * colb + j)) =
        f l.lane j (Map.get 0#32 (s.thread l).rows (128 * c.set + (32 * colb + j)))) ∧
      ∀ x, (∀ j, j < cols → x ≠ 128 * c.set + (32 * colb + j)) →
        Map.get 0#32 u.rows x = Map.get 0#32 (s.thread l).rows x
    else u.rows = (s.thread l).rows

/-- The four result words of a command in a lane that it has a row in (R184, R259, R260). -/
def resultWords (t : State) (l : LaneRef) (d : Nat) (ws : List Word) : Prop :=
  ∀ j, j < 4 → Map.get 0#32 (t.thread l).regs (d + j) = ws.getD j 0#32

/-- The key of a score: none for NaN, else its place in the order of FP32 values, the zeros equal (R264). -/
def scoreKey (x : Nat) : Option Int := if isNanWord (BitVec.ofNat 32 x) then none else some (floatKey (BitVec.ofNat 32 x))

/-- Index `i` ranks before index `j` (R264): the greater score, any number before a NaN, the lower index on a tie. -/
def precedes (score : Nat → Nat) (i j : Nat) : Prop :=
  match scoreKey (score i), scoreKey (score j) with
  | some a, some b => b < a ∨ a = b ∧ i < j
  | some _, none => True
  | none, some _ => False
  | none, none => i < j

/-- The 64 bytes of a forked table's header (R262, R278). -/
def forkedHeader (h : TableHdr) (fork : Nat) : List Byte :=
  leBytes 8 h.addr ++ leBytes 4 fork ++ leBytes 4 fork ++ leBytes 1 (h.depth + 1) ++ leBytes 1 (h.dc + 2 * h.form) ++
    leBytes 2 0 ++ leBytes 2 0x4B56 ++ List.replicate 42 0#8

/-- The offset in its slot of byte `q` of a slot image (R275, R276): the padding is passed over. -/
def imageOffset (h : TableHdr) (q : Nat) : Nat :=
  let n := (if h.dc = 1 then 512 else 256) + 2
  if q < n then q else q - n + (if h.dc = 1 then 512 else 256) + 64
def imageLength (h : TableHdr) : Nat := (if h.dc = 1 then 512 else 256) + 2 + if h.form = 1 then 128 else 0

end Sys2Proof.Spec

/-- MZERO (R253), MMA (R250), KVFORK (R262), KVCOMMIT (R263), KVAPP (R261, R283), KVLOOK (R260), TOPK (R264), LATW
(R258), ATTFIN (R259) and a masked ATT (R256). What one step performs is log entries 54, 60, 61 and 96. -/
def Obligations.MatrixEngine : Prop :=
  (∀ (s : State) (c : Cmd) (w : Workgroup) (n : Nat) (gd : Guard) (k : BitVec 3) (a : Opnd), Performs s c w → 0 < n →
    c.instr = .mzero gd k a → c.tainted = false →
    ∃ t, exec (.commandComplete c.id n) s = .next t ∧ CommandGone s t c ∧
      ∀ l, rowsAs s t c.lane.wg l (if l.wg = c.lane.wg ∧ l.rig = c.lane.rig then { s.thread l with
          rows := (s.thread l).rows.filter fun x => x.1 / 128 != c.set
          accOld := (s.thread l).accOld.filter fun x => x.1 / 128 != c.set
          rowst := Map.set RowState.reset (s.thread l).rowst c.set RowState.reset }
        else s.thread l)) ∧
  (∀ (s : State) (c : Cmd) (w : Workgroup) (n : Nat) (gd : Guard) (ns ks : Sel3) (k : BitVec 3) (a : Opnd)
    (af bf rows cols klen colb : Nat), OneGroup s c w af bf 7 rows cols klen colb → c.instr = .mma gd ns ks k a →
    0 < n → (af = 7 ∨ af = 8) → (bf = 7 ∨ bf = 8) →
    ∃ t, exec (.commandComplete c.id n) s = .next t ∧
      groupDone s t c rows cols colb fun i j acc => acc + BitVec.ofInt 32 (dotBytes c w.loft af bf klen i j)) ∧
  (∀ (s : State) (c : Cmd) (w : Workgroup) (n : Nat) (gd : Guard) (ns ks : Sel3) (k : BitVec 3) (a : Opnd)
    (af bf rows cols klen colb : Nat) (f g : Fmt), OneGroup s c w af bf 0 rows cols klen colb →
    c.instr = .mma gd ns ks k a → 0 < n → byteFmt af f → byteFmt bf g →
    ∃ t, exec (.commandComplete c.id n) s = .next t ∧
      groupDone s t c rows cols colb fun i j acc =>
        BitVec.ofNat 32 (accAfter acc.toNat (termsOf c w.loft f g klen i j))) ∧
  (∀ (s : State) (c : Cmd) (w : Workgroup) (n : Nat) (gd : Guard) (k : Completion) (a : Opnd) (h : TableHdr)
    (r : List TableHdr) (s1 : State) (p : Place), Performs s c w → 0 < n → c.instr = .kvfork gd k a →
    c.chain = h :: r → h.addr < 2 ^ 64 → h.depth < 3 → h.dc < 2 → h.form < 4 → c.pair 2 % 64 = 0 →
    Touches s c .write (c.pair 2) 64 s1 p →
    ∃ t, exec (.commandComplete c.id n) s = .next t ∧ t.cmds = s.cmds.filter (fun d => d.id != c.id) ∧
      Memory.readN t.mem p.addr 64 = forkedHeader h (c.w 4) ∧ sameOutside (dirtied s1 p) t.mem p.addr 64 ∧
      t.loads = s.loads ∧ t.stores = s.stores ∧ ∀ l, gotIt (t.thread l) (s.thread l)) ∧
  (∀ (s : State) (c : Cmd) (w : Workgroup) (n : Nat) (gd : Guard) (k : Completion) (a : Opnd) (h : TableHdr)
    (r : List TableHdr) (s1 : State) (p : Place), Performs s c w → 0 < n → c.instr = .kvcommit gd k a →
    c.chain = h :: r → h.addr % 64 = 0 → s.released c.lane .sys = true →
    (∀ x ∈ s.tracks, x.lane = some ⟨c.lane.wg, c.lane.rig, 64⟩ → s.trackDone .sys x = true) →
    Touches s c .rmw (h.addr + 12) 4 s1 p →
    ∃ t, exec (.commandComplete c.id n) s = .next t ∧ t.cmds = s.cmds.filter (fun d => d.id != c.id) ∧
      Memory.readN t.mem p.addr 4 = leBytes 4 (max (leNat (Memory.readN s1.mem p.addr 4)) (c.w 2)) ∧
      sameOutside (dirtied s1 p) t.mem p.addr 4 ∧
      t.loads = s.loads ∧ t.stores = s.stores ∧ ∀ l, gotIt (t.thread l) (s.thread l)) ∧
  (∀ (s : State) (c : Cmd) (w : Workgroup) (gd : Guard) (k : Completion) (a : Opnd) (h : TableHdr)
    (r : List TableHdr) (s1 : State) (p : Place) (x : Byte), Performs s c w → c.instr = .kvapp gd k a →
    c.chain = h :: r → c.bar = none → c.desc.length = imageLength h → c.progress + 1 < imageLength h →
    c.desc[c.progress]? = some x → Touches s c .write (c.target + imageOffset h c.progress) 1 s1 p →
    ∃ t, exec (.commandComplete c.id 1) s = .next t ∧ Memory.read t.mem p.addr = x ∧
      sameOutside (dirtied s1 p) t.mem p.addr 1 ∧ t.wgs = s.wgs ∧
      t.cmds = s.cmds.map fun d => if d.id = c.id then
        { c with progress := c.progress + 1, landed := max c.landed (c.progress + 1) } else d) ∧
  (∀ (s : State) (c : Cmd) (w : Workgroup) (n : Nat) (gd : Guard) (k : BitVec 3) (d a : Opnd) (h : TableHdr)
    (r : List TableHdr), Performs s c w → 0 < n → c.instr = .kvlook gd k d a → c.chain = h :: r →
    s.prot c.lane.wg = false → (∀ i ∈ c.lanes, ∃ v, c.perLane.find? (fun x => x.1 == i) = some (i, v) ∧ h.clen ≤ v.toNat) →
    ∃ t, exec (.commandComplete c.id n) s = .next t ∧ CommandGone s t c ∧
      ∀ l, gotIt (t.thread l) { s.thread l with regs := (t.thread l).regs } ∧
        if l.wg = c.lane.wg ∧ l.rig = c.lane.rig ∧ l.lane ∈ c.lanes ∧ (s.thread l).alive = true then
          resultWords t l d.gnum [0#32, 0#32, 0xFFFFFFFF#32, 0#32] ∧
          ∀ x, x < d.gnum ∨ d.gnum + 4 ≤ x → Map.get 0#32 (t.thread l).regs x = Map.get 0#32 (s.thread l).regs x
        else (t.thread l).regs = (s.thread l).regs) ∧
  (∀ (s : State) (c : Cmd) (w : Workgroup) (n k src dst : Nat) (gd : Guard) (z : Completion) (a : Opnd)
    (score : Nat → Nat), Performs s c w → 0 < n → c.instr = .topk gd z a → c.bar = none → c.w 8 = 3 → c.pair 4 = 0 →
    src = c.pair 0 → dst = c.pair 2 → k = c.w 7 → k ≤ c.w 6 → 0 < k →
    (∀ i, score i = leNat (Memory.readN w.loft (src + 4 * i) 4)) →
    (∀ x, dst ≤ x → x < dst + 4 * k → w.live.contains (x / 16) = false) →
    ∃ (t : State) (v : Workgroup) (top : List Nat), exec (.commandComplete c.id n) s = .next t ∧ CommandGone s t c ∧ t.wg? c.lane.wg = some v ∧
      sameOutside w.loft v.loft dst (4 * k) ∧ top.length = k ∧ (∀ i ∈ top, i < c.w 6) ∧ top.Pairwise (precedes score) ∧
      (∀ i, i < c.w 6 → i ∉ top → ∀ j ∈ top, precedes score j i) ∧
      ∀ i, i < k → Memory.readN v.loft (dst + 4 * i) 4 = leBytes 4 (top.getD i 0)) ∧
  (∀ (s : State) (c : Cmd) (w : Workgroup) (n b : Nat) (gd : Guard) (k : BitVec 3) (a : Opnd) (x : Bank),
    Performs s c w → 0 < n → c.instr = .latw gd k a → c.progress ≠ 0 → b = c.w 4 % 4 → c.core < s.cores.length →
    (s.core c.core).banks[b]? = some (some x) →
    ∃ t, exec (.commandComplete c.id n) s = .next t ∧ CommandGone s t c ∧
      (t.core c.core).banks = (s.core c.core).banks.set b (some { x with loading := none, oldWk := [], oldWv := [] })) ∧
  (∀ (s : State) (c : Cmd) (w : Workgroup) (n sets : Nat) (gd : Guard) (k : BitVec 3) (d a : Opnd) (l : LaneRef)
    (st : RowState), Performs s c w → 0 < n → c.instr = .attfin gd k d a → c.tainted = false →
    s.prot c.lane.wg = false → c.lanes.Nodup → sets = c.w 0 / 8 % 4 + 1 → c.set = c.w 0 % 8 →
    l = ⟨c.lane.wg, c.lane.rig, l.lane⟩ → l.lane ∈ c.lanes → l.lane < 64 → (s.thread l).alive = true →
    st = Map.get RowState.reset (s.thread l).rowst c.set → (st.nan = true ∨ st.l.toNat % 2 ^ 31 = 0) →
    ∃ t, exec (.commandComplete c.id n) s = .next t ∧ CommandGone s t c ∧
      resultWords t l d.gnum [st.m, st.l,
        BitVec.ofNat 32 ((if st.nan then 1 else 4) + (if st.clmp then 2 else 0)), 0#32] ∧
      ∀ x, Map.get 0#32 (t.thread l).rows x =
        if 128 * c.set ≤ x ∧ x < 128 * (c.set + sets) then (if st.nan then 0x7FC00000#32 else 0#32)
        else Map.get 0#32 (s.thread l).rows x) ∧
  ∀ (s : State) (c : Cmd) (w : Workgroup) (n : Nat) (gd : Guard) (x1 x2 x3 : Bool) (k : BitVec 3) (a : Opnd)
    (h : TableHdr) (r : List TableHdr), Performs s c w → 0 < n → c.instr = .att gd x1 x2 x3 k a → c.chain = h :: r →
    c.progress = 0 → h.clen ≤ c.w 8 → bit (c.w 5) 7 = true → s.prot c.lane.wg = false →
    (∀ i ∈ c.lanes, (Map.get RowState.reset (s.thread ⟨c.lane.wg, c.lane.rig, i⟩).rowst c.set).nan = true ∨
      (Map.get RowState.reset (s.thread ⟨c.lane.wg, c.lane.rig, i⟩).rowst c.set).m = 0xFF800000#32) →
    ∃ t, exec (.commandComplete c.id n) s = .next t ∧ CommandGone s t c ∧
      ∀ l, gotIt (t.thread l) (s.thread l) ∧ (t.thread l).rows = (s.thread l).rows ∧
        ∀ i, Map.get RowState.reset (t.thread l).rowst i = Map.get RowState.reset (s.thread l).rowst i

namespace Sys2Proof.Spec

/-! Translation (R290 to R293). -/

/-- A table pointer: V and TBL are 1, every other field but FRAME is zero (R292). -/
def isPointer (e : Nat) : Prop := e % 2 ^ 12 = 1 ∧ e / 2 ^ 52 = 8

/-- A leaf of 4 KiB: V = 1, TBL, MIG and SIZE zero, and a frame outside LOCAL memory only when uncached (R292). -/
def isLeaf (e : Nat) : Prop :=
  bit e 0 = true ∧ bit e 55 = false ∧ bit e 54 = false ∧ bits e 52 2 = 0 ∧
    (region (pageFrame e) = 0 ∨ bits e 3 2 = 3)

/-- An entry address that the walker can read, whose sector passes its check. -/
def readable (s : State) (pa : Nat) : Prop := region pa = 0 ∧ gate s pa = .ok ∧ s.badSectors pa 8 = []

/-- What an access needs of the leaf and of the key permissions (R293). -/
def permits (k : AccKind) (perm : Dword) (e : Nat) : Prop :=
  let r := perm.getLsbD (2 * bits e 5 5) = true
  let w := perm.getLsbD (2 * bits e 5 5 + 1) = true
  match k with
  | .read => r
  | .write => bit e 1 = true ∧ w
  | .rmw => bit e 1 = true ∧ r ∧ w
  | .exec => bit e 2 = true
  | .any => True

/-- The three pointers above the level-0 entry of an address, walked from a root (R291): the address of that
entry is `p0`. -/
structure Walked (s : State) (root va p3 p2 p1 p0 : Nat) : Prop where
  at3 : p3 = root + 8 * bits va 39 9
  at2 : p2 = pageFrame (s.read64 p3) + 8 * bits va 30 9
  at1 : p1 = pageFrame (s.read64 p2) + 8 * bits va 21 9
  at0 : p0 = pageFrame (s.read64 p1) + 8 * bits va 12 9
  pointers : isPointer (s.read64 p3) ∧ isPointer (s.read64 p2) ∧ isPointer (s.read64 p1)
  local4 : readable s p3 ∧ readable s p2 ∧ readable s p1 ∧ readable s p0

/-- A page of a launch is mapped by a 4 KiB leaf that no translation cache holds, with A and D set and all that a write and
a read need, and with no failed check; the bytes from `va` lie at `pa`, apart from the table entries (R291 to R297). -/
structure Mapped (s : State) (k : Launch) (perm : Dword) (va len pa : Nat) : Prop where
  plain : k.ctx.dbm = 0
  cold : ∀ e ∈ s.tlb, e.tag ≠ k.ctx.tag
  page : va < 2 ^ 48 ∧ 0 < len ∧ va % 4096 + len ≤ 4096
  walk : ∃ p3 p2 p1 p0 e, Walked s k.ctx.root va p3 p2 p1 p0 ∧ e = s.read64 p0 ∧ isLeaf e ∧
    (bits e 3 2 = 1 ∨ bits e 3 2 = 3) ∧ permits .rmw perm e ∧ bit e 10 = true ∧ bit e 11 = true ∧
    pa = pageFrame e + va % 4096 ∧ (∀ l ∈ s.launches, ∀ p ∈ l.snap, p.leafPa ≠ p0) ∧
    ∀ x ∈ [p3, p2, p1, p0], x + 8 ≤ pa ∨ pa + len ≤ x
  here : gate s pa = .ok ∧ paExists pa = true ∧ paExists (pa + len - 1) = true
  sound : s.badSectors pa len = []

/-- A message of a ring that a step takes up: it is the one named, its command has not stopped, and where it carries a
block no earlier block of its record is on its way (R246, R274). -/
structure Arrives (s : State) (m : RingMsg) : Prop where
  halt : s.halt = none
  here : s.ringMsgs.find? (fun x => x.id == m.id && x.credit == m.credit) = some m
  order : m.credit = false → ∀ x ∈ s.ringMsgs, x.credit = false → x.record = m.record → m.id ≤ x.id
  goes : ∀ c, s.cmds.find? (fun d => d.id == m.cmd) = some c → c.stopped = false

/-- The command behind a message completes with it: the message and the command are gone, and its token has fallen. -/
def sentDone (s u : State) (m : RingMsg) (c : Cmd) : Prop :=
  u.ringMsgs = s.ringMsgs.filter (fun x => x.id != m.id) ∧ u.cmds = s.cmds.filter (fun x => x.id != m.cmd) ∧
    (u.rig? c.lane.wg c.lane.rig).map Rig.tok = (s.rig? c.lane.wg c.lane.rig).map fun q => tokenFallen c q.tok

/-- The workgroup that a level record with the bits `f` names (R286, R288). -/
def ringOwner (t : State) (m : RingMsg) (f : Nat) : Option Workgroup :=
  t.wgs.find? fun w => w.wgid == bits f 480 32 &&
    ((t.launch? w.launch).map fun k => k.rcd.ident == bits f 448 32 &&
      k.vf == ((t.launch? m.launch).map Launch.vf).getD 0).getD false

/-- The write pointer of a channel after an advance, modulo 2^32 (R272). -/
def advanced (v : Workgroup) (chan n : Nat) : Map Word :=
  Map.set 0#32 v.chans chan (Map.get 0#32 v.chans chan + BitVec.ofNat 32 n)

/-- A counter of a level record rises at its home, after which the record is read (R287). -/
def counted (s : State) (m : RingMsg) (ofs : Nat) : State × Eng (List Byte) :=
  engThen ({ s with fresh := s.fresh + 1 }.ringBump m.asCmd (m.record + ofs)) fun s _ =>
    s.engRead m.asCmd false m.record 128

/-- Some bytes of a loft have moved within it, but for those of live barrier slots (R271). -/
def movedLoft (w v : Workgroup) (src dst len : Nat) : Prop :=
  ∀ x, Memory.read v.loft x =
    if dst ≤ x ∧ x < dst + len ∧ w.live.contains (x / 16) = false then Memory.read w.loft (src + (x - dst))
    else Memory.read w.loft x

/-- A field of a copy's descriptor (R265). -/
def dsc (c : Cmd) (lo n : Nat) : Nat := bits (leNat c.desc) lo n

/-- The copy engine delivers from a command: it can be performed and is the next of its channel (R272). -/
structure Delivers (s : State) (c : Cmd) (w : Workgroup) : Prop extends Performs s c w where
  head : s.isHead c = true
  bar : c.bar = none

/-- A copy after its next unit of `len` bytes (R272): the command has gone on, or is gone with its token, and the pointer
of its channel has advanced. No thread changes but for what a token or a channel may bring. -/
def oneUnit (s t : State) (c : Cmd) (w v : Workgroup) (total len : Nat) : Prop :=
  t.wg? c.lane.wg = some v ∧ v.chans = Map.set 0#32 w.chans c.target (Map.get 0#32 w.chans c.target + BitVec.ofNat 32 len) ∧
    t.cmds = (if c.progress + 1 < total then
        s.cmds.map fun d => if d.id = c.id then { c with progress := c.progress + 1 } else d
      else s.cmds.filter fun d => d.id != c.id) ∧
    (∀ l, gotIt (t.thread l) (s.thread l)) ∧ t.loads = s.loads ∧ t.stores = s.stores

/-- The offset of element `q` of a tensor (R267): the sum over its dimensions of index times stride, dimension 0 fastest
and as wide as an element. -/
def tensorOffset (c : Cmd) (width q : Nat) : Int :=
  let ext (d : Nat) : Nat := dsc c (192 + 16 * d) 16
  ((List.range (dsc c 139 4 + 1)).map fun d =>
    ((q / ((List.range d).map ext).prod % ext d : Nat) : Int) *
      (if d = 0 then (width : Int) else (BitVec.ofNat 32 (dsc c (384 + 32 * (d - 1)) 32)).toInt)).sum

end Sys2Proof.Spec

/-- COMMAND_ACCEPT (R246), COPY_CHUNK_DELIVER (R272), RING_BLOCK_ARRIVE and RING_CREDIT_RETURN (R287). That a RNGRCV
completes with its credit is log entry 113. -/
def Obligations.EngineEvents : Prop :=
  (∀ (s : State) (c : Cmd) (w : Workgroup), s.halt = none → s.cmds.find? (fun d => d.id == c.id) = some c →
    c.stopped = true → s.wg? c.lane.wg = some w → w.phase = .resuming → w.replay = [] → w.again = [] →
    (∀ d ∈ s.cmds.takeWhile (fun d => d.id != c.id), d.lane.wg = c.lane.wg → d.engine = c.engine →
      d.stopped = false) →
    (s.cmds.filter fun d => d.core == c.core && d.engine == c.engine && !d.stopped).length < c.engine.places →
    exec (.commandAccept c.id) s = .next { s with
      cmds := s.cmds.map fun d => if d.id = c.id then { c with stopped := false } else d
      wgs := if s.cmds.any (fun d => d.id != c.id && d.lane.wg == c.lane.wg && d.stopped) then s.wgs
        else oneWg s c.lane.wg fun v => { v with phase := if v.phase = .resuming then .running else v.phase } }) ∧
  (∀ (s : State) (c : Cmd) (w : Workgroup) (n src dst len : Nat) (gd : Guard) (k : Completion) (a : Opnd),
    Delivers s c w → c.instr = .cpy gd k a → c.progress = 0 →
    src = dsc c 0 64 → dst = dsc c 64 64 → len = dsc c 192 64 → dsc c 133 1 = 1 → dsc c 134 1 = 1 → 0 < len → len ≤ n →
    src % 4096 + len ≤ 4096 → dst % 4096 + len ≤ 4096 →
    ∃ t v, exec (.copyChunkDeliver c.id n) s = .next t ∧ CommandGone s t c ∧
      (∀ l, gotIt (t.thread l) (s.thread l)) ∧ (nobodyParked s c.lane.wg → ∀ l, t.thread l = s.thread l) ∧
      t.wg? c.lane.wg = some v ∧ movedLoft w v src dst len ∧ v.chans = advanced w c.target len) ∧
  (∀ (s : State) (c : Cmd) (w : Workgroup) (n src dst len : Nat) (gd : Guard) (k : Completion) (a : Opnd) (s1 : State)
    (p : Place), Delivers s c w → c.instr = .cpy gd k a → c.progress = 0 →
    src = dsc c 0 64 → dst = dsc c 64 64 → len = dsc c 192 64 → len ≤ n → src % 4096 + len ≤ 4096 →
    dst % 4096 + len ≤ 4096 →
    (dsc c 133 1 = 1 → dsc c 134 1 = 0 → Touches s c .write dst len s1 p →
      ∃ t v, exec (.copyChunkDeliver c.id n) s = .next t ∧ t.cmds = s.cmds.filter (fun d => d.id != c.id) ∧
        t.wg? c.lane.wg = some v ∧ v.loft = w.loft ∧ v.chans = advanced w c.target len ∧
        holdsBytes t.mem p.addr (Memory.readN w.loft src len) ∧ sameOutside (dirtied s1 p) t.mem p.addr len) ∧
    (dsc c 133 1 = 0 → dsc c 134 1 = 1 → Touches s c .read src len s1 p →
      ∃ t v, exec (.copyChunkDeliver c.id n) s = .next t ∧ t.cmds = s.cmds.filter (fun d => d.id != c.id) ∧
        t.wg? c.lane.wg = some v ∧ v.chans = advanced w c.target len ∧ t.mem = s1.mem ∧
        ∀ x, Memory.read v.loft x =
          if dst ≤ x ∧ x < dst + len ∧ w.live.contains (x / 16) = false then Memory.read s1.mem (p.addr + (x - dst))
          else Memory.read w.loft x)) ∧
  (∀ (s : State) (c : Cmd) (w : Workgroup) (gd : Guard) (k : Completion) (a : Opnd) (ty : Ty) (width src dst total : Nat),
    Delivers s c w → c.instr = .cpyt gd false k a → Ty.ofCode? (dsc c 135 4) = some ty → width = ty.bits / 8 →
    total = ((List.range (dsc c 139 4 + 1)).map fun d => dsc c (192 + 16 * d) 16).prod → c.progress < total →
    dsc c 133 1 = 1 → dsc c 134 1 = 1 → src < 2 ^ 64 → dst < 2 ^ 64 →
    ((src : Int) = dsc c 0 64 + (if dsc c 143 1 = 1 then (c.progress * width : Int) else tensorOffset c width c.progress)) →
    ((dst : Int) = dsc c 64 64 + (if dsc c 143 1 = 1 then tensorOffset c width c.progress else (c.progress * width : Int))) →
    ∃ t v, exec (.copyChunkDeliver c.id 1) s = .next t ∧ oneUnit s t c w v total width ∧ movedLoft w v src dst width ∧
      t.mem = s.mem) ∧
  (∀ (s : State) (c : Cmd) (w : Workgroup) (i : Instr) (gd : Guard) (k : Completion) (a : Opnd) (s1 : State) (p : Place)
    (rowb idx far near : Nat),
    Delivers s c w → (i = .cpyg gd k a ∨ i = .cpys gd k a) → c.instr = i → c.progress < dsc c 256 32 →
    dsc c 133 1 = 1 → dsc c 134 1 = 1 → rowb = dsc c 288 32 → 0 < rowb → dsc c 192 64 + 4 * c.progress < 2 ^ 64 →
    Touches s c .read (dsc c 192 64 + 4 * c.progress) 4 s1 p → idx = leNat (Memory.readN s1.mem p.addr 4) →
    far < 2 ^ 64 → near < 2 ^ 64 →
    (idx < dsc c 736 32 → i = .cpyg gd k a → far = dsc c 0 64 + idx * dsc c 320 32 → near = dsc c 64 64 + c.progress * rowb →
      ∃ t v, exec (.copyChunkDeliver c.id 1) s = .next t ∧ oneUnit s t c w v (dsc c 256 32) rowb ∧
        movedLoft w v far near rowb ∧ t.mem = s1.mem) ∧
    (idx < dsc c 736 32 → i = .cpys gd k a → far = dsc c 64 64 + idx * dsc c 320 32 → near = dsc c 0 64 + c.progress * rowb →
      ∃ t v, exec (.copyChunkDeliver c.id 1) s = .next t ∧ oneUnit s t c w v (dsc c 256 32) rowb ∧
        movedLoft w v near far rowb ∧ t.mem = s1.mem) ∧
    (dsc c 736 32 ≤ idx → i = .cpys gd k a →
      ∃ t v, exec (.copyChunkDeliver c.id 1) s = .next t ∧ oneUnit s t c w v (dsc c 256 32) rowb ∧ v.loft = w.loft ∧
        t.mem = s1.mem) ∧
    (∀ (ty : Ty) (e : Nat), dsc c 736 32 ≤ idx → i = .cpyg gd k a → Ty.ofCode? (dsc c 135 4) = some ty → e = ty.bits / 8 →
      rowb % e = 0 → near = dsc c 64 64 + c.progress * rowb →
      ∃ t v, exec (.copyChunkDeliver c.id 1) s = .next t ∧ oneUnit s t c w v (dsc c 256 32) rowb ∧ t.mem = s1.mem ∧
        ∀ x, Memory.read v.loft x =
          if near ≤ x ∧ x < near + rowb ∧ w.live.contains (x / 16) = false then
            (leBytes e (dsc c 160 32)).getD ((x - near) % e) 0#8
          else Memory.read w.loft x)) ∧
  (∀ (s t : State) (m : RingMsg), Arrives s m → m.credit = false → m.landed = false →
    { s with fresh := s.fresh + 1 }.blockWrite m = (t, .ok ()) → t.halt = none →
    exec (.ringBlockArrive m.id) s = .next { t with
      ringMsgs := t.ringMsgs.map fun x => if x.id = m.id then { x with landed := true } else x }) ∧
  (∀ (s : State) (m : RingMsg) (k : Launch) (pa : Nat), Inv s → Arrives s m → m.credit = false → m.landed = false →
    s.launch? m.launch = some k → m.data.length % 64 = 0 → Mapped s k m.perm m.pool m.data.length pa →
    ∃ t, exec (.ringBlockArrive m.id) s = .next t ∧ holdsBytes t.mem pa m.data ∧
      sameOutside s.mem t.mem pa m.data.length ∧
      t.ringMsgs = s.ringMsgs.map fun x => if x.id = m.id then { x with landed := true } else x) ∧
  (∀ (s t : State) (m : RingMsg) (d : List Byte) (w : Workgroup) (c : Cmd), Arrives s m → m.credit = false →
    m.landed = true → (∀ q ∈ s.stores, q.cmd ≠ some m.cmd) →
    (∀ k ∈ s.tracks, k.lane = some ⟨m.lane.wg, m.lane.rig, 64⟩ →
      s.trackDone (if m.pkg then .dom else .dev) k = true) →
    counted s m 44 = (t, .ok d) → t.halt = none → ringOwner t m (leNat d) = some w →
    t.cmds.find? (fun x => x.id == m.cmd) = some c →
    ∃ u, exec (.ringBlockArrive m.id) s = .next u ∧ u.mem = t.mem ∧ sentDone t u m c ∧
      (∀ n, (u.wg? n).map Workgroup.chans = (t.wg? n).map fun v =>
        if n = w.id ∧ m.pkg = false then advanced v (bits (leNat d) 256 4) m.blksz else v.chans) ∧
      ∀ k pa, Inv s → s.launch? m.launch = some k → Mapped s k m.perm m.record 128 pa →
        Memory.readN u.mem (pa + 44) 4 = leBytes 4 ((leNat (Memory.readN s.mem (pa + 44) 4) + 1) % 2 ^ 32) ∧
        sameOutside s.mem u.mem (pa + 44) 4 ∧ d = Memory.readN u.mem pa 128) ∧
  (∀ (s t : State) (m : RingMsg) (d : List Byte) (w : Workgroup) (c : Cmd), Arrives s m → m.credit = true →
    counted s m 40 = (t, .ok d) → t.halt = none → ringOwner t m (leNat d) = some w →
    t.cmds.find? (fun x => x.id == m.cmd) = some c →
    ∃ u, exec (.ringCreditReturn m.id) s = .next u ∧ u.mem = t.mem ∧ sentDone t u m c ∧
      (∀ l, gotIt (u.thread l) (t.thread l)) ∧
      (∀ n, (u.wg? n).map Workgroup.chans = (t.wg? n).map fun v =>
        if n = w.id ∧ m.pkg = false then advanced v (bits (leNat d) 260 4) m.blksz else v.chans) ∧
      ∀ k pa, Inv s → s.launch? m.launch = some k → Mapped s k m.perm m.record 128 pa →
        Memory.readN u.mem (pa + 40) 4 = leBytes 4 ((leNat (Memory.readN s.mem (pa + 40) 4) + 1) % 2 ^ 32) ∧
        sameOutside s.mem u.mem (pa + 40) 4 ∧ d = Memory.readN u.mem pa 128) ∧
  (∀ (s : State) (c : Cmd) (w : Workgroup) (n src dst len : Nat) (gd : Guard) (g : Bool) (k : Completion) (a : Opnd)
    (s1 : State) (p : Place), Delivers s c w → c.instr = .rngrcv gd g k a → c.progress = 0 →
    len = dsc c 224 32 → src = dsc c 128 64 + c.set * len → dst = c.pair 2 → bit (c.w 4) 0 = true → len ≤ n →
    dst % 4096 + len ≤ 4096 → Touches s c .read src len s1 p →
    (∀ x, s1.linkOf c (dsc c 64 64) = some x → x ∉ s.deadLinks) →
    ∃ t v m, exec (.copyChunkDeliver c.id n) s = .next t ∧
      t.cmds = s.cmds.map (fun d => if d.id = c.id then { c with progress := len } else d) ∧
      t.wg? c.lane.wg = some v ∧ v.chans = advanced w c.target len ∧ t.mem = s1.mem ∧
      (∀ l, gotIt (t.thread l) (s.thread l)) ∧
      (∀ x, Memory.read v.loft x =
        if dst ≤ x ∧ x < dst + len ∧ w.live.contains (x / 16) = false then Memory.read s1.mem (p.addr + (x - dst))
        else Memory.read w.loft x) ∧
      t.ringMsgs = s.ringMsgs ++ [m] ∧ m.credit = true ∧ m.record = dsc c 64 64 ∧ m.blksz = len ∧ m.cmd = c.id) ∧
  ∀ (s : State) (vf ident wgid chan n : Nat) (w : Workgroup), s.halt = none →
    s.wgs.find? (fun w => w.wgid == wgid &&
      ((s.launch? w.launch).map fun k => k.rcd.ident == ident && k.vf == vf).getD false) = some w →
    s.wg? w.id = some w →
    ∃ u, exec (.fabricReceive none (.advance vf ident wgid chan n) false) s = .next u ∧ u.mem = s.mem ∧
      (∀ l, gotIt (u.thread l) (s.thread l)) ∧
      ∀ k, (u.wg? k).map Workgroup.chans = (s.wg? k).map fun v => if k = w.id then advanced v chan n else v.chans

namespace Sys2Proof.Spec

/-! Relays (R333 to R335). -/

/-- The relay engines with one of them changed. -/
def oneRelay (s : State) (e : Nat) (f : Relay → Relay) : List Relay :=
  s.relays.mapIdx fun j r => if j = e then f r else r

/-- No context of the job tracks dirty pages: its rounds send nothing (R308, R334). -/
def noBitmaps (s : State) (r : Relay) : Prop := ∀ k ∈ s.launches, ofJob r k → k.ctx.dbm = 0

/-- The notification of a relay's end, at the source and at the destination (R312, R335). -/
def relayRecord (e job v : Nat) : List Byte := notifyRecord e 0 0 job v 0 4

/-- The serial numbers of the job's launches. -/
def jobIds (s : State) (r : Relay) : List Nat :=
  (s.launches.filter fun k => bits r.rljob 0 32 == k.rcd.job && bits r.rljob 32 5 == k.vf).map Launch.id

/-- A launch that has moved away ends as under a hard cancel, without raising counters (R335). -/
def movedAway (r : Relay) (k : Launch) : Launch :=
  if bits r.rljob 0 32 = k.rcd.job ∧ bits r.rljob 32 5 = k.vf then
    { k with
      status := if k.status = .done then .cancelled else k.status
      noPlace := true, hard := true, rollback := none, quiet := true }
  else k

/-- A queue entry as the destination takes it (R335). -/
def landedEntry (s : State) (v n : Nat) (k : Launch) : Launch :=
  { k with
    id := k.id + n, vf := v, ctx := s.ctxCopy v k.rcd.ctx, stage := .admitting, order := n + (k.id + 1)
    nextWg := k.wgdone, repl := k.repl && k.wgdone == 0, rollback := none, snap := [], snapAt := none, snapTracks := [], watches := []
    quiet := false, hard := false, noPlace := false, admitted := s.time, readyAt := s.time }

/-- The frames of a job's workgroups can be read as they are sent (R343). -/
def framesSound (s : State) (ids : List Nat) : Prop :=
  ∀ w ∈ s.wgs, w.launch ∈ ids → ∃ f, w.frame = some f ∧ gate s f.1 ≠ .refused ∧ s.badSectors f.1 f.2.length = []

/-- The sections that both relay engines have sent so far. -/
def sectionsSent (s : State) : Nat := (s.relays.map Relay.sections).sum

/-- Bodies sealed one after another: the session number and the count of sections make each nonce (R334). -/
def sealed (sess start : Nat) (l : List Body) : List Sealed :=
  l.mapIdx fun i b => ⟨b, sess * 2 ^ 64 + (start + i) % 2 ^ 64, true⟩

end Sys2Proof.Spec

/-- A relay at its source (R333, R334), at its destination, and its end (R335). The structured stream is log entry 15, the
entry at the destination log entry 19, an abort without a notification log entry 77. -/
def Obligations.Relays : Prop :=
  (∀ (s : State) (e : Nat) (r : Relay), s.halt = none → s.relays[e]? = some r →
    (r.phase = .idle ∨ r.phase = .done) → noBitmaps s r →
    exec (.relayStart e) s = .next { s with relays := oneRelay s e fun r => { r with
      phase := .copying, refused := false, pages := 0, round := 1, roundPages := 0, stream := [], phases := [] } }) ∧
  (∀ (s : State) (e : Nat), s.halt = none → exec (.relayAbort e) s =
    .next { s with relays := oneRelay s e fun r => { r with phase := .idle, stream := [], phases := [] } }) ∧
  (∀ (s : State) (e : Nat) (r : Relay), s.halt = none → s.relays[e]? = some r → r.phase = .copying →
    ((r.roundPages ≤ r.rlthr ∨ r.rlrounds ≤ r.round) → exec (.preCopyRoundEnd e) s = .next { s with
      relays := oneRelay s e fun r => { r with
        phase := .draining
        phases := ((s.launches.filter fun k => bits r.rljob 0 32 == k.rcd.job && bits r.rljob 32 5 == k.vf &&
          k.stage == .running && decide (0 < k.nextWg)).map fun k => k.rcd.phase).eraseDups } }) ∧
    (r.rlthr < r.roundPages → r.round < r.rlrounds → noBitmaps s r → exec (.preCopyRoundEnd e) s =
      .next { s with relays := oneRelay s e fun r => { r with round := r.round + 1, roundPages := 0 } })) ∧
  (∀ (s : State) (e : Nat) (r : Relay) (bodies : List Body), s.halt = none → s.relays[e]? = some r →
    r.phase = .draining → noBitmaps s r →
    (∀ w ∈ s.wgs, w.launch ∈ jobIds s r → w.phase = .swapped) →
    (∀ c ∈ s.cmds, c.launch ∈ jobIds s r → c.stopped = true) → (∀ p ∈ s.loads, p.launch ∉ jobIds s r) →
    (∀ q ∈ s.stores, q.launch ∉ jobIds s r) → (∀ m ∈ s.ringMsgs, m.launch ∉ jobIds s r) →
    bodies = (s.wgs.filter fun w => (jobIds s r).contains w.launch).map (fun w =>
        Body.frame w (s.cmds.filter fun c => c.lane.wg == w.id)) ++
      (s.launches.filter fun k => bits r.rljob 0 32 == k.rcd.job && bits r.rljob 32 5 == k.vf).map Body.qentry ++
      [.evc (s.vf (bits r.rljob 32 5)).evc, .fin] →
    framesSound s (jobIds s r) →
    ∃ u, exec (.relayDrainEnd e) s = .next u ∧
      u.relays = oneRelay s e (fun r => { r with
        phase := .sent, stream := r.stream ++ sealed r.rlsess (sectionsSent s) bodies
        sections := r.sections + bodies.length }) ∧
      u.wgs = s.wgs ∧ u.launches = s.launches ∧ u.cmds = s.cmds ∧ u.mem = s.mem) ∧
  (∀ (s : State) (i e v : Nat) (l : List Sealed), s.halt = none → s.inbox[i]? = some (e, v, l) →
    (∃ x ∈ l, x.pass = false) →
    exec (.relayStreamReceived i) s = .next ((({ s with
      fresh := s.fresh + 1, inbox := s.inbox.eraseIdx i } : State).countFabric 0x42).notify 32
        (relayRecord e (((streamEntries l).head?.map fun k => k.rcd.job).getD 0) v))) ∧
  (∀ (s s1 t : State) (i e v n1 n2 : Nat) (k : Launch) (f : LaunchRec) (img : Nat × Nat × Nat × Nat × Nat)
    (lists : List (Nat × Nat) × List Byte), s.halt = none → Inv s → v < 32 →
    s.inbox[i]? = some (e, v, [⟨.qentry k, n1, true⟩, ⟨.fin, n2, true⟩]) → s.queueUse v k.rcd.queue < 64 →
    s1 = { s with
      fresh := s.fresh + 1, inbox := s.inbox.eraseIdx i, serial := s.serial + (k.id + 1)
      launches := s.launches ++ [landedEntry s v s.serial k] } →
    Admits s1 (k.id + s.serial) (landedEntry s v s.serial k) t f img lists →
    ∃ u, exec (.relayStreamReceived i) s = .next u ∧
      u.launch? (k.id + s.serial) = some (admitted t (landedEntry s v s.serial k) f img lists) ∧ u.wgs = s.wgs ∧ u.inbox = s.inbox.eraseIdx i) ∧
  (∀ (s : State) (e : Nat) (r : Relay), s.halt = none → Inv s → noHard s → s.relays[e]? = some r →
    r.phase = .sent → (∀ w ∈ s.wgs, w.launch ∈ jobIds s r → w.phase = .swapped) →
    ∃ u, exec (.relayAck e) s = .next u ∧ u.launches = s.launches.map (movedAway r) ∧
      u.wgs = s.wgs.filter (fun w => !(jobIds s r).contains w.launch) ∧
      (u.relays[e]?).map Relay.phase = some .done ∧ u.loads = s.loads ∧ u.stores = s.stores ∧
      (hasRoom s s.pf.nq → u.pf.nq.head = (s.pf.nq.head + 1) % 2 ^ 32 ∧ u.msix.getLast? = some (32, 0) ∧
        (gate s (recordSlot s.pf.nq) = .ok → Memory.readN u.mem (recordSlot s.pf.nq) 32 =
          relayRecord e (bits r.rljob 0 32) (bits r.rljob 32 5)))) ∧
  ∀ (s : State) (e : Nat) (r : Relay), s.halt = none → s.relays[e]? = some r →
    (r.phase = .copying ∨ r.phase = .draining ∨ r.phase = .sent) →
    exec (.relayRefusal e) s = .next (({ s.countFabric 0x43 with
      relays := oneRelay s e fun r => { r with phase := .done, refused := true, stream := [], phases := [] } }
      : State).notify 32 (relayRecord e (bits r.rljob 0 32) (bits r.rljob 32 5)))

namespace Sys2Proof.Spec

/-! The whole machine. -/

/-- Bay `m.bay` of core `m.core` acts next: the group `g` at its port issues the word `w`, which decodes to `i`,
passes checks 1 to 5 of R70, and takes its last clock (R123); no other bay of the cluster, whose clock it shares, is
behind (R16). -/
structure Issues (s : State) (m : Move) (rest : List Move) (g : Group) (w : Dword) (i : Instr) : Prop where
  halt : s.halt = none
  moves : s.moves = m :: rest
  bay : m.ev = none
  port : (s.bay m.core m.bay).port = some g
  tenure : g.tenure < 7
  lanes : g.lanes ≠ []
  swap : ∀ l ∈ g.lanes, ∀ v, s.wg? l.wg = some v → v.phase ≠ .swapPending
  word : g.words[g.slot]? = some (.word w)
  decodes : decode w = .ok i
  admitted : classAdmits g.ecls (w.toNat / 2 ^ 54) = true
  last : 0x200 ≤ w.toNat / 2 ^ 54 → w.toNat / 2 ^ 54 ≤ 0x27F → w.toNat / 2 ^ 54 ≠ 0x214 →
    ∀ x ∈ g.words.drop (g.slot + 1), x = .filler
  clock : clocksOf i (g.lanes.filter fun l => (wordGuard w).holds (s.thread l)).length ≤ g.clock + 1
  turn : s.aheadOfCluster m.core m.bay = false

/-- The state after the schedule has moved on to a time. -/
def moved (s : State) (m : Move) (rest : List Move) : State := { s with moves := rest, time := max s.time m.time }

/-- The state in which a slot's instruction is executed: its bay acts, its cut groups have been tried anew (log entry 31),
and so is the slot; the last slot of a stride notes the temporaries (R167). -/
def atBay (s : State) (m : Move) (rest : List Move) : State :=
  let s := { (moved s m rest).retest exec m.core m.bay with focus := (m.core, m.bay) }
  s.setGroup fun g => { g with
    stalled := false, more := false
    before := if (g.words.drop (g.slot + 1)).all (fun x => x == .filler) && g.served.isEmpty then
        g.lanes.map fun l => (l, (s.thread l).temps) else g.before }

end Sys2Proof.Spec

/-- The step (R16, R29 to R48, R70). That time goes on by one with no move left, and that words are no events, are log
entry 5, the trial of stalled groups log entry 31, the end of reports after a step log entry 84. -/
def Obligations.StepRunsDecoded : Prop :=
  (∀ (s : State) (f : Fault), s.halt = some f → step s = .fault f) ∧
  (∀ s : State, s.halt = none → s.moves = [] → step s = .next { s with time := s.time + 1 }) ∧
  (∀ (s : State) (m : Move) (rest : List Move) (g : Group) (w : Dword) (i : Instr), Issues s m rest g w i →
    step s = andThen (exec i (atBay s m rest)) (afterSlot m.core m.bay) ∧
    ∀ (t : State) (g' : Group), exec i (atBay s m rest) = .next t → t.halt = none → t.focus = (m.core, m.bay) →
      (t.bay m.core m.bay).port = some g' →
      ((g'.lanes ≠ [] → (g'.stalled || g'.more) = true → ∃ u, step s = .next u ∧
          (u.bay m.core m.bay).port = some { g' with tenure := g'.tenure + 1, spent := true }) ∧
        (g'.lanes ≠ [] → (g'.stalled || g'.more) = false → (∃ x ∈ g'.words.drop (g'.slot + 1), x ≠ .filler) →
          ∃ u, step s = .next u ∧ (u.bay m.core m.bay).port = some { g' with
            slot := g'.slot + 1, clock := 0, served := [], work := [], tenure := g'.tenure + 1, spent := true }) ∧
        (g'.lanes ≠ [] → (g'.stalled || g'.more) = false → (∀ x ∈ g'.words.drop (g'.slot + 1), x = .filler) →
          noHard t → t.validIn m.core g' ((g'.pc.toNat + g'.size) % 2 ^ 64) = true →
          ∃ u, step s = .next u ∧ (u.bay m.core m.bay).port = none ∧
            ∀ l ∈ g'.lanes, (t.thread l).life ≠ .absent →
              (u.thread l).pc = BitVec.ofNat 64 ((g'.pc.toNat + g'.size) % 2 ^ 64) ∧ (u.thread l).slot = none))) ∧
  (∀ (s : State) (m : Move) (rest : List Move), s.halt = none → s.moves = m :: rest → m.ev = none →
    (moved s m rest).aheadOfCluster m.core m.bay = true → step s = .next (moved s m rest)) ∧
  (∀ (s : State) (m : Move) (rest : List Move) (i : Instr), s.halt = none → s.moves = m :: rest →
    m.ev = some i → encode i = none →
    step s = andThen (exec i (moved s m rest)) fun t => .next t.settleReports) ∧
  ∀ (s : State) (m : Move) (rest : List Move) (i : Instr) (w : Dword), s.halt = none → s.moves = m :: rest →
    m.ev = some i → encode i = some w → step s = .next (moved s m rest)

/-- Reset (R310, R313, R336, R339). -/
def Obligations.ResetState : Prop :=
  State.reset.halt = none ∧ Inv State.reset ∧ State.reset.wgs = [] ∧ State.reset.launches = [] ∧
    State.reset.loads = [] ∧ State.reset.stores = [] ∧ State.reset.cmds = [] ∧
    (∀ v, v < 32 → (State.reset.vf v).nq.size = 4) ∧ State.reset.pf.nq.size = 4 ∧
    (∀ k, Map.get 0#64 State.reset.pf.svc k = 0#64) ∧
    State.reset.age.length = 24 ∧ (∀ a ∈ State.reset.age, a.cap = 76) ∧
    State.reset.dies.length = 4 ∧ ∀ d ∈ State.reset.dies, d.state ≠ .inService

/-- The invariant of every step: the canonical forms and the serial numbers are the model's (log entry 5). -/
def Obligations.InvariantKept : Prop := ∀ s t : State, Inv s → step s = .next t → Inv t

namespace Sys2Proof.Spec

/-- The code of an operand (R63) and the guard p7 (R55), as the examples of the spec write them. -/
def greg (n : Nat) : Opnd := .g (BitVec.ofNat 8 n)
def temp (n : Nat) : Opnd := .t (BitVec.ofNat 3 n)
def cnst (code : Nat) : Opnd := .c (BitVec.ofNat 6 (code - 400))
def always : Guard := ⟨7#3, false⟩
def ifp (n : Nat) : Guard := ⟨BitVec.ofNat 3 n, false⟩

end Sys2Proof.Spec

/-- Worked words of files 03, 06, 09, 11, 12, 13, 17, 19, 20, 22, 24 and 26. -/
def Obligations.DecodeWords : Prop :=
  decode 0x08B80800CB001800#64 = .ok (.shr always .w32 (greg 4) (greg 0) (cnst 406)) ∧
  decode 0x0C7806000000003F#64 = .ok (.andI always (greg 3) (greg 0) 63#32) ∧
  decode 0x02B8120905644800#64 = .ok (.imad always .i32 (greg 9) (greg 9) (greg 10) (cnst 401)) ∧
  decode 0x16F9040400000064#64 = .ok (.icmpI always .lt 2#3 (greg 4) 100#32) ∧
  decode 0x41B8120905706080#64 = .ok (.ffma always .rz (greg 9) (greg 9) (greg 10) (cnst 449)) ∧
  decode 0x5038241100002C48#64 = .ok (.cvt always .e4m3 .bf16 .rne (greg 18) (greg 17)) ∧
  decode 0x6138120800002006#64 = .ok (.redx always .f32 .fadd (greg 9) (greg 8)) ∧
  decode 0x61BB078200000802#64 = .ok (.scanx always .i32 .max false (temp 3) (temp 2)) ∧
  decode 0x80200000FFFFFFE8#64 = .ok (.bra (ifp 4) 0xFFFFFFE8#32) ∧
  decode 0x81B8001800000000#64 = .ok (.callx always (greg 24) 0#32) ∧
  decode 0x83380003D8000002#64 = .ok (.yield always (.wptr (greg 3) (cnst 432))) ∧
  decode 0x83B8000000000007#64 = .ok (.trap always 7#32) ∧
  decode 0xA0381014D0002004#64 = .ok (.ld always .f32 1#3 (greg 8) (greg 20) (cnst 416)) ∧
  decode 0xA1B81616C8001940#64 = .ok (.sta always .w32 .dev .rel .global (greg 11) (greg 22) (cnst 400)) ∧
  decode 0xA2304820C8001A54#64 = .ok (.atomAdd (ifp 6) .w32 .sys .rel 5#3 .global (greg 36) (greg 32) (cnst 400)) ∧
  decode 0xA638000000000006#64 = .ok (.twait always 6#8) ∧
  decode 0xA878000A06640000#64 = .ok (.bexp always (greg 10) (greg 12) (cnst 400)) ∧
  decode 0xAC7820120A000000#64 = .ok (.apost always .add (greg 16) (greg 18) (greg 20)) ∧
  decode 0xBC78219100000000#64 = .ok (.movsw always .aset (cnst 401)) ∧
  decode 0xBCB80193C8800000#64 = .ok (.pkset always (cnst 403) (cnst 401)) ∧
  decode 0xC138002800000800#64 = .ok (.mma always .s1 .s1 2#3 (greg 40)) ∧
  decode 0xC638002000000C06#64 = .ok (.att always false true true 3#3 (greg 32)) ∧
  decode 0xD03800060002A000#64 = .ok (.cpy always (.bar (greg 10)) (greg 6)) ∧
  decode 0xD238003000001001#64 = .ok (.rngsnd always true 4#3 (greg 48)) ∧
  decode 0xFFC0000000000000#64 = .reject .unassigned ∧
  decode 0x08B80800CB001801#64 = .reject .reserved

/-- Decode and encode agree in both directions (R55 to R69). -/
def Obligations.RoundTrip : Prop :=
  (∀ (i : Instr) (n : Nat), encodeNat i = some n → i.wf = true → n < 2 ^ 64) ∧
  (∀ (i : Instr) (w : Dword), i.wf = true → encode i = some w → decode w = .ok i) ∧
  ∀ (i : Instr) (w : Dword), decode w = .ok i → i.wf = true ∧ encode i = some w

namespace Sys2Proof.Spec

/-! Exact values (R93, R96, R116). -/

/-- The number that an exact value stands for, if it is finite. -/
def valueOf : Machine.Num → Option ℚ
  | .fin neg n d e => some ((if neg then -1 else 1) * ((n : ℚ) / d * 2 ^ e))
  | _ => none

/-- `m` is the positive value `x` rounded to an integer in a mode (R103, R104, R107). -/
def integerOf (mode : Rnd) (rand : Nat) (neg : Bool) (x : ℚ) (m : Nat) : Prop :=
  ∃ lo : Nat, (lo : ℚ) ≤ x ∧ x < (lo : ℚ) + 1 ∧
    ((takesUpper mode rand neg lo (x - lo) ∧ m = lo + 1) ∨ (¬takesUpper mode rand neg lo (x - lo) ∧ m = lo))

/-- The range of an integer type of `w` bits (R97). -/
def leastInt (sg : Bool) (w : Nat) : Int := if sg then -2 ^ (w - 1) else 0
def greatestInt (sg : Bool) (w : Nat) : Int := if sg then 2 ^ (w - 1) - 1 else 2 ^ w - 1

/-- A denominator is not zero. -/
def proper : Machine.Num → Prop
  | .fin _ _ d _ => 0 < d
  | _ => True

end Sys2Proof.Spec

/-- Exact values (R93, R116) and the rounding function (R103 to R107). -/
def Obligations.RoundingIsCorrect : Prop :=
  (∀ (f : Fmt) (w : Nat), f ∈ formats → w < 2 ^ (f.sign + 1) →
    let m := w % 2 ^ f.sign
    let neg := decide (2 ^ f.sign ≤ w)
    (f.firstNan ≤ m → Machine.Num.ofBits f w = .nan) ∧ (f.inf = some m → Machine.Num.ofBits f w = .inf neg) ∧
    (m ≤ f.maxBits → valueOf (Machine.Num.ofBits f w) = some ((if neg then -1 else 1) * magnitude f m) ∧
      (Machine.Num.ofBits f w).negative = neg)) ∧
  (∀ (z : Bool) (x y : Machine.Num) (a b : ℚ), proper x → proper y → valueOf x = some a → valueOf y = some b →
    valueOf (Machine.Num.add z x y) = some (a + b) ∧ valueOf (x.mul y) = some (a * b) ∧
    proper (Machine.Num.add z x y) ∧ proper (x.mul y) ∧ (x.mul y).negative = (x.negative ^^ y.negative)) ∧
  (∀ (z : Bool) (xs : List Machine.Num) (as : List ℚ), (∀ x ∈ xs, proper x) → xs.map valueOf = as.map some →
    valueOf (Machine.Num.sum z xs) = some as.sum) ∧
  (∀ (f : Fmt) (mode : Rnd) (rand : Nat) (neg : Bool), f ∈ formats → rand < 2 ^ 32 →
    (∀ (n d : Nat) (e : Int) (x : ℚ), 0 < n → 0 < d → x = (n : ℚ) / d * 2 ^ e →
      ∃ (m : Nat) (nx uf ov : Bool), roundsTo f mode rand neg x m ∧
        roundNum f mode rand (.fin neg n d e) =
          ((if neg then 2 ^ f.sign else 0) + (if m ≤ f.maxBits then m else limitOf f mode neg),
            (if nx then 16 else 0) + (if uf then 8 else 0) + (if ov then 4 else 0)) ∧
        (nx = true ↔ f.maxBits < m ∨ magnitude f m ≠ x) ∧
        (uf = true ↔ magnitude f m ≠ x ∧ x < (2 : ℚ) ^ (1 - (f.bias : ℤ))) ∧
        (ov = true ↔ f.maxBits < m ∨ ((mode = .rz ∨ mode = .ru ∨ mode = .rd) ∧ magnitude f f.maxBits < x))) ∧
    (∀ (d : Nat) (e : Int), roundNum f mode rand (.fin neg 0 d e) = (if neg then 2 ^ f.sign else 0, 0)) ∧
    roundNum f mode rand (.inf neg) = (match f.inf with
      | some i => ((if neg then 2 ^ f.sign else 0) + i, 0)
      | none => ((if neg then 2 ^ f.sign else 0) + f.maxBits, 20))) ∧
  ∀ (mode : Rnd) (rand : Nat) (neg sg : Bool) (w : Nat), rand < 2 ^ 32 → 0 < w →
    (∀ (n d : Nat) (e : Int) (x : ℚ), 0 < d → x = (n : ℚ) / d * 2 ^ e →
      ∃ (m : Nat) (i c : Int) (exact : Bool), integerOf mode rand neg x m ∧ i = (if neg then -(m : Int) else m) ∧
        (exact = true ↔ (m : ℚ) = x) ∧ roundInt mode rand neg n d e = (i, exact) ∧
        c = max (leastInt sg w) (min (greatestInt sg w) i) ∧
        roundToInt sg w mode rand (.fin neg n d e) =
          ((c % 2 ^ w).toNat, (if exact = true ∧ c = i then 0 else 16) + (if c = i then 0 else 4))) ∧
    roundToInt sg w mode rand (.inf neg) = (((if neg then leastInt sg w else greatestInt sg w) % 2 ^ w).toNat, 20) ∧
    roundToInt sg w mode rand .nan = (0, 1)

/-- Translation (R290 to R294). -/
def Obligations.Translation : Prop :=
  ∀ (s : State) (ctx : CtxCopy) (unit : TUnit) (die : Nat) (core : Option Nat) (perm : Dword) (k : AccKind) (va : Nat),
    (∀ e ∈ s.tlb, e.tag ≠ ctx.tag) →
    (2 ^ 48 ≤ va → translate s ctx unit die core perm k va = (s, .high)) ∧
    ∀ p3 p2 p1 p0 e, va < 2 ^ 48 → Walked s ctx.root va p3 p2 p1 p0 → e = s.read64 p0 →
      (bit e 0 = false → ∃ dies, translate s ctx unit die core perm k va = ({ s with dieUse := dies }, .fault e p0)) ∧
      (isLeaf e → (bits e 3 2 = 1 ∨ bits e 3 2 = 3) → (∀ l ∈ s.launches, ∀ p ∈ l.snap, p.leafPa ≠ p0) →
        (¬permits k perm e → ∃ dies, translate s ctx unit die core perm k va = ({ s with dieUse := dies }, .deny)) ∧
        (permits k perm e → bit e 10 = true →
          gate s (pageFrame e + va % 4096) = .ok → paExists (pageFrame e + va % 4096) = true →
          ∃ tlb dies, translate s ctx unit die core perm k va =
            ({ s with tlb := tlb, dieUse := dies },
              .ok ⟨false, pageFrame e + va % 4096, if bits e 3 2 = 1 then .shared else .uncached, 2048, false, [unit],
                [p3 / 128, p2 / 128, p1 / 128, p0 / 128], false, some p0⟩ p0)))

namespace Sys2Proof.Spec
end Sys2Proof.Spec
end

