-- ==== Sys2Proof/Laws/State.lean ====
section
/-! SUPPORT. What each named update of the state leaves alone and what it changes, field by field, so that no
proof unfolds a record update. -/

set_option Elab.async false

namespace Sys2Proof.Machine

variable (s : State)

/-! State.setWg. -/

@[simp] theorem State.setWg_time (id : Nat) (f : Workgroup → Workgroup) : (s.setWg id f).time = s.time := rfl
@[simp] theorem State.setWg_wgs (id : Nat) (f : Workgroup → Workgroup) :
    (s.setWg id f).wgs = s.wgs.map fun w => if w.id == id then f w else w := rfl
@[simp] theorem State.setWg_cores (id : Nat) (f : Workgroup → Workgroup) : (s.setWg id f).cores = s.cores := rfl
@[simp] theorem State.setWg_mem (id : Nat) (f : Workgroup → Workgroup) : (s.setWg id f).mem = s.mem := rfl
@[simp] theorem State.setWg_chk (id : Nat) (f : Workgroup → Workgroup) : (s.setWg id f).chk = s.chk := rfl
@[simp] theorem State.setWg_poison (id : Nat) (f : Workgroup → Workgroup) : (s.setWg id f).poison = s.poison := rfl
@[simp] theorem State.setWg_helped (id : Nat) (f : Workgroup → Workgroup) : (s.setWg id f).helped = s.helped := rfl
@[simp] theorem State.setWg_pub (id : Nat) (f : Workgroup → Workgroup) : (s.setWg id f).pub = s.pub := rfl
@[simp] theorem State.setWg_loads (id : Nat) (f : Workgroup → Workgroup) : (s.setWg id f).loads = s.loads := rfl
@[simp] theorem State.setWg_stores (id : Nat) (f : Workgroup → Workgroup) : (s.setWg id f).stores = s.stores := rfl
@[simp] theorem State.setWg_tracks (id : Nat) (f : Workgroup → Workgroup) : (s.setWg id f).tracks = s.tracks := rfl
@[simp] theorem State.setWg_copies (id : Nat) (f : Workgroup → Workgroup) : (s.setWg id f).copies = s.copies := rfl
@[simp] theorem State.setWg_grants (id : Nat) (f : Workgroup → Workgroup) : (s.setWg id f).grants = s.grants := rfl
@[simp] theorem State.setWg_grantNo (id : Nat) (f : Workgroup → Workgroup) : (s.setWg id f).grantNo = s.grantNo := rfl
@[simp] theorem State.setWg_narrow (id : Nat) (f : Workgroup → Workgroup) : (s.setWg id f).narrow = s.narrow := rfl
@[simp] theorem State.setWg_invals (id : Nat) (f : Workgroup → Workgroup) : (s.setWg id f).invals = s.invals := rfl
@[simp] theorem State.setWg_tlb (id : Nat) (f : Workgroup → Workgroup) : (s.setWg id f).tlb = s.tlb := rfl
@[simp] theorem State.setWg_tinvals (id : Nat) (f : Workgroup → Workgroup) : (s.setWg id f).tinvals = s.tinvals := rfl
@[simp] theorem State.setWg_refusals (id : Nat) (f : Workgroup → Workgroup) : (s.setWg id f).refusals = s.refusals := rfl
@[simp] theorem State.setWg_resvs (id : Nat) (f : Workgroup → Workgroup) : (s.setWg id f).resvs = s.resvs := rfl
@[simp] theorem State.setWg_dirty (id : Nat) (f : Workgroup → Workgroup) : (s.setWg id f).dirty = s.dirty := rfl
@[simp] theorem State.setWg_sliceFaults (id : Nat) (f : Workgroup → Workgroup) : (s.setWg id f).sliceFaults = s.sliceFaults := rfl
@[simp] theorem State.setWg_arb (id : Nat) (f : Workgroup → Workgroup) : (s.setWg id f).arb = s.arb := rfl
@[simp] theorem State.setWg_migReqs (id : Nat) (f : Workgroup → Workgroup) : (s.setWg id f).migReqs = s.migReqs := rfl
@[simp] theorem State.setWg_reported (id : Nat) (f : Workgroup → Workgroup) : (s.setWg id f).reported = s.reported := rfl
@[simp] theorem State.setWg_armed (id : Nat) (f : Workgroup → Workgroup) : (s.setWg id f).armed = s.armed := rfl
@[simp] theorem State.setWg_responses (id : Nat) (f : Workgroup → Workgroup) : (s.setWg id f).responses = s.responses := rfl
@[simp] theorem State.setWg_deadLinks (id : Nat) (f : Workgroup → Workgroup) : (s.setWg id f).deadLinks = s.deadLinks := rfl
@[simp] theorem State.setWg_cmds (id : Nat) (f : Workgroup → Workgroup) : (s.setWg id f).cmds = s.cmds := rfl
@[simp] theorem State.setWg_ringMsgs (id : Nat) (f : Workgroup → Workgroup) : (s.setWg id f).ringMsgs = s.ringMsgs := rfl
@[simp] theorem State.setWg_launches (id : Nat) (f : Workgroup → Workgroup) : (s.setWg id f).launches = s.launches := rfl
@[simp] theorem State.setWg_vfs (id : Nat) (f : Workgroup → Workgroup) : (s.setWg id f).vfs = s.vfs := rfl
@[simp] theorem State.setWg_pf (id : Nat) (f : Workgroup → Workgroup) : (s.setWg id f).pf = s.pf := rfl
@[simp] theorem State.setWg_msix (id : Nat) (f : Workgroup → Workgroup) : (s.setWg id f).msix = s.msix := rfl
@[simp] theorem State.setWg_turns (id : Nat) (f : Workgroup → Workgroup) : (s.setWg id f).turns = s.turns := rfl
@[simp] theorem State.setWg_marks (id : Nat) (f : Workgroup → Workgroup) : (s.setWg id f).marks = s.marks := rfl
@[simp] theorem State.setWg_snapMarks (id : Nat) (f : Workgroup → Workgroup) : (s.setWg id f).snapMarks = s.snapMarks := rfl
@[simp] theorem State.setWg_relays (id : Nat) (f : Workgroup → Workgroup) : (s.setWg id f).relays = s.relays := rfl
@[simp] theorem State.setWg_inbox (id : Nat) (f : Workgroup → Workgroup) : (s.setWg id f).inbox = s.inbox := rfl
@[simp] theorem State.setWg_age (id : Nat) (f : Workgroup → Workgroup) : (s.setWg id f).age = s.age := rfl
@[simp] theorem State.setWg_dieUse (id : Nat) (f : Workgroup → Workgroup) : (s.setWg id f).dieUse = s.dieUse := rfl
@[simp] theorem State.setWg_kills (id : Nat) (f : Workgroup → Workgroup) : (s.setWg id f).kills = s.kills := rfl
@[simp] theorem State.setWg_dies (id : Nat) (f : Workgroup → Workgroup) : (s.setWg id f).dies = s.dies := rfl
@[simp] theorem State.setWg_bring (id : Nat) (f : Workgroup → Workgroup) : (s.setWg id f).bring = s.bring := rfl
@[simp] theorem State.setWg_moves (id : Nat) (f : Workgroup → Workgroup) : (s.setWg id f).moves = s.moves := rfl
@[simp] theorem State.setWg_focus (id : Nat) (f : Workgroup → Workgroup) : (s.setWg id f).focus = s.focus := rfl
@[simp] theorem State.setWg_fresh (id : Nat) (f : Workgroup → Workgroup) : (s.setWg id f).fresh = s.fresh := rfl
@[simp] theorem State.setWg_serial (id : Nat) (f : Workgroup → Workgroup) : (s.setWg id f).serial = s.serial := rfl
@[simp] theorem State.setWg_halt (id : Nat) (f : Workgroup → Workgroup) : (s.setWg id f).halt = s.halt := rfl

/-! State.setRig. -/

@[simp] theorem State.setRig_time (wg rig : Nat) (f : Rig → Rig) : (s.setRig wg rig f).time = s.time := rfl
@[simp] theorem State.setRig_cores (wg rig : Nat) (f : Rig → Rig) : (s.setRig wg rig f).cores = s.cores := rfl
@[simp] theorem State.setRig_mem (wg rig : Nat) (f : Rig → Rig) : (s.setRig wg rig f).mem = s.mem := rfl
@[simp] theorem State.setRig_chk (wg rig : Nat) (f : Rig → Rig) : (s.setRig wg rig f).chk = s.chk := rfl
@[simp] theorem State.setRig_poison (wg rig : Nat) (f : Rig → Rig) : (s.setRig wg rig f).poison = s.poison := rfl
@[simp] theorem State.setRig_helped (wg rig : Nat) (f : Rig → Rig) : (s.setRig wg rig f).helped = s.helped := rfl
@[simp] theorem State.setRig_pub (wg rig : Nat) (f : Rig → Rig) : (s.setRig wg rig f).pub = s.pub := rfl
@[simp] theorem State.setRig_loads (wg rig : Nat) (f : Rig → Rig) : (s.setRig wg rig f).loads = s.loads := rfl
@[simp] theorem State.setRig_stores (wg rig : Nat) (f : Rig → Rig) : (s.setRig wg rig f).stores = s.stores := rfl
@[simp] theorem State.setRig_tracks (wg rig : Nat) (f : Rig → Rig) : (s.setRig wg rig f).tracks = s.tracks := rfl
@[simp] theorem State.setRig_copies (wg rig : Nat) (f : Rig → Rig) : (s.setRig wg rig f).copies = s.copies := rfl
@[simp] theorem State.setRig_grants (wg rig : Nat) (f : Rig → Rig) : (s.setRig wg rig f).grants = s.grants := rfl
@[simp] theorem State.setRig_grantNo (wg rig : Nat) (f : Rig → Rig) : (s.setRig wg rig f).grantNo = s.grantNo := rfl
@[simp] theorem State.setRig_narrow (wg rig : Nat) (f : Rig → Rig) : (s.setRig wg rig f).narrow = s.narrow := rfl
@[simp] theorem State.setRig_invals (wg rig : Nat) (f : Rig → Rig) : (s.setRig wg rig f).invals = s.invals := rfl
@[simp] theorem State.setRig_tlb (wg rig : Nat) (f : Rig → Rig) : (s.setRig wg rig f).tlb = s.tlb := rfl
@[simp] theorem State.setRig_tinvals (wg rig : Nat) (f : Rig → Rig) : (s.setRig wg rig f).tinvals = s.tinvals := rfl
@[simp] theorem State.setRig_refusals (wg rig : Nat) (f : Rig → Rig) : (s.setRig wg rig f).refusals = s.refusals := rfl
@[simp] theorem State.setRig_resvs (wg rig : Nat) (f : Rig → Rig) : (s.setRig wg rig f).resvs = s.resvs := rfl
@[simp] theorem State.setRig_dirty (wg rig : Nat) (f : Rig → Rig) : (s.setRig wg rig f).dirty = s.dirty := rfl
@[simp] theorem State.setRig_sliceFaults (wg rig : Nat) (f : Rig → Rig) : (s.setRig wg rig f).sliceFaults = s.sliceFaults := rfl
@[simp] theorem State.setRig_arb (wg rig : Nat) (f : Rig → Rig) : (s.setRig wg rig f).arb = s.arb := rfl
@[simp] theorem State.setRig_migReqs (wg rig : Nat) (f : Rig → Rig) : (s.setRig wg rig f).migReqs = s.migReqs := rfl
@[simp] theorem State.setRig_reported (wg rig : Nat) (f : Rig → Rig) : (s.setRig wg rig f).reported = s.reported := rfl
@[simp] theorem State.setRig_armed (wg rig : Nat) (f : Rig → Rig) : (s.setRig wg rig f).armed = s.armed := rfl
@[simp] theorem State.setRig_responses (wg rig : Nat) (f : Rig → Rig) : (s.setRig wg rig f).responses = s.responses := rfl
@[simp] theorem State.setRig_deadLinks (wg rig : Nat) (f : Rig → Rig) : (s.setRig wg rig f).deadLinks = s.deadLinks := rfl
@[simp] theorem State.setRig_cmds (wg rig : Nat) (f : Rig → Rig) : (s.setRig wg rig f).cmds = s.cmds := rfl
@[simp] theorem State.setRig_ringMsgs (wg rig : Nat) (f : Rig → Rig) : (s.setRig wg rig f).ringMsgs = s.ringMsgs := rfl
@[simp] theorem State.setRig_launches (wg rig : Nat) (f : Rig → Rig) : (s.setRig wg rig f).launches = s.launches := rfl
@[simp] theorem State.setRig_vfs (wg rig : Nat) (f : Rig → Rig) : (s.setRig wg rig f).vfs = s.vfs := rfl
@[simp] theorem State.setRig_pf (wg rig : Nat) (f : Rig → Rig) : (s.setRig wg rig f).pf = s.pf := rfl
@[simp] theorem State.setRig_msix (wg rig : Nat) (f : Rig → Rig) : (s.setRig wg rig f).msix = s.msix := rfl
@[simp] theorem State.setRig_turns (wg rig : Nat) (f : Rig → Rig) : (s.setRig wg rig f).turns = s.turns := rfl
@[simp] theorem State.setRig_marks (wg rig : Nat) (f : Rig → Rig) : (s.setRig wg rig f).marks = s.marks := rfl
@[simp] theorem State.setRig_snapMarks (wg rig : Nat) (f : Rig → Rig) : (s.setRig wg rig f).snapMarks = s.snapMarks := rfl
@[simp] theorem State.setRig_relays (wg rig : Nat) (f : Rig → Rig) : (s.setRig wg rig f).relays = s.relays := rfl
@[simp] theorem State.setRig_inbox (wg rig : Nat) (f : Rig → Rig) : (s.setRig wg rig f).inbox = s.inbox := rfl
@[simp] theorem State.setRig_age (wg rig : Nat) (f : Rig → Rig) : (s.setRig wg rig f).age = s.age := rfl
@[simp] theorem State.setRig_dieUse (wg rig : Nat) (f : Rig → Rig) : (s.setRig wg rig f).dieUse = s.dieUse := rfl
@[simp] theorem State.setRig_kills (wg rig : Nat) (f : Rig → Rig) : (s.setRig wg rig f).kills = s.kills := rfl
@[simp] theorem State.setRig_dies (wg rig : Nat) (f : Rig → Rig) : (s.setRig wg rig f).dies = s.dies := rfl
@[simp] theorem State.setRig_bring (wg rig : Nat) (f : Rig → Rig) : (s.setRig wg rig f).bring = s.bring := rfl
@[simp] theorem State.setRig_moves (wg rig : Nat) (f : Rig → Rig) : (s.setRig wg rig f).moves = s.moves := rfl
@[simp] theorem State.setRig_focus (wg rig : Nat) (f : Rig → Rig) : (s.setRig wg rig f).focus = s.focus := rfl
@[simp] theorem State.setRig_fresh (wg rig : Nat) (f : Rig → Rig) : (s.setRig wg rig f).fresh = s.fresh := rfl
@[simp] theorem State.setRig_serial (wg rig : Nat) (f : Rig → Rig) : (s.setRig wg rig f).serial = s.serial := rfl
@[simp] theorem State.setRig_halt (wg rig : Nat) (f : Rig → Rig) : (s.setRig wg rig f).halt = s.halt := rfl

/-! State.setThread. -/

@[simp] theorem State.setThread_time (l : LaneRef) (f : Thread → Thread) : (s.setThread l f).time = s.time := rfl
@[simp] theorem State.setThread_cores (l : LaneRef) (f : Thread → Thread) : (s.setThread l f).cores = s.cores := rfl
@[simp] theorem State.setThread_mem (l : LaneRef) (f : Thread → Thread) : (s.setThread l f).mem = s.mem := rfl
@[simp] theorem State.setThread_chk (l : LaneRef) (f : Thread → Thread) : (s.setThread l f).chk = s.chk := rfl
@[simp] theorem State.setThread_poison (l : LaneRef) (f : Thread → Thread) : (s.setThread l f).poison = s.poison := rfl
@[simp] theorem State.setThread_helped (l : LaneRef) (f : Thread → Thread) : (s.setThread l f).helped = s.helped := rfl
@[simp] theorem State.setThread_pub (l : LaneRef) (f : Thread → Thread) : (s.setThread l f).pub = s.pub := rfl
@[simp] theorem State.setThread_loads (l : LaneRef) (f : Thread → Thread) : (s.setThread l f).loads = s.loads := rfl
@[simp] theorem State.setThread_stores (l : LaneRef) (f : Thread → Thread) : (s.setThread l f).stores = s.stores := rfl
@[simp] theorem State.setThread_tracks (l : LaneRef) (f : Thread → Thread) : (s.setThread l f).tracks = s.tracks := rfl
@[simp] theorem State.setThread_copies (l : LaneRef) (f : Thread → Thread) : (s.setThread l f).copies = s.copies := rfl
@[simp] theorem State.setThread_grants (l : LaneRef) (f : Thread → Thread) : (s.setThread l f).grants = s.grants := rfl
@[simp] theorem State.setThread_grantNo (l : LaneRef) (f : Thread → Thread) : (s.setThread l f).grantNo = s.grantNo := rfl
@[simp] theorem State.setThread_narrow (l : LaneRef) (f : Thread → Thread) : (s.setThread l f).narrow = s.narrow := rfl
@[simp] theorem State.setThread_invals (l : LaneRef) (f : Thread → Thread) : (s.setThread l f).invals = s.invals := rfl
@[simp] theorem State.setThread_tlb (l : LaneRef) (f : Thread → Thread) : (s.setThread l f).tlb = s.tlb := rfl
@[simp] theorem State.setThread_tinvals (l : LaneRef) (f : Thread → Thread) : (s.setThread l f).tinvals = s.tinvals := rfl
@[simp] theorem State.setThread_refusals (l : LaneRef) (f : Thread → Thread) : (s.setThread l f).refusals = s.refusals := rfl
@[simp] theorem State.setThread_resvs (l : LaneRef) (f : Thread → Thread) : (s.setThread l f).resvs = s.resvs := rfl
@[simp] theorem State.setThread_dirty (l : LaneRef) (f : Thread → Thread) : (s.setThread l f).dirty = s.dirty := rfl
@[simp] theorem State.setThread_sliceFaults (l : LaneRef) (f : Thread → Thread) : (s.setThread l f).sliceFaults = s.sliceFaults := rfl
@[simp] theorem State.setThread_arb (l : LaneRef) (f : Thread → Thread) : (s.setThread l f).arb = s.arb := rfl
@[simp] theorem State.setThread_migReqs (l : LaneRef) (f : Thread → Thread) : (s.setThread l f).migReqs = s.migReqs := rfl
@[simp] theorem State.setThread_reported (l : LaneRef) (f : Thread → Thread) : (s.setThread l f).reported = s.reported := rfl
@[simp] theorem State.setThread_armed (l : LaneRef) (f : Thread → Thread) : (s.setThread l f).armed = s.armed := rfl
@[simp] theorem State.setThread_responses (l : LaneRef) (f : Thread → Thread) : (s.setThread l f).responses = s.responses := rfl
@[simp] theorem State.setThread_deadLinks (l : LaneRef) (f : Thread → Thread) : (s.setThread l f).deadLinks = s.deadLinks := rfl
@[simp] theorem State.setThread_cmds (l : LaneRef) (f : Thread → Thread) : (s.setThread l f).cmds = s.cmds := rfl
@[simp] theorem State.setThread_ringMsgs (l : LaneRef) (f : Thread → Thread) : (s.setThread l f).ringMsgs = s.ringMsgs := rfl
@[simp] theorem State.setThread_launches (l : LaneRef) (f : Thread → Thread) : (s.setThread l f).launches = s.launches := rfl
@[simp] theorem State.setThread_vfs (l : LaneRef) (f : Thread → Thread) : (s.setThread l f).vfs = s.vfs := rfl
@[simp] theorem State.setThread_pf (l : LaneRef) (f : Thread → Thread) : (s.setThread l f).pf = s.pf := rfl
@[simp] theorem State.setThread_msix (l : LaneRef) (f : Thread → Thread) : (s.setThread l f).msix = s.msix := rfl
@[simp] theorem State.setThread_turns (l : LaneRef) (f : Thread → Thread) : (s.setThread l f).turns = s.turns := rfl
@[simp] theorem State.setThread_marks (l : LaneRef) (f : Thread → Thread) : (s.setThread l f).marks = s.marks := rfl
@[simp] theorem State.setThread_snapMarks (l : LaneRef) (f : Thread → Thread) : (s.setThread l f).snapMarks = s.snapMarks := rfl
@[simp] theorem State.setThread_relays (l : LaneRef) (f : Thread → Thread) : (s.setThread l f).relays = s.relays := rfl
@[simp] theorem State.setThread_inbox (l : LaneRef) (f : Thread → Thread) : (s.setThread l f).inbox = s.inbox := rfl
@[simp] theorem State.setThread_age (l : LaneRef) (f : Thread → Thread) : (s.setThread l f).age = s.age := rfl
@[simp] theorem State.setThread_dieUse (l : LaneRef) (f : Thread → Thread) : (s.setThread l f).dieUse = s.dieUse := rfl
@[simp] theorem State.setThread_kills (l : LaneRef) (f : Thread → Thread) : (s.setThread l f).kills = s.kills := rfl
@[simp] theorem State.setThread_dies (l : LaneRef) (f : Thread → Thread) : (s.setThread l f).dies = s.dies := rfl
@[simp] theorem State.setThread_bring (l : LaneRef) (f : Thread → Thread) : (s.setThread l f).bring = s.bring := rfl
@[simp] theorem State.setThread_moves (l : LaneRef) (f : Thread → Thread) : (s.setThread l f).moves = s.moves := rfl
@[simp] theorem State.setThread_focus (l : LaneRef) (f : Thread → Thread) : (s.setThread l f).focus = s.focus := rfl
@[simp] theorem State.setThread_fresh (l : LaneRef) (f : Thread → Thread) : (s.setThread l f).fresh = s.fresh := rfl
@[simp] theorem State.setThread_serial (l : LaneRef) (f : Thread → Thread) : (s.setThread l f).serial = s.serial := rfl
@[simp] theorem State.setThread_halt (l : LaneRef) (f : Thread → Thread) : (s.setThread l f).halt = s.halt := rfl

/-! State.setCore. -/

@[simp] theorem State.setCore_time (c : Nat) (f : Core → Core) : (s.setCore c f).time = s.time := rfl
@[simp] theorem State.setCore_wgs (c : Nat) (f : Core → Core) : (s.setCore c f).wgs = s.wgs := rfl
@[simp] theorem State.setCore_cores (c : Nat) (f : Core → Core) :
    (s.setCore c f).cores = modifyAt s.cores c f := rfl
@[simp] theorem State.setCore_mem (c : Nat) (f : Core → Core) : (s.setCore c f).mem = s.mem := rfl
@[simp] theorem State.setCore_chk (c : Nat) (f : Core → Core) : (s.setCore c f).chk = s.chk := rfl
@[simp] theorem State.setCore_poison (c : Nat) (f : Core → Core) : (s.setCore c f).poison = s.poison := rfl
@[simp] theorem State.setCore_helped (c : Nat) (f : Core → Core) : (s.setCore c f).helped = s.helped := rfl
@[simp] theorem State.setCore_pub (c : Nat) (f : Core → Core) : (s.setCore c f).pub = s.pub := rfl
@[simp] theorem State.setCore_loads (c : Nat) (f : Core → Core) : (s.setCore c f).loads = s.loads := rfl
@[simp] theorem State.setCore_stores (c : Nat) (f : Core → Core) : (s.setCore c f).stores = s.stores := rfl
@[simp] theorem State.setCore_tracks (c : Nat) (f : Core → Core) : (s.setCore c f).tracks = s.tracks := rfl
@[simp] theorem State.setCore_copies (c : Nat) (f : Core → Core) : (s.setCore c f).copies = s.copies := rfl
@[simp] theorem State.setCore_grants (c : Nat) (f : Core → Core) : (s.setCore c f).grants = s.grants := rfl
@[simp] theorem State.setCore_grantNo (c : Nat) (f : Core → Core) : (s.setCore c f).grantNo = s.grantNo := rfl
@[simp] theorem State.setCore_narrow (c : Nat) (f : Core → Core) : (s.setCore c f).narrow = s.narrow := rfl
@[simp] theorem State.setCore_invals (c : Nat) (f : Core → Core) : (s.setCore c f).invals = s.invals := rfl
@[simp] theorem State.setCore_tlb (c : Nat) (f : Core → Core) : (s.setCore c f).tlb = s.tlb := rfl
@[simp] theorem State.setCore_tinvals (c : Nat) (f : Core → Core) : (s.setCore c f).tinvals = s.tinvals := rfl
@[simp] theorem State.setCore_refusals (c : Nat) (f : Core → Core) : (s.setCore c f).refusals = s.refusals := rfl
@[simp] theorem State.setCore_resvs (c : Nat) (f : Core → Core) : (s.setCore c f).resvs = s.resvs := rfl
@[simp] theorem State.setCore_dirty (c : Nat) (f : Core → Core) : (s.setCore c f).dirty = s.dirty := rfl
@[simp] theorem State.setCore_sliceFaults (c : Nat) (f : Core → Core) : (s.setCore c f).sliceFaults = s.sliceFaults := rfl
@[simp] theorem State.setCore_arb (c : Nat) (f : Core → Core) : (s.setCore c f).arb = s.arb := rfl
@[simp] theorem State.setCore_migReqs (c : Nat) (f : Core → Core) : (s.setCore c f).migReqs = s.migReqs := rfl
@[simp] theorem State.setCore_reported (c : Nat) (f : Core → Core) : (s.setCore c f).reported = s.reported := rfl
@[simp] theorem State.setCore_armed (c : Nat) (f : Core → Core) : (s.setCore c f).armed = s.armed := rfl
@[simp] theorem State.setCore_responses (c : Nat) (f : Core → Core) : (s.setCore c f).responses = s.responses := rfl
@[simp] theorem State.setCore_deadLinks (c : Nat) (f : Core → Core) : (s.setCore c f).deadLinks = s.deadLinks := rfl
@[simp] theorem State.setCore_cmds (c : Nat) (f : Core → Core) : (s.setCore c f).cmds = s.cmds := rfl
@[simp] theorem State.setCore_ringMsgs (c : Nat) (f : Core → Core) : (s.setCore c f).ringMsgs = s.ringMsgs := rfl
@[simp] theorem State.setCore_launches (c : Nat) (f : Core → Core) : (s.setCore c f).launches = s.launches := rfl
@[simp] theorem State.setCore_vfs (c : Nat) (f : Core → Core) : (s.setCore c f).vfs = s.vfs := rfl
@[simp] theorem State.setCore_pf (c : Nat) (f : Core → Core) : (s.setCore c f).pf = s.pf := rfl
@[simp] theorem State.setCore_msix (c : Nat) (f : Core → Core) : (s.setCore c f).msix = s.msix := rfl
@[simp] theorem State.setCore_turns (c : Nat) (f : Core → Core) : (s.setCore c f).turns = s.turns := rfl
@[simp] theorem State.setCore_marks (c : Nat) (f : Core → Core) : (s.setCore c f).marks = s.marks := rfl
@[simp] theorem State.setCore_snapMarks (c : Nat) (f : Core → Core) : (s.setCore c f).snapMarks = s.snapMarks := rfl
@[simp] theorem State.setCore_relays (c : Nat) (f : Core → Core) : (s.setCore c f).relays = s.relays := rfl
@[simp] theorem State.setCore_inbox (c : Nat) (f : Core → Core) : (s.setCore c f).inbox = s.inbox := rfl
@[simp] theorem State.setCore_age (c : Nat) (f : Core → Core) : (s.setCore c f).age = s.age := rfl
@[simp] theorem State.setCore_dieUse (c : Nat) (f : Core → Core) : (s.setCore c f).dieUse = s.dieUse := rfl
@[simp] theorem State.setCore_kills (c : Nat) (f : Core → Core) : (s.setCore c f).kills = s.kills := rfl
@[simp] theorem State.setCore_dies (c : Nat) (f : Core → Core) : (s.setCore c f).dies = s.dies := rfl
@[simp] theorem State.setCore_bring (c : Nat) (f : Core → Core) : (s.setCore c f).bring = s.bring := rfl
@[simp] theorem State.setCore_moves (c : Nat) (f : Core → Core) : (s.setCore c f).moves = s.moves := rfl
@[simp] theorem State.setCore_focus (c : Nat) (f : Core → Core) : (s.setCore c f).focus = s.focus := rfl
@[simp] theorem State.setCore_fresh (c : Nat) (f : Core → Core) : (s.setCore c f).fresh = s.fresh := rfl
@[simp] theorem State.setCore_serial (c : Nat) (f : Core → Core) : (s.setCore c f).serial = s.serial := rfl
@[simp] theorem State.setCore_halt (c : Nat) (f : Core → Core) : (s.setCore c f).halt = s.halt := rfl

/-! State.setBay. -/

@[simp] theorem State.setBay_time (c b : Nat) (f : Bay → Bay) : (s.setBay c b f).time = s.time := rfl
@[simp] theorem State.setBay_wgs (c b : Nat) (f : Bay → Bay) : (s.setBay c b f).wgs = s.wgs := rfl
@[simp] theorem State.setBay_mem (c b : Nat) (f : Bay → Bay) : (s.setBay c b f).mem = s.mem := rfl
@[simp] theorem State.setBay_chk (c b : Nat) (f : Bay → Bay) : (s.setBay c b f).chk = s.chk := rfl
@[simp] theorem State.setBay_poison (c b : Nat) (f : Bay → Bay) : (s.setBay c b f).poison = s.poison := rfl
@[simp] theorem State.setBay_helped (c b : Nat) (f : Bay → Bay) : (s.setBay c b f).helped = s.helped := rfl
@[simp] theorem State.setBay_pub (c b : Nat) (f : Bay → Bay) : (s.setBay c b f).pub = s.pub := rfl
@[simp] theorem State.setBay_loads (c b : Nat) (f : Bay → Bay) : (s.setBay c b f).loads = s.loads := rfl
@[simp] theorem State.setBay_stores (c b : Nat) (f : Bay → Bay) : (s.setBay c b f).stores = s.stores := rfl
@[simp] theorem State.setBay_tracks (c b : Nat) (f : Bay → Bay) : (s.setBay c b f).tracks = s.tracks := rfl
@[simp] theorem State.setBay_copies (c b : Nat) (f : Bay → Bay) : (s.setBay c b f).copies = s.copies := rfl
@[simp] theorem State.setBay_grants (c b : Nat) (f : Bay → Bay) : (s.setBay c b f).grants = s.grants := rfl
@[simp] theorem State.setBay_grantNo (c b : Nat) (f : Bay → Bay) : (s.setBay c b f).grantNo = s.grantNo := rfl
@[simp] theorem State.setBay_narrow (c b : Nat) (f : Bay → Bay) : (s.setBay c b f).narrow = s.narrow := rfl
@[simp] theorem State.setBay_invals (c b : Nat) (f : Bay → Bay) : (s.setBay c b f).invals = s.invals := rfl
@[simp] theorem State.setBay_tlb (c b : Nat) (f : Bay → Bay) : (s.setBay c b f).tlb = s.tlb := rfl
@[simp] theorem State.setBay_tinvals (c b : Nat) (f : Bay → Bay) : (s.setBay c b f).tinvals = s.tinvals := rfl
@[simp] theorem State.setBay_refusals (c b : Nat) (f : Bay → Bay) : (s.setBay c b f).refusals = s.refusals := rfl
@[simp] theorem State.setBay_resvs (c b : Nat) (f : Bay → Bay) : (s.setBay c b f).resvs = s.resvs := rfl
@[simp] theorem State.setBay_dirty (c b : Nat) (f : Bay → Bay) : (s.setBay c b f).dirty = s.dirty := rfl
@[simp] theorem State.setBay_sliceFaults (c b : Nat) (f : Bay → Bay) : (s.setBay c b f).sliceFaults = s.sliceFaults := rfl
@[simp] theorem State.setBay_arb (c b : Nat) (f : Bay → Bay) : (s.setBay c b f).arb = s.arb := rfl
@[simp] theorem State.setBay_migReqs (c b : Nat) (f : Bay → Bay) : (s.setBay c b f).migReqs = s.migReqs := rfl
@[simp] theorem State.setBay_reported (c b : Nat) (f : Bay → Bay) : (s.setBay c b f).reported = s.reported := rfl
@[simp] theorem State.setBay_armed (c b : Nat) (f : Bay → Bay) : (s.setBay c b f).armed = s.armed := rfl
@[simp] theorem State.setBay_responses (c b : Nat) (f : Bay → Bay) : (s.setBay c b f).responses = s.responses := rfl
@[simp] theorem State.setBay_deadLinks (c b : Nat) (f : Bay → Bay) : (s.setBay c b f).deadLinks = s.deadLinks := rfl
@[simp] theorem State.setBay_cmds (c b : Nat) (f : Bay → Bay) : (s.setBay c b f).cmds = s.cmds := rfl
@[simp] theorem State.setBay_ringMsgs (c b : Nat) (f : Bay → Bay) : (s.setBay c b f).ringMsgs = s.ringMsgs := rfl
@[simp] theorem State.setBay_launches (c b : Nat) (f : Bay → Bay) : (s.setBay c b f).launches = s.launches := rfl
@[simp] theorem State.setBay_vfs (c b : Nat) (f : Bay → Bay) : (s.setBay c b f).vfs = s.vfs := rfl
@[simp] theorem State.setBay_pf (c b : Nat) (f : Bay → Bay) : (s.setBay c b f).pf = s.pf := rfl
@[simp] theorem State.setBay_msix (c b : Nat) (f : Bay → Bay) : (s.setBay c b f).msix = s.msix := rfl
@[simp] theorem State.setBay_turns (c b : Nat) (f : Bay → Bay) : (s.setBay c b f).turns = s.turns := rfl
@[simp] theorem State.setBay_marks (c b : Nat) (f : Bay → Bay) : (s.setBay c b f).marks = s.marks := rfl
@[simp] theorem State.setBay_snapMarks (c b : Nat) (f : Bay → Bay) : (s.setBay c b f).snapMarks = s.snapMarks := rfl
@[simp] theorem State.setBay_relays (c b : Nat) (f : Bay → Bay) : (s.setBay c b f).relays = s.relays := rfl
@[simp] theorem State.setBay_inbox (c b : Nat) (f : Bay → Bay) : (s.setBay c b f).inbox = s.inbox := rfl
@[simp] theorem State.setBay_age (c b : Nat) (f : Bay → Bay) : (s.setBay c b f).age = s.age := rfl
@[simp] theorem State.setBay_dieUse (c b : Nat) (f : Bay → Bay) : (s.setBay c b f).dieUse = s.dieUse := rfl
@[simp] theorem State.setBay_kills (c b : Nat) (f : Bay → Bay) : (s.setBay c b f).kills = s.kills := rfl
@[simp] theorem State.setBay_dies (c b : Nat) (f : Bay → Bay) : (s.setBay c b f).dies = s.dies := rfl
@[simp] theorem State.setBay_bring (c b : Nat) (f : Bay → Bay) : (s.setBay c b f).bring = s.bring := rfl
@[simp] theorem State.setBay_moves (c b : Nat) (f : Bay → Bay) : (s.setBay c b f).moves = s.moves := rfl
@[simp] theorem State.setBay_focus (c b : Nat) (f : Bay → Bay) : (s.setBay c b f).focus = s.focus := rfl
@[simp] theorem State.setBay_fresh (c b : Nat) (f : Bay → Bay) : (s.setBay c b f).fresh = s.fresh := rfl
@[simp] theorem State.setBay_serial (c b : Nat) (f : Bay → Bay) : (s.setBay c b f).serial = s.serial := rfl
@[simp] theorem State.setBay_halt (c b : Nat) (f : Bay → Bay) : (s.setBay c b f).halt = s.halt := rfl

/-! State.setGroup. -/

@[simp] theorem State.setGroup_time (f : Group → Group) : (s.setGroup f).time = s.time := rfl
@[simp] theorem State.setGroup_wgs (f : Group → Group) : (s.setGroup f).wgs = s.wgs := rfl
@[simp] theorem State.setGroup_mem (f : Group → Group) : (s.setGroup f).mem = s.mem := rfl
@[simp] theorem State.setGroup_chk (f : Group → Group) : (s.setGroup f).chk = s.chk := rfl
@[simp] theorem State.setGroup_poison (f : Group → Group) : (s.setGroup f).poison = s.poison := rfl
@[simp] theorem State.setGroup_helped (f : Group → Group) : (s.setGroup f).helped = s.helped := rfl
@[simp] theorem State.setGroup_pub (f : Group → Group) : (s.setGroup f).pub = s.pub := rfl
@[simp] theorem State.setGroup_loads (f : Group → Group) : (s.setGroup f).loads = s.loads := rfl
@[simp] theorem State.setGroup_stores (f : Group → Group) : (s.setGroup f).stores = s.stores := rfl
@[simp] theorem State.setGroup_tracks (f : Group → Group) : (s.setGroup f).tracks = s.tracks := rfl
@[simp] theorem State.setGroup_copies (f : Group → Group) : (s.setGroup f).copies = s.copies := rfl
@[simp] theorem State.setGroup_grants (f : Group → Group) : (s.setGroup f).grants = s.grants := rfl
@[simp] theorem State.setGroup_grantNo (f : Group → Group) : (s.setGroup f).grantNo = s.grantNo := rfl
@[simp] theorem State.setGroup_narrow (f : Group → Group) : (s.setGroup f).narrow = s.narrow := rfl
@[simp] theorem State.setGroup_invals (f : Group → Group) : (s.setGroup f).invals = s.invals := rfl
@[simp] theorem State.setGroup_tlb (f : Group → Group) : (s.setGroup f).tlb = s.tlb := rfl
@[simp] theorem State.setGroup_tinvals (f : Group → Group) : (s.setGroup f).tinvals = s.tinvals := rfl
@[simp] theorem State.setGroup_refusals (f : Group → Group) : (s.setGroup f).refusals = s.refusals := rfl
@[simp] theorem State.setGroup_resvs (f : Group → Group) : (s.setGroup f).resvs = s.resvs := rfl
@[simp] theorem State.setGroup_dirty (f : Group → Group) : (s.setGroup f).dirty = s.dirty := rfl
@[simp] theorem State.setGroup_sliceFaults (f : Group → Group) : (s.setGroup f).sliceFaults = s.sliceFaults := rfl
@[simp] theorem State.setGroup_arb (f : Group → Group) : (s.setGroup f).arb = s.arb := rfl
@[simp] theorem State.setGroup_migReqs (f : Group → Group) : (s.setGroup f).migReqs = s.migReqs := rfl
@[simp] theorem State.setGroup_reported (f : Group → Group) : (s.setGroup f).reported = s.reported := rfl
@[simp] theorem State.setGroup_armed (f : Group → Group) : (s.setGroup f).armed = s.armed := rfl
@[simp] theorem State.setGroup_responses (f : Group → Group) : (s.setGroup f).responses = s.responses := rfl
@[simp] theorem State.setGroup_deadLinks (f : Group → Group) : (s.setGroup f).deadLinks = s.deadLinks := rfl
@[simp] theorem State.setGroup_cmds (f : Group → Group) : (s.setGroup f).cmds = s.cmds := rfl
@[simp] theorem State.setGroup_ringMsgs (f : Group → Group) : (s.setGroup f).ringMsgs = s.ringMsgs := rfl
@[simp] theorem State.setGroup_launches (f : Group → Group) : (s.setGroup f).launches = s.launches := rfl
@[simp] theorem State.setGroup_vfs (f : Group → Group) : (s.setGroup f).vfs = s.vfs := rfl
@[simp] theorem State.setGroup_pf (f : Group → Group) : (s.setGroup f).pf = s.pf := rfl
@[simp] theorem State.setGroup_msix (f : Group → Group) : (s.setGroup f).msix = s.msix := rfl
@[simp] theorem State.setGroup_turns (f : Group → Group) : (s.setGroup f).turns = s.turns := rfl
@[simp] theorem State.setGroup_marks (f : Group → Group) : (s.setGroup f).marks = s.marks := rfl
@[simp] theorem State.setGroup_snapMarks (f : Group → Group) : (s.setGroup f).snapMarks = s.snapMarks := rfl
@[simp] theorem State.setGroup_relays (f : Group → Group) : (s.setGroup f).relays = s.relays := rfl
@[simp] theorem State.setGroup_inbox (f : Group → Group) : (s.setGroup f).inbox = s.inbox := rfl
@[simp] theorem State.setGroup_age (f : Group → Group) : (s.setGroup f).age = s.age := rfl
@[simp] theorem State.setGroup_dieUse (f : Group → Group) : (s.setGroup f).dieUse = s.dieUse := rfl
@[simp] theorem State.setGroup_kills (f : Group → Group) : (s.setGroup f).kills = s.kills := rfl
@[simp] theorem State.setGroup_dies (f : Group → Group) : (s.setGroup f).dies = s.dies := rfl
@[simp] theorem State.setGroup_bring (f : Group → Group) : (s.setGroup f).bring = s.bring := rfl
@[simp] theorem State.setGroup_moves (f : Group → Group) : (s.setGroup f).moves = s.moves := rfl
@[simp] theorem State.setGroup_focus (f : Group → Group) : (s.setGroup f).focus = s.focus := rfl
@[simp] theorem State.setGroup_fresh (f : Group → Group) : (s.setGroup f).fresh = s.fresh := rfl
@[simp] theorem State.setGroup_serial (f : Group → Group) : (s.setGroup f).serial = s.serial := rfl
@[simp] theorem State.setGroup_halt (f : Group → Group) : (s.setGroup f).halt = s.halt := rfl

/-! State.setLaunch. -/

@[simp] theorem State.setLaunch_time (id : Nat) (f : Launch → Launch) : (s.setLaunch id f).time = s.time := rfl
@[simp] theorem State.setLaunch_wgs (id : Nat) (f : Launch → Launch) : (s.setLaunch id f).wgs = s.wgs := rfl
@[simp] theorem State.setLaunch_cores (id : Nat) (f : Launch → Launch) : (s.setLaunch id f).cores = s.cores := rfl
@[simp] theorem State.setLaunch_mem (id : Nat) (f : Launch → Launch) : (s.setLaunch id f).mem = s.mem := rfl
@[simp] theorem State.setLaunch_chk (id : Nat) (f : Launch → Launch) : (s.setLaunch id f).chk = s.chk := rfl
@[simp] theorem State.setLaunch_poison (id : Nat) (f : Launch → Launch) : (s.setLaunch id f).poison = s.poison := rfl
@[simp] theorem State.setLaunch_helped (id : Nat) (f : Launch → Launch) : (s.setLaunch id f).helped = s.helped := rfl
@[simp] theorem State.setLaunch_pub (id : Nat) (f : Launch → Launch) : (s.setLaunch id f).pub = s.pub := rfl
@[simp] theorem State.setLaunch_loads (id : Nat) (f : Launch → Launch) : (s.setLaunch id f).loads = s.loads := rfl
@[simp] theorem State.setLaunch_stores (id : Nat) (f : Launch → Launch) : (s.setLaunch id f).stores = s.stores := rfl
@[simp] theorem State.setLaunch_tracks (id : Nat) (f : Launch → Launch) : (s.setLaunch id f).tracks = s.tracks := rfl
@[simp] theorem State.setLaunch_copies (id : Nat) (f : Launch → Launch) : (s.setLaunch id f).copies = s.copies := rfl
@[simp] theorem State.setLaunch_grants (id : Nat) (f : Launch → Launch) : (s.setLaunch id f).grants = s.grants := rfl
@[simp] theorem State.setLaunch_grantNo (id : Nat) (f : Launch → Launch) : (s.setLaunch id f).grantNo = s.grantNo := rfl
@[simp] theorem State.setLaunch_narrow (id : Nat) (f : Launch → Launch) : (s.setLaunch id f).narrow = s.narrow := rfl
@[simp] theorem State.setLaunch_invals (id : Nat) (f : Launch → Launch) : (s.setLaunch id f).invals = s.invals := rfl
@[simp] theorem State.setLaunch_tlb (id : Nat) (f : Launch → Launch) : (s.setLaunch id f).tlb = s.tlb := rfl
@[simp] theorem State.setLaunch_tinvals (id : Nat) (f : Launch → Launch) : (s.setLaunch id f).tinvals = s.tinvals := rfl
@[simp] theorem State.setLaunch_refusals (id : Nat) (f : Launch → Launch) : (s.setLaunch id f).refusals = s.refusals := rfl
@[simp] theorem State.setLaunch_resvs (id : Nat) (f : Launch → Launch) : (s.setLaunch id f).resvs = s.resvs := rfl
@[simp] theorem State.setLaunch_dirty (id : Nat) (f : Launch → Launch) : (s.setLaunch id f).dirty = s.dirty := rfl
@[simp] theorem State.setLaunch_sliceFaults (id : Nat) (f : Launch → Launch) : (s.setLaunch id f).sliceFaults = s.sliceFaults := rfl
@[simp] theorem State.setLaunch_arb (id : Nat) (f : Launch → Launch) : (s.setLaunch id f).arb = s.arb := rfl
@[simp] theorem State.setLaunch_migReqs (id : Nat) (f : Launch → Launch) : (s.setLaunch id f).migReqs = s.migReqs := rfl
@[simp] theorem State.setLaunch_reported (id : Nat) (f : Launch → Launch) : (s.setLaunch id f).reported = s.reported := rfl
@[simp] theorem State.setLaunch_armed (id : Nat) (f : Launch → Launch) : (s.setLaunch id f).armed = s.armed := rfl
@[simp] theorem State.setLaunch_responses (id : Nat) (f : Launch → Launch) : (s.setLaunch id f).responses = s.responses := rfl
@[simp] theorem State.setLaunch_deadLinks (id : Nat) (f : Launch → Launch) : (s.setLaunch id f).deadLinks = s.deadLinks := rfl
@[simp] theorem State.setLaunch_cmds (id : Nat) (f : Launch → Launch) : (s.setLaunch id f).cmds = s.cmds := rfl
@[simp] theorem State.setLaunch_ringMsgs (id : Nat) (f : Launch → Launch) : (s.setLaunch id f).ringMsgs = s.ringMsgs := rfl
@[simp] theorem State.setLaunch_launches (id : Nat) (f : Launch → Launch) :
    (s.setLaunch id f).launches = s.launches.map fun l => if l.id == id then f l else l := rfl
@[simp] theorem State.setLaunch_vfs (id : Nat) (f : Launch → Launch) : (s.setLaunch id f).vfs = s.vfs := rfl
@[simp] theorem State.setLaunch_pf (id : Nat) (f : Launch → Launch) : (s.setLaunch id f).pf = s.pf := rfl
@[simp] theorem State.setLaunch_msix (id : Nat) (f : Launch → Launch) : (s.setLaunch id f).msix = s.msix := rfl
@[simp] theorem State.setLaunch_turns (id : Nat) (f : Launch → Launch) : (s.setLaunch id f).turns = s.turns := rfl
@[simp] theorem State.setLaunch_marks (id : Nat) (f : Launch → Launch) : (s.setLaunch id f).marks = s.marks := rfl
@[simp] theorem State.setLaunch_snapMarks (id : Nat) (f : Launch → Launch) : (s.setLaunch id f).snapMarks = s.snapMarks := rfl
@[simp] theorem State.setLaunch_relays (id : Nat) (f : Launch → Launch) : (s.setLaunch id f).relays = s.relays := rfl
@[simp] theorem State.setLaunch_inbox (id : Nat) (f : Launch → Launch) : (s.setLaunch id f).inbox = s.inbox := rfl
@[simp] theorem State.setLaunch_age (id : Nat) (f : Launch → Launch) : (s.setLaunch id f).age = s.age := rfl
@[simp] theorem State.setLaunch_dieUse (id : Nat) (f : Launch → Launch) : (s.setLaunch id f).dieUse = s.dieUse := rfl
@[simp] theorem State.setLaunch_kills (id : Nat) (f : Launch → Launch) : (s.setLaunch id f).kills = s.kills := rfl
@[simp] theorem State.setLaunch_dies (id : Nat) (f : Launch → Launch) : (s.setLaunch id f).dies = s.dies := rfl
@[simp] theorem State.setLaunch_bring (id : Nat) (f : Launch → Launch) : (s.setLaunch id f).bring = s.bring := rfl
@[simp] theorem State.setLaunch_moves (id : Nat) (f : Launch → Launch) : (s.setLaunch id f).moves = s.moves := rfl
@[simp] theorem State.setLaunch_focus (id : Nat) (f : Launch → Launch) : (s.setLaunch id f).focus = s.focus := rfl
@[simp] theorem State.setLaunch_fresh (id : Nat) (f : Launch → Launch) : (s.setLaunch id f).fresh = s.fresh := rfl
@[simp] theorem State.setLaunch_serial (id : Nat) (f : Launch → Launch) : (s.setLaunch id f).serial = s.serial := rfl
@[simp] theorem State.setLaunch_halt (id : Nat) (f : Launch → Launch) : (s.setLaunch id f).halt = s.halt := rfl

/-! State.setVf. -/

@[simp] theorem State.setVf_time (v : Nat) (f : Vf → Vf) : (s.setVf v f).time = s.time := rfl
@[simp] theorem State.setVf_wgs (v : Nat) (f : Vf → Vf) : (s.setVf v f).wgs = s.wgs := rfl
@[simp] theorem State.setVf_cores (v : Nat) (f : Vf → Vf) : (s.setVf v f).cores = s.cores := rfl
@[simp] theorem State.setVf_mem (v : Nat) (f : Vf → Vf) : (s.setVf v f).mem = s.mem := rfl
@[simp] theorem State.setVf_chk (v : Nat) (f : Vf → Vf) : (s.setVf v f).chk = s.chk := rfl
@[simp] theorem State.setVf_poison (v : Nat) (f : Vf → Vf) : (s.setVf v f).poison = s.poison := rfl
@[simp] theorem State.setVf_helped (v : Nat) (f : Vf → Vf) : (s.setVf v f).helped = s.helped := rfl
@[simp] theorem State.setVf_pub (v : Nat) (f : Vf → Vf) : (s.setVf v f).pub = s.pub := rfl
@[simp] theorem State.setVf_loads (v : Nat) (f : Vf → Vf) : (s.setVf v f).loads = s.loads := rfl
@[simp] theorem State.setVf_stores (v : Nat) (f : Vf → Vf) : (s.setVf v f).stores = s.stores := rfl
@[simp] theorem State.setVf_tracks (v : Nat) (f : Vf → Vf) : (s.setVf v f).tracks = s.tracks := rfl
@[simp] theorem State.setVf_copies (v : Nat) (f : Vf → Vf) : (s.setVf v f).copies = s.copies := rfl
@[simp] theorem State.setVf_grants (v : Nat) (f : Vf → Vf) : (s.setVf v f).grants = s.grants := rfl
@[simp] theorem State.setVf_grantNo (v : Nat) (f : Vf → Vf) : (s.setVf v f).grantNo = s.grantNo := rfl
@[simp] theorem State.setVf_narrow (v : Nat) (f : Vf → Vf) : (s.setVf v f).narrow = s.narrow := rfl
@[simp] theorem State.setVf_invals (v : Nat) (f : Vf → Vf) : (s.setVf v f).invals = s.invals := rfl
@[simp] theorem State.setVf_tlb (v : Nat) (f : Vf → Vf) : (s.setVf v f).tlb = s.tlb := rfl
@[simp] theorem State.setVf_tinvals (v : Nat) (f : Vf → Vf) : (s.setVf v f).tinvals = s.tinvals := rfl
@[simp] theorem State.setVf_refusals (v : Nat) (f : Vf → Vf) : (s.setVf v f).refusals = s.refusals := rfl
@[simp] theorem State.setVf_resvs (v : Nat) (f : Vf → Vf) : (s.setVf v f).resvs = s.resvs := rfl
@[simp] theorem State.setVf_dirty (v : Nat) (f : Vf → Vf) : (s.setVf v f).dirty = s.dirty := rfl
@[simp] theorem State.setVf_sliceFaults (v : Nat) (f : Vf → Vf) : (s.setVf v f).sliceFaults = s.sliceFaults := rfl
@[simp] theorem State.setVf_arb (v : Nat) (f : Vf → Vf) : (s.setVf v f).arb = s.arb := rfl
@[simp] theorem State.setVf_migReqs (v : Nat) (f : Vf → Vf) : (s.setVf v f).migReqs = s.migReqs := rfl
@[simp] theorem State.setVf_reported (v : Nat) (f : Vf → Vf) : (s.setVf v f).reported = s.reported := rfl
@[simp] theorem State.setVf_armed (v : Nat) (f : Vf → Vf) : (s.setVf v f).armed = s.armed := rfl
@[simp] theorem State.setVf_responses (v : Nat) (f : Vf → Vf) : (s.setVf v f).responses = s.responses := rfl
@[simp] theorem State.setVf_deadLinks (v : Nat) (f : Vf → Vf) : (s.setVf v f).deadLinks = s.deadLinks := rfl
@[simp] theorem State.setVf_cmds (v : Nat) (f : Vf → Vf) : (s.setVf v f).cmds = s.cmds := rfl
@[simp] theorem State.setVf_ringMsgs (v : Nat) (f : Vf → Vf) : (s.setVf v f).ringMsgs = s.ringMsgs := rfl
@[simp] theorem State.setVf_launches (v : Nat) (f : Vf → Vf) : (s.setVf v f).launches = s.launches := rfl
@[simp] theorem State.setVf_vfs (v : Nat) (f : Vf → Vf) :
    (s.setVf v f).vfs = modifyAt s.vfs v f := rfl
@[simp] theorem State.setVf_pf (v : Nat) (f : Vf → Vf) : (s.setVf v f).pf = s.pf := rfl
@[simp] theorem State.setVf_msix (v : Nat) (f : Vf → Vf) : (s.setVf v f).msix = s.msix := rfl
@[simp] theorem State.setVf_turns (v : Nat) (f : Vf → Vf) : (s.setVf v f).turns = s.turns := rfl
@[simp] theorem State.setVf_marks (v : Nat) (f : Vf → Vf) : (s.setVf v f).marks = s.marks := rfl
@[simp] theorem State.setVf_snapMarks (v : Nat) (f : Vf → Vf) : (s.setVf v f).snapMarks = s.snapMarks := rfl
@[simp] theorem State.setVf_relays (v : Nat) (f : Vf → Vf) : (s.setVf v f).relays = s.relays := rfl
@[simp] theorem State.setVf_inbox (v : Nat) (f : Vf → Vf) : (s.setVf v f).inbox = s.inbox := rfl
@[simp] theorem State.setVf_age (v : Nat) (f : Vf → Vf) : (s.setVf v f).age = s.age := rfl
@[simp] theorem State.setVf_dieUse (v : Nat) (f : Vf → Vf) : (s.setVf v f).dieUse = s.dieUse := rfl
@[simp] theorem State.setVf_kills (v : Nat) (f : Vf → Vf) : (s.setVf v f).kills = s.kills := rfl
@[simp] theorem State.setVf_dies (v : Nat) (f : Vf → Vf) : (s.setVf v f).dies = s.dies := rfl
@[simp] theorem State.setVf_bring (v : Nat) (f : Vf → Vf) : (s.setVf v f).bring = s.bring := rfl
@[simp] theorem State.setVf_moves (v : Nat) (f : Vf → Vf) : (s.setVf v f).moves = s.moves := rfl
@[simp] theorem State.setVf_focus (v : Nat) (f : Vf → Vf) : (s.setVf v f).focus = s.focus := rfl
@[simp] theorem State.setVf_fresh (v : Nat) (f : Vf → Vf) : (s.setVf v f).fresh = s.fresh := rfl
@[simp] theorem State.setVf_serial (v : Nat) (f : Vf → Vf) : (s.setVf v f).serial = s.serial := rfl
@[simp] theorem State.setVf_halt (v : Nat) (f : Vf → Vf) : (s.setVf v f).halt = s.halt := rfl

/-! State.setTurn. -/

@[simp] theorem State.setTurn_time (c : Nat) (f : Turn → Turn) : (s.setTurn c f).time = s.time := rfl
@[simp] theorem State.setTurn_wgs (c : Nat) (f : Turn → Turn) : (s.setTurn c f).wgs = s.wgs := rfl
@[simp] theorem State.setTurn_cores (c : Nat) (f : Turn → Turn) : (s.setTurn c f).cores = s.cores := rfl
@[simp] theorem State.setTurn_mem (c : Nat) (f : Turn → Turn) : (s.setTurn c f).mem = s.mem := rfl
@[simp] theorem State.setTurn_chk (c : Nat) (f : Turn → Turn) : (s.setTurn c f).chk = s.chk := rfl
@[simp] theorem State.setTurn_poison (c : Nat) (f : Turn → Turn) : (s.setTurn c f).poison = s.poison := rfl
@[simp] theorem State.setTurn_helped (c : Nat) (f : Turn → Turn) : (s.setTurn c f).helped = s.helped := rfl
@[simp] theorem State.setTurn_pub (c : Nat) (f : Turn → Turn) : (s.setTurn c f).pub = s.pub := rfl
@[simp] theorem State.setTurn_loads (c : Nat) (f : Turn → Turn) : (s.setTurn c f).loads = s.loads := rfl
@[simp] theorem State.setTurn_stores (c : Nat) (f : Turn → Turn) : (s.setTurn c f).stores = s.stores := rfl
@[simp] theorem State.setTurn_tracks (c : Nat) (f : Turn → Turn) : (s.setTurn c f).tracks = s.tracks := rfl
@[simp] theorem State.setTurn_copies (c : Nat) (f : Turn → Turn) : (s.setTurn c f).copies = s.copies := rfl
@[simp] theorem State.setTurn_grants (c : Nat) (f : Turn → Turn) : (s.setTurn c f).grants = s.grants := rfl
@[simp] theorem State.setTurn_grantNo (c : Nat) (f : Turn → Turn) : (s.setTurn c f).grantNo = s.grantNo := rfl
@[simp] theorem State.setTurn_narrow (c : Nat) (f : Turn → Turn) : (s.setTurn c f).narrow = s.narrow := rfl
@[simp] theorem State.setTurn_invals (c : Nat) (f : Turn → Turn) : (s.setTurn c f).invals = s.invals := rfl
@[simp] theorem State.setTurn_tlb (c : Nat) (f : Turn → Turn) : (s.setTurn c f).tlb = s.tlb := rfl
@[simp] theorem State.setTurn_tinvals (c : Nat) (f : Turn → Turn) : (s.setTurn c f).tinvals = s.tinvals := rfl
@[simp] theorem State.setTurn_refusals (c : Nat) (f : Turn → Turn) : (s.setTurn c f).refusals = s.refusals := rfl
@[simp] theorem State.setTurn_resvs (c : Nat) (f : Turn → Turn) : (s.setTurn c f).resvs = s.resvs := rfl
@[simp] theorem State.setTurn_dirty (c : Nat) (f : Turn → Turn) : (s.setTurn c f).dirty = s.dirty := rfl
@[simp] theorem State.setTurn_sliceFaults (c : Nat) (f : Turn → Turn) : (s.setTurn c f).sliceFaults = s.sliceFaults := rfl
@[simp] theorem State.setTurn_arb (c : Nat) (f : Turn → Turn) : (s.setTurn c f).arb = s.arb := rfl
@[simp] theorem State.setTurn_migReqs (c : Nat) (f : Turn → Turn) : (s.setTurn c f).migReqs = s.migReqs := rfl
@[simp] theorem State.setTurn_reported (c : Nat) (f : Turn → Turn) : (s.setTurn c f).reported = s.reported := rfl
@[simp] theorem State.setTurn_armed (c : Nat) (f : Turn → Turn) : (s.setTurn c f).armed = s.armed := rfl
@[simp] theorem State.setTurn_responses (c : Nat) (f : Turn → Turn) : (s.setTurn c f).responses = s.responses := rfl
@[simp] theorem State.setTurn_deadLinks (c : Nat) (f : Turn → Turn) : (s.setTurn c f).deadLinks = s.deadLinks := rfl
@[simp] theorem State.setTurn_cmds (c : Nat) (f : Turn → Turn) : (s.setTurn c f).cmds = s.cmds := rfl
@[simp] theorem State.setTurn_ringMsgs (c : Nat) (f : Turn → Turn) : (s.setTurn c f).ringMsgs = s.ringMsgs := rfl
@[simp] theorem State.setTurn_launches (c : Nat) (f : Turn → Turn) : (s.setTurn c f).launches = s.launches := rfl
@[simp] theorem State.setTurn_vfs (c : Nat) (f : Turn → Turn) : (s.setTurn c f).vfs = s.vfs := rfl
@[simp] theorem State.setTurn_pf (c : Nat) (f : Turn → Turn) : (s.setTurn c f).pf = s.pf := rfl
@[simp] theorem State.setTurn_msix (c : Nat) (f : Turn → Turn) : (s.setTurn c f).msix = s.msix := rfl
@[simp] theorem State.setTurn_turns (c : Nat) (f : Turn → Turn) :
    (s.setTurn c f).turns = modifyAt s.turns c f := rfl
@[simp] theorem State.setTurn_marks (c : Nat) (f : Turn → Turn) : (s.setTurn c f).marks = s.marks := rfl
@[simp] theorem State.setTurn_snapMarks (c : Nat) (f : Turn → Turn) : (s.setTurn c f).snapMarks = s.snapMarks := rfl
@[simp] theorem State.setTurn_relays (c : Nat) (f : Turn → Turn) : (s.setTurn c f).relays = s.relays := rfl
@[simp] theorem State.setTurn_inbox (c : Nat) (f : Turn → Turn) : (s.setTurn c f).inbox = s.inbox := rfl
@[simp] theorem State.setTurn_age (c : Nat) (f : Turn → Turn) : (s.setTurn c f).age = s.age := rfl
@[simp] theorem State.setTurn_dieUse (c : Nat) (f : Turn → Turn) : (s.setTurn c f).dieUse = s.dieUse := rfl
@[simp] theorem State.setTurn_kills (c : Nat) (f : Turn → Turn) : (s.setTurn c f).kills = s.kills := rfl
@[simp] theorem State.setTurn_dies (c : Nat) (f : Turn → Turn) : (s.setTurn c f).dies = s.dies := rfl
@[simp] theorem State.setTurn_bring (c : Nat) (f : Turn → Turn) : (s.setTurn c f).bring = s.bring := rfl
@[simp] theorem State.setTurn_moves (c : Nat) (f : Turn → Turn) : (s.setTurn c f).moves = s.moves := rfl
@[simp] theorem State.setTurn_focus (c : Nat) (f : Turn → Turn) : (s.setTurn c f).focus = s.focus := rfl
@[simp] theorem State.setTurn_fresh (c : Nat) (f : Turn → Turn) : (s.setTurn c f).fresh = s.fresh := rfl
@[simp] theorem State.setTurn_serial (c : Nat) (f : Turn → Turn) : (s.setTurn c f).serial = s.serial := rfl
@[simp] theorem State.setTurn_halt (c : Nat) (f : Turn → Turn) : (s.setTurn c f).halt = s.halt := rfl

/-! State.setRelay. -/

@[simp] theorem State.setRelay_time (e : Nat) (f : Relay → Relay) : (s.setRelay e f).time = s.time := rfl
@[simp] theorem State.setRelay_wgs (e : Nat) (f : Relay → Relay) : (s.setRelay e f).wgs = s.wgs := rfl
@[simp] theorem State.setRelay_cores (e : Nat) (f : Relay → Relay) : (s.setRelay e f).cores = s.cores := rfl
@[simp] theorem State.setRelay_mem (e : Nat) (f : Relay → Relay) : (s.setRelay e f).mem = s.mem := rfl
@[simp] theorem State.setRelay_chk (e : Nat) (f : Relay → Relay) : (s.setRelay e f).chk = s.chk := rfl
@[simp] theorem State.setRelay_poison (e : Nat) (f : Relay → Relay) : (s.setRelay e f).poison = s.poison := rfl
@[simp] theorem State.setRelay_helped (e : Nat) (f : Relay → Relay) : (s.setRelay e f).helped = s.helped := rfl
@[simp] theorem State.setRelay_pub (e : Nat) (f : Relay → Relay) : (s.setRelay e f).pub = s.pub := rfl
@[simp] theorem State.setRelay_loads (e : Nat) (f : Relay → Relay) : (s.setRelay e f).loads = s.loads := rfl
@[simp] theorem State.setRelay_stores (e : Nat) (f : Relay → Relay) : (s.setRelay e f).stores = s.stores := rfl
@[simp] theorem State.setRelay_tracks (e : Nat) (f : Relay → Relay) : (s.setRelay e f).tracks = s.tracks := rfl
@[simp] theorem State.setRelay_copies (e : Nat) (f : Relay → Relay) : (s.setRelay e f).copies = s.copies := rfl
@[simp] theorem State.setRelay_grants (e : Nat) (f : Relay → Relay) : (s.setRelay e f).grants = s.grants := rfl
@[simp] theorem State.setRelay_grantNo (e : Nat) (f : Relay → Relay) : (s.setRelay e f).grantNo = s.grantNo := rfl
@[simp] theorem State.setRelay_narrow (e : Nat) (f : Relay → Relay) : (s.setRelay e f).narrow = s.narrow := rfl
@[simp] theorem State.setRelay_invals (e : Nat) (f : Relay → Relay) : (s.setRelay e f).invals = s.invals := rfl
@[simp] theorem State.setRelay_tlb (e : Nat) (f : Relay → Relay) : (s.setRelay e f).tlb = s.tlb := rfl
@[simp] theorem State.setRelay_tinvals (e : Nat) (f : Relay → Relay) : (s.setRelay e f).tinvals = s.tinvals := rfl
@[simp] theorem State.setRelay_refusals (e : Nat) (f : Relay → Relay) : (s.setRelay e f).refusals = s.refusals := rfl
@[simp] theorem State.setRelay_resvs (e : Nat) (f : Relay → Relay) : (s.setRelay e f).resvs = s.resvs := rfl
@[simp] theorem State.setRelay_dirty (e : Nat) (f : Relay → Relay) : (s.setRelay e f).dirty = s.dirty := rfl
@[simp] theorem State.setRelay_sliceFaults (e : Nat) (f : Relay → Relay) : (s.setRelay e f).sliceFaults = s.sliceFaults := rfl
@[simp] theorem State.setRelay_arb (e : Nat) (f : Relay → Relay) : (s.setRelay e f).arb = s.arb := rfl
@[simp] theorem State.setRelay_migReqs (e : Nat) (f : Relay → Relay) : (s.setRelay e f).migReqs = s.migReqs := rfl
@[simp] theorem State.setRelay_reported (e : Nat) (f : Relay → Relay) : (s.setRelay e f).reported = s.reported := rfl
@[simp] theorem State.setRelay_armed (e : Nat) (f : Relay → Relay) : (s.setRelay e f).armed = s.armed := rfl
@[simp] theorem State.setRelay_responses (e : Nat) (f : Relay → Relay) : (s.setRelay e f).responses = s.responses := rfl
@[simp] theorem State.setRelay_deadLinks (e : Nat) (f : Relay → Relay) : (s.setRelay e f).deadLinks = s.deadLinks := rfl
@[simp] theorem State.setRelay_cmds (e : Nat) (f : Relay → Relay) : (s.setRelay e f).cmds = s.cmds := rfl
@[simp] theorem State.setRelay_ringMsgs (e : Nat) (f : Relay → Relay) : (s.setRelay e f).ringMsgs = s.ringMsgs := rfl
@[simp] theorem State.setRelay_launches (e : Nat) (f : Relay → Relay) : (s.setRelay e f).launches = s.launches := rfl
@[simp] theorem State.setRelay_vfs (e : Nat) (f : Relay → Relay) : (s.setRelay e f).vfs = s.vfs := rfl
@[simp] theorem State.setRelay_pf (e : Nat) (f : Relay → Relay) : (s.setRelay e f).pf = s.pf := rfl
@[simp] theorem State.setRelay_msix (e : Nat) (f : Relay → Relay) : (s.setRelay e f).msix = s.msix := rfl
@[simp] theorem State.setRelay_turns (e : Nat) (f : Relay → Relay) : (s.setRelay e f).turns = s.turns := rfl
@[simp] theorem State.setRelay_marks (e : Nat) (f : Relay → Relay) : (s.setRelay e f).marks = s.marks := rfl
@[simp] theorem State.setRelay_snapMarks (e : Nat) (f : Relay → Relay) : (s.setRelay e f).snapMarks = s.snapMarks := rfl
@[simp] theorem State.setRelay_relays (e : Nat) (f : Relay → Relay) :
    (s.setRelay e f).relays = modifyAt s.relays e f := rfl
@[simp] theorem State.setRelay_inbox (e : Nat) (f : Relay → Relay) : (s.setRelay e f).inbox = s.inbox := rfl
@[simp] theorem State.setRelay_age (e : Nat) (f : Relay → Relay) : (s.setRelay e f).age = s.age := rfl
@[simp] theorem State.setRelay_dieUse (e : Nat) (f : Relay → Relay) : (s.setRelay e f).dieUse = s.dieUse := rfl
@[simp] theorem State.setRelay_kills (e : Nat) (f : Relay → Relay) : (s.setRelay e f).kills = s.kills := rfl
@[simp] theorem State.setRelay_dies (e : Nat) (f : Relay → Relay) : (s.setRelay e f).dies = s.dies := rfl
@[simp] theorem State.setRelay_bring (e : Nat) (f : Relay → Relay) : (s.setRelay e f).bring = s.bring := rfl
@[simp] theorem State.setRelay_moves (e : Nat) (f : Relay → Relay) : (s.setRelay e f).moves = s.moves := rfl
@[simp] theorem State.setRelay_focus (e : Nat) (f : Relay → Relay) : (s.setRelay e f).focus = s.focus := rfl
@[simp] theorem State.setRelay_fresh (e : Nat) (f : Relay → Relay) : (s.setRelay e f).fresh = s.fresh := rfl
@[simp] theorem State.setRelay_serial (e : Nat) (f : Relay → Relay) : (s.setRelay e f).serial = s.serial := rfl
@[simp] theorem State.setRelay_halt (e : Nat) (f : Relay → Relay) : (s.setRelay e f).halt = s.halt := rfl

/-! State.sendMsix. -/

@[simp] theorem State.sendMsix_time (fn vec : Nat) : (s.sendMsix fn vec).time = s.time := rfl
@[simp] theorem State.sendMsix_wgs (fn vec : Nat) : (s.sendMsix fn vec).wgs = s.wgs := rfl
@[simp] theorem State.sendMsix_cores (fn vec : Nat) : (s.sendMsix fn vec).cores = s.cores := rfl
@[simp] theorem State.sendMsix_mem (fn vec : Nat) : (s.sendMsix fn vec).mem = s.mem := rfl
@[simp] theorem State.sendMsix_chk (fn vec : Nat) : (s.sendMsix fn vec).chk = s.chk := rfl
@[simp] theorem State.sendMsix_poison (fn vec : Nat) : (s.sendMsix fn vec).poison = s.poison := rfl
@[simp] theorem State.sendMsix_helped (fn vec : Nat) : (s.sendMsix fn vec).helped = s.helped := rfl
@[simp] theorem State.sendMsix_pub (fn vec : Nat) : (s.sendMsix fn vec).pub = s.pub := rfl
@[simp] theorem State.sendMsix_loads (fn vec : Nat) : (s.sendMsix fn vec).loads = s.loads := rfl
@[simp] theorem State.sendMsix_stores (fn vec : Nat) : (s.sendMsix fn vec).stores = s.stores := rfl
@[simp] theorem State.sendMsix_tracks (fn vec : Nat) : (s.sendMsix fn vec).tracks = s.tracks := rfl
@[simp] theorem State.sendMsix_copies (fn vec : Nat) : (s.sendMsix fn vec).copies = s.copies := rfl
@[simp] theorem State.sendMsix_grants (fn vec : Nat) : (s.sendMsix fn vec).grants = s.grants := rfl
@[simp] theorem State.sendMsix_grantNo (fn vec : Nat) : (s.sendMsix fn vec).grantNo = s.grantNo := rfl
@[simp] theorem State.sendMsix_narrow (fn vec : Nat) : (s.sendMsix fn vec).narrow = s.narrow := rfl
@[simp] theorem State.sendMsix_invals (fn vec : Nat) : (s.sendMsix fn vec).invals = s.invals := rfl
@[simp] theorem State.sendMsix_tlb (fn vec : Nat) : (s.sendMsix fn vec).tlb = s.tlb := rfl
@[simp] theorem State.sendMsix_tinvals (fn vec : Nat) : (s.sendMsix fn vec).tinvals = s.tinvals := rfl
@[simp] theorem State.sendMsix_refusals (fn vec : Nat) : (s.sendMsix fn vec).refusals = s.refusals := rfl
@[simp] theorem State.sendMsix_resvs (fn vec : Nat) : (s.sendMsix fn vec).resvs = s.resvs := rfl
@[simp] theorem State.sendMsix_dirty (fn vec : Nat) : (s.sendMsix fn vec).dirty = s.dirty := rfl
@[simp] theorem State.sendMsix_sliceFaults (fn vec : Nat) : (s.sendMsix fn vec).sliceFaults = s.sliceFaults := rfl
@[simp] theorem State.sendMsix_arb (fn vec : Nat) : (s.sendMsix fn vec).arb = s.arb := rfl
@[simp] theorem State.sendMsix_migReqs (fn vec : Nat) : (s.sendMsix fn vec).migReqs = s.migReqs := rfl
@[simp] theorem State.sendMsix_reported (fn vec : Nat) : (s.sendMsix fn vec).reported = s.reported := rfl
@[simp] theorem State.sendMsix_armed (fn vec : Nat) : (s.sendMsix fn vec).armed = s.armed := rfl
@[simp] theorem State.sendMsix_responses (fn vec : Nat) : (s.sendMsix fn vec).responses = s.responses := rfl
@[simp] theorem State.sendMsix_deadLinks (fn vec : Nat) : (s.sendMsix fn vec).deadLinks = s.deadLinks := rfl
@[simp] theorem State.sendMsix_cmds (fn vec : Nat) : (s.sendMsix fn vec).cmds = s.cmds := rfl
@[simp] theorem State.sendMsix_ringMsgs (fn vec : Nat) : (s.sendMsix fn vec).ringMsgs = s.ringMsgs := rfl
@[simp] theorem State.sendMsix_launches (fn vec : Nat) : (s.sendMsix fn vec).launches = s.launches := rfl
@[simp] theorem State.sendMsix_vfs (fn vec : Nat) : (s.sendMsix fn vec).vfs = s.vfs := rfl
@[simp] theorem State.sendMsix_pf (fn vec : Nat) : (s.sendMsix fn vec).pf = s.pf := rfl
@[simp] theorem State.sendMsix_msix (fn vec : Nat) :
    (s.sendMsix fn vec).msix = s.msix ++ [(fn, vec)] := rfl
@[simp] theorem State.sendMsix_turns (fn vec : Nat) : (s.sendMsix fn vec).turns = s.turns := rfl
@[simp] theorem State.sendMsix_marks (fn vec : Nat) : (s.sendMsix fn vec).marks = s.marks := rfl
@[simp] theorem State.sendMsix_snapMarks (fn vec : Nat) : (s.sendMsix fn vec).snapMarks = s.snapMarks := rfl
@[simp] theorem State.sendMsix_relays (fn vec : Nat) : (s.sendMsix fn vec).relays = s.relays := rfl
@[simp] theorem State.sendMsix_inbox (fn vec : Nat) : (s.sendMsix fn vec).inbox = s.inbox := rfl
@[simp] theorem State.sendMsix_age (fn vec : Nat) : (s.sendMsix fn vec).age = s.age := rfl
@[simp] theorem State.sendMsix_dieUse (fn vec : Nat) : (s.sendMsix fn vec).dieUse = s.dieUse := rfl
@[simp] theorem State.sendMsix_kills (fn vec : Nat) : (s.sendMsix fn vec).kills = s.kills := rfl
@[simp] theorem State.sendMsix_dies (fn vec : Nat) : (s.sendMsix fn vec).dies = s.dies := rfl
@[simp] theorem State.sendMsix_bring (fn vec : Nat) : (s.sendMsix fn vec).bring = s.bring := rfl
@[simp] theorem State.sendMsix_moves (fn vec : Nat) : (s.sendMsix fn vec).moves = s.moves := rfl
@[simp] theorem State.sendMsix_focus (fn vec : Nat) : (s.sendMsix fn vec).focus = s.focus := rfl
@[simp] theorem State.sendMsix_fresh (fn vec : Nat) : (s.sendMsix fn vec).fresh = s.fresh := rfl
@[simp] theorem State.sendMsix_serial (fn vec : Nat) : (s.sendMsix fn vec).serial = s.serial := rfl
@[simp] theorem State.sendMsix_halt (fn vec : Nat) : (s.sendMsix fn vec).halt = s.halt := rfl

/-! State.stop. -/

@[simp] theorem State.stop_time (f : Fault) : (s.stop f).time = s.time := rfl
@[simp] theorem State.stop_wgs (f : Fault) : (s.stop f).wgs = s.wgs := rfl
@[simp] theorem State.stop_cores (f : Fault) : (s.stop f).cores = s.cores := rfl
@[simp] theorem State.stop_mem (f : Fault) : (s.stop f).mem = s.mem := rfl
@[simp] theorem State.stop_chk (f : Fault) : (s.stop f).chk = s.chk := rfl
@[simp] theorem State.stop_poison (f : Fault) : (s.stop f).poison = s.poison := rfl
@[simp] theorem State.stop_helped (f : Fault) : (s.stop f).helped = s.helped := rfl
@[simp] theorem State.stop_pub (f : Fault) : (s.stop f).pub = s.pub := rfl
@[simp] theorem State.stop_loads (f : Fault) : (s.stop f).loads = s.loads := rfl
@[simp] theorem State.stop_stores (f : Fault) : (s.stop f).stores = s.stores := rfl
@[simp] theorem State.stop_tracks (f : Fault) : (s.stop f).tracks = s.tracks := rfl
@[simp] theorem State.stop_copies (f : Fault) : (s.stop f).copies = s.copies := rfl
@[simp] theorem State.stop_grants (f : Fault) : (s.stop f).grants = s.grants := rfl
@[simp] theorem State.stop_grantNo (f : Fault) : (s.stop f).grantNo = s.grantNo := rfl
@[simp] theorem State.stop_narrow (f : Fault) : (s.stop f).narrow = s.narrow := rfl
@[simp] theorem State.stop_invals (f : Fault) : (s.stop f).invals = s.invals := rfl
@[simp] theorem State.stop_tlb (f : Fault) : (s.stop f).tlb = s.tlb := rfl
@[simp] theorem State.stop_tinvals (f : Fault) : (s.stop f).tinvals = s.tinvals := rfl
@[simp] theorem State.stop_refusals (f : Fault) : (s.stop f).refusals = s.refusals := rfl
@[simp] theorem State.stop_resvs (f : Fault) : (s.stop f).resvs = s.resvs := rfl
@[simp] theorem State.stop_dirty (f : Fault) : (s.stop f).dirty = s.dirty := rfl
@[simp] theorem State.stop_sliceFaults (f : Fault) : (s.stop f).sliceFaults = s.sliceFaults := rfl
@[simp] theorem State.stop_arb (f : Fault) : (s.stop f).arb = s.arb := rfl
@[simp] theorem State.stop_migReqs (f : Fault) : (s.stop f).migReqs = s.migReqs := rfl
@[simp] theorem State.stop_reported (f : Fault) : (s.stop f).reported = s.reported := rfl
@[simp] theorem State.stop_armed (f : Fault) : (s.stop f).armed = s.armed := rfl
@[simp] theorem State.stop_responses (f : Fault) : (s.stop f).responses = s.responses := rfl
@[simp] theorem State.stop_deadLinks (f : Fault) : (s.stop f).deadLinks = s.deadLinks := rfl
@[simp] theorem State.stop_cmds (f : Fault) : (s.stop f).cmds = s.cmds := rfl
@[simp] theorem State.stop_ringMsgs (f : Fault) : (s.stop f).ringMsgs = s.ringMsgs := rfl
@[simp] theorem State.stop_launches (f : Fault) : (s.stop f).launches = s.launches := rfl
@[simp] theorem State.stop_vfs (f : Fault) : (s.stop f).vfs = s.vfs := rfl
@[simp] theorem State.stop_pf (f : Fault) : (s.stop f).pf = s.pf := rfl
@[simp] theorem State.stop_msix (f : Fault) : (s.stop f).msix = s.msix := rfl
@[simp] theorem State.stop_turns (f : Fault) : (s.stop f).turns = s.turns := rfl
@[simp] theorem State.stop_marks (f : Fault) : (s.stop f).marks = s.marks := rfl
@[simp] theorem State.stop_snapMarks (f : Fault) : (s.stop f).snapMarks = s.snapMarks := rfl
@[simp] theorem State.stop_relays (f : Fault) : (s.stop f).relays = s.relays := rfl
@[simp] theorem State.stop_inbox (f : Fault) : (s.stop f).inbox = s.inbox := rfl
@[simp] theorem State.stop_age (f : Fault) : (s.stop f).age = s.age := rfl
@[simp] theorem State.stop_dieUse (f : Fault) : (s.stop f).dieUse = s.dieUse := rfl
@[simp] theorem State.stop_kills (f : Fault) : (s.stop f).kills = s.kills := rfl
@[simp] theorem State.stop_dies (f : Fault) : (s.stop f).dies = s.dies := rfl
@[simp] theorem State.stop_bring (f : Fault) : (s.stop f).bring = s.bring := rfl
@[simp] theorem State.stop_moves (f : Fault) : (s.stop f).moves = s.moves := rfl
@[simp] theorem State.stop_focus (f : Fault) : (s.stop f).focus = s.focus := rfl
@[simp] theorem State.stop_fresh (f : Fault) : (s.stop f).fresh = s.fresh := rfl
@[simp] theorem State.stop_serial (f : Fault) : (s.stop f).serial = s.serial := rfl
@[simp] theorem State.stop_halt (f : Fault) :
    (s.stop f).halt = some (s.halt.getD f) := rfl

/-! State.take. -/

@[simp] theorem State.take_time : (s.take.2).time = s.time := rfl
@[simp] theorem State.take_wgs : (s.take.2).wgs = s.wgs := rfl
@[simp] theorem State.take_cores : (s.take.2).cores = s.cores := rfl
@[simp] theorem State.take_mem : (s.take.2).mem = s.mem := rfl
@[simp] theorem State.take_chk : (s.take.2).chk = s.chk := rfl
@[simp] theorem State.take_poison : (s.take.2).poison = s.poison := rfl
@[simp] theorem State.take_helped : (s.take.2).helped = s.helped := rfl
@[simp] theorem State.take_pub : (s.take.2).pub = s.pub := rfl
@[simp] theorem State.take_loads : (s.take.2).loads = s.loads := rfl
@[simp] theorem State.take_stores : (s.take.2).stores = s.stores := rfl
@[simp] theorem State.take_tracks : (s.take.2).tracks = s.tracks := rfl
@[simp] theorem State.take_copies : (s.take.2).copies = s.copies := rfl
@[simp] theorem State.take_grants : (s.take.2).grants = s.grants := rfl
@[simp] theorem State.take_grantNo : (s.take.2).grantNo = s.grantNo := rfl
@[simp] theorem State.take_narrow : (s.take.2).narrow = s.narrow := rfl
@[simp] theorem State.take_invals : (s.take.2).invals = s.invals := rfl
@[simp] theorem State.take_tlb : (s.take.2).tlb = s.tlb := rfl
@[simp] theorem State.take_tinvals : (s.take.2).tinvals = s.tinvals := rfl
@[simp] theorem State.take_refusals : (s.take.2).refusals = s.refusals := rfl
@[simp] theorem State.take_resvs : (s.take.2).resvs = s.resvs := rfl
@[simp] theorem State.take_dirty : (s.take.2).dirty = s.dirty := rfl
@[simp] theorem State.take_sliceFaults : (s.take.2).sliceFaults = s.sliceFaults := rfl
@[simp] theorem State.take_arb : (s.take.2).arb = s.arb := rfl
@[simp] theorem State.take_migReqs : (s.take.2).migReqs = s.migReqs := rfl
@[simp] theorem State.take_reported : (s.take.2).reported = s.reported := rfl
@[simp] theorem State.take_armed : (s.take.2).armed = s.armed := rfl
@[simp] theorem State.take_responses : (s.take.2).responses = s.responses := rfl
@[simp] theorem State.take_deadLinks : (s.take.2).deadLinks = s.deadLinks := rfl
@[simp] theorem State.take_cmds : (s.take.2).cmds = s.cmds := rfl
@[simp] theorem State.take_ringMsgs : (s.take.2).ringMsgs = s.ringMsgs := rfl
@[simp] theorem State.take_launches : (s.take.2).launches = s.launches := rfl
@[simp] theorem State.take_vfs : (s.take.2).vfs = s.vfs := rfl
@[simp] theorem State.take_pf : (s.take.2).pf = s.pf := rfl
@[simp] theorem State.take_msix : (s.take.2).msix = s.msix := rfl
@[simp] theorem State.take_turns : (s.take.2).turns = s.turns := rfl
@[simp] theorem State.take_marks : (s.take.2).marks = s.marks := rfl
@[simp] theorem State.take_snapMarks : (s.take.2).snapMarks = s.snapMarks := rfl
@[simp] theorem State.take_relays : (s.take.2).relays = s.relays := rfl
@[simp] theorem State.take_inbox : (s.take.2).inbox = s.inbox := rfl
@[simp] theorem State.take_age : (s.take.2).age = s.age := rfl
@[simp] theorem State.take_dieUse : (s.take.2).dieUse = s.dieUse := rfl
@[simp] theorem State.take_kills : (s.take.2).kills = s.kills := rfl
@[simp] theorem State.take_dies : (s.take.2).dies = s.dies := rfl
@[simp] theorem State.take_bring : (s.take.2).bring = s.bring := rfl
@[simp] theorem State.take_moves : (s.take.2).moves = s.moves := rfl
@[simp] theorem State.take_focus : (s.take.2).focus = s.focus := rfl
@[simp] theorem State.take_fresh : (s.take.2).fresh = s.fresh := rfl
@[simp] theorem State.take_serial :
    (s.take.2).serial = s.serial + 1 := rfl
@[simp] theorem State.take_halt : (s.take.2).halt = s.halt := rfl

@[simp] theorem State.take_fst : s.take.1 = s.serial := rfl

end Sys2Proof.Machine
end

