-- ==== Sys2Proof/Laws/Access.lean ====
section
/-! SUPPORT. Reads after updates: a workgroup, a rig, a thread, a core, a bay, a launch and a virtual function
read back as they were updated, and every other one reads as before. -/

set_option Elab.async false

namespace Sys2Proof.Machine

/-! Lists. -/

theorem modifyAt_length {α : Type} (l : List α) (i : Nat) (f : α → α) : (modifyAt l i f).length = l.length := by
  induction l generalizing i with
  | nil => rfl
  | cons x r ih => cases i <;> simp [modifyAt, ih]

theorem modifyAt_get {α : Type} (l : List α) (i j : Nat) (f : α → α) :
    (modifyAt l i f)[j]? = if i = j then (l[j]?).map f else l[j]? := by
  induction l generalizing i j with
  | nil => simp [modifyAt]
  | cons x r ih =>
    cases i <;> cases j <;> simp [modifyAt, ih]

theorem find_map_key {α : Type} (key : α → Nat) (l : List α) (i j : Nat) (f : α → α)
    (hf : ∀ x, key (f x) = key x) :
    (l.map fun x => if key x == i then f x else x).find? (fun x => key x == j) =
      if i = j then (l.find? fun x => key x == j).map f else l.find? fun x => key x == j := by
  induction l with
  | nil => simp
  | cons x r ih =>
    by_cases hx : key x = i <;> by_cases hj : key x = j <;> by_cases hij : i = j <;>
      simp_all

/-! Workgroups, rigs and threads. -/

theorem State.wg?_setWg (s : State) (i j : Nat) (f : Workgroup → Workgroup) (hf : ∀ w, (f w).id = w.id) :
    (s.setWg i f).wg? j = if i = j then (s.wg? j).map f else s.wg? j :=
  find_map_key Workgroup.id s.wgs i j f hf

theorem State.rig?_setRig (s : State) (wg rig vg vig : Nat) (f : Rig → Rig) :
    (s.setRig wg rig f).rig? vg vig =
      if wg = vg ∧ rig = vig then (s.rig? vg vig).map f else s.rig? vg vig := by
  unfold State.rig? State.setRig
  rw [State.wg?_setWg s wg vg (fun w => { w with rigs := modifyAt w.rigs rig f }) fun _ => rfl]
  by_cases h : wg = vg
  · subst vg
    cases hw : s.wg? wg with
    | none => simp
    | some w => simp [modifyAt_get]
  · simp [h]

/-- The thread of a lane that exists reads as updated; every other thread reads as before. -/
theorem State.thread_setThread (s : State) (l m : LaneRef) (f : Thread → Thread) :
    (s.setThread l f).thread m =
      if l = m then
        (((s.rig? m.wg m.rig).bind fun r => r.threads[m.lane]?).map f).getD Thread.absent
      else s.thread m := by
  obtain ⟨lw, lr, ll⟩ := l
  obtain ⟨mw, mr, ml⟩ := m
  simp only [State.thread, State.setThread, State.rig?_setRig, LaneRef.mk.injEq]
  by_cases h : lw = mw ∧ lr = mr
  · obtain ⟨rfl, rfl⟩ := h
    cases hr : s.rig? lw lr with
    | none => simp
    | some r => by_cases hl : ll = ml <;> simp [modifyAt_get, hl]
  · have hn : ¬ (lw = mw ∧ lr = mr ∧ ll = ml) := fun x => h ⟨x.1, x.2.1⟩
    simp [h, hn]

theorem State.thread_setThread_other (s : State) (l m : LaneRef) (f : Thread → Thread) (h : l ≠ m) :
    (s.setThread l f).thread m = s.thread m := by simp [State.thread_setThread, h]

/-- A lane that no update names keeps its thread. -/
theorem State.thread_setThreads_other (s : State) (ls : List LaneRef) (f : LaneRef → Thread → Thread)
    (m : LaneRef) (h : m ∉ ls) : (s.setThreads ls f).thread m = s.thread m := by
  induction ls generalizing s with
  | nil => rfl
  | cons l r ih =>
    rw [List.mem_cons, not_or] at h
    exact (ih (s.setThread l (f l)) h.2).trans (s.thread_setThread_other l m _ (Ne.symm h.1))

/-! Cores and bays. -/

theorem State.core_setCore (s : State) (c d : Nat) (f : Core → Core) (h : c < s.cores.length) :
    (s.setCore c f).core d = if c = d then f (s.core d) else s.core d := by
  simp only [State.core, State.setCore, modifyAt_get]
  by_cases hc : c = d
  · subst d; simp [List.getElem?_eq_getElem h]
  · simp [hc]

theorem State.core_setCore_other (s : State) (c d : Nat) (f : Core → Core) (h : c ≠ d) :
    (s.setCore c f).core d = s.core d := by simp [State.core, State.setCore, modifyAt_get, h]

theorem State.bay_setBay (s : State) (c b : Nat) (f : Bay → Bay) (hc : c < s.cores.length)
    (hb : b < (s.core c).bays.length) : (s.setBay c b f).bay c b = f (s.bay c b) := by
  simp only [State.bay, State.setBay, State.core_setCore s c c _ hc, if_true, modifyAt_get]
  simp [List.getElem?_eq_getElem hb]

theorem State.bay_setBay_other (s : State) (c b d e : Nat) (f : Bay → Bay) (h : c ≠ d ∨ b ≠ e) :
    (s.setBay c b f).bay d e = s.bay d e := by
  by_cases hc : c = d
  · subst d
    have hb : b ≠ e := by simpa using h
    by_cases hl : c < s.cores.length
    · simp only [State.bay, State.setBay, State.core_setCore s c c _ hl, if_true, modifyAt_get, if_neg hb]
    · simp only [State.bay, State.setBay, State.core, State.setCore, modifyAt_get, if_true]
      simp [List.getElem?_eq_none (Nat.le_of_not_lt hl)]
  · simp only [State.bay, State.setBay, State.core_setCore_other s c d _ hc]

/-- The updated group stands at the port of the bay that acts. -/
theorem State.group?_setGroup (s : State) (f : Group → Group) (hc : s.focus.1 < s.cores.length)
    (hb : s.focus.2 < (s.core s.focus.1).bays.length) : (s.setGroup f).group? = s.group?.map f := by
  unfold State.group?
  rw [State.setGroup_focus, State.setGroup, State.bay_setBay s _ _ _ hc hb]

/-- The bay of a thread plays no part in its registers. -/
theorem State.thread_setBay (s : State) (c b : Nat) (f : Bay → Bay) (l : LaneRef) :
    (s.setBay c b f).thread l = s.thread l := rfl

theorem State.thread_setGroup (s : State) (f : Group → Group) (l : LaneRef) :
    (s.setGroup f).thread l = s.thread l := rfl

/-! Launches and functions. -/

theorem State.launch?_setLaunch (s : State) (i j : Nat) (f : Launch → Launch) (hf : ∀ l, (f l).id = l.id) :
    (s.setLaunch i f).launch? j = if i = j then (s.launch? j).map f else s.launch? j :=
  find_map_key Launch.id s.launches i j f hf

theorem State.vf_setVf (s : State) (v w : Nat) (f : Vf → Vf) (h : v < s.vfs.length) :
    (s.setVf v f).vf w = if v = w then f (s.vf w) else s.vf w := by
  simp only [State.vf, State.setVf, modifyAt_get]
  by_cases hv : v = w
  · subst w; simp [List.getElem?_eq_getElem h]
  · simp [hv]

theorem State.vf_setVf_other (s : State) (v w : Nat) (f : Vf → Vf) (h : v ≠ w) :
    (s.setVf v f).vf w = s.vf w := by simp [State.vf, State.setVf, modifyAt_get, h]

/-! The outcome of a meaning. -/

theorem conclude_eq_next (s t : State) : conclude s = .next t ↔ s.halt = none ∧ t = s := by
  unfold conclude
  cases s.halt <;> simp [eq_comm]

theorem conclude_eq_fault (s : State) (f : Fault) : conclude s = .fault f ↔ s.halt = some f := by
  unfold conclude
  cases s.halt <;> simp

/-- No meaning that concludes refuses. -/
theorem conclude_ne_refused (s : State) (r : Refusal) : conclude s ≠ .refused r := by
  unfold conclude
  cases s.halt <;> simp

end Sys2Proof.Machine
end

