-- ==== Sys2Proof/Laws/Decode.lean ====
section
/-! SUPPORT. The small laws of the codes and of the words (R55 to R65): every code fits its field and names the
value it came from, and the fields of a word of each format are the ones it was made of. -/

namespace Sys2Proof

/-! Codes. -/

theorem Ty.code_lt (x : Ty) : x.code < 16 := by cases x <;> decide

theorem Ty.ofCode_code (x : Ty) : Ty.ofCode? x.code = some x := by cases x <;> rfl

theorem Rnd.code_lt (x : Rnd) : x.code < 5 := by cases x <;> decide

theorem Rnd.ofCode_code (x : Rnd) : Rnd.ofCode? x.code = some x := by cases x <;> rfl

theorem Cond.code_lt (x : Cond) : x.code < 7 := by cases x <;> decide

theorem Cond.ofCode_code (x : Cond) : Cond.ofCode? x.code = some x := by cases x <;> rfl

theorem PredOp.code_lt (x : PredOp) : x.code < 3 := by cases x <;> decide

theorem PredOp.ofCode_code (x : PredOp) : PredOp.ofCode? x.code = some x := by cases x <;> rfl

theorem ShflMode.code_lt (x : ShflMode) : x.code < 4 := by cases x <;> decide

theorem ShflMode.ofCode_code (x : ShflMode) : ShflMode.ofCode? x.code = some x := by cases x <;> rfl

theorem VoteMode.code_lt (x : VoteMode) : x.code < 3 := by cases x <;> decide

theorem VoteMode.ofCode_code (x : VoteMode) : VoteMode.ofCode? x.code = some x := by cases x <;> rfl

theorem RedOp.code_lt (x : RedOp) : x.code < 9 := by cases x <;> decide

theorem RedOp.ofCode_code (x : RedOp) : RedOp.ofCode? x.code = some x := by cases x <;> rfl

theorem Scope.code_lt (x : Scope) : x.code < 5 := by cases x <;> decide

theorem Scope.ofCode_code (x : Scope) : Scope.ofCode? x.code = some x := by cases x <;> rfl

theorem Order.code_lt (x : Order) : x.code < 4 := by cases x <;> decide

theorem Order.ofCode_code (x : Order) : Order.ofCode? x.code = some x := by cases x <;> rfl

theorem Space.code_lt (x : Space) : x.code < 2 := by cases x <;> decide

theorem Space.ofCode_code (x : Space) : Space.ofCode? x.code = some x := by cases x <;> rfl

theorem PostOp.code_lt (x : PostOp) : x.code < 7 := by cases x <;> decide

theorem PostOp.ofCode_code (x : PostOp) : PostOp.ofCode? x.code = some x := by cases x <;> rfl

theorem SReg.code_lt (x : SReg) : x.code < 24 := by cases x <;> decide

theorem SReg.ofCode_code (x : SReg) : SReg.ofCode? x.code = some x := by cases x <;> rfl

theorem Level.code_lt (x : Level) : x.code < 4 := by cases x <;> decide

theorem Level.ofCode_code (x : Level) : Level.ofCode? x.code = some x := by cases x <;> rfl

/-- A bit vector is read back from the number it holds. -/
theorem ofNat_eq {n w : Nat} (x : BitVec n) (h : w = x.toNat) : BitVec.ofNat n w = x := by
  subst h
  simp

theorem ofNat_mod {n w : Nat} (x : BitVec n) (h : w % 2 ^ n = x.toNat) : BitVec.ofNat n w = x :=
  BitVec.eq_of_toNat_eq (by rw [BitVec.toNat_ofNat, h])

theorem bool_eq {n : Nat} {x : Bool} (h : n = x.toNat) : (n == 1) = x := by
  subst h
  cases x <;> rfl

theorem Guard.code_lt (g : Guard) : g.code < 16 := by
  have := g.pred.isLt
  simp only [Guard.code]
  cases g.neg <;> simp <;> omega

theorem Guard.ofCode_code (g : Guard) : Guard.ofCode g.code = g := by
  obtain ⟨p, n⟩ := g
  have := p.isLt
  cases n <;> simp [Guard.ofCode, Guard.code]
  exact ofNat_eq _ (by omega)

theorem Opnd.code_lt {o : Opnd} (h : o.wf = true) : o.code < 512 := by
  cases o <;> simp [Opnd.code, Opnd.wf] at * <;> omega

theorem Opnd.ofCode_code {o : Opnd} (h : o.wf = true) : Opnd.ofCode o.code = o := by
  cases o with
  | g r =>
    have := r.isLt
    rw [Opnd.ofCode, Opnd.code, if_pos (by omega), ofNat_eq r rfl]
  | a j =>
    have := j.isLt
    rw [Opnd.ofCode, Opnd.code, if_neg (by omega), if_pos (by omega), ofNat_eq j (by omega)]
  | t r =>
    have := r.isLt
    rw [Opnd.ofCode, Opnd.code, if_neg (by omega), if_neg (by omega), if_pos (by omega), ofNat_eq r (by omega)]
  | p r =>
    have := r.isLt
    rw [Opnd.ofCode, Opnd.code, if_neg (by omega), if_neg (by omega), if_neg (by omega), if_pos (by omega),
      ofNat_eq r (by omega)]
  | c k =>
    have := k.isLt
    rw [Opnd.ofCode, Opnd.code, if_neg (by omega), if_neg (by omega), if_neg (by omega), if_neg (by omega),
      if_pos (by omega), ofNat_eq k (by omega)]
  | bad k =>
    rw [Opnd.ofCode, Opnd.code, if_neg (by omega), if_neg (by omega), if_neg (by omega), if_neg (by omega),
      if_neg (by omega), ofNat_eq k (by omega)]

theorem PmovForm.ofFields_code {x : PmovForm} (h : x.wf = true) (o g b c i : Nat) :
    PmovForm.ofFields ⟨o, g, x.dCode, x.aCode, b, c, x.modCode, i⟩ = x := by
  cases x with
  | get d => simp [PmovForm.ofFields, PmovForm.dCode, PmovForm.modCode, Opnd.ofCode_code (o := d) h]
  | put a => simp [PmovForm.ofFields, PmovForm.aCode, PmovForm.modCode, Opnd.ofCode_code (o := a) h]

theorem YieldForm.ofFields_code {x : YieldForm} (h : x.wf = true) (o g d c i : Nat) :
    YieldForm.ofFields? ⟨o, g, d, x.aCode, x.bCode, c, x.modCode, i⟩ = some x := by
  cases x with
  | phase a b =>
    obtain ⟨ha, hb⟩ : a.wf = true ∧ b.wf = true := by simpa [YieldForm.wf] using h
    simp [YieldForm.ofFields?, YieldForm.aCode, YieldForm.bCode, YieldForm.modCode, Opnd.ofCode_code ha,
      Opnd.ofCode_code hb]
  | token k =>
    have := k.isLt
    simp [YieldForm.ofFields?, YieldForm.modCode]
    rw [ofNat_eq k (by omega)]
  | wptr a b =>
    obtain ⟨ha, hb⟩ : a.wf = true ∧ b.wf = true := by simpa [YieldForm.wf] using h
    simp [YieldForm.ofFields?, YieldForm.aCode, YieldForm.bCode, YieldForm.modCode, Opnd.ofCode_code ha,
      Opnd.ofCode_code hb]

/-- The completion is read back beside any bits below bit 10. -/
theorem Completion.ofFields_code {x : Completion} (h : x.wf = true) (o g d a b i k : Nat) (hk : k < 1024) :
    Completion.ofFields ⟨o, g, d, a, b, x.cCode, k + x.modCode, i⟩ = x := by
  cases x with
  | tok t =>
    have := t.isLt
    change (if (k + 2 ^ 10 * t.toNat) / 2 ^ 13 = 0 then
      Completion.tok (BitVec.ofNat 3 ((k + 2 ^ 10 * t.toNat) / 2 ^ 10)) else _) = _
    rw [if_pos (by omega), ofNat_eq t (by omega)]
  | bar c =>
    change (if (k + 2 ^ 13) / 2 ^ 13 = 0 then _ else Completion.bar (Opnd.ofCode c.code)) = _
    rw [if_neg (by omega), Opnd.ofCode_code (o := c) h]

theorem PmovForm.code_lt {x : PmovForm} (h : x.wf = true) :
    x.dCode < 512 ∧ x.aCode < 512 ∧ x.modCode < 16384 := by
  cases x with
  | get d => exact ⟨Opnd.code_lt (o := d) h, Nat.zero_lt_succ _, Nat.zero_lt_succ _⟩
  | put a => exact ⟨Nat.zero_lt_succ _, Opnd.code_lt (o := a) h, by simp [PmovForm.modCode]⟩

theorem YieldForm.code_lt {x : YieldForm} (h : x.wf = true) :
    x.aCode < 512 ∧ x.bCode < 512 ∧ x.modCode < 16384 := by
  cases x with
  | token k =>
    have := k.isLt
    exact ⟨Nat.zero_lt_succ _, Nat.zero_lt_succ _, by simp only [YieldForm.modCode]; omega⟩
  | phase a b =>
    obtain ⟨ha, hb⟩ : a.wf = true ∧ b.wf = true := by simpa [YieldForm.wf] using h
    exact ⟨Opnd.code_lt ha, Opnd.code_lt hb, by simp [YieldForm.modCode]⟩
  | wptr a b =>
    obtain ⟨ha, hb⟩ : a.wf = true ∧ b.wf = true := by simpa [YieldForm.wf] using h
    exact ⟨Opnd.code_lt ha, Opnd.code_lt hb, by simp [YieldForm.modCode]⟩

theorem Completion.code_lt {x : Completion} (h : x.wf = true) :
    x.cCode < 512 ∧ x.modCode < 16384 - 1024 ∧ x.modCode % 1024 = 0 := by
  cases x with
  | tok k =>
    have := k.isLt
    refine ⟨Nat.zero_lt_succ _, ?_, ?_⟩ <;> simp only [Completion.modCode] <;> omega
  | bar c => exact ⟨Opnd.code_lt (o := c) h, by simp [Completion.modCode], by simp [Completion.modCode]⟩

/-! Words. -/

/-- The fields of a word of format G, M or E (R56, R58, R60). -/
theorem fieldsOf_wordG {opc g d a b c m : Nat} (hg : g < 16) (hd : d < 512) (ha : a < 512) (hb : b < 512)
    (hc : c < 512) (hm : m < 16384) :
    fieldsOf (wordG opc g d a b c m) = ⟨opc, g, d, a, b, c, m, b * 2 ^ 23 + c * 2 ^ 14 + m⟩ := by
  simp only [fieldsOf, bitsAt, wordG, Fields.mk.injEq]
  refine ⟨?_, ?_, ?_, ?_, ?_, ?_, ?_, ?_⟩ <;> omega

/-- The fields of a word of format I or B (R57, R59). -/
theorem fieldsOf_wordI {opc g d a i : Nat} (hg : g < 16) (hd : d < 512) (ha : a < 512) (hi : i < 2 ^ 32) :
    fieldsOf (wordI opc g d a i) =
      ⟨opc, g, d, a, i / 2 ^ 23, i / 2 ^ 14 % 512, i % 2 ^ 14, i⟩ := by
  simp only [fieldsOf, bitsAt, wordI, Fields.mk.injEq]
  refine ⟨?_, ?_, ?_, ?_, ?_, ?_, ?_, ?_⟩ <;> omega

end Sys2Proof
end

