-- ==== Sys2Proof/Laws/Map.lean ====
section
/-! SUPPORT. The laws of sparse data and of memory: every operation keeps the canonical form, a read after a
write to the same key gives the value written, a write leaves every other key alone, and maps in canonical form
that read alike are equal lists. -/

set_option Elab.async false

namespace Sys2Proof.Machine

/-! One key. -/

theorem Map.wf_cons {α : Type} [DecidableEq α] (d : α) (k : Nat) (v : α) (r : Map α) :
    Map.wf d ((k, v) :: r) = true ↔ Map.above r k = true ∧ v ≠ d ∧ Map.wf d r = true := by
  simp [Map.wf, and_assoc]

theorem Map.above_set {α : Type} [DecidableEq α] (d : α) (v : α) (k b : Nat) (m : Map α)
    (hk : b < k) (h : Map.above m b = true) (hw : Map.wf d m = true) : Map.above (Map.set d m k v) b = true := by
  match m with
  | [] => unfold Map.set; split <;> simp [Map.above, hk]
  | (k', v') :: r =>
    have hb : b < k' := by simpa [Map.above] using h
    unfold Map.set
    split
    · split <;> simp [Map.above, hk, hb]
    · split
      · split
        · obtain ⟨ha, -, -⟩ := (Map.wf_cons d k' v' r).1 hw
          match r with
          | [] => rfl
          | (j, _) :: _ =>
            have : k' < j := by simpa [Map.above] using ha
            simp [Map.above]; omega
        · simp [Map.above, hk]
      · simp [Map.above, hb]

/-- A write keeps the canonical form. -/
theorem Map.wf_set {α : Type} [DecidableEq α] (d : α) (m : Map α) (k : Nat) (v : α) (h : Map.wf d m = true) :
    Map.wf d (Map.set d m k v) = true := by
  induction m with
  | nil => unfold Map.set; split <;> simp_all [Map.wf, Map.above]
  | cons x r ih =>
    obtain ⟨k', v'⟩ := x
    obtain ⟨ha, hv, hr⟩ := (Map.wf_cons d k' v' r).1 h
    unfold Map.set
    split
    · split
      · exact h
      · exact (Map.wf_cons ..).2 ⟨by simpa [Map.above] using ‹k < k'›, ‹_›, h⟩
    · split
      · split
        · exact hr
        · subst k; exact (Map.wf_cons ..).2 ⟨ha, ‹_›, hr⟩
      · exact (Map.wf_cons ..).2 ⟨Map.above_set d v k k' r (by omega) ha hr, hv, ih hr⟩

/-- Below its first key a map reads as unlisted. -/
theorem Map.get_of_above {α : Type} [DecidableEq α] (d : α) (m : Map α) (b k : Nat) (hk : k ≤ b)
    (h : Map.above m b = true) (hw : Map.wf d m = true) : Map.get d m k = d := by
  induction m generalizing b with
  | nil => rfl
  | cons x r ih =>
    obtain ⟨k', v'⟩ := x
    have hb : b < k' := by simpa [Map.above] using h
    obtain ⟨ha, -, hr⟩ := (Map.wf_cons d k' v' r).1 hw
    rw [Map.get, if_neg (by omega)]
    exact ih k' (by omega) ha hr

/-- A read after a write to the same key. -/
theorem Map.get_set_same {α : Type} [DecidableEq α] (d : α) (m : Map α) (k : Nat) (v : α)
    (h : Map.wf d m = true) : Map.get d (Map.set d m k v) k = v := by
  induction m with
  | nil => unfold Map.set; split <;> simp_all [Map.get]
  | cons x r ih =>
    obtain ⟨k', v'⟩ := x
    obtain ⟨ha, -, hr⟩ := (Map.wf_cons d k' v' r).1 h
    unfold Map.set
    split
    · split
      · rw [Map.get_of_above d _ k k le_rfl (by simpa [Map.above] using ‹k < k'›) h]; exact Eq.symm ‹_›
      · simp [Map.get]
    · split
      · split
        · subst k; rw [Map.get_of_above d r k' k' le_rfl ha hr]; exact Eq.symm ‹_›
        · simp [Map.get]
      · rw [Map.get, if_neg (by omega)]; exact ih hr

/-- A read of another key. -/
theorem Map.get_set_other {α : Type} [DecidableEq α] (d : α) (m : Map α) (k j : Nat) (v : α) (hj : j ≠ k) :
    Map.get d (Map.set d m k v) j = Map.get d m j := by
  induction m with
  | nil => unfold Map.set; split <;> simp [Map.get, Ne.symm hj]
  | cons x r ih =>
    obtain ⟨k', v'⟩ := x
    unfold Map.set
    split
    · split
      · rfl
      · rw [Map.get, if_neg (Ne.symm hj)]
    · split
      · subst k
        split <;> simp [Map.get, Ne.symm hj]
      · simp only [Map.get, ih]

/-- Maps in canonical form that read alike are equal. -/
theorem Map.ext_get {α : Type} [DecidableEq α] (d : α) (m n : Map α) (hm : Map.wf d m = true)
    (hn : Map.wf d n = true) (h : ∀ k, Map.get d m k = Map.get d n k) : m = n := by
  induction m generalizing n with
  | nil =>
    match n with
    | [] => rfl
    | (k, v) :: r =>
      obtain ⟨-, hv, -⟩ := (Map.wf_cons d k v r).1 hn
      exact absurd (by simpa [Map.get] using (h k).symm) hv
  | cons x r ih =>
    obtain ⟨k, v⟩ := x
    obtain ⟨ha, hv, hr⟩ := (Map.wf_cons d k v r).1 hm
    match n with
    | [] => exact absurd (by simpa [Map.get] using h k) hv
    | (j, w) :: t =>
      obtain ⟨hb, hw, ht⟩ := (Map.wf_cons d j w t).1 hn
      have hkj : k = j := by
        rcases Nat.lt_trichotomy k j with hlt | heq | hgt
        · have := h k
          rw [Map.get_of_above d ((j, w) :: t) k k le_rfl (by simpa [Map.above] using hlt) hn] at this
          exact absurd (by simpa [Map.get] using this) hv
        · exact heq
        · have := h j
          rw [Map.get_of_above d ((k, v) :: r) j j le_rfl (by simpa [Map.above] using hgt) hm] at this
          exact absurd (by simpa [Map.get] using this.symm) hw
      subst j
      have hvw : v = w := by simpa [Map.get] using h k
      subst w
      rw [ih t hr ht fun i => ?_]
      by_cases hi : i = k
      · subst i
        rw [Map.get_of_above d r k k le_rfl ha hr, Map.get_of_above d t k k le_rfl hb ht]
      · simpa [Map.get, Ne.symm hi] using h i

/-- Writes over a list of keys keep the canonical form. -/
theorem Map.wf_foldl_set {α : Type} [DecidableEq α] (d v : α) (ks : List Nat) (m : Map α)
    (h : Map.wf d m = true) : Map.wf d (ks.foldl (fun p k => Map.set d p k v) m) = true := by
  induction ks generalizing m with
  | nil => exact h
  | cons k ks ih => exact ih _ (Map.wf_set d m k v h)

/-! Memory. -/

theorem Memory.wf_write (m : Memory) (a : Nat) (v : Byte) (h : Memory.wf m = true) :
    Memory.wf (Memory.write m a v) = true := Map.wf_set _ m a v h

theorem Memory.read_write_same (m : Memory) (a : Nat) (v : Byte) (h : Memory.wf m = true) :
    Memory.read (Memory.write m a v) a = v := Map.get_set_same _ m a v h

theorem Memory.read_write_other (m : Memory) (a b : Nat) (v : Byte) (h : b ≠ a) :
    Memory.read (Memory.write m a v) b = Memory.read m b := Map.get_set_other _ m a b v h

theorem Memory.wf_writeN (m : Memory) (a : Nat) (bs : List Byte) (h : Memory.wf m = true) :
    Memory.wf (Memory.writeN m a bs) = true := by
  induction bs generalizing m a with
  | nil => exact h
  | cons b bs ih => exact ih _ _ (Memory.wf_write m a b h)

/-- A wide write leaves every byte outside it alone. -/
theorem Memory.read_writeN_other (m : Memory) (a b : Nat) (bs : List Byte)
    (h : b < a ∨ a + bs.length ≤ b) : Memory.read (Memory.writeN m a bs) b = Memory.read m b := by
  induction bs generalizing m a with
  | nil => rfl
  | cons v bs ih =>
    rw [List.length_cons] at h
    rw [Memory.writeN, ih _ _ (by omega), Memory.read_write_other m a b v (by omega)]

/-- A wide write puts its bytes from its address upward. -/
theorem Memory.read_writeN_inside (m : Memory) (a i : Nat) (bs : List Byte) (h : Memory.wf m = true)
    (hi : i < bs.length) : Memory.read (Memory.writeN m a bs) (a + i) = bs[i] := by
  induction bs generalizing m a i with
  | nil => exact absurd hi (by simp)
  | cons v bs ih =>
    rw [Memory.writeN]
    match i with
    | 0 =>
      simpa using (Memory.read_writeN_other _ (a + 1) a bs (by omega)).trans (Memory.read_write_same m a v h)
    | i + 1 =>
      have := ih (Memory.write m a v) (a + 1) i (Memory.wf_write m a v h) (by simpa using hi)
      simpa [Nat.add_assoc, Nat.add_comm 1 i] using this

theorem Memory.length_readN (m : Memory) (a n : Nat) : (Memory.readN m a n).length = n := by
  induction n generalizing a with
  | zero => rfl
  | succ n ih => simp [Memory.readN, ih]

/-- A wide read of what was just written there. -/
theorem Memory.readN_writeN (m : Memory) (a : Nat) (bs : List Byte) (h : Memory.wf m = true) :
    Memory.readN (Memory.writeN m a bs) a bs.length = bs := by
  induction bs generalizing m a with
  | nil => rfl
  | cons v bs ih =>
    rw [List.length_cons, Memory.readN, Memory.writeN,
      Memory.read_writeN_other _ _ _ _ (by omega), Memory.read_write_same m a v h,
      ih _ _ (Memory.wf_write m a v h)]

/-- A wide read that a write does not touch. -/
theorem Memory.readN_writeN_apart (m : Memory) (a b n : Nat) (bs : List Byte)
    (h : b + n ≤ a ∨ a + bs.length ≤ b) : Memory.readN (Memory.writeN m a bs) b n = Memory.readN m b n := by
  induction n generalizing b with
  | zero => rfl
  | succ n ih =>
    rw [Memory.readN, Memory.readN, ih (b + 1) (by omega), Memory.read_writeN_other _ _ _ _ (by omega)]

/-- The memory after reset is in canonical form. -/
theorem reset_mem_wf : Memory.wf State.reset.mem = true := rfl

/-! Little-endian numbers. -/

theorem leBytes_length (n v : Nat) : (leBytes n v).length = n := by
  induction n generalizing v with
  | zero => rfl
  | succ n ih => simp [leBytes, ih]

theorem leNat_leBytes (n v : Nat) : leNat (leBytes n v) = v % 256 ^ n := by
  induction n generalizing v with
  | zero => simp [leBytes, leNat, Nat.mod_one]
  | succ n ih =>
    simp only [leBytes, leNat, ih, BitVec.toNat_ofNat]
    have := @Nat.mod_mul 256 (256 ^ n) v
    rw [Nat.pow_succ' (n := n) (m := 256), this]

end Sys2Proof.Machine
end

