-- ==== Sys2Proof/Laws/Memory.lean ====
section
/-! SUPPORT. What the operations on memory at its homes do: each keeps the canonical forms of memory and of its
metadata, and a write changes no byte but its own and those of the notification queues. -/

set_option Elab.async false

namespace Sys2Proof

open Sys2Proof.Machine

/-! Fields. -/

@[simp] theorem Machine.State.rawWrite_mem (s : State) (pa : Nat) (bs : List Byte) :
    (s.rawWrite pa bs).mem = Memory.writeN s.mem pa bs := rfl

@[simp] theorem Machine.State.rawWrite_poison (s : State) (pa : Nat) (bs : List Byte) :
    (s.rawWrite pa bs).poison = s.poison := rfl

@[simp] theorem Machine.State.rawWrite_helped (s : State) (pa : Nat) (bs : List Byte) :
    (s.rawWrite pa bs).helped = s.helped := rfl

@[simp] theorem Machine.State.rawWrite_pub (s : State) (pa : Nat) (bs : List Byte) :
    (s.rawWrite pa bs).pub = s.pub := rfl

@[simp] theorem Machine.State.rawWrite_wgs (s : State) (pa : Nat) (bs : List Byte) :
    (s.rawWrite pa bs).wgs = s.wgs := rfl

@[simp] theorem Machine.State.rawWrite_halt (s : State) (pa : Nat) (bs : List Byte) :
    (s.rawWrite pa bs).halt = s.halt := rfl

@[simp] theorem Machine.State.rawWrite_serial (s : State) (pa : Nat) (bs : List Byte) :
    (s.rawWrite pa bs).serial = s.serial := rfl

/-! The canonical forms. -/

/-- Order depends on memory and its metadata alone. -/
theorem MemoryInOrder.of_eq {s t : State} (h : MemoryInOrder s) (hm : t.mem = s.mem) (hc : t.chk = s.chk)
    (hp : t.poison = s.poison) (hh : t.helped = s.helped) (hu : t.pub = s.pub) : MemoryInOrder t := by
  unfold MemoryInOrder at *
  rw [hm, hc, hp, hh, hu]; exact h

theorem chk_wf_foldl (mem : Memory) (secs : List Nat) (c : Map Nat) (h : Map.wf 0 c = true) :
    Map.wf 0 (secs.foldl (fun c sec =>
      if region (32 * sec) = 0 then Map.set 0 c sec (crc16 (Memory.readN mem (32 * sec) 32)) else c) c) = true := by
  induction secs generalizing c with
  | nil => exact h
  | cons x r ih =>
    rw [List.foldl_cons]
    split
    · exact ih _ (Map.wf_set 0 c x _ h)
    · exact ih _ h

theorem MemoryInOrder.rawWrite {s : State} (h : MemoryInOrder s) (pa : Nat) (bs : List Byte) :
    MemoryInOrder (s.rawWrite pa bs) :=
  ⟨Memory.wf_writeN s.mem pa bs h.1, chk_wf_foldl _ _ s.chk h.2.1, h.2.2.1, h.2.2.2.1, h.2.2.2.2⟩

theorem MemoryInOrder.foldl {α : Type} {s : State} (h : MemoryInOrder s) (f : State → α → State) (l : List α)
    (hf : ∀ s a, MemoryInOrder s → MemoryInOrder (f s a)) : MemoryInOrder (l.foldl f s) := by
  induction l generalizing s with
  | nil => exact h
  | cons a r ih => exact ih (hf s a h)

theorem MemoryInOrder.stop {s : State} (h : MemoryInOrder s) (f : Fault) : MemoryInOrder (s.stop f) := h

theorem MemoryInOrder.checkPa {s : State} (h : MemoryInOrder s) (pa : Nat) : MemoryInOrder (checkPa s pa) := by
  unfold Machine.checkPa
  split <;> exact h

theorem MemoryInOrder.monitor {s : State} (h : MemoryInOrder s) (pa : Nat) (bs : List Byte) :
    MemoryInOrder (s.monitor pa bs) := by
  unfold State.monitor
  dsimp only
  split_ifs <;> exact h

theorem MemoryInOrder.putSector {s : State} (h : MemoryInOrder s) (w : Writer) (bad : Bool) (pa : Nat) (bs : List Byte) :
    MemoryInOrder (s.putSector w bad pa bs) := by
  obtain ⟨h1, h2, h3, h4, h5⟩ := (h.monitor pa bs).rawWrite pa bs
  refine ⟨h1, h2, ?_, ?_, Map.wf_foldl_set 0 s.time _ _ h5⟩
  · unfold State.putSector; dsimp only; split
    · exact Map.wf_set false _ _ _ h3
    · exact h3
  · unfold State.putSector; dsimp only; split
    · exact h4
    · exact Map.wf_set false _ _ _ h4

theorem MemoryInOrder.mirrorLine {s : State} (h : MemoryInOrder s) (w : Writer) (id line : Nat) :
    MemoryInOrder (s.mirrorLine w id line) := by
  unfold State.mirrorLine
  dsimp only
  split_ifs <;> exact h

theorem MemoryInOrder.publishLine {s : State} (h : MemoryInOrder s) (w : Writer) (id line : Nat) :
    MemoryInOrder (s.publishLine w id line) := h

theorem MemoryInOrder.putLines {s : State} (h : MemoryInOrder s) (w : Writer) (id pa n : Nat) :
    MemoryInOrder (s.putLines w id pa n) := by
  unfold State.putLines
  split
  · exact h
  · exact h.foldl _ _ fun _ line ht => (ht.mirrorLine w id line).publishLine w id line

theorem MemoryInOrder.putRecord {s : State} (h : MemoryInOrder s) (pa : Nat) (r : List Byte) :
    MemoryInOrder (s.putRecord pa r) := by
  unfold State.putRecord
  split
  · exact h
  · exact MemoryInOrder.putLines (MemoryInOrder.putSector (s := s.take.2) h _ _ _ _) _ _ _ _

theorem MemoryInOrder.setNq {s : State} (h : MemoryInOrder s) (fn : Nat) (q : Nq) :
    MemoryInOrder (s.setNq fn q) := by
  unfold State.setNq
  split <;> exact h

theorem MemoryInOrder.holdRecord {s : State} (h : MemoryInOrder s) (fn : Nat) (r : List Byte) :
    MemoryInOrder (s.holdRecord fn r) := h.setNq fn _

theorem MemoryInOrder.writeNq {s : State} (h : MemoryInOrder s) (fn n : Nat) : MemoryInOrder (s.writeNq fn n) := by
  induction n generalizing s with
  | zero => exact h
  | succ n ih =>
    unfold State.writeNq
    dsimp only
    split
    · exact h
    · split
      · exact h
      · refine ih (MemoryInOrder.putRecord ?_ _ _)
        split
        · exact (h.setNq _ _).holdRecord _ _
        · exact h.setNq _ _

theorem MemoryInOrder.pumpNq {s : State} (h : MemoryInOrder s) (fn : Nat) : MemoryInOrder (s.pumpNq fn) := by
  unfold State.pumpNq
  dsimp only
  split
  · exact h.writeNq _ _
  · exact (h.writeNq _ _).writeNq _ _

theorem MemoryInOrder.notify {s : State} (h : MemoryInOrder s) (fn : Nat) (r : List Byte) :
    MemoryInOrder (s.notify fn r) := (h.holdRecord fn r).pumpNq fn

theorem MemoryInOrder.notifyPf {s : State} (h : MemoryInOrder s) (kind addr : Nat) :
    MemoryInOrder (s.notifyPf kind addr) := h.notify _ _

theorem MemoryInOrder.reportChecks {s : State} (h : MemoryInOrder s) (pa len : Nat) :
    MemoryInOrder (s.reportChecks pa len) := h.foldl _ _ fun _ _ hs => hs.notifyPf _ _

/-- The physical function's counters are apart from memory and its metadata. -/
theorem Machine.State.countPf_apart (s : State) (e n : Nat) :
    (s.countPf e n).mem = s.mem ∧ (s.countPf e n).chk = s.chk ∧ (s.countPf e n).poison = s.poison ∧
      (s.countPf e n).helped = s.helped ∧ (s.countPf e n).pub = s.pub := by
  unfold State.countPf
  dsimp only
  split <;> exact ⟨rfl, rfl, rfl, rfl, rfl⟩

/-- So are a virtual function's. -/
theorem Machine.State.countVf_apart (s : State) (v e n : Nat) :
    (s.countVf v e n).mem = s.mem ∧ (s.countVf v e n).chk = s.chk ∧ (s.countVf v e n).poison = s.poison ∧
      (s.countVf v e n).helped = s.helped ∧ (s.countVf v e n).pub = s.pub := by
  unfold State.countVf
  dsimp only
  split
  · split <;> exact ⟨rfl, rfl, rfl, rfl, rfl⟩
  · exact ⟨rfl, rfl, rfl, rfl, rfl⟩

/-- And so is a count of both. -/
theorem Machine.State.count_apart (s : State) (v e n : Nat) :
    (s.count v e n).mem = s.mem ∧ (s.count v e n).chk = s.chk ∧ (s.count v e n).poison = s.poison ∧
      (s.count v e n).helped = s.helped ∧ (s.count v e n).pub = s.pub := by
  obtain ⟨a, b, c, d, f⟩ := s.countPf_apart e n
  obtain ⟨a', b', c', d', f'⟩ := (s.countPf e n).countVf_apart v e n
  unfold State.count
  dsimp only
  split
  · exact ⟨a, b, c, d, f⟩
  · exact ⟨a'.trans a, b'.trans b, c'.trans c, d'.trans d, f'.trans f⟩

@[simp] theorem Machine.State.count_mem (s : State) (v e n : Nat) : (s.count v e n).mem = s.mem := (s.count_apart v e n).1

theorem MemoryInOrder.count {s : State} (h : MemoryInOrder s) (v e n : Nat) : MemoryInOrder (s.count v e n) :=
  let ⟨a, b, c, d, f⟩ := s.count_apart v e n
  h.of_eq a b c d f

theorem MemoryInOrder.countLink {s : State} (h : MemoryInOrder s) (pa : Nat) : MemoryInOrder (s.countLink pa) := by
  unfold State.countLink
  split
  · exact (h.count _ _ _).count _ _ _
  · exact h

theorem MemoryInOrder.writeSector {s : State} (h : MemoryInOrder s) (w : Writer) (pa : Nat) (bs : List Byte) :
    MemoryInOrder (s.writeSector w pa bs) := by
  exact (h.reportChecks _ _).putSector _ _ _ _

theorem MemoryInOrder.noteRewrite {s : State} (h : MemoryInOrder s) (pa n : Nat) : MemoryInOrder (s.noteRewrite pa n) := by
  unfold State.noteRewrite
  dsimp only
  split <;> exact h

/-- A write at its home keeps memory and its metadata in canonical form. -/
theorem MemoryInOrder.homeWrite {s : State} (h : MemoryInOrder s) (w : Writer) (id pa : Nat) (bs : List Byte) :
    MemoryInOrder (s.homeWrite w id pa bs) := by
  unfold State.homeWrite
  dsimp only
  refine MemoryInOrder.putLines (MemoryInOrder.foldl ?_ _ _ fun _ _ ht => ht.writeSector w _ _) w id pa bs.length
  split
  · exact ((h.checkPa pa).countLink pa).noteRewrite _ _
  · exact (h.checkPa pa).countLink pa

theorem MemoryInOrder.hwWrite {s : State} (h : MemoryInOrder s) (upd quiet : Bool) (pa : Nat) (bs : List Byte) :
    MemoryInOrder (s.hwWrite upd quiet pa bs).2 :=
  MemoryInOrder.homeWrite (s := s.take.2) h _ _ pa bs

theorem MemoryInOrder.writeFrame {s : State} (h : MemoryInOrder s) (a : Nat) (bs : List Byte) :
    MemoryInOrder (s.writeFrame a bs) := by
  unfold State.writeFrame
  split
  · exact h.hwWrite _ _ _ _
  all_goals exact h

/-! Updates elsewhere. -/

theorem MemoryInOrder.setWg {s : State} (h : MemoryInOrder s) (id : Nat) (f : Workgroup → Workgroup) :
    MemoryInOrder (s.setWg id f) := h

theorem MemoryInOrder.setThread {s : State} (h : MemoryInOrder s) (l : LaneRef) (f : Thread → Thread) :
    MemoryInOrder (s.setThread l f) := h

theorem MemoryInOrder.setBay {s : State} (h : MemoryInOrder s) (c b : Nat) (f : Bay → Bay) :
    MemoryInOrder (s.setBay c b f) := h

theorem MemoryInOrder.setLaunch {s : State} (h : MemoryInOrder s) (id : Nat) (f : Launch → Launch) :
    MemoryInOrder (s.setLaunch id f) := h

theorem MemoryInOrder.setVf {s : State} (h : MemoryInOrder s) (v : Nat) (f : Vf → Vf) :
    MemoryInOrder (s.setVf v f) := h

/-! The bytes of a write. -/

/-- A read of the run that was written. -/
theorem Machine.State.homeRead_rawWrite (s : State) (pa : Nat) (bs : List Byte) (h : Memory.wf s.mem = true) :
    (s.rawWrite pa bs).homeRead pa bs.length = bs := Memory.readN_writeN s.mem pa bs h

/-- A read of a run apart from it. -/
theorem Machine.State.homeRead_rawWrite_apart (s : State) (pa a n : Nat) (bs : List Byte)
    (h : a + n ≤ pa ∨ pa + bs.length ≤ a) : (s.rawWrite pa bs).homeRead a n = s.homeRead a n :=
  Memory.readN_writeN_apart s.mem pa a n bs h

@[simp] theorem Machine.State.monitor_mem (s : State) (pa : Nat) (bs : List Byte) : (s.monitor pa bs).mem = s.mem := by
  unfold State.monitor
  dsimp only
  split_ifs <;> rfl

@[simp] theorem Machine.State.putSector_mem (s : State) (w : Writer) (bad : Bool) (pa : Nat) (bs : List Byte) :
    (s.putSector w bad pa bs).mem = Memory.writeN s.mem pa bs := by
  unfold State.putSector
  dsimp only
  rw [State.rawWrite_mem, State.monitor_mem]

/-- A write within a sector whose check value holds changes its own bytes alone. -/
theorem Machine.State.mem_writeSector (s : State) (w : Writer) (pa : Nat) (bs : List Byte)
    (h : (sectorsOf (32 * (pa / 32)) 32).filter s.sectorMismatch = []) :
    (s.writeSector w pa bs).mem = Memory.writeN s.mem pa bs := by
  unfold State.writeSector
  dsimp only
  rw [State.putSector_mem]
  unfold State.reportChecks
  rw [h]; rfl

@[simp] theorem Machine.State.mirrorLine_mem (s : State) (w : Writer) (id line : Nat) :
    (s.mirrorLine w id line).mem = s.mem := by
  unfold State.mirrorLine
  dsimp only
  split_ifs <;> rfl

@[simp] theorem Machine.State.publishLine_mem (s : State) (w : Writer) (id line : Nat) :
    (s.publishLine w id line).mem = s.mem := rfl

@[simp] theorem Machine.State.putLines_mem (s : State) (w : Writer) (id pa n : Nat) :
    (s.putLines w id pa n).mem = s.mem := by
  unfold State.putLines
  split
  · rfl
  · dsimp only
    induction (List.range ((pa + n - 1) / 128 - pa / 128 + 1)).map (fun i => pa / 128 + i) generalizing s with
    | nil => rfl
    | cons x r ih => rw [List.foldl_cons, ih, State.publishLine_mem, State.mirrorLine_mem]

@[simp] theorem checkPa_mem (s : State) (pa : Nat) : (checkPa s pa).mem = s.mem := by
  unfold checkPa
  split <;> rfl

@[simp] theorem Machine.State.countLink_mem (s : State) (pa : Nat) : (s.countLink pa).mem = s.mem := by
  unfold State.countLink State.countFabric
  split
  · rw [State.count_mem, State.count_mem]
  · rfl

@[simp] theorem Machine.State.noteRewrite_mem (s : State) (pa n : Nat) : (s.noteRewrite pa n).mem = s.mem := by
  unfold State.noteRewrite
  dsimp only
  split <;> rfl

/-- Where no launch has a snapshot no leaf is noted as rewritten. -/
theorem Machine.State.noteRewrite_none (s : State) (pa n : Nat) (h : ∀ l ∈ s.launches, l.snap = []) :
    s.noteRewrite pa n = s := by
  unfold State.noteRewrite
  dsimp only
  rw [if_neg]
  simp only [List.any_eq_true, not_exists, not_and]
  intro l hl
  simp [h l hl]

/-- A home write of no byte changes no memory. -/
theorem Machine.State.homeWrite_nil (s : State) (w : Writer) (id pa : Nat) :
    (s.homeWrite w id pa []).mem = s.mem := by
  simp only [State.homeWrite, cutSectors, List.length_nil]
  split <;> simp

end Sys2Proof
end

