-- ==== Sys2Proof/Laws/Ops.lean ====
section
/-! SUPPORT. What the operations that the meanings share do to threads, launches, lofts and memory. -/

set_option Elab.async false

namespace Sys2Proof.Machine

/-! Many threads. -/

/-- In a list of distinct lanes each lane's own update reaches its thread, and no other does. -/
theorem State.thread_setThreads (s : State) (ls : List LaneRef) (f : LaneRef → Thread → Thread) (l : LaneRef)
    (t : Thread) (hl : l ∈ ls) (hn : ls.Nodup)
    (ht : ((s.rig? l.wg l.rig).bind fun r => r.threads[l.lane]?) = some t) :
    (s.setThreads ls f).thread l = f l t := by
  induction ls generalizing s with
  | nil => exact absurd hl (by simp)
  | cons m r ih =>
    obtain ⟨hm, hr⟩ := List.nodup_cons.1 hn
    rcases List.mem_cons.1 hl with rfl | hl
    · refine (State.thread_setThreads_other _ r f l hm).trans ?_
      rw [State.thread_setThread, if_pos rfl, ht]
      rfl
    · have hlm : m ≠ l := fun h => hm (h ▸ hl)
      refine ih (s.setThread m (f m)) hl hr ?_
      rw [State.setThread, State.rig?_setRig]
      by_cases h : m.wg = l.wg ∧ m.rig = l.rig
      · have hne : m.lane ≠ l.lane := fun x => hlm (by cases m; cases l; simp_all)
        cases hq : s.rig? l.wg l.rig with
        | none => simp [hq] at ht
        | some q => simpa [h, hq, modifyAt_get, hne] using ht
      · rw [if_neg h]; exact ht

/-! The group that issues. -/

@[simp] theorem State.leave_thread (s : State) (l m : LaneRef) : (s.leave l).thread m = s.thread m := rfl

@[simp] theorem State.stall_thread (s : State) (m : LaneRef) : s.stall.thread m = s.thread m := rfl

@[simp] theorem State.serve_thread (s : State) (l m : LaneRef) : (s.serve l).thread m = s.thread m := rfl

@[simp] theorem State.leave_mem (s : State) (l : LaneRef) : (s.leave l).mem = s.mem := rfl

@[simp] theorem State.stall_mem (s : State) : s.stall.mem = s.mem := rfl

@[simp] theorem State.serve_mem (s : State) (l : LaneRef) : (s.serve l).mem = s.mem := rfl

/-- A transfer changes the program counter, the slot and the age of its lane, and no other lane (R54). -/
theorem State.goTo_thread (s : State) (l m : LaneRef) (pc : Nat) :
    (s.goTo l pc).thread m =
      if l = m then
        (((s.rig? m.wg m.rig).bind fun r => r.threads[m.lane]?).map fun t =>
          { t with pc := BitVec.ofNat 64 pc, slot := none, age := s.cycle }).getD Thread.absent
      else s.thread m := State.thread_setThread s l m _

@[simp] theorem State.goTo_mem (s : State) (l : LaneRef) (pc : Nat) : (s.goTo l pc).mem = s.mem := rfl

/-! Launches. -/

/-- The early end of a launch leaves threads, memory and every other launch alone. -/
theorem State.failLaunch_launch? (s : State) (i j : Nat) (st : LStatus) (c a : Nat) (h : i ≠ j) :
    (s.failLaunch i st c a).launch? j = s.launch? j := by
  unfold State.failLaunch
  rw [State.launch?_setLaunch s i j _ fun l => by split <;> rfl, if_neg h]

@[simp] theorem State.failLaunch_thread (s : State) (i : Nat) (st : LStatus) (c a : Nat) (m : LaneRef) :
    (s.failLaunch i st c a).thread m = s.thread m := rfl

@[simp] theorem State.failLaunch_mem (s : State) (i : Nat) (st : LStatus) (c a : Nat) :
    (s.failLaunch i st c a).mem = s.mem := rfl

/-- A launch that fails takes no new workgroup and ends hard. -/
theorem State.failLaunch_hard (s : State) (i : Nat) (st : LStatus) (c a : Nat) (l : Launch)
    (h : s.launch? i = some l) :
    ∃ k, (s.failLaunch i st c a).launch? i = some k ∧ k.hard = true ∧ k.noPlace = true ∧
      (l.status = .done → k.status = st ∧ k.cause = c ∧ k.faddr = a) ∧ (l.status ≠ .done → k.status = l.status) := by
  unfold State.failLaunch
  rw [State.launch?_setLaunch s i i _ fun l => by split <;> rfl, if_pos rfl, h, Option.map_some]
  refine ⟨_, rfl, ?_⟩
  split <;> simp_all

/-! The loft. -/

theorem loft_wf_copy (ws : List Nat) (m : Memory) (is : List Nat) (a : Nat) (bs : List Byte)
    (h : Memory.wf m = true) :
    Memory.wf (is.foldl (fun m i => if ws.contains ((a + i) / 16) then m
      else Memory.write m (a + i) (bs.getD i 0#8)) m) = true := by
  induction is generalizing m with
  | nil => exact h
  | cons i r ih =>
    rw [List.foldl_cons]
    split
    · exact ih m h
    · exact ih _ (Memory.wf_write m _ _ h)

/-- A write into the loft keeps its canonical form. -/
theorem Workgroup.copyIn_inOrder (w : Workgroup) (t a : Nat) (bs : List Byte) (h : LoftInOrder w) :
    LoftInOrder (w.copyIn t a bs) := loft_wf_copy w.live w.loft _ a bs h

theorem Workgroup.setSlot_inOrder (w : Workgroup) (a v : Nat) (h : LoftInOrder w) :
    LoftInOrder (w.setSlot a v) := Memory.wf_writeN w.loft a _ h

/-- The fields of a slot read back as they were put (R196). -/
theorem Workgroup.slotBits_setSlot (w : Workgroup) (a v : Nat) (h : LoftInOrder w) :
    (w.setSlot a v).slotBits a = v % 2 ^ 128 := by
  have := Memory.readN_writeN w.loft a (leBytes 16 v) h
  rw [leBytes_length] at this
  unfold Workgroup.slotBits Workgroup.setSlot
  rw [this, leNat_leBytes, show (256 : Nat) ^ 16 = 2 ^ 128 from by norm_num]

/-! Accesses. -/

/-- A store of a workgroup that exists is one more store on its way, under a fresh number. -/
theorem State.addStore_stores (s : State) (l : LaneRef) (p : Place) (va : Nat) (bs : List Byte) (w : Workgroup)
    (h : s.wg? l.wg = some w) :
    (s.addStore l p va bs).stores = s.stores ++ [⟨s.serial, s.fresh, l, w.launch, w.core, p, va, bs, .wg, none, none, false⟩] := by
  unfold State.addStore State.addStoreOf
  rw [h]; rfl

@[simp] theorem State.addStore_mem (s : State) (l : LaneRef) (p : Place) (va : Nat) (bs : List Byte) :
    (s.addStore l p va bs).mem = s.mem := by
  unfold State.addStore State.addStoreOf
  cases s.wg? l.wg <;> rfl

@[simp] theorem State.addStore_thread (s : State) (l m : LaneRef) (p : Place) (va : Nat) (bs : List Byte) :
    (s.addStore l p va bs).thread m = s.thread m := by
  unfold State.addStore State.addStoreOf
  cases s.wg? l.wg <;> rfl

/-- What a thread observes as it becomes due is no matter of memory. -/
@[simp] theorem State.observe_mem (s : State) (l : LaneRef) (w : Wake) : (s.observe l w).mem = s.mem := by
  cases w with
  | token k => unfold State.observe State.tokenWait; dsimp only; split <;> rfl
  | phase a ph =>
    unfold State.observe
    dsimp only
    split
    · split <;> rfl
    · rfl
  | wptr ch v => rfl

@[simp] theorem State.noteWakes_mem (s : State) (wg : Nat) : (s.noteWakes wg).mem = s.mem := by
  unfold State.noteWakes
  generalize s.newlyDue wg = xs
  induction xs generalizing s with
  | nil => rfl
  | cons x r ih => rw [List.foldl_cons, ih]; exact s.observe_mem x.1 x.2

theorem State.setThreads_mem (s : State) (ls : List LaneRef) (f : LaneRef → Thread → Thread) :
    (s.setThreads ls f).mem = s.mem := by
  induction ls generalizing s with
  | nil => rfl
  | cons l r ih => exact ih (s.setThread l (f l))

/-- A load that lands changes no memory. -/
@[simp] theorem State.land1_mem (s : State) (p : PendingLoad) (bs : List Byte) (pub : Nat) :
    (s.land1 p bs pub).mem = s.mem := by
  unfold State.land1
  exact (State.noteWakes_mem _ _).trans (State.setThreads_mem _ _ fun _ t => t.land p bs pub)

/-- Without protected mode a token rises in its own lane alone (R183). -/
theorem State.raiseTok_thread_other (s : State) (l m : LaneRef) (k : Nat) (h : m ∉ s.twins l) :
    (s.raiseTok l k).thread m = s.thread m :=
  State.thread_setThreads_other s (s.twins l) (fun _ t => t.addTok k true) m h

/-- A store to the loft keeps the loft in canonical form and changes no memory. -/
theorem State.performStore_loft_mem (s : State) (q : PendingStore) (h : q.place.loft = true) :
    (s.performStore q).mem = s.mem := by
  unfold State.performStore
  rw [if_pos h]; rfl

/-- A command with nothing on its way has nothing to catch up with. -/
theorem State.writesOf_none (s : State) (id : Nat) (h : ∀ q ∈ s.stores, q.cmd ≠ some id) : s.writesOf id = [] := by
  unfold State.writesOf
  rw [List.filter_eq_nil_iff]
  intro q hq
  simpa using h q hq

theorem State.settleCmd_none (s : State) (id : Nat) (h : ∀ q ∈ s.stores, q.cmd ≠ some id) : s.settleCmd id = s := by
  unfold State.settleCmd
  rw [s.writesOf_none id h, List.foldl_nil]

/-! Issue. -/

/-- Outside an issue a slot does nothing but count a free value. -/
theorem issue_idle (i : Instr) (gd : Guard) (s : State) (f : State → List LaneRef → State)
    (h : s.group? = none) : issue i gd s f = conclude { s with fresh := s.fresh + 1 } := by
  have h' : ({ s with fresh := s.fresh + 1 } : State).group? = none := h
  simp only [issue, h']

end Sys2Proof.Machine
end

