-- ==== Sys2Proof/Laws/PerInstr.lean ====
section
/-! SUPPORT. The family Encoding: every word that the encoder gives a well-formed instruction is below 2 ^ 64 and
its fields build that instruction again (R55 to R63); one lemma for each constructor. -/

namespace Sys2Proof.Laws.Encoding

/-- The word of a well-formed instruction holds every one of its fields. -/
def Statement (i : Instr) : Prop :=
  i.wf = true → ∀ n, encodeNat i = some n → n < 2 ^ 64 ∧ build (fieldsOf n) = some i

theorem and_of {x y : Bool} (h : (x && y) = true) : x = true ∧ y = true := by simpa using h

/-- A step that stands in no word. -/
theorem of_none {i : Instr} (h : encodeNat i = none) : Statement i := by
  intro _ n hn
  rw [h] at hn
  cases hn

theorem of_wordG {i : Instr} {opc g d a b c m : Nat} (ho : opc < 1024) (hg : g < 16) (hd : d < 512)
    (ha : a < 512) (hb : b < 512) (hc : c < 512) (hm : m < 16384)
    (e : encodeNat i = some (wordG opc g d a b c m))
    (h : ∀ imm, build ⟨opc, g, d, a, b, c, m, imm⟩ = some i) :
    ∀ n, encodeNat i = some n → n < 2 ^ 64 ∧ build (fieldsOf n) = some i := by
  intro n hn
  obtain rfl := Option.some.inj (e.symm.trans hn)
  rw [fieldsOf_wordG hg hd ha hb hc hm]
  exact ⟨by simp only [wordG]; omega, h _⟩

theorem of_wordI {i : Instr} {opc g d a imm : Nat} (ho : opc < 1024) (hg : g < 16) (hd : d < 512)
    (ha : a < 512) (hi : imm < 2 ^ 32) (e : encodeNat i = some (wordI opc g d a imm))
    (h : ∀ b c m, build ⟨opc, g, d, a, b, c, m, imm⟩ = some i) :
    ∀ n, encodeNat i = some n → n < 2 ^ 64 ∧ build (fieldsOf n) = some i := by
  intro n hn
  obtain rfl := Option.some.inj (e.symm.trans hn)
  rw [fieldsOf_wordI hg hd ha hi]
  exact ⟨by simp only [wordI]; omega, h _ _ _⟩

theorem iadd gd ty d a b : Statement (.iadd gd ty d a b) := by
  intro w
  obtain ⟨w, bw⟩ := and_of w
  obtain ⟨w, aw⟩ := and_of w
  obtain ⟨-, dw⟩ := and_of w
  have := Ty.code_lt ty
  refine of_wordG (by decide) gd.code_lt (Opnd.code_lt dw) (Opnd.code_lt aw) (Opnd.code_lt bw) (by decide) (by
      omega) rfl fun i => ?_
  have h0 : (1024 * ty.code) / 1024 % 16 = ty.code := by omega
  change ((Ty.ofCode? ((1024 * ty.code) / 1024 % 16)).bind fun ty' => some (Instr.iadd (.ofCode gd.code) ty'
      (.ofCode d.code) (.ofCode a.code) (.ofCode b.code))) = _
  rw [h0, Ty.ofCode_code, Option.bind_some, Guard.ofCode_code, Opnd.ofCode_code dw, Opnd.ofCode_code aw,
      Opnd.ofCode_code bw]

theorem iaddI gd d a imm : Statement (.iaddI gd d a imm) := by
  intro w
  obtain ⟨dw, aw⟩ := and_of w
  have := imm.isLt
  refine of_wordI (by decide) gd.code_lt (Opnd.code_lt dw) (Opnd.code_lt aw) this rfl fun b c m => ?_
  change some (Instr.iaddI (.ofCode gd.code) (.ofCode d.code) (.ofCode a.code) (BitVec.ofNat 32 imm.toNat)) = _
  rw [Guard.ofCode_code, Opnd.ofCode_code dw, Opnd.ofCode_code aw, ofNat_eq imm rfl]

theorem isub gd ty d a b : Statement (.isub gd ty d a b) := by
  intro w
  obtain ⟨w, bw⟩ := and_of w
  obtain ⟨w, aw⟩ := and_of w
  obtain ⟨-, dw⟩ := and_of w
  have := Ty.code_lt ty
  refine of_wordG (by decide) gd.code_lt (Opnd.code_lt dw) (Opnd.code_lt aw) (Opnd.code_lt bw) (by decide) (by
      omega) rfl fun i => ?_
  have h0 : (1024 * ty.code) / 1024 % 16 = ty.code := by omega
  change ((Ty.ofCode? ((1024 * ty.code) / 1024 % 16)).bind fun ty' => some (Instr.isub (.ofCode gd.code) ty'
      (.ofCode d.code) (.ofCode a.code) (.ofCode b.code))) = _
  rw [h0, Ty.ofCode_code, Option.bind_some, Guard.ofCode_code, Opnd.ofCode_code dw, Opnd.ofCode_code aw,
      Opnd.ofCode_code bw]

theorem isubI gd d a imm : Statement (.isubI gd d a imm) := by
  intro w
  obtain ⟨dw, aw⟩ := and_of w
  have := imm.isLt
  refine of_wordI (by decide) gd.code_lt (Opnd.code_lt dw) (Opnd.code_lt aw) this rfl fun b c m => ?_
  change some (Instr.isubI (.ofCode gd.code) (.ofCode d.code) (.ofCode a.code) (BitVec.ofNat 32 imm.toNat)) = _
  rw [Guard.ofCode_code, Opnd.ofCode_code dw, Opnd.ofCode_code aw, ofNat_eq imm rfl]

theorem iaddc gd ty d a b c : Statement (.iaddc gd ty d a b c) := by
  intro w
  obtain ⟨w, cw⟩ := and_of w
  obtain ⟨w, bw⟩ := and_of w
  obtain ⟨w, aw⟩ := and_of w
  obtain ⟨-, dw⟩ := and_of w
  have := Ty.code_lt ty
  refine of_wordG (by decide) gd.code_lt (Opnd.code_lt dw) (Opnd.code_lt aw) (Opnd.code_lt bw) (Opnd.code_lt cw)
      (by omega) rfl fun i => ?_
  have h0 : (1024 * ty.code) / 1024 % 16 = ty.code := by omega
  change ((Ty.ofCode? ((1024 * ty.code) / 1024 % 16)).bind fun ty' => some (Instr.iaddc (.ofCode gd.code) ty'
      (.ofCode d.code) (.ofCode a.code) (.ofCode b.code) (.ofCode c.code))) = _
  rw [h0, Ty.ofCode_code, Option.bind_some, Guard.ofCode_code, Opnd.ofCode_code dw, Opnd.ofCode_code aw,
      Opnd.ofCode_code bw, Opnd.ofCode_code cw]

theorem imul gd ty d a b : Statement (.imul gd ty d a b) := by
  intro w
  obtain ⟨w, bw⟩ := and_of w
  obtain ⟨w, aw⟩ := and_of w
  obtain ⟨-, dw⟩ := and_of w
  have := Ty.code_lt ty
  refine of_wordG (by decide) gd.code_lt (Opnd.code_lt dw) (Opnd.code_lt aw) (Opnd.code_lt bw) (by decide) (by
      omega) rfl fun i => ?_
  have h0 : (1024 * ty.code) / 1024 % 16 = ty.code := by omega
  change ((Ty.ofCode? ((1024 * ty.code) / 1024 % 16)).bind fun ty' => some (Instr.imul (.ofCode gd.code) ty'
      (.ofCode d.code) (.ofCode a.code) (.ofCode b.code))) = _
  rw [h0, Ty.ofCode_code, Option.bind_some, Guard.ofCode_code, Opnd.ofCode_code dw, Opnd.ofCode_code aw,
      Opnd.ofCode_code bw]

theorem imulI gd d a imm : Statement (.imulI gd d a imm) := by
  intro w
  obtain ⟨dw, aw⟩ := and_of w
  have := imm.isLt
  refine of_wordI (by decide) gd.code_lt (Opnd.code_lt dw) (Opnd.code_lt aw) this rfl fun b c m => ?_
  change some (Instr.imulI (.ofCode gd.code) (.ofCode d.code) (.ofCode a.code) (BitVec.ofNat 32 imm.toNat)) = _
  rw [Guard.ofCode_code, Opnd.ofCode_code dw, Opnd.ofCode_code aw, ofNat_eq imm rfl]

theorem imulh gd ty d a b : Statement (.imulh gd ty d a b) := by
  intro w
  obtain ⟨w, bw⟩ := and_of w
  obtain ⟨w, aw⟩ := and_of w
  obtain ⟨-, dw⟩ := and_of w
  have := Ty.code_lt ty
  refine of_wordG (by decide) gd.code_lt (Opnd.code_lt dw) (Opnd.code_lt aw) (Opnd.code_lt bw) (by decide) (by
      omega) rfl fun i => ?_
  have h0 : (1024 * ty.code) / 1024 % 16 = ty.code := by omega
  change ((Ty.ofCode? ((1024 * ty.code) / 1024 % 16)).bind fun ty' => some (Instr.imulh (.ofCode gd.code) ty'
      (.ofCode d.code) (.ofCode a.code) (.ofCode b.code))) = _
  rw [h0, Ty.ofCode_code, Option.bind_some, Guard.ofCode_code, Opnd.ofCode_code dw, Opnd.ofCode_code aw,
      Opnd.ofCode_code bw]

theorem imad gd ty d a b c : Statement (.imad gd ty d a b c) := by
  intro w
  obtain ⟨w, cw⟩ := and_of w
  obtain ⟨w, bw⟩ := and_of w
  obtain ⟨w, aw⟩ := and_of w
  obtain ⟨-, dw⟩ := and_of w
  have := Ty.code_lt ty
  refine of_wordG (by decide) gd.code_lt (Opnd.code_lt dw) (Opnd.code_lt aw) (Opnd.code_lt bw) (Opnd.code_lt cw)
      (by omega) rfl fun i => ?_
  have h0 : (1024 * ty.code) / 1024 % 16 = ty.code := by omega
  change ((Ty.ofCode? ((1024 * ty.code) / 1024 % 16)).bind fun ty' => some (Instr.imad (.ofCode gd.code) ty'
      (.ofCode d.code) (.ofCode a.code) (.ofCode b.code) (.ofCode c.code))) = _
  rw [h0, Ty.ofCode_code, Option.bind_some, Guard.ofCode_code, Opnd.ofCode_code dw, Opnd.ofCode_code aw,
      Opnd.ofCode_code bw, Opnd.ofCode_code cw]

theorem idot4 gd ty d a b c : Statement (.idot4 gd ty d a b c) := by
  intro w
  obtain ⟨w, cw⟩ := and_of w
  obtain ⟨w, bw⟩ := and_of w
  obtain ⟨w, aw⟩ := and_of w
  obtain ⟨-, dw⟩ := and_of w
  have := Ty.code_lt ty
  refine of_wordG (by decide) gd.code_lt (Opnd.code_lt dw) (Opnd.code_lt aw) (Opnd.code_lt bw) (Opnd.code_lt cw)
      (by omega) rfl fun i => ?_
  have h0 : (1024 * ty.code) / 1024 % 16 = ty.code := by omega
  change ((Ty.ofCode? ((1024 * ty.code) / 1024 % 16)).bind fun ty' => some (Instr.idot4 (.ofCode gd.code) ty'
      (.ofCode d.code) (.ofCode a.code) (.ofCode b.code) (.ofCode c.code))) = _
  rw [h0, Ty.ofCode_code, Option.bind_some, Guard.ofCode_code, Opnd.ofCode_code dw, Opnd.ofCode_code aw,
      Opnd.ofCode_code bw, Opnd.ofCode_code cw]

theorem idiv gd ty d a b : Statement (.idiv gd ty d a b) := by
  intro w
  obtain ⟨w, bw⟩ := and_of w
  obtain ⟨w, aw⟩ := and_of w
  obtain ⟨-, dw⟩ := and_of w
  have := Ty.code_lt ty
  refine of_wordG (by decide) gd.code_lt (Opnd.code_lt dw) (Opnd.code_lt aw) (Opnd.code_lt bw) (by decide) (by
      omega) rfl fun i => ?_
  have h0 : (1024 * ty.code) / 1024 % 16 = ty.code := by omega
  change ((Ty.ofCode? ((1024 * ty.code) / 1024 % 16)).bind fun ty' => some (Instr.idiv (.ofCode gd.code) ty'
      (.ofCode d.code) (.ofCode a.code) (.ofCode b.code))) = _
  rw [h0, Ty.ofCode_code, Option.bind_some, Guard.ofCode_code, Opnd.ofCode_code dw, Opnd.ofCode_code aw,
      Opnd.ofCode_code bw]

theorem irem gd ty d a b : Statement (.irem gd ty d a b) := by
  intro w
  obtain ⟨w, bw⟩ := and_of w
  obtain ⟨w, aw⟩ := and_of w
  obtain ⟨-, dw⟩ := and_of w
  have := Ty.code_lt ty
  refine of_wordG (by decide) gd.code_lt (Opnd.code_lt dw) (Opnd.code_lt aw) (Opnd.code_lt bw) (by decide) (by
      omega) rfl fun i => ?_
  have h0 : (1024 * ty.code) / 1024 % 16 = ty.code := by omega
  change ((Ty.ofCode? ((1024 * ty.code) / 1024 % 16)).bind fun ty' => some (Instr.irem (.ofCode gd.code) ty'
      (.ofCode d.code) (.ofCode a.code) (.ofCode b.code))) = _
  rw [h0, Ty.ofCode_code, Option.bind_some, Guard.ofCode_code, Opnd.ofCode_code dw, Opnd.ofCode_code aw,
      Opnd.ofCode_code bw]

theorem imin gd ty d a b : Statement (.imin gd ty d a b) := by
  intro w
  obtain ⟨w, bw⟩ := and_of w
  obtain ⟨w, aw⟩ := and_of w
  obtain ⟨-, dw⟩ := and_of w
  have := Ty.code_lt ty
  refine of_wordG (by decide) gd.code_lt (Opnd.code_lt dw) (Opnd.code_lt aw) (Opnd.code_lt bw) (by decide) (by
      omega) rfl fun i => ?_
  have h0 : (1024 * ty.code) / 1024 % 16 = ty.code := by omega
  change ((Ty.ofCode? ((1024 * ty.code) / 1024 % 16)).bind fun ty' => some (Instr.imin (.ofCode gd.code) ty'
      (.ofCode d.code) (.ofCode a.code) (.ofCode b.code))) = _
  rw [h0, Ty.ofCode_code, Option.bind_some, Guard.ofCode_code, Opnd.ofCode_code dw, Opnd.ofCode_code aw,
      Opnd.ofCode_code bw]

theorem iminI gd d a imm : Statement (.iminI gd d a imm) := by
  intro w
  obtain ⟨dw, aw⟩ := and_of w
  have := imm.isLt
  refine of_wordI (by decide) gd.code_lt (Opnd.code_lt dw) (Opnd.code_lt aw) this rfl fun b c m => ?_
  change some (Instr.iminI (.ofCode gd.code) (.ofCode d.code) (.ofCode a.code) (BitVec.ofNat 32 imm.toNat)) = _
  rw [Guard.ofCode_code, Opnd.ofCode_code dw, Opnd.ofCode_code aw, ofNat_eq imm rfl]

theorem imax gd ty d a b : Statement (.imax gd ty d a b) := by
  intro w
  obtain ⟨w, bw⟩ := and_of w
  obtain ⟨w, aw⟩ := and_of w
  obtain ⟨-, dw⟩ := and_of w
  have := Ty.code_lt ty
  refine of_wordG (by decide) gd.code_lt (Opnd.code_lt dw) (Opnd.code_lt aw) (Opnd.code_lt bw) (by decide) (by
      omega) rfl fun i => ?_
  have h0 : (1024 * ty.code) / 1024 % 16 = ty.code := by omega
  change ((Ty.ofCode? ((1024 * ty.code) / 1024 % 16)).bind fun ty' => some (Instr.imax (.ofCode gd.code) ty'
      (.ofCode d.code) (.ofCode a.code) (.ofCode b.code))) = _
  rw [h0, Ty.ofCode_code, Option.bind_some, Guard.ofCode_code, Opnd.ofCode_code dw, Opnd.ofCode_code aw,
      Opnd.ofCode_code bw]

theorem imaxI gd d a imm : Statement (.imaxI gd d a imm) := by
  intro w
  obtain ⟨dw, aw⟩ := and_of w
  have := imm.isLt
  refine of_wordI (by decide) gd.code_lt (Opnd.code_lt dw) (Opnd.code_lt aw) this rfl fun b c m => ?_
  change some (Instr.imaxI (.ofCode gd.code) (.ofCode d.code) (.ofCode a.code) (BitVec.ofNat 32 imm.toNat)) = _
  rw [Guard.ofCode_code, Opnd.ofCode_code dw, Opnd.ofCode_code aw, ofNat_eq imm rfl]

theorem iabs gd ty d a : Statement (.iabs gd ty d a) := by
  intro w
  obtain ⟨w, aw⟩ := and_of w
  obtain ⟨-, dw⟩ := and_of w
  have := Ty.code_lt ty
  refine of_wordG (by decide) gd.code_lt (Opnd.code_lt dw) (Opnd.code_lt aw) (by decide) (by decide) (by omega) rfl
      fun i => ?_
  have h0 : (1024 * ty.code) / 1024 % 16 = ty.code := by omega
  change ((Ty.ofCode? ((1024 * ty.code) / 1024 % 16)).bind fun ty' => some (Instr.iabs (.ofCode gd.code) ty'
      (.ofCode d.code) (.ofCode a.code))) = _
  rw [h0, Ty.ofCode_code, Option.bind_some, Guard.ofCode_code, Opnd.ofCode_code dw, Opnd.ofCode_code aw]

theorem ineg gd ty d a : Statement (.ineg gd ty d a) := by
  intro w
  obtain ⟨w, aw⟩ := and_of w
  obtain ⟨-, dw⟩ := and_of w
  have := Ty.code_lt ty
  refine of_wordG (by decide) gd.code_lt (Opnd.code_lt dw) (Opnd.code_lt aw) (by decide) (by decide) (by omega) rfl
      fun i => ?_
  have h0 : (1024 * ty.code) / 1024 % 16 = ty.code := by omega
  change ((Ty.ofCode? ((1024 * ty.code) / 1024 % 16)).bind fun ty' => some (Instr.ineg (.ofCode gd.code) ty'
      (.ofCode d.code) (.ofCode a.code))) = _
  rw [h0, Ty.ofCode_code, Option.bind_some, Guard.ofCode_code, Opnd.ofCode_code dw, Opnd.ofCode_code aw]

theorem isat gd ty d a : Statement (.isat gd ty d a) := by
  intro w
  obtain ⟨w, aw⟩ := and_of w
  obtain ⟨-, dw⟩ := and_of w
  have := Ty.code_lt ty
  refine of_wordG (by decide) gd.code_lt (Opnd.code_lt dw) (Opnd.code_lt aw) (by decide) (by decide) (by omega) rfl
      fun i => ?_
  have h0 : (1024 * ty.code) / 1024 % 16 = ty.code := by omega
  change ((Ty.ofCode? ((1024 * ty.code) / 1024 % 16)).bind fun ty' => some (Instr.isat (.ofCode gd.code) ty'
      (.ofCode d.code) (.ofCode a.code))) = _
  rw [h0, Ty.ofCode_code, Option.bind_some, Guard.ofCode_code, Opnd.ofCode_code dw, Opnd.ofCode_code aw]

theorem shl gd ty d a b : Statement (.shl gd ty d a b) := by
  intro w
  obtain ⟨w, bw⟩ := and_of w
  obtain ⟨w, aw⟩ := and_of w
  obtain ⟨-, dw⟩ := and_of w
  have := Ty.code_lt ty
  refine of_wordG (by decide) gd.code_lt (Opnd.code_lt dw) (Opnd.code_lt aw) (Opnd.code_lt bw) (by decide) (by
      omega) rfl fun i => ?_
  have h0 : (1024 * ty.code) / 1024 % 16 = ty.code := by omega
  change ((Ty.ofCode? ((1024 * ty.code) / 1024 % 16)).bind fun ty' => some (Instr.shl (.ofCode gd.code) ty'
      (.ofCode d.code) (.ofCode a.code) (.ofCode b.code))) = _
  rw [h0, Ty.ofCode_code, Option.bind_some, Guard.ofCode_code, Opnd.ofCode_code dw, Opnd.ofCode_code aw,
      Opnd.ofCode_code bw]

theorem shlI gd d a imm : Statement (.shlI gd d a imm) := by
  intro w
  obtain ⟨dw, aw⟩ := and_of w
  have := imm.isLt
  refine of_wordI (by decide) gd.code_lt (Opnd.code_lt dw) (Opnd.code_lt aw) this rfl fun b c m => ?_
  change some (Instr.shlI (.ofCode gd.code) (.ofCode d.code) (.ofCode a.code) (BitVec.ofNat 32 imm.toNat)) = _
  rw [Guard.ofCode_code, Opnd.ofCode_code dw, Opnd.ofCode_code aw, ofNat_eq imm rfl]

theorem shr gd ty d a b : Statement (.shr gd ty d a b) := by
  intro w
  obtain ⟨w, bw⟩ := and_of w
  obtain ⟨w, aw⟩ := and_of w
  obtain ⟨-, dw⟩ := and_of w
  have := Ty.code_lt ty
  refine of_wordG (by decide) gd.code_lt (Opnd.code_lt dw) (Opnd.code_lt aw) (Opnd.code_lt bw) (by decide) (by
      omega) rfl fun i => ?_
  have h0 : (1024 * ty.code) / 1024 % 16 = ty.code := by omega
  change ((Ty.ofCode? ((1024 * ty.code) / 1024 % 16)).bind fun ty' => some (Instr.shr (.ofCode gd.code) ty'
      (.ofCode d.code) (.ofCode a.code) (.ofCode b.code))) = _
  rw [h0, Ty.ofCode_code, Option.bind_some, Guard.ofCode_code, Opnd.ofCode_code dw, Opnd.ofCode_code aw,
      Opnd.ofCode_code bw]

theorem shrI gd d a imm : Statement (.shrI gd d a imm) := by
  intro w
  obtain ⟨dw, aw⟩ := and_of w
  have := imm.isLt
  refine of_wordI (by decide) gd.code_lt (Opnd.code_lt dw) (Opnd.code_lt aw) this rfl fun b c m => ?_
  change some (Instr.shrI (.ofCode gd.code) (.ofCode d.code) (.ofCode a.code) (BitVec.ofNat 32 imm.toNat)) = _
  rw [Guard.ofCode_code, Opnd.ofCode_code dw, Opnd.ofCode_code aw, ofNat_eq imm rfl]

theorem sar gd ty d a b : Statement (.sar gd ty d a b) := by
  intro w
  obtain ⟨w, bw⟩ := and_of w
  obtain ⟨w, aw⟩ := and_of w
  obtain ⟨-, dw⟩ := and_of w
  have := Ty.code_lt ty
  refine of_wordG (by decide) gd.code_lt (Opnd.code_lt dw) (Opnd.code_lt aw) (Opnd.code_lt bw) (by decide) (by
      omega) rfl fun i => ?_
  have h0 : (1024 * ty.code) / 1024 % 16 = ty.code := by omega
  change ((Ty.ofCode? ((1024 * ty.code) / 1024 % 16)).bind fun ty' => some (Instr.sar (.ofCode gd.code) ty'
      (.ofCode d.code) (.ofCode a.code) (.ofCode b.code))) = _
  rw [h0, Ty.ofCode_code, Option.bind_some, Guard.ofCode_code, Opnd.ofCode_code dw, Opnd.ofCode_code aw,
      Opnd.ofCode_code bw]

theorem sarI gd d a imm : Statement (.sarI gd d a imm) := by
  intro w
  obtain ⟨dw, aw⟩ := and_of w
  have := imm.isLt
  refine of_wordI (by decide) gd.code_lt (Opnd.code_lt dw) (Opnd.code_lt aw) this rfl fun b c m => ?_
  change some (Instr.sarI (.ofCode gd.code) (.ofCode d.code) (.ofCode a.code) (BitVec.ofNat 32 imm.toNat)) = _
  rw [Guard.ofCode_code, Opnd.ofCode_code dw, Opnd.ofCode_code aw, ofNat_eq imm rfl]

theorem rol gd ty d a b : Statement (.rol gd ty d a b) := by
  intro w
  obtain ⟨w, bw⟩ := and_of w
  obtain ⟨w, aw⟩ := and_of w
  obtain ⟨-, dw⟩ := and_of w
  have := Ty.code_lt ty
  refine of_wordG (by decide) gd.code_lt (Opnd.code_lt dw) (Opnd.code_lt aw) (Opnd.code_lt bw) (by decide) (by
      omega) rfl fun i => ?_
  have h0 : (1024 * ty.code) / 1024 % 16 = ty.code := by omega
  change ((Ty.ofCode? ((1024 * ty.code) / 1024 % 16)).bind fun ty' => some (Instr.rol (.ofCode gd.code) ty'
      (.ofCode d.code) (.ofCode a.code) (.ofCode b.code))) = _
  rw [h0, Ty.ofCode_code, Option.bind_some, Guard.ofCode_code, Opnd.ofCode_code dw, Opnd.ofCode_code aw,
      Opnd.ofCode_code bw]

theorem rolI gd d a imm : Statement (.rolI gd d a imm) := by
  intro w
  obtain ⟨dw, aw⟩ := and_of w
  have := imm.isLt
  refine of_wordI (by decide) gd.code_lt (Opnd.code_lt dw) (Opnd.code_lt aw) this rfl fun b c m => ?_
  change some (Instr.rolI (.ofCode gd.code) (.ofCode d.code) (.ofCode a.code) (BitVec.ofNat 32 imm.toNat)) = _
  rw [Guard.ofCode_code, Opnd.ofCode_code dw, Opnd.ofCode_code aw, ofNat_eq imm rfl]

theorem ror gd ty d a b : Statement (.ror gd ty d a b) := by
  intro w
  obtain ⟨w, bw⟩ := and_of w
  obtain ⟨w, aw⟩ := and_of w
  obtain ⟨-, dw⟩ := and_of w
  have := Ty.code_lt ty
  refine of_wordG (by decide) gd.code_lt (Opnd.code_lt dw) (Opnd.code_lt aw) (Opnd.code_lt bw) (by decide) (by
      omega) rfl fun i => ?_
  have h0 : (1024 * ty.code) / 1024 % 16 = ty.code := by omega
  change ((Ty.ofCode? ((1024 * ty.code) / 1024 % 16)).bind fun ty' => some (Instr.ror (.ofCode gd.code) ty'
      (.ofCode d.code) (.ofCode a.code) (.ofCode b.code))) = _
  rw [h0, Ty.ofCode_code, Option.bind_some, Guard.ofCode_code, Opnd.ofCode_code dw, Opnd.ofCode_code aw,
      Opnd.ofCode_code bw]

theorem rorI gd d a imm : Statement (.rorI gd d a imm) := by
  intro w
  obtain ⟨dw, aw⟩ := and_of w
  have := imm.isLt
  refine of_wordI (by decide) gd.code_lt (Opnd.code_lt dw) (Opnd.code_lt aw) this rfl fun b c m => ?_
  change some (Instr.rorI (.ofCode gd.code) (.ofCode d.code) (.ofCode a.code) (BitVec.ofNat 32 imm.toNat)) = _
  rw [Guard.ofCode_code, Opnd.ofCode_code dw, Opnd.ofCode_code aw, ofNat_eq imm rfl]

theorem andG gd ty d a b : Statement (.andG gd ty d a b) := by
  intro w
  obtain ⟨w, bw⟩ := and_of w
  obtain ⟨w, aw⟩ := and_of w
  obtain ⟨-, dw⟩ := and_of w
  have := Ty.code_lt ty
  refine of_wordG (by decide) gd.code_lt (Opnd.code_lt dw) (Opnd.code_lt aw) (Opnd.code_lt bw) (by decide) (by
      omega) rfl fun i => ?_
  have h0 : (1024 * ty.code) / 1024 % 16 = ty.code := by omega
  change ((Ty.ofCode? ((1024 * ty.code) / 1024 % 16)).bind fun ty' => some (Instr.andG (.ofCode gd.code) ty'
      (.ofCode d.code) (.ofCode a.code) (.ofCode b.code))) = _
  rw [h0, Ty.ofCode_code, Option.bind_some, Guard.ofCode_code, Opnd.ofCode_code dw, Opnd.ofCode_code aw,
      Opnd.ofCode_code bw]

theorem andI gd d a imm : Statement (.andI gd d a imm) := by
  intro w
  obtain ⟨dw, aw⟩ := and_of w
  have := imm.isLt
  refine of_wordI (by decide) gd.code_lt (Opnd.code_lt dw) (Opnd.code_lt aw) this rfl fun b c m => ?_
  change some (Instr.andI (.ofCode gd.code) (.ofCode d.code) (.ofCode a.code) (BitVec.ofNat 32 imm.toNat)) = _
  rw [Guard.ofCode_code, Opnd.ofCode_code dw, Opnd.ofCode_code aw, ofNat_eq imm rfl]

theorem orG gd ty d a b : Statement (.orG gd ty d a b) := by
  intro w
  obtain ⟨w, bw⟩ := and_of w
  obtain ⟨w, aw⟩ := and_of w
  obtain ⟨-, dw⟩ := and_of w
  have := Ty.code_lt ty
  refine of_wordG (by decide) gd.code_lt (Opnd.code_lt dw) (Opnd.code_lt aw) (Opnd.code_lt bw) (by decide) (by
      omega) rfl fun i => ?_
  have h0 : (1024 * ty.code) / 1024 % 16 = ty.code := by omega
  change ((Ty.ofCode? ((1024 * ty.code) / 1024 % 16)).bind fun ty' => some (Instr.orG (.ofCode gd.code) ty'
      (.ofCode d.code) (.ofCode a.code) (.ofCode b.code))) = _
  rw [h0, Ty.ofCode_code, Option.bind_some, Guard.ofCode_code, Opnd.ofCode_code dw, Opnd.ofCode_code aw,
      Opnd.ofCode_code bw]

theorem orI gd d a imm : Statement (.orI gd d a imm) := by
  intro w
  obtain ⟨dw, aw⟩ := and_of w
  have := imm.isLt
  refine of_wordI (by decide) gd.code_lt (Opnd.code_lt dw) (Opnd.code_lt aw) this rfl fun b c m => ?_
  change some (Instr.orI (.ofCode gd.code) (.ofCode d.code) (.ofCode a.code) (BitVec.ofNat 32 imm.toNat)) = _
  rw [Guard.ofCode_code, Opnd.ofCode_code dw, Opnd.ofCode_code aw, ofNat_eq imm rfl]

theorem xorG gd ty d a b : Statement (.xorG gd ty d a b) := by
  intro w
  obtain ⟨w, bw⟩ := and_of w
  obtain ⟨w, aw⟩ := and_of w
  obtain ⟨-, dw⟩ := and_of w
  have := Ty.code_lt ty
  refine of_wordG (by decide) gd.code_lt (Opnd.code_lt dw) (Opnd.code_lt aw) (Opnd.code_lt bw) (by decide) (by
      omega) rfl fun i => ?_
  have h0 : (1024 * ty.code) / 1024 % 16 = ty.code := by omega
  change ((Ty.ofCode? ((1024 * ty.code) / 1024 % 16)).bind fun ty' => some (Instr.xorG (.ofCode gd.code) ty'
      (.ofCode d.code) (.ofCode a.code) (.ofCode b.code))) = _
  rw [h0, Ty.ofCode_code, Option.bind_some, Guard.ofCode_code, Opnd.ofCode_code dw, Opnd.ofCode_code aw,
      Opnd.ofCode_code bw]

theorem xorI gd d a imm : Statement (.xorI gd d a imm) := by
  intro w
  obtain ⟨dw, aw⟩ := and_of w
  have := imm.isLt
  refine of_wordI (by decide) gd.code_lt (Opnd.code_lt dw) (Opnd.code_lt aw) this rfl fun b c m => ?_
  change some (Instr.xorI (.ofCode gd.code) (.ofCode d.code) (.ofCode a.code) (BitVec.ofNat 32 imm.toNat)) = _
  rw [Guard.ofCode_code, Opnd.ofCode_code dw, Opnd.ofCode_code aw, ofNat_eq imm rfl]

theorem andnG gd ty d a b : Statement (.andnG gd ty d a b) := by
  intro w
  obtain ⟨w, bw⟩ := and_of w
  obtain ⟨w, aw⟩ := and_of w
  obtain ⟨-, dw⟩ := and_of w
  have := Ty.code_lt ty
  refine of_wordG (by decide) gd.code_lt (Opnd.code_lt dw) (Opnd.code_lt aw) (Opnd.code_lt bw) (by decide) (by
      omega) rfl fun i => ?_
  have h0 : (1024 * ty.code) / 1024 % 16 = ty.code := by omega
  change ((Ty.ofCode? ((1024 * ty.code) / 1024 % 16)).bind fun ty' => some (Instr.andnG (.ofCode gd.code) ty'
      (.ofCode d.code) (.ofCode a.code) (.ofCode b.code))) = _
  rw [h0, Ty.ofCode_code, Option.bind_some, Guard.ofCode_code, Opnd.ofCode_code dw, Opnd.ofCode_code aw,
      Opnd.ofCode_code bw]

theorem andnI gd d a imm : Statement (.andnI gd d a imm) := by
  intro w
  obtain ⟨dw, aw⟩ := and_of w
  have := imm.isLt
  refine of_wordI (by decide) gd.code_lt (Opnd.code_lt dw) (Opnd.code_lt aw) this rfl fun b c m => ?_
  change some (Instr.andnI (.ofCode gd.code) (.ofCode d.code) (.ofCode a.code) (BitVec.ofNat 32 imm.toNat)) = _
  rw [Guard.ofCode_code, Opnd.ofCode_code dw, Opnd.ofCode_code aw, ofNat_eq imm rfl]

theorem notG gd ty d a : Statement (.notG gd ty d a) := by
  intro w
  obtain ⟨w, aw⟩ := and_of w
  obtain ⟨-, dw⟩ := and_of w
  have := Ty.code_lt ty
  refine of_wordG (by decide) gd.code_lt (Opnd.code_lt dw) (Opnd.code_lt aw) (by decide) (by decide) (by omega) rfl
      fun i => ?_
  have h0 : (1024 * ty.code) / 1024 % 16 = ty.code := by omega
  change ((Ty.ofCode? ((1024 * ty.code) / 1024 % 16)).bind fun ty' => some (Instr.notG (.ofCode gd.code) ty'
      (.ofCode d.code) (.ofCode a.code))) = _
  rw [h0, Ty.ofCode_code, Option.bind_some, Guard.ofCode_code, Opnd.ofCode_code dw, Opnd.ofCode_code aw]

theorem popc gd ty d a : Statement (.popc gd ty d a) := by
  intro w
  obtain ⟨w, aw⟩ := and_of w
  obtain ⟨-, dw⟩ := and_of w
  have := Ty.code_lt ty
  refine of_wordG (by decide) gd.code_lt (Opnd.code_lt dw) (Opnd.code_lt aw) (by decide) (by decide) (by omega) rfl
      fun i => ?_
  have h0 : (1024 * ty.code) / 1024 % 16 = ty.code := by omega
  change ((Ty.ofCode? ((1024 * ty.code) / 1024 % 16)).bind fun ty' => some (Instr.popc (.ofCode gd.code) ty'
      (.ofCode d.code) (.ofCode a.code))) = _
  rw [h0, Ty.ofCode_code, Option.bind_some, Guard.ofCode_code, Opnd.ofCode_code dw, Opnd.ofCode_code aw]

theorem clz gd ty d a : Statement (.clz gd ty d a) := by
  intro w
  obtain ⟨w, aw⟩ := and_of w
  obtain ⟨-, dw⟩ := and_of w
  have := Ty.code_lt ty
  refine of_wordG (by decide) gd.code_lt (Opnd.code_lt dw) (Opnd.code_lt aw) (by decide) (by decide) (by omega) rfl
      fun i => ?_
  have h0 : (1024 * ty.code) / 1024 % 16 = ty.code := by omega
  change ((Ty.ofCode? ((1024 * ty.code) / 1024 % 16)).bind fun ty' => some (Instr.clz (.ofCode gd.code) ty'
      (.ofCode d.code) (.ofCode a.code))) = _
  rw [h0, Ty.ofCode_code, Option.bind_some, Guard.ofCode_code, Opnd.ofCode_code dw, Opnd.ofCode_code aw]

theorem ctz gd ty d a : Statement (.ctz gd ty d a) := by
  intro w
  obtain ⟨w, aw⟩ := and_of w
  obtain ⟨-, dw⟩ := and_of w
  have := Ty.code_lt ty
  refine of_wordG (by decide) gd.code_lt (Opnd.code_lt dw) (Opnd.code_lt aw) (by decide) (by decide) (by omega) rfl
      fun i => ?_
  have h0 : (1024 * ty.code) / 1024 % 16 = ty.code := by omega
  change ((Ty.ofCode? ((1024 * ty.code) / 1024 % 16)).bind fun ty' => some (Instr.ctz (.ofCode gd.code) ty'
      (.ofCode d.code) (.ofCode a.code))) = _
  rw [h0, Ty.ofCode_code, Option.bind_some, Guard.ofCode_code, Opnd.ofCode_code dw, Opnd.ofCode_code aw]

theorem brev gd ty d a : Statement (.brev gd ty d a) := by
  intro w
  obtain ⟨w, aw⟩ := and_of w
  obtain ⟨-, dw⟩ := and_of w
  have := Ty.code_lt ty
  refine of_wordG (by decide) gd.code_lt (Opnd.code_lt dw) (Opnd.code_lt aw) (by decide) (by decide) (by omega) rfl
      fun i => ?_
  have h0 : (1024 * ty.code) / 1024 % 16 = ty.code := by omega
  change ((Ty.ofCode? ((1024 * ty.code) / 1024 % 16)).bind fun ty' => some (Instr.brev (.ofCode gd.code) ty'
      (.ofCode d.code) (.ofCode a.code))) = _
  rw [h0, Ty.ofCode_code, Option.bind_some, Guard.ofCode_code, Opnd.ofCode_code dw, Opnd.ofCode_code aw]

theorem bfx gd ty d a b c : Statement (.bfx gd ty d a b c) := by
  intro w
  obtain ⟨w, cw⟩ := and_of w
  obtain ⟨w, bw⟩ := and_of w
  obtain ⟨w, aw⟩ := and_of w
  obtain ⟨-, dw⟩ := and_of w
  have := Ty.code_lt ty
  refine of_wordG (by decide) gd.code_lt (Opnd.code_lt dw) (Opnd.code_lt aw) (Opnd.code_lt bw) (Opnd.code_lt cw)
      (by omega) rfl fun i => ?_
  have h0 : (1024 * ty.code) / 1024 % 16 = ty.code := by omega
  change ((Ty.ofCode? ((1024 * ty.code) / 1024 % 16)).bind fun ty' => some (Instr.bfx (.ofCode gd.code) ty'
      (.ofCode d.code) (.ofCode a.code) (.ofCode b.code) (.ofCode c.code))) = _
  rw [h0, Ty.ofCode_code, Option.bind_some, Guard.ofCode_code, Opnd.ofCode_code dw, Opnd.ofCode_code aw,
      Opnd.ofCode_code bw, Opnd.ofCode_code cw]

theorem bfi gd ty d a b c : Statement (.bfi gd ty d a b c) := by
  intro w
  obtain ⟨w, cw⟩ := and_of w
  obtain ⟨w, bw⟩ := and_of w
  obtain ⟨w, aw⟩ := and_of w
  obtain ⟨-, dw⟩ := and_of w
  have := Ty.code_lt ty
  refine of_wordG (by decide) gd.code_lt (Opnd.code_lt dw) (Opnd.code_lt aw) (Opnd.code_lt bw) (Opnd.code_lt cw)
      (by omega) rfl fun i => ?_
  have h0 : (1024 * ty.code) / 1024 % 16 = ty.code := by omega
  change ((Ty.ofCode? ((1024 * ty.code) / 1024 % 16)).bind fun ty' => some (Instr.bfi (.ofCode gd.code) ty'
      (.ofCode d.code) (.ofCode a.code) (.ofCode b.code) (.ofCode c.code))) = _
  rw [h0, Ty.ofCode_code, Option.bind_some, Guard.ofCode_code, Opnd.ofCode_code dw, Opnd.ofCode_code aw,
      Opnd.ofCode_code bw, Opnd.ofCode_code cw]

theorem lea gd d a b c : Statement (.lea gd d a b c) := by
  intro w
  obtain ⟨w, cw⟩ := and_of w
  obtain ⟨w, bw⟩ := and_of w
  obtain ⟨dw, aw⟩ := and_of w
  refine of_wordG (by decide) gd.code_lt (Opnd.code_lt dw) (Opnd.code_lt aw) (Opnd.code_lt bw) (Opnd.code_lt cw)
      (by decide) rfl fun i => ?_
  change some (Instr.lea (.ofCode gd.code) (.ofCode d.code) (.ofCode a.code) (.ofCode b.code) (.ofCode c.code)) = _
  rw [Guard.ofCode_code, Opnd.ofCode_code dw, Opnd.ofCode_code aw, Opnd.ofCode_code bw, Opnd.ofCode_code cw]

theorem mov gd ty d a : Statement (.mov gd ty d a) := by
  intro w
  obtain ⟨w, aw⟩ := and_of w
  obtain ⟨-, dw⟩ := and_of w
  have := Ty.code_lt ty
  refine of_wordG (by decide) gd.code_lt (Opnd.code_lt dw) (Opnd.code_lt aw) (by decide) (by decide) (by omega) rfl
      fun i => ?_
  have h0 : (1024 * ty.code) / 1024 % 16 = ty.code := by omega
  change ((Ty.ofCode? ((1024 * ty.code) / 1024 % 16)).bind fun ty' => some (Instr.mov (.ofCode gd.code) ty'
      (.ofCode d.code) (.ofCode a.code))) = _
  rw [h0, Ty.ofCode_code, Option.bind_some, Guard.ofCode_code, Opnd.ofCode_code dw, Opnd.ofCode_code aw]

theorem movi gd d imm : Statement (.movi gd d imm) := by
  intro w
  have dw : d.wf = true := w
  have := imm.isLt
  refine of_wordI (by decide) gd.code_lt (Opnd.code_lt dw) (by decide) this rfl fun b c m => ?_
  change some (Instr.movi (.ofCode gd.code) (.ofCode d.code) (BitVec.ofNat 32 imm.toNat)) = _
  rw [Guard.ofCode_code, Opnd.ofCode_code dw, ofNat_eq imm rfl]

theorem movh gd d imm : Statement (.movh gd d imm) := by
  intro w
  have dw : d.wf = true := w
  have := imm.isLt
  refine of_wordI (by decide) gd.code_lt (Opnd.code_lt dw) (by decide) this rfl fun b c m => ?_
  change some (Instr.movh (.ofCode gd.code) (.ofCode d.code) (BitVec.ofNat 32 imm.toNat)) = _
  rw [Guard.ofCode_code, Opnd.ofCode_code dw, ofNat_eq imm rfl]

theorem sel gd ty d a b c : Statement (.sel gd ty d a b c) := by
  intro w
  obtain ⟨w, cw⟩ := and_of w
  obtain ⟨w, bw⟩ := and_of w
  obtain ⟨w, aw⟩ := and_of w
  obtain ⟨-, dw⟩ := and_of w
  have := Ty.code_lt ty
  refine of_wordG (by decide) gd.code_lt (Opnd.code_lt dw) (Opnd.code_lt aw) (Opnd.code_lt bw) (Opnd.code_lt cw)
      (by omega) rfl fun i => ?_
  have h0 : (1024 * ty.code) / 1024 % 16 = ty.code := by omega
  change ((Ty.ofCode? ((1024 * ty.code) / 1024 % 16)).bind fun ty' => some (Instr.sel (.ofCode gd.code) ty'
      (.ofCode d.code) (.ofCode a.code) (.ofCode b.code) (.ofCode c.code))) = _
  rw [h0, Ty.ofCode_code, Option.bind_some, Guard.ofCode_code, Opnd.ofCode_code dw, Opnd.ofCode_code aw,
      Opnd.ofCode_code bw, Opnd.ofCode_code cw]

theorem icmp gd ty cond pn a b : Statement (.icmp gd ty cond pn a b) := by
  intro w
  obtain ⟨w, bw⟩ := and_of w
  obtain ⟨-, aw⟩ := and_of w
  have := Ty.code_lt ty
  have := Cond.code_lt cond
  have := pn.isLt
  refine of_wordG (by decide) gd.code_lt (by omega) (Opnd.code_lt aw) (Opnd.code_lt bw) (by decide) (by omega) rfl
      fun i => ?_
  have h0 : (1024 * ty.code) / 1024 % 16 = ty.code := by omega
  have h1 : (64 * cond.code + pn.toNat) / 64 = cond.code := by omega
  have h2 : BitVec.ofNat 3 (64 * cond.code + pn.toNat) = pn := ofNat_mod _ (by omega)
  change ((Ty.ofCode? ((1024 * ty.code) / 1024 % 16)).bind fun ty' => (Cond.ofCode? ((64 * cond.code + pn.toNat) /
      64)).bind fun cond' => some (Instr.icmp (.ofCode gd.code) ty' cond' (BitVec.ofNat 3 (64 * cond.code +
      pn.toNat)) (.ofCode a.code) (.ofCode b.code))) = _
  rw [h0, Ty.ofCode_code, Option.bind_some, h1, Cond.ofCode_code, Option.bind_some, h2, Guard.ofCode_code,
      Opnd.ofCode_code aw, Opnd.ofCode_code bw]

theorem icmpI gd cond pn a imm : Statement (.icmpI gd cond pn a imm) := by
  intro w
  obtain ⟨-, aw⟩ := and_of w
  have := Cond.code_lt cond
  have := pn.isLt
  have := imm.isLt
  refine of_wordI (by decide) gd.code_lt (by omega) (Opnd.code_lt aw) this rfl fun b c m => ?_
  have h0 : (64 * cond.code + pn.toNat) / 64 = cond.code := by omega
  have h1 : BitVec.ofNat 3 (64 * cond.code + pn.toNat) = pn := ofNat_mod _ (by omega)
  change ((Cond.ofCode? ((64 * cond.code + pn.toNat) / 64)).bind fun cond' => some (Instr.icmpI (.ofCode gd.code)
      cond' (BitVec.ofNat 3 (64 * cond.code + pn.toNat)) (.ofCode a.code) (BitVec.ofNat 32 imm.toNat))) = _
  rw [h0, Cond.ofCode_code, Option.bind_some, h1, Guard.ofCode_code, Opnd.ofCode_code aw, ofNat_eq imm rfl]

theorem pset gd op d a b : Statement (.pset gd op d a b) := by
  intro w
  obtain ⟨w, bw⟩ := and_of w
  obtain ⟨dw, aw⟩ := and_of w
  have := PredOp.code_lt op
  refine of_wordG (by decide) gd.code_lt (Opnd.code_lt dw) (Opnd.code_lt aw) (Opnd.code_lt bw) (by decide) (by
      omega) rfl fun i => ?_
  have h0 : op.code % 4 = op.code := by omega
  change ((PredOp.ofCode? (op.code % 4)).bind fun op' => some (Instr.pset (.ofCode gd.code) op' (.ofCode d.code)
      (.ofCode a.code) (.ofCode b.code))) = _
  rw [h0, PredOp.ofCode_code, Option.bind_some, Guard.ofCode_code, Opnd.ofCode_code dw, Opnd.ofCode_code aw,
      Opnd.ofCode_code bw]

theorem pmov gd x : Statement (.pmov gd x) := by
  intro w
  obtain ⟨hd, ha, hm⟩ := PmovForm.code_lt (x := x) w
  refine of_wordG (by decide) gd.code_lt hd ha (by decide) (by decide) hm rfl fun i => ?_
  change some (Instr.pmov (.ofCode gd.code) (PmovForm.ofFields _)) = _
  rw [PmovForm.ofFields_code (x := x) w, Guard.ofCode_code]

theorem fadd gd rnd d a b : Statement (.fadd gd rnd d a b) := by
  intro w
  obtain ⟨w, bw⟩ := and_of w
  obtain ⟨dw, aw⟩ := and_of w
  have := Rnd.code_lt rnd
  refine of_wordG (by decide) gd.code_lt (Opnd.code_lt dw) (Opnd.code_lt aw) (Opnd.code_lt bw) (by decide) (by
      omega) rfl fun i => ?_
  have h0 : (8192 + 128 * rnd.code) / 128 % 8 = rnd.code := by omega
  change ((Rnd.ofCode? ((8192 + 128 * rnd.code) / 128 % 8)).bind fun rnd' => some (Instr.fadd (.ofCode gd.code)
      rnd' (.ofCode d.code) (.ofCode a.code) (.ofCode b.code))) = _
  rw [h0, Rnd.ofCode_code, Option.bind_some, Guard.ofCode_code, Opnd.ofCode_code dw, Opnd.ofCode_code aw,
      Opnd.ofCode_code bw]

theorem fsub gd rnd d a b : Statement (.fsub gd rnd d a b) := by
  intro w
  obtain ⟨w, bw⟩ := and_of w
  obtain ⟨dw, aw⟩ := and_of w
  have := Rnd.code_lt rnd
  refine of_wordG (by decide) gd.code_lt (Opnd.code_lt dw) (Opnd.code_lt aw) (Opnd.code_lt bw) (by decide) (by
      omega) rfl fun i => ?_
  have h0 : (8192 + 128 * rnd.code) / 128 % 8 = rnd.code := by omega
  change ((Rnd.ofCode? ((8192 + 128 * rnd.code) / 128 % 8)).bind fun rnd' => some (Instr.fsub (.ofCode gd.code)
      rnd' (.ofCode d.code) (.ofCode a.code) (.ofCode b.code))) = _
  rw [h0, Rnd.ofCode_code, Option.bind_some, Guard.ofCode_code, Opnd.ofCode_code dw, Opnd.ofCode_code aw,
      Opnd.ofCode_code bw]

theorem fmul gd rnd d a b : Statement (.fmul gd rnd d a b) := by
  intro w
  obtain ⟨w, bw⟩ := and_of w
  obtain ⟨dw, aw⟩ := and_of w
  have := Rnd.code_lt rnd
  refine of_wordG (by decide) gd.code_lt (Opnd.code_lt dw) (Opnd.code_lt aw) (Opnd.code_lt bw) (by decide) (by
      omega) rfl fun i => ?_
  have h0 : (8192 + 128 * rnd.code) / 128 % 8 = rnd.code := by omega
  change ((Rnd.ofCode? ((8192 + 128 * rnd.code) / 128 % 8)).bind fun rnd' => some (Instr.fmul (.ofCode gd.code)
      rnd' (.ofCode d.code) (.ofCode a.code) (.ofCode b.code))) = _
  rw [h0, Rnd.ofCode_code, Option.bind_some, Guard.ofCode_code, Opnd.ofCode_code dw, Opnd.ofCode_code aw,
      Opnd.ofCode_code bw]

theorem ffma gd rnd d a b c : Statement (.ffma gd rnd d a b c) := by
  intro w
  obtain ⟨w, cw⟩ := and_of w
  obtain ⟨w, bw⟩ := and_of w
  obtain ⟨dw, aw⟩ := and_of w
  have := Rnd.code_lt rnd
  refine of_wordG (by decide) gd.code_lt (Opnd.code_lt dw) (Opnd.code_lt aw) (Opnd.code_lt bw) (Opnd.code_lt cw)
      (by omega) rfl fun i => ?_
  have h0 : (8192 + 128 * rnd.code) / 128 % 8 = rnd.code := by omega
  change ((Rnd.ofCode? ((8192 + 128 * rnd.code) / 128 % 8)).bind fun rnd' => some (Instr.ffma (.ofCode gd.code)
      rnd' (.ofCode d.code) (.ofCode a.code) (.ofCode b.code) (.ofCode c.code))) = _
  rw [h0, Rnd.ofCode_code, Option.bind_some, Guard.ofCode_code, Opnd.ofCode_code dw, Opnd.ofCode_code aw,
      Opnd.ofCode_code bw, Opnd.ofCode_code cw]

theorem fmin gd d a b : Statement (.fmin gd d a b) := by
  intro w
  obtain ⟨w, bw⟩ := and_of w
  obtain ⟨dw, aw⟩ := and_of w
  refine of_wordG (by decide) gd.code_lt (Opnd.code_lt dw) (Opnd.code_lt aw) (Opnd.code_lt bw) (by decide) (by
      decide) rfl fun i => ?_
  change some (Instr.fmin (.ofCode gd.code) (.ofCode d.code) (.ofCode a.code) (.ofCode b.code)) = _
  rw [Guard.ofCode_code, Opnd.ofCode_code dw, Opnd.ofCode_code aw, Opnd.ofCode_code bw]

theorem fmax gd d a b : Statement (.fmax gd d a b) := by
  intro w
  obtain ⟨w, bw⟩ := and_of w
  obtain ⟨dw, aw⟩ := and_of w
  refine of_wordG (by decide) gd.code_lt (Opnd.code_lt dw) (Opnd.code_lt aw) (Opnd.code_lt bw) (by decide) (by
      decide) rfl fun i => ?_
  change some (Instr.fmax (.ofCode gd.code) (.ofCode d.code) (.ofCode a.code) (.ofCode b.code)) = _
  rw [Guard.ofCode_code, Opnd.ofCode_code dw, Opnd.ofCode_code aw, Opnd.ofCode_code bw]

theorem fcmp gd cond pn a b : Statement (.fcmp gd cond pn a b) := by
  intro w
  obtain ⟨aw, bw⟩ := and_of w
  have := Cond.code_lt cond
  have := pn.isLt
  refine of_wordG (by decide) gd.code_lt (by omega) (Opnd.code_lt aw) (Opnd.code_lt bw) (by decide) (by decide) rfl
      fun i => ?_
  have h0 : (64 * cond.code + pn.toNat) / 64 = cond.code := by omega
  have h1 : BitVec.ofNat 3 (64 * cond.code + pn.toNat) = pn := ofNat_mod _ (by omega)
  change ((Cond.ofCode? ((64 * cond.code + pn.toNat) / 64)).bind fun cond' => some (Instr.fcmp (.ofCode gd.code)
      cond' (BitVec.ofNat 3 (64 * cond.code + pn.toNat)) (.ofCode a.code) (.ofCode b.code))) = _
  rw [h0, Cond.ofCode_code, Option.bind_some, h1, Guard.ofCode_code, Opnd.ofCode_code aw, Opnd.ofCode_code bw]

theorem fclass gd d a : Statement (.fclass gd d a) := by
  intro w
  obtain ⟨dw, aw⟩ := and_of w
  refine of_wordG (by decide) gd.code_lt (Opnd.code_lt dw) (Opnd.code_lt aw) (by decide) (by decide) (by decide)
      rfl fun i => ?_
  change some (Instr.fclass (.ofCode gd.code) (.ofCode d.code) (.ofCode a.code)) = _
  rw [Guard.ofCode_code, Opnd.ofCode_code dw, Opnd.ofCode_code aw]

theorem frnd gd rnd d a : Statement (.frnd gd rnd d a) := by
  intro w
  obtain ⟨dw, aw⟩ := and_of w
  have := Rnd.code_lt rnd
  refine of_wordG (by decide) gd.code_lt (Opnd.code_lt dw) (Opnd.code_lt aw) (by decide) (by decide) (by omega) rfl
      fun i => ?_
  have h0 : (8192 + 128 * rnd.code) / 128 % 8 = rnd.code := by omega
  change ((Rnd.ofCode? ((8192 + 128 * rnd.code) / 128 % 8)).bind fun rnd' => some (Instr.frnd (.ofCode gd.code)
      rnd' (.ofCode d.code) (.ofCode a.code))) = _
  rw [h0, Rnd.ofCode_code, Option.bind_some, Guard.ofCode_code, Opnd.ofCode_code dw, Opnd.ofCode_code aw]

theorem fscale gd rnd d a b : Statement (.fscale gd rnd d a b) := by
  intro w
  obtain ⟨w, bw⟩ := and_of w
  obtain ⟨dw, aw⟩ := and_of w
  have := Rnd.code_lt rnd
  refine of_wordG (by decide) gd.code_lt (Opnd.code_lt dw) (Opnd.code_lt aw) (Opnd.code_lt bw) (by decide) (by
      omega) rfl fun i => ?_
  have h0 : (8192 + 128 * rnd.code) / 128 % 8 = rnd.code := by omega
  change ((Rnd.ofCode? ((8192 + 128 * rnd.code) / 128 % 8)).bind fun rnd' => some (Instr.fscale (.ofCode gd.code)
      rnd' (.ofCode d.code) (.ofCode a.code) (.ofCode b.code))) = _
  rw [h0, Rnd.ofCode_code, Option.bind_some, Guard.ofCode_code, Opnd.ofCode_code dw, Opnd.ofCode_code aw,
      Opnd.ofCode_code bw]

theorem hadd2 gd ty rnd d a b : Statement (.hadd2 gd ty rnd d a b) := by
  intro w
  obtain ⟨w, bw⟩ := and_of w
  obtain ⟨w, aw⟩ := and_of w
  obtain ⟨-, dw⟩ := and_of w
  have := Ty.code_lt ty
  have := Rnd.code_lt rnd
  refine of_wordG (by decide) gd.code_lt (Opnd.code_lt dw) (Opnd.code_lt aw) (Opnd.code_lt bw) (by decide) (by
      omega) rfl fun i => ?_
  have h0 : (1024 * ty.code + 128 * rnd.code) / 1024 % 16 = ty.code := by omega
  have h1 : (1024 * ty.code + 128 * rnd.code) / 128 % 8 = rnd.code := by omega
  change ((Ty.ofCode? ((1024 * ty.code + 128 * rnd.code) / 1024 % 16)).bind fun ty' => (Rnd.ofCode? ((1024 *
      ty.code + 128 * rnd.code) / 128 % 8)).bind fun rnd' => some (Instr.hadd2 (.ofCode gd.code) ty' rnd' (.ofCode
      d.code) (.ofCode a.code) (.ofCode b.code))) = _
  rw [h0, Ty.ofCode_code, Option.bind_some, h1, Rnd.ofCode_code, Option.bind_some, Guard.ofCode_code,
      Opnd.ofCode_code dw, Opnd.ofCode_code aw, Opnd.ofCode_code bw]

theorem hmul2 gd ty rnd d a b : Statement (.hmul2 gd ty rnd d a b) := by
  intro w
  obtain ⟨w, bw⟩ := and_of w
  obtain ⟨w, aw⟩ := and_of w
  obtain ⟨-, dw⟩ := and_of w
  have := Ty.code_lt ty
  have := Rnd.code_lt rnd
  refine of_wordG (by decide) gd.code_lt (Opnd.code_lt dw) (Opnd.code_lt aw) (Opnd.code_lt bw) (by decide) (by
      omega) rfl fun i => ?_
  have h0 : (1024 * ty.code + 128 * rnd.code) / 1024 % 16 = ty.code := by omega
  have h1 : (1024 * ty.code + 128 * rnd.code) / 128 % 8 = rnd.code := by omega
  change ((Ty.ofCode? ((1024 * ty.code + 128 * rnd.code) / 1024 % 16)).bind fun ty' => (Rnd.ofCode? ((1024 *
      ty.code + 128 * rnd.code) / 128 % 8)).bind fun rnd' => some (Instr.hmul2 (.ofCode gd.code) ty' rnd' (.ofCode
      d.code) (.ofCode a.code) (.ofCode b.code))) = _
  rw [h0, Ty.ofCode_code, Option.bind_some, h1, Rnd.ofCode_code, Option.bind_some, Guard.ofCode_code,
      Opnd.ofCode_code dw, Opnd.ofCode_code aw, Opnd.ofCode_code bw]

theorem hfma2 gd ty rnd d a b c : Statement (.hfma2 gd ty rnd d a b c) := by
  intro w
  obtain ⟨w, cw⟩ := and_of w
  obtain ⟨w, bw⟩ := and_of w
  obtain ⟨w, aw⟩ := and_of w
  obtain ⟨-, dw⟩ := and_of w
  have := Ty.code_lt ty
  have := Rnd.code_lt rnd
  refine of_wordG (by decide) gd.code_lt (Opnd.code_lt dw) (Opnd.code_lt aw) (Opnd.code_lt bw) (Opnd.code_lt cw)
      (by omega) rfl fun i => ?_
  have h0 : (1024 * ty.code + 128 * rnd.code) / 1024 % 16 = ty.code := by omega
  have h1 : (1024 * ty.code + 128 * rnd.code) / 128 % 8 = rnd.code := by omega
  change ((Ty.ofCode? ((1024 * ty.code + 128 * rnd.code) / 1024 % 16)).bind fun ty' => (Rnd.ofCode? ((1024 *
      ty.code + 128 * rnd.code) / 128 % 8)).bind fun rnd' => some (Instr.hfma2 (.ofCode gd.code) ty' rnd' (.ofCode
      d.code) (.ofCode a.code) (.ofCode b.code) (.ofCode c.code))) = _
  rw [h0, Ty.ofCode_code, Option.bind_some, h1, Rnd.ofCode_code, Option.bind_some, Guard.ofCode_code,
      Opnd.ofCode_code dw, Opnd.ofCode_code aw, Opnd.ofCode_code bw, Opnd.ofCode_code cw]

theorem fdot2 gd ty rnd d a b c : Statement (.fdot2 gd ty rnd d a b c) := by
  intro w
  obtain ⟨w, cw⟩ := and_of w
  obtain ⟨w, bw⟩ := and_of w
  obtain ⟨w, aw⟩ := and_of w
  obtain ⟨-, dw⟩ := and_of w
  have := Ty.code_lt ty
  have := Rnd.code_lt rnd
  refine of_wordG (by decide) gd.code_lt (Opnd.code_lt dw) (Opnd.code_lt aw) (Opnd.code_lt bw) (Opnd.code_lt cw)
      (by omega) rfl fun i => ?_
  have h0 : (1024 * ty.code + 128 * rnd.code) / 1024 % 16 = ty.code := by omega
  have h1 : (1024 * ty.code + 128 * rnd.code) / 128 % 8 = rnd.code := by omega
  change ((Ty.ofCode? ((1024 * ty.code + 128 * rnd.code) / 1024 % 16)).bind fun ty' => (Rnd.ofCode? ((1024 *
      ty.code + 128 * rnd.code) / 128 % 8)).bind fun rnd' => some (Instr.fdot2 (.ofCode gd.code) ty' rnd' (.ofCode
      d.code) (.ofCode a.code) (.ofCode b.code) (.ofCode c.code))) = _
  rw [h0, Ty.ofCode_code, Option.bind_some, h1, Rnd.ofCode_code, Option.bind_some, Guard.ofCode_code,
      Opnd.ofCode_code dw, Opnd.ofCode_code aw, Opnd.ofCode_code bw, Opnd.ofCode_code cw]

theorem fdot4 gd ty rnd d a b c : Statement (.fdot4 gd ty rnd d a b c) := by
  intro w
  obtain ⟨w, cw⟩ := and_of w
  obtain ⟨w, bw⟩ := and_of w
  obtain ⟨w, aw⟩ := and_of w
  obtain ⟨-, dw⟩ := and_of w
  have := Ty.code_lt ty
  have := Rnd.code_lt rnd
  refine of_wordG (by decide) gd.code_lt (Opnd.code_lt dw) (Opnd.code_lt aw) (Opnd.code_lt bw) (Opnd.code_lt cw)
      (by omega) rfl fun i => ?_
  have h0 : (1024 * ty.code + 128 * rnd.code) / 1024 % 16 = ty.code := by omega
  have h1 : (1024 * ty.code + 128 * rnd.code) / 128 % 8 = rnd.code := by omega
  change ((Ty.ofCode? ((1024 * ty.code + 128 * rnd.code) / 1024 % 16)).bind fun ty' => (Rnd.ofCode? ((1024 *
      ty.code + 128 * rnd.code) / 128 % 8)).bind fun rnd' => some (Instr.fdot4 (.ofCode gd.code) ty' rnd' (.ofCode
      d.code) (.ofCode a.code) (.ofCode b.code) (.ofCode c.code))) = _
  rw [h0, Ty.ofCode_code, Option.bind_some, h1, Rnd.ofCode_code, Option.bind_some, Guard.ofCode_code,
      Opnd.ofCode_code dw, Opnd.ofCode_code aw, Opnd.ofCode_code bw, Opnd.ofCode_code cw]

theorem cvt gd dt sty rnd d a : Statement (.cvt gd dt sty rnd d a) := by
  intro w
  obtain ⟨w, aw⟩ := and_of w
  obtain ⟨-, dw⟩ := and_of w
  have := Ty.code_lt dt
  have := Ty.code_lt sty
  have := Rnd.code_lt rnd
  refine of_wordG (by decide) gd.code_lt (Opnd.code_lt dw) (Opnd.code_lt aw) (by decide) (by decide) (by omega) rfl
      fun i => ?_
  have h0 : (1024 * dt.code + 8 * sty.code + 128 * rnd.code) / 1024 % 16 = dt.code := by omega
  have h1 : (1024 * dt.code + 8 * sty.code + 128 * rnd.code) / 8 % 16 = sty.code := by omega
  have h2 : (1024 * dt.code + 8 * sty.code + 128 * rnd.code) / 128 % 8 = rnd.code := by omega
  change ((Ty.ofCode? ((1024 * dt.code + 8 * sty.code + 128 * rnd.code) / 1024 % 16)).bind fun dt' => (Ty.ofCode?
      ((1024 * dt.code + 8 * sty.code + 128 * rnd.code) / 8 % 16)).bind fun sty' => (Rnd.ofCode? ((1024 * dt.code +
      8 * sty.code + 128 * rnd.code) / 128 % 8)).bind fun rnd' => some (Instr.cvt (.ofCode gd.code) dt' sty' rnd'
      (.ofCode d.code) (.ofCode a.code))) = _
  rw [h0, Ty.ofCode_code, Option.bind_some, h1, Ty.ofCode_code, Option.bind_some, h2, Rnd.ofCode_code,
      Option.bind_some, Guard.ofCode_code, Opnd.ofCode_code dw, Opnd.ofCode_code aw]

theorem cvtx gd dt rnd d a b : Statement (.cvtx gd dt rnd d a b) := by
  intro w
  obtain ⟨w, bw⟩ := and_of w
  obtain ⟨w, aw⟩ := and_of w
  obtain ⟨-, dw⟩ := and_of w
  have := Ty.code_lt dt
  have := Rnd.code_lt rnd
  refine of_wordG (by decide) gd.code_lt (Opnd.code_lt dw) (Opnd.code_lt aw) (Opnd.code_lt bw) (by decide) (by
      omega) rfl fun i => ?_
  have h0 : (1024 * dt.code + 128 * rnd.code) / 1024 % 16 = dt.code := by omega
  have h1 : (1024 * dt.code + 128 * rnd.code) / 128 % 8 = rnd.code := by omega
  change ((Ty.ofCode? ((1024 * dt.code + 128 * rnd.code) / 1024 % 16)).bind fun dt' => (Rnd.ofCode? ((1024 *
      dt.code + 128 * rnd.code) / 128 % 8)).bind fun rnd' => some (Instr.cvtx (.ofCode gd.code) dt' rnd' (.ofCode
      d.code) (.ofCode a.code) (.ofCode b.code))) = _
  rw [h0, Ty.ofCode_code, Option.bind_some, h1, Rnd.ofCode_code, Option.bind_some, Guard.ofCode_code,
      Opnd.ofCode_code dw, Opnd.ofCode_code aw, Opnd.ofCode_code bw]

theorem pack gd ty d a b : Statement (.pack gd ty d a b) := by
  intro w
  obtain ⟨w, bw⟩ := and_of w
  obtain ⟨w, aw⟩ := and_of w
  obtain ⟨-, dw⟩ := and_of w
  have := Ty.code_lt ty
  refine of_wordG (by decide) gd.code_lt (Opnd.code_lt dw) (Opnd.code_lt aw) (Opnd.code_lt bw) (by decide) (by
      omega) rfl fun i => ?_
  have h0 : (1024 * ty.code) / 1024 % 16 = ty.code := by omega
  change ((Ty.ofCode? ((1024 * ty.code) / 1024 % 16)).bind fun ty' => some (Instr.pack (.ofCode gd.code) ty'
      (.ofCode d.code) (.ofCode a.code) (.ofCode b.code))) = _
  rw [h0, Ty.ofCode_code, Option.bind_some, Guard.ofCode_code, Opnd.ofCode_code dw, Opnd.ofCode_code aw,
      Opnd.ofCode_code bw]

theorem unpack gd ty d a b : Statement (.unpack gd ty d a b) := by
  intro w
  obtain ⟨w, bw⟩ := and_of w
  obtain ⟨w, aw⟩ := and_of w
  obtain ⟨-, dw⟩ := and_of w
  have := Ty.code_lt ty
  refine of_wordG (by decide) gd.code_lt (Opnd.code_lt dw) (Opnd.code_lt aw) (Opnd.code_lt bw) (by decide) (by
      omega) rfl fun i => ?_
  have h0 : (1024 * ty.code) / 1024 % 16 = ty.code := by omega
  change ((Ty.ofCode? ((1024 * ty.code) / 1024 % 16)).bind fun ty' => some (Instr.unpack (.ofCode gd.code) ty'
      (.ofCode d.code) (.ofCode a.code) (.ofCode b.code))) = _
  rw [h0, Ty.ofCode_code, Option.bind_some, Guard.ofCode_code, Opnd.ofCode_code dw, Opnd.ofCode_code aw,
      Opnd.ofCode_code bw]

theorem cbdec gd d a b : Statement (.cbdec gd d a b) := by
  intro w
  obtain ⟨w, bw⟩ := and_of w
  obtain ⟨dw, aw⟩ := and_of w
  refine of_wordG (by decide) gd.code_lt (Opnd.code_lt dw) (Opnd.code_lt aw) (Opnd.code_lt bw) (by decide) (by
      decide) rfl fun i => ?_
  change some (Instr.cbdec (.ofCode gd.code) (.ofCode d.code) (.ofCode a.code) (.ofCode b.code)) = _
  rw [Guard.ofCode_code, Opnd.ofCode_code dw, Opnd.ofCode_code aw, Opnd.ofCode_code bw]

theorem exp2 gd d a : Statement (.exp2 gd d a) := by
  intro w
  obtain ⟨dw, aw⟩ := and_of w
  refine of_wordG (by decide) gd.code_lt (Opnd.code_lt dw) (Opnd.code_lt aw) (by decide) (by decide) (by decide)
      rfl fun i => ?_
  change some (Instr.exp2 (.ofCode gd.code) (.ofCode d.code) (.ofCode a.code)) = _
  rw [Guard.ofCode_code, Opnd.ofCode_code dw, Opnd.ofCode_code aw]

theorem log2 gd d a : Statement (.log2 gd d a) := by
  intro w
  obtain ⟨dw, aw⟩ := and_of w
  refine of_wordG (by decide) gd.code_lt (Opnd.code_lt dw) (Opnd.code_lt aw) (by decide) (by decide) (by decide)
      rfl fun i => ?_
  change some (Instr.log2 (.ofCode gd.code) (.ofCode d.code) (.ofCode a.code)) = _
  rw [Guard.ofCode_code, Opnd.ofCode_code dw, Opnd.ofCode_code aw]

theorem rcp gd d a : Statement (.rcp gd d a) := by
  intro w
  obtain ⟨dw, aw⟩ := and_of w
  refine of_wordG (by decide) gd.code_lt (Opnd.code_lt dw) (Opnd.code_lt aw) (by decide) (by decide) (by decide)
      rfl fun i => ?_
  change some (Instr.rcp (.ofCode gd.code) (.ofCode d.code) (.ofCode a.code)) = _
  rw [Guard.ofCode_code, Opnd.ofCode_code dw, Opnd.ofCode_code aw]

theorem rsq gd d a : Statement (.rsq gd d a) := by
  intro w
  obtain ⟨dw, aw⟩ := and_of w
  refine of_wordG (by decide) gd.code_lt (Opnd.code_lt dw) (Opnd.code_lt aw) (by decide) (by decide) (by decide)
      rfl fun i => ?_
  change some (Instr.rsq (.ofCode gd.code) (.ofCode d.code) (.ofCode a.code)) = _
  rw [Guard.ofCode_code, Opnd.ofCode_code dw, Opnd.ofCode_code aw]

theorem sqrt gd d a : Statement (.sqrt gd d a) := by
  intro w
  obtain ⟨dw, aw⟩ := and_of w
  refine of_wordG (by decide) gd.code_lt (Opnd.code_lt dw) (Opnd.code_lt aw) (by decide) (by decide) (by decide)
      rfl fun i => ?_
  change some (Instr.sqrt (.ofCode gd.code) (.ofCode d.code) (.ofCode a.code)) = _
  rw [Guard.ofCode_code, Opnd.ofCode_code dw, Opnd.ofCode_code aw]

theorem sin gd d a : Statement (.sin gd d a) := by
  intro w
  obtain ⟨dw, aw⟩ := and_of w
  refine of_wordG (by decide) gd.code_lt (Opnd.code_lt dw) (Opnd.code_lt aw) (by decide) (by decide) (by decide)
      rfl fun i => ?_
  change some (Instr.sin (.ofCode gd.code) (.ofCode d.code) (.ofCode a.code)) = _
  rw [Guard.ofCode_code, Opnd.ofCode_code dw, Opnd.ofCode_code aw]

theorem cos gd d a : Statement (.cos gd d a) := by
  intro w
  obtain ⟨dw, aw⟩ := and_of w
  refine of_wordG (by decide) gd.code_lt (Opnd.code_lt dw) (Opnd.code_lt aw) (by decide) (by decide) (by decide)
      rfl fun i => ?_
  change some (Instr.cos (.ofCode gd.code) (.ofCode d.code) (.ofCode a.code)) = _
  rw [Guard.ofCode_code, Opnd.ofCode_code dw, Opnd.ofCode_code aw]

theorem tanh gd d a : Statement (.tanh gd d a) := by
  intro w
  obtain ⟨dw, aw⟩ := and_of w
  refine of_wordG (by decide) gd.code_lt (Opnd.code_lt dw) (Opnd.code_lt aw) (by decide) (by decide) (by decide)
      rfl fun i => ?_
  change some (Instr.tanh (.ofCode gd.code) (.ofCode d.code) (.ofCode a.code)) = _
  rw [Guard.ofCode_code, Opnd.ofCode_code dw, Opnd.ofCode_code aw]

theorem shfl gd mode d a b : Statement (.shfl gd mode d a b) := by
  intro w
  obtain ⟨w, bw⟩ := and_of w
  obtain ⟨dw, aw⟩ := and_of w
  have := ShflMode.code_lt mode
  refine of_wordG (by decide) gd.code_lt (Opnd.code_lt dw) (Opnd.code_lt aw) (Opnd.code_lt bw) (by decide) (by
      omega) rfl fun i => ?_
  have h0 : mode.code % 4 = mode.code := by omega
  change ((ShflMode.ofCode? (mode.code % 4)).bind fun mode' => some (Instr.shfl (.ofCode gd.code) mode' (.ofCode
      d.code) (.ofCode a.code) (.ofCode b.code))) = _
  rw [h0, ShflMode.ofCode_code, Option.bind_some, Guard.ofCode_code, Opnd.ofCode_code dw, Opnd.ofCode_code aw,
      Opnd.ofCode_code bw]

theorem vote gd mode d a : Statement (.vote gd mode d a) := by
  intro w
  obtain ⟨dw, aw⟩ := and_of w
  have := VoteMode.code_lt mode
  refine of_wordG (by decide) gd.code_lt (Opnd.code_lt dw) (Opnd.code_lt aw) (by decide) (by decide) (by omega) rfl
      fun i => ?_
  have h0 : mode.code % 4 = mode.code := by omega
  change ((VoteMode.ofCode? (mode.code % 4)).bind fun mode' => some (Instr.vote (.ofCode gd.code) mode' (.ofCode
      d.code) (.ofCode a.code))) = _
  rw [h0, VoteMode.ofCode_code, Option.bind_some, Guard.ofCode_code, Opnd.ofCode_code dw, Opnd.ofCode_code aw]

theorem redx gd ty op d a : Statement (.redx gd ty op d a) := by
  intro w
  obtain ⟨w, aw⟩ := and_of w
  obtain ⟨-, dw⟩ := and_of w
  have := Ty.code_lt ty
  have := RedOp.code_lt op
  refine of_wordG (by decide) gd.code_lt (Opnd.code_lt dw) (Opnd.code_lt aw) (by decide) (by decide) (by omega) rfl
      fun i => ?_
  have h0 : (1024 * ty.code + op.code) / 1024 % 16 = ty.code := by omega
  have h1 : (1024 * ty.code + op.code) % 16 = op.code := by omega
  change ((Ty.ofCode? ((1024 * ty.code + op.code) / 1024 % 16)).bind fun ty' => (RedOp.ofCode? ((1024 * ty.code +
      op.code) % 16)).bind fun op' => some (Instr.redx (.ofCode gd.code) ty' op' (.ofCode d.code) (.ofCode
      a.code))) = _
  rw [h0, Ty.ofCode_code, Option.bind_some, h1, RedOp.ofCode_code, Option.bind_some, Guard.ofCode_code,
      Opnd.ofCode_code dw, Opnd.ofCode_code aw]

theorem scanx gd ty op exc d a : Statement (.scanx gd ty op exc d a) := by
  intro w
  obtain ⟨w, aw⟩ := and_of w
  obtain ⟨-, dw⟩ := and_of w
  have := Ty.code_lt ty
  have := RedOp.code_lt op
  have := exc.toNat_le
  refine of_wordG (by decide) gd.code_lt (Opnd.code_lt dw) (Opnd.code_lt aw) (by decide) (by decide) (by omega) rfl
      fun i => ?_
  have h0 : (1024 * ty.code + op.code + 16 * exc.toNat) / 1024 % 16 = ty.code := by omega
  have h1 : (1024 * ty.code + op.code + 16 * exc.toNat) % 16 = op.code := by omega
  have h2 : ((1024 * ty.code + op.code + 16 * exc.toNat) / 16 % 2 == 1) = exc := bool_eq (by omega)
  change ((Ty.ofCode? ((1024 * ty.code + op.code + 16 * exc.toNat) / 1024 % 16)).bind fun ty' => (RedOp.ofCode?
      ((1024 * ty.code + op.code + 16 * exc.toNat) % 16)).bind fun op' => some (Instr.scanx (.ofCode gd.code) ty'
      op' ((1024 * ty.code + op.code + 16 * exc.toNat) / 16 % 2 == 1) (.ofCode d.code) (.ofCode a.code))) = _
  rw [h0, Ty.ofCode_code, Option.bind_some, h1, RedOp.ofCode_code, Option.bind_some, h2, Guard.ofCode_code,
      Opnd.ofCode_code dw, Opnd.ofCode_code aw]

theorem bcst gd ty d a b : Statement (.bcst gd ty d a b) := by
  intro w
  obtain ⟨w, bw⟩ := and_of w
  obtain ⟨w, aw⟩ := and_of w
  obtain ⟨-, dw⟩ := and_of w
  have := Ty.code_lt ty
  refine of_wordG (by decide) gd.code_lt (Opnd.code_lt dw) (Opnd.code_lt aw) (Opnd.code_lt bw) (by decide) (by
      omega) rfl fun i => ?_
  have h0 : (1024 * ty.code) / 1024 % 16 = ty.code := by omega
  change ((Ty.ofCode? ((1024 * ty.code) / 1024 % 16)).bind fun ty' => some (Instr.bcst (.ofCode gd.code) ty'
      (.ofCode d.code) (.ofCode a.code) (.ofCode b.code))) = _
  rw [h0, Ty.ofCode_code, Option.bind_some, Guard.ofCode_code, Opnd.ofCode_code dw, Opnd.ofCode_code aw,
      Opnd.ofCode_code bw]

theorem bra gd ofs : Statement (.bra gd ofs) := by
  intro w
  have := ofs.isLt
  refine of_wordI (by decide) gd.code_lt (by decide) (by decide) this rfl fun b c m => ?_
  change some (Instr.bra (.ofCode gd.code) (BitVec.ofNat 32 ofs.toNat)) = _
  rw [Guard.ofCode_code, ofNat_eq ofs rfl]

theorem brx gd a ofs : Statement (.brx gd a ofs) := by
  intro w
  obtain ⟨-, aw⟩ := and_of w
  have := ofs.isLt
  refine of_wordI (by decide) gd.code_lt (by decide) (Opnd.code_lt aw) this rfl fun b c m => ?_
  change some (Instr.brx (.ofCode gd.code) (.ofCode a.code) (BitVec.ofNat 32 ofs.toNat)) = _
  rw [Guard.ofCode_code, Opnd.ofCode_code aw, ofNat_eq ofs rfl]

theorem call gd ofs : Statement (.call gd ofs) := by
  intro w
  have := ofs.isLt
  refine of_wordI (by decide) gd.code_lt (by decide) (by decide) this rfl fun b c m => ?_
  change some (Instr.call (.ofCode gd.code) (BitVec.ofNat 32 ofs.toNat)) = _
  rw [Guard.ofCode_code, ofNat_eq ofs rfl]

theorem callx gd a ofs : Statement (.callx gd a ofs) := by
  intro w
  obtain ⟨-, aw⟩ := and_of w
  have := ofs.isLt
  refine of_wordI (by decide) gd.code_lt (by decide) (Opnd.code_lt aw) this rfl fun b c m => ?_
  change some (Instr.callx (.ofCode gd.code) (.ofCode a.code) (BitVec.ofNat 32 ofs.toNat)) = _
  rw [Guard.ofCode_code, Opnd.ofCode_code aw, ofNat_eq ofs rfl]

theorem ret gd : Statement (.ret gd) := by
  intro w
  refine of_wordG (by decide) gd.code_lt (by decide) (by decide) (by decide) (by decide) (by decide) rfl fun i => ?_
  change some (Instr.ret (.ofCode gd.code)) = _
  rw [Guard.ofCode_code]

theorem exit gd : Statement (.exit gd) := by
  intro w
  refine of_wordG (by decide) gd.code_lt (by decide) (by decide) (by decide) (by decide) (by decide) rfl fun i => ?_
  change some (Instr.exit (.ofCode gd.code)) = _
  rw [Guard.ofCode_code]

theorem yield gd x : Statement (.yield gd x) := by
  intro w
  obtain ⟨ha, hb, hm⟩ := YieldForm.code_lt (x := x) w
  refine of_wordG (by decide) gd.code_lt (by decide) ha hb (by decide) hm rfl fun i => ?_
  change ((YieldForm.ofFields? _).bind fun x => some (Instr.yield (.ofCode gd.code) x)) = _
  rw [YieldForm.ofFields_code (x := x) w, Guard.ofCode_code, Option.bind_some]

theorem trap gd imm : Statement (.trap gd imm) := by
  intro w
  have := imm.isLt
  refine of_wordI (by decide) gd.code_lt (by decide) (by decide) this rfl fun b c m => ?_
  change some (Instr.trap (.ofCode gd.code) (BitVec.ofNat 32 imm.toNat)) = _
  rw [Guard.ofCode_code, ofNat_eq imm rfl]

theorem tret gd : Statement (.tret gd) := by
  intro w
  refine of_wordG (by decide) gd.code_lt (by decide) (by decide) (by decide) (by decide) (by decide) rfl fun i => ?_
  change some (Instr.tret (.ofCode gd.code)) = _
  rw [Guard.ofCode_code]

theorem brk gd imm : Statement (.brk gd imm) := by
  intro w
  have := imm.isLt
  refine of_wordI (by decide) gd.code_lt (by decide) (by decide) this rfl fun b c m => ?_
  change some (Instr.brk (.ofCode gd.code) (BitVec.ofNat 32 imm.toNat)) = _
  rw [Guard.ofCode_code, ofNat_eq imm rfl]

theorem nop gd : Statement (.nop gd) := by
  intro w
  refine of_wordG (by decide) gd.code_lt (by decide) (by decide) (by decide) (by decide) (by decide) rfl fun i => ?_
  change some (Instr.nop (.ofCode gd.code)) = _
  rw [Guard.ofCode_code]

theorem ld gd ty tok d a b : Statement (.ld gd ty tok d a b) := by
  intro w
  obtain ⟨w, bw⟩ := and_of w
  obtain ⟨w, aw⟩ := and_of w
  obtain ⟨-, dw⟩ := and_of w
  have := Ty.code_lt ty
  have := tok.isLt
  refine of_wordG (by decide) gd.code_lt (Opnd.code_lt dw) (Opnd.code_lt aw) (Opnd.code_lt bw) (by decide) (by
      omega) rfl fun i => ?_
  have h0 : (1024 * ty.code + 4 * tok.toNat) / 1024 % 16 = ty.code := by omega
  have h1 : (1024 * ty.code + 4 * tok.toNat) / 4 % 8 = tok.toNat := by omega
  change ((Ty.ofCode? ((1024 * ty.code + 4 * tok.toNat) / 1024 % 16)).bind fun ty' => some (Instr.ld (.ofCode
      gd.code) ty' (BitVec.ofNat 3 ((1024 * ty.code + 4 * tok.toNat) / 4 % 8)) (.ofCode d.code) (.ofCode a.code)
      (.ofCode b.code))) = _
  rw [h0, Ty.ofCode_code, Option.bind_some, h1, Guard.ofCode_code, Opnd.ofCode_code dw, Opnd.ofCode_code aw,
      Opnd.ofCode_code bw, ofNat_eq tok rfl]

theorem st gd ty d a b : Statement (.st gd ty d a b) := by
  intro w
  obtain ⟨w, bw⟩ := and_of w
  obtain ⟨w, aw⟩ := and_of w
  obtain ⟨-, dw⟩ := and_of w
  have := Ty.code_lt ty
  refine of_wordG (by decide) gd.code_lt (Opnd.code_lt dw) (Opnd.code_lt aw) (Opnd.code_lt bw) (by decide) (by
      omega) rfl fun i => ?_
  have h0 : (1024 * ty.code) / 1024 % 16 = ty.code := by omega
  change ((Ty.ofCode? ((1024 * ty.code) / 1024 % 16)).bind fun ty' => some (Instr.st (.ofCode gd.code) ty' (.ofCode
      d.code) (.ofCode a.code) (.ofCode b.code))) = _
  rw [h0, Ty.ofCode_code, Option.bind_some, Guard.ofCode_code, Opnd.ofCode_code dw, Opnd.ofCode_code aw,
      Opnd.ofCode_code bw]

theorem ldl gd ty tok d a b : Statement (.ldl gd ty tok d a b) := by
  intro w
  obtain ⟨w, bw⟩ := and_of w
  obtain ⟨w, aw⟩ := and_of w
  obtain ⟨-, dw⟩ := and_of w
  have := Ty.code_lt ty
  have := tok.isLt
  refine of_wordG (by decide) gd.code_lt (Opnd.code_lt dw) (Opnd.code_lt aw) (Opnd.code_lt bw) (by decide) (by
      omega) rfl fun i => ?_
  have h0 : (1024 * ty.code + 4 * tok.toNat) / 1024 % 16 = ty.code := by omega
  have h1 : (1024 * ty.code + 4 * tok.toNat) / 4 % 8 = tok.toNat := by omega
  change ((Ty.ofCode? ((1024 * ty.code + 4 * tok.toNat) / 1024 % 16)).bind fun ty' => some (Instr.ldl (.ofCode
      gd.code) ty' (BitVec.ofNat 3 ((1024 * ty.code + 4 * tok.toNat) / 4 % 8)) (.ofCode d.code) (.ofCode a.code)
      (.ofCode b.code))) = _
  rw [h0, Ty.ofCode_code, Option.bind_some, h1, Guard.ofCode_code, Opnd.ofCode_code dw, Opnd.ofCode_code aw,
      Opnd.ofCode_code bw, ofNat_eq tok rfl]

theorem stl gd ty d a b : Statement (.stl gd ty d a b) := by
  intro w
  obtain ⟨w, bw⟩ := and_of w
  obtain ⟨w, aw⟩ := and_of w
  obtain ⟨-, dw⟩ := and_of w
  have := Ty.code_lt ty
  refine of_wordG (by decide) gd.code_lt (Opnd.code_lt dw) (Opnd.code_lt aw) (Opnd.code_lt bw) (by decide) (by
      omega) rfl fun i => ?_
  have h0 : (1024 * ty.code) / 1024 % 16 = ty.code := by omega
  change ((Ty.ofCode? ((1024 * ty.code) / 1024 % 16)).bind fun ty' => some (Instr.stl (.ofCode gd.code) ty'
      (.ofCode d.code) (.ofCode a.code) (.ofCode b.code))) = _
  rw [h0, Ty.ofCode_code, Option.bind_some, Guard.ofCode_code, Opnd.ofCode_code dw, Opnd.ofCode_code aw,
      Opnd.ofCode_code bw]

theorem ldp gd ty tok d a b : Statement (.ldp gd ty tok d a b) := by
  intro w
  obtain ⟨w, bw⟩ := and_of w
  obtain ⟨w, aw⟩ := and_of w
  obtain ⟨-, dw⟩ := and_of w
  have := Ty.code_lt ty
  have := tok.isLt
  refine of_wordG (by decide) gd.code_lt (Opnd.code_lt dw) (Opnd.code_lt aw) (Opnd.code_lt bw) (by decide) (by
      omega) rfl fun i => ?_
  have h0 : (1024 * ty.code + 4 * tok.toNat) / 1024 % 16 = ty.code := by omega
  have h1 : (1024 * ty.code + 4 * tok.toNat) / 4 % 8 = tok.toNat := by omega
  change ((Ty.ofCode? ((1024 * ty.code + 4 * tok.toNat) / 1024 % 16)).bind fun ty' => some (Instr.ldp (.ofCode
      gd.code) ty' (BitVec.ofNat 3 ((1024 * ty.code + 4 * tok.toNat) / 4 % 8)) (.ofCode d.code) (.ofCode a.code)
      (.ofCode b.code))) = _
  rw [h0, Ty.ofCode_code, Option.bind_some, h1, Guard.ofCode_code, Opnd.ofCode_code dw, Opnd.ofCode_code aw,
      Opnd.ofCode_code bw, ofNat_eq tok rfl]

theorem lda gd ty sc ord tok sp d a b : Statement (.lda gd ty sc ord tok sp d a b) := by
  intro w
  obtain ⟨w, bw⟩ := and_of w
  obtain ⟨w, aw⟩ := and_of w
  obtain ⟨-, dw⟩ := and_of w
  have := Ty.code_lt ty
  have := Scope.code_lt sc
  have := Order.code_lt ord
  have := tok.isLt
  have := Space.code_lt sp
  refine of_wordG (by decide) gd.code_lt (Opnd.code_lt dw) (Opnd.code_lt aw) (Opnd.code_lt bw) (by decide) (by
      omega) rfl fun i => ?_
  have h0 : (1024 * ty.code + 128 * sc.code + 32 * ord.code + 4 * tok.toNat + 2 * sp.code) / 1024 % 16 = ty.code :=
      by omega
  have h1 : (1024 * ty.code + 128 * sc.code + 32 * ord.code + 4 * tok.toNat + 2 * sp.code) / 128 % 8 = sc.code :=
      by omega
  have h2 : (1024 * ty.code + 128 * sc.code + 32 * ord.code + 4 * tok.toNat + 2 * sp.code) / 32 % 4 = ord.code :=
      by omega
  have h3 : (1024 * ty.code + 128 * sc.code + 32 * ord.code + 4 * tok.toNat + 2 * sp.code) / 2 % 2 = sp.code := by
      omega
  have h4 : (1024 * ty.code + 128 * sc.code + 32 * ord.code + 4 * tok.toNat + 2 * sp.code) / 4 % 8 = tok.toNat :=
      by omega
  change ((Ty.ofCode? ((1024 * ty.code + 128 * sc.code + 32 * ord.code + 4 * tok.toNat + 2 * sp.code) / 1024 %
      16)).bind fun ty' => (Scope.ofCode? ((1024 * ty.code + 128 * sc.code + 32 * ord.code + 4 * tok.toNat + 2 *
      sp.code) / 128 % 8)).bind fun sc' => (Order.ofCode? ((1024 * ty.code + 128 * sc.code + 32 * ord.code + 4 *
      tok.toNat + 2 * sp.code) / 32 % 4)).bind fun ord' => (Space.ofCode? ((1024 * ty.code + 128 * sc.code + 32 *
      ord.code + 4 * tok.toNat + 2 * sp.code) / 2 % 2)).bind fun sp' => some (Instr.lda (.ofCode gd.code) ty' sc'
      ord' (BitVec.ofNat 3 ((1024 * ty.code + 128 * sc.code + 32 * ord.code + 4 * tok.toNat + 2 * sp.code) / 4 %
      8)) sp' (.ofCode d.code) (.ofCode a.code) (.ofCode b.code))) = _
  rw [h0, Ty.ofCode_code, Option.bind_some, h1, Scope.ofCode_code, Option.bind_some, h2, Order.ofCode_code,
      Option.bind_some, h3, Space.ofCode_code, Option.bind_some, h4, Guard.ofCode_code, Opnd.ofCode_code dw,
      Opnd.ofCode_code aw, Opnd.ofCode_code bw, ofNat_eq tok rfl]

theorem sta gd ty sc ord sp d a b : Statement (.sta gd ty sc ord sp d a b) := by
  intro w
  obtain ⟨w, bw⟩ := and_of w
  obtain ⟨w, aw⟩ := and_of w
  obtain ⟨-, dw⟩ := and_of w
  have := Ty.code_lt ty
  have := Scope.code_lt sc
  have := Order.code_lt ord
  have := Space.code_lt sp
  refine of_wordG (by decide) gd.code_lt (Opnd.code_lt dw) (Opnd.code_lt aw) (Opnd.code_lt bw) (by decide) (by
      omega) rfl fun i => ?_
  have h0 : (1024 * ty.code + 128 * sc.code + 32 * ord.code + 2 * sp.code) / 1024 % 16 = ty.code := by omega
  have h1 : (1024 * ty.code + 128 * sc.code + 32 * ord.code + 2 * sp.code) / 128 % 8 = sc.code := by omega
  have h2 : (1024 * ty.code + 128 * sc.code + 32 * ord.code + 2 * sp.code) / 32 % 4 = ord.code := by omega
  have h3 : (1024 * ty.code + 128 * sc.code + 32 * ord.code + 2 * sp.code) / 2 % 2 = sp.code := by omega
  change ((Ty.ofCode? ((1024 * ty.code + 128 * sc.code + 32 * ord.code + 2 * sp.code) / 1024 % 16)).bind fun ty' =>
      (Scope.ofCode? ((1024 * ty.code + 128 * sc.code + 32 * ord.code + 2 * sp.code) / 128 % 8)).bind fun sc' =>
      (Order.ofCode? ((1024 * ty.code + 128 * sc.code + 32 * ord.code + 2 * sp.code) / 32 % 4)).bind fun ord' =>
      (Space.ofCode? ((1024 * ty.code + 128 * sc.code + 32 * ord.code + 2 * sp.code) / 2 % 2)).bind fun sp' => some
      (Instr.sta (.ofCode gd.code) ty' sc' ord' sp' (.ofCode d.code) (.ofCode a.code) (.ofCode b.code))) = _
  rw [h0, Ty.ofCode_code, Option.bind_some, h1, Scope.ofCode_code, Option.bind_some, h2, Order.ofCode_code,
      Option.bind_some, h3, Space.ofCode_code, Option.bind_some, Guard.ofCode_code, Opnd.ofCode_code dw,
      Opnd.ofCode_code aw, Opnd.ofCode_code bw]

theorem pref gd a b : Statement (.pref gd a b) := by
  intro w
  obtain ⟨aw, bw⟩ := and_of w
  refine of_wordG (by decide) gd.code_lt (by decide) (Opnd.code_lt aw) (Opnd.code_lt bw) (by decide) (by decide)
      rfl fun i => ?_
  change some (Instr.pref (.ofCode gd.code) (.ofCode a.code) (.ofCode b.code)) = _
  rw [Guard.ofCode_code, Opnd.ofCode_code aw, Opnd.ofCode_code bw]

theorem atomAdd gd ty sc ord tok sp d a b : Statement (.atomAdd gd ty sc ord tok sp d a b) := by
  intro w
  obtain ⟨w, bw⟩ := and_of w
  obtain ⟨w, aw⟩ := and_of w
  obtain ⟨-, dw⟩ := and_of w
  have := Ty.code_lt ty
  have := Scope.code_lt sc
  have := Order.code_lt ord
  have := tok.isLt
  have := Space.code_lt sp
  refine of_wordG (by decide) gd.code_lt (Opnd.code_lt dw) (Opnd.code_lt aw) (Opnd.code_lt bw) (by decide) (by
      omega) rfl fun i => ?_
  have h0 : (1024 * ty.code + 128 * sc.code + 32 * ord.code + 4 * tok.toNat + 2 * sp.code) / 1024 % 16 = ty.code :=
      by omega
  have h1 : (1024 * ty.code + 128 * sc.code + 32 * ord.code + 4 * tok.toNat + 2 * sp.code) / 128 % 8 = sc.code :=
      by omega
  have h2 : (1024 * ty.code + 128 * sc.code + 32 * ord.code + 4 * tok.toNat + 2 * sp.code) / 32 % 4 = ord.code :=
      by omega
  have h3 : (1024 * ty.code + 128 * sc.code + 32 * ord.code + 4 * tok.toNat + 2 * sp.code) / 2 % 2 = sp.code := by
      omega
  have h4 : (1024 * ty.code + 128 * sc.code + 32 * ord.code + 4 * tok.toNat + 2 * sp.code) / 4 % 8 = tok.toNat :=
      by omega
  change ((Ty.ofCode? ((1024 * ty.code + 128 * sc.code + 32 * ord.code + 4 * tok.toNat + 2 * sp.code) / 1024 %
      16)).bind fun ty' => (Scope.ofCode? ((1024 * ty.code + 128 * sc.code + 32 * ord.code + 4 * tok.toNat + 2 *
      sp.code) / 128 % 8)).bind fun sc' => (Order.ofCode? ((1024 * ty.code + 128 * sc.code + 32 * ord.code + 4 *
      tok.toNat + 2 * sp.code) / 32 % 4)).bind fun ord' => (Space.ofCode? ((1024 * ty.code + 128 * sc.code + 32 *
      ord.code + 4 * tok.toNat + 2 * sp.code) / 2 % 2)).bind fun sp' => some (Instr.atomAdd (.ofCode gd.code) ty'
      sc' ord' (BitVec.ofNat 3 ((1024 * ty.code + 128 * sc.code + 32 * ord.code + 4 * tok.toNat + 2 * sp.code) / 4
      % 8)) sp' (.ofCode d.code) (.ofCode a.code) (.ofCode b.code))) = _
  rw [h0, Ty.ofCode_code, Option.bind_some, h1, Scope.ofCode_code, Option.bind_some, h2, Order.ofCode_code,
      Option.bind_some, h3, Space.ofCode_code, Option.bind_some, h4, Guard.ofCode_code, Opnd.ofCode_code dw,
      Opnd.ofCode_code aw, Opnd.ofCode_code bw, ofNat_eq tok rfl]

theorem atomMin gd ty sc ord tok sp d a b : Statement (.atomMin gd ty sc ord tok sp d a b) := by
  intro w
  obtain ⟨w, bw⟩ := and_of w
  obtain ⟨w, aw⟩ := and_of w
  obtain ⟨-, dw⟩ := and_of w
  have := Ty.code_lt ty
  have := Scope.code_lt sc
  have := Order.code_lt ord
  have := tok.isLt
  have := Space.code_lt sp
  refine of_wordG (by decide) gd.code_lt (Opnd.code_lt dw) (Opnd.code_lt aw) (Opnd.code_lt bw) (by decide) (by
      omega) rfl fun i => ?_
  have h0 : (1024 * ty.code + 128 * sc.code + 32 * ord.code + 4 * tok.toNat + 2 * sp.code) / 1024 % 16 = ty.code :=
      by omega
  have h1 : (1024 * ty.code + 128 * sc.code + 32 * ord.code + 4 * tok.toNat + 2 * sp.code) / 128 % 8 = sc.code :=
      by omega
  have h2 : (1024 * ty.code + 128 * sc.code + 32 * ord.code + 4 * tok.toNat + 2 * sp.code) / 32 % 4 = ord.code :=
      by omega
  have h3 : (1024 * ty.code + 128 * sc.code + 32 * ord.code + 4 * tok.toNat + 2 * sp.code) / 2 % 2 = sp.code := by
      omega
  have h4 : (1024 * ty.code + 128 * sc.code + 32 * ord.code + 4 * tok.toNat + 2 * sp.code) / 4 % 8 = tok.toNat :=
      by omega
  change ((Ty.ofCode? ((1024 * ty.code + 128 * sc.code + 32 * ord.code + 4 * tok.toNat + 2 * sp.code) / 1024 %
      16)).bind fun ty' => (Scope.ofCode? ((1024 * ty.code + 128 * sc.code + 32 * ord.code + 4 * tok.toNat + 2 *
      sp.code) / 128 % 8)).bind fun sc' => (Order.ofCode? ((1024 * ty.code + 128 * sc.code + 32 * ord.code + 4 *
      tok.toNat + 2 * sp.code) / 32 % 4)).bind fun ord' => (Space.ofCode? ((1024 * ty.code + 128 * sc.code + 32 *
      ord.code + 4 * tok.toNat + 2 * sp.code) / 2 % 2)).bind fun sp' => some (Instr.atomMin (.ofCode gd.code) ty'
      sc' ord' (BitVec.ofNat 3 ((1024 * ty.code + 128 * sc.code + 32 * ord.code + 4 * tok.toNat + 2 * sp.code) / 4
      % 8)) sp' (.ofCode d.code) (.ofCode a.code) (.ofCode b.code))) = _
  rw [h0, Ty.ofCode_code, Option.bind_some, h1, Scope.ofCode_code, Option.bind_some, h2, Order.ofCode_code,
      Option.bind_some, h3, Space.ofCode_code, Option.bind_some, h4, Guard.ofCode_code, Opnd.ofCode_code dw,
      Opnd.ofCode_code aw, Opnd.ofCode_code bw, ofNat_eq tok rfl]

theorem atomMax gd ty sc ord tok sp d a b : Statement (.atomMax gd ty sc ord tok sp d a b) := by
  intro w
  obtain ⟨w, bw⟩ := and_of w
  obtain ⟨w, aw⟩ := and_of w
  obtain ⟨-, dw⟩ := and_of w
  have := Ty.code_lt ty
  have := Scope.code_lt sc
  have := Order.code_lt ord
  have := tok.isLt
  have := Space.code_lt sp
  refine of_wordG (by decide) gd.code_lt (Opnd.code_lt dw) (Opnd.code_lt aw) (Opnd.code_lt bw) (by decide) (by
      omega) rfl fun i => ?_
  have h0 : (1024 * ty.code + 128 * sc.code + 32 * ord.code + 4 * tok.toNat + 2 * sp.code) / 1024 % 16 = ty.code :=
      by omega
  have h1 : (1024 * ty.code + 128 * sc.code + 32 * ord.code + 4 * tok.toNat + 2 * sp.code) / 128 % 8 = sc.code :=
      by omega
  have h2 : (1024 * ty.code + 128 * sc.code + 32 * ord.code + 4 * tok.toNat + 2 * sp.code) / 32 % 4 = ord.code :=
      by omega
  have h3 : (1024 * ty.code + 128 * sc.code + 32 * ord.code + 4 * tok.toNat + 2 * sp.code) / 2 % 2 = sp.code := by
      omega
  have h4 : (1024 * ty.code + 128 * sc.code + 32 * ord.code + 4 * tok.toNat + 2 * sp.code) / 4 % 8 = tok.toNat :=
      by omega
  change ((Ty.ofCode? ((1024 * ty.code + 128 * sc.code + 32 * ord.code + 4 * tok.toNat + 2 * sp.code) / 1024 %
      16)).bind fun ty' => (Scope.ofCode? ((1024 * ty.code + 128 * sc.code + 32 * ord.code + 4 * tok.toNat + 2 *
      sp.code) / 128 % 8)).bind fun sc' => (Order.ofCode? ((1024 * ty.code + 128 * sc.code + 32 * ord.code + 4 *
      tok.toNat + 2 * sp.code) / 32 % 4)).bind fun ord' => (Space.ofCode? ((1024 * ty.code + 128 * sc.code + 32 *
      ord.code + 4 * tok.toNat + 2 * sp.code) / 2 % 2)).bind fun sp' => some (Instr.atomMax (.ofCode gd.code) ty'
      sc' ord' (BitVec.ofNat 3 ((1024 * ty.code + 128 * sc.code + 32 * ord.code + 4 * tok.toNat + 2 * sp.code) / 4
      % 8)) sp' (.ofCode d.code) (.ofCode a.code) (.ofCode b.code))) = _
  rw [h0, Ty.ofCode_code, Option.bind_some, h1, Scope.ofCode_code, Option.bind_some, h2, Order.ofCode_code,
      Option.bind_some, h3, Space.ofCode_code, Option.bind_some, h4, Guard.ofCode_code, Opnd.ofCode_code dw,
      Opnd.ofCode_code aw, Opnd.ofCode_code bw, ofNat_eq tok rfl]

theorem atomAnd gd ty sc ord tok sp d a b : Statement (.atomAnd gd ty sc ord tok sp d a b) := by
  intro w
  obtain ⟨w, bw⟩ := and_of w
  obtain ⟨w, aw⟩ := and_of w
  obtain ⟨-, dw⟩ := and_of w
  have := Ty.code_lt ty
  have := Scope.code_lt sc
  have := Order.code_lt ord
  have := tok.isLt
  have := Space.code_lt sp
  refine of_wordG (by decide) gd.code_lt (Opnd.code_lt dw) (Opnd.code_lt aw) (Opnd.code_lt bw) (by decide) (by
      omega) rfl fun i => ?_
  have h0 : (1024 * ty.code + 128 * sc.code + 32 * ord.code + 4 * tok.toNat + 2 * sp.code) / 1024 % 16 = ty.code :=
      by omega
  have h1 : (1024 * ty.code + 128 * sc.code + 32 * ord.code + 4 * tok.toNat + 2 * sp.code) / 128 % 8 = sc.code :=
      by omega
  have h2 : (1024 * ty.code + 128 * sc.code + 32 * ord.code + 4 * tok.toNat + 2 * sp.code) / 32 % 4 = ord.code :=
      by omega
  have h3 : (1024 * ty.code + 128 * sc.code + 32 * ord.code + 4 * tok.toNat + 2 * sp.code) / 2 % 2 = sp.code := by
      omega
  have h4 : (1024 * ty.code + 128 * sc.code + 32 * ord.code + 4 * tok.toNat + 2 * sp.code) / 4 % 8 = tok.toNat :=
      by omega
  change ((Ty.ofCode? ((1024 * ty.code + 128 * sc.code + 32 * ord.code + 4 * tok.toNat + 2 * sp.code) / 1024 %
      16)).bind fun ty' => (Scope.ofCode? ((1024 * ty.code + 128 * sc.code + 32 * ord.code + 4 * tok.toNat + 2 *
      sp.code) / 128 % 8)).bind fun sc' => (Order.ofCode? ((1024 * ty.code + 128 * sc.code + 32 * ord.code + 4 *
      tok.toNat + 2 * sp.code) / 32 % 4)).bind fun ord' => (Space.ofCode? ((1024 * ty.code + 128 * sc.code + 32 *
      ord.code + 4 * tok.toNat + 2 * sp.code) / 2 % 2)).bind fun sp' => some (Instr.atomAnd (.ofCode gd.code) ty'
      sc' ord' (BitVec.ofNat 3 ((1024 * ty.code + 128 * sc.code + 32 * ord.code + 4 * tok.toNat + 2 * sp.code) / 4
      % 8)) sp' (.ofCode d.code) (.ofCode a.code) (.ofCode b.code))) = _
  rw [h0, Ty.ofCode_code, Option.bind_some, h1, Scope.ofCode_code, Option.bind_some, h2, Order.ofCode_code,
      Option.bind_some, h3, Space.ofCode_code, Option.bind_some, h4, Guard.ofCode_code, Opnd.ofCode_code dw,
      Opnd.ofCode_code aw, Opnd.ofCode_code bw, ofNat_eq tok rfl]

theorem atomOr gd ty sc ord tok sp d a b : Statement (.atomOr gd ty sc ord tok sp d a b) := by
  intro w
  obtain ⟨w, bw⟩ := and_of w
  obtain ⟨w, aw⟩ := and_of w
  obtain ⟨-, dw⟩ := and_of w
  have := Ty.code_lt ty
  have := Scope.code_lt sc
  have := Order.code_lt ord
  have := tok.isLt
  have := Space.code_lt sp
  refine of_wordG (by decide) gd.code_lt (Opnd.code_lt dw) (Opnd.code_lt aw) (Opnd.code_lt bw) (by decide) (by
      omega) rfl fun i => ?_
  have h0 : (1024 * ty.code + 128 * sc.code + 32 * ord.code + 4 * tok.toNat + 2 * sp.code) / 1024 % 16 = ty.code :=
      by omega
  have h1 : (1024 * ty.code + 128 * sc.code + 32 * ord.code + 4 * tok.toNat + 2 * sp.code) / 128 % 8 = sc.code :=
      by omega
  have h2 : (1024 * ty.code + 128 * sc.code + 32 * ord.code + 4 * tok.toNat + 2 * sp.code) / 32 % 4 = ord.code :=
      by omega
  have h3 : (1024 * ty.code + 128 * sc.code + 32 * ord.code + 4 * tok.toNat + 2 * sp.code) / 2 % 2 = sp.code := by
      omega
  have h4 : (1024 * ty.code + 128 * sc.code + 32 * ord.code + 4 * tok.toNat + 2 * sp.code) / 4 % 8 = tok.toNat :=
      by omega
  change ((Ty.ofCode? ((1024 * ty.code + 128 * sc.code + 32 * ord.code + 4 * tok.toNat + 2 * sp.code) / 1024 %
      16)).bind fun ty' => (Scope.ofCode? ((1024 * ty.code + 128 * sc.code + 32 * ord.code + 4 * tok.toNat + 2 *
      sp.code) / 128 % 8)).bind fun sc' => (Order.ofCode? ((1024 * ty.code + 128 * sc.code + 32 * ord.code + 4 *
      tok.toNat + 2 * sp.code) / 32 % 4)).bind fun ord' => (Space.ofCode? ((1024 * ty.code + 128 * sc.code + 32 *
      ord.code + 4 * tok.toNat + 2 * sp.code) / 2 % 2)).bind fun sp' => some (Instr.atomOr (.ofCode gd.code) ty'
      sc' ord' (BitVec.ofNat 3 ((1024 * ty.code + 128 * sc.code + 32 * ord.code + 4 * tok.toNat + 2 * sp.code) / 4
      % 8)) sp' (.ofCode d.code) (.ofCode a.code) (.ofCode b.code))) = _
  rw [h0, Ty.ofCode_code, Option.bind_some, h1, Scope.ofCode_code, Option.bind_some, h2, Order.ofCode_code,
      Option.bind_some, h3, Space.ofCode_code, Option.bind_some, h4, Guard.ofCode_code, Opnd.ofCode_code dw,
      Opnd.ofCode_code aw, Opnd.ofCode_code bw, ofNat_eq tok rfl]

theorem atomXor gd ty sc ord tok sp d a b : Statement (.atomXor gd ty sc ord tok sp d a b) := by
  intro w
  obtain ⟨w, bw⟩ := and_of w
  obtain ⟨w, aw⟩ := and_of w
  obtain ⟨-, dw⟩ := and_of w
  have := Ty.code_lt ty
  have := Scope.code_lt sc
  have := Order.code_lt ord
  have := tok.isLt
  have := Space.code_lt sp
  refine of_wordG (by decide) gd.code_lt (Opnd.code_lt dw) (Opnd.code_lt aw) (Opnd.code_lt bw) (by decide) (by
      omega) rfl fun i => ?_
  have h0 : (1024 * ty.code + 128 * sc.code + 32 * ord.code + 4 * tok.toNat + 2 * sp.code) / 1024 % 16 = ty.code :=
      by omega
  have h1 : (1024 * ty.code + 128 * sc.code + 32 * ord.code + 4 * tok.toNat + 2 * sp.code) / 128 % 8 = sc.code :=
      by omega
  have h2 : (1024 * ty.code + 128 * sc.code + 32 * ord.code + 4 * tok.toNat + 2 * sp.code) / 32 % 4 = ord.code :=
      by omega
  have h3 : (1024 * ty.code + 128 * sc.code + 32 * ord.code + 4 * tok.toNat + 2 * sp.code) / 2 % 2 = sp.code := by
      omega
  have h4 : (1024 * ty.code + 128 * sc.code + 32 * ord.code + 4 * tok.toNat + 2 * sp.code) / 4 % 8 = tok.toNat :=
      by omega
  change ((Ty.ofCode? ((1024 * ty.code + 128 * sc.code + 32 * ord.code + 4 * tok.toNat + 2 * sp.code) / 1024 %
      16)).bind fun ty' => (Scope.ofCode? ((1024 * ty.code + 128 * sc.code + 32 * ord.code + 4 * tok.toNat + 2 *
      sp.code) / 128 % 8)).bind fun sc' => (Order.ofCode? ((1024 * ty.code + 128 * sc.code + 32 * ord.code + 4 *
      tok.toNat + 2 * sp.code) / 32 % 4)).bind fun ord' => (Space.ofCode? ((1024 * ty.code + 128 * sc.code + 32 *
      ord.code + 4 * tok.toNat + 2 * sp.code) / 2 % 2)).bind fun sp' => some (Instr.atomXor (.ofCode gd.code) ty'
      sc' ord' (BitVec.ofNat 3 ((1024 * ty.code + 128 * sc.code + 32 * ord.code + 4 * tok.toNat + 2 * sp.code) / 4
      % 8)) sp' (.ofCode d.code) (.ofCode a.code) (.ofCode b.code))) = _
  rw [h0, Ty.ofCode_code, Option.bind_some, h1, Scope.ofCode_code, Option.bind_some, h2, Order.ofCode_code,
      Option.bind_some, h3, Space.ofCode_code, Option.bind_some, h4, Guard.ofCode_code, Opnd.ofCode_code dw,
      Opnd.ofCode_code aw, Opnd.ofCode_code bw, ofNat_eq tok rfl]

theorem atomExch gd ty sc ord tok sp d a b : Statement (.atomExch gd ty sc ord tok sp d a b) := by
  intro w
  obtain ⟨w, bw⟩ := and_of w
  obtain ⟨w, aw⟩ := and_of w
  obtain ⟨-, dw⟩ := and_of w
  have := Ty.code_lt ty
  have := Scope.code_lt sc
  have := Order.code_lt ord
  have := tok.isLt
  have := Space.code_lt sp
  refine of_wordG (by decide) gd.code_lt (Opnd.code_lt dw) (Opnd.code_lt aw) (Opnd.code_lt bw) (by decide) (by
      omega) rfl fun i => ?_
  have h0 : (1024 * ty.code + 128 * sc.code + 32 * ord.code + 4 * tok.toNat + 2 * sp.code) / 1024 % 16 = ty.code :=
      by omega
  have h1 : (1024 * ty.code + 128 * sc.code + 32 * ord.code + 4 * tok.toNat + 2 * sp.code) / 128 % 8 = sc.code :=
      by omega
  have h2 : (1024 * ty.code + 128 * sc.code + 32 * ord.code + 4 * tok.toNat + 2 * sp.code) / 32 % 4 = ord.code :=
      by omega
  have h3 : (1024 * ty.code + 128 * sc.code + 32 * ord.code + 4 * tok.toNat + 2 * sp.code) / 2 % 2 = sp.code := by
      omega
  have h4 : (1024 * ty.code + 128 * sc.code + 32 * ord.code + 4 * tok.toNat + 2 * sp.code) / 4 % 8 = tok.toNat :=
      by omega
  change ((Ty.ofCode? ((1024 * ty.code + 128 * sc.code + 32 * ord.code + 4 * tok.toNat + 2 * sp.code) / 1024 %
      16)).bind fun ty' => (Scope.ofCode? ((1024 * ty.code + 128 * sc.code + 32 * ord.code + 4 * tok.toNat + 2 *
      sp.code) / 128 % 8)).bind fun sc' => (Order.ofCode? ((1024 * ty.code + 128 * sc.code + 32 * ord.code + 4 *
      tok.toNat + 2 * sp.code) / 32 % 4)).bind fun ord' => (Space.ofCode? ((1024 * ty.code + 128 * sc.code + 32 *
      ord.code + 4 * tok.toNat + 2 * sp.code) / 2 % 2)).bind fun sp' => some (Instr.atomExch (.ofCode gd.code) ty'
      sc' ord' (BitVec.ofNat 3 ((1024 * ty.code + 128 * sc.code + 32 * ord.code + 4 * tok.toNat + 2 * sp.code) / 4
      % 8)) sp' (.ofCode d.code) (.ofCode a.code) (.ofCode b.code))) = _
  rw [h0, Ty.ofCode_code, Option.bind_some, h1, Scope.ofCode_code, Option.bind_some, h2, Order.ofCode_code,
      Option.bind_some, h3, Space.ofCode_code, Option.bind_some, h4, Guard.ofCode_code, Opnd.ofCode_code dw,
      Opnd.ofCode_code aw, Opnd.ofCode_code bw, ofNat_eq tok rfl]

theorem atomFadd gd sc ord tok sp d a b : Statement (.atomFadd gd sc ord tok sp d a b) := by
  intro w
  obtain ⟨w, bw⟩ := and_of w
  obtain ⟨dw, aw⟩ := and_of w
  have := Scope.code_lt sc
  have := Order.code_lt ord
  have := tok.isLt
  have := Space.code_lt sp
  refine of_wordG (by decide) gd.code_lt (Opnd.code_lt dw) (Opnd.code_lt aw) (Opnd.code_lt bw) (by decide) (by
      omega) rfl fun i => ?_
  have h0 : (8192 + 128 * sc.code + 32 * ord.code + 4 * tok.toNat + 2 * sp.code) / 128 % 8 = sc.code := by omega
  have h1 : (8192 + 128 * sc.code + 32 * ord.code + 4 * tok.toNat + 2 * sp.code) / 32 % 4 = ord.code := by omega
  have h2 : (8192 + 128 * sc.code + 32 * ord.code + 4 * tok.toNat + 2 * sp.code) / 2 % 2 = sp.code := by omega
  have h3 : (8192 + 128 * sc.code + 32 * ord.code + 4 * tok.toNat + 2 * sp.code) / 4 % 8 = tok.toNat := by omega
  change ((Scope.ofCode? ((8192 + 128 * sc.code + 32 * ord.code + 4 * tok.toNat + 2 * sp.code) / 128 % 8)).bind fun
      sc' => (Order.ofCode? ((8192 + 128 * sc.code + 32 * ord.code + 4 * tok.toNat + 2 * sp.code) / 32 % 4)).bind
      fun ord' => (Space.ofCode? ((8192 + 128 * sc.code + 32 * ord.code + 4 * tok.toNat + 2 * sp.code) / 2 %
      2)).bind fun sp' => some (Instr.atomFadd (.ofCode gd.code) sc' ord' (BitVec.ofNat 3 ((8192 + 128 * sc.code +
      32 * ord.code + 4 * tok.toNat + 2 * sp.code) / 4 % 8)) sp' (.ofCode d.code) (.ofCode a.code) (.ofCode
      b.code))) = _
  rw [h0, Scope.ofCode_code, Option.bind_some, h1, Order.ofCode_code, Option.bind_some, h2, Space.ofCode_code,
      Option.bind_some, h3, Guard.ofCode_code, Opnd.ofCode_code dw, Opnd.ofCode_code aw, Opnd.ofCode_code bw,
      ofNat_eq tok rfl]

theorem cas gd ty sc ord tok sp d a b c : Statement (.cas gd ty sc ord tok sp d a b c) := by
  intro w
  obtain ⟨w, cw⟩ := and_of w
  obtain ⟨w, bw⟩ := and_of w
  obtain ⟨w, aw⟩ := and_of w
  obtain ⟨-, dw⟩ := and_of w
  have := Ty.code_lt ty
  have := Scope.code_lt sc
  have := Order.code_lt ord
  have := tok.isLt
  have := Space.code_lt sp
  refine of_wordG (by decide) gd.code_lt (Opnd.code_lt dw) (Opnd.code_lt aw) (Opnd.code_lt bw) (Opnd.code_lt cw)
      (by omega) rfl fun i => ?_
  have h0 : (1024 * ty.code + 128 * sc.code + 32 * ord.code + 4 * tok.toNat + 2 * sp.code) / 1024 % 16 = ty.code :=
      by omega
  have h1 : (1024 * ty.code + 128 * sc.code + 32 * ord.code + 4 * tok.toNat + 2 * sp.code) / 128 % 8 = sc.code :=
      by omega
  have h2 : (1024 * ty.code + 128 * sc.code + 32 * ord.code + 4 * tok.toNat + 2 * sp.code) / 32 % 4 = ord.code :=
      by omega
  have h3 : (1024 * ty.code + 128 * sc.code + 32 * ord.code + 4 * tok.toNat + 2 * sp.code) / 2 % 2 = sp.code := by
      omega
  have h4 : (1024 * ty.code + 128 * sc.code + 32 * ord.code + 4 * tok.toNat + 2 * sp.code) / 4 % 8 = tok.toNat :=
      by omega
  change ((Ty.ofCode? ((1024 * ty.code + 128 * sc.code + 32 * ord.code + 4 * tok.toNat + 2 * sp.code) / 1024 %
      16)).bind fun ty' => (Scope.ofCode? ((1024 * ty.code + 128 * sc.code + 32 * ord.code + 4 * tok.toNat + 2 *
      sp.code) / 128 % 8)).bind fun sc' => (Order.ofCode? ((1024 * ty.code + 128 * sc.code + 32 * ord.code + 4 *
      tok.toNat + 2 * sp.code) / 32 % 4)).bind fun ord' => (Space.ofCode? ((1024 * ty.code + 128 * sc.code + 32 *
      ord.code + 4 * tok.toNat + 2 * sp.code) / 2 % 2)).bind fun sp' => some (Instr.cas (.ofCode gd.code) ty' sc'
      ord' (BitVec.ofNat 3 ((1024 * ty.code + 128 * sc.code + 32 * ord.code + 4 * tok.toNat + 2 * sp.code) / 4 %
      8)) sp' (.ofCode d.code) (.ofCode a.code) (.ofCode b.code) (.ofCode c.code))) = _
  rw [h0, Ty.ofCode_code, Option.bind_some, h1, Scope.ofCode_code, Option.bind_some, h2, Order.ofCode_code,
      Option.bind_some, h3, Space.ofCode_code, Option.bind_some, h4, Guard.ofCode_code, Opnd.ofCode_code dw,
      Opnd.ofCode_code aw, Opnd.ofCode_code bw, Opnd.ofCode_code cw, ofNat_eq tok rfl]

theorem casw gd sc ord tok sp d a b c : Statement (.casw gd sc ord tok sp d a b c) := by
  intro w
  obtain ⟨w, cw⟩ := and_of w
  obtain ⟨w, bw⟩ := and_of w
  obtain ⟨dw, aw⟩ := and_of w
  have := Scope.code_lt sc
  have := Order.code_lt ord
  have := tok.isLt
  have := Space.code_lt sp
  refine of_wordG (by decide) gd.code_lt (Opnd.code_lt dw) (Opnd.code_lt aw) (Opnd.code_lt bw) (Opnd.code_lt cw)
      (by omega) rfl fun i => ?_
  have h0 : (128 * sc.code + 32 * ord.code + 4 * tok.toNat + 2 * sp.code) / 128 % 8 = sc.code := by omega
  have h1 : (128 * sc.code + 32 * ord.code + 4 * tok.toNat + 2 * sp.code) / 32 % 4 = ord.code := by omega
  have h2 : (128 * sc.code + 32 * ord.code + 4 * tok.toNat + 2 * sp.code) / 2 % 2 = sp.code := by omega
  have h3 : (128 * sc.code + 32 * ord.code + 4 * tok.toNat + 2 * sp.code) / 4 % 8 = tok.toNat := by omega
  change ((Scope.ofCode? ((128 * sc.code + 32 * ord.code + 4 * tok.toNat + 2 * sp.code) / 128 % 8)).bind fun sc' =>
      (Order.ofCode? ((128 * sc.code + 32 * ord.code + 4 * tok.toNat + 2 * sp.code) / 32 % 4)).bind fun ord' =>
      (Space.ofCode? ((128 * sc.code + 32 * ord.code + 4 * tok.toNat + 2 * sp.code) / 2 % 2)).bind fun sp' => some
      (Instr.casw (.ofCode gd.code) sc' ord' (BitVec.ofNat 3 ((128 * sc.code + 32 * ord.code + 4 * tok.toNat + 2 *
      sp.code) / 4 % 8)) sp' (.ofCode d.code) (.ofCode a.code) (.ofCode b.code) (.ofCode c.code))) = _
  rw [h0, Scope.ofCode_code, Option.bind_some, h1, Order.ofCode_code, Option.bind_some, h2, Space.ofCode_code,
      Option.bind_some, h3, Guard.ofCode_code, Opnd.ofCode_code dw, Opnd.ofCode_code aw, Opnd.ofCode_code bw,
      Opnd.ofCode_code cw, ofNat_eq tok rfl]

theorem fence gd sc ord : Statement (.fence gd sc ord) := by
  intro w
  have := Scope.code_lt sc
  have := Order.code_lt ord
  refine of_wordG (by decide) gd.code_lt (by decide) (by decide) (by decide) (by decide) (by omega) rfl fun i => ?_
  have h0 : (128 * sc.code + 32 * ord.code) / 128 % 8 = sc.code := by omega
  have h1 : (128 * sc.code + 32 * ord.code) / 32 % 4 = ord.code := by omega
  change ((Scope.ofCode? ((128 * sc.code + 32 * ord.code) / 128 % 8)).bind fun sc' => (Order.ofCode? ((128 *
      sc.code + 32 * ord.code) / 32 % 4)).bind fun ord' => some (Instr.fence (.ofCode gd.code) sc' ord')) = _
  rw [h0, Scope.ofCode_code, Option.bind_some, h1, Order.ofCode_code, Option.bind_some, Guard.ofCode_code]

theorem twait gd mask : Statement (.twait gd mask) := by
  intro w
  have := mask.isLt
  refine of_wordG (by decide) gd.code_lt (by decide) (by decide) (by decide) (by decide) (by omega) rfl fun i => ?_
  have h0 : mask.toNat % 256 = mask.toNat := by omega
  change some (Instr.twait (.ofCode gd.code) (BitVec.ofNat 8 (mask.toNat % 256))) = _
  rw [h0, Guard.ofCode_code, ofNat_eq mask rfl]

theorem tcnt gd tok d : Statement (.tcnt gd tok d) := by
  intro w
  have dw : d.wf = true := w
  have := tok.isLt
  refine of_wordG (by decide) gd.code_lt (Opnd.code_lt dw) (by decide) (by decide) (by decide) (by omega) rfl fun i
      => ?_
  have h0 : tok.toNat % 8 = tok.toNat := by omega
  change some (Instr.tcnt (.ofCode gd.code) (BitVec.ofNat 3 (tok.toNat % 8)) (.ofCode d.code)) = _
  rw [h0, Guard.ofCode_code, Opnd.ofCode_code dw, ofNat_eq tok rfl]

theorem binit gd a : Statement (.binit gd a) := by
  intro w
  have aw : a.wf = true := w
  refine of_wordG (by decide) gd.code_lt (by decide) (Opnd.code_lt aw) (by decide) (by decide) (by decide) rfl fun
      i => ?_
  change some (Instr.binit (.ofCode gd.code) (.ofCode a.code)) = _
  rw [Guard.ofCode_code, Opnd.ofCode_code aw]

theorem bexp gd a b c : Statement (.bexp gd a b c) := by
  intro w
  obtain ⟨w, cw⟩ := and_of w
  obtain ⟨aw, bw⟩ := and_of w
  refine of_wordG (by decide) gd.code_lt (by decide) (Opnd.code_lt aw) (Opnd.code_lt bw) (Opnd.code_lt cw) (by
      decide) rfl fun i => ?_
  change some (Instr.bexp (.ofCode gd.code) (.ofCode a.code) (.ofCode b.code) (.ofCode c.code)) = _
  rw [Guard.ofCode_code, Opnd.ofCode_code aw, Opnd.ofCode_code bw, Opnd.ofCode_code cw]

theorem barv gd a : Statement (.barv gd a) := by
  intro w
  have aw : a.wf = true := w
  refine of_wordG (by decide) gd.code_lt (by decide) (Opnd.code_lt aw) (by decide) (by decide) (by decide) rfl fun
      i => ?_
  change some (Instr.barv (.ofCode gd.code) (.ofCode a.code)) = _
  rw [Guard.ofCode_code, Opnd.ofCode_code aw]

theorem btest gd d a : Statement (.btest gd d a) := by
  intro w
  obtain ⟨dw, aw⟩ := and_of w
  refine of_wordG (by decide) gd.code_lt (Opnd.code_lt dw) (Opnd.code_lt aw) (by decide) (by decide) (by decide)
      rfl fun i => ?_
  change some (Instr.btest (.ofCode gd.code) (.ofCode d.code) (.ofCode a.code)) = _
  rw [Guard.ofCode_code, Opnd.ofCode_code dw, Opnd.ofCode_code aw]

theorem bfree gd a : Statement (.bfree gd a) := by
  intro w
  have aw : a.wf = true := w
  refine of_wordG (by decide) gd.code_lt (by decide) (Opnd.code_lt aw) (by decide) (by decide) (by decide) rfl fun
      i => ?_
  change some (Instr.bfree (.ofCode gd.code) (.ofCode a.code)) = _
  rw [Guard.ofCode_code, Opnd.ofCode_code aw]

theorem ainit gd a b : Statement (.ainit gd a b) := by
  intro w
  obtain ⟨aw, bw⟩ := and_of w
  refine of_wordG (by decide) gd.code_lt (by decide) (Opnd.code_lt aw) (Opnd.code_lt bw) (by decide) (by decide)
      rfl fun i => ?_
  change some (Instr.ainit (.ofCode gd.code) (.ofCode a.code) (.ofCode b.code)) = _
  rw [Guard.ofCode_code, Opnd.ofCode_code aw, Opnd.ofCode_code bw]

theorem apost gd op d a b : Statement (.apost gd op d a b) := by
  intro w
  obtain ⟨w, bw⟩ := and_of w
  obtain ⟨dw, aw⟩ := and_of w
  have := PostOp.code_lt op
  refine of_wordG (by decide) gd.code_lt (Opnd.code_lt dw) (Opnd.code_lt aw) (Opnd.code_lt bw) (by decide) (by
      omega) rfl fun i => ?_
  have h0 : op.code % 8 = op.code := by omega
  change ((PostOp.ofCode? (op.code % 8)).bind fun op' => some (Instr.apost (.ofCode gd.code) op' (.ofCode d.code)
      (.ofCode a.code) (.ofCode b.code))) = _
  rw [h0, PostOp.ofCode_code, Option.bind_some, Guard.ofCode_code, Opnd.ofCode_code dw, Opnd.ofCode_code aw,
      Opnd.ofCode_code bw]

theorem astep gd d a : Statement (.astep gd d a) := by
  intro w
  obtain ⟨dw, aw⟩ := and_of w
  refine of_wordG (by decide) gd.code_lt (Opnd.code_lt dw) (Opnd.code_lt aw) (by decide) (by decide) (by decide)
      rfl fun i => ?_
  change some (Instr.astep (.ofCode gd.code) (.ofCode d.code) (.ofCode a.code)) = _
  rw [Guard.ofCode_code, Opnd.ofCode_code dw, Opnd.ofCode_code aw]

theorem ares gd d : Statement (.ares gd d) := by
  intro w
  have dw : d.wf = true := w
  refine of_wordG (by decide) gd.code_lt (Opnd.code_lt dw) (by decide) (by decide) (by decide) (by decide) rfl fun
      i => ?_
  change some (Instr.ares (.ofCode gd.code) (.ofCode d.code)) = _
  rw [Guard.ofCode_code, Opnd.ofCode_code dw]

theorem movs gd d sr : Statement (.movs gd d sr) := by
  intro w
  have dw : d.wf = true := w
  have := SReg.code_lt sr
  refine of_wordG (by decide) gd.code_lt (Opnd.code_lt dw) (by omega) (by decide) (by decide) (by decide) rfl fun i
      => ?_
  change ((SReg.ofCode? sr.code).bind fun sr' => some (Instr.movs (.ofCode gd.code) (.ofCode d.code) sr')) = _
  rw [SReg.ofCode_code, Option.bind_some, Guard.ofCode_code, Opnd.ofCode_code dw]

theorem movsw gd sr a : Statement (.movsw gd sr a) := by
  intro w
  obtain ⟨-, aw⟩ := and_of w
  have := SReg.code_lt sr
  refine of_wordG (by decide) gd.code_lt (by omega) (Opnd.code_lt aw) (by decide) (by decide) (by decide) rfl fun i
      => ?_
  change ((SReg.ofCode? sr.code).bind fun sr' => some (Instr.movsw (.ofCode gd.code) sr' (.ofCode a.code))) = _
  rw [SReg.ofCode_code, Option.bind_some, Guard.ofCode_code, Opnd.ofCode_code aw]

theorem pkset gd a b : Statement (.pkset gd a b) := by
  intro w
  obtain ⟨aw, bw⟩ := and_of w
  refine of_wordG (by decide) gd.code_lt (by decide) (Opnd.code_lt aw) (Opnd.code_lt bw) (by decide) (by decide)
      rfl fun i => ?_
  change some (Instr.pkset (.ofCode gd.code) (.ofCode a.code) (.ofCode b.code)) = _
  rw [Guard.ofCode_code, Opnd.ofCode_code aw, Opnd.ofCode_code bw]

theorem cancel gd lvl hard a : Statement (.cancel gd lvl hard a) := by
  intro w
  have aw : a.wf = true := w
  have := Level.code_lt lvl
  have := hard.toNat_le
  refine of_wordG (by decide) gd.code_lt (by decide) (Opnd.code_lt aw) (by decide) (by decide) (by omega) rfl fun i
      => ?_
  have h0 : (lvl.code + 4 * hard.toNat) % 4 = lvl.code := by omega
  have h1 : ((lvl.code + 4 * hard.toNat) / 4 % 2 == 1) = hard := bool_eq (by omega)
  change ((Level.ofCode? ((lvl.code + 4 * hard.toNat) % 4)).bind fun lvl' => some (Instr.cancel (.ofCode gd.code)
      lvl' ((lvl.code + 4 * hard.toNat) / 4 % 2 == 1) (.ofCode a.code))) = _
  rw [h0, Level.ofCode_code, Option.bind_some, h1, Guard.ofCode_code, Opnd.ofCode_code aw]

theorem enql gd a b : Statement (.enql gd a b) := by
  intro w
  obtain ⟨aw, bw⟩ := and_of w
  refine of_wordG (by decide) gd.code_lt (by decide) (Opnd.code_lt aw) (Opnd.code_lt bw) (by decide) (by decide)
      rfl fun i => ?_
  change some (Instr.enql (.ofCode gd.code) (.ofCode a.code) (.ofCode b.code)) = _
  rw [Guard.ofCode_code, Opnd.ofCode_code aw, Opnd.ofCode_code bw]

theorem evsig gd a b : Statement (.evsig gd a b) := by
  intro w
  obtain ⟨aw, bw⟩ := and_of w
  refine of_wordG (by decide) gd.code_lt (by decide) (Opnd.code_lt aw) (Opnd.code_lt bw) (by decide) (by decide)
      rfl fun i => ?_
  change some (Instr.evsig (.ofCode gd.code) (.ofCode a.code) (.ofCode b.code)) = _
  rw [Guard.ofCode_code, Opnd.ofCode_code aw, Opnd.ofCode_code bw]

theorem ctrd gd d a : Statement (.ctrd gd d a) := by
  intro w
  obtain ⟨dw, aw⟩ := and_of w
  refine of_wordG (by decide) gd.code_lt (Opnd.code_lt dw) (Opnd.code_lt aw) (by decide) (by decide) (by decide)
      rfl fun i => ?_
  change some (Instr.ctrd (.ofCode gd.code) (.ofCode d.code) (.ofCode a.code)) = _
  rw [Guard.ofCode_code, Opnd.ofCode_code dw, Opnd.ofCode_code aw]

theorem mma gd ns ks tok a : Statement (.mma gd ns ks tok a) := by
  intro w
  have aw := w
  have := tok.isLt
  have h : 1024 * tok.toNat / 1024 % 8 = tok.toNat := by omega
  have e : Instr.mma (.ofCode gd.code) ns ks (BitVec.ofNat 3 (1024 * tok.toNat / 1024 % 8)) (.ofCode a.code) =
      .mma gd ns ks tok a := by
    rw [h, Guard.ofCode_code, Opnd.ofCode_code (o := a) aw, ofNat_eq tok rfl]
  have k := fun opc (ho : opc < 1024) => of_wordG (i := .mma gd ns ks tok a) (d := 0) (b := 0) (c := 0) ho
      gd.code_lt
    (by decide) (Opnd.code_lt aw) (by decide) (by decide) (by omega : 1024 * tok.toNat < 16384)
  cases ns <;> cases ks
  · exact k 0x300 (by decide) rfl fun _ => by
      simpa [build, buildMatrix, Sel3.ofCode?] using e
  · exact k 0x301 (by decide) rfl fun _ => by
      simpa [build, buildMatrix, Sel3.ofCode?] using e
  · exact k 0x302 (by decide) rfl fun _ => by
      simpa [build, buildMatrix, Sel3.ofCode?] using e
  · exact k 0x303 (by decide) rfl fun _ => by
      simpa [build, buildMatrix, Sel3.ofCode?] using e
  · exact k 0x304 (by decide) rfl fun _ => by
      simpa [build, buildMatrix, Sel3.ofCode?] using e
  · exact k 0x305 (by decide) rfl fun _ => by
      simpa [build, buildMatrix, Sel3.ofCode?] using e
  · exact k 0x306 (by decide) rfl fun _ => by
      simpa [build, buildMatrix, Sel3.ofCode?] using e
  · exact k 0x307 (by decide) rfl fun _ => by
      simpa [build, buildMatrix, Sel3.ofCode?] using e
  · exact k 0x308 (by decide) rfl fun _ => by
      simpa [build, buildMatrix, Sel3.ofCode?] using e

theorem mma16 gd ns ks tok a : Statement (.mma16 gd ns ks tok a) := by
  intro w
  have aw := w
  have := tok.isLt
  have h : 1024 * tok.toNat / 1024 % 8 = tok.toNat := by omega
  have e : Instr.mma16 (.ofCode gd.code) ns ks (BitVec.ofNat 3 (1024 * tok.toNat / 1024 % 8)) (.ofCode a.code) =
      .mma16 gd ns ks tok a := by
    rw [h, Guard.ofCode_code, Opnd.ofCode_code (o := a) aw, ofNat_eq tok rfl]
  have k := fun opc (ho : opc < 1024) => of_wordG (i := .mma16 gd ns ks tok a) (d := 0) (b := 0) (c := 0) ho
      gd.code_lt
    (by decide) (Opnd.code_lt aw) (by decide) (by decide) (by omega : 1024 * tok.toNat < 16384)
  cases ns <;> cases ks
  · exact k 0x309 (by decide) rfl fun _ => by
      simpa [build, buildMatrix, Sel3.ofCode?] using e
  · exact k 0x30A (by decide) rfl fun _ => by
      simpa [build, buildMatrix, Sel3.ofCode?] using e
  · exact k 0x30B (by decide) rfl fun _ => by
      simpa [build, buildMatrix, Sel3.ofCode?] using e
  · exact k 0x30C (by decide) rfl fun _ => by
      simpa [build, buildMatrix, Sel3.ofCode?] using e
  · exact k 0x30D (by decide) rfl fun _ => by
      simpa [build, buildMatrix, Sel3.ofCode?] using e
  · exact k 0x30E (by decide) rfl fun _ => by
      simpa [build, buildMatrix, Sel3.ofCode?] using e
  · exact k 0x30F (by decide) rfl fun _ => by
      simpa [build, buildMatrix, Sel3.ofCode?] using e
  · exact k 0x310 (by decide) rfl fun _ => by
      simpa [build, buildMatrix, Sel3.ofCode?] using e
  · exact k 0x311 (by decide) rfl fun _ => by
      simpa [build, buildMatrix, Sel3.ofCode?] using e

theorem mopf gd : Statement (.mopf gd) := by
  intro w
  refine of_wordG (by decide) gd.code_lt (by decide) (by decide) (by decide) (by decide) (by decide) rfl fun i => ?_
  change some (Instr.mopf (.ofCode gd.code)) = _
  rw [Guard.ofCode_code]

theorem mzero gd tok a : Statement (.mzero gd tok a) := by
  intro w
  have aw : a.wf = true := w
  have := tok.isLt
  refine of_wordG (by decide) gd.code_lt (by decide) (Opnd.code_lt aw) (by decide) (by decide) (by omega) rfl fun i
      => ?_
  have h0 : (1024 * tok.toNat) / 1024 % 8 = tok.toNat := by omega
  change some (Instr.mzero (.ofCode gd.code) (BitVec.ofNat 3 ((1024 * tok.toNat) / 1024 % 8)) (.ofCode a.code)) = _
  rw [h0, Guard.ofCode_code, Opnd.ofCode_code aw, ofNat_eq tok rfl]

theorem att gd exp abs acc tok a : Statement (.att gd exp abs acc tok a) := by
  intro w
  obtain ⟨-, aw⟩ := and_of w
  have := exp.toNat_le
  have := abs.toNat_le
  have := acc.toNat_le
  have := tok.isLt
  refine of_wordG (by decide) gd.code_lt (by decide) (Opnd.code_lt aw) (by decide) (by decide) (by omega) rfl fun i
      => ?_
  have h0 : ((exp.toNat + 2 * abs.toNat + 4 * acc.toNat + 1024 * tok.toNat) % 2 == 1) = exp := bool_eq (by omega)
  have h1 : ((exp.toNat + 2 * abs.toNat + 4 * acc.toNat + 1024 * tok.toNat) / 2 % 2 == 1) = abs := bool_eq (by
      omega)
  have h2 : ((exp.toNat + 2 * abs.toNat + 4 * acc.toNat + 1024 * tok.toNat) / 4 % 2 == 1) = acc := bool_eq (by
      omega)
  have h3 : (exp.toNat + 2 * abs.toNat + 4 * acc.toNat + 1024 * tok.toNat) / 1024 % 8 = tok.toNat := by omega
  change some (Instr.att (.ofCode gd.code) ((exp.toNat + 2 * abs.toNat + 4 * acc.toNat + 1024 * tok.toNat) % 2 ==
      1) ((exp.toNat + 2 * abs.toNat + 4 * acc.toNat + 1024 * tok.toNat) / 2 % 2 == 1) ((exp.toNat + 2 * abs.toNat
      + 4 * acc.toNat + 1024 * tok.toNat) / 4 % 2 == 1) (BitVec.ofNat 3 ((exp.toNat + 2 * abs.toNat + 4 * acc.toNat
      + 1024 * tok.toNat) / 1024 % 8)) (.ofCode a.code)) = _
  rw [h0, h1, h2, h3, Guard.ofCode_code, Opnd.ofCode_code aw, ofNat_eq tok rfl]

theorem attfin gd tok d a : Statement (.attfin gd tok d a) := by
  intro w
  obtain ⟨dw, aw⟩ := and_of w
  have := tok.isLt
  refine of_wordG (by decide) gd.code_lt (Opnd.code_lt dw) (Opnd.code_lt aw) (by decide) (by decide) (by omega) rfl
      fun i => ?_
  have h0 : (1024 * tok.toNat) / 1024 % 8 = tok.toNat := by omega
  change some (Instr.attfin (.ofCode gd.code) (BitVec.ofNat 3 ((1024 * tok.toNat) / 1024 % 8)) (.ofCode d.code)
      (.ofCode a.code)) = _
  rw [h0, Guard.ofCode_code, Opnd.ofCode_code dw, Opnd.ofCode_code aw, ofNat_eq tok rfl]

theorem latw gd tok a : Statement (.latw gd tok a) := by
  intro w
  have aw : a.wf = true := w
  have := tok.isLt
  refine of_wordG (by decide) gd.code_lt (by decide) (Opnd.code_lt aw) (by decide) (by decide) (by omega) rfl fun i
      => ?_
  have h0 : (1024 * tok.toNat) / 1024 % 8 = tok.toNat := by omega
  change some (Instr.latw (.ofCode gd.code) (BitVec.ofNat 3 ((1024 * tok.toNat) / 1024 % 8)) (.ofCode a.code)) = _
  rw [h0, Guard.ofCode_code, Opnd.ofCode_code aw, ofNat_eq tok rfl]

theorem kvlook gd tok d a : Statement (.kvlook gd tok d a) := by
  intro w
  obtain ⟨dw, aw⟩ := and_of w
  have := tok.isLt
  refine of_wordG (by decide) gd.code_lt (Opnd.code_lt dw) (Opnd.code_lt aw) (by decide) (by decide) (by omega) rfl
      fun i => ?_
  have h0 : (1024 * tok.toNat) / 1024 % 8 = tok.toNat := by omega
  change some (Instr.kvlook (.ofCode gd.code) (BitVec.ofNat 3 ((1024 * tok.toNat) / 1024 % 8)) (.ofCode d.code)
      (.ofCode a.code)) = _
  rw [h0, Guard.ofCode_code, Opnd.ofCode_code dw, Opnd.ofCode_code aw, ofNat_eq tok rfl]

theorem kvapp gd cmp a : Statement (.kvapp gd cmp a) := by
  intro w
  obtain ⟨cw, aw⟩ := and_of w
  obtain ⟨hc, hm, hz⟩ := Completion.code_lt cw
  refine of_wordG (by decide) gd.code_lt (by decide) (Opnd.code_lt aw) (by decide) hc (by omega) rfl fun i => ?_
  have h := Completion.ofFields_code cw 0x321 gd.code 0 a.code 0 i 0 (by omega)
  rw [Nat.zero_add] at h
  change some (Instr.kvapp (.ofCode gd.code) (Completion.ofFields _) (.ofCode a.code)) = _
  rw [h, Opnd.ofCode_code aw, Guard.ofCode_code]

theorem kvfork gd cmp a : Statement (.kvfork gd cmp a) := by
  intro w
  obtain ⟨cw, aw⟩ := and_of w
  obtain ⟨hc, hm, hz⟩ := Completion.code_lt cw
  refine of_wordG (by decide) gd.code_lt (by decide) (Opnd.code_lt aw) (by decide) hc (by omega) rfl fun i => ?_
  have h := Completion.ofFields_code cw 0x322 gd.code 0 a.code 0 i 0 (by omega)
  rw [Nat.zero_add] at h
  change some (Instr.kvfork (.ofCode gd.code) (Completion.ofFields _) (.ofCode a.code)) = _
  rw [h, Opnd.ofCode_code aw, Guard.ofCode_code]

theorem kvcommit gd cmp a : Statement (.kvcommit gd cmp a) := by
  intro w
  obtain ⟨cw, aw⟩ := and_of w
  obtain ⟨hc, hm, hz⟩ := Completion.code_lt cw
  refine of_wordG (by decide) gd.code_lt (by decide) (Opnd.code_lt aw) (by decide) hc (by omega) rfl fun i => ?_
  have h := Completion.ofFields_code cw 0x323 gd.code 0 a.code 0 i 0 (by omega)
  rw [Nat.zero_add] at h
  change some (Instr.kvcommit (.ofCode gd.code) (Completion.ofFields _) (.ofCode a.code)) = _
  rw [h, Opnd.ofCode_code aw, Guard.ofCode_code]

theorem topk gd cmp a : Statement (.topk gd cmp a) := by
  intro w
  obtain ⟨cw, aw⟩ := and_of w
  obtain ⟨hc, hm, hz⟩ := Completion.code_lt cw
  refine of_wordG (by decide) gd.code_lt (by decide) (Opnd.code_lt aw) (by decide) hc (by omega) rfl fun i => ?_
  have h := Completion.ofFields_code cw 0x324 gd.code 0 a.code 0 i 0 (by omega)
  rw [Nat.zero_add] at h
  change some (Instr.topk (.ofCode gd.code) (Completion.ofFields _) (.ofCode a.code)) = _
  rw [h, Opnd.ofCode_code aw, Guard.ofCode_code]

theorem cpy gd cmp a : Statement (.cpy gd cmp a) := by
  intro w
  obtain ⟨cw, aw⟩ := and_of w
  obtain ⟨hc, hm, hz⟩ := Completion.code_lt cw
  refine of_wordG (by decide) gd.code_lt (by decide) (Opnd.code_lt aw) (by decide) hc (by omega) rfl fun i => ?_
  have h := Completion.ofFields_code cw 0x340 gd.code 0 a.code 0 i 0 (by omega)
  rw [Nat.zero_add] at h
  change some (Instr.cpy (.ofCode gd.code) (Completion.ofFields _) (.ofCode a.code)) = _
  rw [h, Opnd.ofCode_code aw, Guard.ofCode_code]

theorem cpyt gd conv cmp a : Statement (.cpyt gd conv cmp a) := by
  intro w
  obtain ⟨cw, aw⟩ := and_of w
  obtain ⟨hc, hm, hz⟩ := Completion.code_lt cw
  have := conv.toNat_le
  have h0 : ((conv.toNat + cmp.modCode) % 2 == 1) = conv := bool_eq (by omega)
  refine of_wordG (by decide) gd.code_lt (by decide) (Opnd.code_lt aw) (by decide) hc (by omega) rfl fun i => ?_
  have h := Completion.ofFields_code cw 0x341 gd.code 0 a.code 0 i (conv.toNat) (by omega)
  change some (Instr.cpyt (.ofCode gd.code) ((conv.toNat + cmp.modCode) % 2 == 1) (Completion.ofFields _) (.ofCode
      a.code)) = _
  rw [h, h0, Opnd.ofCode_code aw, Guard.ofCode_code]

theorem cpyc gd cmp a : Statement (.cpyc gd cmp a) := by
  intro w
  obtain ⟨cw, aw⟩ := and_of w
  obtain ⟨hc, hm, hz⟩ := Completion.code_lt cw
  refine of_wordG (by decide) gd.code_lt (by decide) (Opnd.code_lt aw) (by decide) hc (by omega) rfl fun i => ?_
  have h := Completion.ofFields_code cw 0x342 gd.code 0 a.code 0 i 0 (by omega)
  rw [Nat.zero_add] at h
  change some (Instr.cpyc (.ofCode gd.code) (Completion.ofFields _) (.ofCode a.code)) = _
  rw [h, Opnd.ofCode_code aw, Guard.ofCode_code]

theorem cpyg gd cmp a : Statement (.cpyg gd cmp a) := by
  intro w
  obtain ⟨cw, aw⟩ := and_of w
  obtain ⟨hc, hm, hz⟩ := Completion.code_lt cw
  refine of_wordG (by decide) gd.code_lt (by decide) (Opnd.code_lt aw) (by decide) hc (by omega) rfl fun i => ?_
  have h := Completion.ofFields_code cw 0x343 gd.code 0 a.code 0 i 0 (by omega)
  rw [Nat.zero_add] at h
  change some (Instr.cpyg (.ofCode gd.code) (Completion.ofFields _) (.ofCode a.code)) = _
  rw [h, Opnd.ofCode_code aw, Guard.ofCode_code]

theorem cpys gd cmp a : Statement (.cpys gd cmp a) := by
  intro w
  obtain ⟨cw, aw⟩ := and_of w
  obtain ⟨hc, hm, hz⟩ := Completion.code_lt cw
  refine of_wordG (by decide) gd.code_lt (by decide) (Opnd.code_lt aw) (by decide) hc (by omega) rfl fun i => ?_
  have h := Completion.ofFields_code cw 0x344 gd.code 0 a.code 0 i 0 (by omega)
  rw [Nat.zero_add] at h
  change some (Instr.cpys (.ofCode gd.code) (Completion.ofFields _) (.ofCode a.code)) = _
  rw [h, Opnd.ofCode_code aw, Guard.ofCode_code]

theorem chwp gd d a : Statement (.chwp gd d a) := by
  intro w
  obtain ⟨dw, aw⟩ := and_of w
  refine of_wordG (by decide) gd.code_lt (Opnd.code_lt dw) (Opnd.code_lt aw) (by decide) (by decide) (by decide)
      rfl fun i => ?_
  change some (Instr.chwp (.ofCode gd.code) (.ofCode d.code) (.ofCode a.code)) = _
  rw [Guard.ofCode_code, Opnd.ofCode_code dw, Opnd.ofCode_code aw]

theorem rngsnd gd pkg tok a : Statement (.rngsnd gd pkg tok a) := by
  intro w
  have aw : a.wf = true := w
  have := pkg.toNat_le
  have := tok.isLt
  refine of_wordG (by decide) gd.code_lt (by decide) (Opnd.code_lt aw) (by decide) (by decide) (by omega) rfl fun i
      => ?_
  have h0 : ((pkg.toNat + 1024 * tok.toNat) % 2 == 1) = pkg := bool_eq (by omega)
  have h1 : (pkg.toNat + 1024 * tok.toNat) / 1024 % 8 = tok.toNat := by omega
  change some (Instr.rngsnd (.ofCode gd.code) ((pkg.toNat + 1024 * tok.toNat) % 2 == 1) (BitVec.ofNat 3 ((pkg.toNat
      + 1024 * tok.toNat) / 1024 % 8)) (.ofCode a.code)) = _
  rw [h0, h1, Guard.ofCode_code, Opnd.ofCode_code aw, ofNat_eq tok rfl]

theorem rngrcv gd pkg cmp a : Statement (.rngrcv gd pkg cmp a) := by
  intro w
  obtain ⟨cw, aw⟩ := and_of w
  obtain ⟨hc, hm, hz⟩ := Completion.code_lt cw
  have := pkg.toNat_le
  have h0 : ((pkg.toNat + cmp.modCode) % 2 == 1) = pkg := bool_eq (by omega)
  refine of_wordG (by decide) gd.code_lt (by decide) (Opnd.code_lt aw) (by decide) hc (by omega) rfl fun i => ?_
  have h := Completion.ofFields_code cw 0x349 gd.code 0 a.code 0 i (pkg.toNat) (by omega)
  change some (Instr.rngrcv (.ofCode gd.code) ((pkg.toNat + cmp.modCode) % 2 == 1) (Completion.ofFields _) (.ofCode
      a.code)) = _
  rw [h, h0, Opnd.ofCode_code aw, Guard.ofCode_code]

theorem strideIssue x y : Statement (.strideIssue x y) := of_none rfl

theorem tenureEnd x y : Statement (.tenureEnd x y) := of_none rfl

theorem joinHoldExpiry x y : Statement (.joinHoldExpiry x y) := of_none rfl

theorem wake x y z : Statement (.wake x y z) := of_none rfl

theorem pendingDemotion x y z : Statement (.pendingDemotion x y z) := of_none rfl

theorem rigPromote x y : Statement (.rigPromote x y) := of_none rfl

theorem forcedDemotion x y : Statement (.forcedDemotion x y) := of_none rfl

theorem loadLands x : Statement (.loadLands x) := of_none rfl

theorem releaseWaitEnd x y : Statement (.releaseWaitEnd x y) := of_none rfl

theorem faultSwap x : Statement (.faultSwap x) := of_none rfl

theorem workgroupRestore x : Statement (.workgroupRestore x) := of_none rfl

theorem workgroupPlace x y : Statement (.workgroupPlace x y) := of_none rfl

theorem workgroupComplete x : Statement (.workgroupComplete x) := of_none rfl

theorem preempt x : Statement (.preempt x) := of_none rfl

theorem commandAccept x : Statement (.commandAccept x) := of_none rfl

theorem commandComplete x y : Statement (.commandComplete x y) := of_none rfl

theorem copyChunkDeliver x y : Statement (.copyChunkDeliver x y) := of_none rfl

theorem ringBlockArrive x : Statement (.ringBlockArrive x) := of_none rfl

theorem ringCreditReturn x : Statement (.ringCreditReturn x) := of_none rfl

theorem readMissGrant x y z : Statement (.readMissGrant x y z) := of_none rfl

theorem invalidation x : Statement (.invalidation x) := of_none rfl

theorem translationInvalidation x : Statement (.translationInvalidation x) := of_none rfl

theorem sharerAckTimeout x : Statement (.sharerAckTimeout x) := of_none rfl

theorem sliceNoResponse x y : Statement (.sliceNoResponse x y) := of_none rfl

theorem sliceTakeover x y : Statement (.sliceTakeover x y) := of_none rfl

theorem takeoverLeaseEnd x y : Statement (.takeoverLeaseEnd x y) := of_none rfl

theorem migrationRequest x : Statement (.migrationRequest x) := of_none rfl

theorem migrationHoldExpiry x y : Statement (.migrationHoldExpiry x y) := of_none rfl

theorem linkReservationExpiry x : Statement (.linkReservationExpiry x) := of_none rfl

theorem refusalEntryExpiry x y : Statement (.refusalEntryExpiry x y) := of_none rfl

theorem linkDeclaredDead x : Statement (.linkDeclaredDead x) := of_none rfl

theorem launchRecordTaken x y : Statement (.launchRecordTaken x y) := of_none rfl

theorem admissionResume x : Statement (.admissionResume x) := of_none rfl

theorem snapshot x : Statement (.snapshot x) := of_none rfl

theorem launchEnd x : Statement (.launchEnd x) := of_none rfl

theorem sliceEnd x : Statement (.sliceEnd x) := of_none rfl

theorem drainBudgetExpiry x y : Statement (.drainBudgetExpiry x y) := of_none rfl

theorem drainEnd x y : Statement (.drainEnd x y) := of_none rfl

theorem rollback x : Statement (.rollback x) := of_none rfl

theorem uncorrectableError x : Statement (.uncorrectableError x) := of_none rfl

theorem ageingMeasure x y : Statement (.ageingMeasure x y) := of_none rfl

theorem dieDead x : Statement (.dieDead x) := of_none rfl

theorem blulysDeclareDead x : Statement (.blulysDeclareDead x) := of_none rfl

theorem kill x y z : Statement (.kill x y z) := of_none rfl

theorem hostMemoryWrite x y : Statement (.hostMemoryWrite x y) := of_none rfl

theorem hostMemoryRead x y : Statement (.hostMemoryRead x y) := of_none rfl

theorem fabricReceive x y z : Statement (.fabricReceive x y z) := of_none rfl

theorem relayStart x : Statement (.relayStart x) := of_none rfl

theorem relayAbort x : Statement (.relayAbort x) := of_none rfl

theorem relayDrainEnd x : Statement (.relayDrainEnd x) := of_none rfl

theorem relayStreamReceived x : Statement (.relayStreamReceived x) := of_none rfl

theorem relayAck x : Statement (.relayAck x) := of_none rfl

theorem hostSoftCancel x y z : Statement (.hostSoftCancel x y z) := of_none rfl

theorem hostHardCancel x y z : Statement (.hostHardCancel x y z) := of_none rfl

theorem migreqRequest x y : Statement (.migreqRequest x y) := of_none rfl

theorem migreqMoveDone x y : Statement (.migreqMoveDone x y) := of_none rfl

theorem migrspRead x : Statement (.migrspRead x) := of_none rfl

theorem ctxtWrite x y z u : Statement (.ctxtWrite x y z u) := of_none rfl

theorem evcWrite x y z : Statement (.evcWrite x y z) := of_none rfl

theorem nqtailWrite x y : Statement (.nqtailWrite x y) := of_none rfl

theorem registerWrite x y z : Statement (.registerWrite x y z) := of_none rfl

theorem start x : Statement (.start x) := of_none rfl

theorem dieEntersService x : Statement (.dieEntersService x) := of_none rfl

theorem storePerformed x : Statement (.storePerformed x) := of_none rfl

theorem launchEndResume x : Statement (.launchEndResume x) := of_none rfl

theorem trainingFailed x : Statement (.trainingFailed x) := of_none rfl

theorem fenceCleared x : Statement (.fenceCleared x) := of_none rfl

theorem pcieLinkUp x : Statement (.pcieLinkUp x) := of_none rfl

theorem preCopyRoundEnd x : Statement (.preCopyRoundEnd x) := of_none rfl

theorem relayRefusal x : Statement (.relayRefusal x) := of_none rfl

theorem sramUncorrectableError x : Statement (.sramUncorrectableError x) := of_none rfl

end Sys2Proof.Laws.Encoding
end

