-- ==== Sys2Proof/Tests/Base.lean ====
section
/-! SUPPORT. Small states for the tests, and the checks that the premises of the statements come down to. -/

namespace Sys2Proof.Tests

open Sys2Proof Sys2Proof.Machine Sys2Proof.Spec

/-- Everything that `Inv` asks, as a Bool. -/
def invB (s : State) : Bool :=
  decide ((s.wgs.map Workgroup.id).Nodup) &&
    (s.wgs.all fun w => decide (w.id < s.serial) && Memory.wf w.loft) &&
    (s.loads.all fun p => decide (p.id < s.serial)) && (s.launches.all fun k => decide (k.id < s.serial)) &&
    (Memory.wf s.mem && Map.wf 0 s.chk && Map.wf false s.poison && Map.wf false s.helped && Map.wf 0 s.pub) &&
    s.inbox.all fun x => decide (((streamFrames x.2.2).map fun f => f.1.id).Nodup) &&
      (streamFrames x.2.2).all fun f => Memory.wf f.1.loft

theorem inv_of {s : State} (h : invB s = true) : Inv s := by
  simp only [invB, Bool.and_eq_true, decide_eq_true_eq, List.all_eq_true] at h
  obtain ⟨⟨⟨⟨⟨a, b⟩, c⟩, d⟩, e⟩, f⟩ := h
  exact ⟨a, b, c, d, ⟨e.1.1.1.1, e.1.1.1.2, e.1.1.2, e.1.2, e.2⟩, f⟩

def readyB (s : State) (g : Group) (i : Instr) : Bool :=
  s.halt.isNone && decide (s.group? = some g) && !g.stalled && invB s && g.lanes.all fun l => s.legalFor l i

theorem ready_of {s : State} {g : Group} {i : Instr} (h : readyB s g i = true) : Ready s g i := by
  simp only [readyB, Bool.and_eq_true, decide_eq_true_eq, List.all_eq_true, Option.isNone_iff_eq_none,
    Bool.not_eq_true'] at h
  exact ⟨h.1.1.1.1, h.1.1.1.2, h.1.1.2, inv_of h.1.2, h.2⟩

def oneB (s : State) (g : Group) (i : Instr) (gd : Guard) (l : LaneRef) : Bool :=
  readyB s g i && decide (running s g gd = [l]) && !(s.prot l.wg) && (s.thread l).alive

theorem one_of {s : State} {g : Group} {i : Instr} {gd : Guard} {l : LaneRef} (h : oneB s g i gd l = true) :
    One s g i gd l := by
  simp only [oneB, Bool.and_eq_true, decide_eq_true_eq, Bool.not_eq_true'] at h
  exact { toReady := ready_of h.1.1.1, only := h.1.1.2, plain := h.1.2, alive := h.2 }

def pairB (s : State) (g : Group) (i : Instr) (gd : Guard) (l : LaneRef) : Bool :=
  readyB s g i && decide (running s g gd = [l, mate l]) && decide (l.lane % 2 = 0) && s.prot l.wg &&
    (s.thread l).alive && (s.thread (mate l)).alive

theorem pair2_of {s : State} {g : Group} {i : Instr} {gd : Guard} {l : LaneRef} (h : pairB s g i gd l = true) :
    Pair s g i gd l := by
  simp only [pairB, Bool.and_eq_true, decide_eq_true_eq] at h
  obtain ⟨⟨⟨⟨⟨a, b⟩, c⟩, d⟩, e⟩, f⟩ := h
  exact { toReady := ready_of a, only := b, even := c, guarded := d, alive := ⟨e, f⟩ }

/-- What holds of the lanes of the group holds of those that execute. -/
theorem of_lanes {s : State} {g : Group} {gd : Guard} {p : LaneRef → Bool} (h : g.lanes.all p = true) {l : LaneRef}
    (hr : runs s g gd l = true) : p l = true := by
  simp only [runs, Bool.and_eq_true, List.contains_iff_mem] at hr
  exact List.all_eq_true.mp h l hr.1.1.1

theorem some_all {α : Type} {o : Option α} {p : α → Prop} [DecidablePred p]
    (h : (o.all fun x => decide (p x)) = true) : ∀ k, o = some k → p k := by
  rintro k rfl
  simpa using h

/-- A result is the pair of its parts. -/
theorem pair_of {α β : Type} {x : α × β} {b : β} (h : x.2 = b) : x = (x.1, b) := by
  rw [← h]

theorem reaches_global {s s1 : State} {m : MemOp} {l : LaneRef} {p : Place} (q : Nat) (hs : m.sp = .global)
    (h : address s m l % lengthOf m = 0 ∧
      ((atSlot s m l).coreAccess l m.kind (address s m l)).2 = .ok p q ∧ s1.halt = none)
    (h1 : ((atSlot s m l).coreAccess l m.kind (address s m l)).1 = s1) : reaches s m l s1 p := by
  unfold reaches
  rw [hs]
  exact ⟨h.1, q, Prod.ext h1 h.2.1, h.2.2⟩

theorem reaches_loft {s : State} {m : MemOp} {l : LaneRef} (w : Workgroup) (hs : m.sp = .loft)
    (h : address s m l % lengthOf m = 0 ∧ s.wg? l.wg = some w ∧
      address s m l + lengthOf m ≤ (s.limits l.wg).2.2 ∧ w.touchesLive (address s m l) (lengthOf m) = false) :
    reaches s m l (atSlot s m l) (inLoft (address s m l)) := by
  unfold reaches
  rw [hs]
  exact ⟨h.1, rfl, w, h.2.1, rfl, h.2.2.1, fun _ => h.2.2.2⟩

theorem passes_of {s : State} {m : MemOp} {l : LaneRef}
    (h : ((m.tok.all fun k => decide (tokenOf s l k < 63)) &&
      (!(waits m.ord) || s.released l (if m.sp = .loft then .wg else m.sc))) = true) : passes s m l := by
  rw [Bool.and_eq_true] at h
  refine ⟨some_all h.1, fun hw => ?_⟩
  have hr' : s.released l (if m.sp = .loft then .wg else m.sc) = true := by simpa [hw] using h.2
  cases hs : m.sp <;> simpa [hs] using hr'

theorem quiet_of {s : State} {l : LaneRef}
    (h : ((s.loads.all fun p => p.lane != l || p.served.isSome) && s.stores.all fun q => q.lane != l) = true) :
    quiet s l := by
  simp only [Bool.and_eq_true, List.all_eq_true, Bool.or_eq_true, bne_iff_ne, ne_eq] at h
  exact ⟨fun p hp e => (h.1 p hp).resolve_left (fun n => n e), h.2⟩

theorem leafFit_of {s : State} {p : Place}
    (h : (p.leaf.all fun a => a % 8 == 0 && paExists a && !s.sectorBad (a / 32)) = true) : leafFit s p := by
  intro a ha
  rw [ha] at h
  simpa [and_assoc] using h

/-- The next state of an outcome. -/
def nextOf : Host.Outcome State Fault Refusal → Option State
  | .next s => some s
  | .fault _ | .refused _ => none

/-- Page tables that map the first GiB to itself: class shared, key 0, all permissions, A and D set. -/
def mapped (s : State) : State :=
  (s.rawWrite 0x100000 (leBytes 8 (1 + 0x101 * 2 ^ 12 + 2 ^ 55))).rawWrite 0x101000
    (leBytes 8 (1 + 2 + 4 + 8 + 2 ^ 10 + 2 ^ 11 + 3 * 2 ^ 52))

/-- The one lane that issues. -/
def lane0 : LaneRef := ⟨2, 0, 0⟩

/-- Where an access of it to an address of the first GiB goes. -/
def placeAt (a : Nat) : Place := ⟨false, a, .shared, 2048, false, [.l1 0], [8192, 8224], false, some 0x101000⟩

/-- The launch of the tests: the small one, with a handler, a save area, a board and a parameter block. -/
def launch0 : Launch :=
  { (oneLaunch 1) with
    ctx := ⟨⟨0, 0, 0⟩, 0x100000, 0, 0, 0, 0⟩, stage := .running
    rcd := { (oneLaunch 1).rcd with
      handler := 0x10000, save := 0x20000, board := 0x28000, param := 0x30000, plen := 64, spilld := 8, pkperm := 3 } }

/-- A group of that lane alone, at the slot of a word. -/
def group0 (w : Dword) : Group := { (oneSlot 2 w) with lanes := [lane0] }

def wordOf (i : Instr) : Dword := BitVec.ofNat 64 ((encodeNat i).getD 0)

/-- Bay 0 of core 0 holds a slot of an instruction for one lane, whose thread is as given. -/
def stage (i : Instr) (f : Thread → Thread := id) : State :=
  let s : State := mapped (State.reset.holding1 (wordOf i))
  let s : State := { s with
    launches := [launch0], wgs := s.wgs.map fun w : Workgroup => { w with pkperm := 3#64 } }
  (s.setBay 0 0 fun y => { y with port := some (group0 (wordOf i)) }).setThread lane0 f

/-- The always-true guard. -/
def p7 : Guard := ⟨7#3, false⟩
def g (n : Nat) : Opnd := .g (BitVec.ofNat 8 n)

/-- The workgroup of the tests. -/
def wgOf (s : State) : Workgroup := (s.wg? 2).getD ((oneLaunch 1).newWg 2 0)

/-- g2 holds an address in global memory. -/
def addr (a : Nat) (t : Thread) : Thread := { t with regs := [(2, BitVec.ofNat 32 a)] }

end Sys2Proof.Tests
end

