-- ==== Sys2Proof/Tests/Slice0.lean ====
section
/-! SUPPORT. Tests of the model against the worked values of the spec: words that decode, terms that are not well
formed, and single instructions. -/

namespace Sys2Proof.Tests

open Sys2Proof Sys2Proof.Machine Sys2Proof.Spec

set_option Elab.async false

/-! Decoding: words that the spec writes out (the file is named beside each). -/

/-- spec/06_assembly_notes.md. -/
theorem test_decode_movi : decode 0x14F8000000000000#64 = .ok (.movi p7 (g 0) 0#32) := by decide +kernel

/-- spec/06_assembly_notes.md. -/
theorem test_decode_ldp : decode 0xA1382800C8001C04#64 = .ok (.ldp p7 .w64 1#3 (g 20) (g 0) (.c 0#6)) := by decide +kernel

/-- spec/06_assembly_notes.md. -/
theorem test_decode_ldp_offset : decode 0xA1381400CC001804#64 = .ok (.ldp p7 .w32 1#3 (g 10) (g 0) (.c 8#6)) := by decide +kernel

/-- spec/06_assembly_notes.md. -/
theorem test_decode_st : decode 0xA0781214C8001800#64 = .ok (.st p7 .w32 (g 9) (g 20) (.c 0#6)) := by decide +kernel

/-- spec/06_assembly_notes.md. -/
theorem test_decode_iadd : decode 0x0038180CD8800800#64 = .ok (.iadd p7 .i32 (g 12) (g 12) (.c 33#6)) := by decide +kernel

/-- spec/06_assembly_notes.md. -/
theorem test_decode_mov_predicate : decode 0x14BB140C00001800#64 = .ok (.mov p7 .w32 (.p 2#3) (g 12)) := by decide +kernel

/-- spec/09_integer_float_instructions.md. -/
theorem test_decode_icmp : decode 0x16B90404D0000800#64 = .ok (.icmp p7 .i32 .lt 2#3 (g 4) (.c 16#6)) := by decide +kernel

/-- spec/06_assembly_notes.md. -/
theorem test_decode_exit : decode 0x82B8000000000000#64 = .ok (.exit p7) := by decide +kernel

/-- spec/11_control_system_instructions.md. -/
theorem test_decode_yield_phase : decode 0x8338000A06800000#64 = .ok (.yield p7 (.phase (g 10) (g 13))) := by decide +kernel

/-- spec/11_control_system_instructions.md. -/
theorem test_decode_yield_token : decode 0x8338000000000005#64 = .ok (.yield p7 (.token 1#3)) := by decide +kernel

/-- spec/11_control_system_instructions.md. -/
theorem test_decode_movs : decode 0xBC38000300000000#64 = .ok (.movs p7 (g 0) .tid) := by decide +kernel

/-- spec/12_call_program.md. -/
theorem test_decode_lea : decode 0x1438301607640000#64 = .ok (.lea p7 (g 24) (g 22) (g 14) (.c 0#6)) := by decide +kernel

/-- spec/12_call_program.md. -/
theorem test_decode_andn : decode 0x0DB81408E7801800#64 = .ok (.andnG p7 .w32 (g 10) (g 8) (.c 63#6)) := by decide +kernel

/-- spec/12_call_program.md. -/
theorem test_decode_call : decode 0x8110000000000000#64 = .ok (.call ⟨2#3, false⟩ 0#32) := by decide +kernel

/-- spec/12_call_program.md. -/
theorem test_decode_ret : decode 0x8238000000000000#64 = .ok (.ret p7) := by decide +kernel

/-- spec/13_memory_instructions.md. -/
theorem test_decode_lda : decode 0xA1781816C8001924#64 = .ok (.lda p7 .w32 .dev .acq 1#3 .global (g 12) (g 22) (.c 0#6)) := by decide +kernel

/-- spec/13_memory_instructions.md. -/
theorem test_decode_fence : decode 0xA4B8000000000140#64 = .ok (.fence p7 .dev .rel) := by decide +kernel

/-- spec/13_memory_instructions.md. -/
theorem test_decode_binit : decode 0xA838000A00000000#64 = .ok (.binit p7 (g 10)) := by decide +kernel

/-- spec/17_helping.md. -/
theorem test_decode_ainit : decode 0xAC3800120C000000#64 = .ok (.ainit p7 (g 18) (g 24)) := by decide +kernel

/-- spec/17_helping.md. -/
theorem test_decode_astep : decode 0xACB8201200000000#64 = .ok (.astep p7 (g 16) (g 18)) := by decide +kernel

/-- spec/17_helping.md. -/
theorem test_decode_ares : decode 0xACF82C0000000000#64 = .ok (.ares p7 (g 22)) := by decide +kernel

/-- spec/18_helping_program.md. -/
theorem test_decode_or : decode 0x0CB83C1C0E801800#64 = .ok (.orG p7 .w32 (g 30) (g 28) (g 29)) := by decide +kernel

/-- spec/19_engine_instructions.md. -/
theorem test_decode_mopf : decode 0xC4B8000000000000#64 = .ok (.mopf p7) := by decide +kernel

/-- spec/19_engine_instructions.md. -/
theorem test_decode_attfin : decode 0xC678480C00000C00#64 = .ok (.attfin p7 3#3 (g 36) (g 12)) := by decide +kernel

/-- spec/19_engine_instructions.md. -/
theorem test_decode_kvcommit : decode 0xC8F800300002A000#64 = .ok (.kvcommit p7 (.bar (g 10)) (g 48)) := by decide +kernel

/-- spec/19_engine_instructions.md. -/
theorem test_decode_cpyt : decode 0xD078000600001401#64 = .ok (.cpyt p7 true (.tok 5#3) (g 6)) := by decide +kernel

/-- spec/19_engine_instructions.md. -/
theorem test_decode_chwp : decode 0xD1781C1E00000000#64 = .ok (.chwp p7 (g 14) (g 30)) := by decide +kernel

/-- spec/20_scan_program.md. -/
theorem test_decode_cpyc : decode 0xD0B8000600000400#64 = .ok (.cpyc p7 (.tok 1#3) (g 6)) := by decide +kernel

/-- spec/20_scan_program.md. -/
theorem test_decode_mma : decode 0xC038001000000C00#64 = .ok (.mma p7 .s0 .s0 3#3 (g 16)) := by decide +kernel

/-- spec/20_scan_program.md. -/
theorem test_decode_mov_accumulator : decode 0x14BB010000001800#64 = .ok (.mov p7 .w32 (.t 0#3) (.a 0#7)) := by decide +kernel

/-- spec/20_scan_program.md. -/
theorem test_decode_sel : decode 0x163B0401C8015800#64 = .ok (.sel p7 .w32 (.t 2#3) (g 1) (.c 0#6) (g 5)) := by decide +kernel

/-- spec/20_scan_program.md. -/
theorem test_decode_shfl : decode 0x603B0981C1800000#64 = .ok (.shfl p7 .idx (.t 4#3) (.t 1#3) (.t 3#3)) := by decide +kernel

/-- spec/22_eviction_program.md. -/
theorem test_decode_topk : decode 0xC90800100002A000#64 = .ok (.topk ⟨1#3, false⟩ (.bar (g 10)) (g 16)) := by decide +kernel

/-- spec/22_eviction_program.md. -/
theorem test_decode_cpyg : decode 0xD0C80022000BE000#64 = .ok (.cpyg ⟨1#3, false⟩ (.bar (g 47)) (g 34)) := by decide +kernel

/-- spec/26_counter_program.md. -/
theorem test_decode_ctrd : decode 0xBDB8159300000000#64 = .ok (.ctrd p7 (g 10) (.c 3#6)) := by decide +kernel

/-- spec/10_arithmetic_notes.md. -/
theorem test_decode_cvt_stochastic : decode 0x50380A0100002640#64 = .ok (.cvt p7 .bf16 .f32 .rs (g 5) (g 1)) := by decide +kernel

/-! Well-formedness: a term for each check, which the check refuses. -/

/-- An operand code past the last (R63). -/
def b48 : Opnd := .bad 48#6

/-- Ill-formed terms of the integer instructions: a type, a modifier or an operand that the entry does not admit. -/
theorem test_wf_refuses_integer_1 : ([
    .iadd p7 .i16 (g 0) (g 0) (g 0), .iadd p7 .w32 b48 (g 0) (g 0), .iadd p7 .w32 (g 0) b48 (g 0),
    .iadd p7 .w32 (g 0) (g 0) b48, .iaddI p7 b48 (g 0) 0#32, .iaddI p7 (g 0) b48 0#32,
    .isub p7 .i16 (g 0) (g 0) (g 0), .isub p7 .w32 b48 (g 0) (g 0), .isub p7 .w32 (g 0) b48 (g 0),
    .isub p7 .w32 (g 0) (g 0) b48, .isubI p7 b48 (g 0) 0#32, .isubI p7 (g 0) b48 0#32,
    .iaddc p7 .i32 (g 0) (g 0) (g 0) (g 0), .iaddc p7 .w32 b48 (g 0) (g 0) (g 0),
    .iaddc p7 .w32 (g 0) b48 (g 0) (g 0), .iaddc p7 .w32 (g 0) (g 0) b48 (g 0),
    .iaddc p7 .w32 (g 0) (g 0) (g 0) b48, .imul p7 .i16 (g 0) (g 0) (g 0), .imul p7 .w32 b48 (g 0) (g 0),
    .imul p7 .w32 (g 0) b48 (g 0), .imul p7 .w32 (g 0) (g 0) b48, .imulI p7 b48 (g 0) 0#32,
    .imulI p7 (g 0) b48 0#32, .imulh p7 .i16 (g 0) (g 0) (g 0), .imulh p7 .w32 b48 (g 0) (g 0),
    .imulh p7 .w32 (g 0) b48 (g 0), .imulh p7 .w32 (g 0) (g 0) b48, .imad p7 .i16 (g 0) (g 0) (g 0) (g 0),
    .imad p7 .w32 b48 (g 0) (g 0) (g 0), .imad p7 .w32 (g 0) b48 (g 0) (g 0),
    .imad p7 .w32 (g 0) (g 0) b48 (g 0), .imad p7 .w32 (g 0) (g 0) (g 0) b48,
    .idot4 p7 .i32 (g 0) (g 0) (g 0) (g 0), .idot4 p7 .i8 b48 (g 0) (g 0) (g 0),
    .idot4 p7 .i8 (g 0) b48 (g 0) (g 0), .idot4 p7 .i8 (g 0) (g 0) b48 (g 0),
    .idot4 p7 .i8 (g 0) (g 0) (g 0) b48, .idiv p7 .i16 (g 0) (g 0) (g 0), .idiv p7 .w32 b48 (g 0) (g 0),
    .idiv p7 .w32 (g 0) b48 (g 0), .idiv p7 .w32 (g 0) (g 0) b48, .irem p7 .i16 (g 0) (g 0) (g 0),
    .irem p7 .w32 b48 (g 0) (g 0), .irem p7 .w32 (g 0) b48 (g 0), .irem p7 .w32 (g 0) (g 0) b48,
    .imin p7 .i16 (g 0) (g 0) (g 0), .imin p7 .w32 b48 (g 0) (g 0), .imin p7 .w32 (g 0) b48 (g 0)] : List Instr).all (fun i => !i.wf) = true := by
  decide +kernel

theorem test_wf_refuses_integer_2 : ([
    .imin p7 .w32 (g 0) (g 0) b48, .iminI p7 b48 (g 0) 0#32, .iminI p7 (g 0) b48 0#32,
    .imax p7 .i16 (g 0) (g 0) (g 0), .imax p7 .w32 b48 (g 0) (g 0), .imax p7 .w32 (g 0) b48 (g 0),
    .imax p7 .w32 (g 0) (g 0) b48, .imaxI p7 b48 (g 0) 0#32, .imaxI p7 (g 0) b48 0#32,
    .iabs p7 .w32 (g 0) (g 0), .iabs p7 .i32 b48 (g 0), .iabs p7 .i32 (g 0) b48, .ineg p7 .w32 (g 0) (g 0),
    .ineg p7 .i32 b48 (g 0), .ineg p7 .i32 (g 0) b48, .isat p7 .i32 (g 0) (g 0), .isat p7 .i8 b48 (g 0),
    .isat p7 .i8 (g 0) b48, .shl p7 .i32 (g 0) (g 0) (g 0), .shl p7 .w32 b48 (g 0) (g 0),
    .shl p7 .w32 (g 0) b48 (g 0), .shl p7 .w32 (g 0) (g 0) b48, .shlI p7 b48 (g 0) 0#32,
    .shlI p7 (g 0) b48 0#32, .shr p7 .i32 (g 0) (g 0) (g 0), .shr p7 .w32 b48 (g 0) (g 0),
    .shr p7 .w32 (g 0) b48 (g 0), .shr p7 .w32 (g 0) (g 0) b48, .shrI p7 b48 (g 0) 0#32,
    .shrI p7 (g 0) b48 0#32, .sar p7 .w32 (g 0) (g 0) (g 0), .sar p7 .i32 b48 (g 0) (g 0),
    .sar p7 .i32 (g 0) b48 (g 0), .sar p7 .i32 (g 0) (g 0) b48, .sarI p7 b48 (g 0) 0#32,
    .sarI p7 (g 0) b48 0#32, .rol p7 .i32 (g 0) (g 0) (g 0), .rol p7 .w32 b48 (g 0) (g 0),
    .rol p7 .w32 (g 0) b48 (g 0), .rol p7 .w32 (g 0) (g 0) b48, .rolI p7 b48 (g 0) 0#32,
    .rolI p7 (g 0) b48 0#32, .ror p7 .i32 (g 0) (g 0) (g 0), .ror p7 .w32 b48 (g 0) (g 0),
    .ror p7 .w32 (g 0) b48 (g 0), .ror p7 .w32 (g 0) (g 0) b48, .rorI p7 b48 (g 0) 0#32, .rorI p7 (g 0) b48 0#32] : List Instr).all (fun i => !i.wf) = true := by
  decide +kernel

theorem test_wf_refuses_integer_3 : ([
    .andG p7 .i32 (g 0) (g 0) (g 0), .andG p7 .w32 b48 (g 0) (g 0), .andG p7 .w32 (g 0) b48 (g 0),
    .andG p7 .w32 (g 0) (g 0) b48, .andI p7 b48 (g 0) 0#32, .andI p7 (g 0) b48 0#32,
    .orG p7 .i32 (g 0) (g 0) (g 0), .orG p7 .w32 b48 (g 0) (g 0), .orG p7 .w32 (g 0) b48 (g 0),
    .orG p7 .w32 (g 0) (g 0) b48, .orI p7 b48 (g 0) 0#32, .orI p7 (g 0) b48 0#32,
    .xorG p7 .i32 (g 0) (g 0) (g 0), .xorG p7 .w32 b48 (g 0) (g 0), .xorG p7 .w32 (g 0) b48 (g 0),
    .xorG p7 .w32 (g 0) (g 0) b48, .xorI p7 b48 (g 0) 0#32, .xorI p7 (g 0) b48 0#32,
    .andnG p7 .i32 (g 0) (g 0) (g 0), .andnG p7 .w32 b48 (g 0) (g 0), .andnG p7 .w32 (g 0) b48 (g 0),
    .andnG p7 .w32 (g 0) (g 0) b48, .andnI p7 b48 (g 0) 0#32, .andnI p7 (g 0) b48 0#32,
    .notG p7 .i32 (g 0) (g 0), .notG p7 .w32 b48 (g 0), .notG p7 .w32 (g 0) b48, .popc p7 .i32 (g 0) (g 0),
    .popc p7 .w32 b48 (g 0), .popc p7 .w32 (g 0) b48, .clz p7 .i32 (g 0) (g 0), .clz p7 .w32 b48 (g 0),
    .clz p7 .w32 (g 0) b48, .ctz p7 .i32 (g 0) (g 0), .ctz p7 .w32 b48 (g 0), .ctz p7 .w32 (g 0) b48,
    .brev p7 .i32 (g 0) (g 0), .brev p7 .w32 b48 (g 0), .brev p7 .w32 (g 0) b48,
    .bfx p7 .i16 (g 0) (g 0) (g 0) (g 0), .bfx p7 .w32 b48 (g 0) (g 0) (g 0),
    .bfx p7 .w32 (g 0) b48 (g 0) (g 0), .bfx p7 .w32 (g 0) (g 0) b48 (g 0), .bfx p7 .w32 (g 0) (g 0) (g 0) b48,
    .bfi p7 .i32 (g 0) (g 0) (g 0) (g 0), .bfi p7 .w32 b48 (g 0) (g 0) (g 0),
    .bfi p7 .w32 (g 0) b48 (g 0) (g 0), .bfi p7 .w32 (g 0) (g 0) b48 (g 0)] : List Instr).all (fun i => !i.wf) = true := by
  decide +kernel

theorem test_wf_refuses_integer_4 : ([
    .bfi p7 .w32 (g 0) (g 0) (g 0) b48, .lea p7 b48 (g 0) (g 0) (g 0), .lea p7 (g 0) b48 (g 0) (g 0),
    .lea p7 (g 0) (g 0) b48 (g 0), .lea p7 (g 0) (g 0) (g 0) b48, .mov p7 .i32 (g 0) (g 0),
    .mov p7 .w32 b48 (g 0), .mov p7 .w32 (g 0) b48, .movi p7 b48 0#32, .movh p7 b48 0#32,
    .sel p7 .i32 (g 0) (g 0) (g 0) (g 0), .sel p7 .w32 b48 (g 0) (g 0) (g 0),
    .sel p7 .w32 (g 0) b48 (g 0) (g 0), .sel p7 .w32 (g 0) (g 0) b48 (g 0), .sel p7 .w32 (g 0) (g 0) (g 0) b48,
    .icmp p7 .i16 .lt 0#3 (g 0) (g 0), .icmp p7 .w32 .lt 0#3 b48 (g 0), .icmp p7 .w32 .lt 0#3 (g 0) b48,
    .icmp p7 .w32 .un 0#3 (g 0) (g 0), .icmpI p7 .lt 0#3 b48 0#32, .icmpI p7 .un 0#3 (g 0) 0#32,
    .pset p7 .and b48 (g 0) (g 0), .pset p7 .and (g 0) b48 (g 0), .pset p7 .and (g 0) (g 0) b48,
    .pmov p7 (.get b48), .pmov p7 (.put b48)] : List Instr).all (fun i => !i.wf) = true := by
  decide +kernel

/-- Ill-formed terms of the float instructions: a type, a modifier or an operand that the entry does not admit. -/
theorem test_wf_refuses_float_1 : ([
    .fadd p7 .rne b48 (g 0) (g 0), .fadd p7 .rne (g 0) b48 (g 0), .fadd p7 .rne (g 0) (g 0) b48,
    .fsub p7 .rne b48 (g 0) (g 0), .fsub p7 .rne (g 0) b48 (g 0), .fsub p7 .rne (g 0) (g 0) b48,
    .fmul p7 .rne b48 (g 0) (g 0), .fmul p7 .rne (g 0) b48 (g 0), .fmul p7 .rne (g 0) (g 0) b48,
    .ffma p7 .rne b48 (g 0) (g 0) (g 0), .ffma p7 .rne (g 0) b48 (g 0) (g 0),
    .ffma p7 .rne (g 0) (g 0) b48 (g 0), .ffma p7 .rne (g 0) (g 0) (g 0) b48, .fmin p7 b48 (g 0) (g 0),
    .fmin p7 (g 0) b48 (g 0), .fmin p7 (g 0) (g 0) b48, .fmax p7 b48 (g 0) (g 0), .fmax p7 (g 0) b48 (g 0),
    .fmax p7 (g 0) (g 0) b48, .fcmp p7 .lt 0#3 b48 (g 0), .fcmp p7 .lt 0#3 (g 0) b48, .fclass p7 b48 (g 0),
    .fclass p7 (g 0) b48, .frnd p7 .rne b48 (g 0), .frnd p7 .rne (g 0) b48, .fscale p7 .rne b48 (g 0) (g 0),
    .fscale p7 .rne (g 0) b48 (g 0), .fscale p7 .rne (g 0) (g 0) b48, .hadd2 p7 .f32 .rne (g 0) (g 0) (g 0),
    .hadd2 p7 .f16 .rne b48 (g 0) (g 0), .hadd2 p7 .f16 .rne (g 0) b48 (g 0),
    .hadd2 p7 .f16 .rne (g 0) (g 0) b48, .hmul2 p7 .f32 .rne (g 0) (g 0) (g 0),
    .hmul2 p7 .f16 .rne b48 (g 0) (g 0), .hmul2 p7 .f16 .rne (g 0) b48 (g 0),
    .hmul2 p7 .f16 .rne (g 0) (g 0) b48, .hfma2 p7 .f32 .rne (g 0) (g 0) (g 0) (g 0),
    .hfma2 p7 .f16 .rne b48 (g 0) (g 0) (g 0), .hfma2 p7 .f16 .rne (g 0) b48 (g 0) (g 0),
    .hfma2 p7 .f16 .rne (g 0) (g 0) b48 (g 0), .hfma2 p7 .f16 .rne (g 0) (g 0) (g 0) b48,
    .fdot2 p7 .f32 .rne (g 0) (g 0) (g 0) (g 0), .fdot2 p7 .f16 .rne b48 (g 0) (g 0) (g 0),
    .fdot2 p7 .f16 .rne (g 0) b48 (g 0) (g 0), .fdot2 p7 .f16 .rne (g 0) (g 0) b48 (g 0),
    .fdot2 p7 .f16 .rne (g 0) (g 0) (g 0) b48, .fdot4 p7 .f16 .rne (g 0) (g 0) (g 0) (g 0),
    .fdot4 p7 .e4m3 .rne b48 (g 0) (g 0) (g 0)] : List Instr).all (fun i => !i.wf) = true := by
  decide +kernel

theorem test_wf_refuses_float_2 : ([
    .fdot4 p7 .e4m3 .rne (g 0) b48 (g 0) (g 0), .fdot4 p7 .e4m3 .rne (g 0) (g 0) b48 (g 0),
    .fdot4 p7 .e4m3 .rne (g 0) (g 0) (g 0) b48, .cvt p7 .f32 .bf16 .rne b48 (g 0),
    .cvt p7 .f32 .bf16 .rne (g 0) b48, .cvt p7 .cb2 .bf16 .rne (g 0) (g 0), .cvt p7 .f32 .cb2 .rne (g 0) (g 0),
    .cvtx p7 .f32 .rne (g 0) (g 0) (g 0), .cvtx p7 .bf16 .rne b48 (g 0) (g 0),
    .cvtx p7 .bf16 .rne (g 0) b48 (g 0), .cvtx p7 .bf16 .rne (g 0) (g 0) b48, .pack p7 .f32 (g 0) (g 0) (g 0),
    .pack p7 .i8 b48 (g 0) (g 0), .pack p7 .i8 (g 0) b48 (g 0), .pack p7 .i8 (g 0) (g 0) b48,
    .unpack p7 .f32 (g 0) (g 0) (g 0), .unpack p7 .i8 b48 (g 0) (g 0), .unpack p7 .i8 (g 0) b48 (g 0),
    .unpack p7 .i8 (g 0) (g 0) b48, .cbdec p7 b48 (g 0) (g 0), .cbdec p7 (g 0) b48 (g 0),
    .cbdec p7 (g 0) (g 0) b48, .exp2 p7 b48 (g 0), .exp2 p7 (g 0) b48, .log2 p7 b48 (g 0), .log2 p7 (g 0) b48,
    .rcp p7 b48 (g 0), .rcp p7 (g 0) b48, .rsq p7 b48 (g 0), .rsq p7 (g 0) b48, .sqrt p7 b48 (g 0),
    .sqrt p7 (g 0) b48, .sin p7 b48 (g 0), .sin p7 (g 0) b48, .cos p7 b48 (g 0), .cos p7 (g 0) b48,
    .tanh p7 b48 (g 0), .tanh p7 (g 0) b48] : List Instr).all (fun i => !i.wf) = true := by
  decide +kernel

/-- Ill-formed terms of the lane instructions: a type, a modifier or an operand that the entry does not admit. -/
theorem test_wf_refuses_lane_1 : ([
    .shfl p7 .idx b48 (g 0) (g 0), .shfl p7 .idx (g 0) b48 (g 0), .shfl p7 .idx (g 0) (g 0) b48,
    .vote p7 .all b48 (g 0), .vote p7 .all (g 0) b48, .redx p7 .i32 .add b48 (g 0),
    .redx p7 .i32 .add (g 0) b48, .redx p7 .i32 .fadd (g 0) (g 0), .redx p7 .f32 .add (g 0) (g 0),
    .redx p7 .i8 .add (g 0) (g 0), .scanx p7 .i32 .add false b48 (g 0), .scanx p7 .i32 .add false (g 0) b48,
    .scanx p7 .i32 .fadd false (g 0) (g 0), .scanx p7 .f32 .add false (g 0) (g 0),
    .scanx p7 .i8 .add false (g 0) (g 0), .bcst p7 .i32 (g 0) (g 0) (g 0), .bcst p7 .w32 b48 (g 0) (g 0),
    .bcst p7 .w32 (g 0) b48 (g 0), .bcst p7 .w32 (g 0) (g 0) b48] : List Instr).all (fun i => !i.wf) = true := by
  decide +kernel

/-- Ill-formed terms of the control instructions: a type, a modifier or an operand that the entry does not admit. -/
theorem test_wf_refuses_control_1 : ([
    .bra p7 4#32, .brx p7 b48 0#32, .brx p7 (g 0) 4#32, .call p7 4#32, .callx p7 b48 0#32,
    .callx p7 (g 0) 4#32, .yield p7 (.phase b48 (g 0)), .yield p7 (.phase (g 0) b48),
    .yield p7 (.wptr b48 (g 0)), .yield p7 (.wptr (g 0) b48)] : List Instr).all (fun i => !i.wf) = true := by
  decide +kernel

/-- Ill-formed terms of the memory instructions: a type, a modifier or an operand that the entry does not admit. -/
theorem test_wf_refuses_memory_1 : ([
    .ld p7 .cb2 0#3 (g 0) (g 0) (g 0), .ld p7 .w32 0#3 b48 (g 0) (g 0), .ld p7 .w32 0#3 (g 0) b48 (g 0),
    .ld p7 .w32 0#3 (g 0) (g 0) b48, .st p7 .cb2 (g 0) (g 0) (g 0), .st p7 .w32 b48 (g 0) (g 0),
    .st p7 .w32 (g 0) b48 (g 0), .st p7 .w32 (g 0) (g 0) b48, .ldl p7 .cb2 0#3 (g 0) (g 0) (g 0),
    .ldl p7 .w32 0#3 b48 (g 0) (g 0), .ldl p7 .w32 0#3 (g 0) b48 (g 0), .ldl p7 .w32 0#3 (g 0) (g 0) b48,
    .stl p7 .cb2 (g 0) (g 0) (g 0), .stl p7 .w32 b48 (g 0) (g 0), .stl p7 .w32 (g 0) b48 (g 0),
    .stl p7 .w32 (g 0) (g 0) b48, .ldp p7 .cb2 0#3 (g 0) (g 0) (g 0), .ldp p7 .w32 0#3 b48 (g 0) (g 0),
    .ldp p7 .w32 0#3 (g 0) b48 (g 0), .ldp p7 .w32 0#3 (g 0) (g 0) b48,
    .lda p7 .f16 .wg .plain 0#3 .global (g 0) (g 0) (g 0), .lda p7 .w32 .wg .plain 0#3 .global b48 (g 0) (g 0),
    .lda p7 .w32 .wg .plain 0#3 .global (g 0) b48 (g 0), .lda p7 .w32 .wg .plain 0#3 .global (g 0) (g 0) b48,
    .lda p7 .w32 .wg .rel 0#3 .global (g 0) (g 0) (g 0),
    .lda p7 .w32 .wg .acqrel 0#3 .global (g 0) (g 0) (g 0), .sta p7 .f16 .wg .plain .global (g 0) (g 0) (g 0),
    .sta p7 .w32 .wg .plain .global b48 (g 0) (g 0), .sta p7 .w32 .wg .plain .global (g 0) b48 (g 0),
    .sta p7 .w32 .wg .plain .global (g 0) (g 0) b48, .sta p7 .w32 .wg .acq .global (g 0) (g 0) (g 0),
    .sta p7 .w32 .wg .acqrel .global (g 0) (g 0) (g 0), .pref p7 b48 (g 0), .pref p7 (g 0) b48,
    .atomAdd p7 .i16 .wg .plain 0#3 .global (g 0) (g 0) (g 0),
    .atomAdd p7 .w32 .wg .plain 0#3 .global b48 (g 0) (g 0),
    .atomAdd p7 .w32 .wg .plain 0#3 .global (g 0) b48 (g 0),
    .atomAdd p7 .w32 .wg .plain 0#3 .global (g 0) (g 0) b48,
    .atomMin p7 .i16 .wg .plain 0#3 .global (g 0) (g 0) (g 0),
    .atomMin p7 .w32 .wg .plain 0#3 .global b48 (g 0) (g 0),
    .atomMin p7 .w32 .wg .plain 0#3 .global (g 0) b48 (g 0),
    .atomMin p7 .w32 .wg .plain 0#3 .global (g 0) (g 0) b48,
    .atomMax p7 .i16 .wg .plain 0#3 .global (g 0) (g 0) (g 0),
    .atomMax p7 .w32 .wg .plain 0#3 .global b48 (g 0) (g 0),
    .atomMax p7 .w32 .wg .plain 0#3 .global (g 0) b48 (g 0),
    .atomMax p7 .w32 .wg .plain 0#3 .global (g 0) (g 0) b48,
    .atomAnd p7 .i16 .wg .plain 0#3 .global (g 0) (g 0) (g 0),
    .atomAnd p7 .w32 .wg .plain 0#3 .global b48 (g 0) (g 0)] : List Instr).all (fun i => !i.wf) = true := by
  decide +kernel

theorem test_wf_refuses_memory_2 : ([
    .atomAnd p7 .w32 .wg .plain 0#3 .global (g 0) b48 (g 0),
    .atomAnd p7 .w32 .wg .plain 0#3 .global (g 0) (g 0) b48,
    .atomOr p7 .i16 .wg .plain 0#3 .global (g 0) (g 0) (g 0),
    .atomOr p7 .w32 .wg .plain 0#3 .global b48 (g 0) (g 0),
    .atomOr p7 .w32 .wg .plain 0#3 .global (g 0) b48 (g 0),
    .atomOr p7 .w32 .wg .plain 0#3 .global (g 0) (g 0) b48,
    .atomXor p7 .i16 .wg .plain 0#3 .global (g 0) (g 0) (g 0),
    .atomXor p7 .w32 .wg .plain 0#3 .global b48 (g 0) (g 0),
    .atomXor p7 .w32 .wg .plain 0#3 .global (g 0) b48 (g 0),
    .atomXor p7 .w32 .wg .plain 0#3 .global (g 0) (g 0) b48,
    .atomExch p7 .i16 .wg .plain 0#3 .global (g 0) (g 0) (g 0),
    .atomExch p7 .w32 .wg .plain 0#3 .global b48 (g 0) (g 0),
    .atomExch p7 .w32 .wg .plain 0#3 .global (g 0) b48 (g 0),
    .atomExch p7 .w32 .wg .plain 0#3 .global (g 0) (g 0) b48,
    .atomFadd p7 .wg .plain 0#3 .global b48 (g 0) (g 0), .atomFadd p7 .wg .plain 0#3 .global (g 0) b48 (g 0),
    .atomFadd p7 .wg .plain 0#3 .global (g 0) (g 0) b48,
    .cas p7 .i32 .wg .plain 0#3 .global (g 0) (g 0) (g 0) (g 0),
    .cas p7 .w32 .wg .plain 0#3 .global b48 (g 0) (g 0) (g 0),
    .cas p7 .w32 .wg .plain 0#3 .global (g 0) b48 (g 0) (g 0),
    .cas p7 .w32 .wg .plain 0#3 .global (g 0) (g 0) b48 (g 0),
    .cas p7 .w32 .wg .plain 0#3 .global (g 0) (g 0) (g 0) b48,
    .casw p7 .wg .plain 0#3 .global b48 (g 0) (g 0) (g 0),
    .casw p7 .wg .plain 0#3 .global (g 0) b48 (g 0) (g 0),
    .casw p7 .wg .plain 0#3 .global (g 0) (g 0) b48 (g 0),
    .casw p7 .wg .plain 0#3 .global (g 0) (g 0) (g 0) b48, .fence p7 .wg .plain, .twait p7 0#8, .tcnt p7 0#3 b48] : List Instr).all (fun i => !i.wf) = true := by
  decide +kernel

/-- Ill-formed terms of the sync instructions: a type, a modifier or an operand that the entry does not admit. -/
theorem test_wf_refuses_sync_1 : ([
    .binit p7 b48, .bexp p7 b48 (g 0) (g 0), .bexp p7 (g 0) b48 (g 0), .bexp p7 (g 0) (g 0) b48, .barv p7 b48,
    .btest p7 b48 (g 0), .btest p7 (g 0) b48, .bfree p7 b48, .ainit p7 b48 (g 0), .ainit p7 (g 0) b48,
    .apost p7 .add b48 (g 0) (g 0), .apost p7 .add (g 0) b48 (g 0), .apost p7 .add (g 0) (g 0) b48,
    .astep p7 b48 (g 0), .astep p7 (g 0) b48, .ares p7 b48] : List Instr).all (fun i => !i.wf) = true := by
  decide +kernel

/-- Ill-formed terms of the system instructions: a type, a modifier or an operand that the entry does not admit. -/
theorem test_wf_refuses_system_1 : ([
    .movs p7 b48 .aset, .movsw p7 .aset b48, .movsw p7 .tid (g 0), .movsw p7 .readfloor (g 0),
    .pkset p7 b48 (g 0), .pkset p7 (g 0) b48, .cancel p7 .job false b48, .enql p7 b48 (g 0),
    .enql p7 (g 0) b48, .evsig p7 b48 (g 0), .evsig p7 (g 0) b48, .ctrd p7 b48 (g 0), .ctrd p7 (g 0) b48] : List Instr).all (fun i => !i.wf) = true := by
  decide +kernel

/-- Ill-formed terms of the engine instructions: a type, a modifier or an operand that the entry does not admit. -/
theorem test_wf_refuses_engine_1 : ([
    .mma p7 .s0 .s0 0#3 b48, .mma16 p7 .s0 .s0 0#3 b48, .mzero p7 0#3 b48, .att p7 false false false 0#3 b48,
    .att p7 true true false 0#3 (g 0), .attfin p7 0#3 b48 (g 0), .attfin p7 0#3 (g 0) b48, .latw p7 0#3 b48,
    .kvlook p7 0#3 b48 (g 0), .kvlook p7 0#3 (g 0) b48, .kvapp p7 (.bar b48) (g 0), .kvapp p7 (.tok 0#3) b48,
    .kvfork p7 (.bar b48) (g 0), .kvfork p7 (.tok 0#3) b48, .kvcommit p7 (.bar b48) (g 0),
    .kvcommit p7 (.tok 0#3) b48, .topk p7 (.bar b48) (g 0), .topk p7 (.tok 0#3) b48, .cpy p7 (.bar b48) (g 0),
    .cpy p7 (.tok 0#3) b48, .cpyt p7 false (.bar b48) (g 0), .cpyt p7 false (.tok 0#3) b48,
    .cpyc p7 (.bar b48) (g 0), .cpyc p7 (.tok 0#3) b48, .cpyg p7 (.bar b48) (g 0), .cpyg p7 (.tok 0#3) b48,
    .cpys p7 (.bar b48) (g 0), .cpys p7 (.tok 0#3) b48, .chwp p7 b48 (g 0), .chwp p7 (g 0) b48,
    .rngsnd p7 false 0#3 b48, .rngrcv p7 false (.bar b48) (g 0), .rngrcv p7 false (.tok 0#3) b48] : List Instr).all (fun i => !i.wf) = true := by
  decide +kernel

/-- One well-formed term of each instruction that stands in words. -/
theorem test_wf_admits_1 : ([
    .iadd p7 .w32 (g 0) (g 0) (g 0), .iaddI p7 (g 0) (g 0) 0#32, .isub p7 .w32 (g 0) (g 0) (g 0),
    .isubI p7 (g 0) (g 0) 0#32, .iaddc p7 .w32 (g 0) (g 0) (g 0) (g 0), .imul p7 .w32 (g 0) (g 0) (g 0),
    .imulI p7 (g 0) (g 0) 0#32, .imulh p7 .w32 (g 0) (g 0) (g 0), .imad p7 .w32 (g 0) (g 0) (g 0) (g 0),
    .idot4 p7 .i8 (g 0) (g 0) (g 0) (g 0), .idiv p7 .w32 (g 0) (g 0) (g 0), .irem p7 .w32 (g 0) (g 0) (g 0),
    .imin p7 .w32 (g 0) (g 0) (g 0), .iminI p7 (g 0) (g 0) 0#32, .imax p7 .w32 (g 0) (g 0) (g 0),
    .imaxI p7 (g 0) (g 0) 0#32, .iabs p7 .i32 (g 0) (g 0), .ineg p7 .i32 (g 0) (g 0), .isat p7 .i8 (g 0) (g 0),
    .shl p7 .w32 (g 0) (g 0) (g 0), .shlI p7 (g 0) (g 0) 0#32, .shr p7 .w32 (g 0) (g 0) (g 0),
    .shrI p7 (g 0) (g 0) 0#32, .sar p7 .i32 (g 0) (g 0) (g 0), .sarI p7 (g 0) (g 0) 0#32,
    .rol p7 .w32 (g 0) (g 0) (g 0), .rolI p7 (g 0) (g 0) 0#32, .ror p7 .w32 (g 0) (g 0) (g 0),
    .rorI p7 (g 0) (g 0) 0#32, .andG p7 .w32 (g 0) (g 0) (g 0), .andI p7 (g 0) (g 0) 0#32,
    .orG p7 .w32 (g 0) (g 0) (g 0), .orI p7 (g 0) (g 0) 0#32, .xorG p7 .w32 (g 0) (g 0) (g 0),
    .xorI p7 (g 0) (g 0) 0#32, .andnG p7 .w32 (g 0) (g 0) (g 0), .andnI p7 (g 0) (g 0) 0#32,
    .notG p7 .w32 (g 0) (g 0), .popc p7 .w32 (g 0) (g 0), .clz p7 .w32 (g 0) (g 0), .ctz p7 .w32 (g 0) (g 0),
    .brev p7 .w32 (g 0) (g 0), .bfx p7 .w32 (g 0) (g 0) (g 0) (g 0), .bfi p7 .w32 (g 0) (g 0) (g 0) (g 0),
    .lea p7 (g 0) (g 0) (g 0) (g 0), .mov p7 .w32 (g 0) (g 0), .movi p7 (g 0) 0#32, .movh p7 (g 0) 0#32] : List Instr).all (fun i => i.wf) = true := by
  decide +kernel

theorem test_wf_admits_2 : ([
    .sel p7 .w32 (g 0) (g 0) (g 0) (g 0), .icmp p7 .w32 .lt 0#3 (g 0) (g 0), .icmpI p7 .lt 0#3 (g 0) 0#32,
    .pset p7 .and (g 0) (g 0) (g 0), .pmov p7 (.get (g 0)), .fadd p7 .rne (g 0) (g 0) (g 0),
    .fsub p7 .rne (g 0) (g 0) (g 0), .fmul p7 .rne (g 0) (g 0) (g 0), .ffma p7 .rne (g 0) (g 0) (g 0) (g 0),
    .fmin p7 (g 0) (g 0) (g 0), .fmax p7 (g 0) (g 0) (g 0), .fcmp p7 .lt 0#3 (g 0) (g 0),
    .fclass p7 (g 0) (g 0), .frnd p7 .rne (g 0) (g 0), .fscale p7 .rne (g 0) (g 0) (g 0),
    .hadd2 p7 .f16 .rne (g 0) (g 0) (g 0), .hmul2 p7 .f16 .rne (g 0) (g 0) (g 0),
    .hfma2 p7 .f16 .rne (g 0) (g 0) (g 0) (g 0), .fdot2 p7 .f16 .rne (g 0) (g 0) (g 0) (g 0),
    .fdot4 p7 .e4m3 .rne (g 0) (g 0) (g 0) (g 0), .cvt p7 .f32 .bf16 .rne (g 0) (g 0),
    .cvtx p7 .bf16 .rne (g 0) (g 0) (g 0), .pack p7 .i8 (g 0) (g 0) (g 0), .unpack p7 .i8 (g 0) (g 0) (g 0),
    .cbdec p7 (g 0) (g 0) (g 0), .exp2 p7 (g 0) (g 0), .log2 p7 (g 0) (g 0), .rcp p7 (g 0) (g 0),
    .rsq p7 (g 0) (g 0), .sqrt p7 (g 0) (g 0), .sin p7 (g 0) (g 0), .cos p7 (g 0) (g 0), .tanh p7 (g 0) (g 0),
    .shfl p7 .idx (g 0) (g 0) (g 0), .vote p7 .all (g 0) (g 0), .redx p7 .i32 .add (g 0) (g 0),
    .scanx p7 .i32 .add false (g 0) (g 0), .bcst p7 .w32 (g 0) (g 0) (g 0), .bra p7 0#32, .brx p7 (g 0) 0#32,
    .call p7 0#32, .callx p7 (g 0) 0#32, .ret p7, .exit p7, .yield p7 (.token 0#3), .trap p7 0#32, .tret p7,
    .brk p7 0#32] : List Instr).all (fun i => i.wf) = true := by
  decide +kernel

theorem test_wf_admits_3 : ([
    .nop p7, .ld p7 .w32 0#3 (g 0) (g 0) (g 0), .st p7 .w32 (g 0) (g 0) (g 0),
    .ldl p7 .w32 0#3 (g 0) (g 0) (g 0), .stl p7 .w32 (g 0) (g 0) (g 0), .ldp p7 .w32 0#3 (g 0) (g 0) (g 0),
    .lda p7 .w32 .wg .plain 0#3 .global (g 0) (g 0) (g 0), .sta p7 .w32 .wg .plain .global (g 0) (g 0) (g 0),
    .pref p7 (g 0) (g 0), .atomAdd p7 .w32 .wg .plain 0#3 .global (g 0) (g 0) (g 0),
    .atomMin p7 .w32 .wg .plain 0#3 .global (g 0) (g 0) (g 0),
    .atomMax p7 .w32 .wg .plain 0#3 .global (g 0) (g 0) (g 0),
    .atomAnd p7 .w32 .wg .plain 0#3 .global (g 0) (g 0) (g 0),
    .atomOr p7 .w32 .wg .plain 0#3 .global (g 0) (g 0) (g 0),
    .atomXor p7 .w32 .wg .plain 0#3 .global (g 0) (g 0) (g 0),
    .atomExch p7 .w32 .wg .plain 0#3 .global (g 0) (g 0) (g 0),
    .atomFadd p7 .wg .plain 0#3 .global (g 0) (g 0) (g 0),
    .cas p7 .w32 .wg .plain 0#3 .global (g 0) (g 0) (g 0) (g 0),
    .casw p7 .wg .plain 0#3 .global (g 0) (g 0) (g 0) (g 0), .fence p7 .wg .rel, .twait p7 1#8,
    .tcnt p7 0#3 (g 0), .binit p7 (g 0), .bexp p7 (g 0) (g 0) (g 0), .barv p7 (g 0), .btest p7 (g 0) (g 0),
    .bfree p7 (g 0), .ainit p7 (g 0) (g 0), .apost p7 .add (g 0) (g 0) (g 0), .astep p7 (g 0) (g 0),
    .ares p7 (g 0), .movs p7 (g 0) .aset, .movsw p7 .aset (g 0), .pkset p7 (g 0) (g 0),
    .cancel p7 .job false (g 0), .enql p7 (g 0) (g 0), .evsig p7 (g 0) (g 0), .ctrd p7 (g 0) (g 0),
    .mma p7 .s0 .s0 0#3 (g 0), .mma16 p7 .s0 .s0 0#3 (g 0), .mopf p7, .mzero p7 0#3 (g 0),
    .att p7 false false false 0#3 (g 0), .attfin p7 0#3 (g 0) (g 0), .latw p7 0#3 (g 0),
    .kvlook p7 0#3 (g 0) (g 0), .kvapp p7 (.tok 0#3) (g 0), .kvfork p7 (.tok 0#3) (g 0)] : List Instr).all (fun i => i.wf) = true := by
  decide +kernel

theorem test_wf_admits_4 : ([
    .kvcommit p7 (.tok 0#3) (g 0), .topk p7 (.tok 0#3) (g 0), .cpy p7 (.tok 0#3) (g 0),
    .cpyt p7 false (.tok 0#3) (g 0), .cpyc p7 (.tok 0#3) (g 0), .cpyg p7 (.tok 0#3) (g 0),
    .cpys p7 (.tok 0#3) (g 0), .chwp p7 (g 0) (g 0), .rngsnd p7 false 0#3 (g 0),
    .rngrcv p7 false (.tok 0#3) (g 0)] : List Instr).all (fun i => i.wf) = true := by
  decide +kernel

/-! Single instructions. -/

/-- The register and the status word of the lane after an instruction, its registers as given. -/
def outcome (i : Instr) (regs : List (Nat × Word)) (d : Nat) : Option (Word × Word) :=
  (nextOf (exec i (stage i fun t => { t with regs := regs }))).map fun s =>
    (Map.get 0#32 (s.thread lane0).regs d, (s.thread lane0).status)

/-- -7 / 2 (spec/10_arithmetic_notes.md, R128). -/
theorem test_idiv_negative : outcome (.idiv p7 .i32 (g 4) (g 1) (g 2)) [(1, 0xFFFFFFF9#32), (2, 0x2#32)] 4 = some (0xFFFFFFFD#32, 0x0#32) := by
  decide +kernel

/-- 7 / 0 (spec/10_arithmetic_notes.md, R128). -/
theorem test_idiv_zero : outcome (.idiv p7 .i32 (g 4) (g 1) (g 2)) [(1, 0x7#32)] 4 = some (0xFFFFFFFF#32, 0x2#32) := by
  decide +kernel

/-- The one quotient that overflows (spec/10_arithmetic_notes.md, R128). -/
theorem test_idiv_overflow : outcome (.idiv p7 .i32 (g 4) (g 1) (g 2)) [(1, 0x80000000#32), (2, 0xFFFFFFFF#32)] 4 = some (0x80000000#32, 0x4#32) := by
  decide +kernel

/-- The same operands unsigned (spec/10_arithmetic_notes.md, R128). -/
theorem test_irem_unsigned : outcome (.irem p7 .w32 (g 4) (g 1) (g 2)) [(1, 0x80000000#32), (2, 0xFFFFFFFF#32)] 4 = some (0x80000000#32, 0x0#32) := by
  decide +kernel

/-- A sum that wraps sets no bit (spec/10_arithmetic_notes.md, R125). -/
theorem test_iadd_wraps : outcome (.iadd p7 .i32 (g 4) (g 1) (g 2)) [(1, 0x7FFFFFFF#32), (2, 0x1#32)] 4 = some (0x80000000#32, 0x0#32) := by
  decide +kernel

/-- (spec/10_arithmetic_notes.md, R129). -/
theorem test_iabs_overflow : outcome (.iabs p7 .i32 (g 4) (g 1)) [(1, 0x80000000#32)] 4 = some (0x80000000#32, 0x4#32) := by
  decide +kernel

/-- -200 clamped to 8 bits (spec/10_arithmetic_notes.md, R129). -/
theorem test_isat_signed : outcome (.isat p7 .i8 (g 4) (g 1)) [(1, 0xFFFFFF38#32)] 4 = some (0xFFFFFF80#32, 0x4#32) := by
  decide +kernel

/-- 300 clamped to 8 bits (spec/10_arithmetic_notes.md, R129). -/
theorem test_isat_unsigned : outcome (.isat p7 .w8 (g 4) (g 1)) [(1, 0x12C#32)] 4 = some (0xFF#32, 0x4#32) := by
  decide +kernel

/-- (spec/10_arithmetic_notes.md, R140). -/
theorem test_fmin_drops_nan : outcome (.fmin p7 (g 4) (g 1) (g 2)) [(1, 0x3F800000#32), (2, 0x7FC01234#32)] 4 = some (0x3F800000#32, 0x0#32) := by
  decide +kernel

/-- (spec/10_arithmetic_notes.md, R139). -/
theorem test_fadd_propagates_nan : outcome (.fadd p7 .rne (g 4) (g 1) (g 2)) [(1, 0x3F800000#32), (2, 0x7FC01234#32)] 4 = some (0x7FC00000#32, 0x0#32) := by
  decide +kernel

/-- -0 is below +0 (spec/10_arithmetic_notes.md, R140). -/
theorem test_fmin_signed_zero : outcome (.fmin p7 (g 4) (g 1) (g 2)) [(1, 0x80000000#32)] 4 = some (0x80000000#32, 0x0#32) := by
  decide +kernel

/-- Two NaNs (spec/10_arithmetic_notes.md, R140). -/
theorem test_fmax_nans : outcome (.fmax p7 (g 4) (g 1) (g 2)) [(1, 0x7F800001#32), (2, 0xFFC00000#32)] 4 = some (0x7FC00000#32, 0x0#32) := by
  decide +kernel

/-- 464.0 to E4M3 (spec/08_number_notes.md, R104). -/
theorem test_cvt_e4m3_tie : outcome (.cvt p7 .e4m3 .f32 .rne (g 4) (g 1)) [(1, 0x43E80000#32)] 4 = some (0x7E#32, 0x10#32) := by
  decide +kernel

/-- 480.0 to E4M3 (spec/08_number_notes.md, R109). -/
theorem test_cvt_e4m3_limit : outcome (.cvt p7 .e4m3 .f32 .rne (g 4) (g 1)) [(1, 0x43F00000#32)] 4 = some (0x7E#32, 0x14#32) := by
  decide +kernel

/-- 61,440.0 to E5M2 (spec/08_number_notes.md, R104). -/
theorem test_cvt_e5m2_infinity : outcome (.cvt p7 .e5m2 .f32 .rne (g 4) (g 1)) [(1, 0x47700000#32)] 4 = some (0x7C#32, 0x14#32) := by
  decide +kernel

/-- The same toward zero (spec/08_number_notes.md, R105). -/
theorem test_cvt_e5m2_directed : outcome (.cvt p7 .e5m2 .f32 .rz (g 4) (g 1)) [(1, 0x47700000#32)] 4 = some (0x7B#32, 0x14#32) := by
  decide +kernel

/-- 2^-10 to E4M3 (spec/08_number_notes.md, R96). -/
theorem test_cvt_e4m3_tiny : outcome (.cvt p7 .e4m3 .f32 .rne (g 4) (g 1)) [(1, 0x3A800000#32)] 4 = some (0x0#32, 0x18#32) := by
  decide +kernel

/-- -NaN to E4M3 (spec/08_number_notes.md, R95). -/
theorem test_cvt_nan_keeps_sign : outcome (.cvt p7 .e4m3 .f32 .rne (g 4) (g 1)) [(1, 0xFFC00000#32)] 4 = some (0xFF#32, 0x0#32) := by
  decide +kernel

/-- (spec/08_number_notes.md, R104). -/
theorem test_cvt_bf16_tie : outcome (.cvt p7 .bf16 .f32 .rne (g 4) (g 1)) [(1, 0x3F818000#32)] 4 = some (0x3F82#32, 0x10#32) := by
  decide +kernel

/-- (spec/08_number_notes.md, R108). -/
theorem test_cvt_nan_to_integer : outcome (.cvt p7 .i32 .f32 .rne (g 4) (g 1)) [(1, 0x7FC00000#32)] 4 = some (0x0#32, 0x1#32) := by
  decide +kernel

/-- The stochastic register after the seed of the spec's example, and its first draw (R106, R107, spec/10). -/
theorem test_cvt_stochastic :
    ((nextOf (exec (.cvt p7 .bf16 .f32 .rs (g 5) (g 1)) (stage (.cvt p7 .bf16 .f32 .rs (g 5) (g 1)) fun t =>
      { t with regs := [(1, 0x3F80C000#32)], lfsr := lfsrSeed 1 0 0 }))).map fun s =>
        (Map.get 0#32 (s.thread lane0).regs 5, (s.thread lane0).lfsr)) = some (0x3F81#32, 0x4F1BBCDC#32) := by
  decide +kernel

/-- A guard that is false: nothing is written, nothing drawn (R55, R107). -/
theorem test_guard_false :
    outcome (.cvt ⟨2#3, false⟩ .bf16 .f32 .rs (g 5) (g 1)) [(1, 0x3F80C000#32)] 5 = some (0#32, 0#32) := by
  decide +kernel

/-- A word with a wrong size field of a constant is refused, not read as a neighbour (R63). -/
theorem test_decode_table_word :
    decodeTableWord 64 0x08B80800CB001800 = some (.shr p7 .w32 (g 4) (g 0) (.c 6#6)) ∧
      decodeTableWord 64 0xFFC0000000000000 = none := by
  decide +kernel

/-- A step of the machine that holds a word runs it. -/
theorem test_step_runs_the_word :
    ((nextOf (step (State.reset.withFetchWord 64 0x14F8000000000005))).map fun s =>
      Map.get 0#32 (s.thread lane0).regs 0) = some 5#32 := by
  decide +kernel

end Sys2Proof.Tests
end

