-- ==== Sys2Proof/Tests/Witness1.lean ====
section
/-! SUPPORT. Witnesses: for every statement with premises, states and operands that meet all of them together
(accesses, traps and control). -/

namespace Sys2Proof.Tests

open Sys2Proof Sys2Proof.Machine Sys2Proof.Spec

set_option Elab.async false
set_option linter.unusedVariables false

/-! Accesses (R177 to R194). -/

def ldI : Instr := .ld p7 .w32 1#3 (g 8) (g 2) (.c 0#6)
def ldM : MemOp := ⟨.global, false, .read, .w32, false, some 1, .wg, .plain, g 8, g 2, .c 0#6, .c 0#6⟩
def ldS : State := stage ldI (addr 0x30000)
def ldT : State × XRes := (atSlot ldS ldM lane0).coreAccess lane0 .read 0x30000

theorem witness_LoadsIssue_1 : ∃ (i : Instr) (m : MemOp) (s : State) (g : Group) (l : LaneRef) (s1 : State) (p
    : Place), (One s g i (guardOf i) l) ∧ (passes s m l) ∧ (reaches s m l s1 p) ∧ (memOp i = some m) ∧ (m.kind
    = .read) ∧ (m.param = false) ∧ (i.wf = true) :=
  ⟨ldI, ldM, ldS, group0 (wordOf ldI), lane0, ldT.1, placeAt 0x30000, one_of (by decide +kernel), passes_of
      (by decide +kernel), reaches_global 0x101000 rfl (by decide +kernel) rfl, by decide +kernel⟩

def ldlI : Instr := .ldl p7 .i64 7#3 (g 8) (g 2) (.c 0#6)
def ldlM : MemOp := ⟨.loft, false, .read, .i64, false, some 7, .wg, .plain, g 8, g 2, .c 0#6, .c 0#6⟩
def ldlS : State := stage ldlI (addr 4088)

/-- The last eight bytes of a loft. -/
theorem witness_LoadsIssue_1_loft : ∃ (i : Instr) (m : MemOp) (s : State) (g : Group) (l : LaneRef) (s1 :
    State) (p : Place), (One s g i (guardOf i) l) ∧ (passes s m l) ∧ (reaches s m l s1 p) ∧ (memOp i = some m)
    ∧ (m.kind = .read) ∧ (m.param = false) ∧ (i.wf = true) :=
  ⟨ldlI, ldlM, ldlS, group0 (wordOf ldlI), lane0, atSlot ldlS ldlM lane0, inLoft (address ldlS ldlM lane0),
      one_of (by decide +kernel), passes_of (by decide +kernel), reaches_loft (wgOf ldlS) rfl
      (by decide +kernel), by decide +kernel⟩

/-! Protected pairs (R349, R350). -/

/-- The slot of a protected pair; each of its threads is as given. -/
def twinG (w : Dword) : Group := { (group0 w) with lanes := [lane0, mate lane0] }
def twinS (i : Instr) (f h : Thread → Thread) : State :=
  let s : State := stage i f
  let s : State := { s with launches := s.launches.map fun k : Launch =>
    { k with rcd := { k.rcd with prot := true } } }
  (s.setBay 0 0 fun y => { y with port := some (twinG (wordOf i)) }).setThread (mate lane0) h
def twinL : Launch := { launch0 with rcd := { launch0.rcd with prot := true } }
def ldP : State := twinS ldI (addr 0x30000) (addr 0x30000)
def ldPT : State × XRes := (atPair ldP ldM lane0).coreAccess lane0 .read 0x30000
/-- The addresses differ, and the queue of the physical function is full. -/
def ldQ : State :=
  let s : State := twinS ldI (addr 0x30000) (addr 0x30004)
  { s with pf := { s.pf with nq := { s.pf.nq with head := 2 ^ s.pf.nq.size, tail := 0 } } }

theorem witness_LoadsIssue_2 : ∃ (i : Instr) (m : MemOp) (s : State) (g : Group) (l : LaneRef) (s1 : State) (p
    : Place) (q : Nat), (Pair s g i (guardOf i) l) ∧ (passes s m l) ∧ (passes s m (mate l)) ∧ ((atPair s m
    l).coreAccess l .read (address s m l) = (s1, .ok p q)) ∧ (memOp i = some m) ∧ (m.kind = .read) ∧ (m.param =
    false) ∧ (m.sp = .global) ∧ (i.wf = true) ∧ (address s m (mate l) = address s m l) ∧ (address s m l %
    lengthOf m = 0) ∧ (s1.halt = none) :=
  ⟨ldI, ldM, ldP, twinG (wordOf ldI), lane0, ldPT.1, placeAt 0x30000, 0x101000, pair2_of (by decide +kernel),
      passes_of (by decide +kernel), passes_of (by decide +kernel), pair_of (by decide +kernel),
      by decide +kernel⟩

theorem witness_LoadsIssue_3 : ∃ (i : Instr) (m : MemOp) (s : State) (g : Group) (l : LaneRef) (k : Launch),
    (Pair s g i (guardOf i) l) ∧ (passes s m l) ∧ (passes s m (mate l)) ∧ (memOp i = some m) ∧ ((m.kind = .read
    ∨ m.kind = .write)) ∧ (m.param = false) ∧ (i.wf = true) ∧ ((address s m (mate l) ≠ address s m l ∨ (m.kind
    = .write ∧ carried s m (mate l) m.d ≠ carried s m l m.d))) ∧ (s.launchOf? l.wg = some k) ∧ (k.repl = false)
    ∧ (k.status = .done) ∧ ((s.pf.nq.head + 2 ^ 32 - s.pf.nq.tail) % 2 ^ 32 = 2 ^ s.pf.nq.size) :=
  ⟨ldI, ldM, ldQ, twinG (wordOf ldI), lane0, twinL, pair2_of (by decide +kernel), passes_of
      (by decide +kernel), passes_of (by decide +kernel), by decide +kernel⟩

def staI : Instr := .sta p7 .w32 .sys .rel .global (g 8) (g 2) (.c 0#6)
def staM : MemOp := ⟨.global, false, .write, .w32, false, none, .sys, .rel, g 8, g 2, .c 0#6, .c 0#6⟩
def staS : State := stage staI (addr 0x30000)
def staT : State × XRes := (atSlot staS staM lane0).coreAccess lane0 .write 0x30000

theorem witness_StoresIssue : ∃ (i : Instr) (m : MemOp) (s : State) (g : Group) (l : LaneRef) (s1 : State) (p :
    Place), (One s g i (guardOf i) l) ∧ (passes s m l) ∧ (reaches s m l s1 p) ∧ (memOp i = some m) ∧ (m.kind =
    .write) ∧ (i.wf = true) :=
  ⟨staI, staM, staS, group0 (wordOf staI), lane0, staT.1, placeAt 0x30000, one_of (by decide +kernel),
      passes_of (by decide +kernel), reaches_global 0x101000 rfl (by decide +kernel) rfl, by decide +kernel⟩

def casI : Instr := .cas p7 .w32 .wg .plain 0#3 .loft (g 8) (g 2) (.c 0#6) (g 9)
def casM : MemOp := ⟨.loft, false, .rmw, .w32, false, some 0, .wg, .plain, g 8, g 2, .c 0#6, g 9⟩
def casS : State := stage casI (addr 64)

theorem witness_LoftAtomics : ∃ (i : Instr) (m : MemOp) (s : State) (g : Group) (l : LaneRef) (s1 : State) (p :
    Place) (w : Workgroup), (One s g i (guardOf i) l) ∧ (passes s m l) ∧ (reaches s m l s1 p) ∧ (quiet s l) ∧
    (memOp i = some m) ∧ (m.kind = .rmw) ∧ (m.sp = .loft) ∧ (i.wf = true) ∧ (s.wg? l.wg = some w) :=
  ⟨casI, casM, casS, group0 (wordOf casI), lane0, atSlot casS casM lane0, inLoft (address casS casM lane0),
      wgOf casS, one_of (by decide +kernel), passes_of (by decide +kernel), reaches_loft (wgOf casS) rfl
      (by decide +kernel), quiet_of (by decide +kernel), by decide +kernel⟩

def atomI : Instr := .atomAdd p7 .w32 .dev .acqrel 0#3 .global (g 8) (g 2) (.c 0#6)
def atomM : MemOp := ⟨.global, false, .rmw, .w32, false, some 0, .dev, .acqrel, g 8, g 2, .c 0#6, .c 0#6⟩
def atomS : State := stage atomI (addr 0x30000)
def atomT : State × XRes := (atSlot atomS atomM lane0).coreAccess lane0 .rmw 0x30000

theorem witness_GlobalAtomics : ∃ (i : Instr) (m : MemOp) (s : State) (g : Group) (l : LaneRef) (s1 : State) (p
    : Place), (One s g i (guardOf i) l) ∧ (passes s m l) ∧ (reaches s m l s1 p) ∧ (quiet s l) ∧ (noBitmap s l)
    ∧ (leafFit s1 p) ∧ (memOp i = some m) ∧ (m.kind = .rmw) ∧ (m.sp = .global) ∧ (i.wf = true) ∧ (s1.deadLink
    p.addr = false) ∧ (Map.get false s1.helped (p.addr / 32) = false) ∧ (s1.badSectors p.addr (lengthOf m) =
    []) :=
  ⟨atomI, atomM, atomS, group0 (wordOf atomI), lane0, atomT.1, placeAt 0x30000, one_of (by decide +kernel),
      passes_of (by decide +kernel), reaches_global 0x101000 rfl (by decide +kernel) rfl, quiet_of
      (by decide +kernel), some_all (by decide +kernel), leafFit_of (by decide +kernel), by decide +kernel⟩

def ldpI : Instr := .ldp p7 .w64 1#3 (g 20) (g 2) (.c 0#6)
def ldpM : MemOp := ⟨.loft, true, .read, .w64, false, some 1, .wg, .plain, g 20, g 2, .c 0#6, .c 0#6⟩
def ldpS : State := stage ldpI (addr 56)
def ldpT : State × XRes := (atSlot ldpS ldpM lane0).coreAccess lane0 .read (0x30000 + 56)

/-- The last word of the parameter block. -/
theorem witness_ParameterLoadsAndPrefetch_1 : ∃ (gd : Guard) (ty : Ty) (k : BitVec 3) (d a b : Opnd) (m :
    MemOp) (s : State) (g : Group) (l : LaneRef) (n : Launch) (s1 : State) (p : Place) (q : Nat), (One s g
    (.ldp gd ty k d a b) gd l) ∧ (passes s m l) ∧ (quiet s l) ∧ ((atSlot s m l).coreAccess l .read (n.rcd.param
    + address s m l) = (s1, .ok p q)) ∧ (memOp (.ldp gd ty k d a b) = some m) ∧ ((Instr.ldp gd ty k d a b).wf =
    true) ∧ (s.launchOf? l.wg = some n) ∧ (address s m l < 2 ^ 31) ∧ (address s m l % lengthOf m = 0) ∧
    (address s m l + lengthOf m ≤ n.rcd.plen) ∧ (s1.halt = none) ∧ (s1.badSectors p.addr (lengthOf m) = []) ∧
    (s1.pubOf p.addr (lengthOf m) ≤ n.admitted) :=
  ⟨p7, .w64, 1#3, g 20, g 2, .c 0#6, ldpM, ldpS, group0 (wordOf ldpI), lane0, launch0, ldpT.1, placeAt (0x30000
      + 56), 0x101000, one_of (by decide +kernel), passes_of (by decide +kernel), quiet_of (by decide +kernel),
      pair_of (by decide +kernel), by decide +kernel⟩

def prefS : State := stage (.pref p7 (g 2) (.c 0#6)) (addr 0x30000)
def prefT : State × XRes :=
  ({ prefS with fresh := prefS.fresh + 1 }.taint [lane0] [g 2, .c 0#6]).coreAccess lane0 .read
    (reads64 prefS (g 2) lane0 + (reads prefS (.c 0#6) lane0).signExtend 64).toNat

theorem witness_ParameterLoadsAndPrefetch_2 : ∃ (gd : Guard) (a b : Opnd) (s : State) (g : Group) (l : LaneRef)
    (s1 : State) (r : XRes), (One s g (.pref gd a b) gd l) ∧ (({ s with fresh := s.fresh + 1 }.taint [l] [a,
    b]).coreAccess l .read (reads64 s a l + (reads s b l).signExtend 64).toNat = (s1, r)) ∧ (s1.halt = none) :=
  ⟨p7, g 2, .c 0#6, prefS, group0 (wordOf (.pref p7 (g 2) (.c 0#6))), lane0, prefT.1, prefT.2, one_of
      (by decide +kernel), (Prod.mk.eta (p := prefT)).symm, by decide +kernel⟩

/-- A load and a store on their way, in memory and in the loft. -/
def load0 : PendingLoad :=
  { id := 0, issue := 0, lane := lane0, launch := 1, core := 0, kind := .reg 8 .w32, tok := some 1, len := 4
    place := placeAt 0x30000, floor := 0, acq := true, served := some ([1#8, 2#8, 3#8, 4#8], 0), long := false, atomic := false }
def store0 : PendingStore :=
  { id := 0, issue := 0, lane := lane0, launch := 1, core := 0, place := placeAt 0x30000, va := 0x30000, data := [1#8, 2#8]
    scope := .sys, cmd := none, tok := none, bad := false }
def quietS : State := stage (.nop p7)
def loadS : State := { quietS with loads := [load0] }
def load1 : PendingLoad := { load0 with served := none, place := { placeAt 0x30000 with cls := .uncached } }
def loadS1 : State := { quietS with loads := [load1] }
def storeS : State := { quietS with stores := [store0] }
def store1 : PendingStore := { store0 with place := inLoft 4094 }
def storeS1 : State := { quietS with stores := [store1] }

theorem witness_LoadsLand_1 : ∃ (s : State) (p : PendingLoad) (data : List Byte) (pub : Nat), (Inv s) ∧ (s.halt
    = none) ∧ (s.loads.find? (fun q => q.id == p.id) = some p) ∧ (p.served = some (data, pub)) ∧ (data ≠ []) ∧
    (s.prot p.lane.wg = false) ∧ ((s.thread p.lane).life ≠ .absent) :=
  ⟨loadS, load0, [1#8, 2#8, 3#8, 4#8], 0, inv_of (by decide +kernel), by decide +kernel⟩

theorem witness_LoadsLand_2 : ∃ (s : State) (p : PendingLoad), (Inv s) ∧ (s.halt = none) ∧ (s.loads.find? (fun
    q => q.id == p.id) = some p) ∧ (p.served = none) ∧ (p.place.loft = false) ∧ ((p.place.cls = .priv ∨
    p.place.cls = .uncached)) ∧ (0 < p.len) ∧ (gate s p.place.addr = .ok) ∧ (s.older p.touch p.id = []) ∧
    (s.badSectors p.place.addr p.len = []) ∧ (s.prot p.lane.wg = false) ∧ ((s.thread p.lane).life ≠ .absent) :=
  ⟨loadS1, load1, inv_of (by decide +kernel), by decide +kernel⟩

theorem witness_StoresPerformed_1 : ∃ (s : State) (q : PendingStore), (Inv s) ∧ ((∀ a, q.place.addr / 32 ≤ a →
    a ≤ (q.place.addr + q.data.length - 1) / 32 → s.sectorBad a = false)) ∧ ((∀ k, s.launch? q.launch = some k
    → k.ctx.dbm = 0)) ∧ (leafFit s q.place) ∧ (s.halt = none) ∧ (s.stores.find? (fun r => r.id == q.id) = some
    q) ∧ (q.place.loft = false) ∧ (gate s q.place.addr = .ok) ∧ (paExists q.place.addr = true) ∧ (q.data ≠ [])
    ∧ (s.older q.touch q.id = []) :=
  ⟨storeS, store0, inv_of (by decide +kernel), fun a h1 h2 => Nat.le_antisymm h2 h1 ▸ by decide +kernel,
      some_all (by decide +kernel), leafFit_of (by decide +kernel), by decide +kernel⟩

theorem witness_StoresPerformed_2 : ∃ (s : State) (q : PendingStore) (w : Workgroup), (Inv s) ∧ (s.halt = none)
    ∧ (s.stores.find? (fun r => r.id == q.id) = some q) ∧ (q.place.loft = true) ∧ (s.older q.touch q.id = []) ∧
    (s.wg? q.lane.wg = some w) :=
  ⟨storeS1, store1, wgOf storeS1, inv_of (by decide +kernel), by decide +kernel⟩

/-! Traps (R166 to R169). -/

theorem handled_of {s s0 s1 : State} {l : LaneRef} {p : Place} (k : Launch) (q : Nat)
    (h : s.launchOf? l.wg = some k ∧ 0 < k.rcd.handler ∧ k.rcd.handler < 2 ^ 64 ∧
      s.validTarget k.rcd.handler = true ∧ (s.thread l).inHandler = false ∧
      (s0.coreAccess l .write (s.tframe l)).2 = .ok p q ∧ s1.halt = none)
    (h1 : (s0.coreAccess l .write (s.tframe l)).1 = s1) : handled s s0 l s1 k.rcd.handler p :=
  ⟨⟨k, h.1, rfl⟩, h.2.1, h.2.2.1, h.2.2.2.1, h.2.2.2.2.1, q, Prod.ext h1 h.2.2.2.2.2.1, h.2.2.2.2.2.2⟩

def trapS : State := stage (.trap p7 7#32)
def frameT (s : State) (k : AccKind) : State × XRes :=
  ({ s with fresh := s.fresh + 1 }).coreAccess lane0 k (s.tframe lane0)

theorem witness_SoftwareTraps_1 : ∃ (i : Instr) (gd : Guard) (imm : Word) (cause : Nat) (s : State) (g : Group)
    (l : LaneRef) (s1 : State) (h : Nat) (p : Place), (One s g i gd l) ∧ (mayTrap s l s1 h p) ∧ ((i = .trap gd
    imm ∧ cause = 16) ∨ (i = .brk gd imm ∧ cause = 17)) :=
  ⟨.trap p7 7#32, p7, 7#32, 16, trapS, group0 (wordOf (.trap p7 7#32)), lane0, (frameT trapS .write).1,
      launch0.rcd.handler, placeAt (trapS.tframe lane0), one_of (by decide +kernel), handled_of launch0
      0x101000 (by decide +kernel) rfl, by decide +kernel⟩

def brkS : State := stage (.brk p7 7#32)

theorem witness_SoftwareTraps_1_brk : ∃ (i : Instr) (gd : Guard) (imm : Word) (cause : Nat) (s : State) (g :
    Group) (l : LaneRef) (s1 : State) (h : Nat) (p : Place), (One s g i gd l) ∧ (mayTrap s l s1 h p) ∧ ((i =
    .trap gd imm ∧ cause = 16) ∨ (i = .brk gd imm ∧ cause = 17)) :=
  ⟨.brk p7 7#32, p7, 7#32, 17, brkS, group0 (wordOf (.brk p7 7#32)), lane0, (frameT brkS .write).1,
      launch0.rcd.handler, placeAt (brkS.tframe lane0), one_of (by decide +kernel), handled_of launch0 0x101000
      (by decide +kernel) rfl, by decide +kernel⟩

/-- The launch without a handler. -/
def bareS (i : Instr) : State :=
  { stage i with launches := [{ launch0 with rcd := { launch0.rcd with handler := 0 } }] }

theorem witness_SoftwareTraps_2 : ∃ (gd : Guard) (imm : Word) (s : State) (g : Group), (Ready s g (.brk gd
    imm)) ∧ ((∀ l ∈ g.lanes, ∀ k, s.launchOf? l.wg = some k → k.rcd.handler = 0)) ∧ ((∀ l ∈ g.lanes, s.prot
    l.wg = false)) :=
  ⟨p7, 7#32, bareS (.brk p7 7#32), group0 (wordOf (.brk p7 7#32)), ready_of (by decide +kernel), fun l hl => by
    obtain rfl := List.mem_singleton.mp hl
    exact some_all (by decide +kernel), by decide +kernel⟩

def badI : Instr := .iadd p7 .w32 (.c 0#6) (g 2) (g 3)
def badS : State := stage badI

/-- A constant cannot be a destination. -/
theorem witness_IllegalOperandTraps_1 : ∃ (i : Instr) (s : State) (g : Group) (l : LaneRef) (s1 : State) (h :
    Nat) (p : Place), (Inv s) ∧ (mayTrap s l s1 h p) ∧ ((encode i).isSome = true) ∧ (s.halt = none) ∧ (s.group?
    = some g) ∧ (g.lanes = [l]) ∧ (s.prot l.wg = false) ∧ ((s.thread l).alive = true) ∧ (s.legalFor l i =
    false) :=
  ⟨badI, badS, group0 (wordOf badI), lane0, (frameT badS .write).1, launch0.rcd.handler, placeAt (badS.tframe
      lane0), inv_of (by decide +kernel), handled_of launch0 0x101000 (by decide +kernel) rfl,
      by decide +kernel⟩

/-! The checks of R180, each at its boundary, and a page fault. -/

def failT (s : State) (p : MemOp) (k : AccKind) : State × XRes := (atSlot s p lane0).coreAccess lane0 k (address s p lane0)
def frameAt (s s0 : State) : State × XRes := s0.coreAccess lane0 .write (s.tframe lane0)
/-- An address that is not aligned, in the loft and in memory. -/
def misI : Instr := .stl p7 .w32 (g 8) (g 2) (.c 0#6)
def misM : MemOp := ⟨.loft, false, .write, .w32, false, none, .wg, .plain, g 8, g 2, .c 0#6, .c 0#6⟩
def misS : State := stage misI (addr 4094)
/-- The first word beyond the loft. -/
def outS : State := stage misI (addr 4096)
/-- A write to the last word of a live slot. -/
def liveS : State := (stage misI (addr 60)).setWg 2 fun w => { w with live := [3] }
/-- A store through the first GiB without the permission to write. -/
def denI : Instr := .st p7 .w32 (g 8) (g 2) (.c 0#6)
def denM : MemOp := ⟨.global, false, .write, .w32, false, none, .wg, .plain, g 8, g 2, .c 0#6, .c 0#6⟩
def denS : State := (stage denI fun t => { t with regs := [(2, 0x30000#32)] }).setWg 2 fun w => { w with pkperm := 3#64 }
def denS' : State :=
  let s : State := denS
  { s with mem := Memory.writeN s.mem 0x101008 (leBytes 8 (1 + 4 + 8 + 2 ^ 10 + 2 ^ 30 + 3 * 2 ^ 52)) }
def denS1 : State := denS'.setThread lane0 (addr 0x40000000)
/-- An address with bit 48 set. -/
def highS : State := stage denI fun t => { t with regs := [(2, 0#32), (3, 0x10000#32)] }
/-- A page that no entry maps: its entry is zero, and the page has been reported. -/
def pfS : State :=
  let s : State := stage denI (addr 0x80000000)
  { s with reported := [(launch0.ctx, 0x80000)] }
def entryOf (x : XRes) : Nat × Nat :=
  match x with
  | .fault e pa => (e, pa)
  | .ok _ _ | .deny | .high | .held => (0, 0)
theorem fails_mis {s : State} {m : MemOp} {l : LaneRef} (h : address s m l % lengthOf m ≠ 0) :
    fails s m l 5 (atSlot s m l) := by
  simp [fails, h]
theorem fails_loft {s : State} {m : MemOp} {l : LaneRef} (w : Workgroup) (hs : m.sp = .loft)
    (h : address s m l % lengthOf m = 0 ∧ s.wg? l.wg = some w ∧ (s.limits l.wg).2.2 < address s m l + lengthOf m) :
    fails s m l 6 (atSlot s m l) := by
  simp [fails, h.1, hs, h.2.1, h.2.2]
theorem fails_live {s : State} {m : MemOp} {l : LaneRef} (w : Workgroup) (k : Nat) (hs : m.sp = .loft)
    (h : address s m l % lengthOf m = 0 ∧ s.wg? l.wg = some w ∧ address s m l + lengthOf m ≤ (s.limits l.wg).2.2 ∧
      m.kind ≠ .read ∧ k ∈ w.live ∧ 16 * k < address s m l + lengthOf m ∧ address s m l < 16 * k + 16) :
    fails s m l 8 (atSlot s m l) := by
  simp only [fails, h.1, hs]
  exact ⟨trivial, w, h.2.1, .inr ⟨trivial, h.2.2.1, h.2.2.2.1, k, h.2.2.2.2⟩⟩
theorem fails_deny {s s1 : State} {m : MemOp} {l : LaneRef} (hs : m.sp = .global)
    (h : address s m l % lengthOf m = 0 ∧ ((atSlot s m l).coreAccess l m.kind (address s m l)).2 = .deny)
    (h1 : ((atSlot s m l).coreAccess l m.kind (address s m l)).1 = s1) : fails s m l 7 s1 := by
  simp only [fails, h.1, hs]
  exact .inl ⟨trivial, Prod.ext h1 h.2⟩
theorem fails_high {s s1 : State} {m : MemOp} {l : LaneRef} (hs : m.sp = .global)
    (h : address s m l % lengthOf m = 0 ∧ ((atSlot s m l).coreAccess l m.kind (address s m l)).2 = .high)
    (h1 : ((atSlot s m l).coreAccess l m.kind (address s m l)).1 = s1) : fails s m l 10 s1 := by
  simp only [fails, h.1, hs]
  exact .inr ⟨trivial, Prod.ext h1 h.2⟩

theorem witness_IllegalOperandTraps_2_aligned : ∃ (i : Instr) (m : MemOp) (s : State) (g : Group) (l : LaneRef)
    (cause : Nat) (s1 s2 : State) (h : Nat) (p : Place), (One s g i (guardOf i) l) ∧ (passes s m l) ∧ (fails s
    m l cause s1) ∧ (handled s s1 l s2 h p) ∧ (memOp i = some m) ∧ (m.param = false) ∧ (i.wf = true) ∧ (s1.halt
    = none) :=
  ⟨misI, misM, misS, group0 (wordOf misI), lane0, 5, (atSlot misS misM lane0), (frameAt misS (atSlot misS misM
      lane0)).1, launch0.rcd.handler, placeAt (misS.tframe lane0), one_of (by decide +kernel), passes_of
      (by decide +kernel), fails_mis (by decide +kernel), handled_of launch0 0x101000 (by decide +kernel) rfl,
      by decide +kernel⟩

theorem witness_IllegalOperandTraps_2_bounds : ∃ (i : Instr) (m : MemOp) (s : State) (g : Group) (l : LaneRef)
    (cause : Nat) (s1 s2 : State) (h : Nat) (p : Place), (One s g i (guardOf i) l) ∧ (passes s m l) ∧ (fails s
    m l cause s1) ∧ (handled s s1 l s2 h p) ∧ (memOp i = some m) ∧ (m.param = false) ∧ (i.wf = true) ∧ (s1.halt
    = none) :=
  ⟨misI, misM, outS, group0 (wordOf misI), lane0, 6, (atSlot outS misM lane0), (frameAt outS (atSlot outS misM
      lane0)).1, launch0.rcd.handler, placeAt (outS.tframe lane0), one_of (by decide +kernel), passes_of
      (by decide +kernel), fails_loft (wgOf outS) rfl (by decide +kernel), handled_of launch0 0x101000
      (by decide +kernel) rfl, by decide +kernel⟩

theorem witness_IllegalOperandTraps_2_live : ∃ (i : Instr) (m : MemOp) (s : State) (g : Group) (l : LaneRef)
    (cause : Nat) (s1 s2 : State) (h : Nat) (p : Place), (One s g i (guardOf i) l) ∧ (passes s m l) ∧ (fails s
    m l cause s1) ∧ (handled s s1 l s2 h p) ∧ (memOp i = some m) ∧ (m.param = false) ∧ (i.wf = true) ∧ (s1.halt
    = none) :=
  ⟨misI, misM, liveS, group0 (wordOf misI), lane0, 8, (atSlot liveS misM lane0), (frameAt liveS (atSlot liveS
      misM lane0)).1, launch0.rcd.handler, placeAt (liveS.tframe lane0), one_of (by decide +kernel), passes_of
      (by decide +kernel), fails_live (wgOf liveS) 3 rfl (by decide +kernel), handled_of launch0 0x101000
      (by decide +kernel) rfl, by decide +kernel⟩

theorem witness_IllegalOperandTraps_2_denied : ∃ (i : Instr) (m : MemOp) (s : State) (g : Group) (l : LaneRef)
    (cause : Nat) (s1 s2 : State) (h : Nat) (p : Place), (One s g i (guardOf i) l) ∧ (passes s m l) ∧ (fails s
    m l cause s1) ∧ (handled s s1 l s2 h p) ∧ (memOp i = some m) ∧ (m.param = false) ∧ (i.wf = true) ∧ (s1.halt
    = none) :=
  ⟨denI, denM, denS1, group0 (wordOf denI), lane0, 7, (failT denS1 denM .write).1, (frameAt denS1 (failT denS1
      denM .write).1).1, launch0.rcd.handler, placeAt (denS1.tframe lane0), one_of (by decide +kernel),
      passes_of (by decide +kernel), fails_deny rfl (by decide +kernel) rfl, handled_of launch0 0x101000
      (by decide +kernel) rfl, by decide +kernel⟩

theorem witness_IllegalOperandTraps_2_high : ∃ (i : Instr) (m : MemOp) (s : State) (g : Group) (l : LaneRef)
    (cause : Nat) (s1 s2 : State) (h : Nat) (p : Place), (One s g i (guardOf i) l) ∧ (passes s m l) ∧ (fails s
    m l cause s1) ∧ (handled s s1 l s2 h p) ∧ (memOp i = some m) ∧ (m.param = false) ∧ (i.wf = true) ∧ (s1.halt
    = none) :=
  ⟨denI, denM, highS, group0 (wordOf denI), lane0, 10, (failT highS denM .write).1, (frameAt highS (failT highS
      denM .write).1).1, launch0.rcd.handler, placeAt (highS.tframe lane0), one_of (by decide +kernel),
      passes_of (by decide +kernel), fails_high rfl (by decide +kernel) rfl, handled_of launch0 0x101000
      (by decide +kernel) rfl, by decide +kernel⟩

/-- A page that has been reported already. -/
theorem witness_IllegalOperandTraps_3 : ∃ (i : Instr) (m : MemOp) (s : State) (g : Group) (l : LaneRef) (s1 :
    State) (entry pa : Nat) (w : Workgroup) (k : Launch), (One s g i (guardOf i) l) ∧ (passes s m l) ∧ ((atSlot
    s m l).coreAccess l m.kind (address s m l) = (s1, .fault entry pa)) ∧ (recordHeld s1 k entry (address s m
    l)) ∧ (memOp i = some m) ∧ (m.param = false) ∧ (m.sp = .global) ∧ (i.wf = true) ∧ (address s m l % lengthOf
    m = 0) ∧ (s1.halt = none) ∧ (s.wg? l.wg = some w) ∧ (w.phase = .running) ∧ (w.replay.length < 1024) ∧
    (s.launch? w.launch = some k) :=
  ⟨denI, denM, pfS, group0 (wordOf denI), lane0, (failT pfS denM .write).1, (entryOf (failT pfS denM
      .write).2).1, (entryOf (failT pfS denM .write).2).2, wgOf pfS, launch0, one_of (by decide +kernel),
      passes_of (by decide +kernel), pair_of (by decide +kernel), .inr (.inl ⟨(launch0.ctx, 0x80000),
      by decide +kernel⟩), by decide +kernel⟩

def migPS : State :=
  let s : State := stage denI (addr 0x80000000)
  { s with mem := Memory.writeN s.mem 0x101010 (leBytes 8 (2 ^ 54 + 0x123 * 2 ^ 12)) }

/-- A migratable page. -/
theorem witness_IllegalOperandTraps_3_mig : ∃ (i : Instr) (m : MemOp) (s : State) (g : Group) (l : LaneRef) (s1
    : State) (entry pa : Nat) (w : Workgroup) (k : Launch), (One s g i (guardOf i) l) ∧ (passes s m l) ∧
    ((atSlot s m l).coreAccess l m.kind (address s m l) = (s1, .fault entry pa)) ∧ (recordHeld s1 k entry
    (address s m l)) ∧ (memOp i = some m) ∧ (m.param = false) ∧ (m.sp = .global) ∧ (i.wf = true) ∧ (address s m
    l % lengthOf m = 0) ∧ (s1.halt = none) ∧ (s.wg? l.wg = some w) ∧ (w.phase = .running) ∧ (w.replay.length <
    1024) ∧ (s.launch? w.launch = some k) :=
  ⟨denI, denM, migPS, group0 (wordOf denI), lane0, (failT migPS denM .write).1, (entryOf (failT migPS denM
      .write).2).1, (entryOf (failT migPS denM .write).2).2, wgOf migPS, launch0, one_of (by decide +kernel),
      passes_of (by decide +kernel), pair_of (by decide +kernel), .inl (by decide +kernel), by decide +kernel⟩

def bareT : State := bareS (.trap p7 7#32)
def bareL : Launch := { launch0 with rcd := { launch0.rcd with handler := 0 } }

theorem witness_UnhandledTrapEnds : ∃ (gd : Guard) (imm : Word) (s : State) (g : Group) (l : LaneRef) (k :
    Launch) (s1 : State) (p : Place) (q : Nat), (One s g (.trap gd imm) gd l) ∧
    (({ s with fresh := s.fresh + 1 }).coreAccess l .write (s.tframe l) = (s1, .ok p q)) ∧ (s.launchOf? l.wg =
    some k) ∧ (k.rcd.handler = 0) ∧ (k.status = .done) ∧ (s1.halt = none) :=
  ⟨p7, 7#32, bareT, group0 (wordOf (.trap p7 7#32)), lane0, bareL, (frameT bareT .write).1, placeAt
      (bareT.tframe lane0), 0x101000, one_of (by decide +kernel), pair_of (by decide +kernel),
      by decide +kernel⟩

def header0 : Nat := 0xB400000000000000

/-- The thread is in its handler; its frame names the header of the first stride, and the slot given. -/
def tretS (slot : Nat) : State :=
  let s := stage (.tret p7) fun t => { t with inHandler := true }
  (s.rawWrite 0x10000 (leBytes 8 header0)).rawWrite 0x20000 (leBytes 8 0x10000 ++ [0#8, BitVec.ofNat 8 slot])

theorem witness_TrapReturns_1 : ∃ (gd : Guard) (s : State) (g : Group) (l : LaneRef) (s1 : State) (p : Place)
    (q : Nat), (One s g (.tret gd) gd l) ∧ (quiet s l) ∧ (({ s with fresh := s.fresh + 1 }).coreAccess l .read
    (s.tframe l) = (s1, .ok p q)) ∧ ((s.thread l).inHandler = true) ∧ (s1.halt = none) ∧ (s1.badSectors p.addr
    128 = []) ∧ (savedSlot (Memory.readN s1.mem p.addr 128) = 0xFF) ∧ (s.validTarget (savedPc (Memory.readN
    s1.mem p.addr 128)) = true) :=
  ⟨p7, tretS 0xFF, group0 (wordOf (.tret p7)), lane0, (frameT (tretS 0xFF) .read).1, placeAt ((tretS
      0xFF).tframe lane0), 0x101000, one_of (by decide +kernel), quiet_of (by decide +kernel), pair_of
      (by decide +kernel), by decide +kernel⟩

def tretK : KSlot := oneKernel (wordOf (.tret p7))

theorem witness_TrapReturns_2 : ∃ (gd : Guard) (s : State) (g : Group) (l : LaneRef) (s1 s2 : State) (p :
    Place) (q : Nat) (k : KSlot) (header : Nat) (b : List Nat), (One s g (.tret gd) gd l) ∧ (quiet s l) ∧
    (({ s with fresh := s.fresh + 1 }).coreAccess l .read (s.tframe l) = (s1, .ok p q)) ∧ ((s1.setThread l fun
    t => { t with inHandler := false, lfsr := t.trapLfsr }).fetchWord l k (savedPc (Memory.readN s1.mem p.addr
    128)) = (s2, .ok header b)) ∧ ((s.thread l).inHandler = true) ∧ (s1.halt = none) ∧ (s1.badSectors p.addr
    128 = []) ∧ (s.validTarget (savedPc (Memory.readN s1.mem p.addr 128)) = true) ∧ (s.kslot? s.focus.1 g.kslot
    = some k) ∧ (s2.halt = none) ∧ (savedSlot (Memory.readN s1.mem p.addr 128) < (if bit header 51 then 4 else
    1) * (bits header 52 4 + 1)) :=
  ⟨p7, tretS 0, group0 (wordOf (.tret p7)), lane0, (frameT (tretS 0) .read).1, (((frameT (tretS 0)
      .read).1.setThread lane0 fun t => { t with inHandler := false, lfsr := t.trapLfsr }).fetchWord lane0
      tretK (savedPc (Memory.readN (frameT (tretS 0) .read).1.mem ((tretS 0).tframe lane0) 128))).1, placeAt
      ((tretS 0).tframe lane0), 0x101000, tretK, header0, [], one_of (by decide +kernel), quiet_of
      (by decide +kernel), pair_of (by decide +kernel), pair_of (by decide +kernel), by decide +kernel⟩

/-- The frame names a slot beyond the only one of the first stride; a second stride follows it. -/
def tretS2 : State :=
  let s : State := (tretS 1).rawWrite 0x10010 (leBytes 8 header0)
  s
def tretF : List Byte := Memory.readN (frameT tretS2 .read).1.mem (tretS2.tframe lane0) 128
def tretV : State × Fetched :=
  ((frameT tretS2 .read).1.setThread lane0 fun t => { t with inHandler := false, lfsr := t.trapLfsr }).fetchWord lane0 tretK (savedPc tretF)

/-- The first slot beyond the stride. -/
theorem witness_TrapReturns_3 : ∃ (gd : Guard) (s : State) (g : Group) (l : LaneRef) (s1 s2 : State) (p :
    Place) (q : Nat) (k : KSlot) (header : Nat) (b : List Nat) (f : List Byte), (One s g (.tret gd) gd l) ∧
    (quiet s l) ∧ (({ s with fresh := s.fresh + 1 }).coreAccess l .read (s.tframe l) = (s1, .ok p q)) ∧
    ((s1.setThread l fun t => { t with inHandler := false, lfsr := t.trapLfsr }).fetchWord l k (savedPc f) =
    (s2, .ok header b)) ∧ ((s.thread l).inHandler = true) ∧ (s1.halt = none) ∧ (s1.badSectors p.addr 128 = [])
    ∧ (f = Memory.readN s1.mem p.addr 128) ∧ (savedSlot f ≠ 0xFF) ∧ (s.validTarget (savedPc f) = true) ∧
    (s.kslot? s.focus.1 g.kslot = some k) ∧ (s2.halt = none) ∧ ((if bit header 51 then 4 else 1) * (bits header
    52 4 + 1) ≤ savedSlot f) ∧ (s.validTarget (savedPc f + 8 * (bits header 52 4 + 2)) = true) :=
  ⟨p7, tretS2, group0 (wordOf (.tret p7)), lane0, (frameT tretS2 .read).1, tretV.1, placeAt (tretS2.tframe
      lane0), 0x101000, tretK, header0, [], tretF, one_of (by decide +kernel), quiet_of (by decide +kernel),
      pair_of (by decide +kernel), pair_of (by decide +kernel), by decide +kernel⟩

def tretB : State := stage (.tret p7)

theorem witness_TrapReturns_4 : ∃ (gd : Guard) (s : State) (g : Group) (l : LaneRef) (s1 : State) (h : Nat) (p
    : Place), (One s g (.tret gd) gd l) ∧ (mayTrap s l s1 h p) :=
  ⟨p7, tretB, group0 (wordOf (.tret p7)), lane0, (frameT tretB .write).1, launch0.rcd.handler, placeAt
      (tretB.tframe lane0), one_of (by decide +kernel), handled_of launch0 0x101000 (by decide +kernel) rfl⟩

def callxI : Instr := .callx p7 (g 2) 0#32
def callxS : State := stage callxI (addr 0x10010)

theorem witness_CallThroughRegister : ∃ (gd : Guard) (a : Opnd) (k : Word) (s : State) (g : Group) (l :
    LaneRef), (One s g (.callx gd a k) gd l) ∧ ((s.thread l).refill = false) ∧ ((s.thread l).stack.length < 4)
    ∧ (s.validTarget (reads64 s a l + offset k).toNat = true) :=
  ⟨p7, g 2, 0#32, callxS, group0 (wordOf callxI), lane0, one_of (by decide +kernel), by decide +kernel⟩

def spillS : State := stage (.call p7 16#32) fun t => { t with stack := [1#64, 2#64, 3#64, 4#64], spilled := 7 }
def spillT : State × XRes :=
  ({ spillS with fresh := spillS.fresh + 1 }).coreAccess lane0 .write
    ((spillS.cspill lane0 + 8 * (spillS.thread lane0).spilled) % 2 ^ 64)

/-- The last place of the spill area. -/
theorem witness_StackSpillsAndRefills_1 : ∃ (i : Instr) (gd : Guard) (r1 : Opnd) (k : Word) (dest : Dword) (s :
    State) (g : Group) (l : LaneRef) (n : Launch) (s1 : State) (p : Place) (q : Nat) (a b c d : Dword), (One s
    g i gd l) ∧ (({ s with fresh := s.fresh + 1 }).coreAccess l .write ((s.cspill l + 8 * (s.thread l).spilled)
    % 2 ^ 64) = (s1, .ok p q)) ∧ ((i = .call gd k ∧ dest = headerPc s + offset k) ∨ (i = .callx gd r1 k ∧ dest
    = reads64 s r1 l + offset k)) ∧ ((s.thread l).refill = false) ∧ ((s.thread l).stack = [a, b, c, d]) ∧
    (s.launchOf? l.wg = some n) ∧ ((s.thread l).spilled < n.rcd.spilld) ∧ (((s.cspill l + 8 * (s.thread
    l).spilled) % 2 ^ 64) % 8 = 0) ∧ (s.validTarget dest.toNat = true) ∧ (s1.halt = none) :=
  ⟨.call p7 16#32, p7, g 2, 16#32, headerPc spillS + offset 16#32, spillS, group0 (wordOf (.call p7 16#32)),
      lane0, launch0, spillT.1, placeAt ((spillS.cspill lane0 + 8 * 7) % 2 ^ 64), 0x101000, 1#64, 2#64, 3#64,
      4#64, one_of (by decide +kernel), pair_of (by decide +kernel), by decide +kernel⟩

def spillX : State :=
  stage callxI fun t => { t with regs := [(2, 0x10010#32)], stack := [1#64, 2#64, 3#64, 4#64], spilled := 7 }
def spillXT : State × XRes :=
  ({ spillX with fresh := spillX.fresh + 1 }).coreAccess lane0 .write
    ((spillX.cspill lane0 + 8 * (spillX.thread lane0).spilled) % 2 ^ 64)
def waitRefS (i : Instr) : State := stage i fun t => { t with refill := true }

theorem witness_StackSpillsAndRefills_1_callx : ∃ (i : Instr) (gd : Guard) (r1 : Opnd) (k : Word) (dest :
    Dword) (s : State) (g : Group) (l : LaneRef) (n : Launch) (s1 : State) (p : Place) (q : Nat) (a b c d :
    Dword), (One s g i gd l) ∧ (({ s with fresh := s.fresh + 1 }).coreAccess l .write ((s.cspill l + 8 *
    (s.thread l).spilled) % 2 ^ 64) = (s1, .ok p q)) ∧ ((i = .call gd k ∧ dest = headerPc s + offset k) ∨ (i =
    .callx gd r1 k ∧ dest = reads64 s r1 l + offset k)) ∧ ((s.thread l).refill = false) ∧ ((s.thread l).stack =
    [a, b, c, d]) ∧ (s.launchOf? l.wg = some n) ∧ ((s.thread l).spilled < n.rcd.spilld) ∧ (((s.cspill l + 8 *
    (s.thread l).spilled) % 2 ^ 64) % 8 = 0) ∧ (s.validTarget dest.toNat = true) ∧ (s1.halt = none) :=
  ⟨callxI, p7, g 2, 0#32, reads64 spillX (g 2) lane0 + offset 0#32, spillX, group0 (wordOf callxI), lane0,
      launch0, spillXT.1, placeAt ((spillX.cspill lane0 + 8 * 7) % 2 ^ 64), 0x101000, 1#64, 2#64, 3#64, 4#64,
      one_of (by decide +kernel), pair_of (by decide +kernel), by decide +kernel⟩

theorem witness_StackSpillsAndRefills_2_call : ∃ (i : Instr) (gd : Guard) (a : Opnd) (k : Word) (s : State) (g
    : Group), (Ready s g i) ∧ ((∃ l, runs s g gd l = true ∧ (s.thread l).refill = true)) ∧ (i = .call gd k ∨ i
    = .callx gd a k ∨ i = .ret gd) :=
  ⟨.call p7 16#32, p7, g 2, 16#32, waitRefS (.call p7 16#32), group0 (wordOf (.call p7 16#32)), ready_of
      (by decide +kernel), ⟨lane0, by decide +kernel⟩, by decide +kernel⟩

theorem witness_StackSpillsAndRefills_2_callx : ∃ (i : Instr) (gd : Guard) (a : Opnd) (k : Word) (s : State) (g
    : Group), (Ready s g i) ∧ ((∃ l, runs s g gd l = true ∧ (s.thread l).refill = true)) ∧ (i = .call gd k ∨ i
    = .callx gd a k ∨ i = .ret gd) :=
  ⟨callxI, p7, g 2, 0#32, waitRefS (callxI), group0 (wordOf (callxI)), ready_of (by decide +kernel), ⟨lane0,
      by decide +kernel⟩, by decide +kernel⟩

theorem witness_StackSpillsAndRefills_2_ret : ∃ (i : Instr) (gd : Guard) (a : Opnd) (k : Word) (s : State) (g :
    Group), (Ready s g i) ∧ ((∃ l, runs s g gd l = true ∧ (s.thread l).refill = true)) ∧ (i = .call gd k ∨ i =
    .callx gd a k ∨ i = .ret gd) :=
  ⟨.ret p7, p7, g 2, 0#32, waitRefS (.ret p7), group0 (wordOf (.ret p7)), ready_of (by decide +kernel), ⟨lane0,
      by decide +kernel⟩, by decide +kernel⟩

def refillS : State := stage (.ret p7) fun t => { t with stack := [0x10010#64], spilled := 1 }
def refillT : State × XRes :=
  ({ refillS with fresh := refillS.fresh + 1 }).coreAccess lane0 .read
    ((refillS.cspill lane0 + 8 * ((refillS.thread lane0).spilled - 1)) % 2 ^ 64)

theorem witness_StackSpillsAndRefills_3 : ∃ (gd : Guard) (s : State) (g : Group) (l : LaneRef) (s1 : State) (p
    : Place) (q : Nat) (a : Dword) (r : List Dword), (One s g (.ret gd) gd l) ∧
    (({ s with fresh := s.fresh + 1 }).coreAccess l .read ((s.cspill l + 8 * ((s.thread l).spilled - 1)) % 2 ^
    64) = (s1, .ok p q)) ∧ ((s.thread l).refill = false) ∧ ((s.thread l).stack = a :: r) ∧ (0 < (s.thread
    l).spilled) ∧ (((s.cspill l + 8 * ((s.thread l).spilled - 1)) % 2 ^ 64) % 8 = 0) ∧ (s.validTarget a.toNat =
    true) ∧ (s1.halt = none) :=
  ⟨p7, refillS, group0 (wordOf (.ret p7)), lane0, refillT.1, placeAt ((refillS.cspill lane0 + 8 * 0) % 2 ^ 64),
      0x101000, 0x10010#64, [], one_of (by decide +kernel), pair_of (by decide +kernel), by decide +kernel⟩

end Sys2Proof.Tests
end

