-- ==== Sys2Proof/Tests/Witness2.lean ====
section
/-! SUPPORT. Witnesses: for every statement with premises, states and operands that meet all of them together
(tables of instructions, barriers and posts). -/

namespace Sys2Proof.Tests

open Sys2Proof Sys2Proof.Machine Sys2Proof.Spec

set_option Elab.async false
set_option linter.unusedVariables false

/-! Tables of instructions: one of each, in a slot of one lane. -/

/-- What the statement of a table of instructions assumes can be met. -/
def Fits (table : Instr → Option Effect) : Prop :=
  ∃ (i : Instr) (x : Effect) (s : State) (g : Group), table i = some x ∧ i.wf = true ∧ Ready s g i ∧
    (∀ l, runs s g x.gd l = true → x.ok (x.start s g) l = true) ∧ pairsAgree s g x

/-- A slot of an instruction of a table, in an unprotected launch, meets the premises of its statement. -/
theorem computes_of {table : Instr → Option Effect} {i : Instr} {x : Effect} {s : State} {g : Group}
    (hi : table i = some x) (h : i.wf = true ∧ readyB s g i = true ∧
      (g.lanes.all fun l => !(runs s g x.gd l) || x.ok (x.start s g) l) = true ∧
      (g.lanes.all fun l => !(s.prot l.wg)) = true) : Fits table := by
  obtain ⟨hw, hr, ho, hp⟩ := h
  have inG : ∀ l, runs s g x.gd l = true → l ∈ g.lanes := fun l h => by
    simp only [runs, Bool.and_eq_true, List.contains_iff_mem] at h
    exact h.1.1.1
  have plain : ∀ l, runs s g x.gd l = true → s.prot l.wg = false := fun l h => by
    simpa using List.all_eq_true.mp hp l (inG l h)
  refine ⟨i, x, s, g, hi, hw, ready_of hr, fun l h => ?_, ?_⟩
  · simpa [h] using List.all_eq_true.mp ho l (inG l h)
  · unfold pairsAgree
    split
    · exact fun l h hq => by rw [plain l h] at hq; cases hq
    · exact .inl fun l h hq => by rw [plain l h] at hq; cases hq

def integerArithmeticI : Instr := .iaddc p7 .w64 (g 8) (g 2) (g 4) (.p 0#3)
theorem witness_IntegerArithmetic : Fits integer :=
  computes_of (i := integerArithmeticI) (s := stage integerArithmeticI id) (g := group0 (wordOf integerArithmeticI)) rfl (by decide +kernel)

def shiftsAndBitFieldsI : Instr := .bfi p7 .w32 (g 8) (g 2) (.c 1#6) (.c 2#6)
theorem witness_ShiftsAndBitFields : Fits bitwise :=
  computes_of (i := shiftsAndBitFieldsI) (s := stage shiftsAndBitFieldsI id) (g := group0 (wordOf shiftsAndBitFieldsI)) rfl (by decide +kernel)

def movesAndPredicatesI : Instr := .icmp p7 .i64 .le 6#3 (g 2) (g 4)
theorem witness_MovesAndPredicates : Fits moves :=
  computes_of (i := movesAndPredicatesI) (s := stage movesAndPredicatesI id) (g := group0 (wordOf movesAndPredicatesI)) rfl (by decide +kernel)

def floatArithmeticI : Instr := .ffma p7 .rs (g 8) (g 2) (g 4) (g 6)
theorem witness_FloatArithmetic : Fits float :=
  computes_of (i := floatArithmeticI) (s := stage floatArithmeticI id) (g := group0 (wordOf floatArithmeticI)) rfl (by decide +kernel)

def packedArithmeticI : Instr := .hadd2 p7 .f16 .rs (g 8) (g 2) (g 4)
theorem witness_PackedArithmetic : Fits packed :=
  computes_of (i := packedArithmeticI) (s := stage packedArithmeticI id) (g := group0 (wordOf packedArithmeticI)) rfl (by decide +kernel)

def conversionsI : Instr := .cvtx p7 .e4m3 .rne (g 8) (g 2) (g 4)
theorem witness_Conversions : Fits conversion :=
  computes_of (i := conversionsI) (s := stage conversionsI id) (g := group0 (wordOf conversionsI)) rfl (by decide +kernel)

def specialFunctionsI : Instr := .frnd p7 .rd (g 8) (g 2)
theorem witness_SpecialFunctions : Fits special :=
  computes_of (i := specialFunctionsI) (s := stage specialFunctionsI id) (g := group0 (wordOf specialFunctionsI)) rfl (by decide +kernel)

def crossLaneI : Instr := .scanx p7 .f32 .fadd true (g 8) (g 2)
theorem witness_CrossLane : Fits crossing :=
  computes_of (i := crossLaneI) (s := stage crossLaneI id) (g := group0 (wordOf crossLaneI)) rfl (by decide +kernel)

/-- A finite value beyond the largest E4M3 one is an outlier; the list at 0x30000 has a place, or none. -/
def outI (m : Rnd) : Instr := .cvtx p7 .e4m3 m (g 8) (g 2) (g 4)
def outS2 (cap : Nat) : State :=
  (stage (outI .rne) fun t => { t with regs := [(2, 0x43FF0000#32), (4, 0x30000#32), (8, 5#32)] }).rawWrite 0x30000
    (leBytes 32 (0x40000 + cap * 2 ^ 64 + 3 * 2 ^ 96 + 9 * 2 ^ 128))
def outT (cap : Nat) : State × XRes :=
  (atCvtx (outS2 cap) lane0 (g 8) (g 2) (g 4)).coreAccess lane0 .rmw (reads64 (outS2 cap) (g 4) lane0).toNat
def outV (cap : Nat) : Nat := leNat (Memory.readN (outT cap).1.mem 0x30000 32)
def outU (cap : Nat) : State :=
  (homed (outT cap).1 lane0 (placeAt 0x30000)).update lane0 { (placeAt 0x30000) with addr := (placeAt 0x30000).addr + 12 }
    ((reads64 (outS2 cap) (g 4) lane0).toNat + 12) (leBytes 4 (bits (outV cap) 96 32 + 1))
theorem listAt_of {s s1 : State} {l : LaneRef} {d a b : Opnd} {p : Place} {v q : Nat}
    (h : (reads64 s b l).toNat % 32 = 0 ∧
      ((atCvtx s l d a b).coreAccess l .rmw (reads64 s b l).toNat).2 = .ok p q ∧ s1.halt = none ∧
      s1.badSectors p.addr 32 = [] ∧ bits v 160 96 = 0 ∧ bits v 0 64 % 8 = 0)
    (hq : quiet s l) (hf : leafFit s1 p) (hv : v = leNat (Memory.readN s1.mem p.addr 32))
    (h1 : ((atCvtx s l d a b).coreAccess l .rmw (reads64 s b l).toNat).1 = s1) : ListAt s l d a b s1 p v :=
  { aligned := h.1, access := ⟨q, Prod.ext h1 h.2.1⟩, going := h.2.2.1, quiet := hq, sound := h.2.2.2.1, fit := hf
    holds := hv, zero := h.2.2.2.2.1, base := h.2.2.2.2.2 }

/-- The last place of the list. -/
theorem witness_Conversions_2 : ∃ (gd : Guard) (dt : Ty) (m : Rnd) (d a b : Opnd) (s : State) (g : Group) (l :
    LaneRef) (s1 s2 s3 : State) (p p2 : Place) (q v : Nat), (One s g (.cvtx gd dt m d a b) gd l) ∧ (noBitmap s
    l) ∧ (ListAt s l d a b s1 p v) ∧ (s2.coreAccess l .write ((bits v 0 64 + 8 * bits v 96 32) % 2 ^ 64) = (s3,
    .ok p2 q)) ∧ ((Instr.cvtx gd dt m d a b).wf = true) ∧ (outlier dt m (drawn m (s.thread l)).1 (reads s a l)
    = true) ∧ (bits v 96 32 < bits v 64 32) ∧ (s2 = (homed s1 l p).update l { p with addr := p.addr + 12 }
    ((reads64 s b l).toNat + 12) (leBytes 4 (bits v 96 32 + 1))) ∧ (s3.halt = none) :=
  ⟨p7, .e4m3, .rne, g 8, g 2, g 4, outS2 4, group0 (wordOf (outI .rne)), lane0, (outT 4).1, outU 4, ((outU
      4).coreAccess lane0 .write ((bits (outV 4) 0 64 + 8 * bits (outV 4) 96 32) % 2 ^ 64)).1, placeAt 0x30000,
      placeAt 0x40018, 0x101000, outV 4, one_of (by decide +kernel), some_all (by decide +kernel), listAt_of (q
      := 0x101000) (by decide +kernel) (quiet_of (by decide +kernel)) (leafFit_of (by decide +kernel)) rfl rfl,
      pair_of (by decide +kernel), by decide +kernel⟩

/-- A full list. -/
theorem witness_Conversions_3 : ∃ (gd : Guard) (dt : Ty) (m : Rnd) (f : Fmt) (d a b : Opnd) (s : State) (g :
    Group) (l : LaneRef) (s1 : State) (p : Place) (v : Nat), (One s g (.cvtx gd dt m d a b) gd l) ∧ (noBitmap s
    l) ∧ (ListAt s l d a b s1 p v) ∧ ((Instr.cvtx gd dt m d a b).wf = true) ∧ (dt.fmt? = some f) ∧ (outlier dt
    m (drawn m (s.thread l)).1 (reads s a l) = true) ∧ (bits v 64 32 ≤ bits v 96 32) :=
  ⟨p7, .e4m3, .rne, .e4m3, g 8, g 2, g 4, outS2 3, group0 (wordOf (outI .rne)), lane0, (outT 3).1, placeAt
      0x30000, outV 3, one_of (by decide +kernel), some_all (by decide +kernel), listAt_of (q := 0x101000)
      (by decide +kernel) (quiet_of (by decide +kernel)) (leafFit_of (by decide +kernel)) rfl rfl,
      by decide +kernel⟩

/-- The least power of two. -/
theorem witness_SpecialFunctions_5 : ∃ (a : Nat) (k : Int), ((finiteWord a ∨ a % 2 ^ 31 = 0)) ∧ (signWord a *
    magnitude .f32 (a % 2 ^ 31) = k) ∧ (a < 2 ^ 32) ∧ (-149 ≤ k) ∧ (k ≤ 127) :=
  ⟨0xC3150000, -149, .inl ⟨by decide, by decide, by decide⟩, (by norm_num [signWord, magnitude, Fmt.f32]),
      by decide +kernel⟩

/-- Minus infinity. -/
theorem witness_SpecialFunctions_10 : ∃ (a : Nat), (0x80000000 < a) ∧ (a ≤ 0xFF800000) :=
  ⟨0xFF800000, by decide +kernel⟩

/-- The least negative value. -/
theorem witness_SpecialFunctions_15 : ∃ (a : Nat), (finiteWord a) :=
  ⟨0x80000001, ⟨by decide, by decide, by decide⟩⟩

theorem witness_SpecialFunctions_19 : ∃ (a : Nat), (0x80000000 < a) ∧ (a ≤ 0xFF800000) :=
  ⟨0x80000001, by decide +kernel⟩

/-- The largest value. -/
theorem witness_SpecialFunctions_20 : ∃ (a : Nat), (finiteWord a) ∧ (a < 2 ^ 31) :=
  ⟨0x7F7FFFFF, ⟨by decide, by decide, by decide⟩, by decide +kernel⟩

theorem witness_SpecialFunctions_24 : ∃ (a : Nat), (0x80000000 < a) ∧ (a ≤ 0xFF800000) :=
  ⟨0x80000001, by decide +kernel⟩

/-- The least value. -/
theorem witness_SpecialFunctions_25 : ∃ (a : Nat), (finiteWord a) ∧ (a < 2 ^ 31) :=
  ⟨1, ⟨by decide, by decide, by decide⟩, by decide +kernel⟩

theorem witness_SpecialFunctions_2 : ∃ (f : Nat → Nat × Nat) (a : Nat), f ∈ functions ∧ a < 2 ^ 32 ∧
    0x7F800000 < a % 2 ^ 31 := ⟨tanhWord, 0xFF800001, by simp [functions], by decide⟩

def controlTransferI : Instr := .bra p7 16#32
theorem witness_ControlTransfer : Fits control :=
  computes_of (i := controlTransferI) (s := stage controlTransferI id) (g := group0 (wordOf controlTransferI)) rfl (by decide +kernel)

def systemRegistersI : Instr := .fence p7 .sys .acqrel
theorem witness_SystemRegisters : Fits system :=
  computes_of (i := systemRegistersI) (s := stage systemRegistersI id) (g := group0 (wordOf systemRegistersI)) rfl (by decide +kernel)

/-- The wake condition holds already. -/
def yieldI : Instr := .yield p7 (.token 7#3)
/-- A wait for tokens that are at zero. -/
def twaitI : Instr := .twait p7 0xFF#8

theorem witness_ControlTransfer_2 : ∃ (gd : Guard) (x : YieldForm) (s : State) (g : Group) (l : LaneRef), (One
    s g (.yield gd x) gd l) ∧ (s.validTarget (fallPc s).toNat = true) ∧ (yieldOk s x l = true) ∧ (s.wakeHolds l
    (waitsFor s x l) = true) :=
  ⟨p7, .token 7#3, stage yieldI, group0 (wordOf yieldI), lane0, one_of (by decide +kernel), by decide +kernel⟩

/-- Every token. -/
theorem witness_SystemRegisters_2 : ∃ (gd : Guard) (m : BitVec 8) (s : State) (g : Group), (Ready s g (.twait
    gd m)) ∧ ((∀ l, runs s g gd l = true → ∀ k, k < 8 → m.getLsbD k = true → tokenOf s l k = 0)) :=
  ⟨p7, 0xFF#8, stage twaitI, group0 (wordOf twaitI), ready_of (by decide +kernel), fun l h k hk _ => by
    have m := of_lanes (p := fun l => (List.range 8).all fun k => tokenOf (stage twaitI) l k == 0)
      (by decide +kernel) h
    exact eq_of_beq (List.all_eq_true.mp m k (List.mem_range.mpr hk))⟩

/-! Barriers (R196 to R202): the last slot of a loft of 4 KiB. -/

theorem atBarrier_of {s : State} {k : Group} {i : Instr} {gd : Guard} {l : LaneRef} {w : Workgroup} {a : Nat}
    (h : oneB s k i gd l = true ∧ s.wg? l.wg = some w ∧ a % 16 = 0 ∧ a + 16 ≤ (s.limits l.wg).2.2) (hq : quiet s l) :
    AtBarrier s k i gd l w a :=
  { toOne := one_of h.1, quiet := hq, wg := h.2.1, align := h.2.2.1, range := h.2.2.2 }

/-- The workgroup holds a live slot there, armed or not, with a number of arrivals. -/
def slotS (i : Instr) (armed : Bool) (arrivals excess : Nat) : State :=
  (stage i (addr 4080)).setWg 2 fun w => { w with
    live := [255]
    loft := Memory.writeN [] 4080
      (leBytes 16 (arrivals * 2 ^ 32 + armed.toNat * 2 ^ 49 + excess * 2 ^ 64 + 5 * 2 ^ 96 + 0x5B2C * 2 ^ 112)) }
def binitI : Instr := .binit p7 (g 2)
def binitS : State := stage binitI (addr 4080)
def bexpI : Instr := .bexp p7 (g 2) (.c 2#6) (.c 1#6)
def bexpS : State := slotS bexpI false 0 1
def barvI : Instr := .barv p7 (g 2)
def barvS : State := slotS barvI true 1 0
def btestI : Instr := .btest p7 (g 8) (g 2)
def btestS : State := slotS btestI true 1 0
def bfreeI : Instr := .bfree p7 (g 2)
def bfreeS : State := slotS bfreeI true 1 0

theorem witness_BarrierInit : ∃ (gd : Guard) (a : Opnd) (s : State) (g : Group) (l : LaneRef) (w : Workgroup),
    (AtBarrier s g (.binit gd a) gd l w (reads s a l).toNat) ∧ (w.isLive (reads s a l).toNat = false) ∧
    (s.cmds.length < 65536) ∧ (w.core < s.cores.length) :=
  ⟨p7, g 2, binitS, group0 (wordOf binitI), lane0, wgOf binitS, atBarrier_of (by decide +kernel) (quiet_of
      (by decide +kernel)), by decide +kernel⟩

theorem witness_BarrierArming_1 : ∃ (gd : Guard) (a b c : Opnd) (s : State) (g : Group) (l : LaneRef) (w :
    Workgroup) (x : Slot), (AtBarrier s g (.bexp gd a b c) gd l w (reads s a l).toNat) ∧ (w.isLive (reads s a
    l).toNat = true) ∧ (slotAt w.loft (reads s a l).toNat = x) ∧ (x.armed = false) ∧ ((reads s c l).toNat ≤
    0xFFFF) :=
  ⟨p7, g 2, .c 2#6, .c 1#6, bexpS, group0 (wordOf bexpI), lane0, wgOf bexpS, slotAt (wgOf bexpS).loft 4080,
      atBarrier_of (by decide +kernel) (quiet_of (by decide +kernel)), by decide +kernel⟩

theorem witness_BarrierArming_2 : ∃ (gd : Guard) (a : Opnd) (s : State) (g : Group) (l : LaneRef) (w :
    Workgroup) (x : Slot), (AtBarrier s g (.barv gd a) gd l w (reads s a l).toNat) ∧ (w.isLive (reads s a
    l).toNat = true) ∧ (slotAt w.loft (reads s a l).toNat = x) ∧ (x.armed = true) ∧ (0 < x.arrivals) ∧
    (g.served = []) ∧ ((∀ m ∈ g.lanes, gd.holds (s.thread m) = true → s.released m .wg = true)) :=
  ⟨p7, g 2, barvS, group0 (wordOf barvI), lane0, wgOf barvS, slotAt (wgOf barvS).loft 4080, atBarrier_of
      (by decide +kernel) (quiet_of (by decide +kernel)), by decide +kernel⟩

/-- The same arrival of a protected pair. -/
def barvP : State :=
  let s : State := twinS barvI (addr 4080) (addr 4080)
  s.setWg 2 fun w => { w with live := [255], loft := (wgOf barvS).loft }

theorem witness_BarrierArming_3 : ∃ (gd : Guard) (a : Opnd) (s : State) (g : Group) (l : LaneRef) (w :
    Workgroup) (x : Slot), (Pair s g (.barv gd a) gd l) ∧ (quiet s l) ∧ (reads s a (mate l) = reads s a l) ∧
    (s.wg? l.wg = some w) ∧ ((reads s a l).toNat % 16 = 0) ∧ ((reads s a l).toNat + 16 ≤ (s.limits l.wg).2.2) ∧
    (w.isLive (reads s a l).toNat = true) ∧ (slotAt w.loft (reads s a l).toNat = x) ∧ (x.armed = true) ∧ (0 <
    x.arrivals) ∧ (g.served = []) ∧ ((∀ m ∈ g.lanes, gd.holds (s.thread m) = true → s.released m .wg = true)) :=
  ⟨p7, g 2, barvP, twinG (wordOf barvI), lane0, wgOf barvP, slotAt (wgOf barvP).loft 4080, pair2_of
      (by decide +kernel), quiet_of (by decide +kernel), by decide +kernel⟩

theorem witness_BarrierTestAndFree_1 : ∃ (gd : Guard) (d a : Opnd) (s : State) (g : Group) (l : LaneRef) (w :
    Workgroup), (AtBarrier s g (.btest gd d a) gd l w (reads s a l).toNat) :=
  ⟨p7, g 8, g 2, btestS, group0 (wordOf btestI), lane0, wgOf btestS, atBarrier_of (by decide +kernel) (quiet_of
      (by decide +kernel))⟩

theorem witness_BarrierTestAndFree_2 : ∃ (gd : Guard) (a : Opnd) (s : State) (g : Group) (l : LaneRef) (w :
    Workgroup), (AtBarrier s g (.bfree gd a) gd l w (reads s a l).toNat) ∧ (w.isLive (reads s a l).toNat =
    true) ∧ ((slotAt w.loft (reads s a l).toNat).excess = 0) :=
  ⟨p7, g 2, bfreeS, group0 (wordOf bfreeI), lane0, wgOf bfreeS, atBarrier_of (by decide +kernel) (quiet_of
      (by decide +kernel)), by decide +kernel⟩

/-! Posts (R227 to R238). -/

theorem atPost_of {s : State} {k : Group} {i : Instr} {gd : Guard} {l : LaneRef} {n : Launch} {w : Workgroup}
    {work : List Nat} (h : oneB s k i gd l = true ∧ s.launchOf? l.wg = some n ∧ s.wg? l.wg = some w ∧
      n.rcd.board ≠ 0 ∧ k.work = work) (hq : quiet s l) : AtPost s k i gd l n w work :=
  { toOne := one_of h.1, quiet := hq, launch := h.2.1, wg := h.2.2.1, board := h.2.2.2.1, work := h.2.2.2.2 }

theorem postReaches_of {s s1 : State} {l : LaneRef} {k : AccKind} {va len : Nat} {p : Place} (q : Nat)
    (h : ((({ s with fresh := s.fresh + 1 }).coreAccess l k va).2 = .ok p q ∧ s1.halt = none ∧
      s1.deadLink p.addr = false) ∧ s1.badSectors p.addr len = [])
    (h1 : (({ s with fresh := s.fresh + 1 }).coreAccess l k va).1 = s1) : postReaches s l k va len s1 p :=
  ⟨⟨q, Prod.ext h1 h.1.1⟩, h.1.2.1, h.1.2.2, h.2⟩

/-- The same slot with what the lane has read in earlier clocks. -/
def workG (i : Instr) (work : List Nat) : Group := { (group0 (wordOf i)) with work := work }
def workS (i : Instr) (work : List Nat) : State :=
  (stage i (addr 0x38000)).setBay 0 0 fun y => { y with port := some (workG i work) }
def reach (s : State) (k : AccKind) (va : Nat) : State × XRes :=
  ({ s with fresh := s.fresh + 1 }).coreAccess lane0 k va
def ainitI : Instr := .ainit p7 (g 2) (.c 1#6)
def ainitS : State := workS ainitI []
def apostI : Instr := .apost p7 .add (g 8) (g 2) (.c 3#6)
def apostS : State := workS apostI []
def linkS : State := workS apostI [4, 0x28001]

theorem witness_PostInit : ∃ (gd : Guard) (a b : Opnd) (s : State) (g : Group) (l : LaneRef) (n : Launch) (w :
    Workgroup) (s1 : State) (p : Place), (AtPost s g (.ainit gd a b) gd l n w []) ∧ (noBitmap s l) ∧
    (postReaches s l .rmw (reads64 s a l).toNat 32 s1 p) ∧ (leafFit s1 p) ∧ ((reads64 s a l).toNat % 32 = 0) ∧
    (p.addr % 32 = 0) ∧ (field (leNat (Memory.readN s1.mem p.addr 32)) 3 = 0) :=
  ⟨p7, g 2, .c 1#6, ainitS, workG ainitI [], lane0, launch0, wgOf ainitS, (reach ainitS .rmw (reads64 ainitS (g
      2) lane0).toNat).1, placeAt 0x38000, atPost_of (by decide +kernel) (quiet_of (by decide +kernel)),
      some_all (by decide +kernel), postReaches_of 0x101000 (by decide +kernel) rfl, leafFit_of
      (by decide +kernel), by decide +kernel⟩

def apostR : State × XRes := reach apostS .read (recordAddr apostS lane0 launch0 (wgOf apostS))

theorem witness_PostRecord_4 : ∃ (gd : Guard) (op : PostOp) (d a b : Opnd) (s : State) (g : Group) (l :
    LaneRef) (n : Launch) (w : Workgroup) (s1 s2 : State) (p p' : Place) (q seq : Nat), (AtPost s g (.apost gd
    op d a b) gd l n w []) ∧ (postReaches s l .read (recordAddr s l n w) 32 s1 p) ∧ (((s1.dropCopies w.core
    (p.addr / 128)).setThread l (acquired s1 p 32)).coreAccess l .write (recordAddr s l n w) = (s2, .ok p' q))
    ∧ ((reads64 s a l).toNat % 32 = 0) ∧ (bits (leNat (Memory.readN s1.mem p.addr 32)) 192 2 ≠ 1) ∧ (seq =
    (bits (leNat (Memory.readN s1.mem p.addr 32)) 200 56 + 1) % 2 ^ 56) ∧ (s2.halt = none) ∧ (s2.deadLink
    p'.addr = false) :=
  ⟨p7, .add, g 8, g 2, .c 3#6, apostS, workG apostI [], lane0, launch0, wgOf apostS, apostR.1,
      (((apostR.1.dropCopies (wgOf apostS).core ((placeAt 0x28000).addr / 128)).setThread lane0 (acquired
      apostR.1 (placeAt 0x28000) 32)).coreAccess lane0 .write (recordAddr apostS lane0 launch0 (wgOf
      apostS))).1, placeAt 0x28000, placeAt 0x28000, 0x101000, 1, atPost_of (by decide +kernel) (quiet_of
      (by decide +kernel)), postReaches_of 0x101000 (by decide +kernel) rfl, pair_of (by decide +kernel),
      by decide +kernel⟩

theorem witness_PostLink : ∃ (gd : Guard) (op : PostOp) (d a b : Opnd) (s : State) (g : Group) (l : LaneRef) (n
    : Launch) (w : Workgroup) (s1 : State) (p : Place) (id : Nat), (AtPost s g (.apost gd op d a b) gd l n w
    [4, id]) ∧ (noBitmap s l) ∧ (postReaches s l .rmw ((reads64 s a l).toNat + 24) 8 s1 p) ∧ (leafFit s1 p) ∧
    (id < 2 ^ 64) ∧ (s.released l .sys = true) ∧ ((reads64 s a l).toNat % 32 = 0) ∧ (n.repl = false) ∧ (d.isAcc
    = false) :=
  ⟨p7, .add, g 8, g 2, .c 3#6, linkS, workG apostI [4, 0x28001], lane0, launch0, wgOf linkS, (reach linkS .rmw
      ((reads64 linkS (g 2) lane0).toNat + 24)).1, placeAt 0x38018, 0x28001, atPost_of (by decide +kernel)
      (quiet_of (by decide +kernel)), some_all (by decide +kernel), postReaches_of 0x101000 (by decide +kernel)
      rfl, leafFit_of (by decide +kernel), by decide +kernel⟩

/-- The premises of each case of the link: the list word is zero, or holds another post. -/
theorem witness_PostLink_free : leNat (Memory.readN (reach linkS .rmw 0x38018).1.mem 0x38018 8) = 0 ∧
    ((reach linkS .rmw 0x38018).1.resvNow (0x38018 - 24)).reservedFrom (0x38018 - 24) 0x28001 = false :=
  by decide +kernel

def takenS : State := { linkS with mem := Memory.writeN linkS.mem 0x38018 [9#8] }
theorem witness_PostLink_taken : leNat (Memory.readN (reach takenS .rmw 0x38018).1.mem 0x38018 8) ≠ 0 ∧
    leNat (Memory.readN (reach takenS .rmw 0x38018).1.mem 0x38018 8) ≠ 0x28001 ∧
    ((reach takenS .rmw 0x38018).1.refusals.filter fun r => r.slice == homeOf ((0x38018 - 24) / 128)).length < 1024 :=
  by decide +kernel

def astepI : Instr := .astep p7 (g 8) (g 2)
def astepS : State := workS astepI [4, 0x28001]
def aresI : Instr := .ares p7 (g 8)
/-- The record holds a post that is done. -/
def aresS : State := (workS aresI []).rawWrite 0x28000 (leBytes 32 (3 * 2 ^ 192))

theorem witness_PostStatusAndResult_3 : ∃ (gd : Guard) (d a : Opnd) (s : State) (g : Group) (l : LaneRef) (n :
    Launch) (w : Workgroup) (s1 : State) (p : Place) (tag ctl : Nat), (AtPost s g (.astep gd d a) gd l n w [4,
    tag]) ∧ (postReaches s l .read (recordAddr s l n w + 24) 8 s1 p) ∧ ((reads64 s a l).toNat % 32 = 0) ∧
    (d.isAcc = false) ∧ (ctl = leNat (Memory.readN s1.mem p.addr 8)) :=
  ⟨p7, g 8, g 2, astepS, workG astepI [4, 0x28001], lane0, launch0, wgOf astepS, (reach astepS .read
      (recordAddr astepS lane0 launch0 (wgOf astepS) + 24)).1, placeAt 0x28018, 0x28001, 0, atPost_of
      (by decide +kernel) (quiet_of (by decide +kernel)), postReaches_of 0x101000 (by decide +kernel) rfl,
      by decide +kernel⟩

theorem witness_PostStatusAndResult_4 : ∃ (gd : Guard) (d : Opnd) (s : State) (g : Group) (l : LaneRef) (n :
    Launch) (w : Workgroup) (s1 : State) (p : Place), (AtPost s g (.ares gd d) gd l n w []) ∧ (postReaches s l
    .read (recordAddr s l n w) 32 s1 p) ∧ (bits (leNat (Memory.readN s1.mem p.addr 32)) 192 2 = 3) :=
  ⟨p7, g 8, aresS, workG aresI [], lane0, launch0, wgOf aresS, (reach aresS .read (recordAddr aresS lane0
      launch0 (wgOf aresS))).1, placeAt 0x28000, atPost_of (by decide +kernel) (quiet_of (by decide +kernel)),
      postReaches_of 0x101000 (by decide +kernel) rfl, by decide +kernel⟩

/-! The clocks of a step, on the post of the next thread. -/

/-- A header with a pending post, and the record of that post. -/
def hdr1 (tag : Nat) : Nat := 5 + 4 * 2 ^ 64 + tag * 2 ^ 128 + 0x28041 * 2 ^ 192
def rec1 (obj seq : Nat) : Nat := obj + 3 * 2 ^ 64 + (seq * 256 + 1) * 2 ^ 192
def clockS (i : Instr) (work : List Nat) (h q : Nat) : State :=
  ((workS i work).rawWrite 0x38000 (leBytes 32 h)).rawWrite 0x28040 (leBytes 32 q)
def hdrS (pend : Nat) : State := clockS apostI [1, 0x28001] (pend * 2 ^ 192) 0
/-- The thread's own record holds the post that APOST makes. -/
def sameS : State := (workS apostI []).rawWrite 0x28000 (leBytes 32 (rec1 0x38000 1))

theorem witness_PostRecord_2_own : ∃ (gd : Guard) (op : PostOp) (d a b : Opnd) (s : State) (g : Group) (l :
    LaneRef) (n : Launch) (w : Workgroup) (s1 : State) (p : Place) (id pend : Nat), (AtPost s g (.apost gd op d
    a b) gd l n w [1, id]) ∧ (postReaches s l .read (reads64 s a l).toNat 32 s1 p) ∧ ((reads64 s a l).toNat %
    32 = 0) ∧ (d.isAcc = false) ∧ (pend = field (leNat (Memory.readN s1.mem p.addr 32)) 3) :=
  ⟨p7, .add, g 8, g 2, .c 3#6, hdrS 0x28001, workG apostI [1, 0x28001], lane0, launch0, wgOf (hdrS 0x28001),
      (reach (hdrS 0x28001) .read (reads64 (hdrS 0x28001) (g 2) lane0).toNat).1, placeAt 0x38000, 0x28001,
      0x28001, atPost_of (by decide +kernel) (quiet_of (by decide +kernel)), postReaches_of 0x101000
      (by decide +kernel) rfl, by decide +kernel⟩

theorem witness_PostRecord_2_free : ∃ (gd : Guard) (op : PostOp) (d a b : Opnd) (s : State) (g : Group) (l :
    LaneRef) (n : Launch) (w : Workgroup) (s1 : State) (p : Place) (id pend : Nat), (AtPost s g (.apost gd op d
    a b) gd l n w [1, id]) ∧ (postReaches s l .read (reads64 s a l).toNat 32 s1 p) ∧ ((reads64 s a l).toNat %
    32 = 0) ∧ (d.isAcc = false) ∧ (pend = field (leNat (Memory.readN s1.mem p.addr 32)) 3) :=
  ⟨p7, .add, g 8, g 2, .c 3#6, hdrS 0, workG apostI [1, 0x28001], lane0, launch0, wgOf (hdrS 0), (reach (hdrS
      0) .read (reads64 (hdrS 0) (g 2) lane0).toNat).1, placeAt 0x38000, 0x28001, 0, atPost_of
      (by decide +kernel) (quiet_of (by decide +kernel)), postReaches_of 0x101000 (by decide +kernel) rfl,
      by decide +kernel⟩

theorem witness_PostRecord_2_other : ∃ (gd : Guard) (op : PostOp) (d a b : Opnd) (s : State) (g : Group) (l :
    LaneRef) (n : Launch) (w : Workgroup) (s1 : State) (p : Place) (id pend : Nat), (AtPost s g (.apost gd op d
    a b) gd l n w [1, id]) ∧ (postReaches s l .read (reads64 s a l).toNat 32 s1 p) ∧ ((reads64 s a l).toNat %
    32 = 0) ∧ (d.isAcc = false) ∧ (pend = field (leNat (Memory.readN s1.mem p.addr 32)) 3) :=
  ⟨p7, .add, g 8, g 2, .c 3#6, hdrS 0x28041, workG apostI [1, 0x28001], lane0, launch0, wgOf (hdrS 0x28041),
      (reach (hdrS 0x28041) .read (reads64 (hdrS 0x28041) (g 2) lane0).toNat).1, placeAt 0x38000, 0x28001,
      0x28041, atPost_of (by decide +kernel) (quiet_of (by decide +kernel)), postReaches_of 0x101000
      (by decide +kernel) rfl, by decide +kernel⟩

theorem witness_PostRecord_3 : ∃ (gd : Guard) (op : PostOp) (d a b : Opnd) (s : State) (g : Group) (l :
    LaneRef) (n : Launch) (w : Workgroup) (s1 : State) (p : Place) (q x : Nat), (AtPost s g (.apost gd op d a
    b) gd l n w []) ∧ (postReaches s l .read (recordAddr s l n w) 32 s1 p) ∧ ((reads64 s a l).toNat % 32 = 0) ∧
    (q = leNat (Memory.readN s1.mem p.addr 32)) ∧ (field q 3 % 4 = 1) ∧ (x = posted s op b l) ∧ (field q 0 =
    (reads64 s a l).toNat) ∧ (field q 1 = x) ∧ (field q 3 / 32 % 8 = operationCode op) :=
  ⟨p7, .add, g 8, g 2, .c 3#6, sameS, workG apostI [], lane0, launch0, wgOf sameS, (reach sameS .read
      (recordAddr sameS lane0 launch0 (wgOf sameS))).1, placeAt 0x28000, rec1 0x38000 1, 3, atPost_of
      (by decide +kernel) (quiet_of (by decide +kernel)), postReaches_of 0x101000 (by decide +kernel) rfl,
      by decide +kernel⟩

theorem witness_PostStatusAndResult_2 : ∃ (gd : Guard) (d a : Opnd) (s : State) (g : Group) (l : LaneRef) (n :
    Launch) (w : Workgroup) (s1 : State) (p : Place) (h : Nat), (AtPost s g (.astep gd d a) gd l n w []) ∧
    (postReaches s l .read (reads64 s a l).toNat 32 s1 p) ∧ ((reads64 s a l).toNat % 32 = 0) ∧ (h = leNat
    (Memory.readN s1.mem p.addr 32)) :=
  ⟨p7, g 8, g 2, clockS astepI [] (hdr1 0) 0, workG astepI [], lane0, launch0, wgOf (clockS astepI [] (hdr1 0)
      0), (reach (clockS astepI [] (hdr1 0) 0) .read (reads64 (clockS astepI [] (hdr1 0) 0) (g 2)
      lane0).toNat).1, placeAt 0x38000, hdr1 0, atPost_of (by decide +kernel) (quiet_of (by decide +kernel)),
      postReaches_of 0x101000 (by decide +kernel) rfl, by decide +kernel⟩

theorem witness_StepClocks_apost_read : ∃ (s : State) (k : Group) (n : Launch) (v : Workgroup) (s1 : State) (p
    : Place) (q : Nat), AtPost s k apostI p7 lane0 n v (2 :: ([0x28001] ++ [hdr1 0])) ∧ postReaches s lane0
    .read (field (hdr1 0) 3 / 64 * 64) 32 s1 p ∧ (reads64 s (g 2) lane0).toNat % 32 = 0 ∧ q = leNat
    (Memory.readN s1.mem p.addr 32) ∧ field q 0 = (reads64 s (g 2) lane0).toNat := ⟨(clockS apostI (2 ::
    ([0x28001] ++ [hdr1 0])) (hdr1 0) (rec1 0x38000 1)), workG apostI (2 :: ([0x28001] ++ [hdr1 0])), launch0,
    wgOf (clockS apostI (2 :: ([0x28001] ++ [hdr1 0])) (hdr1 0) (rec1 0x38000 1)), (reach (clockS apostI (2 ::
    ([0x28001] ++ [hdr1 0])) (hdr1 0) (rec1 0x38000 1)) .read 0x28040).1, placeAt 0x28040, rec1 0x38000 1,
    atPost_of (by decide +kernel) (quiet_of (by decide +kernel)), postReaches_of 0x101000 (by decide +kernel)
    rfl, by decide +kernel⟩

theorem witness_StepClocks_apost_other : ∃ (s : State) (k : Group) (n : Launch) (v : Workgroup) (s1 : State) (p
    : Place) (q : Nat), AtPost s k apostI p7 lane0 n v (2 :: ([0x28001] ++ [hdr1 0])) ∧ postReaches s lane0
    .read (field (hdr1 0) 3 / 64 * 64) 32 s1 p ∧ (reads64 s (g 2) lane0).toNat % 32 = 0 ∧ q = leNat
    (Memory.readN s1.mem p.addr 32) ∧ field q 0 ≠ (reads64 s (g 2) lane0).toNat := ⟨(clockS apostI (2 ::
    ([0x28001] ++ [hdr1 0])) (hdr1 0) (rec1 0x38020 1)), workG apostI (2 :: ([0x28001] ++ [hdr1 0])), launch0,
    wgOf (clockS apostI (2 :: ([0x28001] ++ [hdr1 0])) (hdr1 0) (rec1 0x38020 1)), (reach (clockS apostI (2 ::
    ([0x28001] ++ [hdr1 0])) (hdr1 0) (rec1 0x38020 1)) .read 0x28040).1, placeAt 0x28040, rec1 0x38020 1,
    atPost_of (by decide +kernel) (quiet_of (by decide +kernel)), postReaches_of 0x101000 (by decide +kernel)
    rfl, by decide +kernel⟩

theorem witness_StepClocks_apost_install : ∃ (s : State) (k : Group) (n : Launch) (v : Workgroup) (h q : Nat)
    (s1 : State) (p : Place), AtPost s k apostI p7 lane0 n v (3 :: ([0x28001] ++ [h, q])) ∧ noBitmap s lane0 ∧
    postReaches s lane0 .rmw 0x38000 32 s1 p ∧ leafFit s1 p ∧ s.released lane0 .sys = true ∧ (reads64 s (g 2)
    lane0).toNat % 32 = 0 ∧ (reads64 s (g 2) lane0).toNat = 0x38000 ∧ field h 3 / 64 * 64 = 0x28040 ∧ (field q
    3 % 4 = 1 ∧ field q 3 / 8 % 4 = 0 ∧ field q 3 / 256 % 64 = field h 3 % 64) ∧ field h 2 ≠ field h 3 ∧ leNat
    (Memory.readN s1.mem p.addr 32) = h ∧ field q 3 / 32 % 8 ≠ 7 := ⟨(clockS apostI (3 :: ([0x28001] ++ [hdr1
    0, rec1 0x38000 1])) (hdr1 0) (rec1 0x38000 1)), workG apostI (3 :: ([0x28001] ++ [hdr1 0, rec1 0x38000
    1])), launch0, wgOf (clockS apostI (3 :: ([0x28001] ++ [hdr1 0, rec1 0x38000 1])) (hdr1 0) (rec1 0x38000
    1)), hdr1 0, rec1 0x38000 1, (reach (clockS apostI (3 :: ([0x28001] ++ [hdr1 0, rec1 0x38000 1])) (hdr1 0)
    (rec1 0x38000 1)) .rmw 0x38000).1, placeAt 0x38000, atPost_of (by decide +kernel) (quiet_of
    (by decide +kernel)), some_all (by decide +kernel), postReaches_of 0x101000 (by decide +kernel) rfl,
    leafFit_of (by decide +kernel), by decide +kernel⟩

theorem witness_StepClocks_apost_stale : ∃ (s : State) (k : Group) (n : Launch) (v : Workgroup) (h q : Nat) (s1
    : State) (p : Place), AtPost s k apostI p7 lane0 n v (3 :: ([0x28001] ++ [h, q])) ∧ noBitmap s lane0 ∧
    postReaches s lane0 .rmw 0x38000 32 s1 p ∧ leafFit s1 p ∧ s.released lane0 .sys = true ∧ (reads64 s (g 2)
    lane0).toNat % 32 = 0 ∧ (reads64 s (g 2) lane0).toNat = 0x38000 ∧ field h 3 / 64 * 64 = 0x28040 ∧ (field q
    3 % 4 = 1 ∧ field q 3 / 8 % 4 = 0 ∧ field q 3 / 256 % 64 = field h 3 % 64) ∧ field h 2 ≠ field h 3 ∧ leNat
    (Memory.readN s1.mem p.addr 32) ≠ h := ⟨(clockS apostI (3 :: ([0x28001] ++ [hdr1 0, rec1 0x38000 1])) 0
    (rec1 0x38000 1)), workG apostI (3 :: ([0x28001] ++ [hdr1 0, rec1 0x38000 1])), launch0, wgOf (clockS
    apostI (3 :: ([0x28001] ++ [hdr1 0, rec1 0x38000 1])) 0 (rec1 0x38000 1)), hdr1 0, rec1 0x38000 1, (reach
    (clockS apostI (3 :: ([0x28001] ++ [hdr1 0, rec1 0x38000 1])) 0 (rec1 0x38000 1)) .rmw 0x38000).1, placeAt
    0x38000, atPost_of (by decide +kernel) (quiet_of (by decide +kernel)), some_all (by decide +kernel),
    postReaches_of 0x101000 (by decide +kernel) rfl, leafFit_of (by decide +kernel), by decide +kernel⟩

theorem witness_StepClocks_apost_record : ∃ (s : State) (k : Group) (n : Launch) (v : Workgroup) (h q : Nat)
    (s1 : State) (p : Place), AtPost s k apostI p7 lane0 n v (3 :: ([0x28001] ++ [h, q])) ∧ noBitmap s lane0 ∧
    postReaches s lane0 .rmw 0x28040 32 s1 p ∧ leafFit s1 p ∧ s.released lane0 .sys = true ∧ (reads64 s (g 2)
    lane0).toNat % 32 = 0 ∧ (reads64 s (g 2) lane0).toNat = 0x38000 ∧ field h 3 / 64 * 64 = 0x28040 ∧ (field q
    3 % 4 = 1 ∧ field q 3 / 8 % 4 = 0 ∧ field q 3 / 256 % 64 = field h 3 % 64) ∧ field h 2 = field h 3 ∧ leNat
    (Memory.readN s1.mem p.addr 32) = q := ⟨(clockS apostI (3 :: ([0x28001] ++ [hdr1 0x28041, rec1 0x38000 1]))
    (hdr1 0x28041) (rec1 0x38000 1)), workG apostI (3 :: ([0x28001] ++ [hdr1 0x28041, rec1 0x38000 1])),
    launch0, wgOf (clockS apostI (3 :: ([0x28001] ++ [hdr1 0x28041, rec1 0x38000 1])) (hdr1 0x28041) (rec1
    0x38000 1)), hdr1 0x28041, rec1 0x38000 1, (reach (clockS apostI (3 :: ([0x28001] ++ [hdr1 0x28041, rec1
    0x38000 1])) (hdr1 0x28041) (rec1 0x38000 1)) .rmw 0x28040).1, placeAt 0x28040, atPost_of
    (by decide +kernel) (quiet_of (by decide +kernel)), some_all (by decide +kernel), postReaches_of 0x101000
    (by decide +kernel) rfl, leafFit_of (by decide +kernel), by decide +kernel⟩

theorem witness_StepClocks_apost_rerecord : ∃ (s : State) (k : Group) (n : Launch) (v : Workgroup) (h q : Nat)
    (s1 : State) (p : Place), AtPost s k apostI p7 lane0 n v (3 :: ([0x28001] ++ [h, q])) ∧ noBitmap s lane0 ∧
    postReaches s lane0 .rmw 0x28040 32 s1 p ∧ leafFit s1 p ∧ s.released lane0 .sys = true ∧ (reads64 s (g 2)
    lane0).toNat % 32 = 0 ∧ (reads64 s (g 2) lane0).toNat = 0x38000 ∧ field h 3 / 64 * 64 = 0x28040 ∧ (field q
    3 % 4 = 1 ∧ field q 3 / 8 % 4 = 0 ∧ field q 3 / 256 % 64 = field h 3 % 64) ∧ field h 2 = field h 3 ∧ leNat
    (Memory.readN s1.mem p.addr 32) ≠ q := ⟨(clockS apostI (3 :: ([0x28001] ++ [hdr1 0x28041, rec1 0x38000 1]))
    (hdr1 0x28041) 0), workG apostI (3 :: ([0x28001] ++ [hdr1 0x28041, rec1 0x38000 1])), launch0, wgOf (clockS
    apostI (3 :: ([0x28001] ++ [hdr1 0x28041, rec1 0x38000 1])) (hdr1 0x28041) 0), hdr1 0x28041, rec1 0x38000
    1, (reach (clockS apostI (3 :: ([0x28001] ++ [hdr1 0x28041, rec1 0x38000 1])) (hdr1 0x28041) 0) .rmw
    0x28040).1, placeAt 0x28040, atPost_of (by decide +kernel) (quiet_of (by decide +kernel)), some_all
    (by decide +kernel), postReaches_of 0x101000 (by decide +kernel) rfl, leafFit_of (by decide +kernel),
    by decide +kernel⟩

theorem witness_StepClocks_apost_unlink : ∃ (s : State) (k : Group) (n : Launch) (v : Workgroup) (h q : Nat)
    (s1 : State) (p : Place), AtPost s k apostI p7 lane0 n v (3 :: ([0x28001] ++ [h, q])) ∧ noBitmap s lane0 ∧
    postReaches s lane0 .rmw 0x38018 8 s1 p ∧ leafFit s1 p ∧ s.released lane0 .sys = true ∧ (reads64 s (g 2)
    lane0).toNat % 32 = 0 ∧ (reads64 s (g 2) lane0).toNat = 0x38000 ∧ field h 3 / 64 * 64 = 0x28040 ∧ ¬ (field
    q 3 % 4 = 1 ∧ field q 3 / 8 % 4 = 0 ∧ field q 3 / 256 % 64 = field h 3 % 64) ∧ field h 2 = field h 3 ∧
    leNat (Memory.readN s1.mem p.addr 8) = field h 3 := ⟨(clockS apostI (3 :: ([0x28001] ++ [hdr1 0x28041, rec1
    0x38000 2])) (hdr1 0x28041) (rec1 0x38000 2)), workG apostI (3 :: ([0x28001] ++ [hdr1 0x28041, rec1 0x38000
    2])), launch0, wgOf (clockS apostI (3 :: ([0x28001] ++ [hdr1 0x28041, rec1 0x38000 2])) (hdr1 0x28041)
    (rec1 0x38000 2)), hdr1 0x28041, rec1 0x38000 2, (reach (clockS apostI (3 :: ([0x28001] ++ [hdr1 0x28041,
    rec1 0x38000 2])) (hdr1 0x28041) (rec1 0x38000 2)) .rmw 0x38018).1, placeAt 0x38018, atPost_of
    (by decide +kernel) (quiet_of (by decide +kernel)), some_all (by decide +kernel), postReaches_of 0x101000
    (by decide +kernel) rfl, leafFit_of (by decide +kernel), by decide +kernel⟩

theorem witness_StepClocks_apost_relinked : ∃ (s : State) (k : Group) (n : Launch) (v : Workgroup) (h q : Nat)
    (s1 : State) (p : Place), AtPost s k apostI p7 lane0 n v (3 :: ([0x28001] ++ [h, q])) ∧ noBitmap s lane0 ∧
    postReaches s lane0 .rmw 0x38018 8 s1 p ∧ leafFit s1 p ∧ s.released lane0 .sys = true ∧ (reads64 s (g 2)
    lane0).toNat % 32 = 0 ∧ (reads64 s (g 2) lane0).toNat = 0x38000 ∧ field h 3 / 64 * 64 = 0x28040 ∧ ¬ (field
    q 3 % 4 = 1 ∧ field q 3 / 8 % 4 = 0 ∧ field q 3 / 256 % 64 = field h 3 % 64) ∧ field h 2 = field h 3 ∧
    leNat (Memory.readN s1.mem p.addr 8) ≠ field h 3 := ⟨(clockS apostI (3 :: ([0x28001] ++ [hdr1 0x28041, rec1
    0x38000 2])) 0 (rec1 0x38000 2)), workG apostI (3 :: ([0x28001] ++ [hdr1 0x28041, rec1 0x38000 2])),
    launch0, wgOf (clockS apostI (3 :: ([0x28001] ++ [hdr1 0x28041, rec1 0x38000 2])) 0 (rec1 0x38000 2)), hdr1
    0x28041, rec1 0x38000 2, (reach (clockS apostI (3 :: ([0x28001] ++ [hdr1 0x28041, rec1 0x38000 2])) 0 (rec1
    0x38000 2)) .rmw 0x38018).1, placeAt 0x38018, atPost_of (by decide +kernel) (quiet_of (by decide +kernel)),
    some_all (by decide +kernel), postReaches_of 0x101000 (by decide +kernel) rfl, leafFit_of
    (by decide +kernel), by decide +kernel⟩

theorem witness_StepClocks_astep_read : ∃ (s : State) (k : Group) (n : Launch) (v : Workgroup) (s1 : State) (p
    : Place) (q : Nat), AtPost s k astepI p7 lane0 n v (2 :: (([] : List Nat) ++ [hdr1 0])) ∧ postReaches s
    lane0 .read (field (hdr1 0) 3 / 64 * 64) 32 s1 p ∧ (reads64 s (g 2) lane0).toNat % 32 = 0 ∧ q = leNat
    (Memory.readN s1.mem p.addr 32) ∧ field q 0 = (reads64 s (g 2) lane0).toNat := ⟨(clockS astepI (2 :: (([] :
    List Nat) ++ [hdr1 0])) (hdr1 0) (rec1 0x38000 1)), workG astepI (2 :: (([] : List Nat) ++ [hdr1 0])),
    launch0, wgOf (clockS astepI (2 :: (([] : List Nat) ++ [hdr1 0])) (hdr1 0) (rec1 0x38000 1)), (reach
    (clockS astepI (2 :: (([] : List Nat) ++ [hdr1 0])) (hdr1 0) (rec1 0x38000 1)) .read 0x28040).1, placeAt
    0x28040, rec1 0x38000 1, atPost_of (by decide +kernel) (quiet_of (by decide +kernel)), postReaches_of
    0x101000 (by decide +kernel) rfl, by decide +kernel⟩

theorem witness_StepClocks_astep_other : ∃ (s : State) (k : Group) (n : Launch) (v : Workgroup) (s1 : State) (p
    : Place) (q : Nat), AtPost s k astepI p7 lane0 n v (2 :: (([] : List Nat) ++ [hdr1 0])) ∧ postReaches s
    lane0 .read (field (hdr1 0) 3 / 64 * 64) 32 s1 p ∧ (reads64 s (g 2) lane0).toNat % 32 = 0 ∧ q = leNat
    (Memory.readN s1.mem p.addr 32) ∧ field q 0 ≠ (reads64 s (g 2) lane0).toNat := ⟨(clockS astepI (2 :: (([] :
    List Nat) ++ [hdr1 0])) (hdr1 0) (rec1 0x38020 1)), workG astepI (2 :: (([] : List Nat) ++ [hdr1 0])),
    launch0, wgOf (clockS astepI (2 :: (([] : List Nat) ++ [hdr1 0])) (hdr1 0) (rec1 0x38020 1)), (reach
    (clockS astepI (2 :: (([] : List Nat) ++ [hdr1 0])) (hdr1 0) (rec1 0x38020 1)) .read 0x28040).1, placeAt
    0x28040, rec1 0x38020 1, atPost_of (by decide +kernel) (quiet_of (by decide +kernel)), postReaches_of
    0x101000 (by decide +kernel) rfl, by decide +kernel⟩

theorem witness_StepClocks_astep_install : ∃ (s : State) (k : Group) (n : Launch) (v : Workgroup) (h q : Nat)
    (s1 : State) (p : Place), AtPost s k astepI p7 lane0 n v (3 :: (([] : List Nat) ++ [h, q])) ∧ noBitmap s
    lane0 ∧ postReaches s lane0 .rmw 0x38000 32 s1 p ∧ leafFit s1 p ∧ s.released lane0 .sys = true ∧ (reads64 s
    (g 2) lane0).toNat % 32 = 0 ∧ (reads64 s (g 2) lane0).toNat = 0x38000 ∧ field h 3 / 64 * 64 = 0x28040 ∧
    (field q 3 % 4 = 1 ∧ field q 3 / 8 % 4 = 0 ∧ field q 3 / 256 % 64 = field h 3 % 64) ∧ field h 2 ≠ field h 3
    ∧ leNat (Memory.readN s1.mem p.addr 32) = h ∧ field q 3 / 32 % 8 ≠ 7 := ⟨(clockS astepI (3 :: (([] : List
    Nat) ++ [hdr1 0, rec1 0x38000 1])) (hdr1 0) (rec1 0x38000 1)), workG astepI (3 :: (([] : List Nat) ++ [hdr1
    0, rec1 0x38000 1])), launch0, wgOf (clockS astepI (3 :: (([] : List Nat) ++ [hdr1 0, rec1 0x38000 1]))
    (hdr1 0) (rec1 0x38000 1)), hdr1 0, rec1 0x38000 1, (reach (clockS astepI (3 :: (([] : List Nat) ++ [hdr1
    0, rec1 0x38000 1])) (hdr1 0) (rec1 0x38000 1)) .rmw 0x38000).1, placeAt 0x38000, atPost_of
    (by decide +kernel) (quiet_of (by decide +kernel)), some_all (by decide +kernel), postReaches_of 0x101000
    (by decide +kernel) rfl, leafFit_of (by decide +kernel), by decide +kernel⟩

theorem witness_StepClocks_astep_stale : ∃ (s : State) (k : Group) (n : Launch) (v : Workgroup) (h q : Nat) (s1
    : State) (p : Place), AtPost s k astepI p7 lane0 n v (3 :: (([] : List Nat) ++ [h, q])) ∧ noBitmap s lane0
    ∧ postReaches s lane0 .rmw 0x38000 32 s1 p ∧ leafFit s1 p ∧ s.released lane0 .sys = true ∧ (reads64 s (g 2)
    lane0).toNat % 32 = 0 ∧ (reads64 s (g 2) lane0).toNat = 0x38000 ∧ field h 3 / 64 * 64 = 0x28040 ∧ (field q
    3 % 4 = 1 ∧ field q 3 / 8 % 4 = 0 ∧ field q 3 / 256 % 64 = field h 3 % 64) ∧ field h 2 ≠ field h 3 ∧ leNat
    (Memory.readN s1.mem p.addr 32) ≠ h := ⟨(clockS astepI (3 :: (([] : List Nat) ++ [hdr1 0, rec1 0x38000 1]))
    0 (rec1 0x38000 1)), workG astepI (3 :: (([] : List Nat) ++ [hdr1 0, rec1 0x38000 1])), launch0, wgOf
    (clockS astepI (3 :: (([] : List Nat) ++ [hdr1 0, rec1 0x38000 1])) 0 (rec1 0x38000 1)), hdr1 0, rec1
    0x38000 1, (reach (clockS astepI (3 :: (([] : List Nat) ++ [hdr1 0, rec1 0x38000 1])) 0 (rec1 0x38000 1))
    .rmw 0x38000).1, placeAt 0x38000, atPost_of (by decide +kernel) (quiet_of (by decide +kernel)), some_all
    (by decide +kernel), postReaches_of 0x101000 (by decide +kernel) rfl, leafFit_of (by decide +kernel),
    by decide +kernel⟩

theorem witness_StepClocks_astep_record : ∃ (s : State) (k : Group) (n : Launch) (v : Workgroup) (h q : Nat)
    (s1 : State) (p : Place), AtPost s k astepI p7 lane0 n v (3 :: (([] : List Nat) ++ [h, q])) ∧ noBitmap s
    lane0 ∧ postReaches s lane0 .rmw 0x28040 32 s1 p ∧ leafFit s1 p ∧ s.released lane0 .sys = true ∧ (reads64 s
    (g 2) lane0).toNat % 32 = 0 ∧ (reads64 s (g 2) lane0).toNat = 0x38000 ∧ field h 3 / 64 * 64 = 0x28040 ∧
    (field q 3 % 4 = 1 ∧ field q 3 / 8 % 4 = 0 ∧ field q 3 / 256 % 64 = field h 3 % 64) ∧ field h 2 = field h 3
    ∧ leNat (Memory.readN s1.mem p.addr 32) = q := ⟨(clockS astepI (3 :: (([] : List Nat) ++ [hdr1 0x28041,
    rec1 0x38000 1])) (hdr1 0x28041) (rec1 0x38000 1)), workG astepI (3 :: (([] : List Nat) ++ [hdr1 0x28041,
    rec1 0x38000 1])), launch0, wgOf (clockS astepI (3 :: (([] : List Nat) ++ [hdr1 0x28041, rec1 0x38000 1]))
    (hdr1 0x28041) (rec1 0x38000 1)), hdr1 0x28041, rec1 0x38000 1, (reach (clockS astepI (3 :: (([] : List
    Nat) ++ [hdr1 0x28041, rec1 0x38000 1])) (hdr1 0x28041) (rec1 0x38000 1)) .rmw 0x28040).1, placeAt 0x28040,
    atPost_of (by decide +kernel) (quiet_of (by decide +kernel)), some_all (by decide +kernel), postReaches_of
    0x101000 (by decide +kernel) rfl, leafFit_of (by decide +kernel), by decide +kernel⟩

theorem witness_StepClocks_astep_rerecord : ∃ (s : State) (k : Group) (n : Launch) (v : Workgroup) (h q : Nat)
    (s1 : State) (p : Place), AtPost s k astepI p7 lane0 n v (3 :: (([] : List Nat) ++ [h, q])) ∧ noBitmap s
    lane0 ∧ postReaches s lane0 .rmw 0x28040 32 s1 p ∧ leafFit s1 p ∧ s.released lane0 .sys = true ∧ (reads64 s
    (g 2) lane0).toNat % 32 = 0 ∧ (reads64 s (g 2) lane0).toNat = 0x38000 ∧ field h 3 / 64 * 64 = 0x28040 ∧
    (field q 3 % 4 = 1 ∧ field q 3 / 8 % 4 = 0 ∧ field q 3 / 256 % 64 = field h 3 % 64) ∧ field h 2 = field h 3
    ∧ leNat (Memory.readN s1.mem p.addr 32) ≠ q := ⟨(clockS astepI (3 :: (([] : List Nat) ++ [hdr1 0x28041,
    rec1 0x38000 1])) (hdr1 0x28041) 0), workG astepI (3 :: (([] : List Nat) ++ [hdr1 0x28041, rec1 0x38000
    1])), launch0, wgOf (clockS astepI (3 :: (([] : List Nat) ++ [hdr1 0x28041, rec1 0x38000 1])) (hdr1
    0x28041) 0), hdr1 0x28041, rec1 0x38000 1, (reach (clockS astepI (3 :: (([] : List Nat) ++ [hdr1 0x28041,
    rec1 0x38000 1])) (hdr1 0x28041) 0) .rmw 0x28040).1, placeAt 0x28040, atPost_of (by decide +kernel)
    (quiet_of (by decide +kernel)), some_all (by decide +kernel), postReaches_of 0x101000 (by decide +kernel)
    rfl, leafFit_of (by decide +kernel), by decide +kernel⟩

theorem witness_StepClocks_astep_unlink : ∃ (s : State) (k : Group) (n : Launch) (v : Workgroup) (h q : Nat)
    (s1 : State) (p : Place), AtPost s k astepI p7 lane0 n v (3 :: (([] : List Nat) ++ [h, q])) ∧ noBitmap s
    lane0 ∧ postReaches s lane0 .rmw 0x38018 8 s1 p ∧ leafFit s1 p ∧ s.released lane0 .sys = true ∧ (reads64 s
    (g 2) lane0).toNat % 32 = 0 ∧ (reads64 s (g 2) lane0).toNat = 0x38000 ∧ field h 3 / 64 * 64 = 0x28040 ∧ ¬
    (field q 3 % 4 = 1 ∧ field q 3 / 8 % 4 = 0 ∧ field q 3 / 256 % 64 = field h 3 % 64) ∧ field h 2 = field h 3
    ∧ leNat (Memory.readN s1.mem p.addr 8) = field h 3 := ⟨(clockS astepI (3 :: (([] : List Nat) ++ [hdr1
    0x28041, rec1 0x38000 2])) (hdr1 0x28041) (rec1 0x38000 2)), workG astepI (3 :: (([] : List Nat) ++ [hdr1
    0x28041, rec1 0x38000 2])), launch0, wgOf (clockS astepI (3 :: (([] : List Nat) ++ [hdr1 0x28041, rec1
    0x38000 2])) (hdr1 0x28041) (rec1 0x38000 2)), hdr1 0x28041, rec1 0x38000 2, (reach (clockS astepI (3 ::
    (([] : List Nat) ++ [hdr1 0x28041, rec1 0x38000 2])) (hdr1 0x28041) (rec1 0x38000 2)) .rmw 0x38018).1,
    placeAt 0x38018, atPost_of (by decide +kernel) (quiet_of (by decide +kernel)), some_all
    (by decide +kernel), postReaches_of 0x101000 (by decide +kernel) rfl, leafFit_of (by decide +kernel),
    by decide +kernel⟩

theorem witness_StepClocks_astep_relinked : ∃ (s : State) (k : Group) (n : Launch) (v : Workgroup) (h q : Nat)
    (s1 : State) (p : Place), AtPost s k astepI p7 lane0 n v (3 :: (([] : List Nat) ++ [h, q])) ∧ noBitmap s
    lane0 ∧ postReaches s lane0 .rmw 0x38018 8 s1 p ∧ leafFit s1 p ∧ s.released lane0 .sys = true ∧ (reads64 s
    (g 2) lane0).toNat % 32 = 0 ∧ (reads64 s (g 2) lane0).toNat = 0x38000 ∧ field h 3 / 64 * 64 = 0x28040 ∧ ¬
    (field q 3 % 4 = 1 ∧ field q 3 / 8 % 4 = 0 ∧ field q 3 / 256 % 64 = field h 3 % 64) ∧ field h 2 = field h 3
    ∧ leNat (Memory.readN s1.mem p.addr 8) ≠ field h 3 := ⟨(clockS astepI (3 :: (([] : List Nat) ++ [hdr1
    0x28041, rec1 0x38000 2])) 0 (rec1 0x38000 2)), workG astepI (3 :: (([] : List Nat) ++ [hdr1 0x28041, rec1
    0x38000 2])), launch0, wgOf (clockS astepI (3 :: (([] : List Nat) ++ [hdr1 0x28041, rec1 0x38000 2])) 0
    (rec1 0x38000 2)), hdr1 0x28041, rec1 0x38000 2, (reach (clockS astepI (3 :: (([] : List Nat) ++ [hdr1
    0x28041, rec1 0x38000 2])) 0 (rec1 0x38000 2)) .rmw 0x38018).1, placeAt 0x38018, atPost_of
    (by decide +kernel) (quiet_of (by decide +kernel)), some_all (by decide +kernel), postReaches_of 0x101000
    (by decide +kernel) rfl, leafFit_of (by decide +kernel), by decide +kernel⟩

/-- Another id waits in the queue for the object that is unlinked. -/
theorem witness_StepClocks_queued : ∃ (s : State) (p : Place) (r : RefusedLink) (rest : List RefusedLink),
    s.refusals = r :: rest ∧ r.obj = p.addr - 24 ∧ s.time ≤ r.time + 2000000 ∧ ∀ v ∈ s.resvs, v.obj ≠ r.obj :=
  ⟨{ clockS apostI [3, 0x28001, hdr1 0x28041, rec1 0x38000 2] (hdr1 0x28041) (rec1 0x38000 2) with
      refusals := [⟨homeOf (0x38000 / 128), 0x38000, 0x28081, 0⟩] }, placeAt 0x38018,
    ⟨homeOf (0x38000 / 128), 0x38000, 0x28081, 0⟩, [], by decide +kernel⟩

end Sys2Proof.Tests
end

