-- ==== Sys2Proof/Tests/Witness3.lean ====
section
/-! SUPPORT. Witnesses: for every statement with premises, states and operands that meet all of them together
(engine commands and system instructions). -/

namespace Sys2Proof.Tests

open Sys2Proof Sys2Proof.Machine Sys2Proof.Spec

set_option Elab.async false
set_option linter.unusedVariables false

/-! Engine commands (R60, R243 to R245). -/

/-- The command that acceptance leaves. -/
def accCmd (x : State × Acc Cmd) (c : Cmd) : Cmd :=
  match x.2 with
  | .ok d => d
  | .trap _ | .fault _ _ _ _ | .held | .bad => c

def regs (t : Thread) (l : Map Word) : Thread := { t with regs := l }
def sent (s : State) (i : Instr) : State × Acc Cmd :=
  ((engineOps i).map fun x => x.1.accept (atCommand s i [lane0])
    ((atCommand s i [lane0]).mkCmd i ((i.engine).getD .copy) lane0 [lane0])).getD (s, .bad)

/-- An MMA of one row and one column of I8, its inputs in the loft. -/
def mmaI : Instr := .mma p7 .s1 .s0 2#3 (g 8)
def mmaS : State := stage mmaI fun t =>
  regs t [(8, 0x777#32), (9, 0x06010101#32), (12, 64#32), (14, 32#32), (15, 32#32)]
def mmaC : Cmd := (atCommand mmaS mmaI [lane0]).mkCmd mmaI .matrix lane0 [lane0]

/-- A copy within the loft that completes on a barrier slot. -/
def cpyI : Instr := .cpy p7 (.bar (g 4)) (g 2)
def copyS (i : Instr) (coll : Nat) : State :=
  ((stage i fun t => regs t [(2, 0x30000#32), (4, 4080#32)]).rawWrite 0x30000
    (leBytes 64 (64 * 2 ^ 64 + (2 ^ 133 + 2 ^ 134) + coll * 2 ^ 144 + 16 * 2 ^ 192))).setWg 2 fun w => { w with
      live := [255], loft := Memory.writeN [] 4080 (leBytes 16 (1 * 2 ^ 32 + 2 ^ 49 + 5 * 2 ^ 96 + 0x5B2C * 2 ^ 112)) }
def cpyS : State := copyS cpyI 0
def cpyT : State × Acc Cmd :=
  copyOp.accept (atCommand cpyS cpyI [lane0]) ((atCommand cpyS cpyI [lane0]).mkCmd cpyI .copy lane0 [lane0])

/-- A slice of a collective of one, and of two, slices. -/
def cpycI : Instr := .cpyc p7 (.bar (g 4)) (g 2)
def cpycS (n : Nat) : State := copyS cpycI (16 * n)
def cpycT (n : Nat) : State × Acc Cmd :=
  sliceOp.accept (atCommand (cpycS n) cpycI [lane0])
    ((atCommand (cpycS n) cpycI [lane0]).mkCmd cpycI .copy lane0 [lane0])

theorem sends_of {s : State} {g : Group} {i : Instr} {e : Engine} {op : EngineOp} {ok : Nat → Bool} {l : LaneRef}
    {r : List LaneRef} {w : Workgroup} {s1 : State} {c : Cmd} (ho : engineOps i = some (op, ok))
    (h : (readyB s g i && decide (i.engine = some e) && decide (running s g (commandGuard i) = l :: r) &&
      (r.all fun m => m.wg == l.wg && m.rig == l.rig) && decide (s.wg? l.wg = some w) &&
      decide ((s.cmds.filter fun d => d.core == s.focus.1 && d.engine == e && !d.stopped).length < e.places) &&
      decide (op.check (atCommand s i (l :: r)) ((atCommand s i (l :: r)).mkCmd i e l (l :: r)) = none) &&
      decide ((op.accept (atCommand s i (l :: r)) ((atCommand s i (l :: r)).mkCmd i e l (l :: r))).2 = .ok c) &&
      decide (s1.halt = none)) = true)
    (h1 : (op.accept (atCommand s i (l :: r)) ((atCommand s i (l :: r)).mkCmd i e l (l :: r))).1 = s1)
    (hq : quiet s l)
    (hp : s.prot l.wg = true → l.lane % 2 = 0 ∧ (∀ m ∈ l :: r, mate m ∈ l :: r) ∧
      commandWords (reading s (l :: r) [i.engineOpnd]) i (mate l) =
        commandWords (reading s (l :: r) [i.engineOpnd]) i l)
    (hf : i.hasFormat = true → ok (regAt s i.engineOpnd 0 l).toNat = true ∧
      ∀ m ∈ r, regAt s i.engineOpnd 0 m = regAt s i.engineOpnd 0 l)
    (hk : ∀ k, i.completion = .tok k → ∀ n, n < 64 → (s.thread ⟨l.wg, l.rig, n⟩).alive = true →
      tokenOf s ⟨l.wg, l.rig, n⟩ k.toNat < 63)
    (hb : ∀ o, i.completion = .bar o → barAt s i o l r % 16 = 0 ∧ barAt s i o l r + 16 ≤ (s.limits l.wg).2.2 ∧
      w.isLive (barAt s i o l r) = true) : Sends s g i e op ok l r w s1 c := by
  simp only [Bool.and_eq_true, decide_eq_true_eq] at h
  obtain ⟨⟨⟨⟨⟨⟨⟨⟨a, b⟩, d⟩, f⟩, k⟩, m⟩, n⟩, q⟩, t⟩ := h
  exact { toReady := ready_of a, ops := ho, engine := b, only := d, pair := hp, wg := k, format := hf, room := m
          token := hk, quiet := hq, bar := hb, check := n, accept := Prod.ext h1 q, halt1 := t
          rig := fun x hx => by simpa using List.all_eq_true.mp f x hx }

theorem witness_CommandsAccepted : ∃ (i : Instr) (e : Engine) (op : EngineOp) (ok : Nat → Bool) (s : State) (g
    : Group) (l : LaneRef) (r : List LaneRef) (w : Workgroup) (s1 : State) (c : Cmd), (Sends s g i e op ok l r
    w s1 c) ∧ ((∀ gd k a, i ≠ .cpyc gd k a)) ∧ ((∀ gd p k a, i = .rngsnd gd p k a → c.target = 0)) :=
  ⟨mmaI, .matrix, mmaOp, mmaFormatOk false, mmaS, group0 (wordOf mmaI), lane0, [], wgOf mmaS, (mmaOp.accept
      (atCommand mmaS mmaI [lane0]) mmaC).1, mmaC, sends_of rfl (by decide +kernel) rfl (quiet_of
      (by decide +kernel)) (fun h => absurd h (by decide +kernel)) (fun _ => ⟨by decide +kernel, fun _ h =>
      (by cases h)⟩) (fun k h => (by obtain rfl : 2#3 = k := Completion.tok.inj h; decide +kernel)) (fun o h =>
      (by have h : Completion.tok 2#3 = .bar o := h; cases h)), fun _ _ _ h => (by cases h), fun _ _ _ _ h =>
      (by cases h)⟩

/-- The same command of a protected pair. -/
def mmaP : State :=
  let r : Map Word := [(8, 0x777#32), (9, 0x06010101#32), (12, 64#32), (14, 32#32), (15, 32#32)]
  twinS mmaI (fun t => regs t r) (fun t => regs t r)
def twin0 : List LaneRef := [lane0, mate lane0]
def mmaPC : Cmd := (atCommand mmaP mmaI twin0).mkCmd mmaI .matrix lane0 twin0

theorem witness_CommandsAccepted_pair : ∃ (i : Instr) (e : Engine) (op : EngineOp) (ok : Nat → Bool) (s :
    State) (g : Group) (l : LaneRef) (r : List LaneRef) (w : Workgroup) (s1 : State) (c : Cmd), (Sends s g i e
    op ok l r w s1 c) ∧ ((∀ gd k a, i ≠ .cpyc gd k a)) ∧ ((∀ gd p k a, i = .rngsnd gd p k a → c.target = 0)) :=
  ⟨mmaI, .matrix, mmaOp, mmaFormatOk false, mmaP, twinG (wordOf mmaI), lane0, [mate lane0], wgOf mmaP,
      (mmaOp.accept (atCommand mmaP mmaI twin0) mmaPC).1, mmaPC, sends_of rfl (by decide +kernel) rfl (quiet_of
      (by decide +kernel)) (fun _ => (by decide +kernel)) (fun _ => (by decide +kernel)) (fun k h =>
      (by obtain rfl : 2#3 = k := Completion.tok.inj h; decide +kernel)) (fun o h =>
      (by have h : Completion.tok 2#3 = .bar o := h; cases h)), fun _ _ _ h => (by cases h), fun _ _ _ _ h =>
      (by cases h)⟩

theorem witness_CommandsAccepted_barrier : ∃ (i : Instr) (e : Engine) (op : EngineOp) (ok : Nat → Bool) (s :
    State) (g : Group) (l : LaneRef) (r : List LaneRef) (w : Workgroup) (s1 : State) (c : Cmd), (Sends s g i e
    op ok l r w s1 c) ∧ ((∀ gd k a, i ≠ .cpyc gd k a)) ∧ ((∀ gd p k a, i = .rngsnd gd p k a → c.target = 0)) :=
  ⟨cpyI, .copy, copyOp, fun _ => true, cpyS, group0 (wordOf cpyI), lane0, [], wgOf cpyS, cpyT.1, accCmd cpyT
      mmaC, sends_of rfl (by decide +kernel) rfl (quiet_of (by decide +kernel)) (fun h => absurd h
      (by decide +kernel)) (fun h => (by have h : false = true := h; cases h)) (fun k h =>
      (by have h : Completion.bar (g 4) = .tok k := h; cases h)) (fun o h =>
      (by obtain rfl : g 4 = o := Completion.bar.inj h; decide +kernel)), fun _ _ _ h => (by cases h), fun _ _
      _ _ h => (by cases h)⟩

theorem witness_CollectiveSlices_last : ∃ (gd : Guard) (k : Completion) (a : Opnd) (s : State) (g : Group) (l :
    LaneRef) (r : List LaneRef) (w : Workgroup) (s1 : State) (c : Cmd) (coll slc chan : Nat) (others : List
    Slice), (Sends s g (.cpyc gd k a) .copy sliceOp (fun _ => true) l r w s1 c) ∧ (coll = bits (leNat c.desc)
    144 4) ∧ (slc = bits (leNat c.desc) 148 4) ∧ (chan = bits (leNat c.desc) 128 4) ∧ (others = w.slices.filter
    (fun x => x.coll == coll)) :=
  ⟨p7, .bar (g 4), g 2, cpycS 0, group0 (wordOf cpycI), lane0, [], wgOf (cpycS 0), (cpycT 0).1, accCmd (cpycT
      0) mmaC, 0, 0, 0, [], sends_of rfl (by decide +kernel) rfl (quiet_of (by decide +kernel)) (fun h =>
      absurd h (by decide +kernel)) (fun h => (by have h : false = true := h; cases h)) (fun k h =>
      (by have h : Completion.bar (g 4) = .tok k := h; cases h)) (fun o h =>
      (by obtain rfl : g 4 = o := Completion.bar.inj h; decide +kernel)), by decide +kernel⟩

theorem witness_CollectiveSlices_first : ∃ (gd : Guard) (k : Completion) (a : Opnd) (s : State) (g : Group) (l
    : LaneRef) (r : List LaneRef) (w : Workgroup) (s1 : State) (c : Cmd) (coll slc chan : Nat) (others : List
    Slice), (Sends s g (.cpyc gd k a) .copy sliceOp (fun _ => true) l r w s1 c) ∧ (coll = bits (leNat c.desc)
    144 4) ∧ (slc = bits (leNat c.desc) 148 4) ∧ (chan = bits (leNat c.desc) 128 4) ∧ (others = w.slices.filter
    (fun x => x.coll == coll)) :=
  ⟨p7, .bar (g 4), g 2, cpycS 1, group0 (wordOf cpycI), lane0, [], wgOf (cpycS 1), (cpycT 1).1, accCmd (cpycT
      1) mmaC, 0, 1, 0, [], sends_of rfl (by decide +kernel) rfl (quiet_of (by decide +kernel)) (fun h =>
      absurd h (by decide +kernel)) (fun h => (by have h : false = true := h; cases h)) (fun k h =>
      (by have h : Completion.bar (g 4) = .tok k := h; cases h)) (fun o h =>
      (by obtain rfl : g 4 = o := Completion.bar.inj h; decide +kernel)), by decide +kernel⟩

/-! System instructions (R170 to R174). -/

def asetI : Instr := .movsw p7 .aset (.c 0#6)
def pksetI : Instr := .pkset p7 (g 2) (.c 3#6)
def pksetS : State := stage pksetI (addr 31)
def cancelI : Instr := .cancel p7 .job true (.c 0#6)
def evsigI : Instr := .evsig p7 (g 2) (.c 1#6)
def evsigS : State := stage evsigI (addr 4095)

theorem witness_SystemWrites_1 : ∃ (gd : Guard) (a : Opnd) (s : State) (g : Group) (l : LaneRef), (One s g
    (.movsw gd .aset a) gd l) ∧ ((reads s a l).toNat < (s.limits l.wg).2.1) :=
  ⟨p7, .c 0#6, stage asetI, group0 (wordOf asetI), lane0, one_of (by decide +kernel), by decide +kernel⟩

/-- The last key, with both permissions. -/
theorem witness_SystemWrites_2 : ∃ (gd : Guard) (a b : Opnd) (s : State) (g : Group) (l : LaneRef), (One s g
    (.pkset gd a b) gd l) ∧ ((reads s a l).toNat ≤ 31) ∧ ((reads s b l).toNat ≤ 3) :=
  ⟨p7, g 2, .c 3#6, pksetS, group0 (wordOf pksetI), lane0, one_of (by decide +kernel), by decide +kernel⟩

theorem witness_SystemWrites_3 : ∃ (gd : Guard) (s : State) (g : Group), (Ready s g (.mopf gd)) :=
  ⟨p7, stage (.mopf p7), group0 (wordOf (.mopf p7)), ready_of (by decide +kernel)⟩

theorem witness_SystemWrites_4 : ∃ (gd : Guard) (lvl : Level) (hard : Bool) (a : Opnd) (s : State) (g : Group)
    (l : LaneRef) (n : Launch), (One s g (.cancel gd lvl hard a) gd l) ∧ (s.launchOf? l.wg = some n) ∧ ((∀ k ∈
    s.launches, k.vf = n.vf → identity k lvl = (reads s a l).toNat → k.rcd.job = n.rcd.job)) :=
  ⟨p7, .job, true, .c 0#6, stage cancelI, group0 (wordOf cancelI), lane0, launch0, one_of (by decide +kernel),
      by decide +kernel⟩

/-- The last counter. -/
theorem witness_SystemWrites_5 : ∃ (gd : Guard) (a b : Opnd) (s : State) (g : Group) (l : LaneRef) (n :
    Launch), (One s g (.evsig gd a b) gd l) ∧ (s.launchOf? l.wg = some n) ∧ (n.repl = false) ∧ (s.released l
    .sys = true) ∧ ((reads s a l).toNat < 4096) :=
  ⟨p7, g 2, .c 1#6, evsigS, group0 (wordOf evsigI), lane0, launch0, one_of (by decide +kernel),
      by decide +kernel⟩

end Sys2Proof.Tests
end

