-- ==== Sys2Proof/Tests/Witness4.lean ====
section
/-! SUPPORT. Witnesses: for every statement with premises, states and operands that meet all of them together
(ENQL and the bays). -/

namespace Sys2Proof.Tests

open Sys2Proof Sys2Proof.Machine Sys2Proof.Spec

set_option Elab.async false
set_option linter.unusedVariables false

/-! Enqueue (R173, R315, R320). -/

/-- A kernel image of one stride, and its header (R44, R317). -/
def imageNum : Nat :=
  0x574C4B49 + 16 * 2 ^ 32 + 0x40 * 2 ^ 64 + 0x80 * 2 ^ 96
def imageCode (w : Dword) : List Byte := leBytes 8 0xB400000000000000 ++ leBytes 8 w.toNat

/-- A launch record of that image (R316). -/
@[irreducible] def recordNum : Nat :=
  0x10000 + 0x000C0C30 * 2 ^ 160 + (2 ^ 192 + 2 ^ 224 + 2 ^ 256) + 64 * 2 ^ 288 + 8 * 2 ^ 304 + 2 ^ 312 + 4096 * 2 ^ 320 +
    0xFFFF * 2 ^ 1008 + 0xFFFF * 2 ^ 1136 + 0xFFFF * 2 ^ 1216

/-- A state with the image at 0x10000 and the record at 0x40000, and context 0 of the function valid. -/
def withRecord (s : State) (i : Instr) : State :=
  let s : State := ((s.rawWrite 0x10000 (leBytes 64 imageNum)).rawWrite 0x10040 (imageCode (wordOf i))).rawWrite 0x40000
    (leBytes 256 recordNum)
  s.setVf 0 fun f => { f with ctxt := Map.set 0#64 (Map.set 0#64 f.ctxt 0 0x100000#64) 7 1#64 }

/-- What admission of an entry comes to in a state, once its shape stands. -/
def admImage (s : State) (id : Nat) (k : Launch) (f : LaunchRec) : State × Adm (Nat × Nat × Nat × Nat × Nat) :=
  (((s.countDie id).admitShape k).1.setLaunch id fun x => { x with rcd := f }).admitImage { k with rcd := f }
def admAll (s : State) (id : Nat) (k : Launch) (f : LaunchRec) : State × Adm (List (Nat × Nat) × List Byte) :=
  (admImage s id k f).1.admitLists { k with rcd := f }

def enqI : Instr := .enql p7 (g 2) (.c 0#6)
def enqS : State := withRecord (stage enqI (addr 0x40000)) enqI
def enqR : State × XRes := (issued enqS [lane0] [g 2, .c 0#6]).coreAccess lane0 .read 0x40000
def enqRec : LaunchRec := { recFields recordNum with graph := 0, job := 0, ctx := 0 }
def enqK : Launch := taken enqR.1 enqR.1.serial 0 enqRec (leBytes 256 recordNum)
def enqT : State :=
  { enqR.1.dropCopies 0 (0x40000 / 128) with serial := enqR.1.serial + 1, launches := enqR.1.launches ++ [enqK] }
def enqV : State × Adm (List (Nat × Nat) × List Byte) := admAll enqT enqR.1.serial enqK enqRec

theorem admits_of {s u : State} {id : Nat} {k : Launch} {f : LaunchRec} {img : Nat × Nat × Nat × Nat × Nat}
    {lists : List (Nat × Nat) × List Byte} (h : ((s.countDie id).admitShape k).2 = .ok f ∧
      (admImage s id k f).2 = .ok img ∧ (admAll s id k f).2 = .ok lists ∧ u.halt = none)
    (h1 : (admAll s id k f).1 = u) : Admits s id k u f img lists :=
  ⟨_, _, Prod.ext rfl h.1, Prod.ext rfl h.2.1, Prod.ext h1 h.2.2.1, h.2.2.2⟩

/-- ENQL on a record of which a number holds the bits, for a launch and a queue use that are given. -/
def enqWith (s : State) (r : Nat) : State := s.rawWrite 0x40000 (leBytes 256 r)
def enqTo (s : State) : State × XRes := (issued s [lane0] [g 2, .c 0#6]).coreAccess lane0 .read 0x40000
def enqF (r : Nat) : LaunchRec := { recFields r with graph := 0, job := 0, ctx := 0 }
theorem enqueues_of {s s1 : State} {k : Group} {l : LaneRef} {gd : Guard} {a b : Opnd} {w : Workgroup} {n : Launch}
    {p : Place} {q : Nat} {raw : List Byte} {f : LaunchRec} (ho : One s k (.enql gd a b) gd l) (hq : quiet s l)
    (h : s.wg? l.wg = some w ∧ s.launchOf? l.wg = some n ∧ n.repl = false ∧ s.released l .dev = true ∧
      (reads64 s a l).toNat % 256 = 0 ∧
      (s.launches.any fun k => k.vf == n.vf && k.rcd.graph == (reads s b l).toNat && k.rcd.job == n.rcd.job) = true ∧
      ((issued s [l] [a, b]).coreAccess l .read (reads64 s a l).toNat).2 = .ok p q ∧ s1.halt = none ∧
      s1.badSectors p.addr 256 = [] ∧ raw = Memory.readN s1.mem p.addr 256)
    (h1 : ((issued s [l] [a, b]).coreAccess l .read (reads64 s a l).toNat).1 = s1)
    (hf : f = { recFields (leNat raw) with graph := (reads s b l).toNat, job := n.rcd.job, ctx := n.rcd.ctx }) :
    Enqueues s k l gd a b w n s1 p raw f := by
  obtain ⟨h2, h3, h4, h5, h6, h7, h8, h9, h10, h11⟩ := h
  exact ⟨ho, hq, h2, h3, h4, h5, h6, h7, ⟨q, Prod.ext h1 h8⟩, h9, h10, h11, hf⟩
/-- The bits of a record pass the first check. -/
theorem fits_of {r : Nat} (h : recReserved r = true ∧ bits r 0 64 % 64 = 0 ∧ bits r 64 64 % 8 = 0 ∧
    bits r 448 64 % 64 = 0 ∧ bits r 512 64 % 128 = 0 ∧ bits r 832 64 % 64 = 0 ∧ bits r 1152 64 % 16 = 0 ∧
    bits r 1280 64 % 16 = 0 ∧ bits r 1232 16 ≤ 64 ∧ bits r 576 16 ≤ 4096 ∧ bits r 128 32 ≤ 0x7FFFFFFF ∧
    (bits r 1008 16 = 0xFFFF ∨ bits r 1008 16 < 4096) ∧ (bits r 1136 16 = 0xFFFF ∨ bits r 1136 16 < 4096) ∧
    (bits r 1216 16 = 0xFFFF ∨ bits r 1216 16 < 4096)) (hr : bits r 598 2 = 0 ∧ bits r 605 3 = 0 ∧ bits r 960 48 = 0 ∧
    bits r 1088 48 = 0 ∧ bits r 1248 32 = 0 ∧ bits r 1344 696 = 0) {queue : Option Nat}
    (hq : ∀ q, queue = some q → bits r 592 6 = q := by intro _ h; cases h) : fitsRecord r queue := by
  obtain ⟨-, a, b, c, d, e, f, g, i, j, k, l, m, n⟩ := h
  obtain ⟨r1, r2, r3, r4, r5, r6⟩ := hr
  exact ⟨hq, r1, r2, r3, r4, r5, r6, a, b, c, d, e, f, g, i,
    j, k, fun p h => by
      rcases h with rfl | rfl | rfl
      exacts [l, m, n]⟩
def enqFull : State := { enqS with launches := List.replicate 64 launch0 }
/-- A reserved bit is set, and the record names a completion record. -/
@[irreducible] def badNum : Nat := recordNum + 2 ^ 598 + 3 * 2 ^ 768 + 0x50000 * 2 ^ 1152
def enqBad : State := enqWith enqS badNum
def enqEnd (s : State) (r : Nat) (st : LStatus) : State :=
  turnedDown (queued (enqTo s).1 (wgOf enqS) launch0 (placeAt 0x40000) (leBytes 256 r) (enqF r)) (enqTo s).1.serial st
def enqTaken (s : State) (r : Nat) : Launch :=
  taken (enqTo s).1 (enqTo s).1.serial launch0.vf (enqF r) (leBytes 256 r)
/-- Its record meets no error and no notification. -/
theorem completes_of {s s1 : State} {k : Launch} {p : Place} {q : Nat}
    (h : k.rcd.crec % 16 = 0 ∧ k.rcd.crec ≠ 0 ∧ k.ctx.dbm = 0 ∧
      (translate s k.ctx (.l2 0) 0 none (BitVec.ofNat 64 k.rcd.pkperm) .write k.rcd.crec).2 = .ok p q ∧ s1.halt = none ∧
      paExists p.addr = true ∧ s1.badSectors p.addr 16 = [] ∧ (s1.nq k.vf).held = [] ∧ s1.pf.nq.held = [] ∧
      s1.sectorBad (recordSlot (s1.nq k.vf) / 32) = false ∧
      (recordSlot (s1.nq k.vf) + 32 ≤ p.addr ∨ p.addr + 16 ≤ recordSlot (s1.nq k.vf)))
    (h1 : (translate s k.ctx (.l2 0) 0 none (BitVec.ofNat 64 k.rcd.pkperm) .write k.rcd.crec).1 = s1)
    (hf : leafFit s1 p) : Completes s k s1 p :=
  { asked := ⟨h.1, h.2.1⟩, plain := h.2.2.1, there := ⟨q, Prod.ext h1 h.2.2.2.1⟩, runs := h.2.2.2.2.1
    real := h.2.2.2.2.2.1, sound := h.2.2.2.2.2.2.1, leaf := hf
    queues := ⟨h.2.2.2.2.2.2.2.1, h.2.2.2.2.2.2.2.2.1⟩, slot := h.2.2.2.2.2.2.2.2.2.1
    apart := h.2.2.2.2.2.2.2.2.2.2 }

theorem witness_Enqueue : ∃ (s : State) (k : Group) (w : Workgroup) (n : Launch) (s1 t : State) (p : Place)
    (raw : List Byte) (f f' : LaunchRec) (img : Nat × Nat × Nat × Nat × Nat) (lists : List (Nat × Nat) × List Byte),
    Enqueues s k lane0 p7 (g 2) (.c 0#6) w n s1 p raw f ∧ fitsRecord (leNat raw) none ∧
    Admits (queued s1 w n p raw f) s1.serial (taken s1 s1.serial n.vf f raw) t f' img lists ∧
    s1.queueUse n.vf f.queue < 64 ∧ s1.ctxValid n.vf f.ctx = true :=
  ⟨enqS, group0 (wordOf enqI), wgOf enqS, launch0, enqR.1, enqV.1, placeAt 0x40000, leBytes 256 recordNum, enqRec, enqRec,
    (0, 0x40, 16, 0x80, 0), ([], []),
    enqueues_of (q := 0x101000) (one_of (by decide +kernel)) (quiet_of (by decide +kernel)) (by decide +kernel) rfl
      (by decide +kernel), fits_of (by decide +kernel) (by decide +kernel), admits_of (by decide +kernel) rfl, by decide +kernel⟩

theorem witness_Enqueue_full : ∃ (s : State) (k : Group) (w : Workgroup) (n : Launch) (s1 : State) (p : Place)
    (raw : List Byte) (f : LaunchRec), Enqueues s k lane0 p7 (g 2) (.c 0#6) w n s1 p raw f ∧
    canEnd (turnedDown (queued s1 w n p raw f) s1.serial .queueFull) (taken s1 s1.serial n.vf f raw) ∧
    64 ≤ s1.queueUse n.vf f.queue :=
  ⟨enqFull, group0 (wordOf enqI), wgOf enqS, launch0, (enqTo enqFull).1, placeAt 0x40000, leBytes 256 recordNum, enqRec,
    enqueues_of (q := 0x101000) (one_of (by decide +kernel)) (quiet_of (by decide +kernel)) (by decide +kernel) rfl
      (by decide +kernel), .inl (by decide +kernel), by decide +kernel⟩

theorem witness_Enqueue_refused : ∃ (s : State) (k : Group) (w : Workgroup) (n : Launch) (s1 : State) (p : Place)
    (raw : List Byte) (f : LaunchRec), Enqueues s k lane0 p7 (g 2) (.c 0#6) w n s1 p raw f ∧
    (∃ s2 p2, Completes (turnedDown (queued s1 w n p raw f) s1.serial .refusedRecord) (taken s1 s1.serial n.vf f raw)
      s2 p2) ∧ ¬fitsRecord (leNat raw) none ∧ s1.queueUse n.vf f.queue < 64 ∧ s1.ctxValid n.vf f.ctx = true :=
  ⟨enqBad, group0 (wordOf enqI), wgOf enqS, launch0, (enqTo enqBad).1, placeAt 0x40000, leBytes 256 badNum, enqF badNum,
    enqueues_of (q := 0x101000) (one_of (by decide +kernel)) (quiet_of (by decide +kernel)) (by decide +kernel) rfl
      (by decide +kernel),
    ⟨_, { (placeAt 0x50000) with units := [.l2 0] }, completes_of (q := 0x101000) (by decide +kernel) rfl
      (leafFit_of (by decide +kernel))⟩,
    fun h => absurd h.2.1 (by decide +kernel), by decide +kernel⟩

/-! Bays (R26 to R36). -/

/-- A stride of one lane that is to issue, its code in memory. -/
def issI : Instr := .movi p7 (g 0) 0
def issS : State :=
  let s : State := (stage issI).rawWrite 0x10000 (imageCode (wordOf issI))
  let s : State := { s with wgs := s.wgs.map fun w : Workgroup => { w with rigs := w.rigs.map fun q : Rig =>
    { q with threads := q.threads.mapIdx fun (n : Nat) (t : Thread) => if n = 0 then t else { t with life := .parked (.token 0) } } } }
  s.setBay 0 0 fun y => { y with port := none }
def issC : Cand := ⟨0, 0, 0, 0, 0x10000, none, [lane0], false⟩
def issF : State × Fetched := (fetching issS 0 0 issC.lanes).fetchWord lane0 (oneKernel (wordOf issI)) 0x10000
def issB : State × Fetched := issF.1.fetchBody lane0 (oneKernel (wordOf issI)) 0x10008 1

theorem witness_StrideIssue : ∃ (s s1 s2 : State) (c b h : Nat) (x : Cand) (k : KSlot) (l : LaneRef) (r : List
    LaneRef) (body e : List Nat), (Inv s) ∧ (noHard s) ∧ ((fetching s c b x.lanes).fetchWord l k x.pc = (s1,
    .ok h e)) ∧ (s1.fetchBody l k (x.pc + 8) (bits h 52 4 + 1) = (s2, .ok 0 body)) ∧ (s.halt = none) ∧ ((s.bay
    c b).port = none) ∧ ((s.bay c b).cut = []) ∧ (c < s.cores.length) ∧ (b < (s.core c).bays.length) ∧ ((s.core
    c).fenced = false) ∧ (({ s with focus := (c, b), fresh := s.fresh + 1 }).cands c b = [x]) ∧ (x.join =
    false) ∧ (x.resume = none) ∧ (x.lanes = l :: r) ∧ (x.lanes.Nodup) ∧ (x.slot < 8) ∧ (x.team < 16) ∧
    (s.kslot? c x.kslot = some k) ∧ (headerOk h = true) ∧ (bit h 51 = false) ∧ (s2.halt = none) :=
  ⟨issS, issF.1, issB.1, 0, 0, 0xB400000000000000, issC, oneKernel (wordOf issI), lane0, [], [(wordOf
      issI).toNat], [], inv_of (by decide +kernel), (by decide +kernel : ∀ k ∈ issS.launches, k.hard = false),
      pair_of (by decide +kernel), pair_of (by decide +kernel), by decide +kernel⟩

/-- A group at the port in its last cycle. -/
def tenS : State := (stage issI).setBay 0 0 fun y => { y with port := y.port.map fun g => { g with tenure := 7 } }
/-- A parked thread whose token count is zero. -/
def wakeS : State := stage issI fun t => { t with life := .parked (.token 3) }
def rigOf (s : State) : Rig :=
  (s.rig? 2 0).getD { threads := [], tok := [], tokPub := [], windows := [], due := [], aset := 0#32, rowprog := 0#32
                      bay := 0, lastIssue := 0, ready := none }
/-- A thread parked on a phase, and on a write pointer. -/
def wakeP : State :=
  (stage issI fun t => { t with life := .parked (.phase 4080 true) }).setWg 2 fun w => { w with
    live := [255], loft := Memory.writeN [] 4080 (leBytes 16 (5 * 2 ^ 96 + 0x5B2C * 2 ^ 112)) }
def wakeW : State := stage issI fun t => { t with life := .parked (.wptr 15 0xFFFFFFFF#32) }
def wakeD : State :=
  let s : State := stage issI fun t => { t with life := .parked (.token 3), tok := [(3, 1)] }
  s.setWg 2 fun w => { w with rigs := w.rigs.map fun q : Rig => { q with due := [0] } }

theorem witness_BayWaitsEnd_1 : ∃ (s : State) (c b : Nat) (g : Group), (s.halt = none) ∧ ((s.bay c b).port =
    some g) ∧ (7 ≤ g.tenure) :=
  ⟨tenS, 0, 0, { (group0 (wordOf issI)) with tenure := 7 }, by decide +kernel⟩

theorem witness_BayWaitsEnd_2 : ∃ (s : State) (c b : Nat), (s.halt = none) :=
  ⟨issS, 0, 0, by decide +kernel⟩

theorem witness_BayWaitsEnd_3 : ∃ (s : State) (c b : Nat), (s.halt = none) :=
  ⟨issS, 0, 0, by decide +kernel⟩

theorem witness_BayWaitsEnd_4_token : ∃ (s : State) (l : LaneRef) (w : Workgroup) (q : Rig) (c : Wake), (Inv s)
    ∧ ((l.lane ∈ q.due ∨ meets s w l c)) ∧ (s.halt = none) ∧ (s.wg? l.wg = some w) ∧ (s.rig? l.wg l.rig = some
    q) ∧ (w.phase = .running) ∧ ((s.thread l).life = .parked c) :=
  ⟨wakeS, lane0, wgOf wakeS, rigOf wakeS, .token 3, inv_of (by decide +kernel), .inr (show tokenOf wakeS lane0
      3 = 0 by decide +kernel), by decide +kernel⟩

/-- The phase of the last slot has turned to 0. -/
theorem witness_BayWaitsEnd_4_phase : ∃ (s : State) (l : LaneRef) (w : Workgroup) (q : Rig) (c : Wake), (Inv s)
    ∧ ((l.lane ∈ q.due ∨ meets s w l c)) ∧ (s.halt = none) ∧ (s.wg? l.wg = some w) ∧ (s.rig? l.wg l.rig = some
    q) ∧ (w.phase = .running) ∧ ((s.thread l).life = .parked c) :=
  ⟨wakeP, lane0, wgOf wakeP, rigOf wakeP, .phase 4080 true, inv_of (by decide +kernel), .inr (.inr
      (by decide +kernel)), by decide +kernel⟩

/-- The last channel has just passed a pointer that wraps. -/
theorem witness_BayWaitsEnd_4_wptr : ∃ (s : State) (l : LaneRef) (w : Workgroup) (q : Rig) (c : Wake), (Inv s)
    ∧ ((l.lane ∈ q.due ∨ meets s w l c)) ∧ (s.halt = none) ∧ (s.wg? l.wg = some w) ∧ (s.rig? l.wg l.rig = some
    q) ∧ (w.phase = .running) ∧ ((s.thread l).life = .parked c) :=
  ⟨wakeW, lane0, wgOf wakeW, rigOf wakeW, .wptr 15 0xFFFFFFFF#32, inv_of (by decide +kernel), .inr (show
      (Map.get 0#32 (wgOf wakeW).chans 15 - 0xFFFFFFFF#32).toNat < 2 ^ 31 by decide +kernel), by decide +kernel⟩

/-- The condition has held since the thread was parked, and holds no more. -/
theorem witness_BayWaitsEnd_4_due : ∃ (s : State) (l : LaneRef) (w : Workgroup) (q : Rig) (c : Wake), (Inv s) ∧
    ((l.lane ∈ q.due ∨ meets s w l c)) ∧ (s.halt = none) ∧ (s.wg? l.wg = some w) ∧ (s.rig? l.wg l.rig = some q)
    ∧ (w.phase = .running) ∧ ((s.thread l).life = .parked c) :=
  ⟨wakeD, lane0, wgOf wakeD, rigOf wakeD, .token 3, inv_of (by decide +kernel), .inl (by decide +kernel),
      by decide +kernel⟩

/-- The pending and active lists of a bay, and rigs of the one workgroup. -/
def listsS (active pending : List (Option (Nat × Nat))) (f : Nat → Rig → Rig) : State :=
  let s : State := stage issI
  let s : State := { s with wgs := s.wgs.map fun w : Workgroup => { w with
    rigs := (w.rigs ++ w.rigs ++ w.rigs).mapIdx f } }
  s.setBay 0 0 fun y => { y with active := active, pending := pending, port := none, cycle := 1024 }
def none8 : List (Option (Nat × Nat)) := List.replicate 8 none
def asleep (q : Rig) : Rig := { q with threads := q.threads.map fun t : Thread => { t with life := .parked (.token 0) } }
def demS : State := listsS (none8.set 7 (some (2, 0))) none8 fun _ q => asleep q
def proS : State := listsS ((List.replicate 8 (some (2, 0))).set 7 none) (none8.set 7 (some (2, 2))) fun _ q => { q with ready := some 0 }
def forS : State := listsS ((List.replicate 8 (some (2, 0))).set 7 (some (2, 1))) (none8.set 0 (some (2, 2))) fun r q =>
  { q with ready := some 0, lastIssue := if r = 1 then 1 else 5 }

theorem not_at {α : Type} {l : List α} {x : α} (h : x ∉ l) : ∀ j : Nat, l[j]? ≠ some x :=
  fun _ e => h (List.mem_of_getElem? e)
theorem all_at {α : Type} {l : List α} {p : Nat → α → Prop} [∀ j a, Decidable (p j a)]
    (h : (l.zipIdx.all fun x => decide (p x.2 x.1)) = true) : ∀ j a, l[j]? = some a → p j a := by
  intro j a e
  have m := (List.all_eq_true.mp h) (a, j) (List.mk_mem_zipIdx_iff_getElem?.mpr e)
  exact of_decide_eq_true m
theorem only_at {α : Type} [DecidableEq α] {l : List (Option α)} {i : Nat}
    (h : (l.zipIdx.all fun x => decide (x.2 = i ∨ x.1 = none)) = true) : ∀ j, j ≠ i → ∀ r, l[j]? ≠ some (some r) := by
  intro j n r e
  rcases all_at (p := fun j a => j = i ∨ a = none) h j _ e with x | x
  · exact n x
  · cases x
theorem park_of {s : State} {wg rig : Nat} {w : Wake} (h : ∀ n, n < 64 → (s.thread ⟨wg, rig, n⟩).life = .parked w) :
    ∀ n, n < 64 → (s.thread ⟨wg, rig, n⟩).alive = true → ∃ x, (s.thread ⟨wg, rig, n⟩).life = .parked x :=
  fun n hn _ => ⟨w, h n hn⟩

/-- The last slot of the active set. -/
theorem witness_ActiveSet_1 : ∃ (s : State) (c b slot i wg rig : Nat) (w : Workgroup), ((∃ n, n < 64 ∧
    (s.thread ⟨wg, rig, n⟩).alive = true)) ∧ ((∀ n, n < 64 → (s.thread ⟨wg, rig, n⟩).alive = true → ∃ x,
    (s.thread ⟨wg, rig, n⟩).life = .parked x)) ∧ (s.halt = none) ∧ ((s.bay c b).active[slot]? = some (some (wg,
    rig))) ∧ ((s.bay c b).pending[i]? = some none) ∧ ((∀ j, j < i → (s.bay c b).pending[j]? ≠ some none)) ∧
    (s.wg? wg = some w) ∧ ((∀ n, n < 64 → (s.thread ⟨wg, rig, n⟩).alive = true → (s.thread ⟨wg, rig,
    n⟩).inStride = false)) ∧ ((∀ l ∈ (s.bay c b).inGroups, ¬(l.wg = wg ∧ l.rig = rig))) :=
  ⟨demS, 0, 0, 7, 0, 2, 0, wgOf demS, ⟨0, by decide +kernel⟩, park_of (w := .token 0) (by decide +kernel),
      by decide +kernel⟩

/-- The last slots of both sets. -/
theorem witness_ActiveSet_2 : ∃ (s : State) (c b slot i wg rig n : Nat), ((∀ j, j ≠ i → ∀ r, (s.bay c
    b).pending[j]? ≠ some (some r))) ∧ (s.halt = none) ∧ ((s.bay c b).active[slot]? = some none) ∧ ((∀ j, j <
    slot → (s.bay c b).active[j]? ≠ some none)) ∧ ((s.bay c b).pending[i]? = some (some (wg, rig))) ∧ ((s.rig?
    wg rig).bind Rig.ready = some n) :=
  ⟨proS, 0, 0, 7, 7, 2, 2, 0, only_at (by decide +kernel), by decide +kernel⟩

/-- A rig that has been ready for exactly 1,024 cycles. -/
theorem witness_ActiveSet_3 : ∃ (s : State) (c b slot i j wg rig vw vr n : Nat), ((∀ j : Nat, (s.bay c
    b).active[j]? ≠ some none)) ∧ ((∀ j r, (s.bay c b).active[j]? = some (some r) → j ≠ slot → ((s.rig? vw
    vr).map Rig.lastIssue).getD 0 < ((s.rig? r.1 r.2).map Rig.lastIssue).getD 0)) ∧ ((∀ j, j ≠ i → ∀ r, (s.bay
    c b).pending[j]? ≠ some (some r))) ∧ ((∀ g, (s.bay c b).port = some g → ∀ l ∈ g.lanes, ¬(l.wg = vw ∧ l.rig
    = vr))) ∧ (s.halt = none) ∧ ((s.bay c b).active[slot]? = some (some (vw, vr))) ∧ ((s.bay c b).pending[i]? =
    some (some (wg, rig))) ∧ ((s.rig? wg rig).bind Rig.ready = some n) ∧ (n + 1024 ≤ (s.bay c b).cycle) ∧
    (((s.bay c b).pending.set i none)[j]? = some none) ∧ ((∀ k, k < j → ((s.bay c b).pending.set i none)[k]? ≠
    some none)) :=
  ⟨forS, 0, 0, 7, 0, 0, 2, 2, 2, 1, 0, not_at (by decide +kernel), fun j r e => all_at (p := fun j a => ∀ r ∈
      a, j ≠ 7 → ((forS.rig? 2 1).map Rig.lastIssue).getD 0 < ((forS.rig? r.1 r.2).map Rig.lastIssue).getD 0)
      (by decide +kernel) j _ e r rfl, only_at (by decide +kernel), fun g e => (by cases e), by decide +kernel⟩

end Sys2Proof.Tests
end

