-- ==== Sys2Proof/Tests/Witness5.lean ====
section
/-! SUPPORT. Witnesses: for every statement with premises, states and operands that meet all of them together
(coherence, slices, links, the arbiter, memory and registers from outside). -/

namespace Sys2Proof.Tests

open Sys2Proof Sys2Proof.Machine Sys2Proof.Spec

set_option Elab.async false
set_option linter.unusedVariables false

/-! Coherence (R295, R301, R302, R351). -/

/-- Reset with every C-die in service. -/
def idle : State := { State.reset with
  dies := List.replicate 4 ⟨.inService, 0⟩, time := 300000, serial := 100 }

def pload (a : Nat) : PendingLoad :=
  { id := 3, issue := 0, lane := lane0, launch := 1, core := 0, kind := .reg 8 .w32, tok := some 1, len := 4, place := placeAt a
    floor := 0, acq := false, served := none, long := true, atomic := false }
/-- A load of the last word of a line. -/
def grantS : State := { idle with loads := [pload (0x30000 + 124)] }
def invalS : State := { idle with invals := [⟨7, .l1 0, 0x600, 1, 100000⟩] }
def tinvS : State := { idle with tinvals := [⟨7, .l1 0, 8192, 100000⟩] }

/-- The last word of a line. -/
theorem witness_Coherence_1 : ∃ (s : State) (id len : Nat) (p : PendingLoad), (s.halt = none) ∧ (s.loads.find?
    (fun q => q.id == id) = some p) ∧ (p.served = none) ∧ (p.place.loft = false) ∧ ((p.place.cls = .shared ∨
    p.place.cls = .object)) ∧ (gate s p.place.addr = .ok) ∧ (s.older p.touch p.id = []) ∧ (s.badSectors (128 *
    (p.place.addr / 128)) 128 = []) ∧ (p.place.addr % 128 + p.len ≤ 128) :=
  ⟨grantS, 3, 3, pload (0x30000 + 124), by decide +kernel⟩

theorem witness_Coherence_2 : ∃ (s : State) (id : Nat) (v : Inval), (s.halt = none) ∧ (s.invals.find? (fun q =>
    q.id == id) = some v) :=
  ⟨invalS, 7, ⟨7, .l1 0, 0x600, 1, 100000⟩, by decide +kernel⟩

theorem witness_Coherence_3 : ∃ (s : State) (id : Nat) (v : TInval), ((∀ p ∈ s.loads, p.served = none → ¬bound
    v p.id p.place)) ∧ ((∀ q ∈ s.stores, ¬bound v q.id q.place)) ∧ ((∀ c ∈ s.cmds, ∀ x ∈ c.adds, ¬bound v c.id
    x.2.1)) ∧ (s.halt = none) ∧ (s.tinvals.find? (fun q => q.id == id) = some v) :=
  ⟨tinvS, 7, ⟨7, .l1 0, 8192, 100000⟩, fun p h => (by cases h), fun p h => (by cases h), fun p h =>
      (by cases h), by decide +kernel⟩

/-- Exactly 100 µs after the invalidation was sent. -/
theorem witness_Coherence_4 : ∃ (s : State) (id c : Nat) (v : TInval), (s.halt = none) ∧ (s.tinvals.find? (fun
    q => q.id == id) = some v) ∧ (v.unit = .l1 c) ∧ (v.sent + 200000 ≤ s.time) ∧ (c < s.cores.length) :=
  ⟨tinvS, 7, 0, ⟨7, .l1 0, 8192, 100000⟩, by decide +kernel⟩

/-! Slices and links (R236, R241, R304). -/

def sliceS (l : List SliceFault) : State := { idle with sliceFaults := l }
def resvS : State := { idle with
  refusals := [⟨5, 9, 1, 200000⟩, ⟨5, 9, 2, 299000⟩], resvs := [⟨9, 1, 300000⟩], time := 300000 }

/-- The last slice of the last die. -/
theorem witness_SlicesAndLinks_1 : ∃ (s : State) (d k : Nat), (s.halt = none) ∧ (d < 4) ∧ (k < 48) ∧ ((∀ f ∈
    s.sliceFaults, ¬(f.die = d ∧ f.slice = k))) :=
  ⟨sliceS [], 3, 47, by decide +kernel⟩

theorem witness_SlicesAndLinks_2 : ∃ (s : State) (d k b : Nat) (f : SliceFault), s.halt = none ∧
    s.sliceFaults.find? (fun f => f.die == d && f.slice == k && !f.fenced) = some f ∧ f.since + 40000 ≤ s.time ∧
    b = (if d % 2 = 0 then d + 1 else d - 1) ∧ (s.dies[b]?).map Die.state = some .inService ∧
    ∀ g ∈ s.sliceFaults, ¬(g.die = b ∧ g.slice = k) :=
  ⟨sliceS [⟨3, 47, false, 260000, none⟩], 3, 47, 2, ⟨3, 47, false, 260000, none⟩, by decide +kernel⟩

/-- The buddy's slice has failed too. -/
theorem witness_SlicesAndLinks_2_dead : ∃ (s : State) (d k b : Nat) (f : SliceFault), s.halt = none ∧
    s.sliceFaults.find? (fun f => f.die == d && f.slice == k && !f.fenced) = some f ∧ f.since + 40000 ≤ s.time ∧
    b = (if d % 2 = 0 then d + 1 else d - 1) ∧ ((s.dies[b]?).map Die.state ≠ some .inService ∨
      ∃ g ∈ s.sliceFaults, g.die = b ∧ g.slice = k) :=
  ⟨sliceS [⟨0, 0, false, 260000, none⟩, ⟨1, 0, false, 0, none⟩], 0, 0, 1, ⟨0, 0, false, 260000, none⟩, by decide +kernel⟩

theorem witness_SlicesAndLinks_3 : ∃ (s : State) (d k : Nat), (s.halt = none) :=
  ⟨sliceS [⟨0, 0, true, 0, some 300000⟩], 0, 0, by decide +kernel⟩

theorem witness_SlicesAndLinks_4 : ∃ (s : State) (obj : Nat) (r : Reservation) (left : List RefusedLink),
    (s.halt = none) ∧ (s.resvs.find? (fun r => r.obj == obj) = some r) ∧ (r.stop ≤ s.time) ∧ (left =
    s.refusals.filter (fun q => !(q.obj == obj && q.post == r.post))) ∧ ((∀ q, left.find? (fun q => decide
    (s.time ≤ q.time + 2000000) && q.obj == obj) = some q → s.time < r.stop + 2000)) :=
  ⟨resvS, 9, ⟨9, 1, 300000⟩, [⟨5, 9, 2, 299000⟩], by decide +kernel⟩

theorem witness_SlicesAndLinks_5 : ∃ (s : State) (k post : Nat), (s.halt = none) :=
  ⟨resvS, 5, 1, by decide +kernel⟩

theorem witness_SlicesAndLinks_6 : ∃ (s : State) (port : Nat), (s.halt = none) ∧ (s.deadLinks.contains port =
    false) ∧ ((∀ p ∈ s.loads, p.atomic = true → region p.place.addr = 1 → Config.portOf (bits p.place.addr 40
    10) ≠ port)) ∧ ((∀ m ∈ s.ringMsgs, m.port = some port → m.landed = true)) :=
  ⟨idle, 17, by decide +kernel⟩

/-! The migration arbiter (R309, R310). -/

def migR : MigReq := ⟨4, 0x101000, 0x400000, 1, 0, 0x7000, 100, false⟩
def migS : State := { idle with migReqs := [migR], launches := [launch0] }
def arbE (h d : Option Nat) : ArbEntry := ⟨0x400000, false, 31, h, d, true, []⟩
def arbS (h d : Option Nat) : State := { idle with arb := [arbE h d] }
def fullArb : State := { idle with arb := List.replicate Config.arbiterEntries ⟨0, true, 0, none, none, false, []⟩ }

theorem witness_MigrationArbiter_1 : ∃ (s : State) (r : MigReq) (n : Launch), (s.halt = none) ∧
    (s.migReqs.find? (fun q => q.id == r.id) = some r) ∧ ((∀ q ∈ s.migReqs, q.waiting = false)) ∧ ((∀ a ∈
    s.arb, a.frame ≠ r.frame)) ∧ (s.arb.length < Config.arbiterEntries) ∧ (s.launch? r.launch = some n) :=
  ⟨migS, migR, launch0, by decide +kernel⟩

theorem witness_MigrationArbiter_2 : ∃ (s : State) (v x frame : Nat), s.halt = none ∧ v < 32 ∧ frame = pageFrame x ∧
    (∀ a ∈ s.arb, a.frame ≠ frame) ∧ s.arb.length < Config.arbiterEntries ∧ ∀ q ∈ s.migReqs, q.waiting = false :=
  ⟨idle, 31, 0x400000, 0x400000, by decide +kernel⟩

theorem witness_MigrationArbiter_2_busy : ∃ (s : State) (v x frame : Nat), s.halt = none ∧ v < 32 ∧
    frame = pageFrame x ∧ (∀ a ∈ s.arb, a.frame ≠ frame) ∧
    (Config.arbiterEntries ≤ s.arb.length ∨ ∃ q ∈ s.migReqs, q.waiting = true) :=
  ⟨fullArb, 0, 0x400000, 0x400000, rfl, by decide +kernel, by decide +kernel,
    fun a h => (by rw [List.eq_of_mem_replicate h]; decide), .inl (List.length_replicate ..).ge⟩

theorem witness_MigrationArbiter_3 : ∃ (s : State) (frame h : Nat) (e : ArbEntry), s.halt = none ∧
    s.arb.find? (fun a => a.frame == frame) = some e ∧ e.holdHost = some h ∧ h ≤ s.time :=
  ⟨arbS (some 300000) none, 0x400000, 300000, arbE (some 300000) none, by decide +kernel⟩

theorem witness_MigrationArbiter_3_device : ∃ (s : State) (frame h : Nat) (e : ArbEntry), s.halt = none ∧
    s.arb.find? (fun a => a.frame == frame) = some e ∧ e.holdDev = some h ∧ h ≤ s.time ∧ e.remote = [] :=
  ⟨arbS none (some 300000), 0x400000, 300000, arbE none (some 300000), by decide +kernel⟩

theorem witness_MigrationArbiter_4 : ∃ (s : State) (v x : Nat), (s.halt = none) ∧ (v < 32) :=
  ⟨arbS none none, 31, 0x400000, by decide +kernel⟩

theorem witness_MigrationArbiter_7 : ∃ (s : State) (v : Nat), (s.halt = none) :=
  ⟨idle, 31, by decide +kernel⟩

theorem witness_MigrationArbiter_6 : ∃ (s : State) (v x frame : Nat) (e : ArbEntry), (s.halt = none) ∧ (v < 32)
    ∧ (frame = pageFrame x) ∧ (e ∈ s.arb) ∧ (e.frame = frame) ∧ ((∀ a ∈ s.arb, a.frame = frame → a = e)) :=
  ⟨arbS none none, 31, 0x400000, 0x400000, arbE none none, by decide +kernel⟩

/-- The page's entry is known to the arbiter: the device has won, or the host, with the leaf migratable still or not. -/
def knownS (host : Bool) (entry : Nat) : State :=
  { migS.rawWrite 0x101000 (leBytes 8 entry) with
    arb := [⟨0x400000, host, 31, none, if host then some 299999 else none, false, []⟩] }
theorem witness_MigrationArbiter_5 : ∀ host ∈ [false, true], ∀ entry ∈ [0x400000 + 2 ^ 54, 0x400001 + 2 ^ 54],
    (knownS host entry).halt = none ∧ (knownS host entry).migReqs.find? (fun q => q.id == migR.id) = some migR ∧
    migR.waiting = false ∧ (∃ e ∈ (knownS host entry).arb, e.frame = migR.frame ∧ e.hostWon = host ∧
      ∀ a ∈ (knownS host entry).arb, a.frame = migR.frame → a = e) ∧
    migratable (knownS host entry) migR.entryPa migR.frame = (entry == 0x400000 + 2 ^ 54) ∧ migR.entryPa % 8 = 0 ∧
    paExists migR.entryPa = true ∧ (knownS host entry).badSectors migR.entryPa 8 = [] := by decide +kernel

/-! Memory and registers from outside (R222, R313, R342). -/

theorem sound_of {s : State} {pa n : Nat} (h : (List.range ((pa + n - 1) / 32 + 1 - pa / 32)).all
    (fun k => !(s.sectorBad (pa / 32 + k))) = true) : ∀ a, pa / 32 ≤ a → a ≤ (pa + n - 1) / 32 → s.sectorBad a = false := by
  intro a h1 h2
  have m := List.all_eq_true.mp h (a - pa / 32) (List.mem_range.mpr (by omega))
  rw [Nat.add_sub_cancel' h1] at m
  simpa using m

/-- Two bytes in two sectors. -/
theorem witness_OutsideMemory_1 : ∃ (i : Instr) (s : State) (pa : Nat) (data : List Byte) (bad : Bool) (link :
    Option (Nat × Nat)), ((i = .hostMemoryWrite pa data ∧ bad = false ∨ i = .fabricReceive link (.write pa
    data) bad ∧ region pa = 0 ∧ isNew s link)) ∧ (Inv s) ∧ (unprotected s pa data.length) ∧ ((∀ a, pa / 32 ≤ a
    → a ≤ (pa + data.length - 1) / 32 → s.sectorBad a = false)) ∧ (s.halt = none) ∧ (data ≠ []) ∧ (paExists pa
    = true) ∧ (paExists (pa + data.length - 1) = true) ∧ ((bad = true → region (pa + data.length - 1) = 0)) ∧
    (gate s pa = .ok) :=
  ⟨.fabricReceive (some (5, 9)) (.write 0x3001F [1, 2]) true, idle, 0x3001F, [1, 2], true, some (5, 9), .inr
      ⟨rfl, by decide +kernel, fun r h => (by cases h)⟩, inv_of (by decide +kernel), fun k h => (by cases h),
      sound_of (by decide +kernel), by decide +kernel⟩

theorem witness_OutsideMemory_1_host : ∃ (i : Instr) (s : State) (pa : Nat) (data : List Byte) (bad : Bool)
    (link : Option (Nat × Nat)), ((i = .hostMemoryWrite pa data ∧ bad = false ∨ i = .fabricReceive link (.write
    pa data) bad ∧ region pa = 0 ∧ isNew s link)) ∧ (Inv s) ∧ (unprotected s pa data.length) ∧ ((∀ a, pa / 32 ≤
    a → a ≤ (pa + data.length - 1) / 32 → s.sectorBad a = false)) ∧ (s.halt = none) ∧ (data ≠ []) ∧ (paExists
    pa = true) ∧ (paExists (pa + data.length - 1) = true) ∧ ((bad = true → region (pa + data.length - 1) = 0))
    ∧ (gate s pa = .ok) :=
  ⟨.hostMemoryWrite 0x30000 [1], idle, 0x30000, [1], false, none, .inl (by decide +kernel), inv_of
      (by decide +kernel), fun k h => (by cases h), sound_of (by decide +kernel), by decide +kernel⟩

def oldS : State := { idle with responses := [⟨5, 9, [1]⟩] }

theorem witness_OutsideMemory_2 : ∃ (s : State) (port number : Nat) (req : FabReq) (bad : Bool), ((∃ r ∈
    s.responses, r.port = port ∧ r.number = number)) ∧ (s.halt = none) :=
  ⟨oldS, 5, 9, .write 0x3001F [1, 2], true, ⟨_, .head _, rfl, rfl⟩, by decide +kernel⟩

/-- The last 32 bytes of local memory. -/
theorem witness_OutsideMemory_3 : ∃ (s : State) (port number pa len cmp val : Nat) (kind : FabKind) (op :
    FabOp) (ty : Ty) (bad : Bool), (Inv s) ∧ (isNew s (some (port, number))) ∧ (unprotected s pa len) ∧ (s.halt
    = none) ∧ (region pa = 0) ∧ (pa + len ≤ Config.localBytes) ∧ (pa % len = 0) ∧ ((elemBits ty = 8 * len ∧
    (len = 4 ∨ len = 8) ∨ len = 32 ∧ op = .cas)) ∧ ((kind = .plain ∧ (Map.get false s.helped (pa / 32) = false
    ∨ leNat (Memory.readN s.mem (32 * (pa / 32) + 24) 8) = 0) ∨ kind = .helped)) ∧ (cmp < 2 ^ (8 * len)) ∧ (val
    < 2 ^ (8 * len)) ∧ (gate s pa = .ok) ∧ (s.badSectors pa len = []) :=
  ⟨idle, 5, 9, Config.localBytes - 32, 32, 0, 2 ^ 255, .plain, .cas, .w32, false, inv_of (by decide +kernel),
      (fun r h => (by cases h)), fun k h => (by cases h), by decide +kernel⟩

theorem witness_OutsideMemory_5 : ∃ (s : State) (pa len : Nat), (s.halt = none) ∧ (region pa = 0) ∧ (gate s pa
    = .ok) ∧ (pa + len ≤ Config.localBytes) ∧ (s.badSectors pa len = []) :=
  ⟨idle, 0x30000, 4, by decide +kernel⟩

/-- A marked object with a post pending. -/
def markedS : State := { idle.rawWrite 0x30018 [9#8] with helped := [(0x30000 / 32, true)] }

/-- A word of the pending post itself. -/
theorem witness_OutsideMemory_4 : ∃ (s : State) (port number pa len cmp val : Nat) (op : FabOp) (ty : Ty) (bad
    : Bool), (Inv s) ∧ (isNew s (some (port, number))) ∧ (unprotected s pa len) ∧ (s.halt = none) ∧ (region pa
    = 0) ∧ (pa + len ≤ Config.localBytes) ∧ (pa % len = 0) ∧ ((len = 4 ∨ len = 8 ∨ len = 32)) ∧ (gate s pa =
    .ok) ∧ (s.badSectors pa len = []) ∧ (Map.get false s.helped (pa / 32) = true) ∧ (leNat (Memory.readN s.mem
    (32 * (pa / 32) + 24) 8) ≠ 0) :=
  ⟨markedS, 5, 9, 0x3001C, 4, 0, 1, .add, .w32, false, inv_of (by decide +kernel), (fun r h => (by cases h)),
      fun k h => (by cases h), by decide +kernel⟩

theorem witness_HostRegisters_1 : ∃ (s : State) (v : Nat) (lvl : Level) (n : Nat), (s.halt = none) :=
  ⟨idle, 0, .job, 0, by decide +kernel⟩

theorem witness_HostRegisters_2 : ∃ (s : State) (v : Nat) (lvl : Level) (n : Nat), (Inv s) ∧ (s.halt = none) :=
  ⟨idle, 0, .job, 0, inv_of (by decide +kernel), by decide +kernel⟩

/-- The last word of the last context. -/
theorem witness_HostRegisters_3 : ∃ (s : State) (v c k : Nat) (x : Dword), (s.halt = none) ∧ (v < 32) ∧ (c <
    64) ∧ (k < 8) :=
  ⟨idle, 31, 63, 7, 1, by decide +kernel⟩

/-- The last counter. -/
theorem witness_HostRegisters_4 : ∃ (s : State) (v c : Nat) (x : Dword), (s.halt = none) ∧ (v < 32) ∧ (c <
    4096) :=
  ⟨idle, 31, 4095, 1, by decide +kernel⟩

theorem witness_HostRegisters_5 : ∃ (s : State) (v : Nat) (x : Dword), (s.halt = none) ∧ (v < 32) ∧ (v <
    s.vfs.length) ∧ ((s.vf v).nq.held = []) :=
  ⟨idle, 31, 8, by decide +kernel⟩

theorem witness_HostRegisters_6 : ∃ (s : State) (v : Nat) (x : Dword), (s.halt = none) ∧ (v < 32) :=
  ⟨idle, 31, 8, by decide +kernel⟩

theorem witness_HostRegisters_7 : ∃ (s : State) (fn o v c : Nat) (a : Age), o % 8 ≠ 0 ∧ v < 32 ∧ c < 512 ∧ c < 4096 ∧
    c < 256 ∧ s.age[c]? = some a ∧ c < 24 :=
  ⟨{ idle with age := [⟨1000, 0, 0, 76⟩] }, 32, 4, 31, 0, ⟨1000, 0, 0, 76⟩, by decide +kernel⟩

theorem witness_HostRegisters_8 : ∃ (s : State) (v : Nat), s.halt = none ∧ v < 32 := ⟨idle, 31, rfl, by decide⟩

end Sys2Proof.Tests
end

