-- ==== Sys2Proof/Tests/Witness6.lean ====
section
/-! SUPPORT. Witnesses: for every statement with premises, states and operands that meet all of them together
(starts, errors, turns, admission, ends, snapshots). -/

namespace Sys2Proof.Tests

open Sys2Proof Sys2Proof.Machine Sys2Proof.Spec

set_option Elab.async false
set_option linter.unusedVariables false

/-! Starts (R336 to R338). -/

def fencedS : State := { State.reset with dies := List.replicate 4 ⟨.fenced, 3⟩ }

theorem witness_Starts_1 : ∃ (s : State) (warm : Bool), (s.halt = none) :=
  ⟨idle, true, by decide +kernel⟩

/-- The last die. -/
theorem witness_Starts_2 : ∃ (s : State) (n : Nat) (d : Die), (s.halt = none) ∧ (s.dies[n]? = some d) ∧
    (d.state = .untrained) ∧ ((∀ fn, fn < 33 → (s.nq fn).held = [])) :=
  ⟨State.reset, 3, ⟨.untrained, 0⟩, by decide +kernel⟩

/-- The last die. -/
theorem witness_Starts_3 : ∃ (s : State) (n : Nat) (d : Die) (dies : List Die), (s.halt = none) ∧ (s.dies[n]? =
    some d) ∧ (d.state = .untrained) ∧ (dies = oneDie s n
    { state := if 2 ≤ d.fails then .fenced else .leftOut, fails := min 3 (d.fails + 1) }) :=
  ⟨State.reset, 3, ⟨.untrained, 0⟩, oneDie State.reset 3 ⟨.leftOut, 1⟩, by decide +kernel⟩

theorem witness_Starts_4 : ∃ (s : State) (n : Nat) (d : Die), (s.halt = none) ∧ (s.dies[n]? = some d) ∧
    (d.state = .fenced) :=
  ⟨fencedS, 0, ⟨.fenced, 3⟩, by decide +kernel⟩

theorem witness_Starts_5 : ∃ (s : State) (k : Nat), (s.halt = none) ∧ (k < 2) ∧ (k ∉ s.bring.links) :=
  ⟨State.reset, 1, by decide +kernel⟩

/-! Errors and kills (R339 to R354). -/

def inst : Instr := .movi p7 (g 0) 0
/-- An instruction under way, whose launch has no thread left. -/
def overS : State := { (stage inst) with
  kills := [⟨0, 0, 0⟩]
  wgs := (stage inst).wgs.map fun w : Workgroup => { w with rigs := w.rigs.map fun q : Rig =>
    { q with threads := q.threads.map fun _ => Thread.absent } } }
def agedS : State := { idle with age := [⟨1000, 0, 0, 76⟩] }

/-- The last byte of local memory. -/
theorem witness_ErrorsAndKills_1 : ∃ (s : State) (pa : Nat), (s.halt = none) ∧ (region pa = 0) ∧ (pa <
    Config.localBytes) :=
  ⟨idle, Config.localBytes - 1, by decide +kernel⟩

theorem witness_ErrorsAndKills_2 : ∃ (s : State) (w : Workgroup) (k : Launch), (s.halt = none) ∧ (s.wg? w.id =
    some w) ∧ (w.phase ≠ .swapped) ∧ (s.launch? w.launch = some k) ∧ (k.status = .done) :=
  ⟨stage inst, wgOf (stage inst), launch0, by decide +kernel⟩

/-- A drift of 100 takes the cap below 60. -/
theorem witness_ErrorsAndKills_3 : ∃ (s : State) (c m drift cap : Nat) (a : Age), (s.halt = none) ∧ (s.age[c]?
    = some a) ∧ (m < 65536) ∧ (drift = (if a.birth ≤ m then 0 else min 255 (1000 * (a.birth - m) / a.birth))) ∧
    (cap = (if min a.cap (76 - (drift - 10) / 5) < 60 then 0 else min a.cap (76 - (drift - 10) / 5))) :=
  ⟨agedS, 0, 900, 100, 0, ⟨1000, 0, 0, 76⟩, by decide +kernel⟩

theorem witness_ErrorsAndKills_4 : ∃ (s : State) (i : Instr) (d : Nat) (x : Die), (s.halt = none) ∧ ((i =
    .dieDead d ∨ i = .blulysDeclareDead d)) ∧ (s.dies[d]? = some x) ∧ (x.state ≠ .dead) :=
  ⟨idle, .dieDead 3, 3, ⟨.inService, 0⟩, by decide +kernel⟩

theorem witness_ErrorsAndKills_4_declared : ∃ (s : State) (i : Instr) (d : Nat) (x : Die), (s.halt = none) ∧
    ((i = .dieDead d ∨ i = .blulysDeclareDead d)) ∧ (s.dies[d]? = some x) ∧ (x.state ≠ .dead) :=
  ⟨idle, .blulysDeclareDead 0, 0, ⟨.inService, 0⟩, by decide +kernel⟩

theorem witness_ErrorsAndKills_5 : ∃ (s : State) (tag : CtxTag) (ids : List Nat), (s.halt = none) ∧ (tag ∈
    s.kills) ∧ (ids = (s.launches.filter fun k => k.ctx.tag == tag).map Launch.id) ∧ ((∀ k ∈ s.launches,
    k.ctx.tag = tag → k.rcd.crec = 0 ∧ k.snap = [])) ∧ ((∀ w ∈ s.wgs, w.launch ∈ ids → ∀ q ∈ w.rigs, ∀ th ∈
    q.threads, th.alive = false)) :=
  ⟨overS, ⟨0, 0, 0⟩, [1], by decide +kernel⟩

/-! Turns (R328, R329). -/

/-- Functions 0 and 31 may run on cluster 0 for 100 µs with a budget of 10; function 0 has a launch. -/
def turnS (x : Turn) : State := { idle with
  launches := [launch0], turns := [x]
  pf := { idle.pf with svc := [(0, 1#64), (1, 100#64), (2, 10#64), (248, 1#64), (249, 100#64), (250, 10#64)] } }

theorem follows_of {s : State} {c u : Nat} {v : Option Nat} {k : Launch}
    (h : u = (match v with | some a => a + 1 | none => 0) % 32 ∧ (Map.get 0#64 s.pf.svc (8 * u)).getLsbD c = true ∧
      c < 24 ∧ (Map.get 0#64 s.pf.svc (8 * u + 1)).toNat % 2 ^ 32 ≠ 0 ∧ k ∈ s.launches ∧ k.vf = u ∧
      k.stage = .running) : follows s c v u :=
  ⟨0, by decide, h.1, ⟨h.2.1, h.2.2.1, h.2.2.2.1, .inl ⟨k, h.2.2.2.2.1, h.2.2.2.2.2.1, .inl h.2.2.2.2.2.2⟩⟩,
    fun _ h => absurd h (Nat.not_lt_zero _)⟩

theorem witness_ClusterTurns_1 : ∃ (s : State) (c u debt : Nat) (x : Turn), (follows s c none u) ∧ (s.halt =
    none) ∧ (s.turns[c]? = some x) ∧ (x.vf = none) ∧ ((∀ d ∈ x.drains, d.vf ≠ u)) ∧ (debt = min (Map.get 0
    x.owed u) (sliceTicks s u)) :=
  ⟨turnS ⟨none, 0, [], [(0, 500)]⟩, 0, 0, 500, ⟨none, 0, [], [(0, 500)]⟩, follows_of (k := launch0)
      (by decide +kernel), by decide +kernel⟩

/-- The turn goes from the last function to the first. -/
theorem witness_ClusterTurns_2 : ∃ (s : State) (c a u debt : Nat) (x : Turn), (follows s c (some a) u) ∧
    (s.halt = none) ∧ (s.turns[c]? = some x) ∧ (x.vf = some a) ∧ (x.stop ≤ s.time) ∧ (u ≠ a) ∧ ((∀ d ∈
    x.drains, d.vf ≠ u ∧ d.vf ≠ a)) ∧ (debt = min (Map.get 0 x.owed u) (sliceTicks s u)) :=
  ⟨turnS ⟨some 31, 300000, [], []⟩, 0, 31, 0, 0, ⟨some 31, 300000, [], []⟩, follows_of (k := launch0)
      (by decide +kernel), by decide +kernel⟩

theorem witness_ClusterTurns_3 : ∃ (s : State) (c v : Nat) (x : Turn) (d : Drain), (s.halt = none) ∧
    (s.turns[c]? = some x) ∧ (x.drains.find? (fun d => d.vf == v) = some d) ∧ (d.budgetEnd ≤ s.time) ∧
    (d.passed = false) :=
  ⟨turnS ⟨none, 0, [⟨0, 300000, false⟩], []⟩, 0, 0, ⟨none, 0, [⟨0, 300000, false⟩], []⟩, ⟨0, 300000, false⟩,
      by decide +kernel⟩

theorem witness_ClusterTurns_4 : ∃ (s : State) (c v : Nat) (x : Turn) (d : Drain), (s.halt = none) ∧
    (s.turns[c]? = some x) ∧ (x.drains.find? (fun d => d.vf == v) = some d) ∧ ((∀ w ∈ s.wgs, w.phase = .swapped
    ∨ w.core / 8 ≠ c ∨ ∀ k, s.launch? w.launch = some k → k.vf ≠ v)) :=
  ⟨turnS ⟨none, 0, [⟨0, 300000, false⟩], []⟩, 0, 0, ⟨none, 0, [⟨0, 300000, false⟩], []⟩, ⟨0, 300000, false⟩,
      by decide +kernel⟩

/-! Admission (R314, R320, R321). -/

/-- The cells and the check values of bytes at an address. -/
def cellsOf (a : Nat) (bs : List Byte) : Memory :=
  bs.zipIdx.filterMap fun x => if x.1 = 0#8 then none else some (a + x.2, x.1)
def checksOf (a : Nat) (bs : List Byte) : Map Nat :=
  (List.range (bs.length / 32)).filterMap fun k =>
    let c := crc16 ((bs.drop (32 * k)).take 32)
    if c = 0 then none else some (a / 32 + k, c)

/-- The window is open at 8 MiB, and slot 0 of queue 0 of function 0 holds an armed record; the image that it names stands
at 0x10000, and one entry of the tables maps it and the other pages. -/
def imageB (w : Dword) : List Byte := leBytes 64 imageNum ++ imageCode w ++ List.replicate 16 0#8
def leafB (e : Nat) : List Byte := leBytes 8 e ++ List.replicate 24 0#8
def takeB (r : Nat) : List Byte := leBytes 256 (r + 0xA5 * 2 ^ 2040)
def leafOn : Nat := 1 + 2 + 4 + 8 + 2 ^ 10 + 2 ^ 11 + 3 * 2 ^ 52
def takeFrom (image leaf record : List Byte) : State :=
  let parts : List (Nat × List Byte) :=
    [(0x10000, image), (0x100000, leafB (1 + 0x101 * 2 ^ 12 + 2 ^ 55)), (0x101000, leaf), (0x800000, record)]
  let s : State := { idle with
    mem := parts.flatMap fun x => cellsOf x.1 x.2, chk := parts.flatMap fun x => checksOf x.1 x.2
    pf := { idle.pf with winbase := 0x800001 }, armed := [⟨0, 0, 0, 0x800000⟩] }
  s.setVf 0 fun f => { f with ctxt := Map.set 0#64 (Map.set 0#64 f.ctxt 0 0x100000#64) 7 1#64 }
def takeWith (r : Nat) : State := takeFrom (imageB (wordOf inst)) (leafB leafOn) (takeB r)
def takeS : State := takeWith recordNum
def takeRaw : List Byte := takeB recordNum
def takeG (r : Nat) : LaunchRec := { recFields r with queue := 0 }
def takeRec : LaunchRec := takeG recordNum

def waitK : Launch := { (taken takeS 50 0 (recFields recordNum) takeRaw) with stage := .admitting }
def waitS : State := { takeS with launches := [waitK] }

/-- The window is open, with nothing armed. -/
def openS : State := { idle with pf := { idle.pf with winbase := 0x800001 } }

/-- The last slot of the window. -/
theorem witness_RecordsAdmitted_1 : ∃ (s : State) (v q i slot : Nat), (Inv s) ∧ (unprotected s (slot + 255) 1)
    ∧ (s.halt = none) ∧ (v < 32) ∧ (q < 64) ∧ (i < 16) ∧ (s.pf.winbase % 2 = 1) ∧ (slot = windowSlot s v q i) ∧
    (paExists (slot + 255) = true) ∧ (gate s (slot + 255) = .ok) ∧ (s.sectorBad ((slot + 255) / 32) = false) :=
  ⟨openS, 31, 63, 15, 0x800000 + 2 ^ 18 * 31 + 4096 * 63 + 256 * 15, inv_of (by decide +kernel), fun k h =>
      (by cases h), by decide +kernel⟩

def take1 (s : State) : State := (s.hwWrite false false 0x8000FF [0#8]).2
def takeL (s : State) (r : Nat) (f : LaunchRec) : Launch := taken s (take1 s).serial 0 f (takeB r)
def take2 (s : State) (r : Nat) (f : LaunchRec) : State := { take1 s with
  vfs := (take1 s).vfs.mapIdx fun j x => if j = 0 then { x with heads := Map.set 0 x.heads 0 1 } else x
  serial := (take1 s).serial + 1, launches := (take1 s).launches ++ [takeL s r f] }
theorem takes_of {s : State} {r : Nat} {f : LaunchRec} (hi : Inv s)
    (h : s.halt = none ∧ (take1 s).halt = none ∧ 0 < s.vfs.length ∧ (s.dies.any fun d => d.state == .inService) = true ∧
      0 = Map.get 0 (s.vf 0).heads 0 ∧
      s.armed.find? (fun a => a.vf == 0 && a.queue == 0 && a.idx == 0) = some ⟨0, 0, 0, 0x800000⟩ ∧
      gate s 0x800000 = .ok ∧ Memory.read s.mem 0x8000FF = 0xA5#8 ∧ s.queueUse 0 0 < 64 ∧
      s.badSectors 0x800000 256 = [] ∧ takeB r = Memory.readN s.mem 0x800000 256)
    (hf : f = { recFields (leNat (takeB r)) with
      queue := 0, crec := if s.ctxValid 0 (recFields (leNat (takeB r))).ctx then (recFields (leNat (takeB r))).crec else 0 }) :
    Takes s 0 0 0 0x800000 (takeB r) f (take1 s) (take2 s r f) := by
  obtain ⟨h1, h2, h3, h4, h5, h6, h7, h8, h9, h10, h11⟩ := h
  obtain ⟨d, hd, hs⟩ := List.any_eq_true.mp h4
  exact { runs := ⟨h1, h2⟩, inv := hi, bound := ⟨by decide, h3, by decide⟩, serves := ⟨d, hd, beq_iff_eq.mp hs⟩
          head := h5, armed := h6, place := ⟨by decide, by decide, h7⟩, byte := h8, room := h9, sound := h10, bytes := h11
          fields := hf, disarmed := rfl, entry := rfl }

/-- The fields of the record, from the number of its bytes. -/
theorem fields_of {s : State} {r n : Nat} {crec : Nat} (hn : leNat (takeB r) = n)
    (hg : recFields r = recFields n)
    (hc : crec = if s.ctxValid 0 (recFields n).ctx then (recFields n).crec else 0) :
    ({ takeG r with crec := crec } : LaunchRec) = { recFields (leNat (takeB r)) with
      queue := 0
      crec := if s.ctxValid 0 (recFields (leNat (takeB r))).ctx then (recFields (leNat (takeB r))).crec else 0 } := by
  rw [hn, ← hc, takeG, hg]

/-! The checks that fail (R320). -/

theorem canEnd_none {s : State} {k : Launch} (h : k.rcd.crec = 0) : canEnd s k := .inl h
theorem canEnd_deny {s : State} {k : Launch}
    (h : (translate s k.ctx (.l2 0) 0 none (BitVec.ofNat 64 k.rcd.pkperm) .write k.rcd.crec).2 = .deny ∧
      (translate s k.ctx (.l2 0) 0 none (BitVec.ofNat 64 k.rcd.pkperm) .write k.rcd.crec).1.halt = none) : canEnd s k :=
  .inr (.inr (.inr ⟨_, Prod.ext rfl h.1, h.2⟩))
theorem fails_shape {s : State} {k : Launch} (h : k.rcd.part ≠ 0 ∧ k.rcd.tpw < 4 ∧ (s.countDie k.id).halt = none) :
    FailsCheck s k (s.countDie k.id) k .refusedShape 2 :=
  ⟨h.2.2, .inl ⟨h.1, fun x => absurd x.2.2.2.2.2.1 (Nat.not_le.mpr h.2.1), rfl, rfl, rfl, rfl⟩⟩
/-- The state after the read of the image's header. -/
def imageRead (s : State) (k : Launch) : State × DispRead :=
  (s.countDie k.id).dispBytes k.ctx (BitVec.ofNat 64 k.rcd.pkperm) .exec k.rcd.kimg 64
theorem fails_magic {s : State} {k : Launch} {d : List Byte} (hs : fitsShape k.rcd)
    (h : (imageRead s k).2 = .ok d ∧ bits (leNat d) 0 32 ≠ 0x574C4B49 ∧ (imageRead s k).1.halt = none) :
    FailsCheck s k (imageRead s k).1 k .refusedImage 3 :=
  ⟨h.2.2, .inr (.inl ⟨.inr hs, rfl, rfl, rfl, .inr ⟨d, Prod.ext rfl h.1, h.2.1⟩⟩)⟩
theorem fails_locked {s : State} {k : Launch} (hs : fitsShape k.rcd)
    (h : (imageRead s k).2 = .deny ∧ (imageRead s k).1.halt = none) :
    FailsCheck s k (imageRead s k).1 k .refusedImage 3 :=
  ⟨h.2, .inr (.inl ⟨.inr hs, rfl, rfl, rfl, .inl (Prod.ext rfl h.1)⟩)⟩
/-- The state after the read of the region list. -/
def listRead (s : State) (k : Launch) (f : LaunchRec) : State × DispRead :=
  (admImage s k.id k f).1.dispBytes k.ctx (BitVec.ofNat 64 k.rcd.pkperm) .read k.rcd.cowl (16 * k.rcd.ncow)
theorem fails_list {s : State} {k : Launch} {f : LaunchRec} {img : Nat × Nat × Nat × Nat × Nat}
    (h : ((s.countDie k.id).admitShape k).2 = .ok f ∧ (admImage s k.id k f).2 = .ok img ∧
      (listRead s k f).2 = .deny ∧ (listRead s k f).1.halt = none) :
    FailsCheck s k (listRead s k f).1 { k with rcd := f } .refusedRecord 1 :=
  ⟨h.2.2.2, .inr (.inr ⟨_, _, f, img, Prod.ext rfl h.1, rfl, Prod.ext rfl h.2.1, Prod.ext rfl h.2.2.1, rfl, rfl⟩)⟩
theorem shape_of {f : LaunchRec} (h : (f.part < 2 ^ 21 ∧ bits f.part 0 7 + bits f.part 7 7 + bits f.part 14 7 ≤ 128 ∧
    8 ≤ f.nreg ∧ f.nreg ≤ 256 ∧ f.tpw % 4 = 0 ∧ 4 ≤ f.tpw ∧ f.tpw ≤ (if f.prot then 512 else 1024) ∧
    f.loftb % 256 = 0 ∧ f.loftb ≤ 16384 * bits f.part 7 7 ∧ f.nacc ≤ 8) ∧
    (if f.prot then (f.tpw + 31) / 32 else (f.tpw + 63) / 64) * f.nreg ≤ 64 * bits f.part 0 7 ∧
    (if f.prot then (f.tpw + 31) / 32 else (f.tpw + 63) / 64) * f.nacc ≤ bits f.part 14 7 / 2 ∧
    1 ≤ f.gx ∧ 1 ≤ f.gy ∧ 1 ≤ f.gz ∧ f.gx * f.gy * f.gz ≤ 2 ^ 32) : fitsShape f := by
  obtain ⟨⟨a, b, c, d, e, f, g, i, j, k⟩, l, m, n⟩ := h
  exact ⟨a, b, c, d, e, f, g, i, j, k, l, m, n⟩

theorem witness_RecordsAdmitted_2 : ∃ (s s1 s2 t : State) (raw : List Byte) (f f' : LaunchRec)
    (img : Nat × Nat × Nat × Nat × Nat) (lists : List (Nat × Nat) × List Byte), Takes s 0 0 0 0x800000 raw f s1 s2 ∧
    fitsRecord (leNat raw) (some 0) ∧ Admits s2 s1.serial (taken s s1.serial 0 f raw) t f' img lists ∧
    s.ctxValid 0 f.ctx = true :=
  ⟨takeS, take1 takeS, take2 takeS recordNum { takeG recordNum with crec := 0 },
    (admAll (take2 takeS recordNum { takeG recordNum with crec := 0 }) (take1 takeS).serial (takeL takeS recordNum { takeG recordNum with crec := 0 }) { takeG recordNum with crec := 0 }).1,
    takeB recordNum, { takeG recordNum with crec := 0 }, { takeG recordNum with crec := 0 }, (0, 0x40, 16, 0x80, 0), ([], []),
    takes_of (r := recordNum) (inv_of (by decide +kernel)) (by decide +kernel)
      (fields_of (n := recordNum + 0xA5 * 2 ^ 2040) (by decide +kernel) (by decide +kernel) (by decide +kernel)),
    fits_of (by decide +kernel) (by decide +kernel) (fun q h => (by cases h; decide +kernel)), admits_of (by decide +kernel) rfl, by decide +kernel⟩

/-- A reserved bit is set: the completion record has a place. -/
theorem witness_RecordsAdmitted_2_refused : ∃ (s s1 s2 : State) (raw : List Byte) (f : LaunchRec),
    Takes s 0 0 0 0x800000 raw f s1 s2 ∧ (∃ s3 p, Completes (turnedDown s2 s1.serial .refusedRecord) (taken s s1.serial 0 f raw) s3 p) ∧
    ¬fitsRecord (leNat raw) (some 0) :=
  ⟨(takeWith badNum), take1 (takeWith badNum), take2 (takeWith badNum) badNum { takeG badNum with crec := 0x50000 }, takeB badNum, { takeG badNum with crec := 0x50000 },
    takes_of (r := badNum) (inv_of (by decide +kernel)) (by decide +kernel)
      (fields_of (n := badNum + 0xA5 * 2 ^ 2040) (by decide +kernel) (by decide +kernel) (by decide +kernel)),
    ⟨_, { (placeAt 0x50000) with units := [.l2 0] }, completes_of (q := 0x101000) (by decide +kernel) rfl
      (leafFit_of (by decide +kernel))⟩, fun h => absurd h.2.1 (by decide +kernel)⟩

/-- No context of that number is valid. -/
@[irreducible] def ctxNum : Nat := recordNum + 2 ^ 736 + 0x50000 * 2 ^ 1152
theorem witness_RecordsAdmitted_2_context : ∃ (s s1 s2 : State) (raw : List Byte) (f : LaunchRec),
    Takes s 0 0 0 0x800000 raw f s1 s2 ∧ canEnd (turnedDown s2 s1.serial .refusedRecord) (taken s s1.serial 0 f raw) ∧
    s.ctxValid 0 f.ctx = false :=
  ⟨(takeWith ctxNum), take1 (takeWith ctxNum), take2 (takeWith ctxNum) ctxNum { takeG ctxNum with crec := 0 }, takeB ctxNum, { takeG ctxNum with crec := 0 },
    takes_of (r := ctxNum) (inv_of (by decide +kernel)) (by decide +kernel)
      (fields_of (n := ctxNum + 0xA5 * 2 ^ 2040) (by decide +kernel) (by decide +kernel) (by decide +kernel)),
    canEnd_none (by decide +kernel), by decide +kernel⟩

/-- A partition word is given, and no thread; an image that is zero, or may not be executed; a region list that the
permissions of the record do not let the dispatcher read. -/
@[irreducible] def shapeNum : Nat := recordNum - 64 * 2 ^ 288 + 0x50000 * 2 ^ 1152
def blankS : State := takeFrom (List.replicate 96 0#8) (leafB leafOn) (takeB recordNum)
def lockedS : State := takeFrom (imageB (wordOf inst)) (leafB (leafOn - 4)) (takeB recordNum)
@[irreducible] def listNum : Nat := recordNum + 2 ^ 1232 + 0x60000 * 2 ^ 1280

theorem witness_RecordsAdmitted_2_shape : ∃ (s s1 s2 : State) (raw : List Byte) (f : LaunchRec) (s3 : State) (k : Launch),
    Takes s 0 0 0 0x800000 raw f s1 s2 ∧ fitsRecord (leNat raw) (some 0) ∧
    FailsCheck s2 (taken s s1.serial 0 f raw) s3 k .refusedShape 2 ∧ canEnd (turnedDown s3 s1.serial .refusedShape) k ∧
    s.ctxValid 0 f.ctx = true :=
  ⟨(takeWith shapeNum), take1 (takeWith shapeNum), take2 (takeWith shapeNum) shapeNum { takeG shapeNum with crec := 0x50000 }, takeB shapeNum, { takeG shapeNum with crec := 0x50000 },
    (take2 (takeWith shapeNum) shapeNum { takeG shapeNum with crec := 0x50000 }).countDie (take1 (takeWith shapeNum)).serial, (takeL (takeWith shapeNum) shapeNum { takeG shapeNum with crec := 0x50000 }),
    takes_of (r := shapeNum) (inv_of (by decide +kernel)) (by decide +kernel)
      (fields_of (n := shapeNum + 0xA5 * 2 ^ 2040) (by decide +kernel) (by decide +kernel) (by decide +kernel)),
    fits_of (by decide +kernel) (by decide +kernel) (fun q h => (by cases h; decide +kernel)),
    fails_shape (by decide +kernel), canEnd_deny (by decide +kernel), by decide +kernel⟩

theorem witness_RecordsAdmitted_2_image : ∃ (s s1 s2 : State) (raw : List Byte) (f : LaunchRec) (s3 : State) (k : Launch),
    Takes s 0 0 0 0x800000 raw f s1 s2 ∧ fitsRecord (leNat raw) (some 0) ∧
    FailsCheck s2 (taken s s1.serial 0 f raw) s3 k .refusedImage 3 ∧ canEnd (turnedDown s3 s1.serial .refusedImage) k ∧
    s.ctxValid 0 f.ctx = true :=
  ⟨blankS, take1 blankS, take2 blankS recordNum { takeG recordNum with crec := 0 }, takeB recordNum, { takeG recordNum with crec := 0 },
    (imageRead (take2 blankS recordNum { takeG recordNum with crec := 0 }) (takeL blankS recordNum { takeG recordNum with crec := 0 })).1, (takeL blankS recordNum { takeG recordNum with crec := 0 }),
    takes_of (r := recordNum) (inv_of (by decide +kernel)) (by decide +kernel)
      (fields_of (n := recordNum + 0xA5 * 2 ^ 2040) (by decide +kernel) (by decide +kernel) (by decide +kernel)),
    fits_of (by decide +kernel) (by decide +kernel) (fun q h => (by cases h; decide +kernel)),
    fails_magic (d := List.replicate 64 0#8) (shape_of (by decide +kernel)) (by decide +kernel), canEnd_none (by decide +kernel), by decide +kernel⟩

theorem witness_RecordsAdmitted_2_locked : ∃ (s s1 s2 : State) (raw : List Byte) (f : LaunchRec) (s3 : State) (k : Launch),
    Takes s 0 0 0 0x800000 raw f s1 s2 ∧ fitsRecord (leNat raw) (some 0) ∧
    FailsCheck s2 (taken s s1.serial 0 f raw) s3 k .refusedImage 3 ∧ canEnd (turnedDown s3 s1.serial .refusedImage) k ∧
    s.ctxValid 0 f.ctx = true :=
  ⟨lockedS, take1 lockedS, take2 lockedS recordNum { takeG recordNum with crec := 0 }, takeB recordNum, { takeG recordNum with crec := 0 },
    (imageRead (take2 lockedS recordNum { takeG recordNum with crec := 0 }) (takeL lockedS recordNum { takeG recordNum with crec := 0 })).1, (takeL lockedS recordNum { takeG recordNum with crec := 0 }),
    takes_of (r := recordNum) (inv_of (by decide +kernel)) (by decide +kernel)
      (fields_of (n := recordNum + 0xA5 * 2 ^ 2040) (by decide +kernel) (by decide +kernel) (by decide +kernel)),
    fits_of (by decide +kernel) (by decide +kernel) (fun q h => (by cases h; decide +kernel)),
    fails_locked (shape_of (by decide +kernel)) (by decide +kernel), canEnd_none (by decide +kernel), by decide +kernel⟩

theorem witness_RecordsAdmitted_2_list : ∃ (s s1 s2 : State) (raw : List Byte) (f : LaunchRec) (s3 : State) (k : Launch),
    Takes s 0 0 0 0x800000 raw f s1 s2 ∧ fitsRecord (leNat raw) (some 0) ∧
    FailsCheck s2 (taken s s1.serial 0 f raw) s3 k .refusedRecord 1 ∧ canEnd (turnedDown s3 s1.serial .refusedRecord) k ∧
    s.ctxValid 0 f.ctx = true :=
  ⟨(takeWith listNum), take1 (takeWith listNum), take2 (takeWith listNum) listNum { takeG listNum with crec := 0 }, takeB listNum, { takeG listNum with crec := 0 },
    (listRead (take2 (takeWith listNum) listNum { takeG listNum with crec := 0 }) (takeL (takeWith listNum) listNum { takeG listNum with crec := 0 }) { takeG listNum with crec := 0 }).1, (takeL (takeWith listNum) listNum { takeG listNum with crec := 0 }),
    takes_of (r := listNum) (inv_of (by decide +kernel)) (by decide +kernel)
      (fields_of (n := listNum + 0xA5 * 2 ^ 2040) (by decide +kernel) (by decide +kernel) (by decide +kernel)),
    fits_of (by decide +kernel) (by decide +kernel) (fun q h => (by cases h; decide +kernel)),
    fails_list (img := (0, 0x40, 16, 0x80, 0)) (by decide +kernel), canEnd_none (by decide +kernel), by decide +kernel⟩

theorem witness_RecordsAdmitted_3 : ∃ (s t : State) (k : Launch) (f : LaunchRec) (img : Nat × Nat × Nat × Nat × Nat)
    (lists : List (Nat × Nat) × List Byte), Admits s k.id k t f img lists ∧ s.halt = none ∧ s.launch? k.id = some k ∧
    (∀ x ∈ s.launches, x.id = k.id → x = k) ∧ k.stage = .admitting ∧ k.noPlace = false :=
  ⟨waitS, (admAll waitS waitK.id waitK (recFields recordNum)).1, waitK, recFields recordNum, (0, 0x40, 16, 0x80, 0), ([], []),
    admits_of (by decide +kernel) rfl, by decide +kernel⟩

/-- The page of the image has come, and is no image. -/
def waitB : State := { blankS with launches := [waitK] }
theorem witness_RecordsAdmitted_3_refused : ∃ (s s3 : State) (k : Launch), FailsCheck s k s3 k .refusedImage 3 ∧
    canEnd (turnedDown s3 k.id .refusedImage) k ∧ s.halt = none ∧ s.launch? k.id = some k ∧
    (∀ x ∈ s.launches, x.id = k.id → x = k) ∧ k.stage = .admitting ∧ k.noPlace = false ∧ k.status = .done ∧ k.cause = 0 ∧
    k.wgdone = 0 ∧ k.snap = [] ∧ k.snapAt = none :=
  ⟨waitB, (imageRead waitB waitK).1, waitK,
    fails_magic (d := List.replicate 64 0#8) (shape_of (by decide +kernel)) (by decide +kernel),
    canEnd_none (by decide +kernel), by decide +kernel⟩

/-! The end of a launch, snapshots and rollbacks (R322, R345, R347). -/

def doneK (st : LStage) (crec : Nat) : Launch := { launch0 with stage := st, rcd := { launch0.rcd with crec := crec } }
def doneS (k : Launch) : State := { mapped idle with launches := [k] }

theorem witness_LaunchesEnd_1 : ∃ (i : Instr) (s : State) (k : Launch), ((i = .launchEnd k.id ∧ k.stage =
    .running ∧ k.nextWg = k.rcd.gx * k.rcd.gy * k.rcd.gz ∧ k.rollback = none ∧ (∀ w ∈ s.wgs, w.launch ≠ k.id) ∧
    k.ctx.tag ∉ s.kills ∨ i = .launchEndResume k.id ∧ k.stage = .ending)) ∧ (s.halt = none) ∧ (s.launch? k.id =
    some k) ∧ (k.status = .done) ∧ (k.quiet = false) ∧ (k.snap = []) ∧ (k.snapAt = none) ∧ (k.rcd.crec = 0) :=
  ⟨.launchEnd 1, doneS (doneK .running 0), doneK .running 0, .inl ⟨rfl, rfl, rfl, rfl, fun w h => (by cases h),
      by decide +kernel⟩, by decide +kernel⟩

theorem witness_LaunchesEnd_1_resume : ∃ (i : Instr) (s : State) (k : Launch), ((i = .launchEnd k.id ∧ k.stage
    = .running ∧ k.nextWg = k.rcd.gx * k.rcd.gy * k.rcd.gz ∧ k.rollback = none ∧ (∀ w ∈ s.wgs, w.launch ≠ k.id)
    ∧ k.ctx.tag ∉ s.kills ∨ i = .launchEndResume k.id ∧ k.stage = .ending)) ∧ (s.halt = none) ∧ (s.launch? k.id
    = some k) ∧ (k.status = .done) ∧ (k.quiet = false) ∧ (k.snap = []) ∧ (k.snapAt = none) ∧ (k.rcd.crec = 0) :=
  ⟨.launchEndResume 1, doneS (doneK .ending 0), doneK .ending 0, .inr ⟨rfl, rfl⟩, by decide +kernel⟩

theorem witness_LaunchesEnd_2 : ∃ (s s1 : State) (k : Launch) (p : Place) (q : Nat), (Inv s) ∧ ((∀ w ∈ s.wgs,
    w.launch ≠ k.id)) ∧ (translate (ending s k.id) k.ctx (.l2 0) 0 none (BitVec.ofNat 64 k.rcd.pkperm) .write
    k.rcd.crec = (s1, .ok p q)) ∧ (leafFit s1 p) ∧ (s.halt = none) ∧ (s.launch? k.id = some k) ∧ (k.status =
    .done) ∧ (k.snap = []) ∧ (k.snapAt = none) ∧ (k.rcd.crec % 16 = 0) ∧ (k.rcd.crec ≠ 0) ∧ (k.ctx.dbm = 0) ∧
    (k.stage = .running) ∧ (k.nextWg = k.rcd.gx * k.rcd.gy * k.rcd.gz) ∧ (k.rollback = none) ∧ (k.ctx.tag ∉
    s.kills) ∧ (s1.halt = none) ∧ (paExists p.addr = true) ∧ (s1.badSectors p.addr 16 = []) :=
  ⟨doneS (doneK .running 0x50000), (translate (ending (doneS (doneK .running 0x50000)) 1) (doneK .running
      0x50000).ctx (.l2 0) 0 none (BitVec.ofNat 64 (doneK .running 0x50000).rcd.pkperm) .write 0x50000).1,
      doneK .running 0x50000, { (placeAt 0x50000) with units := [.l2 0] }, 0x101000, inv_of
      (by decide +kernel), fun w h => (by cases h), pair_of (by decide +kernel), leafFit_of
      (by decide +kernel), by decide +kernel⟩

/-- Tables with a leaf of 2 MiB. -/
def leafNum : Nat := 1 + 2 + 4 + 8 + 2 ^ 10 + 2 ^ 11 + 2 * 2 ^ 52
def mapped2 (s : State) : State :=
  ((s.rawWrite 0x100000 (leBytes 8 (1 + 0x101 * 2 ^ 12 + 2 ^ 55))).rawWrite 0x101000
    (leBytes 8 (1 + 0x102 * 2 ^ 12 + 2 ^ 55))).rawWrite 0x102000 (leBytes 8 leafNum)
def snapK : Launch := { launch0 with stage := .snapshotting, repl := true, regions := [(0x3000, 0x1000)] }
/-- The pool has a free run of the size of the list. -/
def snapS : State :=
  (mapped2 { idle with launches := [snapK] }).setVf 0 fun f => { f with spare := [(0x300000, Config.snapBytes 1)] }
def snapT : State × Pages := snapS.snapPages snapK.ctx snapK.regions []

/-- A walk that has read sound sectors leaves the functions as they are. -/
theorem noteWalk_vfs {tag : CtxTag} : ∀ {reads : List Nat} {s : State},
    (∀ a ∈ reads, (sectorsOf a 8).filter s.sectorMismatch = []) → (s.noteWalk tag reads).vfs = s.vfs
  | [], _, _ => rfl
  | a :: r, s, h => by
    have hu : ∀ d, (s.useDie tag d).vfs = s.vfs ∧ (s.useDie tag d).sectorMismatch = s.sectorMismatch := fun d => by
      unfold State.useDie
      split <;> exact ⟨rfl, rfl⟩
    have hc : (s.useDie tag (dieOfPa a)).reportChecks a 8 = s.useDie tag (dieOfPa a) := by
      rw [State.reportChecks, (hu _).2, h a (.head _), List.foldl_nil]
    have hr := noteWalk_vfs (tag := tag) (reads := r) (s := s.useDie tag (dieOfPa a)) fun b hb => by
      rw [(hu _).2]; exact h b (.tail _ hb)
    rw [State.noteWalk, List.foldl_cons, hc]
    exact hr.trans (hu _).1
def snapW : Walk × List Nat := walkAll snapS snapK.ctx (.l2 0) 0 0x3000
def snapU : State := snapS.noteWalk snapK.ctx.tag snapW.2
theorem snapT_eq : snapT = (snapU, .ok [(0, 0x102000, 0x200000)]) := by
  have hw : snapW.1 = .leaf leafNum 0x102000 1 [8192, 8224, 8256]
      [(3, 1 + 0x101 * 2 ^ 12 + 2 ^ 55, 0x100000), (2, 1 + 0x102 * 2 ^ 12 + 2 ^ 55, 0x101000)] false := by decide +kernel
  have hp : pageBytes 1 leafNum = 0x200000 ∧ pageKey leafNum 0x102000 = 0x102000 := by decide +kernel
  have step (n : Nat) : snapS.regionPages snapK.ctx 0x4000 (n + 2) 0x3000 [] =
      (snapU, .ok [(0, 0x102000, 0x200000)]) := by
    rw [State.regionPages, if_neg (by decide)]
    simp only [show walkAll snapS snapK.ctx (.l2 0) 0 0x3000 = snapW from rfl, hw, hp.1, hp.2]
    rw [if_neg (by decide), if_neg (by decide), State.regionPages, if_pos (by decide)]
    rfl
  rw [snapT, show snapK.regions = [(0x3000, 0x1000)] from rfl, State.snapPages,
    show (0x3000 + 0x1000 : Nat) = 0x4000 from rfl, show (0x1000 / 4096 + 1 : Nat) = 0 + 2 from rfl, step]
  rfl
theorem snapT_vf : snapT.1.vf 0 = snapS.vf 0 := by
  have h : snapT.1.vfs = snapS.vfs := by
    rw [snapT_eq]
    exact noteWalk_vfs (by decide +kernel)
  exact congrArg (fun l : List Vf => l[0]?.getD Vf.reset) h
theorem snapS_spare : (snapS.vf 0).spare = [(0x300000, Config.snapBytes 1)] := rfl

theorem setVf_read64 (s : State) (v a : Nat) (f : Vf → Vf) : (s.setVf v f).read64 a = s.read64 a := rfl
theorem setVf_badSectors (s : State) (v a n : Nat) (f : Vf → Vf) : (s.setVf v f).badSectors a n = s.badSectors a n := rfl
theorem alloc_of {s : State} {v size align a : Nat} (hb : region (s.vf v).frameb = 0 ∧ (s.vf v).frameb < Config.localBytes)
    (hs : (s.vf v).spare = [(a, size)]) (ha : a % align = 0) : ∃ f, s.poolAlloc v size align = some (a, s.setVf v f) := by
  unfold State.poolAlloc
  rw [if_neg (by rintro (h | h); exacts [h hb.1, absurd hb.2 (by omega)]), hs]
  simp [ha]

def backK : Launch := { (taken takeS 50 0 (recFields recordNum) takeRaw) with stage := .running, repl := true, rollback := some true }
def backS : State := { takeS with launches := [backK] }
def backR : Launch := rolledBack backS backK true backK.order
def backT : State := { backS with
  fresh := backS.fresh + 1, marks := backS.marks.filter fun m => m.launch != 50
  launches := [backR] }

theorem witness_SnapshotAndRollback_1 : ∃ (s s0 s1 : State) (k : Launch) (va pa n e a : Nat), s.halt = none ∧ Inv s ∧
    s.launch? k.id = some k ∧ k.stage = .snapshotting ∧ s.snapPages k.ctx k.regions [] = (s0, .ok [(va, pa, n)]) ∧
    s0.snapPlace k 1 = some (a, s1) ∧ e = s1.read64 pa ∧ s1.badSectors pa 8 = [] ∧ bit e 1 = true ∧ bits e 52 2 ≠ 1 ∧
    paExists pa = true := by
  obtain ⟨f, h⟩ := alloc_of (s := snapT.1) (v := 0) (size := Config.snapBytes 1) (align := 8) (a := 0x300000)
    (by decide +kernel) ((congrArg Vf.spare snapT_vf).trans snapS_spare) (by decide)
  exact ⟨snapS, snapT.1, _, snapK, 0, 0x102000, 0x200000, leafNum, 0x300000, rfl, inv_of (by decide +kernel), rfl, rfl,
    pair_of (by decide +kernel), h, (by rw [setVf_read64]; decide +kernel), (by rw [setVf_badSectors]; decide +kernel), by decide +kernel⟩

theorem witness_SnapshotAndRollback_2 : ∃ (s s1 t : State) (k : Launch) (counted : Bool) (f : LaunchRec) (img :
    Nat × Nat × Nat × Nat × Nat) (lists : List (Nat × Nat) × List Byte) (order : Nat), (Admits s1 k.id
    (rolledBack s k counted order) t f img lists) ∧ (s.halt = none) ∧ (s.launch? k.id = some k) ∧ (k.rollback =
    some counted) ∧ (k.snap = []) ∧ ((∀ w ∈ s.wgs, w.launch ≠ k.id ∧ ∀ x ∈ s.launches, x.id = w.launch → x.hard
    = false)) ∧ ((∀ c ∈ s.cmds, c.launch ≠ k.id)) ∧ ((∀ p ∈ s.loads, p.launch ≠ k.id)) ∧ ((∀ q ∈ s.stores,
    q.launch ≠ k.id)) ∧ ((∀ m ∈ s.ringMsgs, m.launch ≠ k.id)) ∧ (order = ((s.launches.filter fun x => x.vf ==
    k.vf && x.rcd.queue == k.rcd.queue).map Launch.order).foldl min k.order) ∧ (s1 =
    { s with fresh := s.fresh + 1, marks := s.marks.filter fun m => m.launch != k.id, launches := rolledBack s k counted order :: s.launches.filter fun x => x.id != k.id })
    :=
  ⟨backS, backT, (admAll backT backK.id backR (recFields recordNum)).1, backK, true, recFields recordNum, (0,
      0x40, 16, 0x80, 0), ([], []), backK.order, admits_of (s := backT) (id := backK.id) (k := backR) (f :=
      recFields recordNum) (by decide +kernel) rfl, by decide +kernel⟩

end Sys2Proof.Tests
end

