-- ==== Sys2Proof/Tests/Witness7.lean ====
section
/-! SUPPORT. Witnesses: for every statement with premises, states and operands that meet all of them together
(placement, swaps and engines). -/

namespace Sys2Proof.Tests

open Sys2Proof Sys2Proof.Machine Sys2Proof.Spec

set_option Elab.async false
set_option linter.unusedVariables false

/-! Placement and swaps (R324 to R328, R305). -/

def placeK : Launch := { launch0 with nextWg := 0 }
def placeS : State :=
  let s : State := { idle with launches := [placeK], turns := [⟨some 0, 0, [], []⟩] }
  s.setCore 0 fun k => { k with kslots := [some (oneKernel 0#64)] }

/-- A launch that needs the whole loft of a core, one of whose workgroups a launch of lower priority holds. -/
def bigK : Launch := { launch0 with
  id := 9, nextWg := 0, rcd := { launch0.rcd with prio := 1, loftb := 393216 } }
def fullS : State := { (stage inst) with
  launches := [launch0, bigK], turns := [⟨some 0, 0, [], []⟩]
  cores := (stage inst).cores.mapIdx fun n k => if n = 0 then k else { k with fenced := true } }

theorem holdsKernel_of {s : State} {c : Nat} {k : Launch} (x : KSlot)
    (h : some x ∈ (s.core c).kslots ∧ x.kimg = k.rcd.kimg) : holdsKernel s c k := ⟨x, h⟩
theorem noHard_of {s : State} (h : ∀ k ∈ s.launches, k.hard = false) : noHard s := h

theorem fits_beside_of {s : State} {k : Launch} {ws : List Workgroup} {grids : List Nat} {n : Nat}
    (h : (∀ r ∈ recsOf s ws, r.part = k.rcd.part) ∧
      ((recsOf s ws).map LaunchRec.kimg ++ [k.rcd.kimg]).eraseDups.length ≤ 4 ∧
      (grids ++ if k.rcd.gridt = 0 then [] else [k.id]).eraseDups.length ≤ 4 ∧
      (rigsOf k.rcd * k.rcd.nreg = 0 ∨ demand s ws (fun r => rigsOf r * r.nreg) + n * (rigsOf k.rcd * k.rcd.nreg) ≤
        64 * bits k.rcd.part 0 7) ∧
      (k.rcd.loftb = 0 ∨ demand s ws LaunchRec.loftb + n * k.rcd.loftb ≤ 16384 * bits k.rcd.part 7 7) ∧
      (rigsOf k.rcd * k.rcd.nacc = 0 ∨ demand s ws (fun r => rigsOf r * r.nacc) + n * (rigsOf k.rcd * k.rcd.nacc) ≤
        bits k.rcd.part 14 7 / 2) ∧
      (rigsOf k.rcd = 0 ∨ demand s ws rigsOf + n * rigsOf k.rcd ≤ 128)) : fitsBeside s k ws grids n := h

/-- The loft of a core is taken. -/
theorem full_of {s : State} {k : Launch} {ws : List Workgroup} {grids : List Nat} {n : Nat}
    (h : k.rcd.loftb ≠ 0 ∧ 16384 * bits k.rcd.part 7 7 < demand s ws LaunchRec.loftb + n * k.rcd.loftb) :
    ¬fitsBeside s k ws grids n := fun x => by
  rcases x.2.2.2.2.1 with y | y
  · exact h.1 y
  · exact absurd y (Nat.not_le.mpr h.2)

theorem coreServes_of {s : State} {c v : Nat} (a : Age) (x : Turn)
    (h : c < 192 ∧ (s.core c).fenced = false ∧ (s.dies[c / 48]?).map Die.state = some .inService ∧
      s.age[c / 8]? = some a ∧ 0 < a.cap ∧ s.turns[c / 8]? = some x ∧ x.vf = some v) : coreServes s c v :=
  ⟨h.1, h.2.1, h.2.2.1, ⟨a, h.2.2.2.1, h.2.2.2.2.1⟩, x, h.2.2.2.2.2⟩

theorem hasWork_of {s : State} {k : Launch} (h : k.stage = .running ∧ k.noPlace = false ∧
    k.nextWg < k.rcd.gx * k.rcd.gy * k.rcd.gz ∧ k.ctx.tag ∉ s.kills ∧ k.snapTracks = []) : hasWork s k :=
  ⟨h.1, h.2.1, h.2.2.1, h.2.2.2.1, fun i hi => by rw [h.2.2.2.2] at hi; cases hi⟩

theorem mayTake_of {s : State} {c : Nat} {k : Launch} (hw : hasWork s k) (hc : coreServes s c k.vf)
    (hf : fitsBeside s k (residents s c) (s.core c).grids 1) (h : (∀ r ∈ s.relays, r.phase ≠ .sent ∧ r.phase ≠ .draining) ∧ s.marks = []) :
    mayTake s c k :=
  ⟨hw, fun r hr _ => ⟨(h.1 r hr).1, fun x => absurd x (h.1 r hr).2⟩, hc, fun m hm => (by rw [h.2] at hm; cases hm), hf⟩

/-- Two launches that the core can take: the later one has the higher PRIO. -/
def lowK : Launch := { placeK with id := 2, order := 1 }
def highK : Launch := { placeK with order := 2, rcd := { placeK.rcd with prio := 1 } }
def placeS2 : State := { placeS with launches := [lowK, highK] }
theorem highTakes : mayTake placeS2 0 highK :=
  mayTake_of (hasWork_of (by decide +kernel)) (coreServes_of (placeS2.age.getD 0 ⟨0, 0, 0, 0⟩) ⟨some 0, 0, [], []⟩ (by decide +kernel))
    (fits_beside_of (by decide +kernel)) (by decide +kernel)

theorem witness_Placement_1 : ∃ (s : State) (c : Nat) (k : Launch), Inv s ∧ chosen s c k ∧ holdsKernel s c k ∧
    s.halt = none ∧ s.launch? k.id = some k :=
  ⟨placeS2, 0, highK, inv_of (by decide +kernel), ⟨[lowK], [], rfl, highTakes,
    fun l hl _ => by rw [List.mem_singleton.mp hl]; exact .inl (by decide +kernel), fun l hl => by cases hl⟩,
    holdsKernel_of (oneKernel 0#64) (by decide +kernel), by decide +kernel⟩

/-- The launch of the lower PRIO is not chosen. -/
theorem witness_Placement_2 : ∃ (s : State) (c id : Nat), s.halt = none ∧ (∃ k ∈ s.launches, k.id = id) ∧
    ∀ k, chosen s c k → k.id ≠ id := by
  refine ⟨placeS2, 0, 2, rfl, ⟨lowK, .head _, rfl⟩, ?_⟩
  rintro k ⟨xs, ys, h, -, -, hy⟩ hk
  match xs, h with
  | [], h =>
    injection h with h1 h2
    subst h1 h2
    rcases hy highK (.head _) highTakes with x | x
    · exact absurd x (by decide +kernel)
    · exact absurd x.1 (by decide +kernel)
  | [_], h =>
    injection h with h1 h2
    injection h2 with h3 h4
    subst h3
    exact absurd hk (by decide +kernel)
  | _ :: _ :: _, h => exact absurd (congrArg List.length h) (by simp [placeS2])

theorem fullNone (c : Nat) : ¬mayTake fullS c bigK := by
  rintro ⟨-, -, hc, -, hf⟩
  rcases Nat.eq_zero_or_pos c with rfl | h
  · exact full_of (by decide +kernel) hf
  · exact absurd hc.2.1 (by
      have := (by decide +kernel : ∀ d < 192, 0 < d → (fullS.core d).fenced = true) c hc.1 h
      rw [this]; decide)
theorem fullQ (d : Nat) (h : qualified fullS bigK d) : d = 0 := by
  rcases Nat.eq_zero_or_pos d with rfl | p
  · rfl
  · have := (by decide +kernel : ∀ d < 192, 0 < d → (fullS.core d).fenced = true) d h.1.1 p
    rw [h.1.2.1] at this
    cases this

theorem witness_Placement_4 : ∃ (s : State) (k : Launch) (cs : List Nat) (n : Nat → Nat), hasWork s k ∧
    (∀ c, ¬mayTake s c k) ∧ (∀ c ∈ cs, qualified s k c ∧ fitsBeside s k (leftOn s k c) (gridsLeft s k c) (n c) ∧
      ¬fitsBeside s k (leftOn s k c) (gridsLeft s k c) (n c + 1)) ∧ cs.Pairwise (sooner s k) ∧
    (∀ d, qualified s k d → d ∉ cs → ∀ c ∈ cs, sooner s k c d) ∧
    (k.rcd.gx * k.rcd.gy * k.rcd.gz - k.nextWg ≤ (cs.map n).sum ∨ ∀ d, qualified s k d → d ∈ cs) ∧
    s.halt = none ∧ s.launch? k.id = some k ∧ (∀ m ∈ s.marks, m.launch ≠ k.id) ∧ 0 < k.rcd.tpw ∧ k.rcd.prio < 8 ∧
    (cs ≠ [] → (cs.dropLast.map n).sum < k.rcd.gx * k.rcd.gy * k.rcd.gz - k.nextWg) :=
  ⟨fullS, bigK, [0], fun _ => 1, hasWork_of (by decide +kernel), fullNone, fun c hc => by
    rw [List.mem_singleton.mp hc]
    exact ⟨⟨coreServes_of (fullS.age.getD 0 ⟨0, 0, 0, 0⟩) ⟨some 0, 0, [], []⟩ (by decide +kernel), by decide +kernel,
      fits_beside_of (by decide +kernel)⟩, fits_beside_of (by decide +kernel), full_of (by decide +kernel)⟩,
    List.pairwise_singleton _ _, fun d hd hn => absurd (fullQ d hd ▸ .head _) hn, .inl (by decide), by decide +kernel⟩

theorem witness_Placement_3 : ∃ (s : State) (w : Workgroup) (k : Launch), (noHard s) ∧ (s.halt = none) ∧ (s.wg?
    w.id = some w) ∧ (w.phase = .running) ∧ ((∀ q ∈ w.rigs, ∀ th ∈ q.threads, th.alive = false)) ∧ ((∀ p ∈
    s.loads, p.lane.wg ≠ w.id)) ∧ ((∀ d ∈ s.cmds, d.lane.wg ≠ w.id)) ∧ ((∀ m ∈ s.ringMsgs, m.lane.wg ≠ w.id)) ∧
    (w.replay = []) ∧ (w.again = []) ∧ ((∀ q ∈ s.stores, q.lane.wg = w.id → q.place.loft = true)) ∧ ((∀ k ∈
    s.tracks, k.lane.map LaneRef.wg = some w.id → s.trackDone .sys k = true)) ∧ (w.ended = false) ∧ (s.launch?
    w.launch = some k) :=
  ⟨overS, wgOf overS, launch0, noHard_of (by decide +kernel), by decide +kernel⟩

/-- A workgroup that awaits its swap, and the pool with a free frame of the size that it needs. -/
def swapB : State := (stage inst).setWg 2 fun w => { w with phase := .swapPending }
def swapS : State :=
  swapB.setVf 0 fun f => { f with spare := [(0x200000, (swapB.frameBytes (wgOf swapB)).length)] }

theorem frameBytes_eq {s t : State} {w : Workgroup} (h : s.serial = t.serial ∧ s.limits w.id = t.limits w.id) :
    s.frameBytes w = t.frameBytes w := by
  rw [State.frameBytes, State.frameBytes, State.frameSections, State.frameSections, h.1, h.2]

theorem frame_of {s s1 : State} {w : Workgroup} {k : Launch} {a : Nat} (hk : s.launch? w.launch = some k)
    (h : s.poolAlloc k.vf (s.frameBytes w).length 4096 = some (a, s1)) (hg : gate s a = .ok) :
    s.frameFor w = some (a, s.frameBytes w, s1) := by
  unfold State.frameFor
  simp only [hk]
  rw [h]
  simp only [hg]
  rfl

theorem get_past {α : Type} (d : α) (m : Map α) (k : Nat) (h : ∀ e ∈ m, e.1 < k) : Map.get d m k = d := by
  induction m with
  | nil => rfl
  | cons e r ih =>
    have he := h e (by simp)
    rw [Map.get, if_neg (by omega)]
    exact ih fun x hx => h x (by simp [hx])

theorem read_zeros {m : Memory} {a : Nat} (n : Nat) (h : ∀ e ∈ m, e.1 < a) :
    Memory.readN m a n = List.replicate n 0#8 := by
  induction n generalizing a with
  | zero => rfl
  | succ n ih =>
    rw [Memory.readN, Memory.read, get_past _ _ _ h, ih fun e he => Nat.lt_succ_of_lt (h e he)]
    rfl

/-- Past all that has been written every sector is sound. -/
theorem sound_past {s : State} {a : Nat} (n : Nat)
    (h : a % 32 = 0 ∧ s.poison = [] ∧ (∀ e ∈ s.chk, e.1 < a / 32) ∧ ∀ e ∈ s.mem, e.1 < a) :
    s.badSectors a n = [] := by
  rw [State.badSectors, List.filter_eq_nil_iff]
  intro x hx
  have hx' : a ≤ 32 * x := by
    unfold sectorsOf at hx
    split at hx
    · simp at hx
    · simp only [List.mem_map, List.mem_range] at hx
      omega
  have hz : s.sector x = List.replicate 32 0#8 := read_zeros 32 fun e he => Nat.lt_of_lt_of_le (h.2.2.2 e he) hx'
  have hc : Map.get 0 s.chk x = 0 := get_past _ _ _ fun e he => Nat.lt_of_lt_of_le (h.2.2.1 e he) (by omega)
  have hcrc : crc16 (List.replicate 32 0#8) = 0 := by decide +kernel
  rw [State.sectorBad, hz, hcrc, hc, h.2.1]
  simp [Map.get]

theorem witness_SwapAndRestore_1 : ∃ (s s1 : State) (w : Workgroup) (k : Launch) (g : Group) (a : Nat)
    (bytes : List Byte), s.frameFor w = some (a, bytes, s1) ∧ s.badSectors a bytes.length = [] ∧ Inv s ∧ noHard s ∧
    s.halt = none ∧ s.wg? w.id = some w ∧ s.launch? w.launch = some k ∧ w.phase = .swapPending ∧
    (∀ p ∈ s.loads, p.lane.wg ≠ w.id) ∧ (∀ d ∈ s.cmds, d.lane.wg ≠ w.id) ∧ s.groupsOf w = [g] ∧ g.work = [] ∧
    g.lanes.Nodup ∧ g.served = [] ∧ paExists a = true ∧ (∀ r ∈ w.replay, r.lane < 64 ∧ r.rig < 16) ∧
    w.replay.length ≤ 1024 := by
  have e : swapS.frameBytes (wgOf swapS) = swapB.frameBytes (wgOf swapB) := by
    rw [(by decide +kernel : wgOf swapS = wgOf swapB)]
    exact frameBytes_eq (by decide +kernel)
  obtain ⟨f, h⟩ := alloc_of (s := swapS) (v := launch0.vf) (align := 4096) (by decide +kernel)
    (by rw [e]; rfl : (swapS.vf launch0.vf).spare = [(0x200000, (swapS.frameBytes (wgOf swapS)).length)]) (by decide)
  exact ⟨swapS, _, wgOf swapS, launch0, group0 (wordOf inst), 0x200000, _, frame_of (by decide +kernel) h (by decide +kernel),
    sound_past _ (by decide +kernel), inv_of (by decide +kernel), noHard_of (by decide +kernel), by decide +kernel⟩

/-- A swapped workgroup whose frame stands in memory: nine sections, of which only THREAD is in version 2. -/
def backParts : List (Nat × Nat × List Byte) :=
  (frameTags launch0.rcd.loftb launch0.rcd.nacc).map fun t => (t, if t = 2 then 2 else 1, if t = 7 then [] else
    if t = 0xFF then [] else leBytes 8 t)
def backB : List Byte := backParts.flatMap partBytes
def backOn : State :=
  let s : State := (stage inst).setWg 2 fun w => { w with phase := .swapped, frame := some (0x200000, backB) }
  { (s.rawWrite 0x200000 backB) with turns := [⟨some 0, 0, [], []⟩] }

theorem isFrame_of {parts : List (Nat × Nat × List Byte)} {loft acc : Nat} {replay : List Replay}
    (h : parts.map Prod.fst = frameTags loft acc ∧
      ∀ x ∈ parts, x.2.1 = (if x.1 = 2 then 2 else 1) ∧ x.2.2.length % 8 = 0 ∧
        (x.1 = 7 → x.2.2 = replay.flatMap entryBytes) ∧ (x.1 = 0xFF → x.2.2 = [])) : isFrame parts loft acc replay := h

theorem holdsBytes_of {m : Memory} {a : Nat} {bytes : List Byte}
    (h : ∀ i < bytes.length, Memory.read m (a + i) = bytes.getD i 0#8) : holdsBytes m a bytes := h

theorem witness_SwapAndRestore_2 : ∃ (s : State) (w : Workgroup) (k : Launch) (a : Nat) (bytes : List Byte)
    (parts : List (Nat × Nat × List Byte)), (Inv s) ∧ ((∃ x, s.turns[w.core / 8]? = some x ∧ x.vf = some k.vf))
    ∧ (fitsBeside s k (residents s w.core) (s.core w.core).grids 1) ∧ ((∀ r ∈ s.relays, ofJob r k → r.phase ≠
    .sent)) ∧ (isFrame parts k.rcd.loftb k.rcd.nacc []) ∧ (holdsBytes s.mem a bytes) ∧ (holdsKernel s w.core k)
    ∧ (s.halt = none) ∧ (s.wg? w.id = some w) ∧ (s.launch? w.launch = some k) ∧ (w.phase = .swapped) ∧
    (w.faults = []) ∧ (w.replay = []) ∧ (w.again = []) ∧ (k.hard = false) ∧ (w.core < 192) ∧ ((s.core
    w.core).fenced = false) ∧ ((s.dies[w.core / 48]?).map Die.state = some .inService) ∧ ((∀ i ∈ k.snapTracks,
    ∀ t ∈ s.tracks, t.id = i → s.trackDone .sys t = true)) ∧ (w.frame = some (a, bytes)) ∧ (bytes =
    parts.flatMap partBytes) ∧ ((∀ x ∈ parts, x.2.2.length < 2 ^ 32)) ∧ (gate s a ≠ .refused) ∧ (s.badSectors a
    bytes.length = []) ∧ ((∀ d ∈ s.cmds, d.lane.wg = w.id → d.stopped = false)) :=
  ⟨backOn, wgOf backOn, launch0, 0x200000, backB, backParts, inv_of (by decide +kernel), ⟨⟨some 0, 0, [], []⟩,
      by decide +kernel⟩, fits_beside_of (by decide +kernel), fun r hr _ =>
      (by decide +kernel : ∀ r ∈ backOn.relays, r.phase ≠ .sent) r hr, isFrame_of (by decide +kernel),
      holdsBytes_of (by decide +kernel), holdsKernel_of (oneKernel (wordOf inst)) (by decide +kernel),
      by decide +kernel⟩

/-! Engines (R244 to R287). -/

/-- A command under way, its workgroup, and a loft with something in it. -/
def cmdS (c : Cmd) : State :=
  let s : State := { mmaS with cmds := [c] }
  s.setWg 2 fun w => { w with loft := Memory.writeN [] 64 [3#8, 0x85#8, 0x7F#8, 2#8, 0x41#8, 0xC0#8] }
def cmdW (c : Cmd) : Workgroup := wgOf (cmdS c)
def blocked (c : Cmd) (i : Instr) (ws : List Word) : Cmd := { c with instr := i, block := ws ++ List.replicate (16 - ws.length) 0#32 }

def performsB (s : State) (c : Cmd) (w : Workgroup) : Bool :=
  s.halt.isNone && invB s && decide (s.cmds.find? (fun d => d.id == c.id) = some c) && !c.stopped && !c.held &&
    s.isFirst c && decide (s.wg? c.lane.wg = some w) && decide (w.phase ≠ .swapped) &&
    decide ((c.early = [] ∧ c.ahead = 0 ∧ c.adds = [] ∧ c.spread = false) ∧ ∀ q ∈ s.stores, q.cmd ≠ some c.id)

theorem performs_of {s : State} {c : Cmd} {w : Workgroup} (h : performsB s c w = true) : Performs s c w := by
  simp only [performsB, Bool.and_eq_true, decide_eq_true_eq, Option.isNone_iff_eq_none, Bool.not_eq_true'] at h
  obtain ⟨⟨⟨⟨⟨⟨⟨⟨a, b⟩, d⟩, e⟩, f⟩, g⟩, i⟩, j⟩, k⟩ := h
  exact { halt := a, inv := inv_of b, here := d, place := e, start := f, first := g, wg := i, core := j, early := k.1, sent := k.2 }

theorem delivers_of {s : State} {c : Cmd} {w : Workgroup}
    (h : (performsB s c w && s.isHead c && c.bar.isNone) = true) : Delivers s c w := by
  simp only [Bool.and_eq_true, Option.isNone_iff_eq_none] at h
  exact { toPerforms := performs_of h.1.1, head := h.1.2, bar := h.2 }

theorem touches_of {s s1 : State} {c : Cmd} {k : AccKind} {va len : Nat} {p : Place}
    (h : (((performing s c).engTranslate c k va).2 = .ok p ∧ s1.halt = none) ∧
      (va < 2 ^ 64 ∧ 0 < len ∧ va % 4096 + len ≤ 4096) ∧
      (gate s1 p.addr = .ok ∧ paExists p.addr = true ∧ paExists (p.addr + len - 1) = true) ∧
      s1.badSectors p.addr len = [] ∧
      (p.leaf.all fun a => a % 8 == 0 && paExists a && !s1.sectorBad (a / 32)) = true ∧
      ((s.launch? c.launch).all fun x => decide (x.ctx.dbm = 0)) = true)
    (h1 : ((performing s c).engTranslate c k va).1 = s1) : Touches s c k va len s1 p :=
  { place := Prod.ext h1 h.1.1, halt := h.1.2, page := h.2.1, here := h.2.2.1, sound := h.2.2.2.1
    leaf := leafFit_of h.2.2.2.2.1, plain := some_all h.2.2.2.2.2 }
/-- The state after the translation of an access of a command. -/
def after (c : Cmd) (k : AccKind) (va : Nat) : State := ((performing (cmdS c) c).engTranslate c k va).1

theorem oneGroup_of {s : State} {c : Cmd} {w : Workgroup} {af bf acc rows cols klen colb : Nat}
    (hp : performsB s c w = true)
    (h : (c.tainted = false ∧ c.progress = 0) ∧ (c.lanes.Nodup ∧ s.prot c.lane.wg = false) ∧
      c.w 0 = af + 16 * bf + 256 * acc ∧ (rows < 256 ∧ cols < 256 ∧ 0 < klen ∧ klen ≤ 32 ∧ colb < 4) ∧
      c.w 1 = rows + 2 ^ 8 * cols + 2 ^ 16 * klen + 2 ^ 25 + 2 ^ 26 + 2 ^ 30 * colb ∧
      ∀ i ∈ c.lanes, (s.thread ⟨c.lane.wg, c.lane.rig, i⟩).life ≠ .absent ∧
        Map.wf 0#32 (s.thread ⟨c.lane.wg, c.lane.rig, i⟩).rows = true ∧
        (s.thread ⟨c.lane.wg, c.lane.rig, i⟩).accOld = []) : OneGroup s c w af bf acc rows cols klen colb :=
  { toPerforms := performs_of hp, clean := h.1.1, fresh := h.1.2, lanes := h.2.1.1, plain := h.2.1.2, format := h.2.2.1
    shape := h.2.2.2.1, word := h.2.2.2.2.1, ready := h.2.2.2.2.2 }

def mzC : Cmd := { mmaC with instr := .mzero p7 2#3 (g 8) }
/-- One row, two columns and three elements of I8 and W8, from column 96. -/
def intC : Cmd := blocked mmaC mmaI [0x787#32, 0xC6030201#32, 64#32, 0#32, 65#32, 0#32, 4#32, 1#32]
/-- The same shape of E4M3 and E5M2, on FP32 accumulators. -/
def floC : Cmd := blocked mmaC mmaI [0x43#32, 0xC6030201#32, 64#32, 0#32, 65#32, 0#32, 4#32, 1#32]
/-- A parent of depth 2, of wide rows in form 1. -/
def tblH : TableHdr := { addr := 0x60000, nblk := 1, fork := 0, clen := 5, dc := 1, form := 1, depth := 2 }
def forkC : Cmd := { (blocked mmaC (.kvfork p7 (.tok 1#3) (g 8)) [0x60000#32, 0#32, 0x61000#32, 0#32, 3#32]) with
  engine := .attention, chain := [tblH] }
def comC : Cmd := { (blocked mmaC (.kvcommit p7 (.tok 1#3) (g 8)) [0x60000#32, 0#32, 7#32]) with
  engine := .attention, chain := [tblH] }
/-- The next byte is the first after the padding of the image. -/
def appC : Cmd := { mmaC with
  instr := .kvapp p7 (.tok 1#3) (g 8), engine := .attention, chain := [tblH], target := 0x62000, progress := 514
  desc := (List.range (imageLength tblH)).map (BitVec.ofNat 8) }
def lookC : Cmd := { mmaC with
  instr := .kvlook p7 1#3 (g 20) (g 8), engine := .attention, chain := [tblH], perLane := [(0, 5#32)] }
/-- Three of four scores in the loft. -/
def topC : Cmd := { (blocked mmaC (.topk p7 (.tok 1#3) (g 8))
  [60#32, 0#32, 512#32, 0#32, 0#32, 0#32, 4#32, 3#32, 3#32]) with engine := .attention }
def latC : Cmd := { (blocked mmaC (.latw p7 1#3 (g 8)) [0#32, 0#32, 0#32, 0#32, 3#32]) with
  engine := .attention, progress := 1 }
def latB : Bank := ⟨1, 256, 1, 1, [[1]], [[2]], some latC.id, 3, [[3]], [[4]]⟩
def latS : State := (cmdS latC).setCore 0 fun k => { k with banks := [none, none, none, some latB] }
/-- Two tile sets from the second. -/
def finC : Cmd := { (blocked mmaC (.attfin p7 1#3 (g 20) (g 8)) [9#32]) with engine := .attention, set := 1 }
def finR (nan : Bool) : RowState := ⟨0x3F800000#32, 0x80000000#32, nan, true⟩
def finS (nan : Bool) : State := (cmdS finC).setThread lane0 fun t => { t with
  rows := [(127, 1#32), (128, 2#32), (383, 3#32), (384, 4#32)], rowst := [(1, finR nan)] }
def attC : Cmd := { (blocked mmaC (.att p7 false false false 1#3 (g 8))
  [0#32, 0#32, 0#32, 0#32, 0#32, 128#32, 0#32, 0#32, 5#32]) with engine := .attention, chain := [tblH] }

theorem looks_of {c : Cmd} {n : Nat}
    (h : ∀ i ∈ c.lanes, ((c.perLane.find? fun x => x.1 == i).any fun x => x.1 == i && decide (n ≤ x.2.toNat)) = true) :
    ∀ i ∈ c.lanes, ∃ v, c.perLane.find? (fun x => x.1 == i) = some (i, v) ∧ n ≤ v.toNat := by
  intro i hi
  have hx := h i hi
  cases e : c.perLane.find? fun x => x.1 == i with
  | none => rw [e] at hx; cases hx
  | some x =>
    rw [e] at hx
    simp only [Option.any_some, Bool.and_eq_true, beq_iff_eq, decide_eq_true_eq] at hx
    exact ⟨x.2, by rw [← hx.1], hx.2⟩

theorem witness_MatrixEngine_1 : ∃ (s : State) (c : Cmd) (w : Workgroup) (n : Nat) (gd : Guard) (k : BitVec 3)
    (a : Opnd), (Performs s c w) ∧ (0 < n) ∧ (c.instr = .mzero gd k a) ∧ (c.tainted = false) :=
  ⟨cmdS mzC, mzC, cmdW mzC, 1, p7, 2#3, g 8, performs_of (by decide +kernel), by decide +kernel⟩

theorem witness_MatrixEngine_2 : ∃ (s : State) (c : Cmd) (w : Workgroup) (n : Nat) (gd : Guard) (ns ks : Sel3)
    (k : BitVec 3) (a : Opnd) (af bf rows cols klen colb : Nat), (OneGroup s c w af bf 7 rows cols klen colb) ∧
    (c.instr = .mma gd ns ks k a) ∧ (0 < n) ∧ ((af = 7 ∨ af = 8)) ∧ ((bf = 7 ∨ bf = 8)) :=
  ⟨cmdS intC, intC, cmdW intC, 1, p7, .s1, .s0, 2#3, g 8, 7, 8, 1, 2, 3, 3, oneGroup_of (by decide +kernel)
      (by decide +kernel), by decide +kernel⟩

theorem witness_MatrixEngine_3 : ∃ (s : State) (c : Cmd) (w : Workgroup) (n : Nat) (gd : Guard) (ns ks : Sel3)
    (k : BitVec 3) (a : Opnd) (af bf rows cols klen colb : Nat) (f g : Fmt), (OneGroup s c w af bf 0 rows cols
    klen colb) ∧ (byteFmt af f) ∧ (byteFmt bf g) ∧ (c.instr = .mma gd ns ks k a) ∧ (0 < n) :=
  ⟨cmdS floC, floC, cmdW floC, 1, p7, .s1, .s0, 2#3, g 8, 3, 4, 1, 2, 3, 3, .e4m3, .e5m2, oneGroup_of
      (by decide +kernel) (by decide +kernel), .inl ⟨rfl, rfl⟩, .inr ⟨rfl, rfl⟩, by decide +kernel⟩

theorem witness_MatrixEngine_4 : ∃ (s : State) (c : Cmd) (w : Workgroup) (n : Nat) (gd : Guard) (k :
    Completion) (a : Opnd) (h : TableHdr) (r : List TableHdr) (s1 : State) (p : Place), (Performs s c w) ∧
    (Touches s c .write (c.pair 2) 64 s1 p) ∧ (0 < n) ∧ (c.instr = .kvfork gd k a) ∧ (c.chain = h :: r) ∧
    (h.addr < 2 ^ 64) ∧ (h.depth < 3) ∧ (h.dc < 2) ∧ (h.form < 4) ∧ (c.pair 2 % 64 = 0) :=
  ⟨cmdS forkC, forkC, cmdW forkC, 1, p7, .tok 1#3, g 8, tblH, [], after forkC .write 0x61000, placeAt 0x61000,
      performs_of (by decide +kernel), touches_of (by decide +kernel) rfl, by decide +kernel⟩

theorem witness_MatrixEngine_5 : ∃ (s : State) (c : Cmd) (w : Workgroup) (n : Nat) (gd : Guard) (k :
    Completion) (a : Opnd) (h : TableHdr) (r : List TableHdr) (s1 : State) (p : Place), (Performs s c w) ∧
    (Touches s c .rmw (h.addr + 12) 4 s1 p) ∧ (0 < n) ∧ (c.instr = .kvcommit gd k a) ∧ (c.chain = h :: r) ∧
    (h.addr % 64 = 0) ∧ (s.released c.lane .sys = true) ∧ ((∀ x ∈ s.tracks, x.lane = some ⟨c.lane.wg,
    c.lane.rig, 64⟩ → s.trackDone .sys x = true)) :=
  ⟨cmdS comC, comC, cmdW comC, 1, p7, .tok 1#3, g 8, tblH, [], after comC .rmw 0x6000C, placeAt 0x6000C,
      performs_of (by decide +kernel), touches_of (by decide +kernel) rfl, by decide +kernel⟩

/-- The first byte after the padding. -/
theorem witness_MatrixEngine_6 : ∃ (s : State) (c : Cmd) (w : Workgroup) (gd : Guard) (k : Completion) (a :
    Opnd) (h : TableHdr) (r : List TableHdr) (s1 : State) (p : Place) (x : Byte), (Performs s c w) ∧ (Touches s
    c .write (c.target + imageOffset h c.progress) 1 s1 p) ∧ (c.instr = .kvapp gd k a) ∧ (c.chain = h :: r) ∧
    (c.bar = none) ∧ (c.desc.length = imageLength h) ∧ (c.progress + 1 < imageLength h) ∧ (c.desc[c.progress]?
    = some x) :=
  ⟨cmdS appC, appC, cmdW appC, p7, .tok 1#3, g 8, tblH, [], after appC .write 0x62240, placeAt 0x62240, 2#8,
      performs_of (by decide +kernel), touches_of (by decide +kernel) rfl, by decide +kernel⟩

/-- A position at the length. -/
theorem witness_MatrixEngine_7 : ∃ (s : State) (c : Cmd) (w : Workgroup) (n : Nat) (gd : Guard) (k : BitVec 3)
    (d a : Opnd) (h : TableHdr) (r : List TableHdr), (Performs s c w) ∧ ((∀ i ∈ c.lanes, ∃ v, c.perLane.find?
    (fun x => x.1 == i) = some (i, v) ∧ h.clen ≤ v.toNat)) ∧ (0 < n) ∧ (c.instr = .kvlook gd k d a) ∧ (c.chain
    = h :: r) ∧ (s.prot c.lane.wg = false) :=
  ⟨cmdS lookC, lookC, cmdW lookC, 1, p7, 1#3, g 20, g 8, tblH, [], performs_of (by decide +kernel), looks_of
      (by decide +kernel), by decide +kernel⟩

theorem witness_MatrixEngine_8 : ∃ (s : State) (c : Cmd) (w : Workgroup) (n k src dst : Nat) (gd : Guard) (z :
    Completion) (a : Opnd) (score : Nat → Nat), (Performs s c w) ∧ ((∀ i, score i = leNat (Memory.readN w.loft
    (src + 4 * i) 4))) ∧ ((∀ x, dst ≤ x → x < dst + 4 * k → w.live.contains (x / 16) = false)) ∧ (0 < n) ∧
    (c.instr = .topk gd z a) ∧ (c.bar = none) ∧ (c.w 8 = 3) ∧ (c.pair 4 = 0) ∧ (src = c.pair 0) ∧ (dst = c.pair
    2) ∧ (k = c.w 7) ∧ (k ≤ c.w 6) ∧ (0 < k) :=
  ⟨cmdS topC, topC, cmdW topC, 1, 3, 60, 512, p7, .tok 1#3, g 8, fun i => leNat (Memory.readN (cmdW topC).loft
      (60 + 4 * i) 4), performs_of (by decide +kernel), fun _ => rfl, fun _ _ _ => rfl, by decide +kernel⟩

/-- The last bank. -/
theorem witness_MatrixEngine_9 : ∃ (s : State) (c : Cmd) (w : Workgroup) (n b : Nat) (gd : Guard) (k : BitVec
    3) (a : Opnd) (x : Bank), (Performs s c w) ∧ (0 < n) ∧ (c.instr = .latw gd k a) ∧ (c.progress ≠ 0) ∧ (b =
    c.w 4 % 4) ∧ (c.core < s.cores.length) ∧ ((s.core c.core).banks[b]? = some (some x)) :=
  ⟨latS, latC, wgOf (latS), 1, 3, p7, 1#3, g 8, latB, performs_of (by decide +kernel), by decide +kernel⟩

theorem witness_MatrixEngine_10_nan : ∃ (s : State) (c : Cmd) (w : Workgroup) (n sets : Nat) (gd : Guard) (k :
    BitVec 3) (d a : Opnd) (l : LaneRef) (st : RowState), (Performs s c w) ∧ (0 < n) ∧ (c.instr = .attfin gd k
    d a) ∧ (c.tainted = false) ∧ (s.prot c.lane.wg = false) ∧ (c.lanes.Nodup) ∧ (sets = c.w 0 / 8 % 4 + 1) ∧
    (c.set = c.w 0 % 8) ∧ (l = ⟨c.lane.wg, c.lane.rig, l.lane⟩) ∧ (l.lane ∈ c.lanes) ∧ (l.lane < 64) ∧
    ((s.thread l).alive = true) ∧ (st = Map.get RowState.reset (s.thread l).rowst c.set) ∧ ((st.nan = true ∨
    st.l.toNat % 2 ^ 31 = 0)) :=
  ⟨finS true, finC, wgOf (finS true), 1, 2, p7, 1#3, g 20, g 8, lane0, finR true, performs_of
      (by decide +kernel), by decide +kernel⟩

theorem witness_MatrixEngine_10_empty : ∃ (s : State) (c : Cmd) (w : Workgroup) (n sets : Nat) (gd : Guard) (k
    : BitVec 3) (d a : Opnd) (l : LaneRef) (st : RowState), (Performs s c w) ∧ (0 < n) ∧ (c.instr = .attfin gd
    k d a) ∧ (c.tainted = false) ∧ (s.prot c.lane.wg = false) ∧ (c.lanes.Nodup) ∧ (sets = c.w 0 / 8 % 4 + 1) ∧
    (c.set = c.w 0 % 8) ∧ (l = ⟨c.lane.wg, c.lane.rig, l.lane⟩) ∧ (l.lane ∈ c.lanes) ∧ (l.lane < 64) ∧
    ((s.thread l).alive = true) ∧ (st = Map.get RowState.reset (s.thread l).rowst c.set) ∧ ((st.nan = true ∨
    st.l.toNat % 2 ^ 31 = 0)) :=
  ⟨finS false, finC, wgOf (finS false), 1, 2, p7, 1#3, g 20, g 8, lane0, finR false, performs_of
      (by decide +kernel), by decide +kernel⟩

/-- The first position is at the length. -/
theorem witness_MatrixEngine_11 : ∃ (s : State) (c : Cmd) (w : Workgroup) (n : Nat) (gd : Guard) (x1 x2 x3 :
    Bool) (k : BitVec 3) (a : Opnd) (h : TableHdr) (r : List TableHdr), (Performs s c w) ∧ (0 < n) ∧ (c.instr =
    .att gd x1 x2 x3 k a) ∧ (c.chain = h :: r) ∧ (c.progress = 0) ∧ (h.clen ≤ c.w 8) ∧ (bit (c.w 5) 7 = true) ∧
    (s.prot c.lane.wg = false) ∧ ((∀ i ∈ c.lanes, (Map.get RowState.reset (s.thread ⟨c.lane.wg, c.lane.rig,
    i⟩).rowst c.set).nan = true ∨ (Map.get RowState.reset (s.thread ⟨c.lane.wg, c.lane.rig, i⟩).rowst c.set).m
    = 0xFF800000#32)) :=
  ⟨cmdS attC, attC, cmdW attC, 1, p7, false, false, false, 1#3, g 8, tblH, [], performs_of (by decide +kernel),
      by decide +kernel⟩

/-! Copies and rings (R246, R265 to R274, R286 to R288). -/

def stopC : Cmd := { mmaC with stopped := true }
def stopS : State := (cmdS stopC).setWg 2 fun w => { w with phase := .resuming }

/-- A copy with a descriptor, on channel 9; `sides` says which sides are in the loft. -/
def copyC (i : Instr) (d : Nat) : Cmd := { mmaC with instr := i, engine := .copy, desc := leBytes 128 d, target := 9 }
def sides (source dest : Nat) : Nat := 2 ^ 133 * source + 2 ^ 134 * dest
def cpyJ : Instr := .cpy p7 (.tok 1#3) (g 2)
/-- The last bytes of a page. -/
def inC : Cmd := copyC cpyJ (64 + 4080 * 2 ^ 64 + sides 1 1 + 16 * 2 ^ 192)
def outC : Cmd := copyC cpyJ (64 + 0x60FF0 * 2 ^ 64 + sides 1 0 + 16 * 2 ^ 192)
def toC : Cmd := copyC cpyJ (0x60FF0 + 64 * 2 ^ 64 + sides 0 1 + 16 * 2 ^ 192)
/-- Element 4 of a tensor of 3 by 2 words, its rows 64 bytes apart. -/
def tenI : Instr := .cpyt p7 false (.tok 1#3) (g 2)
def tenC (out : Nat) : Cmd := { (copyC tenI (64 + 512 * 2 ^ 64 + sides 1 1 + 6 * 2 ^ 135 + 1 * 2 ^ 139 + out * 2 ^ 143 +
  3 * 2 ^ 192 + 2 * 2 ^ 208 + 64 * 2 ^ 384)) with progress := 4 }
/-- The second of two rows of eight bytes, by an index at 0x30000, below a limit of 3. -/
def rowC (i : Instr) : Cmd := { (copyC i (64 + 512 * 2 ^ 64 + sides 1 1 + 6 * 2 ^ 135 + 0x01020304 * 2 ^ 160 + 0x30000 * 2 ^ 192 + 2 * 2 ^ 256 + 8 * 2 ^ 288 +
  32 * 2 ^ 320 + 3 * 2 ^ 736)) with progress := 1 }
def rowS (i : Instr) (idx : Nat) : State := (cmdS (rowC i)).rawWrite 0x30004 (leBytes 4 idx)
def rowA (i : Instr) (idx : Nat) : State := ((performing (rowS i idx) (rowC i)).engTranslate (rowC i) .read (dsc (rowC i) 192 64 + 4 * (rowC i).progress)).1
def cpygI : Instr := .cpyg p7 (.tok 1#3) (g 2)
def cpysI : Instr := .cpys p7 (.tok 1#3) (g 2)

/-- A receive of a block of 64 bytes, of which the record is at 0x50000. -/
def rcvC : Cmd := { (copyC (.rngrcv p7 false (.tok 1#3) (g 2)) (0x51000 * 2 ^ 64 + 0x60000 * 2 ^ 128 + 64 * 2 ^ 224)) with
  set := 1, block := [0x50000#32, 0#32, 128#32, 0#32, 1#32, 0#32, 0#32, 0#32] }

/-- Four levels of tables; the level-0 table at 0x103000 has a shared leaf with W and X at entry 0, a leaf without W at
entry 1, and nothing at entry 2. -/
def pointer (t : Nat) : Nat := 1 + t * 4096 + 2 ^ 55
def tables4 (s : State) : State :=
  let parts : List (Nat × List Byte) :=
    [(0x100000, leBytes 32 (pointer 0x101)), (0x101000, leBytes 32 (pointer 0x102)), (0x102000, leBytes 32 (pointer 0x103)),
      (0x103000, leBytes 32 (1 + 2 + 4 + 8 + 2 ^ 10 + 2 ^ 11 + 0x40 * 4096 + 2 ^ 64 * (1 + 8 + 2 ^ 10 + 0x41 * 4096)))]
  { s with mem := parts.flatMap fun x => cellsOf x.1 x.2, chk := parts.flatMap fun x => checksOf x.1 x.2 }

theorem walked_of {s : State} {va p0 : Nat}
    (h : (p0 = 0x103000 + 8 * bits va 12 9 ∧ bits va 39 9 = 0 ∧ bits va 30 9 = 0 ∧ bits va 21 9 = 0) ∧
      (s.read64 0x100000 = pointer 0x101 ∧ s.read64 0x101000 = pointer 0x102 ∧ s.read64 0x102000 = pointer 0x103) ∧
      ∀ a ∈ [0x100000, 0x101000, 0x102000, p0], region a = 0 ∧ gate s a = .ok ∧ s.badSectors a 8 = []) :
    Walked s 0x100000 va 0x100000 0x101000 0x102000 p0 := by
  obtain ⟨⟨h0, h3, h2, h1⟩, ⟨e3, e2, e1⟩, hr⟩ := h
  have p3 : isPointer (pointer 0x101) ∧ pageFrame (pointer 0x101) = 0x101000 := ⟨⟨by decide, by decide⟩, by decide⟩
  have p2 : isPointer (pointer 0x102) ∧ pageFrame (pointer 0x102) = 0x102000 := ⟨⟨by decide, by decide⟩, by decide⟩
  have p1 : isPointer (pointer 0x103) ∧ pageFrame (pointer 0x103) = 0x103000 := ⟨⟨by decide, by decide⟩, by decide⟩
  exact ⟨by rw [h3], by rw [e3, p3.2, h2], by rw [e2, p2.2, h1], by rw [e1, p1.2, h0],
    ⟨e3 ▸ p3.1, e2 ▸ p2.1, e1 ▸ p1.1⟩, hr _ (by simp), hr _ (by simp), hr _ (by simp), hr _ (by simp)⟩

theorem leaf_of {e : Nat} (h : (bit e 0 && !(bit e 55) && !(bit e 54) && bits e 52 2 == 0 && region (pageFrame e) == 0) = true) :
    isLeaf e := by
  simp only [Bool.and_eq_true, Bool.not_eq_true', beq_iff_eq] at h
  exact ⟨h.1.1.1.1, h.1.1.1.2, h.1.1.2, h.1.2, .inl h.2⟩

theorem mapped_of {s : State} {k : Launch} {perm : Dword} {va len pa p0 : Nat} (hk : k.ctx.root = 0x100000)
    (hw : Walked s 0x100000 va 0x100000 0x101000 0x102000 p0) (hl : isLeaf (s.read64 p0))
    (h : (k.ctx.dbm = 0 ∧ ∀ e ∈ s.tlb, e.tag ≠ k.ctx.tag) ∧ (va < 2 ^ 48 ∧ 0 < len ∧ va % 4096 + len ≤ 4096) ∧
      (bits (s.read64 p0) 3 2 = 1 ∧ bit (s.read64 p0) 10 = true ∧ bit (s.read64 p0) 11 = true ∧
        bit (s.read64 p0) 1 = true ∧ perm.getLsbD (2 * bits (s.read64 p0) 5 5) = true ∧
        perm.getLsbD (2 * bits (s.read64 p0) 5 5 + 1) = true) ∧ pa = pageFrame (s.read64 p0) + va % 4096 ∧
      (∀ l ∈ s.launches, ∀ p ∈ l.snap, p.leafPa ≠ p0) ∧
      (∀ x ∈ [0x100000, 0x101000, 0x102000, p0], x + 8 ≤ pa ∨ pa + len ≤ x) ∧
      (gate s pa = .ok ∧ paExists pa = true ∧ paExists (pa + len - 1) = true) ∧ s.badSectors pa len = []) :
    Mapped s k perm va len pa := by
  obtain ⟨⟨a, b⟩, c, ⟨d, e, f, g, i, j⟩, l, m, n, o, p⟩ := h
  exact { plain := a, cold := b, page := c, here := o, sound := p
          walk := ⟨_, _, _, _, _, hk ▸ hw, rfl, hl, .inl d, ⟨g, i, j⟩, e, f, l, m, n⟩ }

/-- A ring block of the launch on its way into a pool at 0xFC0, the last bytes of a page, with its level record at 0x800. -/
def ringM (credit landed pkg : Bool) : RingMsg :=
  { id := 5, credit := credit, lane := lane0, launch := 1, core := 0, perm := 3#64, record := 0x800, pool := 0xFC0
    data := (List.range 64).map (BitVec.ofNat 8), bad := [], landed := landed, blksz := 64, cmd := mmaC.id, pkg := pkg, port := none }
def ringS (m : RingMsg) : State := { tables4 (cmdS mmaC) with ringMsgs := [m] }
def ringW : State × Eng Unit :=
  ({ (ringS (ringM false false false)) with fresh := (ringS (ringM false false false)).fresh + 1 } : State).blockWrite
    (ringM false false false)
def ringA (p : Bool) : State × Eng (List Byte) := counted (ringS (ringM false true p)) (ringM false true p) 44
def ringC (p : Bool) : State × Eng (List Byte) := counted (ringS (ringM true false p)) (ringM true false p) 40
def recordAfter (n : Nat) : List Byte := leBytes 128 (2 ^ (8 * n))

theorem arrives_of {s : State} {m : RingMsg}
    (h : (s.halt = none ∧ s.ringMsgs.find? (fun x => x.id == m.id && x.credit == m.credit) = some m) ∧
      (∀ x ∈ s.ringMsgs, x.credit = false → x.record = m.record → m.id ≤ x.id) ∧ ∀ c ∈ s.cmds, c.stopped = false) :
    Arrives s m :=
  { halt := h.1.1, here := h.1.2, order := fun _ => h.2.1, goes := fun c hc => h.2.2 c (List.mem_of_find?_eq_some hc) }

theorem witness_EngineEvents_1 : ∃ (s : State) (c : Cmd) (w : Workgroup), (s.halt = none) ∧ (s.cmds.find? (fun
    d => d.id == c.id) = some c) ∧ (c.stopped = true) ∧ (s.wg? c.lane.wg = some w) ∧ (w.phase = .resuming) ∧
    (w.replay = []) ∧ (w.again = []) ∧ ((∀ d ∈ s.cmds.takeWhile (fun d => d.id != c.id), d.lane.wg = c.lane.wg
    → d.engine = c.engine → d.stopped = false)) ∧ ((s.cmds.filter fun d => d.core == c.core && d.engine ==
    c.engine && !d.stopped).length < c.engine.places) :=
  ⟨stopS, stopC, wgOf stopS, by decide +kernel⟩

/-- Up to the end of a page. -/
theorem witness_EngineEvents_2 : ∃ (s : State) (c : Cmd) (w : Workgroup) (n src dst len : Nat) (gd : Guard) (k
    : Completion) (a : Opnd), (Delivers s c w) ∧ (c.instr = .cpy gd k a) ∧ (c.progress = 0) ∧ (src = dsc c 0
    64) ∧ (dst = dsc c 64 64) ∧ (len = dsc c 192 64) ∧ (dsc c 133 1 = 1) ∧ (dsc c 134 1 = 1) ∧ (0 < len) ∧ (len
    ≤ n) ∧ (src % 4096 + len ≤ 4096) ∧ (dst % 4096 + len ≤ 4096) :=
  ⟨cmdS inC, inC, cmdW inC, 16, 64, 4080, 16, p7, .tok 1#3, g 2, delivers_of (by decide +kernel),
      by decide +kernel⟩

theorem witness_EngineEvents_3_out : ∃ (s : State) (c : Cmd) (w : Workgroup) (n src dst len : Nat) (gd : Guard)
    (k : Completion) (a : Opnd) (s1 : State) (p : Place), (Delivers s c w) ∧ (Touches s c .write dst len s1 p)
    ∧ (c.instr = .cpy gd k a) ∧ (c.progress = 0) ∧ (src = dsc c 0 64) ∧ (dst = dsc c 64 64) ∧ (len = dsc c 192
    64) ∧ (len ≤ n) ∧ (src % 4096 + len ≤ 4096) ∧ (dst % 4096 + len ≤ 4096) ∧ (dsc c 133 1 = 1) ∧ (dsc c 134 1
    = 0) :=
  ⟨cmdS outC, outC, cmdW outC, 16, 64, 0x60FF0, 16, p7, .tok 1#3, g 2, after outC .write 0x60FF0, placeAt
      0x60FF0, delivers_of (by decide +kernel), touches_of (by decide +kernel) rfl, by decide +kernel⟩

theorem witness_EngineEvents_3_in : ∃ (s : State) (c : Cmd) (w : Workgroup) (n src dst len : Nat) (gd : Guard)
    (k : Completion) (a : Opnd) (s1 : State) (p : Place), (Delivers s c w) ∧ (Touches s c .read src len s1 p) ∧
    (c.instr = .cpy gd k a) ∧ (c.progress = 0) ∧ (src = dsc c 0 64) ∧ (dst = dsc c 64 64) ∧ (len = dsc c 192
    64) ∧ (len ≤ n) ∧ (src % 4096 + len ≤ 4096) ∧ (dst % 4096 + len ≤ 4096) ∧ (dsc c 133 1 = 0) ∧ (dsc c 134 1
    = 1) :=
  ⟨cmdS toC, toC, cmdW toC, 16, 0x60FF0, 64, 16, p7, .tok 1#3, g 2, after toC .read 0x60FF0, placeAt 0x60FF0,
      delivers_of (by decide +kernel), touches_of (by decide +kernel) rfl, by decide +kernel⟩

theorem witness_EngineEvents_4_gather : ∃ (s : State) (c : Cmd) (w : Workgroup) (gd : Guard) (k : Completion)
    (a : Opnd) (ty : Ty) (width src dst total : Nat), (Delivers s c w) ∧ (c.instr = .cpyt gd false k a) ∧
    (Ty.ofCode? (dsc c 135 4) = some ty) ∧ (width = ty.bits / 8) ∧ (total = ((List.range (dsc c 139 4 + 1)).map
    fun d => dsc c (192 + 16 * d) 16).prod) ∧ (c.progress < total) ∧ (dsc c 133 1 = 1) ∧ (dsc c 134 1 = 1) ∧
    (src < 2 ^ 64) ∧ (dst < 2 ^ 64) ∧ (((src : Int) = dsc c 0 64 + (if dsc c 143 1 = 1 then (c.progress * width
    : Int) else tensorOffset c width c.progress))) ∧ (((dst : Int) = dsc c 64 64 + (if dsc c 143 1 = 1 then
    tensorOffset c width c.progress else (c.progress * width : Int)))) :=
  ⟨cmdS (tenC 0), tenC 0, wgOf (cmdS (tenC 0)), p7, .tok 1#3, g 2, .w32, 4, 132, 528, 6, delivers_of
      (by decide +kernel), by decide +kernel⟩

theorem witness_EngineEvents_4_scatter : ∃ (s : State) (c : Cmd) (w : Workgroup) (gd : Guard) (k : Completion)
    (a : Opnd) (ty : Ty) (width src dst total : Nat), (Delivers s c w) ∧ (c.instr = .cpyt gd false k a) ∧
    (Ty.ofCode? (dsc c 135 4) = some ty) ∧ (width = ty.bits / 8) ∧ (total = ((List.range (dsc c 139 4 + 1)).map
    fun d => dsc c (192 + 16 * d) 16).prod) ∧ (c.progress < total) ∧ (dsc c 133 1 = 1) ∧ (dsc c 134 1 = 1) ∧
    (src < 2 ^ 64) ∧ (dst < 2 ^ 64) ∧ (((src : Int) = dsc c 0 64 + (if dsc c 143 1 = 1 then (c.progress * width
    : Int) else tensorOffset c width c.progress))) ∧ (((dst : Int) = dsc c 64 64 + (if dsc c 143 1 = 1 then
    tensorOffset c width c.progress else (c.progress * width : Int)))) :=
  ⟨cmdS (tenC 1), tenC 1, wgOf (cmdS (tenC 1)), p7, .tok 1#3, g 2, .w32, 4, 80, 580, 6, delivers_of
      (by decide +kernel), by decide +kernel⟩

theorem witness_EngineEvents_5_gather : ∃ (s : State) (c : Cmd) (w : Workgroup) (i : Instr) (gd : Guard) (k :
    Completion) (a : Opnd) (s1 : State) (p : Place) (rowb idx far near : Nat), (Delivers s c w) ∧ ((i = .cpyg
    gd k a ∨ i = .cpys gd k a)) ∧ (Touches s c .read (dsc c 192 64 + 4 * c.progress) 4 s1 p) ∧ (c.instr = i) ∧
    (c.progress < dsc c 256 32) ∧ (dsc c 133 1 = 1) ∧ (dsc c 134 1 = 1) ∧ (rowb = dsc c 288 32) ∧ (0 < rowb) ∧
    (dsc c 192 64 + 4 * c.progress < 2 ^ 64) ∧ (idx = leNat (Memory.readN s1.mem p.addr 4)) ∧ (far < 2 ^ 64) ∧
    (near < 2 ^ 64) ∧ (idx < dsc c 736 32) ∧ (i = .cpyg gd k a) ∧ (far = dsc c 0 64 + idx * dsc c 320 32) ∧
    (near = dsc c 64 64 + c.progress * rowb) :=
  ⟨rowS cpygI 2, rowC cpygI, wgOf (rowS cpygI 2), cpygI, p7, .tok 1#3, g 2, rowA cpygI 2, placeAt 0x30004, 8,
      2, 128, 520, delivers_of (by decide +kernel), .inl rfl, touches_of (by decide +kernel) rfl,
      by decide +kernel⟩

theorem witness_EngineEvents_5_scatter : ∃ (s : State) (c : Cmd) (w : Workgroup) (i : Instr) (gd : Guard) (k :
    Completion) (a : Opnd) (s1 : State) (p : Place) (rowb idx far near : Nat), (Delivers s c w) ∧ ((i = .cpyg
    gd k a ∨ i = .cpys gd k a)) ∧ (Touches s c .read (dsc c 192 64 + 4 * c.progress) 4 s1 p) ∧ (c.instr = i) ∧
    (c.progress < dsc c 256 32) ∧ (dsc c 133 1 = 1) ∧ (dsc c 134 1 = 1) ∧ (rowb = dsc c 288 32) ∧ (0 < rowb) ∧
    (dsc c 192 64 + 4 * c.progress < 2 ^ 64) ∧ (idx = leNat (Memory.readN s1.mem p.addr 4)) ∧ (far < 2 ^ 64) ∧
    (near < 2 ^ 64) ∧ (idx < dsc c 736 32) ∧ (i = .cpys gd k a) ∧ (far = dsc c 64 64 + idx * dsc c 320 32) ∧
    (near = dsc c 0 64 + c.progress * rowb) :=
  ⟨rowS cpysI 2, rowC cpysI, wgOf (rowS cpysI 2), cpysI, p7, .tok 1#3, g 2, rowA cpysI 2, placeAt 0x30004, 8,
      2, 576, 72, delivers_of (by decide +kernel), .inr rfl, touches_of (by decide +kernel) rfl,
      by decide +kernel⟩

theorem witness_EngineEvents_5_beyond : ∃ (s : State) (c : Cmd) (w : Workgroup) (i : Instr) (gd : Guard) (k :
    Completion) (a : Opnd) (s1 : State) (p : Place) (rowb idx far near : Nat), (Delivers s c w) ∧ ((i = .cpyg
    gd k a ∨ i = .cpys gd k a)) ∧ (Touches s c .read (dsc c 192 64 + 4 * c.progress) 4 s1 p) ∧ (c.instr = i) ∧
    (c.progress < dsc c 256 32) ∧ (dsc c 133 1 = 1) ∧ (dsc c 134 1 = 1) ∧ (rowb = dsc c 288 32) ∧ (0 < rowb) ∧
    (dsc c 192 64 + 4 * c.progress < 2 ^ 64) ∧ (idx = leNat (Memory.readN s1.mem p.addr 4)) ∧ (far < 2 ^ 64) ∧
    (near < 2 ^ 64) ∧ (dsc c 736 32 ≤ idx) ∧ (i = .cpys gd k a) :=
  ⟨rowS cpysI 3, rowC cpysI, wgOf (rowS cpysI 3), cpysI, p7, .tok 1#3, g 2, rowA cpysI 3, placeAt 0x30004, 8,
      3, 0, 0, delivers_of (by decide +kernel), .inr rfl, touches_of (by decide +kernel) rfl, by decide +kernel⟩

theorem witness_EngineEvents_5_fill : ∃ (s : State) (c : Cmd) (w : Workgroup) (i : Instr) (gd : Guard) (k :
    Completion) (a : Opnd) (s1 : State) (p : Place) (rowb idx far near : Nat) (ty : Ty) (e : Nat), (Delivers s
    c w) ∧ ((i = .cpyg gd k a ∨ i = .cpys gd k a)) ∧ (Touches s c .read (dsc c 192 64 + 4 * c.progress) 4 s1 p)
    ∧ (c.instr = i) ∧ (c.progress < dsc c 256 32) ∧ (dsc c 133 1 = 1) ∧ (dsc c 134 1 = 1) ∧ (rowb = dsc c 288
    32) ∧ (0 < rowb) ∧ (dsc c 192 64 + 4 * c.progress < 2 ^ 64) ∧ (idx = leNat (Memory.readN s1.mem p.addr 4))
    ∧ (far < 2 ^ 64) ∧ (near < 2 ^ 64) ∧ (dsc c 736 32 ≤ idx) ∧ (i = .cpyg gd k a) ∧ (Ty.ofCode? (dsc c 135 4)
    = some ty) ∧ (e = ty.bits / 8) ∧ (rowb % e = 0) ∧ (near = dsc c 64 64 + c.progress * rowb) :=
  ⟨rowS cpygI 3, rowC cpygI, wgOf (rowS cpygI 3), cpygI, p7, .tok 1#3, g 2, rowA cpygI 3, placeAt 0x30004, 8,
      3, 0, 520, .w32, 4, delivers_of (by decide +kernel), .inl rfl, touches_of (by decide +kernel) rfl,
      by decide +kernel⟩

theorem witness_EngineEvents_6 : ∃ (s t : State) (m : RingMsg), (Arrives s m) ∧
    ({ s with fresh := s.fresh + 1 }.blockWrite m = (t, .ok ())) ∧ (m.credit = false) ∧ (m.landed = false) ∧
    (t.halt = none) :=
  ⟨ringS (ringM false false false), ringW.1, ringM false false false, arrives_of (by decide +kernel), pair_of
      (by decide +kernel), by decide +kernel⟩

theorem witness_EngineEvents_7 : ∃ (s : State) (m : RingMsg) (k : Launch) (pa : Nat), (Inv s) ∧ (Arrives s m) ∧
    (Mapped s k m.perm m.pool m.data.length pa) ∧ (m.credit = false) ∧ (m.landed = false) ∧ (s.launch? m.launch
    = some k) ∧ (m.data.length % 64 = 0) :=
  ⟨ringS (ringM false false false), ringM false false false, launch0, 0x40FC0, inv_of (by decide +kernel),
      arrives_of (by decide +kernel), mapped_of (p0 := 0x103000) rfl (walked_of (by decide +kernel)) (leaf_of
      (by decide +kernel)) (by decide +kernel), by decide +kernel⟩

theorem witness_EngineEvents_8 : ∃ (s t : State) (m : RingMsg) (d : List Byte) (w : Workgroup) (c : Cmd),
    (Arrives s m) ∧ (counted s m 44 = (t, .ok d)) ∧ (Inv s) ∧ (Mapped s launch0 m.perm m.record 128 0x40800) ∧
    (m.credit = false) ∧ (m.landed = true) ∧ ((∀ q ∈ s.stores, q.cmd ≠ some m.cmd)) ∧ ((∀ k ∈ s.tracks, k.lane
    = some ⟨m.lane.wg, m.lane.rig, 64⟩ → s.trackDone (if m.pkg then .dom else .dev) k = true)) ∧ (t.halt =
    none) ∧ (ringOwner t m (leNat d) = some w) ∧ (t.cmds.find? (fun x => x.id == m.cmd) = some c) ∧ (s.launch?
    m.launch = some launch0) :=
  ⟨ringS (ringM false true false), (ringA false).1, ringM false true false, recordAfter 44, wgOf (ringS (ringM
      false true false)), mmaC, arrives_of (by decide +kernel), pair_of (by decide +kernel), inv_of
      (by decide +kernel), mapped_of (p0 := 0x103000) rfl (walked_of (by decide +kernel)) (leaf_of
      (by decide +kernel)) (by decide +kernel), by decide +kernel⟩

theorem witness_EngineEvents_9 : ∃ (s t : State) (m : RingMsg) (d : List Byte) (w : Workgroup) (c : Cmd),
    (Arrives s m) ∧ (counted s m 40 = (t, .ok d)) ∧ (Inv s) ∧ (Mapped s launch0 m.perm m.record 128 0x40800) ∧
    (m.credit = true) ∧ (t.halt = none) ∧ (ringOwner t m (leNat d) = some w) ∧ (t.cmds.find? (fun x => x.id ==
    m.cmd) = some c) ∧ (s.launch? m.launch = some launch0) :=
  ⟨ringS (ringM true false false), (ringC false).1, ringM true false false, recordAfter 40, wgOf (ringS (ringM
      true false false)), mmaC, arrives_of (by decide +kernel), pair_of (by decide +kernel), inv_of
      (by decide +kernel), mapped_of (p0 := 0x103000) rfl (walked_of (by decide +kernel)) (leaf_of
      (by decide +kernel)) (by decide +kernel), by decide +kernel⟩

theorem witness_EngineEvents_8_package : ∃ (s t : State) (m : RingMsg) (d : List Byte) (w : Workgroup) (c :
    Cmd), (Arrives s m) ∧ (counted s m 44 = (t, .ok d)) ∧ (Inv s) ∧ (Mapped s launch0 m.perm m.record 128
    0x40800) ∧ (m.credit = false) ∧ (m.landed = true) ∧ ((∀ q ∈ s.stores, q.cmd ≠ some m.cmd)) ∧ ((∀ k ∈
    s.tracks, k.lane = some ⟨m.lane.wg, m.lane.rig, 64⟩ → s.trackDone (if m.pkg then .dom else .dev) k = true))
    ∧ (t.halt = none) ∧ (ringOwner t m (leNat d) = some w) ∧ (t.cmds.find? (fun x => x.id == m.cmd) = some c) ∧
    (s.launch? m.launch = some launch0) :=
  ⟨ringS (ringM false true true), (ringA true).1, ringM false true true, recordAfter 44, wgOf (ringS (ringM
      false true true)), mmaC, arrives_of (by decide +kernel), pair_of (by decide +kernel), inv_of
      (by decide +kernel), mapped_of (p0 := 0x103000) rfl (walked_of (by decide +kernel)) (leaf_of
      (by decide +kernel)) (by decide +kernel), by decide +kernel⟩

theorem witness_EngineEvents_9_package : ∃ (s t : State) (m : RingMsg) (d : List Byte) (w : Workgroup) (c :
    Cmd), (Arrives s m) ∧ (counted s m 40 = (t, .ok d)) ∧ (Inv s) ∧ (Mapped s launch0 m.perm m.record 128
    0x40800) ∧ (m.credit = true) ∧ (t.halt = none) ∧ (ringOwner t m (leNat d) = some w) ∧ (t.cmds.find? (fun x
    => x.id == m.cmd) = some c) ∧ (s.launch? m.launch = some launch0) :=
  ⟨ringS (ringM true false true), (ringC true).1, ringM true false true, recordAfter 40, wgOf (ringS (ringM
      true false true)), mmaC, arrives_of (by decide +kernel), pair_of (by decide +kernel), inv_of
      (by decide +kernel), mapped_of (p0 := 0x103000) rfl (walked_of (by decide +kernel)) (leaf_of
      (by decide +kernel)) (by decide +kernel), by decide +kernel⟩

/-- A block in slot 1 of a pool at 0x60000. -/
theorem witness_EngineEvents_10 : ∃ (s : State) (c : Cmd) (w : Workgroup) (n src dst len : Nat) (gd : Guard) (g
    : Bool) (k : Completion) (a : Opnd) (s1 : State) (p : Place), (Delivers s c w) ∧ (Touches s c .read src len
    s1 p) ∧ ((∀ x, s1.linkOf c (dsc c 64 64) = some x → x ∉ s.deadLinks)) ∧ (c.instr = .rngrcv gd g k a) ∧
    (c.progress = 0) ∧ (len = dsc c 224 32) ∧ (src = dsc c 128 64 + c.set * len) ∧ (dst = c.pair 2) ∧ (bit (c.w
    4) 0 = true) ∧ (len ≤ n) ∧ (dst % 4096 + len ≤ 4096) :=
  ⟨cmdS rcvC, rcvC, cmdW rcvC, 64, 0x60040, 128, 64, p7, false, .tok 1#3, g 2, after rcvC .read 0x60040,
      placeAt 0x60040, delivers_of (by decide +kernel), touches_of (by decide +kernel) rfl, fun x _ h =>
      (by cases h), by decide +kernel⟩

theorem witness_EngineEvents_11 : ∃ (s : State) (vf ident wgid chan n : Nat) (w : Workgroup), (s.halt = none) ∧
    (s.wgs.find? (fun w => w.wgid == wgid && ((s.launch? w.launch).map fun k => k.rcd.ident == ident && k.vf ==
    vf).getD false) = some w) ∧ (s.wg? w.id = some w) :=
  ⟨ringS (ringM true false true), 0, 0, 0, 15, 4, wgOf (ringS (ringM true false true)), by decide +kernel⟩

end Sys2Proof.Tests
end

