-- ==== Sys2Proof/Tests/Witness8.lean ====
section
/-! SUPPORT. Witnesses: for every statement with premises, states and operands that meet all of them together
(relays, the step, rounding and translation). -/

namespace Sys2Proof.Tests

open Sys2Proof Sys2Proof.Machine Sys2Proof.Spec

set_option Elab.async false
set_option linter.unusedVariables false

/-! Relays (R333 to R335). -/

def relayR (p : RelayPhase) : Relay :=
  { rljob := 0, rldest := 0, rlsess := 0, rlrounds := 2, rlthr := 1, phase := p, refused := false, pages := 0, round := 1
    roundPages := 1, sections := 0, stream := [], phases := [] }
def relayS (r : Relay) : State := { idle with launches := [launch0], relays := [r] }
def noisyR : Relay := { (relayR .copying) with roundPages := 2 }

/-- The frame of the one workgroup of the job stands in memory. -/
def sentS : State := { backOn with relays := [relayR .draining] }
def sentB : List Body :=
  sentS.wgs.map (fun w => Body.frame w []) ++ sentS.launches.map Body.qentry ++ [.evc (sentS.vf 0).evc, .fin]
theorem framesSound_of {s : State} {ids : List Nat} (h : ∀ w ∈ s.wgs, w.launch ∈ ids → (w.frame.any fun f =>
    decide (gate s f.1 ≠ .refused) && (s.badSectors f.1 f.2.length).isEmpty) = true) : framesSound s ids := by
  intro w hw hi
  have hx := h w hw hi
  cases e : w.frame with
  | none => rw [e] at hx; cases hx
  | some f =>
    rw [e] at hx
    simp only [Option.any_some, Bool.and_eq_true, decide_eq_true_eq, List.isEmpty_iff] at hx
    exact ⟨f, rfl, hx⟩

theorem clean_of {s : State} {r : Relay} (h : ∀ k ∈ s.launches, k.ctx.dbm = 0) : noBitmaps s r :=
  fun k hk _ => h k hk

def landS : State := { takeS with inbox := [(1, 31, [⟨.qentry waitK, 7, true⟩, ⟨.fin, 8, true⟩])] }
def landS' : State := (landS.setVf 31 fun _ => takeS.vf 0)
def landK : Launch := landedEntry landS' 31 landS'.serial waitK
def landT : State := { landS' with
  fresh := landS'.fresh + 1, inbox := landS'.inbox.eraseIdx 0, serial := landS'.serial + (waitK.id + 1)
  launches := landS'.launches ++ [landK] }

theorem witness_Relays_1 : ∃ (s : State) (e : Nat) (r : Relay), ((r.phase = .idle ∨ r.phase = .done)) ∧
    (noBitmaps s r) ∧ (s.halt = none) ∧ (s.relays[e]? = some r) :=
  ⟨relayS (relayR .idle), 0, relayR .idle, .inl rfl, clean_of (by decide +kernel), by decide +kernel⟩

theorem witness_Relays_2 : ∃ (s : State) (e : Nat), (s.halt = none) :=
  ⟨relayS (relayR .copying), 0, by decide +kernel⟩

theorem witness_Relays_3 : ∃ (s : State) (e : Nat) (r : Relay), s.halt = none ∧ s.relays[e]? = some r ∧
    r.phase = .copying ∧ (r.roundPages ≤ r.rlthr ∨ r.rlrounds ≤ r.round) :=
  ⟨relayS (relayR .copying), 0, relayR .copying, rfl, rfl, rfl, .inl (Nat.le_refl 1)⟩

theorem witness_Relays_3_again : ∃ (s : State) (e : Nat) (r : Relay), s.halt = none ∧ s.relays[e]? = some r ∧
    r.phase = .copying ∧ r.rlthr < r.roundPages ∧ r.round < r.rlrounds ∧ noBitmaps s r :=
  ⟨relayS noisyR, 0, noisyR, rfl, rfl, rfl, by decide, by decide, clean_of (by decide +kernel)⟩

theorem witness_Relays_4 : ∃ (s : State) (e : Nat) (r : Relay) (bodies : List Body), (noBitmaps s r) ∧
    (framesSound s (jobIds s r)) ∧ (s.halt = none) ∧ (s.relays[e]? = some r) ∧ (r.phase = .draining) ∧ ((∀ w ∈
    s.wgs, w.launch ∈ jobIds s r → w.phase = .swapped)) ∧ ((∀ c ∈ s.cmds, c.launch ∈ jobIds s r → c.stopped =
    true)) ∧ ((∀ p ∈ s.loads, p.launch ∉ jobIds s r)) ∧ ((∀ q ∈ s.stores, q.launch ∉ jobIds s r)) ∧ ((∀ m ∈
    s.ringMsgs, m.launch ∉ jobIds s r)) ∧ (bodies = (s.wgs.filter fun w => (jobIds s r).contains w.launch).map
    (fun w => Body.frame w (s.cmds.filter fun c => c.lane.wg == w.id)) ++ (s.launches.filter fun k => bits
    r.rljob 0 32 == k.rcd.job && bits r.rljob 32 5 == k.vf).map Body.qentry ++ [.evc (s.vf (bits r.rljob 32
    5)).evc, .fin]) :=
  ⟨sentS, 0, relayR .draining, sentB, clean_of (by decide +kernel), framesSound_of (by decide +kernel),
      by decide +kernel⟩

theorem witness_Relays_5 : ∃ (s : State) (i e v : Nat) (l : List Sealed), ((∃ x ∈ l, x.pass = false)) ∧ (s.halt
    = none) ∧ (s.inbox[i]? = some (e, v, l)) :=
  ⟨{ idle with inbox := [(0, 0, [⟨.fin, 0, false⟩])] }, 0, 0, 0, [⟨.fin, 0, false⟩], ⟨_, .head _, rfl⟩,
      by decide +kernel⟩

theorem witness_Relays_6 : ∃ (s s1 t : State) (i e v n1 n2 : Nat) (k : Launch) (f : LaunchRec) (img : Nat × Nat
    × Nat × Nat × Nat) (lists : List (Nat × Nat) × List Byte), (Inv s) ∧ (s1 =
    { s with fresh := s.fresh + 1, inbox := s.inbox.eraseIdx i, serial := s.serial + (k.id + 1), launches := s.launches ++ [landedEntry s v s.serial k] })
    ∧ (Admits s1 (k.id + s.serial) (landedEntry s v s.serial k) t f img lists) ∧ (s.halt = none) ∧ (v < 32) ∧
    (s.inbox[i]? = some (e, v, [⟨.qentry k, n1, true⟩, ⟨.fin, n2, true⟩])) ∧ (s.queueUse v k.rcd.queue < 64) :=
  ⟨landS', landT, (admAll landT landK.id landK (recFields recordNum)).1, 0, 1, 31, 7, 8, waitK, recFields
      recordNum, (0, 0x40, 16, 0x80, 0), ([], []), inv_of (by decide +kernel), by rfl, admits_of (s := landT)
      (id := landK.id) (k := landK) (f := recFields recordNum) (by decide +kernel) rfl, by decide +kernel⟩

theorem witness_Relays_7 : ∃ (s : State) (e : Nat) (r : Relay), (Inv s) ∧ (noHard s) ∧ (s.halt = none) ∧
    (s.relays[e]? = some r) ∧ (r.phase = .sent) ∧ ((∀ w ∈ s.wgs, w.launch ∈ jobIds s r → w.phase = .swapped)) :=
  ⟨relayS (relayR .sent), 0, relayR .sent, inv_of (by decide +kernel), noHard_of (by decide +kernel),
      by decide +kernel⟩

theorem witness_Relays_8 : ∃ (s : State) (e : Nat) (r : Relay), ((r.phase = .copying ∨ r.phase = .draining ∨
    r.phase = .sent)) ∧ (s.halt = none) ∧ (s.relays[e]? = some r) :=
  ⟨relayS (relayR .sent), 0, relayR .sent, .inr (.inr rfl), by decide +kernel⟩

/-! The step (R29 to R48, R70). -/

theorem next_of {o : Host.Outcome State Fault Refusal} (h : (nextOf o).isSome = true) :
    o = .next ((nextOf o).getD State.reset) := by
  cases o with
  | next s => rfl
  | fault f => cases h
  | refused r => cases h

def m0 : Move := ⟨0, 0, 0, none⟩
def instS : State := { (stage inst) with moves := [m0] }
def ranOf (s : State) (i : Instr) : State := (nextOf (exec i (atBay s m0 []))).getD State.reset
def portOf (s : State) : Group := (s.bay 0 0).port.getD (group0 0#64)

/-- Two slots of one word, the first at the port. -/
def pairS : State := instS.setBay 0 0 fun y =>
  { y with port := y.port.map fun g => { g with words := g.words ++ g.words } }
/-- A wait for a token whose count is not zero. -/
def heldI : Instr := .twait p7 6#8
def heldS : State := { (stage heldI fun t => { t with tok := [(1, 1)] }) with moves := [m0] }
def aheadS : State := { (instS.setBay 0 0 fun y => { y with cycle := 1 }) with
  dies := instS.dies.map fun d => { d with state := .inService } }

def swapFree (s : State) (l : LaneRef) : Bool := (s.wg? l.wg).all fun v => decide (v.phase ≠ .swapPending)
def issuesB (s : State) (m : Move) (rest : List Move) (g : Group) (w : Dword) (i : Instr) : Bool :=
  decide ((s.halt = none ∧ s.moves = m :: rest) ∧ m.ev = none ∧ (s.bay m.core m.bay).port = some g ∧
    g.tenure < 7 ∧ g.lanes ≠ [] ∧ g.words[g.slot]? = some (.word w) ∧ decode w = .ok i ∧
    classAdmits g.ecls (w.toNat / 2 ^ 54) = true ∧
    clocksOf i (g.lanes.filter fun l => (wordGuard w).holds (s.thread l)).length ≤ g.clock + 1 ∧
    s.aheadOfCluster m.core m.bay = false) && g.lanes.all (swapFree s) &&
    decide (¬(0x200 ≤ w.toNat / 2 ^ 54 ∧ w.toNat / 2 ^ 54 ≤ 0x27F))

theorem issues_of {s : State} {m : Move} {rest : List Move} {g : Group} {w : Dword} {i : Instr}
    (h : issuesB s m rest g w i = true) : Issues s m rest g w i := by
  simp only [issuesB, Bool.and_eq_true, decide_eq_true_eq, List.all_eq_true] at h
  obtain ⟨⟨⟨⟨a, b⟩, c, d, e, f, k, n, o, p, q⟩, r⟩, t⟩ := h
  exact { halt := a, moves := b, bay := c, port := d, tenure := e, lanes := f, word := k, decodes := n, admitted := o
          clock := p, turn := q, last := fun x y => absurd ⟨x, y⟩ t
          swap := fun l hl v hv => by have := r l hl; rw [swapFree, hv] at this; simpa using this }

theorem witness_StepRunsDecoded_1 : ∃ (s : State) (f : Fault), (s.halt = some f) :=
  ⟨{ idle with halt := some (.noSuchAddress 0) }, .noSuchAddress 0, by decide +kernel⟩

theorem witness_StepRunsDecoded_2 : ∃ (s : State), (s.halt = none) ∧ (s.moves = []) :=
  ⟨idle, by decide +kernel⟩

/-- A slot that is held. -/
theorem witness_StepRunsDecoded_3_held : ∃ (s : State) (m : Move) (rest : List Move) (g : Group) (w : Dword) (i
    : Instr)
    (t : State) (g' : Group), Issues s m rest g w i ∧ exec i (atBay s m rest) = .next t ∧ t.halt = none ∧
    t.focus = (m.core, m.bay) ∧ (t.bay m.core m.bay).port = some g' ∧ g'.lanes ≠ [] ∧ (g'.stalled || g'.more) =
      true :=
  ⟨heldS, m0, [], portOf heldS, wordOf heldI, heldI, ranOf heldS heldI, portOf (ranOf heldS heldI), issues_of
      (by decide +kernel),
    next_of (by decide +kernel), by decide +kernel⟩

/-- A stride with a further slot. -/
theorem witness_StepRunsDecoded_3_slot : ∃ (s : State) (m : Move) (rest : List Move) (g : Group) (w : Dword) (i
    : Instr)
    (t : State) (g' : Group), Issues s m rest g w i ∧ exec i (atBay s m rest) = .next t ∧ t.halt = none ∧
    t.focus = (m.core, m.bay) ∧ (t.bay m.core m.bay).port = some g' ∧ g'.lanes ≠ [] ∧ (g'.stalled || g'.more) =
      false ∧ ∃ x ∈ g'.words.drop (g'.slot + 1), x ≠ .filler :=
  ⟨pairS, m0, [], portOf pairS, wordOf inst, inst, ranOf pairS inst, portOf (ranOf pairS inst), issues_of
      (by decide +kernel),
    next_of (by decide +kernel), by decide +kernel⟩

/-- The last slot of a stride. -/
theorem witness_StepRunsDecoded_3_last : ∃ (s : State) (m : Move) (rest : List Move) (g : Group) (w : Dword) (i
    : Instr)
    (t : State) (g' : Group), Issues s m rest g w i ∧ exec i (atBay s m rest) = .next t ∧ noHard t ∧ t.halt =
      none ∧
    t.focus = (m.core, m.bay) ∧ (t.bay m.core m.bay).port = some g' ∧ g'.lanes ≠ [] ∧ (g'.stalled || g'.more) =
      false ∧ (∀ x ∈ g'.words.drop (g'.slot + 1), x = .filler) ∧ t.validIn m.core g' ((g'.pc.toNat + g'.size) %
      2 ^ 64) = true :=
  ⟨instS, m0, [], portOf instS, wordOf inst, inst, ranOf instS inst, portOf (ranOf instS inst), issues_of
      (by decide +kernel),
    next_of (by decide +kernel), noHard_of (by decide +kernel), by decide +kernel⟩

/-- A bay that has had one clock more than the others of its cluster. -/
theorem witness_StepRunsDecoded_4 : ∃ (s : State) (m : Move) (rest : List Move), (s.halt = none) ∧ (s.moves = m
    :: rest) ∧ (m.ev = none) ∧ ((moved s m rest).aheadOfCluster m.core m.bay = true) :=
  ⟨aheadS, m0, [], by decide +kernel⟩

theorem witness_StepRunsDecoded_5 : ∃ (s : State) (m : Move) (rest : List Move) (i : Instr), (s.halt = none) ∧
    (s.moves = m :: rest) ∧ (m.ev = some i) ∧ (encode i = none) :=
  ⟨{ idle with moves := [⟨0, 0, 0, some (.commandAccept 3)⟩] }, ⟨0, 0, 0, some (.commandAccept 3)⟩, [],
      .commandAccept 3, by decide +kernel⟩

theorem witness_StepRunsDecoded_6 : ∃ (s : State) (m : Move) (rest : List Move) (i : Instr) (w : Dword),
    (s.halt = none) ∧ (s.moves = m :: rest) ∧ (m.ev = some i) ∧ (encode i = some w) :=
  ⟨{ idle with moves := [⟨0, 0, 0, some inst⟩] }, ⟨0, 0, 0, some inst⟩, [], inst, wordOf inst,
      by decide +kernel⟩

theorem witness_InvariantKept : ∃ (s t : State), (Inv s) ∧ (step s = .next t) :=
  ⟨idle, { idle with time := idle.time + 1 }, inv_of (by decide +kernel), (by rfl)⟩

/-! Encoding, rounding and translation. -/

theorem witness_RoundTrip_1 : ∃ (i : Instr) (n : Nat), (encodeNat i = some n) ∧ (i.wf = true) :=
  ⟨inst, 0x14F8000000000000, by decide +kernel⟩

theorem witness_RoundTrip_2 : ∃ (i : Instr) (w : Dword), (i.wf = true) ∧ (encode i = some w) :=
  ⟨inst, 0x14F8000000000000#64, by decide +kernel⟩

theorem witness_RoundTrip_3 : ∃ (i : Instr) (w : Dword), (decode w = .ok i) :=
  ⟨inst, 0x14F8000000000000#64, by decide +kernel⟩

/-- Values whose sum is beyond the largest FP32 number. -/
theorem witness_RoundingIsCorrect_3 : ∃ (x y : Machine.Num) (a b : ℚ), proper x ∧ proper y ∧ valueOf x = some a ∧
    valueOf y = some b :=
  ⟨.fin false 1 3 200, .fin true 1 7 127, _, _, Nat.succ_pos 2, Nat.succ_pos 6, rfl, rfl⟩

theorem witness_RoundingIsCorrect_4 : ∃ (xs : List Machine.Num) (as : List ℚ), (∀ x ∈ xs, proper x) ∧
    xs.map valueOf = as.map some :=
  ⟨[.fin false 1 3 200], [_], fun x h => by cases List.mem_singleton.mp h; exact Nat.succ_pos 2, rfl⟩

/-- The last pattern of a format. -/
theorem witness_RoundingIsCorrect_1 : ∃ (f : Fmt) (w : Nat), f ∈ formats ∧ w < 2 ^ (f.sign + 1) :=
  ⟨.e2m1, 15, by decide⟩

/-- A value beyond the largest FP32 number. -/
theorem witness_RoundingIsCorrect_2 : ∃ (f : Fmt) (rand n d : Nat) (e : Int) (x : ℚ), f ∈ formats ∧ rand < 2 ^ 32 ∧ 0 < n ∧
    0 < d ∧ x = (n : ℚ) / d * 2 ^ e :=
  ⟨.f32, 2 ^ 32 - 1, 1, 3, 200, _, by decide, by decide, by decide, by decide, rfl⟩

/-- The least word, and the least draw. -/
theorem witness_RoundingIsCorrect_5 : ∃ (rand w n d : Nat) (e : Int) (x : ℚ), rand < 2 ^ 32 ∧ 0 < w ∧ 0 < d ∧
    x = (n : ℚ) / d * 2 ^ e :=
  ⟨0, 1, 0, 1, -200, _, by decide, by decide, by decide, rfl⟩

def walkS : State := tables4 idle

theorem witness_Translation_high : ∃ (s : State) (ctx : CtxCopy) (va : Nat), (∀ e ∈ s.tlb, e.tag ≠ ctx.tag) ∧
    2 ^ 48 ≤ va :=
  ⟨walkS, launch0.ctx, 2 ^ 48, by decide +kernel, by decide⟩

theorem witness_Translation_absent : ∃ (s : State) (ctx : CtxCopy) (va p3 p2 p1 p0 e : Nat),
    (∀ e ∈ s.tlb, e.tag ≠ ctx.tag) ∧ va < 2 ^ 48 ∧ Walked s ctx.root va p3 p2 p1 p0 ∧ e = s.read64 p0 ∧
    bit e 0 = false :=
  ⟨walkS, launch0.ctx, 0x2000, 0x100000, 0x101000, 0x102000, 0x103010, _, by decide +kernel, by decide,
    walked_of (by decide +kernel), rfl, by decide +kernel⟩

theorem permits_write {perm : Dword} {e : Nat}
    (h : bit e 1 = true ∧ perm.getLsbD (2 * bits e 5 5 + 1) = true) : permits .write perm e := h

/-- A write to a page without W. -/
theorem witness_Translation_denied : ∃ (s : State) (ctx : CtxCopy) (perm : Dword) (k : AccKind)
    (va p3 p2 p1 p0 e : Nat), (∀ e ∈ s.tlb, e.tag ≠ ctx.tag) ∧ va < 2 ^ 48 ∧ Walked s ctx.root va p3 p2 p1 p0 ∧
    e = s.read64 p0 ∧ isLeaf e ∧ (bits e 3 2 = 1 ∨ bits e 3 2 = 3) ∧ (∀ l ∈ s.launches, ∀ p ∈ l.snap, p.leafPa ≠ p0) ∧
    ¬permits k perm e := by
  refine ⟨walkS, launch0.ctx, 3#64, .write, 0x1000, 0x100000, 0x101000, 0x102000, 0x103008, _, by decide +kernel, by decide,
    walked_of (by decide +kernel), rfl, leaf_of (by decide +kernel),
    .inl (by decide +kernel), by decide +kernel, ?_⟩
  rintro ⟨h, -⟩
  exact absurd h (by decide +kernel)

/-- A write to the last bytes of a page that permits it. -/
theorem witness_Translation_permitted : ∃ (s : State) (ctx : CtxCopy) (perm : Dword) (k : AccKind)
    (va p3 p2 p1 p0 e : Nat), (∀ e ∈ s.tlb, e.tag ≠ ctx.tag) ∧ va < 2 ^ 48 ∧ Walked s ctx.root va p3 p2 p1 p0 ∧
    e = s.read64 p0 ∧ isLeaf e ∧ (bits e 3 2 = 1 ∨ bits e 3 2 = 3) ∧ (∀ l ∈ s.launches, ∀ p ∈ l.snap, p.leafPa ≠ p0) ∧
    permits k perm e ∧ bit e 10 = true ∧
    gate s (pageFrame e + va % 4096) = .ok ∧ paExists (pageFrame e + va % 4096) = true :=
  ⟨walkS, launch0.ctx, 3#64, .write, 0xFFF, 0x100000, 0x101000, 0x102000, 0x103000, _, by decide +kernel, by decide,
    walked_of (by decide +kernel), rfl, leaf_of (by decide +kernel),
    .inl (by decide +kernel), by decide +kernel, permits_write (by decide +kernel), by decide +kernel⟩

theorem witness_ResetState : (∃ v : Nat, v < 32) ∧ (∃ a, a ∈ State.reset.age) ∧ ∃ d, d ∈ State.reset.dies :=
  ⟨⟨31, by decide⟩, ⟨_, .head _⟩, ⟨_, .head _⟩⟩

end Sys2Proof.Tests
end

