-- ==== Sys2Proof/Proofs/HostRegisters.lean ====
section
/-! SUPPORT. The registers of the host. NQTAIL_WRITE of a virtual function writes the records that its own queue and
the physical function's hold back (R312). The statement on it takes its own queue to hold none, and says nothing of the
other. -/

namespace Sys2Proof

open Sys2Proof.Machine

theorem exec_nqtailWrite (fn : Nat) (x : Dword) (s : State) :
    exec (.nqtailWrite fn x) s = execNqtailWrite fn x s := rfl

theorem execNqtailWrite_of_le {fn : Nat} (h : fn ≤ pfNumber) (x : Dword) (s : State) :
    execNqtailWrite fn x s = conclude ((s.setNq fn { s.nq fn with tail := x.toNat % 2 ^ 32 }).pumpNq fn) := by
  rw [execNqtailWrite, if_neg (Nat.not_lt.2 h)]

/-- A module in service whose physical function's queue holds a record back, although there is room for it: the queue
lay on a die that trained, and its base has been written since (R310, R312, R338). -/
def heldBack : State :=
  { State.reset with
    dies := List.replicate 4 { state := .inService, fails := 0 }
    pf := { State.reset.pf with nq := { Nq.reset with held := [notifyRecord 0 0 0 0 0 0 0x13] } } }

/-- The tail of function 0 written with zero. -/
def heldBackWritten : State := (heldBack.setNq 0 { heldBack.nq 0 with tail := (0#64).toNat % 2 ^ 32 }).pumpNq 0

/-- The record is written, and the head of the physical function's queue goes on. -/
theorem heldBackWritten_pf_head : heldBackWritten.pf.nq.head = 1 := by decide +kernel

/-- Refutes O42: NQTAIL_WRITE of function 0, whose queue holds nothing back, moves the head of the physical function's
queue, which does. -/
theorem not_hostRegisters : ¬ Obligations.HostRegisters := by
  unfold Obligations.HostRegisters
  rintro ⟨-, -, -, -, nqtail, -⟩
  have tailOnly := nqtail heldBack 0 0#64 rfl (by decide) (by decide) rfl
  rw [exec_nqtailWrite, execNqtailWrite_of_le (by decide), conclude_eq_next] at tailOnly
  obtain ⟨-, same⟩ := tailOnly
  have head := heldBackWritten_pf_head
  rw [heldBackWritten, ← same] at head
  exact absurd head (by decide)

end Sys2Proof
end

