-- ==== Sys2Proof/Proofs/ArrivedStreams.lean ====
section
/-! SUPPORT. What the invariant asks of the streams that come from other modules (R335): FABRIC_RECEIVE puts
`Config.arrivedStream`, a constant without a body, into the inbox as it is, so that the invariant of every step comes
with a claim about that constant, of which nothing can be proved. -/

namespace Sys2Proof

open Sys2Proof.Machine

/-- A fabric event touches the physical function's counters alone (R331). -/
theorem countFabric_halt_inbox {event : Nat} (h : 0x40 ≤ event) (s : State) :
    (s.countFabric event).halt = s.halt ∧ (s.countFabric event).inbox = s.inbox := by
  unfold State.countFabric State.count State.countPf
  rw [if_pos h]
  dsimp only
  split <;> exact ⟨rfl, rfl⟩

/-- A stream that arrives over Ultra Ethernet is the next move (R335). -/
def arriving (k : Nat) : State :=
  { State.reset with moves := [⟨0, 0, 0, some (.fabricReceive none (.stream k) false)⟩] }

theorem arriving_inv (k : Nat) : Inv (arriving k) where
  ids := List.nodup_nil
  wgs := fun _ h => nomatch h
  loads := fun _ h => nomatch h
  launches := fun _ h => nomatch h
  mem := ⟨rfl, rfl, rfl, rfl, rfl⟩
  inbox := fun _ h => nomatch h

/-- The stream stands in the inbox as it came. -/
theorem execFabricReceive_stream {s : State} (h : s.halt = none) (k : Nat) :
    ∃ t, execFabricReceive none (.stream k) false s = .next t ∧ t.inbox = s.inbox ++ [Config.arrivedStream k] := by
  obtain ⟨halt, inbox⟩ := countFabric_halt_inbox (event := 0x43) (by decide) { s with fresh := s.fresh + 1 }
  exact ⟨_, (conclude_eq_next _ _).2 ⟨halt.trans h, rfl⟩, congrArg (· ++ [Config.arrivedStream k]) inbox⟩

theorem step_arriving (k : Nat) : ∃ t, step (arriving k) = .next t ∧ t.inbox = [Config.arrivedStream k] := by
  obtain ⟨t, ht, inbox⟩ := execFabricReceive_stream (s := { arriving k with moves := [] }) rfl k
  refine ⟨t.settleReports, ?_, inbox⟩
  change andThen (execFabricReceive none (.stream k) false { arriving k with moves := [] }) afterEvent = _
  rw [ht]
  rfl

/-- The invariant of every step claims that each stream which can arrive is in order: it stays unsettled, since the model
gives those streams no body and checks none of them as it comes in. -/
theorem arrivedStream_inOrder_of_invariantKept (h : Obligations.InvariantKept) (k : Nat) :
    StreamInOrder (Config.arrivedStream k).2.2 := by
  obtain ⟨t, ht, inbox⟩ := step_arriving k
  refine (h (arriving k) t (arriving_inv k) ht).inbox _ ?_
  rw [inbox]
  exact List.mem_singleton_self _

end Sys2Proof
end

