-- ==== Sys2Proof/Proofs/Returns.lean ====
section
/-! SUPPORT. RET numbers its slot before it pops, since a refill is an access of the slot (R160, R182): the group at the
port keeps that number. The table of transfers leaves the group its old one. -/

namespace Sys2Proof

open Sys2Proof.Machine Sys2Proof.Spec

/-- RET, for every lane. -/
def ret : Instr := .ret always

def retWord : Dword := (encode ret).getD 0#64

/-- The stride of that word, with one lane in it. -/
def retGroup : Group := { oneSlot 2 retWord with lanes := [⟨2, 0, 0⟩] }

/-- One lane is about to return to its own stride. -/
def returning : State :=
  ((State.reset.holding1 retWord).setBay 0 0 fun y => { y with port := some retGroup }).setThread ⟨2, 0, 0⟩ fun t =>
    { t with stack := [0x10000#64] }

theorem returning_inv : Inv returning where
  ids := by decide +kernel
  wgs := show ∀ w ∈ returning.wgs, w.id < returning.serial ∧ Memory.wf w.loft = true by decide +kernel
  loads := by decide +kernel
  launches := by decide +kernel
  mem := ⟨rfl, rfl, rfl, rfl, rfl⟩
  inbox := fun _ h => nomatch h

theorem returning_ready : Ready returning retGroup ret where
  halt := by decide +kernel
  group := by decide +kernel
  going := rfl
  inv := returning_inv
  legal := by decide +kernel

/-- The only lane that executes. -/
theorem runs_returning {l : LaneRef} (h : runs returning retGroup always l = true) : l = ⟨2, 0, 0⟩ := by
  simp only [runs, Bool.and_eq_true, List.contains_iff_mem] at h
  exact List.mem_singleton.1 h.1.1.1

/-- The number of the slot that stands at the port after an outcome. -/
def issueAfter : Host.Outcome State Fault Refusal → Option Nat
  | .next t => t.group?.map Group.issue
  | .fault _ | .refused _ => none

theorem issueAfter_returning : issueAfter (exec ret returning) = some 1 := by decide +kernel

/-- Refutes O29: RET gives the group at the port the number of its slot, which the table of transfers leaves as it was. -/
theorem not_controlTransfer : ¬ Obligations.ControlTransfer := by
  unfold Obligations.ControlTransfer
  rintro ⟨computes, -⟩
  have same := computes ret _ returning retGroup rfl rfl returning_ready
    (fun l h => by rw [runs_returning h]; decide +kernel)
    (fun l h prot => by rw [runs_returning h] at prot; exact absurd prot (by decide +kernel))
  have issue := issueAfter_returning
  rw [same] at issue
  exact absurd issue (by decide +kernel)

end Sys2Proof
end

