-- ==== Sys2Proof/Proofs/TokenWakes.lean ====
section
/-! SUPPORT. A thread that wakes on a token. The model's threads know the eight tokens of R183; the statement on WAKE
takes any number. -/

namespace Sys2Proof

open Sys2Proof.Machine Sys2Proof.Spec

/-- One lane of the stride of a zero word is parked on token 8, and the rig notes a publication time for that number. -/
def pastTokens : State :=
  let s : State := (State.reset.holding1 0#64).setRig 2 0 fun q => { q with tokPub := [(8, 1)] }
  s.setThread ⟨2, 0, 0⟩ fun t => { t with life := .parked (.token 8) }

theorem pastTokens_inv : Inv pastTokens where
  ids := by decide +kernel
  wgs := show ∀ w ∈ pastTokens.wgs, w.id < pastTokens.serial ∧ Memory.wf w.loft = true by decide +kernel
  loads := by decide +kernel
  launches := by decide +kernel
  mem := ⟨rfl, rfl, rfl, rfl, rfl⟩
  inbox := fun _ h => nomatch h

/-- The read floor of the lane after an outcome. -/
def floorAfter : Host.Outcome State Fault Refusal → Option Nat
  | .next t => some (t.thread ⟨2, 0, 0⟩).readfloor
  | .fault _ | .refused _ => none

/-- The wait finds none of the eight tokens in its mask. -/
theorem floorAfter_pastTokens : floorAfter (exec (.wake 2 0 0) pastTokens) = some 0 := by decide +kernel

theorem exists_wg_pastTokens : ∃ w q, pastTokens.wg? 2 = some w ∧ pastTokens.rig? 2 0 = some q ∧ w.phase = .running ∧
    q.tokPub = [(8, 1)] := ⟨_, _, rfl, rfl, rfl, rfl⟩

/-- Refutes O36: a thread parked on a token of number 8 wakes without a new read floor, for the mask of its wait names
tokens 0 to 7 alone; the statement raises it to what the rig notes under that number. -/
theorem not_bayWaitsEnd : ¬ Obligations.BayWaitsEnd := by
  unfold Obligations.BayWaitsEnd
  rintro ⟨-, -, -, wakes⟩
  obtain ⟨w, q, wg, rig, phase, tokPub⟩ := exists_wg_pastTokens
  obtain ⟨t, run, -, -, -, floor, -⟩ := wakes pastTokens ⟨2, 0, 0⟩ w q (.token 8) (by decide +kernel) pastTokens_inv wg rig
    phase (by decide +kernel) (.inr (show tokenOf pastTokens ⟨2, 0, 0⟩ 8 = 0 by decide +kernel))
  have zero := floorAfter_pastTokens
  rw [run, floorAfter, floor, tokPub] at zero
  exact absurd zero (by decide +kernel)

end Sys2Proof
end

