-- ==== Sys2Proof/Proofs/Updates.lean ====
section
/-! SUPPORT. One place of a list updated. -/

namespace Sys2Proof.Machine

/-- Only the element at the place matters to an update. -/
theorem modifyAt_congr {α : Type} {l : List α} {i : Nat} {f g : α → α} (h : ∀ x, l[i]? = some x → f x = g x) :
    modifyAt l i f = modifyAt l i g := by
  refine List.ext_getElem? fun j => ?_
  rw [modifyAt_get, modifyAt_get]
  split
  case isTrue e =>
    subst e
    exact Option.map_congr fun x hx => h x hx
  case isFalse => rfl

/-- Two updates of one place are one. -/
theorem modifyAt_modifyAt {α : Type} (l : List α) (i : Nat) (f g : α → α) :
    modifyAt (modifyAt l i f) i g = modifyAt l i fun x => g (f x) := by
  refine List.ext_getElem? fun j => ?_
  rw [modifyAt_get, modifyAt_get, modifyAt_get]
  split
  · rw [Option.map_map]
    rfl
  · rfl

/-- The statements write an update of one place as a map with indices. -/
theorem mapIdx_ite_eq_modifyAt {α : Type} (l : List α) (i : Nat) (f : α → α) :
    (l.mapIdx fun j x => if j = i then f x else x) = modifyAt l i f := by
  refine List.ext_getElem? fun j => ?_
  rw [List.getElem?_mapIdx, modifyAt_get]
  by_cases e : j = i
  · rw [if_pos e.symm]
    exact Option.map_congr fun x _ => if_pos e
  · rw [if_neg (Ne.symm e)]
    exact (Option.map_congr fun x _ => if_neg e).trans Option.map_id_apply

end Sys2Proof.Machine
end

