-- ==== Sys2Proof/Proofs/Starts.lean ====
section
/-! SUPPORT. Starts (R336 to R338): the queues that hold no record back, and STATE as it becomes full. -/

namespace Sys2Proof

namespace Machine

/-- A queue with nothing to write is left alone. -/
theorem State.writeNq_of_held_nil {s : State} {fn : Nat} (h : (s.nq fn).held = []) (n : Nat) : s.writeNq fn n = s := by
  cases n with
  | zero => rfl
  | succ n =>
    unfold State.writeNq
    simp only [h]

theorem State.pumpNq_of_held_nil {s : State} {fn : Nat} (h : (s.nq fn).held = []) (hp : (s.nq pfNumber).held = []) :
    s.pumpNq fn = s := by
  unfold State.pumpNq
  simp only [s.writeNq_of_held_nil h, s.writeNq_of_held_nil hp, ite_self]

/-- No queue holds a record back. -/
theorem State.pumpAll_of_held_nil {s : State} (h : ∀ fn, fn < 33 → (s.nq fn).held = []) : s.pumpAll = s := by
  have keeps : ∀ fns : List Nat, (∀ fn ∈ fns, fn < 33) →
      fns.foldl (fun (s : State) fn => s.pumpNq fn) s = s := fun fns => by
    induction fns with
    | nil => exact fun _ => rfl
    | cons fn r ih =>
      intro lt
      rw [List.foldl_cons, State.pumpNq_of_held_nil (h fn (lt fn (List.mem_cons_self ..))) (h pfNumber (by decide))]
      exact ih fun m hm => lt m (List.mem_cons_of_mem _ hm)
  exact keeps _ fun fn hfn => List.mem_range.1 hfn

/-- One vector of each of some functions is sent. -/
theorem State.foldl_sendMsix (fns : List Nat) (s : State) :
    fns.foldl (fun (s : State) fn => s.sendMsix fn 0) s = { s with msix := s.msix ++ fns.map fun fn => (fn, 0) } := by
  induction fns generalizing s with
  | nil => rw [List.foldl_nil, List.map_nil, List.append_nil]
  | cons fn r ih =>
    rw [List.foldl_cons, ih, List.map_cons, ← List.singleton_append, ← List.append_assoc]
    rfl

/-- STATE is full, and vector 0 of every function is sent. -/
def State.full (s : State) : State :=
  { s with bring := { s.bring with state := 2 }, msix := s.msix ++ (List.range 33).map fun fn => (fn, 0) }

/-- What becoming full changes (R338). -/
theorem State.reachFull_eq (s : State) : s.reachFull = if fullService s.dies && s.bring.state != 2 then s.full else s := by
  unfold State.reachFull
  split
  · exact State.foldl_sendMsix _ _
  · rfl

/-- Becoming full changes no queue. -/
theorem State.reachFull_nq (s : State) (fn : Nat) : s.reachFull.nq fn = s.nq fn := by
  rw [State.reachFull_eq]
  split <;> rfl

theorem State.reachFull_halt (s : State) : s.reachFull.halt = s.halt := by
  rw [State.reachFull_eq]
  split <;> rfl

theorem State.reachFull_hbmStacks (s : State) : s.reachFull.bring.hbmStacks = s.bring.hbmStacks := by
  rw [State.reachFull_eq]
  split <;> rfl

/-- Nothing serves where every die is out (R337). -/
theorem fullService_of_all_out {dies : List Die} (h : (dies.all fun d => d.state != .untrained && d.state != .inService) = true) :
    fullService dies = false := by
  have none : (dies.any fun d => d.state == .inService) = false := by
    rw [List.any_eq_false]
    intro d hd serves
    have out := List.all_eq_true.1 h d hd
    rw [eq_of_beq serves] at out
    exact absurd out (by decide)
  rw [fullService, none, Bool.and_false]

end Machine

open Sys2Proof.Machine Sys2Proof.Spec

theorem allServe_eq_fullService (dies : List Die) : allServe dies = fullService dies := rfl

theorem oneDie_eq_modifyAt {s : State} {n : Nat} {d : Die} (h : s.dies[n]? = some d) (f : Die → Die) :
    modifyAt s.dies n f = oneDie s n (f d) := by
  rw [oneDie, mapIdx_ite_eq_modifyAt s.dies n fun _ => f d]
  exact modifyAt_congr fun x hx => by rw [Option.some.inj (hx.symm.trans h)]

theorem die_state_ne {s : State} {n : Nat} {d : Die} {st : DieState} (h : s.dies[n]? = some d) (hs : d.state = st) :
    (((s.dies[n]?).map Die.state) != some st) = false := by
  rw [h, Option.map_some, hs, bne_self_eq_false]

/-- The dies of a start with their registers (R336). -/
def withDies (s : State) (dies : List Die) (bring : Bring) : State := { s with dies := dies, bring := bring }

/-- STATE becomes full with the last die, or stays as it was set. -/
theorem reachFull_afterTraining (s : State) (dies : List Die) (bring : Bring) {was other : Nat}
    (full : fullService dies = true → bring.state = was) (part : fullService dies = false → bring.state = other) :
    afterTraining s (withDies s dies bring).reachFull dies was other := by
  have step := State.reachFull_eq (withDies s dies bring)
  change _ = (if (fullService dies && bring.state != 2) = true then _ else _) at step
  unfold afterTraining
  rw [allServe_eq_fullService]
  cases h : fullService dies with
  | false =>
    rw [h, Bool.false_and, if_neg Bool.false_ne_true] at step
    rw [step]
    exact ⟨rfl, part h, (List.append_nil _).symm, rfl, rfl, rfl⟩
  | true =>
    rw [h, full h, Bool.true_and] at step
    by_cases two : was = 2
    · rw [two, bne_self_eq_false, if_neg Bool.false_ne_true] at step
      rw [step, two]
      exact ⟨rfl, (full h).trans two, (List.append_nil _).symm, rfl, rfl, rfl⟩
    · rw [if_pos (bne_iff_ne.2 two)] at step
      rw [step]
      exact ⟨rfl, rfl, congrArg (s.msix ++ ·) (if_pos (And.intro rfl two)).symm, rfl, rfl, rfl⟩

theorem execStart_next {s : State} (halt : s.halt = none) (warm : Bool) :
    execStart warm s = .next (started s (warm && s.bring.lastOk)) := by
  unfold execStart
  exact (conclude_eq_next _ _).2 ⟨halt, by rw [started, halt]; rfl⟩

theorem execDieEntersService_next {s : State} {n : Nat} {d : Die} (halt : s.halt = none) (die : s.dies[n]? = some d)
    (trains : d.state = .untrained) (held : ∀ fn, fn < 33 → (s.nq fn).held = []) :
    ∃ t, execDieEntersService n s = .next t ∧ afterTraining s t (oneDie s n { state := .inService, fails := 0 }) 1 1 ∧
      t.bring.hbmStacks = s.bring.hbmStacks + 2 := by
  unfold execDieEntersService
  rw [die_state_ne die trains, if_neg Bool.false_ne_true, oneDie_eq_modifyAt die fun _ => { state := .inService, fails := 0 }]
  generalize oneDie s n { state := .inService, fails := 0 } = dies
  let bring : Bring := { s.bring with
    state := 1, hbmStacks := s.bring.hbmStacks + 2, lastOk := fullService dies && !s.bring.failed }
  refine ⟨(withDies s dies bring).reachFull, (conclude_eq_next _ _).2 ?_,
    reachFull_afterTraining s dies bring (fun _ => rfl) fun _ => rfl, State.reachFull_hbmStacks _⟩
  have idle : (withDies s dies bring).reachFull.pumpAll = (withDies s dies bring).reachFull :=
    State.pumpAll_of_held_nil fun fn hfn => by rw [State.reachFull_nq]; exact held fn hfn
  exact ⟨(congrArg State.halt idle).trans ((State.reachFull_halt _).trans halt), idle.symm⟩

theorem execTrainingFailed_next {s : State} {n : Nat} {d : Die} {dies : List Die} (halt : s.halt = none)
    (die : s.dies[n]? = some d) (trains : d.state = .untrained)
    (after : dies = oneDie s n { state := if 2 ≤ d.fails then .fenced else .leftOut, fails := min 3 (d.fails + 1) }) :
    ∃ t, execTrainingFailed n s = .next t ∧ afterTraining s t dies s.bring.state
      (if dies.all fun d => d.state != .untrained && d.state != .inService then 3 else s.bring.state) := by
  unfold execTrainingFailed
  rw [die_state_ne die trains, if_neg Bool.false_ne_true,
    oneDie_eq_modifyAt die fun d => { state := if 2 ≤ d.fails then .fenced else .leftOut, fails := min 3 (d.fails + 1) },
    ← after]
  let bring : Bring := { s.bring with
    lastOk := false, failed := true
    state := if dies.all fun d => d.state != .untrained && d.state != .inService then 3 else s.bring.state }
  refine ⟨(withDies s dies bring).reachFull, (conclude_eq_next _ _).2 ⟨(State.reachFull_halt _).trans halt, rfl⟩,
    reachFull_afterTraining s dies bring (fun full => if_neg fun out => ?_) fun _ => rfl⟩
  rw [fullService_of_all_out out] at full
  cases full

theorem execFenceCleared_next {s : State} {n : Nat} {d : Die} (halt : s.halt = none) (die : s.dies[n]? = some d)
    (fenced : d.state = .fenced) :
    execFenceCleared n s = .next { s with dies := oneDie s n { state := .leftOut, fails := 0 } } := by
  unfold execFenceCleared
  rw [die_state_ne die fenced, if_neg Bool.false_ne_true, oneDie_eq_modifyAt die fun _ => { state := .leftOut, fails := 0 }]
  exact (conclude_eq_next _ _).2 ⟨halt, rfl⟩

theorem execPcieLinkUp_next {s : State} {k : Nat} (halt : s.halt = none) (lt : k < 2) (down : k ∉ s.bring.links) :
    execPcieLinkUp k s = .next { s with bring := { s.bring with links := s.bring.links ++ [k] } } := by
  unfold execPcieLinkUp
  rw [if_neg (not_or.2 ⟨Nat.not_le.2 lt, fun up => down (List.contains_iff_mem.1 up)⟩)]
  exact (conclude_eq_next _ _).2 ⟨halt, rfl⟩

/-- Settles O43, each event by the equation of what it does to the dies, to CAP and to the links. -/
theorem starts : Obligations.Starts := by
  unfold Obligations.Starts
  exact ⟨fun s warm halt => execStart_next halt warm,
    fun s n d halt die trains held => execDieEntersService_next halt die trains held,
    fun s n d dies halt die trains after => execTrainingFailed_next halt die trains after,
    fun s n d halt die fenced => execFenceCleared_next halt die fenced,
    fun s k halt lt down => execPcieLinkUp_next halt lt down⟩

end Sys2Proof
end

