-- ==== Sys2Proof/Proofs/Turns.lean ====
section
/-! SUPPORT. The turns of the clusters (R328, R329): which function follows, what it owes, and what a drain leaves. -/

namespace Sys2Proof

namespace Machine

theorem bit_eq_testBit (w i : Nat) : bit w i = w.testBit i := by
  rw [bit, Nat.testBit_eq_decide_div_mod_eq, beq_eq_decide]

theorem bits_zero (w n : Nat) : bits w 0 n = w % 2 ^ n := by rw [bits, pow_zero, Nat.div_one]

/-- The counter slots of a function stand apart from the turns, the workgroups and memory. -/
theorem State.addHolding_turns_wgs_mem (s : State) (v : Nat) :
    (s.addHolding v).turns = s.turns ∧ (s.addHolding v).wgs = s.wgs ∧ (s.addHolding v).mem = s.mem ∧
      (s.addHolding v).halt = s.halt := by
  unfold State.addHolding
  dsimp only
  split <;> exact ⟨rfl, rfl, rfl, rfl⟩

theorem State.loadSlots_turns_wgs_mem (s : State) (v : Nat) :
    (s.loadSlots v).turns = s.turns ∧ (s.loadSlots v).wgs = s.wgs ∧ (s.loadSlots v).mem = s.mem ∧
      (s.loadSlots v).halt = s.halt := by
  unfold State.loadSlots
  split
  · exact State.addHolding_turns_wgs_mem _ v
  · exact ⟨rfl, rfl, rfl, rfl⟩

theorem State.saveSlots_time_turns (s : State) (v : Nat) :
    (s.saveSlots v).time = s.time ∧ (s.saveSlots v).turns = s.turns ∧ (s.saveSlots v).pf = s.pf ∧
      (s.saveSlots v).wgs = s.wgs ∧ (s.saveSlots v).mem = s.mem ∧ (s.saveSlots v).halt = s.halt := by
  unfold State.saveSlots
  split <;> exact ⟨rfl, rfl, rfl, rfl, rfl, rfl⟩

/-- A function enters a turn in which it has no drain. -/
theorem Turn.enter_of_no_drain {t : Turn} {v : Nat} (h : ∀ d ∈ t.drains, d.vf ≠ v) (now slice : Nat) :
    t.enter v now slice = { t with
      vf := some v, stop := now + (slice - min (Map.get 0 t.owed v) slice)
      owed := Map.set 0 t.owed v (Map.get 0 t.owed v - min (Map.get 0 t.owed v) slice) } := by
  have none : t.drains.filter (fun d => d.vf == v) = [] := List.filter_eq_nil_iff.2 fun d hd => by
    rw [beq_iff_eq]
    exact h d hd
  have all : t.drains.filter (fun d => d.vf != v) = t.drains := List.filter_eq_self.2 fun d hd => bne_iff_ne.2 (h d hd)
  unfold Turn.enter
  rw [none, all]
  rfl

/-- A turn is given: the turns change there alone. -/
theorem State.enterTurn_turns (s : State) (c v : Nat) :
    (s.enterTurn c v).turns = modifyAt s.turns c (fun t => t.enter v s.time (usTicks * s.sliceUs v)) ∧
      (s.enterTurn c v).wgs = s.wgs ∧ (s.enterTurn c v).mem = s.mem ∧ (s.enterTurn c v).halt = s.halt :=
  State.loadSlots_turns_wgs_mem (s.setTurn c fun t => t.enter v s.time (usTicks * s.sliceUs v)) v

end Machine

open Sys2Proof.Machine Sys2Proof.Spec

theorem oneTurn_eq_modifyAt (s : State) (c : Nat) (f : Turn → Turn) : oneTurn s c f = modifyAt s.turns c f :=
  mapIdx_ite_eq_modifyAt s.turns c f

theorem sliceTicks_eq (s : State) (v : Nat) : usTicks * s.sliceUs v = sliceTicks s v := by
  rw [State.sliceUs, bits_zero]
  rfl

theorem budgetTicks_eq (s : State) (v : Nat) : usTicks * s.budgetUs v = budgetTicks s v := by
  rw [State.budgetUs, bits_zero]
  rfl

/-- A function may have the turn of a cluster and has work for it (R328). -/
def wants (s : State) (c u : Nat) : Prop :=
  (Map.get 0#64 s.pf.svc (8 * u)).getLsbD c = true ∧ c < 24 ∧ (Map.get 0#64 s.pf.svc (8 * u + 1)).toNat % 2 ^ 32 ≠ 0 ∧
    ((∃ k ∈ s.launches, k.vf = u ∧ (k.stage = .running ∨ k.stage = .snapshotting)) ∨
      ∃ w ∈ s.wgs, w.phase = .swapped ∧ w.core / 8 = c ∧ ∃ k, s.launch? w.launch = some k ∧ k.vf = u)

theorem mayServe_iff (s : State) (c u : Nat) : s.mayServe u c = true ↔
    (Map.get 0#64 s.pf.svc (8 * u)).getLsbD c = true ∧ c < 24 ∧ (Map.get 0#64 s.pf.svc (8 * u + 1)).toNat % 2 ^ 32 ≠ 0 := by
  unfold State.mayServe State.clmask State.sliceUs State.svc
  rw [bits_zero, bits_zero, bit_eq_testBit, Nat.testBit_mod_two_pow, Bool.and_eq_true, Bool.and_eq_true, decide_eq_true_iff,
    decide_eq_true_iff, Nat.pos_iff_ne_zero, Nat.add_zero, and_comm (a := c < 24), and_assoc]
  rfl

theorem hasWork_iff (s : State) (c u : Nat) : s.hasWork u c = true ↔
    (∃ k ∈ s.launches, k.vf = u ∧ (k.stage = .running ∨ k.stage = .snapshotting)) ∨
      ∃ w ∈ s.wgs, w.phase = .swapped ∧ w.core / 8 = c ∧ ∃ k, s.launch? w.launch = some k ∧ k.vf = u := by
  unfold State.hasWork clusterOf
  simp only [Bool.or_eq_true, List.any_eq_true, Bool.and_eq_true, beq_iff_eq, Option.getD_eq_iff, Option.map_eq_some_iff,
    Bool.false_eq_true, and_false, or_false, and_assoc]
  rfl

/-- The statement's order of the functions is the model's. -/
theorem nextVf_of_follows {s : State} {c u : Nat} {v : Option Nat} (h : follows s c v u) : s.nextVf c v = some u := by
  have served (u : Nat) : (s.mayServe u c && s.hasWork u c) = true ↔ wants s c u := by
    rw [Bool.and_eq_true, mayServe_iff, hasWork_iff, wants, and_assoc, and_assoc]
  obtain ⟨i, lt, rfl, may, least⟩ := h
  have start : (v.map (· + 1)).getD 0 = (match v with
    | some a => a + 1
    | none => 0) := by cases v <;> rfl
  unfold State.nextVf
  dsimp only
  rw [List.find?_map, start, Option.map_eq_some_iff]
  refine ⟨i, List.find?_range_eq_some.2 ⟨(served _).2 may, List.mem_range.2 lt, fun j hj => ?_⟩, rfl⟩
  rw [Function.comp_apply, Bool.not_eq_true', Bool.eq_false_iff]
  exact fun w => least j hj ((served _).1 w)

/-- SLICE_END of a cluster without a function (R328). -/
theorem execSliceEnd_of_idle {s : State} {c u : Nat} {x : Turn} (halt : s.halt = none) (turn : s.turns[c]? = some x)
    (idle : x.vf = none) (next : s.nextVf c none = some u) : execSliceEnd c s = .next (s.enterTurn c u) := by
  unfold execSliceEnd
  simp only [turn, idle, next]
  exact (conclude_eq_next _ _).2 ⟨(s.enterTurn_turns c u).2.2.2.trans halt, rfl⟩

/-- The turn of a function that drains from a time on, in which another stands. -/
def Machine.Turn.handOver (t : Turn) (a u stop : Nat) : Turn :=
  { t with vf := some u, drains := (t.drains.filter fun d => d.vf != a) ++ [⟨a, stop, false⟩] }

/-- The old function of a cluster drains, and the new one stands in its place (R329). -/
def handedOver (s : State) (c a u : Nat) : State :=
  ((s.setTurn c fun t =>
    { t with
      vf := none
      drains := (t.drains.filter fun d => d.vf != a) ++ [⟨a, s.time + usTicks * s.budgetUs a, false⟩] }).setTurn c
    fun t => { t with vf := some u }).saveSlots a

theorem handedOver_turns (s : State) (c a u : Nat) :
    (handedOver s c a u).turns = modifyAt s.turns c (fun t => t.handOver a u (s.time + budgetTicks s a)) ∧
      (handedOver s c a u).time = s.time ∧ (handedOver s c a u).pf = s.pf ∧ (handedOver s c a u).wgs = s.wgs ∧
      (handedOver s c a u).mem = s.mem ∧ (handedOver s c a u).halt = s.halt := by
  unfold handedOver
  obtain ⟨time, turns, pf, wgs, mem, halt⟩ := State.saveSlots_time_turns ((s.setTurn c fun t =>
    { t with
      vf := none
      drains := (t.drains.filter fun d => d.vf != a) ++ [⟨a, s.time + usTicks * s.budgetUs a, false⟩] }).setTurn c
    fun t => { t with vf := some u }) a
  refine ⟨turns.trans ?_, time, pf, wgs, mem, halt⟩
  rw [← budgetTicks_eq]
  exact modifyAt_modifyAt s.turns c _ _

/-- SLICE_END at the end of a slice with another function to follow (R328, R329). -/
theorem execSliceEnd_of_late {s : State} {c a u : Nat} {x : Turn} (halt : s.halt = none) (turn : s.turns[c]? = some x)
    (vf : x.vf = some a) (late : x.stop ≤ s.time) (next : s.nextVf c (some a) = some u) (ne : u ≠ a) :
    execSliceEnd c s = .next ((handedOver s c a u).enterTurn c u) := by
  obtain ⟨-, -, -, -, -, handed⟩ := handedOver_turns s c a u
  unfold execSliceEnd
  simp only [turn, vf, if_neg (Nat.not_lt.2 late), next, Option.some.injEq, if_neg ne]
  exact (conclude_eq_next _ _).2 ⟨((handedOver s c a u).enterTurn_turns c u).2.2.2.trans (handed.trans halt), rfl⟩

theorem sliceEnd_of_idle {s : State} {c u debt : Nat} {x : Turn} (halt : s.halt = none) (turn : s.turns[c]? = some x)
    (idle : x.vf = none) (next : follows s c none u) (fresh : ∀ d ∈ x.drains, d.vf ≠ u)
    (owes : debt = min (Map.get 0 x.owed u) (sliceTicks s u)) :
    ∃ t, exec (.sliceEnd c) s = .next t ∧ t.turns = oneTurn s c (fun x => { x with
      vf := some u, stop := s.time + (sliceTicks s u - debt)
      owed := Map.set 0 x.owed u (Map.get 0 x.owed u - debt) }) ∧ t.mem = s.mem ∧ t.wgs = s.wgs := by
  obtain ⟨turns, wgs, mem, -⟩ := s.enterTurn_turns c u
  refine ⟨_, execSliceEnd_of_idle halt turn idle (nextVf_of_follows next), turns.trans ?_, mem, wgs⟩
  rw [oneTurn_eq_modifyAt, sliceTicks_eq]
  refine modifyAt_congr fun y hy => ?_
  obtain rfl := Option.some.inj (hy.symm.trans turn)
  rw [Turn.enter_of_no_drain fresh, owes]

theorem sliceEnd_of_late {s : State} {c a u debt : Nat} {x : Turn} (halt : s.halt = none) (turn : s.turns[c]? = some x)
    (vf : x.vf = some a) (late : x.stop ≤ s.time) (next : follows s c (some a) u) (ne : u ≠ a)
    (fresh : ∀ d ∈ x.drains, d.vf ≠ u ∧ d.vf ≠ a) (owes : debt = min (Map.get 0 x.owed u) (sliceTicks s u)) :
    ∃ t, exec (.sliceEnd c) s = .next t ∧ t.turns = oneTurn s c (fun x => { x with
      vf := some u, stop := s.time + (sliceTicks s u - debt)
      owed := Map.set 0 x.owed u (Map.get 0 x.owed u - debt)
      drains := x.drains ++ [⟨a, s.time + budgetTicks s a, false⟩] }) ∧ t.mem = s.mem ∧ t.wgs = s.wgs := by
  obtain ⟨entered, wgs, mem, -⟩ := (handedOver s c a u).enterTurn_turns c u
  obtain ⟨turns, time, pf, wgs', mem', -⟩ := handedOver_turns s c a u
  have slice : usTicks * (handedOver s c a u).sliceUs u = sliceTicks s u := by
    rw [sliceTicks_eq, sliceTicks, pf, sliceTicks]
  refine ⟨_, execSliceEnd_of_late halt turn vf late (nextVf_of_follows next) ne, entered.trans ?_, mem.trans mem',
    wgs.trans wgs'⟩
  rw [turns, time, slice, modifyAt_modifyAt, oneTurn_eq_modifyAt]
  refine modifyAt_congr fun y hy => ?_
  obtain rfl := Option.some.inj (hy.symm.trans turn)
  have all : y.drains.filter (fun d => d.vf != a) = y.drains :=
    List.filter_eq_self.2 fun d hd => bne_iff_ne.2 (fresh d hd).2
  have kept : y.handOver a u (s.time + budgetTicks s a) =
      { y with vf := some u, drains := y.drains ++ [⟨a, s.time + budgetTicks s a, false⟩] } := by
    rw [Turn.handOver, all]
  rw [kept, Turn.enter_of_no_drain, owes]
  intro d hd
  rcases List.mem_append.1 hd with old | new
  · exact (fresh d old).1
  · rw [List.mem_singleton.1 new]
    exact ne.symm

/-- A drain that a cluster has is found by its function. -/
theorem drain_of_turn {s : State} {c v : Nat} {x : Turn} {d : Drain} (turn : s.turns[c]? = some x)
    (drain : x.drains.find? (fun d => d.vf == v) = some d) :
    ((s.turns[c]?).bind fun t => t.drains.find? fun d => d.vf == v) = some d := by
  rw [turn]
  exact drain

/-- The launches with a workgroup of a function that runs on a cluster, as the statement lists them. -/
theorem contains_runningOn (s : State) (v c id : Nat) :
    ((s.runningOn v c).map Workgroup.launch).contains id =
      s.wgs.any fun w => w.launch == id && w.phase != .swapped && w.core / 8 == c &&
        ((s.launch? w.launch).map fun k => k.vf == v).getD false := by
  rw [Bool.eq_iff_iff, List.contains_iff_mem, List.any_eq_true]
  unfold State.runningOn clusterOf
  simp only [List.mem_map, List.mem_filter, Bool.and_eq_true, beq_iff_eq]
  refine exists_congr fun w => ?_
  show (w ∈ s.wgs ∧ (_ ∧ w.core / 8 = c) ∧ _) ∧ w.launch = id ↔ w ∈ s.wgs ∧ ((w.launch = id ∧ _) ∧ w.core / 8 = c) ∧ _
  tauto

theorem drainBudgetExpiry_next {s : State} {c v : Nat} {x : Turn} {d : Drain} (halt : s.halt = none)
    (turn : s.turns[c]? = some x) (drain : x.drains.find? (fun d => d.vf == v) = some d) (past : d.budgetEnd ≤ s.time)
    (first : d.passed = false) :
    exec (.drainBudgetExpiry c v) s = .next { s with
      turns := oneTurn s c fun x => { x with
        drains := x.drains.map fun d => if d.vf = v then { d with passed := true } else d }
      launches := s.launches.map fun k =>
        if (s.wgs.any fun w => w.launch == k.id && w.phase != .swapped && w.core / 8 == c &&
            ((s.launch? w.launch).map fun k => k.vf == v).getD false) && k.repl && k.status == .done &&
            k.rollback.isNone then
          { k with rollback := some false, hard := true, noPlace := true }
        else k } := by
  change execDrainBudgetExpiry c v s = _
  unfold execDrainBudgetExpiry
  simp only [drain_of_turn turn drain, first, Bool.or_false, decide_eq_true_iff, if_neg (Nat.not_lt.2 past),
    contains_runningOn, beq_iff_eq (a := Drain.vf _)]
  rw [oneTurn_eq_modifyAt]
  exact (conclude_eq_next _ _).2 ⟨halt, rfl⟩

theorem drainEnd_next {s : State} {c v : Nat} {x : Turn} {d : Drain} (halt : s.halt = none)
    (turn : s.turns[c]? = some x) (drain : x.drains.find? (fun d => d.vf == v) = some d)
    (away : ∀ w ∈ s.wgs, w.phase = .swapped ∨ w.core / 8 ≠ c ∨ ∀ k, s.launch? w.launch = some k → k.vf ≠ v) :
    ∃ t, exec (.drainEnd c v) s = .next t ∧ t.turns = oneTurn s c (fun x => { x with
      owed := Map.set 0 x.owed v (Map.get 0 x.owed v + (s.time - d.budgetEnd))
      drains := x.drains.filter fun d => d.vf != v }) ∧ t.mem = s.mem ∧ t.wgs = s.wgs := by
  have none : s.runningOn v c = [] := List.filter_eq_nil_iff.2 fun w hw => by
    simp only [Bool.and_eq_true, bne_iff_ne, beq_iff_eq, Option.getD_eq_iff, Option.map_eq_some_iff, Bool.false_eq_true,
      and_false, or_false]
    rintro ⟨⟨runs, cluster⟩, k, launch, vf⟩
    exact (away w hw).elim runs fun h => h.elim (fun h => h cluster) fun h => h k launch vf
  obtain ⟨turns, wgs, mem, held⟩ := State.addHolding_turns_wgs_mem (s.setTurn c fun t =>
    { (t.owe v (t.owes v + d.overrun s.time)) with drains := t.drains.filter fun d => d.vf != v }) v
  refine ⟨_, ?_, turns.trans (oneTurn_eq_modifyAt s c _).symm, mem, wgs⟩
  change execDrainEnd c v s = _
  unfold execDrainEnd
  simp only [drain_of_turn turn drain, none, List.isEmpty_nil, Bool.not_true, Bool.false_eq_true, if_false]
  exact (conclude_eq_next _ _).2 ⟨held.trans halt, rfl⟩

/-- Settles O45, each event by what it does to the turn of its cluster. -/
theorem clusterTurns : Obligations.ClusterTurns := by
  unfold Obligations.ClusterTurns
  exact ⟨fun s c u debt x halt turn idle next fresh owes => sliceEnd_of_idle halt turn idle next fresh owes,
    fun s c a u debt x halt turn vf late next ne fresh owes => sliceEnd_of_late halt turn vf late next ne fresh owes,
    fun s c v x d halt turn drain past first => drainBudgetExpiry_next halt turn drain past first,
    fun s c v x d halt turn drain away => drainEnd_next halt turn drain away⟩

end Sys2Proof
end

