-- ==== Sys2Proof/Proofs/ActiveSets.lean ====
section
/-! SUPPORT. The active and the pending set of a bay (R35, R36): the places that are free, the rig that has been ready
longest, and the one whose last issue is oldest. -/

namespace Sys2Proof

namespace Machine

/-- A bay stands in a core of the module. -/
def State.hasBay (s : State) (c b : Nat) : Prop := c < s.cores.length ∧ b < (s.core c).bays.length

/-- A bay that holds something stands in its core. -/
theorem State.hasBay_of_ne {s : State} {c b : Nat} (h : s.bay c b ≠ Bay.reset) : s.hasBay c b := by
  have inCore : b < (s.core c).bays.length := by
    by_contra out
    exact h (by rw [State.bay, List.getElem?_eq_none (Nat.not_lt.1 out), Option.getD_none])
  refine ⟨?_, inCore⟩
  by_contra out
  have core : s.core c = Core.reset := by rw [State.core, List.getElem?_eq_none (Nat.not_lt.1 out), Option.getD_none]
  refine h ?_
  rw [State.bay, core]
  unfold Core.reset
  rw [List.getElem?_replicate]
  split <;> rfl

theorem State.hasBay.bay_setBay {s : State} {c b : Nat} (h : s.hasBay c b) (f : Bay → Bay) :
    (s.setBay c b f).bay c b = f (s.bay c b) := State.bay_setBay s c b f h.1 h.2

/-- An update of a bay leaves it where it is. -/
theorem State.hasBay.setBay {s : State} {c b : Nat} (h : s.hasBay c b) (f : Bay → Bay) : (s.setBay c b f).hasBay c b := by
  refine ⟨h.1.trans_eq (modifyAt_length ..).symm, ?_⟩
  rw [State.setBay, State.core_setCore s c c _ h.1, if_pos rfl]
  exact h.2.trans_eq (modifyAt_length ..).symm

/-- A bay with a rig in its active set, and one with a rig in its pending set, hold something. -/
theorem State.hasBay_of_active {s : State} {c b i : Nat} {r : Nat × Nat} (h : (s.bay c b).active[i]? = some (some r)) :
    s.hasBay c b := State.hasBay_of_ne fun e => by
  rw [e, Bay.reset, List.getElem?_replicate] at h
  split at h <;> cases h

theorem State.hasBay_of_pending {s : State} {c b i : Nat} {r : Nat × Nat} (h : (s.bay c b).pending[i]? = some (some r)) :
    s.hasBay c b := State.hasBay_of_ne fun e => by
  rw [e, Bay.reset, List.getElem?_replicate] at h
  split at h <;> cases h

theorem freePlace_eq_some {α : Type} {l : List (Option α)} {i : Nat} (free : l[i]? = some none)
    (least : ∀ j, j < i → l[j]? ≠ some none) : freePlace l = some i := by
  obtain ⟨lt, at'⟩ := List.getElem?_eq_some_iff.1 free
  refine List.findIdx?_eq_some_iff_getElem.2 ⟨lt, by rw [at']; rfl, fun j hj => ?_⟩
  have taken := least j hj
  rw [List.getElem?_eq_getElem (hj.trans lt)] at taken
  cases h : l[j] with
  | none => exact absurd (congrArg some h) taken
  | some r => exact Bool.false_ne_true

theorem freePlace_eq_none {α : Type} {l : List (Option α)} (h : ∀ j : Nat, l[j]? ≠ some none) : freePlace l = none := by
  refine List.findIdx?_eq_none_iff.2 fun x hx => ?_
  obtain ⟨j, at'⟩ := List.mem_iff_getElem?.1 hx
  cases x with
  | none => exact absurd at' (h j)
  | some r => rfl

/-- Updates of rigs and threads leave the bays alone. -/
@[simp] theorem State.bay_setRig (s : State) (wg rig : Nat) (f : Rig → Rig) (c b : Nat) :
    (s.setRig wg rig f).bay c b = s.bay c b := rfl

@[simp] theorem State.bay_setThread (s : State) (l : LaneRef) (f : Thread → Thread) (c b : Nat) :
    (s.setThread l f).bay c b = s.bay c b := rfl

/-- Threads of which some take a new age (R36). -/
def State.ageSome (s : State) (ls : List LaneRef) (cyc : Nat) (p : State → LaneRef → Bool) : State :=
  ls.foldl (fun s l => if p s l then s.setThread l fun t => { t with age := cyc } else s) s

theorem State.ageSome_cores_ready (s : State) (ls : List LaneRef) (cyc : Nat) (p : State → LaneRef → Bool) :
    (s.ageSome ls cyc p).cores = s.cores ∧
      (∀ wg rig, ((s.ageSome ls cyc p).rig? wg rig).bind Rig.ready = (s.rig? wg rig).bind Rig.ready) ∧
      (s.ageSome ls cyc p).mem = s.mem ∧ (s.ageSome ls cyc p).halt = s.halt := by
  induction ls generalizing s with
  | nil => exact ⟨rfl, fun _ _ => rfl, rfl, rfl⟩
  | cons l r ih =>
    unfold State.ageSome
    rw [List.foldl_cons]
    split
    · obtain ⟨cores, ready, mem, halt⟩ := ih (s.setThread l fun t => { t with age := cyc })
      refine ⟨cores, fun wg rig => (ready wg rig).trans ?_, mem, halt⟩
      rw [State.setThread, State.rig?_setRig]
      split
      · cases s.rig? wg rig <;> rfl
      · rfl
    · exact ih s

/-- An update of a rig that keeps its threads. -/
theorem State.thread_setRig_of_threads (s : State) (wg rig : Nat) {f : Rig → Rig} (h : ∀ q, (f q).threads = q.threads)
    (m : LaneRef) : (s.setRig wg rig f).thread m = s.thread m := by
  rw [State.thread, State.rig?_setRig, State.thread]
  split
  · cases s.rig? m.wg m.rig with
    | none => rfl
    | some q => rw [Option.map_some, Option.bind_some, Option.bind_some, h]
  · rfl

theorem Rig.ready_forget (s : State) (wg rig : Nat) :
    ((s.setRig wg rig fun q => { q with ready := none }).rig? wg rig).bind Rig.ready = none := by
  rw [State.rig?_setRig, if_pos ⟨rfl, rfl⟩]
  cases s.rig? wg rig <;> rfl

/-- The bay as a pending rig takes an active slot in a bay cycle, which its groups that can go on take as their age (R36). -/
def Bay.promote (y : Bay) (cyc i slot wg rig : Nat) : Bay :=
  { y with
    pending := y.pending.set i none
    active := y.active.set slot (some (wg, rig))
    cut := y.cut.map fun g =>
      if (g.lanes.any fun l => l.wg == wg && l.rig == rig) && !g.stalled then { g with age := cyc } else g }

/-- A promotion, before the threads of the rig take the bay cycle as their age. -/
def State.seat (s : State) (c b i slot wg rig : Nat) : State :=
  (s.setBay c b fun y => y.promote (s.bay c b).cycle i slot wg rig).setRig wg rig fun q => { q with ready := none }

theorem State.promote_eq (s : State) (c b i slot wg rig : Nat) :
    ∃ ls p, s.promote c b i slot wg rig = (s.seat c b i slot wg rig).ageSome ls (s.bay c b).cycle p := by
  unfold State.promote
  dsimp only
  split
  · exact ⟨[], fun _ _ => false, rfl⟩
  split
  · exact ⟨[], fun _ _ => false, rfl⟩
  next w _ _ k _ => exact ⟨rigLanes wg rig, fun t l => t.laneReady w k (s.bay c b) l, rfl⟩

/-- What a promotion does to the bay, to the rig and to the rest of the machine (R36). -/
theorem State.promote_bay {s : State} {c b : Nat} (h : s.hasBay c b) (i slot wg rig : Nat) :
    (s.promote c b i slot wg rig).bay c b = (s.bay c b).promote (s.bay c b).cycle i slot wg rig ∧
      (s.promote c b i slot wg rig).hasBay c b ∧ ((s.promote c b i slot wg rig).rig? wg rig).bind Rig.ready = none ∧
      (s.promote c b i slot wg rig).mem = s.mem ∧ (s.promote c b i slot wg rig).halt = s.halt := by
  obtain ⟨ls, p, e⟩ := s.promote_eq c b i slot wg rig
  obtain ⟨cores, ready, mem, halt⟩ := (s.seat c b i slot wg rig).ageSome_cores_ready ls (s.bay c b).cycle p
  have seated := h.setBay fun y => y.promote (s.bay c b).cycle i slot wg rig
  rw [e]
  refine ⟨?_, ?_, (ready wg rig).trans (Rig.ready_forget _ wg rig), mem, halt⟩
  · rw [State.bay, State.core, cores]
    exact h.bay_setBay _
  · rw [State.hasBay, State.core, cores]
    exact seated

theorem join_eq_none_of_ne {α : Type} {o : Option (Option α)} (h : ∀ r, o ≠ some (some r)) : o.join = none := by
  rcases o with _ | _ | r
  · rfl
  · rfl
  · exact absurd rfl (h r)

/-- One place of the pending set, as the picker looks for the rig that has been ready longest. -/
def State.readyStep (s : State) (y : Bay) (best : Option (Nat × Nat × Nat × Nat)) (i : Nat) : Option (Nat × Nat × Nat × Nat) :=
  match (y.pending[i]?).join with
  | none => best
  | some r =>
    match (s.rig? r.1 r.2).bind Rig.ready with
    | none => best
    | some t =>
      match best with
      | none => some (i, r.1, r.2, t)
      | some b => if t < b.2.2.2 then some (i, r.1, r.2, t) else best

theorem State.longestReady_eq (s : State) (y : Bay) :
    s.longestReady y = (List.range y.pending.length).foldl (s.readyStep y) none := by
  refine congrArg (fun f => List.foldl f none _) (funext₂ fun best i => ?_)
  unfold State.readyStep
  cases (y.pending[i]?).join with
  | none => rfl
  | some r =>
    dsimp only
    cases (s.rig? r.1 r.2).bind Rig.ready <;> cases best <;> rfl

/-- With one rig in the pending set, and that one ready, it is the one that has been ready longest (R36). -/
theorem State.longestReady_of_only {s : State} {y : Bay} {i wg rig n : Nat} (pending : y.pending[i]? = some (some (wg, rig)))
    (only : ∀ j, j ≠ i → ∀ r, y.pending[j]? ≠ some (some r)) (ready : (s.rig? wg rig).bind Rig.ready = some n) :
    s.longestReady y = some (i, wg, rig, n) := by
  have upTo (m : Nat) : (List.range m).foldl (s.readyStep y) none = if i < m then some (i, wg, rig, n) else none := by
    induction m with
    | zero => rfl
    | succ m ih =>
      rw [List.range_succ, List.foldl_append, ih, List.foldl_cons, List.foldl_nil, State.readyStep]
      by_cases e : m = i
      · simp only [e, pending, Option.join_some, ready, Nat.lt_irrefl, Nat.lt_succ_self, if_true, if_false]
      · rw [join_eq_none_of_ne (only m e)]
        exact if_congr (by omega) rfl rfl
  rw [State.longestReady_eq, upTo, if_pos (List.getElem?_eq_some_iff.1 pending).1]

/-- The bay cycle of the last issue of a rig. -/
def State.issuedAt (s : State) (r : Nat × Nat) : Nat := ((s.rig? r.1 r.2).map Rig.lastIssue).getD 0

/-- One slot of the active set, as the picker looks for the rig whose last issue is oldest. -/
def State.issueStep (s : State) (y : Bay) (best : Option (Nat × Nat × Nat × Nat)) (i : Nat) : Option (Nat × Nat × Nat × Nat) :=
  match (y.active[i]?).join with
  | none => best
  | some r =>
    match best with
    | none => some (i, r.1, r.2, s.issuedAt r)
    | some b => if s.issuedAt r < b.2.2.2 then some (i, r.1, r.2, s.issuedAt r) else best

theorem State.oldestIssue_eq (s : State) (y : Bay) : s.oldestIssue y =
    ((List.range y.active.length).foldl (s.issueStep y) none).map fun b => (b.1, b.2.1, b.2.2.1) := by
  refine congrArg (fun f => (List.foldl f none _).map _) (funext₂ fun best i => ?_)
  unfold State.issueStep
  cases (y.active[i]?).join with
  | none => rfl
  | some r => cases best <;> rfl

/-- Whatever stands in the other slots, what has been found so far is the rig `v`, or has issued after it. -/
theorem State.foldl_issueStep {s : State} {y : Bay} {slot : Nat} {v : Nat × Nat} (active : y.active[slot]? = some (some v))
    (least : ∀ j r, y.active[j]? = some (some r) → j ≠ slot → s.issuedAt v < s.issuedAt r) (m : Nat) :
    (slot < m → (List.range m).foldl (s.issueStep y) none = some (slot, v.1, v.2, s.issuedAt v)) ∧
      (m ≤ slot → ∀ b ∈ (List.range m).foldl (s.issueStep y) none, s.issuedAt v < b.2.2.2) := by
  induction m with
  | zero => exact ⟨fun lt => absurd lt (Nat.not_lt_zero _), fun _ b hb => nomatch hb⟩
  | succ m ih =>
    obtain ⟨past, ahead⟩ := ih
    rw [List.range_succ, List.foldl_append, List.foldl_cons, List.foldl_nil]
    generalize (List.range m).foldl (s.issueStep y) none = best at past ahead
    unfold State.issueStep
    by_cases e : m = slot
    · subst e
      refine ⟨fun _ => ?_, fun le => absurd le (Nat.not_succ_le_self m)⟩
      rw [active]
      cases best with
      | none => rfl
      | some b => exact if_pos (ahead (Nat.le_refl m) b rfl)
    · cases at' : (y.active[m]?).join with
      | none => exact ⟨fun lt => past (by omega), fun le => ahead (by omega)⟩
      | some r =>
        have later := least m r (Option.join_eq_some_iff.1 at') e
        cases best with
        | none =>
          refine ⟨fun lt => absurd (past (by omega)) (by rintro ⟨⟩), fun _ b hb => ?_⟩
          rw [← Option.some.inj hb]
          exact later
        | some b =>
          refine ⟨fun lt => ?_, fun le b' hb => ?_⟩
          · rw [Option.some.inj (past (by omega))]
            exact if_neg (Nat.lt_asymm later)
          · dsimp only at hb
            split at hb
            · rw [← Option.some.inj hb]
              exact later
            · exact ahead (by omega) b' hb

/-- A rig that has issued before every other of the active set is the one whose last issue is oldest (R36). -/
theorem State.oldestIssue_of_least {s : State} {y : Bay} {slot : Nat} {v : Nat × Nat} (active : y.active[slot]? = some (some v))
    (least : ∀ j r, y.active[j]? = some (some r) → j ≠ slot → s.issuedAt v < s.issuedAt r) :
    s.oldestIssue y = some (slot, v.1, v.2) := by
  rw [State.oldestIssue_eq, (State.foldl_issueStep active least _).1 (List.getElem?_eq_some_iff.1 active).1]
  rfl

/-- The rigs in the pending set, where there is one. -/
theorem Bay.pending_of_only {y : Bay} {i : Nat} {p : Nat × Nat} (pending : y.pending[i]? = some (some p))
    (only : ∀ j, j ≠ i → ∀ r, y.pending[j]? ≠ some (some r)) : ∀ r ∈ y.pending.filterMap id, r = p := by
  intro r hr
  obtain ⟨o, mem, e⟩ := List.mem_filterMap.1 hr
  obtain ⟨j, at'⟩ := List.mem_iff_getElem?.1 mem
  obtain rfl : o = some r := e
  by_cases h : j = i
  · rw [h, pending] at at'
    exact (Option.some.inj (Option.some.inj at')).symm
  · exact absurd at' (only j h r)

/-- Rigs that have been noted as ready are not noted again (R36). -/
theorem State.noteReady_of_noted {s : State} {c b : Nat}
    (h : ∀ p ∈ (s.bay c b).pending.filterMap id, (((s.rig? p.1 p.2).bind Rig.ready).isSome = true)) :
    s.noteReady c b = s := by
  unfold State.noteReady
  dsimp only
  generalize (s.bay c b).pending.filterMap id = ps at h
  induction ps with
  | nil => rfl
  | cons p r ih =>
    have noted := h p (List.mem_cons_self ..)
    rw [List.foldl_cons]
    cases hq : s.rig? p.1 p.2 with
    | none => rw [hq] at noted; cases noted
    | some q =>
      rw [hq, Option.bind_some] at noted
      have set' : q.ready.isNone = false := by rw [← Option.not_isSome, noted]; rfl
      simp only [set', Bool.false_and, Bool.false_eq_true, if_false]
      exact ih fun p' hp' => h p' (List.mem_cons_of_mem _ hp')

end Machine

open Sys2Proof.Machine

/-- A rig whose live threads are all parked, and stand in no stride, may leave the active set (R35). -/
theorem mayDemote_of_parked {s : State} {y : Bay} {wg rig : Nat} {w : Workgroup} (wg? : s.wg? wg = some w)
    (live : ∃ n, n < 64 ∧ (s.thread ⟨wg, rig, n⟩).alive = true)
    (parked : ∀ n, n < 64 → (s.thread ⟨wg, rig, n⟩).alive = true → ∃ x, (s.thread ⟨wg, rig, n⟩).life = .parked x)
    (boundary : ∀ n, n < 64 → (s.thread ⟨wg, rig, n⟩).alive = true → (s.thread ⟨wg, rig, n⟩).inStride = false)
    (apart : ∀ l ∈ y.inGroups, ¬(l.wg = wg ∧ l.rig = rig)) : s.mayDemote y wg rig = true := by
  have ofLive {l : LaneRef} (hl : l ∈ s.liveLanes wg rig) :
      ∃ n, n < 64 ∧ l = ⟨wg, rig, n⟩ ∧ (s.thread ⟨wg, rig, n⟩).alive = true := by
    obtain ⟨mem, alive⟩ := List.mem_filter.1 hl
    obtain ⟨n, lt, rfl⟩ := List.mem_map.1 mem
    exact ⟨n, List.mem_range.1 lt, rfl, alive⟩
  have noGroup : (y.inGroups.any fun l => l.wg == wg && l.rig == rig) = false := by
    rw [List.any_eq_false]
    intro l hl
    rw [Bool.and_eq_true, beq_iff_eq, beq_iff_eq]
    exact apart l hl
  have noStride : ((s.liveLanes wg rig).any fun l => (s.thread l).inStride) = false := by
    rw [List.any_eq_false]
    intro l hl
    obtain ⟨n, lt, rfl, alive⟩ := ofLive hl
    rw [boundary n lt alive]
    exact Bool.false_ne_true
  have some' : (s.liveLanes wg rig).isEmpty = false := by
    obtain ⟨n, lt, alive⟩ := live
    rw [List.isEmpty_eq_false_iff_exists_mem]
    exact ⟨⟨wg, rig, n⟩, List.mem_filter.2 ⟨List.mem_map.2 ⟨n, List.mem_range.2 lt, rfl⟩, alive⟩⟩
  unfold State.mayDemote
  simp only [wg?, noGroup, noStride, some', Bool.not_false, Bool.and_true, Bool.true_and]
  rw [Bool.or_eq_true]
  refine .inl (List.all_eq_true.2 fun l hl => ?_)
  obtain ⟨n, lt, rfl, alive⟩ := ofLive hl
  obtain ⟨x, life⟩ := parked n lt alive
  rw [life]

theorem pendingDemotion_next {s : State} {c b slot i wg rig : Nat} (halt : s.halt = none)
    (active : (s.bay c b).active[slot]? = some (some (wg, rig))) (free : freePlace (s.bay c b).pending = some i)
    (may : s.mayDemote (s.bay c b) wg rig = true) :
    ∃ t, exec (.pendingDemotion c b slot) s = .next t ∧
      (t.bay c b).active = (s.bay c b).active.set slot none ∧
      (t.bay c b).pending = (s.bay c b).pending.set i (some (wg, rig)) ∧ (t.rig? wg rig).bind Rig.ready = none ∧
      (∀ m, t.thread m = s.thread m) ∧ t.mem = s.mem := by
  have bay := (State.hasBay_of_active active).bay_setBay fun y =>
    { y with active := y.active.set slot none, pending := y.pending.set i (some (wg, rig)) }
  refine ⟨(s.setBay c b fun y =>
    { y with active := y.active.set slot none, pending := y.pending.set i (some (wg, rig)) }).setRig wg rig fun q =>
      { q with ready := none }, ?_, congrArg Bay.active bay, congrArg Bay.pending bay, Rig.ready_forget _ wg rig, fun m => ?_, rfl⟩
  · change execPendingDemotion c b slot s = _
    unfold execPendingDemotion
    simp only [active, Option.join_some, free, may, if_true]
    exact (conclude_eq_next _ _).2 ⟨halt, rfl⟩
  · exact State.thread_setRig_of_threads (f := fun q => { q with ready := none }) _ wg rig (fun _ => rfl) m

theorem rigPromote_next {s : State} {c b slot i wg rig n : Nat} (halt : s.halt = none)
    (free : freePlace (s.bay c b).active = some slot) (pending : (s.bay c b).pending[i]? = some (some (wg, rig)))
    (only : ∀ j, j ≠ i → ∀ r, (s.bay c b).pending[j]? ≠ some (some r)) (ready : (s.rig? wg rig).bind Rig.ready = some n) :
    ∃ t, exec (.rigPromote c b) s = .next t ∧
      (t.bay c b).active = (s.bay c b).active.set slot (some (wg, rig)) ∧
      (t.bay c b).pending = (s.bay c b).pending.set i none ∧ (t.rig? wg rig).bind Rig.ready = none ∧ t.mem = s.mem := by
  have noted : s.noteReady c b = s := State.noteReady_of_noted fun p hp => by
    rw [Bay.pending_of_only pending only p hp, ready]
    rfl
  obtain ⟨bay, -, left, mem, halt'⟩ := State.promote_bay (State.hasBay_of_pending pending) i slot wg rig
  refine ⟨s.promote c b i slot wg rig, ?_, congrArg Bay.active bay, congrArg Bay.pending bay, left, mem⟩
  change execRigPromote c b s = _
  unfold execRigPromote
  simp only [noted, State.longestReady_of_only pending only ready, free]
  exact (conclude_eq_next _ _).2 ⟨halt'.trans halt, rfl⟩

theorem forcedDemotion_next {s : State} {c b slot i j wg rig n : Nat} {v : Nat × Nat} (halt : s.halt = none)
    (full : freePlace (s.bay c b).active = none) (oldest : s.oldestIssue (s.bay c b) = some (slot, v.1, v.2))
    (longest : s.longestReady (s.bay c b) = some (i, wg, rig, n)) (h : s.hasBay c b) (due : n + 1024 ≤ (s.bay c b).cycle)
    (free : freePlace ((s.bay c b).pending.set i none) = some j)
    (apart : (((s.bay c b).port.map Group.lanes).getD []).any (fun l => l.wg == v.1 && l.rig == v.2) = false) :
    ∃ t, exec (.forcedDemotion c b) s = .next t ∧
      (t.bay c b).active = (s.bay c b).active.set slot (some (wg, rig)) ∧
      (t.bay c b).pending = ((s.bay c b).pending.set i none).set j (some v) ∧ t.mem = s.mem := by
  obtain ⟨bay, has, -, mem, halt'⟩ := State.promote_bay h i slot wg rig
  have demoted := has.bay_setBay fun y =>
    { y with
      pending := y.pending.set ((freePlace y.pending).getD i) (some (v.1, v.2))
      cut := splitCut y.cut v.1 v.2 }
  rw [bay] at demoted
  refine ⟨((s.promote c b i slot wg rig).setBay c b fun y =>
    { y with
      pending := y.pending.set ((freePlace y.pending).getD i) (some (v.1, v.2))
      cut := splitCut y.cut v.1 v.2 }).setRig v.1 v.2 fun q => { q with ready := none }, ?_,
    congrArg Bay.active demoted, (congrArg Bay.pending demoted).trans ?_, mem⟩
  · change execForcedDemotion c b s = _
    unfold execForcedDemotion
    simp only [longest, full, oldest, apart, decide_eq_true due, Bool.not_false, Bool.and_true, if_true]
    exact (conclude_eq_next _ _).2 ⟨halt'.trans halt, rfl⟩
  · change ((s.bay c b).pending.set i none).set ((freePlace ((s.bay c b).pending.set i none)).getD i) _ = _
    rw [free]
    rfl

/-- Settles O37: the free places, the rig that is ready longest and the one whose issue is oldest are those that the
statement describes. -/
theorem activeSet : Obligations.ActiveSet := by
  unfold Obligations.ActiveSet
  refine ⟨fun s c b slot i wg rig w halt active free least wg? live parked boundary apart => ?_,
    fun s c b slot i wg rig n halt free least pending only ready => ?_,
    fun s c b slot i j wg rig vw vr n halt full active least pending only ready due free lowest apart => ?_⟩
  · exact pendingDemotion_next halt active (freePlace_eq_some free least)
      (mayDemote_of_parked wg? live parked boundary apart)
  · exact rigPromote_next halt (freePlace_eq_some free least) pending only ready
  · refine forcedDemotion_next (v := (vw, vr)) halt (freePlace_eq_none full) (State.oldestIssue_of_least active least)
      (State.longestReady_of_only pending only ready) (State.hasBay_of_active active) due (freePlace_eq_some free lowest) ?_
    rw [List.any_eq_false]
    intro l hl
    rw [Bool.and_eq_true, beq_iff_eq, beq_iff_eq]
    cases port : (s.bay c b).port with
    | none => rw [port] at hl; exact nomatch hl
    | some g => rw [port] at hl; exact apart g port l hl

end Sys2Proof
end

