-- ==== Sys2Proof/Proofs/Strides.lean ====
section
/-! SUPPORT. What a clock of a bay, the counters and the end of a slot leave of the strides (R28, R330). -/

namespace Sys2Proof.Machine

/-- One state follows another with the same counters' surroundings: only counter slots and interrupts differ (R330). -/
def CountersOnly (s t : State) : Prop := ∃ vfs pf msix, t = { s with vfs := vfs, pf := pf, msix := msix }

theorem CountersOnly.refl (s : State) : CountersOnly s s := ⟨s.vfs, s.pf, s.msix, rfl⟩

theorem CountersOnly.trans {s t u : State} (h : CountersOnly s t) (h' : CountersOnly t u) : CountersOnly s u := by
  obtain ⟨_, _, _, rfl⟩ := h
  obtain ⟨_, _, _, rfl⟩ := h'
  exact ⟨_, _, _, rfl⟩

theorem CountersOnly.foldl {α : Type} {f : State → α → State} (h : ∀ s x, CountersOnly s (f s x)) (l : List α) (s : State) :
    CountersOnly s (l.foldl f s) :=
  List.foldlRecOn (motive := CountersOnly s) l f (CountersOnly.refl s) fun t ht x _ => ht.trans (h t x)

theorem State.count_countersOnly (s : State) (v e n : Nat) : CountersOnly s (s.count v e n) := by
  have pf : CountersOnly s (s.countPf e n) := by
    unfold State.countPf
    dsimp only
    split <;> exact ⟨_, _, _, rfl⟩
  have vf (t : State) : CountersOnly t (t.countVf v e n) := by
    unfold State.countVf
    dsimp only
    split
    · split <;> exact ⟨_, _, _, rfl⟩
    · exact ⟨_, _, _, rfl⟩
  unfold State.count
  dsimp only
  split
  · exact pf
  · exact pf.trans (vf _)

theorem State.countDie_countersOnly (s : State) (launch : Nat) : CountersOnly s (s.countDie launch) := by
  unfold State.countDie
  split
  · exact CountersOnly.refl s
  · exact (s.count_countersOnly _ _ _).trans (State.count_countersOnly _ _ _ _)

theorem State.countClock_countersOnly (s : State) (cl : Nat) : CountersOnly s (s.countClock cl) := by
  unfold State.countClock
  split
  · exact s.count_countersOnly _ _ _
  · exact CountersOnly.refl s

/-- Threads, groups at ports, kernels and launches are as before, and the machine has not stopped meanwhile. -/
structure SameStrides (s t : State) : Prop where
  halt : t.halt = s.halt
  focus : t.focus = s.focus
  launches : t.launches = s.launches
  thread : ∀ l, t.thread l = s.thread l
  port : ∀ c b, (t.bay c b).port = (s.bay c b).port
  kslot : ∀ c k, t.kslot? c k = s.kslot? c k

theorem SameStrides.refl (s : State) : SameStrides s s := ⟨rfl, rfl, rfl, fun _ => rfl, fun _ _ => rfl, fun _ _ => rfl⟩

theorem SameStrides.trans {s t u : State} (h : SameStrides s t) (h' : SameStrides t u) : SameStrides s u where
  halt := h'.halt.trans h.halt
  focus := h'.focus.trans h.focus
  launches := h'.launches.trans h.launches
  thread l := (h'.thread l).trans (h.thread l)
  port c b := (h'.port c b).trans (h.port c b)
  kslot c k := (h'.kslot c k).trans (h.kslot c k)

theorem CountersOnly.sameStrides {s t : State} (h : CountersOnly s t) : SameStrides s t := by
  obtain ⟨_, _, _, rfl⟩ := h
  exact ⟨rfl, rfl, rfl, fun _ => rfl, fun _ _ => rfl, fun _ _ => rfl⟩

/-- A core is updated, or the update names another. -/
theorem State.core_setCore_or (s : State) (c d : Nat) (f : Core → Core) :
    (s.setCore c f).core d = f (s.core d) ∨ (s.setCore c f).core d = s.core d := by
  by_cases e : c = d
  · by_cases lt : c < s.cores.length
    · rw [State.core_setCore s c d f lt, if_pos e]
      exact .inl rfl
    · refine .inr ?_
      rw [State.core, State.setCore, modifyAt_get, if_pos e, ← e, State.core, List.getElem?_eq_none (Nat.not_lt.1 lt)]
      rfl
  · exact .inr (State.core_setCore_other s c d f e)

/-- A bay is updated, or the update names another. -/
theorem State.bay_setBay_or (s : State) (c b d e : Nat) (f : Bay → Bay) :
    (s.setBay c b f).bay d e = f (s.bay d e) ∨ (s.setBay c b f).bay d e = s.bay d e := by
  by_cases h : c = d ∧ b = e
  · obtain ⟨rfl, rfl⟩ := h
    by_cases has : s.hasBay c b
    · exact .inl (has.bay_setBay f)
    · refine .inr ?_
      by_cases lt : c < s.cores.length
      · rw [State.bay, State.setBay, State.core_setCore s c c _ lt, if_pos rfl, modifyAt_get, if_pos rfl, State.bay,
          List.getElem?_eq_none (Nat.not_lt.1 fun h => has ⟨lt, h⟩)]
        rfl
      · rw [State.bay, State.setBay, State.core, State.setCore, modifyAt_get, if_pos rfl, State.bay, State.core,
          List.getElem?_eq_none (Nat.not_lt.1 lt)]
        rfl
  · exact .inr (State.bay_setBay_other s c b d e f (by tauto))

/-- An update of a bay keeps the kernels of the cores. -/
theorem State.kslot?_setBay (s : State) (c b : Nat) (f : Bay → Bay) (d k : Nat) :
    (s.setBay c b f).kslot? d k = s.kslot? d k := by
  unfold State.kslot? State.setBay
  rcases s.core_setCore_or c d fun q => { q with bays := modifyAt q.bays b f } with e | e <;> rw [e]

/-- An update of a bay that keeps the group at its port. -/
theorem State.setBay_sameStrides (s : State) (c b : Nat) {f : Bay → Bay} (h : ∀ y, (f y).port = y.port) :
    SameStrides s (s.setBay c b f) where
  halt := rfl
  focus := rfl
  launches := rfl
  thread _ := rfl
  port d e := by
    rcases s.bay_setBay_or c b d e f with x | x <;> rw [x]
    exact h _
  kslot := s.kslot?_setBay c b f

/-- An update of a rig that keeps its threads. -/
theorem State.setRig_sameStrides (s : State) (wg rig : Nat) {f : Rig → Rig} (h : ∀ q, (f q).threads = q.threads) :
    SameStrides s (s.setRig wg rig f) where
  halt := rfl
  focus := rfl
  launches := rfl
  thread := s.thread_setRig_of_threads wg rig h
  port _ _ := rfl
  kslot _ _ := rfl

theorem State.noteHolds_sameStrides (s : State) (c b : Nat) : SameStrides s (s.noteHolds c b) := by
  unfold State.noteHolds
  dsimp only
  split
  · exact SameStrides.refl s
  · exact s.setBay_sameStrides c b (f := fun y => { y with holds := _ }) fun _ => rfl

theorem State.noteReady_sameStrides (s : State) (c b : Nat) : SameStrides s (s.noteReady c b) := by
  refine List.foldlRecOn (motive := SameStrides s) _ _ (SameStrides.refl s) fun t ht p _ => ?_
  split
  · exact ht
  split
  · exact ht.trans (t.setRig_sameStrides p.1 p.2 (f := fun r => { r with ready := some (s.bay c b).cycle }) fun _ => rfl)
  · exact ht

/-- A bay cycle passes (R28). -/
theorem State.tick_sameStrides (s : State) (c b : Nat) : SameStrides s (s.tick c b) := by
  unfold State.tick
  have cycled := ((s.noteHolds_sameStrides c b).trans
    (State.setBay_sameStrides _ c b (f := fun y => { y with cycle := y.cycle + 1 }) fun _ => rfl)).trans
    (State.noteReady_sameStrides _ c b)
  dsimp only
  split
  · exact cycled.trans (State.countClock_countersOnly _ _).sameStrides
  · exact cycled

theorem State.settleReports_sameStrides (s : State) : SameStrides s s.settleReports :=
  ⟨rfl, rfl, rfl, fun _ => rfl, fun _ _ => rfl, fun _ _ => rfl⟩

/-- Without a hard cancel a sweep finds nothing to end (R38). -/
theorem State.sweep_of_noHard {s : State} (h : ∀ k ∈ s.launches, k.hard = false) : s.sweep = s := by
  have none : s.launches.filter Launch.hard = [] := List.filter_eq_nil_iff.2 fun k hk => by
    rw [h k hk]
    exact Bool.false_ne_true
  have nobody : (s.wgs.any fun w => ([] : List Nat).contains w.launch) = false := List.any_eq_false.2 fun _ _ => nofun
  unfold State.sweep
  simp only [none, List.map_nil, nobody, Bool.not_false, if_true]

/-- A thread that is there is found in its rig. -/
theorem State.exists_thread {s : State} {l : LaneRef} (h : (s.thread l).life ≠ .absent) :
    ((s.rig? l.wg l.rig).bind fun r => r.threads[l.lane]?) = some (s.thread l) := by
  unfold State.thread at h ⊢
  cases e : (s.rig? l.wg l.rig).bind fun r => r.threads[l.lane]? with
  | none => rw [e] at h; exact absurd rfl h
  | some t => rfl

theorem State.thread_setThread_self {s : State} {l : LaneRef} (h : (s.thread l).life ≠ .absent) (f : Thread → Thread) :
    (s.setThread l f).thread l = f (s.thread l) := by
  rw [State.thread_setThread, if_pos rfl, State.exists_thread h]
  rfl

/-- Lanes that fall through take the address as their program counter, whoever else does (R48, R54). -/
theorem State.foldl_goTo_thread {ls : List LaneRef} {l : LaneRef} {s : State} {pc : Nat} (h : (s.thread l).life ≠ .absent)
    (hl : l ∈ ls ∨ (s.thread l).pc = BitVec.ofNat 64 pc ∧ (s.thread l).slot = none) :
    ((ls.foldl (fun s l => s.goTo l pc) s).thread l).pc = BitVec.ofNat 64 pc ∧
      ((ls.foldl (fun s l => s.goTo l pc) s).thread l).slot = none := by
  induction ls generalizing s with
  | nil => exact hl.resolve_left List.not_mem_nil
  | cons m r ih =>
    rw [List.foldl_cons]
    by_cases e : m = l
    · subst e
      have here : (s.goTo m pc).thread m = _ := State.thread_setThread_self h _
      exact ih (by rw [here]; exact h) (.inr (by rw [here]; exact ⟨rfl, rfl⟩))
    · have other : (s.goTo m pc).thread l = s.thread l := State.thread_setThread_other s m l _ e
      refine ih (by rw [other]; exact h) ?_
      rw [other]
      exact hl.imp_left fun hm => (List.mem_cons.1 hm).resolve_left (Ne.symm e)

end Sys2Proof.Machine
end

