-- ==== Sys2Proof/Proofs/Steps.lean ====
section
/-! A step of a bay whose port holds a word at its last clock, and what its slot leaves at the port (R30, R47, R70). -/

namespace Sys2Proof.Machine

theorem Group.restCount_eq_zero {g : Group} {i : Nat} : g.restCount i = 0 ↔ ∀ x ∈ g.words.drop i, x = .filler := by
  unfold Group.restCount
  rw [List.length_eq_zero_iff, List.filter_eq_nil_iff]
  exact forall₂_congr fun x _ => by simp

theorem Group.restCount_eq_zero_all {g : Group} {i : Nat} :
    g.restCount i = 0 ↔ ((g.words.drop i).all fun x => x == .filler) = true := by
  rw [Group.restCount_eq_zero, List.all_eq_true]
  exact forall₂_congr fun x _ => beq_iff_eq.symm

/-- More lanes take no fewer clocks (R123). -/
theorem clocksOf_mono (i : Instr) {k n : Nat} (h : k ≤ n) : clocksOf i k ≤ clocksOf i n :=
  max_le_max le_rfl (Nat.div_le_div_right (by omega))

theorem State.retest_sameStrides (s : State) (run : Instr → State → Host.Outcome State Fault Refusal) (c b : Nat) :
    SameStrides s (s.retest run c b) := by
  unfold State.retest
  split
  · exact s.setBay_sameStrides c b (f := fun y => { y with cut := _ }) fun _ => rfl
  · exact SameStrides.refl s

/-- The group at the port is all that its update depends on. -/
theorem State.setGroup_congr {s : State} {g : Group} {f h : Group → Group} (hp : s.group? = some g) (e : f g = h g) :
    s.setGroup f = s.setGroup h := by
  unfold State.setGroup State.setBay State.setCore
  refine congrArg (fun l => ({ s with cores := l } : State)) (modifyAt_congr fun k hk => ?_)
  refine congrArg (fun l => ({ k with bays := l } : Core)) (modifyAt_congr fun y hy => ?_)
  have port : y.port = some g := by
    rw [← hp, State.group?, State.bay, State.core, hk]
    simp only [Option.getD_some, hy]
  rw [port, Option.map_some, Option.map_some, e]

theorem State.foldl_goTo_wgs (s : State) (ls : List LaneRef) (pc : Nat) :
    ∃ wgs, ls.foldl (fun s l => s.goTo l pc) s = { s with wgs := wgs } :=
  List.foldlRecOn (motive := fun u : State => ∃ wgs, u = { s with wgs := wgs }) ls (fun s l => s.goTo l pc) ⟨s.wgs, rfl⟩
    fun u ⟨wgs, hu⟩ l _ => ⟨(u.goTo l pc).wgs, by subst hu; rfl⟩

/-! After the slot's clock. -/

/-- The counters after a slot of a group (R28, R330). -/
def State.clocked (s : State) (c b : Nat) (g : Group) : State :=
  ((g.lanes.map LaneRef.wg).eraseDups.filterMap fun w => (s.wg? w).map Workgroup.launch).foldl State.countDie (s.tick c b)

theorem State.clocked_sameStrides (s : State) (c b : Nat) (g : Group) : SameStrides s (s.clocked c b g) :=
  (s.tick_sameStrides c b).trans (CountersOnly.foldl State.countDie_countersOnly _ _).sameStrides

section
variable {s : State} {c b : Nat} {g : Group} (port : (s.bay c b).port = some g) (lanes : g.lanes ≠ [])

include port lanes

/-- A held slot keeps its group at the port (R30). -/
theorem State.finishSlot_of_held (held : (g.stalled || g.more) = true) : ∃ u, SameStrides s u ∧ s.finishSlot c b =
    u.setBay c b fun y => { y with port := y.port.map fun g => { g with tenure := g.tenure + 1, spent := true } } := by
  refine ⟨s.clocked c b g, s.clocked_sameStrides c b g, ?_⟩
  unfold State.finishSlot
  simp only [port, State.clocked]
  rw [if_neg (by simpa using lanes), if_pos held]

/-- A slot that is done makes way for the next one (R47). -/
theorem State.finishSlot_of_next (held : (g.stalled || g.more) = false) (rest : g.restCount (g.slot + 1) ≠ 0) :
    ∃ u, SameStrides s u ∧ s.finishSlot c b = u.setBay c b fun y => { y with port := y.port.map fun g =>
      { g with slot := g.slot + 1, clock := 0, served := [], work := [], tenure := g.tenure + 1, spent := true } } := by
  refine ⟨s.clocked c b g, s.clocked_sameStrides c b g, ?_⟩
  unfold State.finishSlot
  simp only [port, State.clocked]
  rw [if_neg (by simpa using lanes), if_neg (by rw [held]; exact Bool.false_ne_true), if_neg rest]

/-- The last slot ends its stride (R48). -/
theorem State.finishSlot_of_last (held : (g.stalled || g.more) = false) (rest : g.restCount (g.slot + 1) = 0) :
    ∃ u, SameStrides s u ∧ s.finishSlot c b = u.endStride c b := by
  refine ⟨s.clocked c b g, s.clocked_sameStrides c b g, ?_⟩
  unfold State.finishSlot
  simp only [port, State.clocked]
  rw [if_neg (by simpa using lanes), if_neg (by rw [held]; exact Bool.false_ne_true), if_pos rest]

omit lanes in
/-- An update of the port finds the group there. -/
theorem State.port_setBay_map (f : Group → Group) :
    ((s.setBay c b fun y => { y with port := y.port.map f }).bay c b).port = some (f g) := by
  have has : s.hasBay c b := State.hasBay_of_ne fun e => by
    rw [e] at port
    exact absurd port (by simp [Bay.reset])
  rw [has.bay_setBay, port, Option.map_some]

omit lanes in
/-- At the end of a stride whose next frame is a stride the lanes fall through and the port is free (R48). -/
theorem State.endStride_of_valid (focus : s.focus = (c, b)) (noHard : Spec.noHard s) (valid : s.validIn c g g.fall = true) :
    s.endStride c b = (g.lanes.foldl (fun s l => s.goTo l g.fall) s).setBay c b fun y => { y with port := none } := by
  have target : s.validTarget g.fall = true := by
    unfold State.validTarget State.group?
    simp only [focus, port]
    exact valid
  obtain ⟨wgs, fell⟩ := s.foldl_goTo_wgs g.lanes g.fall
  unfold State.endStride
  simp only [port, target, if_true]
  rw [fell]
  exact State.sweep_of_noHard noHard

end


/-! The step goes on from the next move of the schedule. -/

theorem step_of_move {s : State} {m : Move} {rest : List Move} (halt : s.halt = none) (moves : s.moves = m :: rest) :
    step s = (match m.ev with
      | some i => stepEvent i (Spec.moved s m rest)
      | none => stepBay m.core m.bay (Spec.moved s m rest)) := by
  unfold step
  split
  next f e => exact absurd (halt.symm.trans e) nofun
  next =>
    split
    next e => exact absurd (moves.symm.trans e) nofun
    next n l e =>
      obtain ⟨rfl, rfl⟩ := List.cons.inj (moves.symm.trans e)
      rfl

theorem step_of_event {s : State} {m : Move} {rest : List Move} {i : Instr} (halt : s.halt = none) (moves : s.moves = m :: rest)
    (ev : m.ev = some i) : step s = stepEvent i (Spec.moved s m rest) := by
  rw [step_of_move halt moves, ev]

theorem step_of_bay {s : State} {m : Move} {rest : List Move} (halt : s.halt = none) (moves : s.moves = m :: rest)
    (ev : m.ev = none) : step s = stepBay m.core m.bay (Spec.moved s m rest) := by
  rw [step_of_move halt moves, ev]

/-! The act of a bay whose port holds a word at its last clock. -/

/-- The act of a bay that acts in a state `u` with a word at its last clock: none of what comes before it holds (R123). -/
theorem State.bayAct_of_slot {s u : State} {c b : Nat} {g : Group} {i : Instr} (acts : { s with focus := (c, b) } = u)
    (port : (u.bay c b).port = some g) (tenure : g.tenure < 7) (lanes : g.lanes ≠ [])
    (swap : (g.lanes.map LaneRef.wg).find? (fun v =>
      ((u.wg? v).map fun w => w.phase == .swapPending && g.retired w).getD false) = none)
    (rest : g.restCount g.slot ≠ 0) (word : g.words[g.slot]? ≠ some .filler) (check : g.check = some i)
    (clocks : ¬ g.clock + 1 < clocksOf i
      (g.lanes.filter fun l => u.legalFor l i && (wordGuard g.word).holds (u.thread l)).length) :
    s.bayAct c b = (u.setGroup fun x => { x with
      stalled := false, more := false
      before := if g.restCount (g.slot + 1) = 0 ∧ g.served.isEmpty then
        x.lanes.map fun l => (l, (u.thread l).temps) else x.before }, .slot i) := by
  have held : ¬ Config.tenureCycles ≤ g.tenure := Nat.not_le.2 tenure
  have nonempty : ¬ g.lanes.isEmpty = true := by simpa using lanes
  unfold State.bayAct
  simp only [acts, port, if_neg held, swap, if_neg nonempty, if_neg rest, if_neg word, check, if_neg clocks]

section
variable {s : State} {m : Move} {rest : List Move} {g : Group} {w : Dword} {i : Instr}

/-- The state in which a bay acts (log entry 31). -/
def acting (s : State) (m : Move) (rest : List Move) : State :=
  { (Spec.moved s m rest).retest exec m.core m.bay with focus := (m.core, m.bay) }

theorem thread_acting (s : State) (m : Move) (rest : List Move) (l : LaneRef) : (acting s m rest).thread l = s.thread l :=
  ((Spec.moved s m rest).retest_sameStrides exec m.core m.bay).thread l

variable (h : Spec.Issues s m rest g w i)
include h

theorem Issues.port_acting : ((acting s m rest).bay m.core m.bay).port = some g :=
  (((Spec.moved s m rest).retest_sameStrides exec m.core m.bay).port m.core m.bay).trans h.port

theorem Issues.check : g.check = some i := by
  have last : (!(isControl (w.toNat / 2 ^ 54)) || g.restCount (g.slot + 1) == 0) = true := by
    by_cases c : isControl (w.toNat / 2 ^ 54) = true
    · have control := c
      simp only [isControl, Bool.and_eq_true, decide_eq_true_eq, bne_iff_ne, ne_eq] at control
      obtain ⟨⟨lo, hi⟩, ne⟩ := control
      rw [Group.restCount_eq_zero.2 (h.last lo hi ne)]
      exact Bool.or_true _
    · rw [Bool.not_eq_true] at c
      rw [c]
      rfl
  unfold Group.check
  simp only [h.word, h.decodes, h.admitted, last, Bool.and_self, if_true]

theorem Issues.restCount_ne : g.restCount g.slot ≠ 0 := fun e => by
  have word : SlotWord.word w ∈ g.words.drop g.slot :=
    List.mem_of_getElem? (i := 0) (by rw [List.getElem?_drop]; exact h.word)
  exact SlotWord.noConfusion (Group.restCount_eq_zero.1 e _ word)

theorem Issues.no_swap : (g.lanes.map LaneRef.wg).find? (fun v =>
    (((acting s m rest).wg? v).map fun w => w.phase == .swapPending && g.retired w).getD false) = none := by
  refine List.find?_eq_none.2 fun v hv => ?_
  obtain ⟨l, hl, rfl⟩ := List.mem_map.1 hv
  have same : (acting s m rest).wg? l.wg = s.wg? l.wg := by
    unfold acting State.retest
    split <;> rfl
  rw [same]
  cases e : s.wg? l.wg with
  | none => exact Bool.false_ne_true
  | some v =>
    have ne := h.swap l hl v e
    simp [ne]

theorem Issues.clocks : ¬ g.clock + 1 < clocksOf i (g.lanes.filter fun l =>
    (acting s m rest).legalFor l i && (wordGuard g.word).holds ((acting s m rest).thread l)).length := by
  have word : g.word = w := by
    unfold Group.word
    rw [List.getD_eq_getElem?_getD, h.word]
    rfl
  have fewer : (g.lanes.filter fun l =>
      (acting s m rest).legalFor l i && (wordGuard g.word).holds ((acting s m rest).thread l)).length ≤
      (g.lanes.filter fun l => (wordGuard w).holds (s.thread l)).length := by
    refine (List.monotone_filter_right g.lanes fun l hl => ?_).length_le
    rw [word, thread_acting] at hl
    exact (Bool.and_eq_true_iff.1 hl).2
  exact Nat.not_lt.2 ((clocksOf_mono i fewer).trans h.clock)

/-- The bay executes the instruction of its slot (R70, R123). -/
theorem Issues.bayAct : ((Spec.moved s m rest).retest exec m.core m.bay).bayAct m.core m.bay =
    (Spec.atBay s m rest, .slot i) := by
  have port := Issues.port_acting h
  have before : (acting s m rest).setGroup (fun x => { x with
        stalled := false, more := false
        before := if g.restCount (g.slot + 1) = 0 ∧ g.served.isEmpty then
          x.lanes.map fun l => (l, ((acting s m rest).thread l).temps) else x.before }) = Spec.atBay s m rest := by
    refine State.setGroup_congr (g := g) port ?_
    have iff : (g.restCount (g.slot + 1) = 0 ∧ g.served.isEmpty) ↔
        ((g.words.drop (g.slot + 1)).all (fun x => x == .filler) && g.served.isEmpty) = true := by
      rw [Bool.and_eq_true, Group.restCount_eq_zero_all]
    simp only [iff]
    rfl
  rw [← before]
  refine State.bayAct_of_slot rfl port h.tenure h.lanes (Issues.no_swap h) (Issues.restCount_ne h) ?_ (Issues.check h)
    (Issues.clocks h)
  rw [h.word]
  exact nofun


/-- The step executes the instruction of the slot, after which the slot ends (R70). -/
theorem Issues.step_eq : step s = andThen (exec i (Spec.atBay s m rest)) (afterSlot m.core m.bay) := by
  have turn : (Spec.moved s m rest).aheadOfCluster m.core m.bay = false := h.turn
  rw [step_of_bay h.halt h.moves h.bay, stepBay, turn, if_neg Bool.false_ne_true, Issues.bayAct h]

/-- What the step of a slot leaves, given its end. -/
theorem Issues.step_of_finishSlot {t u : State} (run : exec i (Spec.atBay s m rest) = .next t)
    (finish : t.finishSlot m.core m.bay = u) (halt : u.halt = none) : step s = .next u.settleReports := by
  rw [Issues.step_eq h, run]
  change conclude (t.finishSlot m.core m.bay).settleReports = _
  rw [finish]
  exact (conclude_eq_next _ _).2 ⟨halt, rfl⟩

end

end Sys2Proof.Machine

open Sys2Proof Sys2Proof.Machine Sys2Proof.Spec

/-- The end of a slot: it is held, makes way for the next one, or ends its stride (R30, R47, R48). -/
theorem Sys2Proof.Machine.Issues.slot_ends {s t : State} {m : Move} {rest : List Move} {g g' : Group} {w : Dword} {i : Instr}
    (h : Issues s m rest g w i) (run : exec i (atBay s m rest) = .next t) (halt : t.halt = none)
    (focus : t.focus = (m.core, m.bay)) (port : (t.bay m.core m.bay).port = some g') (lanes : g'.lanes ≠ []) :
    ((g'.stalled || g'.more) = true → ∃ u, step s = .next u ∧
        (u.bay m.core m.bay).port = some { g' with tenure := g'.tenure + 1, spent := true }) ∧
      ((g'.stalled || g'.more) = false → (∃ x ∈ g'.words.drop (g'.slot + 1), x ≠ .filler) →
        ∃ u, step s = .next u ∧ (u.bay m.core m.bay).port = some { g' with
          slot := g'.slot + 1, clock := 0, served := [], work := [], tenure := g'.tenure + 1, spent := true }) ∧
      ((g'.stalled || g'.more) = false → (∀ x ∈ g'.words.drop (g'.slot + 1), x = .filler) →
        noHard t → t.validIn m.core g' ((g'.pc.toNat + g'.size) % 2 ^ 64) = true →
        ∃ u, step s = .next u ∧ (u.bay m.core m.bay).port = none ∧
          ∀ l ∈ g'.lanes, (t.thread l).life ≠ .absent →
            (u.thread l).pc = BitVec.ofNat 64 ((g'.pc.toNat + g'.size) % 2 ^ 64) ∧ (u.thread l).slot = none) := by
  refine ⟨fun held => ?_, fun held ⟨x, hx, ne⟩ => ?_, fun held fillers noHard valid => ?_⟩
  · obtain ⟨u, same, finish⟩ := State.finishSlot_of_held port lanes held
    exact ⟨_, Issues.step_of_finishSlot h run finish (same.halt.trans halt),
      State.port_setBay_map ((same.port _ _).trans port) _⟩
  · have more : g'.restCount (g'.slot + 1) ≠ 0 := fun e => ne (Group.restCount_eq_zero.1 e x hx)
    obtain ⟨u, same, finish⟩ := State.finishSlot_of_next port lanes held more
    exact ⟨_, Issues.step_of_finishSlot h run finish (same.halt.trans halt),
      State.port_setBay_map ((same.port _ _).trans port) _⟩
  · obtain ⟨u, same, finish⟩ := State.finishSlot_of_last port lanes held (Group.restCount_eq_zero.2 fillers)
    have portU := (same.port _ _).trans port
    have validU : u.validIn m.core g' g'.fall = true := by
      rw [State.validIn, same.kslot]
      exact valid
    rw [State.endStride_of_valid portU (same.focus.trans focus) (by rwa [Spec.noHard, same.launches]) validU] at finish
    have fell (l : LaneRef) (hl : l ∈ g'.lanes) (there : (t.thread l).life ≠ .absent) :=
      State.foldl_goTo_thread (pc := g'.fall) (s := u) (by rwa [same.thread l]) (.inl hl)
    obtain ⟨wgs, frame⟩ := u.foldl_goTo_wgs g'.lanes g'.fall
    refine ⟨_, Issues.step_of_finishSlot h run finish ?_, ?_, fell⟩
    · rw [frame]
      exact same.halt.trans halt
    · have has : u.hasBay m.core m.bay := State.hasBay_of_ne fun e => by
        rw [e] at portU
        exact absurd portU (by simp [Bay.reset])
      rw [frame]
      exact congrArg Bay.port (has.bay_setBay fun y => { y with port := none })

/-- Settles O54, by the act of the bay before the instruction and the end of its slot after it. -/
theorem stepRunsDecoded : Obligations.StepRunsDecoded := by
  unfold Obligations.StepRunsDecoded
  refine ⟨fun s f halt => ?_, fun s halt moves => ?_, fun s m rest g w i h => ?_, fun s m rest halt moves bay ahead => ?_,
    fun s m rest i halt moves ev event => ?_, fun s m rest i w halt moves ev word => ?_⟩
  · unfold step
    simp only [halt]
  · unfold step
    simp only [halt, moves]
  · refine ⟨Issues.step_eq h, fun t g' run halt focus port => ⟨fun lanes => ?_, fun lanes => ?_, fun lanes => ?_⟩⟩
    · exact (Issues.slot_ends h run halt focus port lanes).1
    · exact (Issues.slot_ends h run halt focus port lanes).2.1
    · exact (Issues.slot_ends h run halt focus port lanes).2.2
  · rw [step_of_bay halt moves bay, stepBay, if_pos ahead]
    exact (conclude_eq_next _ _).2 ⟨halt, rfl⟩
  · rw [step_of_event halt moves ev, stepEvent, if_pos (by rw [isEvent, event]; rfl)]
    rfl
  · rw [step_of_event halt moves ev, stepEvent, if_neg (by rw [isEvent, word]; exact Bool.false_ne_true)]

end

