-- ==== Sys2Proof/Proofs/LaneSlots.lean ====
section
/-! SUPPORT. A slot whose lanes each change their own thread, as one update of every rig (R8, R66, R70, R182, R350). -/

namespace Sys2Proof.Machine

open Sys2Proof.Spec

/-! Threads by their workgroup, rig and lane. -/

theorem find_of_nodup_key {α : Type} {key : α → Nat} {l : List α} (h : (l.map key).Nodup) {x : α} (hx : x ∈ l) :
    l.find? (fun y => key y == key x) = some x := by
  induction l with
  | nil => exact absurd hx List.not_mem_nil
  | cons y r ih =>
    obtain ⟨out, nodup⟩ := List.nodup_cons.1 h
    rw [List.find?_cons]
    rcases List.mem_cons.1 hx with rfl | hx
    · rw [beq_self_eq_true]
    · have ne : key y ≠ key x := fun e => out (e ▸ List.mem_map_of_mem hx)
      rw [beq_false_of_ne ne]
      exact ih nodup hx

/-- Where no two workgroups share a number, a thread is the one of its lane. -/
theorem State.thread_of_mem {s : State} (ids : (s.wgs.map Workgroup.id).Nodup) {w : Workgroup} (hw : w ∈ s.wgs)
    {r k : Nat} {q : Rig} {t : Thread} (hq : w.rigs[r]? = some q) (ht : q.threads[k]? = some t) :
    s.thread ⟨w.id, r, k⟩ = t := by
  have wg : s.wg? w.id = some w := find_of_nodup_key ids hw
  rw [State.thread, State.rig?, wg, Option.bind_some, hq, Option.bind_some, ht, Option.getD_some]

theorem State.wg?_mapRigs (s : State) (f : Nat → Nat → Rig → Rig) (i : Nat) :
    (s.mapRigs f).wg? i = (s.wg? i).map fun w => { w with rigs := w.rigs.mapIdx fun r q => f w.id r q } := by
  unfold State.wg? State.mapRigs
  rw [List.find?_map]
  rfl

theorem State.wg?_id {s : State} {i : Nat} {w : Workgroup} (h : s.wg? i = some w) : w.id = i :=
  beq_iff_eq.1 (List.find?_some (p := fun w : Workgroup => w.id == i) h)

theorem State.rig?_mapRigs (s : State) (f : Nat → Nat → Rig → Rig) (i r : Nat) :
    (s.mapRigs f).rig? i r = (s.rig? i r).map (f i r) := by
  unfold State.rig?
  rw [State.wg?_mapRigs]
  cases h : s.wg? i with
  | none => rfl
  | some w =>
    simp only [Option.map_some, Option.bind_some, List.getElem?_mapIdx]
    rw [State.wg?_id h]

/-! An update of every thread by its lane. -/

theorem each_congr {s : State} {on on' : LaneRef → Bool} {f f' : LaneRef → Thread → Thread}
    (h : ∀ w ∈ s.wgs, ∀ (r k : Nat) (q : Rig) (t : Thread), w.rigs[r]? = some q → q.threads[k]? = some t →
      (if on ⟨w.id, r, k⟩ then f ⟨w.id, r, k⟩ t else t) = if on' ⟨w.id, r, k⟩ then f' ⟨w.id, r, k⟩ t else t) :
    each s on f = each s on' f' := by
  unfold each
  refine congrArg (fun l => ({ s with wgs := l } : State)) (List.map_congr_left fun w hw => ?_)
  refine congrArg (fun l => ({ w with rigs := l } : Workgroup)) (List.ext_getElem? fun r => ?_)
  rw [List.getElem?_mapIdx, List.getElem?_mapIdx]
  refine Option.map_congr fun q hq => congrArg (fun l => ({ q with threads := l } : Rig)) (List.ext_getElem? fun k => ?_)
  rw [List.getElem?_mapIdx, List.getElem?_mapIdx]
  exact Option.map_congr fun t ht => h w hw r k q t hq ht

theorem each_each (s : State) (on on' : LaneRef → Bool) (f f' : LaneRef → Thread → Thread) :
    each (each s on f) on' f' = each s (fun l => on l || on' l) fun l t =>
      if on' l then f' l (if on l then f l t else t) else f l t := by
  unfold each
  simp only [List.map_map, Function.comp_def, List.mapIdx_mapIdx]
  refine congrArg (fun l => ({ s with wgs := l } : State)) (List.map_congr_left fun w _ => ?_)
  refine congrArg (fun l => ({ w with rigs := l } : Workgroup)) (List.ext_getElem? fun r => ?_)
  rw [List.getElem?_mapIdx, List.getElem?_mapIdx]
  refine Option.map_congr fun q _ => congrArg (fun l => ({ q with threads := l } : Rig)) (List.ext_getElem? fun k => ?_)
  rw [List.getElem?_mapIdx, List.getElem?_mapIdx]
  refine Option.map_congr fun t _ => ?_
  cases on ⟨w.id, r, k⟩ <;> cases on' ⟨w.id, r, k⟩ <;> rfl

theorem mapIdx_self {α : Type} (l : List α) : (l.mapIdx fun _ x => x) = l :=
  List.ext_getElem? fun i => by rw [List.getElem?_mapIdx, Option.map_id_fun', id_eq]

theorem each_none (s : State) (f : LaneRef → Thread → Thread) : each s (fun _ => false) f = s := by
  unfold each
  simp only [Bool.false_eq_true, if_false, mapIdx_self, List.map_id']

/-- An update of one thread is an update of all threads at one lane. -/
theorem State.setThread_eq_each (s : State) (l : LaneRef) (f : Thread → Thread) :
    s.setThread l f = each s (fun m => m == l) fun _ => f := by
  obtain ⟨wg, rig, lane⟩ := l
  unfold State.setThread State.setRig State.setWg each
  refine congrArg (fun l => ({ s with wgs := l } : State)) (List.map_congr_left fun w _ => ?_)
  by_cases e : w.id = wg
  · rw [if_pos (beq_iff_eq.2 e)]
    dsimp only
    rw [← mapIdx_ite_eq_modifyAt]
    refine congrArg (fun l => ({ w with rigs := l } : Workgroup)) (List.ext_getElem? fun r => ?_)
    rw [List.getElem?_mapIdx, List.getElem?_mapIdx]
    refine Option.map_congr fun q _ => ?_
    by_cases er : r = rig
    · rw [if_pos er, ← mapIdx_ite_eq_modifyAt]
      simp [e, er]
    · simp [er, mapIdx_self]
  · rw [if_neg (by simpa using e)]
    simp [e, mapIdx_self]

/-- Updates of the threads of distinct lanes are one update of all threads. -/
theorem State.setThreads_eq_each (s : State) {ls : List LaneRef} (nodup : ls.Nodup) (f : LaneRef → Thread → Thread) :
    s.setThreads ls f = each s ls.contains f := by
  induction ls generalizing s with
  | nil => exact (each_none s f).symm
  | cons l r ih =>
    obtain ⟨out, nodup⟩ := List.nodup_cons.1 nodup
    change (s.setThread l (f l)).setThreads r f = _
    rw [ih _ nodup, State.setThread_eq_each, each_each]
    refine each_congr fun w _ i k q t _ _ => ?_
    by_cases e : (⟨w.id, i, k⟩ : LaneRef) = l
    · rw [e]
      simp [out]
    · by_cases m : (⟨w.id, i, k⟩ : LaneRef) ∈ r <;> simp [e, m]

/-! The lanes that execute. -/

theorem mem_ascending {ls : List LaneRef} {l : LaneRef} : l ∈ ascending ls ↔ l ∈ ls ∧ l.lane < 64 := by
  unfold ascending
  simp only [List.mem_flatMap, List.mem_range, List.mem_eraseDups, List.mem_filter, beq_iff_eq]
  exact ⟨fun ⟨i, lt, hl, e⟩ => ⟨hl, e ▸ lt⟩, fun ⟨hl, lt⟩ => ⟨l.lane, lt, hl, rfl⟩⟩

theorem nodup_eraseDups {α : Type} [BEq α] [LawfulBEq α] (l : List α) : l.eraseDups.Nodup := by
  induction n : l.length using Nat.strong_induction_on generalizing l with
  | _ n ih =>
    cases l with
    | nil => exact List.nodup_nil
    | cons x r =>
      rw [List.eraseDups_cons]
      refine List.nodup_cons.2 ⟨fun h => ?_, ih _ ?_ _ rfl⟩
      · simpa using (List.mem_filter.1 (List.mem_eraseDups.1 h)).2
      · rw [← n]
        exact Nat.lt_succ_of_le (List.length_filter_le _ _)

theorem ascending_nodup (ls : List LaneRef) : (ascending ls).Nodup := by
  refine List.nodup_flatMap.2 ⟨fun i _ => nodup_eraseDups _, List.nodup_range.imp fun {i j} ne => ?_⟩
  intro l hi hj
  simp only [List.mem_eraseDups, List.mem_filter, beq_iff_eq] at hi hj
  exact ne (hi.2.symm.trans hj.2)

theorem mem_running {s : State} {g : Group} {gd : Guard} {l : LaneRef} : l ∈ running s g gd ↔ runs s g gd l = true := by
  unfold running runs
  rw [mem_ascending, List.mem_filter]
  simp only [List.contains_iff_mem, Bool.and_eq_true, decide_eq_true_eq]
  tauto

theorem running_nodup (s : State) (g : Group) (gd : Guard) : (running s g gd).Nodup := ascending_nodup _

theorem contains_running (s : State) (g : Group) (gd : Guard) : (running s g gd).contains = runs s g gd :=
  funext fun l => Bool.eq_iff_iff.2 (by rw [List.contains_iff_mem, mem_running])

/-- No lane is struck. -/
theorem State.strikeAll_nil (s : State) (i : TrapInfo) : s.strikeAll [] i = s := by
  unfold State.strikeAll State.strike
  split
  · rfl
  · rfl

/-- The slot of a ready group executes on the lanes that run (R66, R70). -/
theorem issue_of_ready {s : State} {g : Group} {i : Instr} (h : Ready s g i) (gd : Guard) (f : State → List LaneRef → State) :
    issue i gd s f = conclude (f { s with fresh := s.fresh + 1 } (running s g gd)) := by
  have group : ({ s with fresh := s.fresh + 1 } : State).group? = some g := h.group
  have illegal : g.lanes.filter (fun l => !(({ s with fresh := s.fresh + 1 } : State).legalFor l i)) = [] :=
    List.filter_eq_nil_iff.2 fun l hl => by
      rw [show ({ s with fresh := s.fresh + 1 } : State).legalFor l i = true from h.legal l hl]
      exact Bool.false_ne_true
  have legal : g.lanes.filter (fun l => ({ s with fresh := s.fresh + 1 } : State).legalFor l i) = g.lanes :=
    List.filter_eq_self.2 h.legal
  unfold issue
  simp only [group, illegal, State.strikeAll_nil, legal]
  rfl

/-! What the lanes read. -/

/-- The state in which the lanes of a slot read their operands, which has its number. -/
def readingNow (s : State) (ls : List LaneRef) (ops : List Opnd) : State := { reading s ls ops with fresh := s.fresh + 1 }

/-- Marks of accumulator operands (R218). -/
theorem State.taint_eq_readingNow (s : State) (ls : List LaneRef) (ops : List Opnd) :
    ({ s with fresh := s.fresh + 1 } : State).taint ls ops = readingNow s ls ops := by
  unfold State.taint readingNow reading touched touchedRig
  by_cases acc : ops.any Opnd.isAcc = true
  · simp only [acc, if_true, Bool.true_and]
    rfl
  · simp only [acc, Bool.false_eq_true, if_false, Bool.false_and, List.map_id', mapIdx_self]

/-- A lane reads its operands under the slot's number. -/
theorem env_readingNow (s : State) (ls : List LaneRef) (ops : List Opnd) (l : LaneRef) :
    (readingNow s ls ops).env l = view (reading s ls ops) l := rfl

theorem thread_readingNow (s : State) (ls : List LaneRef) (ops : List Opnd) (l : LaneRef) :
    (readingNow s ls ops).thread l = (reading s ls ops).thread l := rfl

/-! Compared points of protected pairs (R350). -/

theorem foldl_keep {α β : Type} {s : β} {f : β × List α → α → β × List α} {keep : α → Bool} {xs : List α} (acc : List α)
    (h : ∀ acc, ∀ x ∈ xs, f (s, acc) x = (s, if keep x then acc ++ [x] else acc)) :
    xs.foldl f (s, acc) = (s, acc ++ xs.filter keep) := by
  induction xs generalizing acc with
  | nil => rw [List.foldl_nil, List.filter_nil, List.append_nil]
  | cons x r ih =>
    rw [List.foldl_cons, h acc x List.mem_cons_self, ih _ fun acc y hy => h acc y (List.mem_cons_of_mem x hy), List.filter_cons]
    cases keep x
    · rfl
    · rw [if_pos rfl, if_pos rfl, List.append_assoc, List.singleton_append]

/-- Pairs that agree perform their point once, in the primary. -/
theorem State.agree_of_pairs {α : Type} [DecidableEq α] {s : State} {xs : List (LaneRef × α)}
    (h : ∀ x ∈ xs, s.prot x.1.wg = true → ∃ y, xs.find? (fun y => y.1 == mate x.1) = some y ∧ y.2 = x.2) :
    s.agree xs = (s, xs.filter fun x => !(s.prot x.1.wg && decide (x.1.lane % 2 = 1))) := by
  refine (foldl_keep [] fun acc x hx => ?_).trans (by rw [List.nil_append])
  by_cases prot : s.prot x.1.wg = true
  · obtain ⟨y, found, same⟩ := h x hx prot
    by_cases odd : x.1.lane % 2 = 1
    · rw [prot, decide_eq_true odd]
      simp only [prot]
      change (match xs.find? (fun y => y.1 == mate x.1) with | some y => _ | none => _) = _
      rw [found]
      exact if_pos odd
    · rw [prot, decide_eq_false odd]
      simp only [prot]
      change (match xs.find? (fun y => y.1 == mate x.1) with | some y => _ | none => _) = _
      rw [found]
      exact (if_neg odd).trans (if_pos same)
  · simp [prot]

/-- What R350 asks of the rows that lanes write, of new threads `v`: lanes of protected launches write none, or in pairs
the same ones. -/
def rowsAgree (s : State) (ls : List LaneRef) (v : LaneRef → Thread) : Prop :=
  (∀ l ∈ ls, s.prot l.wg = true → (v l).rows = (s.thread l).rows) ∨
    ∀ l ∈ ls, s.prot l.wg = true → mate l ∈ ls ∧ (v (mate l)).rows = (v l).rows

/-- Both lanes of a pair get the result of its primary (R350). -/
theorem mem_twins_of_pairs {s : State} {ls : List LaneRef} {l : LaneRef} (hl : l ∈ ls)
    (pair : s.prot l.wg = true → mate l ∈ ls) :
    ∃ m ∈ ls, (s.prot m.wg && decide (m.lane % 2 = 1)) = false ∧ l ∈ s.twins m := by
  obtain ⟨wg, rig, lane⟩ := l
  by_cases prot : s.prot wg = true
  · by_cases odd : lane % 2 = 1
    · have even : ¬ lane % 2 = 0 := by omega
      refine ⟨_, pair prot, ?_, ?_⟩
      · simp only [mate, if_neg even, Bool.and_eq_false_iff, decide_eq_false_iff_not]
        omega
      · have up : lane = (lane - 1) / 2 * 2 + 1 := by omega
        simp only [State.twins, mate, prot, if_true, if_neg even]
        rw [← up]
        exact List.mem_cons_of_mem _ List.mem_cons_self
    · refine ⟨_, hl, by simp [odd], ?_⟩
      have down : lane = lane / 2 * 2 := by omega
      simp only [State.twins, prot, if_true]
      rw [← down]
      exact List.mem_cons_self
  · refine ⟨_, hl, by simp [prot], ?_⟩
    simp [State.twins, prot]

/-- A slot whose lanes compute writes the new thread of each (R8). -/
theorem State.mapLanes_eq {s : State} {ls : List LaneRef} {f : Env → Thread → Thread}
    (pairs : rowsAgree s ls fun l => f (s.env l) (s.thread l)) :
    s.mapLanes ls f = s.setThreads ls fun l _ => f (s.env l) (s.thread l) := by
  have writes (ok : List LaneRef) (all : ∀ l ∈ ls, l ∈ ok) :
      (ls.map fun l => (l, f (s.env l) (s.thread l))).foldl
        (fun u x => if ok.contains x.1 then u.setThread x.1 (fun _ => x.2) else u) s =
      s.setThreads ls fun l _ => f (s.env l) (s.thread l) := by
    rw [List.foldl_map, State.setThreads]
    exact List.foldl_ext _ _ _ fun u l hl => if_pos (List.contains_iff_mem.2 (all l hl))
  unfold State.mapLanes
  dsimp only
  split
  next compared =>
    have both : ∀ l ∈ ls, s.prot l.wg = true → mate l ∈ ls ∧
        (f (s.env (mate l)) (s.thread (mate l))).rows = (f (s.env l) (s.thread l)).rows := by
      refine pairs.resolve_left fun none => ?_
      obtain ⟨x, hx, differs⟩ := List.any_eq_true.1 compared
      obtain ⟨l, hl, rfl⟩ := List.mem_map.1 hx
      obtain ⟨prot, ne⟩ := Bool.and_eq_true_iff.1 differs
      exact bne_iff_ne.1 ne (none l hl prot)
    have agreed := State.agree_of_pairs (s := s)
        (xs := (ls.map fun l => (l, f (s.env l) (s.thread l))).map fun x => (x.1, x.2.rows)) fun x hx prot => by
      rw [List.map_map] at hx ⊢
      obtain ⟨l, hl, rfl⟩ := List.mem_map.1 hx
      obtain ⟨there, same⟩ := both l hl prot
      refine ⟨(mate l, (f (s.env (mate l)) (s.thread (mate l))).rows), ?_, same⟩
      rw [List.find?_map]
      have found : ls.find? (fun m => m == mate l) = some (mate l) := by
        cases e : ls.find? (fun m => m == mate l) with
        | none => exact absurd (List.find?_eq_none.1 e _ there) (by simp)
        | some m => rw [beq_iff_eq.1 (List.find?_some (p := fun m => m == mate l) e)]
      exact congrArg (Option.map _) found
    rw [agreed]
    refine writes _ fun l hl => ?_
    obtain ⟨m, hm, primary, twin⟩ := mem_twins_of_pairs hl fun prot => (both l hl prot).1
    refine List.mem_flatMap.2 ⟨(m, (f (s.env m) (s.thread m)).rows), List.mem_filter.2 ⟨?_, ?_⟩, twin⟩
    · rw [List.map_map]
      exact List.mem_map_of_mem (f := fun l => (l, (f (s.env l) (s.thread l)).rows)) hm
    · dsimp only
      rw [primary]
      rfl
  next => exact writes ls fun l hl => hl

/-! Threads that a slot changes, as the statements give them. -/

/-- The result of lanes that compute alone from the state in which they read (R66). -/
theorem setThreads_readingNow {s : State} {g : Group} {gd : Guard} (inv : Inv s) (ops : List Opnd) {v : LaneRef → Thread}
    {f : LaneRef → Thread → Thread}
    (h : ∀ l, runs s g gd l = true → v l = f l ((reading s (running s g gd) ops).thread l)) :
    (readingNow s (running s g gd) ops).setThreads (running s g gd) (fun l _ => v l) =
      { each (reading s (running s g gd) ops) (runs s g gd) f with fresh := s.fresh + 1 } := by
  rw [State.setThreads_eq_each _ (running_nodup s g gd), contains_running]
  have ids : ((reading s (running s g gd) ops).wgs.map Workgroup.id).Nodup := by
    rw [reading, List.map_map]
    exact inv.ids
  refine (each_congr (s := readingNow s (running s g gd) ops) (f' := f) fun w hw r k q t hq ht => ?_).trans rfl
  split
  next run => rw [h _ run, State.thread_of_mem ids hw hq ht]
  next => rfl

end Sys2Proof.Machine
end

