-- ==== Sys2Proof/Proofs/SystemRegisters.lean ====
section
/-! The registers of the system (R170 to R195): slots whose lanes compute alone, and what their operands do not change. -/

namespace Sys2Proof.Machine

open Sys2Proof.Spec

/-! Reading operands changes only the rows of threads, the marks on commands and the windows on tile sets. -/

section
variable (s : State) (ls : List LaneRef) (ops : List Opnd)

theorem wg?_reading (i : Nat) : (reading s ls ops).wg? i =
    (s.wg? i).map fun w => { w with rigs := w.rigs.mapIdx fun r q => touchedRig s ls ops w.id r q } :=
  s.wg?_mapRigs (touchedRig s ls ops) i

theorem rig?_reading (i r : Nat) : (reading s ls ops).rig? i r = (s.rig? i r).map (touchedRig s ls ops i r) :=
  s.rig?_mapRigs (touchedRig s ls ops) i r

theorem launchOf?_reading (i : Nat) : (reading s ls ops).launchOf? i = s.launchOf? i := by
  unfold State.launchOf?
  rw [wg?_reading, Option.bind_map]
  rfl

theorem prot_reading (i : Nat) : (reading s ls ops).prot i = s.prot i := by
  unfold State.prot
  rw [launchOf?_reading]

theorem tidOf_reading (l : LaneRef) : (reading s ls ops).tidOf l = s.tidOf l := by
  unfold State.tidOf
  simp only [prot_reading]

theorem tframe_reading (l : LaneRef) : (reading s ls ops).tframe l = s.tframe l := by
  unfold State.tframe
  rw [launchOf?_reading, wg?_reading, tidOf_reading]
  cases s.wg? l.wg <;> cases s.launchOf? l.wg <;> rfl

theorem spoil_eq (t : Thread) (fresh lane : Nat) (sets : List Nat) :
    t.spoil fresh lane sets = { t with rows := (t.spoil fresh lane sets).rows } := rfl

/-- A slot that reaches tile sets leaves its rig as it is but for windows and rows (R218). -/
theorem touchedRig_eq (i r : Nat) (q : Rig) : ∃ (windows : List AccWindow) (rows : Nat → Thread → Map Word), touchedRig s ls ops i r q = { q with
    windows := windows, threads := q.threads.mapIdx fun k t => { t with rows := rows k t } } := by
  have same : q = { q with windows := q.windows, threads := q.threads.mapIdx fun _ t => { t with rows := t.rows } } := by
    rw [mapIdx_self]
  unfold touchedRig
  split
  case isFalse => exact ⟨_, _, same⟩
  by_cases hit : (q.windows.any fun v => v.sets.contains q.aset.toNat && (lanesIn ls i r).any v.lanes.contains) = true
  · refine ⟨(q.touch (s.fresh + 1) q.aset.toNat (lanesIn ls i r)).windows,
      fun k t => (t.spoil (s.fresh + 1) k [q.aset.toNat]).rows, ?_⟩
    simp only [← spoil_eq]
    unfold Rig.touch
    simp only [hit, if_true]
  · exact ⟨_, _, (if_neg hit).trans same⟩

theorem rig?_reading_map {α : Type} (f : Rig → α) (keep : ∀ q windows threads, f { q with windows := windows, threads := threads } = f q)
    (i r : Nat) : ((reading s ls ops).rig? i r).map f = (s.rig? i r).map f := by
  rw [rig?_reading, Option.map_map]
  refine Option.map_congr fun q _ => ?_
  obtain ⟨windows, rows, touched⟩ := touchedRig_eq s ls ops i r q
  rw [Function.comp_apply, touched, keep]

theorem thread_reading (l : LaneRef) : ∃ rows, (reading s ls ops).thread l = { s.thread l with rows := rows } := by
  unfold State.thread
  rw [rig?_reading]
  cases s.rig? l.wg l.rig with
  | none => exact ⟨_, rfl⟩
  | some q =>
    obtain ⟨windows, rows, touched⟩ := touchedRig_eq s ls ops l.wg l.rig q
    rw [Option.map_some, Option.bind_some, Option.bind_some, touched, List.getElem?_mapIdx]
    cases q.threads[l.lane]? with
    | none => exact ⟨_, rfl⟩
    | some t => exact ⟨rows l.lane t, rfl⟩

theorem reading_nil : reading s ls [] = s := by
  unfold reading touched touchedRig
  simp only [List.any_nil, Bool.false_and, Bool.false_eq_true, if_false, List.map_id', mapIdx_self]

theorem wg?_reading_map {α : Type} (f : Workgroup → α) (keep : ∀ w rigs, f { w with rigs := rigs } = f w) (i : Nat) :
    ((reading s ls ops).wg? i).map f = (s.wg? i).map f := by
  rw [wg?_reading, Option.map_map]
  exact Option.map_congr fun w _ => keep w _

theorem laneNo_reading (l : LaneRef) : laneNo (reading s ls ops) l = laneNo s l := by
  unfold laneNo
  rw [prot_reading]

/-- A special register keeps its value as a slot reads its operands (R170). -/
theorem specialValue_reading (l : LaneRef) (r : SReg) : specialValue (reading s ls ops) l r = specialValue s l r := by
  obtain ⟨rows, thread⟩ := thread_reading s ls ops l
  have wg {α : Type} (f : Workgroup → α) := wg?_reading_map s ls ops f (i := l.wg)
  have rig {α : Type} (f : Rig → α) := rig?_reading_map s ls ops f (i := l.wg) (r := l.rig)
  unfold specialValue
  cases r
  case wgid => exact congrArg (Option.getD · 0) (wg _ fun _ _ => rfl)
  case pkperm => exact congrArg (Option.getD · 0) (wg _ fun _ _ => rfl)
  case core => exact congrArg (Option.getD · 0) (wg _ fun _ _ => rfl)
  case die => exact congrArg (Option.getD · 0) (wg _ fun _ _ => rfl)
  case rowprog => exact congrArg (Option.getD · 0) (rig _ fun _ _ _ => rfl)
  case aset => exact congrArg (Option.getD · 0) (rig _ fun _ _ _ => rfl)
  case bay => exact congrArg (Option.getD · 0) (rig _ fun _ _ _ => rfl)
  all_goals simp only [launchOf?_reading, prot_reading, tframe_reading, laneNo_reading, thread]
  rfl

/-- A special register has the value of R170. -/
theorem special_eq_specialValue (l : LaneRef) (r : SReg) :
    ({ s with fresh := s.fresh + 1 } : State).special l r = specialValue s l r := by
  unfold State.special specialValue
  cases r
  case launch => exact congrArg (Option.getD · 0) (Option.map_map ..)
  case graph => exact congrArg (Option.getD · 0) (Option.map_map ..)
  case phase => exact congrArg (Option.getD · 0) (Option.map_map ..)
  case job => exact congrArg (Option.getD · 0) (Option.map_map ..)
  case die =>
    change dieOf (((s.wg? l.wg).map Workgroup.core).getD 0) = _
    cases s.wg? l.wg <;> rfl
  all_goals rfl

theorem tokenOf_reading (l : LaneRef) (k : Nat) :
    ({ s with fresh := s.fresh + 1 } : State).tokView l k = tokenOf (reading s ls ops) l k := by
  obtain ⟨rows, thread⟩ := thread_reading s ls ops l
  have rig := rig?_reading_map s ls ops (fun q => Map.get 0 q.tok k) (fun _ _ _ => rfl) l.wg l.rig
  unfold tokenOf
  rw [rig, thread]
  rfl

end

/-! Instructions whose lanes compute alone. -/

/-- Lanes that compute alone have the effect that a table gives, where the new threads are the same (R8, R66). -/
theorem issue_of_mapLanes {i : Instr} {x : Effect} {s : State} {g : Group} {F : State → List LaneRef → State}
    {f : Env → Thread → Thread} (h : Ready s g i) (leaves : x.leaves = false) (agree : pairsAgree s g x)
    (run : F { s with fresh := s.fresh + 1 } (running s g x.gd) =
      (readingNow s (running s g x.gd) x.ops).mapLanes (running s g x.gd) f)
    (value : ∀ l, runs s g x.gd l = true → f (view (x.start s g) l) ((x.start s g).thread l) =
      x.f (x.start s g) (running s g x.gd) l ((x.start s g).thread l)) :
    issue i x.gd s F = .next (x.result s g) := by
  have rows : rowsAgree (readingNow s (running s g x.gd) x.ops) (running s g x.gd)
      fun l => f ((readingNow s (running s g x.gd) x.ops).env l) ((readingNow s (running s g x.gd) x.ops).thread l) := by
    unfold pairsAgree at agree
    rw [leaves] at agree
    have prot (l : LaneRef) : (readingNow s (running s g x.gd) x.ops).prot l.wg = s.prot l.wg :=
      prot_reading s (running s g x.gd) x.ops l.wg
    have new (l : LaneRef) (run : runs s g x.gd l = true) := congrArg Thread.rows (value l run)
    refine agree.imp (fun same l hl pr => ?_) fun both l hl pr => ?_
    · have run := mem_running.1 hl
      exact (new l run).trans (same l run ((prot l).symm.trans pr))
    · have run := mem_running.1 hl
      obtain ⟨there, eq⟩ := both l run ((prot l).symm.trans pr)
      exact ⟨mem_running.2 there, (new _ there).trans (eq.trans (new l run).symm)⟩
  have new := setThreads_readingNow h.inv x.ops (f := x.f (x.start s g) (running s g x.gd))
    (v := fun l => f ((readingNow s (running s g x.gd) x.ops).env l) ((readingNow s (running s g x.gd) x.ops).thread l)) value
  rw [issue_of_ready h, run, State.mapLanes_eq rows, new]
  refine (conclude_eq_next _ _).2 ⟨h.halt, ?_⟩
  unfold Effect.result
  simp only [leaves]
  rfl

theorem taint_mapLanes (s : State) (ls : List LaneRef) (ops : List Opnd) (f : Env → Thread → Thread) :
    (({ s with fresh := s.fresh + 1 } : State).taint ls ops).mapLanes ls f = (readingNow s ls ops).mapLanes ls f := by
  rw [State.taint_eq_readingNow]

/-- Lanes that compute from their operands and their own state alone (R8). -/
theorem issue_of_alone {i : Instr} {x : Effect} {s : State} {g : Group} {gd : Guard} {ops : List Opnd}
    {f : Env → Thread → Thread} (hx : alone gd ops f = some x) (h : Ready s g i) (agree : pairsAgree s g x) :
    issue i gd s (fun s ls => (s.taint ls ops).mapLanes ls f) = .next (x.result s g) := by
  obtain rfl := Option.some.inj hx
  exact issue_of_mapLanes h rfl agree (taint_mapLanes s _ ops f) fun _ _ => rfl

theorem wide_eq_twoWords (r : SReg) : r.wide = twoWords r := by cases r <;> rfl

section
variable {s : State} {g : Group} {x : Effect}

/-- MOVS reads a special register (R170). -/
theorem movs_next {gd : Guard} {d : Opnd} {r : SReg} (hx : system (.movs gd d r) = some x)
    (h : Ready s g (.movs gd d r)) (agree : pairsAgree s g x) : exec (.movs gd d r) s = .next (x.result s g) := by
  obtain rfl := Option.some.inj hx
  change execMovs gd d r s = _
  unfold execMovs
  refine issue_of_mapLanes h rfl agree (taint_mapLanes s _ [d] _) fun l _ => ?_
  dsimp only [Effect.start]
  rw [wide_eq_twoWords, specialValue_reading, show (view (reading s (running s g gd) [d]) l).lane = l from rfl,
    special_eq_specialValue]

/-- MOVSW writes the sticky status or the stochastic register (R106, R108). -/
theorem movsw_status_next {gd : Guard} {a : Opnd} (hx : system (.movsw gd .status a) = some x)
    (h : Ready s g (.movsw gd .status a)) (agree : pairsAgree s g x) :
    exec (.movsw gd .status a) s = .next (x.result s g) := issue_of_alone hx h agree

theorem movsw_lfsr_next {gd : Guard} {a : Opnd} (hx : system (.movsw gd .lfsr a) = some x)
    (h : Ready s g (.movsw gd .lfsr a)) (agree : pairsAgree s g x) :
    exec (.movsw gd .lfsr a) s = .next (x.result s g) := issue_of_alone hx h agree

/-- TCNT reads the token of its thread and rig (R185). -/
theorem tcnt_next {gd : Guard} {k : BitVec 3} {d : Opnd} (hx : system (.tcnt gd k d) = some x)
    (h : Ready s g (.tcnt gd k d)) (agree : pairsAgree s g x) : exec (.tcnt gd k d) s = .next (x.result s g) := by
  obtain rfl := Option.some.inj hx
  change execTcnt gd k d s = _
  unfold execTcnt
  refine issue_of_mapLanes h rfl agree (taint_mapLanes s _ [d] _) fun l _ => ?_
  dsimp only [Effect.start]
  rw [show (view (reading s (running s g gd) [d]) l).lane = l from rfl, tokenOf_reading s (running s g gd) [d]]

/-- CHWP reads a channel of the workgroup (R273). -/
theorem chwp_next {gd : Guard} {d a : Opnd} (hx : system (.chwp gd d a) = some x) (h : Ready s g (.chwp gd d a))
    (ok : ∀ l, runs s g x.gd l = true → x.ok (x.start s g) l = true) (agree : pairsAgree s g x) :
    exec (.chwp gd d a) s = .next (x.result s g) := by
  obtain rfl := Option.some.inj hx
  change execChwp gd d a s = _
  unfold execChwp
  refine issue_of_mapLanes h rfl agree (f := fun e t => e.put t d
    ((((readingNow s (running s g gd) [d, a]).wg? e.lane.wg).map fun w =>
      Map.get 0#32 w.chans (reads (reading s (running s g gd) [d, a]) a e.lane).toNat).getD 0#32)) ?_ fun l _ => rfl
  dsimp only
  rw [State.taint_eq_readingNow]
  refine if_neg fun out => ?_
  obtain ⟨l, hl, far⟩ := List.any_eq_true.1 out
  have near := of_decide_eq_true (ok l (mem_running.1 hl))
  exact Nat.not_lt.2 near (of_decide_eq_true far)

theorem owner_vf (s : State) (l : LaneRef) : (s.owner l).1 = ((s.launchOf? l.wg).map Launch.vf).getD 0 := by
  unfold State.owner
  cases s.launchOf? l.wg <;> rfl

/-- CTRD reads a counter of the function of the launch (R331). -/
theorem ctrd_next {gd : Guard} {d a : Opnd} (hx : system (.ctrd gd d a) = some x) (h : Ready s g (.ctrd gd d a))
    (ok : ∀ l, runs s g x.gd l = true → x.ok (x.start s g) l = true) (agree : pairsAgree s g x) :
    exec (.ctrd gd d a) s = .next (x.result s g) := by
  obtain rfl := Option.some.inj hx
  have near (l : LaneRef) (hl : l ∈ running s g gd) : (reads (reading s (running s g gd) [d, a]) a l).toNat ≤ 3 :=
    of_decide_eq_true (ok l (mem_running.1 hl))
  change execCtrd gd d a s = _
  unfold execCtrd
  refine issue_of_mapLanes h rfl agree (f := fun e t => e.put64 t d (BitVec.ofNat 64
    ((((readingNow s (running s g gd) [d, a]).vf ((readingNow s (running s g gd) [d, a]).owner e.lane).1).ctrs.cnt.getD
      (reads (reading s (running s g gd) [d, a]) a e.lane).toNat 0)))) ?_ fun l _ => ?_
  · have none : (running s g gd).filter (fun l => decide (3 < (((readingNow s (running s g gd) [d, a]).env l).src
        ((readingNow s (running s g gd) [d, a]).thread l) a).toNat)) = [] :=
      List.filter_eq_nil_iff.2 fun l hl far => Nat.not_lt.2 (near l hl) (of_decide_eq_true far)
    have all : (running s g gd).filter (fun l => decide ((((readingNow s (running s g gd) [d, a]).env l).src
        ((readingNow s (running s g gd) [d, a]).thread l) a).toNat ≤ 3)) = running s g gd :=
      List.filter_eq_self.2 fun l hl => decide_eq_true (near l hl)
    dsimp only
    rw [State.taint_eq_readingNow, none, all, State.strikeAll_nil]
    rfl
  · rw [owner_vf]
    rfl

theorem waits_eq_relPart (o : Order) : waits o = relPart o := by cases o <;> rfl
theorem acquires_eq_acqPart (o : Order) : acquires o = acqPart o := by cases o <;> rfl

theorem each_id (s : State) (on : LaneRef → Bool) : each s on (fun _ t => t) = s :=
  (each_congr fun w _ r k q t _ _ => by rw [ite_self]; rfl).trans (each_none s fun _ t => t)

/-- The thread of a lane after a fence (R195). -/
def fenced (o : Order) (t : Thread) : Thread := if acquires o then { t with readfloor := max t.readfloor t.seenPub } else t

/-- FENCE raises the read floor where it acquires, once its release part need not wait (R195). -/
theorem fence_next {gd : Guard} {sc : Scope} {o : Order} (hx : system (.fence gd sc o) = some x)
    (h : Ready s g (.fence gd sc o)) (ok : ∀ l, runs s g x.gd l = true → x.ok (x.start s g) l = true) :
    exec (.fence gd sc o) s = .next (x.result s g) := by
  obtain rfl := Option.some.inj hx
  rw [Effect.start] at ok
  simp only [reading_nil] at ok
  have done : (relPart o && !((running s g gd).all fun l => ({ s with fresh := s.fresh + 1 } : State).released l sc)) = false := by
    rw [Bool.and_eq_false_iff, Bool.not_eq_false', List.all_eq_true]
    cases order : relPart o with
    | false => exact .inl rfl
    | true =>
      refine .inr fun l hl => ?_
      have released := ok l (mem_running.1 hl)
      rw [waits_eq_relPart, order] at released
      exact released
  have result : Effect.result { gd := gd, ops := [], f := fun _ _ _ => fenced o } s g =
      { each s (runs s g gd) (fun _ => fenced o) with fresh := s.fresh + 1 } := by
    unfold Effect.result Effect.start
    simp only [reading_nil]
    rfl
  change execFence gd sc o s = .next (Effect.result { gd := gd, ops := [], f := fun _ _ _ => fenced o } s g)
  rw [result, execFence, issue_of_ready h, done, if_neg Bool.false_ne_true, ← acquires_eq_acqPart]
  unfold fenced
  refine (conclude_eq_next _ _).2 ?_
  cases acquires o with
  | true =>
    simp only [if_true]
    rw [State.setThreads_eq_each _ (running_nodup s g gd), contains_running]
    exact ⟨h.halt, rfl⟩
  | false =>
    simp only [Bool.false_eq_true, if_false]
    rw [each_id]
    exact ⟨h.halt, rfl⟩

end

/-- The registers of the system, FENCE without a wait, and the reads of tokens, channels and counters. -/
theorem system_computes : Computes system := by
  intro i x s g hx _ h ok agree
  have table := hx
  unfold system at table
  split at table
  · exact movs_next hx h agree
  · exact movsw_status_next hx h agree
  · exact movsw_lfsr_next hx h agree
  · exact fence_next hx h ok
  · exact tcnt_next hx h agree
  · exact chwp_next hx h ok agree
  · exact ctrd_next hx h ok agree
  · exact absurd table nofun

/-! TWAIT (R185). -/

/-- The publication times of the acquires counted in the tokens of a mask (R215). -/
def Rig.floorOf (q : Rig) (mask : Nat) : Nat :=
  (List.range 8).foldl (fun n k => if bit mask k then max n (Map.get 0 q.tokPub k) else n) 0

theorem le_foldl_max (p : Nat → Bool) (f : Nat → Nat) (ks : List Nat) (n : Nat) :
    n ≤ ks.foldl (fun n k => if p k then max n (f k) else n) n ∧
      ∀ k ∈ ks, p k = true → f k ≤ ks.foldl (fun n k => if p k then max n (f k) else n) n := by
  induction ks generalizing n with
  | nil => exact ⟨le_rfl, fun k hk => absurd hk List.not_mem_nil⟩
  | cons j r ih =>
    rw [List.foldl_cons]
    obtain ⟨start, rest⟩ := ih (if p j then max n (f j) else n)
    have grows : n ≤ if p j then max n (f j) else n := by
      split
      · exact le_max_left _ _
      · exact le_rfl
    refine ⟨grows.trans start, fun k hk hp => ?_⟩
    rcases List.mem_cons.1 hk with rfl | hk
    · refine le_trans ?_ start
      rw [if_pos hp]
      exact le_max_right _ _
    · exact rest k hk hp

theorem Rig.tokPub_le_floorOf (q : Rig) {mask k : Nat} (lt : k < 8) (named : bit mask k = true) :
    Map.get 0 q.tokPub k ≤ q.floorOf mask :=
  (le_foldl_max (bit mask) (Map.get 0 q.tokPub) (List.range 8) 0).2 k (List.mem_range.2 lt) named

/-- Lanes that find their tokens at zero take the read floor, and the rows of tile sets reached meanwhile are unspecified
(R215, R218). -/
theorem Rig.tokenWait_threads (q : Rig) (fresh mask : Nat) (lanes : List Nat) : ∃ rows : Nat → Thread → Map Word,
    (q.tokenWait fresh mask lanes).threads = q.threads.mapIdx fun i t =>
      if lanes.contains i then { t with rows := rows i t, readfloor := max t.readfloor (q.floorOf mask) } else t := by
  by_cases nobody : lanes.isEmpty = true
  · refine ⟨fun _ t => t.rows, ?_⟩
    rw [Rig.tokenWait, if_pos nobody, List.isEmpty_iff.1 nobody]
    simp only [List.contains_nil, Bool.false_eq_true, if_false, mapIdx_self]
  · by_cases idle : q.floorOf mask = 0 ∧ q.windows.isEmpty = true
    · refine ⟨fun _ t => t.rows, ?_⟩
      rw [Rig.tokenWait, if_neg nobody, idle.1]
      simp only [Nat.max_zero, ite_self, mapIdx_self]
      exact if_pos idle
    · refine ⟨fun i t => (t.spoil fresh i ((q.windows.filter fun v =>
        v.touched && (bit mask v.tok && lanes.contains i && v.lanes.contains i)).flatMap AccWindow.sets)).rows, ?_⟩
      rw [Rig.tokenWait, if_neg nobody]
      exact if_neg idle

theorem mem_lanesIn {ls : List LaneRef} {l : LaneRef} : l.lane ∈ lanesIn ls l.wg l.rig ↔ l ∈ ls := by
  unfold lanesIn
  rw [List.mem_map]
  refine ⟨fun ⟨m, hm, e⟩ => ?_, fun hl => ⟨l, List.mem_filter.2 ⟨hl, by simp⟩, rfl⟩⟩
  obtain ⟨hm, same⟩ := List.mem_filter.1 hm
  simp only [Bool.and_eq_true, beq_iff_eq] at same
  cases m
  cases l
  simp_all

section
variable (s : State) {mask : Nat} (named : mask ≠ 0) (ls : List LaneRef) (l : LaneRef)
include named

/-- The thread of a lane after a wait for tokens (R183). -/
theorem State.thread_tokenWait : ∃ rows : Nat → Thread → Map Word, (s.tokenWait mask ls).thread l =
    ((s.rig? l.wg l.rig).bind fun q => (q.threads[l.lane]?).map fun t =>
      if ls.contains l then { t with rows := rows l.lane t, readfloor := max t.readfloor (q.floorOf mask) } else t).getD
      Thread.absent := by
  have rig : (s.tokenWait mask ls).rig? l.wg l.rig =
      (s.rig? l.wg l.rig).map fun q => q.tokenWait s.fresh mask (lanesIn ls l.wg l.rig) := by
    rw [State.tokenWait, if_neg named]
    exact State.rig?_mapRigs _ _ _ _
  have here : (lanesIn ls l.wg l.rig).contains l.lane = ls.contains l :=
    Bool.eq_iff_iff.2 (by rw [List.contains_iff_mem, List.contains_iff_mem, mem_lanesIn])
  rw [State.thread, rig]
  cases s.rig? l.wg l.rig with
  | none => exact ⟨fun _ t => t.rows, rfl⟩
  | some q =>
    obtain ⟨rows, threads⟩ := q.tokenWait_threads s.fresh mask (lanesIn ls l.wg l.rig)
    refine ⟨rows, ?_⟩
    rw [Option.map_some, Option.bind_some, Option.bind_some, threads, List.getElem?_mapIdx, here]

theorem State.thread_tokenWait_of_not_mem (out : l ∉ ls) : (s.tokenWait mask ls).thread l = s.thread l := by
  obtain ⟨rows, thread⟩ := s.thread_tokenWait named ls l
  rw [thread, State.thread]
  simp [out]

theorem State.thread_tokenWait_of_mem (hl : l ∈ ls) : ∃ rows floor, (s.tokenWait mask ls).thread l =
      { s.thread l with rows := rows, readfloor := max (s.thread l).readfloor floor } ∧
    ∀ q, s.rig? l.wg l.rig = some q → q.floorOf mask ≤ floor ∨ (s.thread l).life = .absent := by
  obtain ⟨rows, thread⟩ := s.thread_tokenWait named ls l
  rw [thread]
  unfold State.thread
  cases s.rig? l.wg l.rig with
  | none => exact ⟨Thread.absent.rows, 0, rfl, fun q h => absurd h nofun⟩
  | some q =>
    simp only [Option.bind_some, List.contains_iff_mem.2 hl, if_true]
    cases q.threads[l.lane]? with
    | none => exact ⟨Thread.absent.rows, 0, rfl, fun _ _ => .inr rfl⟩
    | some t => exact ⟨rows l.lane t, q.floorOf mask, rfl, fun p h => .inl (by rw [Option.some.inj h])⟩

end

/-- The tokens that a slot names are zero (R183). -/
theorem State.tokensZero_of_tokenOf {s : State} {l : LaneRef} {m : BitVec 8}
    (h : ∀ k, k < 8 → m.getLsbD k = true → tokenOf s l k = 0) :
    ({ s with fresh := s.fresh + 1 } : State).tokensZero l m.toNat = true := by
  refine List.all_eq_true.2 fun k hk => ?_
  rw [bit_eq_testBit]
  cases named : m.toNat.testBit k with
  | false => rfl
  | true => exact beq_iff_eq.2 (h k (List.mem_range.1 hk) named)

/-- TWAIT of tokens that are zero (R183, R185, R215). -/
theorem twait_next {gd : Guard} {m : BitVec 8} {s : State} {g : Group} (h : Ready s g (.twait gd m))
    (zero : ∀ l, runs s g gd l = true → ∀ k, k < 8 → m.getLsbD k = true → tokenOf s l k = 0) :
    exec (.twait gd m) s = .next (({ s with fresh := s.fresh + 1 } : State).tokenWait m.toNat (running s g gd)) := by
  have all : ((running s g gd).all fun l => ({ s with fresh := s.fresh + 1 } : State).tokensZero l m.toNat) = true :=
    List.all_eq_true.2 fun l hl => State.tokensZero_of_tokenOf (zero l (mem_running.1 hl))
  change execTwait gd m s = _
  rw [execTwait, issue_of_ready h, all, if_pos rfl]
  refine (conclude_eq_next _ _).2 ⟨?_, rfl⟩
  unfold State.tokenWait
  split <;> exact h.halt

end Sys2Proof.Machine

open Sys2Proof Sys2Proof.Machine Sys2Proof.Spec

/-- Settles O30: slots whose lanes compute alone, and the wait of lanes whose tokens are zero. -/
theorem systemRegisters : Obligations.SystemRegisters := by
  unfold Obligations.SystemRegisters
  refine ⟨system_computes, fun gd m s g h zero => ⟨_, twait_next h zero, ?_⟩⟩
  by_cases named : m.toNat = 0
  · have none (k : Nat) (hk : m.getLsbD k = true) : False := by
      rw [BitVec.getLsbD, named, Nat.zero_testBit] at hk
      exact Bool.false_ne_true hk
    rw [State.tokenWait, if_pos named]
    exact ⟨fun l _ => ⟨rfl, rfl, rfl, rfl, rfl, rfl, rfl, rfl, rfl, rfl, le_rfl⟩, fun l _ k q _ hk => (none k hk).elim,
      fun l _ => rfl, rfl, rfl, rfl, rfl, rfl, rfl⟩
  · have frame (p : State → Prop) (same : ∀ tracks wgs, p { s with fresh := s.fresh + 1, tracks := tracks, wgs := wgs }) :
        p (({ s with fresh := s.fresh + 1 } : State).tokenWait m.toNat (running s g gd)) := by
      rw [State.tokenWait, if_neg named]
      exact same _ _
    refine ⟨fun l run => ?_, fun l run k q lt hk rig => ?_, fun l out => ?_, frame (·.cores = s.cores) fun _ _ => rfl,
      frame (·.mem = s.mem) fun _ _ => rfl, frame (·.loads = s.loads) fun _ _ => rfl,
      frame (·.stores = s.stores) fun _ _ => rfl, frame (·.cmds = s.cmds) fun _ _ => rfl,
      frame (·.copies = s.copies) fun _ _ => rfl⟩
    · obtain ⟨rows, floor, thread, -⟩ := State.thread_tokenWait_of_mem { s with fresh := s.fresh + 1 } named _ l
        (mem_running.2 run)
      rw [thread]
      exact ⟨rfl, rfl, rfl, rfl, rfl, rfl, rfl, rfl, rfl, rfl, le_max_left _ _⟩
    · obtain ⟨rows, floor, thread, high⟩ := State.thread_tokenWait_of_mem { s with fresh := s.fresh + 1 } named _ l
        (mem_running.2 run)
      rw [thread]
      have bitK : bit m.toNat k = true := by rw [bit_eq_testBit]; exact hk
      exact (high q rig).imp (fun le => (q.tokPub_le_floorOf lt bitK).trans (le.trans (le_max_right _ _))) id
    · refine State.thread_tokenWait_of_not_mem { s with fresh := s.fresh + 1 } named _ l fun hl => ?_
      rw [mem_running.1 hl] at out
      exact Bool.false_ne_true out.symm

end

