-- ==== Sys2Proof/Proofs/MemoryWork.lean ====
section
/-! SUPPORT. What writes of the hardware, reports and translations leave of the work of the cores (R290 to R312). -/

namespace Sys2Proof.Machine

/-- The work of the cores: what no write at a home, no notification and no translation for a fetch changes. -/
structure Work where
  wgs : List Workgroup
  cores : List Core
  loads : List PendingLoad
  stores : List PendingStore
  cmds : List Cmd
  ringMsgs : List RingMsg
  launches : List Launch
  dies : List Die
  time : Nat
  focus : Nat × Nat

def State.work (s : State) : Work :=
  ⟨s.wgs, s.cores, s.loads, s.stores, s.cmds, s.ringMsgs, s.launches, s.dies, s.time, s.focus⟩

theorem work_foldl {α : Type} {f : State → α → State} (h : ∀ s x, (f s x).work = s.work) (l : List α) (s : State) :
    (l.foldl f s).work = s.work :=
  List.foldlRecOn (motive := fun t => t.work = s.work) l f rfl fun t ht x _ => (h t x).trans ht

theorem CountersOnly.work {s t : State} (h : CountersOnly s t) : t.work = s.work := by
  obtain ⟨_, _, _, rfl⟩ := h
  rfl

/-! Writes at a home (R301 to R303, R342). -/

theorem checkPa_work (s : State) (pa : Nat) : (checkPa s pa).work = s.work := by
  unfold checkPa
  split <;> rfl

theorem State.monitor_work (s : State) (pa : Nat) (data : List Byte) : (s.monitor pa data).work = s.work := by
  unfold State.monitor
  dsimp only
  split
  · rfl
  split <;> rfl

theorem State.putSector_work (s : State) (w : Writer) (bad : Bool) (pa : Nat) (data : List Byte) :
    (s.putSector w bad pa data).work = s.work := s.monitor_work pa data

theorem State.mirrorLine_work (s : State) (w : Writer) (id line : Nat) : (s.mirrorLine w id line).work = s.work := by
  unfold State.mirrorLine
  split
  · rfl
  dsimp only
  split <;> rfl

theorem State.publishLine_work (s : State) (w : Writer) (id line : Nat) : (s.publishLine w id line).work = s.work := rfl

theorem State.putLines_work (s : State) (w : Writer) (id pa n : Nat) : (s.putLines w id pa n).work = s.work := by
  unfold State.putLines
  split
  · rfl
  · exact work_foldl (fun s line => (State.publishLine_work _ w id line).trans (s.mirrorLine_work w id line)) _ s

/-! Notifications (R312). -/

theorem State.putRecord_work (s : State) (pa : Nat) (r : List Byte) : (s.putRecord pa r).work = s.work := by
  unfold State.putRecord
  split
  · rfl
  · exact (State.putLines_work _ _ _ _ _).trans (State.putSector_work _ _ _ _ _)

theorem State.setNq_work (s : State) (fn : Nat) (q : Nq) : (s.setNq fn q).work = s.work := by
  unfold State.setNq
  split <;> rfl

theorem State.writeNq_work (s : State) (fn n : Nat) : (s.writeNq fn n).work = s.work := by
  induction n generalizing s with
  | zero => rfl
  | succ n ih =>
    unfold State.writeNq
    dsimp only
    split
    · rfl
    split
    · rfl
    refine (ih _).trans ((State.putRecord_work _ _ _).trans ?_)
    split
    · exact (State.setNq_work _ _ _).trans (State.setNq_work _ _ _)
    · exact State.setNq_work _ _ _

theorem State.pumpNq_work (s : State) (fn : Nat) : (s.pumpNq fn).work = s.work := by
  unfold State.pumpNq
  dsimp only
  split
  · exact State.writeNq_work _ _ _
  · exact (State.writeNq_work _ _ _).trans (State.writeNq_work _ _ _)

theorem State.notify_work (s : State) (fn : Nat) (r : List Byte) : (s.notify fn r).work = s.work :=
  (State.pumpNq_work _ _).trans (State.setNq_work _ _ _)

theorem State.reportChecks_work (s : State) (pa n : Nat) : (s.reportChecks pa n).work = s.work :=
  work_foldl (fun s _ => s.notify_work _ _) _ s

/-! Writes of the hardware (R295, R297). -/

theorem State.count_work (s : State) (v event n : Nat) : (s.count v event n).work = s.work :=
  (s.count_countersOnly v event n).work

theorem State.countLink_work (s : State) (pa : Nat) : (s.countLink pa).work = s.work := by
  unfold State.countLink
  split
  · exact (State.count_work _ _ _ _).trans (State.count_work _ _ _ _)
  · rfl

theorem State.writeSector_work (s : State) (w : Writer) (pa : Nat) (data : List Byte) :
    (s.writeSector w pa data).work = s.work := (State.putSector_work _ _ _ _ _).trans (State.reportChecks_work _ _ _)

theorem State.homeWrite_work (s : State) {w : Writer} (hw : w.lane = none) (id pa : Nat) (data : List Byte) :
    (s.homeWrite w id pa data).work = s.work := by
  have sectors (t : State) (l : List (Nat × List Byte)) :
      (l.foldl (fun (s : State) c => s.writeSector w c.1 c.2) t).work = t.work :=
    work_foldl (f := fun (s : State) (c : Nat × List Byte) => s.writeSector w c.1 c.2) (fun s c => s.writeSector_work w c.1 c.2) l t
  unfold State.homeWrite
  dsimp only
  rw [State.putLines_work, sectors, if_neg (by rw [hw]; exact Bool.false_ne_true), State.countLink_work, checkPa_work]

theorem State.hwWrite_work (s : State) (upd quiet : Bool) (pa : Nat) (data : List Byte) :
    (s.hwWrite upd quiet pa data).2.work = s.work :=
  State.homeWrite_work s.take.2 (w := .hw upd false quiet) rfl s.take.1 pa data

/-! Translation (R290 to R300). -/

theorem State.useDie_work (s : State) (tag : CtxTag) (die : Nat) : (s.useDie tag die).work = s.work := by
  unfold State.useDie
  dsimp only
  split <;> rfl

theorem State.noteWalk_work (s : State) (tag : CtxTag) (reads : List Nat) : (s.noteWalk tag reads).work = s.work :=
  work_foldl (fun s a => (State.reportChecks_work (s.useDie tag (dieOfPa a)) a 8).trans (s.useDie_work tag (dieOfPa a))) reads s

theorem State.claim_work (s : State) (core : Option Nat) (e pa : Nat) : (s.claim core e pa).1.work = s.work := by
  unfold State.claim
  split
  · rfl
  · split
    · rfl
    · exact State.hwWrite_work _ _ _ _ _

theorem State.putTlb_work (s : State) (n : TlbEntry) : (s.putTlb n).work = s.work := rfl

theorem State.fillTlb_work (s : State) (ctx : CtxCopy) (unit : TUnit) (die va e pa level : Nat) (lines : List Nat)
    (path : List (Nat × Nat × Nat)) : (s.fillTlb ctx unit die va e pa level lines path).work = s.work := by
  unfold State.fillTlb
  dsimp only
  have filled (t : State) (ht : t.work = s.work) : (path.foldl (fun s p => s.putTlb
      ⟨.walk (walkDie unit die p.2.2), ctx.tag, p.1, va / 2 ^ (12 + 9 * p.1), p.2.1, p.2.2,
        (path.takeWhile fun q => p.1 ≤ q.1).map fun q => q.2.2 / 128⟩) t).work = s.work :=
    (work_foldl (fun s p => s.putTlb_work _) path t).trans ht
  split
  · exact (State.useDie_work _ _ _).trans (filled _ (by cases unit <;> rfl))
  · exact filled _ (by cases unit <;> rfl)

theorem State.install_work (s : State) (ctx : CtxCopy) (unit : TUnit) (die va e pa level : Nat) (lines : List Nat)
    (path : List (Nat × Nat × Nat)) (stale : Bool) (hit : Option TlbEntry) :
    (s.install ctx unit die va e pa level lines path stale hit).work = s.work := by
  unfold State.install
  split
  · rfl
  cases hit with
  | some t =>
    dsimp only
    split <;> rfl
  | none =>
    dsimp only
    split
    · exact State.fillTlb_work _ _ _ _ _ _ _ _ _ _
    · exact (State.fillTlb_work _ _ _ _ _ _ _ _ _ _).trans (State.hwWrite_work _ _ _ _ _)

theorem State.touchObject_work (s : State) (ctx : CtxCopy) (unit : TUnit) (core : Option Nat) (va pa : Nat) :
    (s.touchObject ctx unit core va pa).1.work = s.work := by
  unfold State.touchObject
  split
  · rfl
  split
  · rfl
  dsimp only
  split
  · exact State.reportChecks_work _ _ _
  split
  · exact State.reportChecks_work _ _ _
  split
  · exact State.reportChecks_work _ _ _
  split
  · exact (State.hwWrite_work _ _ _ _ _).trans (State.reportChecks_work _ _ _)
  · exact (State.hwWrite_work _ _ _ _ _).trans (State.reportChecks_work _ _ _)

/-- An access that writes nothing leaves the work of the cores (R293, R346). -/
theorem translate_work (s : State) (ctx : CtxCopy) (unit : TUnit) (die : Nat) (core : Option Nat) (perm : Dword)
    {kind : AccKind} (reads : kind.writes = false) (va : Nat) :
    (translate s ctx unit die core perm kind va).1.work = s.work := by
  unfold translate
  split
  · rfl
  dsimp only
  split
  · exact s.noteWalk_work _ _
  · exact s.noteWalk_work _ _
  · exact s.noteWalk_work _ _
  next e pa level lines path stale _ =>
    simp only [reads, Bool.false_and, Bool.false_eq_true, if_false]
    have claimed : (if stale = true then (s.noteWalk ctx.tag (lookup s ctx unit die va
        fun e => kind.allowed perm e && !mustClaim core e).reads, e) else (s.noteWalk ctx.tag (lookup s ctx unit die va
        fun e => kind.allowed perm e && !mustClaim core e).reads).claim core e pa).1.work = s.work := by
      split
      · exact s.noteWalk_work _ _
      · exact (State.claim_work _ _ _ _).trans (s.noteWalk_work _ _)
    revert claimed
    generalize (if stale = true then (_, e) else State.claim _ core e pa : State × Nat) = x
    intro claimed
    split
    · exact claimed
    split
    · exact (State.install_work _ _ _ _ _ _ _ _ _ _ _ _).trans claimed
    · exact (State.install_work _ _ _ _ _ _ _ _ _ _ _ _).trans claimed
    split
    · exact (State.touchObject_work _ _ _ _ _ _).trans
        ((checkPa_work _ _).trans ((State.install_work _ _ _ _ _ _ _ _ _ _ _ _).trans claimed))
    · exact (checkPa_work _ _).trans ((State.install_work _ _ _ _ _ _ _ _ _ _ _ _).trans claimed)

/-- A fetch leaves the work of the cores (R45). -/
theorem State.coreAccess_work (s : State) (l : LaneRef) {kind : AccKind} (reads : kind.writes = false) (va : Nat) :
    (s.coreAccess l kind va).1.work = s.work := by
  unfold State.coreAccess
  split
  · rfl
  split
  · rfl
  · exact translate_work _ _ _ _ _ _ reads _

theorem State.fetchWord_work {s t : State} {l : LaneRef} {k : KSlot} {va w : Nat} {e : List Nat}
    (h : s.fetchWord l k va = (t, .ok w e)) : t.work = s.work := by
  have access := s.coreAccess_work l (kind := .exec) rfl va
  unfold State.fetchWord at h
  split at h
  next u p q run =>
    rw [run] at access
    dsimp only at h
    split at h
    · obtain rfl := congrArg Prod.fst h
      exact (State.reportChecks_work _ _ _).trans access
    · split at h <;> exact absurd (congrArg Prod.snd h) nofun
  all_goals exact absurd (congrArg Prod.snd h) nofun

theorem State.fetchBody_work {s t : State} {l : LaneRef} {k : KSlot} {va n w : Nat} {ws : List Nat}
    (h : s.fetchBody l k va n = (t, .ok w ws)) : t.work = s.work := by
  induction n generalizing s va w ws with
  | zero => obtain rfl := congrArg Prod.fst h; rfl
  | succ n ih =>
    unfold State.fetchBody at h
    split at h
    next u v e first =>
      split at h
      next u' w' ws' rest =>
        obtain rfl := congrArg Prod.fst h
        exact (ih rest).trans (State.fetchWord_work first)
      next ne => exact absurd h (ne t w ws)
    next ne => exact absurd h (ne t w ws)

end Sys2Proof.Machine
end

