-- ==== Sys2Proof/Proofs/StrideIssues.lean ====
section
/-! STRIDE_ISSUE of one ready team (R29, R46 to R50). -/

namespace Sys2Proof.Machine

open Sys2Proof.Spec

/-! Threads after an update of all threads. -/

theorem thread_each (s : State) (on : LaneRef → Bool) (f : LaneRef → Thread → Thread) {l : LaneRef}
    (absent : on l = true → f l Thread.absent = Thread.absent) :
    (each s on f).thread l = if on l then f l (s.thread l) else s.thread l := by
  have rig : (each s on f).rig? l.wg l.rig = (s.rig? l.wg l.rig).map fun q => { q with
        threads := (q.threads.mapIdx fun k t => if (on ⟨l.wg, l.rig, k⟩) then f ⟨l.wg, l.rig, k⟩ t else t) } :=
    s.rig?_mapRigs (fun wg r q => { q with
      threads := (q.threads.mapIdx fun k t => if (on ⟨wg, r, k⟩) then f ⟨wg, r, k⟩ t else t) }) l.wg l.rig
  have nothing : (if on l then f l Thread.absent else Thread.absent) = Thread.absent := by
    split
    next h => exact absent h
    next => rfl
  unfold State.thread
  rw [rig]
  cases s.rig? l.wg l.rig with
  | none => exact nothing.symm
  | some q =>
    simp only [Option.map_some, Option.bind_some, List.getElem?_mapIdx]
    cases q.threads[l.lane]? with
    | none => exact nothing.symm
    | some t => rfl

/-- Threads of distinct lanes take an update, and the others stay. -/
theorem State.thread_setThreads_nodup (s : State) {ls : List LaneRef} (nodup : ls.Nodup) (f : Thread → Thread)
    (absent : f Thread.absent = Thread.absent) (l : LaneRef) :
    (s.setThreads ls fun _ => f).thread l = if l ∈ ls then f (s.thread l) else s.thread l := by
  rw [State.setThreads_eq_each s nodup, thread_each s _ _ fun _ => absent]
  simp only [List.contains_iff_mem]

theorem State.thread_of_wgs {s t : State} (h : t.wgs = s.wgs) (l : LaneRef) : t.thread l = s.thread l := by
  unfold State.thread State.rig? State.wg?
  rw [h]

/-! What changes only threads, tracks and counters. -/

/-- Only threads, tracks, counter slots and interrupts differ. -/
def ThreadsOnly (s t : State) : Prop :=
  ∃ wgs tracks vfs pf msix, t = { s with wgs := wgs, tracks := tracks, vfs := vfs, pf := pf, msix := msix }

theorem ThreadsOnly.refl (s : State) : ThreadsOnly s s := ⟨s.wgs, s.tracks, s.vfs, s.pf, s.msix, rfl⟩

theorem ThreadsOnly.trans {s t u : State} (h : ThreadsOnly s t) (h' : ThreadsOnly t u) : ThreadsOnly s u := by
  obtain ⟨_, _, _, _, _, rfl⟩ := h
  obtain ⟨_, _, _, _, _, rfl⟩ := h'
  exact ⟨_, _, _, _, _, rfl⟩

theorem CountersOnly.threadsOnly {s t : State} (h : CountersOnly s t) : ThreadsOnly s t := by
  obtain ⟨_, _, _, rfl⟩ := h
  exact ⟨_, _, _, _, _, rfl⟩

theorem ThreadsOnly.foldl {α : Type} {f : State → α → State} (h : ∀ s x, ThreadsOnly s (f s x)) (l : List α) (s : State) :
    ThreadsOnly s (l.foldl f s) :=
  List.foldlRecOn (motive := ThreadsOnly s) l f (ThreadsOnly.refl s) fun t ht x _ => ht.trans (h t x)

theorem State.setRig_threadsOnly (s : State) (wg rig : Nat) (f : Rig → Rig) : ThreadsOnly s (s.setRig wg rig f) :=
  ⟨_, _, _, _, _, rfl⟩

theorem State.setThreads_threadsOnly (s : State) (ls : List LaneRef) (f : LaneRef → Thread → Thread) :
    ThreadsOnly s (s.setThreads ls f) :=
  ThreadsOnly.foldl (f := fun s l => s.setThread l (f l)) (fun s l => s.setRig_threadsOnly l.wg l.rig _) ls s

theorem State.tokenWait_threadsOnly (s : State) (mask : Nat) (ls : List LaneRef) : ThreadsOnly s (s.tokenWait mask ls) := by
  unfold State.tokenWait
  split
  · exact ThreadsOnly.refl s
  · exact ⟨_, _, _, _, _, rfl⟩

theorem State.countStride_countersOnly (s : State) (ls : List LaneRef) : CountersOnly s (s.countStride ls) := by
  refine CountersOnly.foldl (fun s r => ?_) _ s
  split
  · exact CountersOnly.refl s
  · exact (s.count_countersOnly _ _ _).trans (State.count_countersOnly _ _ _ _)

/-! The lanes of an issued stride. -/

/-- Lanes at the header of a stride that issues: their temporaries are clear (R50). -/
def State.headed (s : State) (ls : List LaneRef) : State := s.setThreads ls fun _ t => { t with temps := [] }

/-- The lanes for which the header of a stride issues anew (R50). -/
def State.afresh (s : State) (ls : List LaneRef) : List LaneRef := ls.filter fun l => !(s.thread l).restored

/-- The threads after the wait of a header, which no lane resumes (R50, R183). -/
def State.waited (s : State) (ls : List LaneRef) (mask : Nat) : State :=
  ((s.countStride (s.afresh ls)).tokenWait mask (s.afresh ls)).setThreads ls fun _ t => { t with slot := none, restored := false }

/-- The last issue of the rigs of a stride (log entry 87). -/
def State.noteIssue (s : State) (c b : Nat) (ls : List LaneRef) : State :=
  ls.foldl (fun u l => u.setRig l.wg l.rig fun r => { r with lastIssue := (s.bay c b).cycle }) s

/-- The threads of an issued stride. -/
def State.lanesIssued (s : State) (c b : Nat) (ls : List LaneRef) (mask : Nat) : State :=
  ((s.headed ls).waited ls mask).noteIssue c b ls

theorem State.thread_noteIssue (s : State) (c b : Nat) (ls : List LaneRef) (l : LaneRef) :
    (s.noteIssue c b ls).thread l = s.thread l :=
  List.foldlRecOn (motive := fun u : State => u.thread l = s.thread l) ls _ rfl fun u hu m _ =>
    (u.thread_setRig_of_threads m.wg m.rig (f := fun r => { r with lastIssue := (s.bay c b).cycle }) (fun _ => rfl) l).trans hu

theorem State.lanesIssued_threadsOnly (s : State) (c b : Nat) (ls : List LaneRef) (mask : Nat) :
    ThreadsOnly s (s.lanesIssued c b ls mask) :=
  (((s.setThreads_threadsOnly ls _).trans (State.countStride_countersOnly _ _).threadsOnly).trans
    ((State.tokenWait_threadsOnly _ _ _).trans (State.setThreads_threadsOnly _ _ _))).trans
    (ThreadsOnly.foldl (fun u l => u.setRig_threadsOnly l.wg l.rig _) ls _)

section
variable (s : State) (c b : Nat) {ls : List LaneRef} (nodup : ls.Nodup) (mask : Nat)

include nodup

theorem State.thread_headed (l : LaneRef) :
    (s.headed ls).thread l = if l ∈ ls then { s.thread l with temps := [] } else s.thread l :=
  s.thread_setThreads_nodup nodup (fun t => { t with temps := [] }) rfl l

theorem State.thread_waited (l : LaneRef) : (s.waited ls mask).thread l = if l ∈ ls then
    { (s.countStride (s.afresh ls)).tokenWait mask (s.afresh ls) |>.thread l with slot := none, restored := false }
    else ((s.countStride (s.afresh ls)).tokenWait mask (s.afresh ls)).thread l :=
  State.thread_setThreads_nodup _ nodup (fun t => { t with slot := none, restored := false }) rfl l

/-- A thread that is not issued stays. -/
theorem State.thread_lanesIssued_of_not_mem {l : LaneRef} (out : l ∉ ls) :
    (s.lanesIssued c b ls mask).thread l = s.thread l := by
  have count := ((s.headed ls).countStride_countersOnly ((s.headed ls).afresh ls)).sameStrides.thread l
  have head := s.thread_headed nodup l
  rw [if_neg out] at head
  rw [State.lanesIssued, State.thread_noteIssue, State.thread_waited _ nodup, if_neg out]
  by_cases named : mask = 0
  · rw [State.tokenWait, if_pos named, count, head]
  · rw [State.thread_tokenWait_of_not_mem _ named _ _ fun (h : l ∈ (s.headed ls).afresh ls) => out (List.mem_filter.1 h).1, count, head]

/-- A thread that issues a stride without a wait (R50). -/
theorem State.thread_lanesIssued_of_zero {l : LaneRef} (hl : l ∈ ls) :
    (s.lanesIssued c b ls 0).thread l = { s.thread l with temps := [], slot := none, restored := false } := by
  have count := ((s.headed ls).countStride_countersOnly ((s.headed ls).afresh ls)).sameStrides.thread l
  have head := s.thread_headed nodup l
  rw [if_pos hl] at head
  rw [State.lanesIssued, State.thread_noteIssue, State.thread_waited _ nodup, if_pos hl, State.tokenWait, if_pos rfl, count, head]

/-- A thread that issues a stride (R50, R183). -/
theorem State.thread_lanesIssued_of_mem {l : LaneRef} (hl : l ∈ ls) :
    gotIt ((s.lanesIssued c b ls mask).thread l) { s.thread l with temps := [] } ∧
      ((s.lanesIssued c b ls mask).thread l).slot = none ∧ ((s.lanesIssued c b ls mask).thread l).restored = false := by
  have count := ((s.headed ls).countStride_countersOnly ((s.headed ls).afresh ls)).sameStrides.thread l
  have head := s.thread_headed nodup l
  rw [if_pos hl] at head
  rw [State.lanesIssued, State.thread_noteIssue, State.thread_waited _ nodup, if_pos hl]
  refine ⟨?_, rfl, rfl⟩
  by_cases named : mask = 0
  · rw [State.tokenWait, if_pos named, count, head]
    exact ⟨rfl, rfl, rfl, rfl, rfl, rfl, rfl, rfl, rfl, rfl, le_rfl⟩
  · by_cases anew : l ∈ (s.headed ls).afresh ls
    · obtain ⟨rows, floor, thread, -⟩ := State.thread_tokenWait_of_mem _ named _ l anew
      rw [thread, count, head]
      exact ⟨rfl, rfl, rfl, rfl, rfl, rfl, rfl, rfl, rfl, rfl, le_max_left _ _⟩
    · rw [State.thread_tokenWait_of_not_mem _ named _ _ anew, count, head]
      exact ⟨rfl, rfl, rfl, rfl, rfl, rfl, rfl, rfl, rfl, rfl, le_rfl⟩

end

/-! The pick of one candidate. -/

theorem flatMap_range_single {α : Type} {n j : Nat} (lt : j < n) {f : Nat → List α} (h : ∀ i, i ≠ j → f i = []) :
    (List.range n).flatMap f = f j := by
  induction n with
  | zero => exact absurd lt (Nat.not_lt_zero j)
  | succ n ih =>
    rw [List.range_succ, List.flatMap_append, List.flatMap_singleton]
    rcases Nat.lt_succ_iff_lt_or_eq.1 lt with lt | rfl
    · rw [ih lt, h n (Nat.ne_of_gt lt), List.append_nil]
    · rw [List.flatMap_eq_nil_iff.2 fun i hi => h i (Nat.ne_of_lt (List.mem_range.1 hi)), List.nil_append]

/-- The lanes of one candidate, in the picker's order (R60, R182). -/
theorem lanes_of_single {x : Cand} (slot : x.slot < 8) (team : x.team < 16) :
    ((List.range 8).flatMap fun i => (List.range 16).flatMap fun n =>
      ([x].filter fun c => c.slot == i && c.team == n).flatMap Cand.lanes) = x.lanes := by
  rw [flatMap_range_single slot fun i ne => ?_, flatMap_range_single team fun n ne => ?_]
  · simp
  · simp [Ne.symm ne]
  · simp [Ne.symm ne]

/-- The picker of a free port, in the state `u`, issues the one candidate that does not wait for others (R29, R30, R32). -/
theorem execStrideIssue_of_single {s u : State} {c b : Nat} {x : Cand}
    (acts : { s with focus := (c, b), fresh := s.fresh + 1 } = u) (noHard : Spec.noHard u) (port : (u.bay c b).port = none)
    (cut : (u.bay c b).cut = []) (fenced : (u.core c).fenced = false) (cands : u.cands c b = [x])
    (join : x.join = false) (slot : x.slot < 8) (team : x.team < 16) :
    execStrideIssue c b s = conclude ((fetching s c b x.lanes).startStride c b x x.lanes) := by
  have idle : ¬ (((u.bay c b).port.isSome || (u.core c).fenced) = true) := by
    rw [port, fenced]
    exact Bool.false_ne_true
  have sorted : sortCands [x] = [x] := rfl
  have free : [x].filter (fun z => !(holdsBack (u.bay c b) [x] z)) = [x] := by
    simp [holdsBack, join]
  have cuts : (u.bay c b).cutFirst (some x) = none := by
    unfold Bay.cutFirst Bay.freeCuts
    rw [cut]
    rfl
  have mates : ([x].filter x.sameKey).take 16 = [x] := by simp [Cand.sameKey]
  have wgs (w : Nat) : u.wg? w = s.wg? w := by rw [← acts]; rfl
  unfold execStrideIssue fetching
  simp only [acts, if_neg idle, State.sweep_of_noHard noHard, cands, sorted, free, cuts, mates, lanes_of_single slot team, wgs]

/-- The group of a stride that issues unpacked (R47, R48). -/
def issuedGroup (x : Cand) (h : Nat) (body : List Nat) : Group :=
  { lanes := x.lanes, kslot := x.kslot, pc := BitVec.ofNat 64 x.pc, ecls := bits h 56 2, size := 8 * (headerWords h + 1)
    words := Spec.strideWords body, slot := 0, clock := 0, stalled := false, more := false, tenure := 0, age := x.age
    spent := false, served := [], work := [], issue := 0, missed := [], before := [] }

/-- A fetched stride with a header in form stands at the port, with its lanes at slot 0 (R46 to R50). -/
theorem State.startStride_of_fetched {s s1 s2 : State} {c b h : Nat} {x : Cand} {k : KSlot} {l : LaneRef} {r : List LaneRef}
    {body e : List Nat} (kslot : s.kslot? c x.kslot = some k) (lanes : x.lanes = l :: r) (resume : x.resume = none)
    (head : s.fetchWord l k x.pc = (s1, .ok h e)) (form : headerOk h = true) (unpacked : bit h 51 = false)
    (rest : s1.fetchBody l k (x.pc + 8) (headerWords h) = (s2, .ok 0 body)) :
    ∃ f, s.startStride c b x x.lanes =
      (((s2.lanesIssued c b x.lanes (bits h 43 8)).setBay c b f).setBay c b fun y => { y with port := some (issuedGroup x h body) }) := by
  refine ⟨fun y => { y with
    holds := y.holds.filter fun h => !(x.lanes.any fun l => h.team == { l with lane := l.lane / 4 }) }, ?_⟩
  have words : slotsOf k (bit h 51) body = Spec.strideWords body := by
    rw [unpacked]
    rfl
  unfold State.startStride
  rw [lanes]
  simp only [kslot, head, form, rest, resume, words, Bool.not_true, Bool.false_eq_true, if_false, Option.isNone_none, if_true,
    Option.getD_none]
  unfold issuedGroup
  rw [lanes]
  rfl

end Sys2Proof.Machine

open Sys2Proof Sys2Proof.Machine Sys2Proof.Spec

/-- Settles O35: one candidate is picked, its fetch leaves the threads and the bays, and its lanes start the stride. -/
theorem strideIssue : Obligations.StrideIssue := by
  unfold Obligations.StrideIssue
  intro s s1 s2 c b h x k l r body e halt _ noHard port cut core bay fenced cands join resume lanes nodup slot team kslot
    head form unpacked rest going
  have count : CountersOnly { s with focus := (c, b), fresh := s.fresh + 1 } (fetching s c b x.lanes) :=
    CountersOnly.foldl State.countDie_countersOnly _ _
  have work : s2.work = State.work { s with focus := (c, b), fresh := s.fresh + 1 } :=
    (State.fetchBody_work rest).trans ((State.fetchWord_work head).trans count.work)
  have wgs : s2.wgs = s.wgs := congrArg Work.wgs work
  have cores : s2.cores = s.cores := congrArg Work.cores work
  have kslot' : (fetching s c b x.lanes).kslot? c x.kslot = some k := (count.sameStrides.kslot c x.kslot).trans kslot
  obtain ⟨f, start⟩ := State.startStride_of_fetched kslot' lanes resume head form unpacked rest
  obtain ⟨wgs', tracks, vfs, pf, msix, frame⟩ := s2.lanesIssued_threadsOnly c b x.lanes (bits h 43 8)
  have has : (s2.lanesIssued c b x.lanes (bits h 43 8)).hasBay c b := by
    rw [frame]
    unfold State.hasBay State.core
    rw [cores]
    exact ⟨core, bay⟩
  refine ⟨_, issuedGroup x h body, ?_, congrArg Bay.port ((has.setBay f).bay_setBay fun y => { y with
    port := some (issuedGroup x h body) }), rfl, rfl, rfl, rfl, rfl, rfl, rfl, fun m hm => ?_, fun zero m hm => ?_,
    fun m out => ?_, ?_⟩
  · change execStrideIssue c b s = _
    rw [execStrideIssue_of_single rfl noHard port cut fenced cands join slot team, start]
    refine (conclude_eq_next _ _).2 ⟨?_, rfl⟩
    rw [frame]
    exact going
  · rw [← State.thread_of_wgs wgs m]
    exact s2.thread_lanesIssued_of_mem c b nodup (bits h 43 8) hm
  · rw [← State.thread_of_wgs wgs m, zero]
    exact s2.thread_lanesIssued_of_zero c b nodup hm
  · rw [← State.thread_of_wgs wgs m]
    exact s2.thread_lanesIssued_of_not_mem c b nodup (bits h 43 8) out
  · rw [frame]
    rfl

end

