-- ==== Sys2Proof/Proofs/CoresTake.lean ====
section
/-! SUPPORT. Which cores take a workgroup of a launch, and of which launch (R20, R21, R324, R325), as the rules state it. -/

namespace Sys2Proof.Machine

open Sys2Proof.Spec

/-! Room on a core (R20, R21). -/

theorem rigs_eq_rigsOf (f : LaunchRec) : f.rigs = Spec.rigsOf f := by
  unfold LaunchRec.rigs Spec.rigsOf visWidth
  cases f.prot <;> rfl

theorem State.sumOf_eq_demand (s : State) (ws : List Workgroup) (q : LaunchRec → Nat) : s.sumOf ws q = demand s ws q := by
  have step (n : Nat) : ws.foldl (fun n w => n + ((s.launch? w.launch).map fun l => q l.rcd).getD 0) n =
      n + demand s ws q := by
    unfold demand recsOf
    induction ws generalizing n with
    | nil => rfl
    | cons w r ih =>
      rw [List.foldl_cons, ih, List.filterMap_cons]
      cases s.launch? w.launch with
      | none => rfl
      | some l =>
        rw [Option.map_some, Option.map_some, Option.getD_some, List.map_cons, List.sum_cons, Nat.add_assoc]
  exact (step 0).trans (Nat.zero_add _)

/-- How many workgroups a sum leaves room for (R21). -/
def leaves (total used each : Nat) : Nat := if each = 0 then 128 else (total - used) / each

theorem le_leaves_iff {total used each n : Nat} (some : 0 < n) (cap : n ≤ 128) :
    n ≤ leaves total used each ↔ within used each n total := by
  unfold leaves within
  split
  next zero => exact ⟨fun _ => .inl zero, fun _ => cap⟩
  next ne =>
    rw [Nat.le_div_iff_mul_le (Nat.pos_of_ne_zero ne)]
    have grows : 0 < n * each := Nat.mul_pos some (Nat.pos_of_ne_zero ne)
    constructor
    · intro h
      exact .inr (by omega)
    · intro h
      have := h.resolve_left ne
      omega

theorem le_ite_zero_iff {n m : Nat} {c : Bool} (some : 0 < n) : (n ≤ if c = true then 0 else m) ↔ c = false ∧ n ≤ m := by
  cases c
  · simp
  · simp [Nat.ne_of_gt some]

theorem any_part_eq_false {rs : List LaunchRec} {p : Nat} : rs.any (fun r => r.part != p) = false ↔ ∀ r ∈ rs, r.part = p := by
  rw [List.any_eq_false]
  exact forall₂_congr fun r _ => by rw [bne_iff_ne, not_not]

/-- What a core can take beside some workgroups is as many as fit (R21). -/
theorem State.le_room_iff {s : State} {k : Launch} {ws : List Workgroup} {grids : List Nat} {n : Nat} (some : 0 < n)
    (cap : n ≤ 128) : n ≤ s.room k ws grids ↔ fitsBeside s k ws grids n := by
  unfold State.room fitsBeside
  simp only [State.sumOf_eq_demand, show LaunchRec.rigs = Spec.rigsOf from funext rigs_eq_rigsOf]
  rw [le_ite_zero_iff some, Bool.or_eq_false_iff, Bool.or_eq_false_iff, decide_eq_false_iff_not, decide_eq_false_iff_not,
    Nat.not_lt, Nat.not_lt, le_min_iff, le_min_iff, le_min_iff, any_part_eq_false, and_assoc, and_assoc, and_assoc]
  refine and_congr Iff.rfl (and_congr Iff.rfl (and_congr Iff.rfl (and_congr (le_leaves_iff some cap)
    (and_congr ?_ (and_congr (le_leaves_iff some cap) (le_leaves_iff some cap))))))
  rw [Nat.mul_comm]
  exact le_leaves_iff some cap

theorem leaves_rigs_le (used each : Nat) : leaves 128 used each ≤ 128 := by
  unfold leaves
  split
  · exact le_rfl
  · exact (Nat.div_le_self _ _).trans (Nat.sub_le _ _)

theorem ite_zero_le {m n : Nat} {c : Bool} (h : m ≤ n) : (if c = true then 0 else m) ≤ n := by
  cases c
  · exact h
  · exact Nat.zero_le n

theorem State.room_le (s : State) (k : Launch) (ws : List Workgroup) (grids : List Nat) : s.room k ws grids ≤ 128 := by
  unfold State.room
  exact ite_zero_le ((min_le_right _ _).trans ((min_le_right _ _).trans (leaves_rigs_le _ _)))

/-- The number of workgroups that fit, and no more, is the room (R21). -/
theorem State.room_eq {s : State} {k : Launch} {ws : List Workgroup} {grids : List Nat} {n : Nat} (threads : 0 < k.rcd.tpw)
    (one : fitsBeside s k ws grids 1) (fit : fitsBeside s k ws grids n) (more : ¬ fitsBeside s k ws grids (n + 1)) :
    s.room k ws grids = n := by
  have some : 0 < n := by
    refine Nat.pos_of_ne_zero fun zero => ?_
    rw [zero] at more
    exact more one
  have rigs : 0 < Spec.rigsOf k.rcd := by
    unfold Spec.rigsOf
    split <;> exact Nat.div_pos (by omega) (by omega)
  have cap : n ≤ 128 := by
    obtain ⟨-, -, -, -, -, -, within⟩ := fit
    have total := within.resolve_left (Nat.ne_of_gt rigs)
    have grows : n * 1 ≤ n * Spec.rigsOf k.rcd := Nat.mul_le_mul_left n rigs
    omega
  refine le_antisymm (Nat.le_of_not_lt fun lt => ?_) ((State.le_room_iff some cap).2 fit)
  exact more ((State.le_room_iff (Nat.succ_pos n) (lt.trans_le (s.room_le k ws grids))).1 lt)

theorem State.room_pos_iff {s : State} {k : Launch} {ws : List Workgroup} {grids : List Nat} :
    0 < s.room k ws grids ↔ fitsBeside s k ws grids 1 := State.le_room_iff Nat.one_pos (by omega)

/-! The conditions of R324 and R325. -/

theorem State.placeable_iff {s : State} {k : Launch} : s.placeable k = true ↔ Spec.hasWork s k := by
  unfold State.placeable State.storesDone Spec.hasWork
  simp only [Bool.and_eq_true, beq_iff_eq, Bool.not_eq_true', decide_eq_true_eq, List.all_eq_true, Bool.or_eq_true,
    bne_iff_ne, ne_eq, ← Bool.not_eq_true, List.contains_iff_mem]
  rw [and_assoc, and_assoc, and_assoc]
  refine and_congr Iff.rfl (and_congr Iff.rfl (and_congr Iff.rfl (and_congr Iff.rfl ?_)))
  exact forall₂_congr fun _ _ => forall₂_congr fun _ _ => Decidable.imp_iff_not_or.symm

theorem State.coreServes_iff {s : State} {c v : Nat} :
    (s.coreOpen c && s.serves v (clusterOf c)) = true ↔ coreServes s c v := by
  unfold State.coreOpen State.coreAlive State.serves coreServes
  simp only [Bool.and_eq_true, decide_eq_true_eq, Bool.not_eq_true', beq_iff_eq]
  rw [and_assoc, and_assoc, and_assoc]
  refine and_congr Iff.rfl (and_congr Iff.rfl (and_congr Iff.rfl (and_congr ?_ Option.bind_eq_some_iff)))
  change ((s.age[c / 8]?).map fun a => decide (0 < a.cap)).getD false = true ↔ _
  cases s.age[c / 8]? with
  | none => exact ⟨fun h => absurd h Bool.false_ne_true, fun ⟨a, h, _⟩ => absurd h nofun⟩
  | some a =>
    exact ⟨fun h => ⟨a, rfl, of_decide_eq_true h⟩, fun ⟨_, e, h⟩ => decide_eq_true (Option.some.inj e ▸ h)⟩

theorem Relay.moves_iff {r : Relay} {k : Launch} : r.moves k = true ↔ ofJob r k := by
  unfold Relay.moves ofJob
  rw [Bool.and_eq_true, beq_iff_eq, beq_iff_eq, eq_comm, eq_comm (a := bits r.rljob 32 5)]

theorem State.relayHolds_iff {s : State} {k : Launch} : s.relayHolds k = false ↔ relayLets s k := by
  unfold State.relayHolds State.relaySent relayLets
  rw [Bool.or_eq_false_iff, List.any_eq_false, List.any_eq_false, ← forall₂_and]
  refine forall₂_congr fun r _ => ?_
  rw [Bool.and_eq_true, Bool.and_eq_true, Bool.and_eq_true, Relay.moves_iff, beq_iff_eq, beq_iff_eq, Bool.not_eq_true',
    ← Bool.not_eq_true, List.contains_iff_mem]
  tauto

theorem State.markedOut_iff {s : State} {c : Nat} {k : Launch} :
    s.markedOut c k = false ↔ ∀ m ∈ s.marks, m.core = c → k.id ∉ m.victims := by
  unfold State.markedOut
  rw [List.any_eq_false]
  refine forall₂_congr fun m _ => ?_
  rw [Bool.and_eq_true, beq_iff_eq, List.contains_iff_mem, not_and]

theorem State.takes_iff {s : State} {c : Nat} {k : Launch} : s.takes c k = true ↔ mayTake s c k := by
  unfold State.takes mayTake State.fits
  rw [Bool.and_eq_true, Bool.and_eq_true, Bool.and_assoc (s.placeable k && _), Bool.and_eq_true, Bool.and_eq_true,
    State.placeable_iff, State.coreServes_iff, Bool.not_eq_true', Bool.not_eq_true', State.relayHolds_iff, State.markedOut_iff,
    decide_eq_true_eq, State.room_pos_iff, and_assoc, and_assoc, and_assoc]
  rfl

/-! The launch that a core takes a workgroup of (R324). -/

/-- A launch goes before another that stands before it, and before one that stands after it, in the order of R324. -/
def goesBefore (k l : Launch) : Prop := l.rcd.prio < k.rcd.prio ∨ l.rcd.prio = k.rcd.prio ∧ k.order < l.order
def staysBefore (k l : Launch) : Prop := l.rcd.prio < k.rcd.prio ∨ l.rcd.prio = k.rcd.prio ∧ k.order ≤ l.order

theorem not_goesBefore {k l : Launch} : ¬ goesBefore l k ↔ staysBefore k l := by
  unfold goesBefore staysBefore
  omega

theorem goesBefore.trans {k l m : Launch} (h : goesBefore k l) (h' : goesBefore l m) : goesBefore k m := by
  unfold goesBefore at *
  omega

theorem goesBefore.trans_stays {k l m : Launch} (h : goesBefore k l) (h' : staysBefore l m) : goesBefore k m := by
  unfold goesBefore staysBefore at *
  omega

/-- The first of the best launches that have a property. -/
def isBest (p : Launch → Prop) (ls : List Launch) (k : Launch) : Prop :=
  ∃ xs ys, ls = xs ++ k :: ys ∧ p k ∧ (∀ l ∈ xs, p l → goesBefore k l) ∧ ∀ l ∈ ys, p l → staysBefore k l

theorem isBest.unique {p : Launch → Prop} {ls : List Launch} {k k' : Launch} (h : isBest p ls k) (h' : isBest p ls k') :
    k = k' := by
  obtain ⟨xs, ys, rfl, hk, before, after⟩ := h
  obtain ⟨xs', ys', eq, hk', before', after'⟩ := h'
  rcases List.append_eq_append_iff.1 eq with ⟨zs, rfl, e⟩ | ⟨zs, rfl, e⟩
  · cases zs with
    | nil => exact (List.cons.inj e).1
    | cons z zs =>
      obtain ⟨rfl, rfl⟩ := List.cons.inj e
      exact absurd (before' k (by simp) hk) (not_goesBefore.2 (after k' (by simp) hk'))
  · cases zs with
    | nil => exact (List.cons.inj e).1.symm
    | cons z zs =>
      obtain ⟨rfl, rfl⟩ := List.cons.inj e
      exact absurd (before k' (by simp) hk') (not_goesBefore.2 (after' k (by simp) hk))

/-- The better of a launch and the best so far (R324). -/
def better (best : Option Launch) (l : Launch) : Option Launch :=
  match best with
  | none => some l
  | some b => if b.rcd.prio < l.rcd.prio ∨ (b.rcd.prio = l.rcd.prio ∧ l.order < b.order) then some l else best

/-- The search for the best launch finds it, or there is none. -/
theorem foldl_better (p : Launch → Bool) (ls : List Launch) :
    match (ls.filter p).foldl better none with
    | none => ∀ l ∈ ls, p l = false
    | some k => isBest (fun l => p l = true) ls k := by
  induction ls using List.reverseRecOn with
  | nil => exact fun l hl => absurd hl List.not_mem_nil
  | append_singleton ls x ih =>
    rw [List.filter_append, List.foldl_append]
    by_cases hx : p x = true
    · rw [List.filter_singleton, hx, cond_true, List.foldl_cons, List.foldl_nil]
      cases best : (ls.filter p).foldl better none with
      | none =>
        rw [best] at ih
        exact ⟨ls, [], rfl, hx, fun l hl h => absurd ((ih l hl).symm.trans h) Bool.false_ne_true, by simp⟩
      | some k =>
        rw [best] at ih
        obtain ⟨xs, ys, rfl, hk, before, after⟩ := ih
        by_cases first : goesBefore x k
        · rw [show better (some k) x = some x from if_pos first]
          refine ⟨xs ++ k :: ys, [], rfl, hx, fun l hl h => ?_, by simp⟩
          rcases List.mem_append.1 hl with hl | hl
          · exact first.trans (before l hl h)
          rcases List.mem_cons.1 hl with rfl | hl
          · exact first
          · exact first.trans_stays (after l hl h)
        · rw [show better (some k) x = some k from if_neg first]
          refine ⟨xs, ys ++ [x], by simp, hk, before, fun l hl h => ?_⟩
          rcases List.mem_append.1 hl with hl | hl
          · exact after l hl h
          · rw [List.mem_singleton.1 hl]
            exact not_goesBefore.1 first
    · rw [Bool.not_eq_true] at hx
      rw [List.filter_singleton, hx, cond_false, List.foldl_nil]
      cases best : (ls.filter p).foldl better none with
      | none =>
        rw [best] at ih
        intro l hl
        rcases List.mem_append.1 hl with hl | hl
        · exact ih l hl
        · rw [List.mem_singleton.1 hl]
          exact hx
      | some k =>
        rw [best] at ih
        obtain ⟨xs, ys, rfl, hk, before, after⟩ := ih
        refine ⟨xs, ys ++ [x], by simp, hk, before, fun l hl h => ?_⟩
        rcases List.mem_append.1 hl with hl | hl
        · exact after l hl h
        · rw [List.mem_singleton.1 hl] at h
          exact absurd (hx.symm.trans h) Bool.false_ne_true

theorem isBest_takes_iff {s : State} {c : Nat} {k : Launch} : isBest (fun l => s.takes c l = true) s.launches k ↔ chosen s c k := by
  unfold isBest chosen
  simp only [State.takes_iff]
  rfl

/-- The launch that a core takes a workgroup of is the chosen one (R324). -/
theorem State.nextFor_eq_some_iff {s : State} {c : Nat} {k : Launch} : s.nextFor c = some k ↔ chosen s c k := by
  have search := foldl_better (s.takes c) s.launches
  have same : s.nextFor c = (s.launches.filter (s.takes c)).foldl better none := rfl
  rw [same, ← isBest_takes_iff]
  cases best : (s.launches.filter (s.takes c)).foldl better none with
  | none =>
    rw [best] at search
    refine ⟨nofun, fun ⟨xs, ys, eq, hk, _⟩ => ?_⟩
    exact absurd ((search k (by rw [eq]; simp)).symm.trans hk) Bool.false_ne_true
  | some b =>
    rw [best] at search
    exact ⟨fun e => Option.some.inj e ▸ search, fun h => congrArg some (search.unique h)⟩

end Sys2Proof.Machine
end

