-- ==== Sys2Proof/Proofs/Placements.lean ====
section
/-! WORKGROUP_PLACE (R26, R324, R357): the bays that the rigs of a new workgroup enter, and its threads. -/

namespace Sys2Proof.Machine

open Sys2Proof.Spec

/-! Rigs enter bays (R26). -/

/-- A workgroup `w` has been given bays: only the bays of its rigs, and what bays hold, differ. -/
structure Entered (w : Workgroup) (s u : State) : Prop where
  halt : u.halt = s.halt
  mem : u.mem = s.mem
  launches : u.launches = s.launches
  others : ∀ m, m ≠ w.id → u.wg? m = s.wg? m
  grids : ∀ c, (u.core c).grids = (s.core c).grids
  own : ∃ rigs, u.wg? w.id = some { w with rigs := rigs } ∧ rigs.length = w.rigs.length ∧
    ∀ r : Nat, ∃ bay ready, rigs[r]? = (w.rigs[r]?).map fun q => { q with bay := bay, ready := ready }

theorem Entered.refl {w : Workgroup} {s : State} (h : s.wg? w.id = some w) : Entered w s s where
  halt := rfl
  mem := rfl
  launches := rfl
  others _ _ := rfl
  grids _ := rfl
  own := ⟨w.rigs, h, rfl, fun r => by
    cases e : w.rigs[r]? with
    | none => exact ⟨0, none, rfl⟩
    | some q => exact ⟨q.bay, q.ready, rfl⟩⟩

/-- An update of a bay keeps the grid tables of the cores. -/
theorem State.grids_setBay (s : State) (c b d : Nat) (f : Bay → Bay) : ((s.setBay c b f).core d).grids = (s.core d).grids := by
  rcases s.core_setCore_or c d (fun k => { k with bays := modifyAt k.bays b f }) with e | e
  · exact (congrArg Core.grids e).trans rfl
  · exact congrArg Core.grids e

/-- One more rig has a bay (R26). -/
theorem Entered.step {w : Workgroup} {s u : State} (h : Entered w s u) (c b r : Nat) (f : Bay → Bay) :
    Entered w s ((u.setBay c b f).setRig w.id r fun q => { q with bay := b, ready := none }) where
  halt := h.halt
  mem := h.mem
  launches := h.launches
  others m ne := by
    rw [State.setRig, State.wg?_setWg, if_neg (Ne.symm ne)]
    · exact h.others m ne
    · exact fun _ => rfl
  grids d := (u.grids_setBay c b d f).trans (h.grids d)
  own := by
    obtain ⟨rigs, own, length, each⟩ := h.own
    refine ⟨modifyAt rigs r fun q => { q with bay := b, ready := none }, ?_, ?_, fun i => ?_⟩
    · rw [State.setRig, State.wg?_setWg, if_pos rfl]
      · exact congrArg (Option.map _) own
      · exact fun _ => rfl
    · rw [modifyAt_length, length]
    · obtain ⟨bay, ready, rig⟩ := each i
      rw [modifyAt_get, rig]
      by_cases e : r = i
      · refine ⟨b, none, ?_⟩
        rw [if_pos e, Option.map_map]
        rfl
      · exact ⟨bay, ready, if_neg e⟩

theorem State.enterBays_entered {s : State} {w : Workgroup} (h : s.wg? w.id = some w) (c n : Nat) :
    Entered w s (s.enterBays w.id c n) :=
  List.foldlRecOn (motive := Entered w s) (List.range n) _ (Entered.refl h) fun _ hu r _ => hu.step c _ r _

/-! The threads of a new workgroup (R28, R357). -/

/-- A rig of a new workgroup, with its bay and the bay cycle of its placement. -/
def placedRig (q : Rig) (bay : Nat) (ready : Option Nat) (a : Nat) : Rig :=
  { q with bay := bay, ready := ready, lastIssue := a, threads := q.threads.map fun t => { t with age := a } }

/-- The rigs of a workgroup that has been given bays, as their threads take their ages (R28). -/
theorem Entered.aged {w : Workgroup} {s u : State} (h : Entered w s u) (c : Nat) : ∃ rigs,
    (u.ageAll w.id c).wg? w.id = some { w with rigs := rigs } ∧ rigs.length = w.rigs.length ∧
      ∀ r : Nat, ∃ bay ready a, rigs[r]? = (w.rigs[r]?).map fun q => placedRig q bay ready a := by
  obtain ⟨rigs, own, length, each⟩ := h.own
  refine ⟨rigs.map fun q => { q with
    lastIssue := (u.bay c q.bay).cycle, threads := (q.threads.map fun t => { t with age := (u.bay c q.bay).cycle }) },
    ?_, ?_, fun r => ?_⟩
  · rw [State.ageAll, State.wg?_setWg, if_pos rfl, own]
    · rfl
    · exact fun _ => rfl
  · rw [List.length_map, length]
  · obtain ⟨bay, ready, rig⟩ := each r
    refine ⟨bay, ready, (u.bay c bay).cycle, ?_⟩
    rw [List.getElem?_map, rig, Option.map_map]
    rfl

/-- A thread of a new workgroup with its age is the one of R357. -/
theorem newThread_aged (k : Launch) (r n a : Nat) :
    { k.rcd.newThread k.nextWg r n ((k.rcd.kimg + k.codeOfs + k.entry) % 2 ^ 64) k.readyAt with age := a } =
      startThread k r n a := by
  unfold LaunchRec.newThread startThread visWidth visLane
  cases k.rcd.prot
  · simp only [Bool.false_eq_true, if_false]
    split <;> rfl
  · simp only [if_true]
    split <;> rfl

/-! WORKGROUP_PLACE. -/

theorem State.needKernel_of_holds {s : State} {c : Nat} {k : Launch} (h : holdsKernel s c k) : s.needKernel c k = (s, true) := by
  obtain ⟨x, hx, kimg⟩ := h
  refine if_pos (List.any_eq_true.2 ⟨some x, hx, ?_⟩)
  rw [Option.map_some, Option.getD_some, kimg, beq_self_eq_true]

/-- The state as a core has taken a workgroup: it stands in the bays, and its threads have their ages. -/
def placed (s : State) (c : Nat) (k : Launch) : State :=
  ((State.holdGrid { s with
    fresh := s.fresh + 1, serial := s.serial + 1, wgs := s.wgs ++ [k.newWg s.serial c] } c k).enterBays s.serial c
      k.rcd.rigs).ageAll s.serial c

/-- The count of the dies that a context spans changes nothing else (R353). -/
theorem State.useDie_eq (s : State) (tag : CtxTag) (die : Nat) : ∃ use, s.useDie tag die = { s with dieUse := use } := by
  unfold State.useDie
  dsimp only
  split <;> exact ⟨_, rfl⟩

/-- WORKGROUP_PLACE of the chosen launch. -/
theorem execWorkgroupPlace_of_chosen {s : State} {c : Nat} {k : Launch} (next : chosen s c k) (kernel : holdsKernel s c k) :
    ∃ use marks, execWorkgroupPlace k.id c s = conclude { ((placed s c k).setLaunch k.id fun l =>
      { l with nextWg := l.nextWg + 1 }) with dieUse := use, marks := marks } := by
  have chosen : ({ s with fresh := s.fresh + 1 } : State).nextFor c = some k := State.nextFor_eq_some_iff.2 next
  have holds : ({ s with fresh := s.fresh + 1 } : State).needKernel c k = ({ s with fresh := s.fresh + 1 }, true) :=
    State.needKernel_of_holds kernel
  obtain ⟨use, spans⟩ := (placed s c k).useDie_eq k.ctx.tag (dieOf c)
  refine ⟨use, (placed s c k).marks.filter fun m => !(m.launch == k.id && k.nextWg + 1 == k.total), ?_⟩
  have run : execWorkgroupPlace k.id c s = conclude
      { ((placed s c k).useDie k.ctx.tag (dieOf c)).setLaunch k.id (fun l => { l with nextWg := l.nextWg + 1 }) with
        marks := (((placed s c k).useDie k.ctx.tag (dieOf c)).setLaunch k.id fun l =>
          { l with nextWg := l.nextWg + 1 }).marks.filter fun m => !(m.launch == k.id && k.nextWg + 1 == k.total) } := by
    unfold execWorkgroupPlace
    simp only [chosen, ne_eq, not_true_eq_false, if_false, holds]
    rfl
  rw [run, spans]
  rfl

/-- WORKGROUP_PLACE of a launch that is not chosen. -/
theorem execWorkgroupPlace_of_other {s : State} {c id : Nat} (halt : s.halt = none) (other : ∀ k, chosen s c k → k.id ≠ id) :
    execWorkgroupPlace id c s = .next { s with fresh := s.fresh + 1 } := by
  unfold execWorkgroupPlace
  refine (conclude_eq_next _ _).2 ?_
  split
  next => exact ⟨halt, rfl⟩
  next k next =>
    rw [if_pos (other k (State.nextFor_eq_some_iff.1 next))]
    exact ⟨halt, rfl⟩

/-- A new workgroup under a fresh number is found (R357). -/
theorem wg?_append_new {s : State} (inv : Inv s) (c : Nat) (k : Launch) : ({ s with
    fresh := s.fresh + 1, serial := s.serial + 1, wgs := s.wgs ++ [k.newWg s.serial c] } : State).wg? s.serial =
      some (k.newWg s.serial c) := by
  have none : s.wgs.find? (fun w => w.id == s.serial) = none := List.find?_eq_none.2 fun w hw => by
    rw [beq_iff_eq]
    exact Nat.ne_of_lt (inv.wgs w hw).1
  unfold State.wg?
  rw [List.find?_append, none, Option.none_or, List.find?_cons_of_pos]
  exact beq_self_eq_true _

theorem wg?_append_other {s : State} (c : Nat) (k : Launch) {m : Nat} (ne : m ≠ s.serial) : ({ s with
    fresh := s.fresh + 1, serial := s.serial + 1, wgs := s.wgs ++ [k.newWg s.serial c] } : State).wg? m = s.wg? m := by
  unfold State.wg?
  rw [List.find?_append, List.find?_cons_of_neg, List.find?_nil, Option.or_none]
  rw [beq_iff_eq]
  exact Ne.symm ne

/-- The rigs of a new workgroup (R24, R357). -/
theorem newWg_rigs (k : Launch) (id c : Nat) {r : Nat} (hr : r < Spec.rigsOf k.rcd) : (k.newWg id c).rigs[r]? =
    some (k.rcd.newRig k.nextWg ((k.rcd.kimg + k.codeOfs + k.entry) % 2 ^ 64) k.readyAt r) := by
  unfold Launch.newWg
  rw [List.getElem?_map, rigs_eq_rigsOf, List.getElem?_range hr, Option.map_some]

/-- A core holds the grid table of a launch that names one (R101). -/
theorem State.mem_grids_holdGrid {s : State} {c : Nat} {k : Launch} (names : k.rcd.gridt ≠ 0) (there : c < s.cores.length) :
    k.id ∈ ((s.holdGrid c k).core c).grids := by
  rw [State.holdGrid, State.core_setCore s c c _ there, if_pos rfl]
  dsimp only
  by_cases held : k.id ∈ (s.core c).grids
  · rw [if_pos (.inr (List.contains_iff_mem.2 held))]
    exact held
  · rw [if_neg (by rw [List.contains_iff_mem]; tauto)]
    exact List.mem_append_right _ List.mem_cons_self

/-- What a placement leaves, as the rules state it. -/
structure IsPlaced (s : State) (c : Nat) (k : Launch) (t : State) : Prop where
  halt : t.halt = s.halt
  mem : t.mem = s.mem
  launches : t.launches = s.launches
  others : ∀ m, m ≠ s.serial → t.wg? m = s.wg? m
  grids : k.rcd.gridt ≠ 0 → c < s.cores.length → k.id ∈ (t.core c).grids
  own : ∃ rigs, t.wg? s.serial = some { k.newWg s.serial c with rigs := rigs } ∧ rigs.length = Spec.rigsOf k.rcd ∧
    ∀ r : Nat, ∃ bay ready a, rigs[r]? = ((k.newWg s.serial c).rigs[r]?).map fun q => placedRig q bay ready a

theorem placed_isPlaced {s : State} (inv : Inv s) (c : Nat) (k : Launch) : IsPlaced s c k (placed s c k) := by
  have entered := State.enterBays_entered (s := State.holdGrid { s with
    fresh := s.fresh + 1, serial := s.serial + 1, wgs := s.wgs ++ [k.newWg s.serial c] } c k)
    (w := k.newWg s.serial c) (wg?_append_new inv c k) c k.rcd.rigs
  obtain ⟨rigs, own, length, each⟩ := entered.aged c
  refine ⟨entered.halt, entered.mem, entered.launches, fun m ne => ?_, fun names there => ?_, rigs, own, ?_, each⟩
  · rw [placed, State.ageAll, State.wg?_setWg, if_neg (Ne.symm ne)]
    · exact (entered.others m ne).trans (wg?_append_other c k ne)
    · exact fun _ => rfl
  · refine (entered.grids c).symm ▸ State.mem_grids_holdGrid names there
  · rw [length, Launch.newWg, List.length_map, List.length_range, rigs_eq_rigsOf]

theorem IsPlaced.thread {s t : State} {c : Nat} {k : Launch} (h : IsPlaced s c k t) {r n : Nat} (hr : r < Spec.rigsOf k.rcd)
    (hn : n < 64) : ∃ a, t.thread ⟨s.serial, r, n⟩ = startThread k r n a := by
  obtain ⟨rigs, own, -, each⟩ := h.own
  obtain ⟨bay, ready, a, rig⟩ := each r
  refine ⟨a, ?_⟩
  rw [newWg_rigs k _ c hr, Option.map_some] at rig
  rw [State.thread, State.rig?, own, Option.bind_some, rig, Option.bind_some, placedRig, LaunchRec.newRig]
  dsimp only
  rw [List.map_map, List.getElem?_map, List.getElem?_range hn]
  exact newThread_aged k r n a

theorem newWg_rig_clear {k : Launch} {id c : Nat} {q : Rig} (h : q ∈ (k.newWg id c).rigs) :
    q.tok = [] ∧ q.aset = 0#32 ∧ q.rowprog = 0#32 := by
  obtain ⟨r, _, rfl⟩ := List.mem_map.1 h
  exact ⟨rfl, rfl, rfl⟩

/-- A core takes the next workgroup of the chosen launch (R26, R324, R357). -/
theorem workgroupPlace_next {s : State} {c : Nat} {k : Launch} (halt : s.halt = none) (inv : Inv s) (next : chosen s c k)
    (kernel : holdsKernel s c k) (launch : s.launch? k.id = some k) :
    ∃ t w, exec (.workgroupPlace k.id c) s = .next t ∧ t.wg? s.serial = some w ∧ w.launch = k.id ∧
      w.wgid = k.nextWg ∧ w.core = c ∧ w.loft = [] ∧ w.live = [] ∧ w.chans = [] ∧ w.replay = [] ∧
      w.pkperm = BitVec.ofNat 64 k.rcd.pkperm ∧ w.phase = .running ∧ w.rigs.length = Spec.rigsOf k.rcd ∧
      (∀ q ∈ w.rigs, q.tok = [] ∧ q.aset = 0#32 ∧ q.rowprog = 0#32) ∧
      (∀ r n, r < Spec.rigsOf k.rcd → n < 64 → ∃ a, t.thread ⟨s.serial, r, n⟩ = startThread k r n a) ∧
      (∀ m, m ≠ s.serial → t.wg? m = s.wg? m) ∧
      t.launch? k.id = some { k with nextWg := k.nextWg + 1 } ∧
      (k.rcd.gridt ≠ 0 → c < s.cores.length → k.id ∈ (t.core c).grids) ∧ t.mem = s.mem := by
  obtain ⟨use, marks, run⟩ := execWorkgroupPlace_of_chosen next kernel
  have placed := placed_isPlaced inv c k
  obtain ⟨rigs, own, length, each⟩ := placed.own
  refine ⟨_, _, run.trans ((conclude_eq_next _ _).2 ⟨placed.halt.trans halt, rfl⟩), own, rfl, rfl, rfl, rfl, rfl, rfl, rfl,
    rfl, rfl, length, fun q hq => ?_, fun r n => placed.thread, placed.others, ?_, placed.grids, placed.mem⟩
  · obtain ⟨r, hr⟩ := List.mem_iff_getElem?.1 hq
    obtain ⟨bay, ready, a, rig⟩ := each r
    obtain ⟨q0, h0, rfl⟩ := Option.map_eq_some_iff.1 (rig.symm.trans hr)
    exact newWg_rig_clear (id := s.serial) (c := c) (q := q0) (List.mem_of_getElem? h0)
  · have found : (Machine.placed s c k).launch? k.id = some k := by
      rw [State.launch?, placed.launches]
      exact launch
    have set := State.launch?_setLaunch (Machine.placed s c k) k.id k.id (fun l => { l with nextWg := l.nextWg + 1 })
      fun _ => rfl
    rw [if_pos rfl, found] at set
    exact set

end Sys2Proof.Machine
end

