-- ==== Sys2Proof/Proofs/Completions.lean ====
section
/-! WORKGROUP_COMPLETE (R162, R224): a workgroup leaves the bays of its core. -/

namespace Sys2Proof.Machine

open Sys2Proof.Spec

/-! A workgroup leaves its core. -/

/-- A bay holds nothing of a workgroup. -/
def Bay.without (y : Bay) (wg : Nat) : Prop :=
  (∀ r, some (wg, r) ∉ y.active ∧ some (wg, r) ∉ y.pending) ∧ ∀ l ∈ y.inGroups, l.wg ≠ wg

theorem Bay.reset_without (wg : Nat) : Bay.reset.without wg := by
  unfold Bay.without Bay.reset
  simp [Bay.inGroups]

/-- The rigs of other workgroups among the places of a bay. -/
theorem not_mem_places_of_other {wg r : Nat} {places : List (Option (Nat × Nat))} : some (wg, r) ∉
    places.map fun x => x.bind fun r => if r.1 == wg then none else some r := by
  intro h
  obtain ⟨x, -, e⟩ := List.mem_map.1 h
  cases x with
  | none => exact absurd e nofun
  | some q =>
    rw [Option.bind_some] at e
    split at e
    next => exact absurd e nofun
    next ne => exact ne (by rw [Option.some.inj e]; exact beq_self_eq_true _)

/-- What is left in the groups of a bay as lanes leave them. -/
theorem Bay.mem_inGroups_strip {y : Bay} {out : LaneRef → Bool} {l : LaneRef} (h : l ∈ (y.strip out).inGroups) : out l = false := by
  unfold Bay.inGroups Bay.strip at h
  rcases List.mem_append.1 h with h | h
  · cases port : y.port with
    | none =>
      rw [port] at h
      exact absurd h List.not_mem_nil
    | some g =>
      rw [port] at h
      simpa using (List.mem_filter.1 h).2
  · obtain ⟨g, hg, hl⟩ := List.mem_flatMap.1 h
    obtain ⟨g', -, rfl⟩ := List.mem_map.1 (List.mem_filter.1 hg).1
    simpa using (List.mem_filter.1 hl).2

theorem State.core_of_outside {s : State} {c : Nat} (h : ¬ c < s.cores.length) : s.core c = Core.reset := by
  rw [State.core, List.getElem?_eq_none (Nat.not_lt.1 h), Option.getD_none]

/-- A workgroup that has left the bays of its core stands in none of them. -/
theorem State.leaveBays_offCore (s : State) (wg c : Nat) : offCore (s.leaveBays wg c) wg c := by
  intro y hy
  by_cases there : c < s.cores.length
  · rw [State.leaveBays, State.core_setCore s c c _ there, if_pos rfl] at hy
    obtain ⟨z, -, rfl⟩ := List.mem_map.1 hy
    refine ⟨fun r => ⟨not_mem_places_of_other, not_mem_places_of_other⟩, fun l hl => ?_⟩
    have left := Bay.mem_inGroups_strip (y := z) (out := fun l => l.wg == wg) hl
    exact fun e => by simp [e] at left
  · rw [State.core_of_outside (by rwa [State.leaveBays, State.setCore, modifyAt_length])] at hy
    rw [List.eq_of_mem_replicate hy]
    exact Bay.reset_without wg

/-- An update of a core that keeps its bays. -/
theorem State.bays_setCore (s : State) (c d : Nat) {f : Core → Core} (h : ∀ k, (f k).bays = k.bays) :
    ((s.setCore c f).core d).bays = (s.core d).bays := by
  rcases s.core_setCore_or c d f with e | e
  · exact (congrArg Core.bays e).trans (h _)
  · exact congrArg Core.bays e

/-- The bays of a core do not change as it drops what no workgroup of it needs (R21, R27). -/
theorem State.bays_tidy (s : State) (c d : Nat) : ((s.tidy c).core d).bays = (s.core d).bays :=
  s.bays_setCore c d fun _ => rfl

theorem State.wg?_filter_other {s : State} {wg n : Nat} (ne : n ≠ wg) :
    ({ s with wgs := s.wgs.filter fun v => v.id != wg } : State).wg? n = s.wg? n := by
  unfold State.wg?
  rw [List.find?_filter]
  refine congrArg (s.wgs.find? ·) (funext fun v => ?_)
  by_cases e : v.id = n
  · simp [e, ne]
  · simp [e]

/-! WORKGROUP_COMPLETE. -/

/-- Nothing of a workgroup is outstanding (R162, R224). -/
structure Quiesced (s : State) (w : Workgroup) : Prop where
  loads : ∀ p ∈ s.loads, p.lane.wg ≠ w.id
  cmds : ∀ d ∈ s.cmds, d.lane.wg ≠ w.id
  ringMsgs : ∀ m ∈ s.ringMsgs, m.lane.wg ≠ w.id
  replay : w.replay = []
  again : w.again = []
  stores : ∀ q ∈ s.stores, q.lane.wg = w.id → q.place.loft = true
  tracks : ∀ k ∈ s.tracks, k.lane.map LaneRef.wg = some w.id → s.trackDone .sys k = true

theorem any_wg_eq_false {α : Type} {l : List α} {wg : α → Nat} {n : Nat} (h : ∀ x ∈ l, wg x ≠ n) :
    (l.any fun x => wg x == n) = false := List.any_eq_false.2 fun x hx => by
  rw [beq_iff_eq]
  exact h x hx

theorem Quiesced.busy {s : State} {w : Workgroup} (h : Quiesced s w) : s.busy w = false := by
  have stores : (s.stores.any fun p => p.lane.wg == w.id && !p.place.loft) = false := List.any_eq_false.2 fun q hq => by
    by_cases mine : q.lane.wg = w.id
    · simp [h.stores q hq mine]
    · simp [mine]
  have tracks : (s.tracks.any fun t => (t.lane.map LaneRef.wg) == some w.id && !(s.trackDone .sys t)) = false :=
    List.any_eq_false.2 fun k hk => by
      by_cases mine : k.lane.map LaneRef.wg = some w.id
      · simp [h.tracks k hk mine]
      · simp [mine]
  unfold State.busy State.writesPend Workgroup.listed
  rw [any_wg_eq_false h.loads, any_wg_eq_false h.cmds, any_wg_eq_false h.ringMsgs, h.replay, h.again, stores, tracks]
  rfl

/-- A workgroup without commands drops no slices but its record of them (R270). -/
theorem State.dropSlices_of_quiesced {s : State} {w : Workgroup} (h : Quiesced s w) :
    s.dropSlices w.id = s.setWg w.id fun w => { w with slices := [] } := by
  have none : s.cmds.filter (fun c => c.lane.wg == w.id && c.held) = [] := List.filter_eq_nil_iff.2 fun d hd => by
    simp [h.cmds d hd]
  unfold State.dropSlices
  rw [none]
  rfl

/-- The state as a workgroup is gone from its core (R162, R21). -/
def gone (s : State) (w : Workgroup) : State :=
  let u := ((s.setWg w.id fun w => { w with slices := [] }).dropLoftStores w.id).leaveBays w.id w.core
  State.tidy { u with wgs := u.wgs.filter fun v => v.id != w.id } w.core

theorem offCore_of_bays {s t : State} {wg c : Nat} (h : (t.core c).bays = (s.core c).bays) (off : offCore s wg c) :
    offCore t wg c := by
  unfold offCore
  rw [h]
  exact off

theorem gone_offCore (s : State) (w : Workgroup) : offCore (gone s w) w.id w.core :=
  offCore_of_bays (State.bays_tidy _ w.core w.core)
    (State.leaveBays_offCore ((s.setWg w.id fun w => { w with slices := [] }).dropLoftStores w.id) w.id w.core)

/-- A workgroup without live threads and outstanding operations completes (R162, R224, R322). -/
theorem execWorkgroupComplete_of_quiesced {s : State} {w : Workgroup} (noHard : Spec.noHard s) (wg : s.wg? w.id = some w)
    (phase : w.phase = .running) (exited : ∀ q ∈ w.rigs, ∀ th ∈ q.threads, th.alive = false) (quiet : Quiesced s w)
    (ended : w.ended = false) : execWorkgroupComplete w.id s =
      conclude ((gone s w).setLaunch w.launch fun l => { l with wgdone := l.wgdone + 1 }) := by
  have out : w.exited = true := by
    refine List.all_eq_true.2 fun q hq => List.all_eq_true.2 fun th hth => ?_
    rw [exited q hq th hth]
    rfl
  have idle : State.busy (s.setWg w.id fun w => { w with slices := [] }) w = false :=
    Quiesced.busy ⟨quiet.loads, quiet.cmds, quiet.ringMsgs, quiet.replay, quiet.again, quiet.stores, quiet.tracks⟩
  unfold execWorkgroupComplete
  rw [State.sweep_of_noHard noHard]
  simp only [wg, out, phase, State.dropSlices_of_quiesced quiet, idle, ended, Bool.not_true, bne_self_eq_false, Bool.or_self,
    Bool.false_eq_true, if_false]
  rfl

/-- WORKGROUP_COMPLETE (R162, R224, R322). -/
theorem workgroupComplete_next {s : State} {w : Workgroup} {k : Launch} (halt : s.halt = none) (noHard : Spec.noHard s)
    (wg : s.wg? w.id = some w) (phase : w.phase = .running)
    (exited : ∀ q ∈ w.rigs, ∀ th ∈ q.threads, th.alive = false) (quiet : Quiesced s w) (ended : w.ended = false)
    (launch : s.launch? w.launch = some k) :
    ∃ t, exec (.workgroupComplete w.id) s = .next t ∧ (∀ v ∈ t.wgs, v.id ≠ w.id) ∧
      (∀ n, n ≠ w.id → t.wg? n = s.wg? n) ∧ offCore t w.id w.core ∧
      t.launch? w.launch = some { k with wgdone := k.wgdone + 1 } ∧ t.mem = s.mem := by
  have run := execWorkgroupComplete_of_quiesced noHard wg phase exited quiet ended
  refine ⟨_, run.trans ((conclude_eq_next _ _).2 ⟨halt, rfl⟩), fun v hv => ?_, fun n ne => ?_, ?_, ?_, rfl⟩
  · exact bne_iff_ne.1 (List.mem_filter.1 hv).2
  · refine (State.wg?_filter_other (s := s.setWg w.id fun w => { w with slices := [] }) ne).trans ?_
    rw [State.wg?_setWg, if_neg (Ne.symm ne)]
    exact fun _ => rfl
  · exact gone_offCore s w
  · have set := State.launch?_setLaunch (gone s w) w.launch w.launch (fun l => { l with wgdone := l.wgdone + 1 }) fun _ => rfl
    rw [if_pos rfl, show (gone s w).launch? w.launch = some k from launch] at set
    exact set

end Sys2Proof.Machine
end

