-- ==== Sys2Proof/Proofs/Preemptions.lean ====
section
/-! PREEMPT (R325): the order in which cores are marked, and how many of them. -/

namespace Sys2Proof.Machine

open Sys2Proof.Spec

theorem contains_map_eq_any {α : Type} (l : List α) (f : α → Nat) (n : Nat) : (l.map f).contains n = l.any fun x => f x == n := by
  rw [Bool.eq_iff_iff, List.contains_iff_mem, List.mem_map, List.any_eq_true]
  simp only [beq_iff_eq]

/-- Room for a launch on a core once its victims have drained (R325). -/
theorem State.roomAfter_eq (s : State) (k : Launch) (c : Nat) :
    s.roomAfter k c = s.room k (leftOn s k c) (gridsLeft s k c) := by
  have swapped (g : Nat) : ((s.wgs.filter fun w => w.core == c && w.phase == .swapped).map Workgroup.launch).contains g =
      s.wgs.any fun w => w.core == c && w.phase == .swapped && w.launch == g := by
    rw [contains_map_eq_any, List.any_filter]
  unfold State.roomAfter leftOn gridsLeft
  simp only [contains_map_eq_any _ Launch.id, swapped]
  rfl

theorem State.qualifies_iff {s : State} {k : Launch} {c : Nat} : s.qualifies k c = true ↔ qualified s k c := by
  have victims : (!(s.victims k c).isEmpty) = true ↔ victimsOf s k c ≠ [] := by
    rw [Bool.not_eq_true', ← Bool.not_eq_true, List.isEmpty_iff]
    rfl
  unfold State.qualifies qualified
  rw [Bool.and_eq_true, Bool.and_eq_true, State.coreServes_iff, victims, decide_eq_true_eq, State.roomAfter_eq,
    State.room_pos_iff, and_assoc]

theorem State.victimPrio_eq (s : State) (k : Launch) (c : Nat) : s.victimPrio k c = topPrio s k c := by
  unfold State.victimPrio topPrio
  rw [List.foldl_map]
  rfl

theorem topPrio_lt {s : State} {k : Launch} {c n : Nat} (h : k.rcd.prio < n) : topPrio s k c < n := by
  have below : ∀ v ∈ victimsOf s k c, v.rcd.prio < n := fun v hv => by
    have lower := (List.mem_filter.1 hv).2
    simp only [Bool.and_eq_true, decide_eq_true_eq] at lower
    exact lower.1.2.trans h
  unfold topPrio
  rw [List.foldl_map]
  exact List.foldlRecOn (motive := fun m => m < n) (victimsOf s k c) _ (Nat.zero_lt_of_lt h) fun m hm v hv =>
    max_lt hm (below v hv)

/-! The order of the marks. -/

theorem sooner.trans {s : State} {k : Launch} {a b c : Nat} (h : sooner s k a b) (h' : sooner s k b c) : sooner s k a c := by
  unfold sooner at *
  omega

theorem sooner.asymm {s : State} {k : Launch} {a b : Nat} (h : sooner s k a b) : ¬ sooner s k b a := by
  unfold sooner at *
  omega

/-- The qualifying cores are marked in the order of R325. -/
theorem State.markOrder_pairwise (s : State) (k : Launch) : (s.markOrder k).Pairwise (sooner s k) := by
  unfold State.markOrder
  rw [List.pairwise_flatMap]
  refine ⟨fun p _ => ?_, List.pairwise_lt_range.imp fun {p q} lt a ha b hb => ?_⟩
  · refine (List.pairwise_lt_range.sublist List.filter_sublist).imp_of_mem fun {a b} ha hb lt => ?_
    have pa := (List.mem_filter.1 ha).2
    have pb := (List.mem_filter.1 hb).2
    simp only [Bool.and_eq_true, beq_iff_eq, State.victimPrio_eq] at pa pb
    exact .inr ⟨pa.2.trans pb.2.symm, lt⟩
  · have pa := (List.mem_filter.1 ha).2
    have pb := (List.mem_filter.1 hb).2
    simp only [Bool.and_eq_true, beq_iff_eq, State.victimPrio_eq] at pa pb
    exact .inl (by omega)

theorem State.mem_markOrder {s : State} {k : Launch} (prio : k.rcd.prio < 8) {c : Nat} :
    c ∈ s.markOrder k ↔ qualified s k c := by
  unfold State.markOrder
  simp only [List.mem_flatMap, List.mem_range, List.mem_filter, Bool.and_eq_true, State.qualifies_iff, beq_iff_eq,
    State.victimPrio_eq]
  exact ⟨fun ⟨p, _, _, h, _⟩ => h, fun h => ⟨topPrio s k c, topPrio_lt prio, h.1.1, h, rfl⟩⟩

/-- Cores in the order of R325, before all others that qualify, are the first to be marked. -/
theorem State.markOrder_eq_append {s : State} {k : Launch} {cs : List Nat} (prio : k.rcd.prio < 8)
    (all : ∀ c ∈ cs, qualified s k c) (sorted : cs.Pairwise (sooner s k))
    (first : ∀ d, qualified s k d → d ∉ cs → ∀ c ∈ cs, sooner s k c d) :
    s.markOrder k = cs ++ (s.markOrder k).filter fun d => !(cs.contains d) := by
  have order := s.markOrder_pairwise k
  have apart {l : List Nat} (h : l.Pairwise (sooner s k)) : l.Nodup := h.imp fun {a b} hab e => by
    subst e
    exact sooner.asymm hab hab
  have sorted' : (cs ++ (s.markOrder k).filter fun d => !(cs.contains d)).Pairwise (sooner s k) := by
    refine List.pairwise_append.2 ⟨sorted, order.sublist List.filter_sublist, fun c hc d hd => ?_⟩
    obtain ⟨hd, out⟩ := List.mem_filter.1 hd
    exact first d ((State.mem_markOrder prio).1 hd) (by simpa using out) c hc
  refine List.Perm.eq_of_pairwise (le := sooner s k) (fun a b _ _ hab hba => absurd hba (sooner.asymm hab)) order sorted'
    ((List.perm_ext_iff_of_nodup (apart order) (apart sorted')).2 fun d => ?_)
  rw [List.mem_append, List.mem_filter, State.mem_markOrder prio]
  refine ⟨fun h => ?_, fun h => h.elim (all d) fun h => h.1⟩
  by_cases hd : d ∈ cs
  · exact .inl hd
  · exact .inr ⟨h, by simpa using hd⟩

/-- The mark of a launch on a core (R325). -/
def markOf (s : State) (k : Launch) (c : Nat) : Mark := ⟨c, k.id, (victimsOf s k c).map Launch.id⟩

/-- Cores are marked as long as some of the launch is left (R325). -/
theorem State.markCores_append (s : State) (k : Launch) {cs rest : List Nat} {left : Nat} {ms : List Mark}
    (some : cs ≠ [] → (cs.dropLast.map (s.roomAfter k)).sum < left) :
    s.markCores k (cs ++ rest) left ms =
      s.markCores k rest (left - (cs.map (s.roomAfter k)).sum) (ms ++ cs.map (markOf s k)) := by
  induction cs generalizing left ms with
  | nil => rw [List.nil_append, List.map_nil, List.map_nil, List.append_nil]; rfl
  | cons c r ih =>
    have below := some (List.cons_ne_nil c r)
    rw [List.cons_append, State.markCores, if_neg (Nat.ne_of_gt (Nat.zero_lt_of_lt below)), ih, List.map_cons, List.map_cons,
      List.sum_cons, Nat.sub_sub, List.append_assoc, List.singleton_append]
    · rfl
    · intro more
      obtain ⟨d, r', rfl⟩ := List.exists_cons_of_ne_nil more
      rw [List.dropLast_cons_cons, List.map_cons, List.sum_cons] at below
      omega

theorem State.markCores_of_done {s : State} {k : Launch} {rest : List Nat} {left : Nat} {ms : List Mark}
    (done : left = 0 ∨ rest = []) : s.markCores k rest left ms = ms := by
  cases rest with
  | nil => rfl
  | cons c r => exact if_pos (done.resolve_right (List.cons_ne_nil c r))

/-- PREEMPT of a launch that no core takes and that has marked none (R325). -/
theorem execPreempt_of_unmarked {s : State} {k : Launch} (halt : s.halt = none) (launch : s.launch? k.id = some k)
    (work : Spec.hasWork s k) (stuck : ∀ c, ¬ mayTake s c k) (unmarked : ∀ m ∈ s.marks, m.launch ≠ k.id) :
    execPreempt k.id s = .next { s with marks := s.marks ++ s.markCores k (s.markOrder k) (k.total - k.nextWg) [] } := by
  have takes : ((List.range Config.cores).any fun c => s.takes c k) = false := List.any_eq_false.2 fun c _ h =>
    stuck c (State.takes_iff.1 h)
  have mine : s.marks.filter (fun m => m.launch == k.id) = [] := List.filter_eq_nil_iff.2 fun m hm => by
    simpa using unmarked m hm
  have more : (s.markOrder k).filter (fun c => !(([] : List Mark).any fun m => m.core == c)) = s.markOrder k :=
    List.filter_eq_self.2 fun _ _ => rfl
  unfold execPreempt
  refine (conclude_eq_next _ _).2 ⟨?_, ?_⟩ <;>
    simp only [launch, State.placeable_iff.2 work, takes, mine, more, Bool.not_true, Bool.or_self, Bool.false_eq_true, if_false,
    List.foldl_nil, Nat.sub_zero]
  exact halt

end Sys2Proof.Machine

open Sys2Proof Sys2Proof.Machine Sys2Proof.Spec

/-- Settles O49: a core takes the best launch that it may take, and the marks go to the first of the qualifying cores. -/
theorem placement : Obligations.Placement := by
  unfold Obligations.Placement
  refine ⟨fun s c k halt inv next kernel launch => workgroupPlace_next halt inv next kernel launch,
    fun s c id halt other => execWorkgroupPlace_of_other halt other,
    fun s w k halt noHard wg phase exited loads cmds ringMsgs replay again stores tracks ended launch =>
      workgroupComplete_next halt noHard wg phase exited ⟨loads, cmds, ringMsgs, replay, again, stores, tracks⟩ ended launch,
    fun s k cs n halt launch work stuck unmarked threads prio each sorted first enough needed => ?_⟩
  have room (c : Nat) (hc : c ∈ cs) : s.roomAfter k c = n c := by
    obtain ⟨⟨-, -, one⟩, fit, more⟩ := each c hc
    rw [State.roomAfter_eq]
    exact State.room_eq threads one fit more
  have rooms {l : List Nat} (sub : ∀ c ∈ l, c ∈ cs) : l.map (s.roomAfter k) = l.map n :=
    List.map_congr_left fun c hc => room c (sub c hc)
  change execPreempt k.id s = _
  rw [execPreempt_of_unmarked halt launch work stuck unmarked,
    State.markOrder_eq_append prio (fun c hc => (each c hc).1) sorted first, State.markCores_append, State.markCores_of_done]
  · rfl
  · rw [rooms fun _ => id]
    refine enough.imp Nat.sub_eq_zero_of_le fun all => List.filter_eq_nil_iff.2 fun d hd => ?_
    have out := all d ((State.mem_markOrder prio).1 hd)
    simpa using out
  · intro some
    rw [rooms fun _ => List.mem_of_mem_dropLast]
    exact needed some

end

