-- ==== Sys2Proof/Proofs/SoundWrites.lean ====
section
/-! SUPPORT. A hardware write over sectors whose check values hold puts its bytes and nothing else (R301, R342). -/

namespace Sys2Proof.Machine

open Sys2Proof.Spec

/-! Sectors of a run of bytes (R341). -/

theorem mem_sectorsOf {pa n sec : Nat} : sec ∈ sectorsOf pa n ↔ 0 < n ∧ pa / 32 ≤ sec ∧ 32 * sec < pa + n := by
  unfold sectorsOf
  by_cases e : n = 0
  · simp [e]
  · rw [if_neg e]
    simp only [List.mem_map, List.mem_range]
    exact ⟨fun ⟨i, lt, e⟩ => by omega, fun ⟨_, _, _⟩ => ⟨sec - pa / 32, by omega, by omega⟩⟩

theorem sectorsOf_within {pa n : Nat} (some : 0 < n) (within : pa % 32 + n ≤ 32) : sectorsOf pa n = [pa / 32] := by
  unfold sectorsOf
  rw [if_neg (by omega), show (pa + n - 1) / 32 - pa / 32 + 1 = 1 by omega]
  rfl

theorem State.sectorMismatch_of_sound {s : State} {pa n sec : Nat} (sound : s.badSectors pa n = [])
    (touched : sec ∈ sectorsOf pa n) : s.sectorMismatch sec = false := by
  have good := List.filter_eq_nil_iff.1 sound sec touched
  unfold State.sectorBad at good
  unfold State.sectorMismatch
  revert good
  cases region (32 * sec) == 0 <;> cases crc16 (s.sector sec) != Map.get 0 s.chk sec <;> simp

/-! Writes within a sector. -/

theorem State.monitor_chk (s : State) (pa : Nat) (data : List Byte) : (s.monitor pa data).chk = s.chk := by
  unfold State.monitor
  dsimp only
  split
  · rfl
  split <;> rfl

theorem State.monitor_halt (s : State) (pa : Nat) (data : List Byte) : (s.monitor pa data).halt = s.halt := by
  unfold State.monitor
  dsimp only
  split
  · rfl
  split <;> rfl

/-- A write within a sector leaves the check of every other sector as it is. -/
theorem State.sectorMismatch_putSector_other (s : State) (w : Writer) (bad : Bool) {pa sec : Nat} {data : List Byte}
    (some : 0 < data.length) (within : pa % 32 + data.length ≤ 32) (ne : sec ≠ pa / 32) :
    (s.putSector w bad pa data).sectorMismatch sec = s.sectorMismatch sec := by
  have bytes : Memory.readN (Memory.writeN (s.monitor pa data).mem pa data) (32 * sec) 32 = Memory.readN s.mem (32 * sec) 32 := by
    rw [State.monitor_mem]
    exact Memory.readN_writeN_apart _ _ _ _ _ (by omega)
  have value : Map.get 0 (s.putSector w bad pa data).chk sec = Map.get 0 s.chk sec := by
    change Map.get 0 ((s.monitor pa data).rawWrite pa data).chk sec = _
    unfold State.rawWrite
    dsimp only
    rw [sectorsOf_within some within, List.foldl_cons, List.foldl_nil, State.monitor_chk]
    split
    · exact Map.get_set_other _ _ _ _ _ ne
    · rfl
  unfold State.sectorMismatch
  rw [value]
  exact congrArg (fun b => region (32 * sec) == 0 && crc16 b != Map.get 0 s.chk sec) bytes

/-- A write into a sector whose check value holds reports nothing (R343). -/
theorem State.writeSector_of_sound {s : State} (w : Writer) {pa : Nat} (data : List Byte)
    (sound : s.sectorMismatch (pa / 32) = false) :
    s.writeSector w pa data = s.putSector w (w.bad || (data.length != 32 && s.sectorBad (pa / 32))) pa data := by
  unfold State.writeSector State.reportChecks
  rw [sectorsOf_within (by decide) (by omega), Nat.mul_div_cancel_left _ (by decide : 0 < 32), List.filter_cons_of_neg]
  · rfl
  · rw [sound]
    exact Bool.false_ne_true

theorem Memory.writeN_take_drop (m : Memory) (a n : Nat) (data : List Byte) :
    Memory.writeN (Memory.writeN m a (data.take n)) (a + n) (data.drop n) = Memory.writeN m a data := by
  induction n generalizing m a data with
  | zero => rfl
  | succ n ih =>
    cases data with
    | nil => rfl
    | cons b data =>
      rw [List.take_succ_cons, List.drop_succ_cons, Memory.writeN, Memory.writeN, Nat.add_comm n 1, ← Nat.add_assoc, ih]

/-- The pieces of a write over sound sectors put their bytes (R301, R342). -/
theorem State.foldl_writeSector (w : Writer) (fuel : Nat) {s : State} {pa : Nat} {data : List Byte} (fuel_ : data.length < fuel)
    (sound : ∀ sec ∈ sectorsOf pa data.length, s.sectorMismatch sec = false) :
    ((cutSectors fuel pa data).foldl (fun s c => s.writeSector w c.1 c.2) s).mem = Memory.writeN s.mem pa data ∧
      ((cutSectors fuel pa data).foldl (fun s c => s.writeSector w c.1 c.2) s).halt = s.halt := by
  induction fuel generalizing s pa data with
  | zero => omega
  | succ fuel ih =>
    unfold cutSectors
    by_cases none : data = []
    · rw [none]
      exact ⟨rfl, rfl⟩
    have some : 0 < data.length := List.length_pos_iff.2 none
    have piece : (data.take (32 - pa % 32)).length = min (32 - pa % 32) data.length := List.length_take
    have rest : (data.drop (32 - pa % 32)).length = data.length - (32 - pa % 32) := List.length_drop
    rw [if_neg (by rwa [List.isEmpty_iff])]
    dsimp only
    rw [List.foldl_cons, State.writeSector_of_sound w _ (sound _ (mem_sectorsOf.2 ⟨some, le_rfl, by omega⟩))]
    obtain ⟨mem, halt⟩ := ih (s := s.putSector w (w.bad || ((data.take (32 - pa % 32)).length != 32 && s.sectorBad (pa / 32))) pa
      (data.take (32 - pa % 32))) (pa := pa + (32 - pa % 32))
      (data := data.drop (32 - pa % 32)) (by omega) fun sec touched => by
        obtain ⟨left, from_, below⟩ := mem_sectorsOf.1 touched
        rw [State.sectorMismatch_putSector_other s w _ (by omega) (by omega) (by omega)]
        exact sound sec (mem_sectorsOf.2 ⟨some, by omega, by omega⟩)
    refine ⟨mem.trans ?_, halt.trans (s.monitor_halt pa _)⟩
    rw [State.putSector_mem, Memory.writeN_take_drop]

/-! Writes at a home (R301, R303). -/

theorem State.mirrorLine_halt (s : State) (w : Writer) (id line : Nat) : (s.mirrorLine w id line).halt = s.halt := by
  unfold State.mirrorLine
  split
  · rfl
  dsimp only
  split <;> rfl

theorem State.putLines_halt (s : State) (w : Writer) (id pa n : Nat) : (s.putLines w id pa n).halt = s.halt := by
  unfold State.putLines
  split
  · rfl
  · exact List.foldlRecOn (motive := fun t : State => t.halt = s.halt) _ _ rfl fun t ht line _ =>
      (State.mirrorLine_halt t w id line).trans ht

theorem State.countLink_countersOnly (s : State) (pa : Nat) : CountersOnly s (s.countLink pa) := by
  unfold State.countLink
  split
  · exact (s.count_countersOnly _ _ _).trans (State.count_countersOnly _ _ _ _)
  · exact CountersOnly.refl s

theorem CountersOnly.sectorMismatch {s t : State} (h : CountersOnly s t) (sec : Nat) :
    t.sectorMismatch sec = s.sectorMismatch sec := by
  obtain ⟨_, _, _, rfl⟩ := h
  rfl

theorem CountersOnly.halt_mem {s t : State} (h : CountersOnly s t) : t.halt = s.halt ∧ t.mem = s.mem := by
  obtain ⟨_, _, _, rfl⟩ := h
  exact ⟨rfl, rfl⟩

/-- A hardware write over sound sectors of an address that exists puts its bytes (R290, R301, R342). -/
theorem State.hwWrite_of_sound {s : State} (upd quiet : Bool) {pa : Nat} {data : List Byte} (there : paExists pa = true)
    (sound : s.badSectors pa data.length = []) :
    (s.hwWrite upd quiet pa data).2.mem = Memory.writeN s.mem pa data ∧ (s.hwWrite upd quiet pa data).2.halt = s.halt := by
  have counted := s.take.2.countLink_countersOnly pa
  have link := counted.halt_mem
  have pieces := State.foldl_writeSector (.hw upd false quiet) (data.length + 1) (s := s.take.2.countLink pa) (pa := pa)
    (data := data) (Nat.lt_succ_self _) fun sec touched =>
      (counted.sectorMismatch sec).trans (State.sectorMismatch_of_sound (s := s) sound touched)
  change (State.homeWrite s.take.2 (.hw upd false quiet) s.take.1 pa data).mem = _ ∧
    (State.homeWrite s.take.2 (.hw upd false quiet) s.take.1 pa data).halt = _
  unfold State.homeWrite checkPa
  dsimp only
  rw [if_pos there, if_neg (by exact Bool.false_ne_true), State.putLines_mem, State.putLines_halt]
  exact ⟨pieces.1.trans (congrArg (Memory.writeN · pa data) link.2), pieces.2.trans link.1⟩

/-- The bytes that a write of a run leaves. -/
theorem holdsBytes_writeN {m : Memory} (wf : Memory.wf m = true) (a : Nat) (data : List Byte) :
    holdsBytes (Memory.writeN m a data) a data := fun k lt => by
  rw [Memory.read_writeN_inside m a k data wf lt, List.getD_eq_getElem?_getD, List.getElem?_eq_getElem lt, Option.getD_some]

theorem readN_of_holdsBytes {m : Memory} {a : Nat} {data : List Byte} (h : holdsBytes m a data) :
    Memory.readN m a data.length = data := by
  induction data generalizing a with
  | nil => rfl
  | cons b data ih =>
    have head : Memory.read m a = b := h 0 (Nat.succ_pos _)
    have tail : holdsBytes m (a + 1) data := fun k lt => by
      have next := h (k + 1) (Nat.succ_lt_succ lt)
      rw [List.getD_cons_succ] at next
      rw [← next, Nat.add_assoc, Nat.add_comm 1 k]
    rw [List.length_cons, Memory.readN, head, ih tail]

end Sys2Proof.Machine
end

