-- ==== Sys2Proof/Proofs/Frames.lean ====
section
/-! SUPPORT. The bytes of a context frame, and how a frame is read back (R306, R327). -/

namespace Sys2Proof.Machine

open Sys2Proof.Spec

/-! Bytes of numbers (R4). -/

theorem leBytes_zero (n : Nat) : leBytes n 0 = List.replicate n 0#8 := by
  induction n with
  | zero => rfl
  | succ n ih => rw [leBytes, Nat.zero_div, ih, List.replicate_succ]

theorem leBytes_leNat {n : Nat} {data : List Byte} (fit : data.length ≤ n) :
    leBytes n (leNat data) = data ++ List.replicate (n - data.length) 0#8 := by
  induction data generalizing n with
  | nil => rw [leNat, leBytes_zero, List.nil_append, List.length_nil, Nat.sub_zero]
  | cons b data ih =>
    obtain ⟨n, rfl⟩ : ∃ m, n = m + 1 := ⟨n - 1, by rw [List.length_cons] at fit; omega⟩
    have lt := b.isLt
    have low : BitVec.ofNat 8 (b.toNat + 256 * leNat data) = b := BitVec.eq_of_toNat_eq (by rw [BitVec.toNat_ofNat]; omega)
    rw [leNat, leBytes, low, show (b.toNat + 256 * leNat data) / 256 = leNat data by omega,
      ih (by rw [List.length_cons] at fit; omega), List.length_cons, Nat.add_sub_add_right, List.cons_append]

/-! Entries of a replay list (R306). -/

/-- The first 8 bytes of an entry: its lane, its rig and kind, and zeros. -/
theorem leBytes_place {lane rig code : Nat} (hl : lane < 64) (hr : rig < 16) (hc : code < 16) :
    leBytes 8 (lane + 2 ^ 8 * rig + 2 ^ 12 * code) =
      leBytes 1 lane ++ [BitVec.ofNat 8 (rig + 16 * code)] ++ List.replicate 6 0#8 := by
  have low : BitVec.ofNat 8 (lane + 2 ^ 8 * rig + 2 ^ 12 * code) = BitVec.ofNat 8 lane :=
    BitVec.eq_of_toNat_eq (by rw [BitVec.toNat_ofNat, BitVec.toNat_ofNat]; omega)
  have next : (lane + 2 ^ 8 * rig + 2 ^ 12 * code) / 256 = rig + 16 * code := by omega
  rw [leBytes, leBytes, low, next, show (rig + 16 * code) / 256 = 0 by omega, leBytes_zero]
  rfl

theorem Replay.bytes_eq_entryBytes {r : Replay} (hl : r.lane < 64) (hr : r.rig < 16) : r.bytes = entryBytes r := by
  have code : r.kind.code < 16 := by cases r.kind <;> decide
  have datum : leBytes 8 (if r.data.length ≤ 8 then leNat r.data else 0) =
      if r.data.length ≤ 8 then r.data ++ List.replicate (8 - r.data.length) 0#8 else List.replicate 8 0#8 := by
    split
    next fit => exact leBytes_leNat fit
    next => exact leBytes_zero 8
  unfold Replay.bytes
  rw [leBytes_place hl hr code, datum]
  unfold entryBytes
  cases r.kind <;> rfl

theorem flatMap_bytes_eq_entryBytes {rs : List Replay} (range : ∀ r ∈ rs, r.lane < 64 ∧ r.rig < 16) :
    rs.flatMap Replay.bytes = rs.flatMap entryBytes :=
  List.flatMap_congr fun r hr => Replay.bytes_eq_entryBytes (range r hr).1 (range r hr).2

theorem Replay.length_bytes (r : Replay) : r.bytes.length = 32 := by
  unfold Replay.bytes
  simp only [List.length_append, leBytes_length]

theorem length_flatMap_bytes (rs : List Replay) : (rs.flatMap Replay.bytes).length % 8 = 0 := by
  induction rs with
  | nil => rfl
  | cons r rs ih =>
    rw [List.flatMap_cons, List.length_append, Replay.length_bytes]
    omega

/-! The sections of a frame (R327). -/

/-- A section as its tag, version and payload. -/
def Section.part (x : Section) : Nat × Nat × List Byte := (x.tag, x.ver, x.data)

/-- A section has the version and the length that the rule gives it, and the payload that it fixes. -/
def IsPart (replay : List Replay) (x : Nat × Nat × List Byte) : Prop :=
  x.2.1 = (if x.1 = 2 then 2 else 1) ∧ x.2.2.length % 8 = 0 ∧
    (x.1 = 7 → x.2.2 = replay.flatMap entryBytes) ∧ (x.1 = 0xFF → x.2.2 = [])

theorem isFrame_iff {parts : List (Nat × Nat × List Byte)} {loft acc : Nat} {replay : List Replay} :
    isFrame parts loft acc replay ↔ parts.map Prod.fst = frameTags loft acc ∧ ∀ x ∈ parts, IsPart replay x := Iff.rfl

theorem freeSection_isPart (replay : List Replay) (serial wg : Nat) {tag ver : Nat} (version : ver = if tag = 2 then 2 else 1)
    (list : tag ≠ 7) (last : tag ≠ 0xFF) : IsPart replay (freeSection serial wg tag ver).part :=
  ⟨version, by simp [Section.part, freeSection], fun h => absurd h list, fun h => absurd h last⟩

theorem State.limits_of_launch {s : State} {w : Workgroup} {k : Launch} (wg : s.wg? w.id = some w)
    (launch : s.launch? w.launch = some k) : s.limits w.id = (k.rcd.nreg, k.rcd.nacc, k.rcd.loftb) := by
  unfold State.limits State.launchOf?
  rw [wg, Option.bind_some, launch]

theorem mem_ite_nil {α : Type} {p : Prop} [Decidable p] {x y : α} (h : x ∈ if p then [] else [y]) : x = y := by
  split at h
  · exact absurd h List.not_mem_nil
  · exact List.mem_singleton.1 h

/-- A frame holds the sections of R327 in their order. -/
theorem State.frameSections_isFrame {s : State} {w : Workgroup} {k : Launch} (wg : s.wg? w.id = some w)
    (launch : s.launch? w.launch = some k) (range : ∀ r ∈ w.replay, r.lane < 64 ∧ r.rig < 16) :
    isFrame ((s.frameSections w).map Section.part) k.rcd.loftb k.rcd.nacc w.replay := by
  refine isFrame_iff.2 ⟨?_, fun x hx => ?_⟩
  · unfold State.frameSections frameTags
    rw [State.limits_of_launch wg launch]
    by_cases loft : k.rcd.loftb = 0 <;> by_cases acc : k.rcd.nacc = 0 <;> simp only [loft, acc, if_true, if_false] <;> rfl
  · obtain ⟨x, there, rfl⟩ := List.mem_map.1 hx
    have free {tag ver : Nat} (e : x = freeSection s.serial w.id tag ver) (version : ver = if tag = 2 then 2 else 1)
        (list : tag ≠ 7) (last : tag ≠ 0xFF) : IsPart w.replay x.part :=
      e ▸ freeSection_isPart w.replay s.serial w.id version list last
    unfold State.frameSections at there
    simp only [List.mem_append, List.mem_cons, List.not_mem_nil, or_false] at there
    rcases there with (((e | e | e | e) | e) | e) | e | e | e | e
    · exact free e rfl (by decide) (by decide)
    · exact free e rfl (by decide) (by decide)
    · exact free e rfl (by decide) (by decide)
    · exact free e rfl (by decide) (by decide)
    · exact free (mem_ite_nil e) rfl (by decide) (by decide)
    · exact free (mem_ite_nil e) rfl (by decide) (by decide)
    · rw [e]
      exact ⟨rfl, length_flatMap_bytes w.replay, fun _ => flatMap_bytes_eq_entryBytes range,
        fun h => absurd h (show ¬ (7 : Nat) = 0xFF by decide)⟩
    · exact free e rfl (by decide) (by decide)
    · exact free e rfl (by decide) (by decide)
    · rw [e]
      exact ⟨rfl, rfl, fun h => absurd h (by decide), fun _ => rfl⟩

theorem State.frameBytes_eq_partBytes (s : State) (w : Workgroup) :
    s.frameBytes w = ((s.frameSections w).map Section.part).flatMap partBytes := by
  rw [List.flatMap_map]
  rfl

/-! A frame is read back (R327, R355). -/

/-- A section as its parts give it. -/
def partSection (x : Nat × Nat × List Byte) : Section := ⟨x.1, x.2.1, x.2.2⟩

/-- The fields of a section's header hold its tag, version and length. -/
def Fits (x : Nat × Nat × List Byte) : Prop := x.1 < 2 ^ 16 ∧ x.2.1 < 2 ^ 16 ∧ x.2.2.length < 2 ^ 32 ∧ x.2.2.length % 8 = 0

theorem length_partBytes (x : Nat × Nat × List Byte) : (partBytes x).length = 8 + x.2.2.length := by
  unfold partBytes
  simp only [List.length_append, leBytes_length]

theorem leNat_leBytes_of_lt {n v : Nat} (lt : v < 256 ^ n) : leNat (leBytes n v) = v := by
  rw [leNat_leBytes, Nat.mod_eq_of_lt lt]

/-- The section at the head of a run of bytes. -/
theorem parseFrame_step {x : Nat × Nat × List Byte} (fits : Fits x) (fuel : Nat) (rest : List Byte) :
    parseFrame (fuel + 1) (partBytes x ++ rest) =
      if x.1 = 0xFF then some [partSection x] else (parseFrame fuel rest).map fun r => partSection x :: r := by
  obtain ⟨tag, ver, len, whole⟩ := fits
  have bytes : partBytes x ++ rest = leBytes 2 x.1 ++ (leBytes 2 x.2.1 ++ (leBytes 4 x.2.2.length ++ (x.2.2 ++ rest))) := by
    unfold partBytes
    simp only [List.append_assoc]
  have htag : leNat ((partBytes x ++ rest).take 2) = x.1 := by
    rw [bytes, List.take_left' (leBytes_length 2 _), leNat_leBytes_of_lt tag]
  have hver : leNat (((partBytes x ++ rest).drop 2).take 2) = x.2.1 := by
    rw [bytes, List.drop_left' (leBytes_length 2 _), List.take_left' (leBytes_length 2 _), leNat_leBytes_of_lt ver]
  have four : (partBytes x ++ rest).drop 4 = leBytes 4 x.2.2.length ++ (x.2.2 ++ rest) := by
    rw [bytes, ← List.append_assoc, List.drop_left' (by rw [List.length_append, leBytes_length, leBytes_length])]
  have hlen : leNat (((partBytes x ++ rest).drop 4).take 4) = x.2.2.length := by
    rw [four, List.take_left' (leBytes_length 4 _), leNat_leBytes_of_lt len]
  have hdata : ((partBytes x ++ rest).drop 8).take x.2.2.length = x.2.2 := by
    rw [show (8 : Nat) = 4 + 4 from rfl, ← List.drop_drop, four, List.drop_left' (leBytes_length 4 _), List.take_left]
  have hrest : (partBytes x ++ rest).drop (8 + x.2.2.length) = rest := List.drop_left' (length_partBytes x)
  rw [parseFrame]
  dsimp only
  rw [htag, hver, hlen, hdata, hrest, if_neg]
  · rfl
  · rw [List.length_append, length_partBytes]
    omega

theorem parseFrame_flatMap {parts : List (Nat × Nat × List Byte)} {last : Nat × Nat × List Byte} (end_ : last.1 = 0xFF)
    (fits : ∀ x ∈ parts ++ [last], Fits x) (before : ∀ x ∈ parts, x.1 ≠ 0xFF) {fuel : Nat} (enough : parts.length < fuel) :
    parseFrame fuel ((parts ++ [last]).flatMap partBytes) = some ((parts ++ [last]).map partSection) := by
  induction parts generalizing fuel with
  | nil =>
    obtain ⟨fuel, rfl⟩ : ∃ n, fuel = n + 1 := ⟨fuel - 1, by omega⟩
    rw [List.nil_append, List.flatMap_cons, parseFrame_step (fits last List.mem_cons_self), if_pos end_]
    rfl
  | cons x parts ih =>
    rw [List.length_cons] at enough
    obtain ⟨fuel, rfl⟩ : ∃ n, fuel = n + 1 := ⟨fuel - 1, by omega⟩
    rw [List.cons_append, List.flatMap_cons, parseFrame_step (fits x List.mem_cons_self), if_neg (before x List.mem_cons_self),
      ih (fun y hy => fits y (List.mem_cons_of_mem _ hy)) (fun y hy => before y (List.mem_cons_of_mem _ hy)) (by omega)]
    rfl

theorem length_le_flatMap_partBytes (parts : List (Nat × Nat × List Byte)) :
    8 * parts.length ≤ (parts.flatMap partBytes).length := by
  induction parts with
  | nil => exact le_rfl
  | cons x parts ih =>
    rw [List.flatMap_cons, List.length_append, length_partBytes, List.length_cons]
    omega

theorem mem_frameTags {tag loft acc : Nat} : tag ∈ frameTags loft acc ↔
    tag ∈ [1, 2, 3, 4, 7, 8, 9, 0xFF] ∨ tag = 5 ∧ loft ≠ 0 ∨ tag = 6 ∧ acc ≠ 0 := by
  unfold frameTags
  by_cases hl : loft = 0 <;> by_cases ha : acc = 0 <;> simp [hl, ha] <;> omega

/-- The bytes of a frame parse as its sections. -/
theorem parseFrame_of_isFrame {parts : List (Nat × Nat × List Byte)} {loft acc : Nat} {replay : List Replay}
    (frame : isFrame parts loft acc replay) (short : ∀ x ∈ parts, x.2.2.length < 2 ^ 32) :
    parseFrame ((parts.flatMap partBytes).length / 8 + 1) (parts.flatMap partBytes) = some (parts.map partSection) := by
  obtain ⟨tags, each⟩ := frame
  have fits (x) (hx : x ∈ parts) : Fits x := by
    obtain ⟨version, whole, -, -⟩ := each x hx
    have tag : x.1 ∈ frameTags loft acc := tags ▸ List.mem_map_of_mem hx
    refine ⟨?_, ?_, short x hx, whole⟩
    · rcases mem_frameTags.1 tag with h | ⟨h, -⟩ | ⟨h, -⟩
      · simp only [List.mem_cons, List.not_mem_nil, or_false] at h
        omega
      · omega
      · omega
    · rw [version]
      split <;> decide
  have room := length_le_flatMap_partBytes parts
  obtain ⟨init, rest, rfl, inits, lasts⟩ := List.map_eq_append_iff.1 (tags.trans (List.append_assoc _ [7, 8, 9] [0xFF]).symm)
  obtain ⟨last, rfl, end_⟩ := List.map_eq_singleton_iff.1 lasts
  refine parseFrame_flatMap end_ fits (fun x hx => ?_) ?_
  · have tag : x.1 ∈ init.map Prod.fst := List.mem_map_of_mem hx
    rw [inits] at tag
    intro e
    rw [e] at tag
    revert tag
    by_cases hl : loft = 0 <;> by_cases ha : acc = 0 <;> simp [hl, ha]
  · rw [List.length_append, List.length_singleton] at room
    omega

theorem frameTags_nodup (loft acc : Nat) : (frameTags loft acc).Nodup := by
  unfold frameTags
  by_cases hl : loft = 0 <;> by_cases ha : acc = 0 <;> simp [hl, ha]

theorem Section.readsAs_self (x : Section) : x.readsAs x = true := by
  have same : x.data.isPrefixOf x.data = true := by simp
  unfold Section.readsAs
  rw [same, ite_self, Bool.or_true]

theorem any_tag {secs : List Section} {tag : Nat} : (secs.any fun x => x.tag == tag) = true ↔ tag ∈ secs.map Section.tag := by
  simp [List.any_eq_true, List.mem_map]

/-- A frame that stands in memory as it was written is read with every section (R327). -/
theorem readFrame_of_isFrame {parts : List (Nat × Nat × List Byte)} {f : LaunchRec} {replay : List Replay}
    (frame : isFrame parts f.loftb f.nacc replay) (short : ∀ x ∈ parts, x.2.2.length < 2 ^ 32) :
    f.readFrame (parts.flatMap partBytes) (parts.flatMap partBytes) = some (parts.map partSection) := by
  have parse := parseFrame_of_isFrame frame short
  obtain ⟨tags, -⟩ := frame
  have secTags : (parts.map partSection).map Section.tag = frameTags f.loftb f.nacc := by rw [List.map_map, ← tags]; rfl
  have good : (parts.map partSection).filter (fun x =>
      (((parts.map partSection).find? fun y => y.tag == x.tag).map x.readsAs).getD true) = parts.map partSection := by
    refine List.filter_eq_self.2 fun x hx => ?_
    rw [find_of_nodup_key (secTags ▸ frameTags_nodup _ _) hx, Option.map_some, Option.getD_some, Section.readsAs_self]
  have first : (parts.map partSection).head?.map Section.tag = some 1 := by
    rw [← List.head?_map, secTags]
    rfl
  have all : (f.needs.all fun tag => (parts.map partSection).any fun x => x.tag == tag) = true := by
    refine List.all_eq_true.2 fun tag ht => any_tag.2 ?_
    rw [secTags, mem_frameTags]
    unfold LaunchRec.needs at ht
    by_cases hl : f.loftb = 0 <;> by_cases ha : f.nacc = 0 <;> simp [hl, ha] at ht ⊢ <;> omega
  unfold LaunchRec.readFrame
  simp only [parse, good, first, all, beq_self_eq_true, Bool.and_self, if_true]

end Sys2Proof.Machine
end

