-- ==== Sys2Proof/Proofs/Swaps.lean ====
section
/-! FAULT_SWAP (R40, R50, R181, R327): a workgroup goes to its frame and leaves its core. -/

namespace Sys2Proof.Machine

open Sys2Proof.Spec

/-! What a swap keeps of memory. -/

/-- Memory with its check values and marks, and the dies, stand. -/
structure MemoryStands (s t : State) : Prop where
  mem : t.mem = s.mem
  chk : t.chk = s.chk
  poison : t.poison = s.poison
  dies : t.dies = s.dies
  halt : t.halt = s.halt

theorem MemoryStands.trans {s t u : State} (h : MemoryStands s t) (h' : MemoryStands t u) : MemoryStands s u :=
  ⟨h'.mem.trans h.mem, h'.chk.trans h.chk, h'.poison.trans h.poison, h'.dies.trans h.dies, h'.halt.trans h.halt⟩

theorem ThreadsOnly.memoryStands {s t : State} (h : ThreadsOnly s t) : MemoryStands s t := by
  obtain ⟨_, _, _, _, _, rfl⟩ := h
  exact ⟨rfl, rfl, rfl, rfl, rfl⟩

theorem State.useDie_memoryStands (s : State) (tag : CtxTag) (die : Nat) : MemoryStands s (s.useDie tag die) := by
  obtain ⟨use, e⟩ := s.useDie_eq tag die
  rw [e]
  exact ⟨rfl, rfl, rfl, rfl, rfl⟩

theorem MemoryStands.gate {s t : State} (h : MemoryStands s t) (a : Nat) : gate t a = gate s a := by
  unfold Machine.gate
  rw [h.dies]

theorem MemoryStands.badSectors {s t : State} (h : MemoryStands s t) (a n : Nat) : t.badSectors a n = s.badSectors a n := by
  unfold State.badSectors State.sectorBad State.sector
  rw [h.mem, h.chk, h.poison]

/-! A frame is written (R327, R352). -/

theorem State.writeFrame_work (s : State) (a : Nat) (bytes : List Byte) : (s.writeFrame a bytes).work = s.work := by
  unfold State.writeFrame
  cases gate s a with
  | ok => exact s.hwWrite_work false false a bytes
  | held => rfl
  | refused => rfl

theorem State.writeFrame_halt {s : State} {a : Nat} {bytes : List Byte} (there : paExists a = true)
    (sound : s.badSectors a bytes.length = []) : (s.writeFrame a bytes).halt = s.halt := by
  unfold State.writeFrame
  cases gate s a with
  | ok => exact (State.hwWrite_of_sound false false there sound).2
  | held => rfl
  | refused => rfl

theorem State.mem_writeFrame {s : State} {a : Nat} {bytes : List Byte} (there : paExists a = true)
    (sound : s.badSectors a bytes.length = []) :
    (s.writeFrame a bytes).mem = if gate s a = .ok then Memory.writeN s.mem a bytes else s.mem := by
  unfold State.writeFrame
  cases gate s a with
  | ok => exact (State.hwWrite_of_sound false false there sound).1
  | held => rfl
  | refused => rfl

/-! A frame is found (R327). -/

/-- A frame is taken from the pool of its function, and nothing else changes. -/
theorem State.poolAlloc_eq {s t : State} {v size align a : Nat} (h : s.poolAlloc v size align = some (a, t)) :
    ∃ vfs, t = { s with vfs := vfs } := by
  unfold State.poolAlloc at h
  dsimp only at h
  split at h
  next => exact absurd h nofun
  split at h
  next => exact ⟨_, (congrArg Prod.snd (Option.some.inj h)).symm⟩
  next =>
    split at h
    next => exact absurd h nofun
    next => exact ⟨_, (congrArg Prod.snd (Option.some.inj h)).symm⟩

theorem State.frameFor_eq {s t : State} {w : Workgroup} {a : Nat} {bytes : List Byte} (h : s.frameFor w = some (a, bytes, t)) :
    bytes = s.frameBytes w ∧ ∃ vfs, t = { s with vfs := vfs } := by
  unfold State.frameFor at h
  split at h
  next => exact absurd h nofun
  dsimp only at h
  split at h
  next => exact absurd h nofun
  next r alloc =>
    split at h
    next => exact absurd h nofun
    next =>
      have e := Option.some.inj h
      obtain ⟨vfs, e'⟩ := State.poolAlloc_eq alloc
      exact ⟨(congrArg (fun x => x.2.1) e).symm, vfs, (congrArg (fun x => x.2.2) e).symm.trans e'⟩

/-! The lanes of a workgroup leave a group (R50, R181). -/

/-- A thread that stands before a slot of its stride, saved there (R50). -/
def Thread.savedAt (t : Thread) (slot : Nat) : Thread := { t with slot := some slot, restored := true }

theorem State.undoTemps_of_no_lanes (s : State) {g : Group} (nobody : g.lanes = []) : s.undoTemps g = s := by
  have none : g.before.filter (fun x => g.lanes.contains x.1) = [] := List.filter_eq_nil_iff.2 fun x _ => by
    rw [nobody]
    exact Bool.false_ne_true
  unfold State.undoTemps
  rw [none, List.foldl_nil]

/-- Lanes none of which is done with the slot resume at it. -/
theorem State.leaveAt_of_unserved (s : State) (c : Nat) {g : Group} (ls : List LaneRef) (unserved : g.served = []) :
    s.leaveAt c g ls = s.setThreads ls fun _ t => t.savedAt g.slot := by
  have past : ls.filter g.served.contains = [] := List.filter_eq_nil_iff.2 fun l _ => by
    rw [unserved]
    exact Bool.false_ne_true
  have rest : (ls.filter fun l => !(g.served.contains l)) = ls := List.filter_eq_self.2 fun l _ => by
    rw [unserved]
    rfl
  unfold State.leaveAt
  dsimp only
  rw [past, rest]
  split
  · rfl
  split
  · rfl
  · rw [State.undoTemps_of_no_lanes]
    · rfl
    · rfl

/-- A workgroup whose loads have landed and whose group has done nothing of its slot can be swapped (R181). -/
theorem State.swapReady_of_idle {s : State} {w : Workgroup} {g : Group} (phase : w.phase = .swapPending)
    (loads : ∀ p ∈ s.loads, p.lane.wg ≠ w.id) (groups : s.groupsOf w = [g]) (work : g.work = []) (served : g.served = []) :
    s.swapReady w = true := by
  have retired : g.retired w = true := by
    unfold Group.retired
    rw [work, served]
    rfl
  unfold State.swapReady
  rw [any_wg_eq_false loads, phase]
  simp only [groups, List.all_cons, List.all_nil, retired]
  rfl

/-! FAULT_SWAP. -/

/-- The lanes of a workgroup in a group. -/
def Group.lanesOf (g : Group) (wg : Nat) : List LaneRef := g.lanes.filter fun l => l.wg == wg

theorem Group.mem_lanesOf {g : Group} {wg : Nat} {l : LaneRef} : l ∈ g.lanesOf wg ↔ l ∈ g.lanes ∧ l.wg = wg := by
  unfold Group.lanesOf
  rw [List.mem_filter, beq_iff_eq]

/-- A workgroup off its core, with its lanes saved before the slot of their group, and the address and bytes of its frame. -/
def State.swapOut (s : State) (w : Workgroup) (g : Group) (a : Nat) (bytes : List Byte) : State :=
  ((s.setThreads (g.lanesOf w.id) fun _ t => t.savedAt g.slot).leaveBays w.id w.core).setWg w.id fun w =>
    { w with phase := .swapped, frame := some (a, bytes) }

theorem State.swapOut_memoryStands (s : State) (w : Workgroup) (g : Group) (a : Nat) (bytes : List Byte) :
    MemoryStands s (s.swapOut w g a bytes) :=
  (s.setThreads_threadsOnly (g.lanesOf w.id) fun _ t => t.savedAt g.slot).memoryStands.trans ⟨rfl, rfl, rfl, rfl, rfl⟩

theorem State.launch?_swapOut (s : State) (w : Workgroup) (g : Group) (a : Nat) (bytes : List Byte) (i : Nat) :
    (s.swapOut w g a bytes).launch? i = s.launch? i := by
  obtain ⟨_, _, _, _, _, e⟩ := s.setThreads_threadsOnly (g.lanesOf w.id) fun _ t => t.savedAt g.slot
  unfold State.swapOut
  rw [e]
  rfl

theorem execFaultSwap_of_ready {s u : State} {w : Workgroup} {k : Launch} {g : Group} {a : Nat} {bytes : List Byte}
    (noHard : Spec.noHard s) (wg : s.wg? w.id = some w) (ready : s.swapReady w = true)
    (frame : s.frameFor w = some (a, bytes, u)) (groups : u.groupsOf w = [g]) (unserved : g.served = [])
    (cmds : ∀ d ∈ u.cmds, d.lane.wg ≠ w.id) (launch : u.launch? w.launch = some k) :
    execFaultSwap w.id s =
      conclude ((((u.swapOut w g a bytes).useDie k.ctx.tag (dieOfPa a)).writeFrame a bytes).tidy w.core) := by
  have left : (u.leaveAt w.core g (g.lanes.filter fun l => l.wg == w.id)) =
      u.setThreads (g.lanesOf w.id) fun _ t => t.savedAt g.slot := State.leaveAt_of_unserved u w.core _ unserved
  have stays : (u.setThreads (g.lanesOf w.id) fun _ t => t.savedAt g.slot).cmds = u.cmds := by
    obtain ⟨_, _, _, _, _, e⟩ := u.setThreads_threadsOnly (g.lanesOf w.id) fun _ t => t.savedAt g.slot
    rw [e]
  have none : (u.setThreads (g.lanesOf w.id) fun _ t => t.savedAt g.slot).cmds.filter (fun c => c.lane.wg == w.id) = [] := by
    rw [stays]
    exact List.filter_eq_nil_iff.2 fun d hd => by
      rw [beq_iff_eq]
      exact cmds d hd
  have found := (u.launch?_swapOut w g a bytes w.launch).trans launch
  unfold execFaultSwap
  rw [State.sweep_of_noHard noHard]
  simp only [wg, ready, frame, groups, List.foldl_cons, List.foldl_nil, left, none, Bool.not_true, Bool.false_eq_true, if_false]
  unfold State.swapOut at found ⊢
  simp only [found]

/-- A rig with the threads of some lanes updated. -/
def Rig.updated (ls : List LaneRef) (f : LaneRef → Thread → Thread) (wg r : Nat) (q : Rig) : Rig :=
  { q with threads := (q.threads.mapIdx fun n t => if ls.contains ⟨wg, r, n⟩ then f ⟨wg, r, n⟩ t else t) }

theorem State.wg?_setThreads (s : State) {ls : List LaneRef} (nodup : ls.Nodup) (f : LaneRef → Thread → Thread) (i : Nat) :
    ∃ rigs : Workgroup → List Rig, (s.setThreads ls f).wg? i = (s.wg? i).map fun w => { w with rigs := rigs w } := by
  rw [State.setThreads_eq_each s nodup]
  exact ⟨fun w => w.rigs.mapIdx fun r => Rig.updated ls f w.id r, State.wg?_mapRigs s (Rig.updated ls f) i⟩

/-- A workgroup is swapped with its frame, its loft and its replay list as they were. -/
theorem State.wg?_swapOut {s : State} {w : Workgroup} (wg : s.wg? w.id = some w) {g : Group} (nodup : g.lanes.Nodup) (a : Nat)
    (bytes : List Byte) : ∃ rigs, (s.swapOut w g a bytes).wg? w.id =
      some { w with rigs := rigs, phase := .swapped, frame := some (a, bytes) } := by
  obtain ⟨rigs, own⟩ := s.wg?_setThreads (nodup.filter fun l => l.wg == w.id) (fun _ t => t.savedAt g.slot) w.id
  refine ⟨rigs w, ?_⟩
  rw [wg, Option.map_some] at own
  unfold State.swapOut
  rw [State.wg?_setWg, if_pos rfl]
  · exact congrArg (Option.map _) own
  · exact fun _ => rfl

theorem State.thread_setWg_of_rigs (s : State) (i : Nat) {f : Workgroup → Workgroup} (ids : ∀ w, (f w).id = w.id)
    (rigs : ∀ w, (f w).rigs = w.rigs) (l : LaneRef) : (s.setWg i f).thread l = s.thread l := by
  have same : (s.setWg i f).rig? l.wg l.rig = s.rig? l.wg l.rig := by
    unfold State.rig?
    rw [State.wg?_setWg s i l.wg f ids]
    split
    · rw [Option.bind_map]
      exact congrArg (Option.bind _) (funext fun w => congrArg (·[l.rig]?) (rigs w))
    · rfl
  unfold State.thread
  rw [same]

theorem State.thread_swapOut (s : State) (w : Workgroup) (g : Group) (a : Nat) (bytes : List Byte) (l : LaneRef) :
    (s.swapOut w g a bytes).thread l = (s.setThreads (g.lanesOf w.id) fun _ t => t.savedAt g.slot).thread l := by
  unfold State.swapOut
  exact State.thread_setWg_of_rigs _ w.id (f := fun w => { w with phase := .swapped, frame := some (a, bytes) })
    (fun _ => rfl) (fun _ => rfl) l

theorem State.thread_swapOut_saved {s : State} {w : Workgroup} {g : Group} (nodup : g.lanes.Nodup) (a : Nat)
    (bytes : List Byte) {l : LaneRef} (mine : l ∈ g.lanesOf w.id) (there : (s.thread l).life ≠ .absent) :
    (s.swapOut w g a bytes).thread l = (s.thread l).savedAt g.slot := by
  rw [State.thread_swapOut]
  cases e : (s.rig? l.wg l.rig).bind fun r => r.threads[l.lane]? with
  | none =>
    refine absurd ?_ there
    unfold State.thread
    rw [e]
    rfl
  | some t =>
    rw [State.thread_setThreads s _ _ l t mine (nodup.filter _) e]
    unfold State.thread
    rw [e, Option.getD_some]

theorem State.thread_swapOut_other (s : State) {w : Workgroup} {g : Group} (a : Nat) (bytes : List Byte) {l : LaneRef}
    (other : l ∉ g.lanesOf w.id) : (s.swapOut w g a bytes).thread l = s.thread l :=
  (s.thread_swapOut w g a bytes l).trans (s.thread_setThreads_other _ _ l other)

theorem State.swapOut_offCore (s : State) (w : Workgroup) (g : Group) (a : Nat) (bytes : List Byte) :
    offCore (s.swapOut w g a bytes) w.id w.core :=
  State.leaveBays_offCore (s.setThreads (g.lanesOf w.id) fun _ t => t.savedAt g.slot) w.id w.core

/-- The swap of a workgroup that stands in one group (R40, R50, R181, R327). -/
theorem faultSwap_next {s u : State} {w : Workgroup} {k : Launch} {g : Group} {a : Nat} {bytes : List Byte}
    (halt : s.halt = none) (noHard : Spec.noHard s) (wg : s.wg? w.id = some w)
    (launch : s.launch? w.launch = some k) (phase : w.phase = .swapPending) (loads : ∀ p ∈ s.loads, p.lane.wg ≠ w.id)
    (cmds : ∀ d ∈ s.cmds, d.lane.wg ≠ w.id) (groups : s.groupsOf w = [g]) (work : g.work = []) (nodup : g.lanes.Nodup)
    (served : g.served = []) (frame : s.frameFor w = some (a, bytes, u)) (there : paExists a = true)
    (sound : s.badSectors a bytes.length = []) :
    ∃ t v, exec (.faultSwap w.id) s = .next t ∧ t.wg? w.id = some v ∧ v.phase = .swapped ∧
      v.frame = some (a, bytes) ∧ v.loft = w.loft ∧ v.replay = w.replay ∧ offCore t w.id w.core ∧
      (∀ l ∈ g.lanes, l.wg = w.id → (s.thread l).life ≠ .absent → t.thread l = (s.thread l).savedAt g.slot) ∧
      (∀ l, l ∉ g.lanes ∨ l.wg ≠ w.id → t.thread l = s.thread l) ∧
      t.mem = if gate s a = .ok then Memory.writeN s.mem a bytes else s.mem := by
  obtain ⟨-, vfs, pool⟩ := State.frameFor_eq frame
  have wgs : u.wgs = s.wgs := by rw [pool]
  have stands : MemoryStands s u := by
    rw [pool]
    exact ⟨rfl, rfl, rfl, rfl, rfl⟩
  have run := execFaultSwap_of_ready (k := k) noHard wg (State.swapReady_of_idle phase loads groups work served) frame
    (by rw [pool]; exact groups) served (by rw [pool]; exact cmds) (by rw [pool]; exact launch)
  have stands := (stands.trans (u.swapOut_memoryStands w g a bytes)).trans
    (State.useDie_memoryStands _ k.ctx.tag (dieOfPa a))
  have sound' := (stands.badSectors a bytes.length).trans sound
  have kept : ((((u.swapOut w g a bytes).useDie k.ctx.tag (dieOfPa a)).writeFrame a bytes).work) =
    (u.swapOut w g a bytes).work := (State.writeFrame_work _ a bytes).trans (State.useDie_work _ _ _)
  have wgsOut := congrArg Work.wgs kept
  have coresOut := congrArg Work.cores kept
  have threads (l : LaneRef) : u.thread l = s.thread l := State.thread_of_wgs wgs l
  obtain ⟨rigs, own⟩ := State.wg?_swapOut (s := u) (w := w) (by rw [State.wg?, wgs]; exact wg) nodup a bytes
  refine ⟨_, _, run.trans ((conclude_eq_next _ _).2 ⟨?_, rfl⟩), (congrArg (List.find? _) wgsOut).trans own, rfl, rfl, rfl, rfl,
    offCore_of_bays (s := u.swapOut w g a bytes) ((State.bays_tidy _ _ _).trans ?_) (u.swapOut_offCore w g a bytes),
    fun l hl mine live => ?_, fun l other => ?_, ?_⟩
  · exact (State.writeFrame_halt there sound').trans (stands.halt.trans halt)
  · exact congrArg (fun cores : List Core => (cores[w.core]?.getD Core.reset).bays) coresOut
  · refine (State.thread_of_wgs (s := u.swapOut w g a bytes) wgsOut l).trans ?_
    rw [State.thread_swapOut_saved nodup a bytes (Group.mem_lanesOf.2 ⟨hl, mine⟩) (by rwa [threads]), threads]
  · refine (State.thread_of_wgs (s := u.swapOut w g a bytes) wgsOut l).trans ?_
    rw [State.thread_swapOut_other u a bytes, threads]
    rw [Group.mem_lanesOf, not_and_or]
    exact other
  · refine (State.mem_writeFrame there sound').trans ?_
    rw [stands.gate, stands.mem]

end Sys2Proof.Machine
end

