-- ==== Sys2Proof/Proofs/Restores.lean ====
section
/-! WORKGROUP_RESTORE (R40, R305, R327, R328): a swapped workgroup returns to its core with its context. -/

namespace Sys2Proof.Machine

open Sys2Proof.Spec

/-! When a workgroup may return (R20, R305, R328, R334, R345). -/

/-- A core takes a workgroup of a launch back: it is alive and open to the function, has room, and nothing holds the launch. -/
structure TakesBack (s : State) (c : Nat) (k : Launch) : Prop where
  core : c < 192
  sound : (s.core c).fenced = false
  die : (s.dies[c / 48]?).map Die.state = some .inService
  turn : ∃ x, s.turns[c / 8]? = some x ∧ x.vf = some k.vf
  room : fitsBeside s k (residents s c) (s.core c).grids 1
  soft : k.hard = false
  relay : ∀ r ∈ s.relays, ofJob r k → r.phase ≠ .sent
  stores : ∀ i ∈ k.snapTracks, ∀ t ∈ s.tracks, t.id = i → s.trackDone .sys t = true

theorem State.relaySent_eq_false {s : State} {k : Launch} (relay : ∀ r ∈ s.relays, ofJob r k → r.phase ≠ .sent) :
    s.relaySent k = false := by
  refine List.any_eq_false.2 fun r hr => ?_
  rw [Bool.and_eq_true, beq_iff_eq, Relay.moves_iff, not_and']
  exact relay r hr

theorem State.storesDone_iff {s : State} {k : Launch} :
    s.storesDone k = true ↔ ∀ i ∈ k.snapTracks, ∀ t ∈ s.tracks, t.id = i → s.trackDone .sys t = true := by
  unfold State.storesDone
  simp only [List.all_eq_true, Bool.or_eq_true, bne_iff_ne, ne_eq]
  exact forall₂_congr fun _ _ => forall₂_congr fun _ _ => Decidable.imp_iff_not_or.symm

theorem TakesBack.free {s : State} {c : Nat} {k : Launch} (h : TakesBack s c k) :
    (s.coreAlive c && s.serves k.vf (clusterOf c) && s.fits c k && !k.hard && !(s.relaySent k) && s.storesDone k) = true := by
  have alive : s.coreAlive c = true := by
    unfold State.coreAlive
    rw [h.sound, Bool.and_eq_true, Bool.and_eq_true, decide_eq_true_eq, beq_iff_eq]
    exact ⟨⟨h.core, rfl⟩, h.die⟩
  have serves : s.serves k.vf (clusterOf c) = true := by
    unfold State.serves
    exact beq_iff_eq.2 (Option.bind_eq_some_iff.2 h.turn)
  have fits : s.fits c k = true := decide_eq_true (State.room_pos_iff.2 h.room)
  rw [alive, serves, fits, h.soft, State.relaySent_eq_false h.relay, State.storesDone_iff.2 h.stores]
  rfl

/-! The context comes from the frame (R327, R355). -/

/-- The sections of a frame with an empty replay list give the workgroup as it was swapped (R327). -/
theorem Workgroup.fromFrame_of_isFrame {w : Workgroup} {parts : List (Nat × Nat × List Byte)} {loft acc : Nat}
    (frame : isFrame parts loft acc []) (unlisted : w.replay = []) (seed : Nat → Nat → Word) :
    w.fromFrame (parts.map partSection) seed = w := by
  obtain ⟨tags, each⟩ := frame
  have has (tag : Nat) (h : tag ∈ frameTags loft acc) : ((parts.map partSection).any fun x => x.tag == tag) = true :=
    any_tag.2 (by rw [List.map_map]; exact tags ▸ h)
  have old : ((parts.map partSection).any fun x => x.tag == 2 && x.ver == 1) = false := by
    refine List.any_eq_false.2 fun x hx => ?_
    obtain ⟨p, hp, rfl⟩ := List.mem_map.1 hx
    have version := (each p hp).1
    rw [Bool.and_eq_true, beq_iff_eq, beq_iff_eq, not_and]
    intro (tag : p.1 = 2) one
    rw [if_pos tag] at version
    exact absurd (version.symm.trans one) (by decide)
  have list : (((parts.map partSection).find? fun x => x.tag == 7).map fun x => w.listFrom x.data).getD [] = [] := by
    cases found : (parts.map partSection).find? fun x => x.tag == 7 with
    | none => rfl
    | some x =>
      obtain ⟨p, hp, rfl⟩ := List.mem_map.1 (List.mem_of_find?_eq_some found)
      have seven := List.find?_some (p := fun x : Section => x.tag == 7) found
      have empty := (each p hp).2.2.1 (beq_iff_eq.1 seven)
      rw [Option.map_some, Option.getD_some, show (partSection p).data = [] from empty]
      rfl
  unfold Workgroup.fromFrame
  simp only [list, old, has 8 (mem_frameTags.2 (.inl (by decide))), has 9 (mem_frameTags.2 (.inl (by decide))), if_true,
    Bool.false_eq_true, if_false]
  rw [← unlisted]

theorem State.fromPool_of_isFrame {s : State} {w : Workgroup} {k : Launch} {a : Nat} {parts : List (Nat × Nat × List Byte)}
    (at_ : w.frame = some (a, parts.flatMap partBytes)) (frame : isFrame parts k.rcd.loftb k.rcd.nacc [])
    (short : ∀ x ∈ parts, x.2.2.length < 2 ^ 32) (held : holdsBytes s.mem a (parts.flatMap partBytes))
    (gate : gate s a ≠ .refused) (sound : s.badSectors a (parts.flatMap partBytes).length = []) (unlisted : w.replay = []) :
    s.fromPool w k = some (w, true) := by
  have engine : hasEngine (parts.map partSection) = true :=
    any_tag.2 (by rw [List.map_map]; exact frame.1 ▸ mem_frameTags.2 (.inl (by decide)))
  unfold State.fromPool State.homeRead
  rw [at_, Option.bind_some, if_neg]
  · dsimp only
    rw [readN_of_holdsBytes held, readFrame_of_isFrame frame short, Option.map_some,
      Workgroup.fromFrame_of_isFrame frame unlisted, engine]
  · rw [sound]
    simp [gate]

/-! The replay list of a workgroup is empty (R306). -/

/-- A workgroup with an empty replay list. -/
def Workgroup.unlisted (w : Workgroup) : Workgroup := { w with replay := [], again := [] }
/-- A workgroup whose replay list has taken what it had no room for (R306). -/
def Workgroup.relisted (w : Workgroup) : Workgroup :=
  { w with replay := w.listed.take Config.replayEntries, again := w.listed.drop Config.replayEntries }

/-- A workgroup with nothing to replay runs, unless commands of it have stopped. -/
theorem State.replayAll_of_listed_nil {s : State} {wg : Nat} {w : Workgroup} (h : s.wg? wg = some w) (listed : w.listed = []) :
    s.replayAll wg = (State.countL1 ((s.setWg wg Workgroup.unlisted).setWg wg Workgroup.relisted) s.serial).goOn wg := by
  unfold State.replayAll
  simp only [h, listed, State.replayList, List.nil_append]
  rfl

theorem State.countL1_countersOnly (s : State) (start : Nat) : CountersOnly s (s.countL1 start) :=
  CountersOnly.foldl (fun s _ => s.count_countersOnly _ _ _) _ s

/-- A workgroup with an empty replay list, none of whose commands has stopped, runs again (R246, R305). -/
theorem State.goOn_of_listed_nil {s : State} {wg : Nat} {w : Workgroup} (h : s.wg? wg = some w) (listed : w.listed = [])
    (cmds : ∀ d ∈ s.cmds, d.lane.wg = wg → d.stopped = false) :
    s.goOn wg = s.setWg wg fun w => { w with phase := if w.phase == .resuming then .running else w.phase } := by
  have none : (s.cmds.any fun c => c.lane.wg == wg && c.stopped) = false := List.any_eq_false.2 fun d hd => by
    by_cases mine : d.lane.wg = wg
    · simp [cmds d hd mine]
    · simp [mine]
  unfold State.goOn
  rw [h, Option.map_some, Option.getD_some, listed, none]
  rfl

/-! WORKGROUP_RESTORE. -/

theorem State.cmds_enterBays (s : State) (wg c n : Nat) : (s.enterBays wg c n).cmds = s.cmds :=
  List.foldlRecOn (motive := fun t : State => t.cmds = s.cmds) (List.range n) _ rfl fun _ h _ _ => h

/-- A workgroup that takes the place of one with its number. -/
theorem State.wg?_setWg_const {s : State} {i : Nat} {w r : Workgroup} (h : s.wg? i = some w) (id : r.id = i) :
    (s.setWg i fun _ => r).wg? i = some r := by
  have same : (s.setWg i fun _ => r) = s.setWg i fun v => if v.id = i then r else v := by
    unfold State.setWg
    refine congrArg (fun l => ({ s with wgs := l } : State)) (List.map_congr_left fun v _ => ?_)
    by_cases e : v.id = i
    · simp [e]
    · simp [e]
  rw [same, State.wg?_setWg, if_pos rfl, h, Option.map_some, if_pos (State.wg?_id h)]
  intro v
  split
  next e => exact id.trans e.symm
  next => rfl

/-- The state as a workgroup stands on its core again, before its replay list is issued. -/
def State.broughtBack (s : State) (w : Workgroup) (k : Launch) (a : Nat) : State :=
  ((((s.poolFree k.vf a).setWg w.id fun _ => w.restored).holdGrid w.core k).enterBays w.id w.core w.rigs.length)

theorem execWorkgroupRestore_of_takesBack {s u : State} {w : Workgroup} {k : Launch} {a : Nat} {bytes : List Byte}
    (acts : ({ s with fresh := s.fresh + 1 } : State) = u) (wg : u.wg? w.id = some w) (launch : u.launch? w.launch = some k)
    (phase : w.phase = .swapped) (faults : w.faults = []) (listed : w.listed = []) (takes : TakesBack u w.core k)
    (at_ : w.frame = some (a, bytes)) (pool : u.fromPool w k = some (w, true)) (kernel : holdsKernel u w.core k) :
    execWorkgroupRestore w.id s = conclude ((u.broughtBack w k a).replayAll w.id) := by
  have resuming : (w.phase == .resuming) = false := by rw [phase]; rfl
  have swapped : (w.phase != .swapped) = false := by rw [phase]; rfl
  have walked : u.walkAgain w k [] = u := rfl
  unfold execWorkgroupRestore
  simp only [acts, wg, launch, resuming, swapped, faults, listed, walked, takes.free, pool, State.needKernel_of_holds kernel, at_,
    Option.getD_some, List.map_nil, List.append_nil, List.all_nil, Bool.false_and, Bool.false_eq_true, if_false,
    Bool.not_true, Bool.or_self, if_true]
  rfl

/-- What a return leaves, as the rules state it. -/
structure IsBack (s : State) (w : Workgroup) (k : Launch) (t : State) : Prop where
  halt : t.halt = s.halt
  mem : t.mem = s.mem
  grids : k.rcd.gridt ≠ 0 → w.core < s.cores.length → k.id ∈ (t.core w.core).grids
  cmds : t.cmds = s.cmds
  own : ∃ rigs, t.wg? w.id = some { w.restored with rigs := rigs } ∧ rigs.length = w.rigs.length ∧
    ∀ r : Nat, ∃ bay ready, rigs[r]? = (w.restored.rigs[r]?).map fun q => { q with bay := bay, ready := ready }

theorem State.broughtBack_isBack {s : State} {w : Workgroup} (wg : s.wg? w.id = some w) (k : Launch) (a : Nat) :
    IsBack s w k (s.broughtBack w k a) := by
  have found : (((s.poolFree k.vf a).setWg w.id fun _ => w.restored).holdGrid w.core k).wg? w.id = some w.restored :=
    State.wg?_setWg_const (s := s.poolFree k.vf a) wg rfl
  have entered := State.enterBays_entered (w := w.restored) found w.core w.rigs.length
  obtain ⟨rigs, own, length, each⟩ := entered.own
  refine ⟨entered.halt, entered.mem, fun names there => ?_, State.cmds_enterBays _ _ _ _, rigs, own, ?_, each⟩
  · exact (entered.grids w.core).symm ▸ State.mem_grids_holdGrid names there
  · rw [length]
    exact List.length_map _

/-- A workgroup as it runs again. -/
def Workgroup.runsAgain (w : Workgroup) : Workgroup :=
  { w with phase := if w.phase == .resuming then .running else w.phase }

/-- A workgroup on its core with nothing to replay runs. -/
theorem State.replayAll_isBack {s t : State} {w : Workgroup} {k : Launch} (back : IsBack s w k t) (listed : w.listed = [])
    (cmds : ∀ d ∈ s.cmds, d.lane.wg = w.id → d.stopped = false) :
    (t.replayAll w.id).halt = s.halt ∧ (t.replayAll w.id).mem = s.mem ∧
      ((t.replayAll w.id).core w.core).grids = (t.core w.core).grids ∧
      (t.replayAll w.id).wg? w.id = (t.wg? w.id).map fun v => v.unlisted.relisted.runsAgain := by
  obtain ⟨rigs, own, -, -⟩ := back.own
  obtain ⟨vfs, pf, msix, counted⟩ := State.countL1_countersOnly
    ((t.setWg w.id Workgroup.unlisted).setWg w.id Workgroup.relisted) t.serial
  have set : (State.countL1 ((t.setWg w.id Workgroup.unlisted).setWg w.id Workgroup.relisted) t.serial).wg? w.id =
      (t.wg? w.id).map fun v => v.unlisted.relisted := by
    rw [counted]
    refine (State.wg?_setWg _ w.id w.id Workgroup.relisted fun _ => rfl).trans ?_
    rw [if_pos rfl, State.wg?_setWg t w.id w.id Workgroup.unlisted fun _ => rfl, if_pos rfl, Option.map_map]
    rfl
  rw [State.replayAll_of_listed_nil own listed]
  have goes := State.goOn_of_listed_nil (set.trans (congrArg _ own)) rfl (s := State.countL1 _ t.serial) fun d hd => by
    rw [counted] at hd
    exact cmds d (back.cmds ▸ hd)
  rw [goes]
  refine ⟨?_, ?_, ?_, ?_⟩
  · rw [counted]
    exact back.halt
  · rw [counted]
    exact back.mem
  · rw [counted]
    rfl
  · refine (State.wg?_setWg _ w.id w.id Workgroup.runsAgain fun _ => rfl).trans ?_
    rw [if_pos rfl, set, Option.map_map]
    rfl

/-- The rig of a workgroup that runs again: its wake conditions are tested afresh (R40). -/
def Rig.returned (q : Rig) (bay : Nat) (ready : Option Nat) : Rig := { q with due := [], bay := bay, ready := ready }

/-- The return of a workgroup whose context stands in its frame (R40, R305, R327, R328). -/
theorem workgroupRestore_next {s : State} {w : Workgroup} {k : Launch} {a : Nat} {bytes : List Byte} (halt : s.halt = none)
    (wg : s.wg? w.id = some w) (launch : s.launch? w.launch = some k) (phase : w.phase = .swapped) (faults : w.faults = [])
    (listed : w.listed = []) (takes : TakesBack s w.core k) (at_ : w.frame = some (a, bytes))
    (pool : s.fromPool w k = some (w, true)) (kernel : holdsKernel s w.core k)
    (cmds : ∀ d ∈ s.cmds, d.lane.wg = w.id → d.stopped = false) :
    ∃ t v, exec (.workgroupRestore w.id) s = .next t ∧ t.wg? w.id = some v ∧ v.phase = .running ∧ v.frame = none ∧
      v.loft = w.loft ∧ v.chans = w.chans ∧ v.slices = w.slices ∧ v.live = w.live ∧ v.rigs.length = w.rigs.length ∧
      (∀ r n, t.thread ⟨w.id, r, n⟩ = s.thread ⟨w.id, r, n⟩) ∧ (∀ q ∈ v.rigs, q.due = []) ∧
      (k.rcd.gridt ≠ 0 → w.core < s.cores.length → k.id ∈ (t.core w.core).grids) ∧ t.mem = s.mem := by
  obtain ⟨u, acts⟩ : ∃ u, ({ s with fresh := s.fresh + 1 } : State) = u := ⟨_, rfl⟩
  have takes' : TakesBack u w.core k := acts ▸
    ⟨takes.core, takes.sound, takes.die, takes.turn, takes.room, takes.soft, takes.relay, takes.stores⟩
  have run := execWorkgroupRestore_of_takesBack acts (acts ▸ wg) (acts ▸ launch) phase faults listed takes' at_ (acts ▸ pool)
    (acts ▸ kernel)
  have back : IsBack u w k (u.broughtBack w k a) := State.broughtBack_isBack (acts ▸ wg) k a
  obtain ⟨halted, mem, grids, own⟩ := State.replayAll_isBack back listed (acts ▸ cmds)
  obtain ⟨rigs, found, length, each⟩ := back.own
  rw [found, Option.map_some] at own
  have rig (r : Nat) : ∃ bay ready, rigs[r]? = (w.rigs[r]?).map fun q => q.returned bay ready := by
    obtain ⟨bay, ready, e⟩ := each r
    refine ⟨bay, ready, e.trans ?_⟩
    unfold Workgroup.restored
    rw [List.getElem?_map, Option.map_map]
    rfl
  refine ⟨_, _, run.trans ((conclude_eq_next _ _).2 ⟨halted.trans ?_, rfl⟩), own, rfl, rfl, rfl, rfl, rfl, rfl, length,
    fun r n => ?_, fun q hq => ?_, fun names there => grids ▸ back.grids names ?_, mem.trans ?_⟩
  · exact acts ▸ halt
  · obtain ⟨bay, ready, e⟩ := rig r
    unfold State.thread State.rig?
    rw [own, wg, Option.bind_some, Option.bind_some]
    refine congrArg (Option.getD · _) ((congrArg (Option.bind · _) e).trans ?_)
    rw [Option.bind_map]
    rfl
  · obtain ⟨r, hr⟩ := List.mem_iff_getElem?.1 hq
    obtain ⟨bay, ready, e⟩ := rig r
    obtain ⟨q0, -, rfl⟩ := Option.map_eq_some_iff.1 (e.symm.trans hr)
    rfl
  · exact acts ▸ there
  · rw [← acts]

/-- Settles O50: a swap puts the frame of R327 in the pool and leaves the lanes at their slot; a restore reads the frame
back and gives the core its workgroup. -/
theorem swapAndRestore : Obligations.SwapAndRestore := by
  unfold Obligations.SwapAndRestore
  refine ⟨fun s u w k g a bytes halt inv noHard wg launch phase loads cmds groups work nodup served frame there sound range _ =>
    ⟨?_, ?_⟩, fun s w k a bytes parts halt _ wg launch phase faults replay again hard core fenced die turn room relay stores at_
      run isFrame short held gate sound kernel cmds => ?_⟩
  · obtain ⟨e, -⟩ := State.frameFor_eq frame
    exact ⟨_, e.trans (s.frameBytes_eq_partBytes w), State.frameSections_isFrame wg launch range⟩
  · obtain ⟨t, v, next, own, swapped, at_, loft, replay, off, saved, other, mem⟩ :=
      faultSwap_next halt noHard wg launch phase loads cmds groups work nodup served frame there sound
    refine ⟨t, v, next, own, swapped, at_, loft, replay, off, saved, other, fun x outside => ?_, fun ok => ?_⟩
    · rw [mem]
      split
      · exact Memory.read_writeN_other _ _ _ _ outside
      · rfl
    · rw [mem, if_pos ok]
      exact holdsBytes_writeN inv.mem.1 a bytes
  · subst run
    exact workgroupRestore_next halt wg launch phase faults (by rw [Workgroup.listed, replay, again]; rfl)
      ⟨core, fenced, die, turn, room, hard, relay, stores⟩ at_
      (State.fromPool_of_isFrame at_ isFrame short held gate sound replay) kernel cmds

end Sys2Proof.Machine
end

