-- ==== Sys2Proof/Proofs/DecodedWords.lean ====
section
/-! The encoding (R55 to R69): the words of the spec's examples, and the agreement of decoder and encoder. -/

namespace Sys2Proof.Machine

open Sys2Proof.Spec

/-- Settles O57: the decoder evaluates on each word. -/
theorem decodeWords : Obligations.DecodeWords := by
  unfold Obligations.DecodeWords
  repeat' apply And.intro
  all_goals decide +kernel

/-- The word of a well-formed instruction has 64 bits, and its fields build the instruction (R55 to R63). -/
theorem statement_of_instr (i : Instr) : Laws.Encoding.Statement i := by
  cases i with
  | iadd gd ty d a b => exact Laws.Encoding.iadd gd ty d a b
  | iaddI gd d a imm => exact Laws.Encoding.iaddI gd d a imm
  | isub gd ty d a b => exact Laws.Encoding.isub gd ty d a b
  | isubI gd d a imm => exact Laws.Encoding.isubI gd d a imm
  | iaddc gd ty d a b c => exact Laws.Encoding.iaddc gd ty d a b c
  | imul gd ty d a b => exact Laws.Encoding.imul gd ty d a b
  | imulI gd d a imm => exact Laws.Encoding.imulI gd d a imm
  | imulh gd ty d a b => exact Laws.Encoding.imulh gd ty d a b
  | imad gd ty d a b c => exact Laws.Encoding.imad gd ty d a b c
  | idot4 gd ty d a b c => exact Laws.Encoding.idot4 gd ty d a b c
  | idiv gd ty d a b => exact Laws.Encoding.idiv gd ty d a b
  | irem gd ty d a b => exact Laws.Encoding.irem gd ty d a b
  | imin gd ty d a b => exact Laws.Encoding.imin gd ty d a b
  | iminI gd d a imm => exact Laws.Encoding.iminI gd d a imm
  | imax gd ty d a b => exact Laws.Encoding.imax gd ty d a b
  | imaxI gd d a imm => exact Laws.Encoding.imaxI gd d a imm
  | iabs gd ty d a => exact Laws.Encoding.iabs gd ty d a
  | ineg gd ty d a => exact Laws.Encoding.ineg gd ty d a
  | isat gd ty d a => exact Laws.Encoding.isat gd ty d a
  | shl gd ty d a b => exact Laws.Encoding.shl gd ty d a b
  | shlI gd d a imm => exact Laws.Encoding.shlI gd d a imm
  | shr gd ty d a b => exact Laws.Encoding.shr gd ty d a b
  | shrI gd d a imm => exact Laws.Encoding.shrI gd d a imm
  | sar gd ty d a b => exact Laws.Encoding.sar gd ty d a b
  | sarI gd d a imm => exact Laws.Encoding.sarI gd d a imm
  | rol gd ty d a b => exact Laws.Encoding.rol gd ty d a b
  | rolI gd d a imm => exact Laws.Encoding.rolI gd d a imm
  | ror gd ty d a b => exact Laws.Encoding.ror gd ty d a b
  | rorI gd d a imm => exact Laws.Encoding.rorI gd d a imm
  | andG gd ty d a b => exact Laws.Encoding.andG gd ty d a b
  | andI gd d a imm => exact Laws.Encoding.andI gd d a imm
  | orG gd ty d a b => exact Laws.Encoding.orG gd ty d a b
  | orI gd d a imm => exact Laws.Encoding.orI gd d a imm
  | xorG gd ty d a b => exact Laws.Encoding.xorG gd ty d a b
  | xorI gd d a imm => exact Laws.Encoding.xorI gd d a imm
  | andnG gd ty d a b => exact Laws.Encoding.andnG gd ty d a b
  | andnI gd d a imm => exact Laws.Encoding.andnI gd d a imm
  | notG gd ty d a => exact Laws.Encoding.notG gd ty d a
  | popc gd ty d a => exact Laws.Encoding.popc gd ty d a
  | clz gd ty d a => exact Laws.Encoding.clz gd ty d a
  | ctz gd ty d a => exact Laws.Encoding.ctz gd ty d a
  | brev gd ty d a => exact Laws.Encoding.brev gd ty d a
  | bfx gd ty d a b c => exact Laws.Encoding.bfx gd ty d a b c
  | bfi gd ty d a b c => exact Laws.Encoding.bfi gd ty d a b c
  | lea gd d a b c => exact Laws.Encoding.lea gd d a b c
  | mov gd ty d a => exact Laws.Encoding.mov gd ty d a
  | movi gd d imm => exact Laws.Encoding.movi gd d imm
  | movh gd d imm => exact Laws.Encoding.movh gd d imm
  | sel gd ty d a b c => exact Laws.Encoding.sel gd ty d a b c
  | icmp gd ty cond pn a b => exact Laws.Encoding.icmp gd ty cond pn a b
  | icmpI gd cond pn a imm => exact Laws.Encoding.icmpI gd cond pn a imm
  | pset gd op d a b => exact Laws.Encoding.pset gd op d a b
  | pmov gd x => exact Laws.Encoding.pmov gd x
  | fadd gd rnd d a b => exact Laws.Encoding.fadd gd rnd d a b
  | fsub gd rnd d a b => exact Laws.Encoding.fsub gd rnd d a b
  | fmul gd rnd d a b => exact Laws.Encoding.fmul gd rnd d a b
  | ffma gd rnd d a b c => exact Laws.Encoding.ffma gd rnd d a b c
  | fmin gd d a b => exact Laws.Encoding.fmin gd d a b
  | fmax gd d a b => exact Laws.Encoding.fmax gd d a b
  | fcmp gd cond pn a b => exact Laws.Encoding.fcmp gd cond pn a b
  | fclass gd d a => exact Laws.Encoding.fclass gd d a
  | frnd gd rnd d a => exact Laws.Encoding.frnd gd rnd d a
  | fscale gd rnd d a b => exact Laws.Encoding.fscale gd rnd d a b
  | hadd2 gd ty rnd d a b => exact Laws.Encoding.hadd2 gd ty rnd d a b
  | hmul2 gd ty rnd d a b => exact Laws.Encoding.hmul2 gd ty rnd d a b
  | hfma2 gd ty rnd d a b c => exact Laws.Encoding.hfma2 gd ty rnd d a b c
  | fdot2 gd ty rnd d a b c => exact Laws.Encoding.fdot2 gd ty rnd d a b c
  | fdot4 gd ty rnd d a b c => exact Laws.Encoding.fdot4 gd ty rnd d a b c
  | cvt gd dt sty rnd d a => exact Laws.Encoding.cvt gd dt sty rnd d a
  | cvtx gd dt rnd d a b => exact Laws.Encoding.cvtx gd dt rnd d a b
  | pack gd ty d a b => exact Laws.Encoding.pack gd ty d a b
  | unpack gd ty d a b => exact Laws.Encoding.unpack gd ty d a b
  | cbdec gd d a b => exact Laws.Encoding.cbdec gd d a b
  | exp2 gd d a => exact Laws.Encoding.exp2 gd d a
  | log2 gd d a => exact Laws.Encoding.log2 gd d a
  | rcp gd d a => exact Laws.Encoding.rcp gd d a
  | rsq gd d a => exact Laws.Encoding.rsq gd d a
  | sqrt gd d a => exact Laws.Encoding.sqrt gd d a
  | sin gd d a => exact Laws.Encoding.sin gd d a
  | cos gd d a => exact Laws.Encoding.cos gd d a
  | tanh gd d a => exact Laws.Encoding.tanh gd d a
  | shfl gd mode d a b => exact Laws.Encoding.shfl gd mode d a b
  | vote gd mode d a => exact Laws.Encoding.vote gd mode d a
  | redx gd ty op d a => exact Laws.Encoding.redx gd ty op d a
  | scanx gd ty op exc d a => exact Laws.Encoding.scanx gd ty op exc d a
  | bcst gd ty d a b => exact Laws.Encoding.bcst gd ty d a b
  | bra gd ofs => exact Laws.Encoding.bra gd ofs
  | brx gd a ofs => exact Laws.Encoding.brx gd a ofs
  | call gd ofs => exact Laws.Encoding.call gd ofs
  | callx gd a ofs => exact Laws.Encoding.callx gd a ofs
  | ret gd => exact Laws.Encoding.ret gd
  | exit gd => exact Laws.Encoding.exit gd
  | yield gd x => exact Laws.Encoding.yield gd x
  | trap gd imm => exact Laws.Encoding.trap gd imm
  | tret gd => exact Laws.Encoding.tret gd
  | brk gd imm => exact Laws.Encoding.brk gd imm
  | nop gd => exact Laws.Encoding.nop gd
  | ld gd ty tok d a b => exact Laws.Encoding.ld gd ty tok d a b
  | st gd ty d a b => exact Laws.Encoding.st gd ty d a b
  | ldl gd ty tok d a b => exact Laws.Encoding.ldl gd ty tok d a b
  | stl gd ty d a b => exact Laws.Encoding.stl gd ty d a b
  | ldp gd ty tok d a b => exact Laws.Encoding.ldp gd ty tok d a b
  | lda gd ty sc ord tok sp d a b => exact Laws.Encoding.lda gd ty sc ord tok sp d a b
  | sta gd ty sc ord sp d a b => exact Laws.Encoding.sta gd ty sc ord sp d a b
  | pref gd a b => exact Laws.Encoding.pref gd a b
  | atomAdd gd ty sc ord tok sp d a b => exact Laws.Encoding.atomAdd gd ty sc ord tok sp d a b
  | atomMin gd ty sc ord tok sp d a b => exact Laws.Encoding.atomMin gd ty sc ord tok sp d a b
  | atomMax gd ty sc ord tok sp d a b => exact Laws.Encoding.atomMax gd ty sc ord tok sp d a b
  | atomAnd gd ty sc ord tok sp d a b => exact Laws.Encoding.atomAnd gd ty sc ord tok sp d a b
  | atomOr gd ty sc ord tok sp d a b => exact Laws.Encoding.atomOr gd ty sc ord tok sp d a b
  | atomXor gd ty sc ord tok sp d a b => exact Laws.Encoding.atomXor gd ty sc ord tok sp d a b
  | atomExch gd ty sc ord tok sp d a b => exact Laws.Encoding.atomExch gd ty sc ord tok sp d a b
  | atomFadd gd sc ord tok sp d a b => exact Laws.Encoding.atomFadd gd sc ord tok sp d a b
  | cas gd ty sc ord tok sp d a b c => exact Laws.Encoding.cas gd ty sc ord tok sp d a b c
  | casw gd sc ord tok sp d a b c => exact Laws.Encoding.casw gd sc ord tok sp d a b c
  | fence gd sc ord => exact Laws.Encoding.fence gd sc ord
  | twait gd mask => exact Laws.Encoding.twait gd mask
  | tcnt gd tok d => exact Laws.Encoding.tcnt gd tok d
  | binit gd a => exact Laws.Encoding.binit gd a
  | bexp gd a b c => exact Laws.Encoding.bexp gd a b c
  | barv gd a => exact Laws.Encoding.barv gd a
  | btest gd d a => exact Laws.Encoding.btest gd d a
  | bfree gd a => exact Laws.Encoding.bfree gd a
  | ainit gd a b => exact Laws.Encoding.ainit gd a b
  | apost gd op d a b => exact Laws.Encoding.apost gd op d a b
  | astep gd d a => exact Laws.Encoding.astep gd d a
  | ares gd d => exact Laws.Encoding.ares gd d
  | movs gd d sr => exact Laws.Encoding.movs gd d sr
  | movsw gd sr a => exact Laws.Encoding.movsw gd sr a
  | pkset gd a b => exact Laws.Encoding.pkset gd a b
  | cancel gd lvl hard a => exact Laws.Encoding.cancel gd lvl hard a
  | enql gd a b => exact Laws.Encoding.enql gd a b
  | evsig gd a b => exact Laws.Encoding.evsig gd a b
  | ctrd gd d a => exact Laws.Encoding.ctrd gd d a
  | mma gd ns ks tok a => exact Laws.Encoding.mma gd ns ks tok a
  | mma16 gd ns ks tok a => exact Laws.Encoding.mma16 gd ns ks tok a
  | mopf gd => exact Laws.Encoding.mopf gd
  | mzero gd tok a => exact Laws.Encoding.mzero gd tok a
  | att gd exp abs acc tok a => exact Laws.Encoding.att gd exp abs acc tok a
  | attfin gd tok d a => exact Laws.Encoding.attfin gd tok d a
  | latw gd tok a => exact Laws.Encoding.latw gd tok a
  | kvlook gd tok d a => exact Laws.Encoding.kvlook gd tok d a
  | kvapp gd cmp a => exact Laws.Encoding.kvapp gd cmp a
  | kvfork gd cmp a => exact Laws.Encoding.kvfork gd cmp a
  | kvcommit gd cmp a => exact Laws.Encoding.kvcommit gd cmp a
  | topk gd cmp a => exact Laws.Encoding.topk gd cmp a
  | cpy gd cmp a => exact Laws.Encoding.cpy gd cmp a
  | cpyt gd conv cmp a => exact Laws.Encoding.cpyt gd conv cmp a
  | cpyc gd cmp a => exact Laws.Encoding.cpyc gd cmp a
  | cpyg gd cmp a => exact Laws.Encoding.cpyg gd cmp a
  | cpys gd cmp a => exact Laws.Encoding.cpys gd cmp a
  | chwp gd d a => exact Laws.Encoding.chwp gd d a
  | rngsnd gd pkg tok a => exact Laws.Encoding.rngsnd gd pkg tok a
  | rngrcv gd pkg cmp a => exact Laws.Encoding.rngrcv gd pkg cmp a
  | strideIssue x y => exact Laws.Encoding.strideIssue x y
  | tenureEnd x y => exact Laws.Encoding.tenureEnd x y
  | joinHoldExpiry x y => exact Laws.Encoding.joinHoldExpiry x y
  | wake x y z => exact Laws.Encoding.wake x y z
  | pendingDemotion x y z => exact Laws.Encoding.pendingDemotion x y z
  | rigPromote x y => exact Laws.Encoding.rigPromote x y
  | forcedDemotion x y => exact Laws.Encoding.forcedDemotion x y
  | loadLands x => exact Laws.Encoding.loadLands x
  | releaseWaitEnd x y => exact Laws.Encoding.releaseWaitEnd x y
  | faultSwap x => exact Laws.Encoding.faultSwap x
  | workgroupRestore x => exact Laws.Encoding.workgroupRestore x
  | workgroupPlace x y => exact Laws.Encoding.workgroupPlace x y
  | workgroupComplete x => exact Laws.Encoding.workgroupComplete x
  | preempt x => exact Laws.Encoding.preempt x
  | commandAccept x => exact Laws.Encoding.commandAccept x
  | commandComplete x y => exact Laws.Encoding.commandComplete x y
  | copyChunkDeliver x y => exact Laws.Encoding.copyChunkDeliver x y
  | ringBlockArrive x => exact Laws.Encoding.ringBlockArrive x
  | ringCreditReturn x => exact Laws.Encoding.ringCreditReturn x
  | readMissGrant x y z => exact Laws.Encoding.readMissGrant x y z
  | invalidation x => exact Laws.Encoding.invalidation x
  | translationInvalidation x => exact Laws.Encoding.translationInvalidation x
  | sharerAckTimeout x => exact Laws.Encoding.sharerAckTimeout x
  | sliceNoResponse x y => exact Laws.Encoding.sliceNoResponse x y
  | sliceTakeover x y => exact Laws.Encoding.sliceTakeover x y
  | takeoverLeaseEnd x y => exact Laws.Encoding.takeoverLeaseEnd x y
  | migrationRequest x => exact Laws.Encoding.migrationRequest x
  | migrationHoldExpiry x y => exact Laws.Encoding.migrationHoldExpiry x y
  | linkReservationExpiry x => exact Laws.Encoding.linkReservationExpiry x
  | refusalEntryExpiry x y => exact Laws.Encoding.refusalEntryExpiry x y
  | linkDeclaredDead x => exact Laws.Encoding.linkDeclaredDead x
  | launchRecordTaken x y => exact Laws.Encoding.launchRecordTaken x y
  | admissionResume x => exact Laws.Encoding.admissionResume x
  | snapshot x => exact Laws.Encoding.snapshot x
  | launchEnd x => exact Laws.Encoding.launchEnd x
  | sliceEnd x => exact Laws.Encoding.sliceEnd x
  | drainBudgetExpiry x y => exact Laws.Encoding.drainBudgetExpiry x y
  | drainEnd x y => exact Laws.Encoding.drainEnd x y
  | rollback x => exact Laws.Encoding.rollback x
  | uncorrectableError x => exact Laws.Encoding.uncorrectableError x
  | ageingMeasure x y => exact Laws.Encoding.ageingMeasure x y
  | dieDead x => exact Laws.Encoding.dieDead x
  | blulysDeclareDead x => exact Laws.Encoding.blulysDeclareDead x
  | kill x y z => exact Laws.Encoding.kill x y z
  | hostMemoryWrite x y => exact Laws.Encoding.hostMemoryWrite x y
  | hostMemoryRead x y => exact Laws.Encoding.hostMemoryRead x y
  | fabricReceive x y z => exact Laws.Encoding.fabricReceive x y z
  | relayStart x => exact Laws.Encoding.relayStart x
  | relayAbort x => exact Laws.Encoding.relayAbort x
  | relayDrainEnd x => exact Laws.Encoding.relayDrainEnd x
  | relayStreamReceived x => exact Laws.Encoding.relayStreamReceived x
  | relayAck x => exact Laws.Encoding.relayAck x
  | hostSoftCancel x y z => exact Laws.Encoding.hostSoftCancel x y z
  | hostHardCancel x y z => exact Laws.Encoding.hostHardCancel x y z
  | migreqRequest x y => exact Laws.Encoding.migreqRequest x y
  | migreqMoveDone x y => exact Laws.Encoding.migreqMoveDone x y
  | migrspRead x => exact Laws.Encoding.migrspRead x
  | ctxtWrite x y z u => exact Laws.Encoding.ctxtWrite x y z u
  | evcWrite x y z => exact Laws.Encoding.evcWrite x y z
  | nqtailWrite x y => exact Laws.Encoding.nqtailWrite x y
  | registerWrite x y z => exact Laws.Encoding.registerWrite x y z
  | start x => exact Laws.Encoding.start x
  | dieEntersService x => exact Laws.Encoding.dieEntersService x
  | storePerformed x => exact Laws.Encoding.storePerformed x
  | launchEndResume x => exact Laws.Encoding.launchEndResume x
  | trainingFailed x => exact Laws.Encoding.trainingFailed x
  | fenceCleared x => exact Laws.Encoding.fenceCleared x
  | pcieLinkUp x => exact Laws.Encoding.pcieLinkUp x
  | preCopyRoundEnd x => exact Laws.Encoding.preCopyRoundEnd x
  | relayRefusal x => exact Laws.Encoding.relayRefusal x
  | sramUncorrectableError x => exact Laws.Encoding.sramUncorrectableError x

/-- A decoded word builds a well-formed instruction that encodes to it. -/
theorem decode_eq_ok_iff {w : Dword} {i : Instr} :
    decode w = .ok i ↔ build (fieldsOf w.toNat) = some i ∧ i.wf = true ∧ encodeNat i = some w.toNat := by
  unfold decode decodeNat
  cases built : build (fieldsOf w.toNat) with
  | none =>
    refine iff_of_false ?_ nofun
    dsimp only
    split
    · nofun
    · split <;> nofun
  | some j =>
    dsimp only
    split
    case isTrue h =>
      obtain ⟨wf, word⟩ := Bool.and_eq_true_iff.1 h
      refine ⟨fun e => ?_, fun e => ?_⟩
      · obtain rfl := Decoded.ok.inj e
        exact ⟨rfl, wf, beq_iff_eq.1 word⟩
      · exact congrArg _ (Option.some.inj e.1)
    case isFalse h =>
      refine iff_of_false nofun fun ⟨e, wf, word⟩ => h ?_
      obtain rfl := Option.some.inj e
      exact Bool.and_eq_true_iff.2 ⟨wf, beq_iff_eq.2 word⟩

theorem encode_eq_some_iff {i : Instr} (wf : i.wf = true) {w : Dword} :
    encode i = some w ↔ encodeNat i = some w.toNat := by
  unfold encode
  rw [Option.map_eq_some_iff]
  refine ⟨fun ⟨n, word, e⟩ => ?_, fun word => ⟨_, word, (BitVec.ofNat_toNat _ w).trans (BitVec.setWidth_eq w)⟩⟩
  rw [← e, BitVec.toNat_ofNat, Nat.mod_eq_of_lt (statement_of_instr i wf n word).1]
  exact word

/-- Settles O58: the fields of a well-formed instruction's word build it again, and the decoder takes no other word. -/
theorem roundTrip : Obligations.RoundTrip := by
  unfold Obligations.RoundTrip
  refine ⟨fun i n word wf => (statement_of_instr i wf n word).1, fun i w wf word => ?_, fun i w ok => ?_⟩
  · have word := (encode_eq_some_iff wf).1 word
    exact decode_eq_ok_iff.2 ⟨(statement_of_instr i wf _ word).2, wf, word⟩
  · obtain ⟨-, wf, word⟩ := decode_eq_ok_iff.1 ok
    exact ⟨wf, (encode_eq_some_iff wf).2 word⟩

end Sys2Proof.Machine
end

