-- ==== Sys2Proof/Proofs/Moves.lean ====
section
/-! Moves, selection, integer comparison and predicates (R134 to R138). -/

namespace Sys2Proof.Machine

open Sys2Proof.Spec

/-! The model's numbers and the formulas on bit vectors. -/

/-- A move at the width of the type (R134). -/
theorem putT_srcT (e : Env) (t : Thread) (ty : Ty) (d a : Opnd) :
    e.putT t ty d (e.srcT t ty a) = op1 e t ty d a fun x => x := by
  unfold Env.putT Env.srcT op1
  split <;> rw [BitVec.ofNat_toNat, BitVec.setWidth_eq]

theorem ofNat_two_pow_eq_shiftLeft (n : Nat) : BitVec.ofNat 8 (2 ^ n) = 1#8 <<< n := by
  refine BitVec.eq_of_toNat_eq ?_
  rw [BitVec.toNat_ofNat, BitVec.toNat_shiftLeft, Nat.shiftLeft_eq]
  exact congrArg (· % 2 ^ 8) (Nat.one_mul _).symm

theorem setPred_eq_putPred (t : Thread) (n : Nat) (v : Bool) : t.setPred n v = putPred t n v := by
  unfold Thread.setPred putPred
  rw [ofNat_two_pow_eq_shiftLeft]
  cases v <;> rfl

/-- The integer of a pattern is the one that its sign gives (R97). -/
theorem toInt_toNat (sg : Bool) {w : Nat} (pos : 0 < w) (a : BitVec w) :
    toInt sg w a.toNat = if sg then a.toInt else (a.toNat : Int) := by
  have half : 2 ^ w = 2 * 2 ^ (w - 1) := by rw [Nat.mul_comm, Nat.two_pow_pred_mul_two pos]
  unfold toInt
  rw [Nat.mod_eq_of_lt a.isLt, BitVec.toInt_eq_toNat_cond]
  cases sg with
  | false => rfl
  | true =>
    simp only [Bool.true_and, if_true, decide_eq_true_eq, half]
    split <;> split <;> omega

theorem icmpF_eq_holdsInt (c : Cond) (sg : Bool) {w : Nat} (pos : 0 < w) (a b : BitVec w) :
    icmpF c sg w a.toNat b.toNat = holdsInt c sg a b := by
  unfold icmpF holdsInt
  simp only [toInt_toNat sg pos]
  cases sg with
  | true =>
    cases c <;> simp only [if_true, BitVec.slt_eq_decide, BitVec.sle_eq_decide]
    · rw [Bool.eq_iff_iff, beq_iff_eq, beq_iff_eq, BitVec.toInt_inj]
    · rw [Bool.eq_iff_iff, bne_iff_ne, bne_iff_ne, Ne, BitVec.toInt_inj]
  | false =>
    cases c <;> simp only [Bool.false_eq_true, if_false, Int.ofNat_lt, Int.ofNat_le]
    · rw [Bool.eq_iff_iff, beq_iff_eq, beq_iff_eq, Int.ofNat_inj, BitVec.toNat_inj]
    · rw [Bool.eq_iff_iff, bne_iff_ne, bne_iff_ne, Ne, Int.ofNat_inj, BitVec.toNat_inj]
    all_goals rfl

/-- A comparison at the width of its type (R137). -/
theorem icmpF_srcT {ty : Ty} (int : ty.isIW32or64 = true) (e : Env) (t : Thread) (c : Cond) (a b : Opnd) :
    icmpF c ty.signed ty.bits (e.srcT t ty a) (e.srcT t ty b) = cond2 e t ty a b (holdsInt c (signedTy ty)) := by
  unfold Env.srcT cond2
  cases ty <;> cases int
  · exact icmpF_eq_holdsInt c true (by decide) _ _
  · exact icmpF_eq_holdsInt c true (by decide) _ _
  · exact icmpF_eq_holdsInt c false (by decide) _ _
  · exact icmpF_eq_holdsInt c false (by decide) _ _

theorem psetF_eq (op : PredOp) (x y : Bool) : psetF op x y = match op with
    | .and => x && y
    | .or => x || y
    | .xor => x ^^ y := by
  cases op <;> rfl

theorem bit_ne_zero (b : Bool) : ((if b then 1#32 else 0#32) != 0#32) = b := by cases b <;> rfl

/-- A predicate operand reads as 0 or 1 (R63). -/
theorem src_ne_zero_of_isPred {o : Opnd} (pred : o.isPred = true) (e : Env) (t : Thread) :
    (e.src t o != 0#32) = (e.src t o == 1#32) := by
  cases o with
  | p r =>
    change ((if t.pred r.toNat then 1#32 else 0#32) != 0#32) = ((if t.pred r.toNat then 1#32 else 0#32) == 1#32)
    cases t.pred r.toNat <;> rfl
  | _ => cases pred

/-- A lane that executes belongs to the group, and its operands are legal. -/
theorem mem_lanes_of_runs {s : State} {g : Group} {gd : Guard} {l : LaneRef} (run : runs s g gd l = true) : l ∈ g.lanes := by
  unfold runs at run
  rw [Bool.and_assoc, Bool.and_assoc] at run
  exact List.contains_iff_mem.1 (Bool.and_eq_true_iff.1 run).1

theorem legal_of_runs {s : State} {g : Group} {i : Instr} (h : Ready s g i) {gd : Guard} {l : LaneRef}
    (run : runs s g gd l = true) : s.legalFor l i = true := h.legal l (mem_lanes_of_runs run)

section
variable {s : State} {g : Group} {x : Effect}

/-- A slot whose lanes only compute has the effect that a table gives it, where the two formulas agree (R8). -/
theorem lanewise_next {i : Instr} {f : Env → Thread → Thread} (h : Ready s g i) (agree : pairsAgree s g x)
    (leaves : x.leaves = false) (run : exec i s = lanewise i x.gd x.ops s f)
    (value : ∀ l, runs s g x.gd l = true → ∀ u ls t, f (view u l) t = x.f u ls l t) :
    exec i s = .next (x.result s g) :=
  run.trans (issue_of_mapLanes h leaves agree (taint_mapLanes s _ x.ops f) fun l run => value l run _ _ _)

/-- MOV (R134). -/
theorem mov_next {gd : Guard} {ty : Ty} {d a : Opnd} (hx : moves (.mov gd ty d a) = some x) (h : Ready s g (.mov gd ty d a))
    (agree : pairsAgree s g x) : exec (.mov gd ty d a) s = .next (x.result s g) := by
  obtain rfl := Option.some.inj hx
  exact lanewise_next h agree rfl rfl fun _ _ _ _ _ => putT_srcT ..

/-- MOVI (R134). -/
theorem movi_next {gd : Guard} {d : Opnd} {k : Word} (hx : moves (.movi gd d k) = some x) (h : Ready s g (.movi gd d k))
    (agree : pairsAgree s g x) : exec (.movi gd d k) s = .next (x.result s g) := by
  obtain rfl := Option.some.inj hx
  exact lanewise_next h agree rfl rfl fun _ _ _ _ _ => rfl

/-- MOVH writes the odd member of a pair (R134). -/
theorem movh_next {gd : Guard} {d : Opnd} {k : Word} (hx : moves (.movh gd d k) = some x) (h : Ready s g (.movh gd d k))
    (agree : pairsAgree s g x) : exec (.movh gd d k) s = .next (x.result s g) := by
  obtain rfl := Option.some.inj hx
  exact lanewise_next h agree rfl rfl fun _ _ _ _ _ => by cases d <;> rfl

/-- SEL moves one of two values (R135). -/
theorem sel_next {gd : Guard} {ty : Ty} {d a b c : Opnd} (hx : moves (.sel gd ty d a b c) = some x)
    (h : Ready s g (.sel gd ty d a b c)) (agree : pairsAgree s g x) :
    exec (.sel gd ty d a b c) s = .next (x.result s g) := by
  obtain rfl := Option.some.inj hx
  exact lanewise_next h agree rfl rfl fun _ _ _ _ _ => by dsimp only; rw [← putT_srcT, ← apply_ite]

/-- ICMP compares at the width and sign of its type (R137). -/
theorem icmp_next {gd : Guard} {ty : Ty} {c : Cond} {n : BitVec 3} {a b : Opnd} (wf : (Instr.icmp gd ty c n a b).wf = true)
    (hx : moves (.icmp gd ty c n a b) = some x) (h : Ready s g (.icmp gd ty c n a b)) (agree : pairsAgree s g x) :
    exec (.icmp gd ty c n a b) s = .next (x.result s g) := by
  have wf : ((ty.isIW32or64 && c != .un) && a.wf && b.wf) = true := wf
  simp only [Bool.and_eq_true] at wf
  obtain ⟨⟨⟨int, -⟩, -⟩, -⟩ := wf
  obtain rfl := Option.some.inj hx
  exact lanewise_next h agree rfl rfl fun _ _ _ _ _ => by dsimp only; rw [icmpF_srcT int, setPred_eq_putPred]

/-- ICMP_I compares signed words (R57, R137). -/
theorem icmpI_next {gd : Guard} {c : Cond} {n : BitVec 3} {a : Opnd} {k : Word} (hx : moves (.icmpI gd c n a k) = some x)
    (h : Ready s g (.icmpI gd c n a k)) (agree : pairsAgree s g x) :
    exec (.icmpI gd c n a k) s = .next (x.result s g) := by
  obtain rfl := Option.some.inj hx
  exact lanewise_next h agree rfl rfl fun _ _ _ _ _ => by dsimp only; rw [icmpF_eq_holdsInt c true (by decide) _ k, setPred_eq_putPred]

/-- PSET combines two predicates (R138). -/
theorem pset_next {gd : Guard} {op : PredOp} {d a b : Opnd} (hx : moves (.pset gd op d a b) = some x)
    (h : Ready s g (.pset gd op d a b)) (agree : pairsAgree s g x) :
    exec (.pset gd op d a b) s = .next (x.result s g) := by
  obtain rfl := Option.some.inj hx
  refine lanewise_next h agree rfl rfl fun l run _ _ _ => ?_
  have legal : ((d.isPred && a.isPred) && b.isPred) = true := legal_of_runs h run
  simp only [Bool.and_eq_true] at legal
  obtain ⟨⟨pd, pa⟩, pb⟩ := legal
  dsimp only
  rw [src_ne_zero_of_isPred pa, src_ne_zero_of_isPred pb, psetF_eq]
  cases d with
  | p r =>
    change Thread.setPred _ r.toNat _ = _
    rw [setPred_eq_putPred]
    exact congrArg (putPred _ r.toNat) (bit_ne_zero _)
  | _ => cases pd

/-- PMOV.GET reads p7 as 1 (R138). -/
theorem pmov_get_next {gd : Guard} {d : Opnd} (hx : moves (.pmov gd (.get d)) = some x)
    (h : Ready s g (.pmov gd (.get d))) (agree : pairsAgree s g x) :
    exec (.pmov gd (.get d)) s = .next (x.result s g) := by
  obtain rfl := Option.some.inj hx
  exact lanewise_next h agree rfl rfl fun _ _ _ _ _ => by dsimp only; rw [BitVec.setWidth_or, BitVec.or_comm]; rfl

/-- PMOV.PUT leaves p7 at 1 (R138). -/
theorem pmov_put_next {gd : Guard} {a : Opnd} (hx : moves (.pmov gd (.put a)) = some x)
    (h : Ready s g (.pmov gd (.put a))) (agree : pairsAgree s g x) :
    exec (.pmov gd (.put a)) s = .next (x.result s g) := by
  obtain rfl := Option.some.inj hx
  exact lanewise_next h agree rfl rfl fun _ _ _ _ _ => by dsimp only; rw [BitVec.or_comm]; rfl

/-- NOP changes nothing (R164). -/
theorem nop_next {gd : Guard} (hx : moves (.nop gd) = some x) (h : Ready s g (.nop gd)) :
    exec (.nop gd) s = .next (x.result s g) := by
  obtain rfl := Option.some.inj hx
  change issue (.nop gd) gd s (fun s _ => s) = _
  rw [issue_of_ready h]
  refine (conclude_eq_next _ _).2 ⟨h.halt, ?_⟩
  unfold Effect.result Effect.start
  simp only [reading_nil, each_id]
  rfl

end

/-- Settles O23: each lane of these slots computes alone, from formulas that agree with the model's. -/
theorem movesAndPredicates : Obligations.MovesAndPredicates := by
  unfold Obligations.MovesAndPredicates
  intro i x s g hx wf h _ agree
  have table := hx
  unfold moves at table
  split at table
  · exact mov_next hx h agree
  · exact movi_next hx h agree
  · exact movh_next hx h agree
  · exact sel_next hx h agree
  · exact icmp_next wf hx h agree
  · exact icmpI_next hx h agree
  · exact pset_next hx h agree
  · exact pmov_get_next hx h agree
  · exact pmov_put_next hx h agree
  · exact nop_next hx h
  · exact absurd table nofun

end Sys2Proof.Machine
end

