-- ==== Sys2Proof/Proofs/TranslatedWrites.lean ====
section
/-! SUPPORT. What a translation for a write leaves of the work of the cores: a copy-on-write changes nothing of a launch
but its snapshot (R346, R348). -/

namespace Sys2Proof.Machine

/-- A launch without its snapshot. -/
def Launch.bare (k : Launch) : Launch := { k with snap := [], snapAt := none, snapTracks := [], repl := false }

/-- The work of the cores, the launches without their snapshots. -/
def State.bareWork (s : State) : Work := { s.work with launches := s.launches.map Launch.bare }

theorem bareWork_of_work {s t : State} (h : t.work = s.work) : t.bareWork = s.bareWork := by
  unfold State.bareWork
  rw [h, show t.launches = s.launches from congrArg Work.launches h]

theorem bareWork_foldl {α : Type} {f : State → α → State} (h : ∀ s x, (f s x).bareWork = s.bareWork) (l : List α)
    (s : State) : (l.foldl f s).bareWork = s.bareWork :=
  List.foldlRecOn (motive := fun t => t.bareWork = s.bareWork) l f rfl fun t ht x _ => (h t x).trans ht

theorem State.setLaunch_bareWork (s : State) (lid : Nat) {f : Launch → Launch} (h : ∀ k, (f k).bare = k.bare) :
    (s.setLaunch lid f).bareWork = s.bareWork := by
  have launches : (s.setLaunch lid f).launches.map Launch.bare = s.launches.map Launch.bare := by
    refine List.map_map.trans (List.map_congr_left fun k _ => ?_)
    rw [Function.comp_apply]
    split
    · exact h k
    · rfl
  unfold State.bareWork
  rw [launches]
  rfl

theorem State.leafStore_work (s : State) (pa : Nat) (f : Nat → Nat → Nat) : (s.leafStore pa f).work = s.work :=
  State.hwWrite_work _ _ _ _ _

theorem State.poolFree_work (s : State) (v a : Nat) : (s.poolFree v a).work = s.work := rfl

theorem State.poolAlloc_work {s t : State} {v size align a : Nat} (h : s.poolAlloc v size align = some (a, t)) :
    t.work = s.work := by
  unfold State.poolAlloc at h
  dsimp only at h
  split at h
  · cases h
  split at h
  · cases h
    rfl
  split at h <;> cases h
  all_goals rfl

theorem State.releaseSnap_bareWork (s : State) (lid : Nat) : (s.releaseSnap lid).bareWork = s.bareWork := by
  unfold State.releaseSnap
  split
  · rfl
  next k _ =>
    refine (State.setLaunch_bareWork _ _ ?_).trans (bareWork_of_work ?_)
    · exact fun _ => rfl
    have pages := work_foldl (f := fun (s : State) (p : SnapPage) =>
      let s := if p.rewritten then s else s.leafStore p.leafPa fun _ e => setBits e 1 1 1
      match p.copy with
      | some c => s.poolFree k.vf c
      | none => s) (fun s p => by
        dsimp only
        have stored : (if p.rewritten = true then s else s.leafStore p.leafPa fun _ e => setBits e 1 1 1).work = s.work := by
          split
          · rfl
          · exact s.leafStore_work _ _
        split
        · exact (State.poolFree_work _ _ _).trans stored
        · exact stored) k.snap s
    split
    · exact (State.poolFree_work _ _ _).trans pages
    · exact pages

theorem State.unreplay_bareWork (s : State) (lid : Nat) : (s.unreplay lid).bareWork = s.bareWork := by
  unfold State.unreplay
  split
  · rfl
  split
  · refine (State.setLaunch_bareWork _ _ ?_).trans (s.releaseSnap_bareWork lid)
    exact fun _ => rfl
  · rfl

theorem State.copyPage_work (s : State) (src dst size : Nat) : (s.copyPage src dst size).work = s.work := by
  refine work_foldl (fun s i => ?_) _ s
  exact (State.homeWrite_work (s.reportChecks (src + 32 * i) 32).take.2 (w := .hw false (s.sectorBad (src / 32 + i)) false)
    rfl _ _ _).trans (s.reportChecks_work (src + 32 * i) 32)

theorem State.copyFor_bareWork (s : State) (lid : Nat) (p : SnapPage) : (s.copyFor lid p).bareWork = s.bareWork := by
  unfold State.copyFor
  split
  · rfl
  split
  · exact s.unreplay_bareWork lid
  next alloc =>
    refine (State.setLaunch_bareWork _ _ ?_).trans (bareWork_of_work ?_)
    · exact fun _ => rfl
    exact ((State.useDie_work _ _ _).trans (State.copyPage_work _ _ _ _)).trans (State.poolAlloc_work alloc)

theorem State.copyOnWrite_bareWork (s : State) (tag : Option CtxTag) (key : Nat) :
    (s.copyOnWrite tag key).bareWork = s.bareWork := by
  have copied := bareWork_foldl (f := fun (s : State) (q : Nat × SnapPage) => s.copyFor q.1 q.2)
    (fun s q => s.copyFor_bareWork q.1 q.2) (s.protectors tag key) s
  unfold State.copyOnWrite
  dsimp only
  split
  · exact copied
  · exact (bareWork_of_work (State.leafStore_work _ _ _)).trans copied

/-- An access leaves the work of the cores but for snapshots (R293, R346). -/
theorem translate_bareWork (s : State) (ctx : CtxCopy) (unit : TUnit) (die : Nat) (core : Option Nat) (perm : Dword)
    (kind : AccKind) (va : Nat) : (translate s ctx unit die core perm kind va).1.bareWork = s.bareWork := by
  have noted (reads : List Nat) : (s.noteWalk ctx.tag reads).bareWork = s.bareWork :=
    bareWork_of_work (s.noteWalk_work ctx.tag reads)
  unfold translate
  split
  · rfl
  dsimp only
  split
  · exact noted _
  · exact noted _
  · exact noted _
  next e pa level lines path stale _ =>
    generalize lookup s ctx unit die va (fun e => kind.allowed perm e && !mustClaim core e) = found at *
    have claimed : (if stale = true then (s.noteWalk ctx.tag found.reads, e)
        else (s.noteWalk ctx.tag found.reads).claim core e pa).1.bareWork = s.bareWork := by
      split
      · exact noted _
      · exact (bareWork_of_work (State.claim_work _ _ _ _)).trans (noted _)
    generalize (if stale = true then (_, e) else State.claim _ core e pa : State × Nat) = x at claimed ⊢
    generalize (kind.writes && !pteW x.2 && x.1.snapshotted ctx.tag (pageKey x.2 pa)) = cow
    generalize kind.allowed perm (if cow = true then setBits x.2 1 1 1 else x.2) = allowed
    split
    · exact claimed
    have copied : (if cow = true then x.1.copyOnWrite (some ctx.tag) (pageKey x.2 pa) else x.1).bareWork = s.bareWork := by
      split
      · exact (State.copyOnWrite_bareWork _ _ _).trans claimed
      · exact claimed
    generalize (if cow = true then x.1.copyOnWrite (some ctx.tag) (pageKey x.2 pa) else x.1) = y at copied ⊢
    generalize (if cow = true then y.read64 pa else x.2) = leaf
    have installed := (bareWork_of_work (y.install_work ctx unit die va leaf pa level lines path stale found.hit)).trans copied
    generalize y.install ctx unit die va leaf pa level lines path stale found.hit = z at installed ⊢
    split
    · exact installed
    · exact installed
    have checked (a : Nat) : (checkPa z a).bareWork = s.bareWork := (bareWork_of_work (checkPa_work z a)).trans installed
    split
    · exact (bareWork_of_work (State.touchObject_work _ _ _ _ _ _)).trans (checked _)
    · exact checked _

theorem State.coreAccess_bareWork (s : State) (l : LaneRef) (kind : AccKind) (va : Nat) :
    (s.coreAccess l kind va).1.bareWork = s.bareWork := by
  unfold State.coreAccess
  split
  · rfl
  split
  · rfl
  · exact translate_bareWork _ _ _ _ _ _ _ _

end Sys2Proof.Machine
end

