-- ==== Sys2Proof/Proofs/LaneMoves.lean ====
section
/-! SUPPORT. One lane of an unprotected launch: how its thread changes, how it leaves its stride, and how a trap takes it
into its handler (R30, R156, R166). -/

namespace Sys2Proof.Machine

open Sys2Proof.Spec

theorem ne_absent_of_alive {t : Thread} (h : t.alive = true) : t.life ≠ .absent := by
  intro e
  unfold Thread.alive at h
  rw [e] at h
  cases h

/-! What stays of the workgroups. -/

theorem map_modifyAt_of_keep {α β : Type} (m : α → β) (l : List α) (i : Nat) {f : α → α} (h : ∀ x, m (f x) = m x) :
    (modifyAt l i f).map m = l.map m := by
  refine List.ext_getElem? fun j => ?_
  rw [List.getElem?_map, List.getElem?_map, modifyAt_get]
  split
  · rw [Option.map_map]
    exact Option.map_congr fun x _ => h x
  · rfl

theorem State.map_shell_setThread (s : State) (l : LaneRef) (f : Thread → Thread) :
    (s.setThread l f).wgs.map shell = s.wgs.map shell := by
  unfold State.setThread State.setRig State.setWg
  rw [List.map_map]
  refine List.map_congr_left fun w _ => ?_
  rw [Function.comp_apply]
  split
  · refine congrArg (fun rigs => { w with rigs := rigs }) (map_modifyAt_of_keep _ _ _ ?_)
    exact fun _ => rfl
  · rfl

theorem threadOnly_of_wgs {s t : State} (h : t.wgs = s.wgs) (l : LaneRef) : threadOnly s t l (s.thread l) :=
  ⟨by rw [h], State.thread_of_wgs h l, fun m _ => State.thread_of_wgs h m⟩

theorem threadOnly_trans_wgs {s t u : State} {l : LaneRef} {th : Thread} (h : threadOnly s t l th) (e : u.wgs = t.wgs) :
    threadOnly s u l th := by
  obtain ⟨shells, own, others⟩ := h
  exact ⟨by rw [e, shells], (State.thread_of_wgs e l).trans own, fun m ne => (State.thread_of_wgs e m).trans (others m ne)⟩

theorem threadOnly_setThread {s t : State} {l : LaneRef} {th : Thread} (h : threadOnly s t l th) (there : th.life ≠ .absent)
    (f : Thread → Thread) : threadOnly s (t.setThread l f) l (f th) := by
  obtain ⟨shells, own, others⟩ := h
  refine ⟨(t.map_shell_setThread l f).trans shells, ?_, fun m ne => ?_⟩
  · rw [State.thread_setThread_self (own ▸ there), own]
  · rw [State.thread_setThread_other t l m f (Ne.symm ne), others m ne]

/-- A workgroup keeps its launch as threads change. -/
theorem launchOf?_of_shells {s t : State} (shells : t.wgs.map shell = s.wgs.map shell) (launches : t.launches = s.launches)
    (i : Nat) : t.launchOf? i = s.launchOf? i := by
  have found (u : State) : (u.wgs.map shell).find? (fun w => w.id == i) = (u.wg? i).map shell := by
    rw [List.find?_map]
    rfl
  have launch : (t.wg? i).map Workgroup.launch = (s.wg? i).map Workgroup.launch := by
    have eq : ((t.wg? i).map shell).map Workgroup.launch = ((s.wg? i).map shell).map Workgroup.launch := by
      rw [← found, ← found, shells]
    rwa [Option.map_map, Option.map_map] at eq
  have bound (u : State) : u.launchOf? i = ((u.wg? i).map Workgroup.launch).bind u.launch? := by
    rw [Option.bind_map]
    rfl
  rw [bound, bound, launch]
  unfold State.launch?
  rw [launches]

theorem State.prot_setThread (s : State) (l : LaneRef) (f : Thread → Thread) (i : Nat) :
    (s.setThread l f).prot i = s.prot i := by
  unfold State.prot
  rw [launchOf?_of_shells (t := s.setThread l f) (s.map_shell_setThread l f) rfl]

/-! One lane of an unprotected launch. -/

theorem State.twins_of_plain {s : State} {l : LaneRef} (plain : s.prot l.wg = false) : s.twins l = [l] := by
  unfold State.twins
  rw [plain, if_neg Bool.false_ne_true]

/-- An unprotected lane performs its point (R350). -/
theorem State.agree_of_plain {α : Type} [DecidableEq α] {s : State} {l : LaneRef} (plain : s.prot l.wg = false) (x : α) :
    s.agree [(l, x)] = (s, [(l, x)]) := by
  unfold State.agree
  rw [List.foldl_cons, List.foldl_nil]
  dsimp only
  rw [plain]
  rfl

theorem State.moveTo_of_plain {s : State} {l : LaneRef} (plain : s.prot l.wg = false) (pc : Nat) :
    s.moveTo l pc = (s.goTo l pc).leave l := by
  unfold State.moveTo
  rw [State.twins_of_plain plain]
  rfl

theorem State.group?_setGroup_of_some {s : State} {g : Group} (group : s.group? = some g) (f : Group → Group) :
    (s.setGroup f).group? = some (f g) := by
  have has : s.hasBay s.focus.1 s.focus.2 := State.hasBay_of_ne fun e => by
    rw [State.group?, e] at group
    cases group
  rw [State.group?_setGroup s f has.1 has.2, group]
  rfl

theorem State.group?_leave {s : State} {g : Group} (group : s.group? = some g) (l : LaneRef) :
    (s.leave l).group? = some { g with lanes := g.lanes.filter (· != l) } := State.group?_setGroup_of_some group _

theorem leftStride_leave {s : State} {g : Group} (group : s.group? = some g) (l : LaneRef) : leftStride (s.leave l) g l :=
  ⟨_, State.group?_leave group l, rfl, rfl, rfl⟩

/-- A lane that is moved to an address (R28, R54). -/
theorem threadOnly_moveTo {s t : State} {l : LaneRef} {th : Thread} (h : threadOnly s t l th) (there : th.life ≠ .absent)
    {c : Nat} (cycle : t.cycle = c) (pc : Nat) :
    threadOnly s ((t.goTo l pc).leave l) l { th with pc := BitVec.ofNat 64 pc, slot := none, age := c } := by
  subst cycle
  exact threadOnly_trans_wgs
    (threadOnly_setThread h there fun th => { th with pc := BitVec.ofNat 64 pc, slot := none, age := t.cycle }) rfl

section
variable {s : State} {g : Group} {i : Instr} {gd : Guard} {l : LaneRef}

/-- The slot of one lane (R66). -/
theorem issue_of_one (h : One s g i gd l) (f : State → List LaneRef → State) :
    issue i gd s f = conclude (f { s with fresh := s.fresh + 1 } [l]) := by
  rw [issue_of_ready h.toReady, h.only]

theorem runs_of_one (h : One s g i gd l) : runs s g gd l = true :=
  mem_running.1 (by rw [h.only]; exact List.mem_singleton_self l)

theorem legal_of_one (h : One s g i gd l) : s.legalFor l i = true := legal_of_runs h.toReady (runs_of_one h)

end

end Sys2Proof.Machine
end

