-- ==== Sys2Proof/Proofs/TrappedLanes.lean ====
section
/-! SUPPORT. A trap of one lane of an unprotected launch takes it into its handler (R166, R167). -/

namespace Sys2Proof.Machine

open Sys2Proof.Spec

/-! What an access leaves. -/

theorem launch?_of_bareWork {s t : State} (h : t.bareWork = s.bareWork) (id : Nat) :
    (t.launch? id).map Launch.bare = (s.launch? id).map Launch.bare := by
  have found (u : State) : (u.launch? id).map Launch.bare = (u.launches.map Launch.bare).find? fun k => k.id == id := by
    rw [List.find?_map]
    rfl
  rw [found, found, show t.launches.map Launch.bare = s.launches.map Launch.bare from congrArg Work.launches h]

theorem wgs_of_bareWork {s t : State} (h : t.bareWork = s.bareWork) : t.wgs = s.wgs := congrArg Work.wgs h

theorem wg?_of_wgs {s t : State} (h : t.wgs = s.wgs) (i : Nat) : t.wg? i = s.wg? i := by
  unfold State.wg?
  rw [h]

/-- The launch of a workgroup keeps all but its snapshot. -/
theorem launchOf?_of_bareWork {s t : State} (h : t.bareWork = s.bareWork) (i : Nat) :
    (t.launchOf? i).map Launch.bare = (s.launchOf? i).map Launch.bare := by
  unfold State.launchOf?
  rw [wg?_of_wgs (wgs_of_bareWork h), Option.map_bind, Option.map_bind]
  exact congrArg (Option.bind _) (funext fun w => launch?_of_bareWork h w.launch)

/-- The record of a workgroup's launch stays. -/
theorem rcd_of_bareWork {s t : State} (h : t.bareWork = s.bareWork) (i : Nat) :
    (t.launchOf? i).map Launch.rcd = (s.launchOf? i).map Launch.rcd := by
  have eq := congrArg (Option.map Launch.rcd) (launchOf?_of_bareWork h i)
  rwa [Option.map_map, Option.map_map] at eq

theorem prot_eq_rcd (s : State) (i : Nat) : s.prot i = (((s.launchOf? i).map Launch.rcd).map LaunchRec.prot).getD false := by
  rw [Option.map_map]
  rfl

theorem prot_of_bareWork {s t : State} (h : t.bareWork = s.bareWork) (i : Nat) : t.prot i = s.prot i := by
  rw [prot_eq_rcd, prot_eq_rcd, rcd_of_bareWork h]

theorem group?_of_bareWork {s t : State} (h : t.bareWork = s.bareWork) : t.group? = s.group? := by
  unfold State.group? State.bay State.core
  rw [show t.cores = s.cores from congrArg Work.cores h, show t.focus = s.focus from congrArg Work.focus h]

theorem cycle_of_bareWork {s t : State} (h : t.bareWork = s.bareWork) : t.cycle = s.cycle := by
  unfold State.cycle State.bay State.core
  rw [show t.cores = s.cores from congrArg Work.cores h, show t.focus = s.focus from congrArg Work.focus h]

theorem validIn_of_bareWork {s t : State} (h : t.bareWork = s.bareWork) (c : Nat) (g : Group) (pc : Nat) :
    t.validIn c g pc = s.validIn c g pc := by
  unfold State.validIn State.kslot? State.core
  rw [show t.cores = s.cores from congrArg Work.cores h]

theorem validTarget_of_group {s : State} {g : Group} (group : s.group? = some g) (pc : Nat) :
    s.validTarget pc = s.validIn s.focus.1 g pc := by
  unfold State.validTarget
  rw [group]

theorem tframe_eq_rcd (s : State) (l : LaneRef) : s.tframe l = (((s.launchOf? l.wg).map Launch.rcd).bind fun r =>
    (s.wg? l.wg).map fun w => (r.save + saveStride r.spilld * (w.wgid * r.tpw + s.tidOf l)) % 2 ^ 64).getD 0 := by
  unfold State.tframe
  cases s.wg? l.wg <;> cases s.launchOf? l.wg <;> rfl

theorem tframe_of_bareWork {s t : State} (h : t.bareWork = s.bareWork) (l : LaneRef) : t.tframe l = s.tframe l := by
  have tid : t.tidOf l = s.tidOf l := by
    unfold State.tidOf
    rw [prot_of_bareWork h]
  rw [tframe_eq_rcd, tframe_eq_rcd, rcd_of_bareWork h, wg?_of_wgs (wgs_of_bareWork h), tid]

/-! The frame of a trap. -/

theorem word_eq_slotWord (g : Group) : g.word = slotWord g := by
  unfold Group.word slotWord
  cases g.words.getD g.slot .filler <;> rfl

/-- The frame of a trap at a slot (R167). -/
theorem trapFrame_of (g : Group) (t : Thread) (cause faddr : Nat) :
    trapFrame g t (.of cause faddr) = frameBytes g.pc cause g.slot 0#32 faddr (slotWord g) t := by
  rw [← word_eq_slotWord]
  unfold trapFrame frameBytes TrapInfo.of
  simp only [Bool.false_eq_true, if_false, List.append_assoc, leBytes_zero 60]
  rfl

/-! The trap. -/

theorem State.addStore_of_wg {s : State} {l : LaneRef} {w : Workgroup} (there : s.wg? l.wg = some w) (p : Place) (va : Nat)
    (data : List Byte) : s.addStore l p va data = { s with
      serial := s.serial + 1
      stores := s.stores ++ [⟨s.serial, s.fresh, l, w.launch, w.core, p, va, data, .wg, none, none, false⟩] } := by
  unfold State.addStore State.addStoreOf
  rw [there]
  rfl

/-- The state after a trap of a lane: its frame is on its way, it is in its handler, it has left its stride. -/
def State.enterHandler (v : State) (l : LaneRef) (h va : Nat) (p : Place) (frame : List Byte) : State :=
  (((v.addStore l p va frame).setThread l fun t => { t with inHandler := true, trapLfsr := t.lfsr }).goTo l h).leave l

section
variable {u v : State} {g : Group} {l : LaneRef} {h : Nat} {p : Place}

/-- The access of a trap's frame. -/
theorem bareWork_of_handled (hd : handled u u l v h p) : v.bareWork = u.bareWork := by
  obtain ⟨-, -, -, -, -, q, access, -⟩ := hd
  have kept := u.coreAccess_bareWork l .write (u.tframe l)
  rwa [access] at kept

theorem wg_of_handled (hd : handled u u l v h p) : ∃ w, v.wg? l.wg = some w := by
  have kept := wgs_of_bareWork (bareWork_of_handled hd)
  obtain ⟨⟨k, launch, -⟩, -⟩ := hd
  obtain ⟨w, there, -⟩ := Option.bind_eq_some_iff.1 launch
  exact ⟨w, (wg?_of_wgs kept l.wg).trans there⟩

/-- The frame of a trap can be stored (R166). -/
theorem State.storeFrame_of_handled (hd : handled u u l v h p) (data : List Byte) :
    u.storeFrame l data = (v.addStore l p (u.tframe l) data, true) := by
  obtain ⟨-, -, -, -, -, q, access, -⟩ := hd
  unfold State.storeFrame
  dsimp only
  rw [access]

/-- An exception of an unprotected lane (R166). -/
theorem State.trapIn_of_handled (group : u.group? = some g) (plain : u.prot l.wg = false) (hd : handled u u l v h p)
    (i : TrapInfo) : (u.trapIn u.focus.1 g l i).leave l = v.enterHandler l h (u.tframe l) p (trapFrame g (u.thread l) i) := by
  have kept := bareWork_of_handled hd
  have stored := State.storeFrame_of_handled hd
  obtain ⟨w, there⟩ := wg_of_handled hd
  obtain ⟨⟨k, launch, handler⟩, pos, -, valid, out, -⟩ := hd
  have none : (k.rcd.handler == 0) = false := by rw [handler, beq_eq_false_iff_ne]; exact pos.ne'
  have plain' : (v.addStore l p (u.tframe l) (trapFrame g (u.thread l) i)).prot l.wg = false := by
    rw [State.addStore_of_wg there]
    exact (prot_of_bareWork kept l.wg).trans plain
  have valid' : (v.addStore l p (u.tframe l) (trapFrame g (u.thread l) i)).validIn u.focus.1 g h = true := by
    rw [State.addStore_of_wg there, ← valid, validTarget_of_group group]
    exact validIn_of_bareWork kept _ _ _
  unfold State.trapIn State.enterHandler
  rw [launch]
  dsimp only
  rw [stored, out, none, handler]
  dsimp only
  rw [if_neg (by decide), if_neg (by decide), if_pos valid', State.twins_of_plain plain']
  rfl

/-- A struck lane enters its handler (R30, R166). -/
theorem State.strikeAll_of_handled (group : u.group? = some g) (plain : u.prot l.wg = false) (hd : handled u u l v h p)
    (i : TrapInfo) : u.strikeAll [l] i = v.enterHandler l h (u.tframe l) p (trapFrame g (u.thread l) i) := by
  rw [← State.trapIn_of_handled group plain hd i]
  unfold State.strikeAll State.strike State.strikeIn
  rw [group]
  dsimp only
  rw [List.map_cons, List.map_nil, List.map_cons, List.map_nil, State.agree_of_plain plain]
  rfl

theorem State.strikePair_of_handled (group : u.group? = some g) (plain : u.prot l.wg = false) (hd : handled u u l v h p)
    (i : TrapInfo) : u.strikePair l i = v.enterHandler l h (u.tframe l) p (trapFrame g (u.thread l) i) := by
  unfold State.strikePair
  rw [State.twins_of_plain plain, State.strikeAll_of_handled group plain hd]

/-- The trap has been taken as R166 says. -/
theorem entered_of_handled (group : u.group? = some g) (alive : (u.thread l).life ≠ .absent) (hd : handled u u l v h p)
    (frame : List Byte) : entered u (v.enterHandler l h (u.tframe l) p frame) g l v h p frame := by
  have kept := bareWork_of_handled hd
  obtain ⟨w, there⟩ := wg_of_handled hd
  unfold State.enterHandler
  rw [State.addStore_of_wg there]
  refine ⟨⟨⟨v.serial, v.fresh, l, w.launch, w.core, p, u.tframe l, frame, .wg, none, none, false⟩, ?_, rfl, rfl, rfl, rfl⟩,
    ?_, leftStride_leave ?_ l, rfl, congrArg Work.loads kept⟩
  · exact congrArg (· ++ _) (congrArg Work.stores kept : v.stores = u.stores)
  · have cycle : v.cycle = u.cycle := cycle_of_bareWork kept
    have start : threadOnly u v l (u.thread l) := threadOnly_of_wgs (wgs_of_bareWork kept) l
    have sent := threadOnly_trans_wgs (u := { v with
      serial := v.serial + 1
      stores := v.stores ++ [⟨v.serial, v.fresh, l, w.launch, w.core, p, u.tframe l, frame, .wg, none, none, false⟩] })
      start rfl
    exact threadOnly_moveTo (threadOnly_setThread sent alive fun t => { t with inHandler := true, trapLfsr := t.lfsr }) alive
      cycle h
  · exact (group?_of_bareWork kept).trans group

theorem State.halt_enterHandler (hd : handled u u l v h p) (va : Nat) (frame : List Byte) :
    (v.enterHandler l h va p frame).halt = v.halt := by
  obtain ⟨w, there⟩ := wg_of_handled hd
  unfold State.enterHandler
  rw [State.addStore_of_wg there]
  rfl

theorem halt_of_handled (hd : handled u u l v h p) : v.halt = none := by
  obtain ⟨-, -, -, -, -, q, -, halt⟩ := hd
  exact halt

/-- A slot that ends with a trap of its lane. -/
theorem entered_next (group : u.group? = some g) (plain : u.prot l.wg = false) (alive : (u.thread l).life ≠ .absent)
    (hd : mayTrap u l v h p) (cause faddr : Nat) :
    ∃ t, conclude (({ u with fresh := u.fresh + 1 } : State).strikePair l (.of cause faddr)) = .next t ∧
      entered u t g l v h p (frameBytes g.pc cause g.slot 0#32 faddr (slotWord g) (u.thread l)) := by
  have hd' : handled { u with fresh := u.fresh + 1 } { u with fresh := u.fresh + 1 } l v h p := hd
  have group' : ({ u with fresh := u.fresh + 1 } : State).group? = some g := group
  have plain' : ({ u with fresh := u.fresh + 1 } : State).prot l.wg = false := plain
  have alive' : (({ u with fresh := u.fresh + 1 } : State).thread l).life ≠ .absent := alive
  refine ⟨_, (conclude_eq_next _ _).2 ⟨?_, rfl⟩, ?_⟩
  · rw [State.strikePair_of_handled group' plain' hd', State.halt_enterHandler hd', halt_of_handled hd']
  · rw [State.strikePair_of_handled group' plain' hd', trapFrame_of]
    exact entered_of_handled group' alive' hd' _

end

end Sys2Proof.Machine
end

