-- ==== Sys2Proof/Proofs/RegisterCalls.lean ====
section
/-! CALLX (R156, R158, R159). -/

namespace Sys2Proof.Machine

open Sys2Proof.Spec

/-- A target at a signed offset (R156). -/
theorem plusOfs_eq (b : Dword) (k : Word) : plusOfs b.toNat k = (b + offset k).toNat := by
  unfold plusOfs wrapInt offset
  rw [← BitVec.toNat_ofInt]
  refine congrArg BitVec.toNat ?_
  rw [BitVec.ofInt_add, BitVec.ofInt_natCast, BitVec.ofNat_toNat, BitVec.setWidth_eq]
  rfl

/-- The fall-through address of the group that issues (R47). -/
theorem ofNat_fall {s : State} {g : Group} (group : s.group? = some g) : BitVec.ofNat 64 g.fall = fallPc s := by
  unfold fallPc headerPc Group.fall
  rw [group]
  refine BitVec.eq_of_toNat_eq ?_
  simp only [Option.map_some, Option.getD_some, BitVec.toNat_add, BitVec.toNat_ofNat]
  omega

/-- A push on a stack with room (R160). -/
theorem State.push_of_room {s : State} {l : LaneRef} (plain : s.prot l.wg = false) (room : (s.thread l).stack.length < 4)
    (ret : Nat) :
    s.push l ret = (s.setThread l fun t => { t with stack := BitVec.ofNat 64 ret :: t.stack }, .done) := by
  unfold State.push
  dsimp only
  rw [if_pos room, State.twins_of_plain plain]
  rfl

/-- A call of an unprotected lane (R156, R158). -/
theorem State.callLane_of_room {s : State} {l : LaneRef} {pc : Nat} (plain : s.prot l.wg = false)
    (room : (s.thread l).stack.length < 4) (valid : s.validTarget pc = true) (ret : Nat) :
    s.callLane l pc ret =
      ((s.setThread l fun t => { t with stack := BitVec.ofNat 64 ret :: t.stack }).goTo l pc).leave l := by
  unfold State.callLane
  rw [State.push_of_room plain room]
  dsimp only
  unfold State.transfer
  rw [if_pos, State.moveTo_of_plain ((s.prot_setThread l _ l.wg).trans plain)]
  exact valid

/-- CALLX of one lane whose stack has room (R158). -/
theorem callx_next {gd : Guard} {a : Opnd} {k : Word} {s : State} {g : Group} {l : LaneRef}
    (h : One s g (.callx gd a k) gd l) (landed : (s.thread l).refill = false)
    (valid : s.validTarget (reads64 s a l + offset k).toNat = true) :
    exec (.callx gd a k) s = conclude (({ s with fresh := s.fresh + 1 } : State).callLane l
      (reads64 s a l + offset k).toNat g.fall) := by
  change execCallx gd a k s = _
  unfold execCallx
  rw [issue_of_one h]
  have group : ({ s with fresh := s.fresh + 1 } : State).group? = some g := h.group
  have plain : ({ s with fresh := s.fresh + 1 } : State).prot l.wg = false := h.plain
  have landed : ({ s with fresh := s.fresh + 1 } : State).refilling [l] = false := by
    unfold State.refilling
    rw [List.any_cons, List.any_nil, Bool.or_false]
    exact landed
  have valid : ({ s with fresh := s.fresh + 1 } : State).validTarget (reads64 s a l + offset k).toNat = true := valid
  have target : ({ s with fresh := s.fresh + 1 } : State).pairTarget a k l = (reads64 s a l + offset k).toNat := plusOfs_eq _ k
  generalize ({ s with fresh := s.fresh + 1 } : State) = u at *
  rw [group]
  dsimp only
  rw [if_neg (by rw [landed]; exact Bool.false_ne_true), List.map_cons, List.map_nil, State.agree_of_plain plain]
  simp only [target, List.map_cons, List.map_nil, List.foldl_nil, List.foldl_cons, List.filter_cons, List.filter_nil,
    beq_self_eq_true, if_true, valid, lt_irrefl, if_false]

/-- Settles O12: the stack has room, so the push needs no memory. -/
theorem callThroughRegister : Obligations.CallThroughRegister := by
  unfold Obligations.CallThroughRegister
  intro gd a k s g l h landed room valid
  have there := ne_absent_of_alive h.alive
  have run := callx_next h landed valid
  rw [State.callLane_of_room (s := { s with fresh := s.fresh + 1 }) h.plain room valid, ofNat_fall h.group] at run
  refine ⟨_, run.trans ((conclude_eq_next _ _).2 ⟨h.halt, rfl⟩), ?_, leftStride_leave ?_ l, rfl, rfl, rfl⟩
  · have pushed := threadOnly_setThread (threadOnly_of_wgs (s := s) (t := { s with fresh := s.fresh + 1 }) rfl l) there
      fun t => { t with stack := fallPc s :: t.stack }
    have moved := threadOnly_moveTo (c := s.cycle) pushed there rfl (reads64 s a l + offset k).toNat
    rw [BitVec.ofNat_toNat, BitVec.setWidth_eq] at moved
    exact moved
  · exact h.group

end Sys2Proof.Machine
end

