-- ==== Sys2Proof/Proofs/TrapReturns.lean ====
section
/-! TRET (R50, R106, R167, R168). -/

namespace Sys2Proof.Machine

open Sys2Proof.Spec

/-! A thread with no access on its way. -/

theorem mem_insertWay {x y : OnWay} {l : List OnWay} (h : x ∈ insertWay y l) : x = y ∨ x ∈ l := by
  induction l with
  | nil => exact .inl (List.mem_singleton.1 h)
  | cons z r ih =>
    unfold insertWay at h
    split at h
    · exact List.mem_cons.1 h
    · rcases List.mem_cons.1 h with rfl | h
      · exact .inr (List.mem_cons_self ..)
      · exact (ih h).imp_right (List.mem_cons_of_mem z)

theorem mem_foldr_insertWay {x : OnWay} {l : List OnWay} (h : x ∈ l.foldr insertWay []) : x ∈ l := by
  induction l with
  | nil => exact h
  | cons y r ih =>
    rcases mem_insertWay h with rfl | h
    · exact List.mem_cons_self ..
    · exact List.mem_cons_of_mem y (ih h)

theorem needed_eq_nil {y : Touch} {l : List OnWay} (h : ∀ x ∈ l, x.touch.before y = false) : needed l [y] = [] := by
  induction l with
  | nil => rfl
  | cons x r ih =>
    unfold needed
    rw [List.any_cons, List.any_nil, h x (List.mem_cons_self ..), if_neg (by decide)]
    exact ih fun z hz => h z (List.mem_cons_of_mem x hz)

/-- An access of another lane has no order with one of this lane (R208). -/
theorem before_eq_false_of_ne {m l : LaneRef} (ne : m ≠ l) (slots : List Nat) (p q : Place) (n k : Nat) :
    Touch.before ⟨.thread m slots, q, k⟩ ⟨.thread l [], p, n⟩ = false := by
  unfold Touch.before Origin.ordered
  dsimp only
  rw [beq_false_of_ne ne, Bool.false_or, List.any_eq_false.2 fun x _ => by rw [List.contains_nil]; exact Bool.false_ne_true,
    Bool.false_and]

/-- A quiet thread waits for none of its own accesses (R208). -/
theorem State.settle_of_quiet {s : State} {l : LaneRef} (h : quiet s l) (p : Place) (n before : Nat) :
    s.settle l p n before = s := by
  obtain ⟨loads, stores⟩ := h
  unfold State.settle State.older
  dsimp only
  rw [needed_eq_nil]
  · rfl
  intro x hx
  rcases List.mem_append.1 (mem_foldr_insertWay (List.mem_reverse.1 hx)) with hx | hx
  · obtain ⟨q, hq, rfl⟩ := List.mem_map.1 hx
    obtain ⟨there, away⟩ := List.mem_filter.1 hq
    refine before_eq_false_of_ne (fun e => ?_) _ _ _ _ _
    have served := loads q there e
    rw [Option.isSome_iff_ne_none, ne_eq, ← Option.isNone_iff_eq_none] at served
    exact served (Bool.and_eq_true_iff.1 away).1
  · obtain ⟨q, hq, rfl⟩ := List.mem_map.1 hx
    have ne := stores q (List.mem_filter.1 hq).1
    unfold OnWay.touch PendingStore.touch
    dsimp only
    cases q.cmd with
    | none => exact before_eq_false_of_ne ne _ _ _ _ _
    | some c => rfl

theorem State.reportChecks_of_sound {s : State} {pa n : Nat} (sound : s.badSectors pa n = []) : s.reportChecks pa n = s := by
  unfold State.reportChecks
  rw [List.filter_eq_nil_iff.2 fun sec touched => by
    rw [State.sectorMismatch_of_sound sound touched]
    exact Bool.false_ne_true]
  rfl

/-! The fields of a frame. -/

theorem leNat_append (a b : List Byte) : leNat (a ++ b) = leNat a + 256 ^ a.length * leNat b := by
  induction a with
  | nil => rw [List.nil_append, leNat, List.length_nil, pow_zero, Nat.zero_add, Nat.one_mul]
  | cons x r ih =>
    rw [List.cons_append, leNat, ih, leNat, List.length_cons, pow_succ']
    ring

theorem leNat_lt (a : List Byte) : leNat a < 256 ^ a.length := by
  induction a with
  | nil => exact Nat.one_pos
  | cons x r ih =>
    rw [leNat, List.length_cons, pow_succ']
    have := x.isLt
    omega

/-- A field of whole bytes. -/
theorem leNat_take_drop {f : List Byte} {i n : Nat} (fits : i + n ≤ f.length) :
    leNat ((f.drop i).take n) = leNat f / 256 ^ i % 256 ^ n := by
  have front : (f.take i).length = i := List.length_take_of_le (by omega)
  have field : ((f.drop i).take n).length = n := List.length_take_of_le (by rw [List.length_drop]; omega)
  have split : leNat f = leNat (f.take i) + 256 ^ i * (leNat ((f.drop i).take n) + 256 ^ n * leNat ((f.drop i).drop n)) := by
    calc leNat f = leNat (f.take i ++ ((f.drop i).take n ++ (f.drop i).drop n)) := by
          rw [List.take_append_drop, List.take_append_drop]
      _ = _ := by rw [leNat_append, leNat_append, front, field]
  have low : leNat (f.take i) < 256 ^ i := (leNat_lt _).trans_eq (by rw [front])
  have small : leNat ((f.drop i).take n) < 256 ^ n := (leNat_lt _).trans_eq (by rw [field])
  rw [split, Nat.add_mul_div_left _ _ (by positivity), Nat.div_eq_of_lt low, Nat.zero_add, Nat.add_mul_mod_self_left,
    Nat.mod_eq_of_lt small]

theorem bits_leNat {f : List Byte} {i n : Nat} (fits : i + n ≤ f.length) :
    bits (leNat f) (8 * i) (8 * n) = leNat ((f.drop i).take n) := by
  rw [leNat_take_drop fits, bits, pow_mul, pow_mul]
  norm_num

/-- A map whose first keys are set, each once. -/
theorem get_foldl_set_range {α : Type} [DecidableEq α] (d : α) (v : Nat → α) (n : Nat) :
    Map.wf d ((List.range n).foldl (fun m k => Map.set d m k (v k)) []) = true ∧
      ∀ j, j < n → Map.get d ((List.range n).foldl (fun m k => Map.set d m k (v k)) []) j = v j := by
  induction n with
  | zero => exact ⟨rfl, fun j lt => absurd lt (Nat.not_lt_zero j)⟩
  | succ n ih =>
    obtain ⟨wf, each⟩ := ih
    rw [List.range_succ, List.foldl_append, List.foldl_cons, List.foldl_nil]
    refine ⟨Map.wf_set _ _ _ _ wf, fun j lt => ?_⟩
    rcases Nat.lt_succ_iff_lt_or_eq.1 lt with lt | rfl
    · rw [Map.get_set_other _ _ _ _ _ lt.ne, each j lt]
    · exact Map.get_set_same _ _ _ _ wf

section
variable {f : List Byte} (len : f.length = 128)
include len

theorem bits_savedPc : bits (leNat f) 0 64 = savedPc f := bits_leNat (i := 0) (n := 8) (by omega)

theorem bits_savedSlot : bits (leNat f) 72 8 = savedSlot f := by
  have byte := bits_leNat (f := f) (i := 9) (n := 1) (by omega)
  refine byte.trans ?_
  unfold savedSlot
  have there : f.drop 9 = f.getD 9 0#8 :: f.drop 10 := by
    rw [List.drop_eq_getElem_cons (by omega), List.getD_eq_getElem _ _ (by omega)]
  rw [there, List.take_succ_cons, List.take_zero, leNat, leNat, Nat.mul_zero, Nat.add_zero]

/-- The temporaries of a frame (R167). -/
theorem get_frameTemps {j : Nat} (lt : j < 8) : Map.get 0#32 (frameTemps (leNat f)) j = savedTemp f j := by
  have field := bits_leNat (f := f) (i := 32 + 4 * j) (n := 4) (by omega)
  unfold frameTemps savedTemp
  rw [(get_foldl_set_range _ _ 8).2 j lt, ← field]
  exact congrArg (fun k => BitVec.ofNat 32 (bits (leNat f) k 32)) (by omega)

end

/-! Where the frame says. -/

/-- A thread that has returned from its handler: the stochastic register is that of the delivery (R106). -/
def Thread.returned (t : Thread) : Thread := { t with inHandler := false, lfsr := t.trapLfsr }

section
variable {s : State} {l : LaneRef} {pc : Nat} (plain : s.prot l.wg = false) (valid : s.validTarget pc = true)
include plain valid

/-- A return to a header (R168). -/
theorem State.resume_header (temps : Map Word) :
    s.resume l pc 0xFF temps = ((s.setThread l Thread.returned).goTo l pc).leave l := by
  have back : s.setThreads [l] (fun _ t => { t with inHandler := false, lfsr := t.trapLfsr }) = s.setThread l Thread.returned := rfl
  have valid' : (s.setThread l Thread.returned).validTarget pc = true := valid
  unfold State.resume
  rw [State.twins_of_plain plain, back]
  dsimp only
  rw [valid', if_neg (by decide), if_pos rfl, State.moveTo_of_plain ((s.prot_setThread l _ l.wg).trans plain)]

/-- A return to a slot or behind it (R168). -/
theorem State.resume_slot {t : State} {g : Group} {k : KSlot} {slot header : Nat} {b : List Nat} (ne : slot ≠ 0xFF)
    (group : s.group? = some g) (code : s.kslot? s.focus.1 g.kslot = some k)
    (fetch : (s.setThread l Thread.returned).fetchWord l k pc = (t, .ok header b)) (temps : Map Word) :
    s.resume l pc slot temps =
      if (if bit header 51 then 4 * headerWords header else headerWords header) ≤ slot then
        t.transfer l (pc + 8 * (headerWords header + 1))
      else (t.moveTo l pc).setThreads (t.twins l) fun _ t => { t with temps := temps, slot := some slot } := by
  have back : s.setThreads [l] (fun _ t => { t with inHandler := false, lfsr := t.trapLfsr }) = s.setThread l Thread.returned := rfl
  have valid' : (s.setThread l Thread.returned).validTarget pc = true := valid
  have group' : (s.setThread l Thread.returned).group? = some g := group
  have code' : (s.setThread l Thread.returned).kslot? (s.setThread l Thread.returned).focus.1 g.kslot = some k := code
  unfold State.resume
  rw [State.twins_of_plain plain, back]
  dsimp only
  rw [valid', if_neg (by decide), if_neg ne, group']
  dsimp only
  rw [code']
  dsimp only
  rw [fetch]

end

section
variable {s v : State} {g : Group} {gd : Guard} {l : LaneRef} {p : Place} {q : Nat}

/-- TRET of one lane (R168). -/
theorem tret_next (h : One s g (.tret gd) gd l) :
    exec (.tret gd) s = conclude (({ s with fresh := s.fresh + 1 } : State).tretLane l) := by
  change execTret gd s = _
  unfold execTret
  rw [issue_of_one h, List.map_cons, List.map_nil, State.agree_of_plain (s := { s with fresh := s.fresh + 1 }) h.plain]
  rfl

/-- The return of a lane whose frame reads without errors (R168). -/
theorem State.tretLane_of_sound (inside : (s.thread l).inHandler = true)
    (access : s.coreAccess l .read (s.tframe l) = (v, .ok p q)) (still : quiet v l) (sound : v.badSectors p.addr 128 = []) :
    s.tretLane l = v.resume l (savedPc (Memory.readN v.mem p.addr 128)) (savedSlot (Memory.readN v.mem p.addr 128))
      (frameTemps (leNat (Memory.readN v.mem p.addr 128))) := by
  have len : (Memory.readN v.mem p.addr 128).length = 128 := Memory.length_readN ..
  unfold State.tretLane
  dsimp only
  rw [inside, access, if_neg (by decide)]
  dsimp only
  rw [State.settle_of_quiet still, State.reportChecks_of_sound sound, sound, if_neg (by decide)]
  unfold State.homeRead
  rw [bits_savedPc len, bits_savedSlot len]

/-- What reading the frame leaves (R168). -/
theorem work_of_frame (access : ({ s with fresh := s.fresh + 1 } : State).coreAccess l .read (s.tframe l) = (v, .ok p q)) :
    v.work = s.work := by
  have kept := ({ s with fresh := s.fresh + 1 } : State).coreAccess_work l (kind := .read) rfl (s.tframe l)
  rw [access] at kept
  exact kept

theorem quiet_of_work (h : v.work = s.work) (still : quiet s l) : quiet v l := by
  unfold quiet
  rw [show v.loads = s.loads from congrArg Work.loads h, show v.stores = s.stores from congrArg Work.stores h]
  exact still

theorem validTarget_of_work (h : v.work = s.work) (pc : Nat) : v.validTarget pc = s.validTarget pc := by
  unfold State.validTarget
  rw [group?_of_bareWork (bareWork_of_work h), show v.focus = s.focus from congrArg Work.focus h]
  cases s.group? with
  | none => rfl
  | some g => exact validIn_of_bareWork (bareWork_of_work h) _ _ _

/-- A return is a return of the state after the frame has been read. -/
theorem tret_of_frame (h : One s g (.tret gd) gd l) (inside : (s.thread l).inHandler = true) (still : quiet s l)
    (access : ({ s with fresh := s.fresh + 1 } : State).coreAccess l .read (s.tframe l) = (v, .ok p q))
    (sound : v.badSectors p.addr 128 = []) :
    exec (.tret gd) s = conclude (v.resume l (savedPc (Memory.readN v.mem p.addr 128)) (savedSlot (Memory.readN v.mem p.addr 128))
      (frameTemps (leNat (Memory.readN v.mem p.addr 128)))) := by
  rw [tret_next h]
  exact congrArg conclude (State.tretLane_of_sound (s := { s with fresh := s.fresh + 1 }) inside access
    (quiet_of_work (work_of_frame access) still) sound)

/-- The thread of a lane that returns. -/
theorem threadOnly_returned {t : State} (alive : (s.thread l).life ≠ .absent) (wgs : v.wgs = s.wgs)
    (later : t.wgs = (v.setThread l Thread.returned).wgs) : threadOnly s t l (s.thread l).returned :=
  threadOnly_trans_wgs (threadOnly_setThread (threadOnly_of_wgs wgs l) alive Thread.returned) later

end

section
variable {s v : State} {g : Group} {gd : Guard} {l : LaneRef} {p : Place} {q : Nat} {f : List Byte}
  (h : One s g (.tret gd) gd l) (inside : (s.thread l).inHandler = true) (still : quiet s l)
  (access : ({ s with fresh := s.fresh + 1 } : State).coreAccess l .read (s.tframe l) = (v, .ok p q))
  (sound : v.badSectors p.addr 128 = []) (frame : f = Memory.readN v.mem p.addr 128)
  (valid : s.validTarget (savedPc f) = true)
include h inside still access sound frame valid

/-- TRET to a header (R168). -/
theorem tret_header_next (halt : v.halt = none) (slot : savedSlot f = 0xFF) :
    ∃ t, exec (.tret gd) s = .next t ∧ t.mem = v.mem ∧ t.loads = s.loads ∧ t.stores = s.stores ∧
      threadOnly s t l { (s.thread l).returned with pc := BitVec.ofNat 64 (savedPc f), slot := none, age := s.cycle } ∧
      leftStride t g l := by
  have kept := work_of_frame access
  have bare := bareWork_of_work kept
  have there := ne_absent_of_alive h.alive
  have cycle : v.cycle = s.cycle := cycle_of_bareWork bare
  have run := tret_of_frame h inside still access sound
  rw [← frame, slot, State.resume_header ((prot_of_bareWork bare _).trans h.plain)
    ((validTarget_of_work kept _).trans valid)] at run
  refine ⟨_, run.trans ((conclude_eq_next _ _).2 ⟨halt, rfl⟩), rfl, congrArg Work.loads kept, congrArg Work.stores kept,
    threadOnly_moveTo (threadOnly_returned there (congrArg Work.wgs kept) rfl) there cycle _,
    leftStride_leave ((group?_of_bareWork bare).trans h.group) l⟩

/-- TRET into a stride or behind it (R168). -/
theorem tret_slot {t : State} {k : KSlot} {header : Nat} {b : List Nat} (ne : savedSlot f ≠ 0xFF)
    (code : s.kslot? s.focus.1 g.kslot = some k)
    (fetch : (v.setThread l Thread.returned).fetchWord l k (savedPc f) = (t, .ok header b)) :
    exec (.tret gd) s = conclude
      (if (if bit header 51 then 4 else 1) * (bits header 52 4 + 1) ≤ savedSlot f then
        t.transfer l (savedPc f + 8 * (bits header 52 4 + 2))
      else (t.moveTo l (savedPc f)).setThreads (t.twins l) fun _ t => { t with
        temps := frameTemps (leNat f), slot := some (savedSlot f) }) := by
  have kept := work_of_frame access
  have bare := bareWork_of_work kept
  have words : (if bit header 51 then 4 * headerWords header else headerWords header) =
      (if bit header 51 then 4 else 1) * (bits header 52 4 + 1) := by
    unfold headerWords
    split
    · rfl
    · exact (Nat.one_mul _).symm
  have code' : v.kslot? v.focus.1 g.kslot = some k := by
    rw [← code]
    unfold State.kslot? State.core
    rw [show v.cores = s.cores from congrArg Work.cores kept, show v.focus = s.focus from congrArg Work.focus kept]
  rw [tret_of_frame h inside still access sound, ← frame, State.resume_slot ((prot_of_bareWork bare _).trans h.plain)
    ((validTarget_of_work kept _).trans valid) ne ((group?_of_bareWork bare).trans h.group) code' fetch, words]
  rfl

omit inside still sound frame valid in
/-- What the fetch of a header leaves (R45). -/
theorem fetched {t : State} {k : KSlot} {header : Nat} {b : List Nat}
    (fetch : (v.setThread l Thread.returned).fetchWord l k (savedPc f) = (t, .ok header b)) :
    t.prot l.wg = false ∧ t.group? = some g ∧ t.cycle = s.cycle ∧ (∀ pc, t.validTarget pc = s.validTarget pc) ∧
      threadOnly s t l (s.thread l).returned := by
  have kept := work_of_frame access
  have bare := bareWork_of_work kept
  have fetched := State.fetchWord_work fetch
  have later := bareWork_of_work fetched
  refine ⟨?_, ?_, ?_, fun pc => ?_, threadOnly_returned (ne_absent_of_alive h.alive) (congrArg Work.wgs kept)
    (congrArg Work.wgs fetched)⟩
  · rw [prot_of_bareWork later, State.prot_setThread, prot_of_bareWork bare, h.plain]
  · exact (group?_of_bareWork later).trans ((group?_of_bareWork bare).trans h.group)
  · exact (cycle_of_bareWork later).trans (show v.cycle = s.cycle from cycle_of_bareWork bare)
  · exact (validTarget_of_work fetched pc).trans (validTarget_of_work kept pc)

/-- TRET into a stride (R50, R168). -/
theorem tret_into_next {t : State} {k : KSlot} {header : Nat} {b : List Nat}
    (code : s.kslot? s.focus.1 g.kslot = some k)
    (fetch : (v.setThread l Thread.returned).fetchWord l k (savedPc f) = (t, .ok header b)) (halt : t.halt = none)
    (inner : savedSlot f < (if bit header 51 then 4 else 1) * (bits header 52 4 + 1)) :
    ∃ u, exec (.tret gd) s = .next u ∧ u.mem = t.mem ∧ leftStride u g l ∧
      threadOnly s u l { (s.thread l).returned with
        pc := BitVec.ofNat 64 (savedPc f), age := s.cycle, temps := frameTemps (leNat f), slot := some (savedSlot f) } := by
  obtain ⟨plain, group, cycle, -, thread⟩ := fetched h access fetch
  have ne : savedSlot f ≠ 0xFF := by
    have bound : bits header 52 4 < 16 := Nat.mod_lt _ (by decide)
    split at inner <;> omega
  have run := tret_slot h inside still access sound frame valid ne code fetch
  rw [if_neg (Nat.not_le.2 inner), State.moveTo_of_plain plain, State.twins_of_plain plain] at run
  have there := ne_absent_of_alive h.alive
  exact ⟨_, run.trans ((conclude_eq_next _ _).2 ⟨halt, rfl⟩), rfl, leftStride_leave group l,
    threadOnly_setThread (threadOnly_moveTo thread there cycle _) there fun t => { t with
      temps := frameTemps (leNat f), slot := some (savedSlot f) }⟩

/-- TRET behind a stride (R168). -/
theorem tret_behind_next {t : State} {k : KSlot} {header : Nat} {b : List Nat} (ne : savedSlot f ≠ 0xFF)
    (code : s.kslot? s.focus.1 g.kslot = some k)
    (fetch : (v.setThread l Thread.returned).fetchWord l k (savedPc f) = (t, .ok header b)) (halt : t.halt = none)
    (beyond : (if bit header 51 then 4 else 1) * (bits header 52 4 + 1) ≤ savedSlot f)
    (next : s.validTarget (savedPc f + 8 * (bits header 52 4 + 2)) = true) :
    ∃ u, exec (.tret gd) s = .next u ∧ u.mem = t.mem ∧ leftStride u g l ∧
      threadOnly s u l { (s.thread l).returned with
        pc := BitVec.ofNat 64 (savedPc f + 8 * (bits header 52 4 + 2)), slot := none, age := s.cycle } := by
  obtain ⟨plain, group, cycle, target, thread⟩ := fetched h access fetch
  have run := tret_slot h inside still access sound frame valid ne code fetch
  unfold State.transfer at run
  rw [if_pos beyond, if_pos ((target _).trans next), State.moveTo_of_plain plain] at run
  exact ⟨_, run.trans ((conclude_eq_next _ _).2 ⟨halt, rfl⟩), rfl, leftStride_leave group l,
    threadOnly_moveTo thread (ne_absent_of_alive h.alive) cycle _⟩

end

/-- TRET outside a handler is an illegal instruction (R168). -/
theorem tret_outside_next {s v : State} {g : Group} {gd : Guard} {l : LaneRef} {h : Nat} {p : Place}
    (one : One s g (.tret gd) gd l) (hd : mayTrap s l v h p) :
    ∃ t, exec (.tret gd) s = .next t ∧
      entered s t g l v h p (frameBytes g.pc 1 g.slot 0#32 0 (slotWord g) (s.thread l)) := by
  have outside : (({ s with fresh := s.fresh + 1 } : State).thread l).inHandler = false := by
    obtain ⟨-, -, -, -, out, -⟩ := hd
    exact out
  have run := tret_next one
  unfold State.tretLane at run
  rw [outside] at run
  rw [run]
  exact entered_next one.group one.plain (ne_absent_of_alive one.alive) hd causeILLINS 0

/-- Settles O11: the frame is read back field by field, and the lane goes where its header and slot say. -/
theorem trapReturns : Obligations.TrapReturns := by
  unfold Obligations.TrapReturns
  refine ⟨fun gd s g l v p q one inside still access halt sound slot valid =>
    tret_header_next one inside still access sound rfl valid halt slot,
    fun gd s g l v t p q k header b one inside still access _ sound valid code fetch halt inner => ?_,
    fun gd s g l v t p q k header b f one inside still access _ sound frame ne valid code fetch halt beyond next => ?_,
    fun gd s g l v h p one hd => tret_outside_next one hd⟩
  · have len : (Memory.readN v.mem p.addr 128).length = 128 := Memory.length_readN ..
    obtain ⟨u, run, mem, left, -, own, others⟩ := tret_into_next one inside still access sound rfl valid code fetch halt inner
    refine ⟨u, run, mem, left, ?_, ?_, ?_, fun j lt => ?_, ?_, ?_, others⟩
    · rw [own]; rfl
    · rw [own]
    · rw [own]
    · rw [own]; exact get_frameTemps len lt
    · rw [own]; rfl
    · rw [own]; rfl
  · obtain ⟨u, run, mem, left, -, own, others⟩ :=
      tret_behind_next one inside still access sound frame valid ne code fetch halt beyond next
    exact ⟨u, run, mem, left, own, others⟩

end Sys2Proof.Machine
end

