-- ==== Sys2Proof/Proofs/EngineReads.lean ====
section
/-! SUPPORT. What the accesses of an engine command leave of the work of the cores (R245, R246, R287). -/

namespace Sys2Proof.Machine

/-! Steps in a row. -/

section
variable {α β : Type} {s : State}

theorem engThen_bareWork {r : State × Eng α} {f : State → α → State × Eng β} (first : r.1.bareWork = s.bareWork)
    (next : ∀ u a, (f u a).1.bareWork = u.bareWork) : (engThen r f).1.bareWork = s.bareWork := by
  obtain ⟨u, e⟩ := r
  cases e with
  | ok a => exact (next u a).trans first
  | _ => exact first

theorem engAll_bareWork {f : State → β → State × Eng α} (each : ∀ u x, (f u x).1.bareWork = u.bareWork) (l : List β)
    (s : State) : (engAll f s l).1.bareWork = s.bareWork := by
  induction l generalizing s with
  | nil => rfl
  | cons x r ih =>
    have step := each s x
    unfold engAll
    generalize f s x = first at step ⊢
    obtain ⟨u, e⟩ := first
    cases e with
    | ok a =>
      have rest := ih u
      dsimp only
      generalize engAll f u r = second at rest ⊢
      obtain ⟨v, e⟩ := second
      cases e <;> exact rest.trans step
    | _ => exact step

/-- A check that comes to a result has passed its parts. -/
theorem accThen_eq_ok {r : State × Acc α} {f : State → α → State × Acc β} {t : State} {b : β} :
    accThen r f = (t, .ok b) ↔ ∃ u a, r = (u, .ok a) ∧ f u a = (t, .ok b) := by
  obtain ⟨u, e⟩ := r
  cases e with
  | ok a => exact ⟨fun h => ⟨u, a, rfl, h⟩, fun ⟨_, _, e, h⟩ => by cases e; exact h⟩
  | _ => exact iff_of_false (fun h => absurd (congrArg Prod.snd h) nofun) fun ⟨_, _, e, _⟩ => absurd (congrArg Prod.snd e) nofun

end

/-! Accesses (R246, R293). -/

section
variable (s : State) (c : Cmd)

theorem State.engTranslate_bareWork (kind : AccKind) (va : Nat) : (s.engTranslate c kind va).1.bareWork = s.bareWork := by
  unfold State.engTranslate
  split
  · rfl
  next k _ =>
    have kept := translate_bareWork s k.ctx (.l1 c.core) (dieOf c.core) (some c.core) c.perm kind va
    generalize translate s k.ctx (.l1 c.core) (dieOf c.core) (some c.core) c.perm kind va = x at kept ⊢
    obtain ⟨u, e⟩ := x
    cases e <;> exact kept

theorem State.engPlaces_bareWork (kind : AccKind) (va len : Nat) : (s.engPlaces c kind va len).1.bareWork = s.bareWork := by
  refine engAll_bareWork (fun u x => ?_) _ s
  refine engThen_bareWork (u.engTranslate_bareWork c kind x.1) ?_
  exact fun _ _ => rfl

theorem State.dropLines_work (core pa len : Nat) : (s.dropLines core pa len).work = s.work := by
  refine work_foldl (fun u line => ?_) _ s
  rfl

theorem State.engPeek_bareWork (loft byBytes : Bool) (va len : Nat) :
    (s.engPeek c loft byBytes va len).1.bareWork = s.bareWork := by
  unfold State.engPeek
  split
  · rfl
  · refine engThen_bareWork (s.engPlaces_bareWork c .read va len) fun u ps => bareWork_of_work ?_
    refine work_foldl (fun u p => ?_) ps u
    exact (State.dropLines_work _ _ _ _).trans ((State.countLink_work _ _).trans (u.reportChecks_work p.2.1.addr p.2.2))

theorem State.engRead_bareWork (loft : Bool) (va len : Nat) : (s.engRead c loft va len).1.bareWork = s.bareWork :=
  engThen_bareWork (s.engPeek_bareWork c loft false va len) fun _ _ => rfl

theorem State.engAcquire_bareWork (va len : Nat) : (s.engAcquire c va len).1.bareWork = s.bareWork :=
  engThen_bareWork (s.engTranslate_bareWork c .read va) fun u _ =>
    engThen_bareWork (u.engRead_bareWork c false va len) fun _ _ => rfl

/-! Updates at a home (R191, R297, R308). -/

theorem State.noteRewrite_bareWork (pa len : Nat) : (s.noteRewrite pa len).bareWork = s.bareWork := by
  unfold State.noteRewrite
  dsimp only
  split
  · refine congrArg (fun launches => ({ s.work with launches := launches } : Work)) (List.map_map.trans (List.map_congr_left ?_))
    exact fun _ _ => rfl
  · rfl

theorem State.homeWrite_bareWork (w : Writer) (id pa : Nat) (data : List Byte) :
    (s.homeWrite w id pa data).bareWork = s.bareWork := by
  have sectors (t : State) (l : List (Nat × List Byte)) :
      (l.foldl (fun (s : State) c => s.writeSector w c.1 c.2) t).work = t.work :=
    work_foldl (f := fun (s : State) (c : Nat × List Byte) => s.writeSector w c.1 c.2) (fun s c => s.writeSector_work w c.1 c.2) l t
  have counted : ((checkPa s pa).countLink pa).bareWork = s.bareWork :=
    bareWork_of_work ((State.countLink_work _ _).trans (checkPa_work s pa))
  unfold State.homeWrite
  dsimp only
  refine (bareWork_of_work ((State.putLines_work _ _ _ _ _).trans (sectors _ _))).trans ?_
  split
  · exact (State.noteRewrite_bareWork _ _ _).trans counted
  · exact counted

theorem State.setDirtyBit_work (p : Place) : (s.setDirtyBit p).work = s.work := by
  unfold State.setDirtyBit
  split
  · rfl
  next a _ =>
    refine (apply_ite State.work _ _ _).trans ?_
    rw [show (s.pteOr a (2 ^ 11)).work = s.work from State.hwWrite_work _ _ _ _ _]
    exact ite_self _

theorem State.markDirty_work (ctx : CtxCopy) (va len : Nat) : (s.markDirty ctx va len).work = s.work := by
  unfold State.markDirty
  split
  · rfl
  refine work_foldl (fun u i => ?_) _ s
  dsimp only
  split
  · exact State.hwWrite_work _ _ _ _ _
  · rfl

/-- An update of a command at its home (R191). -/
theorem State.engStore_update_bareWork (bad : Bool) (va : Nat) (p : Place) (data : List Byte) :
    (s.engStore c true bad va p data).bareWork = s.bareWork := by
  unfold State.engStore
  rw [Bool.not_true, Bool.and_false, if_neg Bool.false_ne_true]
  dsimp only
  have written := (State.homeWrite_bareWork (s.take.2.setDirtyBit p) (c.writer true bad) s.take.1 p.addr data).trans
    (bareWork_of_work (s.take.2.setDirtyBit_work p))
  split
  · exact (bareWork_of_work (State.markDirty_work _ _ _ _)).trans written
  · exact written

theorem State.engUpdate_bareWork (va len : Nat) (f : Nat → Nat) : (s.engUpdate c va len f).1.bareWork = s.bareWork := by
  refine engThen_bareWork (s.engTranslate_bareWork c .rmw va) fun u p => ?_
  have reported : (u.reportChecks p.addr len).bareWork = u.bareWork := bareWork_of_work (u.reportChecks_work p.addr len)
  unfold State.engUpdateAt
  dsimp only
  split
  · exact reported
  · exact (State.engStore_update_bareWork _ _ _ _ _ _).trans reported

end

end Sys2Proof.Machine
end

