-- ==== Sys2Proof/Proofs/SentCommands.lean ====
section
/-! The acceptance of an engine command (R60, R198, R243 to R245, R350). -/

namespace Sys2Proof.Machine

open Sys2Proof.Spec

/-! What an acceptance captures (R245). -/

/-- A command without what its checks at acceptance capture. -/
def Cmd.captured (c : Cmd) : Cmd := { c with chain := [], pub := 0, desc := [], target := 0, held := false, set := 0 }

/-- An acceptance that changes nothing of the work of the cores, and of the command only what it captures. -/
def Captures (accept : State → Cmd → State × Acc Cmd) : Prop :=
  ∀ s c t d, accept s c = (t, .ok d) → t.bareWork = s.bareWork ∧ d.captured = c.captured

/-- Going on after an access. -/
theorem exists_of_acc {α β : Type} {r : State × Eng α} {f : State → α → State × Acc β} {t : State} {b : β}
    (h : accThen (r.1, r.2.acc) f = (t, .ok b)) : ∃ a, f r.1 a = (t, .ok b) := by
  obtain ⟨u, a, e, h⟩ := accThen_eq_ok.1 h
  obtain rfl := congrArg Prod.fst e
  exact ⟨a, h⟩

/-- A result has passed a check that would trap. -/
theorem untrapped {α : Type} {p : Prop} [Decidable p] {s t : State} {j : TrapInfo} {r : State × Acc α} {a : α}
    (h : (if p then (s, .trap j) else r) = (t, .ok a)) : r = (t, .ok a) := by
  by_cases hp : p
  · rw [if_pos hp] at h
    exact absurd (congrArg Prod.snd h) nofun
  · rwa [if_neg hp] at h

theorem Captures.of_pure {f : Cmd → Cmd} (h : ∀ c, (f c).captured = c.captured) : Captures fun s c => (s, .ok (f c)) := by
  intro s c t d e
  cases e
  exact ⟨rfl, h c⟩

theorem State.readChain_bareWork {s t : State} {c : Cmd} {fuel va : Nat} {child : Option TableHdr} {r : List TableHdr × Nat}
    (h : s.readChain c fuel va child = (t, .ok r)) : t.bareWork = s.bareWork := by
  induction fuel generalizing s t va child r with
  | zero => exact absurd (congrArg Prod.snd h) nofun
  | succ n ih =>
    unfold State.readChain at h
    obtain ⟨d, h⟩ := exists_of_acc (untrapped h)
    have read := s.engAcquire_bareWork c va 64
    have h := untrapped h
    split at h
    · obtain rfl := congrArg Prod.fst h
      exact read
    · obtain ⟨u, r', chain, e⟩ := accThen_eq_ok.1 h
      obtain rfl := congrArg Prod.fst e
      exact (ih chain).trans read

theorem acceptChain_captures : Captures acceptChain := by
  intro s c t d h
  obtain ⟨u, r, chain, e⟩ := accThen_eq_ok.1 h
  cases e
  exact ⟨State.readChain_bareWork chain, rfl⟩

theorem kvappAccept_captures : Captures kvappAccept := by
  intro s c t d h
  obtain ⟨u, c', chain, h⟩ := accThen_eq_ok.1 h
  obtain ⟨kept, same⟩ := acceptChain_captures s c u c' chain
  obtain ⟨x, h⟩ := exists_of_acc (untrapped h)
  have h := untrapped h
  dsimp only at h
  split at h
  · exact absurd (congrArg Prod.snd h) nofun
  · cases h
    exact ⟨(u.engRead_bareWork _ _ _ _).trans kept, same⟩

theorem kvforkAccept_captures : Captures kvforkAccept := by
  intro s c t d h
  obtain ⟨u, c', chain, h⟩ := accThen_eq_ok.1 h
  have h := untrapped (untrapped h)
  cases h
  exact acceptChain_captures s c _ _ chain

theorem kvcommitAccept_captures : Captures kvcommitAccept := by
  intro s c t d h
  obtain ⟨u, c', chain, h⟩ := accThen_eq_ok.1 h
  have h := untrapped h
  cases h
  exact acceptChain_captures s c _ _ chain

theorem attAccept_captures : Captures attAccept := by
  intro s c t d h
  obtain ⟨u, r, chain, h⟩ := accThen_eq_ok.1 h
  have h := untrapped h
  dsimp only at h
  split at h
  · exact absurd (congrArg Prod.snd h) nofun
  · cases h
    exact ⟨State.readChain_bareWork chain, rfl⟩

theorem copyAccept_captures : Captures copyAccept := by
  intro s c t d h
  obtain ⟨x, h⟩ := exists_of_acc h
  dsimp only at h
  split at h
  · exact absurd (congrArg Prod.snd h) nofun
  · cases h
    exact ⟨s.engRead_bareWork _ _ _ _, rfl⟩

theorem State.outside_bareWork {s t : State} {c : Cmd} {va : Nat} {b : Bool} (h : s.outside c va = (t, .ok b)) :
    t.bareWork = s.bareWork := by
  obtain ⟨p, h⟩ := exists_of_acc h
  cases h
  exact s.engTranslate_bareWork c .any va

theorem ringRead_captures : Captures ringRead := by
  intro s c t d h
  obtain ⟨x, h⟩ := exists_of_acc h
  have read := s.engRead_bareWork c false c.ringRecord 128
  obtain ⟨v, n, next, h⟩ := accThen_eq_ok.1 (untrapped h)
  obtain ⟨z, p, prev, h⟩ := accThen_eq_ok.1 h
  have h := untrapped h
  dsimp only at h
  split at h
  · exact absurd (congrArg Prod.snd h) nofun
  · cases h
    exact ⟨((State.outside_bareWork prev).trans (State.outside_bareWork next)).trans read, rfl⟩

theorem rngsndAccept_captures : Captures rngsndAccept := by
  intro s c t d h
  obtain ⟨u, c', record, h⟩ := accThen_eq_ok.1 h
  obtain ⟨kept, same⟩ := ringRead_captures s c u c' record
  dsimp only at h
  split at h
  all_goals
    obtain ⟨x, h⟩ := exists_of_acc h
    cases h
    exact ⟨(u.engUpdate_bareWork _ _ _ _).trans kept, same⟩

theorem rngrcvAccept_captures : Captures rngrcvAccept := by
  intro s c t d h
  obtain ⟨u, c', record, h⟩ := accThen_eq_ok.1 h
  obtain ⟨kept, same⟩ := ringRead_captures s c u c' record
  obtain ⟨x, h⟩ := exists_of_acc (untrapped h)
  cases h
  refine ⟨(engThen_bareWork (u.engAcquire_bareWork _ _ _) fun v a => ?_).trans kept, same⟩
  refine engThen_bareWork (v.engUpdate_bareWork _ _ _ _) ?_
  exact fun _ _ => rfl

/-- Every command's acceptance captures, and only that (R245). -/
theorem captures_of_engineOps {i : Instr} {op : EngineOp} {ok : Nat → Bool} (h : engineOps i = some (op, ok)) :
    Captures op.accept := by
  unfold engineOps at h
  split at h
  all_goals cases h
  · exact Captures.of_pure fun _ => rfl
  · exact Captures.of_pure fun _ => rfl
  · exact Captures.of_pure (f := fun c => { c with set := c.w 0 }) fun _ => rfl
  · exact attAccept_captures
  · exact Captures.of_pure (f := fun c => { c with set := bits (c.w 0) 0 3 }) fun _ => rfl
  · exact Captures.of_pure fun _ => rfl
  · exact acceptChain_captures
  · exact kvappAccept_captures
  · exact kvforkAccept_captures
  · exact kvcommitAccept_captures
  · exact Captures.of_pure fun _ => rfl
  · exact copyAccept_captures
  · exact copyAccept_captures
  · exact copyAccept_captures
  · exact copyAccept_captures
  · exact copyAccept_captures
  · exact rngsndAccept_captures
  · exact rngrcvAccept_captures

/-- A command goes to its engine with its checks (R244, R245). -/
theorem exec_of_engineOps {i : Instr} {op : EngineOp} {ok : Nat → Bool} (h : engineOps i = some (op, ok)) (s : State) :
    exec i s = engineSlot i (commandGuard i) ok op s := by
  unfold engineOps at h
  split at h
  all_goals cases h
  all_goals rfl

end Sys2Proof.Machine
end

