-- ==== Sys2Proof/Proofs/AcceptedCommands.lean ====
section
/-! The command of one rig takes its place (R60, R183, R244, R251, R350). -/

namespace Sys2Proof.Machine

open Sys2Proof.Spec

/-! Lanes in pairs (R349). -/

theorem mate_mate (l : LaneRef) : mate (mate l) = l := by
  obtain ⟨wg, rig, lane⟩ := l
  unfold mate
  by_cases even : lane % 2 = 0
  · have odd : ¬ (lane + 1) % 2 = 0 := by omega
    simp only [even, odd, if_true, if_false, Nat.add_sub_cancel]
  · have down : (lane - 1) % 2 = 0 := by omega
    have up : lane - 1 + 1 = lane := by omega
    simp only [even, down, if_true, if_false, up]

theorem mate_odd (l : LaneRef) : (mate l).lane % 2 = 1 ↔ ¬ l.lane % 2 = 1 := by
  unfold mate
  dsimp only
  split <;> omega

/-- Half of the lanes of whole pairs are primaries. -/
theorem length_primaries {ls : List LaneRef} (nodup : ls.Nodup) (pairs : ∀ l ∈ ls, mate l ∈ ls) :
    (ls.filter fun l => !decide (l.lane % 2 = 1)).length * 2 = ls.length := by
  have inj : Function.Injective mate := Function.LeftInverse.injective mate_mate
  have swap (p q : LaneRef → Bool) (h : ∀ l, p l = true → q (mate l) = true) :
      (ls.filter p).length ≤ (ls.filter q).length := by
    rw [← List.length_map (f := mate)]
    refine (List.subperm_of_subset ((nodup.filter p).map inj) fun m hm => ?_).length_le
    obtain ⟨l, hl, rfl⟩ := List.mem_map.1 hm
    obtain ⟨there, pl⟩ := List.mem_filter.1 hl
    exact List.mem_filter.2 ⟨pairs l there, h l pl⟩
  have up := swap (fun l => decide (l.lane % 2 = 1)) (fun l => !decide (l.lane % 2 = 1)) fun l h => by
    have odd := of_decide_eq_true h
    simp [(mate_odd l).not_left.2 odd]
  have down := swap (fun l => !decide (l.lane % 2 = 1)) (fun l => decide (l.lane % 2 = 1)) fun l h => by
    simp only [Bool.not_eq_true', decide_eq_false_iff_not] at h
    exact decide_eq_true ((mate_odd l).2 h)
  have parts := List.length_eq_length_filter_add (l := ls) fun l => decide (l.lane % 2 = 1)
  omega

/-- Lanes that agree in pairs send one command (R350). -/
theorem State.sameWords_of_pairs {s : State} {wg : Nat} {ls : List LaneRef} {f : LaneRef → List Word} (nodup : ls.Nodup)
    (one : ∀ l ∈ ls, l.wg = wg) (pairs : s.prot wg = true → ∀ l ∈ ls, mate l ∈ ls ∧ f (mate l) = f l) :
    s.sameWords ls f = (s, true) := by
  unfold State.sameWords
  by_cases prot : s.prot wg = true
  · have agreed := State.agree_of_pairs (s := s) (xs := ls.map fun l => (l, f l)) fun x hx _ => by
      obtain ⟨l, hl, rfl⟩ := List.mem_map.1 hx
      obtain ⟨there, same⟩ := pairs prot l hl
      refine ⟨(mate l, f (mate l)), ?_, same⟩
      rw [List.find?_map]
      have found : ls.find? (fun m => m == mate l) = some (mate l) := by
        cases e : ls.find? (fun m => m == mate l) with
        | none => exact absurd (List.find?_eq_none.1 e _ there) (by simp)
        | some m => rw [beq_iff_eq.1 (List.find?_some (p := fun m => m == mate l) e)]
      exact congrArg (Option.map _) found
    have count : ((ls.map fun l => (l, f l)).filter fun x => !(s.prot x.1.wg && decide (x.1.lane % 2 = 1))).length * 2 =
        ls.length := by
      rw [List.filter_map, List.length_map, ← length_primaries nodup fun l hl => (pairs prot l hl).1]
      refine congrArg (fun l => List.length l * 2) (List.filter_congr fun l hl => ?_)
      rw [Function.comp_apply, one l hl, prot, Bool.true_and]
    dsimp only
    rw [agreed]
    dsimp only
    rw [count, beq_self_eq_true]
    exact ite_self _
  · refine if_pos (List.all_eq_true.2 fun l hl => ?_)
    rw [one l hl, Bool.eq_false_iff.2 prot]
    rfl

/-! One rig. -/

theorem eraseDups_eq_singleton {α : Type} [BEq α] [LawfulBEq α] {a : α} {l : List α} (all : ∀ x ∈ l, x = a) (ne : l ≠ []) :
    l.eraseDups = [a] := by
  cases l with
  | nil => exact absurd rfl ne
  | cons x r =>
    obtain rfl := all x (List.mem_cons_self ..)
    rw [List.eraseDups_cons, List.filter_eq_nil_iff.2 fun y hy => by
      rw [all y (List.mem_cons_of_mem x hy), beq_self_eq_true]
      exact Bool.false_ne_true]
    rfl

/-- The lanes of one rig (R60). -/
theorem State.rigOrder_of_one {s : State} {g : Group} {l : LaneRef} {r : List LaneRef} (group : s.group? = some g)
    (there : l ∈ g.lanes) (one : ∀ m ∈ r, m.wg = l.wg ∧ m.rig = l.rig) : s.rigOrder (l :: r) = [l :: r] := by
  have same (m : LaneRef) (hm : m ∈ l :: r) : m.wg = l.wg ∧ m.rig = l.rig := by
    rcases List.mem_cons.1 hm with rfl | hm
    · exact ⟨rfl, rfl⟩
    · exact one m hm
  have rigs : ((g.lanes.filter (l :: r).contains).map fun l => (l.wg, l.rig)).eraseDups = [(l.wg, l.rig)] := by
    refine eraseDups_eq_singleton (fun x hx => ?_) ?_
    · obtain ⟨m, hm, rfl⟩ := List.mem_map.1 hx
      obtain ⟨wg, rig⟩ := same m (List.contains_iff_mem.1 (List.mem_filter.1 hm).2)
      rw [wg, rig]
    · exact List.ne_nil_of_mem
        (List.mem_map_of_mem (List.mem_filter.2 ⟨there, List.contains_iff_mem.2 (List.mem_cons_self ..)⟩))
  unfold State.rigOrder
  rw [group]
  dsimp only [Option.map_some, Option.getD_some]
  rw [rigs, List.map_cons, List.map_nil, List.filter_eq_self.2 fun m hm => ?_]
  obtain ⟨wg, rig⟩ := same m hm
  rw [wg, rig, beq_self_eq_true, beq_self_eq_true]
  rfl

/-- Marks of lanes whose part is done (R66). -/
theorem State.group?_serveAll {s : State} {g : Group} {ls : List LaneRef} (group : s.group? = some g)
    (there : ∀ l ∈ ls, l ∈ g.lanes) : (s.serveAll ls).group? = some { g with served := g.served ++ ls } := by
  induction ls generalizing s g with
  | nil => rw [List.append_nil]; exact group
  | cons l r ih =>
    have served : (s.serve l).group? = some { g with served := g.served ++ [l] } := by
      refine (State.group?_setGroup_of_some group _).trans (congrArg some ?_)
      exact if_pos (List.contains_iff_mem.2 (there l (List.mem_cons_self ..)))
    refine (ih served fun m hm => there m (List.mem_cons_of_mem l hm)).trans (congrArg some ?_)
    dsimp only
    rw [List.append_assoc, List.singleton_append]

/-- Marks of lanes change nothing but the group. -/
theorem State.serveAll_cores (s : State) (ls : List LaneRef) : ∃ cores, s.serveAll ls = { s with cores := cores } :=
  List.foldlRecOn (motive := fun t : State => ∃ cores, t = { s with cores := cores }) ls State.serve ⟨s.cores, rfl⟩
    fun t ⟨cores, e⟩ l _ => by
      subst e
      exact ⟨_, rfl⟩

/-! The words of a command (R243). -/

/-- A legal block is in general registers (R243). -/
theorem engineOpnd_of_block {i : Instr} (block : i.blockLen ≠ 0) {n m : Nat} (h : legal n m i = true) :
    ∃ r, i.engineOpnd = .g r := by
  have named {a : Opnd} {k len : Nat} (h : a.block n k len = true) : ∃ r, a = .g r := by
    cases a with
    | g r => exact ⟨r, rfl⟩
    | a _ | t _ | p _ | c _ | bad _ => cases h
  unfold Instr.blockLen at block
  split at block
  case h_12 => exact absurd rfl block
  case h_1 | h_2 | h_4 | h_7 | h_8 | h_9 | h_11 => exact named (Bool.and_eq_true_iff.1 h).1
  case h_6 => exact named (Bool.and_eq_true_iff.1 h).2
  case h_3 | h_5 | h_10 => exact named h

/-- A command with a format word has a block (R113). -/
theorem blockLen_of_hasFormat {i : Instr} (h : i.hasFormat = true) : i.blockLen ≠ 0 := by
  unfold Instr.hasFormat at h
  split at h
  case h_4 => cases h
  all_goals exact Nat.succ_ne_zero _

/-- General registers are read without marks (R218). -/
theorem reading_of_reg (s : State) (ls : List LaneRef) (r : BitVec 8) : reading s ls [.g r] = s := reading_nil s ls

/-- A leader's words, as its command takes them (R243). -/
theorem State.blockOf_readingNow (s : State) (ls : List LaneRef) {i : Instr} {n m : Nat} (h : legal n m i = true) (l : LaneRef) :
    (readingNow s ls [i.engineOpnd]).blockOf l i = commandWords (reading s ls [i.engineOpnd]) i l := by
  unfold State.blockOf commandWords
  by_cases block : i.blockLen ≠ 0
  · obtain ⟨r, e⟩ := engineOpnd_of_block block h
    dsimp only
    rw [if_pos block, if_pos block, e]
    rfl
  · dsimp only
    rw [if_neg block, if_neg block]
    rfl

/-- The format word of a lane (R113). -/
theorem State.formatOf_readingNow (s : State) (ls : List LaneRef) {i : Instr} (format : i.hasFormat = true) {n m : Nat}
    (h : legal n m i = true) (l : LaneRef) :
    (readingNow s ls [i.engineOpnd]).formatOf l i = regAt s i.engineOpnd 0 l := by
  obtain ⟨r, e⟩ := engineOpnd_of_block (blockLen_of_hasFormat format) h
  unfold State.formatOf
  rw [e, readingNow, reading_of_reg]
  rfl

/-! One rig at the port of its bay. -/

/-- The other lane of an even lane's pair (R349). -/
theorem State.twins_of_even {s : State} {l : LaneRef} (prot : s.prot l.wg = true) (even : l.lane % 2 = 0) :
    s.twins l = [l, mate l] := by
  obtain ⟨wg, rig, lane⟩ := l
  have down : lane / 2 * 2 = lane := by
    dsimp only at even
    omega
  unfold State.twins mate
  rw [if_pos prot, down, if_pos even]

/-- A leader's pair agrees (R350). -/
theorem State.sameWords_leaderPair {s : State} {ls : List LaneRef} {l : LaneRef} {f : LaneRef → List Word} (nodup : ls.Nodup)
    (one : ∀ m ∈ ls, m.wg = l.wg)
    (pair : s.prot l.wg = true → l.lane % 2 = 0 ∧ (∀ m ∈ ls, mate m ∈ ls) ∧ f (mate l) = f l) :
    s.sameWords (s.leaderPair ls l) f = (s, true) := by
  refine State.sameWords_of_pairs (nodup.filter _) (fun m hm => one m (List.mem_filter.1 hm).1) fun prot m hm => ?_
  obtain ⟨even, pairs, same⟩ := pair prot
  obtain ⟨there, twin⟩ := List.mem_filter.1 hm
  have twins := State.twins_of_even prot even
  rw [List.contains_iff_mem, twins, List.mem_pair] at twin
  refine ⟨List.mem_filter.2 ⟨pairs m there, List.contains_iff_mem.2 ?_⟩, ?_⟩
  · rw [twins, List.mem_pair]
    exact twin.elim (fun e => .inr (congrArg mate e)) fun e => .inl ((congrArg mate e).trans (mate_mate l))
  · rcases twin with rfl | rfl
    · exact same
    · rw [mate_mate, same]

/-- Format words of one rig that agree and are admitted (R113). -/
theorem State.formatTraps_of_same {s : State} {i : Instr} {ok : Nat → Bool} {l : LaneRef} {r : List LaneRef}
    (admitted : ok (s.formatOf l i).toNat = true) (same : ∀ m ∈ r, s.formatOf m i = s.formatOf l i) :
    s.formatTraps i ok [l :: r] = [] := by
  have agree : (r.any fun m => s.formatOf m i != s.formatOf l i) = false :=
    List.any_eq_false.2 fun m hm => by rw [same m hm, bne_self_eq_false]; exact Bool.false_ne_true
  unfold State.formatTraps
  simp [agree, admitted]

/-- Format words of one rig whose pairs agree (R350). -/
theorem State.formatPairs_of_same {s : State} {i : Instr} {ls : List LaneRef}
    (same : s.sameWords ls (fun m => [s.formatOf m i]) = (s, true)) : s.formatPairs i [ls] = (s, [ls]) := by
  unfold State.formatPairs
  rw [List.foldl_cons, List.foldl_nil]
  dsimp only
  rw [same]
  rfl

/-- A rig that passes its checks has its command accepted (R244, R245). -/
theorem State.sendRig_of_checks {s s1 : State} {g : Group} {i : Instr} {e : Engine} {op : EngineOp} {l : LaneRef}
    {r : List LaneRef} {c : Cmd} (group : s.group? = some g) (going : g.stalled = false)
    (same : s.sameWords (s.leaderPair (l :: r) l) (fun m => s.blockOf m i) = (s, true))
    (check : op.check s (s.mkCmd i e l (l :: r)) = none) (bar : s.barTrap (s.mkCmd i e l (l :: r)) = none)
    (room : s.engineRoom s.focus.1 e = true) (tok : s.rigTokFull (s.mkCmd i e l (l :: r)) = false)
    (settled : s.settled l = true) (accept : op.accept s (s.mkCmd i e l (l :: r)) = (s1, .ok c)) :
    s.sendRig i e op (l :: r) = (op.after (s1.enter c) c).serveAll (l :: r) := by
  unfold State.sendRig
  simp only [group, Option.map_some, Option.getD_some, going, Bool.false_eq_true, if_false, same, Bool.not_true, check, bar,
    room, tok, settled, Bool.or_self, accept]

/-- What follows an acceptance changes nothing but for a slice of a collective and a send that needs no more (R270, R274). -/
theorem after_of_engineOps {i : Instr} {op : EngineOp} {ok : Nat → Bool} (h : engineOps i = some (op, ok))
    (slice : ∀ gd k a, i ≠ .cpyc gd k a) (c : Cmd) (send : ∀ gd p k a, i = .rngsnd gd p k a → c.target = 0) (s : State) :
    op.after s c = s := by
  unfold engineOps at h
  split at h
  case h_16 gd k a => exact absurd rfl (slice gd k a)
  case h_17 gd p k a =>
    cases h
    refine if_neg fun e => ?_
    rw [send gd p k a rfl] at e
    cases e
  all_goals cases h
  all_goals rfl

/-! What the checks of a rig see as it reads its operands. -/

section
variable {s : State} {g : Group} {i : Instr} {e : Engine} {op : EngineOp} {ok : Nat → Bool} {l : LaneRef} {r : List LaneRef}
  {w : Workgroup} {s1 : State} {c : Cmd}

theorem atCommand_eq_readingNow (s : State) (i : Instr) (ls : List LaneRef) :
    atCommand s i ls = readingNow s ls [i.engineOpnd] := State.taint_eq_readingNow s ls [i.engineOpnd]

theorem runs_of_sends (h : Sends s g i e op ok l r w s1 c) {m : LaneRef} (hm : m ∈ l :: r) :
    runs s g (commandGuard i) m = true := mem_running.1 (h.only ▸ hm)

theorem lanes_of_sends (h : Sends s g i e op ok l r w s1 c) {m : LaneRef} (hm : m ∈ l :: r) : m ∈ g.lanes :=
  mem_lanes_of_runs (runs_of_sends h hm)

theorem legal_of_sends (h : Sends s g i e op ok l r w s1 c) : ∃ n m, legal n m i = true :=
  ⟨_, _, legal_of_runs h.toReady (runs_of_sends h (List.mem_cons_self ..))⟩

theorem nodup_of_sends (h : Sends s g i e op ok l r w s1 c) : (l :: r).Nodup := h.only ▸ running_nodup s g (commandGuard i)

theorem rig_of_sends (h : Sends s g i e op ok l r w s1 c) {m : LaneRef} (hm : m ∈ l :: r) : m.wg = l.wg := by
  rcases List.mem_cons.1 hm with rfl | hm
  · rfl
  · exact (h.rig m hm).1

/-- Reading operands leaves the places of an engine (R244). -/
theorem State.engineRoom_readingNow (s : State) (ls : List LaneRef) (ops : List Opnd) (core : Nat) (e : Engine) :
    (readingNow s ls ops).engineRoom core e = s.engineRoom core e := by
  have same (d : Cmd) : touched s ls ops d = { d with tainted := (touched s ls ops d).tainted } := by
    unfold touched
    split <;> rfl
  have kept : ((fun d : Cmd => d.core == core && d.engine == e && !d.stopped) ∘ touched s ls ops) =
      fun d => d.core == core && d.engine == e && !d.stopped := funext fun d => by rw [Function.comp_apply, same]
  unfold State.engineRoom
  rw [show (readingNow s ls ops).cmds = s.cmds.map (touched s ls ops) from rfl, List.filter_map, List.length_map, kept]

/-- A rig's token is below its limit (R183). -/
theorem rigTokFull_of_sends (h : Sends s g i e op ok l r w s1 c) :
    (readingNow s (l :: r) [i.engineOpnd]).rigTokFull
      ((readingNow s (l :: r) [i.engineOpnd]).mkCmd i e l (l :: r)) = false := by
  unfold State.rigTokFull
  cases k : i.completion with
  | bar o => simp only [State.mkCmd, k]
  | tok k' =>
    simp only [State.mkCmd, k]
    refine List.any_eq_false.2 fun m hm => ?_
    obtain ⟨lane, alive⟩ := List.mem_filter.1 hm
    obtain ⟨n, hn, rfl⟩ := List.mem_map.1 lane
    obtain ⟨rows, thread⟩ := thread_reading s (l :: r) [i.engineOpnd] ⟨l.wg, l.rig, n⟩
    have below := h.token k' k n (List.mem_range.1 hn) (by
      rw [thread_readingNow, thread] at alive
      exact alive)
    have view : (readingNow s (l :: r) [i.engineOpnd]).tokView ⟨l.wg, l.rig, n⟩ k'.toNat = tokenOf s ⟨l.wg, l.rig, n⟩ k'.toNat :=
      (tokenOf_reading s (l :: r) [i.engineOpnd] _ _).symm
    rw [view, decide_eq_true_eq]
    omega

/-- The workgroup of a rig that reads its operands. -/
theorem wg_of_sends (h : Sends s g i e op ok l r w s1 c) :
    ∃ rigs, (readingNow s (l :: r) [i.engineOpnd]).wg? l.wg = some { w with rigs := rigs } := by
  have wg := wg?_reading s (l :: r) [i.engineOpnd] l.wg
  rw [h.wg] at wg
  exact ⟨_, wg⟩

/-- A command's barrier slot is live (R245, check 7). -/
theorem barTrap_of_sends (h : Sends s g i e op ok l r w s1 c) :
    (readingNow s (l :: r) [i.engineOpnd]).barTrap ((readingNow s (l :: r) [i.engineOpnd]).mkCmd i e l (l :: r)) = none := by
  obtain ⟨rigs, wg⟩ := wg_of_sends h
  have id : w.id = l.wg := State.wg?_id h.wg
  unfold State.barTrap
  cases k : i.completion with
  | tok k' => simp only [State.mkCmd, k]
  | bar o =>
    obtain ⟨aligned, inside, live⟩ := h.bar o k
    have at' : ((readingNow s (l :: r) [i.engineOpnd]).env l).src ((readingNow s (l :: r) [i.engineOpnd]).thread l) o =
      reads (reading s (l :: r) [i.engineOpnd]) o l := rfl
    have limits : (readingNow s (l :: r) [i.engineOpnd]).limits l.wg = s.limits l.wg := by
      unfold State.limits
      rw [show (readingNow s (l :: r) [i.engineOpnd]).launchOf? l.wg = s.launchOf? l.wg from launchOf?_reading ..]
    have live' : ({ w with rigs := rigs } : Workgroup).isLive (barAt s i o l r) = true := live
    simp only [State.mkCmd, k, wg, at', id, limits, firstTrap, misaligned]
    change (if (barAt s i o l r % 16 != 0) = true then _ else _) = _
    rw [aligned]
    change (if decide ((s.limits l.wg).2.2 < barAt s i o l r + 16) = true then _ else
      if (!({ w with rigs := rigs } : Workgroup).isLive (barAt s i o l r)) = true then _ else _) = _
    rw [live', decide_eq_false (by omega)]
    rfl

/-- A leader without accesses on their way (R208). -/
theorem State.settled_of_quiet {s : State} {l : LaneRef} (h : quiet s l) : s.settled l = true := by
  obtain ⟨loads, stores⟩ := h
  refine Bool.and_eq_true_iff.2 ⟨List.all_eq_true.2 fun q hq => bne_iff_ne.2 (stores q hq), List.all_eq_true.2 fun p hp => ?_⟩
  by_cases lane : p.lane = l
  · rw [loads p hp lane, Bool.or_true]
  · rw [bne_iff_ne.2 lane, Bool.true_or]

/-- A command that passes its checks takes its place, and the lanes of its rig are done with the slot (R60). -/
theorem exec_of_sends (h : Sends s g i e op ok l r w s1 c) (slice : ∀ gd k a, i ≠ .cpyc gd k a)
    (send : ∀ gd p k a, i = .rngsnd gd p k a → c.target = 0) :
    exec i s = .next ((s1.enter c).serveAll (l :: r)) := by
  obtain ⟨n, m, legal⟩ := legal_of_sends h
  have nodup := nodup_of_sends h
  have group : (readingNow s (l :: r) [i.engineOpnd]).group? = some g := h.group
  have prot : (readingNow s (l :: r) [i.engineOpnd]).prot l.wg = s.prot l.wg := prot_reading ..
  have block := State.blockOf_readingNow s (l :: r) legal
  have check := h.check
  have accept := h.accept
  rw [atCommand_eq_readingNow] at check accept
  have order := State.rigOrder_of_one group (lanes_of_sends h (List.mem_cons_self ..)) h.rig
  have sent := State.sendRig_of_checks (e := e) (op := op) group h.going
    (State.sameWords_leaderPair nodup (fun m hm => rig_of_sends h hm) fun p => by
      obtain ⟨even, pairs, same⟩ := h.pair (prot ▸ p)
      refine ⟨even, pairs, ?_⟩
      rw [block, block]
      exact same)
    check (barTrap_of_sends h)
    ((State.engineRoom_readingNow ..).trans (decide_eq_true h.room)) (rigTokFull_of_sends h)
    (State.settled_of_quiet (s := readingNow s (l :: r) [i.engineOpnd]) h.quiet) accept
  rw [after_of_engineOps h.ops slice c send] at sent
  rw [exec_of_engineOps h.ops, engineSlot, issue_of_ready h.toReady, h.only]
  dsimp only
  rw [State.taint_eq_readingNow, h.engine]
  dsimp only
  rw [order]
  have halt : ((s1.enter c).serveAll (l :: r)).halt = none := by
    obtain ⟨cores, e⟩ := State.serveAll_cores (s1.enter c) (l :: r)
    rw [e]
    exact h.halt1
  refine (congrArg conclude (a₂ := (s1.enter c).serveAll (l :: r)) ?_).trans ((conclude_eq_next _ _).2 ⟨halt, rfl⟩)
  · cases format : i.hasFormat with
    | false => exact sent
    | true =>
      obtain ⟨admitted, alike⟩ := h.format format
      have word := State.formatOf_readingNow s (l :: r) format legal
      have pairs := State.formatPairs_of_same (i := i) (State.sameWords_of_pairs nodup
        (fun m hm => rig_of_sends h hm) fun p x hx => by
          obtain ⟨-, pairs, -⟩ := h.pair (prot ▸ p)
          refine ⟨pairs x hx, ?_⟩
          have alike (y : LaneRef) (hy : y ∈ l :: r) : regAt s i.engineOpnd 0 y = regAt s i.engineOpnd 0 l := by
            rcases List.mem_cons.1 hy with rfl | hy
            · rfl
            · exact alike y hy
          rw [word, word, alike x hx, alike _ (pairs x hx)])
      have traps := State.formatTraps_of_same (s := readingNow s (l :: r) [i.engineOpnd]) (i := i) (ok := ok) (l := l) (r := r)
        (by rw [word]; exact admitted) fun m hm => by rw [word, word, alike m hm]
      simp only [if_true, pairs, traps, List.isEmpty_nil, Bool.not_true, Bool.false_eq_true, if_false, List.foldl_cons,
        List.foldl_nil]
      exact sent

/-! The command in its engine, and what it leaves (R198, R244, R251). -/

/-- A command with the tag of its slot (R198). -/
def Cmd.tagged (c : Cmd) (s : State) : Cmd :=
  { c with bar := match c.bar, s.wg? c.lane.wg with
    | some (a, _), some w => some (a, slotTag (w.slotBits a))
    | _, _ => none }

/-- A rig with the command that it has sent (R244, R251). -/
def Rig.sent (q : Rig) (c : Cmd) : Rig :=
  let q := match c.tok with
    | some k => q.addTok k true
    | none => q
  if c.isMma then { q with rowprog := 0#32 } else q

/-- A command takes its place (R244). -/
theorem State.enter_eq (s : State) (c : Cmd) :
    s.enter c = { s with serial := s.serial + 1, cmds := s.cmds ++ [c.tagged s] }.setRig c.lane.wg c.lane.rig
      fun q => q.sent (c.tagged s) := rfl

theorem Rig.sent_threads (q : Rig) (c : Cmd) : (q.sent c).threads = q.threads := by
  unfold Rig.sent
  cases c.tok <;> cases c.isMma <;> rfl

theorem Rig.sent_tok (q : Rig) (c : Cmd) : (q.sent c).tok = match c.tok with
    | some k => Map.set 0 q.tok k (Map.get 0 q.tok k + 1)
    | none => q.tok := by
  unfold Rig.sent
  cases c.tok <;> cases c.isMma <;> rfl

theorem Rig.sent_rowprog (q : Rig) (c : Cmd) : (q.sent c).rowprog = if c.isMma then 0#32 else q.rowprog := by
  unfold Rig.sent
  cases c.tok <;> cases c.isMma <;> rfl

/-- What the acceptance keeps (R245). -/
theorem kept_of_sends (h : Sends s g i e op ok l r w s1 c) :
    s1.bareWork = (readingNow s (l :: r) [i.engineOpnd]).bareWork ∧
      c.captured = ((readingNow s (l :: r) [i.engineOpnd]).mkCmd i e l (l :: r)).captured := by
  have accept := h.accept
  rw [atCommand_eq_readingNow] at accept
  exact captures_of_engineOps h.ops _ _ _ _ accept

/-- The command that stands in its engine. -/
theorem accepted_of_sends (h : Sends s g i e op ok l r w s1 c) : Accepted s i e l r w (c.tagged s1) := by
  obtain ⟨work, same⟩ := kept_of_sends h
  obtain ⟨rigs, wg⟩ := wg_of_sends h
  obtain ⟨n, m, legal⟩ := legal_of_sends h
  have wg1 : s1.wg? l.wg = some { w with rigs := rigs } := by rw [wg?_of_wgs (wgs_of_bareWork work), wg]
  have lane : c.lane = l := congrArg Cmd.lane same
  refine ⟨congrArg Cmd.instr same, congrArg Cmd.engine same, lane, congrArg Cmd.lanes same, (congrArg Cmd.launch same).trans ?_,
    congrArg Cmd.core same, (congrArg Cmd.perm same).trans ?_,
    (congrArg Cmd.block same).trans (State.blockOf_readingNow s (l :: r) legal l), congrArg Cmd.tok same, ?_,
    congrArg Cmd.progress same,
    ⟨congrArg Cmd.early same, congrArg Cmd.ahead same, congrArg Cmd.adds same, congrArg Cmd.spread same⟩,
    congrArg Cmd.stopped same⟩
  · dsimp only [Cmd.captured, State.mkCmd]
    rw [wg]
    rfl
  · dsimp only [Cmd.captured, State.mkCmd]
    rw [wg]
    rfl
  · have bar : c.captured.bar = ((readingNow s (l :: r) [i.engineOpnd]).mkCmd i e l (l :: r)).captured.bar :=
      congrArg Cmd.bar same
    unfold Cmd.tagged
    dsimp only
    rw [lane, wg1, show c.bar = c.captured.bar from rfl, bar]
    dsimp only [Cmd.captured, State.mkCmd]
    cases i.completion <;> rfl

/-- A command of the matrix engine with a block of 16 words is an MMA (R251). -/
theorem isMma_of_accepted {d : Cmd} (h : Accepted s i e l r w d) : d.isMma = true ↔ e = .matrix ∧ i.blockLen = 16 := by
  unfold Cmd.isMma
  rw [h.instr, h.engine, Bool.and_eq_true, beq_iff_eq, beq_iff_eq]

theorem tok_of_accepted {d : Cmd} (h : Accepted s i e l r w d) (q : Rig) : (q.sent d).tok = rigTokenUp i q.tok := by
  rw [Rig.sent_tok, h.tok]
  unfold rigTokenUp
  cases i.completion <;> rfl

theorem rowprog_of_accepted {d : Cmd} (h : Accepted s i e l r w d) (q : Rig) :
    (q.sent d).rowprog = if e = .matrix ∧ i.blockLen = 16 then 0#32 else q.rowprog := by
  rw [Rig.sent_rowprog]
  exact if_congr (isMma_of_accepted h) rfl rfl

/-- A rig as its command takes its place (R244, R251). -/
theorem rig?_of_sends (h : Sends s g i e op ok l r w s1 c) {α : Type} (f : Rig → α)
    (keep : ∀ (q : Rig) windows threads, f (Rig.sent { q with windows := windows, threads := threads } (c.tagged s1)) =
      f (q.sent (c.tagged s1))) :
    (((s1.enter c).serveAll (l :: r)).rig? l.wg l.rig).map f =
      (s.rig? l.wg l.rig).map fun q => f (q.sent (c.tagged s1)) := by
  obtain ⟨work, same⟩ := kept_of_sends h
  obtain ⟨cores, served⟩ := State.serveAll_cores (s1.enter c) (l :: r)
  have lane : c.lane = l := congrArg Cmd.lane same
  have rig : ({ s1 with serial := s1.serial + 1, cmds := s1.cmds ++ [c.tagged s1] } : State).rig? l.wg l.rig =
      (reading s (l :: r) [i.engineOpnd]).rig? l.wg l.rig := by
    exact congrArg (Option.bind · fun w => w.rigs[l.rig]?) (wg?_of_wgs (wgs_of_bareWork work) l.wg)
  have entered : ((s1.enter c).serveAll (l :: r)).rig? l.wg l.rig = (s1.enter c).rig? l.wg l.rig := by rw [served]; rfl
  rw [entered, State.enter_eq, lane, State.rig?_setRig, if_pos ⟨rfl, rfl⟩, rig, Option.map_map]
  exact rig?_reading_map s (l :: r) [i.engineOpnd] (fun q => f (q.sent (c.tagged s1))) keep l.wg l.rig

/-- Threads as a command takes its place (R244). -/
theorem thread_of_sends (h : Sends s g i e op ok l r w s1 c) (m : LaneRef) :
    ((s1.enter c).serveAll (l :: r)).thread m = (atCommand s i (l :: r)).thread m := by
  obtain ⟨work, -⟩ := kept_of_sends h
  obtain ⟨cores, served⟩ := State.serveAll_cores (s1.enter c) (l :: r)
  rw [served, atCommand_eq_readingNow]
  exact (State.thread_setRig_of_threads _ c.lane.wg c.lane.rig (fun q => Rig.sent_threads q (c.tagged s1)) m).trans
    (State.thread_of_wgs (s := readingNow s (l :: r) [i.engineOpnd]) (wgs_of_bareWork work) m)

/-- The group as a command takes its place (R60, R66). -/
theorem group?_of_sends (h : Sends s g i e op ok l r w s1 c) :
    ((s1.enter c).serveAll (l :: r)).group? = some { g with served := g.served ++ l :: r } := by
  obtain ⟨work, -⟩ := kept_of_sends h
  refine State.group?_serveAll ?_ fun m hm => lanes_of_sends h hm
  exact (group?_of_bareWork work).trans h.group

end

/-- Settles O31: the acceptance of each command captures and changes no work, so that what the checks saw stands in the
engine. -/
theorem commandsAccepted : Obligations.CommandsAccepted := by
  intro i e op ok s g l r w s1 c h slice send
  obtain ⟨work, -⟩ := kept_of_sends h
  obtain ⟨cores, served⟩ := State.serveAll_cores (s1.enter c) (l :: r)
  have accepted := accepted_of_sends h
  refine ⟨_, c.tagged s1, exec_of_sends h slice send, ?_, accepted, thread_of_sends h, ?_, ?_, ?_, ?_, ?_, _,
    group?_of_sends h, rfl, rfl, h.going⟩
  · rw [served]
    rfl
  · rw [rig?_of_sends h Rig.tok fun q windows threads => by rw [tok_of_accepted accepted, tok_of_accepted accepted]]
    exact Option.map_congr fun q _ => tok_of_accepted accepted q
  · rw [rig?_of_sends h Rig.rowprog fun q windows threads => by
      rw [rowprog_of_accepted accepted, rowprog_of_accepted accepted]]
    exact Option.map_congr fun q _ => rowprog_of_accepted accepted q
  · rw [served]
    exact congrArg Work.loads work
  · rw [served]
    exact congrArg Work.stores work
  · rw [served]
    rfl

end Sys2Proof.Machine
end

