-- ==== Sys2Proof/Proofs/IllegalOperands.lean ====
section
/-! Check 6 of R70: a slot whose lane has illegal operands traps, and nothing of it is left to execute. -/

namespace Sys2Proof.Machine

open Sys2Proof.Spec

/-! A slot that has nothing left to do. -/

/-- At most the record of the slot in its group and the counters differ. -/
structure Idle (s t : State) : Prop where
  wgs : t.wgs = s.wgs
  stores : t.stores = s.stores
  loads : t.loads = s.loads
  mem : t.mem = s.mem
  cmds : t.cmds = s.cmds
  halt : t.halt = s.halt
  group : ∀ g, s.group? = some g → ∃ g', t.group? = some g' ∧ g'.lanes = g.lanes ∧ g'.pc = g.pc ∧ g'.slot = g.slot

theorem Idle.of_eq {s t : State} (h : t = s) : Idle s t := by
  subst h
  exact ⟨rfl, rfl, rfl, rfl, rfl, rfl, fun g group => ⟨g, group, rfl, rfl, rfl⟩⟩

theorem Idle.trans {s t u : State} (h : Idle s t) (h' : Idle t u) : Idle s u where
  wgs := h'.wgs.trans h.wgs
  stores := h'.stores.trans h.stores
  loads := h'.loads.trans h.loads
  mem := h'.mem.trans h.mem
  cmds := h'.cmds.trans h.cmds
  halt := h'.halt.trans h.halt
  group g group := by
    obtain ⟨g1, group1, lanes1, pc1, slot1⟩ := h.group g group
    obtain ⟨g2, group2, lanes2, pc2, slot2⟩ := h'.group g1 group1
    exact ⟨g2, group2, lanes2.trans lanes1, pc2.trans pc1, slot2.trans slot1⟩

theorem CountersOnly.idle {s t : State} (h : CountersOnly s t) : Idle s t := by
  obtain ⟨_, _, _, rfl⟩ := h
  exact ⟨rfl, rfl, rfl, rfl, rfl, rfl, fun g group => ⟨g, group, rfl, rfl, rfl⟩⟩

theorem Idle.setGroup (s : State) {f : Group → Group} (lanes : ∀ g, (f g).lanes = g.lanes) (pc : ∀ g, (f g).pc = g.pc)
    (slot : ∀ g, (f g).slot = g.slot) : Idle s (s.setGroup f) :=
  ⟨rfl, rfl, rfl, rfl, rfl, rfl, fun g group =>
    ⟨f g, State.group?_setGroup_of_some group f, lanes g, pc g, slot g⟩⟩

/-- The number of a slot (R182). -/
theorem Idle.numberSlot (s : State) : Idle s s.numberSlot := by
  refine Idle.setGroup s (fun g => ?_) (fun g => ?_) fun g => ?_
  all_goals split <;> rfl

/-- The misses of a slot (R330). -/
theorem Idle.countSlot (s : State) (start : Nat) : Idle s (s.countSlot start) := by
  unfold State.countSlot
  dsimp only
  exact (CountersOnly.foldl (f := fun s (k : Nat × Nat) => s.count k.1 0x10 1)
    (fun s _ => s.count_countersOnly _ _ _) _ _).idle.trans (Idle.setGroup _ (fun _ => rfl) (fun _ => rfl) fun _ => rfl)

/-- A trap that has been taken stays as the slot ends. -/
theorem entered_of_idle {s t u v : State} {g : Group} {l : LaneRef} {h : Nat} {p : Place} {frame : List Byte}
    (enter : entered s t g l v h p frame) (idle : Idle t u) : entered s u g l v h p frame := by
  obtain ⟨⟨q, stores, sent⟩, thread, ⟨g1, group, lanes, pc, slot⟩, mem, loads⟩ := enter
  obtain ⟨g2, group2, lanes2, pc2, slot2⟩ := idle.group g1 group
  exact ⟨⟨q, idle.stores.trans stores, sent⟩, threadOnly_trans_wgs thread idle.wgs,
    ⟨g2, group2, lanes2.trans lanes, pc2.trans pc, slot2.trans slot⟩, idle.mem.trans mem, idle.loads.trans loads⟩

/-! No lane executes. -/

/-- Lanes that are none touch no accumulators (R218). -/
theorem State.taint_nil (s : State) (ops : List Opnd) : s.taint [] ops = s := by
  have windows (q : Rig) (fresh set : Nat) : q.touch fresh set [] = q := by
    unfold Rig.touch
    simp only [List.any_nil, Bool.and_false, List.any_eq_true, Bool.false_eq_true, and_false, exists_false, if_false]
  unfold State.taint State.mapRigs
  simp only [List.any_nil, Bool.false_eq_true, if_false, List.map_id', lanesIn, List.filter_nil, List.map_nil, windows,
    mapIdx_self, ite_self]

/-- What an instruction does to lanes that are none. -/
def RunsIdle (i : Instr) (s : State) : Prop :=
  ∃ gd f, exec i s = issue i gd s f ∧ ∀ u, Idle u (f u [])

section
variable {i : Instr} {s : State} {gd : Guard}

theorem runsIdle_of_issue {f : State → List LaneRef → State} (run : exec i s = issue i gd s f) (idle : ∀ u, Idle u (f u [])) :
    RunsIdle i s := ⟨gd, f, run, idle⟩

theorem runsIdle_of_lanewise {ops : List Opnd} {f : Env → Thread → Thread} (run : exec i s = lanewise i gd ops s f) :
    RunsIdle i s := runsIdle_of_issue run fun u => .of_eq (u.taint_nil ops)

theorem runsIdle_of_crossLane {ops : List Opnd} {ra rb : Env → Thread → Nat} {f : List Part → Nat → Env → Thread → Thread}
    (run : exec i s = crossLane i gd ops s ra rb f) : RunsIdle i s :=
  runsIdle_of_issue run fun u => .of_eq (u.taint_nil ops)

theorem runsIdle_of_barrierSlot {a b c : Opnd} {f : State → LaneRef → Workgroup → Nat → Nat → Nat → State × Option TrapInfo}
    (run : exec i s = barrierSlot i gd a b c s f) : RunsIdle i s :=
  runsIdle_of_issue run fun u => .of_eq (u.taint_nil [a, b, c])

theorem runsIdle_of_postSlot (run : exec i s = postSlot i gd s) : RunsIdle i s := by
  refine runsIdle_of_issue run fun u => .of_eq ?_
  have none : u.agree ([].map fun l => (l, u.postPoint l i)) = (u, []) := rfl
  dsimp only
  rw [none]
  cases u.group? <;> rfl

theorem runsIdle_of_memSlot (run : exec i s = memSlot i gd s) : RunsIdle i s := by
  refine runsIdle_of_issue run fun u => ?_
  dsimp only
  cases memOp i with
  | none => exact .of_eq rfl
  | some m =>
    have ready : (u.numberSlot).relReady m [] = true := by
      unfold State.relReady
      cases m.waitScope <;> rfl
    dsimp only
    rw [State.taint_nil, ready]
    cases m.tok <;> exact (Idle.numberSlot u).trans (Idle.countSlot _ _)

theorem runsIdle_of_engineSlot {ok : Nat → Bool} {op : EngineOp} (run : exec i s = engineSlot i gd ok op s) : RunsIdle i s := by
  refine runsIdle_of_issue run fun u => .of_eq ?_
  have order : u.rigOrder [] = [] := by
    unfold State.rigOrder
    rw [List.filter_eq_nil_iff.2 fun l _ => by rw [List.contains_nil]; exact Bool.false_ne_true]
    rfl
  dsimp only
  rw [State.taint_nil]
  cases i.engine with
  | none => rfl
  | some e =>
    dsimp only
    rw [order]
    cases i.hasFormat <;> rfl

end

/-- Accesses of lanes (R180). -/
theorem exec_of_memOp {i : Instr} {m : MemOp} (h : memOp i = some m) (s : State) : exec i s = memSlot i (guardOf i) s := by
  unfold memOp at h
  split at h
  case h_18 => cases h
  all_goals rfl

/-- An instruction that can be illegal does nothing once no lane is left to execute it (R70). -/
theorem runsIdle_of_illegal {i : Instr} {n m : Nat} (illegal : legal n m i = false) {s : State} {g : Group}
    (group : s.group? = some g) (all : ∀ l ∈ g.lanes, s.legalFor l i = false) : RunsIdle i s := by
  cases i
  case iadd | isub | imul | imulh | imin | imax | andG | orG | xorG | andnG | iaddI | isubI | imulI | iminI | imaxI
    | shlI | shrI | sarI | rolI | rorI | andI | orI | xorI | andnI | iaddc | imad | idot4 | isat | bfx | bfi | lea
    | mov | movi | movh | sel | icmp | icmpI | pset | ffma | fmin | fmax | fcmp | fclass | frnd | fscale | hadd2
    | hmul2 | hfma2 | fdot2 | fdot4 | cvt | pack | unpack | idiv | irem | iabs | ineg | shl | shr | sar | rol | ror
    | notG | brev | popc | clz | ctz | fadd | fsub | fmul | exp2 | log2 | rcp | rsq | sqrt | sin | cos | tanh =>
    exact runsIdle_of_lanewise rfl
  case shfl gd mode d a b =>
    exact runsIdle_of_crossLane (show execShfl gd mode d a b s = _ from rfl)
  case vote gd mode d a =>
    exact runsIdle_of_crossLane (show execVote gd mode d a s = _ from rfl)
  case redx gd ty op d a =>
    exact runsIdle_of_crossLane (show execRedx gd ty op d a s = _ from rfl)
  case scanx gd ty op exc d a =>
    exact runsIdle_of_crossLane (show execScanx gd ty op exc d a s = _ from rfl)
  case bcst gd ty d a b =>
    exact runsIdle_of_crossLane (show execBcst gd ty d a b s = _ from rfl)
  case pmov gd x =>
    cases x
    all_goals exact runsIdle_of_lanewise rfl
  case cbdec gd d a b =>
    exact runsIdle_of_issue (show execCbdec gd d a b s = _ from rfl)
      fun u => .of_eq (u.taint_nil _)
  case tcnt gd tok d =>
    exact runsIdle_of_issue (show execTcnt gd tok d s = _ from rfl)
      fun u => .of_eq (u.taint_nil _)
  case movs gd d sr =>
    exact runsIdle_of_issue (show execMovs gd d sr s = _ from rfl)
      fun u => .of_eq (u.taint_nil _)
  case cvtx gd dt rnd d a b =>
    exact runsIdle_of_issue (show execCvtx gd dt rnd d a b s = _ from rfl)
      fun u => .of_eq (u.taint_nil _)
  case pref gd a b =>
    exact runsIdle_of_issue (show execPref gd a b s = _ from rfl)
      fun u => .of_eq (u.taint_nil _)
  case cancel gd lvl hard a =>
    exact runsIdle_of_issue (show execCancel gd lvl hard a s = _ from rfl)
      fun u => .of_eq (u.taint_nil _)
  case pkset gd a b =>
    exact runsIdle_of_issue (show execPkset gd a b s = _ from rfl)
      fun u => .of_eq (u.taint_nil _)
  case chwp gd d a =>
    exact runsIdle_of_issue (show execChwp gd d a s = _ from rfl)
      fun u => .of_eq (u.taint_nil _)
  case enql gd a b =>
    exact runsIdle_of_issue (show execEnql gd a b s = _ from rfl)
      fun u => .of_eq (u.taint_nil _)
  case evsig gd a b =>
    exact runsIdle_of_issue (show execEvsig gd a b s = _ from rfl)
      fun u => .of_eq (u.taint_nil _)
  case ctrd gd d a =>
    refine runsIdle_of_issue (show execCtrd gd d a s = _ from rfl) fun u => .of_eq ?_
    dsimp only [List.filter_nil]
    rw [State.strikeAll_nil, State.taint_nil]
    rfl
  case brx gd a ofs =>
    exact runsIdle_of_issue (show execBrx gd a ofs s = _ from rfl) fun _ => .of_eq rfl
  case ld gd ty tok d a b =>
    exact runsIdle_of_memSlot (show execLd gd ty tok d a b s = _ from rfl)
  case st gd ty d a b =>
    exact runsIdle_of_memSlot (show execSt gd ty d a b s = _ from rfl)
  case ldl gd ty tok d a b =>
    exact runsIdle_of_memSlot (show execLdl gd ty tok d a b s = _ from rfl)
  case stl gd ty d a b =>
    exact runsIdle_of_memSlot (show execStl gd ty d a b s = _ from rfl)
  case ldp gd ty tok d a b =>
    exact runsIdle_of_memSlot (show execLdp gd ty tok d a b s = _ from rfl)
  case lda gd ty sc ord tok sp d a b =>
    exact runsIdle_of_memSlot (show execLda gd ty sc ord tok sp d a b s = _ from rfl)
  case sta gd ty sc ord sp d a b =>
    exact runsIdle_of_memSlot (show execSta gd ty sc ord sp d a b s = _ from rfl)
  case atomAdd gd ty sc ord tok sp d a b =>
    exact runsIdle_of_memSlot (show execAtomAdd gd ty sc ord tok sp d a b s = _ from rfl)
  case atomMin gd ty sc ord tok sp d a b =>
    exact runsIdle_of_memSlot (show execAtomMin gd ty sc ord tok sp d a b s = _ from rfl)
  case atomMax gd ty sc ord tok sp d a b =>
    exact runsIdle_of_memSlot (show execAtomMax gd ty sc ord tok sp d a b s = _ from rfl)
  case atomAnd gd ty sc ord tok sp d a b =>
    exact runsIdle_of_memSlot (show execAtomAnd gd ty sc ord tok sp d a b s = _ from rfl)
  case atomOr gd ty sc ord tok sp d a b =>
    exact runsIdle_of_memSlot (show execAtomOr gd ty sc ord tok sp d a b s = _ from rfl)
  case atomXor gd ty sc ord tok sp d a b =>
    exact runsIdle_of_memSlot (show execAtomXor gd ty sc ord tok sp d a b s = _ from rfl)
  case atomExch gd ty sc ord tok sp d a b =>
    exact runsIdle_of_memSlot (show execAtomExch gd ty sc ord tok sp d a b s = _ from rfl)
  case atomFadd gd sc ord tok sp d a b =>
    exact runsIdle_of_memSlot (show execAtomFadd gd sc ord tok sp d a b s = _ from rfl)
  case cas gd ty sc ord tok sp d a b c =>
    exact runsIdle_of_memSlot (show execCas gd ty sc ord tok sp d a b c s = _ from rfl)
  case casw gd sc ord tok sp d a b c =>
    exact runsIdle_of_memSlot (show execCasw gd sc ord tok sp d a b c s = _ from rfl)
  case ainit gd a b =>
    exact runsIdle_of_postSlot (show execAinit gd a b s = _ from rfl)
  case apost gd op d a b =>
    exact runsIdle_of_postSlot (show execApost gd op d a b s = _ from rfl)
  case astep gd d a =>
    exact runsIdle_of_postSlot (show execAstep gd d a s = _ from rfl)
  case ares gd d =>
    exact runsIdle_of_postSlot (show execAres gd d s = _ from rfl)
  case binit gd a =>
    exact runsIdle_of_barrierSlot (show execBinit gd a s = _ from rfl)
  case bexp gd a b c =>
    exact runsIdle_of_barrierSlot (show execBexp gd a b c s = _ from rfl)
  case btest gd d a =>
    exact runsIdle_of_barrierSlot (show execBtest gd d a s = _ from rfl)
  case bfree gd a =>
    exact runsIdle_of_barrierSlot (show execBfree gd a s = _ from rfl)
  case mma | mma16 | mzero | att | attfin | latw | kvlook | kvapp | kvfork | kvcommit | topk | cpy | cpyt | cpyc
    | cpyg | cpys | rngsnd | rngrcv =>
    exact runsIdle_of_engineSlot (exec_of_engineOps rfl s)
  case barv gd a =>
    have none : g.lanes.filter (fun l => gd.holds (s.thread l) && s.legalFor l (.barv gd a)) = [] :=
      List.filter_eq_nil_iff.2 fun l hl => by rw [all l hl, Bool.and_false]; exact Bool.false_ne_true
    have runs : exec (.barv gd a) s = barrierSlot (.barv gd a) gd a (.c 0#6) (.c 0#6) s barvLane := by
      change execBarv gd a s = _
      unfold execBarv
      rw [group]
      dsimp only
      rw [none]
      rfl
    exact runsIdle_of_barrierSlot runs
  case movsw gd sr a =>
    refine runsIdle_of_issue (show execMovsw gd sr a s = _ from rfl) fun u => .of_eq ?_
    dsimp only
    rw [State.taint_nil]
    cases sr <;> rfl
  case callx gd a ofs =>
    refine runsIdle_of_issue (show execCallx gd a ofs s = _ from rfl) fun u => .of_eq ?_
    dsimp only
    cases u.group? <;> rfl
  case yield gd x =>
    refine runsIdle_of_issue (show execYield gd x s = _ from rfl) fun u => .of_eq ?_
    dsimp only
    cases u.group? <;> rfl
  all_goals cases illegal

/-! The trap (R70, R166). -/

theorem limits_eq_rcd (s : State) (i : Nat) : s.limits i =
    (((s.launchOf? i).map Launch.rcd).map fun r => (r.nreg, r.nacc, r.loftb)).getD (0, 0, 0) := by
  unfold State.limits
  cases s.launchOf? i <;> rfl

theorem legalFor_of_limits {s t : State} {l : LaneRef} (h : t.limits l.wg = s.limits l.wg) (i : Instr) :
    t.legalFor l i = s.legalFor l i := by
  unfold State.legalFor
  rw [h]

section
variable {u v : State} {g : Group} {l : LaneRef} {h : Nat} {p : Place}

/-- A lane in its handler keeps its launch's limits. -/
theorem limits_enterHandler (group : u.group? = some g) (alive : (u.thread l).life ≠ .absent) (hd : handled u u l v h p)
    (frame : List Byte) : (v.enterHandler l h (u.tframe l) p frame).limits l.wg = u.limits l.wg := by
  have kept := bareWork_of_handled hd
  obtain ⟨w, there⟩ := wg_of_handled hd
  obtain ⟨-, ⟨shells, -⟩, -⟩ := entered_of_handled group alive hd frame
  have launches : (v.enterHandler l h (u.tframe l) p frame).launches = v.launches := by
    unfold State.enterHandler
    rw [State.addStore_of_wg there]
    rfl
  have launch := launchOf?_of_shells (shells.trans (congrArg (List.map shell) (wgs_of_bareWork kept)).symm) launches l.wg
  rw [limits_eq_rcd, launch, rcd_of_bareWork kept, ← limits_eq_rcd]

theorem cmds_enterHandler (hd : handled u u l v h p) (va : Nat) (frame : List Byte) :
    (v.enterHandler l h va p frame).cmds = u.cmds := by
  have kept := bareWork_of_handled hd
  obtain ⟨w, there⟩ := wg_of_handled hd
  unfold State.enterHandler
  rw [State.addStore_of_wg there]
  exact congrArg Work.cmds kept

end

/-- The issue of a slot that is illegal for its one lane (R70). -/
theorem issue_of_illegal {s : State} {g : Group} {l : LaneRef} {i : Instr} {gd : Guard} {f : State → List LaneRef → State}
    (group : s.group? = some g) (lanes : g.lanes = [l]) (illegal : s.legalFor l i = false)
    (still : (({ s with fresh := s.fresh + 1 } : State).strikeAll [l] (.of causeILLOPD 0)).legalFor l i = false) :
    issue i gd s f = conclude (f (({ s with fresh := s.fresh + 1 } : State).strikeAll [l] (.of causeILLOPD 0)) []) := by
  have group' : ({ s with fresh := s.fresh + 1 } : State).group? = some g := group
  have struck : g.lanes.filter (fun l => !(({ s with fresh := s.fresh + 1 } : State).legalFor l i)) = [l] := by
    rw [lanes, List.filter_cons, show ({ s with fresh := s.fresh + 1 } : State).legalFor l i = false from illegal]
    rfl
  have left (t : State) (no : t.legalFor l i = false) : g.lanes.filter (fun l => t.legalFor l i) = [] := by
    rw [lanes, List.filter_cons, no]
    rfl
  unfold issue
  dsimp only
  rw [group']
  dsimp only
  rw [struck, left _ still]
  rfl

/-- Check 6 of R70 for the lane of a group. -/
theorem illegal_next {i : Instr} {s : State} {g : Group} {l : LaneRef} {s1 : State} {h : Nat} {p : Place}
    (group : s.group? = some g) (lanes : g.lanes = [l]) (plain : s.prot l.wg = false)
    (alive : (s.thread l).alive = true) (illegal : s.legalFor l i = false) (trap : mayTrap s l s1 h p) :
    ∃ t, exec i s = .next t ∧
      entered s t g l s1 h p (frameBytes g.pc 2 g.slot 0#32 0 (slotWord g) (s.thread l)) ∧ t.cmds = s.cmds := by
  have hd : handled { s with fresh := s.fresh + 1 } { s with fresh := s.fresh + 1 } l s1 h p := trap
  have group' : ({ s with fresh := s.fresh + 1 } : State).group? = some g := group
  have there : (({ s with fresh := s.fresh + 1 } : State).thread l).life ≠ .absent := ne_absent_of_alive alive
  have struck := State.strikeAll_of_handled group' plain hd (.of causeILLOPD 0)
  obtain ⟨gd, f, run, idle⟩ := runsIdle_of_illegal illegal group fun m hm => by
    rw [lanes, List.mem_singleton] at hm
    rw [hm, illegal]
  have rest := idle (({ s with fresh := s.fresh + 1 } : State).strikeAll [l] (.of causeILLOPD 0))
  have still : (({ s with fresh := s.fresh + 1 } : State).strikeAll [l] (.of causeILLOPD 0)).legalFor l i = false := by
    rw [struck]
    exact (legalFor_of_limits (limits_enterHandler group' there hd _) i).trans illegal
  rw [run, issue_of_illegal group lanes illegal still]
  refine ⟨_, (conclude_eq_next _ _).2 ⟨?_, rfl⟩, ?_, ?_⟩
  · rw [rest.halt, struck, State.halt_enterHandler hd, halt_of_handled hd]
  · refine entered_of_idle ?_ rest
    rw [struck, trapFrame_of]
    exact entered_of_handled group' there hd _
  · rw [rest.cmds, struck, cmds_enterHandler hd]

end Sys2Proof.Machine
end

