-- ==== Sys2Proof/Proofs/SlotAccesses.lean ====
section
/-! The access of one lane as its slot begins (R177 to R183, R189): its operands, its address, and what it need not wait for. -/

namespace Sys2Proof.Machine

open Sys2Proof.Spec

/-! Operands are read as they stand before the slot marks what it reaches (R218). -/

/-- The mark on a command. -/
theorem touched_eq (s : State) (ls : List LaneRef) (ops : List Opnd) (c : Cmd) :
    ∃ b, touched s ls ops c = { c with tainted := b } := by
  unfold touched
  split
  · exact ⟨true, rfl⟩
  · exact ⟨c.tainted, rfl⟩

theorem unread_reading (s : State) (ls : List LaneRef) (ops : List Opnd) (l : LaneRef) :
    (reading s ls ops).unread l = s.unread l := by
  have twins (m : LaneRef) : (reading s ls ops).twins m = s.twins m := by
    unfold State.twins
    rw [prot_reading]
  unfold State.unread
  simp only [twins]
  refine congrArg₂ (· ++ ·) rfl ?_
  rw [show (reading s ls ops).cmds = s.cmds.map (touched s ls ops) from rfl, List.flatMap_map]
  refine List.flatMap_congr fun c _ => ?_
  obtain ⟨b, e⟩ := touched_eq s ls ops c
  rw [e]

/-- The windows of a rig keep their lanes and sets. -/
theorem windowSets_reading (s : State) (ls : List LaneRef) (ops : List Opnd) (l : LaneRef) :
    (reading s ls ops).windowSets l = s.windowSets l := by
  unfold State.windowSets
  rw [rig?_reading, Option.map_map]
  refine congrArg (Option.getD · []) (Option.map_congr fun q _ => ?_)
  rw [Function.comp_apply]
  unfold touchedRig Rig.touch
  split
  case isFalse => rfl
  dsimp only
  split
  case isFalse => rfl
  rw [List.filter_map, List.flatMap_map]
  have lanes : ((fun v : AccWindow => v.lanes.contains l.lane) ∘ fun v : AccWindow =>
      if (v.sets.contains q.aset.toNat && (lanesIn ls l.wg l.rig).any v.lanes.contains) = true then
        { v with touched := true } else v) = fun v => v.lanes.contains l.lane := by
    funext v
    rw [Function.comp_apply]
    split <;> rfl
  rw [lanes]
  refine List.flatMap_congr fun v _ => ?_
  split <;> rfl

theorem view_reading (s : State) (ls : List LaneRef) (ops : List Opnd) (l : LaneRef) :
    view (reading s ls ops) l = view s l := by
  have aset := rig?_reading_map s ls ops (fun q => q.aset.toNat) (fun _ _ _ => rfl) l.wg l.rig
  have sets : ((reading s ls ops).cmds.filter fun c => c.lane.wg == l.wg && c.lane.rig == l.rig).flatMap Cmd.sets =
      (s.cmds.filter fun c => c.lane.wg == l.wg && c.lane.rig == l.rig).flatMap Cmd.sets := by
    have lane : ((fun c : Cmd => c.lane.wg == l.wg && c.lane.rig == l.rig) ∘ touched s ls ops) =
        fun c => c.lane.wg == l.wg && c.lane.rig == l.rig := by
      funext c
      obtain ⟨b, e⟩ := touched_eq s ls ops c
      rw [Function.comp_apply, e]
    rw [show (reading s ls ops).cmds = s.cmds.map (touched s ls ops) from rfl, List.filter_map, List.flatMap_map, lane]
    refine List.flatMap_congr fun c _ => ?_
    obtain ⟨b, e⟩ := touched_eq s ls ops c
    rw [e]
    rfl
  unfold view State.env
  rw [aset, unread_reading, sets, windowSets_reading]
  rfl

/-- A lane whose tile set is not busy keeps its rows. -/
theorem thread_reading_of_free {s : State} {l : LaneRef} (ops : List Opnd)
    (free : (view s l).busy.contains (view s l).aset = false) : (reading s [l] ops).thread l = s.thread l := by
  unfold State.thread
  rw [rig?_reading]
  cases there : s.rig? l.wg l.rig with
  | none => rfl
  | some q =>
    have aset : (view s l).aset = q.aset.toNat := by
      unfold view State.env
      rw [there]
      rfl
    have windows : s.windowSets l = (q.windows.filter fun v => v.lanes.contains l.lane).flatMap AccWindow.sets := by
      unfold State.windowSets
      rw [there]
      rfl
    have none : q.windows.any (fun v => v.sets.contains q.aset.toNat && (lanesIn [l] l.wg l.rig).any v.lanes.contains) =
        false := by
      refine List.any_eq_false.2 fun v hv => ?_
      rw [Bool.and_eq_true, List.contains_iff_mem, List.any_eq_true]
      rintro ⟨set, m, hm, lane⟩
      obtain ⟨m', hm', rfl⟩ := List.mem_map.1 hm
      obtain rfl := List.mem_singleton.1 (List.mem_of_mem_filter hm')
      refine absurd free ?_
      rw [Bool.not_eq_false, List.contains_iff_mem, aset]
      refine List.mem_append_right _ ?_
      rw [windows]
      exact List.mem_flatMap.2 ⟨v, List.mem_filter.2 ⟨hv, lane⟩, set⟩
    have same : touchedRig s [l] ops l.wg l.rig q = q := by
      unfold touchedRig Rig.touch
      dsimp only
      rw [none, if_neg Bool.false_ne_true, ite_self]
    rw [Option.map_some, Option.bind_some, Option.bind_some, same]

/-- A word operand reads the same. -/
theorem src_reading (s : State) (l : LaneRef) (ops : List Opnd) (o : Opnd) :
    (view s l).src ((reading s [l] ops).thread l) o = reads s o l := by
  unfold reads
  by_cases busy : (view s l).busy.contains (view s l).aset = true
  · obtain ⟨rows, thread⟩ := thread_reading s [l] ops l
    rw [thread]
    cases o with
    | a j =>
      simp only [Env.src, Env.acc, if_pos busy]
    | g _ | t _ | p _ | c _ | bad _ => rfl
  · rw [thread_reading_of_free ops (Bool.eq_false_iff.2 busy)]

/-- Rows are no part of a pair. -/
theorem src64_reading (s : State) (l : LaneRef) (ops : List Opnd) (o : Opnd) :
    (view s l).src64 ((reading s [l] ops).thread l) o = reads64 s o l := by
  obtain ⟨rows, thread⟩ := thread_reading s [l] ops l
  rw [thread]
  cases o <;> rfl

/-- Rows are no part of a register. -/
theorem reg_reading (s : State) (l : LaneRef) (ops : List Opnd) (r : Nat) :
    (view s l).reg ((reading s [l] ops).thread l) r = (view s l).reg (s.thread l) r := by
  obtain ⟨rows, thread⟩ := thread_reading s [l] ops l
  rw [thread]
  rfl

/-! The slot of an access. -/

/-- The operands of an access. -/
def MemOp.ops (m : MemOp) : List Opnd := [m.d, m.a, m.b, m.c]

theorem atSlot_eq (s : State) (m : MemOp) (l : LaneRef) : atSlot s m l = (readingNow s [l] m.ops).numberSlot := by
  unfold atSlot
  rw [State.taint_eq_readingNow]
  rfl

theorem env_atSlot (s : State) (m : MemOp) (l : LaneRef) : (atSlot s m l).env l = view s l := by
  rw [atSlot_eq]
  exact view_reading s [l] m.ops l

theorem threadOf_eq (s : State) (m : MemOp) (l : LaneRef) : threadOf s m l = (reading s [l] m.ops).thread l := by
  unfold threadOf
  rw [atSlot_eq]
  rfl

theorem src_atSlot (s : State) (m : MemOp) (l : LaneRef) (o : Opnd) :
    ((atSlot s m l).env l).src ((atSlot s m l).thread l) o = reads s o l := by
  rw [env_atSlot, show (atSlot s m l).thread l = _ from threadOf_eq s m l, src_reading]

theorem src64_atSlot (s : State) (m : MemOp) (l : LaneRef) (o : Opnd) :
    ((atSlot s m l).env l).src64 ((atSlot s m l).thread l) o = reads64 s o l := by
  rw [env_atSlot, show (atSlot s m l).thread l = _ from threadOf_eq s m l, src64_reading]

theorem len_eq_lengthOf (m : MemOp) : m.len = lengthOf m := by
  unfold MemOp.len lengthOf Ty.bits elemBits
  cases m.ty <;> rfl

/-- The sum of an address and an offset wraps (R177). -/
theorem wrapInt_add (w : Nat) (x y : BitVec w) : wrapInt w ((x.toNat : Int) + y.toInt) = (x + y).toNat := by
  unfold wrapInt
  rw [BitVec.toNat_add, BitVec.toInt_eq_toNat_bmod, Int.add_emod, Int.bmod_emod, ← Int.add_emod, ← Int.natCast_add,
    ← Int.natCast_emod, Int.toNat_natCast]

/-- The address of an access (R177). -/
theorem addrOf_atSlot (s : State) (m : MemOp) (l : LaneRef) :
    (atSlot s m l).addrOf m.sp m.a m.b l = address s m l := by
  unfold State.addrOf address
  dsimp only
  rw [src_atSlot, src_atSlot, src64_atSlot]
  cases m.sp with
  | loft => exact wrapInt_add 32 _ _
  | global =>
    rw [← wrapInt_add 64, BitVec.toInt_signExtend_of_le (by decide)]


/-! What the slot need not wait for (R183, R189). -/

theorem launchOf?_atSlot (s : State) (m : MemOp) (l : LaneRef) (i : Nat) : (atSlot s m l).launchOf? i = s.launchOf? i := by
  rw [atSlot_eq]
  exact launchOf?_reading s [l] m.ops i

theorem wg?_atSlot (s : State) (m : MemOp) (l : LaneRef) (i : Nat) :
    ∃ rigs : Workgroup → List Rig, (atSlot s m l).wg? i = (s.wg? i).map fun w => { w with rigs := rigs w } := by
  rw [atSlot_eq]
  exact ⟨_, wg?_reading s [l] m.ops i⟩

theorem prot_atSlot (s : State) (m : MemOp) (l : LaneRef) (i : Nat) : (atSlot s m l).prot i = s.prot i := by
  rw [atSlot_eq]
  exact prot_reading s [l] m.ops i

/-- The slot has its number (R182). -/
def Group.numbered (g : Group) (n : Nat) : Group := if g.served.isEmpty then { g with issue := n, missed := [] } else g

theorem group?_atSlot {s : State} {g : Group} (group : s.group? = some g) (m : MemOp) (l : LaneRef) :
    (atSlot s m l).group? = some (g.numbered (s.fresh + 1)) := by
  rw [atSlot_eq]
  exact State.group?_setGroup_of_some (s := readingNow s [l] m.ops) group _

theorem Group.numbered_eq (g : Group) (n : Nat) :
    ∃ issue missed, g.numbered n = { g with issue := issue, missed := missed } := by
  unfold Group.numbered
  split
  · exact ⟨_, _, rfl⟩
  · exact ⟨_, _, rfl⟩

theorem released_atSlot (s : State) (m : MemOp) (l k : LaneRef) (sc : Scope) :
    (atSlot s m l).released k sc = s.released k sc := by
  have killed : (atSlot s m l).killed k.wg = s.killed k.wg := by
    unfold State.killed
    rw [launchOf?_atSlot]
    rw [atSlot_eq]
    rfl
  unfold State.released
  rw [killed, atSlot_eq]
  rfl

theorem tokView_atSlot (s : State) (m : MemOp) (l k : LaneRef) (n : Nat) :
    (atSlot s m l).tokView k n = tokenOf s k n := by
  rw [atSlot_eq]
  exact (tokenOf_reading s [l] m.ops k n).symm

section
variable {i : Instr} {m : MemOp} {s : State} {g : Group} {l : LaneRef}

/-- A release part that need not wait (R189). -/
theorem relReady_of_passes (pass : passes s m l) : (atSlot s m l).relReady m [l] = true := by
  obtain ⟨-, rel⟩ := pass
  rw [waits_eq_relPart] at rel
  unfold State.relReady MemOp.waitScope
  by_cases part : relPart m.ord = true
  · rw [if_pos part]
    refine List.all_eq_true.2 fun k hk => ?_
    rw [List.mem_singleton] at hk
    rw [hk, released_atSlot]
    exact rel part
  · rw [if_neg part]

/-- A token below its limit (R183). -/
theorem tokFull_of_passes (pass : passes s m l) {k : Nat} (tok : m.tok = some k) : (atSlot s m l).tokFull [l] k = false := by
  obtain ⟨below, -⟩ := pass
  refine List.any_eq_false.2 fun n hn => ?_
  rw [List.mem_singleton] at hn
  rw [hn, tokView_atSlot, decide_eq_true_eq]
  have := below k tok
  omega

/-- A memory slot of one lane that need not wait performs its access (R180). -/
theorem exec_of_passes (op : memOp i = some m) (h : One s g i (guardOf i) l) (pass : passes s m l) :
    exec i s = conclude (((atSlot s m l).memLane l i m (address s m l) ((atSlot s m l).memData m l)).countSlot
      (atSlot s m l).serial) := by
  have plain : (atSlot s m l).prot l.wg = false := (prot_atSlot ..).trans h.plain
  have going : (atSlot s m l).stalledNow = false := by
    unfold State.stalledNow
    obtain ⟨issue, missed, e⟩ := g.numbered_eq (s.fresh + 1)
    rw [group?_atSlot h.group, e]
    exact h.going
  rw [exec_of_memOp op, memSlot, issue_of_one h]
  dsimp only
  rw [op]
  dsimp only
  rw [show (({ s with fresh := s.fresh + 1 } : State).taint [l] [m.d, m.a, m.b, m.c]).numberSlot = atSlot s m l from rfl,
    relReady_of_passes pass, List.map_cons, List.map_nil, State.agree_of_plain plain, List.foldl_cons, List.foldl_nil,
    going, addrOf_atSlot]
  cases tok : m.tok with
  | none => rfl
  | some k =>
    simp only [tokFull_of_passes pass tok, Bool.not_true, Bool.or_self, Bool.false_eq_true, if_false]

end

end Sys2Proof.Machine
end

