-- ==== Sys2Proof/Proofs/FailedAccesses.lean ====
section
/-! An access that fails a check of R180 traps with the address that failed. -/

namespace Sys2Proof.Machine

open Sys2Proof.Spec

/-! The check that fails. -/

theorem writes_of_memOp {i : Instr} {m : MemOp} (op : memOp i = some m) (write : m.kind ≠ .read) : m.kind.writes = true := by
  unfold memOp at op
  split at op
  case h_18 => cases op
  case h_1 | h_2 | h_3 | h_4 => cases op; exact absurd rfl write
  all_goals cases op; rfl

theorem limits_atSlot (s : State) (m : MemOp) (l : LaneRef) (i : Nat) : (atSlot s m l).limits i = s.limits i := by
  unfold State.limits
  rw [launchOf?_atSlot]

/-- The first check that fails decides (R180). -/
theorem fate_of_fails {i : Instr} {m : MemOp} {s : State} {l : LaneRef} {cause : Nat} {s1 : State} (op : memOp i = some m)
    (h : fails s m l cause s1) : (atSlot s m l).fate l m.sp m.kind (address s m l) m.len =
      (s1, .trap (.of cause (address s m l))) := by
  unfold fails at h
  dsimp only at h
  unfold State.fate
  rw [len_eq_lengthOf]
  by_cases aligned : address s m l % lengthOf m ≠ 0
  · rw [if_pos aligned] at h ⊢
    obtain ⟨rfl, rfl⟩ := h
    rfl
  rw [if_neg aligned] at h ⊢
  cases sp : m.sp with
  | global =>
    rw [sp] at h
    dsimp only at h ⊢
    unfold State.globalFate
    rcases h with ⟨rfl, access⟩ | ⟨rfl, access⟩
    · rw [access]
      rfl
    · rw [access]
      rfl
  | loft =>
    rw [sp] at h
    dsimp only at h ⊢
    obtain ⟨rfl, w, there, fails⟩ := h
    obtain ⟨rigs, wg⟩ := wg?_atSlot s m l l.wg
    rw [wg, there, Option.map_some]
    dsimp only
    rw [limits_atSlot]
    rcases fails with ⟨rfl, beyond⟩ | ⟨rfl, inside, write, k, live, low, high⟩
    · rw [if_pos beyond]
      rfl
    · have touches : ({ w with rigs := rigs w } : Workgroup).touchesLive (address s m l) (lengthOf m) = true :=
        List.any_eq_true.2 ⟨k, live, by rw [decide_eq_true high, decide_eq_true low]; rfl⟩
      rw [if_neg (by omega), writes_of_memOp op write, touches]
      rfl

/-- What the translation of an access keeps. -/
theorem bareWork_of_access {m : MemOp} {s : State} {l : LaneRef} {s1 : State} {r : XRes}
    (access : (atSlot s m l).coreAccess l m.kind (address s m l) = (s1, r)) : s1.bareWork = (atSlot s m l).bareWork := by
  have kept := (atSlot s m l).coreAccess_bareWork l m.kind (address s m l)
  rwa [access] at kept

/-- A check changes nothing of the work of the cores. -/
theorem bareWork_of_fails {m : MemOp} {s : State} {l : LaneRef} {cause : Nat} {s1 : State} (h : fails s m l cause s1) :
    s1.bareWork = (atSlot s m l).bareWork := by
  unfold fails at h
  dsimp only at h
  split at h
  · rw [h.2]
  · split at h
    · rw [h.1]
    · rcases h with ⟨-, access⟩ | ⟨-, access⟩
      · exact bareWork_of_access access
      · exact bareWork_of_access access

/-! The trap of a lane whose access has begun. -/

theorem kslots_setBay (s : State) (c b : Nat) (f : Bay → Bay) (d : Nat) :
    ((s.setBay c b f).core d).kslots = (s.core d).kslots := by
  unfold State.setBay State.setCore State.core
  rw [modifyAt_get]
  split
  · cases s.cores[d]? <;> rfl
  · rfl

theorem validTarget_atSlot {s : State} {g : Group} (group : s.group? = some g) (m : MemOp) (l : LaneRef) (pc : Nat) :
    (atSlot s m l).validTarget pc = s.validTarget pc := by
  obtain ⟨issue, missed, e⟩ := g.numbered_eq (s.fresh + 1)
  have kslots (c k : Nat) : (atSlot s m l).kslot? c k = s.kslot? c k := by
    unfold State.kslot?
    rw [atSlot_eq]
    exact congrArg (fun ks => (ks[k]?).join) (kslots_setBay (readingNow s [l] m.ops) _ _ _ c)
  rw [validTarget_of_group group, validTarget_of_group (group?_atSlot group m l), e]
  unfold State.validIn
  rw [kslots, atSlot_eq]
  rfl

theorem tframe_atSlot (s : State) (m : MemOp) (l k : LaneRef) : (atSlot s m l).tframe k = s.tframe k := by
  rw [atSlot_eq]
  exact tframe_reading s [l] m.ops k

section
variable {m : MemOp} {s s1 s2 : State} {g : Group} {l : LaneRef} {h : Nat} {p : Place}

/-- The handler of the state in which an access fails. -/
theorem handled_of_bareWork (group : s.group? = some g) (kept : s1.bareWork = (atSlot s m l).bareWork)
    (hd : handled s s1 l s2 h p) : handled s1 s1 l s2 h p := by
  obtain ⟨⟨k, launch, handler⟩, pos, top, valid, out, q, access, halt⟩ := hd
  obtain ⟨rows, thread⟩ := thread_reading s [l] m.ops l
  have rcd := rcd_of_bareWork kept l.wg
  rw [launchOf?_atSlot, launch, Option.map_some] at rcd
  obtain ⟨k', launch', same⟩ := Option.map_eq_some_iff.1 rcd
  refine ⟨⟨k', launch', by rw [same, handler]⟩, pos, top, ?_, ?_, q, ?_, halt⟩
  · rw [validTarget_of_group ((group?_of_bareWork kept).trans (group?_atSlot group m l)), validIn_of_bareWork kept,
      show s1.focus = (atSlot s m l).focus from congrArg Work.focus kept,
      ← validTarget_of_group (group?_atSlot group m l), validTarget_atSlot group, valid]
  · rw [State.thread_of_wgs (wgs_of_bareWork kept), show (atSlot s m l).thread l = _ from threadOf_eq s m l, thread]
    exact out
  · rw [tframe_of_bareWork kept, tframe_atSlot]
    exact access

/-- A lane whose access fails a check enters its handler (R166, R180). -/
theorem fails_next {i : Instr} {cause : Nat} (op : memOp i = some m) (param : m.param = false) (one : One s g i (guardOf i) l)
    (pass : passes s m l) (fail : fails s m l cause s1) (hd : handled s s1 l s2 h p) :
    ∃ t, exec i s = .next t ∧ entered s1 t g l s2 h p
      (frameBytes g.pc cause g.slot 0#32 (address s m l) (slotWord g) (threadOf s m l)) := by
  have kept := bareWork_of_fails fail
  have hd' := handled_of_bareWork one.group kept hd
  obtain ⟨issue, missed, e⟩ := g.numbered_eq (s.fresh + 1)
  have group : s1.group? = some (g.numbered (s.fresh + 1)) := (group?_of_bareWork kept).trans (group?_atSlot one.group m l)
  have plain : s1.prot l.wg = false := (prot_of_bareWork kept l.wg).trans ((prot_atSlot ..).trans one.plain)
  have thread : s1.thread l = threadOf s m l := State.thread_of_wgs (wgs_of_bareWork kept) l
  have alive : (s1.thread l).life ≠ .absent := by
    obtain ⟨rows, read⟩ := thread_reading s [l] m.ops l
    rw [thread, threadOf_eq, read]
    exact ne_absent_of_alive one.alive
  have lane : (atSlot s m l).memLane l i m (address s m l) ((atSlot s m l).memData m l) =
      s1.strikePair l (.of cause (address s m l)) := by
    unfold State.memLane State.perform
    rw [param, fate_of_fails op fail]
    rfl
  have idle := Idle.countSlot (s1.strikePair l (.of cause (address s m l))) (atSlot s m l).serial
  have enter := entered_of_handled group alive hd' (trapFrame (g.numbered (s.fresh + 1)) (s1.thread l)
    (.of cause (address s m l)))
  rw [← State.strikePair_of_handled group plain hd', trapFrame_of, thread, e] at enter
  rw [exec_of_passes op one pass, lane]
  refine ⟨_, (conclude_eq_next _ _).2 ⟨?_, rfl⟩, entered_of_idle enter idle⟩
  rw [idle.halt, State.strikePair_of_handled group plain hd', State.halt_enterHandler hd', halt_of_handled hd']

end

end Sys2Proof.Machine
end

