-- ==== Sys2Proof/Proofs/FaultedAccesses.lean ====
section
/-! A page fault of an access goes on its workgroup's replay list (R181, R305, R306). -/

namespace Sys2Proof.Machine

open Sys2Proof.Spec

/-! A fault record that its queue cannot take (R312). -/

/-- A queue without room takes nothing. -/
theorem State.writeNq_of_full {s : State} {fn : Nat} (full : (s.nq fn).full = true) (n : Nat) : s.writeNq fn n = s := by
  cases n with
  | zero => rfl
  | succ n =>
    unfold State.writeNq
    dsimp only
    split
    · rfl
    · rw [full]
      rfl

/-- A held record leaves the places of its queue. -/
theorem State.full_holdRecord (s : State) (fn : Nat) (r : List Byte) :
    ((s.holdRecord fn r).nq fn).full = (s.nq fn).full := by
  unfold State.holdRecord State.setNq
  by_cases pf : fn = pfNumber
  · rw [if_pos pf]
    unfold State.nq
    rw [if_pos pf, if_pos pf]
    rfl
  · rw [if_neg pf]
    unfold State.nq State.setVf State.vf
    rw [if_neg pf, if_neg pf, modifyAt_get, if_pos rfl]
    cases s.vfs[fn]? <;> rfl

theorem State.holdRecord_eq (s : State) (fn : Nat) (r : List Byte) :
    ∃ vfs pf, s.holdRecord fn r = { s with vfs := vfs, pf := pf } := by
  unfold State.holdRecord State.setNq
  split
  · exact ⟨_, _, rfl⟩
  · exact ⟨_, _, rfl⟩

/-- A record for a full queue is held. -/
theorem State.notify_of_full {s : State} {fn : Nat} (full : (s.nq fn).full = true) (none : s.pf.nq.held = [])
    (r : List Byte) : s.notify fn r = s.holdRecord fn r := by
  have full' := (s.full_holdRecord fn r).trans full
  unfold State.notify State.pumpNq
  dsimp only
  rw [State.writeNq_of_full full']
  split
  · rfl
  next pf =>
    have held : ((s.holdRecord fn r).nq pfNumber).held = [] := by
      unfold State.holdRecord State.setNq
      rw [if_neg pf]
      exact none
    rw [State.writeNq_of_held_nil held]

/-! The report of a fault (R305). -/

/-- A report that needs no memory (R305, R309, R312). -/
theorem State.reportFault_of_held {s : State} {k : Launch} {lid entry va : Nat} (launch : s.launch? lid = some k)
    (held : recordHeld s k entry va) (wgid acc pa : Nat) : ∃ vfs pf reported migReqs serial,
      s.reportFault lid wgid va acc entry pa =
        { s with vfs := vfs, pf := pf, reported := reported, migReqs := migReqs, serial := serial } := by
  unfold State.reportFault
  rw [launch]
  dsimp only
  by_cases mig : pteMig entry = true
  · rw [if_pos mig]
    exact ⟨_, _, _, _, _, rfl⟩
  rw [if_neg mig]
  split
  · exact ⟨_, _, _, _, _, rfl⟩
  next fresh =>
    rcases held with h | ⟨r, hr, tag, page⟩ | ⟨none, full⟩
    · exact absurd h mig
    · refine absurd (List.any_eq_true.2 ⟨r, hr, ?_⟩) fresh
      rw [tag, page, beq_self_eq_true, beq_self_eq_true]
      rfl
    · have notified := State.notify_of_full (s := { s with reported := s.reported ++ [(k.ctx, va / 4096)] })
        (beq_iff_eq.2 full) none (notifyRecord va k.rcd.ident wgid k.rcd.job k.rcd.ctx acc 1)
      obtain ⟨vfs, pf, e⟩ := State.holdRecord_eq { s with reported := s.reported ++ [(k.ctx, va / 4096)] } k.vf
        (notifyRecord va k.rcd.ident wgid k.rcd.job k.rcd.ctx acc 1)
      rw [notified, e]
      exact ⟨_, _, _, _, _, rfl⟩

/-- A fault of a migratable entry makes a request (R305). -/
theorem State.migReqs_reportFault {s : State} {k : Launch} {lid entry : Nat} (launch : s.launch? lid = some k)
    (mig : bit entry 54 = true) (wgid va acc pa : Nat) : (s.reportFault lid wgid va acc entry pa).migReqs =
      s.migReqs ++ [⟨s.serial, pa, bits entry 12 40 * 4096, lid, wgid, va, s.time, false⟩] := by
  unfold State.reportFault
  rw [launch]
  dsimp only
  rw [if_pos (show pteMig entry = true from mig)]
  rfl

/-! The workgroup of a lane that faults (R181, R306). -/

/-- The entry of a lane's access (R306). -/
def Group.entry (g : Group) (l : LaneRef) (perm : Dword) (va : Nat) (data : List Byte) : Replay :=
  ⟨.instr, l.rig, l.lane, slotWord g, va, data, perm, g.pc, g.slot, g.issue, none⟩

/-- A workgroup with an entry on its list, or beside a full one (R306). -/
def Workgroup.addEntry (w : Workgroup) (r : Replay) : Workgroup :=
  if w.listFull then { w with again := w.again ++ [r] } else { w with replay := w.replay ++ [r] }

/-- A workgroup that watches the line of a fault, to be swapped (R181, R305). -/
def Workgroup.watching (w : Workgroup) (va pa : Nat) : Workgroup :=
  { w with
    watches := if w.watches.contains (pa / 128) then w.watches else w.watches ++ [pa / 128]
    faults := if w.faults.contains va then w.faults else w.faults ++ [va]
    phase := w.phase.struck }

theorem Workgroup.addEntry_id (w : Workgroup) (r : Replay) : (w.addEntry r).id = w.id := by
  unfold Workgroup.addEntry
  split <;> rfl

theorem Workgroup.addEntry_rigs (w : Workgroup) (r : Replay) : (w.addEntry r).rigs = w.rigs := by
  unfold Workgroup.addEntry
  split <;> rfl

theorem Workgroup.addEntry_of_room {w : Workgroup} (room : w.listFull = false) (r : Replay) :
    w.addEntry r = { w with replay := w.replay ++ [r] } := by
  unfold Workgroup.addEntry
  rw [room]
  rfl

theorem mem_added {α : Type} [BEq α] [LawfulBEq α] (a : α) (l : List α) :
    a ∈ if l.contains a then l else l ++ [a] := by
  split
  next there => exact List.contains_iff_mem.1 there
  next => exact List.mem_append_right _ (List.mem_singleton_self a)

/-- A lane's fault with room on the list: before the report only its workgroup changes. -/
theorem faultLane_of_room {s : State} {l : LaneRef} {w : Workgroup} {g : Group} (there : s.wg? l.wg = some w)
    (room : w.replay.length < 1024) (group : s.group? = some g) (kind : AccKind) (data : List Byte) (va entry pa : Nat) :
    ∃ wgs, s.faultLane l kind data va va entry pa =
        (({ s with wgs := wgs } : State).reportFault w.launch w.wgid va kind.accBits entry pa).servePair l ∧
      ({ s with wgs := wgs } : State).wg? l.wg = some
        (({ w with replay := w.replay ++ [g.entry l w.pkperm va data] } : Workgroup).watching va pa) ∧
      ∀ n, ({ s with wgs := wgs } : State).thread n = s.thread n := by
  have listFull : w.listFull = false := decide_eq_false (Nat.not_le.2 room)
  have free : s.replayFull l.wg = false := by
    unfold State.replayFull
    rw [there]
    exact listFull
  have word : s.slotWord = slotWord g := by
    unfold State.slotWord
    rw [group, ← word_eq_slotWord]
    rfl
  have issue : s.slotIssue = g.issue := by
    unfold State.slotIssue
    rw [group]
    rfl
  have added : s.addReplay l .instr (slotWord g) va data =
      s.setWg l.wg fun w => w.addEntry (g.entry l w.pkperm va data) := by
    unfold State.addReplay
    rw [group, issue]
    rfl
  have listed : (s.setWg l.wg fun w => w.addEntry (g.entry l w.pkperm va data)).wg? l.wg =
      some { w with replay := w.replay ++ [g.entry l w.pkperm va data] } := by
    rw [State.wg?_setWg s l.wg l.wg _ fun w => w.addEntry_id _, if_pos rfl, there, Option.map_some,
      Workgroup.addEntry_of_room listFull]
  refine ⟨((s.setWg l.wg fun w => w.addEntry (g.entry l w.pkperm va data)).setWg l.wg fun w => w.watching va pa).wgs,
    ?_, ?_, fun n => ?_⟩
  · unfold State.faultLane State.takeFault State.watchFault
    rw [free, word, added, listed]
    rfl
  · refine (State.wg?_setWg _ l.wg l.wg (fun w => w.watching va pa) fun _ => rfl).trans ?_
    rw [if_pos rfl, listed]
    rfl
  · refine (State.thread_setWg_of_rigs _ l.wg (f := fun w => w.watching va pa) (fun _ => rfl) (fun _ => rfl) n).trans ?_
    exact State.thread_setWg_of_rigs s l.wg (fun w => w.addEntry_id _) (fun w => w.addEntry_rigs _) n

/-! What the access carries (R178, R306). -/

theorem leBytes_mod (n v : Nat) : leBytes n (v % 2 ^ (8 * n)) = leBytes n v := by
  have same := leBytes_leNat (n := n) (data := leBytes n v) (leBytes_length n v).le
  rw [leNat_leBytes, leBytes_length, Nat.sub_self, List.replicate_zero, List.append_nil] at same
  rw [Nat.pow_mul]
  exact same

/-- The data of CASW stand in general registers. -/
theorem block_of_memOp {i : Instr} {m : MemOp} (op : memOp i = some m) (block : m.block = true) {n k : Nat}
    (h : legal n k i = true) : ∃ r, m.d = .g r := by
  unfold memOp at op
  split at op
  case h_17 gd sc o tok sp d a b c =>
    cases op
    have data := (Bool.and_eq_true_iff.1 (Bool.and_eq_true_iff.1 (Bool.and_eq_true_iff.1 h).1).1).1
    cases d with
    | g r => exact ⟨r, rfl⟩
    | a _ | t _ | p _ | c _ | bad _ => cases data
  case h_18 => cases op
  all_goals cases op; cases block

/-- Eight words are 32 bytes (R193). -/
theorem length_words (f : Nat → Word) : ((List.range 8).flatMap fun i => leBytes 4 (f i).toNat).length = 32 := by
  rw [List.length_flatMap, List.map_congr_left fun i _ => leBytes_length 4 (f i).toNat]
  rfl

/-- The bytes of a store or an atomic as its slot begins (R178, R193). -/
theorem memData_atSlot {i : Instr} {m : MemOp} (op : memOp i = some m) {n k : Nat} (legal : legal n k i = true) (s : State)
    (l : LaneRef) : (atSlot s m l).memData m l =
      if m.kind = .read then [] else leBytes (lengthOf m) (carried s m l m.d) := by
  have data : (if m.block then (((atSlot s m l).env l).regs ((atSlot s m l).thread l) m.d 8).flatMap fun w => leBytes 4 w.toNat
      else leBytes m.len (((atSlot s m l).env l).srcT ((atSlot s m l).thread l) m.ty m.d)) =
      leBytes (lengthOf m) (carried s m l m.d) := by
    unfold carried
    cases block : m.block with
    | true =>
      obtain ⟨r, reg⟩ := block_of_memOp op block legal
      have length : lengthOf m = 32 := if_pos block
      have whole := length_words fun i => (view s l).reg (s.thread l) (r.toNat + i)
      rw [if_pos rfl, if_pos rfl, length, reg, env_atSlot, show (atSlot s m l).thread l = _ from threadOf_eq s m l]
      unfold Spec.blockOf
      dsimp only [Opnd.gnum, Env.regs]
      rw [leBytes_leNat whole.le, whole, Nat.sub_self, List.replicate_zero, List.append_nil, List.flatMap_map]
      exact List.flatMap_congr fun i _ => by rw [reg_reading]
    | false =>
      rw [if_neg Bool.false_ne_true, if_neg Bool.false_ne_true, leBytes_mod, len_eq_lengthOf]
      unfold Env.srcT
      rw [src_atSlot, src64_atSlot]
  have writes := writes_of_memOp op
  unfold State.memData
  cases kind : m.kind with
  | read => rfl
  | write => exact data
  | rmw => exact data
  | exec | any =>
    rw [kind] at writes
    exact absurd (writes nofun) Bool.false_ne_true

/-! The slot of an access that faults. -/

/-- The token of an access of an unprotected lane (R183). -/
theorem countTok_of_plain {s : State} {l : LaneRef} (plain : s.prot l.wg = false) (there : (s.thread l).life ≠ .absent)
    (m : MemOp) : ∃ wgs, s.countTok l m false = { s with wgs := wgs } ∧
      threadOnly s { s with wgs := wgs } l (tokenUp m.tok (s.thread l)) ∧
      ∀ w, s.wg? l.wg = some w → ∃ rigs, ({ s with wgs := wgs } : State).wg? l.wg = some { w with rigs := rigs } := by
  unfold State.countTok
  cases m.tok with
  | none => exact ⟨s.wgs, rfl, threadOnly_of_wgs rfl l, fun w wg => ⟨w.rigs, wg⟩⟩
  | some k =>
    have raised : s.raiseTok l k = s.setThread l fun t => t.addTok k true := by
      unfold State.raiseTok
      rw [State.twins_of_plain plain]
      rfl
    refine ⟨(s.setThread l fun t => t.addTok k true).wgs, raised,
      threadOnly_setThread (threadOnly_of_wgs rfl l) there fun t => t.addTok k true, fun w wg => ?_⟩
    have set := State.wg?_setWg s l.wg l.wg (fun w => { w with
      rigs := modifyAt w.rigs l.rig fun q => { q with threads := modifyAt q.threads l.lane fun t => t.addTok k true } })
      fun _ => rfl
    rw [if_pos rfl, wg, Option.map_some] at set
    exact ⟨_, set⟩

/-- The misses of a slot are counted, and noted in its group (R330). -/
theorem State.countSlot_eq (s : State) (start : Nat) : ∃ vfs pf msix cores,
    s.countSlot start = { s with vfs := vfs, pf := pf, msix := msix, cores := cores } := by
  unfold State.countSlot
  dsimp only
  obtain ⟨vfs, pf, msix, e⟩ := CountersOnly.foldl (f := fun s (k : Nat × Nat) => s.count k.1 0x10 1)
    (fun s _ => s.count_countersOnly _ _ _)
    ((s.missKeys start).filter fun k => !(((s.group?.map Group.missed).getD []).contains k)) s
  unfold State.countKeys
  rw [e]
  exact ⟨vfs, pf, msix, _, rfl⟩

theorem State.group?_countSlot {s : State} {g : Group} (group : s.group? = some g) (start : Nat) :
    ∃ missed, (s.countSlot start).group? = some { g with missed := missed } := by
  unfold State.countSlot
  dsimp only
  obtain ⟨vfs, pf, msix, e⟩ := CountersOnly.foldl (f := fun s (k : Nat × Nat) => s.count k.1 0x10 1)
    (fun s _ => s.count_countersOnly _ _ _)
    ((s.missKeys start).filter fun k => !(((s.group?.map Group.missed).getD []).contains k)) s
  unfold State.countKeys
  rw [e]
  exact ⟨_, State.group?_setGroup_of_some (s := { s with vfs := vfs, pf := pf, msix := msix }) group _⟩

section
variable {i : Instr} {m : MemOp} {s s1 : State} {g : Group} {l : LaneRef} {entry pa : Nat} {w : Workgroup} {k : Launch}

/-- An access that faults with room on the list takes its fault there (R181). -/
theorem memLane_of_fault (param : m.param = false) (global : m.sp = .global) (aligned : address s m l % lengthOf m = 0)
    (access : (atSlot s m l).coreAccess l m.kind (address s m l) = (s1, .fault entry pa))
    (room : s1.replayFull l.wg = false) (data : List Byte) :
    (atSlot s m l).memLane l i m (address s m l) data =
      (s1.countTok l m false).faultLane l m.kind data (address s m l) (address s m l) entry pa := by
  have fate : (atSlot s m l).fate l m.sp m.kind (address s m l) m.len = (s1, .fault (address s m l) entry pa) := by
    unfold State.fate State.globalFate
    rw [len_eq_lengthOf, if_neg (not_not.2 aligned), global]
    dsimp only
    rw [access]
  unfold State.memLane State.perform
  rw [param, fate, if_neg Bool.false_ne_true]
  dsimp only
  rw [room, if_neg Bool.false_ne_true]

/-- The launch of an access stays but for its snapshot. -/
theorem launch_of_bareWork (kept : s1.bareWork = (atSlot s m l).bareWork) {n : Nat} (launch : s.launch? n = some k) :
    ∃ k', s1.launch? n = some k' ∧ k'.ctx = k.ctx ∧ k'.vf = k.vf := by
  have same : (atSlot s m l).launch? n = s.launch? n := by
    rw [atSlot_eq]
    rfl
  have bare := launch?_of_bareWork kept n
  rw [same, launch, Option.map_some] at bare
  obtain ⟨k', there, e⟩ := Option.map_eq_some_iff.1 bare
  exact ⟨k', there, show k'.bare.ctx = _ by rw [e]; rfl, show k'.bare.vf = _ by rw [e]; rfl⟩

/-- A workgroup that keeps its launch keeps its protection. -/
theorem prot_of_launch {s t : State} {n : Nat} {w v : Workgroup} (wg : s.wg? n = some w) (wg' : t.wg? n = some v)
    (same : v.launch = w.launch) (launches : t.launches = s.launches) : t.prot n = s.prot n := by
  unfold State.prot State.launchOf? State.launch?
  rw [wg, wg', Option.bind_some, Option.bind_some, same, launches]

/-- The slot's number is its group's (R182). -/
theorem issue_numbered (s : State) (g : Group) : (g.numbered (s.fresh + 1)).issue = slotNo s g := by
  unfold Group.numbered slotNo
  split <;> rfl

/-- In `u` the fault of the lane's access is on the replay list and has been reported, before its part of the slot is
marked done. -/
structure FaultListed (s s1 u : State) (m : MemOp) (g : Group) (l : LaneRef) (entry pa : Nat) (w : Workgroup) (rigs : List Rig) :
    Prop where
  wg : u.wg? l.wg = some (({ w with
    rigs := rigs
    replay := w.replay ++ [(g.numbered (s.fresh + 1)).entry l w.pkperm (address s m l)
      (if m.kind = .read then [] else leBytes (lengthOf m) (carried s m l m.d))] } : Workgroup).watching (address s m l) pa)
  own : u.thread l = tokenUp m.tok (threadOf s m l)
  others : ∀ n, n ≠ l → u.thread n = (atSlot s m l).thread n
  group : u.group? = some (g.numbered (s.fresh + 1))
  loads : u.loads = s.loads
  stores : u.stores = s.stores
  mem : u.mem = s1.mem
  halt : u.halt = s1.halt
  request : bit entry 54 = true → ∃ id, u.migReqs = s1.migReqs ++
    [⟨id, pa, bits entry 12 40 * 4096, w.launch, w.wgid, address s m l, s.time, false⟩]

/-- The lane's fault is listed and reported (R181, R305, R306). -/
theorem memLane_listed (op : memOp i = some m) (param : m.param = false) (global : m.sp = .global)
    (one : One s g i (guardOf i) l) (aligned : address s m l % lengthOf m = 0)
    (access : (atSlot s m l).coreAccess l m.kind (address s m l) = (s1, .fault entry pa)) (wg : s.wg? l.wg = some w)
    (room : w.replay.length < 1024) (launch : s.launch? w.launch = some k) (held : recordHeld s1 k entry (address s m l)) :
    ∃ u rigs, (atSlot s m l).memLane l i m (address s m l) ((atSlot s m l).memData m l) = u.serve l ∧
      FaultListed s s1 u m g l entry pa w rigs := by
  have kept := bareWork_of_access access
  obtain ⟨rigs, there⟩ := wg?_atSlot s m l l.wg
  rw [wg, Option.map_some] at there
  have there1 := (wg?_of_wgs (wgs_of_bareWork kept) l.wg).trans there
  have group1 := (group?_of_bareWork kept).trans (group?_atSlot one.group m l)
  have plain : s1.prot l.wg = false := (prot_of_bareWork kept l.wg).trans ((prot_atSlot ..).trans one.plain)
  have thread1 : s1.thread l = threadOf s m l := State.thread_of_wgs (wgs_of_bareWork kept) l
  have alive : (s1.thread l).life ≠ .absent := by
    obtain ⟨rows, read⟩ := thread_reading s [l] m.ops l
    rw [thread1, threadOf_eq, read]
    exact ne_absent_of_alive one.alive
  have free : s1.replayFull l.wg = false := by
    unfold State.replayFull
    rw [there1]
    exact decide_eq_false (Nat.not_le.2 room)
  obtain ⟨wgs2, counted, ⟨-, own, others⟩, wg2⟩ := countTok_of_plain plain alive m
  obtain ⟨rigs2, there2⟩ := wg2 _ there1
  obtain ⟨wgs3, lane, there3, threads3⟩ := faultLane_of_room (s := { s1 with wgs := wgs2 }) there2 room group1 m.kind
    (if m.kind = .read then [] else leBytes (lengthOf m) (carried s m l m.d)) (address s m l) entry pa
  obtain ⟨k1, launch1, ctx, vf⟩ := launch_of_bareWork kept launch
  have held1 : recordHeld s1 k1 entry (address s m l) := by
    unfold recordHeld at held ⊢
    rwa [ctx, vf]
  have request (mig : bit entry 54 = true) := State.migReqs_reportFault (s := { s1 with wgs := wgs3 }) launch1 mig w.wgid
    (address s m l) m.kind.accBits pa
  obtain ⟨vfs, pf, reps, reqs, serial, e⟩ :=
    State.reportFault_of_held (s := { s1 with wgs := wgs3 }) launch1 held1 w.wgid m.kind.accBits pa
  have plain3 := (prot_of_launch (t := ({ s1 with wgs := wgs3 } : State).reportFault w.launch w.wgid (address s m l)
    m.kind.accBits entry pa) there1 ((wg?_of_wgs (s := { s1 with wgs := wgs3 }) (by rw [e]) l.wg).trans there3) rfl
    (by rw [e])).trans plain
  refine ⟨({ s1 with wgs := wgs3 } : State).reportFault w.launch w.wgid (address s m l) m.kind.accBits entry pa, rigs2, ?_,
    ⟨?_, ?_, fun n ne => ?_, ?_, ?_, ?_, ?_, ?_, fun mig => ⟨s1.serial, ?_⟩⟩⟩
  · rw [memLane_of_fault param global aligned access free, memData_atSlot op (legal_of_one one), counted, lane]
    unfold State.servePair
    rw [State.twins_of_plain plain3]
    rfl
  · rw [e]
    exact there3
  · rw [e, ← thread1, ← own]
    exact threads3 l
  · rw [e, ← State.thread_of_wgs (wgs_of_bareWork kept) n, ← others n ne]
    exact threads3 n
  · rw [e]
    exact group1
  · rw [e]
    refine (congrArg Work.loads kept).trans ?_
    rw [atSlot_eq]
    rfl
  · rw [e]
    refine (congrArg Work.stores kept).trans ?_
    rw [atSlot_eq]
    rfl
  · rw [e]
  · rw [e]
  · refine (request mig).trans ?_
    rw [show s1.time = (atSlot s m l).time from congrArg Work.time kept, atSlot_eq]
    rfl

/-- A page fault of an access with room on the replay list (R181, R305, R306). -/
theorem fault_next (op : memOp i = some m) (param : m.param = false) (global : m.sp = .global)
    (one : One s g i (guardOf i) l) (pass : passes s m l) (aligned : address s m l % lengthOf m = 0)
    (access : (atSlot s m l).coreAccess l m.kind (address s m l) = (s1, .fault entry pa)) (halt : s1.halt = none)
    (wg : s.wg? l.wg = some w) (phase : w.phase = .running) (room : w.replay.length < 1024)
    (launch : s.launch? w.launch = some k) (held : recordHeld s1 k entry (address s m l)) :
    ∃ t v g', exec i s = .next t ∧ t.wg? l.wg = some v ∧ v.phase = .swapPending ∧
      v.replay = w.replay ++ [{
        kind := .instr, rig := l.rig, lane := l.lane, word := slotWord g, addr := address s m l
        data := if m.kind = .read then [] else leBytes (lengthOf m) (carried s m l m.d)
        perm := w.pkperm, pc := g.pc, slot := g.slot, issue := slotNo s g, stack := none }] ∧
      address s m l ∈ v.faults ∧ pa / 128 ∈ v.watches ∧
      t.thread l = tokenUp m.tok (threadOf s m l) ∧ (∀ n, n ≠ l → t.thread n = (atSlot s m l).thread n) ∧
      t.group? = some g' ∧ l ∈ g'.served ∧ g'.lanes = g.lanes ∧
      t.loads = s.loads ∧ t.stores = s.stores ∧ t.mem = s1.mem ∧
      (bit entry 54 = true → ∃ id, t.migReqs = s1.migReqs ++
        [⟨id, pa, bits entry 12 40 * 4096, w.launch, w.wgid, address s m l, s.time, false⟩]) := by
  obtain ⟨u, rigs, slot, listed⟩ := memLane_listed op param global one aligned access wg room launch held
  obtain ⟨issue, missed, numbered⟩ := g.numbered_eq (s.fresh + 1)
  have lanes : (g.numbered (s.fresh + 1)).lanes = g.lanes := by rw [numbered]
  have served := State.group?_setGroup_of_some listed.group
    fun g => if g.lanes.contains l then { g with served := g.served ++ [l] } else g
  rw [if_pos (List.contains_iff_mem.2 (lanes ▸ mem_lanes_of_runs (runs_of_one one)))] at served
  obtain ⟨missed', group⟩ := State.group?_countSlot served (atSlot s m l).serial
  obtain ⟨vfs, pf, msix, cores, e⟩ := State.countSlot_eq (u.serve l) (atSlot s m l).serial
  have wgs : ((u.serve l).countSlot (atSlot s m l).serial).wgs = u.wgs := by rw [e]; rfl
  have threads := State.thread_of_wgs wgs
  rw [exec_of_passes op one pass, slot]
  refine ⟨_, _, _, (conclude_eq_next _ _).2 ⟨?_, rfl⟩, (wg?_of_wgs wgs l.wg).trans listed.wg, ?_, ?_, mem_added _ _,
    mem_added _ _, (threads l).trans listed.own, fun n ne => (threads n).trans (listed.others n ne), group,
    List.mem_append_right _ (List.mem_singleton_self l), lanes, ?_, ?_, ?_, ?_⟩
  · rw [e]
    exact listed.halt.trans halt
  · exact congrArg WgPhase.struck phase
  · refine congrArg (fun r => w.replay ++ [r]) ?_
    unfold Group.entry
    rw [issue_numbered, numbered]
    rfl
  · rw [e]
    exact listed.loads
  · rw [e]
    exact listed.stores
  · rw [e]
    exact listed.mem
  · rw [e]
    exact listed.request

end

/-- Settles O9: a lane that is struck leaves nothing to execute; an access that fails a check strikes its lane after the
check; a page fault leaves its entry in the workgroup before the report, which holds its record. -/
theorem illegalOperandTraps : Obligations.IllegalOperandTraps := by
  refine ⟨?_, ?_, ?_⟩
  · intro i s g l s1 h p _ _ _ group lanes plain alive illegal trap
    exact illegal_next group lanes plain alive illegal trap
  · intro i m s g l cause s1 s2 h p op param _ one pass fail _ hd
    exact fails_next op param one pass fail hd
  · intro i m s g l s1 entry pa w k op param global _ one pass aligned access halt wg phase room launch held
    exact fault_next op param global one pass aligned access halt wg phase room launch held

end Sys2Proof.Machine
end

