-- ==== Sys2Proof/Proofs/SoftwareTraps.lean ====
section
/-! TRAP and BRK (R166, R167, R169). -/

namespace Sys2Proof.Machine

open Sys2Proof.Spec

/-- The frame of TRAP and BRK names the slot after the instruction (R167, R169). -/
theorem trapFrame_after (g : Group) (t : Thread) (cause : Nat) (imm : Word) :
    trapFrame g t ⟨cause, 0, imm.toNat, false, true⟩ =
      frameBytes g.pc cause (g.slot + 1) imm 0 (slotWord g) t := by
  rw [← word_eq_slotWord]
  unfold trapFrame frameBytes
  simp only [Bool.false_eq_true, if_false, if_true, List.append_assoc, leBytes_zero 60]
  rfl

/-- The cause of a software trap (R165). -/
def softTrap (cause : Nat) (imm : Word) : TrapInfo := ⟨cause, 0, imm.toNat, false, true⟩

section
variable {s v : State} {g : Group} {l : LaneRef} {h : Nat} {p : Place} {gd : Guard} {imm : Word}

/-- A lane that traps by software enters its handler (R166). -/
theorem softTrap_next {i : Instr} (one : One s g i gd l) (hd : mayTrap s l v h p) (cause : Nat)
    (run : exec i s = conclude (({ s with fresh := s.fresh + 1 } : State).strikeAll [l] (softTrap cause imm))) :
    ∃ t, exec i s = .next t ∧
      entered s t g l v h p (frameBytes g.pc cause (g.slot + 1) imm 0 (slotWord g) (s.thread l)) := by
  have hd' : handled { s with fresh := s.fresh + 1 } { s with fresh := s.fresh + 1 } l v h p := hd
  have group : ({ s with fresh := s.fresh + 1 } : State).group? = some g := one.group
  have plain : ({ s with fresh := s.fresh + 1 } : State).prot l.wg = false := one.plain
  have there : (({ s with fresh := s.fresh + 1 } : State).thread l).life ≠ .absent := ne_absent_of_alive one.alive
  have enter := entered_of_handled group there hd' (trapFrame g (s.thread l) (softTrap cause imm))
  rw [run, State.strikeAll_of_handled group plain hd']
  refine ⟨_, (conclude_eq_next _ _).2 ⟨?_, rfl⟩, ?_⟩
  · rw [State.halt_enterHandler hd', halt_of_handled hd']
  · rw [← trapFrame_after]
    exact enter

/-- TRAP strikes its lane (R169). -/
theorem exec_trap (one : One s g (.trap gd imm) gd l) :
    exec (.trap gd imm) s = conclude (({ s with fresh := s.fresh + 1 } : State).strikeAll [l] (softTrap 16 imm)) := by
  change execTrap gd imm s = _
  unfold execTrap
  rw [issue_of_one one]
  rfl

/-- BRK strikes those of its lanes whose launch has a handler (R169). -/
theorem exec_brk (ready : Ready s g (.brk gd imm)) :
    exec (.brk gd imm) s = conclude (({ s with fresh := s.fresh + 1 } : State).strikeAll
      ((running s g gd).filter fun l => ((s.launchOf? l.wg).map fun k => k.rcd.handler != 0).getD false)
      (softTrap 17 imm)) := by
  change execBrk gd imm s = _
  unfold execBrk
  rw [issue_of_ready ready]
  rfl

theorem exec_brk_of_handler (one : One s g (.brk gd imm) gd l) (hd : mayTrap s l v h p) :
    exec (.brk gd imm) s = conclude (({ s with fresh := s.fresh + 1 } : State).strikeAll [l] (softTrap 17 imm)) := by
  obtain ⟨⟨k, launch, handler⟩, pos, -⟩ := hd
  have has : ((s.launchOf? l.wg).map fun k => k.rcd.handler != 0).getD false = true := by
    rw [show s.launchOf? l.wg = some k from launch, Option.map_some, Option.getD_some, handler, bne_iff_ne]
    exact pos.ne'
  rw [exec_brk one.toReady, one.only, List.filter_cons, if_pos has, List.filter_nil]

/-- Where no launch has a handler, BRK falls through (R169). -/
theorem exec_brk_of_none (ready : Ready s g (.brk gd imm))
    (none : ∀ l ∈ g.lanes, ∀ k, s.launchOf? l.wg = some k → k.rcd.handler = 0) :
    exec (.brk gd imm) s = .next { s with fresh := s.fresh + 1 } := by
  have idle : (running s g gd).filter
      (fun l => ((s.launchOf? l.wg).map fun k => k.rcd.handler != 0).getD false) = [] := by
    refine List.filter_eq_nil_iff.2 fun l hl => ?_
    cases launch : s.launchOf? l.wg with
    | none => exact Bool.false_ne_true
    | some k =>
      rw [Option.map_some, Option.getD_some, none l (mem_lanes_of_runs (mem_running.1 hl)) k launch]
      exact Bool.false_ne_true
  rw [exec_brk ready, idle, State.strikeAll_nil]
  exact (conclude_eq_next _ _).2 ⟨ready.halt, rfl⟩

end

/-- Settles O8: the struck lane enters its handler; a BRK without a handler strikes no lane. -/
theorem softwareTraps : Obligations.SoftwareTraps := by
  refine ⟨?_, ?_⟩
  · rintro i gd imm cause s g l s1 h p (⟨rfl, rfl⟩ | ⟨rfl, rfl⟩) one hd
    · exact softTrap_next one hd 16 (exec_trap one)
    · exact softTrap_next one hd 17 (exec_brk_of_handler one hd)
  · intro gd imm s g ready none _
    exact exec_brk_of_none ready none

end Sys2Proof.Machine
end

