-- ==== Sys2Proof/Proofs/FloatWords.lean ====
section
/-! FP32 arithmetic and comparison (R137, R139 to R141): the model's numbers agree with the formulas on words. -/

namespace Sys2Proof.Machine

open Sys2Proof.Spec

/-! Rounded results (R95, R104 to R108). -/

theorem negZero_eq_zeroNeg (m : Rnd) : negZero m = m.zeroNeg := by cases m <;> rfl

theorem drawn_eq_draw (m : Rnd) (t : Thread) : drawn m t = t.draw m := by cases m <;> rfl

theorem rounded_eq_roundResult (f : Fmt) (m : Rnd) (rand : Nat) (ins : List Num) (x : Num) :
    rounded f m rand ins x = roundResult f m rand (ins.any Num.isNan) x := by
  cases x with
  | nan => rfl
  | inf neg => rfl
  | fin neg n d e => rfl

theorem raise_put (e : Env) (t : Thread) (d : Opnd) (v : Nat × Nat) :
    (e.put t d (BitVec.ofNat 32 v.1)).raise v.2 = putFlags e t d v := rfl

/-- The result of an operation on FP32 values (R139). -/
theorem fop_eq (e : Env) (t : Thread) (m : Rnd) (d : Opnd) (ins : List Num) (x : Num) :
    fop e t m d ins x = (e.put (t.draw m).2 d (BitVec.ofNat 32
      (roundResult .f32 m (t.draw m).1 (ins.any Num.isNan) x).1)).raise
        (roundResult .f32 m (t.draw m).1 (ins.any Num.isNan) x).2 := by
  unfold fop
  dsimp only
  rw [drawn_eq_draw, rounded_eq_roundResult]
  rfl

/-! The sign and the magnitude of a word (R93). -/

/-- The magnitude of an FP32 word. -/
theorem toNat_magnitude (a : Word) : (a &&& 0x7FFFFFFF#32).toNat = a.toNat % 2 ^ 31 :=
  Nat.and_two_pow_sub_one_eq_mod a.toNat 31

/-- The sign of an FP32 word. -/
theorem getLsbD_sign (a : Word) : a.getLsbD 31 = (a.toNat / 2 ^ 31 % 2 == 1) :=
  (bit_eq_testBit a.toNat 31).symm

theorem isNan32_toNat (a : Word) : isNan32 a.toNat = isNanWord a := by
  unfold isNan32 isNanWord
  rw [toNat_magnitude]

/-- The order of FP32 values, the zeros equal (R137). -/
theorem ord32_toNat (a : Word) : ord32 a.toNat = floatKey a := by
  have lt := a.isLt
  unfold ord32 floatKey
  rw [toNat_magnitude, getLsbD_sign]
  simp only [beq_iff_eq]
  split
  · rfl
  · omega

/-- The order with -0 below +0 (R140). -/
theorem ordTotal32_toNat (a : Word) : ordTotal32 a.toNat = floatKey a - if a.getLsbD 31 then 1 else 0 := by
  rw [← ord32_toNat, getLsbD_sign]
  unfold ordTotal32 ord32
  simp only [beq_iff_eq]
  split <;> omega

/-- Words of one key and one sign are one word. -/
theorem eq_of_floatKey_eq {a b : Word} (key : floatKey a = floatKey b) (sign : a.getLsbD 31 = b.getLsbD 31) : a = b := by
  have lta := a.isLt
  have ltb := b.isLt
  rw [← ord32_toNat, ← ord32_toNat] at key
  rw [getLsbD_sign, getLsbD_sign, Bool.eq_iff_iff, beq_iff_eq, beq_iff_eq] at sign
  unfold ord32 at key
  dsimp only at key
  refine BitVec.eq_of_toNat_eq ?_
  split at key <;> split at key <;> omega

theorem floatKey_nonpos_of_sign {a : Word} (neg : a.getLsbD 31 = true) : floatKey a ≤ 0 := by
  unfold floatKey
  rw [if_pos neg]
  omega

theorem floatKey_nonneg_of_sign {a : Word} (pos : a.getLsbD 31 = false) : 0 ≤ floatKey a := by
  unfold floatKey
  rw [pos, if_neg Bool.false_ne_true]
  omega

/-- The order with -0 below +0 compares keys, then signs (R140). -/
theorem ordTotal32_le_iff (a b : Word) : ordTotal32 a.toNat ≤ ordTotal32 b.toNat ↔
    floatKey a < floatKey b ∨ floatKey a = floatKey b ∧ (b.getLsbD 31 = true → a.getLsbD 31 = true) := by
  rw [ordTotal32_toNat, ordTotal32_toNat]
  cases ha : a.getLsbD 31 <;> cases hb : b.getLsbD 31
  · simp
    omega
  · have := floatKey_nonneg_of_sign ha
    have := floatKey_nonpos_of_sign hb
    simp
  · have := floatKey_nonpos_of_sign ha
    have := floatKey_nonneg_of_sign hb
    simp
    omega
  · simp
    omega

/-! Minimum, maximum, comparison and class (R137, R140, R141). -/

theorem ofNat_ite (p : Prop) [Decidable p] (a b : Word) : BitVec.ofNat 32 (if p then a.toNat else b.toNat) = if p then a else b := by
  split <;> rw [BitVec.ofNat_toNat, BitVec.setWidth_eq]

theorem ofNat_fmin32 (a b : Word) : BitVec.ofNat 32 (fmin32 a.toNat b.toNat) = floatLeast a b := by
  unfold fmin32 floatLeast
  rw [isNan32_toNat, isNan32_toNat]
  cases isNanWord a <;> cases isNanWord b
  · simp only [Bool.false_and, Bool.false_eq_true, if_false, ofNat_ite, ordTotal32_le_iff]
    rcases lt_trichotomy (floatKey a) (floatKey b) with lt | eq | gt
    · rw [if_pos (.inl lt), if_pos lt]
    · rw [if_neg (by omega : ¬ floatKey a < floatKey b), if_neg (by omega : ¬ floatKey b < floatKey a)]
      cases ha : a.getLsbD 31 <;> cases hb : b.getLsbD 31
      · simp only [eq_of_floatKey_eq eq (ha.trans hb.symm), ite_self]
      · simp [eq]
      · simp [eq]
      · simp [eq]
    · rw [if_neg (by omega), if_neg (by omega), if_pos gt]
  · simp only [Bool.false_and, Bool.false_eq_true, if_false, if_true]
    rw [BitVec.ofNat_toNat, BitVec.setWidth_eq]
  · simp only [Bool.and_false, Bool.false_eq_true, if_false, if_true]
    rw [BitVec.ofNat_toNat, BitVec.setWidth_eq]
  · rfl

theorem ofNat_fmax32 (a b : Word) : BitVec.ofNat 32 (fmax32 a.toNat b.toNat) = floatMost a b := by
  unfold fmax32 floatMost
  rw [isNan32_toNat, isNan32_toNat]
  cases isNanWord a <;> cases isNanWord b
  · simp only [Bool.false_and, Bool.false_eq_true, if_false, ofNat_ite, ordTotal32_le_iff]
    rcases lt_trichotomy (floatKey a) (floatKey b) with lt | eq | gt
    · rw [if_neg (by omega), if_pos lt]
    · rw [if_neg (by omega : ¬ floatKey a < floatKey b), if_neg (by omega : ¬ floatKey b < floatKey a)]
      cases ha : a.getLsbD 31 <;> cases hb : b.getLsbD 31
      · simp [eq]
      · simp [eq]
      · simp [eq]
      · simp only [eq_of_floatKey_eq eq (ha.trans hb.symm), ite_self]
    · rw [if_pos (.inl gt), if_neg (by omega), if_pos gt]
  · simp only [Bool.false_and, Bool.false_eq_true, if_false, if_true]
    rw [BitVec.ofNat_toNat, BitVec.setWidth_eq]
  · simp only [Bool.and_false, Bool.false_eq_true, if_false, if_true]
    rw [BitVec.ofNat_toNat, BitVec.setWidth_eq]
  · rfl

theorem fcmpF_toNat (c : Cond) (a b : Word) : fcmpF c a.toNat b.toNat = holdsFloat c a b := by
  unfold fcmpF holdsFloat
  rw [isNan32_toNat, isNan32_toNat, ord32_toNat, ord32_toNat]
  cases isNanWord a || isNanWord b <;> cases c <;> rfl

theorem ofNat_fclassBit (a : Word) : BitVec.ofNat 32 (2 ^ fclassBit a.toNat) = 1#32 <<< classBit a := by
  have same : fclassBit a.toNat = classBit a := by
    unfold fclassBit classBit
    rw [toNat_magnitude, getLsbD_sign]
    simp only [← Nat.pos_iff_ne_zero]
    rfl
  rw [same]
  refine BitVec.eq_of_toNat_eq ?_
  rw [BitVec.toNat_ofNat, BitVec.toNat_shiftLeft, Nat.shiftLeft_eq]
  exact congrArg (· % 2 ^ 32) (Nat.one_mul _).symm

/-! The instructions. -/

section
variable {s : State} {g : Group} {x : Effect}

/-- FADD, FSUB and FMUL round one exact result of two values (R139). -/
theorem fbinOp_next {i : Instr} {gd : Guard} {m : Rnd} {d a b : Opnd} {f : Num → Num → Num}
    (hx : alone gd [d, a, b] (fun e t =>
      fop e t m d [fval e t a, fval e t b] (f (fval e t a) (fval e t b))) = some x)
    (h : Ready s g i) (agree : pairsAgree s g x) (run : exec i s = fbinOp i gd m d a b s f) :
    exec i s = .next (x.result s g) := by
  obtain rfl := Option.some.inj hx
  refine lanewise_next h agree rfl run fun _ _ _ _ _ => ?_
  dsimp only
  rw [fop_eq, List.any_cons, List.any_cons, List.any_nil, Bool.or_false]
  rfl

/-- FADD (R139). -/
theorem fadd_next {gd : Guard} {m : Rnd} {d a b : Opnd} (hx : float (.fadd gd m d a b) = some x)
    (h : Ready s g (.fadd gd m d a b)) (agree : pairsAgree s g x) : exec (.fadd gd m d a b) s = .next (x.result s g) :=
  fbinOp_next (f := Num.add (negZero m)) hx h agree (by rw [negZero_eq_zeroNeg]; rfl)

/-- FSUB (R139). -/
theorem fsub_next {gd : Guard} {m : Rnd} {d a b : Opnd} (hx : float (.fsub gd m d a b) = some x)
    (h : Ready s g (.fsub gd m d a b)) (agree : pairsAgree s g x) : exec (.fsub gd m d a b) s = .next (x.result s g) :=
  fbinOp_next (f := fun x y => Num.add (negZero m) x y.negate) hx h agree (by rw [negZero_eq_zeroNeg]; rfl)

/-- FMUL (R139). -/
theorem fmul_next {gd : Guard} {m : Rnd} {d a b : Opnd} (hx : float (.fmul gd m d a b) = some x)
    (h : Ready s g (.fmul gd m d a b)) (agree : pairsAgree s g x) : exec (.fmul gd m d a b) s = .next (x.result s g) :=
  fbinOp_next (f := Num.mul) hx h agree rfl

/-- FFMA rounds once (R116, R139). -/
theorem ffma_next {gd : Guard} {m : Rnd} {d a b c : Opnd} (hx : float (.ffma gd m d a b c) = some x)
    (h : Ready s g (.ffma gd m d a b c)) (agree : pairsAgree s g x) :
    exec (.ffma gd m d a b c) s = .next (x.result s g) := by
  obtain rfl := Option.some.inj hx
  refine lanewise_next h agree rfl rfl fun _ _ _ _ _ => ?_
  dsimp only
  rw [fop_eq, negZero_eq_zeroNeg, List.any_cons, List.any_cons, List.any_cons, List.any_nil, Bool.or_false, ← Bool.or_assoc]
  rfl

/-- FMIN (R140). -/
theorem fmin_next {gd : Guard} {d a b : Opnd} (hx : float (.fmin gd d a b) = some x)
    (h : Ready s g (.fmin gd d a b)) (agree : pairsAgree s g x) : exec (.fmin gd d a b) s = .next (x.result s g) := by
  obtain rfl := Option.some.inj hx
  exact lanewise_next h agree rfl rfl fun _ _ _ _ _ => by rw [ofNat_fmin32]

/-- FMAX (R140). -/
theorem fmax_next {gd : Guard} {d a b : Opnd} (hx : float (.fmax gd d a b) = some x)
    (h : Ready s g (.fmax gd d a b)) (agree : pairsAgree s g x) : exec (.fmax gd d a b) s = .next (x.result s g) := by
  obtain rfl := Option.some.inj hx
  exact lanewise_next h agree rfl rfl fun _ _ _ _ _ => by rw [ofNat_fmax32]

/-- FCMP (R137). -/
theorem fcmp_next {gd : Guard} {c : Cond} {n : BitVec 3} {a b : Opnd} (hx : float (.fcmp gd c n a b) = some x)
    (h : Ready s g (.fcmp gd c n a b)) (agree : pairsAgree s g x) :
    exec (.fcmp gd c n a b) s = .next (x.result s g) := by
  obtain rfl := Option.some.inj hx
  exact lanewise_next h agree rfl rfl fun _ _ _ _ _ => by rw [fcmpF_toNat, setPred_eq_putPred]

/-- FCLASS (R141). -/
theorem fclass_next {gd : Guard} {d a : Opnd} (hx : float (.fclass gd d a) = some x)
    (h : Ready s g (.fclass gd d a)) (agree : pairsAgree s g x) : exec (.fclass gd d a) s = .next (x.result s g) := by
  obtain rfl := Option.some.inj hx
  exact lanewise_next h agree rfl rfl fun _ _ _ _ _ => by rw [ofNat_fclassBit]

end

/-- Settles O24: each lane computes alone, and the model's rounding, order and classes are those of the formulas. -/
theorem floatArithmetic : Obligations.FloatArithmetic := by
  unfold Obligations.FloatArithmetic
  intro i x s g hx _ h _ agree
  have table := hx
  unfold float at table
  split at table
  · exact fadd_next hx h agree
  · exact fsub_next hx h agree
  · exact fmul_next hx h agree
  · exact ffma_next hx h agree
  · exact fmin_next hx h agree
  · exact fmax_next hx h agree
  · exact fcmp_next hx h agree
  · exact fclass_next hx h agree
  · exact absurd table nofun

end Sys2Proof.Machine
end

