-- ==== Sys2Proof/Proofs/PackedWords.lean ====
section
/-! Packed 16-bit arithmetic and the narrow dot products (R142, R143). -/

namespace Sys2Proof.Machine

open Sys2Proof.Spec

/-! Elements of a register. -/

theorem toNat_extract {w : Nat} (a : BitVec w) (lo n : Nat) : (a.extractLsb' lo n).toNat = bits a.toNat lo n := by
  rw [BitVec.extractLsb'_toNat, Nat.shiftRight_eq_div_pow, bits]

theorem elem_eq_elemNum (ty : Ty) (w : Nat) (a : Word) (k : Nat) : elem ty w a k = elemNum (packFmt ty) w a.toNat k := by
  unfold elem elemNum
  rw [toNat_extract]
  rfl

/-- A packed pair, element 0 drawing first (R142). -/
theorem pairOp_eq (e : Env) (t : Thread) (ty : Ty) (m : Rnd) (d : Opnd) (ins : Nat → List Num) (v : Nat → Num) :
    pairOp e t ty m d ins v = packed2 e t ty m d (fun k => (ins k).any Num.isNan) v := by
  unfold pairOp packed2
  simp only [drawn_eq_draw, rounded_eq_roundResult]
  rfl

/-- A NaN among the factors of a sum of products. -/
theorem any_isNan_factors (ks : List Nat) (u v : Nat → Num) :
    (ks.flatMap fun k => [u k, v k]).any Num.isNan = ks.any fun k => (u k).isNan || (v k).isNan := by
  rw [List.any_flatMap]
  simp only [List.any_cons, List.any_nil, Bool.or_false]

/-- A sum of products, rounded once (R116, R143). -/
theorem dot_eq_dotOp (e : Env) (t : Thread) (ty : Ty) (m : Rnd) (d a b c : Opnd) (w n : Nat) :
    Spec.dot e t ty m d a b c w n = dotOp e t ty m d a b c w n := by
  unfold Spec.dot dotOp sumResult
  dsimp only
  rw [fop_eq, List.any_cons, any_isNan_factors, negZero_eq_zeroNeg]
  simp only [elem_eq_elemNum]
  rfl

/-! The instructions. -/

section
variable {s : State} {g : Group} {x : Effect}

/-- HADD2 (R142). -/
theorem hadd2_next {gd : Guard} {ty : Ty} {m : Rnd} {d a b : Opnd} (hx : packed (.hadd2 gd ty m d a b) = some x)
    (h : Ready s g (.hadd2 gd ty m d a b)) (agree : pairsAgree s g x) :
    exec (.hadd2 gd ty m d a b) s = .next (x.result s g) := by
  obtain rfl := Option.some.inj hx
  refine lanewise_next h agree rfl rfl fun _ _ _ _ _ => ?_
  simp only [pairOp_eq, List.any_cons, List.any_nil, Bool.or_false, elem_eq_elemNum, negZero_eq_zeroNeg]

/-- HMUL2 (R142). -/
theorem hmul2_next {gd : Guard} {ty : Ty} {m : Rnd} {d a b : Opnd} (hx : packed (.hmul2 gd ty m d a b) = some x)
    (h : Ready s g (.hmul2 gd ty m d a b)) (agree : pairsAgree s g x) :
    exec (.hmul2 gd ty m d a b) s = .next (x.result s g) := by
  obtain rfl := Option.some.inj hx
  refine lanewise_next h agree rfl rfl fun _ _ _ _ _ => ?_
  simp only [pairOp_eq, List.any_cons, List.any_nil, Bool.or_false, elem_eq_elemNum]

/-- HFMA2 (R142). -/
theorem hfma2_next {gd : Guard} {ty : Ty} {m : Rnd} {d a b c : Opnd} (hx : packed (.hfma2 gd ty m d a b c) = some x)
    (h : Ready s g (.hfma2 gd ty m d a b c)) (agree : pairsAgree s g x) :
    exec (.hfma2 gd ty m d a b c) s = .next (x.result s g) := by
  obtain rfl := Option.some.inj hx
  refine lanewise_next h agree rfl rfl fun _ _ _ _ _ => ?_
  simp only [pairOp_eq, List.any_cons, List.any_nil, Bool.or_false, Bool.or_assoc, elem_eq_elemNum, negZero_eq_zeroNeg]

/-- FDOT2 (R143). -/
theorem fdot2_next {gd : Guard} {ty : Ty} {m : Rnd} {d a b c : Opnd} (hx : packed (.fdot2 gd ty m d a b c) = some x)
    (h : Ready s g (.fdot2 gd ty m d a b c)) (agree : pairsAgree s g x) :
    exec (.fdot2 gd ty m d a b c) s = .next (x.result s g) := by
  obtain rfl := Option.some.inj hx
  exact lanewise_next h agree rfl rfl fun _ _ _ _ _ => (dot_eq_dotOp ..).symm

/-- FDOT4 (R143). -/
theorem fdot4_next {gd : Guard} {ty : Ty} {m : Rnd} {d a b c : Opnd} (hx : packed (.fdot4 gd ty m d a b c) = some x)
    (h : Ready s g (.fdot4 gd ty m d a b c)) (agree : pairsAgree s g x) :
    exec (.fdot4 gd ty m d a b c) s = .next (x.result s g) := by
  obtain rfl := Option.some.inj hx
  exact lanewise_next h agree rfl rfl fun _ _ _ _ _ => (dot_eq_dotOp ..).symm

end

/-- Settles O25: each lane computes alone, and the elements of a register are those that the model takes. -/
theorem packedArithmetic : Obligations.PackedArithmetic := by
  unfold Obligations.PackedArithmetic
  intro i x s g hx _ h _ agree
  have table := hx
  unfold packed at table
  split at table
  · exact hadd2_next hx h agree
  · exact hmul2_next hx h agree
  · exact hfma2_next hx h agree
  · exact fdot2_next hx h agree
  · exact fdot4_next hx h agree
  · exact absurd table nofun

end Sys2Proof.Machine
end

