-- ==== Sys2Proof/Proofs/Magnitudes.lean ====
section
/-! SUPPORT. The numbers of the formats and exact arithmetic (R93, R116): the patterns of a format stand in the order of
their magnitudes, and exact values are rational numbers. -/

namespace Sys2Proof.Machine

open Sys2Proof.Spec

/-! The magnitudes of a format. -/

/-- The exponent of the unit in the last place of the binade `k` above the lowest (R93). -/
def Fmt.unitExp (f : Fmt) (k : Nat) : ℤ := 1 - f.bias - f.frac + k

/-- A pattern counts units of its binade from the lowest, or from one implicit bit on. -/
structure Fmt.Splits (f : Fmt) (p k m : Nat) : Prop where
  eq : p = k * 2 ^ f.frac + m
  lt : m < 2 * 2 ^ f.frac
  normal : k = 0 ∨ 2 ^ f.frac ≤ m

/-- A pattern with the implicit bit: its binade above the lowest, and the units that it counts. -/
theorem Fmt.implicit_eq (f : Fmt) {p : Nat} (high : 2 ^ f.frac ≤ p) :
    p = (p / 2 ^ f.frac - 1) * 2 ^ f.frac + (2 ^ f.frac + p % 2 ^ f.frac) := by
  have div := Nat.div_add_mod p (2 ^ f.frac)
  have one : 1 ≤ p / 2 ^ f.frac := (Nat.one_le_div_iff (Nat.two_pow_pos _)).2 high
  have whole : (p / 2 ^ f.frac - 1 + 1) * 2 ^ f.frac = p / 2 ^ f.frac * 2 ^ f.frac := by
    rw [Nat.sub_add_cancel one]
  rw [Nat.add_mul, Nat.mul_comm (p / 2 ^ f.frac)] at whole
  omega

theorem Fmt.exists_splits (f : Fmt) (p : Nat) : ∃ k m, f.Splits p k m := by
  by_cases low : p < 2 ^ f.frac
  · exact ⟨0, p, by omega, by omega, .inl rfl⟩
  · have rem := Nat.mod_lt p (Nat.two_pow_pos f.frac)
    exact ⟨_, _, f.implicit_eq (Nat.le_of_not_lt low), by omega, .inr (by omega)⟩

/-- The magnitude of a pattern below the implicit bit. -/
theorem magnitude_of_lt {f : Fmt} {p : Nat} (low : p < 2 ^ f.frac) : magnitude f p = p * 2 ^ f.unitExp 0 := by
  have unit : (2 : ℚ) ^ (1 - (f.bias : ℤ) - f.frac) = 2 ^ (1 - (f.bias : ℤ)) / 2 ^ f.frac := by
    rw [zpow_sub₀ two_ne_zero _ (f.frac : ℤ), zpow_natCast]
  unfold magnitude Fmt.unitExp
  rw [if_pos low, Nat.cast_zero, add_zero, unit]
  ring

/-- The magnitude of a pattern with the implicit bit: `k` binades above the lowest, `r` units above the power. -/
theorem magnitude_of_normal (f : Fmt) (k : Nat) {r : Nat} (lt : r < 2 ^ f.frac) :
    magnitude f (k * 2 ^ f.frac + (2 ^ f.frac + r)) = (2 ^ f.frac + r : ℕ) * 2 ^ f.unitExp k := by
  have pos : 0 < 2 ^ f.frac := Nat.two_pow_pos _
  have whole : k * 2 ^ f.frac + (2 ^ f.frac + r) = r + 2 ^ f.frac * (k + 1) := by ring
  have quot : (k * 2 ^ f.frac + (2 ^ f.frac + r)) / 2 ^ f.frac = k + 1 := by
    rw [whole, Nat.add_mul_div_left _ _ pos, Nat.div_eq_of_lt lt, Nat.zero_add]
  have rem : (k * 2 ^ f.frac + (2 ^ f.frac + r)) % 2 ^ f.frac = r := by
    rw [whole, Nat.add_mul_mod_self_left, Nat.mod_eq_of_lt lt]
  unfold magnitude Fmt.unitExp
  rw [if_neg (by omega), quot, rem]
  have unit : (2 : ℚ) ^ (1 - (f.bias : ℤ) - f.frac + k) = 2 ^ (((k + 1 : ℕ) : ℤ) - f.bias) / 2 ^ f.frac := by
    rw [show (1 : ℤ) - f.bias - f.frac + k = ((k + 1 : ℕ) : ℤ) - f.bias - f.frac by push_cast; ring,
      zpow_sub₀ two_ne_zero _ (f.frac : ℤ), zpow_natCast]
  rw [unit]
  push_cast
  field_simp

theorem magnitude_of_splits {f : Fmt} {p k m : Nat} (h : f.Splits p k m) : magnitude f p = m * 2 ^ f.unitExp k := by
  obtain ⟨rfl, lt, normal⟩ := h
  by_cases low : m < 2 ^ f.frac
  · obtain rfl : k = 0 := normal.resolve_right (by omega)
    rw [Nat.zero_mul, Nat.zero_add, magnitude_of_lt low]
  · obtain ⟨r, rfl⟩ := Nat.exists_eq_add_of_le (Nat.le_of_not_lt low)
    exact magnitude_of_normal f k (by omega)

theorem Fmt.unitExp_succ (f : Fmt) (k : Nat) : (2 : ℚ) ^ f.unitExp (k + 1) = 2 * 2 ^ f.unitExp k := by
  unfold Fmt.unitExp
  rw [show (1 : ℤ) - f.bias - f.frac + ((k + 1 : ℕ) : ℤ) = 1 - f.bias - f.frac + k + 1 by push_cast; ring,
    zpow_add_one₀ two_ne_zero, mul_comm]

/-- The next pattern is one unit further. -/
theorem magnitude_succ_of_splits {f : Fmt} {p k m : Nat} (h : f.Splits p k m) :
    magnitude f (p + 1) = (m + 1 : ℕ) * 2 ^ f.unitExp k := by
  obtain ⟨rfl, lt, normal⟩ := h
  have pos : 0 < 2 ^ f.frac := Nat.two_pow_pos _
  by_cases last : m + 1 < 2 * 2 ^ f.frac
  · exact magnitude_of_splits (m := m + 1) ⟨by ring, last, normal.imp_right (by omega)⟩
  · have top : m + 1 = 2 * 2 ^ f.frac := by omega
    have next : f.Splits (k * 2 ^ f.frac + m + 1) (k + 1) (2 ^ f.frac) := ⟨by rw [Nat.add_mul]; omega, by omega, .inr le_rfl⟩
    rw [magnitude_of_splits next, top, Fmt.unitExp_succ]
    push_cast
    ring

theorem unit_pos (f : Fmt) (k : Nat) : (0 : ℚ) < 2 ^ f.unitExp k := zpow_pos two_pos _

/-- Patterns stand in the order of their magnitudes (R93). -/
theorem magnitude_strictMono (f : Fmt) : StrictMono (magnitude f) := by
  refine strictMono_nat_of_lt_succ fun p => ?_
  obtain ⟨k, m, split⟩ := f.exists_splits p
  rw [magnitude_of_splits split, magnitude_succ_of_splits split]
  exact mul_lt_mul_of_pos_right (by exact_mod_cast Nat.lt_succ_self m) (unit_pos f k)

theorem magnitude_zero (f : Fmt) : magnitude f 0 = 0 := by
  rw [magnitude_of_lt (Nat.two_pow_pos _), Nat.cast_zero, zero_mul]

theorem magnitude_pos {f : Fmt} {p : Nat} (pos : 0 < p) : 0 < magnitude f p :=
  magnitude_zero f ▸ magnitude_strictMono f pos

/-- The smallest normal number (R93). -/
theorem magnitude_smallest (f : Fmt) : magnitude f (2 ^ f.frac) = 2 ^ (1 - (f.bias : ℤ)) := by
  have split : f.Splits (2 ^ f.frac) 0 (2 ^ f.frac) := ⟨by ring, by have := Nat.two_pow_pos f.frac; omega, .inl rfl⟩
  rw [magnitude_of_splits split, Fmt.unitExp, Nat.cast_zero, add_zero, zpow_sub₀ two_ne_zero, zpow_natCast]
  push_cast
  field_simp

/-! The formats of R93. -/

/-- What the formats of R93 have in common. -/
structure Fmt.Sound (f : Fmt) : Prop where
  frac : 0 < f.frac
  normal : 2 ^ f.frac ≤ f.maxBits
  nan : f.maxBits < f.firstNan
  sign : f.maxBits < 2 ^ f.sign
  inf : ∀ i, f.inf = some i → f.maxBits < i ∧ i < f.firstNan

theorem sound_of_mem {f : Fmt} (h : f ∈ formats) : f.Sound := by
  unfold formats at h
  simp only [List.mem_cons, List.not_mem_nil, or_false] at h
  rcases h with rfl | rfl | rfl | rfl | rfl | rfl | rfl
  all_goals refine ⟨by decide, by decide, by decide, by decide, ?_⟩
  all_goals
    intro i hi
    cases hi <;> decide

/-! Exact values as rational numbers (R93, R116). -/

theorem valueOf_fin (neg : Bool) (n d : Nat) (e : Int) :
    valueOf (.fin neg n d e) = some ((if neg then -1 else 1) * ((n : ℚ) / d * 2 ^ e)) := rfl

section
variable {f : Fmt} {w : Nat}

/-- The value of a pattern, by its sign and its magnitude (R93). -/
theorem ofBits_eq (lt : w < 2 ^ (f.sign + 1)) : Num.ofBits f w =
    if f.firstNan ≤ w % 2 ^ f.sign then .nan
    else if f.inf = some (w % 2 ^ f.sign) then .inf (decide (2 ^ f.sign ≤ w))
    else if w % 2 ^ f.sign < 2 ^ f.frac then .fin (decide (2 ^ f.sign ≤ w)) (w % 2 ^ f.sign) 1 (f.unitExp 0)
    else .fin (decide (2 ^ f.sign ≤ w)) (2 ^ f.frac + w % 2 ^ f.sign % 2 ^ f.frac) 1
      (f.unitExp (w % 2 ^ f.sign / 2 ^ f.frac - 1)) := by
  have pos : 0 < 2 ^ f.frac := Nat.two_pow_pos _
  have two : 2 ^ (f.sign + 1) = 2 * 2 ^ f.sign := by rw [pow_succ, mul_comm]
  have sign : (w / 2 ^ f.sign == 1) = decide (2 ^ f.sign ≤ w) := by
    rw [Bool.eq_iff_iff, beq_iff_eq, decide_eq_true_eq]
    have high : w / 2 ^ f.sign < 2 := Nat.div_lt_of_lt_mul (by omega)
    rw [← Nat.one_le_div_iff (Nat.two_pow_pos f.sign)]
    omega
  unfold Num.ofBits
  simp only [Nat.mod_eq_of_lt lt, sign, beq_iff_eq]
  refine if_congr Iff.rfl rfl (if_congr Iff.rfl rfl ?_)
  by_cases low : w % 2 ^ f.sign < 2 ^ f.frac
  · rw [if_pos low, Nat.div_eq_of_lt low, if_pos rfl, Nat.mod_eq_of_lt low]
    unfold Fmt.unitExp
    rw [Nat.cast_zero, add_zero]
  · have high : 1 ≤ w % 2 ^ f.sign / 2 ^ f.frac := (Nat.one_le_div_iff pos).2 (by omega)
    rw [if_neg low, if_neg (by omega)]
    unfold Fmt.unitExp
    rw [Nat.cast_sub high]
    congr 1
    push_cast
    ring

theorem ofBits_nan (lt : w < 2 ^ (f.sign + 1)) (nan : f.firstNan ≤ w % 2 ^ f.sign) : Num.ofBits f w = .nan := by
  rw [ofBits_eq lt, if_pos nan]

theorem ofBits_inf (sound : f.Sound) (lt : w < 2 ^ (f.sign + 1)) (inf : f.inf = some (w % 2 ^ f.sign)) :
    Num.ofBits f w = .inf (decide (2 ^ f.sign ≤ w)) := by
  have := (sound.inf _ inf).2
  rw [ofBits_eq lt, if_neg (by omega), if_pos inf]

/-- A finite pattern counts units of its binade (R93). -/
theorem ofBits_fin (sound : f.Sound) (lt : w < 2 ^ (f.sign + 1)) (fin : w % 2 ^ f.sign ≤ f.maxBits) :
    ∃ k m, f.Splits (w % 2 ^ f.sign) k m ∧ Num.ofBits f w = .fin (decide (2 ^ f.sign ≤ w)) m 1 (f.unitExp k) := by
  have nan := sound.nan
  have inf : f.inf ≠ some (w % 2 ^ f.sign) := fun h => by
    have := (sound.inf _ h).1
    omega
  have pos : 0 < 2 ^ f.frac := Nat.two_pow_pos _
  rw [ofBits_eq lt, if_neg (by omega), if_neg inf]
  by_cases low : w % 2 ^ f.sign < 2 ^ f.frac
  · rw [if_pos low]
    exact ⟨_, _, ⟨by omega, by omega, .inl rfl⟩, rfl⟩
  · rw [if_neg low]
    have rem := Nat.mod_lt (w % 2 ^ f.sign) pos
    exact ⟨_, _, ⟨Fmt.implicit_eq f (Nat.le_of_not_lt low), by omega, .inr (by omega)⟩, rfl⟩

end

/-! Sums and products (R116). -/

/-- A scaled numerator (R116). -/
theorem scaledInt_eq (neg : Bool) (n : Nat) {e lo : Int} (le : lo ≤ e) :
    (scaledInt neg n e lo : ℚ) = (if neg then -1 else 1) * ((n : ℚ) * 2 ^ (e - lo)) := by
  have pow : ((2 ^ (e - lo).toNat : ℕ) : ℚ) = 2 ^ (e - lo) := by
    rw [Nat.cast_pow, ← zpow_natCast, Int.toNat_of_nonneg (by omega)]
    rfl
  unfold scaledInt
  cases neg
  · simp only [Bool.false_eq_true, if_false, one_mul]
    rw [Int.cast_natCast, Nat.cast_mul, pow]
  · simp only [if_true]
    rw [Int.cast_neg, Int.cast_natCast, Nat.cast_mul, pow, neg_one_mul]

/-- An integer over a denominator as an exact value. -/
theorem valueOf_int (x : Int) (d : Nat) (e : Int) :
    valueOf (.fin (x < 0) x.natAbs d e) = some ((x : ℚ) / d * 2 ^ e) := by
  have abs : (x.natAbs : ℚ) = |(x : ℚ)| := by rw [Nat.cast_natAbs, Int.cast_abs]
  rw [valueOf_fin, abs]
  by_cases neg : x < 0
  · have : (x : ℚ) < 0 := by exact_mod_cast neg
    rw [decide_eq_true neg, if_pos rfl, abs_of_neg this]
    ring_nf
  · have : (0 : ℚ) ≤ x := by exact_mod_cast Int.not_lt.1 neg
    rw [decide_eq_false neg, if_neg Bool.false_ne_true, abs_of_nonneg this, one_mul]

theorem proper_finAdd {z s t : Bool} {n d m d' : Nat} {e e' : Int} (hd : 0 < d) (hd' : 0 < d') :
    proper (finAdd z s n d e t m d' e') := by
  unfold finAdd
  dsimp only
  split
  · exact Nat.one_pos
  · exact Nat.mul_pos hd hd'

/-- The sum of finite values (R116). -/
theorem valueOf_finAdd {z s t : Bool} {n d m d' : Nat} {e e' : Int} (hd : 0 < d) (hd' : 0 < d') :
    valueOf (finAdd z s n d e t m d' e') =
      some ((if s then -1 else 1) * ((n : ℚ) / d * 2 ^ e) + (if t then -1 else 1) * ((m : ℚ) / d' * 2 ^ e')) := by
  have nz : (d : ℚ) ≠ 0 := by exact_mod_cast hd.ne'
  have nz' : (d' : ℚ) ≠ 0 := by exact_mod_cast hd'.ne'
  have low (k : Int) : (2 : ℚ) ^ k = 2 ^ (k - min e e') * 2 ^ min e e' := by
    rw [← zpow_add₀ two_ne_zero, sub_add_cancel]
  have sum : ((scaledInt s (n * d') e (min e e') + scaledInt t (m * d) e' (min e e') : ℤ) : ℚ) / ((d * d' : ℕ) : ℚ) *
        2 ^ min e e' =
      (if s then -1 else 1) * ((n : ℚ) / d * 2 ^ e) + (if t then -1 else 1) * ((m : ℚ) / d' * 2 ^ e') := by
    rw [Int.cast_add, scaledInt_eq _ _ (min_le_left e e'), scaledInt_eq _ _ (min_le_right e e'), low e, low e']
    push_cast
    field_simp
  unfold finAdd
  dsimp only
  split
  next zero =>
    rw [zero, Int.cast_zero, zero_div, zero_mul] at sum
    rw [← sum, valueOf_fin, Nat.cast_zero, zero_div, zero_mul, mul_zero]
  next => rw [← sum, valueOf_int]

section
variable {x y : Num} {a b : ℚ}

/-- A finite exact value. -/
theorem exists_fin_of_valueOf (h : valueOf x = some a) : ∃ neg n d e, x = .fin neg n d e := by
  cases x with
  | fin neg n d e => exact ⟨neg, n, d, e, rfl⟩
  | _ => cases h

theorem valueOf_add (z : Bool) (hx : proper x) (hy : proper y) (ha : valueOf x = some a) (hb : valueOf y = some b) :
    valueOf (Num.add z x y) = some (a + b) ∧ proper (Num.add z x y) := by
  obtain ⟨s, n, d, e, rfl⟩ := exists_fin_of_valueOf ha
  obtain ⟨t, m, d', e', rfl⟩ := exists_fin_of_valueOf hb
  obtain rfl := Option.some.inj ha
  obtain rfl := Option.some.inj hb
  exact ⟨valueOf_finAdd hx hy, proper_finAdd hx hy⟩

theorem valueOf_mul (hx : proper x) (hy : proper y) (ha : valueOf x = some a) (hb : valueOf y = some b) :
    valueOf (x.mul y) = some (a * b) ∧ proper (x.mul y) ∧ (x.mul y).negative = (x.negative ^^ y.negative) := by
  obtain ⟨s, n, d, e, rfl⟩ := exists_fin_of_valueOf ha
  obtain ⟨t, m, d', e', rfl⟩ := exists_fin_of_valueOf hb
  obtain rfl := Option.some.inj ha
  obtain rfl := Option.some.inj hb
  refine ⟨?_, Nat.mul_pos hx hy, rfl⟩
  change valueOf (.fin (s != t) (n * m) (d * d') (e + e')) = _
  rw [valueOf_fin, zpow_add₀ two_ne_zero]
  push_cast
  cases s <;> cases t <;> simp <;> ring

/-- A sum that is folded up from a term. -/
theorem valueOf_foldl_add (z : Bool) (xs : List Num) (as : List ℚ) (proper_xs : ∀ y ∈ xs, proper y)
    (values : xs.map valueOf = as.map some) (hx : proper x) (ha : valueOf x = some a) :
    valueOf (xs.foldl (Num.add z) x) = some (a + as.sum) := by
  induction xs generalizing x a as with
  | nil =>
    obtain rfl := List.map_eq_nil_iff.1 values.symm
    rw [List.sum_nil, add_zero]
    exact ha
  | cons y r ih =>
    obtain ⟨b, bs, rfl, hb, rest⟩ := List.map_eq_cons_iff.1 values.symm
    obtain ⟨sum, ok⟩ := valueOf_add z hx (proper_xs y List.mem_cons_self) ha hb.symm
    rw [List.foldl_cons, ih bs (fun w hw => proper_xs w (List.mem_cons_of_mem y hw)) rest.symm ok sum, List.sum_cons, add_assoc]

/-- The sum of a list (R116): the sign of a zero is no part of its value. -/
theorem valueOf_sum (z : Bool) (xs : List Num) (as : List ℚ) (proper_xs : ∀ y ∈ xs, proper y)
    (values : xs.map valueOf = as.map some) : valueOf (Num.sum z xs) = some as.sum := by
  have zero (neg : Bool) : valueOf (.fin neg 0 1 0) = some 0 := by
    rw [valueOf_fin, Nat.cast_zero, zero_div, zero_mul, mul_zero]
  cases xs with
  | nil =>
    obtain rfl := List.map_eq_nil_iff.1 values.symm
    exact zero false
  | cons y r =>
    obtain ⟨b, bs, rfl, hb, rest⟩ := List.map_eq_cons_iff.1 values.symm
    have sum := valueOf_foldl_add z r bs (fun w hw => proper_xs w (List.mem_cons_of_mem y hw)) rest.symm
      (proper_xs y List.mem_cons_self) hb.symm
    obtain ⟨neg, n, d, e, total⟩ := exists_fin_of_valueOf sum
    unfold Num.sum
    dsimp only
    rw [total] at sum ⊢
    rw [List.sum_cons, ← sum]
    dsimp only
    split
    next none =>
      rw [valueOf_fin, none, Nat.cast_zero, zero_div, zero_mul, mul_zero]
      split
      · exact zero true
      · split
        · exact zero false
        · exact zero z
    next => rfl

end

end Sys2Proof.Machine
end

