-- ==== Sys2Proof/Proofs/Rounding.lean ====
section
/-! Rounding (R96, R97, R103 to R105, R107): the one rounding function takes the neighbour that its mode chooses. -/

namespace Sys2Proof.Machine

open Sys2Proof.Spec

/-! The leading bit of a quotient. -/

theorem bitLen_of_pos {n : Nat} (pos : 0 < n) : bitLen n = Nat.log2 n + 1 := if_neg pos.ne'

theorem two_zpow_log2_le {n : Nat} (pos : 0 < n) : (2 : ℚ) ^ (Nat.log2 n : ℤ) ≤ n := by
  rw [zpow_natCast]
  exact_mod_cast Nat.log2_self_le pos.ne'

theorem lt_two_zpow_log2 (n : Nat) : (n : ℚ) < 2 ^ ((Nat.log2 n : ℤ) + 1) := by
  rw [← Nat.cast_succ, zpow_natCast]
  exact_mod_cast Nat.lt_log2_self

theorem two_zpow_toNat {k : ℤ} (nonneg : 0 ≤ k) : ((2 ^ k.toNat : ℕ) : ℚ) = 2 ^ k := by
  rw [Nat.cast_pow, Nat.cast_two, ← zpow_natCast, Int.toNat_of_nonneg nonneg]

section
variable {n d : Nat}

/-- A quotient lies below the power after the difference of the lengths, and above the one before it. -/
theorem quotient_lt (n : Nat) (hd : 0 < d) : (n : ℚ) / d < 2 ^ ((Nat.log2 n : ℤ) - Nat.log2 d + 1) := by
  have pos : (0 : ℚ) < d := by exact_mod_cast hd
  have low := two_zpow_log2_le hd
  have whole : (2 : ℚ) ^ ((Nat.log2 n : ℤ) - Nat.log2 d + 1) * 2 ^ (Nat.log2 d : ℤ) = 2 ^ ((Nat.log2 n : ℤ) + 1) := by
    rw [← zpow_add₀ two_ne_zero]
    ring_nf
  rw [div_lt_iff₀ pos]
  calc (n : ℚ) < 2 ^ ((Nat.log2 n : ℤ) + 1) := lt_two_zpow_log2 n
    _ = 2 ^ ((Nat.log2 n : ℤ) - Nat.log2 d + 1) * 2 ^ (Nat.log2 d : ℤ) := whole.symm
    _ ≤ 2 ^ ((Nat.log2 n : ℤ) - Nat.log2 d + 1) * d := by gcongr

theorem lt_quotient (hn : 0 < n) (hd : 0 < d) : (2 : ℚ) ^ ((Nat.log2 n : ℤ) - Nat.log2 d - 1) < n / d := by
  have pos : (0 : ℚ) < d := by exact_mod_cast hd
  have whole : (2 : ℚ) ^ ((Nat.log2 n : ℤ) - Nat.log2 d - 1) * 2 ^ ((Nat.log2 d : ℤ) + 1) = 2 ^ (Nat.log2 n : ℤ) := by
    rw [← zpow_add₀ two_ne_zero]
    ring_nf
  rw [lt_div_iff₀ pos]
  calc (2 : ℚ) ^ ((Nat.log2 n : ℤ) - Nat.log2 d - 1) * d
      < 2 ^ ((Nat.log2 n : ℤ) - Nat.log2 d - 1) * 2 ^ ((Nat.log2 d : ℤ) + 1) := by
        gcongr
        exact lt_two_zpow_log2 d
    _ = 2 ^ (Nat.log2 n : ℤ) := whole
    _ ≤ n := two_zpow_log2_le hn

/-- Whether a power of two is at most a quotient, by whole numbers. -/
theorem two_zpow_le_quotient (hd : 0 < d) (k : ℤ) :
    (if 0 ≤ k then d * 2 ^ k.toNat ≤ n else d ≤ n * 2 ^ (-k).toNat) ↔ (2 : ℚ) ^ k ≤ n / d := by
  have pos : (0 : ℚ) < d := by exact_mod_cast hd
  rw [le_div_iff₀ pos]
  split
  next nonneg =>
    rw [← two_zpow_toNat nonneg, ← Nat.cast_mul, Nat.cast_le, mul_comm]
  next neg =>
    rw [← Nat.cast_le (α := ℚ), Nat.cast_mul, two_zpow_toNat (by omega), zpow_neg, ← div_eq_mul_inv,
      le_div_iff₀ (zpow_pos two_pos k), mul_comm]

/-- The exponent of the leading bit of a quotient. -/
theorem leadExp_spec (hn : 0 < n) (hd : 0 < d) :
    (2 : ℚ) ^ leadExp n d ≤ n / d ∧ (n : ℚ) / d < 2 ^ (leadExp n d + 1) := by
  have diff : (bitLen n : ℤ) - bitLen d = Nat.log2 n - Nat.log2 d := by
    rw [bitLen_of_pos hn, bitLen_of_pos hd]
    omega
  have big := two_zpow_le_quotient (n := n) hd ((Nat.log2 n : ℤ) - Nat.log2 d)
  unfold leadExp
  dsimp only
  rw [diff]
  by_cases le : (2 : ℚ) ^ ((Nat.log2 n : ℤ) - Nat.log2 d) ≤ n / d
  · rw [if_pos (big.2 le)]
    exact ⟨le, quotient_lt n hd⟩
  · rw [if_neg (mt big.1 le), sub_add_cancel]
    exact ⟨(lt_quotient hn hd).le, not_le.1 le⟩

/-- A quotient in units of a power of two. -/
theorem alignTo_spec (hd : 0 < d) (e q : Int) :
    0 < (alignTo n d e q).2 ∧ ((alignTo n d e q).1 : ℚ) / (alignTo n d e q).2 = n / d * 2 ^ (e - q) := by
  have nz : (d : ℚ) ≠ 0 := by exact_mod_cast hd.ne'
  unfold alignTo
  split
  next le =>
    refine ⟨hd, ?_⟩
    dsimp only
    rw [Nat.cast_mul, two_zpow_toNat (by omega), div_mul_eq_mul_div]
  next gt =>
    have unit : (2 : ℚ) ^ (e - q) * 2 ^ (q - e) = 1 := by
      rw [← zpow_add₀ two_ne_zero, sub_add_sub_cancel, sub_self, zpow_zero]
    refine ⟨Nat.mul_pos hd (Nat.two_pow_pos _), ?_⟩
    dsimp only
    rw [Nat.cast_mul, two_zpow_toNat (by omega), div_eq_iff (mul_ne_zero nz (zpow_pos two_pos _).ne')]
    calc (n : ℚ) = n / d * d * (2 ^ (e - q) * 2 ^ (q - e)) := by rw [unit, mul_one, div_mul_cancel₀ _ nz]
      _ = n / d * 2 ^ (e - q) * (d * 2 ^ (q - e)) := by ring

end

/-- A quotient is its whole part and the remainder in units of the divisor. -/
theorem quotient_eq (a : Nat) {b : Nat} (hb : 0 < b) : (a : ℚ) / b = (a / b : ℕ) + ((a % b : ℕ) : ℚ) / b := by
  have nz : (b : ℚ) ≠ 0 := by exact_mod_cast hb.ne'
  rw [div_eq_iff nz, add_mul, div_mul_cancel₀ _ nz]
  exact_mod_cast (Nat.div_add_mod' a b).symm

/-! The choice of a mode (R103, R107). -/

theorem remainder_bounds {r b : Nat} (lt : r < b) : (0 : ℚ) ≤ (r : ℚ) / b ∧ (r : ℚ) / b < 1 := by
  have pos : (0 : ℚ) < b := by exact_mod_cast (by omega : 0 < b)
  exact ⟨by positivity, (div_lt_one pos).2 (by exact_mod_cast lt)⟩

/-- A value at the neighbour below stays there. -/
theorem not_takesUpper_zero {mode : Rnd} {rand : Nat} {neg : Bool} {lo : Nat} (lt : rand < 2 ^ 32) :
    ¬takesUpper mode rand neg lo 0 := by
  cases mode with
  | rne => norm_num [takesUpper]
  | rz => exact id
  | ru => exact fun h => absurd h.1 (lt_irrefl 0)
  | rd => exact fun h => absurd h.1 (lt_irrefl 0)
  | rs =>
    have : ¬(2 : ℤ) ^ 32 ≤ rand := by exact_mod_cast Nat.not_le.2 lt
    simpa [takesUpper] using this

/-- The choice between the neighbours, by the remainder. -/
theorem roundsUp_iff {mode : Rnd} {rand : Nat} {neg : Bool} {lo r b : Nat} (lt : r < b) (hr : rand < 2 ^ 32) :
    roundsUp mode neg (lo % 2 == 1) r b rand = true ↔ takesUpper mode rand neg lo ((r : ℚ) / b) := by
  have pos : (0 : ℚ) < b := by exact_mod_cast (by omega : 0 < b)
  unfold roundsUp
  split
  next zero =>
    rw [zero, Nat.cast_zero, zero_div]
    exact iff_of_false Bool.false_ne_true (not_takesUpper_zero hr)
  next nz =>
    have up : (0 : ℚ) < (r : ℚ) / b := div_pos (by exact_mod_cast Nat.pos_of_ne_zero nz) pos
    cases mode with
    | rne =>
      have half : 1 / 2 < (r : ℚ) / b ↔ b < 2 * r := by
        rw [div_lt_div_iff₀ two_pos pos]
        norm_cast
        omega
      have tie : (r : ℚ) / b = 1 / 2 ↔ b = 2 * r := by
        rw [div_eq_div_iff pos.ne' two_ne_zero]
        norm_cast
        omega
      unfold takesUpper
      dsimp only
      rw [half, tie, Bool.or_eq_true, Bool.and_eq_true, decide_eq_true_eq, beq_iff_eq, beq_iff_eq]
    | rz => exact iff_of_false Bool.false_ne_true id
    | ru => exact (iff_of_eq (Bool.not_eq_true' neg)).trans (and_iff_right up).symm
    | rd => exact (and_iff_right up).symm
    | rs =>
      have floor : ⌊(r : ℚ) / b * 2 ^ 32⌋ = ((r * 2 ^ 32 / b : ℕ) : ℤ) := by
        rw [div_mul_eq_mul_div]
        exact_mod_cast Rat.floor_natCast_div_natCast (r * 2 ^ 32) b
      unfold takesUpper
      dsimp only
      rw [floor, decide_eq_true_eq]
      norm_cast

/-! The neighbours in a format (R104). -/

/-- The pattern that a mode chooses between `lo` and the next, for a value that lies `r / b` of the gap above `lo`. -/
def chosen (mode : Rnd) (rand : Nat) (neg : Bool) (lo r b : Nat) : Nat :=
  if roundsUp mode neg (lo % 2 == 1) r b rand then lo + 1 else lo

/-- The value that lies `r / b` of the gap above a pattern. -/
def between (f : Fmt) (lo r b : Nat) : ℚ := magnitude f lo + (r : ℚ) / b * (magnitude f (lo + 1) - magnitude f lo)

/-- The modes that do not round to a neighbour by its distance (R104). -/
def directed (mode : Rnd) : Bool := mode == .rz || mode == .ru || mode == .rd

/-- The result between two patterns with its status (R104, R105). -/
def roundedAt (f : Fmt) (mode : Rnd) (rand : Nat) (neg : Bool) (lo r b : Nat) : Nat × Nat :=
  let m := chosen mode rand neg lo r b
  if f.maxBits < m then (overflowBits f mode neg, flagOF ||| flagNX)
  else (m, (if r == 0 then 0 else flagNX) ||| (if decide (lo < 2 ^ f.frac) && !(r == 0) then flagUF else 0) |||
    (if decide (f.maxBits ≤ lo) && !(r == 0) && directed mode then flagOF else 0))

/-- The value of a positive number in units of the last place that its rounding counts, from the pattern below. -/
theorem between_of_splits {f : Fmt} {lo k m r b : Nat} (split : f.Splits lo k m) :
    between f lo r b = (m + (r : ℚ) / b) * 2 ^ f.unitExp k := by
  unfold between
  rw [magnitude_of_splits split, magnitude_succ_of_splits split]
  push_cast
  ring

/-- The rounding of a positive value takes it between two patterns (R104). -/
theorem roundMag_eq {f : Fmt} (frac : 0 < f.frac) (mode : Rnd) (rand : Nat) (neg : Bool) {n d : Nat} {e : Int} (hn : 0 < n)
    (hd : 0 < d) : ∃ lo r b, r < b ∧ (n : ℚ) / d * 2 ^ e = between f lo r b ∧
      roundMag f mode rand neg n d e = roundedAt f mode rand neg lo r b := by
  obtain ⟨low, high⟩ := leadExp_spec hn hd
  obtain ⟨k, hq⟩ : ∃ k : Nat, max (leadExp n d + e - f.frac) (1 - f.bias - f.frac) = f.unitExp k := by
    refine ⟨(max (leadExp n d + e - f.frac) (1 - f.bias - f.frac) - (1 - f.bias - f.frac)).toNat, ?_⟩
    unfold Fmt.unitExp
    rw [Int.toNat_of_nonneg (by omega)]
    ring
  obtain ⟨hb, align⟩ := alignTo_spec (n := n) hd e (f.unitExp k)
  unfold roundMag
  dsimp only
  rw [hq, show (f.unitExp k - (1 - f.bias - f.frac : ℤ)).toNat = k by unfold Fmt.unitExp; omega]
  generalize alignTo n d e (f.unitExp k) = ab at hb align ⊢
  obtain ⟨a, b⟩ := ab
  dsimp only at hb align ⊢
  have value : (n : ℚ) / d * 2 ^ e = ((a / b : ℕ) + ((a % b : ℕ) : ℚ) / b) * 2 ^ f.unitExp k := by
    rw [← quotient_eq a hb, align, mul_assoc, ← zpow_add₀ two_ne_zero, sub_add_cancel]
  obtain ⟨nonneg, below⟩ := remainder_bounds (Nat.mod_lt a hb)
  have whole : ((a / b : ℕ) : ℚ) ≤ a / b ∧ (a : ℚ) / b < (a / b : ℕ) + 1 := by
    rw [quotient_eq a hb]
    constructor <;> linarith
  have split : f.Splits (k * 2 ^ f.frac + a / b) k (a / b) := by
    refine ⟨rfl, ?_, ?_⟩
    · have top : leadExp n d + 1 + (e - f.unitExp k) ≤ f.frac + 1 := by omega
      have bound : ((a / b : ℕ) : ℚ) < 2 * 2 ^ f.frac := by
        calc ((a / b : ℕ) : ℚ) ≤ n / d * 2 ^ (e - f.unitExp k) := align ▸ whole.1
          _ < 2 ^ (leadExp n d + 1) * 2 ^ (e - f.unitExp k) := by gcongr
          _ = 2 ^ (leadExp n d + 1 + (e - f.unitExp k)) := (zpow_add₀ two_ne_zero _ _).symm
          _ ≤ 2 ^ ((f.frac : ℤ) + 1) := zpow_le_zpow_right₀ one_le_two top
          _ = 2 * 2 ^ f.frac := by rw [zpow_add_one₀ two_ne_zero, zpow_natCast, mul_comm]
      exact_mod_cast bound
    · refine or_iff_not_imp_left.2 fun nz => ?_
      have top : leadExp n d + (e - f.unitExp k) = f.frac := by
        unfold Fmt.unitExp at hq ⊢
        omega
      have bound : (2 ^ f.frac : ℚ) < (a / b : ℕ) + 1 := by
        calc (2 : ℚ) ^ f.frac = 2 ^ (f.frac : ℤ) := (zpow_natCast _ _).symm
          _ = 2 ^ leadExp n d * 2 ^ (e - f.unitExp k) := by rw [← zpow_add₀ two_ne_zero, top]
          _ ≤ n / d * 2 ^ (e - f.unitExp k) := by gcongr
          _ = a / b := align.symm
          _ < _ := whole.2
      exact Nat.lt_succ_iff.1 (by exact_mod_cast bound)
  have parity : (k * 2 ^ f.frac + a / b) % 2 = a / b % 2 := by
    obtain ⟨j, hj⟩ := Nat.exists_eq_add_of_lt frac
    have even : k * 2 ^ f.frac = 2 * (k * 2 ^ (f.frac - 1)) := by
      rw [show 2 ^ f.frac = 2 * 2 ^ (f.frac - 1) by rw [← pow_succ', Nat.sub_add_cancel frac]]
      ring
    omega
  have pick : k * 2 ^ f.frac + (if roundsUp mode neg (a / b % 2 == 1) (a % b) b rand = true then a / b + 1 else a / b) =
      chosen mode rand neg (k * 2 ^ f.frac + a / b) (a % b) b := by
    unfold chosen
    rw [parity]
    split <;> rfl
  refine ⟨k * 2 ^ f.frac + a / b, a % b, b, Nat.mod_lt a hb, by rw [value, between_of_splits split], ?_⟩
  rw [pick]
  rfl

section
variable {f : Fmt} {mode : Rnd} {rand : Nat} {neg : Bool} {lo r b : Nat}

theorem between_eq_iff (lt : r < b) : between f lo r b = magnitude f lo ↔ r = 0 := by
  have gap := magnitude_strictMono f (Nat.lt_succ_self lo)
  have nz : (b : ℚ) ≠ 0 := by exact_mod_cast (by omega : b ≠ 0)
  unfold between
  rw [add_eq_left, mul_eq_zero, or_iff_left (sub_pos.2 gap).ne', div_eq_zero_iff, or_iff_left nz, Nat.cast_eq_zero]

theorem le_between (lt : r < b) : magnitude f lo ≤ between f lo r b := by
  have gap := magnitude_strictMono f (Nat.lt_succ_self lo)
  exact le_add_of_nonneg_right (mul_nonneg (remainder_bounds lt).1 (sub_pos.2 gap).le)

theorem between_lt (lt : r < b) : between f lo r b < magnitude f (lo + 1) := by
  have gap := sub_pos.2 (magnitude_strictMono f (Nat.lt_succ_self lo))
  have := mul_lt_of_lt_one_left gap (remainder_bounds lt).2
  unfold between
  linarith

/-- The place of a value between two patterns. -/
theorem between_place : (r : ℚ) / b = (between f lo r b - magnitude f lo) / (magnitude f (lo + 1) - magnitude f lo) := by
  have gap := sub_pos.2 (magnitude_strictMono f (Nat.lt_succ_self lo))
  rw [eq_div_iff gap.ne']
  unfold between
  ring

/-- A value is below a pattern exactly if the pattern below it is. -/
theorem between_lt_iff (lt : r < b) (p : Nat) : between f lo r b < magnitude f p ↔ lo < p := by
  refine ⟨fun h => (magnitude_strictMono f).lt_iff_lt.1 ((le_between lt).trans_lt h), fun h => ?_⟩
  exact (between_lt lt).trans_le ((magnitude_strictMono f).monotone h)

theorem lt_between_iff (lt : r < b) (p : Nat) : magnitude f p < between f lo r b ↔ p < lo ∨ p = lo ∧ r ≠ 0 := by
  rcases Nat.lt_trichotomy p lo with less | rfl | more
  · exact iff_of_true ((magnitude_strictMono f less).trans_le (le_between lt)) (.inl less)
  · rw [(le_between lt).lt_iff_ne, ne_comm, Ne, between_eq_iff lt]
    omega
  · exact iff_of_false (((between_lt_iff lt p).2 more).le.not_gt) (by omega)

/-- The choice is the rounding of R104. -/
theorem roundsTo_chosen (lt : r < b) (hr : rand < 2 ^ 32) :
    roundsTo f mode rand neg (between f lo r b) (chosen mode rand neg lo r b) := by
  refine ⟨lo, (r : ℚ) / b, le_between lt, between_lt lt, between_place, ?_⟩
  unfold chosen
  by_cases up : roundsUp mode neg (lo % 2 == 1) r b rand = true
  · exact .inl ⟨(roundsUp_iff lt hr).1 up, if_pos up⟩
  · exact .inr ⟨mt (roundsUp_iff lt hr).2 up, if_neg up⟩

theorem chosen_zero : chosen mode rand neg lo 0 b = lo := rfl

theorem lo_le_chosen : lo ≤ chosen mode rand neg lo r b := by
  unfold chosen
  split <;> omega

theorem chosen_le : chosen mode rand neg lo r b ≤ lo + 1 := by
  unfold chosen
  split <;> omega

/-- The result is exact exactly if nothing remains (R105). -/
theorem magnitude_chosen_ne_iff (lt : r < b) :
    magnitude f (chosen mode rand neg lo r b) ≠ between f lo r b ↔ r ≠ 0 := by
  refine ⟨?_, fun nz => ?_⟩
  · rintro ne rfl
    rw [chosen_zero, Ne, eq_comm, between_eq_iff lt] at ne
    exact ne rfl
  · unfold chosen
    split
    · exact (between_lt lt).ne'
    · exact (mt (between_eq_iff lt).1 nz) ∘ Eq.symm

theorem overflowBits_eq_limitOf (f : Fmt) (mode : Rnd) (neg : Bool) : overflowBits f mode neg = limitOf f mode neg := by
  unfold overflowBits limitOf
  cases f.inf <;> cases mode <;> rfl

theorem directed_iff : directed mode = true ↔ mode = .rz ∨ mode = .ru ∨ mode = .rd := by
  cases mode <;> decide

theorem three_flags (nx uf ov : Bool) : (if nx then flagNX else 0) ||| (if uf then flagUF else 0) ||| (if ov then flagOF else 0) =
    (if nx then 16 else 0) + (if uf then 8 else 0) + (if ov then 4 else 0) := by
  cases nx <;> cases uf <;> cases ov <;> rfl

/-- Status of a result between two patterns: inexact, tiny, overflowing (R105). -/
def inexactAt (f : Fmt) (mode : Rnd) (rand : Nat) (neg : Bool) (lo r b : Nat) : Bool :=
  decide (f.maxBits < chosen mode rand neg lo r b) || !(r == 0)

def tinyAt (f : Fmt) (lo r : Nat) : Bool := decide (lo < 2 ^ f.frac) && !(r == 0)

def beyondAt (f : Fmt) (mode : Rnd) (rand : Nat) (neg : Bool) (lo r b : Nat) : Bool :=
  decide (f.maxBits < chosen mode rand neg lo r b) || decide (f.maxBits ≤ lo) && !(r == 0) && directed mode

/-- The result and its status, one by one. -/
theorem roundedAt_eq (sound : f.Sound) : roundedAt f mode rand neg lo r b =
    (if chosen mode rand neg lo r b ≤ f.maxBits then chosen mode rand neg lo r b else limitOf f mode neg,
      (if inexactAt f mode rand neg lo r b then 16 else 0) + (if tinyAt f lo r then 8 else 0) +
        (if beyondAt f mode rand neg lo r b then 4 else 0)) := by
  have normal := sound.normal
  unfold roundedAt inexactAt tinyAt beyondAt
  dsimp only
  by_cases beyond : f.maxBits < chosen mode rand neg lo r b
  · have big : ¬lo < 2 ^ f.frac := by
      have := chosen_le (mode := mode) (rand := rand) (neg := neg) (lo := lo) (r := r) (b := b)
      omega
    rw [if_pos beyond, if_neg (by omega), overflowBits_eq_limitOf, decide_eq_true beyond, decide_eq_false big,
      Bool.true_or, Bool.true_or, Bool.false_and]
    rfl
  · rw [if_neg beyond, if_pos (Nat.not_lt.1 beyond), decide_eq_false beyond, Bool.false_or, Bool.false_or, ← three_flags]
    cases r == 0 <;> rfl

theorem inexactAt_iff (lt : r < b) : inexactAt f mode rand neg lo r b = true ↔
    f.maxBits < chosen mode rand neg lo r b ∨ magnitude f (chosen mode rand neg lo r b) ≠ between f lo r b := by
  unfold inexactAt
  rw [magnitude_chosen_ne_iff lt, Bool.or_eq_true, decide_eq_true_eq, Bool.not_eq_true', beq_eq_false_iff_ne]

theorem tinyAt_iff (lt : r < b) : tinyAt f lo r = true ↔
    magnitude f (chosen mode rand neg lo r b) ≠ between f lo r b ∧ between f lo r b < (2 : ℚ) ^ (1 - (f.bias : ℤ)) := by
  unfold tinyAt
  rw [magnitude_chosen_ne_iff lt, ← magnitude_smallest, between_lt_iff lt, Bool.and_eq_true, decide_eq_true_eq,
    Bool.not_eq_true', beq_eq_false_iff_ne, and_comm]

theorem beyondAt_iff (lt : r < b) : beyondAt f mode rand neg lo r b = true ↔
    f.maxBits < chosen mode rand neg lo r b ∨
      ((mode = .rz ∨ mode = .ru ∨ mode = .rd) ∧ magnitude f f.maxBits < between f lo r b) := by
  have low := lo_le_chosen (mode := mode) (rand := rand) (neg := neg) (lo := lo) (r := r) (b := b)
  unfold beyondAt
  rw [lt_between_iff lt, ← directed_iff, Bool.or_eq_true, Bool.and_eq_true, Bool.and_eq_true, decide_eq_true_eq,
    decide_eq_true_eq, Bool.not_eq_true', beq_eq_false_iff_ne]
  by_cases overflows : f.maxBits < chosen mode rand neg lo r b
  · exact iff_of_true (.inl overflows) (.inl overflows)
  · rw [or_iff_right overflows, or_iff_right overflows, and_comm]
    refine and_congr_right fun _ => ?_
    omega

end

/-! The rounding function (R104, R105). -/

theorem signBit_eq (f : Fmt) (neg : Bool) : f.signBit neg = if neg then 2 ^ f.sign else 0 := rfl

theorem roundNum_fin {f : Fmt} {mode : Rnd} {rand : Nat} {neg : Bool} {n d : Nat} {e : Int} (hn : 0 < n) :
    roundNum f mode rand (.fin neg n d e) =
      (f.signBit neg + (roundMag f mode rand neg n d e).1, (roundMag f mode rand neg n d e).2) := by
  unfold roundNum
  dsimp only
  rw [if_neg hn.ne']

/-- A nonzero value rounds as R104 says, with the status of R105. -/
theorem roundNum_spec {f : Fmt} (sound : f.Sound) (mode : Rnd) {rand : Nat} (neg : Bool) (hr : rand < 2 ^ 32) {n d : Nat}
    {e : Int} {x : ℚ} (hn : 0 < n) (hd : 0 < d) (hx : x = (n : ℚ) / d * 2 ^ e) :
    ∃ (m : Nat) (nx uf ov : Bool), roundsTo f mode rand neg x m ∧
      roundNum f mode rand (.fin neg n d e) =
        ((if neg then 2 ^ f.sign else 0) + (if m ≤ f.maxBits then m else limitOf f mode neg),
          (if nx then 16 else 0) + (if uf then 8 else 0) + (if ov then 4 else 0)) ∧
      (nx = true ↔ f.maxBits < m ∨ magnitude f m ≠ x) ∧
      (uf = true ↔ magnitude f m ≠ x ∧ x < (2 : ℚ) ^ (1 - (f.bias : ℤ))) ∧
      (ov = true ↔ f.maxBits < m ∨ ((mode = .rz ∨ mode = .ru ∨ mode = .rd) ∧ magnitude f f.maxBits < x)) := by
  obtain ⟨lo, r, b, lt, value, mag⟩ := roundMag_eq sound.frac mode rand neg (e := e) hn hd
  obtain rfl := hx.trans value
  refine ⟨chosen mode rand neg lo r b, inexactAt f mode rand neg lo r b, tinyAt f lo r, beyondAt f mode rand neg lo r b,
    roundsTo_chosen lt hr, ?_, inexactAt_iff lt, tinyAt_iff lt, beyondAt_iff lt⟩
  rw [roundNum_fin hn, mag, roundedAt_eq sound]
  rfl

theorem roundNum_zero (f : Fmt) (mode : Rnd) (rand : Nat) (neg : Bool) (d : Nat) (e : Int) :
    roundNum f mode rand (.fin neg 0 d e) = (if neg then 2 ^ f.sign else 0, 0) := rfl

theorem roundNum_inf (f : Fmt) (mode : Rnd) (rand : Nat) (neg : Bool) : roundNum f mode rand (.inf neg) =
    match f.inf with
    | some i => ((if neg then 2 ^ f.sign else 0) + i, 0)
    | none => ((if neg then 2 ^ f.sign else 0) + f.maxBits, 20) := by
  unfold roundNum
  cases f.inf <;> rfl

/-! Rounding to an integer (R97, R104, R105). -/

theorem intMin_eq_leastInt (sg : Bool) (w : Nat) : intMin sg w = leastInt sg w := by
  unfold intMin leastInt
  push_cast
  rfl

theorem intMax_eq_greatestInt (sg : Bool) (w : Nat) : intMax sg w = greatestInt sg w := by
  unfold intMax greatestInt
  push_cast
  rfl

theorem wrapInt_eq (w : Nat) (i : Int) : wrapInt w i = (i % 2 ^ w).toNat := by
  unfold wrapInt
  push_cast
  rfl

section
variable {mode : Rnd} {rand : Nat} {neg : Bool} {n d : Nat} {e : Int} {x : ℚ}

/-- A value rounds to the neighbouring integer that its mode chooses. -/
theorem roundInt_spec (mode : Rnd) (neg : Bool) (hr : rand < 2 ^ 32) (hd : 0 < d) (hx : x = (n : ℚ) / d * 2 ^ e) :
    ∃ (m : Nat) (exact : Bool), integerOf mode rand neg x m ∧ (exact = true ↔ (m : ℚ) = x) ∧
      roundInt mode rand neg n d e = (if neg then -(m : Int) else m, exact) := by
  obtain ⟨hb, align⟩ := alignTo_spec (n := n) hd e 0
  unfold roundInt
  rw [sub_zero, ← hx] at align
  generalize alignTo n d e 0 = ab at hb align ⊢
  obtain ⟨a, b⟩ := ab
  dsimp only at hb align ⊢
  have whole := quotient_eq a hb
  have lt := Nat.mod_lt a hb
  obtain ⟨nonneg, below⟩ := remainder_bounds lt
  have place : x - (a / b : ℕ) = ((a % b : ℕ) : ℚ) / b := by
    rw [← align, whole]
    ring
  have zero : ((a % b : ℕ) : ℚ) / b = 0 ↔ a % b = 0 := by
    rw [div_eq_zero_iff, or_iff_left (by exact_mod_cast hb.ne'), Nat.cast_eq_zero]
  have chooses := roundsUp_iff (mode := mode) (neg := neg) (lo := a / b) lt hr
  refine ⟨chosen mode rand neg (a / b) (a % b) b, a % b == 0, ⟨a / b, by linarith, by linarith, ?_⟩, ?_, rfl⟩
  · rw [place, ← chooses]
    unfold chosen
    by_cases up : roundsUp mode neg (a / b % 2 == 1) (a % b) b rand = true
    · exact .inl ⟨up, if_pos up⟩
    · exact .inr ⟨up, if_neg up⟩
  · rw [beq_iff_eq]
    refine ⟨fun none => ?_, fun eq => ?_⟩
    · rw [none, chosen_zero]
      rw [none, Nat.cast_zero, zero_div, sub_eq_zero] at place
      exact place.symm
    · unfold chosen at eq
      split at eq
      · push_cast at eq
        linarith
      · exact zero.1 (by rw [← place, eq, sub_self])

theorem clampFlags (exact : Bool) (c i : Int) :
    ((if exact && c == i then 0 else flagNX) ||| (if c == i then 0 else flagOF)) =
      (if exact = true ∧ c = i then 0 else 16) + (if c = i then 0 else 4) := by
  by_cases same : c = i <;> cases exact <;> simp [same, flagNX, flagOF]

/-- The rounding to an integer type clamps (R104, R105). -/
theorem roundToInt_fin (sg : Bool) (w : Nat) {i : Int} {exact : Bool} (h : roundInt mode rand neg n d e = (i, exact)) :
    roundToInt sg w mode rand (.fin neg n d e) =
      ((max (leastInt sg w) (min (greatestInt sg w) i) % 2 ^ w).toNat,
        (if exact = true ∧ max (leastInt sg w) (min (greatestInt sg w) i) = i then 0 else 16) +
          (if max (leastInt sg w) (min (greatestInt sg w) i) = i then 0 else 4)) := by
  unfold roundToInt
  dsimp only
  rw [h]
  dsimp only
  rw [intMin_eq_leastInt, intMax_eq_greatestInt, wrapInt_eq, clampFlags]

end

theorem roundToInt_inf (sg : Bool) (w : Nat) (mode : Rnd) (rand : Nat) (neg : Bool) : roundToInt sg w mode rand (.inf neg) =
    (((if neg then leastInt sg w else greatestInt sg w) % 2 ^ w).toNat, 20) := by
  unfold roundToInt
  dsimp only
  rw [intMin_eq_leastInt, intMax_eq_greatestInt, wrapInt_eq]
  rfl

/-- Settles O59: a rounded value lies between two neighbouring patterns or integers, and the remainder that the model
compares is its distance from the one below. -/
theorem roundingIsCorrect : Obligations.RoundingIsCorrect := by
  refine ⟨?_, ?_, fun z xs as => valueOf_sum z xs as, ?_, ?_⟩
  · intro f w mem lt
    have sound := sound_of_mem mem
    refine ⟨ofBits_nan lt, ofBits_inf sound lt, fun fin => ?_⟩
    obtain ⟨k, m, split, value⟩ := ofBits_fin sound lt fin
    rw [value]
    refine ⟨?_, rfl⟩
    rw [valueOf_fin, magnitude_of_splits split, Nat.cast_one, div_one]
  · intro z x y a b hx hy ha hb
    obtain ⟨sum, ok⟩ := valueOf_add z hx hy ha hb
    obtain ⟨product, ok', sign⟩ := valueOf_mul hx hy ha hb
    exact ⟨sum, product, ok, ok', sign⟩
  · intro f mode rand neg mem hr
    refine ⟨fun n d e x hn hd hx => roundNum_spec (sound_of_mem mem) mode neg hr hn hd hx,
      roundNum_zero f mode rand neg, ?_⟩
    refine (roundNum_inf f mode rand neg).trans ?_
    cases f.inf <;> rfl
  · intro mode rand neg sg w hr _
    refine ⟨fun n d e x hd hx => ?_, roundToInt_inf sg w mode rand neg, rfl⟩
    obtain ⟨m, exact, neighbour, same, rounds⟩ := roundInt_spec mode neg hr hd hx
    exact ⟨m, _, _, exact, neighbour, rfl, same, rounds, rfl, roundToInt_fin sg w rounds⟩

end Sys2Proof.Machine
end

