-- ==== Sys2Proof/Proofs/SpecialValues.lean ====
section
/-! The special cases of R148, and the functions that round one exact value: RCP, and EXP2 of an integer (R119). -/

namespace Sys2Proof.Machine

open Sys2Proof.Spec

/-! Values of FP32 words (R93). -/

theorem sound_f32 : Fmt.f32.Sound := sound_of_mem (by decide)

theorem unitExp_f32 (k : Nat) : Fmt.f32.unitExp k = (k : ℤ) - 149 := by
  change (1 : ℤ) - (127 : ℕ) - (23 : ℕ) + k = _
  omega

section
variable {a : Nat}

theorem f32_nan (lt : a < 2 ^ 32) (nan : 0x7F800000 < a % 2 ^ 31) : f32 a = .nan := ofBits_nan lt nan

/-- A word that is below the infinities. -/
theorem f32_fin (lt : a < 2 ^ 32) (fin : a % 2 ^ 31 < 0x7F800000) :
    ∃ k m, Fmt.f32.Splits (a % 2 ^ 31) k m ∧ f32 a = .fin (decide (2 ^ 31 ≤ a)) m 1 (Fmt.f32.unitExp k) :=
  ofBits_fin sound_f32 lt (Nat.le_of_lt_succ fin)

/-- The units of a word that is not zero. -/
theorem units_pos {p k m : Nat} (split : Fmt.f32.Splits p k m) (pos : 0 < p) : 0 < m := by
  have mag := magnitude_pos (f := .f32) pos
  rw [magnitude_of_splits split] at mag
  exact_mod_cast (mul_pos_iff_of_pos_right (unit_pos .f32 k)).1 mag

/-- A finite word that is not zero. -/
theorem f32_of_finiteWord (h : finiteWord a) : ∃ k m, Fmt.f32.Splits (a % 2 ^ 31) k m ∧ 0 < m ∧
    f32 a = .fin (decide (2 ^ 31 ≤ a)) m 1 (Fmt.f32.unitExp k) := by
  obtain ⟨lt, pos, fin⟩ := h
  obtain ⟨k, m, split, value⟩ := f32_fin lt fin
  exact ⟨k, m, split, units_pos split pos, value⟩

/-- A negative word: the infinity, or a finite value that is not zero. -/
theorem f32_negative (low : 0x80000000 < a) (high : a ≤ 0xFF800000) :
    f32 a = .inf true ∨ ∃ m e, 0 < m ∧ f32 a = .fin true m 1 e := by
  by_cases top : a = 0xFF800000
  · exact .inl (by rw [top]; rfl)
  · obtain ⟨k, m, split, pos, value⟩ := f32_of_finiteWord (a := a) ⟨by omega, by omega, by omega⟩
    rw [decide_eq_true (by omega)] at value
    exact .inr ⟨m, _, pos, value⟩

end

/-! Special cases (R148). -/

/-- NaN gives the canonical NaN. -/
theorem functions_nan {f : Nat → Nat × Nat} (hf : f ∈ functions) {a : Nat} (nan : f32 a = .nan) : f a = (0x7FC00000, 0) := by
  unfold functions at hf
  simp only [List.mem_cons, List.not_mem_nil, or_false] at hf
  rcases hf with rfl | rfl | rfl | rfl | rfl | rfl | rfl | rfl
  · unfold exp2Word
    rw [nan]
  · unfold log2Word
    rw [nan]
  · unfold rcpWord
    rw [nan]
  · unfold rsqWord
    rw [nan]
  · unfold sqrtWord
    rw [nan]
  · unfold sinWord
    rw [nan]
  · unfold cosWord
    rw [nan]
  · unfold tanhWord
    rw [nan]

section
variable {a : Nat} (low : 0x80000000 < a) (high : a ≤ 0xFF800000)
include low high

theorem log2Word_negative : log2Word a = (0x7FC00000, 1) := by
  unfold log2Word
  rcases f32_negative low high with inf | ⟨m, e, pos, fin⟩
  · rewrite [inf]
    exact if_pos rfl
  · rewrite [fin]
    exact (if_neg pos.ne').trans (if_pos rfl)

theorem rsqWord_negative : rsqWord a = (0x7FC00000, 1) := by
  unfold rsqWord
  rcases f32_negative low high with inf | ⟨m, e, pos, fin⟩
  · rewrite [inf]
    exact if_pos rfl
  · rewrite [fin]
    exact (if_neg pos.ne').trans (if_pos rfl)

theorem sqrtWord_negative : sqrtWord a = (0x7FC00000, 1) := by
  unfold sqrtWord
  rcases f32_negative low high with inf | ⟨m, e, pos, fin⟩
  · rewrite [inf]
    exact if_pos rfl
  · rewrite [fin]
    exact (if_neg pos.ne').trans (if_pos rfl)

end

/-! Values that a format holds. -/

/-- A value that a format holds rounds to itself, without status. -/
theorem roundMag_exact {f : Fmt} (sound : f.Sound) (mode : Rnd) (rand : Nat) (neg : Bool) {n d : Nat} {e : Int} {p : Nat}
    (hn : 0 < n) (hd : 0 < d) (fits : p ≤ f.maxBits) (value : (n : ℚ) / d * 2 ^ e = magnitude f p) :
    roundMag f mode rand neg n d e = (p, 0) := by
  obtain ⟨lo, r, b, lt, place, mag⟩ := roundMag_eq sound.frac mode rand neg (e := e) hn hd
  rw [value] at place
  have le : lo ≤ p := (magnitude_strictMono f).le_iff_le.1 (place ▸ le_between lt)
  have ge : p < lo + 1 := (magnitude_strictMono f).lt_iff_lt.1 (place ▸ between_lt lt)
  obtain rfl : lo = p := by omega
  obtain rfl := (between_eq_iff lt).1 place.symm
  rw [mag]
  unfold roundedAt
  rw [chosen_zero]
  dsimp only
  rw [if_neg (Nat.not_lt.2 fits), beq_self_eq_true, Bool.not_true, Bool.and_false, Bool.and_false,
    Bool.false_and]
  rfl

/-- The power of two after the largest FP32 value. -/
theorem magnitude_limit : magnitude .f32 0x7F800000 = 2 ^ (128 : ℤ) := by
  have split : Fmt.f32.Splits 0x7F800000 254 (2 ^ 23) := ⟨by decide, by decide, by decide⟩
  rw [magnitude_of_splits split, unitExp_f32, Nat.cast_pow, Nat.cast_two, ← zpow_natCast, ← zpow_add₀ two_ne_zero]
  norm_num

/-- A whole number of at most 24 bits at a scale of FP32 is an FP32 value. -/
theorem exists_pattern {s : Nat} (pos : 0 < s) (lt : s < 2 ^ 24) {j : ℤ} (low : -149 ≤ j) (high : (s : ℚ) * 2 ^ j < 2 ^ (128 : ℤ)) :
    ∃ p, 0 < p ∧ p < 0x7F800000 ∧ magnitude .f32 p = s * 2 ^ j := by
  have top : Nat.log2 s < 24 := (Nat.log2_lt pos.ne').2 lt
  have value : ∃ p k m, Fmt.f32.Splits p k m ∧ (m : ℚ) * 2 ^ Fmt.f32.unitExp k = s * 2 ^ j := by
    by_cases normal : -126 ≤ j + Nat.log2 s
    · refine ⟨_, (j + Nat.log2 s + 126).toNat, s * 2 ^ (23 - Nat.log2 s), ⟨rfl, ?_, .inr ?_⟩, ?_⟩
      · calc s * 2 ^ (23 - Nat.log2 s) < 2 ^ (Nat.log2 s + 1) * 2 ^ (23 - Nat.log2 s) :=
              Nat.mul_lt_mul_of_pos_right Nat.lt_log2_self (Nat.two_pow_pos _)
          _ = 2 * 2 ^ 23 := by rw [← pow_add, show Nat.log2 s + 1 + (23 - Nat.log2 s) = 1 + 23 by omega, pow_add, pow_one]
      · calc 2 ^ 23 = 2 ^ Nat.log2 s * 2 ^ (23 - Nat.log2 s) := by
              rw [← pow_add, show Nat.log2 s + (23 - Nat.log2 s) = 23 by omega]
          _ ≤ s * 2 ^ (23 - Nat.log2 s) := Nat.mul_le_mul_right _ (Nat.log2_self_le pos.ne')
      · rw [unitExp_f32, Nat.cast_mul, Nat.cast_pow, Nat.cast_two, ← zpow_natCast, mul_assoc, ← zpow_add₀ two_ne_zero,
          show ((23 - Nat.log2 s : ℕ) : ℤ) + ((j + Nat.log2 s + 126).toNat - 149) = j by omega]
    · refine ⟨_, 0, s * 2 ^ (j + 149).toNat, ⟨rfl, ?_, .inl rfl⟩, ?_⟩
      · calc s * 2 ^ (j + 149).toNat < 2 ^ (Nat.log2 s + 1) * 2 ^ (j + 149).toNat :=
              Nat.mul_lt_mul_of_pos_right Nat.lt_log2_self (Nat.two_pow_pos _)
          _ = 2 ^ (Nat.log2 s + 1 + (j + 149).toNat) := (pow_add _ _ _).symm
          _ ≤ 2 ^ 24 := Nat.pow_le_pow_right two_pos (by omega)
          _ = 2 * 2 ^ 23 := by norm_num
      · rw [unitExp_f32, Nat.cast_mul, two_zpow_toNat (by omega), mul_assoc, ← zpow_add₀ two_ne_zero]
        congr 2
        push_cast
        ring
  obtain ⟨p, k, m, split, eq⟩ := value
  rw [← magnitude_of_splits split] at eq
  refine ⟨p, ?_, ?_, eq⟩
  · refine (magnitude_strictMono .f32).lt_iff_lt.1 ?_
    rw [magnitude_zero, eq]
    positivity
  · refine (magnitude_strictMono .f32).lt_iff_lt.1 ?_
    rw [eq, magnitude_limit]
    exact high

theorem exists_power {j : ℤ} (low : -149 ≤ j) (high : j < 128) :
    ∃ p, 0 < p ∧ p < 0x7F800000 ∧ magnitude .f32 p = 2 ^ j := by
  have bound : ((1 : ℕ) : ℚ) * 2 ^ j < 2 ^ (128 : ℤ) := by
    rw [Nat.cast_one, one_mul]
    exact zpow_lt_zpow_right₀ one_lt_two high
  obtain ⟨p, pos, lt, eq⟩ := exists_pattern one_pos (by norm_num) low bound
  exact ⟨p, pos, lt, by rw [eq, Nat.cast_one, one_mul]⟩

/-! EXP2 of an integer (R119, R148). -/

/-- The definition, as an equation of functions: at an argument the two sides would be compared by running them. -/
theorem pow2Bits_eq : pow2Bits = fun k => (roundMag .f32 .rz 0 false 1 1 k).1 := rfl

/-- The pattern of a power of two. -/
theorem pow2Bits_spec {j : ℤ} (low : -149 ≤ j) (high : j < 128) :
    0 < pow2Bits j ∧ pow2Bits j < 0x7F800000 ∧ magnitude .f32 (pow2Bits j) = 2 ^ j := by
  obtain ⟨p, pos, lt, eq⟩ := exists_power low high
  have exact := roundMag_exact sound_f32 .rz 0 false (n := 1) (d := 1) (e := j) one_pos one_pos (Nat.le_of_lt_succ lt)
    (by rw [eq, Nat.cast_one, div_one, one_mul])
  have bits : pow2Bits j = p := (congrFun pow2Bits_eq j).trans (congrArg Prod.fst exact)
  rw [bits]
  exact ⟨pos, lt, eq⟩

/-- EXP2 of a whole number is exact. -/
theorem exp2Fin_int {neg : Bool} {n : Nat} {e x k : Int} (value : (if neg then -1 else 1) * ((n : ℚ) * 2 ^ e) = k)
    (low : -149 ≤ k) (high : k ≤ 127) : exp2Fin neg n e x = (pow2Bits k, true) := by
  obtain ⟨hb, align⟩ := alignTo_spec (n := n) one_pos e 0
  obtain ⟨⟨a, b⟩, aligned⟩ : ∃ ab, alignTo n 1 e 0 = ab := ⟨_, rfl⟩
  rw [sub_zero, Nat.cast_one, div_one, aligned] at align
  rw [aligned] at hb
  dsimp only at hb align
  have nz : (b : ℚ) ≠ 0 := by exact_mod_cast hb.ne'
  have whole : (a : ℤ) = (if neg then -1 else 1) * k * b := by
    have : (a : ℚ) = (if neg then -1 else 1) * k * b := by
      rw [← value, ← align, ← mul_assoc]
      cases neg <;> simp [nz]
    cases neg
    · simp only [Bool.false_eq_true, if_false] at this ⊢
      exact_mod_cast this
    · simp only [if_true] at this ⊢
      exact_mod_cast this
  have exact : a % b = 0 := by
    refine Nat.mod_eq_zero_of_dvd (Int.natCast_dvd_natCast.1 ⟨(if neg then -1 else 1) * k, ?_⟩)
    rw [whole, mul_comm]
  have quot : ((a / b : ℕ) : ℤ) = (if neg then -1 else 1) * k := by
    rw [Int.natCast_div, whole, Int.mul_ediv_cancel _ (by exact_mod_cast hb.ne')]
  have floor : (if neg = true then (if (a % b == 0) = true then -((a / b : ℕ) : ℤ) else -((a / b : ℕ) : ℤ) - 1)
      else ((a / b : ℕ) : ℤ)) = k := by
    rw [exact, beq_self_eq_true, if_pos rfl, quot]
    cases neg <;> simp
  have below : ¬128 ≤ k := by omega
  have inside : (a % b == 0 && decide (-149 ≤ k)) = true := by rw [exact, beq_self_eq_true, decide_eq_true low]; rfl
  rw [← floor] at below inside
  unfold exp2Fin
  rewrite [aligned]
  refine (if_neg below).trans ((if_pos inside).trans ?_)
  exact congrArg (fun j => (pow2Bits j, true)) floor

theorem magnitude_one : magnitude .f32 0x3F800000 = 1 := by
  have split : Fmt.f32.Splits 0x3F800000 126 (2 ^ 23) := ⟨by decide, by decide, by decide⟩
  rw [magnitude_of_splits split, unitExp_f32, Nat.cast_pow, Nat.cast_two, ← zpow_natCast, ← zpow_add₀ two_ne_zero]
  norm_num

/-- EXP2 of an integer is that power of two, without status. -/
theorem exp2Word_int {a : Nat} {k : Int} (finite : finiteWord a ∨ a % 2 ^ 31 = 0) (lt : a < 2 ^ 32)
    (value : signWord a * magnitude .f32 (a % 2 ^ 31) = k) (low : -149 ≤ k) (high : k ≤ 127) :
    ∃ m, exp2Word a = (m, 0) ∧ 0 < m ∧ m < 0x7F800000 ∧ magnitude .f32 m = 2 ^ k := by
  have fin : a % 2 ^ 31 < 0x7F800000 := finite.elim (fun h => h.2.2) fun h => by omega
  obtain ⟨j, m, split, word⟩ := f32_fin lt fin
  rw [magnitude_of_splits split] at value
  unfold exp2Word
  rw [word]
  dsimp only
  by_cases zero : m = 0
  · rw [if_pos zero]
    rw [zero, Nat.cast_zero, zero_mul, mul_zero] at value
    obtain rfl : k = 0 := by exact_mod_cast value.symm
    exact ⟨_, rfl, by norm_num, by norm_num, by rw [magnitude_one, zpow_zero]⟩
  · have sign : signWord a = if decide (2 ^ 31 ≤ a) = true then -1 else 1 := by
      unfold signWord
      by_cases neg : 2 ^ 31 ≤ a
      · rw [if_neg (by omega), decide_eq_true neg, if_pos rfl]
      · rw [if_pos (by omega), decide_eq_false neg, if_neg Bool.false_ne_true]
    rw [sign] at value
    rw [if_neg zero, exp2Fin_int value low high]
    exact ⟨_, rfl, pow2Bits_spec low (by omega)⟩

/-! RCP (R119). -/

/-- RCP rounds the reciprocal once. -/
theorem rcpWord_finite {a : Nat} (finite : finiteWord a) :
    ∃ m, roundsTo .f32 .rne 0 (decide (2 ^ 31 ≤ a)) (1 / magnitude .f32 (a % 2 ^ 31)) m ∧
      (rcpWord a).1 = a / 2 ^ 31 * 2 ^ 31 + min m 0x7F800000 := by
  obtain ⟨k, n, split, pos, word⟩ := f32_of_finiteWord finite
  obtain ⟨lt, -, -⟩ := finite
  have value : 1 / magnitude .f32 (a % 2 ^ 31) = ((1 : ℕ) : ℚ) / n * 2 ^ (-Fmt.f32.unitExp k) := by
    rw [magnitude_of_splits split, one_div, mul_inv, zpow_neg, Nat.cast_one, one_div]
  obtain ⟨m, nx, uf, ov, rounds, result, -⟩ := roundNum_spec sound_f32 .rne (decide (2 ^ 31 ≤ a)) (rand := 0)
    (by norm_num) one_pos pos value
  refine ⟨m, rounds, ?_⟩
  have sign : (if decide (2 ^ 31 ≤ a) = true then 2 ^ Fmt.f32.sign else 0) = a / 2 ^ 31 * 2 ^ 31 := by
    change (if decide (2 ^ 31 ≤ a) = true then 2 ^ 31 else 0) = _
    by_cases neg : 2 ^ 31 ≤ a
    · rw [decide_eq_true neg, if_pos rfl]
      omega
    · rw [decide_eq_false neg, if_neg Bool.false_ne_true]
      omega
  have limit : (if m ≤ Fmt.f32.maxBits then m else limitOf .f32 .rne (decide (2 ^ 31 ≤ a))) = min m 0x7F800000 := by
    change (if m ≤ 0x7F7FFFFF then m else 0x7F800000) = _
    split <;> omega
  unfold rcpWord
  rw [word]
  dsimp only
  rw [if_neg pos.ne', result, sign, limit]

end Sys2Proof.Machine
end

