-- ==== Sys2Proof/Proofs/Roots.lean ====
section
/-! RSQ and SQRT round the exact root once (R119, R148): the root is known by its floor in units far below the gap of
FP32, and no midpoint of FP32 lies between two such units. -/

namespace Sys2Proof.Machine

open Sys2Proof.Spec

/-! The integer square root. -/

theorem isqrtFrom_spec {k n r : Nat} (low : r * r ≤ n) (high : n < (r + 2 ^ k) * (r + 2 ^ k)) :
    isqrtFrom k n r * isqrtFrom k n r ≤ n ∧ n < (isqrtFrom k n r + 1) * (isqrtFrom k n r + 1) := by
  induction k generalizing r with
  | zero => exact ⟨low, high⟩
  | succ k ih =>
    unfold isqrtFrom
    dsimp only
    split
    next fits =>
      refine ih fits ?_
      rwa [add_assoc, ← two_mul, ← pow_succ']
    next above => exact ih low (not_le.1 above)

theorem isqrt_spec (n : Nat) : isqrt n * isqrt n ≤ n ∧ n < (isqrt n + 1) * (isqrt n + 1) := by
  refine isqrtFrom_spec (Nat.zero_le n) ?_
  have len : n < 2 ^ bitLen n := by
    unfold bitLen
    split
    next zero => rw [zero]; exact one_pos
    next => exact Nat.lt_log2_self
  rw [Nat.zero_add, ← pow_add]
  exact len.trans_le (Nat.pow_le_pow_right two_pos (by omega))

/-! Rounding to the nearest, between midpoints. -/

/-- The midpoint of a pattern and the next. -/
def midpoint (f : Fmt) (p : Nat) : ℚ := (magnitude f p + magnitude f (p + 1)) / 2

/-- A value that rounds to the nearest pattern lies within the midpoints to its neighbours (R103). -/
theorem midpoints_of_roundsTo {f : Fmt} {rand : Nat} {neg : Bool} {x : ℚ} {m : Nat}
    (h : roundsTo f .rne rand neg x (m + 1)) : midpoint f m ≤ x ∧ x ≤ midpoint f (m + 1) := by
  obtain ⟨lo, d, low, high, place, choice⟩ := h
  have mono := magnitude_strictMono f
  have gap := sub_pos.2 (mono (Nat.lt_succ_self lo))
  rw [eq_div_iff gap.ne'] at place
  unfold midpoint
  rcases choice with ⟨up, eq⟩ | ⟨down, eq⟩
  · obtain rfl : lo = m := by omega
    have half : 1 / 2 ≤ d := up.elim le_of_lt fun tie => tie.1.ge
    have next := mono (Nat.lt_succ_self (lo + 1))
    constructor <;> nlinarith
  · subst eq
    have half : d ≤ 1 / 2 := not_lt.1 fun more => down (.inl more)
    have last := mono (Nat.lt_succ_self m)
    constructor <;> nlinarith

/-- A rounded value lies between the patterns before and after its own. -/
theorem le_of_roundsTo {f : Fmt} {mode : Rnd} {rand : Nat} {neg : Bool} {x : ℚ} {m p : Nat}
    (h : roundsTo f mode rand neg x m) (le : magnitude f p ≤ x) : p ≤ m := by
  obtain ⟨lo, d, low, high, place, choice⟩ := h
  have := (magnitude_strictMono f).lt_iff_lt.1 (le.trans_lt high)
  omega

theorem roundsTo_le {f : Fmt} {mode : Rnd} {rand : Nat} {neg : Bool} {x : ℚ} {m p : Nat}
    (h : roundsTo f mode rand neg x m) (lt : x < magnitude f p) : m ≤ p := by
  obtain ⟨lo, d, low, high, place, choice⟩ := h
  have := (magnitude_strictMono f).lt_iff_lt.1 (low.trans_lt lt)
  omega

/-- FP32 magnitudes from 2 ^ (e + 26) up are even counts of units of 2 ^ e. -/
theorem magnitude_even_units {e : ℤ} {p : Nat} (le : (2 : ℚ) ^ (e + 26) ≤ magnitude .f32 p) :
    ∃ j : ℕ, magnitude .f32 p = (2 * j : ℕ) * 2 ^ e := by
  obtain ⟨k, m, split⟩ := Fmt.f32.exists_splits p
  have top : (m : ℚ) < 2 ^ (24 : ℤ) := by exact_mod_cast (split.lt : m < 2 * 2 ^ 23)
  rw [magnitude_of_splits split] at le ⊢
  have scale : e + 26 < 24 + Fmt.f32.unitExp k := by
    refine (zpow_lt_zpow_iff_right₀ (one_lt_two (α := ℚ))).1 (le.trans_lt ?_)
    rw [zpow_add₀ two_ne_zero 24]
    exact mul_lt_mul_of_pos_right top (unit_pos .f32 k)
  refine ⟨m * 2 ^ (Fmt.f32.unitExp k - e - 1).toNat, ?_⟩
  have unit : (2 : ℚ) ^ Fmt.f32.unitExp k = 2 * 2 ^ (Fmt.f32.unitExp k - e - 1) * 2 ^ e := by
    rw [← zpow_one_add₀ two_ne_zero, ← zpow_add₀ two_ne_zero]
    ring_nf
  rw [unit, Nat.cast_mul, Nat.cast_mul, two_zpow_toNat (by omega), Nat.cast_two]
  ring

/-- A root that is known by its floor: `r` units of 2 ^ e, exactly or not, with its square `v`, far above the gap of FP32
and within its range. -/
structure RootAt (v : ℚ) (r : Nat) (exact : Bool) (e : ℤ) : Prop where
  square : exact = true → v = ((r : ℚ) * 2 ^ e) ^ 2
  above : exact = false → ((r : ℚ) * 2 ^ e) ^ 2 < v
  below : exact = false → v < ((r + 1 : ℚ) * 2 ^ e) ^ 2
  fine : 2 ^ 40 ≤ r
  low : -149 ≤ e + 39
  high : ((r : ℚ) + 1) * 2 ^ e ≤ 2 ^ (127 : ℤ)
  held : exact = true → ∃ p, 0 < p ∧ p < 0x7F800000 ∧ magnitude .f32 p = r * 2 ^ e

section
variable {v : ℚ} {r : Nat} {e : ℤ}

/-- An exact root rounds to itself. -/
theorem nearestRoot_of_exact (h : RootAt v r true e) : ∃ p, roundNum .f32 .rne 0 (sticky false r true e) = (p, 0) ∧
    nearestRoot v p ∧ magnitude .f32 p ^ 2 = v := by
  obtain ⟨p, pos, lt, value⟩ := h.held rfl
  have fine := h.fine
  have there : 0 < r := by omega
  have mag := roundMag_exact sound_f32 .rne 0 false (n := r) (d := 1) (e := e) there one_pos (Nat.le_of_lt_succ lt)
    (by rw [value, Nat.cast_one, div_one])
  have square : magnitude .f32 p ^ 2 = v := by rw [h.square rfl, value]
  have mono := magnitude_strictMono .f32
  have before := mono (show p - 1 < p by omega)
  have after := mono (Nat.lt_succ_self p)
  have nonneg : 0 ≤ magnitude .f32 (p - 1) := magnitude_zero .f32 ▸ mono.monotone (Nat.zero_le _)
  refine ⟨p, ?_, ⟨pos, ?_, ?_⟩, square⟩
  · change roundNum .f32 .rne 0 (.fin false r 1 e) = _
    rw [roundNum_fin there, mag]
    exact congrArg (fun b => (b, 0)) (Nat.zero_add p)
  · rw [← square]
    exact pow_lt_pow_left₀ (by linarith) (by linarith) two_ne_zero
  · rw [← square]
    exact pow_lt_pow_left₀ (by linarith) (by linarith) two_ne_zero

/-- The value that stands for a root between two units lies far above the gap of FP32, and within its range. -/
theorem halfway_bounds (h : RootAt v r false e) : (2 : ℚ) ^ (e + 40) < (r + 1 / 2) * 2 ^ e ∧
    ((r : ℚ) + 1 / 2) * 2 ^ e < 2 ^ (127 : ℤ) := by
  have unit : (0 : ℚ) < 2 ^ e := zpow_pos two_pos e
  refine ⟨?_, (mul_lt_mul_of_pos_right (by linarith) unit).trans_le h.high⟩
  have fine : (2 : ℚ) ^ (40 : ℤ) ≤ r := by exact_mod_cast h.fine
  rw [zpow_add₀ two_ne_zero, mul_comm]
  exact mul_lt_mul_of_pos_right (by linarith) unit

/-- Around a value far above a unit, patterns and midpoints are whole counts of units. -/
theorem units_of_roundsTo {mode : Rnd} {rand : Nat} {neg : Bool} {x : ℚ} {m : Nat} (low : -149 ≤ e + 39) (high : e + 40 < 128)
    (big : (2 : ℚ) ^ (e + 40) ≤ x) (rounds : roundsTo .f32 mode rand neg x m) :
    ∃ q, m = q + 1 ∧ ∀ p, q ≤ p → (∃ j : ℕ, magnitude .f32 p = (2 * j : ℕ) * 2 ^ e) ∧
      ∃ j : ℕ, midpoint .f32 p = j * 2 ^ e := by
  have mono := magnitude_strictMono .f32
  obtain ⟨q, -, -, power⟩ := exists_power low (by omega)
  obtain ⟨p, -, -, power'⟩ := exists_power (j := e + 40) (by omega) high
  have first : q < m := by
    refine (mono.lt_iff_lt.1 ?_).trans_le (le_of_roundsTo rounds (power'.trans_le big))
    rw [power, power']
    exact zpow_lt_zpow_right₀ one_lt_two (by omega)
  have even (p : Nat) (le : q ≤ p) : ∃ j : ℕ, magnitude .f32 p = (2 * j : ℕ) * 2 ^ e := by
    refine magnitude_even_units ((zpow_le_zpow_right₀ one_le_two (by omega : e + 26 ≤ e + 39)).trans ?_)
    rw [← power]
    exact mono.monotone le
  refine ⟨m - 1, by omega, fun p le => ⟨even p (by omega), ?_⟩⟩
  obtain ⟨i, hi⟩ := even p (by omega)
  obtain ⟨j, hj⟩ := even (p + 1) (by omega)
  refine ⟨i + j, ?_⟩
  unfold midpoint
  rw [hi, hj]
  push_cast
  ring

/-- No whole even count of units is a root between two units, nor the value that stands for it. -/
theorem even_units_ne (h : RootAt v r false e) (c : Nat) : (((2 * c : ℕ) : ℚ) * 2 ^ e) ^ 2 ≠ v ∧
    ((2 * c : ℕ) : ℚ) * 2 ^ e ≠ (r + 1 / 2) * 2 ^ e := by
  have unit : (0 : ℚ) < 2 ^ e := zpow_pos two_pos e
  have above := h.above rfl
  have below := h.below rfl
  constructor
  · rintro rfl
    have less := (mul_lt_mul_iff_left₀ unit).1 (lt_of_pow_lt_pow_left₀ 2 (by positivity) above)
    have more := (mul_lt_mul_iff_left₀ unit).1 (lt_of_pow_lt_pow_left₀ 2 (by positivity) below)
    norm_cast at less more
    omega
  · intro same
    have half : ((2 * c : ℕ) : ℚ) = r + 1 / 2 := mul_right_cancel₀ unit.ne' same
    have whole : ((2 * (2 * c) : ℕ) : ℚ) = (2 * r + 1 : ℕ) := by push_cast at half ⊢; linarith
    have : 2 * (2 * c) = 2 * r + 1 := by exact_mod_cast whole
    omega

/-- Whole counts of units around the value that stands for a root lie around the root. -/
theorem units_around (h : RootAt v r false e) {i j : Nat} (left : (i : ℚ) * 2 ^ e ≤ (r + 1 / 2) * 2 ^ e)
    (right : ((r : ℚ) + 1 / 2) * 2 ^ e ≤ j * 2 ^ e) : ((i : ℚ) * 2 ^ e) ^ 2 < v ∧ v < ((j : ℚ) * 2 ^ e) ^ 2 := by
  have unit : (0 : ℚ) < 2 ^ e := zpow_pos two_pos e
  rw [mul_le_mul_iff_left₀ unit] at left right
  have under : (i : ℚ) ≤ r := by
    have : (i : ℚ) < (r + 1 : ℕ) := by push_cast; linarith
    exact_mod_cast Nat.lt_succ_iff.1 (by exact_mod_cast this)
  have ceil : (r : ℚ) + 1 ≤ j := by
    have : (r : ℚ) < j := by linarith
    exact_mod_cast Nat.succ_le_of_lt (by exact_mod_cast this)
  refine ⟨lt_of_le_of_lt ?_ (h.above rfl), lt_of_lt_of_le (h.below rfl) ?_⟩
  · gcongr
  · gcongr

/-- A root between two units rounds as any value between them: no midpoint lies there. -/
theorem nearestRoot_of_inexact (h : RootAt v r false e) :
    ∃ m fl, roundNum .f32 .rne 0 (sticky false r false e) = (m, fl) ∧ fl &&& flagNX = 16 ∧ nearestRoot v m ∧
      magnitude .f32 m ^ 2 ≠ v := by
  obtain ⟨big, top⟩ := halfway_bounds h
  have range : e + 40 < 127 := (zpow_lt_zpow_iff_right₀ (one_lt_two (α := ℚ))).1 (big.trans top)
  have value : ((r : ℚ) + 1 / 2) * 2 ^ e = ((2 * r + 1 : ℕ) : ℚ) / (1 : ℕ) * 2 ^ (e - 1) := by
    rw [zpow_sub_one₀ two_ne_zero]
    push_cast
    ring
  obtain ⟨m, nx, uf, ov, rounds, result, inexact, -⟩ := roundNum_spec sound_f32 .rne false (rand := 0) (by norm_num)
    (Nat.succ_pos _) one_pos value
  obtain ⟨m, rfl, units⟩ := units_of_roundsTo h.low (by omega) big.le rounds
  obtain ⟨-, i, hi⟩ := units m le_rfl
  obtain ⟨⟨c, hc⟩, j, hj⟩ := units (m + 1) (Nat.le_succ m)
  obtain ⟨left, right⟩ := midpoints_of_roundsTo rounds
  rw [hi] at left
  rw [hj] at right
  obtain ⟨above, below⟩ := units_around h left right
  obtain ⟨differs, odd⟩ := even_units_ne h c
  rw [← hi] at above
  rw [← hj] at below
  rw [← hc] at differs odd
  obtain rfl : nx = true := inexact.2 (.inr odd)
  obtain ⟨t, -, fits, limit⟩ := exists_power (j := 127) (by norm_num) (by norm_num)
  have last := roundsTo_le rounds (top.trans_eq limit.symm)
  refine ⟨m + 1, 16 + (if uf then 8 else 0) + (if ov then 4 else 0), ?_, ?_, ⟨Nat.succ_pos m, above, below⟩, differs⟩
  · change roundNum .f32 .rne 0 (.fin false (2 * r + 1) 1 (e - 1)) = _
    rw [result, if_pos (show m + 1 ≤ Fmt.f32.maxBits from Nat.le_of_lt_succ (last.trans_lt fits)), if_neg Bool.false_ne_true,
      Nat.zero_add, if_pos rfl]
  · cases uf <;> cases ov <;> rfl

/-- A root rounds to the pattern nearest it, inexact exactly if no pattern is the root (R119, R105). -/
theorem nearestRoot_of_rootAt {exact : Bool} (h : RootAt v r exact e) :
    ∃ m fl nx, roundNum .f32 .rne 0 (sticky false r exact e) = (m, fl) ∧ fl &&& flagNX = (if nx then 16 else 0) ∧
      nearestRoot v m ∧ (nx = true ↔ magnitude .f32 m ^ 2 ≠ v) := by
  cases exact with
  | true =>
    obtain ⟨p, result, nearest, square⟩ := nearestRoot_of_exact h
    exact ⟨p, 0, false, result, rfl, nearest, iff_of_false Bool.false_ne_true (not_not.2 square)⟩
  | false =>
    obtain ⟨m, fl, result, status, nearest, differs⟩ := nearestRoot_of_inexact h
    exact ⟨m, fl, true, result, status, nearest, iff_of_true rfl differs⟩

end

end Sys2Proof.Machine
end

