-- ==== Sys2Proof/Proofs/RootWords.lean ====
section
/-! RSQ and SQRT of FP32 words (R119, R148), and the special functions as instructions. -/

namespace Sys2Proof.Machine

open Sys2Proof.Spec

/-! The roots that the model rounds. -/

/-- A value with an even exponent. -/
theorem exists_even_scale (n : Nat) (e : ℤ) : ∃ (n' : Nat) (h : ℤ), (if e % 2 = 1 then 2 * n else n) = n' ∧
    (if e % 2 = 1 then e - 1 else e) / 2 = h ∧ n ≤ n' ∧ n' ≤ 2 * n ∧ e - 1 ≤ 2 * h ∧ 2 * h ≤ e ∧
    (n : ℚ) * 2 ^ e = n' * (2 ^ h) ^ 2 := by
  have square (h : ℤ) : ((2 : ℚ) ^ h) ^ 2 = 2 ^ (2 * h) := by rw [← zpow_natCast, ← zpow_mul, mul_comm]; rfl
  by_cases odd : e % 2 = 1
  · refine ⟨2 * n, (e - 1) / 2, if_pos odd, by rw [if_pos odd], by omega, le_rfl, by omega, by omega, ?_⟩
    rw [square, show 2 * ((e - 1) / 2) = e - 1 by omega, zpow_sub_one₀ two_ne_zero]
    push_cast
    ring
  · refine ⟨n, e / 2, if_neg odd, by rw [if_neg odd], le_rfl, by omega, by omega, by omega, ?_⟩
    rw [square, show 2 * (e / 2) = e by omega]

/-- A root by the floor of the root of a whole or broken number, at a scale. -/
theorem rootAt_of_scaled {v q : ℚ} {r : Nat} {exact : Bool} {e : ℤ} (value : v = q * (2 ^ e) ^ 2)
    (square : exact = true → (r : ℚ) ^ 2 = q) (above : exact = false → (r : ℚ) ^ 2 < q) (below : q < ((r : ℚ) + 1) ^ 2)
    (fine : 2 ^ 40 ≤ r) (low : -149 ≤ e + 39) (high : ((r : ℚ) + 1) * 2 ^ e ≤ 2 ^ (127 : ℤ))
    (held : exact = true → ∃ p, 0 < p ∧ p < 0x7F800000 ∧ magnitude .f32 p = r * 2 ^ e) : RootAt v r exact e := by
  have unit : (0 : ℚ) < (2 ^ e) ^ 2 := pow_pos (zpow_pos two_pos e) 2
  refine ⟨fun h => ?_, fun h => ?_, fun _ => ?_, fine, low, high, held⟩
  · rw [value, ← square h, mul_pow]
  · rw [value, mul_pow]
    exact mul_lt_mul_of_pos_right (above h) unit
  · rw [value, mul_pow]
    exact mul_lt_mul_of_pos_right below unit

section
variable {n : Nat} {e : ℤ} (pos : 0 < n) (lt : n < 2 ^ 24) (low : -149 ≤ e) (high : e ≤ 104)
include pos lt low high

/-- The reciprocal root that the model rounds (R119). -/
theorem rootAt_rsqrtNum : ∃ r exact h, rsqrtNum n e = sticky false r exact h ∧ RootAt (1 / ((n : ℚ) * 2 ^ e)) r exact h := by
  obtain ⟨n', h, num, exp, ge, le, low', high', value⟩ := exists_even_scale n e
  obtain ⟨floor, ceil⟩ := isqrt_spec (2 ^ 160 / n')
  have pos' : 0 < n' := by omega
  have posQ : (0 : ℚ) < n' := by exact_mod_cast pos'
  rw [Nat.le_div_iff_mul_le pos'] at floor
  rw [Nat.div_lt_iff_lt_mul pos'] at ceil
  refine ⟨isqrt (2 ^ 160 / n'), isqrt (2 ^ 160 / n') * isqrt (2 ^ 160 / n') * n' == 2 ^ 160, -h - 80, ?_, ?_⟩
  · unfold rsqrtNum
    simp only [num, exp]
  generalize isqrt (2 ^ 160 / n') = r at floor ceil ⊢
  have small : r ≤ 2 ^ 80 := by
    by_contra big
    have : 2 ^ 80 * 2 ^ 80 < r * r := Nat.mul_lt_mul'' (not_le.1 big) (not_le.1 big)
    have : r * r ≤ r * r * n' := Nat.le_mul_of_pos_right _ pos'
    omega
  have top : ((r : ℚ) + 1) * 2 ^ (-h - 80) ≤ 2 ^ (127 : ℤ) := by
    have bound : (r : ℚ) + 1 ≤ 2 ^ (81 : ℤ) := by exact_mod_cast (by omega : r + 1 ≤ 2 ^ 81)
    calc ((r : ℚ) + 1) * 2 ^ (-h - 80) ≤ 2 ^ (81 : ℤ) * 2 ^ (-h - 80) := by gcongr
      _ = 2 ^ (81 + (-h - 80)) := (zpow_add₀ two_ne_zero _ _).symm
      _ ≤ 2 ^ (127 : ℤ) := zpow_le_zpow_right₀ one_le_two (by omega)
  refine rootAt_of_scaled (q := 2 ^ 160 / n') ?_ (fun exact => ?_) (fun inexact => ?_) ?_ ?_ (by omega) top fun exact => ?_
  · have scale : (2 : ℚ) ^ (-h - 80) = (2 ^ h)⁻¹ * (2 ^ 80)⁻¹ := by
      rw [sub_eq_add_neg, zpow_add₀ two_ne_zero, zpow_neg, zpow_neg]
      rfl
    rw [value, scale]
    field_simp
  · rw [eq_div_iff posQ.ne', sq]
    exact_mod_cast beq_iff_eq.1 exact
  · rw [lt_div_iff₀ posQ, sq]
    exact_mod_cast lt_of_le_of_ne floor (beq_eq_false_iff_ne.1 inexact)
  · rw [div_lt_iff₀ posQ, sq]
    exact_mod_cast ceil
  · by_contra less
    have : (r + 1) * (r + 1) ≤ 2 ^ 40 * 2 ^ 40 := Nat.mul_le_mul (by omega) (by omega)
    have : (r + 1) * (r + 1) * n' ≤ 2 ^ 40 * 2 ^ 40 * 2 ^ 25 := Nat.mul_le_mul this (by omega)
    omega
  · have divides : r ∣ 2 ^ 160 := ⟨r * n', by rw [← beq_iff_eq.1 exact, mul_assoc]⟩
    obtain ⟨i, -, rfl⟩ := (Nat.dvd_prime_pow Nat.prime_two).1 divides
    have bound : i ≤ 80 := (Nat.pow_le_pow_iff_right (by norm_num)).1 small
    obtain ⟨p, there, fits, power⟩ := exists_power (j := i + (-h - 80)) (by omega) (by omega)
    refine ⟨p, there, fits, ?_⟩
    rw [power, zpow_add₀ two_ne_zero, zpow_natCast, Nat.cast_pow, Nat.cast_two]

/-- The root that the model rounds (R119). -/
theorem rootAt_sqrtNum : ∃ r exact h, sqrtNum n e = sticky false r exact h ∧ RootAt ((n : ℚ) * 2 ^ e) r exact h := by
  obtain ⟨n', h, num, exp, ge, le, low', high', value⟩ := exists_even_scale n e
  obtain ⟨floor, ceil⟩ := isqrt_spec (n' * 2 ^ 80)
  have pos' : 0 < n' := by omega
  refine ⟨isqrt (n' * 2 ^ 80), isqrt (n' * 2 ^ 80) * isqrt (n' * 2 ^ 80) == n' * 2 ^ 80, h - 40, ?_, ?_⟩
  · unfold sqrtNum
    simp only [num, exp]
  generalize isqrt (n' * 2 ^ 80) = r at floor ceil ⊢
  have small : r < 2 ^ 53 := by
    by_contra big
    have : 2 ^ 53 * 2 ^ 53 ≤ r * r := Nat.mul_le_mul (not_lt.1 big) (not_lt.1 big)
    omega
  have top : ((r : ℚ) + 1) * 2 ^ (h - 40) ≤ 2 ^ (127 : ℤ) := by
    have bound : (r : ℚ) + 1 ≤ 2 ^ (53 : ℤ) := by exact_mod_cast (by omega : r + 1 ≤ 2 ^ 53)
    calc ((r : ℚ) + 1) * 2 ^ (h - 40) ≤ 2 ^ (53 : ℤ) * 2 ^ (h - 40) := by gcongr
      _ = 2 ^ (53 + (h - 40)) := (zpow_add₀ two_ne_zero _ _).symm
      _ ≤ 2 ^ (127 : ℤ) := zpow_le_zpow_right₀ one_le_two (by omega)
  have scale : (2 : ℚ) ^ h = 2 ^ 40 * 2 ^ (h - 40) := by
    rw [← zpow_natCast, ← zpow_add₀ two_ne_zero]
    congr 1
    push_cast
    ring
  refine rootAt_of_scaled (q := (n' * 2 ^ 80 : ℕ)) ?_ (fun exact => ?_) (fun inexact => ?_) ?_ ?_ (by omega) top fun exact => ?_
  · rw [value, scale]
    push_cast
    ring
  · rw [sq]
    exact_mod_cast beq_iff_eq.1 exact
  · rw [sq]
    exact_mod_cast lt_of_le_of_ne floor (beq_eq_false_iff_ne.1 inexact)
  · rw [sq]
    exact_mod_cast ceil
  · by_contra less
    have : (r + 1) * (r + 1) ≤ 2 ^ 40 * 2 ^ 40 := Nat.mul_le_mul (by omega) (by omega)
    omega
  · have square : r ^ 2 = (2 ^ 40) ^ 2 * n' := by rw [sq, beq_iff_eq.1 exact]; ring
    obtain ⟨s, rfl⟩ := (Nat.pow_dvd_pow_iff two_ne_zero).1 (Dvd.intro _ square.symm)
    have root : s * s = n' := by
      rw [mul_pow, sq s] at square
      exact Nat.eq_of_mul_eq_mul_left (Nat.two_pow_pos 80) (by linarith)
    have tiny : s < 2 ^ 13 := by omega
    have there : 0 < s := Nat.pos_of_ne_zero fun zero => by rw [zero] at root; omega
    have bound : (s : ℚ) * 2 ^ h < 2 ^ (128 : ℤ) := by
      have : (s : ℚ) < 2 ^ (13 : ℤ) := by exact_mod_cast tiny
      calc (s : ℚ) * 2 ^ h < 2 ^ (13 : ℤ) * 2 ^ h := by gcongr
        _ = 2 ^ (13 + h) := (zpow_add₀ two_ne_zero _ _).symm
        _ ≤ 2 ^ (128 : ℤ) := zpow_le_zpow_right₀ one_le_two (by omega)
    obtain ⟨p, some, fits, eq⟩ := exists_pattern there (by omega) (by omega) bound
    refine ⟨p, some, fits, ?_⟩
    rw [eq, scale]
    push_cast
    ring

end

/-! The words (R148). -/

theorem rsqWord_of_fin {a n d m fl : Nat} {e : ℤ} (word : f32 a = .fin false n d e) (pos : 0 < n)
    (rounds : roundNum .f32 .rne 0 (rsqrtNum n e) = (m, fl)) : rsqWord a = (m, fl &&& flagNX) := by
  unfold rsqWord
  rewrite [word]
  refine (if_neg pos.ne').trans ((if_neg Bool.false_ne_true).trans ?_)
  rewrite [rounds]
  rfl

theorem sqrtWord_of_fin {a n d m fl : Nat} {e : ℤ} (word : f32 a = .fin false n d e) (pos : 0 < n)
    (rounds : roundNum .f32 .rne 0 (sqrtNum n e) = (m, fl)) : sqrtWord a = (m, fl &&& flagNX) := by
  unfold sqrtWord
  rewrite [word]
  refine (if_neg pos.ne').trans ((if_neg Bool.false_ne_true).trans ?_)
  rewrite [rounds]
  rfl

section
variable {a : Nat}

/-- A positive finite word counts fewer than 2 ^ 24 units of an exponent of FP32. -/
theorem f32_positive (finite : finiteWord a) (positive : a < 2 ^ 31) : ∃ n e, 0 < n ∧ n < 2 ^ 24 ∧ -149 ≤ e ∧ e ≤ 104 ∧
    f32 a = .fin false n 1 e ∧ magnitude .f32 a = n * 2 ^ e := by
  obtain ⟨k, n, split, pos, word⟩ := f32_of_finiteWord finite
  obtain ⟨-, -, fin⟩ := finite
  rw [Nat.mod_eq_of_lt positive] at split fin
  have lt : n < 2 * 2 ^ 23 := split.lt
  have eq : a = k * 2 ^ 23 + n := split.eq
  have normal : k = 0 ∨ 2 ^ 23 ≤ n := split.normal
  rw [decide_eq_false (by omega)] at word
  have mag := magnitude_of_splits split
  rw [unitExp_f32] at word mag
  exact ⟨n, _, pos, by omega, by omega, by omega, word, mag⟩

/-- RSQ of a positive value is nearest the root of its reciprocal. -/
theorem rsqWord_finite (finite : finiteWord a) (positive : a < 2 ^ 31) : ∃ m nx, rsqWord a = (m, if nx then 16 else 0) ∧
    nearestRoot (1 / magnitude .f32 a) m ∧ (nx = true ↔ magnitude .f32 m ^ 2 ≠ 1 / magnitude .f32 a) := by
  obtain ⟨n, e, pos, lt, low, high, word, mag⟩ := f32_positive finite positive
  obtain ⟨r, exact, h, num, root⟩ := rootAt_rsqrtNum pos lt low high
  obtain ⟨m, fl, nx, rounds, status, nearest, inexact⟩ := nearestRoot_of_rootAt root
  rw [← num] at rounds
  rw [mag]
  exact ⟨m, nx, by rw [rsqWord_of_fin word pos rounds, status], nearest, inexact⟩

/-- SQRT of a positive value is nearest its root. -/
theorem sqrtWord_finite (finite : finiteWord a) (positive : a < 2 ^ 31) : ∃ m nx, sqrtWord a = (m, if nx then 16 else 0) ∧
    nearestRoot (magnitude .f32 a) m ∧ (nx = true ↔ magnitude .f32 m ^ 2 ≠ magnitude .f32 a) := by
  obtain ⟨n, e, pos, lt, low, high, word, mag⟩ := f32_positive finite positive
  obtain ⟨r, exact, h, num, root⟩ := rootAt_sqrtNum pos lt low high
  obtain ⟨m, fl, nx, rounds, status, nearest, inexact⟩ := nearestRoot_of_rootAt root
  rw [← num] at rounds
  rw [mag]
  exact ⟨m, nx, by rw [sqrtWord_of_fin word pos rounds, status], nearest, inexact⟩

end

/-! The instructions (R139, R148). -/

/-- FRND (R139). -/
theorem toIntegral_eq (m : Rnd) (rand : Nat) (a : Word) : toIntegral m rand a = frndWord m rand a.toNat := by
  unfold toIntegral frndWord
  rw [show f32 a.toNat = Num.ofBits .f32 a.toNat from rfl]
  cases Num.ofBits .f32 a.toNat <;> rfl

/-- FSCALE leaves a zero as it is and clamps its count (R139). -/
theorem fscaleNum_eq (x : Num) (b : Int) : fscaleNum x b = if x.isZero then x else scaled x (max (-1000) (min 1000 b)) := by
  cases x with
  | nan => rfl
  | inf neg => rfl
  | fin neg n d e =>
    unfold fscaleNum Num.isZero scaled
    simp only [beq_iff_eq]

section
variable {s : State} {g : Group} {x : Effect}

/-- A function of one word (R148). -/
theorem specialOp_next {i : Instr} {gd : Guard} {d a : Opnd} {f : Nat → Nat × Nat}
    (hx : alone gd [d, a] (fun e t => putFlags e t d (f (e.src t a).toNat)) = some x) (h : Ready s g i)
    (agree : pairsAgree s g x) (run : exec i s = specialOp i gd d a s f) : exec i s = .next (x.result s g) := by
  obtain rfl := Option.some.inj hx
  exact lanewise_next h agree rfl run fun _ _ _ _ _ => rfl

/-- FRND (R139). -/
theorem frnd_next {gd : Guard} {m : Rnd} {d a : Opnd} (hx : special (.frnd gd m d a) = some x)
    (h : Ready s g (.frnd gd m d a)) (agree : pairsAgree s g x) : exec (.frnd gd m d a) s = .next (x.result s g) := by
  obtain rfl := Option.some.inj hx
  refine lanewise_next h agree rfl rfl fun _ _ _ _ _ => ?_
  simp only [toIntegral_eq, drawn_eq_draw]
  rfl

/-- FSCALE (R139). -/
theorem fscale_next {gd : Guard} {m : Rnd} {d a b : Opnd} (hx : special (.fscale gd m d a b) = some x)
    (h : Ready s g (.fscale gd m d a b)) (agree : pairsAgree s g x) :
    exec (.fscale gd m d a b) s = .next (x.result s g) := by
  obtain rfl := Option.some.inj hx
  refine lanewise_next h agree rfl rfl fun _ _ _ _ _ => ?_
  simp only [fop_eq, List.any_cons, List.any_nil, Bool.or_false, fscaleNum_eq]
  rfl

end

/-- The instructions of R139 and R148 complete. -/
theorem computes_special : Computes special := by
  intro i x s g hx _ h _ agree
  have table := hx
  unfold special at table
  split at table
  · exact frnd_next hx h agree
  · exact fscale_next hx h agree
  · exact specialOp_next hx h agree rfl
  · exact specialOp_next hx h agree rfl
  · exact specialOp_next hx h agree rfl
  · exact specialOp_next hx h agree rfl
  · exact specialOp_next hx h agree rfl
  · exact specialOp_next hx h agree rfl
  · exact specialOp_next hx h agree rfl
  · exact specialOp_next hx h agree rfl
  · exact absurd table nofun

/-- Settles O27: the special cases are evaluated; an integer power, a reciprocal and a root are each one exact value, or one
known between two units, that is rounded once. -/
theorem specialFunctions : Obligations.SpecialFunctions := by
  refine ⟨computes_special, fun f hf a lt nan => functions_nan hf (f32_nan lt nan),
    ⟨rfl, rfl, fun a k finite lt value low high => exp2Word_int finite lt value low high⟩,
    ⟨rfl, rfl, rfl, rfl, fun a low high => log2Word_negative low high⟩,
    ⟨rfl, rfl, rfl, rfl, fun a finite => rcpWord_finite finite⟩,
    ⟨rfl, rfl, rfl, fun a low high => rsqWord_negative low high, fun a finite positive => rsqWord_finite finite positive⟩,
    ⟨rfl, rfl, rfl, fun a low high => sqrtWord_negative low high, fun a finite positive => sqrtWord_finite finite positive⟩,
    ⟨rfl, rfl, rfl, rfl⟩, ⟨rfl, rfl, rfl, rfl⟩, rfl, rfl, rfl, rfl⟩

end Sys2Proof.Machine
end

