-- ==== Sys2Proof/Proofs/Elements.lean ====
section
/-! CVT, PACK, UNPACK and CBDEC (R109, R144, R146, R147): the model's elements are those of the formulas. -/

namespace Sys2Proof.Machine

open Sys2Proof.Spec

/-! The elements of a type (R62, R97). -/

theorem elemBits_eq (ty : Ty) : elemBits ty = ty.bits := by cases ty <;> rfl

theorem signedTy_eq (ty : Ty) : signedTy ty = ty.signed := by cases ty <;> rfl

theorem positions_eq (ty : Ty) : positions ty = packCount ty := by cases ty <;> rfl

theorem bits_pos (ty : Ty) : 0 < ty.bits := by cases ty <;> decide

/-- The low bits of a number, read as an integer. -/
theorem toInt_ofNat (sg : Bool) {w : Nat} (pos : 0 < w) (a : Nat) :
    toInt sg w a = if sg then (BitVec.ofNat w a).toInt else ((a % 2 ^ w : Nat) : Int) := by
  rw [← BitVec.toNat_ofNat, ← toInt_toNat sg pos, BitVec.toNat_ofNat]
  unfold toInt
  rw [Nat.mod_mod]

theorem wrapInt_eq_ofInt (w : Nat) (i : Int) : wrapInt w i = (BitVec.ofInt w i).toNat := (BitVec.toNat_ofInt i).symm

/-- An element of an integer type (R97). -/
theorem elemOf_integer {ty : Ty} (int : ty.fmt? = none) (a : Nat) : elemOf ty a = Num.ofInt (toInt ty.signed ty.bits a) := by
  unfold elemOf
  rw [int]

/-- An element of a floating-point type (R93). -/
theorem elemOf_format {ty : Ty} {f : Fmt} (format : ty.fmt? = some f) (a : Nat) : elemOf ty a = Num.ofBits f (a % 2 ^ ty.bits) := by
  unfold elemOf
  rw [format]

/-! CVT's element (R109, R144). -/

theorem signedValue_eq (ty : Ty) (a : Nat) :
    (if signedTy ty then (BitVec.ofNat (elemBits ty) a).toInt else ((a % 2 ^ elemBits ty : Nat) : Int)) =
      toInt ty.signed ty.bits a := by
  rw [elemBits_eq, signedTy_eq]
  exact (toInt_ofNat _ (bits_pos ty) a).symm

/-- A NaN keeps its sign where the destination has one (R95, R108). -/
theorem cvtNan_of_format {dt : Ty} {f : Fmt} (dst : dt.fmt? = some f) (neg : Bool) :
    cvtNan dt neg = (f.nan.map fun n => ((if neg then 2 ^ f.sign else 0) + n, 0)).getD (0, 1) := by
  unfold cvtNan
  rw [dst]
  dsimp only
  cases f.nan <;> rfl

theorem cvtNan_of_integer {dt : Ty} (dst : dt.fmt? = none) (neg : Bool) : cvtNan dt neg = (0, 1) := by
  unfold cvtNan
  rw [dst]
  rfl

/-- CVT's element (R109, R144). -/
theorem converted_eq (dt sty : Ty) (m : Rnd) (rand a : Nat) : converted dt sty m rand a = cvtElem dt sty m rand a := by
  cases src : sty.fmt? with
  | some g =>
    unfold converted cvtElem
    rw [elemOf_format src, ← elemBits_eq]
    simp only [src]
    generalize Num.ofBits g (a % 2 ^ elemBits sty) = x
    cases dst : dt.fmt? with
    | some f =>
      cases x with
      | nan =>
        rw [cvtNan_of_format dst]
        unfold bit
        simp only [beq_iff_eq]
        cases f.nan <;> rfl
      | inf neg => rfl
      | fin neg n d e => rfl
    | none =>
      rw [← elemBits_eq dt, ← signedTy_eq dt]
      cases x with
      | nan => rw [cvtNan_of_integer dst]
      | inf neg => rfl
      | fin neg n d e => rfl
  | none =>
    unfold converted cvtElem
    rw [elemOf_integer src, ← signedValue_eq]
    simp only [src]
    rw [← apply_ite Num.ofInt]
    generalize (if signedTy sty = true then (BitVec.ofNat (elemBits sty) a).toInt else ((a % 2 ^ elemBits sty : Nat) : Int)) = v
    cases dst : dt.fmt? with
    | some f => rfl
    | none =>
      rw [← elemBits_eq dt, ← signedTy_eq dt]
      simp only [wrapInt_eq_ofInt]
      rfl

/-- An element as a register holds it (R144). -/
theorem ofNat_placeElem (dt : Ty) (v : Nat) : BitVec.ofNat 32 (placeElem dt v) = spread dt v := by
  have extend {w : Nat} (pos : 0 < w) : BitVec.ofNat 32 (wrapInt 32 (toInt true w v)) = (BitVec.ofNat w v).signExtend 32 := by
    rw [toInt_ofNat true pos, if_pos rfl, wrapInt_eq_ofInt, BitVec.ofNat_toNat, BitVec.setWidth_eq]
    rfl
  cases dt with
  | i8 => exact extend (by decide)
  | i16 => exact extend (by decide)
  | _ => rfl

/-- A result of CVT in its register (R65, R144). -/
theorem putT_placeElem (e : Env) (t : Thread) (dt : Ty) (d : Opnd) (v : Nat) : e.putT t dt d (placeElem dt v) =
    if dt.wide then e.put64 t d (BitVec.ofNat 64 v) else e.put t d (spread dt v) := by
  unfold Env.putT
  rw [ofNat_placeElem]
  cases dt <;> rfl

/-! Fields of a register (R146). -/

/-- A field replaced: below it and above it the bits stay. -/
theorem setBits_eq (x lo w v : Nat) :
    setBits x lo w v = 2 ^ lo * (2 ^ w * (x / 2 ^ lo / 2 ^ w) + v % 2 ^ w) + x % 2 ^ lo := by
  have inner := Nat.div_add_mod (x / 2 ^ lo) (2 ^ w)
  have outer := Nat.div_add_mod x (2 ^ lo)
  unfold setBits bits
  have split : x = 2 ^ lo * (2 ^ w * (x / 2 ^ lo / 2 ^ w)) + x % 2 ^ lo + x / 2 ^ lo % 2 ^ w * 2 ^ lo := by
    conv_lhs => rw [← outer, ← inner]
    ring
  rw [Nat.sub_eq_of_eq_add split]
  ring

theorem testBit_setBits (x lo w v i : Nat) : (setBits x lo w v).testBit i =
    if lo ≤ i ∧ i < lo + w then v.testBit (i - lo) else x.testBit i := by
  rw [setBits_eq, Nat.testBit_two_pow_mul_add _ (Nat.mod_lt _ (by positivity)),
    Nat.testBit_two_pow_mul_add _ (Nat.mod_lt _ (by positivity)), Nat.testBit_mod_two_pow, Nat.testBit_mod_two_pow,
    Nat.testBit_div_two_pow, Nat.testBit_div_two_pow]
  by_cases below : i < lo
  · rw [if_pos below, if_neg (by omega), decide_eq_true below, Bool.true_and]
  · by_cases inside : i - lo < w
    · rw [if_neg below, if_pos inside, if_pos (by omega), decide_eq_true inside, Bool.true_and]
    · rw [if_neg below, if_neg inside, if_neg (by omega), show i - lo - w + w + lo = i by omega]

/-- A field replaced by the low bits of a word (R146). -/
theorem ofNat_setBits {w lo : Nat} (fits : lo + w ≤ 32) (x y : Word) :
    BitVec.ofNat 32 (setBits x.toNat lo w y.toNat) =
      (x &&& ~~~((BitVec.allOnes 32 >>> (32 - w)) <<< lo)) ||| ((y <<< lo) &&& ((BitVec.allOnes 32 >>> (32 - w)) <<< lo)) := by
  refine BitVec.eq_of_getLsbD_eq fun i lt => ?_
  have mask : ((BitVec.allOnes 32 >>> (32 - w)) <<< lo).getLsbD i = decide (lo ≤ i ∧ i < lo + w) := by
    rw [BitVec.getLsbD_shiftLeft, BitVec.getLsbD_ushiftRight, BitVec.getLsbD_allOnes, Bool.eq_iff_iff]
    simp
    omega
  rw [BitVec.getLsbD_or, BitVec.getLsbD_and, BitVec.getLsbD_and, BitVec.getLsbD_not, mask, BitVec.getLsbD_ofNat, testBit_setBits,
    BitVec.getLsbD_shiftLeft]
  by_cases inside : lo ≤ i ∧ i < lo + w
  · have above : ¬ i < lo := Nat.not_lt.2 inside.1
    simp [inside, lt, above]
    rfl
  · simp [inside, lt]
    rfl
theorem packCount_pos (ty : Ty) : 0 < packCount ty := by cases ty <;> decide

theorem packCount_le {ty : Ty} (ok : ty.isPackable = true) : ty.bits * packCount ty ≤ 32 := by
  cases ty <;> revert ok <;> decide

section
variable {s : State} {g : Group} {x : Effect}

/-- CVT (R144). -/
theorem cvt_next {gd : Guard} {dt sty : Ty} {m : Rnd} {d a : Opnd} (hx : conversion (.cvt gd dt sty m d a) = some x)
    (h : Ready s g (.cvt gd dt sty m d a)) (agree : pairsAgree s g x) :
    exec (.cvt gd dt sty m d a) s = .next (x.result s g) := by
  obtain rfl := Option.some.inj hx
  refine lanewise_next h agree rfl rfl fun _ _ _ _ _ => ?_
  dsimp only
  rw [drawn_eq_draw, converted_eq, putT_placeElem]
  rfl

/-- PACK (R146). -/
theorem pack_next {gd : Guard} {ty : Ty} {d a b : Opnd} (hx : conversion (.pack gd ty d a b) = some x)
    (packable : ty.isPackable = true) (h : Ready s g (.pack gd ty d a b)) (agree : pairsAgree s g x) :
    exec (.pack gd ty d a b) s = .next (x.result s g) := by
  obtain rfl := Option.some.inj hx
  refine lanewise_next h agree rfl rfl fun l _ u _ t => ?_
  have fits : ty.bits * (((view u l).src t b).toNat % packCount ty) + ty.bits ≤ 32 :=
    (Nat.mul_le_mul_left ty.bits (Nat.mod_lt _ (packCount_pos ty))).trans (packCount_le packable)
  dsimp only
  rw [elemBits_eq, positions_eq, ofNat_setBits fits]

/-- UNPACK (R146). -/
theorem unpack_next {gd : Guard} {ty : Ty} {d a b : Opnd} (hx : conversion (.unpack gd ty d a b) = some x)
    (h : Ready s g (.unpack gd ty d a b)) (agree : pairsAgree s g x) :
    exec (.unpack gd ty d a b) s = .next (x.result s g) := by
  obtain rfl := Option.some.inj hx
  refine lanewise_next h agree rfl rfl fun _ _ _ _ _ => ?_
  dsimp only
  rw [elemBits_eq, positions_eq, toNat_extract, ofNat_placeElem]

/-! CBDEC (R101, R102, R147). -/

/-- A weight of a code (R102, R147). -/
theorem rounded_cbWord (grid code scale j : Nat) :
    rounded .f32 .rne 0 [Num.ofBits .bf16 scale] ((cb2Weight grid code j).mul (Num.ofBits .bf16 scale)) =
      cbWord grid code scale j := by
  rw [rounded_eq_roundResult, List.any_cons, List.any_nil, Bool.or_false]
  rfl

/-- Weight `j` of a code goes to the register or temporary `j` places above the first (R147). -/
def putWeight (d : Opnd) (grid code scale : Nat) (t : Thread) (j : Nat) : Thread :=
  let v := cbWord grid code scale j
  let t := match d with
    | .g r => t.setReg (r.toNat + j) (BitVec.ofNat 32 v.1)
    | .t _ => t.setTemp j (BitVec.ofNat 32 v.1)
    | .a _ | .p _ | .c _ | .bad _ => t
  t.raise v.2

/-- The weights of the code that a lane reads, by the grid table of its launch (R147). -/
def putWeights (s : State) (d a b : Opnd) (e : Env) (t : Thread) : Thread :=
  let code := (e.src t a).toNat % 2 ^ 16
  let grid := ((s.launchOf? e.lane.wg).map fun k => k.gridEntry (code % 256)).getD 0
  (List.range 8).foldl (putWeight d grid code ((e.src t b).toNat % 2 ^ 16)) t

theorem extract_low (a : Word) : (a.extractLsb' 0 16).toNat = a.toNat % 2 ^ 16 := by
  rw [toNat_extract, bits, pow_zero, Nat.div_one]

theorem putWeights_reading (s : State) (ls : List LaneRef) (ops : List Opnd) (d a b : Opnd) (e : Env) (t : Thread) :
    putWeights (reading s ls ops) d a b e t = putWeights s d a b e t := by
  unfold putWeights
  rw [launchOf?_reading]

/-- CBDEC (R147). -/
theorem cbdec_next {gd : Guard} {d a b : Opnd} (hx : conversion (.cbdec gd d a b) = some x)
    (h : Ready s g (.cbdec gd d a b)) (agree : pairsAgree s g x) :
    exec (.cbdec gd d a b) s = .next (x.result s g) := by
  obtain rfl := Option.some.inj hx
  change execCbdec gd d a b s = _
  unfold execCbdec
  refine issue_of_mapLanes (f := putWeights s d a b) h rfl agree (taint_mapLanes s _ [a, b] _) fun l _ =>
    (putWeights_reading s (running s g gd) [a, b] d a b _ _).symm.trans ?_
  unfold Effect.start
  dsimp only
  generalize reading s (running s g gd) [a, b] = u
  unfold putWeights
  simp only [extract_low, rounded_cbWord]
  refine List.foldl_ext _ _ _ fun t j _ => ?_
  unfold putWeight
  cases d <;> rfl

end

end Sys2Proof.Machine
end

