-- ==== Sys2Proof/Proofs/OutlierFree.lean ====
section
/-! CVTX of elements that are no outliers (R110, R145). -/

namespace Sys2Proof.Machine

open Sys2Proof.Spec

/-! Outliers (R110). -/

theorem isNan_f32 (a : Word) : (f32 a.toNat).isNan = isNanWord a := by
  rw [← isNan32_toNat]
  unfold isNan32
  by_cases nan : 0x7F800000 < a.toNat % 2 ^ 31
  · rw [f32_nan a.isLt nan, decide_eq_true nan]
    rfl
  · rw [decide_eq_false nan]
    by_cases inf : a.toNat % 2 ^ 31 = 0x7F800000
    · rw [f32, ofBits_inf sound_f32 a.isLt (congrArg some inf.symm)]
      rfl
    · obtain ⟨k, m, -, value⟩ := f32_fin a.isLt (by omega)
      rw [value]
      rfl

theorem isInf_f32 (a : Word) : (f32 a.toNat).isInf = ((a &&& 0x7FFFFFFF#32) == 0x7F800000#32) := by
  have magnitude : ((a &&& 0x7FFFFFFF#32) == 0x7F800000#32) = decide (a.toNat % 2 ^ 31 = 0x7F800000) := by
    rw [← toNat_magnitude, Bool.eq_iff_iff, beq_iff_eq, decide_eq_true_iff, ← BitVec.toNat_inj]
    rfl
  rw [magnitude]
  by_cases inf : a.toNat % 2 ^ 31 = 0x7F800000
  · rw [f32, ofBits_inf sound_f32 a.isLt (congrArg some inf.symm), decide_eq_true inf]
    rfl
  · rw [decide_eq_false inf]
    by_cases nan : 0x7F800000 < a.toNat % 2 ^ 31
    · rw [f32_nan a.isLt nan]
      rfl
    · obtain ⟨k, m, -, value⟩ := f32_fin a.isLt (by omega)
      rw [value]
      rfl

theorem outlier_eq (dt : Ty) (m : Rnd) (rand : Nat) (a : Word) : outlier dt m rand a = isOutlier dt m rand a.toNat := by
  unfold outlier isOutlier
  dsimp only
  rw [isNan_f32, isInf_f32, converted_eq]
  rfl

/-- What CVTX finds of a lane: its outlier, if it has one. -/
def outlierOf (u : State) (dt : Ty) (m : Rnd) (d a b : Opnd) (l : LaneRef) : Option Outlier :=
  if isOutlier dt m ((u.thread l).draw m).1 ((u.env l).src (u.thread l) a).toNat then
    some ⟨((u.env l).src64 (u.thread l) b).toNat, ((u.env l).src (u.thread l) d).toNat, ((u.env l).src (u.thread l) a).toNat⟩
  else none

/-! Lanes written one by one. -/

theorem State.rig?_setThread_map {α : Type} (s : State) (l : LaneRef) (f : Thread → Thread) (p : Rig → α)
    (keep : ∀ q threads, p { q with threads := threads } = p q) (wg rig : Nat) :
    ((s.setThread l f).rig? wg rig).map p = (s.rig? wg rig).map p := by
  unfold State.setThread
  rw [State.rig?_setRig]
  split
  · rw [Option.map_map]
    exact congrArg (Option.map · _) (funext fun q => keep q _)
  · rfl

theorem State.twins_setThread (s : State) (l m : LaneRef) (f : Thread → Thread) : (s.setThread l f).twins m = s.twins m := by
  unfold State.twins
  rw [State.prot_setThread]

/-- The operands of a lane do not depend on what the threads of a rig hold elsewhere. -/
theorem State.env_setThread (s : State) (l m : LaneRef) (f : Thread → Thread) : (s.setThread l f).env m = s.env m := by
  have unread : (s.setThread l f).unread m = s.unread m := by
    unfold State.unread
    simp only [State.twins_setThread]
    rfl
  have sets : (s.setThread l f).windowSets m = s.windowSets m := by
    unfold State.windowSets
    rw [s.rig?_setThread_map l f _ (fun _ _ => rfl)]
  unfold State.env
  rw [unread, sets, s.rig?_setThread_map l f _ (fun _ _ => rfl)]
  rfl

/-- An unprotected lane gets its own new thread (R8). -/
theorem State.mapLanes_twins_of_plain {s : State} {l : LaneRef} (plain : s.prot l.wg = false) (f : Env → Thread → Thread) :
    s.mapLanes (s.twins l) f = s.setThread l fun _ => f (s.env l) (s.thread l) := by
  rw [State.twins_of_plain plain]
  refine State.mapLanes_eq (.inl fun m hm prot => ?_)
  rw [List.mem_singleton.1 hm, plain] at prot
  exact absurd prot Bool.false_ne_true

/-- Unprotected lanes written one by one are written as one slot (R8). -/
theorem State.foldl_mapLanes_of_plain {s : State} {ls : List LaneRef} (nodup : ls.Nodup)
    (plain : ∀ l ∈ ls, s.prot l.wg = false) (f : Env → Thread → Thread) :
    ls.foldl (fun s l => s.mapLanes (s.twins l) f) s = s.mapLanes ls f := by
  have lanes : s.mapLanes ls f = s.setThreads ls fun l _ => f (s.env l) (s.thread l) :=
    State.mapLanes_eq (.inl fun l hl prot => absurd ((plain l hl).symm.trans prot) Bool.false_ne_true)
  rw [lanes]
  clear lanes
  induction ls generalizing s with
  | nil => rfl
  | cons l r ih =>
    obtain ⟨out, nodup⟩ := List.nodup_cons.1 nodup
    have own := State.mapLanes_twins_of_plain (plain l (List.mem_cons_self ..)) f
    rw [List.foldl_cons, own, ih nodup fun m hm => (s.prot_setThread l _ m.wg).trans (plain m (List.mem_cons_of_mem l hm))]
    refine List.foldl_ext _ _ _ fun u m hm => ?_
    dsimp only
    rw [State.env_setThread, State.thread_setThread_other s l m _ fun e => out (e ▸ hm)]

theorem State.agree_of_unprotected {α : Type} [DecidableEq α] {s : State} {xs : List (LaneRef × α)}
    (plain : ∀ x ∈ xs, s.prot x.1.wg = false) : s.agree xs = (s, xs) := by
  rw [State.agree_of_pairs fun x hx prot => absurd ((plain x hx).symm.trans prot) Bool.false_ne_true,
    List.filter_eq_self.2 fun x hx => by rw [plain x hx]; rfl]

/-- A lane's outlier in the state in which the lanes of its slot read (R110). -/
theorem outlierOf_readingNow (s : State) (ls : List LaneRef) (ops : List Opnd) {dt : Ty} {m : Rnd} {d a b : Opnd} {l : LaneRef}
    (within : outlier dt m (drawn m ((reading s ls ops).thread l)).1
      ((view (reading s ls ops) l).src ((reading s ls ops).thread l) a) = false) :
    outlierOf (readingNow s ls ops) dt m d a b l = none := by
  rw [outlier_eq, drawn_eq_draw] at within
  unfold outlierOf
  rw [env_readingNow, thread_readingNow, within, if_neg Bool.false_ne_true]

/-- CVTX of elements that are no outliers in unprotected launches (R110, R145). -/
theorem cvtx_next {s : State} {g : Group} {x : Effect} {gd : Guard} {dt : Ty} {m : Rnd} {d a b : Opnd}
    (hx : conversion (.cvtx gd dt m d a b) = some x) (narrow : dt.wide = false) (h : Ready s g (.cvtx gd dt m d a b))
    (ok : ∀ l, runs s g x.gd l = true → x.ok (x.start s g) l = true) (agree : pairsAgree s g x) :
    exec (.cvtx gd dt m d a b) s = .next (x.result s g) := by
  obtain rfl := Option.some.inj hx
  change execCvtx gd dt m d a b s = _
  unfold execCvtx
  refine issue_of_mapLanes (f := cvtxWrite dt m d a none) h rfl agree ?_ fun l _ => ?_
  · have lanes (l : LaneRef) (hl : l ∈ running s g gd) : (readingNow s (running s g gd) [d, a, b]).prot l.wg = false ∧
        outlierOf (readingNow s (running s g gd) [d, a, b]) dt m d a b l = none := by
      obtain ⟨plain, within⟩ := Bool.and_eq_true_iff.1 (ok l (mem_running.1 hl))
      exact ⟨(Bool.not_eq_true' _).mp plain, outlierOf_readingNow s _ _ ((Bool.not_eq_true' _).mp within)⟩
    dsimp only
    rw [State.taint_eq_readingNow]
    generalize readingNow s (running s g gd) [d, a, b] = u at lanes ⊢
    have found : (running s g gd).map (fun l => (l, outlierOf u dt m d a b l)) = (running s g gd).map fun l => (l, none) :=
      List.map_congr_left fun l hl => by rw [(lanes l hl).2]
    unfold outlierOf at found
    rw [found, State.agree_of_unprotected]
    · have outs : ((running s g gd).map fun l => (l, (none : Option Outlier))).filterMap
          (fun x => x.2.map fun o => (x.1, o)) = [] :=
        List.filterMap_eq_nil_iff.2 fun x hx => by
          obtain ⟨l, -, rfl⟩ := List.mem_map.1 hx
          rfl
      dsimp only
      rw [outs, List.foldl_map]
      exact State.foldl_mapLanes_of_plain (running_nodup s g gd) (fun l hl => (lanes l hl).1) _
    · intro x hx
      obtain ⟨l, hl, rfl⟩ := List.mem_map.1 hx
      exact (lanes l hl).1
  · dsimp only
    unfold cvtxWrite
    dsimp only
    rw [putT_placeElem, narrow, drawn_eq_draw, converted_eq]
    unfold putFlags
    dsimp only
    rw [BitVec.ofNat_toNat, BitVec.setWidth_eq]
    rfl

/-- The destinations of CVTX are single words (R145). -/
theorem wide_of_cvtx {gd : Guard} {dt : Ty} {m : Rnd} {d a b : Opnd} (wf : (Instr.cvtx gd dt m d a b).wf = true) :
    dt.wide = false := by
  have dest : dt.isCvtxDest = true := (Bool.and_eq_true_iff.1 (Bool.and_eq_true_iff.1 (Bool.and_eq_true_iff.1 wf).1).1).1
  revert dest
  cases dt <;> decide

theorem isPackable_of_pack {gd : Guard} {ty : Ty} {d a b : Opnd} (wf : (Instr.pack gd ty d a b).wf = true) :
    ty.isPackable = true :=
  (Bool.and_eq_true_iff.1 (Bool.and_eq_true_iff.1 (Bool.and_eq_true_iff.1 wf).1).1).1

/-- Conversions compute from the operands of their lanes (R144 to R147). -/
theorem conversion_computes : Computes conversion := by
  intro i x s g hx wf h ok agree
  have table := hx
  unfold conversion at table
  split at table
  · exact cvt_next hx h agree
  · exact cvtx_next hx (wide_of_cvtx wf) h ok agree
  · exact pack_next hx (isPackable_of_pack wf) h agree
  · exact unpack_next hx h agree
  · exact cbdec_next hx h agree
  · exact absurd table nofun

end Sys2Proof.Machine
end

