-- ==== Sys2Proof/Proofs/AccessOrder.lean ====
section
/-! SUPPORT. Every access keeps memory in order and the number of its slot, and no access lets a stopped machine go on
(R290 to R300). -/

namespace Sys2Proof.Machine

/-- From `s` to `t` the slot number stays, memory stays in order, and a stopped machine stays stopped. -/
structure Orderly (s t : State) : Prop where
  fresh : t.fresh = s.fresh
  order : MemoryInOrder s → MemoryInOrder t
  going : t.halt = none → s.halt = none

theorem Orderly.refl (s : State) : Orderly s s := ⟨rfl, id, id⟩

theorem Orderly.trans {s t u : State} (h : Orderly s t) (h' : Orderly t u) : Orderly s u :=
  ⟨h'.fresh.trans h.fresh, h'.order ∘ h.order, h.going ∘ h'.going⟩

theorem Orderly.foldl {α : Type} {f : State → α → State} (h : ∀ s x, Orderly s (f s x)) (l : List α) (s : State) :
    Orderly s (l.foldl f s) :=
  List.foldlRecOn (motive := fun t => Orderly s t) l f (Orderly.refl s) fun t ht x _ => ht.trans (h t x)

/-- A step that touches neither memory nor the slot number nor the halt. -/
theorem Orderly.of_apart {s t : State} (fresh : t.fresh = s.fresh) (halt : t.halt = s.halt)
    (order : MemoryInOrder s → MemoryInOrder t) : Orderly s t := ⟨fresh, order, fun h => halt ▸ h⟩

theorem CountersOnly.orderly {s t : State} (h : CountersOnly s t) : Orderly s t := by
  obtain ⟨_, _, _, rfl⟩ := h
  exact ⟨rfl, id, id⟩

/-! Writes at a home (R301 to R303, R342). -/

theorem checkPa_orderly (s : State) (pa : Nat) : Orderly s (checkPa s pa) := by
  refine ⟨?_, fun h => h.checkPa pa, ?_⟩
  · unfold checkPa
    split <;> rfl
  · unfold checkPa
    split
    · exact id
    · exact fun h => absurd h nofun

theorem State.monitor_orderly (s : State) (pa : Nat) (data : List Byte) : Orderly s (s.monitor pa data) := by
  refine .of_apart ?_ (s.monitor_halt pa data) fun h => h.monitor pa data
  unfold State.monitor
  dsimp only
  split_ifs <;> rfl

theorem State.putSector_orderly (s : State) (w : Writer) (bad : Bool) (pa : Nat) (data : List Byte) :
    Orderly s (s.putSector w bad pa data) :=
  .of_apart (s.monitor_orderly pa data).fresh (s.monitor_halt pa data) fun h => h.putSector w bad pa data

theorem State.mirrorLine_orderly (s : State) (w : Writer) (id line : Nat) : Orderly s (s.mirrorLine w id line) := by
  refine .of_apart ?_ (s.mirrorLine_halt w id line) fun h => h.mirrorLine w id line
  unfold State.mirrorLine
  dsimp only
  split_ifs <;> rfl

theorem State.putLines_orderly (s : State) (w : Writer) (id pa n : Nat) : Orderly s (s.putLines w id pa n) := by
  unfold State.putLines
  split
  · exact .refl s
  · refine .foldl (fun s line => (s.mirrorLine_orderly w id line).trans ?_) _ s
    exact ⟨rfl, fun h => h, fun h => h⟩

/-! Notifications (R312). -/

theorem State.putRecord_orderly (s : State) (pa : Nat) (r : List Byte) : Orderly s (s.putRecord pa r) := by
  unfold State.putRecord
  split
  · exact .refl s
  · have taken : Orderly s s.take.2 := ⟨rfl, id, id⟩
    exact taken.trans ((State.putSector_orderly _ _ _ _ _).trans (State.putLines_orderly _ _ _ _ _))

theorem State.setNq_orderly (s : State) (fn : Nat) (q : Nq) : Orderly s (s.setNq fn q) := by
  unfold State.setNq
  split
  · exact ⟨rfl, id, id⟩
  · exact ⟨rfl, id, id⟩

theorem State.writeNq_orderly (s : State) (fn n : Nat) : Orderly s (s.writeNq fn n) := by
  induction n generalizing s with
  | zero => exact .refl s
  | succ n ih =>
    unfold State.writeNq
    dsimp only
    split
    · exact .refl s
    split
    · exact .refl s
    refine Orderly.trans ?_ (ih _)
    refine Orderly.trans ?_ ((State.putRecord_orderly _ _ _).trans ⟨rfl, id, id⟩)
    split
    · exact (State.setNq_orderly _ _ _).trans (State.setNq_orderly _ _ _)
    · exact State.setNq_orderly _ _ _

theorem State.pumpNq_orderly (s : State) (fn : Nat) : Orderly s (s.pumpNq fn) := by
  unfold State.pumpNq
  dsimp only
  split
  · exact State.writeNq_orderly _ _ _
  · exact (State.writeNq_orderly _ _ _).trans (State.writeNq_orderly _ _ _)

theorem State.notify_orderly (s : State) (fn : Nat) (r : List Byte) : Orderly s (s.notify fn r) :=
  (s.setNq_orderly fn { s.nq fn with held := (s.nq fn).held ++ [r] }).trans (State.pumpNq_orderly _ fn)

theorem State.reportChecks_orderly (s : State) (pa n : Nat) : Orderly s (s.reportChecks pa n) :=
  .foldl (fun s _ => s.notify_orderly _ _) _ s

/-! Writes of threads and of the hardware (R295, R297, R301). -/

theorem State.noteRewrite_orderly (s : State) (pa n : Nat) : Orderly s (s.noteRewrite pa n) := by
  unfold State.noteRewrite
  dsimp only
  split
  · exact ⟨rfl, id, id⟩
  · exact .refl s

/-- What precedes the bytes of a write at a home. -/
def State.announced (s : State) (w : Writer) (pa n : Nat) : State :=
  if w.lane.isSome then ((checkPa s pa).countLink pa).noteRewrite pa n else (checkPa s pa).countLink pa

theorem State.homeWrite_eq (s : State) (w : Writer) (id pa : Nat) (data : List Byte) :
    s.homeWrite w id pa data = ((cutSectors (data.length + 1) pa data).foldl (fun s c => s.writeSector w c.1 c.2)
      (s.announced w pa data.length)).putLines w id pa data.length := rfl

theorem State.announced_orderly (s : State) (w : Writer) (pa n : Nat) : Orderly s (s.announced w pa n) := by
  have linked : Orderly s ((checkPa s pa).countLink pa) :=
    (checkPa_orderly s pa).trans (State.countLink_countersOnly _ pa).orderly
  unfold State.announced
  split
  · exact linked.trans (State.noteRewrite_orderly _ _ _)
  · exact linked

theorem State.writeSector_orderly (s : State) (w : Writer) (pa : Nat) (data : List Byte) :
    Orderly s (s.writeSector w pa data) :=
  (s.reportChecks_orderly _ _).trans (State.putSector_orderly _ _ _ _ _)

theorem State.homeWrite_orderly (s : State) (w : Writer) (id pa : Nat) (data : List Byte) :
    Orderly s (s.homeWrite w id pa data) := by
  have sectors (t : State) (l : List (Nat × List Byte)) : Orderly t (l.foldl (fun (s : State) c => s.writeSector w c.1 c.2) t) :=
    .foldl (f := fun (s : State) (c : Nat × List Byte) => s.writeSector w c.1 c.2) (fun s c => s.writeSector_orderly w c.1 c.2) l t
  rw [State.homeWrite_eq]
  exact (s.announced_orderly w pa data.length).trans ((sectors _ _).trans (State.putLines_orderly _ _ _ _ _))

theorem State.hwWrite_orderly (s : State) (upd quiet : Bool) (pa : Nat) (data : List Byte) :
    Orderly s (s.hwWrite upd quiet pa data).2 := by
  have taken : Orderly s s.take.2 := ⟨rfl, id, id⟩
  exact taken.trans (s.take.2.homeWrite_orderly _ _ pa data)

/-! Translation (R290 to R300). -/

theorem State.useDie_orderly (s : State) (tag : CtxTag) (die : Nat) : Orderly s (s.useDie tag die) := by
  unfold State.useDie
  dsimp only
  split
  · exact ⟨rfl, id, id⟩
  · exact ⟨rfl, id, id⟩

theorem State.noteWalk_orderly (s : State) (tag : CtxTag) (reads : List Nat) : Orderly s (s.noteWalk tag reads) :=
  .foldl (fun s a => (s.useDie_orderly tag (dieOfPa a)).trans (State.reportChecks_orderly _ a 8)) reads s

theorem State.claim_orderly (s : State) (core : Option Nat) (e pa : Nat) : Orderly s (s.claim core e pa).1 := by
  unfold State.claim
  split
  · exact .refl s
  · split
    · exact .refl s
    · exact State.hwWrite_orderly _ _ _ _ _

theorem State.putTlb_orderly (s : State) (n : TlbEntry) : Orderly s (s.putTlb n) := ⟨rfl, id, id⟩

theorem State.fillTlb_orderly (s : State) (ctx : CtxCopy) (unit : TUnit) (die va e pa level : Nat) (lines : List Nat)
    (path : List (Nat × Nat × Nat)) : Orderly s (s.fillTlb ctx unit die va e pa level lines path) := by
  unfold State.fillTlb
  dsimp only
  have walked (t : State) (ht : Orderly s t) : Orderly s (path.foldl (fun s p => s.putTlb
      ⟨.walk (walkDie unit die p.2.2), ctx.tag, p.1, va / 2 ^ (12 + 9 * p.1), p.2.1, p.2.2,
        (path.takeWhile fun q => p.1 ≤ q.1).map fun q => q.2.2 / 128⟩) t) :=
    ht.trans (.foldl (fun s p => s.putTlb_orderly _) path t)
  split
  · exact (walked _ (by cases unit <;> exact ⟨rfl, id, id⟩)).trans (State.useDie_orderly _ _ _)
  · exact walked _ (by cases unit <;> exact ⟨rfl, id, id⟩)

theorem State.install_orderly (s : State) (ctx : CtxCopy) (unit : TUnit) (die va e pa level : Nat) (lines : List Nat)
    (path : List (Nat × Nat × Nat)) (stale : Bool) (hit : Option TlbEntry) :
    Orderly s (s.install ctx unit die va e pa level lines path stale hit) := by
  unfold State.install
  split
  · exact .refl s
  cases hit with
  | some t =>
    dsimp only
    split
    · exact .refl s
    · exact State.putTlb_orderly _ _
  | none =>
    dsimp only
    split
    · exact State.fillTlb_orderly _ _ _ _ _ _ _ _ _ _
    · exact (State.hwWrite_orderly _ _ _ _ _).trans (State.fillTlb_orderly _ _ _ _ _ _ _ _ _ _)

theorem State.touchObject_orderly (s : State) (ctx : CtxCopy) (unit : TUnit) (core : Option Nat) (va pa : Nat) :
    Orderly s (s.touchObject ctx unit core va pa).1 := by
  unfold State.touchObject
  split
  · exact .refl s
  split
  · exact .refl s
  dsimp only
  have reported (a : Nat) (n : TlbEntry) : Orderly s ((s.reportChecks a 64).putTlb n) :=
    (s.reportChecks_orderly a 64).trans (State.putTlb_orderly _ n)
  have marked (a pa : Nat) (data : List Byte) (n : TlbEntry) :
      Orderly s (((s.reportChecks a 64).hwWrite true false pa data).2.putTlb n) :=
    ((s.reportChecks_orderly a 64).trans (State.hwWrite_orderly _ _ _ _ _)).trans (State.putTlb_orderly _ n)
  split
  · exact reported _ _
  split
  · exact reported _ _
  split
  · exact reported _ _
  split
  · exact marked _ _ _ _
  · exact marked _ _ _ _

/-! Copies of protected pages (R346, R348). -/

theorem State.leafStore_orderly (s : State) (pa : Nat) (f : Nat → Nat → Nat) : Orderly s (s.leafStore pa f) :=
  State.hwWrite_orderly _ _ _ _ _

theorem State.poolFree_orderly (s : State) (v a : Nat) : Orderly s (s.poolFree v a) := ⟨rfl, id, id⟩

theorem State.setLaunch_orderly (s : State) (lid : Nat) (f : Launch → Launch) : Orderly s (s.setLaunch lid f) := ⟨rfl, id, id⟩

/-- The release of one page of a snapshot (R348). -/
def State.releasePage (s : State) (vf : Nat) (p : SnapPage) : State :=
  let s := if p.rewritten then s else s.leafStore p.leafPa fun _ e => setBits e 1 1 1
  match p.copy with
  | some c => s.poolFree vf c
  | none => s

theorem State.releasePage_orderly (s : State) (vf : Nat) (p : SnapPage) : Orderly s (s.releasePage vf p) := by
  have stored : Orderly s (if p.rewritten = true then s else s.leafStore p.leafPa fun _ e => setBits e 1 1 1) := by
    split
    · exact .refl s
    · exact s.leafStore_orderly _ _
  unfold State.releasePage
  dsimp only
  cases p.copy with
  | some c => exact stored.trans (State.poolFree_orderly _ _ _)
  | none => exact stored

theorem State.releaseSnap_orderly (s : State) (lid : Nat) : Orderly s (s.releaseSnap lid) := by
  unfold State.releaseSnap
  split
  · exact .refl s
  next k _ =>
    have pages : Orderly s (k.snap.foldl (fun s p => s.releasePage k.vf p) s) :=
      .foldl (fun s p => s.releasePage_orderly k.vf p) k.snap s
    cases k.snapAt with
    | some a => exact ⟨pages.fresh, pages.order, pages.going⟩
    | none => exact ⟨pages.fresh, pages.order, pages.going⟩

theorem State.unreplay_orderly (s : State) (lid : Nat) : Orderly s (s.unreplay lid) := by
  unfold State.unreplay
  split
  · exact .refl s
  split
  · exact (s.releaseSnap_orderly lid).trans (State.setLaunch_orderly _ _ _)
  · exact .refl s

theorem State.copyPage_orderly (s : State) (src dst size : Nat) : Orderly s (s.copyPage src dst size) := by
  refine .foldl (fun s i => ?_) _ s
  have taken (t : State) : Orderly t t.take.2 := ⟨rfl, id, id⟩
  exact ((s.reportChecks_orderly (src + 32 * i) 32).trans (taken _)).trans (State.homeWrite_orderly _ _ _ _ _)

theorem State.copyFor_orderly (s : State) (lid : Nat) (p : SnapPage) : Orderly s (s.copyFor lid p) := by
  unfold State.copyFor
  split
  · exact .refl s
  split
  · exact s.unreplay_orderly lid
  next c t alloc =>
    have pooled : Orderly s t := by
      obtain ⟨vfs, rfl⟩ := State.poolAlloc_eq alloc
      exact ⟨rfl, id, id⟩
    have copied : Orderly s (t.copyPage (t.frameOf p) c p.size) := pooled.trans (State.copyPage_orderly _ _ _ _)
    have used (tag : CtxTag) := copied.trans (State.useDie_orderly _ tag (dieOfPa c))
    exact ⟨(used _).fresh, (used _).order, (used _).going⟩

theorem State.copyOnWrite_orderly (s : State) (tag : Option CtxTag) (key : Nat) : Orderly s (s.copyOnWrite tag key) := by
  have copied := Orderly.foldl (f := fun (s : State) (q : Nat × SnapPage) => s.copyFor q.1 q.2)
    (fun s q => s.copyFor_orderly q.1 q.2) (s.protectors tag key) s
  unfold State.copyOnWrite
  dsimp only
  split
  · exact copied
  · exact copied.trans (State.leafStore_orderly _ _ _)

/-! An access (R290). -/

/-- The address of an access that goes on exists, and lies in its line as the virtual address does (R290). -/
structure Placed (t : State) (va : Nat) (p : Place) : Prop where
  there : t.halt = none → paExists p.addr = true
  aligned : p.addr % 4096 = va % 4096

theorem paExists_of_checkPa {s : State} {a : Nat} (going : (checkPa s a).halt = none) : paExists a = true := by
  unfold checkPa at going
  split at going
  next there => exact there
  next => exact absurd going nofun

/-- A page is a whole number of 4,096 bytes. -/
theorem frame_add_mod (e va level : Nat) :
    (pteFrame e + va % (if level = 0 then 2 ^ 12 else pageBytes level e)) % 4096 = va % 4096 := by
  have pages : (if level = 0 then 2 ^ 12 else pageBytes level e) % 4096 = 0 := by
    unfold pageBytes
    repeat' split
    all_goals rfl
  unfold pteFrame
  rw [Nat.add_mod, Nat.mul_mod_left, Nat.zero_add, Nat.mod_mod, Nat.mod_mod_of_dvd va (Nat.dvd_of_mod_eq_zero pages)]

theorem translate_orderly (s : State) (ctx : CtxCopy) (unit : TUnit) (die : Nat) (core : Option Nat) (perm : Dword)
    (kind : AccKind) (va : Nat) : Orderly s (translate s ctx unit die core perm kind va).1 ∧
      ∀ p q, (translate s ctx unit die core perm kind va).2 = .ok p q →
        Placed (translate s ctx unit die core perm kind va).1 va p := by
  have noted (reads : List Nat) : Orderly s (s.noteWalk ctx.tag reads) := s.noteWalk_orderly ctx.tag reads
  unfold translate
  split
  · exact ⟨.refl s, nofun⟩
  dsimp only
  split
  · exact ⟨noted _, nofun⟩
  · exact ⟨noted _, nofun⟩
  · exact ⟨noted _, nofun⟩
  next e pa level lines path stale _ =>
    generalize lookup s ctx unit die va (fun e => kind.allowed perm e && !mustClaim core e) = found at *
    have claimed : Orderly s (if stale = true then (s.noteWalk ctx.tag found.reads, e)
        else (s.noteWalk ctx.tag found.reads).claim core e pa).1 := by
      split
      · exact noted _
      · exact (noted _).trans (State.claim_orderly _ _ _ _)
    generalize (if stale = true then (_, e) else State.claim _ core e pa : State × Nat) = x at claimed ⊢
    generalize (kind.writes && !pteW x.2 && x.1.snapshotted ctx.tag (pageKey x.2 pa)) = cow
    generalize kind.allowed perm (if cow = true then setBits x.2 1 1 1 else x.2) = allowed
    split
    · exact ⟨claimed, nofun⟩
    have copied : Orderly s (if cow = true then x.1.copyOnWrite (some ctx.tag) (pageKey x.2 pa) else x.1) := by
      split
      · exact claimed.trans (State.copyOnWrite_orderly _ _ _)
      · exact claimed
    generalize (if cow = true then x.1.copyOnWrite (some ctx.tag) (pageKey x.2 pa) else x.1) = y at copied ⊢
    generalize (if cow = true then y.read64 pa else x.2) = leaf
    have installed := copied.trans (y.install_orderly ctx unit die va leaf pa level lines path stale found.hit)
    generalize y.install ctx unit die va leaf pa level lines path stale found.hit = z at installed ⊢
    split
    · exact ⟨installed, nofun⟩
    · exact ⟨installed, nofun⟩
    have checked (a : Nat) : Orderly s (checkPa z a) := installed.trans (checkPa_orderly z a)
    generalize aligned : pteFrame leaf + va % (if level = 0 then 2 ^ 12 else pageBytes level leaf) = a at *
    have place : a % 4096 = va % 4096 := aligned ▸ frame_add_mod leaf va level
    have there : (checkPa z a).halt = none → paExists a = true := paExists_of_checkPa
    split
    · have touched := State.touchObject_orderly (checkPa z a) ctx unit core va a
      refine ⟨(checked a).trans touched, fun p q ok => ?_⟩
      obtain ⟨rfl, -⟩ := XRes.ok.inj ok
      exact ⟨there ∘ touched.going, place⟩
    · refine ⟨checked a, fun p q ok => ?_⟩
      obtain ⟨rfl, -⟩ := XRes.ok.inj ok
      exact ⟨there, place⟩

theorem State.coreAccess_orderly (s : State) (l : LaneRef) (kind : AccKind) (va : Nat) :
    Orderly s (s.coreAccess l kind va).1 ∧ ∀ p q, (s.coreAccess l kind va).2 = .ok p q →
      Placed (s.coreAccess l kind va).1 va p := by
  unfold State.coreAccess
  split
  · exact ⟨.refl s, nofun⟩
  split
  · exact ⟨.refl s, nofun⟩
  · exact translate_orderly _ _ _ _ _ _ _ _

end Sys2Proof.Machine
end

