-- ==== Sys2Proof/Proofs/ThreadUpdates.lean ====
section
/-! SUPPORT. What an update of a thread writes at its home: the D bit of its leaf, and its bytes (R228, R297). -/

namespace Sys2Proof.Machine

open Sys2Proof.Spec

/-! Check values after a write (R341, R342). -/

/-- A write within a sector makes its check value. -/
theorem State.sectorMismatch_putSector_self {s : State} (order : MemoryInOrder s) (w : Writer) (bad : Bool) {pa : Nat}
    {data : List Byte} (some : 0 < data.length) (within : pa % 32 + data.length ≤ 32) :
    (s.putSector w bad pa data).sectorMismatch (pa / 32) = false := by
  obtain ⟨-, chk, -⟩ := order.monitor pa data
  unfold State.sectorMismatch
  by_cases device : region (32 * (pa / 32)) = 0
  · have value : Map.get 0 (s.putSector w bad pa data).chk (pa / 32) =
        crc16 ((s.putSector w bad pa data).sector (pa / 32)) := by
      change Map.get 0 ((s.monitor pa data).rawWrite pa data).chk (pa / 32) = _
      unfold State.rawWrite
      dsimp only
      rw [sectorsOf_within some within, List.foldl_cons, List.foldl_nil, if_pos device]
      exact Map.get_set_same _ _ _ _ chk
    rw [value, bne_self_eq_false, Bool.and_false]
  · rw [beq_false_of_ne device, Bool.false_and]

/-- From `s` to `t` nothing is written: memory and the checks of its sectors stand, and the machine goes on as it did. -/
structure Unwritten (s t : State) : Prop where
  mem : t.mem = s.mem
  halt : t.halt = s.halt
  checks : ∀ sec, t.sectorMismatch sec = s.sectorMismatch sec

theorem Unwritten.trans {s t u : State} (h : Unwritten s t) (h' : Unwritten t u) : Unwritten s u :=
  ⟨h'.mem.trans h.mem, h'.halt.trans h.halt, fun sec => (h'.checks sec).trans (h.checks sec)⟩

theorem Unwritten.refl (s : State) : Unwritten s s := ⟨rfl, rfl, fun _ => rfl⟩

theorem CountersOnly.unwritten {s t : State} (h : CountersOnly s t) : Unwritten s t :=
  ⟨h.halt_mem.2, h.halt_mem.1, h.sectorMismatch⟩

theorem State.mirrorLine_unwritten (s : State) (w : Writer) (id line : Nat) : Unwritten s (s.mirrorLine w id line) := by
  unfold State.mirrorLine
  dsimp only
  split_ifs <;> exact ⟨rfl, rfl, fun _ => rfl⟩

theorem State.publishLine_unwritten (s : State) (w : Writer) (id line : Nat) : Unwritten s (s.publishLine w id line) :=
  ⟨rfl, rfl, fun _ => rfl⟩

theorem State.putLines_unwritten (s : State) (w : Writer) (id pa n : Nat) : Unwritten s (s.putLines w id pa n) := by
  unfold State.putLines
  split
  · exact .refl s
  · exact List.foldlRecOn (motive := Unwritten s) _ _ (.refl s) fun t ht line _ =>
      (ht.trans (t.mirrorLine_unwritten w id line)).trans (State.publishLine_unwritten _ w id line)

theorem State.noteRewrite_unwritten (s : State) (pa n : Nat) : Unwritten s (s.noteRewrite pa n) := by
  unfold State.noteRewrite
  dsimp only
  split <;> exact ⟨rfl, rfl, fun _ => rfl⟩

/-- A run within a sector is one piece. -/
theorem cutSectors_within {pa : Nat} {data : List Byte} (some : 0 < data.length) (within : pa % 32 + data.length ≤ 32) :
    cutSectors (data.length + 1) pa data = [(pa, data)] := by
  obtain ⟨n, hn⟩ : ∃ n, data.length = n + 1 := ⟨data.length - 1, by omega⟩
  have all : data.take (32 - pa % 32) = data := List.take_of_length_le (by omega)
  have rest : data.drop (32 - pa % 32) = [] := List.drop_of_length_le (by omega)
  rw [hn]
  unfold cutSectors
  rw [if_neg (by rw [List.isEmpty_iff]; exact List.length_pos_iff.1 some)]
  dsimp only
  rw [all, rest]
  rfl

theorem State.announced_unwritten (s : State) (w : Writer) {pa : Nat} (there : paExists pa = true) (n : Nat) :
    Unwritten s (s.announced w pa n) := by
  have linked : Unwritten s ((checkPa s pa).countLink pa) := by
    rw [show checkPa s pa = s from if_pos there]
    exact (s.countLink_countersOnly pa).unwritten
  unfold State.announced
  split
  · exact linked.trans (State.noteRewrite_unwritten _ _ _)
  · exact linked

/-- A write over sound sectors of an address that exists puts its bytes (R290, R301, R342). -/
theorem State.homeWrite_of_sound {s : State} (w : Writer) (id : Nat) {pa : Nat} {data : List Byte} (there : paExists pa = true)
    (sound : ∀ sec ∈ sectorsOf pa data.length, s.sectorMismatch sec = false) :
    (s.homeWrite w id pa data).mem = Memory.writeN s.mem pa data ∧ (s.homeWrite w id pa data).halt = s.halt := by
  have front := s.announced_unwritten w there data.length
  obtain ⟨mem, halt⟩ := State.foldl_writeSector w (data.length + 1) (s := s.announced w pa data.length) (data := data)
    (Nat.lt_succ_self _) fun sec touched => (front.checks sec).trans (sound sec touched)
  rw [State.homeWrite_eq, State.putLines_mem, State.putLines_halt]
  exact ⟨mem.trans (congrArg (Memory.writeN · pa data) front.mem), halt.trans front.halt⟩

/-- A write within a sound sector leaves every sound sector sound (R342). -/
theorem State.homeWrite_checks {s : State} (order : MemoryInOrder s) (w : Writer) (id : Nat) {pa sec : Nat} {data : List Byte}
    (there : paExists pa = true) (some : 0 < data.length) (within : pa % 32 + data.length ≤ 32)
    (own : s.sectorMismatch (pa / 32) = false) (sound : s.sectorMismatch sec = false) :
    (s.homeWrite w id pa data).sectorMismatch sec = false := by
  have front := s.announced_unwritten w there data.length
  rw [State.homeWrite_eq, (State.putLines_unwritten _ _ _ _ _).checks, cutSectors_within some within, List.foldl_cons,
    List.foldl_nil, State.writeSector_of_sound w data ((front.checks _).trans own)]
  by_cases e : sec = pa / 32
  · rw [e]
    exact State.sectorMismatch_putSector_self ((s.announced_orderly w pa data.length).order order) w _ some within
  · rw [State.sectorMismatch_putSector_other _ w _ some within e]
    exact (front.checks sec).trans sound

/-! The D bit (R297). -/

/-- A clear bit set. -/
theorem or_two_pow_of_clear {e i : Nat} (clear : bit e i = false) : e ||| 2 ^ i = e + 2 ^ i := by
  have even : e / 2 ^ i % 2 = 0 := by
    unfold bit at clear
    have := beq_eq_false_iff_ne.1 clear
    omega
  have low : e % 2 ^ i < 2 ^ i := Nat.mod_lt _ (by positivity)
  have parts := Nat.div_add_mod e (2 ^ i)
  have sum : e + 2 ^ i = 2 ^ i * (e / 2 ^ i + 1) + e % 2 ^ i := by
    rw [Nat.mul_succ]
    omega
  refine Nat.eq_of_testBit_eq fun j => ?_
  rw [sum, Nat.testBit_or, Nat.testBit_two_pow_mul_add _ low, Nat.testBit_two_pow]
  conv_lhs => rw [← parts, Nat.testBit_two_pow_mul_add _ low]
  by_cases below : j < i
  · rw [if_pos below, if_pos below, decide_eq_false (by omega), Bool.or_false]
  · rw [if_neg below, if_neg below]
    rcases Nat.eq_zero_or_pos (j - i) with zero | pos
    · rw [zero, Nat.testBit_zero, Nat.testBit_zero, decide_eq_true (by omega : i = j), Bool.or_true]
      exact (decide_eq_true (by omega)).symm
    · obtain ⟨k, hk⟩ : ∃ k, j - i = k + 1 := ⟨j - i - 1, by omega⟩
      rw [hk, Nat.testBit_succ, Nat.testBit_succ, decide_eq_false (by omega : ¬ i = j), Bool.or_false]
      exact congrArg (Nat.testBit · k) (by omega)

/-- The bytes of a page that a leaf maps. -/
def leafBytes (e : Nat) : Nat := if bits e 52 2 = 2 then 2 ^ 21 else if bits e 52 2 = 3 then 2 ^ 30 else 2 ^ 12

/-- The leaf of a place still maps it, and its D bit is clear (R297). -/
def needsDirty (e : Nat) (p : Place) : Bool :=
  bit e 0 && !(bit e 55) && !(bit e 11) && decide (bits e 12 40 * 4096 ≤ p.addr ∧ p.addr < bits e 12 40 * 4096 + leafBytes e)

theorem dirtied_of_leaf {s : State} {p : Place} {a : Nat} (leaf : p.leaf = some a) :
    dirtied s p = if needsDirty (leNat (Memory.readN s.mem a 8)) p then
      Memory.writeN s.mem a (leBytes 8 (leNat (Memory.readN s.mem a 8) + 2 ^ 11)) else s.mem := by
  unfold dirtied needsDirty
  rw [leaf]
  simp only [Bool.and_eq_true, Bool.not_eq_true', decide_eq_true_eq, and_assoc]
  rfl

theorem State.setDirtyBit_of_leaf {s : State} {p : Place} {a : Nat} (leaf : p.leaf = some a) :
    s.setDirtyBit p = if needsDirty (leNat (Memory.readN s.mem a 8)) p then s.pteOr a (2 ^ 11) else s := by
  unfold State.setDirtyBit needsDirty leafBytes
  rw [leaf]
  dsimp only
  have size : pteSize (s.read64 a) < 4 := Nat.mod_lt _ (by decide)
  have same : pteSize (s.read64 a) = bits (leNat (Memory.readN s.mem a 8)) 52 2 := rfl
  rw [← same]
  generalize pteSize (s.read64 a) = z at size
  interval_cases z <;> rfl

/-- Setting the D bit puts it, and leaves every sound sector sound (R297). -/
theorem State.setDirtyBit_written {s : State} (order : MemoryInOrder s) {p : Place} (fit : leafFit s p) :
    (s.setDirtyBit p).mem = dirtied s p ∧ (s.setDirtyBit p).halt = s.halt ∧
      ∀ sec, s.sectorMismatch sec = false → (s.setDirtyBit p).sectorMismatch sec = false := by
  cases leaf : p.leaf with
  | none =>
    unfold State.setDirtyBit dirtied
    rw [leaf]
    exact ⟨rfl, rfl, fun _ => id⟩
  | some a =>
    obtain ⟨aligned, there, good⟩ := fit a leaf
    have len (v : Nat) : (leBytes 8 v).length = 8 := leBytes_length 8 v
    have bad : s.badSectors a 8 = [] := by
      unfold State.badSectors
      rw [sectorsOf_within (by decide) (by omega)]
      exact List.filter_eq_nil_iff.2 fun sec hs => by
        rw [List.mem_singleton.1 hs, good]
        exact Bool.false_ne_true
    rw [State.setDirtyBit_of_leaf leaf, dirtied_of_leaf leaf]
    by_cases needs : needsDirty (leNat (Memory.readN s.mem a 8)) p = true
    · rw [if_pos needs, if_pos needs]
      have clear : bit (leNat (Memory.readN s.mem a 8)) 11 = false := by
        unfold needsDirty at needs
        simp only [Bool.and_eq_true, Bool.not_eq_true'] at needs
        exact needs.1.2
      have value : s.read64 a ||| 2 ^ 11 = leNat (Memory.readN s.mem a 8) + 2 ^ 11 := or_two_pow_of_clear clear
      unfold State.pteOr
      rw [value]
      obtain ⟨mem, halt⟩ := State.hwWrite_of_sound true true (data := leBytes 8 (leNat (Memory.readN s.mem a 8) + 2 ^ 11)) there
        (by rw [len]; exact bad)
      refine ⟨mem, halt, fun sec sound => ?_⟩
      exact State.homeWrite_checks (s := s.take.2) order _ _ there (by rw [len]; decide) (by rw [len]; omega)
        (State.sectorMismatch_of_sound bad (mem_sectorsOf.2 ⟨by decide, le_rfl, by omega⟩)) sound
    · rw [if_neg needs, if_neg needs]
      exact ⟨rfl, rfl, fun _ => id⟩

theorem wf_dirtied {s : State} (order : MemoryInOrder s) (p : Place) : Memory.wf (dirtied s p) = true := by
  cases leaf : p.leaf with
  | none =>
    unfold dirtied
    rw [leaf]
    exact order.1
  | some a =>
    rw [dirtied_of_leaf leaf]
    split
    · exact Memory.wf_writeN _ _ _ order.1
    · exact order.1

/-! An update (R228, R308). -/

/-- Who writes an update of a thread. -/
def State.updater (s : State) (l : LaneRef) : Writer :=
  ⟨some l, some (s.homeOfLane l).2, some (s.homeOfLane l).1, none, true, false, false⟩

/-- An update before the dirty bitmap notes it. -/
def State.updated (s : State) (l : LaneRef) (p : Place) (data : List Byte) : State :=
  (s.take.2.setDirtyBit p).homeWrite (s.updater l) s.take.1 p.addr data

theorem noBitmap_of_bareWork {s t : State} {l : LaneRef} (h : t.bareWork = s.bareWork) (clean : noBitmap s l) : noBitmap t l := by
  intro k launch
  have bare := launchOf?_of_bareWork h l.wg
  rw [launch] at bare
  obtain ⟨k', launch', same⟩ := Option.map_eq_some_iff.1 bare.symm
  exact (congrArg (fun k : Launch => k.ctx.dbm) same.symm).trans (clean k' launch')

section
variable {s : State} {l : LaneRef} {p : Place} {data : List Byte}

theorem State.updated_bareWork : (s.updated l p data).bareWork = s.bareWork :=
  (State.homeWrite_bareWork _ _ _ _ _).trans (bareWork_of_work (State.setDirtyBit_work _ p))

/-- Without a bitmap an update is its D bit and its bytes (R308). -/
theorem State.update_of_noBitmap {w : Workgroup} (there : s.wg? l.wg = some w) (clean : noBitmap s l) (va : Nat) :
    s.update l p va data = s.updated l p data := by
  have launch : (s.homeOfLane l).1 = w.launch := by
    unfold State.homeOfLane
    rw [there]
    rfl
  have wg : (s.updated l p data).wg? l.wg = some w := (wg?_of_wgs (wgs_of_bareWork State.updated_bareWork) l.wg).trans there
  change (match (s.updated l p data).launch? (s.homeOfLane l).1 with
    | some k => (s.updated l p data).markDirty k.ctx va data.length
    | none => s.updated l p data) = _
  rw [launch]
  cases found : (s.updated l p data).launch? w.launch with
  | none => rfl
  | some k =>
    have none : k.ctx.dbm = 0 := noBitmap_of_bareWork (State.updated_bareWork (p := p) (data := data)) clean k (by
      unfold State.launchOf?
      rw [wg]
      exact found)
    exact if_pos (.inl none)

theorem State.setDirtyBit_orderly (s : State) (p : Place) : Orderly s (s.setDirtyBit p) := by
  cases leaf : p.leaf with
  | none =>
    unfold State.setDirtyBit
    rw [leaf]
    exact .refl s
  | some a =>
    rw [State.setDirtyBit_of_leaf leaf]
    split
    · exact State.hwWrite_orderly _ _ _ _ _
    · exact .refl s

theorem State.updated_orderly : Orderly s (s.updated l p data) := by
  have taken : Orderly s s.take.2 := ⟨rfl, id, id⟩
  exact taken.trans ((State.setDirtyBit_orderly _ p).trans (State.homeWrite_orderly _ _ _ _ _))

/-- An update over sound sectors of an address that exists puts its bytes after the D bit (R228, R297). -/
theorem State.updated_written (order : MemoryInOrder s) (fit : leafFit s p) (there : paExists p.addr = true)
    (sound : ∀ sec ∈ sectorsOf p.addr data.length, s.sectorMismatch sec = false) :
    (s.updated l p data).mem = Memory.writeN (dirtied s p) p.addr data ∧ (s.updated l p data).halt = s.halt := by
  obtain ⟨mem, halt, checks⟩ := State.setDirtyBit_written (s := s.take.2) order (p := p) fit
  obtain ⟨mem', halt'⟩ := State.homeWrite_of_sound (s.updater l) s.take.1 there fun sec touched =>
    checks sec (sound sec touched)
  exact ⟨mem'.trans (congrArg (Memory.writeN · p.addr data) mem), halt'.trans halt⟩

end

end Sys2Proof.Machine
end

