-- ==== Sys2Proof/Proofs/Outliers.lean ====
section
/-! CVTX of one lane with an outlier (R110 to R112, R145). -/

namespace Sys2Proof.Machine

open Sys2Proof.Spec

/-! The state in which the lane reads. -/

theorem atCvtx_eq (s : State) (l : LaneRef) (d a b : Opnd) : atCvtx s l d a b = readingNow s [l] [d, a, b] :=
  State.taint_eq_readingNow s [l] [d, a, b]

/-- What a lane's operands are read from depends on the work of the cores and the number of the slot. -/
theorem env_of_bareWork {s t : State} (h : t.bareWork = s.bareWork) (fresh : t.fresh = s.fresh) (l : LaneRef) :
    t.env l = s.env l := by
  have wgs := wgs_of_bareWork h
  have cmds : t.cmds = s.cmds := congrArg Work.cmds h
  have twins (m : LaneRef) : t.twins m = s.twins m := by
    unfold State.twins
    rw [prot_of_bareWork h]
  have rig : t.rig? l.wg l.rig = s.rig? l.wg l.rig := by
    unfold State.rig?
    rw [wg?_of_wgs wgs]
  have unread : t.unread l = s.unread l := by
    unfold State.unread
    simp only [twins, cmds, show t.loads = s.loads from congrArg Work.loads h]
  unfold State.env State.windowSets
  rw [rig, unread, cmds, fresh]

/-- A lane with a thread has a workgroup. -/
theorem exists_wg_of_thread {s : State} {l : LaneRef} (there : (s.thread l).life ≠ .absent) : ∃ w, s.wg? l.wg = some w := by
  cases found : s.wg? l.wg with
  | some w => exact ⟨w, rfl⟩
  | none =>
    refine absurd ?_ there
    unfold State.thread State.rig?
    rw [found]
    rfl

/-- The outlier that the lane's operands give. -/
def outlierAt (s : State) (l : LaneRef) (d a b : Opnd) : Outlier :=
  ⟨(reads64 s b l).toNat, (reads s d l).toNat, (reads s a l).toNat⟩

/-- The outlier of a lane in the state in which it reads (R110). -/
theorem outlierOf_atCvtx {s : State} {l : LaneRef} {dt : Ty} {m : Rnd} {d a b : Opnd}
    (out : outlier dt m (drawn m (s.thread l)).1 (reads s a l) = true) :
    outlierOf (atCvtx s l d a b) dt m d a b l = some (outlierAt s l d a b) := by
  have draw : (((reading s [l] [d, a, b]).thread l).draw m).1 = (drawn m (s.thread l)).1 := by
    obtain ⟨rows, thread⟩ := thread_reading s [l] [d, a, b] l
    rw [thread, drawn_eq_draw]
    cases m <;> rfl
  unfold outlierOf
  rw [atCvtx_eq, env_readingNow, thread_readingNow, view_reading, draw, src_reading, src_reading, src64_reading, ← outlier_eq, out,
    if_pos rfl]
  rfl

theorem State.homeOfLane_core (s : State) (l : LaneRef) : (s.homeOfLane l).2 = coreOf s l := by
  unfold State.homeOfLane coreOf
  cases s.wg? l.wg <;> rfl

section
variable {s s1 : State} {g : Group} {gd : Guard} {dt : Ty} {m : Rnd} {d a b : Opnd} {l : LaneRef} {p : Place} {v : Nat}

theorem listAt_bareWork (list : ListAt s l d a b s1 p v) : s1.bareWork = (atCvtx s l d a b).bareWork := by
  obtain ⟨q, access⟩ := list.access
  have kept := (atCvtx s l d a b).coreAccess_bareWork l .rmw (reads64 s b l).toNat
  rwa [access] at kept

theorem listAt_orderly (list : ListAt s l d a b s1 p v) :
    Orderly (atCvtx s l d a b) s1 ∧ Placed s1 (reads64 s b l).toNat p := by
  obtain ⟨q, access⟩ := list.access
  obtain ⟨orderly, placed⟩ := (atCvtx s l d a b).coreAccess_orderly l .rmw (reads64 s b l).toNat
  rw [access] at orderly placed
  exact ⟨orderly, placed p q rfl⟩

/-- A descriptor that passes its checks (R112). -/
theorem descCheck_of_listAt (list : ListAt s l d a b s1 p v) :
    (atCvtx s l d a b).descCheck l (outlierAt s l d a b) = (homed s1 l p, .ok p) := by
  obtain ⟨q, access⟩ := list.access
  have bare := listAt_bareWork list
  have still : quiet s1 l := by
    unfold quiet
    rw [show s1.loads = s.loads from (congrArg Work.loads bare).trans (by rw [atCvtx_eq]; rfl),
      show s1.stores = s.stores from (congrArg Work.stores bare).trans (by rw [atCvtx_eq]; rfl)]
    exact list.quiet
  have value : leNat ((s1.dropCopies (coreOf s1 l) (p.addr / 128)).homeRead p.addr 32) = v := list.holds.symm
  unfold State.descCheck outlierAt
  dsimp only
  rw [list.aligned, access, if_neg (by decide)]
  dsimp only
  rw [State.settle_of_quiet still, list.sound, State.reportChecks_of_sound list.sound, State.homeOfLane_core]
  rw [value, list.zero, list.base]
  unfold homed
  rw [if_neg (by exact Bool.false_ne_true), if_neg fun ne => ne rfl, if_neg fun ne => ne rfl]

/-- CVTX of one lane writes the destination as the fate of its outlier says (R111). -/
theorem cvtx_of_append {u : State} {kept : Bool} (one : One s g (.cvtx gd dt m d a b) gd l)
    (out : outlier dt m (drawn m (s.thread l)).1 (reads s a l) = true) (list : ListAt s l d a b s1 p v)
    (append : (homed s1 l p).append l (outlierAt s l d a b) p = (u, kept, none)) :
    exec (.cvtx gd dt m d a b) s = conclude (u.mapLanes (u.twins l) (cvtxWrite dt m d a (some kept))) := by
  have plain : (atCvtx s l d a b).prot l.wg = false := by
    rw [atCvtx_eq]
    exact (prot_reading (s := s) (ls := [l]) (ops := [d, a, b]) l.wg).trans one.plain
  have found := outlierOf_atCvtx (dt := dt) (m := m) (d := d) (b := b) out
  have check := descCheck_of_listAt list
  change execCvtx gd dt m d a b s = _
  unfold execCvtx
  rw [issue_of_one one]
  dsimp only
  rw [show ({ s with fresh := s.fresh + 1 } : State).taint [l] [d, a, b] = atCvtx s l d a b from rfl]
  generalize atCvtx s l d a b = r at found check plain ⊢
  unfold outlierOf at found
  rw [List.map_cons, List.map_nil, found, State.agree_of_plain plain]
  dsimp only
  generalize outlierAt s l d a b = o at check append ⊢
  rw [show [(l, some o)].filterMap (fun x => x.2.map fun o => (x.1, o)) = [(l, o)] from rfl, List.foldl_cons, List.foldl_nil]
  dsimp only
  rw [check]
  dsimp only
  rw [List.nil_append, List.findSome?_cons, List.findSome?_nil, List.findSome?_cons, List.findSome?_nil, List.any_cons, List.any_nil,
    List.foldl_cons, List.foldl_nil]
  dsimp only
  rw [List.foldl_cons, List.foldl_nil]
  dsimp only
  rw [append, List.nil_append, List.find?_cons_of_pos (by exact beq_self_eq_true l)]
  rfl

/-! The word of the descriptor (R111). -/

theorem inOrder_of_listAt (one : One s g (.cvtx gd dt m d a b) gd l) (list : ListAt s l d a b s1 p v) : MemoryInOrder s1 := by
  refine (listAt_orderly list).1.order ?_
  rw [atCvtx_eq]
  exact one.inv.mem

/-- The sector of the descriptor exists (R290). -/
theorem paExists_add {x n : Nat} (aligned : x % 32 = 0) (lt : n < 32) (there : paExists x = true) : paExists (x + n) = true := by
  have same : region (x + n) = region x := by
    unfold region
    omega
  unfold paExists at there ⊢
  rw [same]
  split at there
  · have below := of_decide_eq_true there
    unfold Config.localBytes at below ⊢
    exact decide_eq_true (by omega)
  · rfl
  · rfl
  · exact there

theorem wg_of_listAt (one : One s g (.cvtx gd dt m d a b) gd l) (list : ListAt s l d a b s1 p v) :
    ∃ w, s1.wg? l.wg = some w := by
  refine exists_wg_of_thread (l := l) ?_
  rw [State.thread_of_wgs (wgs_of_bareWork (listAt_bareWork list)), atCvtx_eq, thread_readingNow]
  obtain ⟨rows, thread⟩ := thread_reading s [l] [d, a, b] l
  rw [thread]
  exact ne_absent_of_alive one.alive

theorem noBitmap_of_listAt (clean : noBitmap s l) (list : ListAt s l d a b s1 p v) : noBitmap s1 l := by
  refine noBitmap_of_bareWork (listAt_bareWork list) ?_
  rw [atCvtx_eq]
  intro k launch
  exact clean k ((launchOf?_reading (s := s) (ls := [l]) (ops := [d, a, b]) l.wg).symm.trans launch)

/-- A word of the descriptor is written at its home (R111). -/
theorem update_of_listAt (one : One s g (.cvtx gd dt m d a b) gd l) (clean : noBitmap s l) (list : ListAt s l d a b s1 p v)
    {ofs va value : Nat} (within : ofs + 4 ≤ 32) {u : State}
    (update : u = (homed s1 l p).update l { p with addr := p.addr + ofs } va (leBytes 4 value)) :
    wordWritten s1 u.mem p ofs value ∧ u.halt = none ∧ u.bareWork = (atCvtx s l d a b).bareWork ∧
      u.fresh = (atCvtx s l d a b).fresh := by
  obtain ⟨w, there⟩ := wg_of_listAt one list
  obtain ⟨orderly, placed⟩ := listAt_orderly list
  have aligned : p.addr % 32 = 0 := by
    have page := placed.aligned
    have desc := list.aligned
    omega
  have len : (leBytes 4 value).length = 4 := leBytes_length 4 value
  have exists_ : paExists (p.addr + ofs) = true := paExists_add aligned (by omega) (placed.there list.going)
  have sound (sec : Nat) (touched : sec ∈ sectorsOf (p.addr + ofs) (leBytes 4 value).length) : s1.sectorMismatch sec = false := by
    obtain ⟨-, low, high⟩ := mem_sectorsOf.1 touched
    exact State.sectorMismatch_of_sound list.sound (mem_sectorsOf.2 ⟨by decide, by omega, by omega⟩)
  have order := inOrder_of_listAt one list
  have bare := listAt_bareWork list
  have fresh := orderly.fresh
  have fit := list.fit
  have going := list.going
  have clean' := noBitmap_of_listAt clean list
  rw [State.update_of_noBitmap (s := homed s1 l p) there clean' va] at update
  obtain ⟨mem, halt⟩ := State.updated_written (s := homed s1 l p) (l := l) (p := { p with addr := p.addr + ofs })
    (data := leBytes 4 value) order fit exists_ sound
  rw [update]
  refine ⟨?_, halt.trans going, State.updated_bareWork.trans bare, State.updated_orderly.fresh.trans fresh⟩
  rw [mem]
  exact ⟨holdsBytes_writeN (wf_dirtied order _) _ _, fun x outside => Memory.read_writeN_other _ _ _ _ (by rw [len]; exact outside)⟩

/-! The destination (R111). -/

theorem cvtxWrite_kept (narrow : dt.wide = false) (e : Env) (t : Thread) :
    cvtxWrite dt m d a (some true) e t = e.put (drawn m t).2 d 0#32 := by
  unfold cvtxWrite Env.putT
  dsimp only
  rw [narrow, drawn_eq_draw]
  rfl

theorem cvtxWrite_dropped {f : Fmt} (format : dt.fmt? = some f) (narrow : dt.wide = false) (e : Env) (t : Thread) :
    cvtxWrite dt m d a (some false) e t = putFlags e (drawn m t).2 d
      ((spread dt ((if (e.src t a).getLsbD 31 then 2 ^ f.sign else 0) + f.maxBits)).toNat, 36) := by
  have largest : maxWith dt ((e.src t a).toNat / 2 ^ 31 % 2 == 1) =
      (if (e.src t a).getLsbD 31 then 2 ^ f.sign else 0) + f.maxBits := by
    unfold maxWith
    rw [format, getLsbD_sign]
    rfl
  unfold cvtxWrite
  dsimp only
  rw [putT_placeElem, narrow, largest, drawn_eq_draw]
  unfold putFlags
  dsimp only
  rw [BitVec.ofNat_toNat, BitVec.setWidth_eq]
  rfl

/-- The lane writes its destination in a state with the workgroups and the operands of the one it read in. -/
theorem write_of_listAt (one : One s g (.cvtx gd dt m d a b) gd l) {u : State} (wgs : u.wgs = (atCvtx s l d a b).wgs)
    (env : u.env l = view s l) (plain : u.prot l.wg = false) (f : Env → Thread → Thread) :
    u.mapLanes (u.twins l) f = u.setThread l (fun _ => f (view s l) ((atCvtx s l d a b).thread l)) ∧
      threadOnly (atCvtx s l d a b) (u.mapLanes (u.twins l) f) l (f (view s l) ((atCvtx s l d a b).thread l)) := by
  have there : ((atCvtx s l d a b).thread l).life ≠ .absent := by
    rw [atCvtx_eq, thread_readingNow]
    obtain ⟨rows, thread⟩ := thread_reading s [l] [d, a, b] l
    rw [thread]
    exact ne_absent_of_alive one.alive
  rw [State.mapLanes_twins_of_plain plain, env, State.thread_of_wgs wgs]
  exact ⟨rfl, threadOnly_setThread (threadOnly_of_wgs wgs l) there fun _ => f (view s l) ((atCvtx s l d a b).thread l)⟩

/-- What an access of the lane leaves of what its destination needs. -/
theorem ready_of_bareWork (one : One s g (.cvtx gd dt m d a b) gd l) {u : State}
    (bare : u.bareWork = (atCvtx s l d a b).bareWork) (fresh : u.fresh = (atCvtx s l d a b).fresh) :
    u.wgs = (atCvtx s l d a b).wgs ∧ u.env l = view s l ∧ u.prot l.wg = false ∧ u.stores = s.stores ∧ u.loads = s.loads := by
  refine ⟨wgs_of_bareWork bare, ?_, ?_, (congrArg Work.stores bare).trans ?_, (congrArg Work.loads bare).trans ?_⟩
  · rw [env_of_bareWork bare fresh, atCvtx_eq, env_readingNow, view_reading]
  · rw [prot_of_bareWork bare, atCvtx_eq]
    exact (prot_reading (s := s) (ls := [l]) (ops := [d, a, b]) l.wg).trans one.plain
  · rw [atCvtx_eq]
    rfl
  · rw [atCvtx_eq]
    rfl

/-- The reservation of an entry (R111). -/
theorem append_of_room {s2 s3 : State} {p2 : Place} {q : Nat} (list : ListAt s l d a b s1 p v)
    (room : bits v 96 32 < bits v 64 32)
    (counted : s2 = (homed s1 l p).update l { p with addr := p.addr + 12 } ((reads64 s b l).toNat + 12)
      (leBytes 4 (bits v 96 32 + 1)))
    (access : s2.coreAccess l .write ((bits v 0 64 + 8 * bits v 96 32) % 2 ^ 64) = (s3, .ok p2 q)) :
    (homed s1 l p).append l (outlierAt s l d a b) p =
      (s3.addStore l p2 ((bits v 0 64 + 8 * bits v 96 32) % 2 ^ 64)
        (leBytes 4 (reads s d l).toNat ++ leBytes 4 (reads s a l).toNat), true, none) := by
  have value : leNat ((homed s1 l p).homeRead p.addr 32) = v := list.holds.symm
  unfold State.append outlierAt
  dsimp only
  rw [value, if_pos room, ← counted, access]

/-- A full list drops (R111). -/
theorem append_of_full (list : ListAt s l d a b s1 p v) (full : bits v 64 32 ≤ bits v 96 32) :
    (homed s1 l p).append l (outlierAt s l d a b) p =
      ((homed s1 l p).update l { p with addr := p.addr + 16 } ((reads64 s b l).toNat + 16)
        (leBytes 4 (bits v 128 32 + 1)), false, none) := by
  have value : leNat ((homed s1 l p).homeRead p.addr 32) = v := list.holds.symm
  unfold State.append outlierAt
  dsimp only
  rw [value, if_neg (Nat.not_lt.2 full)]

/-- CVTX with an outlier whose list has room (R111). -/
theorem cvtx_kept_next {s2 s3 : State} {p2 : Place} {q : Nat} (narrow : dt.wide = false)
    (one : One s g (.cvtx gd dt m d a b) gd l) (clean : noBitmap s l)
    (out : outlier dt m (drawn m (s.thread l)).1 (reads s a l) = true) (list : ListAt s l d a b s1 p v)
    (room : bits v 96 32 < bits v 64 32)
    (counted : s2 = (homed s1 l p).update l { p with addr := p.addr + 12 } ((reads64 s b l).toNat + 12)
      (leBytes 4 (bits v 96 32 + 1)))
    (access : s2.coreAccess l .write ((bits v 0 64 + 8 * bits v 96 32) % 2 ^ 64) = (s3, .ok p2 q)) (going : s3.halt = none) :
    wordWritten s1 s2.mem p 12 (bits v 96 32 + 1) ∧
    ∃ t r, exec (.cvtx gd dt m d a b) s = .next t ∧ t.mem = s3.mem ∧ t.stores = s.stores ++ [r] ∧ r.lane = l ∧
      r.place = p2 ∧ r.data = leBytes 4 (reads s d l).toNat ++ leBytes 4 (reads s a l).toNat ∧ t.loads = s.loads ∧
      threadOnly (atCvtx s l d a b) t l ((view s l).put (drawn m ((atCvtx s l d a b).thread l)).2 d 0#32) := by
  obtain ⟨written, -, bare, fresh⟩ := update_of_listAt one clean list (by decide) counted
  have kept := s2.coreAccess_bareWork l .write ((bits v 0 64 + 8 * bits v 96 32) % 2 ^ 64)
  have same := (s2.coreAccess_orderly l .write ((bits v 0 64 + 8 * bits v 96 32) % 2 ^ 64)).1.fresh
  rw [access] at kept same
  obtain ⟨wgs, env, plain, stores, loads⟩ := ready_of_bareWork one (kept.trans bare) (same.trans fresh)
  obtain ⟨w, there⟩ := wg_of_listAt one list
  have there' : s3.wg? l.wg = some w :=
    (wg?_of_wgs (wgs.trans (wgs_of_bareWork (listAt_bareWork list)).symm) l.wg).trans there
  have append := append_of_room list room counted access
  rw [State.addStore_of_wg there'] at append
  have run := cvtx_of_append one out list append
  obtain ⟨result, only⟩ := write_of_listAt one (u := { s3 with
    serial := s3.serial + 1
    stores := s3.stores ++ [⟨s3.serial, s3.fresh, l, w.launch, w.core, p2, (bits v 0 64 + 8 * bits v 96 32) % 2 ^ 64,
      leBytes 4 (reads s d l).toNat ++ leBytes 4 (reads s a l).toNat, .wg, none, none, false⟩] }) wgs env plain
    (cvtxWrite dt m d a (some true))
  rw [cvtxWrite_kept narrow] at result only
  rw [result] at run only
  exact ⟨written, _, _, run.trans ((conclude_eq_next _ _).2 ⟨going, rfl⟩), rfl,
    congrArg (· ++ [_]) stores, rfl, rfl, rfl, loads, only⟩

/-- CVTX with an outlier whose list is full (R111). -/
theorem cvtx_dropped_next {f : Fmt} (narrow : dt.wide = false) (format : dt.fmt? = some f)
    (one : One s g (.cvtx gd dt m d a b) gd l) (clean : noBitmap s l)
    (out : outlier dt m (drawn m (s.thread l)).1 (reads s a l) = true) (list : ListAt s l d a b s1 p v)
    (full : bits v 64 32 ≤ bits v 96 32) :
    ∃ t, exec (.cvtx gd dt m d a b) s = .next t ∧ wordWritten s1 t.mem p 16 ((bits v 128 32 + 1) % 2 ^ 32) ∧
      t.stores = s.stores ∧ t.loads = s.loads ∧
      threadOnly (atCvtx s l d a b) t l (putFlags (view s l) (drawn m ((atCvtx s l d a b).thread l)).2 d
        ((spread dt ((if (reads s a l).getLsbD 31 then 2 ^ f.sign else 0) + f.maxBits)).toNat, 36)) := by
  have append := append_of_full list full
  rw [← leBytes_mod 4 (bits v 128 32 + 1)] at append
  obtain ⟨written, going, bare, fresh⟩ := update_of_listAt one clean list (ofs := 16) (by decide) rfl
  obtain ⟨wgs, env, plain, stores, loads⟩ := ready_of_bareWork one bare fresh
  have run := cvtx_of_append one out list append
  obtain ⟨result, only⟩ := write_of_listAt one wgs env plain (cvtxWrite dt m d a (some false))
  have sign : (view s l).src ((atCvtx s l d a b).thread l) a = reads s a l := by
    rw [atCvtx_eq, thread_readingNow, src_reading]
  rw [cvtxWrite_dropped format narrow, sign] at result only
  rw [result] at run only
  exact ⟨_, run.trans ((conclude_eq_next _ _).2 ⟨going, rfl⟩), written, stores, loads, only⟩

end

/-- Settles O26: the model's elements are those of the formulas, and the lane of an outlier updates its list as R111 says. -/
theorem conversions : Obligations.Conversions := by
  unfold Obligations.Conversions
  refine ⟨conversion_computes, ?_, ?_⟩
  · intro gd dt m d a b s g l s1 s2 s3 p p2 q v wf one clean out list room counted access going
    exact cvtx_kept_next (wide_of_cvtx wf) one clean out list room counted access going
  · intro gd dt m f d a b s g l s1 p v wf format one clean out list full
    exact cvtx_dropped_next (wide_of_cvtx wf) format one clean out list full

end Sys2Proof.Machine
end

