-- ==== Sys2Proof/Proofs/IntegerWords.lean ====
section
/-! SUPPORT. Integer formulas (R125 to R129): the model's arithmetic on numbers is arithmetic on words, at every width. -/

namespace Sys2Proof.Machine

open Sys2Proof.Spec

/-! Words as integers (R97). -/

section
variable {w : Nat} (a b c : BitVec w)

theorem wrapInt_toInt : wrapInt w a.toInt = a.toNat := by rw [wrapInt_eq_ofInt, BitVec.ofInt_toInt]

/-- An extended word is the integer that its sign gives. -/
theorem extended_eq_ofInt (sg : Bool) (pos : 0 < w) (v : Nat) :
    (if sg then a.signExtend v else a.setWidth v) = BitVec.ofInt v (toInt sg w a.toNat) := by
  rw [toInt_toNat sg pos]
  cases sg with
  | true => rfl
  | false => exact (BitVec.ofNat_toNat v a).symm

theorem toInt_le_iff (sg : Bool) (pos : 0 < w) :
    toInt sg w a.toNat ≤ toInt sg w b.toNat ↔ (if sg then a.sle b else a.ule b) = true := by
  rw [toInt_toNat sg pos, toInt_toNat sg pos]
  cases sg with
  | true => exact BitVec.sle_iff_toInt_le.symm
  | false => exact Int.ofNat_le.trans BitVec.ule_iff_toNat_le.symm

theorem toNat_eq_intMin_iff (pos : 0 < w) : a.toNat = 2 ^ (w - 1) ↔ a = BitVec.intMin w := by
  rw [← BitVec.toNat_inj, BitVec.toNat_intMin_of_pos pos]

theorem toNat_eq_allOnes_iff : a.toNat = 2 ^ w - 1 ↔ a = BitVec.allOnes w := by
  rw [← BitVec.toNat_inj, BitVec.toNat_allOnes]

/-! Sums and products (R125 to R127). -/

theorem iaddF_toNat : iaddF w a.toNat b.toNat = (a + b).toNat := (BitVec.toNat_add a b).symm

theorem isubF_toNat : isubF w a.toNat b.toNat = (a - b).toNat := by
  have lt := b.isLt
  rw [isubF, BitVec.toNat_sub, Nat.mod_eq_of_lt lt]
  congr 1
  omega

theorem imulF_toNat : imulF w a.toNat b.toNat = (a * b).toNat := (BitVec.toNat_mul a b).symm

theorem imadF_toNat : imadF w a.toNat b.toNat c.toNat = (a * b + c).toNat := by
  rw [imadF, BitVec.toNat_add, BitVec.toNat_mul, Nat.mod_add_mod]

/-- The high half of a number of twice the width. -/
theorem wrapInt_ediv_eq_extract (z : Int) :
    wrapInt w (z / (2 ^ w : Nat)) = ((BitVec.ofInt (2 * w) z).extractLsb' w w).toNat := by
  have square : ((2 ^ (2 * w) : Nat) : Int) = (2 ^ w : Nat) * (2 ^ w : Nat) := by rw [two_mul, pow_add, Nat.cast_mul]
  have pos : (0 : Int) < (2 ^ w : Nat) := by positivity
  obtain ⟨n, low⟩ := Int.eq_ofNat_of_zero_le (Int.emod_nonneg z (show ((2 ^ (2 * w) : Nat) : Int) ≠ 0 by positivity))
  rw [toNat_extract, bits, BitVec.toNat_ofInt, low, Int.toNat_natCast, wrapInt,
    ← Int.emod_add_mul_ediv z (2 ^ (2 * w) : Nat), low, square, mul_assoc, Int.add_mul_ediv_left _ _ pos.ne',
    Int.add_mul_emod_self_left]
  exact congrArg Int.toNat (by push_cast; rfl : ((n : Int) / (2 ^ w : Nat)) % (2 ^ w : Nat) = ((n / 2 ^ w % 2 ^ w : Nat) : Int))

/-- IMULH (R125). -/
theorem imulhF_toNat (sg : Bool) (pos : 0 < w) : imulhF sg w a.toNat b.toNat = (mulHigh sg a b).toNat := by
  have high : mulHigh sg a b = ((if sg then a.signExtend (2 * w) else a.setWidth (2 * w)) *
      (if sg then b.signExtend (2 * w) else b.setWidth (2 * w))).extractLsb' w w := by
    unfold mulHigh
    cases sg <;> rfl
  rw [high, extended_eq_ofInt a sg pos, extended_eq_ofInt b sg pos, ← BitVec.ofInt_mul]
  exact wrapInt_ediv_eq_extract _

/-- A sum with its carry (R126) holds every bit. -/
theorem toNat_sumC (cin : Bool) : (sumC a b cin).toNat = a.toNat + b.toNat + if cin then 1 else 0 := by
  have lta := a.isLt
  have ltb := b.isLt
  have up : 2 ^ w * 2 ≤ 2 ^ (w + 1) := (pow_succ 2 w).ge
  rw [sumC, BitVec.toNat_add, BitVec.toNat_add, BitVec.toNat_setWidth, BitVec.toNat_setWidth]
  cases cin
  · simpa using Nat.mod_eq_of_lt (by omega : a.toNat + b.toNat < 2 ^ (w + 1))
  · simpa using Nat.mod_eq_of_lt (by omega : a.toNat + b.toNat + 1 < 2 ^ (w + 1))

/-- The carry out of a sum (R126). -/
theorem getLsbD_sumC (cin : Bool) :
    (sumC a b cin).getLsbD w = decide (2 ^ w ≤ a.toNat + b.toNat + if cin then 1 else 0) := by
  rw [← toNat_sumC]
  exact (BitVec.msb_eq_getLsbD_last _).symm.trans (BitVec.msb_eq_decide _)

end

/-- IDOT4 (R127). -/
theorem idot4F_toNat (sg : Bool) (a b c : Word) : idot4F sg a.toNat b.toNat c.toNat =
    (c + BitVec.ofInt 32 (byteOf sg a 0 * byteOf sg b 0 + byteOf sg a 1 * byteOf sg b 1 +
      byteOf sg a 2 * byteOf sg b 2 + byteOf sg a 3 * byteOf sg b 3)).toNat := by
  have byte (x : Word) (k : Nat) : toInt sg 8 (byteAt x.toNat k) = byteOf sg x k := by
    rw [byteAt, ← toNat_extract, toInt_toNat sg (by decide), byteOf]
  unfold idot4F
  simp only [byte]
  rw [wrapInt_eq_ofInt, add_assoc, add_assoc, add_assoc, BitVec.ofInt_add, BitVec.ofInt_natCast, BitVec.ofNat_toNat,
    BitVec.setWidth_eq, add_assoc, add_assoc]

/-! Quotients (R128). -/

/-- The quotient that does not exist at the width (R128). -/
def overflows (sg : Bool) {w : Nat} (a b : BitVec w) : Bool := sg && (a == BitVec.intMin w && b == BitVec.allOnes w)

/-- The status of a division (R128). -/
def divStatus (sg : Bool) {w : Nat} (a b : BitVec w) : Nat := if b = 0#w then 2 else if overflows sg a b then 4 else 0

theorem toNat_eq_zero_iff {w : Nat} (a : BitVec w) : a.toNat = 0 ↔ a = 0#w := by
  rw [← BitVec.toNat_inj, BitVec.toNat_ofNat, Nat.zero_mod]

section
variable {w : Nat} (pos : 0 < w) (a b : BitVec w)
include pos

theorem overflows_eq (sg : Bool) : (sg && a.toNat == 2 ^ (w - 1) && b.toNat == 2 ^ w - 1) = overflows sg a b := by
  unfold overflows
  rw [Bool.and_assoc, Bool.eq_iff_iff]
  simp only [Bool.and_eq_true, beq_iff_eq, toNat_eq_intMin_iff a pos, toNat_eq_allOnes_iff b]

theorem quot_toNat_of_ne_zero (sg : Bool) (h : b ≠ 0#w) :
    wrapInt w ((toInt sg w a.toNat).tdiv (toInt sg w b.toNat)) = (quot sg a b).toNat := by
  rw [quot, if_neg h, toInt_toNat sg pos, toInt_toNat sg pos]
  cases sg with
  | true =>
    simp only [if_true]
    rw [← wrapInt_toInt, BitVec.toInt_sdiv]
    unfold wrapInt
    rw [Int.bmod_emod]
  | false =>
    simp only [Bool.false_eq_true, if_false]
    rw [← Int.ofNat_tdiv, wrapInt_eq_ofInt, BitVec.ofInt_natCast, BitVec.toNat_ofNat, ← BitVec.toNat_udiv,
      Nat.mod_eq_of_lt (a / b).isLt]

theorem rest_toNat_of_ne_zero (sg : Bool) (h : b ≠ 0#w) :
    wrapInt w ((toInt sg w a.toNat).tmod (toInt sg w b.toNat)) = (rest sg a b).toNat := by
  rw [rest, if_neg h, toInt_toNat sg pos, toInt_toNat sg pos]
  cases sg with
  | true =>
    simp only [if_true]
    rw [← wrapInt_toInt, BitVec.toInt_srem]
  | false =>
    simp only [Bool.false_eq_true, if_false]
    rw [← Int.ofNat_tmod, wrapInt_eq_ofInt, BitVec.ofInt_natCast, BitVec.toNat_ofNat, ← BitVec.toNat_umod,
      Nat.mod_eq_of_lt (a % b).isLt]

theorem quot_of_overflows {sg : Bool} (h : overflows sg a b = true) : (quot sg a b).toNat = 2 ^ (w - 1) := by
  obtain ⟨rfl, min, ones⟩ : sg = true ∧ a = BitVec.intMin w ∧ b = BitVec.allOnes w := by simpa [overflows] using h
  have nonzero : BitVec.allOnes w ≠ 0#w := fun e => by simp at e; omega
  rw [min, ones, quot, if_neg nonzero, if_pos rfl, ← BitVec.neg_one_eq_allOnes, BitVec.intMin_sdiv_neg_one,
    BitVec.toNat_intMin_of_pos pos]

theorem rest_of_overflows {sg : Bool} (h : overflows sg a b = true) : (rest sg a b).toNat = 0 := by
  obtain ⟨rfl, min, ones⟩ : sg = true ∧ a = BitVec.intMin w ∧ b = BitVec.allOnes w := by simpa [overflows] using h
  have nonzero : BitVec.allOnes w ≠ 0#w := fun e => by simp at e; omega
  rw [ones, rest, if_neg nonzero, if_pos rfl, ← wrapInt_toInt, BitVec.toInt_srem, BitVec.toInt_allOnes, if_pos pos]
  simp [wrapInt]

/-- IDIV (R128). -/
theorem idivF_toNat (sg : Bool) : idivF sg w a.toNat b.toNat = ((quot sg a b).toNat, divStatus sg a b) := by
  unfold idivF divStatus
  rw [overflows_eq pos]
  simp only [toNat_eq_zero_iff]
  by_cases zero : b = 0#w
  · rw [if_pos zero, if_pos zero, quot, if_pos zero, BitVec.toNat_allOnes]
    rfl
  · rw [if_neg zero, if_neg zero]
    by_cases hit : overflows sg a b = true
    · rw [if_pos hit, if_pos hit, quot_of_overflows pos a b hit]
      rfl
    · rw [if_neg hit, if_neg hit, quot_toNat_of_ne_zero pos a b sg zero]

/-- IREM (R128). -/
theorem iremF_toNat (sg : Bool) : iremF sg w a.toNat b.toNat = ((rest sg a b).toNat, divStatus sg a b) := by
  unfold iremF divStatus
  rw [overflows_eq pos]
  simp only [toNat_eq_zero_iff]
  by_cases zero : b = 0#w
  · rw [if_pos zero, if_pos zero, rest, if_pos zero]
    rfl
  · rw [if_neg zero, if_neg zero]
    by_cases hit : overflows sg a b = true
    · rw [if_pos hit, if_pos hit, rest_of_overflows pos a b hit]
      rfl
    · rw [if_neg hit, if_neg hit, rest_toNat_of_ne_zero pos a b sg zero]

/-! Minimum, maximum, magnitude and negation (R129). -/

theorem iminF_toNat (sg : Bool) : iminF sg w a.toNat b.toNat = (least sg a b).toNat := by
  rw [iminF, least, ← apply_ite BitVec.toNat]
  simp only [toInt_le_iff _ _ sg pos]

theorem imaxF_toNat (sg : Bool) : imaxF sg w a.toNat b.toNat = (most sg a b).toNat := by
  rw [imaxF, most, ← apply_ite BitVec.toNat]
  simp only [toInt_le_iff _ _ sg pos]

/-- IABS (R129). -/
theorem iabsF_toNat : iabsF w a.toNat = (a.abs.toNat, if a = BitVec.intMin w then 4 else 0) := by
  unfold iabsF
  simp only [toNat_eq_intMin_iff a pos]
  by_cases min : a = BitVec.intMin w
  · rw [if_pos min, if_pos min, min, BitVec.abs_intMin]
    rfl
  · have lt := a.isLt
    have natAbs : ((a.toInt.natAbs : Nat) : Int) = a.abs.toNat := by
      rw [BitVec.toNat_abs, BitVec.toInt_eq_msb_cond]
      split <;> omega
    rw [if_neg min, if_neg min, toInt_toNat true pos, if_pos rfl, natAbs, wrapInt_eq_ofInt, BitVec.ofInt_natCast,
      BitVec.ofNat_toNat, BitVec.setWidth_eq]

/-- INEG (R129). -/
theorem inegF_toNat : inegF w a.toNat = ((-a).toNat, if a = BitVec.intMin w then 4 else 0) := by
  unfold inegF
  simp only [toNat_eq_intMin_iff a pos]
  by_cases min : a = BitVec.intMin w
  · rw [if_pos min, if_pos min, min, BitVec.neg_intMin]
    rfl
  · rw [if_neg min, if_neg min, toInt_toNat true pos, if_pos rfl, wrapInt_eq_ofInt, BitVec.ofInt_neg, BitVec.ofInt_toInt]

end

/-- ISAT (R129). -/
theorem isatF_toNat {ty : Ty} (narrow : ty.isNarrowInt = true) (a : Word) : isatF ty.signed ty.bits a.toNat =
    ((BitVec.ofInt 32 (clampTo ty a.toInt)).toNat, if clampTo ty a.toInt != a.toInt then 4 else 0) := by
  have range : max (intMin ty.signed ty.bits) (min (intMax ty.signed ty.bits) a.toInt) = clampTo ty a.toInt := by
    cases ty <;> cases narrow <;> rfl
  unfold isatF
  rw [toInt_toNat true (by decide), if_pos rfl]
  simp only [range, wrapInt_eq_ofInt, bne_iff_ne, ne_eq, ite_not]
  rfl

end Sys2Proof.Machine
end

