-- ==== Sys2Proof/Proofs/IntegerArithmetic.lean ====
section
/-! Integer arithmetic (R125 to R129): every lane computes alone, from formulas that agree with the model's. -/

namespace Sys2Proof.Machine

open Sys2Proof.Spec

/-! Operands and results at the width of a type (R65, R121). -/

theorem isIW32or64_of_isW {ty : Ty} (h : ty.isW = true) : ty.isIW32or64 = true := by cases ty <;> cases h <;> rfl

theorem isIW32or64_of_isI {ty : Ty} (h : ty.isI = true) : ty.isIW32or64 = true := by cases ty <;> cases h <;> rfl

theorem bits_eq {ty : Ty} (int : ty.isIW32or64 = true) : ty.bits = if ty.wide then 64 else 32 := by
  cases ty <;> cases int <;> rfl

/-- A result that is a word at both widths. -/
theorem putT_eq (e : Env) (t : Thread) {ty : Ty} (d : Opnd) {v : Nat} {x : Dword} {y : Word}
    (wide : ty.wide = true → v = x.toNat) (narrow : ty.wide = false → v = y.toNat) :
    e.putT t ty d v = if ty.wide then e.put64 t d x else e.put t d y := by
  unfold Env.putT
  cases h : ty.wide with
  | true => rw [if_pos rfl, if_pos rfl, wide h, BitVec.ofNat_toNat, BitVec.setWidth_eq]
  | false => rw [if_neg Bool.false_ne_true, if_neg Bool.false_ne_true, narrow h, BitVec.ofNat_toNat, BitVec.setWidth_eq]

section
variable {e : Env} {t : Thread} {ty : Ty} {o : Opnd}

theorem srcT_of_wide (h : ty.wide = true) : e.srcT t ty o = (e.src64 t o).toNat := if_pos h

theorem srcT_of_narrow (h : ty.wide = false) : e.srcT t ty o = (e.src t o).toNat := if_neg (Bool.eq_false_iff.1 h)

theorem bits_of_wide (int : ty.isIW32or64 = true) (h : ty.wide = true) : ty.bits = 64 := (bits_eq int).trans (if_pos h)

theorem bits_of_narrow (int : ty.isIW32or64 = true) (h : ty.wide = false) : ty.bits = 32 :=
  (bits_eq int).trans (if_neg (Bool.eq_false_iff.1 h))

end

section
variable (e : Env) (t : Thread) {ty : Ty} (d a b : Opnd)

/-- A formula of one operand at the width of its type. -/
theorem putT_op1 (int : ty.isIW32or64 = true) {F : Nat → Nat → Nat} {f : {w : Nat} → BitVec w → BitVec w}
    (value : ∀ {w : Nat}, 0 < w → ∀ x : BitVec w, F w x.toNat = (f x).toNat) :
    e.putT t ty d (F ty.bits (e.srcT t ty a)) = op1 e t ty d a f :=
  putT_eq e t d (fun h => by rw [bits_of_wide int h, srcT_of_wide h, value (by decide)])
    fun h => by rw [bits_of_narrow int h, srcT_of_narrow h, value (by decide)]

/-- A formula of two operands at the width of their type. -/
theorem putT_op2 (int : ty.isIW32or64 = true) {F : Nat → Nat → Nat → Nat} {f : {w : Nat} → BitVec w → BitVec w → BitVec w}
    (value : ∀ {w : Nat}, 0 < w → ∀ x y : BitVec w, F w x.toNat y.toNat = (f x y).toNat) :
    e.putT t ty d (F ty.bits (e.srcT t ty a) (e.srcT t ty b)) = op2 e t ty d a b f :=
  putT_eq e t d (fun h => by rw [bits_of_wide int h, srcT_of_wide h, srcT_of_wide h, value (by decide)])
    fun h => by rw [bits_of_narrow int h, srcT_of_narrow h, srcT_of_narrow h, value (by decide)]

/-! Sums with a carry (R126). -/

theorem carryIn_eq (c : Word) : c.toNat % 2 = if c.getLsbD 0 then 1 else 0 := by
  change _ = if c.toNat.testBit 0 then 1 else 0
  rw [Nat.testBit_zero]
  simp only [decide_eq_true_eq]
  split <;> omega

/-- The sum of IADDC. -/
theorem putT_sumC (int : ty.isIW32or64 = true) (cin : Bool) :
    e.putT t ty d ((e.srcT t ty a + e.srcT t ty b + if cin then 1 else 0) % 2 ^ ty.bits) =
      if ty.wide then e.put64 t d ((sumC (e.src64 t a) (e.src64 t b) cin).setWidth 64)
      else e.put t d ((sumC (e.src t a) (e.src t b) cin).setWidth 32) :=
  putT_eq e t d
    (fun h => by rw [bits_of_wide int h, srcT_of_wide h, srcT_of_wide h, BitVec.toNat_setWidth, toNat_sumC])
    fun h => by rw [bits_of_narrow int h, srcT_of_narrow h, srcT_of_narrow h, BitVec.toNat_setWidth, toNat_sumC]

/-- The carry of IADDC. -/
theorem carry_sumC (int : ty.isIW32or64 = true) (cin : Bool) :
    decide (2 ^ ty.bits ≤ e.srcT t ty a + e.srcT t ty b + if cin then 1 else 0) =
      if ty.wide then (sumC (e.src64 t a) (e.src64 t b) cin).getLsbD 64
      else (sumC (e.src t a) (e.src t b) cin).getLsbD 32 := by
  cases h : ty.wide with
  | true => rw [bits_of_wide int h, srcT_of_wide h, srcT_of_wide h, if_pos rfl, getLsbD_sumC]
  | false => rw [bits_of_narrow int h, srcT_of_narrow h, srcT_of_narrow h, if_neg Bool.false_ne_true, getLsbD_sumC]

/-! Status (R108, R128, R129). -/

theorem raise_zero : t.raise 0 = t := by
  unfold Thread.raise
  rw [Nat.zero_mod, BitVec.or_zero]

theorem flagIf_four (c : Bool) : flagIf c 4 t = t.raise (if c then 4 else 0) := by
  cases c with
  | true => rfl
  | false => exact (raise_zero t).symm

/-- The status of a division as the table names it (R128). -/
theorem flagIf_div (sg : Bool) {w : Nat} (pos : 0 < w) (x y : BitVec w) :
    flagIf (y == 0#w) 2 (flagIf (overflows sg x y) 4 t) = t.raise (divStatus sg x y) := by
  unfold divStatus
  by_cases zero : y = 0#w
  · have none : overflows sg x y = false := by
      have ne : (0#w == BitVec.allOnes w) = false := beq_false_of_ne fun e => by simp at e; omega
      rw [overflows, zero, ne, Bool.and_false, Bool.and_false]
    rw [if_pos zero, none, beq_iff_eq.2 zero]
    rfl
  · rw [if_neg zero, beq_false_of_ne zero, flagIf_four]
    rfl

/-- A division sets DZ or OF (R128). -/
theorem divFlags_eq (int : ty.isIW32or64 = true) {t' : Thread} {F : Bool → Nat → Nat → Nat → Nat × Nat}
    (value : ∀ {w : Nat}, 0 < w → ∀ x y : BitVec w, (F ty.signed w x.toNat y.toNat).2 = divStatus ty.signed x y) :
    divFlags e t ty a b t' = t'.raise (F ty.signed ty.bits (e.srcT t ty a) (e.srcT t ty b)).2 := by
  unfold divFlags cond2
  rw [signedTy_eq]
  cases h : ty.wide with
  | true =>
    rw [bits_of_wide int h, srcT_of_wide h, srcT_of_wide h, value (by decide)]
    exact flagIf_div t' ty.signed (by decide) _ _
  | false =>
    rw [bits_of_narrow int h, srcT_of_narrow h, srcT_of_narrow h, value (by decide)]
    exact flagIf_div t' ty.signed (by decide) _ _

/-- A number without a negation sets OF (R129). -/
theorem negFlags_eq (int : ty.isIW32or64 = true) {t' : Thread} {F : Nat → Nat → Nat × Nat}
    (value : ∀ {w : Nat}, 0 < w → ∀ x : BitVec w, (F w x.toNat).2 = if x = BitVec.intMin w then 4 else 0) :
    negFlags e t ty a t' = t'.raise (F ty.bits (e.srcT t ty a)).2 := by
  unfold negFlags cond2
  cases h : ty.wide with
  | true =>
    rw [bits_of_wide int h, srcT_of_wide h, value (by decide), flagIf_four]
    simp only [beq_iff_eq, if_true]
  | false =>
    rw [bits_of_narrow int h, srcT_of_narrow h, value (by decide), flagIf_four]
    simp only [beq_iff_eq, Bool.false_eq_true, if_false]

end

/-! The shapes of the instructions. -/

section
variable {s : State} {g : Group} {x : Effect} {i : Instr} {gd : Guard} {ty : Ty} {d a b : Opnd}

theorem binOp_next {F : Nat → Nat → Nat → Nat} {f : {w : Nat} → BitVec w → BitVec w → BitVec w} (int : ty.isIW32or64 = true)
    (hx : alone gd [d, a, b] (fun e t => op2 e t ty d a b f) = some x) (h : Ready s g i) (agree : pairsAgree s g x)
    (run : exec i s = binOp i gd ty d a b s F)
    (value : ∀ {w : Nat}, 0 < w → ∀ x y : BitVec w, F w x.toNat y.toNat = (f x y).toNat) : exec i s = .next (x.result s g) := by
  obtain rfl := Option.some.inj hx
  exact lanewise_next h agree rfl run fun _ _ _ _ _ => putT_op2 _ _ d a b int value

theorem unOp_next {F : Nat → Nat → Nat} {f : {w : Nat} → BitVec w → BitVec w} (int : ty.isIW32or64 = true)
    (hx : alone gd [d, a] (fun e t => op1 e t ty d a f) = some x) (h : Ready s g i) (agree : pairsAgree s g x)
    (run : exec i s = unOp i gd ty d a s F)
    (value : ∀ {w : Nat}, 0 < w → ∀ x : BitVec w, F w x.toNat = (f x).toNat) : exec i s = .next (x.result s g) := by
  obtain rfl := Option.some.inj hx
  exact lanewise_next h agree rfl run fun _ _ _ _ _ => putT_op1 _ _ d a int value

/-- The I forms work at 32 bits (R57). -/
theorem immOp_next {k : Word} {F : Nat → Nat → Nat → Nat} {f : Word → Word}
    (hx : alone gd [d, a] (fun e t => e.put t d (f (e.src t a))) = some x) (h : Ready s g i) (agree : pairsAgree s g x)
    (run : exec i s = immOp i gd d a k s F) (value : ∀ x : Word, F 32 x.toNat k.toNat = (f x).toNat) :
    exec i s = .next (x.result s g) := by
  obtain rfl := Option.some.inj hx
  refine lanewise_next h agree rfl run fun _ _ _ _ _ => ?_
  dsimp only
  rw [value, BitVec.ofNat_toNat, BitVec.setWidth_eq]

/-- IDIV and IREM (R128). -/
theorem division_next {F : Bool → Nat → Nat → Nat → Nat × Nat} {f : Bool → {w : Nat} → BitVec w → BitVec w → BitVec w}
    (int : ty.isIW32or64 = true)
    (hx : alone gd [d, a, b] (fun e t => divFlags e t ty a b (op2 e t ty d a b (f (signedTy ty)))) = some x)
    (h : Ready s g i) (agree : pairsAgree s g x) (run : exec i s = binOpFl i gd ty d a b s (F ty.signed))
    (value : ∀ {w : Nat}, 0 < w → ∀ (x y : BitVec w) (sg : Bool), F sg w x.toNat y.toNat = ((f sg x y).toNat, divStatus sg x y)) :
    exec i s = .next (x.result s g) := by
  obtain rfl := Option.some.inj hx
  refine lanewise_next h agree rfl run fun _ _ _ _ _ => ?_
  dsimp only
  rw [divFlags_eq _ _ a b int (F := F) fun pos x y => by rw [value pos], ← putT_op2 _ _ d a b int
    (F := fun w x y => (F ty.signed w x y).1) fun pos x y => by rw [value pos, signedTy_eq]]

/-- IABS and INEG (R129). -/
theorem negation_next {F : Nat → Nat → Nat × Nat} {f : {w : Nat} → BitVec w → BitVec w} (int : ty.isI = true)
    (hx : alone gd [d, a] (fun e t => negFlags e t ty a (op1 e t ty d a f)) = some x)
    (h : Ready s g i) (agree : pairsAgree s g x) (run : exec i s = unOpFl i gd ty d a s F)
    (value : ∀ {w : Nat}, 0 < w → ∀ x : BitVec w, F w x.toNat = ((f x).toNat, if x = BitVec.intMin w then 4 else 0)) :
    exec i s = .next (x.result s g) := by
  obtain rfl := Option.some.inj hx
  have int := isIW32or64_of_isI int
  refine lanewise_next h agree rfl run fun _ _ _ _ _ => ?_
  dsimp only
  rw [negFlags_eq _ _ a int (F := F) fun pos x => by rw [value pos], ← putT_op1 _ _ d a int
    (F := fun w x => (F w x).1) fun pos x => by rw [value pos]]

/-! The instructions that have a shape of their own. -/

/-- IADDC writes the carry to the predicate that C names (R126). -/
theorem iaddc_next {c : Opnd} (int : ty.isIW32or64 = true) (hx : integer (.iaddc gd ty d a b c) = some x)
    (h : Ready s g (.iaddc gd ty d a b c)) (agree : pairsAgree s g x) :
    exec (.iaddc gd ty d a b c) s = .next (x.result s g) := by
  obtain rfl := Option.some.inj hx
  refine lanewise_next h agree rfl rfl fun l _ u _ t => ?_
  dsimp only
  rw [carryIn_eq, putT_sumC _ t d a b int, carry_sumC _ t a b int]
  cases c with
  | p r => exact setPred_eq_putPred ..
  | _ => rfl

/-- IMAD (R125). -/
theorem imad_next {c : Opnd} (int : ty.isIW32or64 = true) (hx : integer (.imad gd ty d a b c) = some x)
    (h : Ready s g (.imad gd ty d a b c)) (agree : pairsAgree s g x) :
    exec (.imad gd ty d a b c) s = .next (x.result s g) := by
  obtain rfl := Option.some.inj hx
  exact lanewise_next h agree rfl rfl fun _ _ _ _ _ => putT_eq _ _ d
    (fun h => by rw [bits_of_wide int h, srcT_of_wide h, srcT_of_wide h, srcT_of_wide h, imadF_toNat])
    fun h => by rw [bits_of_narrow int h, srcT_of_narrow h, srcT_of_narrow h, srcT_of_narrow h, imadF_toNat]

/-- IDOT4 (R127). -/
theorem idot4_next {c : Opnd} (hx : integer (.idot4 gd ty d a b c) = some x)
    (h : Ready s g (.idot4 gd ty d a b c)) (agree : pairsAgree s g x) :
    exec (.idot4 gd ty d a b c) s = .next (x.result s g) := by
  obtain rfl := Option.some.inj hx
  refine lanewise_next h agree rfl rfl fun _ _ _ _ _ => ?_
  dsimp only
  rw [idot4F_toNat, BitVec.ofNat_toNat, BitVec.setWidth_eq, signedTy_eq]

/-- ISAT (R129). -/
theorem isat_next (narrow : ty.isNarrowInt = true) (hx : integer (.isat gd ty d a) = some x)
    (h : Ready s g (.isat gd ty d a)) (agree : pairsAgree s g x) :
    exec (.isat gd ty d a) s = .next (x.result s g) := by
  obtain rfl := Option.some.inj hx
  refine lanewise_next h agree rfl rfl fun _ _ _ _ _ => ?_
  dsimp only
  rw [isatF_toNat narrow, BitVec.ofNat_toNat, BitVec.setWidth_eq, flagIf_four]

end

/-! The condition on the type is the first on the terms of a word. -/

theorem first_of_three {p q r : Bool} (h : (p && q && r) = true) : p = true :=
  (Bool.and_eq_true_iff.1 (Bool.and_eq_true_iff.1 h).1).1

theorem first_of_four {p q r s : Bool} (h : (p && q && r && s) = true) : p = true :=
  first_of_three (Bool.and_eq_true_iff.1 h).1

theorem first_of_five {p q r s u : Bool} (h : (p && q && r && s && u) = true) : p = true :=
  first_of_four (Bool.and_eq_true_iff.1 h).1

/-- Settles O21: each lane computes alone, and the model's numbers are those of the formulas at either width. -/
theorem integerArithmetic : Obligations.IntegerArithmetic := by
  unfold Obligations.IntegerArithmetic
  intro i x s g hx wf h _ agree
  have table := hx
  unfold integer at table
  split at table
  next => exact binOp_next (first_of_four wf) hx h agree rfl fun _ => iaddF_toNat
  next gd d a k => exact immOp_next (f := fun x => x + k) hx h agree rfl fun x => iaddF_toNat x k
  next => exact binOp_next (first_of_four wf) hx h agree rfl fun _ => isubF_toNat
  next gd d a k => exact immOp_next (f := fun x => x - k) hx h agree rfl fun x => isubF_toNat x k
  next => exact iaddc_next (isIW32or64_of_isW (first_of_five wf)) hx h agree
  next => exact binOp_next (first_of_four wf) hx h agree rfl fun _ => imulF_toNat
  next gd d a k => exact immOp_next (f := fun x => x * k) hx h agree rfl fun x => imulF_toNat x k
  next gd ty d a b =>
    exact binOp_next (first_of_four wf) hx h agree rfl fun pos x y => by rw [imulhF_toNat x y ty.signed pos, signedTy_eq]
  next => exact imad_next (first_of_five wf) hx h agree
  next => exact idot4_next hx h agree
  next => exact division_next (first_of_four wf) hx h agree rfl fun pos => idivF_toNat pos
  next => exact division_next (first_of_four wf) hx h agree rfl fun pos => iremF_toNat pos
  next gd ty d a b =>
    exact binOp_next (first_of_four wf) hx h agree rfl fun pos x y => by rw [iminF_toNat pos x y ty.signed, signedTy_eq]
  next gd d a k => exact immOp_next (f := fun x => least true x k) hx h agree rfl fun x => iminF_toNat (by decide) x k true
  next gd ty d a b =>
    exact binOp_next (first_of_four wf) hx h agree rfl fun pos x y => by rw [imaxF_toNat pos x y ty.signed, signedTy_eq]
  next gd d a k => exact immOp_next (f := fun x => most true x k) hx h agree rfl fun x => imaxF_toNat (by decide) x k true
  next => exact negation_next (first_of_three wf) hx h agree rfl fun pos => iabsF_toNat pos
  next => exact negation_next (first_of_three wf) hx h agree rfl fun pos => inegF_toNat pos
  next => exact isat_next (first_of_three wf) hx h agree
  next => exact absurd table nofun

end Sys2Proof.Machine
end

