-- ==== Sys2Proof/Proofs/BitWords.lean ====
section
/-! SUPPORT. Shifts, logic, counts and bit fields (R130 to R133): the model's formulas on numbers are those on words. -/

namespace Sys2Proof.Machine

open Sys2Proof.Spec

/-! Shifts and rotates (R130). -/

section
variable {w : Nat} (a b : BitVec w) (n : Nat)

theorem shlF_toNat : shlF w a.toNat n = (a <<< n).toNat := by
  rw [shlF, BitVec.toNat_shiftLeft, Nat.shiftLeft_eq]
  split
  next => rfl
  next out => rw [Nat.mod_eq_zero_of_dvd ((pow_dvd_pow 2 (Nat.not_lt.1 out)).mul_left _)]

theorem shrF_toNat : shrF w a.toNat n = (a >>> n).toNat := by
  rw [shrF, BitVec.toNat_ushiftRight, Nat.shiftRight_eq_div_pow]
  split
  next => rfl
  next out => rw [Nat.div_eq_of_lt (a.isLt.trans_le (Nat.pow_le_pow_right (by decide) (Nat.not_lt.1 out)))]

/-- A quotient by more than the magnitude is the sign alone. -/
theorem ediv_eq_sign {x : Int} {m : Nat} (low : -(m : Int) ≤ x) (high : x < m) : x / (m : Int) = if x < 0 then -1 else 0 := by
  split
  next neg =>
    have pos : (0 : Int) < m := by omega
    exact le_antisymm (Int.le_of_lt_add_one (Int.ediv_neg_of_neg_of_pos neg pos))
      (Int.le_ediv_of_mul_le pos (by omega))
  next nonneg => exact Int.ediv_eq_zero_of_lt (Int.not_lt.1 nonneg) high

/-- Shifted by its width or more, a word is its sign alone (R130). -/
theorem toInt_ediv_of_le (out : w - 1 ≤ n) : a.toInt / (2 ^ (w - 1) : Nat) = a.toInt / (2 ^ n : Nat) := by
  have low : -((2 ^ (w - 1) : Nat) : Int) ≤ a.toInt := by
    push_cast
    exact a.le_toInt
  have high : a.toInt < (2 ^ (w - 1) : Nat) := by
    push_cast
    exact a.toInt_lt
  have more : 2 ^ (w - 1) ≤ 2 ^ n := Nat.pow_le_pow_right (by decide) out
  rw [ediv_eq_sign low high, ediv_eq_sign (by omega) (by omega)]

theorem sarF_toNat (pos : 0 < w) : sarF w a.toNat n = (a.sshiftRight n).toNat := by
  rw [sarF, toInt_toNat true pos, if_pos rfl, ← wrapInt_toInt (a.sshiftRight n), BitVec.toInt_sshiftRight,
    Int.shiftRight_eq_div_pow]
  rcases Nat.le_total n (w - 1) with le | ge
  · rw [Nat.min_eq_left le]
  · rw [Nat.min_eq_right ge, toInt_ediv_of_le a n ge]

/-- The two parts of a rotated word (R130). -/
theorem rotated_eq_or {x i j : Nat} (lt : x < 2 ^ (i + j)) :
    (x * 2 ^ i + x / 2 ^ j) % 2 ^ (i + j) = x <<< i % 2 ^ (i + j) ||| x >>> j := by
  have low : x / 2 ^ j < 2 ^ i := Nat.div_lt_of_lt_mul (by rwa [← pow_add, Nat.add_comm])
  have high : x <<< i % 2 ^ (i + j) = (x % 2 ^ j) <<< i := by
    rw [Nat.shiftLeft_eq, Nat.shiftLeft_eq, pow_add, Nat.mul_comm (2 ^ i), Nat.mul_mod_mul_right]
  have fits : (x % 2 ^ j) <<< i + x / 2 ^ j < 2 ^ (i + j) := by
    rw [Nat.shiftLeft_add_eq_or_of_lt low]
    refine Nat.or_lt_two_pow ?_ (low.trans_le (Nat.pow_le_pow_right (by decide) (Nat.le_add_right i j)))
    rw [← high]
    exact Nat.mod_lt _ (by positivity)
  rw [high, Nat.shiftRight_eq_div_pow, ← Nat.shiftLeft_add_eq_or_of_lt low, ← Nat.mod_eq_of_lt fits, ← high, Nat.mod_add_mod,
    Nat.shiftLeft_eq]

theorem rolF_toNat (pos : 0 < w) : rolF w a.toNat n = (a.rotateLeft n).toNat := by
  have whole : n % w + (w - n % w) = w := Nat.add_sub_cancel' (Nat.mod_lt n pos).le
  have rotated := rotated_eq_or (x := a.toNat) (i := n % w) (j := w - n % w) (by rw [whole]; exact a.isLt)
  rw [rolF, BitVec.toNat_rotateLeft]
  rwa [whole] at rotated

theorem rorF_toNat (pos : 0 < w) : rorF w a.toNat n = (a.rotateRight n).toNat := by
  have whole : (w - n % w) + n % w = w := Nat.sub_add_cancel (Nat.mod_lt n pos).le
  have rotated := rotated_eq_or (x := a.toNat) (i := w - n % w) (j := n % w) (by rw [whole]; exact a.isLt)
  rw [rorF, BitVec.toNat_rotateRight, Nat.add_comm, Nat.or_comm]
  rwa [whole] at rotated

/-! Logic (R131). -/

theorem andF_toNat : andF w a.toNat b.toNat = (a &&& b).toNat := rfl
theorem orF_toNat : orF w a.toNat b.toNat = (a ||| b).toNat := rfl
theorem xorF_toNat : xorF w a.toNat b.toNat = (a ^^^ b).toNat := rfl

theorem notF_toNat : notF w a.toNat = (~~~a).toNat := by
  rw [notF, BitVec.toNat_not, Nat.mod_eq_of_lt a.isLt]

theorem andnF_toNat : andnF w a.toNat b.toNat = (a &&& ~~~b).toNat := by
  rw [andnF, notF_toNat, BitVec.toNat_and]

/-! Counts (R131). -/

/-- The ones among the low bits of a word. -/
theorem length_filter_bit (k : Nat) : ((List.range k).filter fun i => bit a.toNat i).length = a.cpopNatRec k 0 := by
  induction k with
  | zero => rfl
  | succ k ih =>
    rw [List.range_succ, List.filter_append, List.length_append, ih, BitVec.cpopNatRec_succ, BitVec.cpopNatRec_eq (0 + _),
      Nat.zero_add]
    congr 1
    rw [List.filter_singleton, bit_eq_testBit]
    change _ = (a.toNat.testBit k).toNat
    cases a.toNat.testBit k <;> rfl

theorem popcF_toNat : popcF w a.toNat = a.cpop.toNat := by
  rw [popcF, length_filter_bit, BitVec.toNat_cpop]

theorem clzF_toNat (pos : 0 < w) : clzF w a.toNat = a.clz.toNat := by
  rw [clzF, Nat.mod_eq_of_lt a.isLt]
  by_cases zero : a = 0#w
  · rw [BitVec.clz_eq_iff_eq_zero.2 zero, zero]
    simp [bitLen]
  · have low := BitVec.two_pow_sub_clz_le_toNat_of_ne_zero pos zero
    have high := BitVec.toNat_lt_two_pow_sub_clz (x := a)
    have nonzero : a.toNat ≠ 0 := fun e => zero ((toNat_eq_zero_iff a).1 e)
    have lt : a.clz.toNat < w := by simpa [BitVec.lt_def] using BitVec.clz_lt_iff_ne_zero.2 zero
    have log : Nat.log2 a.toNat = w - 1 - a.clz.toNat :=
      (Nat.log2_eq_iff nonzero).2 ⟨low, by rwa [show w - 1 - a.clz.toNat + 1 = w - a.clz.toNat by omega]⟩
    rw [bitLen, if_neg nonzero, log]
    omega

theorem ctzF_toNat : ctzF w a.toNat = a.ctz.toNat := by
  rw [ctzF]
  simp only [bit_eq_testBit]
  by_cases zero : a = 0#w
  · have none : (List.range w).findIdx? (fun i => a.toNat.testBit i) = none :=
      List.findIdx?_eq_none_iff.2 fun i _ => by rw [zero, BitVec.toNat_ofNat, Nat.zero_mod, Nat.zero_testBit]
    have all : a.ctz = w := by
      rw [BitVec.ctz, BitVec.clz_eq_iff_eq_zero, BitVec.reverse_eq_zero_iff, zero]
    rw [none, all]
    simp
  · have lt : a.ctz.toNat < w := by simpa [BitVec.lt_def] using BitVec.ctz_lt_iff_ne_zero.2 zero
    have found : (List.range w).findIdx? (fun i => a.toNat.testBit i) = some a.ctz.toNat := by
      refine List.findIdx?_eq_some_iff_getElem.2 ⟨by rwa [List.length_range], ?_, fun j before => ?_⟩
      · rw [List.getElem_range]
        exact BitVec.getLsbD_true_ctz_of_ne_zero zero
      · rw [List.getElem_range]
        exact Bool.eq_false_iff.1 (BitVec.getLsbD_false_of_lt_ctz before)
    rw [found, Option.getD_some]

/-- A bit that was clear is set by its power of two. -/
theorem testBit_add_two_pow {m p : Nat} (free : m.testBit p = false) (i : Nat) :
    (m + 2 ^ p).testBit i = (m.testBit i || p == i) := by
  have clear : bits m p 1 = 0 := by
    rw [Nat.testBit_eq_decide_div_mod_eq, decide_eq_false_iff_not] at free
    unfold bits
    omega
  have set : m + 2 ^ p = setBits m p 1 1 := by
    rw [setBits, clear, Nat.zero_mul, Nat.sub_zero, Nat.mod_eq_of_lt (by decide), Nat.one_mul]
  rw [set, testBit_setBits]
  by_cases e : p = i
  · subst e
    simp
  · rw [if_neg (by omega), beq_false_of_ne e, Bool.or_false]

/-- A number made of distinct powers of two has its bits at their places. -/
theorem testBit_foldl_two_pow {α : Type} {c : α → Bool} {place : α → Nat} {l : List α}
    (distinct : (l.map place).Nodup) (m i : Nat) (free : ∀ x ∈ l, m.testBit (place x) = false) :
    (l.foldl (fun m x => if c x then m + 2 ^ place x else m) m).testBit i =
      (m.testBit i || l.any fun x => c x && place x == i) := by
  induction l generalizing m with
  | nil => rw [List.foldl_nil, List.any_nil, Bool.or_false]
  | cons x l ih =>
    obtain ⟨out, distinct⟩ := List.nodup_cons.1 distinct
    have bits (j : Nat) : (if c x then m + 2 ^ place x else m).testBit j = (m.testBit j || (c x && place x == j)) := by
      cases c x with
      | false => simp
      | true => exact testBit_add_two_pow (free x List.mem_cons_self) j
    rw [List.foldl_cons, ih distinct, bits, List.any_cons, Bool.or_assoc]
    intro y hy
    have ne : place x ≠ place y := fun e => out (e ▸ List.mem_map_of_mem hy)
    rw [bits, free y (List.mem_cons_of_mem x hy), beq_false_of_ne ne, Bool.and_false, Bool.or_false]

theorem brevF_toNat : brevF w a.toNat = a.reverse.toNat := by
  have distinct : ((List.range w).map fun i => w - 1 - i).Nodup :=
    List.nodup_range.map_on fun i hi j hj e => by
      have := List.mem_range.1 hi
      have := List.mem_range.1 hj
      omega
  refine Nat.eq_of_testBit_eq fun j => ?_
  rw [brevF, testBit_foldl_two_pow distinct 0 j fun _ _ => Nat.zero_testBit _, Nat.zero_testBit, Bool.false_or]
  change _ = a.reverse.getLsbD j
  rw [BitVec.getLsbD_reverse, BitVec.getMsbD_eq_getLsbD, Bool.eq_iff_iff]
  simp only [List.any_eq_true, List.mem_range, Bool.and_eq_true, beq_iff_eq, decide_eq_true_eq, bit_eq_testBit]
  constructor
  · rintro ⟨i, lt, one, rfl⟩
    refine ⟨by omega, ?_⟩
    rwa [show w - 1 - (w - 1 - i) = i by omega]
  · rintro ⟨lt, one⟩
    exact ⟨w - 1 - j, by omega, one, by omega⟩

/-! Bit fields and LEA (R132, R133). -/

theorem fieldLen_eq_zero_iff {w pos wid : Nat} : fieldLen w pos wid = 0 ↔ w ≤ pos ∨ wid = 0 := by
  unfold fieldLen
  split <;> omega

theorem fieldLen_of_ne_zero {w pos wid : Nat} (nonempty : fieldLen w pos wid ≠ 0) :
    pos < w ∧ fieldLen w pos wid = min wid (w - pos) := by
  unfold fieldLen at nonempty ⊢
  split at nonempty
  next inside => exact ⟨inside, if_pos inside⟩
  next => exact absurd rfl nonempty

/-- The low bits of a word, extended with their sign. -/
theorem signExtend_low {n : Nat} (pos : 0 < n) (le : n ≤ w) :
    (a.setWidth n).signExtend w = (a <<< (w - n)).sshiftRight (w - n) := by
  refine BitVec.eq_of_getLsbD_eq fun i lt => ?_
  rw [BitVec.getLsbD_signExtend, BitVec.getLsbD_sshiftRight, BitVec.msb_eq_getLsbD_last, BitVec.msb_eq_getLsbD_last]
  simp only [BitVec.getLsbD_setWidth, BitVec.getLsbD_shiftLeft]
  by_cases low : i < n
  · simp [low, lt, show w - n + i < w by omega, show ¬ w ≤ i by omega]
  · simp [low, lt, show ¬ w - n + i < w by omega, show ¬ w ≤ i by omega, show n - 1 < n by omega, show w - 1 < w by omega,
      show ¬ w - 1 < w - n by omega, show w - 1 - (w - n) = n - 1 by omega]

/-- The low bits of a word, extended with zeros. -/
theorem setWidth_low {n : Nat} (le : n ≤ w) : (a.setWidth n).setWidth w = a <<< (w - n) >>> (w - n) := by
  refine BitVec.eq_of_getLsbD_eq fun i lt => ?_
  rw [BitVec.getLsbD_ushiftRight]
  simp only [BitVec.getLsbD_setWidth, BitVec.getLsbD_shiftLeft]
  by_cases low : i < n
  · simp [low, lt, show w - n + i < w by omega]
  · simp [low, show ¬ w - n + i < w by omega]

/-- BFX (R132). -/
theorem bfxF_toNat (sg : Bool) (pos wid : Nat) : bfxF sg w a.toNat pos wid = (extractField sg a pos wid).toNat := by
  unfold bfxF extractField
  simp only [← fieldLen_eq_zero_iff]
  by_cases empty : fieldLen w pos wid = 0
  · rw [if_pos empty, if_pos empty, BitVec.toNat_ofNat, Nat.zero_mod]
  · obtain ⟨inside, len⟩ := fieldLen_of_ne_zero empty
    have le : fieldLen w pos wid ≤ w := by omega
    have value : a.toNat / 2 ^ pos % 2 ^ fieldLen w pos wid = ((a >>> pos).setWidth (fieldLen w pos wid)).toNat := by
      rw [BitVec.toNat_setWidth, BitVec.toNat_ushiftRight, Nat.shiftRight_eq_div_pow]
    rw [if_neg empty, if_neg empty, ← len, value, wrapInt_eq_ofInt, ← extended_eq_ofInt _ sg (Nat.pos_of_ne_zero empty),
      signExtend_low _ (Nat.pos_of_ne_zero empty) le, setWidth_low _ le]

/-- A field replaced by the low bits of a word. -/
theorem setBits_toNat {lo n : Nat} (fits : lo + n ≤ w) (d : BitVec w) : setBits d.toNat lo n a.toNat =
    ((d &&& ~~~((BitVec.allOnes w >>> (w - n)) <<< lo)) ||| ((a <<< lo) &&& ((BitVec.allOnes w >>> (w - n)) <<< lo))).toNat := by
  have mask (i : Nat) : ((BitVec.allOnes w >>> (w - n)) <<< lo).getLsbD i = decide (lo ≤ i ∧ i < lo + n) := by
    rw [BitVec.getLsbD_shiftLeft, BitVec.getLsbD_ushiftRight, BitVec.getLsbD_allOnes, Bool.eq_iff_iff]
    simp
    omega
  refine Nat.eq_of_testBit_eq fun i => ?_
  rw [testBit_setBits]
  simp only [BitVec.testBit_toNat, BitVec.getLsbD_or, BitVec.getLsbD_and, BitVec.getLsbD_not, mask, BitVec.getLsbD_shiftLeft a]
  by_cases inside : lo ≤ i ∧ i < lo + n
  · simp [inside, show i < w by omega, show ¬ i < lo by omega]
  · by_cases lt : i < w
    · simp [inside, lt]
    · simp [inside, lt, BitVec.getLsbD_of_ge d i (Nat.not_lt.1 lt)]

/-- BFI (R132). -/
theorem bfiF_toNat (d : BitVec w) {pos wid : Nat} (nonempty : fieldLen w pos wid ≠ 0) :
    bfiF w d.toNat a.toNat pos wid = (insertField d a pos wid).toNat := by
  obtain ⟨inside, len⟩ := fieldLen_of_ne_zero nonempty
  rw [bfiF, if_neg (fieldLen_eq_zero_iff.not.1 nonempty), ← len]
  exact setBits_toNat a (by omega) d

end

/-- LEA (R133). -/
theorem leaF_toNat (a : Dword) (b : Word) (n : Nat) :
    leaF a.toNat b.toNat n = (a + b.signExtend 64 <<< (n % 64)).toNat := by
  rw [leaF, toInt_toNat true (by decide), if_pos rfl, wrapInt_eq_ofInt, BitVec.ofInt_add, BitVec.ofInt_mul,
    BitVec.ofInt_natCast, BitVec.ofNat_toNat, BitVec.setWidth_eq, BitVec.shiftLeft_eq_mul_twoPow]
  have power : BitVec.ofInt 64 (2 ^ (n % 64) : Nat) = BitVec.twoPow 64 (n % 64) :=
    BitVec.eq_of_toNat_eq (by rw [BitVec.ofInt_natCast, BitVec.toNat_ofNat, BitVec.toNat_twoPow])
  rw [power]
  rfl

end Sys2Proof.Machine
end

