-- ==== Sys2Proof/Proofs/ShiftsAndBitFields.lean ====
section
/-! Shifts, logic, counts, bit fields and LEA (R130 to R133): every lane computes alone, from formulas that agree with the
model's. -/

namespace Sys2Proof.Machine

open Sys2Proof.Spec

section
variable {s : State} {g : Group} {x : Effect} {i : Instr} {gd : Guard} {ty : Ty} {d a b c : Opnd}

/-- Shifts and rotates take a count of 32 bits at either width (R130). -/
theorem shiftOp_next {F : Nat → Nat → Nat → Nat} {f : {w : Nat} → BitVec w → Nat → BitVec w} (int : ty.isIW32or64 = true)
    (hx : alone gd [d, a, b] (fun e t => opShift e t ty d a b f) = some x) (h : Ready s g i) (agree : pairsAgree s g x)
    (run : exec i s = shiftOp i gd ty d a b s F)
    (value : ∀ {w : Nat}, 0 < w → ∀ (x : BitVec w) (n : Nat), F w x.toNat n = (f x n).toNat) :
    exec i s = .next (x.result s g) := by
  obtain rfl := Option.some.inj hx
  exact lanewise_next h agree rfl run fun _ _ _ _ _ => putT_eq _ _ d
    (fun h => by rw [bits_of_wide int h, srcT_of_wide h, value (by decide)])
    fun h => by rw [bits_of_narrow int h, srcT_of_narrow h, value (by decide)]

/-- A count of bits goes to a 32-bit destination (R131). -/
theorem countOp_next {F : Nat → Nat → Nat} {f : {w : Nat} → BitVec w → BitVec w} (int : ty.isIW32or64 = true)
    (hx : alone gd [d, a] (fun e t =>
      e.put t d (if ty.wide then (f (e.src64 t a)).setWidth 32 else f (e.src t a))) = some x)
    (h : Ready s g i) (agree : pairsAgree s g x) (run : exec i s = countOp i gd ty d a s F)
    (value : ∀ {w : Nat}, 0 < w → ∀ x : BitVec w, F w x.toNat = (f x).toNat) : exec i s = .next (x.result s g) := by
  obtain rfl := Option.some.inj hx
  refine lanewise_next h agree rfl run fun _ _ _ _ _ => ?_
  dsimp only
  congr 1
  cases h : ty.wide with
  | true => rw [bits_of_wide int h, srcT_of_wide h, value (by decide), if_pos rfl, BitVec.ofNat_toNat]
  | false =>
    rw [bits_of_narrow int h, srcT_of_narrow h, value (by decide), if_neg Bool.false_ne_true, BitVec.ofNat_toNat,
      BitVec.setWidth_eq]

/-- BFX (R132). -/
theorem bfx_next (int : ty.isIW32or64 = true) (hx : bitwise (.bfx gd ty d a b c) = some x)
    (h : Ready s g (.bfx gd ty d a b c)) (agree : pairsAgree s g x) :
    exec (.bfx gd ty d a b c) s = .next (x.result s g) := by
  obtain rfl := Option.some.inj hx
  exact lanewise_next h agree rfl rfl fun _ _ _ _ _ => putT_eq _ _ d
    (fun h => by rw [bits_of_wide int h, srcT_of_wide h, bfxF_toNat, signedTy_eq])
    fun h => by rw [bits_of_narrow int h, srcT_of_narrow h, bfxF_toNat, signedTy_eq]

/-- BFI leaves D as it was where the field has no bit in it (R132). -/
theorem bfi_next (int : ty.isIW32or64 = true) (hx : bitwise (.bfi gd ty d a b c) = some x)
    (h : Ready s g (.bfi gd ty d a b c)) (agree : pairsAgree s g x) :
    exec (.bfi gd ty d a b c) s = .next (x.result s g) := by
  obtain rfl := Option.some.inj hx
  refine lanewise_next h agree rfl rfl fun l _ u _ t => ?_
  dsimp only
  rw [bits_eq int]
  simp only [← fieldLen_eq_zero_iff]
  by_cases empty : fieldLen (if ty.wide then 64 else 32) ((view u l).src t b).toNat ((view u l).src t c).toNat = 0
  · rw [if_pos empty, if_pos empty]
  · rw [if_neg empty, if_neg empty]
    refine putT_eq _ t d (fun h => ?_) fun h => ?_
    · rw [if_pos h] at empty ⊢
      rw [srcT_of_wide h, srcT_of_wide h, bfiF_toNat _ _ empty]
    · rw [if_neg (Bool.eq_false_iff.1 h)] at empty ⊢
      rw [srcT_of_narrow h, srcT_of_narrow h, bfiF_toNat _ _ empty]

/-- LEA (R133). -/
theorem lea_next (hx : bitwise (.lea gd d a b c) = some x) (h : Ready s g (.lea gd d a b c)) (agree : pairsAgree s g x) :
    exec (.lea gd d a b c) s = .next (x.result s g) := by
  obtain rfl := Option.some.inj hx
  refine lanewise_next h agree rfl rfl fun _ _ _ _ _ => ?_
  dsimp only
  rw [leaF_toNat, BitVec.ofNat_toNat, BitVec.setWidth_eq]

end

/-- Settles O22: each lane computes alone, and the model's numbers are those of the formulas at either width. -/
theorem shiftsAndBitFields : Obligations.ShiftsAndBitFields := by
  unfold Obligations.ShiftsAndBitFields
  intro i x s g hx wf h _ agree
  have table := hx
  unfold bitwise at table
  split at table
  next => exact shiftOp_next (isIW32or64_of_isW (first_of_four wf)) hx h agree rfl fun _ => shlF_toNat
  next gd d a k => exact immOp_next (f := fun x => x <<< k.toNat) hx h agree rfl fun x => shlF_toNat x k.toNat
  next => exact shiftOp_next (isIW32or64_of_isW (first_of_four wf)) hx h agree rfl fun _ => shrF_toNat
  next gd d a k => exact immOp_next (f := fun x => x >>> k.toNat) hx h agree rfl fun x => shrF_toNat x k.toNat
  next => exact shiftOp_next (isIW32or64_of_isI (first_of_four wf)) hx h agree rfl fun pos x n => sarF_toNat x n pos
  next gd d a k => exact immOp_next (f := fun x => x.sshiftRight k.toNat) hx h agree rfl fun x => sarF_toNat x k.toNat (by decide)
  next => exact shiftOp_next (isIW32or64_of_isW (first_of_four wf)) hx h agree rfl fun pos x n => rolF_toNat x n pos
  next gd d a k => exact immOp_next (f := fun x => x.rotateLeft k.toNat) hx h agree rfl fun x => rolF_toNat x k.toNat (by decide)
  next => exact shiftOp_next (isIW32or64_of_isW (first_of_four wf)) hx h agree rfl fun pos x n => rorF_toNat x n pos
  next gd d a k => exact immOp_next (f := fun x => x.rotateRight k.toNat) hx h agree rfl fun x => rorF_toNat x k.toNat (by decide)
  next => exact binOp_next (isIW32or64_of_isW (first_of_four wf)) hx h agree rfl fun _ => andF_toNat
  next gd d a k => exact immOp_next (f := fun x => x &&& k) hx h agree rfl fun x => andF_toNat x k
  next => exact binOp_next (isIW32or64_of_isW (first_of_four wf)) hx h agree rfl fun _ => orF_toNat
  next gd d a k => exact immOp_next (f := fun x => x ||| k) hx h agree rfl fun x => orF_toNat x k
  next => exact binOp_next (isIW32or64_of_isW (first_of_four wf)) hx h agree rfl fun _ => xorF_toNat
  next gd d a k => exact immOp_next (f := fun x => x ^^^ k) hx h agree rfl fun x => xorF_toNat x k
  next => exact binOp_next (isIW32or64_of_isW (first_of_four wf)) hx h agree rfl fun _ => andnF_toNat
  next gd d a k => exact immOp_next (f := fun x => x &&& ~~~k) hx h agree rfl fun x => andnF_toNat x k
  next => exact unOp_next (isIW32or64_of_isW (first_of_three wf)) hx h agree rfl fun _ => notF_toNat
  next => exact countOp_next (isIW32or64_of_isW (first_of_three wf)) hx h agree rfl fun _ => popcF_toNat
  next => exact countOp_next (isIW32or64_of_isW (first_of_three wf)) hx h agree rfl fun pos x => clzF_toNat x pos
  next => exact countOp_next (isIW32or64_of_isW (first_of_three wf)) hx h agree rfl fun _ => ctzF_toNat
  next => exact unOp_next (isIW32or64_of_isW (first_of_three wf)) hx h agree rfl fun _ => brevF_toNat
  next => exact bfx_next (first_of_five wf) hx h agree
  next => exact bfi_next (isIW32or64_of_isW (first_of_five wf)) hx h agree
  next => exact lea_next hx h agree
  next => exact absurd table nofun

end Sys2Proof.Machine
end

