-- ==== Sys2Proof/Proofs/LaneParts.lean ====
section
/-! SUPPORT. The participants of a cross-lane slot (R149, R349): what the model collects by lane number are the running
lanes of a rig, in ascending order. -/

namespace Sys2Proof.Machine

open Sys2Proof.Spec

/-! The order of the lanes (R182). -/

theorem ascending_sorted (ls : List LaneRef) : (ascending ls).Pairwise fun l m => l.lane ≤ m.lane := by
  refine List.pairwise_flatMap.2 ⟨fun i _ => ?_, List.pairwise_lt_range.imp fun lt l hl m hm => ?_⟩
  · refine List.pairwise_iff_forall_sublist.2 fun {l m} sub => ?_
    have lane (k : LaneRef) (hk : k ∈ [l, m]) : k.lane = i := by
      have := sub.subset hk
      simp only [List.mem_eraseDups, List.mem_filter, beq_iff_eq] at this
      exact this.2
    rw [lane l (by simp), lane m (by simp)]
  · simp only [List.mem_eraseDups, List.mem_filter, beq_iff_eq] at hl hm
    omega

section
variable {s : State} {g : Group} {gd : Guard}

/-- The participants of a lane stand by their lane numbers, each once. -/
theorem partners_sorted (u : State) (l : LaneRef) : (partners u (running s g gd) l).Pairwise fun m n => m.lane < n.lane := by
  refine ((List.pairwise_and_iff.2 ⟨ascending_sorted _, running_nodup s g gd⟩).filter _).imp_of_mem fun {m n} hm hn ⟨le, ne⟩ => ?_
  refine lt_of_le_of_ne le fun same => ne ?_
  simp only [partners, List.mem_filter, Bool.and_eq_true, beq_iff_eq] at hm hn
  obtain ⟨-, ⟨wg, rig⟩, -⟩ := hm
  obtain ⟨-, ⟨wg', rig'⟩, -⟩ := hn
  cases m
  cases n
  simp_all

theorem lane_lt_of_mem_partners {u : State} {l m : LaneRef} (hm : m ∈ partners u (running s g gd) l) : m.lane < 64 :=
  (mem_ascending.1 (List.mem_filter.1 hm).1).2

end

/-- Lanes that stand in order are those found at each lane number in turn. -/
theorem filterMap_find_lane {ms : List LaneRef} (sorted : ms.Pairwise fun m n => m.lane < n.lane) (lt : ∀ m ∈ ms, m.lane < 64) :
    ((List.range 64).filterMap fun i => ms.find? fun m => m.lane == i) = ms := by
  have unique (m : LaneRef) (hm : m ∈ ms) : ms.find? (fun n => n.lane == m.lane) = some m :=
    find_of_nodup_key (key := LaneRef.lane) (List.pairwise_map.2 (sorted.imp fun lt => lt.ne)) hm
  have found {i : Nat} {m : LaneRef} : ms.find? (fun n => n.lane == i) = some m ↔ m ∈ ms ∧ m.lane = i :=
    ⟨fun h => ⟨List.mem_of_find?_eq_some h, beq_iff_eq.1 (List.find?_some (p := fun n : LaneRef => n.lane == i) h)⟩,
      fun ⟨hm, e⟩ => e ▸ unique m hm⟩
  have order : ((List.range 64).filterMap fun i => ms.find? fun m => m.lane == i).Pairwise fun m n => m.lane < n.lane := by
    refine List.pairwise_filterMap.2 (List.pairwise_lt_range.imp fun lt m hm n hn => ?_)
    rw [(found.1 hm).2, (found.1 hn).2]
    exact lt
  have distinct {l : List LaneRef} (h : l.Pairwise fun m n => m.lane < n.lane) : l.Nodup := h.imp fun lt e => lt.ne (congrArg _ e)
  refine List.Perm.eq_of_pairwise (le := fun m n => m.lane < n.lane) (fun m n _ _ h h' => absurd h' h.not_gt) order sorted
    ((List.perm_ext_iff_of_nodup (distinct order) (distinct sorted)).2 fun m => ?_)
  rw [List.mem_filterMap]
  exact ⟨fun ⟨i, _, h⟩ => (found.1 h).1, fun hm => ⟨m.lane, List.mem_range.2 (lt m hm), found.2 ⟨hm, rfl⟩⟩⟩

/-! What the participants bring (R149). -/

/-- The part of a lane: its number, and what it reads as its a and its b. -/
def partOf (u : State) (ra rb : Env → Thread → Nat) (m : LaneRef) : Part :=
  ⟨laneNo u m, ra (view u m) (u.thread m), rb (view u m) (u.thread m)⟩

section
variable {s : State} {g : Group} {gd : Guard} (ops : List Opnd) (ra rb : Env → Thread → Nat)

theorem combine_eq (u : State) (l m : LaneRef) :
    u.combine l m = (m.wg == l.wg && m.rig == l.rig && (!(u.prot l.wg) || m.lane % 2 == l.lane % 2)) := by
  unfold State.combine
  rw [Bool.beq_comm (a := l.wg), Bool.beq_comm (a := l.rig), Bool.beq_comm (a := l.lane % 2)]

/-- The model's participants of a lane are those of R149, each with its part. -/
theorem parts_readingNow (l : LaneRef) :
    (readingNow s (running s g gd) ops).parts (running s g gd) ra rb l =
      (partners (reading s (running s g gd) ops) (running s g gd) l).map
        (partOf (reading s (running s g gd) ops) ra rb) := by
  have mine : (running s g gd).filter ((readingNow s (running s g gd) ops).combine l) =
      partners (reading s (running s g gd) ops) (running s g gd) l :=
    List.filter_congr fun m _ => combine_eq _ l m
  conv_rhs => rw [← filterMap_find_lane (partners_sorted (reading s (running s g gd) ops) l)
    fun m hm => lane_lt_of_mem_partners hm,
    List.map_filterMap]
  unfold State.parts
  rw [mine]
  refine List.filterMap_congr fun i _ => Option.map_congr fun m hm => ?_
  have lane : m.lane = i := beq_iff_eq.1 (List.find?_some (p := fun n : LaneRef => n.lane == i) hm)
  subst lane
  rfl

/-- A cross-lane slot has the effect that a table gives it, where the two formulas agree (R8, R149). -/
theorem crossLane_next {o : Host.Outcome State Fault Refusal} {i : Instr} {x : Effect}
    {f : List Part → Nat → Env → Thread → Thread} (h : Ready s g i) (agree : pairsAgree s g x) (leaves : x.leaves = false)
    (run : o = crossLane i x.gd x.ops s ra rb f)
    (value : ∀ u l, f ((partners u (running s g x.gd) l).map (partOf u ra rb)) (laneNo u l) (view u l) (u.thread l) =
      x.f u (running s g x.gd) l (u.thread l)) :
    o = .next (x.result s g) := by
  refine run.trans (issue_of_mapLanes (f := fun e t =>
    f ((readingNow s (running s g x.gd) x.ops).parts (running s g x.gd) ra rb e.lane)
      (visLane ((readingNow s (running s g x.gd) x.ops).prot e.lane.wg) e.lane.lane) e t) h leaves agree ?_ fun l _ => ?_)
  · dsimp only
    rw [State.taint_eq_readingNow]
  · rw [parts_readingNow]
    exact value _ l

end

end Sys2Proof.Machine
end

