-- ==== Sys2Proof/Proofs/CrossLane.lean ====
section
/-! Cross-lane instructions (R149 to R154): votes, reductions, scans and the lane that a lane reads. -/

namespace Sys2Proof.Machine

open Sys2Proof.Spec

/-! The participant with a lane number. -/

section
variable (u : State) (ra rb : Env → Thread → Nat) (ps : List LaneRef)

theorem partAt_map (k : Nat) : partAt (ps.map (partOf u ra rb)) k = (withNo u ps k).map fun m => ra (view u m) (u.thread m) := by
  unfold partAt withNo
  rw [List.find?_map, Option.map_map]
  rfl

/-- The value of the participant that a lane names, or the lane's own (R150, R154). -/
theorem getD_bind_partAt (src : Option Nat) (l : LaneRef) :
    (src.bind (partAt (ps.map (partOf u ra rb)))).getD (ra (view u l) (u.thread l)) =
      ra (view u ((src.bind (withNo u ps)).getD l)) (u.thread ((src.bind (withNo u ps)).getD l)) := by
  cases src with
  | none => rfl
  | some k =>
    rw [Option.bind_some, Option.bind_some, partAt_map]
    cases withNo u ps k <;> rfl

end

/-! Votes (R151). -/

theorem toNat_bne_zero {w : Nat} (x : BitVec w) : (x.toNat != 0) = (x != 0#w) := by
  rw [Bool.eq_iff_iff, bne_iff_ne, bne_iff_ne, ne_eq, toNat_eq_zero_iff]

section
variable {s : State} {g : Group} {gd : Guard}

/-- No two participants of a lane have one number. -/
theorem laneNo_nodup (u : State) (l : LaneRef) : ((partners u (running s g gd) l).map (laneNo u)).Nodup := by
  refine List.pairwise_map.2 ((partners_sorted u l).imp_of_mem fun {m n} hm hn lt => ?_)
  simp only [partners, List.mem_filter, Bool.and_eq_true, Bool.or_eq_true, beq_iff_eq] at hm hn
  obtain ⟨-, ⟨wg, -⟩, pm⟩ := hm
  obtain ⟨-, ⟨wg', -⟩, pn⟩ := hn
  unfold laneNo
  rw [wg, wg']
  cases h : u.prot l.wg with
  | false => exact lt.ne
  | true =>
    simp only [h, Bool.not_true, Bool.false_eq_true, false_or] at pm pn
    simp only [if_true]
    omega

/-- A mask whose bits are set one by one. -/
theorem getLsbD_foldl_or {α : Type} (place : α → Nat) (l : List α) (m : Dword) (i : Nat) :
    (l.foldl (fun m x => m ||| (1#64 <<< place x)) m).getLsbD i =
      (m.getLsbD i || l.any fun x => decide (place x < 64) && decide (place x = i)) := by
  induction l generalizing m with
  | nil => rw [List.foldl_nil, List.any_nil, Bool.or_false]
  | cons x l ih =>
    have one : (1#64 <<< place x).getLsbD i = (decide (place x < 64) && decide (place x = i)) := BitVec.getLsbD_twoPow _ _
    rw [List.foldl_cons, ih, List.any_cons, BitVec.getLsbD_or, one, Bool.or_assoc]

/-- The mask of .BAL (R151). -/
theorem ballot_eq (u : State) (l : LaneRef) (a : Opnd) (rb : Env → Thread → Nat) :
    BitVec.ofNat 64 (ballot ((partners u (running s g gd) l).map (partOf u (fun e t => (e.src t a).toNat) rb))) =
      ((partners u (running s g gd) l).filter fun m => reads u a m != 0#32).foldl
        (fun m p => m ||| (1#64 <<< laneNo u p)) 0#64 := by
  have sum : ballot ((partners u (running s g gd) l).map (partOf u (fun e t => (e.src t a).toNat) rb)) =
      (partners u (running s g gd) l).foldl (fun m p => if reads u a p != 0#32 then m + 2 ^ laneNo u p else m) 0 := by
    rw [ballot, List.foldl_map]
    congr 1
    funext m p
    change (if (reads u a p).toNat = 0 then m else m + 2 ^ laneNo u p) = _
    simp only [toNat_eq_zero_iff, bne_iff_ne, ne_eq, ite_not]
  refine BitVec.eq_of_getLsbD_eq fun i lt => ?_
  rw [sum, BitVec.getLsbD_ofNat, testBit_foldl_two_pow (laneNo_nodup u l) 0 i fun _ _ => Nat.zero_testBit _,
    getLsbD_foldl_or, decide_eq_true lt, Nat.zero_testBit, BitVec.getLsbD_zero, Bool.true_and, Bool.false_or, Bool.false_or,
    List.any_filter]
  refine Bool.eq_iff_iff.2 ?_
  simp only [List.any_eq_true, Bool.and_eq_true, beq_iff_eq, decide_eq_true_eq]
  refine exists_congr fun m => and_congr_right fun hm => and_congr_right fun _ => ?_
  exact ⟨fun e => ⟨e ▸ lt, e⟩, And.right⟩

end

/-! Reductions (R117, R152). -/

section
variable {w : Nat}

theorem least_eq (sg : Bool) (pos : 0 < w) (x y : BitVec w) :
    (if toInt sg w y.toNat < toInt sg w x.toNat then y.toNat else x.toNat) = (least sg x y).toNat := by
  rw [← iminF_toNat pos, iminF]
  split <;> split <;> omega

theorem most_eq (sg : Bool) (pos : 0 < w) (x y : BitVec w) :
    (if toInt sg w x.toNat < toInt sg w y.toNat then y.toNat else x.toNat) = (most sg x y).toNat := by
  rw [← imaxF_toNat pos, imaxF]
  split <;> split <;> omega

/-- The reduction of no values by a minimum (R152). -/
theorem least_top (sg : Bool) (v : BitVec w) : least sg (if sg then BitVec.intMax w else BitVec.allOnes w) v = v := by
  unfold least
  cases sg with
  | true =>
    simp only [if_true]
    split
    next le =>
      have high := v.toInt_lt
      have le := BitVec.sle_iff_toInt_le.1 le
      rw [BitVec.toInt_intMax] at le
      exact BitVec.eq_of_toInt_eq (by rw [BitVec.toInt_intMax]; omega)
    next => rfl
  | false =>
    simp only [Bool.false_eq_true, if_false]
    split
    next le =>
      have high := v.isLt
      have le := BitVec.ule_iff_toNat_le.1 le
      rw [BitVec.toNat_allOnes] at le
      exact BitVec.eq_of_toNat_eq (by rw [BitVec.toNat_allOnes]; omega)
    next => rfl

/-- The reduction of no values by a maximum (R152). -/
theorem most_bottom (sg : Bool) (v : BitVec w) : most sg (if sg then BitVec.intMin w else 0#w) v = v := by
  unfold most
  cases sg with
  | true =>
    simp only [if_true]
    split
    next le => exact BitVec.eq_of_toInt_eq (le_antisymm (BitVec.toInt_intMin_le v) (BitVec.sle_iff_toInt_le.1 le))
    next => rfl
  | false =>
    simp only [Bool.false_eq_true, if_false]
    split
    next le => exact ((toNat_eq_zero_iff v).1 (Nat.le_zero.1 (BitVec.ule_iff_toNat_le.1 le))).symm
    next => rfl

theorem foldInt_min_cons (sg : Bool) (v : BitVec w) (r : List (BitVec w)) : foldInt .min sg (v :: r) = r.foldl (least sg) v := by
  rw [foldInt, List.foldl_cons, least_top]

theorem foldInt_max_cons (sg : Bool) (v : BitVec w) (r : List (BitVec w)) : foldInt .max sg (v :: r) = r.foldl (most sg) v := by
  rw [foldInt, List.foldl_cons, most_bottom]

theorem wrapInt_intMax (sg : Bool) : wrapInt w (intMax sg w) = (if sg then BitVec.intMax w else BitVec.allOnes w).toNat := by
  cases sg with
  | true =>
    rw [if_pos rfl, ← wrapInt_toInt, BitVec.toInt_intMax, intMax, if_pos rfl]
    push_cast
    rfl
  | false =>
    have ones : ((2 ^ w : Nat) : Int) - 1 = ((BitVec.allOnes w).toNat : Int) := by
      rw [BitVec.toNat_allOnes, Int.natCast_sub (Nat.one_le_two_pow)]
      rfl
    rw [if_neg Bool.false_ne_true, intMax, if_neg Bool.false_ne_true, ones, wrapInt_eq_ofInt, BitVec.ofInt_natCast,
      BitVec.ofNat_toNat, BitVec.setWidth_eq]

theorem wrapInt_intMin (pos : 0 < w) (sg : Bool) :
    wrapInt w (intMin sg w) = (if sg then BitVec.intMin w else 0#w).toNat := by
  cases sg with
  | true =>
    rw [if_pos rfl, ← wrapInt_toInt, BitVec.toInt_intMin_of_pos pos, intMin, if_pos rfl]
    push_cast
    rfl
  | false => rw [if_neg Bool.false_ne_true, intMin, if_neg Bool.false_ne_true, wrapInt_eq_ofInt]; rfl

/-- A fold on words is one on their numbers. -/
theorem foldl_toNat {F : Nat → Nat → Nat} {f : BitVec w → BitVec w → BitVec w} (h : ∀ x y, F x.toNat y.toNat = (f x y).toNat)
    (v : BitVec w) (r : List (BitVec w)) : (r.map BitVec.toNat).foldl F v.toNat = (r.foldl f v).toNat := by
  rw [List.foldl_map]
  exact List.foldl_hom BitVec.toNat (fun x y => h x y)

theorem foldl_add_mod (r : List (BitVec w)) : (r.map BitVec.toNat).foldl (· + ·) 0 % 2 ^ w = (r.foldl (· + ·) 0#w).toNat := by
  rw [List.foldl_map, ← BitVec.toNat_ofNat]
  refine congrArg BitVec.toNat ((List.foldl_hom (BitVec.ofNat w) (init := 0) fun n v => ?_).symm)
  rw [BitVec.ofNat_add, BitVec.ofNat_toNat, BitVec.setWidth_eq]

end

/-- A reduction of integers (R152). -/
theorem reduce_integer {ty : Ty} {w : Nat} (width : ty.bits = w) {op : RedOp}
    (int : op ≠ .fadd ∧ op ≠ .fmin ∧ op ≠ .fmax) (vs : List (BitVec w)) :
    reduce op ty (vs.map BitVec.toNat) = ((foldInt op ty.signed vs).toNat, 0) := by
  subst width
  have pos := bits_pos ty
  cases op with
  | add => exact congrArg (·, 0) (foldl_add_mod vs)
  | min =>
    cases vs with
    | nil => exact congrArg (·, 0) (wrapInt_intMax ty.signed)
    | cons v r =>
      rw [foldInt_min_cons]
      exact congrArg (·, 0) (foldl_toNat (least_eq ty.signed pos) v r)
  | max =>
    cases vs with
    | nil => exact congrArg (·, 0) (wrapInt_intMin pos ty.signed)
    | cons v r =>
      rw [foldInt_max_cons]
      exact congrArg (·, 0) (foldl_toNat (most_eq ty.signed pos) v r)
  | and =>
    refine congrArg (·, 0) ?_
    rw [← BitVec.toNat_allOnes]
    exact foldl_toNat (fun _ _ => rfl) _ vs
  | or => exact congrArg (·, 0) (foldl_toNat (fun _ _ => rfl) 0#ty.bits vs)
  | xor => exact congrArg (·, 0) (foldl_toNat (fun _ _ => rfl) 0#ty.bits vs)
  | fadd => exact absurd rfl int.1
  | fmin => exact absurd rfl int.2.1
  | fmax => exact absurd rfl int.2.2

theorem fmin32_toNat (a b : Word) : fmin32 a.toNat b.toNat = (floatLeast a b).toNat := by
  rw [← ofNat_fmin32, BitVec.toNat_ofNat, Nat.mod_eq_of_lt]
  have := a.isLt
  have := b.isLt
  unfold fmin32
  split_ifs <;> omega

theorem fmax32_toNat (a b : Word) : fmax32 a.toNat b.toNat = (floatMost a b).toNat := by
  rw [← ofNat_fmax32, BitVec.toNat_ofNat, Nat.mod_eq_of_lt]
  have := a.isLt
  have := b.isLt
  unfold fmax32
  split_ifs <;> omega

/-- A reduction of FP32 values (R117, R152). -/
theorem reduce_float {op : RedOp} (float : op = .fadd ∨ op = .fmin ∨ op = .fmax) (vs : List Word) :
    reduce op .f32 (vs.map BitVec.toNat) = foldFloat op vs := by
  rcases float with rfl | rfl | rfl
  · unfold reduce foldFloat
    dsimp only
    rw [List.isEmpty_map, List.map_map, rounded_eq_roundResult]
    rfl
  · cases vs with
    | nil => rfl
    | cons v r =>
      refine congrArg (·, 0) ?_
      rw [fmin32_toNat]
      exact foldl_toNat fmin32_toNat _ r
  · cases vs with
    | nil => rfl
    | cons v r =>
      refine congrArg (·, 0) ?_
      rw [fmax32_toNat]
      exact foldl_toNat fmax32_toNat _ r

/-- The result of a reduction in its register, with its status (R152). -/
theorem putT_reduce {ty : Ty} {op : RedOp} (admits : op.admits ty = true) (u : State) (d a : Opnd) (ms : List LaneRef)
    (e : Env) (t : Thread) :
    (e.putT t ty d (reduce op ty (ms.map fun m => (view u m).srcT (u.thread m) ty a)).1).raise
        (reduce op ty (ms.map fun m => (view u m).srcT (u.thread m) ty a)).2 =
      reduceTo u ty op d a ms e t := by
  have wide (h : ty.wide = true) : (ms.map fun m => (view u m).srcT (u.thread m) ty a) =
      (ms.map (reads64 u a)).map BitVec.toNat := by
    rw [List.map_map]
    exact List.map_congr_left fun m _ => srcT_of_wide h
  have narrow (h : ty.wide = false) : (ms.map fun m => (view u m).srcT (u.thread m) ty a) =
      (ms.map (reads u a)).map BitVec.toNat := by
    rw [List.map_map]
    exact List.map_congr_left fun m _ => srcT_of_narrow h
  by_cases float : op = .fadd ∨ op = .fmin ∨ op = .fmax
  · obtain rfl : ty = .f32 := by rcases float with rfl | rfl | rfl <;> simpa [RedOp.admits] using admits
    rw [narrow rfl, reduce_float float]
    rcases float with rfl | rfl | rfl <;> rfl
  · have int : ty.isIW32or64 = true := by cases op <;> simp_all [RedOp.admits]
    simp only [not_or] at float
    unfold reduceTo
    rw [signedTy_eq]
    cases h : ty.wide with
    | true =>
      rw [wide h, reduce_integer (bits_of_wide int h) float, raise_zero, Env.putT, h, if_pos rfl, if_pos rfl, BitVec.ofNat_toNat,
        BitVec.setWidth_eq]
    | false =>
      rw [narrow h, reduce_integer (bits_of_narrow int h) float, raise_zero, Env.putT, h, if_neg Bool.false_ne_true,
        if_neg Bool.false_ne_true, BitVec.ofNat_toNat, BitVec.setWidth_eq]
      obtain ⟨add, min, max⟩ := float
      cases op with
      | fadd => exact absurd rfl add
      | fmin => exact absurd rfl min
      | fmax => exact absurd rfl max
      | _ => rfl

/-- The participants of a scan, without or with the lane itself (R153). -/
theorem scanned_eq (exc : Bool) (m n : Nat) :
    (if exc then decide (m < n) else decide (m ≤ n)) = (decide (m < n) || (!exc && m == n)) := by
  cases exc with
  | true => exact (Bool.or_false _).symm
  | false =>
    rw [Bool.eq_iff_iff]
    simp [Nat.le_iff_lt_or_eq]

/-! The instructions. -/

section
variable {s : State} {g : Group} {x : Effect} {gd : Guard} {ty : Ty} {d a b : Opnd}

/-- SHFL (R150). -/
theorem shfl_next {mode : ShflMode} (hx : crossing (.shfl gd mode d a b) = some x)
    (h : Ready s g (.shfl gd mode d a b)) (agree : pairsAgree s g x) :
    exec (.shfl gd mode d a b) s = .next (x.result s g) := by
  obtain rfl := Option.some.inj hx
  change execShfl gd mode d a b s = _
  refine crossLane_next _ _ h agree rfl rfl fun u l => congrArg ((view u l).put (u.thread l) d) ?_
  refine (congrArg (BitVec.ofNat 32) (getD_bind_partAt u _ _ _ _ l)).trans ?_
  rw [BitVec.ofNat_toNat, BitVec.setWidth_eq]
  cases mode <;> rfl

/-- VOTE (R151). -/
theorem vote_next {mode : VoteMode} (hx : crossing (.vote gd mode d a) = some x)
    (h : Ready s g (.vote gd mode d a)) (agree : pairsAgree s g x) :
    exec (.vote gd mode d a) s = .next (x.result s g) := by
  obtain rfl := Option.some.inj hx
  change execVote gd mode d a s = _
  refine crossLane_next _ _ h agree rfl rfl fun u l => ?_
  have yes : ((fun p : Part => p.a != 0) ∘ partOf u (fun e t => (e.src t a).toNat) fun _ _ => 0) =
      fun m => reads u a m != 0#32 := funext fun m => toNat_bne_zero (reads u a m)
  cases mode with
  | all =>
    dsimp only
    rw [List.all_map, yes]
  | any =>
    dsimp only
    rw [List.any_map, yes]
  | bal => exact congrArg ((view u l).put64 (u.thread l) d) (ballot_eq u l a _)

/-- REDX (R152). -/
theorem redx_next {op : RedOp} (admits : op.admits ty = true) (hx : crossing (.redx gd ty op d a) = some x)
    (h : Ready s g (.redx gd ty op d a)) (agree : pairsAgree s g x) :
    exec (.redx gd ty op d a) s = .next (x.result s g) := by
  obtain rfl := Option.some.inj hx
  change execRedx gd ty op d a s = _
  refine crossLane_next _ _ h agree rfl rfl fun u l => ?_
  dsimp only
  rw [List.map_map]
  exact putT_reduce admits ..

/-- SCANX (R153). -/
theorem scanx_next {op : RedOp} {exc : Bool} (admits : op.admits ty = true) (hx : crossing (.scanx gd ty op exc d a) = some x)
    (h : Ready s g (.scanx gd ty op exc d a)) (agree : pairsAgree s g x) :
    exec (.scanx gd ty op exc d a) s = .next (x.result s g) := by
  obtain rfl := Option.some.inj hx
  change execScanx gd ty op exc d a s = _
  refine crossLane_next _ _ h agree rfl rfl fun u l => ?_
  dsimp only
  have before : ((fun p : Part => if exc then decide (p.lane < laneNo u l) else decide (p.lane ≤ laneNo u l)) ∘
      partOf u (fun e t => e.srcT t ty a) fun _ _ => 0) =
      fun m => decide (laneNo u m < laneNo u l) || (!exc && laneNo u m == laneNo u l) :=
    funext fun m => scanned_eq exc (laneNo u m) (laneNo u l)
  rw [List.filter_map, List.map_map, before]
  exact putT_reduce admits ..

/-- BCST (R154). -/
theorem bcst_next (hx : crossing (.bcst gd ty d a b) = some x)
    (h : Ready s g (.bcst gd ty d a b)) (agree : pairsAgree s g x) :
    exec (.bcst gd ty d a b) s = .next (x.result s g) := by
  obtain rfl := Option.some.inj hx
  change execBcst gd ty d a b s = _
  refine crossLane_next _ _ h agree rfl rfl fun u l => ?_
  dsimp only
  generalize partners u (running s g gd) l = ps
  have leader : ((ps.map (partOf u (fun e t => e.srcT t ty a) fun e t => (e.src t b).toNat)).head?.map Part.b).bind
      (withNo u ps) =
      ps.head?.bind fun m => withNo u ps (reads u b m).toNat := by
    cases ps <;> rfl
  rw [← leader]
  have value := getD_bind_partAt u (fun e t => e.srcT t ty a) (fun e t => (e.src t b).toNat) ps
    ((ps.map (partOf u (fun e t => e.srcT t ty a) fun e t => (e.src t b).toNat)).head?.map Part.b) l
  exact putT_eq _ _ d (fun h => value.trans (srcT_of_wide h)) fun h => value.trans (srcT_of_narrow h)

end

end Sys2Proof.Machine

namespace Sys2Proof

open Machine Spec

/-- Settles O28: the model's participants are those of R149, and each lane's value is that of the table. -/
theorem crossLane : Obligations.CrossLane := by
  unfold Obligations.CrossLane
  intro i x s g hx wf h _ agree
  have table := hx
  unfold crossing at table
  split at table
  next => exact shfl_next hx h agree
  next => exact vote_next hx h agree
  next => exact redx_next (first_of_three wf) hx h agree
  next => exact scanx_next (first_of_three wf) hx h agree
  next => exact bcst_next hx h agree
  next => exact absurd table nofun

end Sys2Proof
end
